-- ==== Sys2Proof/Word.lean ====
section
/-! DEFINITION. The word types: bytes, dwords, and the sparse table every large collection of the state is held in. -/
namespace Sys2Proof

/-- A byte. -/
abbrev Byte := BitVec 8
/-- A command dword. -/
abbrev Dword := BitVec 32
/-- A sparse table: (key, entry) pairs, keys strictly rising. A key that is not listed has the table's default entry. -/
abbrev Tbl (α : Type) := List (Nat × α)

/-- One value for each controller card or each port of the pair (`a` for CA, H0, B0, U0, PEU-A; `b` for the other). -/
structure Pair (α : Type) where
  a : α
  b : α
  deriving DecidableEq, Repr, Inhabited

end Sys2Proof
end

