-- ==== Sys2Proof/Config.lean ====
section
/-! DEFINITION. What a module's manufacture fixes and what the spec leaves open: opaque constants, no value chosen.
The functions of published standards that the spec names and does not define (SHA-256, HSS, HMAC, HKDF, AES-XTS) are
opaque too: assumption 6. -/
namespace Sys2Proof.Config

/-- The module's random source (R197, R339): the n-th 64-bit value drawn, a free value (assumption 7). -/
opaque random : Nat → BitVec 64
/-- The bytes of a value, least significant first. -/
def octets {n : Nat} (v : BitVec n) : List Byte := (List.range (n / 8)).map fun i => v.extractLsb' (8 * i) 8
/-- SHA-256 of a byte string (assumption 6). -/
opaque sha256Digest : List Byte → BitVec 256
/-- SHA-256 of a byte string, as 32 bytes. -/
def sha256 (l : List Byte) : List Byte := octets (sha256Digest l)
/-- HMAC-SHA-256 of a byte string under a key (assumption 6). -/
opaque hmacDigest : Nat → List Byte → BitVec 256
/-- HMAC-SHA-256 of a byte string under a key, as 32 bytes. -/
def hmac (k : Nat) (l : List Byte) : List Byte := octets (hmacDigest k l)
/-- Does an HSS signature over a byte string verify with a public key (RFC 8554; assumption 6)? -/
opaque hssVerify : List Byte → List Byte → List Byte → Bool
/-- The attestation key's HSS signature with a signing index (R346; assumption 6). -/
opaque attestSign : Nat → List Byte → List Byte
/-- Do the parameter sets that an HSS public key names lie in those of R340 (assumption 6)? -/
opaque signerParamsOk : List Byte → Bool
/-- Does the image as shipped carry a co-signature block that verifies with a root installed later (R355; assumption 6)? -/
opaque shippedCosigned : List Byte → Bool
/-- Levels, LMS type and LM-OTS type of an HSS public key (R350). -/
opaque hssLevels : List Byte → Nat
opaque hssLmsType : List Byte → Nat
opaque hssOtsType : List Byte → Nat
/-- VENDOR_ROOT and FACTORY_AUTH, 32 bytes each, fused at manufacture (R329). -/
opaque fusedRoot : BitVec 256
opaque fusedAuth : BitVec 256
def vendorRoot : List Byte := octets fusedRoot
def factoryAuth : List Byte := octets fusedAuth
/-- The module serial number, 20 ASCII characters (R462). -/
opaque serialNumber : BitVec 160
def moduleSerial : List Byte := octets serialNumber
/-- Factory MAC address of each bulk port, 0 = B0, 1 = B1 (R242). -/
opaque bulkMac : Nat → BitVec 48
/-- Board revision of a controller card, a frond or a PEU as shipped (R352, R354). -/
opaque boardRev : Nat → Nat
/-- What manufacture measured for a die; its hard limit, 180 to 240 bits per codeword, follows from it (R69). -/
opaque hardLimit : Nat → Nat
/-- Berisk's endorsement page signature and the attestation public key (R347). -/
opaque endorsementSig : List Byte
opaque attestKey : List Byte
/-- A PEU's calibration value as shipped, by PEU and index (R403). -/
opaque calibration : Nat → Nat → BitVec 32
/-- The MCTP endpoint UUID (R188 names the command; the spec states no value). -/
opaque endpointId : BitVec 128
def endpointUuid : List Byte := octets endpointId
/-- Byte n of the vital product data whose content is the string given: the spec names the items and not their places (R189). -/
opaque vpdByte : List Byte → Nat → Byte
/-- A value the NVMe, NVMe-MI or MCTP standard defines and the spec does not state: byte n of the named structure
(assumption 15). -/
opaque standardByte : String → Nat → Byte
/-- Bytes that the spec calls undefined, or does not state, drawn one after the other (assumption 7). -/
opaque freeByte : Nat → Byte
/-- AES-256-XTS under a namespace key of a data unit whose tweak is NSID × 2^64 + LBA (R335; assumption 6). -/
opaque xts : Nat → Nat → Nat → List Byte → List Byte
/-- The namespace key that HKDF-SHA-256 derives from a slice media key and a namespace salt (R334; assumption 6). -/
opaque xtsKey : Nat → Nat → Nat
/-- The draw of the disturbance-refresh random source of a channel (R266). -/
opaque refreshDraw : Nat → Nat → Bool

/-- Time, in sixteenths of a count, that a RACHIS message spends in a module before its first byte departs (R310): of the
n-th such message, a free value. -/
opaque residence : Nat → Nat
/-- Does a die-block read as erased at the blank-check after its n-th completed erase (R80; assumption 8)? -/
opaque blankErased : Nat → Nat → Bool
/-- Where on its frond a copy of a map page lies (R150): die, plane, metadata block and wordline set, from its low bits up. -/
opaque metaPlace : Nat → Nat → Nat
/-- The entry width that firmware fixes for a bank of its own at start-up (R216): one, two or four units. -/
opaque fwWidth : Nat → Nat
/-- Parameter error location of an Error Information entry whose status names no byte of the command, by the number of the entry: R168 states
none (assumption 178). -/
opaque errorLoc : Nat → BitVec 16
/-- Does an engine, numbered as in the engine table, fail its self-test at the exit from a power state that ends at an instant (R25, R413;
assumption 8)? -/
opaque selfTestFails : Nat → Nat → Bool
/-- Narrowest byte-lane eye of a rank's training, by card × 8 + rank and instant: what the training measures (R264, R279; assumption 199). -/
opaque rankEye : Nat → Nat → Nat
/-- Does a die-block whose n-th erase was cut hold at most 8 programmed bits a codeword (R79)? -/
opaque nearErased : Nat → Nat → Bool

end Sys2Proof.Config
end

