-- ==== Sys2Proof/Syntax.lean ====
section
/-! DEFINITION. The commands: every row of the opcode table a constructor of `Instr`, with the row's operands. The
operands of an event are what the outside world supplies with it (a die's status, a decode result, a reading, a
message's content): assumption 8. -/
namespace Sys2Proof

/-- Host port: H0 on CA, H1 on CB (R5). -/
inductive Port where | h0 | h1
  deriving DecidableEq, Repr, Inhabited
/-- Controller card (R5); also names its Quihar and its bulk port. -/
inductive CardId where | ca | cb
  deriving DecidableEq, Repr, Inhabited
/-- Power entry unit (R5). -/
inductive PeuId where | a | b
  deriving DecidableEq, Repr, Inhabited
/-- Culm port (R5): U0 on CA, U1 on CB. -/
inductive CulmPort where | u0 | u1
  deriving DecidableEq, Repr, Inhabited
/-- ANA group (R281). -/
inductive Group where | g1 | g2
  deriving DecidableEq, Repr, Inhabited
/-- Frond F0–F15 (R5). -/
abbrev Frond := Fin 16
/-- Decode tier (R69). -/
inductive Tier where | hard | soft | deep
  deriving DecidableEq, Repr, Inhabited
/-- Buffer pool (R256). -/
inductive Pool where | p4k | p64k | p256k | s16k
  deriving DecidableEq, Repr, Inhabited
/-- Controller registers of a host port that a host write may name (R11, R159, R174). -/
inductive HostReg where | cap | vs | cc | csts | aqa | asq | acq | intms | intmc | nssr
  deriving DecidableEq, Repr, Inhabited
/-- A programmable engine (R23): of a Quihar by index 0–63 (CC 0–15, SE 16–39, LE 40–55, HE 56–63), or of a Filnas
by index 0–8 (CS0–CS7, card core 8). -/
inductive EngineRef where
  | quihar (card : CardId) (index : Nat)
  | filnas (frond : Frond) (index : Nat)
  deriving DecidableEq, Repr, Inhabited
/-- A submission-queue entry as fetched (R178), with the count of the frame at which it is fetched, the bytes its data
pointer covers and the bytes the host supplies there. -/
structure Sqe where
  port : Port := .h0
  sqid : Nat := 0
  cid : Nat := 0
  opc : Byte := 0
  psdt : BitVec 2 := 0
  nsid : Nat := 0
  dptr : BitVec 128 := 0
  cdw10 : Dword := 0
  cdw11 : Dword := 0
  cdw12 : Dword := 0
  cdw13 : Dword := 0
  cdw14 : Dword := 0
  cdw15 : Dword := 0
  dlen : Nat := 0
  data : List Byte := []
  cnt : Nat := 0
  deriving DecidableEq, Repr, Inhabited
/-- A spikelet entry to be written (R217). -/
structure SpikEntry where
  prio : BitVec 12 := 0
  key : BitVec 320 := 0
  mask : BitVec 320 := 0
  result : BitVec 24 := 0
  deriving DecidableEq, Repr, Inhabited
/-- What a poisoned line holds, for the consumer that meets it (R262, R270). -/
inductive PoisonUse where
  | writeData (cmd block : Nat)
  | staged (cmd : Nat)
  | durable
  | accumulator (nsid zone : Nat)
  | cleanPage (nsid page : Nat)
  | dirtyPage (nsid page : Nat)
  | program (slice slot : Nat)
  | ownTable
  | mirrorTable
  | freeRing (pool : Pool)
  | working (engine : Nat)
  deriving DecidableEq, Repr, Inhabited
/-- A check-value unit context (R272). -/
structure CheckCtx where
  reg : BitVec 64 := BitVec.allOnes 64
  bytes : BitVec 48 := 0
  alg : Bool := false
  source : Byte := 0
  deriving DecidableEq, Repr, Inhabited
/-- A heartbeat as received (R285); `crcOk` is CU26's result. -/
structure HeartbeatMsg where
  alive : BitVec 8 := 0
  state : Nat := 0
  owns1 : Bool := false
  owns2 : Bool := false
  tickMaster : Bool := false
  fcLow : BitVec 32 := 0
  msnAck : Nat := 0
  ownEpoch : Nat := 0
  crcOk : Bool := true
  deriving DecidableEq, Repr, Inhabited
/-- A culm message header as received (R306); `crcOk` is CU25's result. -/
structure CulmHdr where
  port : CulmPort := .u0
  alive : BitVec 8 := 0
  crcOk : Bool := true
  src : Nat := 0
  dst : Nat := 0
  bcast : Bool := false
  hops : Nat := 0
  seq : Nat := 0
  deriving DecidableEq, Repr, Inhabited
/-- HELLO payload (R306). -/
structure HelloMsg where
  pos : Nat := 0
  port : CulmPort := .u0
  serial : List Byte := []
  eligible : Bool := true
  health : Nat := 0
  override : Bool := false
  revision : List Byte := []
  deriving DecidableEq, Repr, Inhabited
/-- One position of a CENSUS payload (R306), with the serial number that a position conflict compares (R304). -/
structure CensusEntry where
  pos : Nat := 0
  state : Nat := 0
  hops : Nat := 0
  lastSfc : Nat := 0
  serial : List Byte := []
  deriving DecidableEq, Repr, Inhabited
/-- One member's share in a GRANT payload (R306, R318). -/
structure GrantShare where
  pos : Nat := 0
  base : Nat := 0
  want : Nat := 0
  grant : Nat := 0
  deriving DecidableEq, Repr, Inhabited
/-- An event record (R373); `data` is bytes 32–63 as a little-endian number. -/
structure EventRec where
  fc : Nat := 0
  ep : Nat := 0
  count : Nat := 0
  code : Nat := 0
  wall : Nat := 0
  timeEpoch : Nat := 0
  source : Nat := 0
  cls : Nat := 0
  reserve : Bool := false
  data : Nat := 0
  deriving DecidableEq, Repr, Inhabited
/-- What a PEU measures for its next STATUS (R398): VIN and IIN in 10 mV and 10 mA, VOUT in mV, IOUT in 10 mA, PIN in
0.1 W, four temperatures in °C, SHARE in percent. -/
structure PeuMeasure where
  vin : Int := 0
  iin : Int := 0
  vout : Nat := 0
  iout : Nat := 0
  pin : Nat := 0
  temps : List Int := [0, 0, 0, 0]
  share : Nat := 0
  deriving DecidableEq, Repr, Inhabited
/-- A PEU STATUS payload (R398). -/
structure PeuStatusMsg where
  m : PeuMeasure := {}
  state : Nat := 0
  faults : BitVec 16 := 0
  caSilent : Nat := 0
  cbSilent : Nat := 0
  iLimit : Nat := 100
  margin : Int := 0
  bank : Bool := false
  updating : Bool := false
  deriving DecidableEq, Repr, Inhabited
/-- The head of a barrier command as the PEU receives it (R394, R396): from which card it came on the link. -/
structure BarrierCmd where
  card : CardId := .ca
  alive : BitVec 8 := 0
  crcOk : Bool := true
  deriving DecidableEq, Repr, Inhabited
/-- A slot fuse (R400). -/
inductive FuseSlot where
  | frond (f : Frond)
  | card (c : CardId)
  deriving DecidableEq, Repr, Inhabited
/-- A temperature sensor (R419). -/
inductive SensorId where
  | junction (card : CardId) (n : Nat)
  | dram (card : CardId) (n : Nat)
  | filnas (frond : Frond) (n : Nat)
  | package (frond : Frond) (n : Nat)
  | peu (peu : PeuId) (n : Nat)
  deriving DecidableEq, Repr, Inhabited
/-- A sensor and its reading in eighths of a degree (R419). -/
structure SensorReading where
  id : SensorId
  t : Int
  deriving DecidableEq, Repr, Inhabited
/-- A regulator (R414): the core supply of a card, another point-of-load regulator of a card, or one of a frond. -/
inductive RegId where
  | core (card : CardId)
  | cardPol (card : CardId) (n : Nat)
  | frondPol (frond : Frond) (n : Nat)
  deriving DecidableEq, Repr, Inhabited
/-- What the module reads of an inserted frond (R60, R102, R435): its dies that fail, its factory-bad positions as die × 4096 + position,
both counted within the frond. -/
structure FrondIdent where
  partOk : Bool := true
  rev : Nat := 0
  serial : List Byte := []
  tableValid : Bool := false
  tableSlot : Option Nat := none
  coreOk : Bool := true
  trainOk : Bool := true
  store : List EventRec := []
  failed : List Nat := []
  factoryBad : List Nat := []
  deriving DecidableEq, Repr, Inhabited
/-- What the module reads of an inserted PEU (R2, R440). -/
structure PeuIdent where
  keltan : Bool := true
  rev : Nat := 0
  deriving DecidableEq, Repr, Inhabited
/-- What a die reports with its last segment (R38, R68). -/
structure DieStatus where
  die : Nat := 0
  pass : Bool := true
  deriving DecidableEq, Repr, Inhabited
/-- How a spikelet search compares: under its mask, and with which units it finds a parity fault (R218, R221). -/
structure SearchMask where
  mask : BitVec 320 := BitVec.allOnes 320
  faulty : List Nat := []
  deriving DecidableEq, Repr, Inhabited
/-- What the module reads of an inserted controller card (R2, R437). -/
structure CardIdent where
  partOk : Bool := true
  rev : Nat := 0
  moduleSerial : List Byte := []
  mrkGen : Option Nat := none
  recorderSerial : List Byte := []
  clearGen : Nat := 0
  slot1Sha : List Byte := []
  slot2Sha : List Byte := []
  activeSlot : Nat := 1
  ownEpoch : Nat := 0
  ep : Nat := 0
  sealed : Bool := false
  deriving DecidableEq, Repr, Inhabited

/-- The commands of the block, in the order of the opcode table. -/
inductive Instr where
  /-- MODULE_POWER_ON (R427). The 12 V bus becomes good with no bus before; a new power epoch begins and the start-up sequence runs. -/
  | modulePowerOn (straps : BitVec 5) (foundSeq : Nat)
  /-- NAMESPACES_READY (R428). An owner's recovery ends, its namespaces become ready and Namespace Attribute Changed is posted. -/
  | namespacesReady (card : CardId)
  /-- NVM_SUBSYSTEM_RESET (R429). NSSR on a port stops fetch, drains media work, checkpoints and restarts both cards and all Filnas in a new power epoch. -/
  | nvmSubsystemReset (port : Port)
  /-- RESET_N_ASSERT (R430). RESET_N held low for at least 4 frames starts an NVM Subsystem Reset and holds both cards. -/
  | resetNAssert (frames : Nat)
  /-- RESET_N_RELEASE (R430). Release of RESET_N lets the held cards start. -/
  | resetNRelease
  /-- CC_EN_CLEAR (R174). A host write clearing CC.EN resets one controller. -/
  | ccEnClear (port : Port)
  /-- FUNCTION_LEVEL_RESET (R174). A Function Level Reset resets one controller. -/
  | functionLevelReset (port : Port)
  /-- CONTROLLER_LEVEL_RESET (R174). A Controller Level Reset resets one controller. -/
  | controllerLevelReset (port : Port)
  /-- PCIE_LINK_LOSS (R174). Loss of a host port's PCIe link, surprise removal included, resets that controller. -/
  | pcieLinkLoss (port : Port)
  /-- SHUTDOWN_NOTIFICATION (R175). A CC.SHN write stops fetch on every queue of the controller. -/
  | shutdownNotification (port : Port)
  /-- SHUTDOWN_COMPLETE (R175). Once every fetched command has completed, shutdown complete is reported. -/
  | shutdownComplete (port : Port)
  /-- SQ_TAIL_DOORBELL (R49). A submission-queue tail doorbell write is registered and starts the deadline of commands it covers. -/
  | sqTailDoorbell (port : Port) (sqid tail cnt : Nat)
  /-- CQ_HEAD_DOORBELL (R211). A completion-queue head doorbell write frees completion slots. -/
  | cqHeadDoorbell (port : Port) (cqid head : Nat)
  /-- REGISTER_WRITE (R11). A host write to a register that has no row of its own acts per its access code. -/
  | registerWrite (port : Port) (reg : HostReg) (value hwSet : BitVec 64)
  /-- COMMAND_FETCH (R205). The Quihar fetches a command, classifies it and admits it bound or weighted. -/
  | commandFetch (e : Sqe)
  /-- FRAME_TICK (R15). At each tick FC increments and the frame-counted duties run in order. -/
  | frameTick
  /-- FRAME_START_MARKER (R33). A Filnas receives a marker and corrects its phase by at most 16 counts. -/
  | frameStartMarker (frond : Frond) (card : CardId) (low : BitVec 16) (phase : Int)
  /-- MARKER_MISSING (R33). The master's marker is 64 counts late and Filnas follows the other Quihar's marker. -/
  | markerMissing (frond : Frond)
  /-- MARKER_LOST (R33). No marker on either link for 16 frames; the Filnas is handled as a failed card core. -/
  | markerLost (frond : Frond)
  /-- MEDIA_REQUEST (R39). A frond link engine request reaches Filnas and is placed, inserted or returned not placed. -/
  | mediaRequest (req cnt : Nat)
  /-- PLAN_CLOSE (R40). At count 12,000 of frame k the plan for frame k+1 stops accepting requests. -/
  | planClose (frond : Frond)
  /-- FRAME_PLAN_FIX (R40). Filnas fixes the frame and channel plans, packs seedbed programs and sends frame-plan messages. -/
  | framePlanFix (frond : Frond) (cnt : Nat)
  /-- FRAME_PLAN_MESSAGE (R40). A Quihar receives a frame-plan message; a gap makes its requests not placed. -/
  | framePlanMessage (card : CardId) (frond : Frond) (alive : BitVec 8) (crcOk : Bool)
  /-- PLAN_LATE (R50). The plan is not fixed by count 15,872 and a hold plan runs. -/
  | planLate (frond : Frond) (cnt : Nat)
  /-- SUSPEND_POINT (R37). At count 8,320 an unfinished segment of a multi-segment operation receives Suspend. -/
  | suspendPoint (die : Nat)
  /-- SEGMENT_CHECK (R50). At count 8,960 a die must be ready or suspended, else a segment overrun; read-window reads issue. -/
  | segmentCheck (die : Nat) (ready : Bool)
  /-- READ_CHECK (R50). A sense not ended at its read check is aborted as a read-window overrun. -/
  | readCheck (die plane cnt : Nat) (ended : Bool)
  /-- CHANNEL_PLAN_OVERRUN (R50). A channel transfer not ended at the tick is dropped and its segment withdrawn. -/
  | channelPlanOverrun (chan : Nat) (dropped : List Nat)
  /-- CHANNEL_CAP_RESTORE (R52). After 4,000 frames the lowered channel cap returns to 190. -/
  | channelCapRestore (chan : Nat)
  /-- QUARANTINE_LIFT (R51). A die overrun-free for QUAR_HOLD frames leaves quarantine. -/
  | quarantineLift (die : Nat)
  /-- SENSE_END (R35). A plane sense ends and its page waits in the cache register for data-out. -/
  | senseEnd (die plane : Nat)
  /-- DATA_OUT_END (R45). A codeword transfer on a channel ends and the codeword goes to decode. -/
  | dataOutEnd (req : Nat)
  /-- DECODE_RESULT (R69). A hard, soft or deep decode ends with data and a corrected-bit count, or fails. -/
  | decodeResult (req : Nat) (tier : Tier) (bad cbc cnt : Nat)
  /-- STREAM_ENGINE_UNIT (R447). At a unit boundary a stream engine takes the highest waiting class of work. -/
  | streamEngineUnit (card : CardId) (engine : Nat)
  /-- RECONSTRUCTION_DONE (R92). A stream engine combines member pieces into the missing codeword. -/
  | reconstructionDone (piece : Nat)
  /-- READ_PIECE_DELIVERY (R22). A decoded piece in S16K is decrypted, checked and sent by DMA or RDMA WRITE. -/
  | readPieceDelivery (piece : Nat)
  /-- COMMAND_DEADLINE (R53). A bound command not completed at its deadline is a deadline fault treated by its slice policy. -/
  | commandDeadline (cmd : Nat)
  /-- ENGINE_WATCHDOG (R24). An engine without heartbeat for 16 frames is stopped and the module continues per the failure table. -/
  | engineWatchdog (engine : EngineRef)
  /-- PROGRAM_STATUS_REPORT (R112). A seedbed program reports its status; once all three copies pass, the write completes. -/
  | programStatusReport (prog : Nat) (pass : Bool)
  /-- PACK_WAIT_EXPIRY (R110). A weighted codeword's PACK_WAIT ends and its program is written with padding. -/
  | packWaitExpiry (frond : Frond)
  /-- FOLD_HOLD_EXPIRY (R118). FOLD_HOLD frames after a chunk became ready, its fold is requested. -/
  | foldHoldExpiry (slot pos row : Nat)
  /-- QLC_PROGRAM_DONE (R38). The last of 20 segments finishes a QLC wordline-set program. -/
  | qlcProgramDone (report : DieStatus)
  /-- FOLD_VERIFY_DONE (R21). In-die verification returns mismatch counts; within limit the release sequence starts, else all copies stay. -/
  | foldVerifyDone (die : Nat) (within : Bool)
  /-- MEMBER_TABLE_PROGRAM (R120). Filnas programs batched verified row counts into its member table at least every 16 frames. -/
  | memberTableProgram (frond : Frond)
  /-- ACCUMULATOR_RECOMPUTE_DONE (R117). A lost parity accumulator has been recomputed from seedbed copies and waiting writes proceed. -/
  | accumulatorRecomputeDone (nsid zone : Nat)
  /-- FULL_WAIT_EXPIRY (R124). A write stopped for FULL_WAIT frames fails with Seedbed Full and its zone blocks become fill codewords. -/
  | fullWaitExpiry (cmd : Nat)
  /-- ERASE_DONE (R62). An erase passes erase-verify, adds wear and the block joins the free pool, or fails after 72 segments. -/
  | eraseDone (die : Nat) (pass : Bool)
  /-- ERASE_JOURNAL_RECORD (R77). Every 64 frames Filnas writes an erase-journal record of completions and intents. -/
  | eraseJournalRecord (frond : Frond)
  /-- DIE_RESET_TIMEOUT (R81). A die without ready status within 2 frames of a reset, twice, is declared failed. -/
  | dieResetTimeout (die : Nat)
  /-- CHANNEL_RETRAIN_DUE (R65). RETRAIN_HOURS or RETRAIN_TEMP is reached and a training frame is named for the channel. -/
  | channelRetrainDue (chan : Nat)
  /-- CHANNEL_TRAINING_END (R64). Channel training ends with delays centred or the die or channel failed. -/
  | channelTrainingEnd (chan : Nat) (failed : List Nat) (eye temp : Nat)
  /-- REFRESH_DONE (R74). A refresh copy has passed verification and the member moves to the new block. -/
  | refreshDone (die block : Nat)
  /-- SCRUB_DUE (R75). A closed member's scrub interval is reached and its margin reads are queued at rank 8. -/
  | scrubDue (die block : Nat)
  /-- READ_OFFSET_RECALIBRATION (R76). A group's read-offset recalibration ends and new offsets apply to later plans. -/
  | readOffsetRecalibration (die group : Nat) (offsets : List Int)
  /-- REBUILD_STRIPE_DONE (R100). A stripe's new member passes verification to its folded row count and a kind 9 record is written. -/
  | rebuildStripeDone (slot pos : Nat)
  /-- ZONE_OPEN_WAIT_EXPIRY (R137). An opening waiting for an erase 400 frames fails with 0x83. -/
  | zoneOpenWaitExpiry (cmd : Nat)
  /-- ALLOCATOR_REQUEST (R137). The non-master Quihar requests a stripe slot from the tick master's allocator. -/
  | allocatorRequest (nsid zone : Nat) (cls : Nat)
  /-- GC_VICTIM_RELEASE (R149). After copies, journal records and reads end, the GC victim stripe is released. -/
  | gcVictimRelease (slot : Nat)
  /-- GC_WRITE_WAIT_EXPIRY (R148). A conventional write waiting 4,000 frames for a free stripe fails with 0x83. -/
  | gcWriteWaitExpiry (cmd : Nat)
  /-- MAP_JOURNAL_PROGRAMMED (R152). A journal codeword has all three copies and the conventional writes or zone actions it records complete. -/
  | mapJournalProgrammed (card : CardId)
  /-- MAP_PAGE_READ (R151). A missing map page is read and commands waiting for it proceed. -/
  | mapPageRead (nsid page : Nat)
  /-- CHECKPOINT_START (R154). Every 16,384 frames or after 64 MiB of records a checkpoint begins at a frame boundary. -/
  | checkpointStart (card : CardId)
  /-- CHECKPOINT_COMPLETE (R154). All three root copies are programmed and older journal records become dead. -/
  | checkpointComplete (card : CardId)
  /-- RANGE_LOCK_GRANT (R171). A waiting command's prefixes become clear after an earlier command's entries are invalidated. -/
  | rangeLockGrant (cmd : Nat)
  /-- RANGE_LOCK_TIMEOUT (R172). A command waiting 64 frames for lock entries fails with Range Lock Table Full. -/
  | rangeLockTimeout (cmd : Nat)
  /-- SPIKELET_SEARCH (R218). A search returns the highest-priority matching entry's result or no match. -/
  | spikeletSearch (card : CardId) (profile : Nat) (key : BitVec 320) (mask : SearchMask)
  /-- SPIKELET_UPDATE (R220). A position is invalidated, written and validated in three cycles. -/
  | spikeletUpdate (card : CardId) (pos : Nat) (entry : SpikEntry)
  /-- SPIKELET_SHADOW_COMPARE (R221). Every 4,000 frames each bank is compared with its SRAM shadow. -/
  | spikeletShadowCompare (card : CardId) (bank : Nat) (faulty : List Nat)
  /-- BUFFER_REQUEST (R258). HE4 grants or refuses a request for 1 to 16 handles of a pool. -/
  | bufferRequest (card : CardId) (pool : Pool) (count : Nat) (engine : Nat)
  /-- BUFFER_DEFERRAL_EXPIRY (R259). A command deferred 400 frames for buffers fails with Buffer Pool Empty. -/
  | bufferDeferralExpiry (cmd : Nat)
  /-- REFERENCE_DECREMENT (R261). A consumer decrements a shared buffer's count and the buffer is freed at zero. -/
  | referenceDecrement (card : CardId) (handle : BitVec 32) (consumers engine : Nat)
  /-- FENCE (R267). A source's FENCE completes when its earlier writes are visible to every source. -/
  | fence (card : CardId) (source : Nat)
  /-- DRAM_CORRECTED_ERROR (R268). A corrected DRAM error is counted and many trigger early retraining. -/
  | dramCorrectedError (card : CardId) (rank : Nat)
  /-- DRAM_UNCORRECTABLE_ERROR (R269). The line is poisoned and the rank is retired and migrated, or the card leaves service. -/
  | dramUncorrectableError (card : CardId) (rank line : Nat)
  /-- POISON_READ (R270). A consumer meets a poisoned line and acts per the region and data state. -/
  | poisonRead (card : CardId) (line : Nat) (use : PoisonUse)
  /-- RANK_RETRAIN_DUE (R265). RANK_HOURS, RANK_TEMP or corrected errors start a copy of the rank into the spare. -/
  | rankRetrainDue (card : CardId) (rank : Nat)
  /-- RANK_COPY_DONE (R265). The copy ends and at a frame boundary the rank table names the spare for the slot. -/
  | rankCopyDone (card : CardId)
  /-- RANK_TRAINING_END (R265). The old rank's training ends and it becomes the spare, or is retired. -/
  | rankTrainingEnd (card : CardId) (pass : Bool) (eye temp : Nat)
  /-- RANK_MIGRATION_DONE (R269). Migration of a failing rank to the spare ends. -/
  | rankMigrationDone (card : CardId)
  /-- CHECK_UNIT_COMBINE (R273). A check-value unit combines a finished value with a following value of n bytes. -/
  | checkUnitCombine (card : CardId) (unit : Nat) (value : BitVec 64) (bytes : Nat)
  /-- CHECK_CONTEXT_LOAD (R272). A check-value unit saves or loads its 16-byte context. -/
  | checkContextLoad (card : CardId) (unit : Nat) (load : Option CheckCtx)
  /-- HEARTBEAT (R285). A partner heartbeat arrives and is checked. -/
  | heartbeat (card : CardId) (hb : HeartbeatMsg)
  /-- HEARTBEAT_MISSED (R285). A heartbeat not arrived by count 2,000 counts as missed and may confirm a failure. -/
  | heartbeatMissed (card : CardId)
  /-- TAKEOVER_COMPLETE (R293). Replay ends and the taken-over namespaces are served. -/
  | takeoverComplete (card : CardId)
  /-- FENCE_RECEIVED (R293). A Filnas receives a fence and refuses and withdraws the partner's requests. -/
  | fenceReceived (frond : Frond) (fenced : CardId)
  /-- CARD_PRESENT_OPEN (R292). A card's present contact opens and the partner takes over. -/
  | cardPresentOpen (card : CardId)
  /-- RHIZOME_LANE_LOSS (R284). The rhizome link retrains to 8 lanes or is declared failed. -/
  | rhizomeLaneLoss (trainsOn8 : Bool)
  /-- MIRROR_RECORD (R286). A mirror record arrives, is applied in MSN order and acknowledged. -/
  | mirrorRecord (card : CardId) (msn : Nat)
  /-- MIRROR_ACK (R286). A mirror acknowledgement arrives and tied commands may complete. -/
  | mirrorAck (card : CardId) (msn : Nat)
  /-- MIRROR_ACK_TIMEOUT (R287). A record unacknowledged 4 frames holds its commands until detection decides. -/
  | mirrorAckTimeout (card : CardId) (msn : Nat)
  /-- FORWARDED_COMMAND (R288). A forwarded command reaches the owner, is locked and ordered, or returned for a stale epoch. -/
  | forwardedCommand (cmd epoch : Nat)
  /-- PIECE_LIST (R289). The fetching card receives the owner's piece list and issues pieces on its own links. -/
  | pieceList (cmd : Nat)
  /-- OWNERSHIP_TRANSFER (R296). A planned transfer drains the group on the old owner. -/
  | ownershipTransfer (group : Group) (dest : CardId)
  /-- OWNERSHIP_COPY_DONE (R296). Accumulators and final mirror record are acknowledged and ownership switches at the next boundary. -/
  | ownershipCopyDone (group : Group)
  /-- CARD_ENTER_SERVICE (R300). A card loads the partner's full mirror and rule table, then its home group moves back. -/
  | cardEnterService (card : CardId)
  /-- TICK_MASTER_HANDOVER (R301). Tick master duties move between Quihars without a takeover. -/
  | tickMasterHandover
  /-- CARD_START_ALONE (R302). A card starting with no serving card serves only if its OWN_EPOCH is current, in a new power epoch. -/
  | cardStartAlone (card : CardId) (rootEpoch : Nat)
  /-- CARD_START (R360). At a card's start CC0 checks the active slot, loads engines and self-tests. failedUnits: engines 0 to 63 that failed
  their self-test, and 64 + r for each rank r that failed its training (R264). -/
  | cardStart (card : CardId) (failedUnits : List Nat) (activeOk otherOk : Bool)
  /-- CULM_LINK_UP (R303). A culm port trains when its link comes up. -/
  | culmLinkUp (port : CulmPort) (nbrPos : Nat) (nbrPort : CulmPort) (lanes : Nat)
  /-- CULM_PORT_DOWN (R303). No valid message for 8 frames takes the culm port down. -/
  | culmPortDown (port : CulmPort)
  /-- CULM_RETRAIN (R303). A down culm port attempts training every 400 frames. -/
  | culmRetrain (port : CulmPort) (trained : Bool)
  /-- RACHIS (R310). A RACHIS message arrives and the tick master takes the corrected rachis tick. -/
  | rachis (port : CulmPort) (hdr : CulmHdr) (sfc leadEpoch leadPos : Nat) (correction arrival : Int)
  /-- TICK_IO_PULSE (R312). A TICK_IO pulse is seen; a foreign pulse stops driving. -/
  | tickIoPulse (own : Bool)
  /-- TICK_IO_FALLBACK (R311). After 16 frames without RACHIS the member follows TICK_IO. -/
  | tickIoFallback (offset : Int)
  /-- TICK_IO_DRIVE_RESUME (R312). The back-off of a module that saw a foreign pulse ends. -/
  | tickIoDriveResume
  /-- DELAY_REQ (R310). A DELAY_REQ arrives and is answered. -/
  | delayReq (port : CulmPort) (hdr : CulmHdr) (sent recv : Nat)
  /-- DELAY_RSP (R310). A DELAY_RSP arrives and the one-way link delay is computed. -/
  | delayRsp (port : CulmPort) (hdr : CulmHdr) (reqSent reqRecv rspSent rspRecv : Nat)
  /-- DELAY_MEASURE (R306). At link-up and every 4,000 frames a port sends DELAY_REQ. -/
  | delayMeasure (port : CulmPort)
  /-- HELLO (R306). A neighbour's HELLO arrives. -/
  | hello (port : CulmPort) (hdr : CulmHdr) (msg : HelloMsg)
  /-- CENSUS (R306). A CENSUS arrives and updates the census; conflicts are resolved. -/
  | census (port : CulmPort) (hdr : CulmHdr) (heard : List CensusEntry)
  /-- CENSUS_EXPIRY (R313). A module not heard for 64 frames leaves the census. -/
  | censusExpiry (pos : Nat)
  /-- LEAD_LOST (R315). No RACHIS of the lead epoch for 16 frames; the lowest eligible member takes the lead. -/
  | leadLost
  /-- HANDOVER (R316). A HANDOVER message names the successor and switch SFC. -/
  | handover (hdr : CulmHdr) (successor switchSfc : Nat)
  /-- HANDOVER_SWITCH (R316). At the switch SFC the successor emits RACHIS with LEAD_EPOCH + 1. -/
  | handoverSwitch
  /-- DEMAND_SEND (R317). In frame 40 of each epoch a member sends DEMAND. -/
  | demandSend
  /-- DEMAND (R317). The lead receives a member's DEMAND. -/
  | demand (hdr : CulmHdr) (base want cap : Nat)
  /-- GRANT_COMPUTE (R318). By frame 56 the lead computes and broadcasts grants. -/
  | grantCompute
  /-- GRANT (R318). A member receives GRANT and applies it at the next epoch. -/
  | grant (hdr : CulmHdr) (epoch budget : Nat) (ovr : Bool) (shares : List GrantShare)
  /-- GRANT_STALE (R318). After 4 epochs without GRANT the member falls back to its partition share. -/
  | grantStale
  /-- PLAN (R322). A member receives PLAN, saves it and acknowledges. -/
  | plan (hdr : CulmHdr) (planGen firstEpoch : Nat) (body : List Byte)
  /-- PLAN_ACK (R322). The lead receives a PLAN_ACK; with all, Phase Plan Set completes. -/
  | planAck (hdr : CulmHdr) (planGen : Nat)
  /-- PLAN_RESEND (R308). PLAN or EVENT unacknowledged 16 frames is sent again. -/
  | planResend
  /-- SHEAF_EVENT (R323). The lead receives EVENT records, stamps them into its ring and acknowledges. -/
  | sheafEvent (hdr : CulmHdr) (records : List EventRec)
  /-- EVENT_ACK (R323). A member receives EVENT_ACK for its records. -/
  | eventAck (hdr : CulmHdr) (last : EventRec)
  /-- SPORE_OFFER (R366). A member receives a SPORE_OFFER for a relay. -/
  | sporeOffer (hdr : CulmHdr) (relayId length spores action originator : Nat) (chain : List Byte)
  /-- SPORE_DATA (R367). A spore piece arrives, its chain value is checked and it is forwarded. -/
  | sporeData (port : CulmPort) (hdr : CulmHdr) (relayId index piece : Nat) (bytes : List Byte) (chain : List Byte)
  /-- SPORE_CONFIRM (R367). The lead receives a member's confirmation and the cursor advances. -/
  | sporeConfirm (hdr : CulmHdr) (relayId highest state reason : Nat)
  /-- SPORE_MISSING (R367). A spore missing for 16 frames is requested with SPORE_RESEND. -/
  | sporeMissing (index : Nat)
  /-- SPORE_RESEND (R367). An upstream neighbour receives a resend request and sends the spore. -/
  | sporeResend (port : CulmPort) (hdr : CulmHdr) (relayId index : Nat)
  /-- RELAY_ACTIVATE (R369). A member receives ACTIVATE and activates under R358. -/
  | relayActivate (hdr : CulmHdr) (relayId : Nat)
  /-- ACTIVATE_DONE (R369). The lead receives ACTIVATE_DONE and moves to the next member or stops. -/
  | activateDone (hdr : CulmHdr) (relayId result : Nat)
  /-- ACTIVATION_TIMEOUT (R369). 3,600,000 frames without ACTIVATE_DONE stop the activation with RELAY_END 1. -/
  | activationTimeout
  /-- RELAY_END (R366). A member receives RELAY_END. -/
  | relayEnd (hdr : CulmHdr) (relayId result : Nat)
  /-- NONCE_EXPIRY (R339). A nonce older than 2,400,000 frames becomes invalid. -/
  | nonceExpiry (nonce : BitVec 64)
  /-- HANDLE_EXPIRY (R343). A token handle unconsumed after 240,000 frames is released. -/
  | handleExpiry (handle : Nat)
  /-- ATTESTATION_SIGNATURE (R346). The tick master signs the next waiting TYPE 6 report, reserving indices as needed. -/
  | attestationSignature
  /-- SLOT_WRITE_DONE (R358). A firmware slot write and its slot record end. -/
  | slotWriteDone (card : CardId)
  /-- FILNAS_UPDATE (R361). Fronds switch one at a time to new Filnas code at a tick. -/
  | filnasUpdate (frond : Frond)
  /-- FILNAS_UPDATE_TIMEOUT (R361). A Filnas not running 64 frames after the switch returns to its old bank and the update stops. -/
  | filnasUpdateTimeout (frond : Frond)
  /-- HEALTH_CONFIRM (R362). An image meets its conditions and writes CONFIRMED, raising SEC_MIN. -/
  | healthConfirm (card : CardId)
  /-- HEALTH_WINDOW_EXPIRY (R363). The 900 s window ends unconfirmed and the card restarts from the other slot. -/
  | healthWindowExpiry (card : CardId)
  /-- EVENT_INTAKE (R371). A reported event is stamped, rate-limited and placed in the intake ring of both cards. -/
  | eventIntake (code cls source obj arg0 arg1 arg2 cnt : Nat)
  /-- RECORDER_PROGRAM_END (R380). HE5 finishes programming up to 4 records and takes the next from queues and ring. -/
  | recorderProgramEnd
  /-- EVENT_REFILL (R377). At FC mod PERIOD = 0 buckets refill and summaries are queued. -/
  | eventRefill
  /-- RECORDER_COPY_DONE (R372). A card entering service finishes copying the partner's records. -/
  | recorderCopyDone (card : CardId)
  /-- FEED_START (R391). The input stays at or above 35 V for 40 frames and the PEU soft-starts. -/
  | feedStart (peu : PeuId)
  /-- FEED_UNDER_VOLTAGE (R391). The input falls below 33 V and hold-up carries the output. -/
  | feedUnderVoltage (peu : PeuId)
  /-- HOLD_UP_EXPIRY (R391). Hold-up of 32 frames ends and the output turns off. -/
  | holdUpExpiry (peu : PeuId)
  /-- FEED_OVER_VOLTAGE (R391). The input rises above 78 V and the input switch opens. -/
  | feedOverVoltage (peu : PeuId)
  /-- OVER_VOLTAGE_RECOVERY (R391). The input stays below 76 V for 400 frames and the PEU restarts. -/
  | overVoltageRecovery (peu : PeuId)
  /-- REVERSE_POLARITY (R399). VIN below −2 V keeps the input switch open in STATE 3. -/
  | reversePolarity (peu : PeuId)
  /-- OPEN_RETURN (R399). An open return pole acts as a lost feed with FAULTS bit 3. -/
  | openReturn (peu : PeuId)
  /-- INPUT_SHORT (R399). Input current above 14 A latches the PEU off in STATE 7. -/
  | inputShort (peu : PeuId)
  /-- OUTPUT_OVER_CURRENT (R399). Output at the 30 A limit for 40 frames turns the output off. -/
  | outputOverCurrent (peu : PeuId)
  /-- HICCUP_RESTART (R399). 400 frames after an over-current the PEU restarts. -/
  | hiccupRestart (peu : PeuId)
  /-- PEU_OVER_TEMPERATURE (R399). A PEU sensor above 110 °C turns the output off in STATE 5. -/
  | peuOverTemperature (peu : PeuId)
  /-- PEU_TEMPERATURE_RECOVERY (R399). The PEU sensor falls below 95 °C and the PEU restarts. -/
  | peuTemperatureRecovery (peu : PeuId)
  /-- PEU_STATUS_SEND (R395). A PEU sends STATUS to each card every 4 frames on its own timer. -/
  | peuStatusSend (peu : PeuId) (meas : PeuMeasure)
  /-- PEU_STATUS (R398). A card receives a PEU STATUS and updates telemetry and input capacity. -/
  | peuStatus (card : CardId) (peu : PeuId) (alive : BitVec 8) (crcOk : Bool) (st : PeuStatusMsg)
  /-- ALARM (R395). A card receives a PEU ALARM and records the fault. -/
  | alarm (card : CardId) (peu : PeuId) (alive : BitVec 8) (faults : BitVec 16) (vin : Int) (st : Nat)
  /-- STATUS_SILENCE (R397). No valid STATUS on a link for 16 frames marks the link down. -/
  | statusSilence (card : CardId) (peu : PeuId)
  /-- CAPACITY_FALLBACK (R393). With no current STATUS for 400 frames the module uses 150 W. -/
  | capacityFallback
  /-- CARD_STATUS (R395). A PEU receives a card's STATUS and resets that card's silence count. -/
  | cardStatus (peu : PeuId) (card : CardId) (alive : BitVec 8) (crcOk : Bool)
  /-- OUTPUT_ENABLE (R395). A PEU receives OUTPUT_ENABLE and restarts under R391. -/
  | outputEnable (peu : PeuId) (m : BarrierCmd)
  /-- OUTPUT_DISABLE (R395). A PEU receives OUTPUT_DISABLE and enters STATE 6. -/
  | outputDisable (peu : PeuId) (m : BarrierCmd)
  /-- CURRENT_LIMIT_SET (R395). A PEU receives a new input current limit. -/
  | currentLimitSet (peu : PeuId) (m : BarrierCmd) (limit : Nat)
  /-- MARGIN_SET (R392). A PEU receives an output margin and load sharing is suspended. -/
  | marginSet (peu : PeuId) (m : BarrierCmd) (margin : Int)
  /-- IMAGE_BLOCK (R402). A PEU receives a 256-byte block of code into its idle bank. -/
  | imageBlock (peu : PeuId) (m : BarrierCmd) (offset : Nat) (bytes : List Byte)
  /-- IMAGE_END (R402). A PEU checks the component SHA-256 and answers. -/
  | imageEnd (peu : PeuId) (m : BarrierCmd) (length : Nat) (sha : List Byte)
  /-- IMAGE_ACTIVATE (R402). A PEU switches code banks if the other PEU is on, else NAK 3. -/
  | imageActivate (peu : PeuId) (m : BarrierCmd)
  /-- PEU_ACTIVATE_RETRY (R402). The commander retries IMAGE_ACTIVATE every 400 frames. -/
  | peuActivateRetry (peu : PeuId)
  /-- PEU_UPDATING_TIMEOUT (R402). A PEU not reporting UPDATING 0 within 400 frames returns to the old bank. -/
  | peuUpdatingTimeout (peu : PeuId)
  /-- CAL_READ (R403). A PEU returns a calibration value. -/
  | calRead (peu : PeuId) (m : BarrierCmd) (index : Nat)
  /-- CAL_WRITE (R403). A PEU writes a calibration value at guard level 0. -/
  | calWrite (peu : PeuId) (m : BarrierCmd) (index : Nat) (value : BitVec 32)
  /-- BARRIER_UNKNOWN_TYPE (R395). An unknown barrier message type is refused with NAK 2 or discarded. -/
  | barrierUnknownType (peu : PeuId) (atPeu : Bool) (m : BarrierCmd) (type : BitVec 8)
  /-- ACK_NAK (R395). A card receives a PEU ACK or NAK for a command. -/
  | ackNak (card : CardId) (peu : PeuId) (type alive : BitVec 8) (result : Nat) (data : BitVec 32)
  /-- BARRIER_COMMAND_TIMEOUT (R396). A command without ACK in 8 frames is retried, then sent via the partner. -/
  | barrierCommandTimeout (peu : PeuId)
  /-- FUSE_TRIP (R401). A slot fuse trips, the slot turns off and its unit becomes absent. -/
  | fuseTrip (slot : FuseSlot)
  /-- FUSE_RETRY (R401). 4,000 frames after a trip the fuse retries, latching after the third. -/
  | fuseRetry (slot : FuseSlot)
  /-- FUSE_HOLD_RESET (R401). A retry that holds 40,000 frames resets the trip count. -/
  | fuseHoldReset (slot : FuseSlot)
  /-- SENSOR_SLOW_ROUND (R419). Every 64 frames every powered sensor is read and factors computed. -/
  | sensorSlowRound (readings : List SensorReading)
  /-- THERMAL_SHUTDOWN (R421). A reading 5 °C above critical for 16 frames causes a shutdown action. -/
  | thermalShutdown (sensor : SensorId)
  /-- SENSOR_BROKEN (R422). An invalid or stuck sensor becomes broken and reads as critical. -/
  | sensorBroken (sensor : SensorId)
  /-- SENSOR_VALID_AGAIN (R422). A broken sensor with 4,000 frames of valid readings becomes valid. -/
  | sensorValidAgain (sensor : SensorId)
  /-- ENTRY_DELAY_EXPIRY (R409). A block that has delayed entry past its limit refuses and entry unwinds. -/
  | entryDelayExpiry (block : Nat)
  /-- POWER_STATE_EXIT_DONE (R413). Exit from PS3 or PS4 ends and fetch resumes. -/
  | powerStateExitDone
  /-- REGULATOR_ACK (R414). A regulator acknowledges its requested output. -/
  | regulatorAck (reg : RegId)
  /-- REGULATOR_TIMEOUT (R414). A request without acknowledgement in 8 frames is retried, then is a regulator failure. -/
  | regulatorTimeout (reg : RegId)
  /-- OSCILLATOR_TIMEOUT (R416). A main oscillator not ready in 40 frames is replaced by the secondary. -/
  | oscillatorTimeout (card : CardId)
  /-- FROND_PRESENT_CLOSE (R435). A frond slot's present contact closes and the settle wait begins. -/
  | frondPresentClose (frond : Frond)
  /-- FROND_SETTLED (R435). After 400 frames the fuse soft-starts, code loads and channels train. -/
  | frondSettled (frond : Frond) (ident : FrondIdent)
  /-- FROND_ACCEPTANCE (R435). Identity and member table are judged: foreign, known, new, held or failed. -/
  | frondAcceptance (frond : Frond)
  /-- FROND_PRESENT_OPEN (R434). A frond slot's present contact opens and unannounced removal is handled. -/
  | frondPresentOpen (frond : Frond)
  /-- PREPARE_PROGRAM_CUT (R433). A started program not done 64 frames into preparation is cut. -/
  | prepareProgramCut (frond : Frond)
  /-- PREPARE_COMPLETE (R433). Member table and journal are written, the fuse turns off and removal preparation completes. -/
  | prepareComplete (frond : Frond)
  /-- CARD_PRESENT_CLOSE (R437). A card is inserted beside a serving partner and starts. -/
  | cardPresentClose (card : CardId) (ident : CardIdent)
  /-- SVC_BUTTON_HOLD (R436). SVC held 12,000 frames requests leave-service or releases a partner hold. -/
  | svcButtonHold (card : CardId)
  /-- PEU_PRESENT_OPEN (R440). A PEU is pulled and the other carries the load. -/
  | peuPresentOpen (peu : PeuId)
  /-- PEU_PRESENT_CLOSE (R440). A PEU is inserted, calibrated and updated if needed. -/
  | peuPresentClose (peu : PeuId) (ident : PeuIdent) (code : List Byte)
  /-- RDMA_ACK (R246). An ACK for RDMA WRITE packets releases buffers and may complete a Bulk Read. -/
  | rdmaAck (qp psn cnt : Nat)
  /-- NAK_SEQUENCE_ERROR (R252). A NAK Sequence Error retransmits from the named PSN. -/
  | nakSequenceError (qp psn : Nat)
  /-- NAK_REMOTE_ACCESS_ERROR (R252). A NAK Remote Access Error puts the queue pair in error. -/
  | nakRemoteAccessError (qp : Nat)
  /-- NAK_REMOTE_OPERATIONAL_ERROR (R252). A NAK Remote Operational or Invalid Request error puts the queue pair in error. -/
  | nakRemoteOperationalError (qp : Nat)
  /-- RDMA_READ_RESPONSE (R248). A response packet of Bulk Append data arrives; a PSN gap re-requests. -/
  | rdmaReadResponse (qp psn : Nat) (ce : Bool) (cnt : Nat) (bytes : List Byte)
  /-- CNP_RECEIVED (R251). A CNP cuts the queue pair's rate by CUT/256. -/
  | cnpReceived (qp : Nat)
  /-- RATE_RECOVER (R251). After RECOVER frames without a CNP the rate rises by STEP. -/
  | rateRecover (qp : Nat)
  /-- ACK_TIMEOUT (R252). No ACK within ACK_TIMEOUT retransmits or puts the queue pair in error. -/
  | ackTimeout (qp : Nat)
  /-- INVALID_REQUEST_PACKET (R241). An incoming RoCEv2 request opcode is answered with NAK Invalid Request. -/
  | invalidRequestPacket (bulk : CardId) (qp psn : Nat) (opcode : BitVec 8)
  /-- ARP_REQUEST (R241). An ARP request for the local address is answered. -/
  | arpRequest (bulk : CardId) (target : BitVec 32) (senderMac : BitVec 48) (senderIp : BitVec 32)
  /-- NEIGHBOR_SOLICITATION (R241). A Neighbor Solicitation for the local address is answered. -/
  | neighborSolicitation (bulk : CardId) (target : BitVec 128) (sender : BitVec 128)
  /-- PFC_FRAME (R250). A PFC frame pauses transmission on PFC_PRIO. -/
  | pfcFrame (bulk : CardId) (prio quanta : Nat)
  /-- PFC_PAUSE_END (R250). A PFC pause time ends and transmission resumes. -/
  | pfcPauseEnd (bulk : CardId)
  /-- OTHER_FRAME (R241). Any other received frame is dropped without effect. -/
  | otherFrame (bulk : CardId)
  /-- BULK_LINK_DOWN_EXPIRY (R253). A link down 64 frames with data outstanding ends the transfers with reason 6. -/
  | bulkLinkDownExpiry (bulk : CardId)
  /-- SMBUS_BLOCK_READ (R190). A Basic Management Command block read at 0x6A returns status or identity. -/
  | smbusBlockRead (offset : Nat)
  /-- SET_ENDPOINT_ID (R188). The bus owner assigns the MCTP endpoint ID. -/
  | setEndpointId (eid : BitVec 8)
  /-- GET_ENDPOINT_ID (R188). Returns the MCTP endpoint ID. -/
  | getEndpointId
  /-- GET_ENDPOINT_UUID (R188). Returns the endpoint UUID. -/
  | getEndpointUuid
  /-- GET_MCTP_VERSION_SUPPORT (R188). Returns the supported MCTP versions. -/
  | getMctpVersionSupport (msgType : BitVec 8)
  /-- GET_MESSAGE_TYPE_SUPPORT (R188). Returns the supported MCTP message types. -/
  | getMessageTypeSupport
  /-- MCTP_UNSUPPORTED_CONTROL (R188). Another MCTP control command is answered ERROR_UNSUPPORTED_CMD. -/
  | mctpUnsupportedControl (command : BitVec 8)
  /-- READ_NVME_MI_DATA_STRUCTURE (R189). Returns subsystem, port, controller list or controller information. -/
  | readNvmeMiDataStructure (dtyp : BitVec 8) (sel : Nat)
  /-- NVM_SUBSYSTEM_HEALTH_STATUS_POLL (R189). Returns temperature, Percentage Used, Critical Warning and changed bits. -/
  | nvmSubsystemHealthStatusPoll (clear : Bool)
  /-- CONTROLLER_HEALTH_STATUS_POLL (R189). Returns ready, shutdown, fatal status and temperature of both controllers. -/
  | controllerHealthStatusPoll
  /-- CONFIGURATION_GET (R189). Returns SMBus frequency or MCTP transmission unit size. -/
  | configurationGet (ident : BitVec 8)
  /-- CONFIGURATION_SET (R189). Sets and saves SMBus frequency or transmission unit and writes a change record. -/
  | configurationSet (ident : BitVec 8) (value : Nat)
  /-- VPD_READ (R189). Returns 256 bytes of vital product data. -/
  | vpdRead (offset length : Nat)
  /-- MI_ADMIN_IDENTIFY (R189). Identify tunnelled over NVMe-MI. -/
  | miAdminIdentify (e : Sqe)
  /-- MI_ADMIN_GET_LOG_PAGE (R189). Get Log Page tunnelled over NVMe-MI, at most 4,096 bytes. -/
  | miAdminGetLogPage (e : Sqe)
  /-- MI_ADMIN_GET_FEATURES (R189). Get Features tunnelled over NVMe-MI. -/
  | miAdminGetFeatures (e : Sqe)
  /-- MI_UNSUPPORTED_COMMAND (R189). Other MI or tunnelled admin commands answer Invalid Command Opcode. -/
  | miUnsupportedCommand (admin : Bool) (opcode : BitVec 8)
  /-- CREATE_IO_SUBMISSION_QUEUE (R195). Creates an I/O submission queue for a slice bound to the port. -/
  | createIoSubmissionQueue (e : Sqe)
  /-- CREATE_IO_COMPLETION_QUEUE (R195). Creates an I/O completion queue for a slice bound to the port. -/
  | createIoCompletionQueue (e : Sqe)
  /-- DELETE_IO_SUBMISSION_QUEUE (R162). Deletes an I/O submission queue and discards its freeze. -/
  | deleteIoSubmissionQueue (e : Sqe)
  /-- DELETE_IO_COMPLETION_QUEUE (R162). Deletes an I/O completion queue. -/
  | deleteIoCompletionQueue (e : Sqe)
  /-- IDENTIFY (R158). Returns an Identify structure for a supported CNS. -/
  | identify (e : Sqe)
  /-- ABORT (R162). Aborts a command unless its first seedbed program was issued. -/
  | abort (e : Sqe)
  /-- ASYNCHRONOUS_EVENT_REQUEST (R162). Holds one of eight outstanding asynchronous event requests. -/
  | asynchronousEventRequest (e : Sqe)
  /-- GET_FEATURES (R466). Returns a feature's current, default, saved value or capabilities. -/
  | getFeatures (e : Sqe)
  /-- GET_LOG_ERROR_INFORMATION (R168). Returns the Error Information log. -/
  | getLogErrorInformation (e : Sqe)
  /-- GET_LOG_SMART_HEALTH (R164). Returns the module-wide SMART / Health log. -/
  | getLogSmartHealth (e : Sqe)
  /-- GET_LOG_FIRMWARE_SLOT (R370). Returns the Firmware Slot Information of the serving card. -/
  | getLogFirmwareSlot (e : Sqe)
  /-- GET_LOG_STANDARD (R164). Returns Changed Namespace List, Commands Supported and Effects, ANA, Sanitize Status or Changed Zone List. -/
  | getLogStandard (e : Sqe)
  /-- GET_LOG_MODULE_RECORDER (R382). Returns a window of the module recorder or sheaf ring from a cursor handle. -/
  | getLogModuleRecorder (e : Sqe)
  /-- GET_LOG_FROND_EVENTS (R384). Returns a frond's event store. -/
  | getLogFrondEvents (e : Sqe)
  /-- GET_LOG_FRAME_STATISTICS (R58). Returns the Frame Statistics log. -/
  | getLogFrameStatistics (e : Sqe)
  /-- GET_LOG_STRIPE_HEALTH (R106). Returns the Stripe Health log and re-arms its event. -/
  | getLogStripeHealth (e : Sqe)
  /-- GET_LOG_BLOCK_WEAR (R83). Returns the Block Wear log of one die. -/
  | getLogBlockWear (e : Sqe)
  /-- GET_LOG_MEDIA_READ_HEALTH (R84). Returns the Media Read Health log of one frond. -/
  | getLogMediaReadHealth (e : Sqe)
  /-- GET_LOG_SEEDBED_STATUS (R131). Returns the Seedbed Status log and re-arms its event. -/
  | getLogSeedbedStatus (e : Sqe)
  /-- GET_LOG_SLICE_TABLE (R215). Returns the Slice Table log. -/
  | getLogSliceTable (e : Sqe)
  /-- GET_LOG_POWER_THERMAL (R425). Returns the Power and Thermal log and re-arms its event. -/
  | getLogPowerThermal (e : Sqe)
  /-- GET_LOG_SHEAF_STATUS (R326). Returns the Sheaf Status log and re-arms its event. -/
  | getLogSheafStatus (e : Sqe)
  /-- GET_LOG_BUFFER_DRAM_HEALTH (R279). Returns the Buffer and DRAM Health log and re-arms its event. -/
  | getLogBufferDramHealth (e : Sqe)
  /-- GET_LOG_SECURITY_STATE (R350). Returns the Security State log and re-arms its event. -/
  | getLogSecurityState (e : Sqe)
  /-- GET_LOG_ATTESTATION (R347). Returns the endorsement page or a signed report. -/
  | getLogAttestation (e : Sqe)
  /-- INVALID_LOG_PAGE (R164). An unsupported log page identifier fails with Invalid Log Page. -/
  | invalidLogPage (e : Sqe)
  /-- SET_FEATURES_ARBITRATION (R163). Sets Arbitration, round robin only. -/
  | setFeaturesArbitration (e : Sqe)
  /-- SET_FEATURES_POWER_MANAGEMENT (R406). Sets the module-wide power state; operational moves at the next boundary, PS3/PS4 by entry. -/
  | setFeaturesPowerManagement (e : Sqe)
  /-- SET_FEATURES_TEMPERATURE_THRESHOLD (R163). Sets the composite temperature thresholds. -/
  | setFeaturesTemperatureThreshold (e : Sqe)
  /-- SET_FEATURES_NUMBER_OF_QUEUES (R159). Requests I/O queue counts, granted up to 8,192. -/
  | setFeaturesNumberOfQueues (e : Sqe)
  /-- SET_FEATURES_INTERRUPT_COALESCING (R163). Sets interrupt coalescing as NVMe defines. -/
  | setFeaturesInterruptCoalescing (e : Sqe)
  /-- SET_FEATURES_INTERRUPT_VECTOR (R163). Sets interrupt vector configuration as NVMe defines. -/
  | setFeaturesInterruptVector (e : Sqe)
  /-- SET_FEATURES_ASYNC_EVENT_CONFIG (R163). Sets asynchronous event configuration. -/
  | setFeaturesAsyncEventConfig (e : Sqe)
  /-- SET_FEATURES_TIMESTAMP (R376). Sets wall time, writes a 0x0003 record and may increment TIME_EPOCH. -/
  | setFeaturesTimestamp (e : Sqe)
  /-- SET_FEATURES_VOLATILE_WRITE_CACHE (R163). Fails because no volatile write cache is present. -/
  | setFeaturesVolatileWriteCache (e : Sqe)
  /-- SET_FEATURES_UNSUPPORTED (R163). Any other Feature Identifier fails with Invalid Field in Command. -/
  | setFeaturesUnsupported (e : Sqe)
  /-- SET_FEATURES_FRAME_PARAMETERS (R56). Sets quarantine threshold, window and hold. -/
  | setFeaturesFrameParameters (e : Sqe)
  /-- SET_FEATURES_THERMAL_THROTTLE_POINTS (R423). Lowers throttle points and sets PRIV_BAND. -/
  | setFeaturesThermalThrottlePoints (e : Sqe)
  /-- SET_FEATURES_MEDIA_POWER_BUDGET (R418). Sets HOST_BUDGET. -/
  | setFeaturesMediaPowerBudget (e : Sqe)
  /-- SET_FEATURES_EVENT_RATE_LIMIT (R386). Sets bucket depth, refill, period and overrides. -/
  | setFeaturesEventRateLimit (e : Sqe)
  /-- SET_FEATURES_SCRUB_POLICY (R82). Sets warn threshold, scrub and retraining parameters. -/
  | setFeaturesScrubPolicy (e : Sqe)
  /-- SET_FEATURES_DRAM_INTERLEAVE_GRAIN (R278). Sets grain and map cache for the next power-on and REFRESH_K and rank retraining parameters. -/
  | setFeaturesDramInterleaveGrain (e : Sqe)
  /-- SET_FEATURES_BULK_PORT (R242). Configures a bulk port; address, VLAN or PFC changes take the port down up to 400 frames. -/
  | setFeaturesBulkPort (e : Sqe)
  /-- SET_FEATURES_DEADLINE_MISS_POLICY (R57). Sets a slice's Deadline Miss Policy. -/
  | setFeaturesDeadlineMissPolicy (e : Sqe)
  /-- SET_FEATURES_SEEDBED_POLICY (R130). Sets throttle, full, wait, pack, absent-hold and fold-hold values. -/
  | setFeaturesSeedbedPolicy (e : Sqe)
  /-- NAMESPACE_CREATE (R165). Creates a zoned or conventional namespace with a stripe profile and owner. -/
  | namespaceCreate (e : Sqe)
  /-- NAMESPACE_DELETE (R165). Stops fetch for the namespace and deletes it after its fetched commands. -/
  | namespaceDelete (e : Sqe)
  /-- NAMESPACE_ATTACH (R196). Attaches a namespace to a controller and binds it to a slice. -/
  | namespaceAttach (e : Sqe)
  /-- NAMESPACE_DETACH (R196). Detaches a namespace from a controller, keeping the binding. -/
  | namespaceDetach (e : Sqe)
  /-- FIRMWARE_IMAGE_DOWNLOAD (R357). Places a piece of an image into the staging buffer. -/
  | firmwareImageDownload (e : Sqe)
  /-- FIRMWARE_COMMIT_REPLACE (R358). Action 0: verifies the staged image and writes it to a slot. -/
  | firmwareCommitReplace (e : Sqe)
  /-- FIRMWARE_COMMIT_NEXT_START (R358). Action 1: writes the slot and makes it active at the next start. -/
  | firmwareCommitNextStart (e : Sqe)
  /-- FIRMWARE_COMMIT_ACTIVATE_SLOT (R358). Action 2: re-verifies a slot and makes it active at the next start. -/
  | firmwareCommitActivateSlot (e : Sqe)
  /-- FIRMWARE_COMMIT_IMMEDIATE (R298). Action 3: writes the slot and activates the card at once while the partner serves. -/
  | firmwareCommitImmediate (e : Sqe)
  /-- FORMAT_NVM (R338). Formats a namespace; secure erase replaces its salt and empties zones. -/
  | formatNvm (e : Sqe)
  /-- SANITIZE (R338). Crypto Erase replaces the MRK, slice keys and salts and empties zones. -/
  | sanitize (e : Sqe)
  /-- FLUSH (R176). Completes after earlier writes on the same queue have completed. -/
  | flush (e : Sqe)
  /-- WRITE (R112). Writes blocks through the seedbed; completes when all three copies are programmed. -/
  | write (e : Sqe)
  /-- READ (R22). Reads blocks through S16K buffers to the host. -/
  | read (e : Sqe)
  /-- WRITE_ZEROES (R162). Clears map entries or writes zeros at the write pointer. -/
  | writeZeroes (e : Sqe)
  /-- DATASET_MANAGEMENT (R162). Deallocates ranges on conventional namespaces; no change on zoned. -/
  | datasetManagement (e : Sqe)
  /-- VERIFY (R162). Decodes and checks protection information as weighted class. -/
  | verify (e : Sqe)
  /-- COPY (R162). Copies ranges within one namespace through DRAM staging. -/
  | copy (e : Sqe)
  /-- ZONE_OPEN (R136). Opens a zone explicitly. -/
  | zoneOpen (e : Sqe)
  /-- ZONE_CLOSE (R136). Closes an opened zone, keeping accumulator and reservation. -/
  | zoneClose (e : Sqe)
  /-- ZONE_FINISH (R139). Makes a zone Full at its finish point and starts padding. -/
  | zoneFinish (e : Sqe)
  /-- ZONE_RESET (R141). Releases a zone's copies and slot and returns it to Empty. -/
  | zoneReset (e : Sqe)
  /-- ZONE_OFFLINE (R144). Makes a Read Only zone Offline and releases its slot and members. -/
  | zoneOffline (e : Sqe)
  /-- SET_ZONE_DESCRIPTOR_EXTENSION (R162). Fails with Invalid Field in Command. -/
  | setZoneDescriptorExtension (e : Sqe)
  /-- REPORT_ZONES (R162). Zone Management Receive returns zone descriptors. -/
  | reportZones (e : Sqe)
  /-- ZONE_APPEND (R138). Appends at the write pointer assigned at fetch. -/
  | zoneAppend (e : Sqe)
  /-- UNSUPPORTED_OPCODE (R162). An unsupported opcode fails with Invalid Command Opcode. -/
  | unsupportedOpcode (e : Sqe)
  /-- SLICE_CREATE (R193). Creates a slice bound to the port and PASID with its share and key. -/
  | sliceCreate (e : Sqe)
  /-- SLICE_DELETE (R198). Drains a slice, destroys its key, crypto-erases and unbinds its namespaces. -/
  | sliceDelete (e : Sqe)
  /-- SLICE_RESET (R201). Increments the generation, settles writes with fill codewords and deletes the slice's queues. -/
  | sliceReset (e : Sqe)
  /-- SLICE_FREEZE (R209). Stops fetch on every queue of the slice; completes when quiet. -/
  | sliceFreeze (e : Sqe)
  /-- SLICE_THAW (R209). Restarts fetch of a frozen slice. -/
  | sliceThaw (e : Sqe)
  /-- SLICE_STATE_SAVE (R211). Returns the authenticated state image of a frozen quiet slice. -/
  | sliceStateSave (e : Sqe)
  /-- SLICE_STATE_RESTORE (R212). Checks an image and rebinds the slice to the carrying port and new PASID. -/
  | sliceStateRestore (e : Sqe)
  /-- QUEUE_RESUME (R169). Reopens a frozen submission queue. -/
  | queueResume (e : Sqe)
  /-- SHARE_SET (R208). Applies a new share to a slice from the next frame boundary. -/
  | shareSet (e : Sqe)
  /-- SPIKELET_RULE_WRITE (R232). Checks and installs, replaces or removes classifier rules on both Quihars. -/
  | spikeletRuleWrite (e : Sqe)
  /-- SPIKELET_RULE_READ (R231). Returns rule structures. -/
  | spikeletRuleRead (e : Sqe)
  /-- WINNOW_PROGRAM_LOAD (R235). Checks and stores a winnow program into a slice slot. -/
  | winnowProgramLoad (e : Sqe)
  /-- WINNOW_READ (R236). Scans blocks through a winnow program and returns matching records or tuples. -/
  | winnowRead (e : Sqe)
  /-- ZONE_DIGEST (R187). Returns the zone digest up to the write pointer after earlier writes. -/
  | zoneDigest (e : Sqe)
  /-- BULK_READ (R246). Reads blocks and RDMA-WRITEs their plaintext into a remote region. -/
  | bulkRead (e : Sqe)
  /-- BULK_APPEND (R248). Appends blocks whose data arrives by RDMA READ. -/
  | bulkAppend (e : Sqe)
  /-- BULK_ENDPOINT_SET (R245). Sets or clears stream descriptors and brings queue pairs into service. -/
  | bulkEndpointSet (e : Sqe)
  /-- AUTHORIZATION_SUBMIT_TOKEN (R342). Checks a token and returns a handle. -/
  | authorizationSubmitToken (e : Sqe)
  /-- ISSUE_NONCE (R339). Issues a 64-bit nonce, discarding the oldest beyond 16. -/
  | issueNonce (e : Sqe)
  /-- GUARD_LEVEL_CHANGE (R330). Raises or lowers the guard level with an accepted TYPE 1 token. -/
  | guardLevelChange (e : Sqe)
  /-- EVENT_CLEAR_FROND (R385). Empties one frond's event store. -/
  | eventClearFrond (e : Sqe)
  /-- EVENT_CLEAR_MODULE (R385). Empties both module recorders and increments CLEAR_GEN. -/
  | eventClearModule (e : Sqe)
  /-- PREPARE_REMOVAL (R433). Frond Service action 0 prepares a frond for removal. -/
  | prepareRemoval (e : Sqe)
  /-- CANCEL_PREPARE (R433). Frond Service action 1 switches a prepared frond back on. -/
  | cancelPrepare (e : Sqe)
  /-- DECLARE_LOST (R182). Frond Service action 2 declares the slot's frond lost and accepts a held frond. -/
  | declareLost (e : Sqe)
  /-- SET_REBUILD_RATE (R99). Frond Service action 3 sets REBUILD_RATE. -/
  | setRebuildRate (e : Sqe)
  /-- LOCATE_LED_ON (R432). Frond Service action 4 turns a slot's locate on. -/
  | locateLedOn (e : Sqe)
  /-- LOCATE_LED_OFF (R432). Frond Service action 5 turns a slot's locate off. -/
  | locateLedOff (e : Sqe)
  /-- ENABLE_CULM_PORTS (R325). Sheaf Control action 0 enables the culm ports. -/
  | enableCulmPorts (e : Sqe)
  /-- DISABLE_CULM_PORTS (R325). Sheaf Control action 1 hands over if lead and leaves the sheaf. -/
  | disableCulmPorts (e : Sqe)
  /-- HAND_OVER_LEAD (R325). Sheaf Control action 2 hands the lead to a successor. -/
  | handOverLead (e : Sqe)
  /-- SET_SHELF_POWER_BUDGET (R325). Sheaf Control action 3 sets BUDGET and MEMBERS_MAX. -/
  | setShelfPowerBudget (e : Sqe)
  /-- SHEAF_PHASE_PLAN_SET (R321). Sets the phase plan, broadcast by the lead. -/
  | sheafPhasePlanSet (e : Sqe)
  /-- PEU_ENABLE_OUTPUT (R404). Power Entry Control action 0 enables a PEU output. -/
  | peuEnableOutput (e : Sqe)
  /-- PEU_DISABLE_OUTPUT (R404). Power Entry Control action 1 disables a PEU output. -/
  | peuDisableOutput (e : Sqe)
  /-- PEU_SET_CURRENT_LIMIT (R404). Power Entry Control action 2 sets the input current limit. -/
  | peuSetCurrentLimit (e : Sqe)
  /-- PEU_SET_MARGIN (R404). Power Entry Control action 3 sets the output margin. -/
  | peuSetMargin (e : Sqe)
  /-- CULM_LANE_LOSS (R303). A culm port loses a lane and runs on one lane at half rate, reporting port state 3. -/
  | culmLaneLoss (port : CulmPort)
  /-- BULK_LINK_DOWN (R253). A bulk port's PCS loses lock, LINK_UP becomes 0 and the 64-frame link-down count for outstanding transfers starts. -/
  | bulkLinkDown (bulk : CardId)
  /-- BULK_LINK_UP (R242). A bulk port's PCS locks and FEC aligns, LINK_UP becomes 1 and lost packets are recovered by re-request and retransmission. -/
  | bulkLinkUp (bulk : CardId)
  /-- PCIE_LINK_UP (R174). A host port's PCIe link trains again after a loss and its controller can be enabled and serve admin commands. -/
  | pcieLinkUp (port : Port)
  /-- FEED_RETURN_WITHIN_HOLD_UP (R391). A PEU input that returns above 35 V within the hold-up time keeps the output on, and plans return to normal if it was the last feed. -/
  | feedReturnWithinHoldUp (peu : PeuId)
  /-- RECORDER_SECTOR_ERASE_DONE (R385). A 64 KiB sector erase of the module recorder ends after Event Clear, and records waiting for an erased slot can be written. -/
  | recorderSectorEraseDone
  deriving DecidableEq, Repr

end Sys2Proof
end

