-- ==== Sys2Proof/Decode.lean ====
section
/-! DEFINITION. Reading a command from a word of the opcode table. The table gives no row any bits (a command is an
event or a submission-queue entry that the outside world hands the block whole), so no word spells a command. -/
namespace Sys2Proof

/-- The command that a word of nbits bits spells by the table's bits: none, since no row gives bits. -/
def decodeTableWord (nbits w : Nat) : Option Instr :=
  match nbits, w with
  | _, _ => none

end Sys2Proof
end

