-- ==== Sys2Proof/Machine/Table.lean ====
section
/-! DEFINITION. Sparse tables in their one canonical form, byte strings, bit fields and little-endian numbers (R10). -/
namespace Sys2Proof.Machine
open Sys2Proof

variable {α : Type}

/-- The entry of a key, `d` where the key is not listed. -/
def tget (d : α) : Tbl α → Nat → α
  | [], _ => d
  | (j, a) :: r, k => if j = k then a else tget d r k
/-- The entry of a key, if it is listed. -/
def tfind : Tbl α → Nat → Option α
  | [], _ => none
  | (j, a) :: r, k => if j = k then some a else tfind r k
/-- The table without a key. -/
def tdel : Tbl α → Nat → Tbl α
  | [], _ => []
  | (j, a) :: r, k => if j = k then r else (j, a) :: tdel r k
/-- The table with a key's entry replaced or inserted in its place. -/
def tins : Tbl α → Nat → α → Tbl α
  | [], k, v => [(k, v)]
  | (j, a) :: r, k, v =>
    if k < j then (k, v) :: (j, a) :: r else if k = j then (k, v) :: r else (j, a) :: tins r k v
/-- The table after a write: a default entry is not listed. -/
def tput [DecidableEq α] (d : α) (t : Tbl α) (k : Nat) (v : α) : Tbl α :=
  if v = d then tdel t k else tins t k v
/-- The table with a function applied to one entry. -/
def tupd [DecidableEq α] (d : α) (t : Tbl α) (k : Nat) (f : α → α) : Tbl α := tput d t k (f (tget d t k))
/-- The table with a function applied to one entry that is listed; a key that is not listed stays so. -/
def tmod (t : Tbl α) (k : Nat) (f : α → α) : Tbl α := t.map fun p => if p.1 = k then (p.1, f p.2) else p
/-- Canonical form: keys strictly rising, no listed default. -/
def tableWf [DecidableEq α] (d : α) (t : Tbl α) : Bool :=
  decide ((t.map Prod.fst).Pairwise (· < ·)) && t.all (fun p => decide (p.2 ≠ d))

/-- n bytes of a little-endian number (R10). -/
def le : Nat → Nat → List Byte
  | 0, _ => []
  | n + 1, v => BitVec.ofNat 8 v :: le n (v / 256)
/-- The number a little-endian byte string holds (R10). -/
def ofLe : List Byte → Nat
  | [] => 0
  | b :: r => b.toNat + 256 * ofLe r
/-- n bytes of a string from an offset; bytes past its end are zero. -/
def slice' (l : List Byte) (off n : Nat) : List Byte :=
  let x := (l.drop off).take n
  x ++ List.replicate (n - x.length) 0
/-- The number at a byte offset of a structure. -/
def fld (l : List Byte) (off n : Nat) : Nat := ofLe (slice' l off n)
/-- Bits [hi:lo] of a number. -/
def bits (v hi lo : Nat) : Nat := (v >>> lo) % 2 ^ (hi + 1 - lo)
/-- One bit of a number. -/
def bit (v n : Nat) : Bool := (v >>> n) % 2 == 1
/-- A flag as a bit. -/
def b2n (b : Bool) : Nat := if b then 1 else 0
/-- n zero bytes. -/
def zeros (n : Nat) : List Byte := List.replicate n 0
/-- A structure cut or padded with zeros to n bytes. -/
def fitTo (n : Nat) (l : List Byte) : List Byte := slice' l 0 n
/-- A signed value in two's complement of n bytes. -/
def leInt (n : Nat) (v : Int) : List Byte := le n (v % (256 ^ n : Nat)).toNat
/-- A saturating value: at most the largest n-byte number (R8). -/
def sat (n v : Nat) : Nat := min v (256 ^ n - 1)
/-- Every byte of a string is zero (R12). -/
def allZero (l : List Byte) : Bool := l.all (· == 0)
/-- ASCII bytes of a string. -/
def ascii (x : String) : List Byte := x.toList.map fun c => BitVec.ofNat 8 c.toNat
/-- ASCII bytes padded with spaces to n bytes (R7). -/
def asciiPad (n : Nat) (l : List Byte) : List Byte := l.take n ++ List.replicate (n - l.length) 0x20
/-- Byte strings in order, as R304 compares serial numbers byte by byte. -/
def bytesLt : List Byte → List Byte → Bool
  | _, [] => false
  | [], _ :: _ => true
  | a :: r, b :: q => if a = b then bytesLt r q else a.toNat < b.toNat
/-- Ceiling of a division. -/
def cdiv (a b : Nat) : Nat := (a + b - 1) / b
/-- The list with the n-th element replaced. -/
def lset (l : List α) (n : Nat) (v : α) : List α := l.set n v
/-- The list without the first element that equals v. -/
def lrem [DecidableEq α] (l : List α) (v : α) : List α := l.erase v
/-- The element with the smallest measure, the first on a tie. -/
def minBy (m : α → Nat) : List α → Option α
  | [] => none
  | a :: r => match minBy m r with
    | none => some a
    | some b => if m b < m a then some b else some a
/-- Insertion in rising order of a comparison; equal elements keep their order. -/
def insertBy (lt : α → α → Bool) (a : α) : List α → List α
  | [] => [a]
  | b :: r => if lt a b then a :: b :: r else b :: insertBy lt a r
/-- Stable sort by a comparison. -/
def sortBy (lt : α → α → Bool) : List α → List α
  | [] => []
  | a :: r => insertBy (fun x y => !lt y x) a (sortBy lt r)

end Sys2Proof.Machine
end

