-- ==== Sys2Proof/Machine/Check.lean ====
section
/-! DEFINITION. Check values and parity arithmetic: CRC-64 and CRC-32C of R271, COMBINE of R273, CRC-16/CCITT of R394,
GF(2^8) of R86. -/
namespace Sys2Proof.Machine
open Sys2Proof

/-- One bit of a reflected CRC register with the reflected polynomial. -/
def crcBit {w : Nat} (poly reg : BitVec w) : BitVec w :=
  if reg.getLsbD 0 then (reg >>> 1) ^^^ poly else reg >>> 1
/-- Eight bits. -/
def crcByte0 {w : Nat} (poly reg : BitVec w) : BitVec w :=
  crcBit poly (crcBit poly (crcBit poly (crcBit poly (crcBit poly (crcBit poly (crcBit poly (crcBit poly reg)))))))
/-- One byte into a reflected register. -/
def crcByte {w : Nat} (poly reg : BitVec w) (b : Byte) : BitVec w := crcByte0 poly (reg ^^^ b.setWidth w)
/-- Reflected polynomials of 0xAD93_D235_94C9_3659 and 0x1EDC_6F41 (R271). -/
def poly64 : BitVec 64 := 0x9A6C9329AC4BC9B5#64
def poly32 : BitVec 32 := 0x82F63B78#32
/-- CRC-64 of a byte string (R271): register start and final XOR all ones. -/
def crc64 (l : List Byte) : BitVec 64 := ~~~(l.foldl (crcByte poly64) (BitVec.allOnes 64))
/-- CRC-32C of a byte string (R271). -/
def crc32c (l : List Byte) : BitVec 32 := ~~~(l.foldl (crcByte poly32) (BitVec.allOnes 32))
/-- A finished value multiplied by x^(8n) in the reflected domain (R273). -/
def crcShift {w : Nat} (poly : BitVec w) : Nat → BitVec w → BitVec w
  | 0, v => v
  | n + 1, v => crcShift poly n (crcByte0 poly v)
/-- COMBINE: the CRC of A's bytes followed by the n bytes of B (R273). -/
def combine {w : Nat} (poly a b : BitVec w) (n : Nat) : BitVec w := crcShift poly n a ^^^ b
/-- CRC-16/CCITT, one byte, polynomial 0x1021, no reflection (R394). -/
def crc16Byte (reg : BitVec 16) (b : Byte) : BitVec 16 :=
  (List.range 8).foldl (fun r _ => if r.getLsbD 15 then (r <<< 1) ^^^ 0x1021#16 else r <<< 1)
    (reg ^^^ (b.setWidth 16 <<< 8))
/-- CRC-16/CCITT with register start 0xFFFF and no final XOR (R394). -/
def crc16 (l : List Byte) : BitVec 16 := l.foldl crc16Byte 0xFFFF#16

/-- Multiplication by g = 0x02 in GF(2^8) with polynomial 0x11D (R86). -/
def gfX (a : Byte) : Byte := if a.getLsbD 7 then (a <<< 1) ^^^ 0x1D#8 else a <<< 1
/-- Multiplication by g^j (R86). -/
def gfPow : Nat → Byte → Byte
  | 0, a => a
  | j + 1, a => gfPow j (gfX a)
/-- XOR of two byte strings, the shorter padded with zeros. -/
def xorBytes : List Byte → List Byte → List Byte
  | [], q => q
  | r, [] => r
  | a :: r, b :: q => (a ^^^ b) :: xorBytes r q
/-- Weight exponent of data member j in a parity definition of R86; none where the member is not covered. Parity
numbers: S14 0 = P, 1 = Q; S15 0 = P; L12 0 = L0, 1 = L1, 2 = G0, 3 = G1. -/
def parityWeight (profile : Nat) (parity j : Nat) : Option Nat :=
  match profile, parity with
  | 0, 0 => if j < 14 then some 0 else none
  | 0, 1 => if j < 14 then some j else none
  | 1, 0 => if j < 6 then some 0 else none
  | 1, 1 => if 6 ≤ j ∧ j < 12 then some 0 else none
  | 1, 2 => if j < 12 then some j else none
  | 1, 3 => if j < 6 then some j else if j < 12 then some (j + 1) else none
  | 2, 0 => if j < 15 then some 0 else none
  | _, _ => none
/-- A parity chunk's bytes after data member j's bytes have been accumulated (R86). -/
def accumulate (profile parity j : Nat) (acc d : List Byte) : List Byte :=
  match parityWeight profile parity j with
  | some w => xorBytes acc (d.map (gfPow w))
  | none => acc

end Sys2Proof.Machine
end

