-- ==== Sys2Proof/Machine/StateMedia.lean ====
section
/-! DEFINITION. The media side of the state: time, requests and plans, dies, blocks, fronds, codewords, chunks, stripes,
rebuild. In each field's docstring the brackets give width, rules and reset value; DC marks a value the model names
where the spec gives none (assumption 3). -/
namespace Sys2Proof.Machine

/-- What a media request is for (R39, R43). -/
inductive WorkKind where
  | boundRead | weightedRead | backgroundRead | seedProgram | metaProgram | rebuildRead | rebuildProgram | foldRead
  | refreshRead | mapRead | erase | scrub | recal | gcRead
  deriving DecidableEq, Repr, Inhabited
/-- Where a media request stands; held: its link engine waits for an S16K buffer (R260). -/
inductive ReqSt where
  | held | sent | accepted | planned | issued | sensed | moved | done | notPlaced | withdrawn
  deriving DecidableEq, Repr, Inhabited
/-- A window of a die's plan (R34): the free segment window, or the read window. -/
inductive Window where | free | read
  deriving DecidableEq, Repr, Inhabited

/-- A media request as a frond link engine sends it (R39), and what became of it. -/
structure Req where
  /-- Work kind [enum; R39; DC weightedRead] -/
  kind : WorkKind := .weightedRead
  /-- Quihar that sent it [1 bit; R39; DC CA] -/
  owner : CardId := .ca
  /-- Slice [10 bits; R39; DC 0] -/
  slice : Nat := 0
  /-- Slice generation at issue [16 bits; R39, R200; DC 0] -/
  gen : Nat := 0
  /-- Global die index [12 bits; R39; DC 0] -/
  die : Nat := 0
  /-- Block position [12 bits; R39; DC 0] -/
  block : Nat := 0
  /-- Wordline set [10 bits; R39; DC 0] -/
  wl : Nat := 0
  /-- Plane [2 bits; R39; DC 0] -/
  plane : Nat := 0
  /-- QLC page level [2 bits; R39; DC 0] -/
  page : Nat := 0
  /-- SLC page [1 bit; R35; DC false] -/
  slc : Bool := false
  /-- Codeword mask of the page [4 bits; R39; DC 0] -/
  mask : Nat := 0
  /-- Target frame [64 bits; R39; DC 0] -/
  target : Nat := 0
  /-- Deadline, as an absolute count [Nat; R39, R49; DC none] -/
  deadline : Option Nat := none
  /-- Arrival at Filnas, absolute count [Nat; R43; DC 0] -/
  arrival : Nat := 0
  /-- Frame it was placed in [64 bits; R39; DC none] -/
  frame : Option Nat := none
  /-- Window it was placed in [enum; R34; DC read] -/
  win : Window := .read
  /-- Status [enum; R39; DC sent] -/
  st : ReqSt := .sent
  /-- Read piece it serves [Nat; R39; DC none] -/
  piece : Option Nat := none
  /-- Chunk or stripe row it serves, as the chunk key [Nat; R119; DC none] -/
  chunk : Option Nat := none
  /-- Decode tier the sense is an input of [enum; R69; DC hard] -/
  tier : Tier := .hard
  /-- Data-outs left in a retry's extra reads [3 bits; R69; DC 0] -/
  extra : Nat := 0
  /-- Frames claimed for the further extra reads of its retry [list; R70; empty] -/
  later : List Nat := []
  /-- Tiers that have failed [list; R71; DC empty] -/
  failedAt : List Tier := []
  /-- Map page that it reads, as NSID × 2^29 + page [Option; R151; none] -/
  mapPage : Option Nat := none
  /-- Codeword of a read for a copy to be placed again [Option; R125; none] -/
  cw : Option Nat := none
  /-- S16K buffer that its data lands in, beside its piece's own [Option; R92, R119, R260; none] -/
  buf : Option Nat := none
  /-- Threshold offsets its sense uses, those of its group when its plan was fixed; empty: none moved [16 × 8 bits; R76; DC
  empty] -/
  offs : List Int := []
  /-- Steps by which a margin read moves its offsets toward each neighbouring level [3 bits; R75; 0] -/
  margin : Nat := 0
  /-- Steps by which a recalibration read, or an extra read of a retry, moves the offsets [signed; R69, R76; 0] -/
  step : Int := 0
  /-- Metadata work that it copies a plane page for [Option; R74; none] -/
  work : Option Nat := none
  /-- Stripe slot of a lost accumulator that it reads a codeword for [Option; R117; none] -/
  accum : Option Nat := none
  deriving DecidableEq, Repr, Inhabited

/-- A long operation of a die (R37, R38). -/
inductive OpKind where | qlc | verify | erase | pad | rebuild | refresh
  deriving DecidableEq, Repr, Inhabited
/-- A started or waiting long operation (R37). -/
structure LongOp where
  /-- Kind [enum; R38; DC qlc] -/
  kind : OpKind := .qlc
  /-- Block position on the die [12 bits; R37; DC 0] -/
  block : Nat := 0
  /-- Chunk programmed, as the chunk key [Nat; R119; DC 0] -/
  chunk : Nat := 0
  /-- Segments run [7 bits; R38; DC 0] -/
  segs : Nat := 0
  /-- Arrival at Filnas, absolute count [Nat; R43; DC 0] -/
  arrival : Nat := 0
  /-- Its data is in the program latches, or it needs none [1 bit; R36; DC true] -/
  ready : Bool := true
  /-- Program that a verification verifies: qlc fold, rebuild or refresh [enum; R21, R38; DC qlc] -/
  prog : OpKind := .qlc
  /-- Rank of R43 that its segments take [4 bits; R43; DC 5] -/
  rank : Nat := 5
  /-- Purpose: false fold, true rebuild or fill [1 bit; R97; DC false] -/
  recovery : Bool := false
  deriving DecidableEq, Repr, Inhabited

/-- What Filnas keeps of one die (R36, R51, R69, R76, R81, R84). -/
structure Die where
  /-- Started long operation [Option; R37; none] -/
  op : Option LongOp := none
  /-- Long operations waiting for the die [list; R37; DC empty] -/
  opQ : List LongOp := []
  /-- A segment runs in the current frame [1 bit; R34; DC false] -/
  seg : Bool := false
  /-- Suspend has been issued in the current frame [1 bit; R34; DC false] -/
  suspending : Bool := false
  /-- The operation is suspended [1 bit; R37; DC false] -/
  suspended : Bool := false
  /-- Seedbed program in the segment window of the current frame [Nat; R110; DC none] -/
  prog : Option Nat := none
  /-- Cache register of each plane: the request whose page it holds [list of 4; R36; DC empty] -/
  cache : List (Option Nat) := [none, none, none, none]
  /-- Request whose sense runs on each plane [list of 4; R35; DC empty] -/
  sensing : List (Option Nat) := [none, none, none, none]
  /-- Open seedbed block (write head) and its next wordline set [Option; R109; none] -/
  head : Option (Nat × Nat) := none
  /-- Open metadata block and its next wordline set [Option; R61, R152; none] -/
  metaHead : Option (Nat × Nat) := none
  /-- Overrun that the next die reset follows: the die did not stop at its segment check [1 bit; R50; DC false] -/
  overdue : Bool := false
  /-- FCs of the overruns counted against the die [list; R51; DC empty] -/
  overruns : List Nat := []
  /-- Absolute count of the latest overrun [64 bits; R17, R51; DC 0] -/
  lastOverrun : Nat := 0
  /-- STATE: 0 in service, 1 quarantined, 2 failed, 3 failed and rebuilt [8 bits; R84; 0] -/
  state : Nat := 0
  /-- FC at which quarantine began [64 bits; R51; DC 0] -/
  quarFc : Nat := 0
  /-- Quarantine entries in this power epoch [Nat; R51; 0] -/
  quarEntries : Nat := 0
  /-- Successive resets without ready status [Nat; R81; DC 0] -/
  resets : Nat := 0
  /-- A reset is outstanding [1 bit; R50, R81; DC false] -/
  resetting : Bool := false
  /-- Attempts of the present training that failed [2 bits; R66; DC 0] -/
  trainFails : Nat := 0
  /-- CODEWORDS [32 bits; R84; 0] -/
  codewords : Nat := 0
  /-- SOFT [32 bits; R84; 0] -/
  soft : Nat := 0
  /-- DEEP [32 bits; R84; 0] -/
  deep : Nat := 0
  /-- UNCORRECTABLE [32 bits; R84; 0] -/
  uncorr : Nat := 0
  /-- ROUTED [32 bits; R84; 0] -/
  routed : Nat := 0
  /-- CBC_MAX [16 bits; R84; 0] -/
  cbcMax : Nat := 0
  /-- RECALS [16 bits; R84; 0] -/
  recals : Nat := 0
  /-- Read-offset table: 16 signed offsets per group of 32 positions [66 × 16 × 8 bits; R76; DC 0 each] -/
  offsets : Tbl (List Int) := []
  /-- Package temperature, °C, at each group's last calibration [66 × 8 bits; R76; DC 0] -/
  calTemp : Tbl Nat := []
  /-- Groups whose recalibration is due, and the reads of the running one that have not ended, 8 while it may not start [list; R76,
  R442; empty] -/
  recalQ : List (Nat × Nat) := []
  /-- Grown-bad positions [16 bits; R83; 0] -/
  grownBad : Nat := 0
  /-- Die reserve positions used [16 bits; R60, R83; DC 0] -/
  reserveUsed : Nat := 0
  /-- Positions from this one to 2047 that no entry lists are dirty still, as a new frond brought them [Option; R102; none] -/
  unwiped : Option Nat := none
  deriving DecidableEq, Repr, Inhabited

/-- What Filnas keeps of one die-block (R62, R83); the mode is R61's. -/
structure Blk where
  /-- STATE of R83 [4 bits; R83; DC by position, see blkDefault] -/
  state : Nat := 0
  /-- QLC_CYCLES [16 bits; R83; 0] -/
  qlc : Nat := 0
  /-- SLC_CYCLES [16 bits; R83; 0] -/
  slc : Nat := 0
  /-- WEAR in tenths of a unit [16 bits; R62; 0] -/
  wear : Nat := 0
  /-- Mode since the last completed erase: none unprogrammed, some false SLC, some true QLC [2 bits; R61; none] -/
  mode : Option Bool := none
  /-- REFRESH_PENDING [1 bit; R83; 0] -/
  refresh : Bool := false
  /-- Margin reads of the running scrub pass that have not ended [8 bits; R75; 0] -/
  scrubLeft : Nat := 0
  /-- Wordline sets programmed in it as a metadata block [11 bits; R61, R74; 0] -/
  rows : Nat := 0
  /-- Scrub passes begun, by which the codeword of a margin read rotates [Nat; R75; 0] -/
  passes : Nat := 0
  /-- Frame of the last completed scrub pass, counted on over power epochs [64 bits; R82; DC 0] -/
  scrubbed : Nat := 0
  /-- Stripe slot and position of the member it holds, as slot × 16 + position [Option; R85; none] -/
  member : Option Nat := none
  /-- Live seedbed codewords it holds [Nat; R121; 0] -/
  live : Nat := 0
  /-- The member that it holds is to be copied to another die-block: it is grown bad, or a program of it was cut [1 bit; R60, R103;
  false] -/
  leave : Bool := false
  /-- Named in a programmed erase intent [1 bit; R77; false] -/
  intent : Bool := false
  /-- Re-erase after erase-incomplete was made; one more failed blank-check is final [1 bit; R80; false] -/
  retried : Bool := false
  /-- Row of R79 that put it under recovery, 0 none [2 bits; R79; DC 0] -/
  recovery : Nat := 0
  /-- Counts as a die-block of its frond's seedbed, from its opening as a head to its erase or its end as grown bad [1 bit;
  R113, R122; false] -/
  seed : Bool := false
  /-- STATE that it takes once erased: its use as shipped, on a new frond [4 bits; R60, R102; 0] -/
  after : Nat := 0
  deriving DecidableEq, Repr, Inhabited

/-- One seedbed copy of a codeword (R108, R127). -/
structure CopyLoc where
  /-- Frond it is destined for [4 bits; R108; DC 0] -/
  frond : Nat := 0
  /-- COPY, 0–2 [2 bits; R127; DC 0] -/
  idx : Nat := 0
  /-- Global die index once placed [12 bits; R127; DC 0] -/
  die : Nat := 0
  /-- Block position [12 bits; R127; DC 0] -/
  block : Nat := 0
  /-- Wordline set [10 bits; R127; DC 0] -/
  wl : Nat := 0
  /-- Place within the shared program, plane × 4 + codeword [4 bits; R110; DC 0] -/
  place : Nat := 0
  /-- Shared program it is in [Nat; R110; DC none] -/
  prog : Option Nat := none
  /-- Its program reported status pass [1 bit; R112; false] -/
  done : Bool := false
  /-- No tier decoded it: the copy is dead [1 bit; R119, R128; false] -/
  bad : Bool := false
  deriving DecidableEq, Repr, Inhabited

/-- Kind of a codeword (R127): host data, parity, padding, fill (KIND 0), metadata. -/
inductive CwKind where | data | parity | padding | fill | metadata
  deriving DecidableEq, Repr, Inhabited

/-- A codeword on its way to, or on, the medium (R59, R127), keyed by destination (assumption 16). -/
structure Cw where
  /-- KIND [2 bits; R127; DC data] -/
  kind : CwKind := .data
  /-- Plaintext data bytes [4,096 bytes; R59, R335; DC empty] -/
  data : List Byte := []
  /-- Protection information bytes [16 bytes; R59; DC empty] -/
  pi : List Byte := []
  /-- Media key it is encrypted with (number of the key; 0 none) [Nat; R197, R335; DC 0] -/
  key : Nat := 0
  /-- Namespace of the block [13 bits; R127; DC 0] -/
  nsid : Nat := 0
  /-- Logical block [40 bits; R127; DC 0] -/
  lba : Nat := 0
  /-- SEQ [48 bits; R126; DC 0] -/
  seq : Nat := 0
  /-- Owning command [Nat; R112; DC none] -/
  cmd : Option Nat := none
  /-- Slice and generation of the request [Nat; R200; DC 0] -/
  slice : Nat := 0
  gen : Nat := 0
  /-- Bound class codeword [1 bit; R110; DC false] -/
  bound : Bool := false
  /-- Passed the stream engine [1 bit; R447; DC false] -/
  encrypted : Bool := false
  /-- It waits for its turn in the round robin over slices [1 bit; R206; false] -/
  turn : Bool := false
  /-- Seedbed copies [list; R108; DC empty] -/
  copies : List CopyLoc := []
  /-- Copies wait for a present frond, R125 [Nat; R125; DC 0] -/
  waiting : Nat := 0
  /-- Copies given up because its own frond left: it is held on the others [2 bits; R94, R125; 0] -/
  cut : Nat := 0
  /-- A programmed journal record of kind 1 covers it [1 bit; R153; false] -/
  recorded : Bool := false
  /-- Folded into its stripe member and verified [1 bit; R120; false] -/
  folded : Bool := false
  /-- Lost for good: no copy, no member, beyond tolerance [1 bit; R72, R93; false] -/
  lost : Bool := false
  deriving DecidableEq, Repr, Inhabited

/-- Fold stage of a chunk (R118–R120). -/
inductive FoldSt where
  | filling | held | requested | reading | combining | dataIn | programming | verifying | verified | released | failed
  deriving DecidableEq, Repr, Inhabited
/-- A chunk: one member's 256 KiB of one row (R87), while it is filled and folded. -/
structure Chunk where
  /-- Stage [enum; R118; DC filling] -/
  st : FoldSt := .filling
  /-- FC at which it became ready [64 bits; R118; DC 0] -/
  readyFc : Nat := 0
  /-- Fold reads outstanding [Nat; R119; DC 0] -/
  reads : Nat := 0
  /-- Mirror record whose acknowledgement the release of copies 1 and 2 waits for [Option; R120; none] -/
  telling : Option Nat := none
  /-- A row of a rebuild or fill by reconstruction (R97), not a fold [1 bit; R97; false] -/
  recovery : Bool := false
  /-- Members that its reconstruction has given up [list; R101; empty] -/
  out : List Nat := []
  /-- P256K buffer that stages the reconstructed chunk [Option; R22, R97; none] -/
  buf : Option Nat := none
  deriving DecidableEq, Repr, Inhabited

/-- A shared seedbed program (R110). -/
structure Prog where
  /-- Frond [4 bits; R110; DC 0] -/
  frond : Nat := 0
  /-- Global die index of the head [12 bits; R109; DC 0] -/
  die : Nat := 0
  /-- Block position [12 bits; R109; DC 0] -/
  block : Nat := 0
  /-- Wordline set [10 bits; R109; DC 0] -/
  wl : Nat := 0
  /-- Codeword keys packed, with their copy index; at most 16 [list; R110; DC empty] -/
  cws : List (Nat × Nat) := []
  /-- Frame of its segment window [64 bits; R110; DC 0] -/
  frame : Nat := 0
  /-- Its codewords are copies placed again, at rank 4 [1 bit; R125; false] -/
  late : Bool := false
  /-- Metadata works that it carries instead, each with the place of its first codeword [list; R77, R120, R152; empty] -/
  works : List (Nat × Nat) := []
  deriving DecidableEq, Repr, Inhabited

/-- A codeword waiting at a Filnas for packing (R110). -/
structure PackItem where
  /-- Codeword key [Nat; R110; DC 0] -/
  cw : Nat := 0
  /-- COPY [2 bits; R127; DC 0] -/
  idx : Nat := 0
  /-- Bound class [1 bit; R110; DC false] -/
  bound : Bool := false
  /-- Arrival, absolute count [Nat; R110; DC 0] -/
  at' : Nat := 0
  /-- Frames it has waited for a program to fill [3 bits; R110; DC 0] -/
  waited : Nat := 0
  /-- A copy placed again: rank 4 [1 bit; R125; false] -/
  late : Bool := false
  /-- A fill codeword that an earlier failed write left: ahead of its zone's later writes [1 bit; R124; false] -/
  first : Bool := false
  deriving DecidableEq, Repr, Inhabited

/-- What a transfer of a channel plan moves (R45). -/
inductive XferOf where
  | read (req : Nat)
  | prog (n : Nat)
  | longOp (die : Nat)
  deriving DecidableEq, Repr, Inhabited
/-- A transfer of a channel plan: n codewords of 82 counts each (R45). -/
structure Xfer where
  /-- Channel of the frond [3 bits; R45; DC 0] -/
  chan : Nat := 0
  /-- Group: 1 carried data-out, 2 data-in, 3 data-out of this frame's reads [2 bits; R45; DC 1] -/
  grp : Nat := 1
  /-- Codewords [7 bits; R45; DC 0] -/
  n : Nat := 0
  /-- Count at which it may begin [14 bits; R45; DC 0] -/
  ready : Nat := 0
  /-- What it moves [sum; R45; DC request 0] -/
  of : XferOf := .read 0
  deriving DecidableEq, Repr, Inhabited
/-- A frame plan of a frond (R40). -/
structure Plan where
  /-- Frame it is for [64 bits; R40; DC 0] -/
  frame : Nat := 0
  /-- Read requests in it [list; R40; DC empty] -/
  reads : List Nat := []
  /-- Dies with a segment of a long operation [list; R37; DC empty] -/
  segs : List Nat := []
  /-- Seedbed and metadata programs [list; R110; DC empty] -/
  progs : List Nat := []
  /-- Channel plans: their transfers in order, group by group [list; R45; DC empty] -/
  xfers : List Xfer := []
  /-- Slots that stay idle after a withdrawal: die, plane, window [list; R42; DC empty] -/
  idle : List (Nat × Nat × Window) := []
  /-- Charge in tenths of a milliwatt [Nat; R44; DC 0] -/
  charge : Nat := 0
  /-- Fixed [1 bit; R40; DC false] -/
  fixed : Bool := false
  /-- Hold plan [1 bit; R50; DC false] -/
  hold : Bool := false
  deriving DecidableEq, Repr, Inhabited

/-- A member table entry (R103): what the frond itself records of a member it holds. -/
structure MemberRec where
  /-- Stripe generation [32 bits; R103; DC 0] -/
  gen : Nat := 0
  /-- Verified row count [11 bits; R103; DC 0] -/
  verified : Nat := 0
  /-- A program of the member was cut [1 bit; R103; DC false] -/
  cut : Bool := false
  deriving DecidableEq, Repr, Inhabited

/-- A frond slot and the frond in it. -/
structure FrondSt where
  /-- STATE of the Stripe Health log, 0–9 [8 bits; R106; 0 as shipped with all fronds] -/
  state : Nat := 0
  /-- Present contact closed [1 bit; R434; DC true] -/
  present : Bool := true
  /-- Serial number of the frond in the slot [20 bytes; R462; DC empty] -/
  serial : List Byte := []
  /-- Serial number of the slot's frond of record [20 bytes; R102; DC empty] -/
  record : List Byte := []
  /-- The slot has a frond of record [1 bit; R435; DC true] -/
  hasRecord : Bool := true
  /-- STATE that a foreign unit in the slot, or its open fuse, hides [8 bits; R2, R106, R401; DC 0] -/
  hidden : Nat := 0
  /-- Identity read at insertion, kept until it is judged [Option; R435; none] -/
  ident : Option FrondIdent := none
  /-- Insertion step: 0 none, 1 settling, 2 starting, 3 held and not accepted [2 bits; R435; DC 0] -/
  insert : Nat := 0
  /-- Prepared for removal, or preparation running (1), done (2) [2 bits; R433; 0] -/
  prepared : Nat := 0
  /-- FC from which the records of its preparation are to be written [64 bits; R433; 0] -/
  prepFc : Nat := 0
  /-- Command that prepares it [Nat; R433; none] -/
  prepCmd : Option (Nat × Nat) := none
  /-- Count made at the preparation's fetch [32 bits; R184; DC 0] -/
  prepCount : Nat := 0
  /-- Card-core failures or Filnas resets in this power epoch [Nat; R429; 0] -/
  coreFails : Nat := 0
  /-- Its Filnas is being reset after a first failure and returns at the next frame [1 bit; R429; DC false] -/
  coreReset : Bool := false
  /-- Out of service because no link engine reaches it [1 bit; R24; false] -/
  leGone : Bool := false
  /-- GONE_FC [64 bits; R106; 0] -/
  goneFc : Nat := 0
  /-- GONE_EP [32 bits; R106; 0] -/
  goneEp : Nat := 0
  /-- SPARES_LEFT [32 bits; R106; 30,720] -/
  spares : Nat := 30720
  /-- Free accounted die-blocks below which R142 acts are counted from the block table; blocks erased new [Nat; R142; DC 0] -/
  freeLow : Bool := false
  /-- Phase error toward the marker, counts [signed; R33; DC 0] -/
  phase : Int := 0
  /-- Low 16 bits of FC of the last marker [16 bits; R32; DC 0] -/
  marker : BitVec 16 := 0
  /-- Filnas' own FC [64 bits; R33; 0] -/
  fc : Nat := 0
  /-- Quihar whose marker it follows [1 bit; R33; DC CA] -/
  follows : CardId := .ca
  /-- A marker of QA, of QB arrived in the current frame [2 × 1 bit; R33; DC false] -/
  marked : Pair Bool := ⟨false, false⟩
  /-- Frames without a marker on either link [5 bits; R33; 0] -/
  unmarked : Nat := 0
  /-- Requests of this card are refused (fenced) [2 bits; R293; none] -/
  fenced : List CardId := []
  /-- Plan of the current frame [plan; R40; DC empty] -/
  cur : Plan := {}
  /-- Plan under construction for the next frame [plan; R40; DC empty] -/
  nxt : Plan := {}
  /-- The next frame's plan is closed [1 bit; R40; DC false] -/
  closed : Bool := false
  /-- Frame-plan message alive counter sent to each Quihar [2 × 8 bits; R40, R274; DC 0] -/
  aliveTx : Pair Nat := ⟨0, 0⟩
  /-- Frame-plan message alive counter that each Quihar last received [2 × Option; R52, R274; none] -/
  planRx : Pair (Option (BitVec 8)) := ⟨none, none⟩
  /-- Each Quihar has received the message of the plan fixed in this frame [2 × 1 bit; R52; DC false] -/
  planHeard : Pair Bool := ⟨false, false⟩
  /-- Frame-plan message received in this frame, per Quihar: placed requests [list; R40; DC empty] -/
  placed : Pair (List Nat) := ⟨[], []⟩
  /-- Requests accepted for later frames [list; R39; DC empty] -/
  waiting : List Nat := []
  /-- Codewords waiting for packing [list; R110; DC empty] -/
  pack : List PackItem := []
  /-- Dies whose long operations wait [list; R43; DC empty] -/
  opDies : List Nat := []
  /-- SEG_OVERRUNS [32 bits; R58; 0] -/
  segOver : Nat := 0
  /-- RW_OVERRUNS [32 bits; R58; 0] -/
  rwOver : Nat := 0
  /-- CH_OVERRUNS [32 bits; R58; 0] -/
  chOver : Nat := 0
  /-- PLAN_LATE [32 bits; R58; 0] -/
  planLate : Nat := 0
  /-- FCs of plan-late faults within the last 4,000 frames [list; R52; DC empty] -/
  lateFcs : List Nat := []
  /-- FIX_WORST [16 bits; R58; 0] -/
  fixWorst : Nat := 0
  /-- REFRESH_DONE [64 bits; R84; 0] -/
  refreshDone : Nat := 0
  /-- Seedbed die-blocks not replaced, by which the frond holds fewer [Nat; R122; 0] -/
  sbMissing : Nat := 0
  /-- Seedbed die-blocks not free (IN_USE) [32 bits; R131; 0] -/
  sbUsed : Nat := 0
  /-- Seedbed blocks waiting for erase (ERASING) [32 bits; R131; 0] -/
  sbErasing : Nat := 0
  /-- PROG_FAILS [32 bits; R131; 0] -/
  progFails : Nat := 0
  /-- Member table, by slot × 16 + position [table; R103; empty] -/
  table : Tbl MemberRec := []
  /-- Verified row counts not yet in a member table program: chunk keys [list; R120; DC empty] -/
  batch : List Nat := []
  /-- FC of the last member table program [64 bits; R120; DC 0] -/
  tableFc : Nat := 0
  /-- Erases completed since the last journal record: block key, and whether its cycle was a QLC one [list; R62, R77; empty] -/
  erased : List (Nat × Bool) := []
  /-- Erase-incomplete blocks whose re-erase has completed since the last journal record, with their row of R79 [list; R79; empty] -/
  recovered : List (Nat × Nat) := []
  /-- A failed blank-check has made a block of it grown bad, or left it a block short, since the last tick [1 bit; R80, R81, R145;
  false] -/
  check : Bool := false
  /-- Dirty die-blocks waiting to be named or erased (block keys) [list; R142; empty] -/
  dirty : List Nat := []
  /-- FC at which the last erase-journal record was packed [64 bits; R77; DC 0] -/
  journalFc : Nat := 0
  /-- SHA-256 of the Filnas code it runs [32 bytes; R361; DC empty] -/
  code : List Byte := []
  /-- Code in the idle bank [32 bytes; R361; DC empty] -/
  idleCode : List Byte := []
  /-- Active code bank [1 bit; R361; DC false] -/
  bank : Bool := false
  /-- FC of a code switch not yet reported running [Option; R361; none] -/
  switched : Option Nat := none
  /-- Media allowance sent for the last frame, in tenths of a milliwatt; the log shows it in milliwatts [16 bits; R44, R425; 0] -/
  allowance : Nat := 0
  /-- Demand of the previous frame, tenths of mW [Nat; R44; DC 0] -/
  demand : Nat := 0
  /-- No segment starts (preparation, last feed lost, thermal shutdown) [1 bit; R399, R421; false] -/
  noSegs : Bool := false
  /-- Thermal shutdown action in force [1 bit; R425; 0] -/
  shutdown : Bool := false
  /-- Flagged for service [1 bit; R422; 0] -/
  service : Bool := false
  /-- Locate indicator on [1 bit; R432; DC false] -/
  locate : Bool := false
  /-- Event store [at most 4,096 records; R383; empty] -/
  store : List EventRec := []
  /-- Copies waiting for power [at most 64; R383; 0] -/
  storeQ : List EventRec := []
  /-- DROPPED_FULL of the store [64 bits; R384; 0] -/
  storeDrop : Nat := 0
  /-- FULL of the store [1 bit; R384; 0] -/
  storeFull : Bool := false
  /-- CLEARS [32 bits; R384; 0] -/
  clears : Nat := 0
  /-- Channel being named for retraining, and its training frame [Option; R65; none] -/
  training : Option (Nat × Nat) := none
  /-- FC of the frond's last retraining start [64 bits; R65; DC 0] -/
  trainStart : Nat := 0
  /-- Running member refresh: block keys of source and target, row, reads outstanding [Option; R74; none] -/
  refresh : Option (Nat × Nat × Nat × Nat) := none
  deriving DecidableEq, Repr, Inhabited

/-- A channel (R84). -/
structure Chan where
  /-- TRAIN_FC [64 bits; R84; 0] -/
  trainFc : Nat := 0
  /-- TRAIN_COUNT: the start-up training counts [16 bits; R84; 1] -/
  trainings : Nat := 1
  /-- TRAIN_TEMP [8 bits; R84; DC 0] -/
  trainTemp : Nat := 0
  /-- Temperature of each of its four packages at the last training, °C, where it has been sampled [4 × Option; R65; none] -/
  pkgTemps : List (Option Nat) := [none, none, none, none]
  /-- CAP is 160 in place of 190 [8 bits; R84; 190] -/
  reduced : Bool := false
  /-- Absolute count at which the cap was lowered [64 bits; R17, R52; DC 0] -/
  reducedAt : Nat := 0
  /-- FCs of channel-plan overruns [list; R52; DC empty] -/
  overruns : List Nat := []
  /-- Retraining is pending [1 bit; R65; false] -/
  due : Bool := false
  /-- Sequencer failed [1 bit; R24; false] -/
  failed : Bool := false
  /-- Trained since power-up, Filnas reset or insertion: plans may be fixed for it [1 bit; R64; true] -/
  trained : Bool := true
  deriving DecidableEq, Repr, Inhabited

/-- Stripe profile (R85). -/
inductive Profile where | s14 | l12 | s15
  deriving DecidableEq, Repr, Inhabited
/-- A member of a stripe slot (R85, R94, R103). -/
structure Member where
  /-- Block key of its die-block; none while pending or lost [Option; R85, R94; none] -/
  blk : Option Nat := none
  /-- Lost for good, no spare [1 bit; R105; false] -/
  lost : Bool := false
  /-- Verified row count, or the rebuild or fill cursor [11 bits; R100, R103; 0] -/
  verified : Nat := 0
  /-- Being rebuilt or filled [1 bit; R101; false] -/
  filling : Bool := false
  /-- Rows padded above the finish row [11 bits; R139; 0] -/
  padded : Nat := 0
  deriving DecidableEq, Repr, Inhabited
/-- A stripe slot (R85, R103, R154). -/
structure Stripe where
  /-- Allocated [1 bit; R137; 0] -/
  used : Bool := false
  /-- Profile [2 bits; R85; DC s14] -/
  profile : Profile := .s14
  /-- Stripe generation [32 bits; R103; 0 DC] -/
  gen : Nat := 0
  /-- Namespace [13 bits; R152; DC 0] -/
  nsid : Nat := 0
  /-- Zone index, none for a conventional stripe [Option; R135; none] -/
  zone : Option Nat := none
  /-- SEQ at its last allocation [48 bits; R128; DC 0] -/
  allocSeq : Nat := 0
  /-- Members, position 0 first [list of 16; R85; DC empty] -/
  members : List Member := []
  /-- Folded row count [11 bits; R154; 0] -/
  folded : Nat := 0
  /-- Rows lost for good [list; R93; empty] -/
  lostRows : List Nat := []
  /-- Placement class of the opening command [4 bits; R137; DC 0] -/
  cls : Nat := 0
  /-- Valid blocks of a conventional stripe [20 bits; R149; 0] -/
  valid : Nat := 0
  /-- Closed: a conventional stripe that is no longer a head [1 bit; R149; false] -/
  closed : Bool := false
  /-- Next offset a conventional head fills [20 bits; R147; 0] -/
  next : Nat := 0
  /-- Row whose padding bounds the stripe, from Zone Finish [Option; R139; none] -/
  finishRow : Option Nat := none
  deriving DecidableEq, Repr, Inhabited

/-- Parity accumulator of an active zone or a conventional head, keyed by stripe slot (R114, R115). -/
structure Accum where
  /-- Row being accumulated [10 bits; R116; 0] -/
  row : Nat := 0
  /-- Codewords of the row accumulated [Nat; R116; 0] -/
  count : Nat := 0
  /-- Accumulated parity per codeword offset: key offset × 4 + chunk number [table of byte lists; R114; DC empty] -/
  acc : Tbl (List Byte) := []
  /-- Lost, waiting for recomputation [1 bit; R117; false] -/
  lost : Bool := false
  /-- The fold reads of its recomputation have gone out [1 bit; R117; false] -/
  asked : Bool := false
  /-- Card whose extension pool gave it its third chunk [Option; R115; none] -/
  ext : Option CardId := none
  deriving DecidableEq, Repr, Inhabited

/-- The rebuild and fill machinery (R95–R104, R106). -/
structure Rebuild where
  /-- Queue of members to rebuild or fill, as slot × 16 + position [list; R98; empty] -/
  queue : List Nat := []
  /-- Members in progress [list; R295; empty] -/
  active : List Nat := []
  /-- Kinds in progress (1 die, 2 frond, 3 fill), each with its OBJECT of R374 [list; R106, R107; empty] -/
  kinds : List (Nat × Nat) := []
  /-- Kind and OBJECT that each queued member belongs to [table; R93, R107; empty] -/
  of : Tbl (Nat × Nat) := []
  /-- REBUILD_RATE [8 bits; R99; 4] -/
  rate : Nat := 4
  /-- BYTES_DONE [64 bits; R106; 0] -/
  done : Nat := 0
  /-- BYTES_TOTAL [64 bits; R106; 0] -/
  total : Nat := 0
  /-- Bytes reconstructed, with their FC, in the last 4,000 frames [list; R106; empty] -/
  recent : List (Nat × Nat) := []
  /-- Stripes completed since the last mirrored position, per card [2 × Nat; R100; 0] -/
  sinceMirror : Pair Nat := ⟨0, 0⟩
  /-- Queue position of each Quihar: stripe slot it last completed [2 × Nat; R100; 0] -/
  position : Pair Nat := ⟨0, 0⟩
  /-- Queue position last mirrored to the partner, per card [2 × Nat; R100; 0] -/
  mirrored : Pair Nat := ⟨0, 0⟩
  /-- Reconstructed bytes that each Quihar may still start under REBUILD_RATE [2 × Nat; R99; 0] -/
  credit : Pair Nat := ⟨0, 0⟩
  /-- LOST_COUNT [32 bits; R106; 0] -/
  lostCount : Nat := 0
  /-- LOST list [879 × 32 bits; R106; all ones, held as empty] -/
  lost : List Nat := []
  deriving DecidableEq, Repr, Inhabited

/-- The seedbed as a whole (R123–R131). -/
structure Seedbed where
  /-- WFN_BASE [48 bits; R126; DC 0] -/
  wfnBase : Nat := 0
  /-- FOLDED_BYTES [64 bits; R131; 0] -/
  foldedBytes : Nat := 0
  /-- Bytes folded, with their FC, in the last 4,000 frames [list; R131; empty] -/
  recent : List (Nat × Nat) := []
  /-- Free L12 extension chunks per card [2 × 13 bits; R115, R131; 4,096 each] -/
  ext : Pair Nat := ⟨4096, 4096⟩
  /-- FULL_WAITS [64 bits; R131; 0] -/
  fullWaits : Nat := 0
  /-- FULL_FAILS [64 bits; R131; 0] -/
  fullFails : Nat := 0
  /-- ABSENT_RELEASED [64 bits; R131; 0] -/
  absentReleased : Nat := 0
  /-- Codewords whose copies are to be placed again, oldest SEQ first [list; R125; empty] -/
  replace : List Nat := []
  /-- STATE of the log as it stood at the last tick [2 bits; R132; 0] -/
  stateSeen : Nat := 0
  /-- Free head resources and writes admitted at the fold rate: credit in codewords per frond [table; R123; DC 0] -/
  credit : Tbl Nat := []
  deriving DecidableEq, Repr, Inhabited

/-- Time (R15–R18, R55). -/
structure TimeSt where
  /-- FC [64 bits; R15; 0] -/
  fc : Nat := 0
  /-- EP [32 bits; R16; 1 DC after the first power-on] -/
  ep : Nat := 1
  /-- Absolute count of the current tick in this power epoch [Nat; R17; 0] -/
  start : Nat := 0
  /-- Length of the current frame in counts [15 bits; R55; 16,000] -/
  len : Nat := 16000
  /-- Latest count within the frame at which something was registered [14 bits; R17; DC 0] -/
  count : Nat := 0
  /-- 12 V bus good [1 bit; R427; true after power-on] -/
  bus : Bool := true
  /-- RESET_N asserted: both cards held [1 bit; R430; false] -/
  resetHeld : Bool := false
  /-- Tick master [1 bit; R32; QA] -/
  master : CardId := .ca
  /-- Wall time set since power-on: milliseconds and the FC of the set [Option; R376; none] -/
  wall : Option (Nat × Nat) := none
  /-- TIME_EPOCH [32 bits; R376; DC 0] -/
  timeEpoch : Nat := 0
  /-- Frames of the power epochs before this one: the model's own, so that a scrub interval runs on [Nat; model; 0] -/
  past : Nat := 0
  /-- How the previous epoch ended, 0–4 of R375 [3 bits; R375; 3] -/
  lastEnd : Nat := 3
  /-- All writes quiet since this FC [64 bits; R428; 0] -/
  lastWrite : Nat := 0
  /-- A clean shutdown of both controllers stands [1 bit; R428; false] -/
  cleanEnd : Bool := false
  deriving DecidableEq, Repr, Inhabited

/-- A claim of a plane's slot in a frame for a bound read (R47). -/
structure Claim where
  /-- Global die index × 4 + plane [14 bits; R47; DC 0] -/
  dp : Nat := 0
  /-- Frame [64 bits; R47; DC 0] -/
  frame : Nat := 0
  /-- Command [Nat; R47; DC 0] -/
  cmd : Nat := 0
  /-- A plane read has taken it [1 bit; R47; false] -/
  used : Bool := false
  deriving DecidableEq, Repr, Inhabited
/-- Frame statistics (R58) and bound admission of the frame (R46, R47). -/
structure Stats where
  /-- SEG_OVERRUNS [64 bits; R58; 0] -/
  segOver : Nat := 0
  /-- RW_OVERRUNS [64 bits; R58; 0] -/
  rwOver : Nat := 0
  /-- CH_OVERRUNS [64 bits; R58; 0] -/
  chOver : Nat := 0
  /-- PLAN_LATE [64 bits; R58; 0] -/
  planLate : Nat := 0
  /-- QUAR_ENTRIES [64 bits; R58; 0] -/
  quarEntries : Nat := 0
  /-- BOUND_ADMITTED [64 bits; R58; 0] -/
  admitted : Nat := 0
  /-- BOUND_DEMOTED [64 bits; R58; 0] -/
  demoted : Nat := 0
  /-- ROUND_PIECES [64 bits; R58; 0] -/
  round : Nat := 0
  /-- MISS_LATE [64 bits; R58; 0] -/
  missLate : Nat := 0
  /-- MISS_ABORT [64 bits; R58; 0] -/
  missAbort : Nat := 0
  /-- BOUND_WORST [32 bits; R58; 0] -/
  boundWorst : Nat := 0
  /-- Claims of plane slots [list; R47; empty] -/
  claims : List Claim := []
  /-- Unreserved read codewords charged in this frame, per card [2 × 16 bits; R205; 0] -/
  readUnres : Pair Nat := ⟨0, 0⟩
  /-- Bytes of DRAM traffic that admitted writes and staged rebuilds cost, less what earlier frames carried [Nat; R29; 0] -/
  dramUsed : Nat := 0
  /-- Unreserved write codewords charged in this frame, per card [2 × 16 bits; R205; 0] -/
  writeUnres : Pair Nat := ⟨0, 0⟩
  deriving DecidableEq, Repr, Inhabited

/-- A miss record (R58). -/
structure Miss where
  /-- DEADLINE_FC [64 bits; R58; 0] -/
  fc : Nat := 0
  /-- DEADLINE_COUNT [16 bits; R58; 0] -/
  count : Nat := 0
  /-- SLICE [16 bits; R58; 0] -/
  slice : Nat := 0
  /-- GENERATION [16 bits; R58; 0] -/
  gen : Nat := 0
  /-- SQID [16 bits; R58; 0] -/
  sqid : Nat := 0
  /-- CID [16 bits; R58; 0] -/
  cid : Nat := 0
  /-- PORT [8 bits; R58; 0] -/
  port : Nat := 0
  /-- OPCODE [8 bits; R58; 0] -/
  opc : Nat := 0
  /-- NSID [32 bits; R58; 0] -/
  nsid : Nat := 0
  /-- LATE_COUNTS [64 bits; R58; 0] -/
  late : Nat := 0
  /-- POLICY [8 bits; R58; 0] -/
  policy : Nat := 0
  /-- CAUSE [8 bits; R58; 0] -/
  cause : Nat := 0
  /-- Command it belongs to [Nat; R53; DC 0] -/
  cmd : Nat := 0
  deriving DecidableEq, Repr, Inhabited

end Sys2Proof.Machine
end

