-- ==== Sys2Proof/Machine/StateHost.lean ====
section
/-! DEFINITION. The host side of the state: namespaces, zones, maps and journal, controllers, queues, commands and
completions, slices, spikelet and winnow, bulk ports, buffers, DRAM and check units. Brackets as in StateMedia. -/
namespace Sys2Proof.Machine

/-- A completion as posted (R168, R177), in the order of posting. -/
structure Cqe where
  port : Port := .h0
  sqid : Nat := 0
  cid : Nat := 0
  sct : Nat := 0
  sc : Nat := 0
  more : Bool := false
  dnr : Bool := false
  dw0 : Nat := 0
  dw1 : Nat := 0
  data : List Byte := []
  /-- First failing structure, for the Error Information entry (R232); none where the status names no byte -/
  loc : Option Nat := none
  /-- NSID of the command, for the Error Information entry (R168) -/
  nsid : Nat := 0
  deriving DecidableEq, Repr, Inhabited

/-- An Error Information entry (R168). -/
structure ErrEntry where
  count : Nat := 0
  sqid : Nat := 0
  cid : Nat := 0
  sct : Nat := 0
  sc : Nat := 0
  loc : Nat := 0
  lba : Nat := 0
  nsid : Nat := 0
  csi : Nat := 0
  deriving DecidableEq, Repr, Inhabited

/-- An I/O submission queue, keyed port × 65,536 + SQID (R159, R211). -/
structure SubQ where
  /-- Exists [1 bit; R195; 0] -/
  used : Bool := false
  /-- Slice that owns it [10 bits; R159; DC 0] -/
  slice : Nat := 0
  /-- CQID [16 bits; R211; DC 0] -/
  cqid : Nat := 0
  /-- SQ_SIZE, 0's-based [16 bits; R211; DC 0] -/
  size : Nat := 0
  /-- SQ_BASE [64 bits; R211; DC 0] -/
  base : Nat := 0
  /-- SQ_HEAD [16 bits; R211; 0 at creation] -/
  head : Nat := 0
  /-- SQ_TAIL [16 bits; R211; 0 at creation] -/
  tail : Nat := 0
  /-- Doorbell writes not yet used up: tail and instant [list; R49; empty] -/
  bells : List (Nat × Nat) := []
  /-- Instant of the latest Queue Resume, absolute count [Nat; R49, R169; 0] -/
  resumed : Nat := 0
  /-- ERR_FROZEN [1 bit; R167, R211; 0] -/
  frozen : Bool := false
  /-- CONTIG [1 bit; R211; DC true] -/
  contig : Bool := true
  deriving DecidableEq, Repr, Inhabited
/-- An I/O completion queue, keyed as a submission queue (R211). -/
structure ComQ where
  /-- Exists [1 bit; R195; 0] -/
  used : Bool := false
  /-- Slice [10 bits; R159; DC 0] -/
  slice : Nat := 0
  /-- CQ_SIZE [16 bits; R211; DC 0] -/
  size : Nat := 0
  /-- CQ_BASE [64 bits; R211; DC 0] -/
  base : Nat := 0
  /-- CQ_TAIL [16 bits; R211; 0] -/
  tail : Nat := 0
  /-- CQ_HEAD [16 bits; R211; 0] -/
  head : Nat := 0
  /-- VECTOR [16 bits; R211; DC 0] -/
  vector : Nat := 0
  /-- PHASE [1 bit; R211; DC true] -/
  phase : Bool := true
  /-- IEN [1 bit; R211; DC false] -/
  ien : Bool := false
  deriving DecidableEq, Repr, Inhabited

/-- The NVMe controller of one host port (R20, R158, R163, R174). -/
structure Ctrl where
  /-- PCIe link up [1 bit; R174, R427; true once started] -/
  link : Bool := true
  /-- CC [32 bits; R174; DC 0x00460001: enabled, as CSTS.RDY says] -/
  cc : BitVec 32 := 0x00460001#32
  /-- CSTS.RDY [1 bit; R427; true once started] -/
  rdy : Bool := true
  /-- CSTS.CFS [1 bit; R189; DC false] -/
  fatal : Bool := false
  /-- CSTS.NSSRO, an RW1C bit: an NVM Subsystem Reset has occurred [1 bit; R11, R14, R429; DC false] -/
  nssro : Bool := false
  /-- CSTS.SHST: 0 none, 1 processing, 2 complete [2 bits; R175; 0] -/
  shst : Nat := 0
  /-- AQA [32 bits; R159; DC 0] -/
  aqa : BitVec 32 := 0
  /-- ASQ [64 bits; R159; DC 0] -/
  asq : BitVec 64 := 0
  /-- ACQ [64 bits; R159; DC 0] -/
  acq : BitVec 64 := 0
  /-- Interrupt mask [32 bits; R11; DC 0] -/
  intm : BitVec 32 := 0
  /-- Fetch stopped on every I/O queue (reset, shutdown, activation, entry) [1 bit; R175, R298, R410; false] -/
  stopped : Bool := false
  /-- Outstanding Asynchronous Event Requests (CIDs) [list of at most 8; R158; empty] -/
  aers : List Nat := []
  /-- Arbitration burst of feature 0x01 [32 bits; R163; DC 0] -/
  arbitration : Nat := 0
  /-- Interrupt Coalescing 0x08 [32 bits; R163; DC 0] -/
  coalesce : Nat := 0
  /-- Interrupt Vector Configuration 0x09, by vector [table; R163; DC 0] -/
  vectors : Tbl Nat := []
  /-- Asynchronous Event Configuration 0x0B [32 bits; R163; DC 0] -/
  asyncCfg : Nat := 0
  /-- Number of Queues granted, submission and completion [2 × 16 bits; R159; DC 8,192] -/
  nsq : Nat := 8192
  ncq : Nat := 8192
  /-- Error Information entries, newest first [256; R158, R168; empty] -/
  errors : List ErrEntry := []
  /-- Errors ever logged [64 bits; R168; 0] -/
  errCount : Nat := 0
  /-- Changed Namespace List [list; R164; empty] -/
  changedNs : List Nat := []
  /-- Changed Zone List, as (NSID, ZSLBA) [list; R156; empty] -/
  changedZones : List (Nat × Nat) := []
  /-- ANA states reported: groups 1 and 2; 1 optimized, 2 non-optimized, 3 inaccessible [2 × 4 bits; R282; by R282] -/
  ana1 : Nat := 1
  ana2 : Nat := 2
  /-- ANA change count [64 bits; R283; DC 0] -/
  anaChanges : Nat := 0
  deriving DecidableEq, Repr, Inhabited

/-- Zone states (R136). -/
inductive ZState where | empty | implOpen | explOpen | closed | full | readOnly | offline
  deriving DecidableEq, Repr, Inhabited
/-- A zone (R136, R154, R276), keyed NSID × 2^21 + zone index. -/
structure Zone where
  /-- State [enum; R136; Empty at creation] -/
  st : ZState := .empty
  /-- Stripe slot [Option 19 bits; R137; none] -/
  slot : Option Nat := none
  /-- Write pointer, blocks from the zone start [20 bits; R138; 0] -/
  wp : Nat := 0
  /-- Placement class [4 bits; R137; DC 0] -/
  cls : Nat := 0
  /-- Finish point of a finished zone [Option; R139; none] -/
  finish : Option Nat := none
  /-- Zone digest over the contiguous completed blocks [64 bits; R275; 0] -/
  digest : BitVec 64 := 0
  /-- Blocks the digest covers [20 bits; R276; 0] -/
  covered : Nat := 0
  /-- Digest pieces not yet contiguous: first block, CRC [table; R276; empty] -/
  pieces : Tbl (BitVec 64) := []
  /-- Blocks settled (written or filled) are those below `covered` or in `pieces`; assigned ranges open: (first, end,
  command) [list; R134, R138; empty] -/
  openW : List (Nat × Nat × Nat) := []
  /-- Fill codewords still to be programmed [Nat; R202; 0] -/
  fills : Nat := 0
  deriving DecidableEq, Repr, Inhabited
/-- A namespace (R133, R146, R165, R196), keyed by NSID. -/
structure Ns where
  /-- Exists [1 bit; R165; 0] -/
  used : Bool := false
  /-- Zoned command set [1 bit; R165; DC false] -/
  zoned : Bool := false
  /-- Stripe profile [2 bits; R165; DC s14] -/
  profile : Profile := .s14
  /-- ANA group [1 bit; R281; DC g1] -/
  group : Group := .g1
  /-- NSZE, logical blocks [41 bits; R165; DC 0] -/
  nsze : Nat := 0
  /-- LBA format 1 [1 bit; R160; DC false] -/
  fmt1 : Bool := false
  /-- Protection information type, 0, 1 or 3 [2 bits; R160; DC 0] -/
  pit : Nat := 0
  /-- Bound slice [Option; R196; none] -/
  slice : Option Nat := none
  /-- Attached to H0, to H1 [2 bits; R196; false] -/
  att : Pair Bool := ⟨false, false⟩
  /-- Ready [1 bit; R428; DC true for a namespace created in service] -/
  ready : Bool := true
  /-- A delete was fetched: (port, CID) [Option; R165; none] -/
  deleting : Option (Port × Nat) := none
  /-- Salt, as the number of its draw [256 bits; R334; DC 0] -/
  salt : Nat := 0
  /-- Reserved stripe slots S [19 bits; R146; 0] -/
  resv : Nat := 0
  /-- Stripe slots its conventional stripes use [list; R147; empty] -/
  slots : List Nat := []
  /-- Head stripe for host writes [Option; R147; none] -/
  head : Option Nat := none
  /-- Head stripe for garbage collection [Option; R147; none] -/
  gcHead : Option Nat := none
  /-- Stripes taken by a backing deficit [Nat; R145, R148; 0] -/
  deficit : Nat := 0
  /-- Victim under garbage collection and its copies outstanding [Option; R149; none] -/
  victim : Option Nat := none
  /-- Blocks that garbage collection has freed, less those it and host writes have taken, while F is 3 or 4 [Int; R148; 0] -/
  gcFreed : Int := 0
  deriving DecidableEq, Repr, Inhabited

/-- A map journal record (R152), with what completes or is undone with it. -/
structure JRec where
  /-- KIND [4 bits; R152; DC 0] -/
  kind : Nat := 0
  /-- NSID [13 bits; R152; DC 0] -/
  nsid : Nat := 0
  /-- LBA [40 bits; R152; DC 0] -/
  lba : Nat := 0
  /-- SLOT [19 bits; R152; DC 0] -/
  slot : Nat := 0
  /-- OFFSET [20 bits; R152; DC 0] -/
  offset : Nat := 0
  /-- COUNT [11 bits; R152; DC 0] -/
  count : Nat := 0
  /-- Command whose completion waits for the record [Nat; R152; none] -/
  cmd : Option Nat := none
  /-- Zone as it was before the transition, restored if the record is cut [Option; R141; none] -/
  undo : Option (Nat × Zone) := none
  deriving DecidableEq, Repr, Inhabited
/-- The map journal and checkpoints of one Quihar (R152, R154). -/
structure Journal where
  /-- Records waiting for packing [list; R152; empty] -/
  queue : List JRec := []
  /-- FC of the last packing [Option; R152; none] -/
  packFc : Option Nat := none
  /-- Records programmed since the last complete checkpoint [list; R154; empty] -/
  recs : List JRec := []
  /-- Of these, records older than the SEQ of the checkpoint being written [Nat; R154; 0] -/
  older : Nat := 0
  /-- Records written since the last checkpoint [Nat; R154; 0] -/
  written : Nat := 0
  /-- FC of the last checkpoint start [64 bits; R154; DC 0] -/
  lastFc : Nat := 0
  /-- SEQ of the checkpoint being written [Option; R154; none] -/
  running : Option Nat := none
  /-- What of that checkpoint is being written: map pages 0, table segments 1, root 2 [2 bits; R154; 0] -/
  stage : Nat := 0
  /-- Map page at which the clock of the map cache stands [42 bits; R151; 0] -/
  hand : Nat := 0
  /-- SEQ of the newest complete root and its EP [2 × Nat; R155; 0] -/
  rootSeq : Nat := 0
  rootEp : Nat := 0
  /-- Allocator's last rotation base, rebuild position and OWN_EPOCH in the root [3 × Nat; R154, R302; DC 0] -/
  rootBase : Nat := 15
  rootPos : Nat := 0
  rootOwn : Nat := 0
  deriving DecidableEq, Repr, Inhabited
/-- What a metadata work writes into SLC metadata die-blocks: a record of a frond's erase journal, verified row counts for its member
table, records of the map journal with the SEQ of their packing, a map page by NSID × 2^29 + page, one of the six tables of a
checkpoint, its root, 64 KiB of a Winnow program by the job of its load, one wordline set of a metadata block that is rewritten (R74, R77,
R120, R150, R152, R154, R235). -/
inductive MetaOf where
  | erases (frond : Nat) (ended : List (Nat × Bool)) (recovered : List (Nat × Nat)) (named : List Nat)
  | members (frond : Nat) (rows : List Nat)
  | journal (card : CardId) (recs : List JRec) (seq : Nat)
  | page (key : Nat)
  | segment (card : CardId) (table : Nat)
  | root (card : CardId)
  | program (job part : Nat)
  | rewrite (block wl : Nat)
  deriving DecidableEq, Repr, Inhabited
/-- A metadata work under way (R43, R110). -/
structure MetaWork where
  /-- What it writes [sum; R152; DC root of CA] -/
  of : MetaOf := .root .ca
  /-- Codewords of one copy, at most 16 [5 bits; R152; DC 1] -/
  size : Nat := 1
  /-- Copies not programmed yet: frond, and the shared program that carries it [list; R152; DC empty] -/
  copies : List (Nat × Option Nat) := []
  /-- Channels that carry copies of it [list; R77; empty] -/
  chans : List Nat := []
  /-- Plane reads of its contents that have not ended [3 bits; R74; 0] -/
  reads : Nat := 0
  deriving DecidableEq, Repr, Inhabited
/-- The metadata that the module writes (R60, R77, R150–R155). -/
structure Metas where
  /-- Works under way, in order of their packing [table; R152; empty] -/
  work : Tbl MetaWork := []
  /-- Copies of a map page on the medium: die × 4 + plane, block, wordline set [table; R150; empty] -/
  places : Tbl (List (Nat × Nat × Nat)) := []
  deriving DecidableEq, Repr, Inhabited
/-- A map cache entry (R151): a cached map page, keyed NSID × 2^29 + page. -/
structure MapPage where
  /-- Cached [1 bit; R151; 0] -/
  cached : Bool := false
  /-- Dirty [1 bit; R151; 0] -/
  dirty : Bool := false
  /-- Commands waiting for the page [list; R151; empty] -/
  waiters : List Nat := []
  /-- Clock reference bit [1 bit; R151; DC false] -/
  ref : Bool := false
  /-- It is being written back and has not changed since [1 bit; R151; false] -/
  writing : Bool := false
  /-- Its read has ended, and it waits for a frame of the cache [1 bit; R151; false] -/
  arrived : Bool := false
  deriving DecidableEq, Repr, Inhabited

/-- A bulk stream descriptor (R244). -/
structure Desc where
  /-- ENABLE [1 bit; R244; 0] -/
  enable : Bool := false
  /-- REMOTE_GID [128 bits; R244; 0] -/
  gid : BitVec 128 := 0
  /-- REMOTE_VA [64 bits; R244; 0] -/
  va : Nat := 0
  /-- REGION_LEN [64 bits; R244; 0] -/
  len : Nat := 0
  /-- RKEY [32 bits; R244; 0] -/
  rkey : Nat := 0
  /-- REMOTE_QPN [24 bits; R244; 0] -/
  qpn : Nat := 0
  /-- START_PSN [24 bits; R244; 0] -/
  psn : Nat := 0
  /-- QP [12 bits; R244; 0] -/
  qp : Nat := 0
  /-- PORT [1 bit; R244; 0] -/
  port : CardId := .ca
  /-- APP_TAG [16 bits; R244; 0] -/
  appTag : Nat := 0
  deriving DecidableEq, Repr, Inhabited
/-- What a command waits for next, or how far it has come. -/
inductive CmdSt where
  | fetched | listWait | deferred | lockWait | lockEntries | zoneWait | aheadWait | allocWait | openWait | fullWait | gcWait | mapWait | held | reading | writing
  | programmed | journal | ackWait | xferWait | admitWait | flushWait | bulk | winnow | done | dropped
  deriving DecidableEq, Repr, Inhabited
/-- Service class (R5). -/
inductive Svc where | bound | weighted | background
  deriving DecidableEq, Repr, Inhabited
/-- What a fetched I/O command is. -/
inductive CmdKind where
  | read | write | append | writeZeroes | dsm | verify | copy | flush | zoneSend | zoneRecv | winnow | digest
  | bulkRead | bulkAppend | other
  deriving DecidableEq, Repr, Inhabited
/-- A piece of a read: one plane page, up to four codewords (R22, R87). -/
structure Piece where
  /-- Command [Nat; R22; DC 0] -/
  cmd : Nat := 0
  /-- Blocks it brings: (LBA, codeword key) [list; R87; empty] -/
  blocks : List (Nat × Nat) := []
  /-- Stripe slot, member position, row [3 × Nat; R87; DC 0] -/
  slot : Nat := 0
  pos : Nat := 0
  row : Nat := 0
  /-- Route: 0 zeros, 1 member, 2 seedbed copy, 3 read-around [2 bits; R71, R91; DC 0] -/
  route : Nat := 0
  /-- Seedbed copies tried [list; R71; empty] -/
  copiesTried : List Nat := []
  /-- Tiers tried and failed [list; R71; empty] -/
  failed : List Tier := []
  /-- Member pieces still to arrive for read-around [list of positions; R91; empty] -/
  members : List Nat := []
  /-- Members asked for [list of positions; R91; empty] -/
  asked : List Nat := []
  /-- Members given up for others [list of positions; R92; empty] -/
  out : List Nat := []
  /-- Decoded and in S16K [1 bit; R22; false] -/
  ready : Bool := false
  /-- Delivered [1 bit; R22; false] -/
  delivered : Bool := false
  /-- Failed: 0 no, 1 uncorrectable, 2 members unavailable [2 bits; R72, R93; 0] -/
  fail : Nat := 0
  /-- Frames deferred for an S16K buffer [Nat; R260; 0] -/
  deferredAt : Option Nat := none
  /-- S16K buffer held [Option; R260; none] -/
  buf : Option Nat := none
  /-- It waits for its turn in the round robin over slices [1 bit; R206; false] -/
  turn : Bool := false
  /-- Cause that delayed it, 1–6 of R58 [3 bits; R58; 6] -/
  cause : Nat := 6
  /-- Data of its blocks where their stripe was freed after its fetch: (codeword key, data, protection information) [list; R141;
  empty] -/
  kept : List (Nat × List Byte × List Byte) := []
  deriving DecidableEq, Repr, Inhabited
/-- A fetched command. -/
structure Cmd where
  /-- Submission entry [64 bytes; R178; DC zero] -/
  e : Sqe := {}
  /-- Kind [enum; R162; DC other] -/
  kind : CmdKind := .other
  /-- State [enum; R170, R172, R207; DC deferred] -/
  st : CmdSt := .deferred
  /-- Slice and generation at fetch [2 × Nat; R200; DC 0] -/
  slice : Nat := 0
  gen : Nat := 0
  /-- Quihar that fetched it [1 bit; R288; DC CA] -/
  card : CardId := .ca
  /-- Owner that executes it [1 bit; R288; DC CA] -/
  owner : CardId := .ca
  /-- OWN_EPOCH it was forwarded with [Option; R288; none] -/
  fwd : Option Nat := none
  /-- Placement class [4 bits; R227; DC 0] -/
  cls : Nat := 0
  /-- Service class in force [2 bits; R227; DC weighted] -/
  svc : Svc := .weighted
  /-- First LBA and blocks [2 × Nat; R185; DC 0] -/
  lba : Nat := 0
  nlb : Nat := 0
  /-- Deadline, absolute count [Option; R49; none] -/
  deadline : Option Nat := none
  /-- Instant of its doorbell, absolute count [Nat; R49; DC 0] -/
  bell : Nat := 0
  /-- Instant of the doorbell that first covered it, from which BOUND_WORST counts [Nat; R58; DC 0] -/
  rang : Nat := 0
  /-- Absolute frame of its fetch [Nat; R177; DC 0] -/
  fetched : Nat := 0
  /-- Order of fetch [Nat; R171; DC 0] -/
  order : Nat := 0
  /-- Absolute frame since which it waits in its state [Nat; R172, R207; DC 0] -/
  since : Nat := 0
  /-- Frames during which admission was stopped for it [Nat; R124; 0] -/
  stoppedFrames : Nat := 0
  /-- Frond that stopped admission [4 bits; R177; DC 0] -/
  stopFrond : Nat := 0
  /-- It has waited under R123, and FULL_WAITS has counted it [1 bit; R131; false] -/
  waited : Bool := false
  /-- Write blocks still to be durable (codeword keys) [list; R112; empty] -/
  cws : List Nat := []
  /-- A first seedbed program has been issued [1 bit; R53, R176; false] -/
  issued : Bool := false
  /-- Read pieces outstanding [list; R22; empty] -/
  pieces : List Nat := []
  /-- Prefixes locked, exclusive or shared [list; R225; empty] -/
  locks : List (Nat × Nat × Bool) := []
  /-- Buffers held: pool and index [list; R256; empty] -/
  bufs : List (Nat × Nat) := []
  /-- Journal records outstanding [Nat; R152; 0] -/
  recs : Nat := 0
  /-- Mirror sequence number its completion is tied to [Option; R286; none] -/
  tied : Option Nat := none
  /-- Deadline fault has been counted; policy applied [Option; R53; none] -/
  missed : Option Nat := none
  /-- Cause that delays all its pieces: 4 takeover, 5 power, 6 none [3 bits; R58, R406, R445; 6] -/
  cause : Nat := 6
  /-- Read data gathered: (LBA, data bytes, PI bytes) [list; R22; empty] -/
  data : List (Nat × List Byte × List Byte) := []
  /-- Status to complete with once media work ends [Option; R53, R161, R249; none] -/
  status : Option (Nat × Nat) := none
  /-- Dword 0 and Dword 1 it completes with [2 × 32 bits; R184; 0] -/
  dw0 : Nat := 0
  dw1 : Nat := 0
  /-- First affected LBA on failure [40 bits; R168; DC 0] -/
  errLba : Nat := 0
  /-- Bulk bytes moved or received [Nat; R253; 0] -/
  moved : Nat := 0
  /-- Winnow program held since fetch [list; R235; empty] -/
  prog : List Byte := []
  /-- Stream descriptor held since fetch [record; R245; clear] -/
  desc : Desc := {}
  /-- Deadline Miss Policy of its slice at fetch [1 bit; R57; 0] -/
  policy : Bool := false
  /-- Its port was reset: it runs on and posts no completion [1 bit; R176; 0] -/
  silent : Bool := false
  /-- Earlier commands a Flush, Zone Reset or Zone Digest waits for [list; R141, R176, R187; empty] -/
  after : List Nat := []
  deriving DecidableEq, Repr, Inhabited

/-- An admin command that ends only after media work: Format NVM, Sanitize, Slice Delete, Slice Reset, Guard Level Change
(R198, R201, R331, R338). -/
structure Job where
  /-- Number of the job: journal records that it waits for carry it [Nat; R464; DC 0] -/
  key : Nat := 0
  /-- The command [64 bytes; R178; DC zero] -/
  e : Sqe := {}
  /-- Its erasing has begun; before that it waits for fetched commands [1 bit; R338; DC true] -/
  begun : Bool := true
  /-- Dword 0 it completes with [32 bits; R184; DC 0] -/
  dw0 : Nat := 0
  deriving DecidableEq, Repr, Inhabited
/-- The share structure (R203). -/
structure Share where
  /-- BOUND_READ_CW [16 bits; R203; 0] -/
  readCw : Nat := 0
  /-- BOUND_WRITE_CW [16 bits; R203; 0] -/
  writeCw : Nat := 0
  /-- BURST [8 bits; R203; 1] -/
  burst : Nat := 1
  /-- BUF_PCT [8 bits; R203; 10] -/
  bufPct : Nat := 10
  /-- WEIGHT [16 bits; R203; 100] -/
  weight : Nat := 100
  /-- RULE_QUOTA [16 bits; R203; 256] -/
  quota : Nat := 256
  deriving DecidableEq, Repr, Inhabited
/-- A queue as the slice image holds it (R211). -/
structure QImage where
  sqid : Nat := 0
  cqid : Nat := 0
  sqSize : Nat := 0
  cqSize : Nat := 0
  sqBase : Nat := 0
  cqBase : Nat := 0
  head : Nat := 0
  tail : Nat := 0
  cqTail : Nat := 0
  cqHead : Nat := 0
  vector : Nat := 0
  phase : Bool := true
  ien : Bool := false
  contig : Bool := true
  frozen : Bool := false
  deriving DecidableEq, Repr, Inhabited
/-- A slice (R192–R215), keyed by slice number. -/
structure Slice where
  /-- STATE: 0 free, 1 active, 2 frozen, 3 resetting, 4 deleting [3 bits; R215; 0, slice 0 active] -/
  st : Nat := 0
  /-- Freeze command waiting for quiet: (port, CID) [Option; R209; none] -/
  waiter : Option (Port × Nat × Nat) := none
  /-- Bound port [1 bit; R193; 0] -/
  port : Port := .h0
  /-- PASID [20 bits; R193; 0] -/
  pasid : Nat := 0
  /-- Generation [16 bits; R199; 0x0000 at manufacture] -/
  gen : BitVec 16 := 0
  /-- Share [64 bytes; R203; defaults of R203] -/
  share : Share := {}
  /-- Share to apply at the next frame boundary [Option; R208; none] -/
  shareNext : Option Share := none
  /-- QPAIRS [8 bits; R193; 0; slice 0 owns no I/O queue limit of its own: DC 64] -/
  qpairs : Nat := 0
  /-- Deadline Miss Policy [1 bit; R57; 0] -/
  policy : Bool := false
  /-- PORT_LOST [1 bit; R210; 0] -/
  portLost : Bool := false
  /-- Queue states at the port loss [list; R210; empty] -/
  lostQs : List QImage := []
  /-- Media key, as the number of its draw; 0 none [512 bits; R197, R334; DC 0] -/
  key : Nat := 0
  /-- SAVE_SEQ [32 bits; R211; 0] -/
  saveSeq : Nat := 0
  /-- The latest image is not stale [1 bit; R212; false] -/
  saveFresh : Bool := false
  /-- Winnow programs by slot [table; R235; empty] -/
  progs : Tbl (List Byte) := []
  /-- Stream descriptors [table of 256; R244; clear] -/
  descs : Tbl Desc := []
  /-- Tokens used from the read and write buckets (0 = full) [2 × Nat; R205; 0] -/
  readUsed : Nat := 0
  writeUsed : Nat := 0
  /-- Reserved codewords charged in this frame, per port for slice 0 alike [2 × Nat; R205; 0] -/
  readResv : Nat := 0
  writeResv : Nat := 0
  /-- Deficit of the round robin at each Quihar [2 × Nat; R206; 0] -/
  deficit : Pair Nat := ⟨0, 0⟩
  /-- Its deficit in the round robin of scans that wait for a stream engine, at each Quihar [2 × Nat; R206, R240; 0] -/
  scanDeficit : Pair Nat := ⟨0, 0⟩
  /-- FETCHED [64 bits; R215; 0] -/
  fetched : Nat := 0
  /-- BOUND_ADMITTED [64 bits; R215; 0] -/
  admitted : Nat := 0
  /-- DEMOTED [64 bits; R215; 0] -/
  demoted : Nat := 0
  /-- MISSES [32 bits; R215; 0] -/
  misses : Nat := 0
  /-- CHANGE_FC [64 bits; R215; 0] -/
  changeFc : Nat := 0
  deriving DecidableEq, Repr, Inhabited

/-- A spikelet entry in the array (R217), keyed by physical index. -/
structure Entry where
  /-- Valid bit [1 bit; R217; 0] -/
  valid : Bool := false
  /-- Priority [12 bits; R217; DC 0] -/
  prio : BitVec 12 := 0
  /-- Key, in the low 80, 160 or 320 bits as the bank's entry width says [320 bits; R216, R217; DC 0] -/
  key : BitVec 320 := 0
  /-- Mask, as the key [320 bits; R216, R217; DC 0] -/
  mask : BitVec 320 := 0
  /-- Result [24 bits; R217; DC 0] -/
  result : BitVec 24 := 0
  /-- Rule the entry belongs to and its place in the decomposition [2 × Nat; R222; DC 0] -/
  rule : Nat := 0
  sub : Nat := 0
  deriving DecidableEq, Repr, Inhabited
/-- One Quihar's spikelet array (R216–R226). -/
structure Spikelet where
  /-- Entries [131,072 units; R216; the default entry of R228 alone] -/
  ents : Tbl Entry := []
  /-- Shadow of the banks in SRAM [as the entries; R221; as the entries] -/
  shadow : Tbl Entry := []
  /-- First units of the entries that are retired [list; R221; empty] -/
  retired : List Nat := []
  /-- First units of the entries rewritten once after a parity fault [list; R221; empty] -/
  rewritten : List Nat := []
  /-- The lock write position that follows the last one written, 32,768 at the end of bank 7 [16 bits; R226; DC 0] -/
  lockPos : Nat := 0
  /-- Lock priority in use [12 bits; R226; 4,095] -/
  lockPrio : Nat := 4095
  /-- Result of the latest search: result, or none for no match [Option; R218; none] -/
  found : Option (BitVec 24) := none
  deriving DecidableEq, Repr, Inhabited
/-- A classifier rule (R231), keyed by rule number. -/
structure Rule where
  slice : Nat := 0
  prio : Nat := 0
  valid : Bool := false
  placement : Nat := 0
  service : Nat := 0
  sizeMin : Nat := 0
  sizeMax : Nat := 0
  portSel : Nat := 0
  nsid : Nat := 0
  opcode : Nat := 0
  opcodeMask : Nat := 0
  hint : Nat := 0
  hintMask : Nat := 0
  hits : Nat := 0
  deriving DecidableEq, Repr, Inhabited

/-- A bulk port's configuration and link (R242, R250). -/
structure BulkPort where
  /-- VID [12 bits; R242; 0] -/
  vid : Nat := 0
  /-- PCP [3 bits; R242; 3] -/
  pcp : Nat := 3
  /-- VLAN_EN [1 bit; R242; 0] -/
  vlan : Bool := false
  /-- LOCAL_GID [128 bits; R242; 0] -/
  gid : BitVec 128 := 0
  /-- NEXT_HOP_MAC [48 bits; R242; 0] -/
  nextHop : BitVec 48 := 0
  /-- PFC_PRIO [3 bits; R242; 3] -/
  pfcPrio : Nat := 3
  /-- PFC_EN [1 bit; R242; 1] -/
  pfcEn : Bool := true
  /-- DSCP [6 bits; R242; 26] -/
  dscp : Nat := 26
  /-- CNP_DSCP [6 bits; R242; 48] -/
  cnpDscp : Nat := 48
  /-- CUT [8 bits; R242; 64] -/
  cut : Nat := 64
  /-- RECOVER [8 bits; R242; 1] -/
  recover : Nat := 1
  /-- STEP [8 bits; R242; 50] -/
  step : Nat := 50
  /-- ACK_TIMEOUT [8 bits; R242; 2] -/
  ackTimeout : Nat := 2
  /-- RETRY_CNT [3 bits; R242; 7] -/
  retryCnt : Nat := 7
  /-- LINK_UP [1 bit; R242; 0] -/
  linkUp : Bool := false
  /-- Absolute count at which the link went down, or a reconfiguration took it down [Option; R242, R253; none] -/
  downAt : Option Nat := none
  /-- NAK_IN [64 bits; R242; 0] -/
  nakIn : Nat := 0
  /-- REQ_REFUSED [64 bits; R242; 0] -/
  refused : Nat := 0
  /-- Transmission paused by PFC [1 bit; R250; false] -/
  paused : Bool := false
  /-- Receive buffer bytes in use [23 bits; R250; 0] -/
  rxUsed : Nat := 0
  /-- XOFF sent [1 bit; R250; false] -/
  xoff : Bool := false
  /-- What waits for the end of a pause: (queue pair number, none for a CNP, PSN and code for a NAK) [list; R250; empty] -/
  held : List (Nat × Option (Nat × Nat)) := []
  deriving DecidableEq, Repr, Inhabited
/-- An RC queue pair (R243), keyed port × 4,096 + index. -/
structure Qp where
  /-- In service [1 bit; R243; 0] -/
  used : Bool := false
  /-- Owner slice [10 bits; R243; DC 0] -/
  slice : Nat := 0
  /-- Remote GID and QPN [152 bits; R245; DC 0] -/
  gid : BitVec 128 := 0
  qpn : Nat := 0
  /-- Next PSN to use [24 bits; R245; DC 0] -/
  psn : Nat := 0
  /-- Oldest unacknowledged PSN [24 bits; R252; DC 0] -/
  una : Nat := 0
  /-- Next response PSN expected [24 bits; R248; DC 0] -/
  expect : Nat := 0
  /-- Outstanding packets: (PSN, command, piece or block, bytes, is RDMA READ) [list; R246, R248; empty] -/
  out : List (Nat × Nat × Nat × Nat × Bool) := []
  /-- Retries without progress [3 bits; R252; 0] -/
  retries : Nat := 0
  /-- Error reason of R253, 0 none [4 bits; R252; 0] -/
  error : Nat := 0
  /-- Rate in tenths of Gb/s, a cut rounded down to a tenth (assumption 198) [Nat; R251; 8,000] -/
  rate : Nat := 8000
  /-- Absolute count of the last CNP [64 bits; R251; 0] -/
  cnpAt : Nat := 0
  /-- Absolute count of the last CNP sent [Option; R251; none] -/
  cnpSent : Option Nat := none
  /-- Being cleared once its commands end [1 bit; R245; false] -/
  closing : Bool := false
  /-- RDMA WRITEs that wait for their turn: (command, piece, bytes) [list; R250, R251; empty] -/
  todo : List (Nat × Nat × Nat) := []
  /-- Last PSNs of the RDMA READ requests issued [list; R248; empty] -/
  reqs : List Nat := []
  /-- Bytes sent that the rate of the frames so far has not covered [Nat; R251; 0] -/
  spent : Nat := 0
  /-- PSN from which a retransmission waits for the port [Option; R250, R252; none] -/
  late : Option Nat := none
  /-- Absolute count since which no acknowledgement has come: the last one, or the last packet sent afresh [64 bits; R252; 0] -/
  ackAt : Nat := 0
  deriving DecidableEq, Repr, Inhabited

/-- A buffer pool (R256, R257, R279). -/
structure PoolSt where
  /-- Free handles in the cache and the ring together [Nat; R257; the pool's size] -/
  free : Nat := 0
  /-- Handles in the on-chip cache [10 bits; R257; DC 256] -/
  cache : Nat := 256
  /-- FREE_MIN [32 bits; R279; the pool's size] -/
  freeMin : Nat := 0
  /-- Allocated indices with their reference counts (bitmap and counts) [table; R257, R261; empty] -/
  refs : Tbl Nat := []
  /-- Indices held out after a reference fault [list; R261; empty] -/
  out : List Nat := []
  /-- EMPTY [64 bits; R279; 0] -/
  empty : Nat := 0
  /-- RACES_LOST [32 bits; R279; 0] -/
  races : Nat := 0
  /-- FAILED_0X82 [32 bits; R279; 0] -/
  failed : Nat := 0
  deriving DecidableEq, Repr, Inhabited
/-- A DRAM rank (R279). -/
structure Rank where
  /-- ROLE: 0–6 slot, 7 spare, 8 training, 9 retired [8 bits; R279; by R263] -/
  role : Nat := 0
  /-- TRAIN_TEMP [8 bits; R279; DC 0] -/
  temp : Nat := 0
  /-- MIN_EYE [8 bits; R279; DC 0] -/
  eye : Nat := 0
  /-- CORRECTED [32 bits; R279; 0] -/
  corrected : Nat := 0
  /-- UNCORRECTABLE [32 bits; R279; 0] -/
  uncorr : Nat := 0
  /-- TRAININGS [32 bits; R279; 0] -/
  trainings : Nat := 0
  /-- TRAIN_FC [64 bits; R279; 0] -/
  trainFc : Nat := 0
  /-- TRAIN_EP [32 bits; R279; DC 0] -/
  trainEp : Nat := 0
  /-- FCs of corrected errors in the last 4,000 frames [list; R265; empty] -/
  recent : List Nat := []
  deriving DecidableEq, Repr, Inhabited
/-- Alive-counter statistics of a verified stream (R274, R279). -/
structure Alive where
  /-- Last accepted counter; none before the first message [Option 8 bits; R274; none] -/
  last : Option (BitVec 8) := none
  /-- MISSING [32 bits; R279; 0] -/
  missing : Nat := 0
  /-- REPEATS [32 bits; R279; 0] -/
  repeats : Nat := 0
  /-- CRC_FAILS [32 bits; R279; 0] -/
  crcFails : Nat := 0
  deriving DecidableEq, Repr, Inhabited
/-- A rank operation of a card (R265, R269). -/
inductive RankOp where
  | idle
  | copy (x y : Nat)
  | switching (x y : Nat)
  | train (x : Nat)
  | migrate (x y : Nat)
  deriving DecidableEq, Repr, Inhabited
/-- A card's buffers, DRAM and check units (R256–R279). -/
structure CardMem where
  /-- Pools in the order P4K, P64K, P256K, S16K [4 entries; R256; full] -/
  pools : List PoolSt := []
  /-- Ranks by 2 × c + r [8 entries; R263; by R263] -/
  ranks : Tbl Rank := []
  /-- Rank table, slot 0 first [7 × 3 bits; R263; 0, 2, 4, 6, 1, 3, 5] -/
  table : List Nat := [0, 2, 4, 6, 1, 3, 5]
  /-- SPARE; none as all ones [8 bits; R279; 7] -/
  spare : Option Nat := some 7
  /-- Rank operation in progress (COPYING) [enum; R279; 0xFF none] -/
  rop : RankOp := .idle
  /-- Poisoned lines: rank × 2^28 + line [list; R268; empty] -/
  poison : List Nat := []
  /-- POISON_LINES [64 bits; R279; 0] -/
  poisonLines : Nat := 0
  /-- RESOURCED [64 bits; R279; 0] -/
  resourced : Nat := 0
  /-- POISON_FAILS [64 bits; R279; 0] -/
  poisonFails : Nat := 0
  /-- REF_FAULTS [32 bits; R279; 0] -/
  refFaults : Nat := 0
  /-- ALIVE[0..3]: barrier, culm, heartbeat, frame plan [4 entries; R279; 0] -/
  alive : List Alive := [{}, {}, {}, {}]
  /-- Fences completed, per source [table; R267; 0] -/
  fences : Tbl Nat := []
  /-- Check-value unit contexts [32 × 16 bytes; R272; defaults of R272] -/
  units : Tbl CheckCtx := []
  /-- Context saved last by CHECK_CONTEXT_LOAD [16 bytes; R272; default] -/
  saved : CheckCtx := {}
  /-- Granted handles of the latest request; none when it failed [list; R258; empty] -/
  granted : Option (List (BitVec 32)) := none
  /-- FC of the last no-spare event [64 bits; R269; DC 0] -/
  noSpareFc : Nat := 0
  /-- Grain and map cache in force, log2 bytes and GiB [2 × 8 bits; R278; 12 and 8] -/
  grainNow : Nat := 12
  cacheNow : Nat := 8
  deriving DecidableEq, Repr, Inhabited

/-- A stream engine's waiting work, one unit each (R446, R447). -/
inductive SeWork where
  | encrypt (cw : Nat)
  | parity (slot row : Nat)
  | reconstruct (piece : Nat)
  | decrypt (piece : Nat)
  | winnow (cmd : Nat)
  | copy (cmd : Nat)
  | rebuild (chunk : Nat)
  deriving DecidableEq, Repr, Inhabited
/-- A programmable engine (R24), keyed card × 64 + index, or 128 + 9 × frond + index. -/
structure Engine where
  /-- Stopped as failed [1 bit; R24; 0] -/
  failed : Bool := false
  /-- Failed its start-up self-test: out until the card is replaced [1 bit; R24; 0] -/
  forGood : Bool := false
  /-- Winnow or Copy command that runs on it between units [Option; R240, R447; none] -/
  winnow : Option Nat := none
  deriving DecidableEq, Repr, Inhabited

end Sys2Proof.Machine
end

