-- ==== Sys2Proof/Machine/StatePair.lean ====
section
/-! DEFINITION. The pair, sheaf, security, firmware, recorder, power and thermal side of the state. Brackets as in
StateMedia. -/
namespace Sys2Proof.Machine

/-- A mirror record on its way (R286), with what waits for its acknowledgement. -/
structure MirrorRec where
  msn : Nat := 0
  sent : Nat := 0
  cmds : List Nat := []
  deriving DecidableEq, Repr, Inhabited

/-- A firmware slot (R356). -/
structure FwSlot where
  /-- VALID: the slot record is present [1 bit; R356; true at manufacture] -/
  valid : Bool := true
  /-- CONFIRMED [1 bit; R356; true at manufacture] -/
  confirmed : Bool := true
  /-- SHA-256 of the image [32 bytes; R356; DC empty, the image as shipped] -/
  sha : List Byte := []
  /-- Image bytes; the shipped image is held as empty [64 MiB; R356; DC empty] -/
  image : List Byte := []
  /-- REVISION [8 bytes; R352; DC empty] -/
  revision : List Byte := []
  /-- SEC_VERSION [32 bits; R352; DC 0] -/
  secVersion : Nat := 0
  /-- IF_LEVEL and MIN_PEER_IF [2 × 16 bits; R352; DC 0] -/
  ifLevel : Nat := 0
  minPeerIf : Nat := 0
  /-- HW_MASK of its components: cards, fronds, PEUs [3 × 32 bits; R352; DC all ones] -/
  hwCard : Nat := 4294967295
  hwFrond : Nat := 4294967295
  hwPeu : Nat := 4294967295
  /-- SHA-256 of the Filnas and PEU components [2 × 32 bytes; R354; DC empty] -/
  filnasSha : List Byte := []
  peuSha : List Byte := []
  deriving DecidableEq, Repr, Inhabited
/-- A slot write in progress (R358). -/
structure SlotWrite where
  slot : Nat := 1
  fw : FwSlot := {}
  action : Nat := 0
  /-- The partner's inactive slot is written with it (BOTH_CARDS) -/
  both : Bool := false
  /-- Written, waiting for the partner's -/
  written : Bool := false
  /-- The image of a relay: the commit on its lead, or the slots of a member (R365, R367) -/
  relay : Bool := false
  cmd : Option (Port × Nat × Nat) := none
  deriving DecidableEq, Repr, Inhabited

/-- Why a card is held or out (R292, R359, R415, R416, R438). -/
inductive HeldWhy where | none | partnerHold | failedStart | noKey | staleEpoch | request | foreign | removed | outOfService
  deriving DecidableEq, Repr, Inhabited
/-- A controller card of the pair. -/
structure Card where
  /-- Present [1 bit; R292; true] -/
  present : Bool := true
  /-- Board revision of a card inserted since manufacture [Option; R2, R437; none: as shipped] -/
  rev : Option Nat := none
  /-- In service [1 bit; R299; true once started] -/
  serving : Bool := true
  /-- Why it does not serve [enum; R292; none] -/
  why : HeldWhy := .none
  /-- Heartbeat STATE [8 bits; R285; 1 once serving] -/
  hb : Nat := 1
  /-- ALIVE of the heartbeats it sends [8 bits; R285; DC 0] -/
  aliveTx : BitVec 8 := 0
  /-- Consecutive heartbeats of the partner missed [Nat; R292; 0] -/
  missed : Nat := 0
  /-- A heartbeat of the partner arrived in this frame [1 bit; R285; false] -/
  beat : Bool := false
  /-- Partner's last heartbeat STATE [8 bits; R285; 1 DC] -/
  partnerHb : Nat := 1
  /-- Next MSN it sends, highest MSN acknowledged, highest received in order [3 × 64 bits; R286; DC 0] -/
  msnTx : Nat := 0
  msnAcked : Nat := 0
  msnRx : Nat := 0
  /-- Mirror records without acknowledgement [list; R286; empty] -/
  unacked : List MirrorRec := []
  /-- Tied commands are held for detection to decide [1 bit; R287; false] -/
  holding : Bool := false
  /-- OWN_EPOCH in its configuration store [32 bits; R291; 0] -/
  ownEpoch : Nat := 0
  /-- EP in its configuration store [32 bits; R16, R437; 1 DC] -/
  ep : Nat := 1
  /-- Second hold in this power epoch: a press is refused [1 bit; R439; false] -/
  heldBefore : Bool := false
  /-- The partner-hold line holds it in reset [1 bit; R293, R439; false] -/
  held : Bool := false
  heldAgain : Bool := false
  /-- Start or re-entry step of R437: 0 none, 1 starting, 2 image copy, 3 waiting for confirmation, 4 mirror, 5 moving
  back, 6 starting with the module (R427) [3 bits; R437; 0] -/
  entering : Nat := 0
  /-- SEALED fuse [1 bit; R329; 0] -/
  sealed : Bool := false
  /-- Firmware slots 1 and 2 [2 records; R356; as shipped] -/
  slot1 : FwSlot := {}
  slot2 : FwSlot := {}
  /-- Active slot [1 bit; R356; DC 1] -/
  active : Nat := 1
  /-- Slot that becomes active at the next start, 0 none [2 bits; R370; 0] -/
  nextSlot : Nat := 0
  /-- SEC_MIN [32 bits; R356; 0] -/
  secMin : Nat := 0
  /-- Staging buffer: pieces by byte offset [up to 48 MiB and a co-signature block; R357; empty] -/
  staged : Tbl (List Byte) := []
  /-- Slot write in progress [Option; R358; none] -/
  writing : Option SlotWrite := none
  /-- Absolute count at which the health window began [Option; R17, R362; none] -/
  window : Option Nat := none
  /-- Absolute count since which the soak runs [64 bits; R17, R362; DC 0] -/
  soakAt : Nat := 0
  /-- Activation by action 3 in progress (R298 step 1–5), 0 none, 6 waits for CB's image to be confirmed (R358)
  [3 bits; R298; 0] -/
  activating : Nat := 0
  /-- Leaving service on request: 0 no, 1 its commands complete, 2 its groups move (R436) [2 bits; R436; 0] -/
  leaving : Nat := 0
  /-- Commit of action 3 that completes with the activation [Option; R298; none] -/
  actCmd : Option (Port × Nat × Nat) := none
  /-- The card falls back at its next start [1 bit; R363; false] -/
  fallBack : Bool := false
  /-- Wrapped module root key held: its MRK_GEN [Option 32 bits; R334; some 1] -/
  mrk : Option Nat := some 1
  /-- Main oscillator failed; runs on the secondary (OSC) [1 bit; R425; 0] -/
  osc2 : Bool := false
  /-- Quihar thermal factor and DRAM factor in sixty-fourths [2 × 7 bits; R425; 64] -/
  qFactor : Nat := 64
  dFactor : Nat := 64
  /-- Quihar thermal factor that the frequency of the present frame follows [7 bits; R419; 64] -/
  qNow : Nat := 64
  /-- Write admission stopped by a DRAM sensor [1 bit; R421; false] -/
  writesOff : Bool := false
  /-- Card recorder: copying from the partner [1 bit; R372; 0] -/
  copying : Bool := false
  /-- Fuse on [1 bit; R400; true] -/
  fuseOn : Bool := true
  /-- Slice whose turn it is in the round robin over weighted work [10 bits; R206; DC 0] -/
  turnSlice : Nat := 0
  /-- Slice at which the round robin of waiting scans stands [10 bits; R206, R240; 0] -/
  scanSlice : Nat := 0
  deriving DecidableEq, Repr, Inhabited

/-- A planned ownership transfer (R296). -/
structure Transfer where
  group : Group := .g1
  src : CardId := .ca
  dst : CardId := .cb
  /-- 1 drain, 2 copy, 3 switch at the next boundary -/
  step : Nat := 1
  held : List Nat := []
  deriving DecidableEq, Repr, Inhabited

/-- The pair (R281–R302). -/
structure PairSt where
  /-- CA [record; R281; serving] -/
  ca : Card := {}
  /-- CB [record; R281; serving] -/
  cb : Card := {}
  /-- Owner of group 1 [1 bit; R281; CA] -/
  own1 : CardId := .ca
  /-- Owner of group 2 [1 bit; R281; CB] -/
  own2 : CardId := .cb
  /-- Rhizome lanes: 16, 8 or 0 failed [5 bits; R284; 16] -/
  lanes : Nat := 16
  /-- Takeover in progress: survivor and FC of confirmation [Option; R293; none] -/
  takeover : Option (CardId × Nat) := none
  /-- Planned transfers [list; R296; empty] -/
  transfers : List Transfer := []
  /-- The last card to serve [Option; R302; none] -/
  lastServing : Option CardId := none
  /-- Allocator's last rotation base [4 bits; R137; DC 15, so that base 0 is next] -/
  lastBase : Nat := 15
  /-- Tick-master handover waiting for the frame boundary [Option; R301; none] -/
  handTo : Option CardId := none
  /-- FC of the last switch of a Filnas to new code [64 bits; R361; DC 0] -/
  filSwitch : Nat := 0
  /-- Filnas component whose update has stopped [32 bytes; R361; none] -/
  filStopped : Option (List Byte) := none
  deriving DecidableEq, Repr, Inhabited

/-- A member of the sheaf as this module sees it (R326), keyed by position. -/
structure SheafMember where
  /-- STATE [8 bits; R326; 0] -/
  st : Nat := 0
  /-- HOPS [4 bits; R326; 0] -/
  hops : Nat := 0
  /-- VIA [1 bit; R326; 0] -/
  via : CulmPort := .u0
  /-- OVERRIDE [1 bit; R326; 0] -/
  override : Bool := false
  /-- BASE, WANT, GRANT [3 × 16 bits; R326; 0] -/
  base : Nat := 0
  want : Nat := 0
  grant : Nat := 0
  /-- SERIAL [20 bytes; R326; DC empty] -/
  serial : List Byte := []
  /-- SEEN_SFC [64 bits; R326; 0] -/
  seenSfc : Nat := 0
  /-- Absolute frame at which it was last heard [64 bits; R313; DC 0] -/
  seenAt : Nat := 0
  /-- Absolute counts of the last message that came by VIA [64 bits; R311; DC 0] -/
  viaAt : Nat := 0
  /-- Eligible [1 bit; R313; DC true] -/
  eligible : Bool := true
  /-- Last DEMAND received for the next epoch: BASE, WANT [Option; R317; none] -/
  demand : Option (Nat × Nat) := none
  /-- Has acknowledged the current PLAN_GEN [1 bit; R322; false] -/
  acked : Bool := false
  /-- Spore relay: highest verified index and state [2 × Nat; R366; 0] -/
  spores : Nat := 0
  sporeState : Nat := 0
  /-- Activated in this relay [1 bit; R369; false] -/
  activated : Bool := false
  deriving DecidableEq, Repr, Inhabited
/-- A culm port (R326). -/
structure Culm where
  /-- LINK [8 bits; R326; 0] -/
  link : Nat := 0
  /-- NEIGHBOR, NEIGHBOR_PORT, VALID [6 bits; R326; 0] -/
  nbr : Option (Nat × CulmPort) := none
  /-- DELAY, 1/16 count [32 bits; R326; 0] -/
  delay : Nat := 0
  /-- TRAININGS [64 bits; R326; 0] -/
  trainings : Nat := 0
  /-- SENT [64 bits; R326; 0] -/
  sent : Nat := 0
  /-- RECEIVED [64 bits; R326; 0] -/
  received : Nat := 0
  /-- FORWARDED [64 bits; R326; 0] -/
  forwarded : Nat := 0
  /-- Alive counter sent [8 bits; R306; DC 0] -/
  aliveTx : BitVec 8 := 0
  /-- Alive state received; its counts are in the CardMem statistics [Option; R306; none] -/
  aliveRx : Option (BitVec 8) := none
  /-- Absolute frame at which it went down [64 bits; R303; DC 0] -/
  downAt : Nat := 0
  deriving DecidableEq, Repr, Inhabited
/-- The phase plan (R321). -/
structure PhasePlan where
  cycle : Nat := 16
  light : Nat := 2
  heavy : Nat := 32
  masks : List Nat := [1, 2, 4, 8, 16, 32, 64, 128, 256, 512, 1024, 2048, 4096, 8192, 16384, 32768]
  length : Nat := 128
  deriving DecidableEq, Repr, Inhabited
/-- A spore relay as this module takes part in it (R365–R369). -/
structure Relay where
  /-- 0 none, 1 lead sends to the originator, 2 originator sends, 3 receiving, or whole, 4 lead activates, 5 lead collects
  [3 bits; R367; 0] -/
  st : Nat := 0
  /-- RELAY_ID of it [32 bits; R366; DC 0] -/
  id : Nat := 0
  /-- Image length, spores, commit action, originator position, C_n [R366; DC 0] -/
  length : Nat := 0
  spores : Nat := 0
  action : Nat := 0
  origin : Nat := 0
  cn : List Byte := []
  /-- Positions that take part: included and in the census when it began [16 bits; R365; 0] -/
  mask : Nat := 0
  /-- Spores held: index to bytes, verified as C_i [table; R367; empty] -/
  held : Tbl (List Byte) := []
  /-- Pieces of spores not yet verified: index × 64 + piece, with C_i after piece 63 [table; R367; empty] -/
  parts : Tbl (List Byte) := []
  /-- Chain value of the highest verified spore [32 bytes; R366; DC empty] -/
  chain : List Byte := []
  /-- Highest verified index [16 bits; R367; 0] -/
  verified : Nat := 0
  /-- Highest index sent by a lead or originator [16 bits; R367; 0] -/
  sent : Nat := 0
  /-- Port toward the upstream neighbour [1 bit; R367; DC U0] -/
  up : CulmPort := .u0
  /-- Spores to forward in the next frame: port, index [list; R367; empty] -/
  fwd : List (CulmPort × Nat) := []
  /-- Its state as the module confirms it: 0 receiving, 1 stored, 2 rejected, and the reason [2 × 8 bits; R366; 0] -/
  state : Nat := 0
  reason : Nat := 0
  /-- Lead whose relay it is [4 bits; R368; DC 0] -/
  lead : Nat := 0
  /-- Absolute count of the last progress, request, lead change or ACTIVATE [64 bits; R17, R367–R369; DC 0] -/
  stepAt : Nat := 0
  /-- SHA-256 of the image, once it is whole [32 bytes; R356; DC empty] -/
  sha : List Byte := []
  /-- The module's own cards activate for the relay [1 bit; R369; false] -/
  own : Bool := false
  /-- Member now activating [Option; R369; none] -/
  activating : Option Nat := none
  deriving DecidableEq, Repr, Inhabited
/-- The sheaf (R303–R327). -/
structure Sheaf where
  /-- Strap position [4 bits; R304; DC 0] -/
  pos : Nat := 0
  /-- STATE: 0 not a member, 1 member, 2 lead, 3 conflict, 4 strap fault [8 bits; R326; 0] -/
  st : Nat := 0
  /-- LEAD_POS [4 bits; R326; 0] -/
  lead : Nat := 0
  /-- TOPOLOGY [8 bits; R326; 0] -/
  topology : Nat := 0
  /-- Culm ports enabled [1 bit; R325; DC true] -/
  enabled : Bool := true
  /-- Has handed over the lead: ineligible [1 bit; R313; false] -/
  handed : Bool := false
  /-- OVER [1 bit; R326; 0] -/
  over' : Bool := false
  /-- GRANT_STALE [1 bit; R326; 0] -/
  stale : Bool := false
  /-- OVERRIDE [1 bit; R326; 0] -/
  override : Bool := false
  /-- LEAD_EPOCH [32 bits; R326; 0] -/
  leadEpoch : Nat := 0
  /-- SFC at FC_AT_SFC [64 bits; R326; 0] -/
  sfc : Nat := 0
  /-- FC_AT_SFC [64 bits; R326; 0] -/
  fcAt : Nat := 0
  /-- BUDGET [16 bits; R326; 5,120] -/
  budget : Nat := 5120
  /-- GRANT [16 bits; R326; 0] -/
  grant : Nat := 0
  /-- Own BASE of the grant in force [16 bits; R319; 0] -/
  base : Nat := 0
  /-- Grant received for the next epoch: (epoch, grant, base) [Option; R318; none] -/
  nextGrant : Option (Nat × Nat × Nat) := none
  /-- Epochs without a GRANT [3 bits; R318; 0] -/
  grantless : Nat := 0
  /-- MEMBERS_MAX [8 bits; R326; 0] -/
  membersMax : Nat := 0
  /-- PLAN_GEN [32 bits; R326; 0] -/
  planGen : Nat := 0
  /-- Plan in force [structure; R321; default plan] -/
  plan : PhasePlan := {}
  /-- Plan to come: first epoch [Option; R322; none] -/
  planNext : Option (Nat × PhasePlan) := none
  /-- Sheaf Phase Plan Set that completes with the acknowledgements [Option; R322; none] -/
  planCmd : Option (Port × Nat × Nat) := none
  /-- LEAD_CHANGES [64 bits; R326; 0] -/
  leadChanges : Nat := 0
  /-- MERGES [64 bits; R326; 0] -/
  merges : Nat := 0
  /-- Members by position [16 entries; R326; absent] -/
  members : Tbl SheafMember := []
  /-- U0 and U1 [2 records; R326; down] -/
  u0 : Culm := {}
  u1 : Culm := {}
  /-- Own message sequence number [16 bits; R306; DC 0] -/
  seq : Nat := 0
  /-- Broadcasts received: SRC × 65,536 + SEQ [list; R307; empty] -/
  seen : List Nat := []
  /-- Absolute frame of the last RACHIS of the current LEAD_EPOCH [64 bits; R315; DC 0] -/
  rachisAt : Nat := 0
  /-- RACHIS_STATE [8 bits; R58; 0] -/
  rachis : Nat := 0
  /-- RACHIS_OFFSET: counts by which the rachis leads [signed 32 bits; R58; 0] -/
  offset : Int := 0
  /-- Consecutive frames inside, and outside, ±128 counts [2 × Nat; R55; 0] -/
  inside : Nat := 0
  outside : Nat := 0
  /-- FC since which it has been locked [Option; R313; none] -/
  lockedFc : Option Nat := none
  /-- TICK_DRIVE [1 bit; R326; 0] -/
  drive : Bool := false
  /-- Absolute count until which it does not drive TICK_IO, and that of the last foreign pulse [2 × Option; R17, R312; none] -/
  backoff : Option Nat := none
  foreignAt : Option Nat := none
  /-- Handover: successor, switch SFC [Option; R316; none] -/
  hand : Option (Nat × Nat) := none
  /-- Sheaf Control command that completes with the handover; its action [Option; R325; none] -/
  handCmd : Option (Port × Nat × Nat × Nat) := none
  /-- Sheaf ring of the lead: (SFC, position, record), oldest first [65,536 entries; R323; empty] -/
  ring : List (Nat × Nat × EventRec) := []
  /-- Sequence number of the ring's oldest entry [64 bits; R382; DC 1] -/
  ringFirst : Nat := 1
  /-- Recorder records the lead has acknowledged [Nat; R323; 0] -/
  eventAcked : Nat := 0
  /-- Recorder records sent to the lead [Nat; R323; 0] -/
  eventSent : Nat := 0
  /-- Absolute counts of the last EVENT message sent to the lead, and of the last PLAN broadcast [2 × 64 bits; R308; DC 0] -/
  eventAt : Nat := 0
  planAt : Nat := 0
  /-- Relay [record; R365; none] -/
  relay : Relay := {}
  /-- RELAY_ID saved [32 bits; R366; DC 0] -/
  relayId : Nat := 0
  deriving DecidableEq, Repr, Inhabited

/-- A message or frame the module sends over a link, in the order of sending. -/
inductive Tx where
  | heartbeat (src : CardId) (hb : HeartbeatMsg)
  | marker (src : CardId) (frond : Nat) (low : Nat)
  | fence (fenced : CardId)
  | barrier (peu : PeuId) (src : CardId) (type alive : Nat) (payload : List Nat)
  | peuStatus (peu : PeuId) (st : PeuStatusMsg)
  | peuAlarm (peu : PeuId) (faults vin st : Nat)
  | peuAck (peu : PeuId) (dst : CardId) (type alive result data : Nat)
  | culm (port : CulmPort) (type src dst : Nat) (bcast : Bool) (hops : Nat) (payload : List Nat)
  | spore (port : CulmPort) (id index : Nat)
  | rdma (card : CardId) (qp psn bytes : Nat) (read : Bool)
  | cnp (card : CardId) (qp : Nat)
  | nak (card : CardId) (qp psn code : Nat)
  | arp (card : CardId) (mac : BitVec 48) (ip : BitVec 32)
  | neighborAdv (card : CardId) (target : BitVec 128)
  | pfc (card : CardId) (xon : Bool)
  | mirrorAck (src : CardId) (msn : Nat)
  | mirror (src : CardId) (msn : Nat)
  | forward (cmd epoch : Nat)
  | pieceList (cmd : Nat)
  | planMsg (frond : Nat) (dst : CardId) (alive : Nat) (placed : List Nat)
  | regulator (reg : RegId)
  | mi (bytes : List Byte)
  | interrupt (port : Port) (vector : Nat)
  | aen (port : Port) (cid type info page : Nat)
  | tickPulse (counts : Nat)
  | refuse (req : Nat)
  deriving DecidableEq, Repr, Inhabited

/-- A nonce (R339). -/
structure Nonce where
  value : BitVec 64 := 0
  born : Nat := 0
  deriving DecidableEq, Repr, Inhabited
/-- A held token (R343). -/
structure Token where
  handle : Nat := 0
  type : Nat := 0
  body : List Byte := []
  keyId : List Byte := []
  born : Nat := 0
  used : Bool := false
  deriving DecidableEq, Repr, Inhabited
/-- An authorization key slot (R345, R350). -/
structure AuthKey where
  pub : List Byte := []
  deriving DecidableEq, Repr, Inhabited
/-- Security (R328–R351). -/
structure Security where
  /-- Guard level [2 bits; R350; 1] -/
  level : Nat := 1
  /-- MRK_GEN in force [32 bits; R350; 1] -/
  mrkGen : Nat := 1
  /-- Authorization keys by slot 0–3 [4 × 60 bytes; R345; empty] -/
  keys : Tbl AuthKey := []
  /-- Co-signature root [32 bytes; R345; none] -/
  cosign : Option (List Byte) := none
  /-- Valid nonces, oldest first [at most 16; R339; empty] -/
  nonces : List Nonce := []
  /-- Held tokens, oldest first [at most 64; R343; empty] -/
  tokens : List Token := []
  /-- Next handle [16 bits; R343; DC 1] -/
  nextHandle : Nat := 1
  /-- TYPE 6 tokens waiting for signature (handles) [list; R346; empty] -/
  attestQ : List Nat := []
  /-- Authorization Submit commands waiting for their report [list; R346; empty] -/
  reports : List (Nat × List Byte) := []
  /-- Next signing index and RESERVED_END [2 × 40 bits; R346; 0] -/
  attestNext : Nat := 0
  reservedEnd : Nat := 0
  /-- Absolute count of the last signature [Option; R17, R346; none] -/
  signedAt : Option Nat := none
  /-- ACCEPTED [64 bits; R350; 0] -/
  accepted : Nat := 0
  /-- REFUSED [64 bits; R350; 0] -/
  refused : Nat := 0
  /-- LAST_REASON [8 bits; R350; 0] -/
  lastReason : Nat := 0
  /-- CHANGES, LAST_CHANGE_FC, LAST_CHANGE_EP [R347, R350; 0] -/
  changes : Nat := 0
  lastFc : Nat := 0
  lastEp : Nat := 0
  /-- Guard level change or Sanitize running: (opcode, port, CID) [Option; R333; none] -/
  running : Option (Nat × Port × Nat) := none
  /-- KEY_ID of the token that each running command has used, by port × 65,536 + CID [table; R343, R348; empty] -/
  keyIds : Tbl (List Byte) := []
  /-- Sanitize Status: SPROG and SSTAT [2 × 16 bits; R338; DC 0xFFFF, 0] -/
  sprog : Nat := 0xFFFF
  sstat : Nat := 0
  /-- CDW10 of the latest Sanitize, as the Sanitize Status log returns it [32 bits; R164, R338; DC 0] -/
  sanCdw10 : Nat := 0
  deriving DecidableEq, Repr, Inhabited

/-- A token bucket and its suppressed counts (R377, R378), keyed by code. -/
structure Bucket where
  /-- Tokens taken: DEPTH − tokens [8 bits; R377; 0, full at power-on] -/
  taken : Nat := 0
  /-- SUPP_RATE [32 bits; R378; 0] -/
  rate : Nat := 0
  /-- SUPP_RING [32 bits; R378; 0] -/
  ring : Nat := 0
  /-- FIRST_FC and LAST_FC [2 × 64 bits; R378; 0] -/
  first : Nat := 0
  last : Nat := 0
  /-- Left over from an earlier refill tick [1 bit; R378; false] -/
  left : Bool := false
  deriving DecidableEq, Repr, Inhabited
/-- A module recorder as one card's configuration store holds it (R380, R381). -/
structure Recorder where
  /-- Main area, position 0 first [1,044,480 records; R381; empty] -/
  main : List EventRec := []
  /-- Change reserve [4,096 records; R381; empty] -/
  reserve : List EventRec := []
  /-- CLEAR_GEN [32 bits; R382; 0] -/
  clearGen : Nat := 0
  /-- FULL [1 bit; R382; 0] -/
  full : Bool := false
  deriving DecidableEq, Repr, Inhabited
/-- The recorder master and both stores (R371–R388). -/
structure Events where
  /-- Recorder of CA, of CB [2 stores; R371; empty] -/
  recA : Recorder := {}
  recB : Recorder := {}
  /-- Intake ring, oldest first [256; R379; empty] -/
  ring : List EventRec := []
  /-- Summaries and markers [64; R379; empty] -/
  sumQ : List EventRec := []
  /-- Change records, with the commands their writing completes [16; R379; empty] -/
  changeQ : List (EventRec × Option Cqe) := []
  /-- Records of the program now running, with the commands they complete [at most 4; R380; empty] -/
  writing : List (EventRec × Option Cqe) := []
  /-- Buckets by code [table; R377; full] -/
  buckets : Tbl Bucket := []
  /-- DROPPED_FULL [64 bits; R382; 0] -/
  dropped : Nat := 0
  /-- SUPPRESSED since the last clear [64 bits; R382; 0] -/
  suppressed : Nat := 0
  /-- 64 KiB sectors erased ahead of the write position after a clear; none when the whole store is erased
  [Option; R385; none] -/
  erasedTo : Option Nat := none
  /-- Master's token-bucket parameters and overrides: DEPTH, REFILL, PERIOD [8, 8, 16 bits; R386; 8, 8, 4,000] -/
  depth : Nat := 8
  refill : Nat := 8
  period : Nat := 4000
  /-- Frame of the last refill tick that has been served [Option; R377; none] -/
  refilled : Option Nat := none
  /-- OVERRIDE entries: (code, depth) [12 × 4 bytes; R386; unused] -/
  overrides : List (Nat × Nat) := []
  /-- Parameters and overrides accepted that apply from the next frame boundary [Option; R386; none] -/
  next : Option (Nat × Nat × Nat × List (Nat × Nat)) := none
  /-- Log pages whose asynchronous event is posted and not yet read (masked) [list; R107, R388; empty] -/
  posted : List Nat := []
  /-- Asynchronous events waiting for a request, per port: (type, info, page) [list; R162; empty] -/
  aenQ : Pair (List (Nat × Nat × Nat)) := ⟨[], []⟩
  deriving DecidableEq, Repr, Inhabited

/-- A command the commander has sent to a PEU (R396). -/
structure BarrierTx where
  /-- TYPE [8 bits; R395; DC 0] -/
  type : Nat := 0
  /-- ALIVE of the latest sending [8 bits; R396; DC 0] -/
  alive : Nat := 0
  /-- Instant of the latest sending, in counts [64 bits; R396; 0] -/
  sent : Nat := 0
  /-- Payload [list; R395; DC empty] -/
  payload : List Nat := []
  /-- Retries on the present link [2 bits; R396; 0] -/
  retries : Nat := 0
  /-- Sent through the partner's link [1 bit; R396; false] -/
  viaPartner : Bool := false
  /-- Power Entry Control it executes [Option; R404; none] -/
  cmd : Option (Port × Nat × Nat) := none
  deriving DecidableEq, Repr, Inhabited
/-- A PEU and what the cards keep of it (R389–R404). -/
structure Peu where
  /-- Slot holds a unit [1 bit; R432; true] -/
  present : Bool := true
  /-- The unit is a Keltan PEU [1 bit; R2; true] -/
  keltan : Bool := true
  /-- Board revision of a PEU inserted since manufacture [Option; R2, R440; none: as shipped] -/
  rev : Option Nat := none
  /-- STATE [8 bits; R398; 2 once on] -/
  st : Nat := 2
  /-- FAULTS [16 bits; R398; 0] -/
  faults : BitVec 16 := 0
  /-- Output enabled [1 bit; R404; true] -/
  outOn : Bool := true
  /-- Disabled by command [1 bit; R398; false] -/
  disabled : Bool := false
  /-- Hold-up carries the output [1 bit; R391; false] -/
  holdUp : Bool := false
  /-- Input switch closed [1 bit; R391; true] -/
  inSwitch : Bool := true
  /-- Feed within its operating range [1 bit; R391; DC true] -/
  feed : Bool := true
  /-- Latest measurement [record; R398; DC 48.00 V at the input, else 0] -/
  m : PeuMeasure := { vin := 4800 }
  /-- I_LIMIT in force, 0.1 A [16 bits; R398; 100] -/
  iLimit : Nat := 100
  /-- I_LIMIT saved in the configuration stores [16 bits; R404; 100] -/
  iSaved : Nat := 100
  /-- MARGIN, 0.1 % [signed 16 bits; R398; 0] -/
  margin : Int := 0
  /-- CA_SILENT, CB_SILENT base: FC of the last valid message from each card [2 × Nat; R398; 0] -/
  heardA : Nat := 0
  heardB : Nat := 0
  /-- Alive state of each link at the PEU [2 × Option; R274; none] -/
  rxA : Option (BitVec 8) := none
  rxB : Option (BitVec 8) := none
  /-- ALIVE sent to each card [2 × 8 bits; R394; DC 0] -/
  txA : Nat := 0
  txB : Nat := 0
  /-- Alive state of the PEU's messages at each card [2 × Option; R274; none] -/
  cardRxA : Option (BitVec 8) := none
  cardRxB : Option (BitVec 8) := none
  /-- BANK [1 bit; R398; DC 0] -/
  bank : Bool := false
  /-- Code SHA-256 of the active and the idle bank [2 × 32 bytes; R402; DC empty] -/
  code : List Byte := []
  idle : List Byte := []
  /-- FC of the last IMAGE_ACTIVATE sent [64 bits; R402; 0] -/
  actFc : Nat := 0
  /-- Instant of the last output over-current, in counts [64 bits; R399; 0] -/
  offAt : Nat := 0
  /-- Blocks received into the idle bank, by offset [table; R402; empty] -/
  blocks : Tbl (List Byte) := []
  /-- The idle bank's SHA-256 was checked by IMAGE_END [1 bit; R402; false] -/
  checked : Bool := false
  /-- UPDATING [1 bit; R398; 0] -/
  updating : Bool := false
  /-- Update pending or running on the commander's side: 0 none, 1 waiting, 2 transferring, 3 activating [2 bits; R402; 0] -/
  upd : Nat := 0
  /-- CAL values that differ from shipment [256 × 32 bits; R403; as shipped] -/
  cal : Tbl (BitVec 32) := []
  /-- Last valid STATUS at the cards [32 bytes; R425; DC a unit on, its input at 48.00 V] -/
  status : PeuStatusMsg := { m := { vin := 4800 }, state := 2 }
  /-- Frame of the last valid STATUS on each card's link [2 × Option; R397; some 0 DC] -/
  atA : Option Nat := some 0
  atB : Option Nat := some 0
  /-- Link down at CA, at CB [2 bits; R397; false] -/
  downA : Bool := false
  downB : Bool := false
  /-- Settings unknown until the next STATUS [1 bit; R396; false] -/
  unknown : Bool := false
  /-- Commands sent and not acknowledged, oldest first [list; R396; empty] -/
  out : List BarrierTx := []
  /-- ALIVE of the messages that each card sends to it [2 × 8 bits; R394; DC 0] -/
  aliveA : Nat := 0
  aliveB : Nat := 0
  /-- Component bytes under transfer, and the offset of the next block to send [list, 20 bits; R402; empty, 0] -/
  comp : List Byte := []
  compNext : Nat := 0
  /-- Thermal factor [7 bits; R420; 64] -/
  factor : Nat := 64
  /-- Calibration values read by the commander, next index [9 bits; R403; 256 once read] -/
  calRead : Nat := 256
  deriving DecidableEq, Repr, Inhabited
/-- A slot fuse (R400, R401), keyed 0–15 fronds, 16 CA, 17 CB. -/
structure Fuse where
  /-- Off after a trip [1 bit; R401; false] -/
  off : Bool := false
  /-- Trip frame k [Option; R401; none] -/
  trip : Option Nat := none
  /-- Retries made [2 bits; R401; 0] -/
  retries : Nat := 0
  /-- Latched [1 bit; R401; false] -/
  latched : Bool := false
  /-- Frame at which the latest retry turned on and holds [Option; R401; none] -/
  onSince : Option Nat := none
  /-- A retry fell due in PS4 [1 bit; R401; false] -/
  due : Bool := false
  deriving DecidableEq, Repr, Inhabited
/-- A power-state entry in progress (R409, R410). -/
structure EntrySt where
  target : Nat := 3
  /-- Step 1–6 of R410 -/
  step : Nat := 1
  /-- Blocks that delay -/
  delaying : List Nat := []
  /-- Instant since which they delay, in counts -/
  since : Nat := 0
  /-- Both Quihars have been asked for their checkpoint (step 2) -/
  ckpt : Bool := false
  /-- Frame from which the records of the fronds that are parked are to be written (step 3) [64 bits; R410; 0] -/
  parkFc : Nat := 0
  /-- Wake event taken at the next abort point; its target -/
  wake : Option Nat := none
  /-- A takeover has begun during the entry: block 0x03 refuses at the next abort point (R424) [1 bit; R424; false] -/
  taken : Bool := false
  /-- Port, CID and opcode of the Set Features that asked for it -/
  cmd : Option (Port × Nat × Nat) := none
  deriving DecidableEq, Repr, Inhabited
/-- A regulator request without acknowledgement (R414). -/
structure RegReq where
  id : RegId
  retries : Nat := 0
  /-- Instant of the latest sending, in counts [64 bits; R414; 0] -/
  sent : Nat := 0
  /-- It follows a frequency alone [1 bit; R417; false] -/
  freq : Bool := false
  deriving DecidableEq, Repr, Inhabited
/-- An exit in progress (R408, R413): the operational state, and the non-operational target that follows it. -/
structure ExitSt where
  target : Nat := 0
  follow : Option Nat := none
  cmd : Option (Port × Nat × Nat) := none
  deriving DecidableEq, Repr, Inhabited
/-- Power states and thermal control (R405–R426). -/
structure Power where
  /-- PEU-A and PEU-B [2 records; R389; on] -/
  peuA : Peu := {}
  peuB : Peu := {}
  /-- Slot fuses that are not simply on [18 entries; R400; on] -/
  fuses : Tbl Fuse := []
  /-- PS [3 bits; R425; 0] -/
  ps : Nat := 0
  /-- Operational state to enter at the next frame boundary, with its command [Option; R406; none] -/
  psNext : Option ExitSt := none
  /-- Operational state in force before entry [2 bits; R408; 0] -/
  lastOp : Nat := 0
  /-- Entry in progress [Option; R410; none] -/
  entry : Option EntrySt := none
  /-- Exit in progress: target state and the entry that follows it [Option; R408, R413; none] -/
  exit : Option ExitSt := none
  /-- FC at which the exit began [64 bits; R467; 0] -/
  exitFc : Nat := 0
  /-- Instant at which the last exit from a non-operational state ended, absolute count [Nat; R445; 0] -/
  awake : Nat := 0
  /-- Admin commands that wait for the exit [list; R408; empty] -/
  woken : List Sqe := []
  /-- LAST_RESULT, LAST_BLOCK, LAST_TARGET, LAST_POINT [R425; 0] -/
  lastResult : Nat := 0
  lastBlock : Nat := 0
  lastTarget : Nat := 0
  lastPoint : Nat := 0
  /-- LAST_FC, LAST_EP [R425; 0] -/
  lastFc : Nat := 0
  lastEp : Nat := 0
  /-- ENTRIES, REFUSED, ABANDONED, THROTTLED_FRAMES [4 × 64 bits; R425; 0] -/
  entries : Nat := 0
  refused : Nat := 0
  abandoned : Nat := 0
  throttled : Nat := 0
  /-- REG_FAILS [32 bits; R425; 0] -/
  regFails : Nat := 0
  /-- Regulator requests outstanding [list; R414; empty] -/
  regReqs : List RegReq := []
  /-- HOST_BUDGET [8 bits; R418; 100] -/
  hostBudget : Nat := 100
  /-- Last input capacity C, W [16 bits; R393; DC 640] -/
  capacity : Nat := 640
  /-- FC at which the last current STATUS was lost [Option; R393; none] -/
  staleSince : Option Nat := none
  /-- PIN mean over the last power epoch, W, and sum and number of samples of this one [R317, R425; 0] -/
  pinMean : Nat := 0
  pinSum : Nat := 0
  pinN : Nat := 0
  /-- Media charge and demand summed over the epoch, tenths of mW, and of the previous one [R317; 0] -/
  chargeSum : Nat := 0
  chargeLast : Nat := 0
  demandSum : Nat := 0
  demandLast : Nat := 0
  /-- Throttle points: package, junction, Filnas, DRAM; PRIV_BAND [5 × 8 bits; R423; 70, 100, 100, 85, 5] -/
  pkgThr : Nat := 70
  qjThr : Nat := 100
  filThr : Nat := 100
  dramThr : Nat := 85
  privBand : Nat := 5
  /-- HOST_BUDGET and the throttle points accepted that apply from the next frame boundary: HOST_BUDGET, PKG, QJ, FIL, DRAM,
  PRIV_BAND [Option; R418, R423; none] -/
  setNext : Option (Nat × Nat × Nat × Nat × Nat × Nat) := none
  /-- Readings by sensor number, eighths of a degree [584 × 16 bits; R425; not read] -/
  temps : Tbl (Option Int) := []
  /-- Broken sensors (sensor numbers) [list; R425; empty] -/
  broken : List Nat := []
  /-- Frond thermal factors [16 × 7 bits; R425; 64] -/
  frondF : Tbl Nat := []
  /-- HOT_PKG per frond [16 × 5 bits; R425; 0] -/
  hotPkg : Tbl Nat := []
  /-- Domains that are throttled now (frond 0–15, Quihar 16–17, DRAM 18–19, PEU 20–21) [list; R420; empty] -/
  throttledNow : List Nat := []
  /-- The last feed is lost: no segment starts [1 bit; R399; false] -/
  feedLost : Bool := false
  deriving DecidableEq, Repr, Inhabited

/-- Features saved or in force that belong to no other record. -/
structure Features where
  /-- QUAR_THRESHOLD, QUAR_WINDOW, QUAR_HOLD [8, 16, 32 bits; R56; 3, 4,000, 40,000] -/
  quarThr : Nat := 3
  quarWin : Nat := 4000
  quarHold : Nat := 40000
  /-- WARN_PCT, MARGIN_STEP, SCRUB_READS, RETRAIN_TEMP, RECAL_TEMP, RETRAIN_HOURS [R82; 60, 3, 32, 15, 20, 1] -/
  warnPct : Nat := 60
  marginStep : Nat := 3
  scrubReads : Nat := 32
  retrainTemp : Nat := 15
  recalTemp : Nat := 20
  retrainHours : Nat := 1
  /-- INTERVAL by placement class, hours [16 × 16 bits; R82; 168] -/
  interval : Tbl Nat := []
  /-- THROTTLE_PCT, FULL_PCT, FULL_WAIT, PACK_WAIT, ABSENT_HOLD_PCT [R130; 95, 98, 4,000, 1, 25] -/
  thrPct : Nat := 95
  fullPct : Nat := 98
  fullWait : Nat := 4000
  packWait : Nat := 1
  absentPct : Nat := 25
  /-- FOLD_HOLD by placement class, seconds [16 × 8 bits; R130; 0] -/
  foldHold : Tbl Nat := []
  /-- GRAIN_NEXT, CACHE_NEXT, REFRESH_K, RANK_TEMP, RANK_HOURS [R278; 12, 8, 9, 10, 24] -/
  grainNext : Nat := 12
  cacheNext : Nat := 8
  refreshK : Nat := 9
  rankTemp : Nat := 10
  rankHours : Nat := 24
  /-- Composite over- and under-temperature thresholds, K [2 × 16 bits; R163; 353, 0] -/
  tempOver : Nat := 353
  tempUnder : Nat := 0
  /-- H of the classifier, log2 [3 bits; R231; 4] -/
  holeLog : Nat := 4
  /-- HITS of the default entry [64 bits; R231; 0] -/
  defaultHits : Nat := 0
  deriving DecidableEq, Repr, Inhabited

/-- NVMe-MI endpoint (R188–R191). -/
structure Mi where
  /-- MCTP endpoint ID [8 bits; R188; DC 0] -/
  eid : BitVec 8 := 0
  /-- SMBus frequency: 1 = 100 kHz, 2 = 400 kHz [8 bits; R189; DC 1] -/
  freq : Nat := 1
  /-- MCTP transmission unit [16 bits; R188; 64] -/
  mtu : Nat := 64
  /-- Changed-status bits of both controllers [2 × Nat; R189; DC 0] -/
  changed : Pair Nat := ⟨0, 0⟩
  /-- Controller status, and temperature, Percentage Used, Critical Warning, as compared at the last frame tick: the model's own
  [2 × Nat, 3 × Nat; R189; DC as after reset] -/
  seen : Pair Nat := ⟨1, 1⟩
  seenHealth : Nat × Nat × Nat := (0, 0, 0)
  /-- Configuration Set whose change record is not written yet: the card that took it [Option; R189, R348; none] -/
  awaiting : Option CardId := none
  /-- Response to the latest request: status and bytes [Nat; R189; DC 0] -/
  status : Nat := 0
  resp : List Byte := []
  deriving DecidableEq, Repr, Inhabited

end Sys2Proof.Machine
end

