-- ==== Sys2Proof/Machine/State.lean ====
section
/-! DEFINITION. The whole state of the block, its faults and refusals, and the state after reset (assumption 1). -/
namespace Sys2Proof.Machine

/-- Faults: the block's commands raise none; every failure the spec describes is an effect on State. -/
inductive Fault where
  /-- Raised by no command; kept so that the type names that there is none. Safe. -/
  | noneRaised
  deriving DecidableEq, Repr

/-- Refusals. -/
inductive Refusal where
  /-- Raised by an arm of exec whose row has no meaning yet. Safe. -/
  | notModelled (mnemonic : String)
  deriving DecidableEq, Repr

/-- The state of the module (plain data). -/
structure State where
  /-- Commands waiting, first in, first out [list; the row's cut; empty] -/
  pending : List Instr := []
  /-- Time, power epoch, tick master [record; R15–R18, R32; R15] -/
  time : TimeSt := {}
  /-- Frame statistics and admission [record; R46, R58; 0] -/
  stats : Stats := {}
  /-- MISS records, oldest first [64; R58; empty] -/
  misses : List Miss := []
  /-- Fronds by slot [16; R5; in service] -/
  fronds : Tbl FrondSt := []
  /-- Channels by global index [128; R84; trained] -/
  chans : Tbl Chan := []
  /-- Dies by global index [4,096; R84; in service] -/
  dies : Tbl Die := []
  /-- Die-blocks by die × 4,096 + position [8,650,752; R83; free] -/
  blks : Tbl Blk := []
  /-- Media requests by number [table; R39; empty] -/
  reqs : Tbl Req := []
  /-- Shared programs by number [table; R110; empty] -/
  progs : Tbl Prog := []
  /-- Codewords by ((slot × 16 + position) × 1,024 + row) × 64 + codeword [table; R127; empty] -/
  cws : Tbl Cw := []
  /-- Chunks by (slot × 16 + position) × 1,024 + row [table; R118; empty] -/
  chunks : Tbl Chunk := []
  /-- Stripe slots [475,136; R85; free] -/
  stripes : Tbl Stripe := []
  /-- Parity accumulators by slot [at most 16,384; R114; empty] -/
  accums : Tbl Accum := []
  /-- Rebuild and fill [record; R95; idle] -/
  rebuild : Rebuild := {}
  /-- Seedbed [record; R131; empty] -/
  seedbed : Seedbed := {}
  /-- Namespaces by NSID [4,096; R165; none] -/
  nss : Tbl Ns := []
  /-- Zones by NSID × 2^21 + index [table; R136; Empty] -/
  zones : Tbl Zone := []
  /-- Conventional page map: (slot, offset) of NSID × 2^41 + LBA [8 bytes each; R150; VALID 0] -/
  map : Tbl (Option (Nat × Nat)) := []
  /-- Map cache by NSID × 2^29 + page [table; R151; empty] -/
  pages : Tbl MapPage := []
  /-- Map journal of QA and QB [2 records; R152; empty] -/
  jA : Journal := {}
  jB : Journal := {}
  /-- Metadata being written, and where map pages lie [record; R150; empty] -/
  metas : Metas := {}
  /-- Controllers of H0 and H1 [2 records; R20; R427] -/
  c0 : Ctrl := { ana1 := 1, ana2 := 2 }
  c1 : Ctrl := { ana1 := 2, ana2 := 1 }
  /-- Submission queues by port × 65,536 + SQID [table; R159; none] -/
  sqs : Tbl SubQ := []
  /-- Completion queues by port × 65,536 + CQID [table; R159; none] -/
  cqs : Tbl ComQ := []
  /-- Fetched commands by number [table; R171; none] -/
  cmds : Tbl Cmd := []
  /-- Read pieces by number [table; R22; none] -/
  pieces : Tbl Piece := []
  /-- Completions posted, oldest first [list; R177; empty] -/
  cqes : List Cqe := []
  /-- Slices [1,024; R192; slice 0 active] -/
  slices : Tbl Slice := [(0, { st := 1 })]
  /-- Spikelet of QA and QB [2 records; R216; the default entry of R228] -/
  spA : Spikelet := {}
  spB : Spikelet := {}
  /-- Classifier rules by number [65,535; R231; none] -/
  rules : Tbl Rule := []
  /-- Bulk ports B0 and B1 [2 records; R242; defaults] -/
  b0 : BulkPort := {}
  b1 : BulkPort := {}
  /-- Bulk port settings accepted that apply from the next frame boundary [2 × Option; R242; none] -/
  bulkNext : Pair (Option BulkPort) := ⟨none, none⟩
  /-- Queue pairs by port × 4,096 + index [8,192; R243; out of service] -/
  qps : Tbl Qp := []
  /-- Buffers, DRAM and check units of CA and CB [2 records; R256; full, R263] -/
  memA : CardMem := {}
  memB : CardMem := {}
  /-- Engines that are not simply in service [272; R23; in service] -/
  engines : Tbl Engine := []
  /-- Stream-engine work waiting on CA and CB, in order of arrival [2 lists; R447; empty] -/
  seA : List SeWork := []
  seB : List SeWork := []
  /-- The pair [record; R281; both cards serving] -/
  pair : PairSt := {}
  /-- The sheaf [record; R303; not a member] -/
  sheaf : Sheaf := {}
  /-- Security [record; R328; level 1] -/
  sec : Security := {}
  /-- Event recording [record; R371; empty] -/
  events : Events := {}
  /-- Power and thermal [record; R405; PS0] -/
  power : Power := {}
  /-- Features [record; R163; defaults] -/
  feat : Features := {}
  /-- Feature values accepted that apply from the next frame boundary [Option; R56, R82, R466; none] -/
  featNext : Option Features := none
  /-- NVMe-MI [record; R188; defaults] -/
  mi : Mi := {}
  /-- What the module sends, oldest first [list; the links' chapters; empty] -/
  tx : List Tx := []
  /-- Next number for a command, piece, request, program and fetch order: the model's own [Nat; model; 1] -/
  next : Nat := 1
  /-- Free values drawn so far: the model's own counter of Config.random and Config.freeByte [Nat; model; DC 1] -/
  drawn : Nat := 1
  /-- Admin commands held back while one that excludes them runs or until namespaces are ready [list; R333, R428; empty] -/
  heldAdmin : List Sqe := []
  /-- Admin commands that end with media work [list; R464; empty] -/
  jobs : List Job := []
  deriving DecidableEq, Repr

/-- Physical index of the default entry, the last position of bank 23 (R222). -/
def defaultEntryPos : Nat := 98303
/-- The default entry (R228): priority 0, matches any key, placement 0, service class 1, rule 65,535. -/
def defaultEntry : Entry := { valid := true, result := 0x10FFFF#24, rule := 65535 }
/-- A spikelet as it stands with no rule and no lock. -/
def freshSpikelet : Spikelet :=
  { ents := [(defaultEntryPos, defaultEntry)], shadow := [(defaultEntryPos, defaultEntry)] }
/-- The pools of a card, full (R256). -/
def freshPools : List PoolSt :=
  [{ free := 1048576, freeMin := 1048576 }, { free := 262144, freeMin := 262144 },
   { free := 65536, freeMin := 65536 }, { free := 4096, freeMin := 4096 }]
/-- The ranks of a card at manufacture (R263), trained once at start-up. -/
def freshRanks : Tbl Rank :=
  [(0, { role := 0, trainings := 1 }), (1, { role := 4, trainings := 1 }), (2, { role := 1, trainings := 1 }),
   (3, { role := 5, trainings := 1 }), (4, { role := 2, trainings := 1 }), (5, { role := 6, trainings := 1 }),
   (6, { role := 3, trainings := 1 }), (7, { role := 7, trainings := 1 })]
/-- Memory of a card as it enters service. -/
def freshMem : CardMem := { pools := freshPools, ranks := freshRanks }

/-- The module right after its first power-on after manufacture (assumption 1): the power-on steps of R427 have ended,
no namespace exists, the first marker of R375 waits to be written. -/
def State.reset : State :=
  { spA := freshSpikelet, spB := freshSpikelet, memA := freshMem, memB := freshMem,
    slices := [(0, { st := 1, qpairs := 64, key := 1 })], drawn := 2,
    events := { sumQ := [{ ep := 1, code := 2, cls := 5, data := 3 <<< 96 }] } }

end Sys2Proof.Machine
end

