-- ==== Sys2Proof/Machine/Ops.lean ====
section
/-! DEFINITION. The named operations that every command's meaning is written over: accessors, time, event intake,
completions, asynchronous events, free values, journal records, buffers. -/
namespace Sys2Proof.Machine
open Sys2Proof

/-- The outcome type of a meaning. -/
abbrev Out := Host.Outcome State Fault Refusal

variable {α : Type}
/-- The other card of the pair. -/
def other : CardId → CardId | .ca => .cb | .cb => .ca
/-- The other PEU. -/
def otherPeu : PeuId → PeuId | .a => .b | .b => .a
/-- H0 on CA, H1 on CB (R5). -/
def portOf : CardId → Port | .ca => .h0 | .cb => .h1
def cardOf : Port → CardId | .h0 => .ca | .h1 => .cb
def culmOf : CardId → CulmPort | .ca => .u0 | .cb => .u1
def cardNo : CardId → Nat | .ca => 0 | .cb => 1
def portNo : Port → Nat | .h0 => 0 | .h1 => 1
def peuNo : PeuId → Nat | .a => 0 | .b => 1
def culmNo : CulmPort → Nat | .u0 => 0 | .u1 => 1
def pget (p : Pair α) : CardId → α | .ca => p.a | .cb => p.b
def pset (p : Pair α) (c : CardId) (v : α) : Pair α := match c with | .ca => { p with a := v } | .cb => { p with b := v }

/-! ### Accessors: one home for each record. -/
def frondAt (s : State) (f : Nat) : FrondSt := tget {} s.fronds f
def updFrond (f : Nat) (g : FrondSt → FrondSt) (s : State) : State := { s with fronds := tupd {} s.fronds f g }
def dieAt (s : State) (d : Nat) : Die := tget {} s.dies d
def updDie (d : Nat) (g : Die → Die) (s : State) : State := { s with dies := tupd {} s.dies d g }
def chanAt (s : State) (c : Nat) : Chan := tget {} s.chans c
def updChan (c : Nat) (g : Chan → Chan) (s : State) : State := { s with chans := tupd {} s.chans c g }
/-- Key of a die-block (R374): die × 4,096 + position. -/
def blkKey (die pos : Nat) : Nat := die * 4096 + pos
/-- The default entry of a die-block, on a die without factory-bad positions (R60, R95; assumption 18): of each die's 2,048
accounted positions the first 8 are metadata, the next 1,920 are free for stripe members and the seedbed,
the last 120 are spares; the positions from 2048 on are the die reserve. -/
def blkDefault (k : Nat) : Blk :=
  let p := k % 4096
  if p < 8 then { state := 5 } else if p < 1928 then {} else if p < 2048 then { state := 6 } else { state := 7 }
def blkAt (s : State) (k : Nat) : Blk := tget (blkDefault k) s.blks k
def updBlk (k : Nat) (g : Blk → Blk) (s : State) : State := { s with blks := tupd (blkDefault k) s.blks k g }
def reqAt (s : State) (n : Nat) : Req := tget {} s.reqs n
def updReq (n : Nat) (g : Req → Req) (s : State) : State := { s with reqs := tmod s.reqs n g }
def progAt (s : State) (n : Nat) : Prog := tget {} s.progs n
def cwAt (s : State) (k : Nat) : Cw := tget {} s.cws k
def updCw (k : Nat) (g : Cw → Cw) (s : State) : State := { s with cws := tmod s.cws k g }
def chunkAt (s : State) (k : Nat) : Chunk := tget {} s.chunks k
def updChunk (k : Nat) (g : Chunk → Chunk) (s : State) : State := { s with chunks := tupd {} s.chunks k g }
def stripeAt (s : State) (k : Nat) : Stripe := tget {} s.stripes k
def updStripe (k : Nat) (g : Stripe → Stripe) (s : State) : State := { s with stripes := tupd {} s.stripes k g }
def accumAt (s : State) (k : Nat) : Accum := tget {} s.accums k
def updAccum (k : Nat) (g : Accum → Accum) (s : State) : State := { s with accums := tupd {} s.accums k g }
def nsAt (s : State) (k : Nat) : Ns := tget {} s.nss k
def updNs (k : Nat) (g : Ns → Ns) (s : State) : State := { s with nss := tupd {} s.nss k g }
/-- Key of a zone. -/
def zoneKey (nsid z : Nat) : Nat := nsid * 2 ^ 21 + z
def zoneAt (s : State) (k : Nat) : Zone := tget {} s.zones k
def updZone (k : Nat) (g : Zone → Zone) (s : State) : State := { s with zones := tupd {} s.zones k g }
def cmdAt (s : State) (k : Nat) : Cmd := tget {} s.cmds k
def updCmd (k : Nat) (g : Cmd → Cmd) (s : State) : State := { s with cmds := tmod s.cmds k g }
def pieceAt (s : State) (k : Nat) : Piece := tget {} s.pieces k
def updPiece (k : Nat) (g : Piece → Piece) (s : State) : State := { s with pieces := tmod s.pieces k g }
def sliceAt (s : State) (k : Nat) : Slice := tget {} s.slices k
def updSlice (k : Nat) (g : Slice → Slice) (s : State) : State := { s with slices := tupd {} s.slices k g }
def qKey (p : Port) (id : Nat) : Nat := portNo p * 65536 + id
def sqAt (s : State) (k : Nat) : SubQ := tget {} s.sqs k
def updSq (k : Nat) (g : SubQ → SubQ) (s : State) : State := { s with sqs := tupd {} s.sqs k g }
def cqAt (s : State) (k : Nat) : ComQ := tget {} s.cqs k
def updCq (k : Nat) (g : ComQ → ComQ) (s : State) : State := { s with cqs := tupd {} s.cqs k g }
def qpAt (s : State) (k : Nat) : Qp := tget {} s.qps k
/-- Card of a queue pair's key. -/
def qpCard (k : Nat) : CardId := if k < 4096 then .ca else .cb
def updQp (k : Nat) (g : Qp → Qp) (s : State) : State := { s with qps := tupd {} s.qps k g }
def engAt (s : State) (k : Nat) : Engine := tget {} s.engines k
def updEng (k : Nat) (g : Engine → Engine) (s : State) : State := { s with engines := tupd {} s.engines k g }
def ctrlAt (s : State) : Port → Ctrl | .h0 => s.c0 | .h1 => s.c1
def updCtrl (p : Port) (g : Ctrl → Ctrl) (s : State) : State :=
  match p with | .h0 => { s with c0 := g s.c0 } | .h1 => { s with c1 := g s.c1 }
def cardAt (s : State) : CardId → Card | .ca => s.pair.ca | .cb => s.pair.cb
def updCard (c : CardId) (g : Card → Card) (s : State) : State :=
  match c with
  | .ca => { s with pair := { s.pair with ca := g s.pair.ca } }
  | .cb => { s with pair := { s.pair with cb := g s.pair.cb } }
def memAt (s : State) : CardId → CardMem | .ca => s.memA | .cb => s.memB
def updMem (c : CardId) (g : CardMem → CardMem) (s : State) : State :=
  match c with | .ca => { s with memA := g s.memA } | .cb => { s with memB := g s.memB }
def jAt (s : State) : CardId → Journal | .ca => s.jA | .cb => s.jB
def updJ (c : CardId) (g : Journal → Journal) (s : State) : State :=
  match c with | .ca => { s with jA := g s.jA } | .cb => { s with jB := g s.jB }
def spAt (s : State) : CardId → Spikelet | .ca => s.spA | .cb => s.spB
def updSp (c : CardId) (g : Spikelet → Spikelet) (s : State) : State :=
  match c with | .ca => { s with spA := g s.spA } | .cb => { s with spB := g s.spB }
def bulkAt (s : State) : CardId → BulkPort | .ca => s.b0 | .cb => s.b1
def updBulk (c : CardId) (g : BulkPort → BulkPort) (s : State) : State :=
  match c with | .ca => { s with b0 := g s.b0 } | .cb => { s with b1 := g s.b1 }
def seAt (s : State) : CardId → List SeWork | .ca => s.seA | .cb => s.seB
def updSe (c : CardId) (g : List SeWork → List SeWork) (s : State) : State :=
  match c with | .ca => { s with seA := g s.seA } | .cb => { s with seB := g s.seB }
def peuAt (s : State) : PeuId → Peu | .a => s.power.peuA | .b => s.power.peuB
def updPeu (p : PeuId) (g : Peu → Peu) (s : State) : State :=
  match p with
  | .a => { s with power := { s.power with peuA := g s.power.peuA } }
  | .b => { s with power := { s.power with peuB := g s.power.peuB } }
def recAt (s : State) : CardId → Recorder | .ca => s.events.recA | .cb => s.events.recB
def updRec (c : CardId) (g : Recorder → Recorder) (s : State) : State :=
  match c with
  | .ca => { s with events := { s.events with recA := g s.events.recA } }
  | .cb => { s with events := { s.events with recB := g s.events.recB } }
def culmAt (s : State) : CulmPort → Culm | .u0 => s.sheaf.u0 | .u1 => s.sheaf.u1
def updCulm (p : CulmPort) (g : Culm → Culm) (s : State) : State :=
  match p with
  | .u0 => { s with sheaf := { s.sheaf with u0 := g s.sheaf.u0 } }
  | .u1 => { s with sheaf := { s.sheaf with u1 := g s.sheaf.u1 } }
def fuseAt (s : State) (k : Nat) : Fuse := tget {} s.power.fuses k
def updFuse (k : Nat) (g : Fuse → Fuse) (s : State) : State :=
  { s with power := { s.power with fuses := tupd {} s.power.fuses k g } }
def fuseNo : FuseSlot → Nat | .frond f => f.val | .card c => 16 + cardNo c
def updTime (g : TimeSt → TimeSt) (s : State) : State := { s with time := g s.time }
/-- The tick master is named; every Filnas follows its markers from now on (R32, R33). -/
def setMaster (c : CardId) (s : State) : State :=
  (List.range 16).foldl (fun s f => updFrond f (fun g => { g with follows := c }) s) (updTime (fun t => { t with master := c }) s)
def updStats (g : Stats → Stats) (s : State) : State := { s with stats := g s.stats }
def updPower (g : Power → Power) (s : State) : State := { s with power := g s.power }
def updSheaf (g : Sheaf → Sheaf) (s : State) : State := { s with sheaf := g s.sheaf }
def updSec (g : Security → Security) (s : State) : State := { s with sec := g s.sec }
def updEvents (g : Events → Events) (s : State) : State := { s with events := g s.events }
def updRebuild (g : Rebuild → Rebuild) (s : State) : State := { s with rebuild := g s.rebuild }
def updSeedbed (g : Seedbed → Seedbed) (s : State) : State := { s with seedbed := g s.seedbed }
def updMetas (g : Metas → Metas) (s : State) : State := { s with metas := g s.metas }
def workAt (s : State) (n : Nat) : MetaWork := tget {} s.metas.work n
def updWork (n : Nat) (g : MetaWork → MetaWork) (s : State) : State := updMetas (fun m => { m with work := tmod m.work n g }) s
def updPair (g : PairSt → PairSt) (s : State) : State := { s with pair := g s.pair }
def updFeat (g : Features → Features) (s : State) : State := { s with feat := g s.feat }
/-- A message leaves the module. -/
def send (t : Tx) (s : State) : State := { s with tx := s.tx ++ [t] }
/-- Registers the count within the frame at which a command comes (assumption 11). -/
def atCount (n : Nat) (s : State) : State := updTime (fun t => { t with count := n }) s
/-- The present instant, as an absolute count of the power epoch (R17). -/
def now (s : State) : Nat := s.time.start + s.time.count
/-- n frames measured from the absolute count t end before the present frame does (R17): a row that marks their end comes at
its instant within the frame. -/
def elapsed (s : State) (t n : Nat) : Bool := decide (t + n * 16000 < s.time.start + s.time.len)
def fcOf (s : State) : Nat := s.time.fc
def epOf (s : State) : Nat := s.time.ep
/-- A fresh number for a command, request, piece or program. -/
def fresh (s : State) : Nat × State := (s.next, { s with next := s.next + 1 })
/-- Draws a free 64-bit value (assumption 7). -/
def draw (s : State) : BitVec 64 × State := (Config.random s.drawn, { s with drawn := s.drawn + 1 })
/-- Draws a key or salt, held as the number of its draw (R197, R334; assumption 7). -/
def drawKey (s : State) : Nat × State := (s.drawn, { s with drawn := s.drawn + 1 })
/-- SEQ of the current frame (R126). -/
def seqNow (s : State) : Nat := (s.seedbed.wfnBase + s.time.fc) % 2 ^ 48
/-- Frond, channel of a global die index (R5). -/
def frondOfDie (d : Nat) : Nat := d / 256
def chanOfDie (d : Nat) : Nat := d / 32
/-- Tick master's card (R32). -/
def master (s : State) : CardId := s.time.master
/-- The card is in service and not itself reloading in a firmware activation (R298 steps 3 and 4). -/
def carries (c : Card) : Bool := c.serving && c.activating != 3 && c.activating != 4
/-- One card alone serves (R299). -/
def single (s : State) : Bool := carries s.pair.ca != carries s.pair.cb
def bothServe (s : State) : Bool := carries s.pair.ca && carries s.pair.cb
def anyServe (s : State) : Bool := s.pair.ca.serving || s.pair.cb.serving
/-- A frond counts as present for placement (R94, R433 step 2). -/
def frondIn (s : State) (f : Nat) : Bool :=
  let x := frondAt s f
  (x.state == 0 || x.state == 5 || x.state == 6) && x.prepared == 0
/-- Owner card of a group (R281). -/
def ownerOf (s : State) : Group → CardId | .g1 => s.pair.own1 | .g2 => s.pair.own2
def ownerOfNs (s : State) (nsid : Nat) : CardId := ownerOf s (nsAt s nsid).group

/-! ### Wall time and event intake (R371–R381). -/
/-- WALL_TIME now, 0 while not set (R376). -/
def wallNow (s : State) : Nat :=
  match s.time.wall with | none => 0 | some (ms, fc) => ms + (s.time.fc - fc) / 4
/-- OBJECT encoding of R374: kind in bits [7:0], index above. -/
def obj (kind index : Nat) : Nat := kind + index * 256
/-- A record with the time fields of this moment (R373). -/
def mkRec (s : State) (code cls source data : Nat) : EventRec :=
  { fc := s.time.fc, ep := s.time.ep, count := s.time.count, code := code, wall := wallNow s,
    timeEpoch := s.time.timeEpoch, source := source, cls := cls, data := data }
/-- A record's 64 bytes (R373); a record without a code is a slot that a cut program left unwritten. -/
def recBytes (r : EventRec) : List Byte :=
  if r.code = 0 then zeros 64
  else
    let a := le 8 r.fc ++ le 4 r.ep ++ le 2 r.count ++ le 2 r.code ++ le 8 r.wall ++ le 4 r.timeEpoch ++ [BitVec.ofNat 8 (r.source % 32 + r.cls % 8 * 32), BitVec.ofNat 8 (b2n r.reserve)]
    let d := le 32 r.data
    a ++ le 2 (crc16 (a ++ d)).toNat ++ d
/-- DATA of an ordinary event (R374). -/
def evData (ob a0 a1 a2 : Nat) : Nat :=
  ob % 2 ^ 64 + (a0 % 2 ^ 64) * 2 ^ 64 + (a1 % 2 ^ 64) * 2 ^ 128 + (a2 % 2 ^ 64) * 2 ^ 192
/-- Depth of a code's bucket (R377, R386). -/
def depthOf (ev : Events) (code : Nat) : Nat :=
  match ev.overrides.find? (fun p => p.1 == code) with | some p => p.2 | none => ev.depth
/-- A suppressed event is counted under its code (R377, R379). -/
def suppress (b : Bucket) (fc rate ring : Nat) : Bucket :=
  { b with rate := b.rate + rate, ring := b.ring + ring, last := fc, first := if b.rate + b.ring = 0 then fc else b.first }
/-- The master's recorder is full (R381). -/
def recFull (s : State) : Bool := (recAt s s.time.master).full
/-- Intake of an ordinary event: token, ring (R377, R379), or DROPPED_FULL (R381). -/
def intake (r : EventRec) (s : State) : State :=
  updEvents (fun ev =>
    if (match s.time.master with | .ca => ev.recA.full | .cb => ev.recB.full) then { ev with dropped := ev.dropped + 1 }
    else
      let b := tget ({} : Bucket) ev.buckets r.code
      if b.taken ≥ depthOf ev r.code then
        { ev with suppressed := ev.suppressed + 1,
                  buckets := tput ({} : Bucket) ev.buckets r.code (suppress b r.fc 1 0) }
      else if ev.ring.length ≥ 256 then
        { ev with suppressed := ev.suppressed + 1,
                  buckets := tput ({} : Bucket) ev.buckets r.code (suppress { b with taken := b.taken + 1 } r.fc 0 1) }
      else { ev with ring := ev.ring ++ [r], buckets := tput ({} : Bucket) ev.buckets r.code { b with taken := b.taken + 1 } }) s
/-- An event of R467, R399–R441 taken in at its detection (assumption 12). -/
def event (code cls source ob a0 a1 a2 : Nat) (s : State) : State :=
  intake (mkRec s code cls source (evData ob a0 a1 a2)) s
/-- A marker of R375 waits in the queue of summaries and markers (R379); it is never suppressed. -/
def marker (code data : Nat) (s : State) : State :=
  updEvents (fun ev => { ev with sumQ := ev.sumQ ++ [mkRec s code 5 (cardNo s.time.master) data] }) s
/-- SOURCE of a Quihar, a Filnas, a PEU (R373). -/
def srcQ (c : CardId) : Nat := cardNo c
def srcF (f : Nat) : Nat := 2 + f
def srcP (p : PeuId) : Nat := 18 + peuNo p

/-! ### Asynchronous events (R107, R162). -/
/-- Answers one waiting request of a port with one waiting event. -/
def aenDeliver (p : Port) (s : State) : State :=
  let c := ctrlAt s p
  match c.aers, pget s.events.aenQ (cardOf p) with
  | cid :: r, (ty, info, page) :: q =>
    send (.aen p cid ty info page)
      { updCtrl p (fun x => { x with aers := r }) (updEvents (fun ev => { ev with aenQ := pset ev.aenQ (cardOf p) q }) s)
        with cqes := s.cqes ++ [{ port := p, cid := cid, dw0 := ty + info * 256 + page * 65536 }] }
  | _, _ => s
/-- An event for one port's controller. -/
def aenPort (p : Port) (ty info page : Nat) (s : State) : State :=
  aenDeliver p (updEvents (fun ev => { ev with aenQ := pset ev.aenQ (cardOf p) (pget ev.aenQ (cardOf p) ++ [(ty, info, page)]) }) s)
/-- An event for both controllers. -/
def aenBoth (ty info page : Nat) (s : State) : State := aenPort .h1 ty info page (aenPort .h0 ty info page s)
/-- A Vendor Specific event (type 7) naming a log page, posted once until the page is read (R107 and its kind). -/
def aenPage (page : Nat) (s : State) : State :=
  if page ∈ s.events.posted then s
  else aenBoth 7 0 page (updEvents (fun ev => { ev with posted := ev.posted ++ [page] }) s)
/-- The host has read a page: its event is armed again. -/
def aenArm (page : Nat) (s : State) : State :=
  updEvents (fun ev => { ev with posted := ev.posted.filter (· ≠ page) }) s

/-! ### Board revisions (R2, R189, R359). -/
/-- The board revision of a controller card, a frond, a PEU: of the unit inserted last, else as shipped. -/
def cardRev (s : State) (c : CardId) : Nat := (cardAt s c).rev.getD (Config.boardRev (cardNo c))
def frondRev (s : State) (f : Nat) : Nat := match (frondAt s f).ident with | some i => i.rev | none => Config.boardRev (2 + f)
def peuRev (s : State) (p : PeuId) : Nat := (peuAt s p).rev.getD (Config.boardRev (18 + peuNo p))

/-! ### Completions (R167, R168, R177). -/
/-- Advances the completion queue of an I/O completion and raises its interrupt (R211). -/
def cqAdvance (q : Cqe) (s : State) : State :=
  if q.sqid = 0 then s
  else
    let k := qKey q.port (sqAt s (qKey q.port q.sqid)).cqid
    let cq := cqAt s k
    if cq.used then
      let t := cq.tail + 1
      let s := updCq k (fun x => if t > x.size then { x with tail := 0, phase := !x.phase } else { x with tail := t }) s
      if cq.ien then send (.interrupt q.port cq.vector) s else s
    else s
/-- Posts a completion. A status other than success sets More, writes an Error Information entry and freezes the I/O
queue (R167, R168). A controller that is not ready takes none, and a CID of 65,536 stands for a command that a reset has
taken from the host (R176). -/
def post (q : Cqe) (lba nsid : Nat) (s : State) : State :=
  if 65536 ≤ q.cid ∨ !(ctrlAt s q.port).link ∨ !(ctrlAt s q.port).rdy then s
  else if q.sct = 0 ∧ q.sc = 0 then cqAdvance q { s with cqes := s.cqes ++ [q] }
  else
    let c := ctrlAt s q.port
    let en : ErrEntry :=
      { count := c.errCount + 1, sqid := q.sqid, cid := q.cid, sct := q.sct, sc := q.sc, loc := q.loc.getD (Config.errorLoc (2 * (c.errCount + 1) + portNo q.port)).toNat, lba := lba, nsid := nsid,
         csi := if q.sct = 7 then q.dw0 + q.dw1 * 2 ^ 32 else 0 }
    let s := updCtrl q.port (fun c => { c with errCount := c.errCount + 1, errors := (en :: c.errors).take 256 }) s
    let s := if q.sqid = 0 then s else updSq (qKey q.port q.sqid) (fun x => if x.used then { x with frozen := true } else x) s
    cqAdvance q { s with cqes := s.cqes ++ [{ q with more := true }] }
/-- Completes a command entry with a status, dwords and data. -/
def finish (e : Sqe) (sct sc dw0 dw1 : Nat) (data : List Byte) (s : State) : State :=
  post { port := e.port, sqid := e.sqid, cid := e.cid, sct := sct, sc := sc, dw0 := dw0, dw1 := dw1, data := data } 0 e.nsid s
def ok (e : Sqe) (s : State) : State := finish e 0 0 0 0 [] s
def okDw (e : Sqe) (dw0 : Nat) (s : State) : State := finish e 0 0 dw0 0 [] s
def okData (e : Sqe) (d : List Byte) (s : State) : State := finish e 0 0 0 0 d s
def fail (e : Sqe) (sct sc : Nat) (s : State) : State := finish e sct sc 0 0 [] s
def failDw (e : Sqe) (sct sc dw0 dw1 : Nat) (s : State) : State := finish e sct sc dw0 dw1 [] s
/-- Failure naming the first affected LBA (R168). -/
def failLba (e : Sqe) (sct sc dw0 dw1 lba : Nat) (s : State) : State :=
  post { port := e.port, sqid := e.sqid, cid := e.cid, sct := sct, sc := sc, dw0 := dw0, dw1 := dw1 } lba e.nsid s
/-- Status codes (status code type, status code) by name: of this manual, or of the NVMe specification where the manual
names the status (assumption 15). -/
def invalidOpcode : Nat × Nat := (0, 0x01)
def invalidField : Nat × Nat := (0, 0x02)
def dataTransferError : Nat × Nat := (0, 0x04)
def internalError : Nat × Nat := (0, 0x06)
def invalidNs : Nat × Nat := (0, 0x0B)
def sequenceError : Nat × Nat := (0, 0x0C)
def sglLength : Nat × Nat := (0, 0x0F)
def sglType : Nat × Nat := (0, 0x11)
def lbaRange : Nat × Nat := (0, 0x80)
def nsNotReady : Nat × Nat := (0, 0x82)
def failWith (e : Sqe) (st : Nat × Nat) (s : State) : State := fail e st.1 st.2 s

/-! ### The change record (R348, R349). -/
/-- Free change-reserve records, the lower of the two cards (R350). -/
def reserveFree (s : State) : Nat := min (4096 - s.events.recA.reserve.length) (4096 - s.events.recB.reserve.length)
/-- The change reserve has room for one more record (R349). -/
def changeRoom (s : State) : Bool :=
  let r := recAt s s.time.master
  let held := (s.events.changeQ.length + s.events.writing.length)
  r.main.length + held < 1044480 || r.reserve.length + held < 4096
/-- DATA of a change record (R375, code 0x0010). -/
def changeData (opc what origin port slice pasid outcome : Nat) (keyId : List Byte) : Nat :=
  opc % 256 + (what % 65536) * 2 ^ 8 + (origin % 256) * 2 ^ 24 + (port % 256) * 2 ^ 32 + (slice % 65536) * 2 ^ 48 +
  (pasid % 2 ^ 32) * 2 ^ 64 + (outcome % 65536) * 2 ^ 96 + ofLe (keyId.take 16) * 2 ^ 128
/-- Queues a change record; the completion it carries is posted once it has been written (R348, R379). -/
def change (opc what origin port slice pasid outcome : Nat) (keyId : List Byte) (done : Option Cqe) (s : State) : State :=
  updEvents (fun ev => { ev with changeQ := ev.changeQ ++
    [(mkRec s 0x10 3 (cardNo s.time.master) (changeData opc what origin port slice pasid outcome keyId), done)] }) s
/-- Change records that have been written count in CHANGES; the latest stamps it (R347, R350). -/
def countChange (r : EventRec) (s : State) : State :=
  if r.code = 0x10 then updSec (fun x => { x with changes := x.changes + 1, lastFc := r.fc, lastEp := r.ep }) s else s
/-- A configuration-changing command ends with a status: its change record is queued and its completion follows it. -/
def finishChange (e : Sqe) (what : Nat) (st : Nat × Nat) (dw0 dw1 : Nat) (data : List Byte) (s : State) : State :=
  let k := portNo e.port * 65536 + e.cid
  change e.opc.toNat what 1 (portNo e.port) 0 0 (st.1 * 256 + st.2) (tget [] s.sec.keyIds k)
    (some { port := e.port, sqid := e.sqid, cid := e.cid, sct := st.1, sc := st.2, dw0 := dw0, dw1 := dw1, data := data, nsid := e.nsid })
    (updSec (fun x => { x with keyIds := tdel x.keyIds k }) s)
def okChange (e : Sqe) (what dw0 : Nat) (s : State) : State := finishChange e what (0, 0) dw0 0 [] s

/-! ### Buffers (R256–R261). -/
def poolNo : Pool → Nat | .p4k => 0 | .p64k => 1 | .p256k => 2 | .s16k => 3
def poolSize : Nat → Nat | 0 => 1048576 | 1 => 262144 | 2 => 65536 | _ => 4096
def poolAt (s : State) (c : CardId) (p : Nat) : PoolSt := (memAt s c).pools.getD p {}
def updPool (c : CardId) (p : Nat) (g : PoolSt → PoolSt) (s : State) : State :=
  updMem c (fun m => { m with pools := m.pools.set p (g (m.pools.getD p {})) }) s
/-- The first n indices of a pool that are neither allocated nor held out, in ascending order (assumption 9). -/
def freeIdx (p : PoolSt) (size : Nat) : Nat → Nat → Nat → List Nat
  | 0, _, _ => []
  | _, 0, _ => []
  | fuel + 1, n + 1, i =>
    if size ≤ i then []
    else if (tfind p.refs i).isSome || p.out.contains i then freeIdx p size fuel (n + 1) (i + 1)
    else i :: freeIdx p size fuel n (i + 1)
/-- Cache refill and spill of R257: fewer than 128 handles move 256 in, more than 448 move 256 back. -/
def cacheMove (cache free : Nat) : Nat :=
  if cache < 128 ∧ cache < free then cache + min 256 (free - cache) else if cache > 448 then cache - 256 else cache
/-- Grants n handles whole or not at all (R258). -/
def takeBufs (c : CardId) (p n : Nat) (s : State) : Option (List Nat) × State :=
  let q := poolAt s c p
  if q.free < n ∨ n = 0 then (none, updPool c p (fun q => { q with empty := q.empty + 1 }) s)
  else
    let ix := freeIdx q (poolSize p) (q.refs.length + q.out.length + n + 1) n 0
    (some ix, updPool c p (fun q =>
      let fr := q.free - n
      { q with free := fr, freeMin := min q.freeMin fr, cache := cacheMove (q.cache - n) fr,
               refs := ix.foldl (fun t i => tins t i 1) q.refs }) s)
/-- One consumer decrements a buffer's count; at zero the buffer is freed, below zero it is a reference fault (R261). -/
def decBuf (c : CardId) (p i : Nat) (engine : Nat) (s : State) : State :=
  let q := poolAt s c p
  match tfind q.refs i with
  | some (n + 2) => updPool c p (fun q => { q with refs := tins q.refs i (n + 1) }) s
  | some _ => updPool c p (fun q => { q with refs := tdel q.refs i, free := q.free + 1, cache := cacheMove (q.cache + 1) (q.free + 1) }) s
  | none =>
    if q.out.contains i then s
    else
      event 0x0407 1 (srcQ c) (obj 11 (cardNo c * 64 + engine)) p (p * 2 ^ 30 + i) 0
        (updMem c (fun m => { m with refFaults := (m.refFaults + 1) % 2 ^ 32 })
          (updPool c p (fun q => { q with out := q.out ++ [i], free := q.free - 1 }) s))
/-- Frees every buffer of a list (pool, index). -/
def freeBufs (c : CardId) (l : List (Nat × Nat)) (s : State) : State := l.foldl (fun s b => decBuf c b.1 b.2 0 s) s

/-! ### Rank operations (R263–R269). -/
/-- A rank takes a role (R279). -/
def rankRole (n role : Nat) (m : CardMem) : CardMem := { m with ranks := tupd {} m.ranks n fun r => { r with role := role } }
/-- The rank table names y in place of x; what was poisoned on x is poisoned on y (R265, R269). -/
def rankSwitch (x y : Nat) (m : CardMem) : CardMem :=
  rankRole y (m.table.idxOf x)
    { m with
      table := m.table.map fun r => if r = x then y else r
      poison := m.poison.map fun p => if p / 2 ^ 28 = x then y * 2 ^ 28 + p % 2 ^ 28 else p }
/-- A rank operation ends because its card leaves service (R442): a copy is abandoned, a training keeps the delays before
it, a migrating slot is the spare's from the next start. -/
def rankDrop (m : CardMem) : CardMem :=
  match m.rop with
  | .train x => rankRole x 7 { m with rop := .idle, spare := some x }
  | .migrate x y => { rankSwitch x y m with rop := .idle, spare := none }
  | _ => { m with rop := .idle }

/-! ### Feature values that apply from a frame boundary (R56, R82, R130, R242, R278, R386). -/
/-- The vendor feature values of n in force, beside what other commands keep in the same record. -/
def applyFeat (n old : Features) : Features :=
  { n with tempOver := old.tempOver, tempUnder := old.tempUnder, holeLog := old.holeLog, defaultHits := old.defaultHits }
/-- Token buckets under new parameters: a bucket keeps its tokens and is cut to its new depth; codes 0x0100–0x07FF are the
module's (R386). -/
def applyParams (ev : Events) : Events :=
  match ev.next with
  | none => ev
  | some (depth, refill, period, ov) =>
    let new : Events := { ev with depth := depth, refill := refill, period := period, overrides := ov, next := none }
    let codes := if depth ≤ ev.depth ∧ ov = ev.overrides then ev.buckets.map (·.1) else (List.range 1792).map (256 + ·)
    codes.foldl (fun x c =>
      let b := tget ({} : Bucket) ev.buckets c
      let held := depthOf ev c - b.taken
      { x with buckets := tput ({} : Bucket) x.buckets c { b with taken := depthOf new c - min held (depthOf new c) } }) new
/-- A bulk port's settings from another record; link state and counters stay (R242). -/
def bulkSettings (n old : BulkPort) : BulkPort :=
  { n with
    linkUp := old.linkUp, downAt := old.downAt, nakIn := old.nakIn, refused := old.refused, paused := old.paused, rxUsed := old.rxUsed, xoff := old.xoff,
    held := old.held }
/-- A new share is in force: a bucket keeps its tokens and is cut to its new depth (R208). -/
def applyShare (x : Slice) : Slice :=
  match x.shareNext with
  | none => x
  | some n =>
    let cut := fun (old new used : Nat) => new * n.burst - min (old * x.share.burst - used) (new * n.burst)
    { x with
      share := n, shareNext := none, readUsed := cut x.share.readCw n.readCw x.readUsed, writeUsed := cut x.share.writeCw n.writeCw x.writeUsed }
/-- Everything that applies from this frame boundary is in force. -/
def applySettings (s : State) : State :=
  let w := s.power
  let (host, pkg, qj, fil, dram, band) := w.setNext.getD (w.hostBudget, w.pkgThr, w.qjThr, w.filThr, w.dramThr, w.privBand)
  let bulk := fun (n : Option BulkPort) (b : BulkPort) => match n with | some x => bulkSettings x b | none => b
  { s with
    feat := applyFeat (s.featNext.getD s.feat) s.feat, featNext := none, events := applyParams s.events,
    power := { w with hostBudget := host, pkgThr := pkg, qjThr := qj, filThr := fil, dramThr := dram, privBand := band, setNext := none },
    b0 := bulk s.bulkNext.a s.b0, b1 := bulk s.bulkNext.b s.b1, bulkNext := ⟨none, none⟩,
    slices := s.slices.map fun x => (x.1, applyShare x.2) }

/-! ### Alive counters (R274). -/
/-- A received message's alive state: the new state and whether the message is accepted. -/
def aliveCheck (a : Alive) (last : Option (BitVec 8)) (ctr : BitVec 8) (crcOk : Bool) : Alive × Option (BitVec 8) × Bool :=
  if !crcOk then ({ a with crcFails := (a.crcFails + 1) % 2 ^ 32 }, last, false)
  else match last with
    | none => (a, some ctr, true)
    | some l =>
      if ctr = l then ({ a with repeats := (a.repeats + 1) % 2 ^ 32 }, last, false)
      else ({ a with missing := (a.missing + (ctr - l - 1).toNat) % 2 ^ 32 }, some ctr, true)
/-- Checks a message of stream n of a card (order of R274) against a per-link last counter. -/
def alive (c : CardId) (n : Nat) (last : Option (BitVec 8)) (ctr : BitVec 8) (crcOk : Bool) (s : State) :
    State × Option (BitVec 8) × Bool :=
  let r := aliveCheck ((memAt s c).alive.getD n {}) last ctr crcOk
  (updMem c (fun m => { m with alive := m.alive.set n r.1 }) s, r.2.1, r.2.2)

/-! ### Map journal (R152, R286). -/
/-- Queues a journal record at its owner. -/
def journal (c : CardId) (r : JRec) (s : State) : State := updJ c (fun j => { j with queue := j.queue ++ [r] }) s
/-- A mirror record is sent to a serving partner; the commands tied to it wait for its acknowledgement (R286). -/
def mirror (c : CardId) (cmds : List Nat) (s : State) : State :=
  if bothServe s then
    let m := (cardAt s c).msnTx + 1
    send (.mirror c m)
      (cmds.foldl (fun s k => updCmd k (fun x => { x with tied := some m }) s)
        (updCard c (fun x => { x with msnTx := m, unacked := x.unacked ++ [{ msn := m, sent := now s, cmds := cmds }] }) s))
  else s
/-- Field of a command entry: CDW10–CDW15 as numbers, bits [hi:lo]. -/
def d10 (e : Sqe) (hi lo : Nat) : Nat := bits e.cdw10.toNat hi lo
def d11 (e : Sqe) (hi lo : Nat) : Nat := bits e.cdw11.toNat hi lo
def d12 (e : Sqe) (hi lo : Nat) : Nat := bits e.cdw12.toNat hi lo
def d13 (e : Sqe) (hi lo : Nat) : Nat := bits e.cdw13.toNat hi lo
def d14 (e : Sqe) (hi lo : Nat) : Nat := bits e.cdw14.toNat hi lo
def d15 (e : Sqe) (hi lo : Nat) : Nat := bits e.cdw15.toNat hi lo

end Sys2Proof.Machine
end

