-- ==== Sys2Proof/Machine/Domains.lean ====
section
/-! DEFINITION. Clock and power domains of a Quihar, and which of its engines work (R24–R26). They are held by no field of
their own: the power state, a running entry and the failed engines say which are on. -/
namespace Sys2Proof.Machine
open Sys2Proof

/-- The 28 clock domains of a Quihar (R25). -/
inductive ClockDomain where
  | core | strm | fab | sram | spk | hk | tick | rtc | ref | ddr (n : Fin 4) | pcie | blk0 | blk1 | rhz | culm (n : Fin 2) | bar | pmb
  | nor | sec | fl (n : Fin 4) | dbg
  deriving DecidableEq, Repr
/-- The 52 power domains of a Quihar (R26). -/
inductive PowerDomain where
  | cc (n : Fin 16) | se (group : Fin 6) | le (n : Fin 16) | housekeeping | phy (n : Fin 4) | pcie | mac | serdes | rhizome
  | spikelet (group : Fin 4) | sram
  deriving DecidableEq, Repr
def clockDomains : List ClockDomain :=
  [.core, .strm, .fab, .sram, .spk, .hk, .tick, .rtc, .ref] ++ (List.finRange 4).map .ddr ++ [.pcie, .blk0, .blk1, .rhz]
    ++ (List.finRange 2).map .culm ++ [.bar, .pmb, .nor, .sec] ++ (List.finRange 4).map .fl ++ [.dbg]
def powerDomains : List PowerDomain :=
  (List.finRange 16).map .cc ++ (List.finRange 6).map .se ++ (List.finRange 16).map .le ++ [.housekeeping] ++ (List.finRange 4).map .phy
    ++ [.pcie, .mac, .serdes, .rhizome] ++ (List.finRange 4).map .spikelet ++ [.sram]
/-- The power state by which the domains are switched: an entry's target once its step n has been taken, and until an exit has
ended (R410, R413). -/
def stateFrom (s : State) (n : Nat) : Nat :=
  match s.power.entry with
  | some e => if n < e.step then e.target else s.power.ps
  | none => s.power.ps
/-- The power state of the clocks and power domains (R410 step 5), and of the DRAM PHYs (step 4). -/
def domainState (s : State) : Nat := stateFrom s 5
def phyState (s : State) : Nat := stateFrom s 4
/-- The module's 54 V bus feeds a card. -/
def cardFed (s : State) (c : CardId) : Bool := s.time.bus && (cardAt s c).present
/-- A card whose SEALED fuse is blown serves; debug access is open (R329, R330, R347). -/
def sealedNow (s : State) : Bool := (s.pair.ca.serving && s.pair.ca.sealed) || (s.pair.cb.serving && s.pair.cb.sealed)
def debugOpen (s : State) : Bool := s.sec.level == 0 && !sealedNow s
/-- A card's configuration store is busy: a slot is being written, or a recorder program runs (R357, R380). -/
def storeBusy (s : State) (c : CardId) : Bool := (cardAt s c).writing.isSome || ((cardAt s c).serving && !s.events.writing.isEmpty)
/-- A clock runs (R25): NOR is gated while its store is idle, DBG runs while debug access is open. -/
def clockRuns (s : State) (c : CardId) (d : ClockDomain) : Bool :=
  cardFed s c && match d with
  | .strm => decide (domainState s < 3)
  | .spk | .blk0 | .fl _ => domainState s != 4
  | .ddr _ => phyState s != 4
  | .nor => storeBusy s c
  | .dbg => debugOpen s
  | _ => true
/-- Engine i of a card: control cores 0–15, stream engines 16–39, link engines 40–55, housekeeping engines 56–63. -/
def engineDown (s : State) (c : CardId) (i : Nat) : Bool := let e := engAt s (cardNo c * 64 + i); e.failed || e.forGood
/-- A power domain is on (R24, R26): a failed control core's is switched off, a failed stream engine's group stays on. What a
domain that is off would hold is nothing the state holds: its engines are idle at entry and reloaded at exit (R410, R413), and
the delays of the DRAM PHYs are saved at entry and restored (R25): they stand in the rank records. -/
def powerOn (s : State) (c : CardId) (d : PowerDomain) : Bool :=
  cardFed s c && match d with
  | .cc n => !engineDown s c n.val && (decide (n.val < 4) || decide (domainState s < 3))
  | .se _ => decide (domainState s < 3)
  | .le _ | .mac => domainState s != 4
  | .phy _ => phyState s != 4
  | _ => true
/-- Power domain of an engine. -/
def domainOf (i : Nat) : PowerDomain :=
  if h : i < 16 then .cc ⟨i, h⟩
  else if h : i < 40 then .se ⟨(i - 16) / 4, by omega⟩
  else if h : i < 56 then .le ⟨i - 40, by omega⟩ else .housekeeping
/-- Clock domain of an engine. -/
def clockOf (i : Nat) : ClockDomain :=
  if i < 16 then .core else if i < 40 then .strm else if h : i < 56 then .fl ⟨(i - 40) / 4 % 4, by omega⟩ else .hk
/-- An engine works: it is not held in reset, it has power, its clock runs (R24–R26). -/
def engineWorks (s : State) (c : CardId) (i : Nat) : Bool :=
  (cardAt s c).serving && !engineDown s c i && powerOn s c (domainOf i) && clockRuns s c (clockOf i)
/-- Control cores that queues and tasks stand on: those of a failed or switched-off core have moved to them (R24). -/
def workingCores (s : State) (c : CardId) : List Nat := (List.range 16).filter (engineWorks s c)
/-- Housekeeping engine that does the duty of HEn: HE7 takes over that of a failed one (R24). -/
def dutyEngine (s : State) (c : CardId) (n : Nat) : Nat := if engineDown s c (56 + n) then 7 else n
/-- Card whose link engine carries a card's traffic for frond Ff: its own, else the serving partner's over the rhizome link;
none where no engine reaches the frond (R24). -/
def linkVia (s : State) (c : CardId) (f : Nat) : Option CardId :=
  if !(cardAt s c).serving then none
  else if !engineDown s c (40 + f) then some c
  else if (cardAt s (other c)).serving && !engineDown s (other c) (40 + f) then some (other c) else none
/-- Some link engine of a serving card reaches the frond (R24). -/
def leReaches (s : State) (f : Nat) : Bool := [CardId.ca, CardId.cb].any fun c => (linkVia s c f).isSome

end Sys2Proof.Machine
end

