-- ==== Sys2Proof/Machine/Stripes.lean ====
section
/-! DEFINITION. Stripe geometry, tolerance, placement of seedbed copies, block and spare handling: what the media commands
share (R59–R62, R85–R94, R105, R108–R110). -/
namespace Sys2Proof.Machine
open Sys2Proof

/-- Data members D of a profile (R85). -/
def dataOf : Profile → Nat | .s14 => 14 | .l12 => 12 | .s15 => 15
def profNo : Profile → Nat | .s14 => 0 | .l12 => 1 | .s15 => 2
/-- Zone capacity in logical blocks (R87). -/
def capOf (p : Profile) : Nat := dataOf p * 65536
/-- Frond of a member position (R85). -/
def memberFrond (slot pos : Nat) : Nat := (slot % 16 + pos) % 16
/-- Key of a member, a chunk, a codeword. -/
def mKey (slot pos : Nat) : Nat := slot * 16 + pos
def hKey (slot pos row : Nat) : Nat := mKey slot pos * 1024 + row
def cKey (slot pos row k : Nat) : Nat := hKey slot pos row * 64 + k
def slotOfCk (ck : Nat) : Nat := ck / 1048576
def posOfCk (ck : Nat) : Nat := ck / 65536 % 16
def rowOfCk (ck : Nat) : Nat := ck / 64 % 1024
def hOfCk (ck : Nat) : Nat := ck / 64
def slotOfH (h : Nat) : Nat := h / 16384
def posOfH (h : Nat) : Nat := h / 1024 % 16
/-- A member by its key. -/
def memberAt (s : State) (m : Nat) : Member := (stripeAt s (m / 16)).members.getD (m % 16) {}
def setMember (m : Nat) (g : Member → Member) (s : State) : State :=
  updStripe (m / 16) (fun x => { x with members := x.members.set (m % 16) (g (x.members.getD (m % 16) {})) }) s
/-- Codeword key of a block offset within a stripe (R87). -/
def ckOf (p : Profile) (slot off : Nat) : Nat :=
  let c := off / 64
  cKey slot (c % dataOf p) (c / dataOf p) (off % 64)
/-- Block offset of a data codeword within its stripe. -/
def offOfCk (p : Profile) (ck : Nat) : Nat := (rowOfCk ck * dataOf p + posOfCk ck) * 64 + ck % 64
/-- Code of KIND (R127): fill codewords are host data. -/
def kindNo : CwKind → Nat | .data | .fill => 0 | .parity => 1 | .padding => 2 | .metadata => 3
/-- The 16-byte media metadata of a codeword (R59, R127): where it lies, its KIND and COPY (3 in a stripe member), its destination
and SEQ. -/
def mediaMeta (die block wl page : Nat) (kind : CwKind) (copy ck seq : Nat) : List Byte :=
  le 8 (die % 2 ^ 12 + block % 2 ^ 12 * 2 ^ 12 + wl % 2 ^ 10 * 2 ^ 24 + page % 4 * 2 ^ 34 + kindNo kind * 2 ^ 36 + copy % 4 * 2 ^ 38
    + ck / 1048576 % 2 ^ 19 * 2 ^ 40 + ck / 65536 % 16 * 2 ^ 59)
  ++ le 8 (seq % 2 ^ 48 + ck / 64 % 1024 * 2 ^ 48 + ck % 64 * 2 ^ 58)
/-- Media metadata of a seedbed copy of a codeword, in SLC (R127). -/
def copyMeta (ck : Nat) (w : Cw) (l : CopyLoc) : List Byte := mediaMeta l.die l.block l.wl 0 w.kind l.idx ck w.seq
/-- Media metadata of a codeword in its stripe member, at its QLC page level (R87, R127). -/
def memberMeta (ck b : Nat) (w : Cw) : List Byte := mediaMeta (b / 4096) (b % 4096) (ck / 64 % 1024) (ck % 64 / 16) w.kind 3 ck w.seq
/-- Plane, QLC page level and codeword bit of a codeword (R87). -/
def planeOf (ck : Nat) : Nat := ck % 64 / 4 % 4
def pageOf (ck : Nat) : Nat := ck % 64 / 16
def maskOf (ck : Nat) : Nat := 2 ^ (ck % 4)

/-- Codeword that holds a logical block now; none where the block reads as zeros (R134, R150). -/
def resolve (s : State) (nsid lba : Nat) : Option Nat :=
  let n := nsAt s nsid
  if n.zoned then
    let z := zoneAt s (zoneKey nsid (lba / 1048576))
    match z.slot with
    | none => none
    | some slot => if lba % 1048576 < z.wp then some (ckOf n.profile slot (lba % 1048576)) else none
  else
    match tget none s.map (nsid * 2 ^ 41 + lba) with
    | none => none
    | some (slot, off) => some (ckOf n.profile slot off)

/-- Lost members of group A and of group B, and surviving global parities, of an L12 row (R88). -/
def l12A (l : List Nat) : Nat := (l.filter fun m => m < 6 || m == 12).length
def l12B (l : List Nat) : Nat := (l.filter fun m => (6 ≤ m && m < 12) || m == 13).length
def l12G (l : List Nat) : Nat := 2 - (l.filter fun m => m == 14 || m == 15).length
/-- A row with these members lost is recoverable (R88). -/
def recoverable (p : Profile) (lost : List Nat) : Bool :=
  match p with
  | .s14 => lost.length ≤ 2
  | .s15 => lost.length ≤ 1
  | .l12 => l12A lost ≤ 2 && l12B lost ≤ 2 && b2n (l12A lost == 2) + b2n (l12B lost == 2) ≤ l12G lost
/-- Remaining tolerance: further losses that R88 recovers in every pattern (R98). -/
def remaining (p : Profile) (lost : List Nat) : Nat :=
  let rest := (List.range 16).filter fun m => !lost.contains m
  if rest.all (fun m => recoverable p (m :: lost)) then
    if rest.all (fun m => rest.all fun n => n == m || recoverable p (n :: m :: lost)) then 2 else 1
  else 0

/-- Frond counts as absent for members (R94). -/
def frondAbsent (s : State) (f : Nat) : Bool := !frondIn s f
/-- Members missing for good or pending (R88, R94). -/
def missingOf (st : Stripe) : List Nat :=
  (List.range 16).filter fun m => match st.members[m]? with | some x => x.blk.isNone | none => true
/-- Members missing, pending or on an absent frond: what tolerance counts now. -/
def lostNow (s : State) (slot : Nat) : List Nat :=
  let st := stripeAt s slot
  (List.range 16).filter fun m =>
    (match st.members[m]? with | some x => x.blk.isNone || x.filling | none => true) || frondAbsent s (memberFrond slot m)
/-- A member is unavailable for a row (R92): pending or lost, not yet filled there, on an absent frond, or on a failed or
quarantined die. -/
def unavailable (s : State) (slot pos row : Nat) : Bool :=
  match (stripeAt s slot).members[pos]? with
  | none => true
  | some m =>
    match m.blk with
    | none => true
    | some b => frondAbsent s (memberFrond slot pos) || (dieAt s (b / 4096)).state != 0 || (m.filling && m.verified ≤ row)
/-- Members that read-around of a missing position reads (R91), with `un` the other unavailable positions; none where the
row cannot be rebuilt. For a missing G with a data member unavailable, which R91's table does not list, every available member
is read (assumption 150). -/
def aroundMembers (p : Profile) (pos : Nat) (un : List Nat) : Option (List Nat) :=
  let av := fun m => !un.contains m && m != pos
  let all := (List.range 16).filter av
  let data := (List.range (dataOf p)).filter (· ≠ pos)
  match p with
  | .s15 => if all.length = 15 then some all else none
  | .s14 =>
    if pos ≥ 14 then if data.all av then some data else if all.length = 14 then some all else none
    else if data.all av && av 14 then some (data ++ [14])
    else if data.all av && av 15 then some (data ++ [15])
    else if all.length = 14 then some all else none
  | .l12 =>
    let ga := [0, 1, 2, 3, 4, 5, 12]
    let gb := [6, 7, 8, 9, 10, 11, 13]
    if pos ≥ 14 then
      if data.all av then some data
      else
        let g := if pos = 14 then 15 else 14
        if recoverable .l12 (pos :: un) && av g then some all else none
    else
      let own := if ga.contains pos then ga else gb
      let oth := if ga.contains pos then gb else ga
      let mine := own.filter (· ≠ pos)
      if mine.all av then some mine
      else if recoverable .l12 (pos :: un) then
        let o := if (oth.filter (· < 12)).all av then oth.filter (· < 12) else oth.filter av
        let g := if av 14 then [14] else [15]
        let gs := if (oth.filter av).length + 2 ≤ oth.length then [14, 15] else g
        some (mine.filter av ++ o ++ gs)
      else none

/-! ### Seedbed placement (R108). -/
/-- The three ordinary fronds and the three substitutes of frond i, in order. -/
def sixFronds (i : Nat) : List Nat := [i, (i + 5) % 16, (i + 11) % 16, (i + 8) % 16, (i + 3) % 16, (i + 13) % 16]
/-- Fronds that take the copies: each present ordinary frond keeps its own, each absent one's copy goes to the next present
substitute. Fewer than three entries where too few fronds are present. -/
def placeCopies (pres : Nat → Bool) (i : Nat) : List (Nat × Nat) :=
  let ord := [(i, 0), ((i + 5) % 16, 1), ((i + 11) % 16, 2)]
  let sub := ([(i + 8) % 16, (i + 3) % 16, (i + 13) % 16]).filter pres
  let miss := ord.filter fun x => !pres x.1
  ord.filter (fun x => pres x.1) ++ (miss.zip sub).map fun x => (x.2, x.1.2)
/-- At least three of the six fronds of a destination are present (R108). -/
def enoughFronds (s : State) (i : Nat) : Bool := ((sixFronds i).filter (frondIn s)).length ≥ 3
/-- The next frond for one more copy of a codeword: the first of its six that is present and holds none (R108, R125). -/
def nextFrond (s : State) (i : Nat) (held : List Nat) : Option Nat :=
  (sixFronds i).find? fun f => frondIn s f && !held.contains f

/-- A frond is a substitute for codewords destined for frond i (R108). -/
def substitute (i f : Nat) : Bool := f == (i + 8) % 16 || f == (i + 3) % 16 || f == (i + 13) % 16
/-- Copies that a frond holds as a substitute (R131). -/
def substitutesOf (s : State) (f : Nat) : Nat :=
  s.cws.foldl (fun a c => a + (c.2.copies.filter fun l => l.frond == f && substitute (memberFrond (slotOfCk c.1) (posOfCk c.1)) f).length) 0
/-- Fill of a frond's seedbed in whole percent (R122, R123). -/
def fillPct (g : FrondSt) : Nat := g.sbUsed * 100 / (16384 - g.sbMissing)
/-- State of a frond in the Seedbed Status log (R131). -/
def sbState (s : State) (f : Nat) : Nat :=
  let g := frondAt s f
  if frondAbsent s f then 3 else if fillPct g ≥ s.feat.fullPct then 2 else if fillPct g ≥ s.feat.thrPct then 1 else 0
/-- STATE of the Seedbed Status log (R131). -/
def sbStateAll (s : State) : Nat :=
  (List.range 16).foldl (fun m f => let x := sbState s f; if x = 3 then m else max m x) 0

/-! ### Die-blocks (R60, R62, R68, R80, R83). -/
/-- STATE of a die-block (R83): an accounted position of a new frond that no entry lists yet is dirty (R102). -/
def blkState (s : State) (k : Nat) : Nat :=
  match (dieAt s (k / 4096)).unwiped with
  | some c => if decide (c ≤ k % 4096 ∧ k % 4096 < 2048) && (tfind s.blks k).isNone then 1 else (blkAt s k).state
  | none => (blkAt s k).state
/-- Least-worn position of a die whose STATE is `want`, from a position on, the lowest on a tie (assumption 9). -/
def leastWornGo (s : State) (die want : Nat) : Nat → Nat → Option (Nat × Nat) → Option (Nat × Nat)
  | 0, _, best => best
  | fuel + 1, pos, best =>
    let k := blkKey die pos
    if blkState s k = want then
      let w := (blkAt s k).wear
      if w = 0 then (match best with | some (0, _) => best | _ => some (0, pos))
      else leastWornGo s die want fuel (pos + 1) (match best with | some (v, _) => if w < v then some (w, pos) else best | none => some (w, pos))
    else leastWornGo s die want fuel (pos + 1) best
/-- The least-worn free die-block of a die, with its wear (R85, R109). -/
def leastWorn (s : State) (die : Nat) : Option (Nat × Nat) := leastWornGo s die 0 2112 0 none
/-- The first of a list of dies that holds a block of wear 0, else the least-worn of all, by a choice per die. -/
def leastWornOf (one : Nat → Option (Nat × Nat)) : List Nat → Option (Nat × Nat × Nat) → Option (Nat × Nat × Nat)
  | [], best => best
  | d :: r, best =>
    match one d with
    | some (0, pos) => some (0, d, pos)
    | some (w, pos) => leastWornOf one r (match best with | some (v, _, _) => if w < v then some (w, d, pos) else best
                                                          | none => some (w, d, pos))
    | none => leastWornOf one r best
/-- Dies of a frond that have not failed, within the die set of a placement class (R85, R230). -/
def dieSet (s : State) (f cls : Nat) : List Nat :=
  let l := if cls < 8 then (List.range 256).map (f * 256 + ·) else (List.range 32).map (f * 256 + (cls - 8) * 32 + ·)
  l.filter fun d => decide ((dieAt s d).state ≤ 1)
/-- The least-worn free die-block of a frond for a class: its die set, else the whole frond (R85, R230). -/
def pickBlock (s : State) (f cls : Nat) : Option Nat :=
  match leastWornOf (leastWorn s) (dieSet s f cls) none with
  | some (_, d, p) => some (blkKey d p)
  | none => (leastWornOf (leastWorn s) (dieSet s f 0) none).map fun x => blkKey x.2.1 x.2.2
/-- The least-worn spare on a healthy die of a frond (R60, R95). -/
def pickSpare (s : State) (f : Nat) : Option Nat :=
  (leastWornOf (fun d => leastWornGo s d 6 212 1900 none) ((dieSet s f 0).filter fun d => (dieAt s d).state == 0) none).map fun x => blkKey x.2.1 x.2.2
/-- A die-block goes to the dirty pool of its frond and is named for erase (R142); a grown-bad one only holds nothing more. -/
def toDirty (k : Nat) (s : State) : State :=
  if (blkAt s k).state = 8 then updBlk k (fun b => { b with member := none, leave := false }) s
  else updFrond (frondOfDie (k / 4096)) (fun g => if g.dirty.contains k then g else { g with dirty := g.dirty ++ [k] })
    (updBlk k (fun b => { b with state := 1, refresh := false, member := none, live := 0, scrubLeft := 0, leave := false }) s)
/-- The blank-check of R80 passes: the block was never erased in service, or it reads as erased. -/
def blankOk (s : State) (k : Nat) : Bool :=
  let b := blkAt s k
  b.qlc + b.slc == 0 || Config.blankErased k (b.qlc + b.slc)
/-- Die reserve positions left on a die (R60, R83). -/
def reserveLeft (s : State) (d : Nat) : Nat := ((List.range 64).filter fun i => (blkAt s (blkKey d (2048 + i))).state == 7).length
/-- Factory-bad positions of a die (R60, R83). -/
def factoryBad (s : State) (d : Nat) : Nat := (s.blks.filter fun b => b.1 / 4096 == d && b.2.state == 9).length
/-- Hard limit of a die, 180 to 240 bits per codeword (R69). -/
def hardLimit (die : Nat) : Nat := 180 + Config.hardLimit die % 61
/-- Takes a spare die-block of a frond: it is free from now on (R60, R95). -/
def rawSpare (f : Nat) (s : State) : Option Nat × State :=
  match (if 0 < (frondAt s f).spares then pickSpare s f else none) with
  | some k => (some k, updFrond f (fun g => { g with spares := g.spares - 1 }) (updBlk k (fun b => { b with state := 0 }) s))
  | none => (none, s)
/-- Takes a replacement for a position that went bad: a die reserve position of the die, else a spare of the frond. It is
accounted and free from now on (R60). -/
def rawReplacement (die : Nat) (s : State) : Option Nat × State :=
  match leastWornGo s die 7 64 2048 none with
  | some (_, pos) => (some (blkKey die pos), updDie die (fun d => { d with reserveUsed := d.reserveUsed + 1 }) (updBlk (blkKey die pos) (fun b => { b with state := 0 }) s))
  | none => rawSpare (frondOfDie die) s
/-- A die-block becomes grown bad: why 1 program, 2 verification, 3 erase, 4 blank-check (R68, R467). One of the seedbed that
holds live codewords leaves the seedbed once they are released (R113). -/
def grownBad (k why : Nat) (s : State) : State :=
  let die := k / 4096
  let b := blkAt s k
  let out := b.seed && b.live == 0
  let s := updBlk k (fun b => { b with state := 8, refresh := false, member := none, leave := false, scrubLeft := 0, seed := b.seed && !out }) s
  let s := if out then updFrond (frondOfDie die) (fun g => { g with sbUsed := g.sbUsed - 1 }) s else s
  let s := updDie die (fun d => { d with grownBad := d.grownBad + 1 }) s
  event 0x109 1 (srcF (frondOfDie die)) (obj 2 k) why (dieAt s die).grownBad 0 s
/-- A block that does not read as erased is erased again before any other of its die; at a second failed blank-check it is
grown bad and replaced (R80). What that means for its die and its frond is looked at at the next tick (R81, R145; assumption 182). -/
def notBlank (k : Nat) (s : State) : State :=
  if (blkAt s k).retried then
    updFrond (frondOfDie (k / 4096)) (fun g => { g with check := true }) (rawReplacement (k / 4096) (grownBad k 4 s)).2
  else updFrond (frondOfDie (k / 4096)) (fun g => { g with dirty := k :: g.dirty.filter (· ≠ k) })
    (updBlk k (fun b => { b with state := 2, retried := true, member := none }) s)
/-- Draws the least-worn free die-block of a frond that passes its blank-check (R80, R85; assumption 131). -/
def drawBlock (f cls : Nat) : Nat → State → Option Nat × State
  | 0, s => (none, s)
  | fuel + 1, s =>
    match pickBlock s f cls with
    | none => (none, s)
    | some k => if blankOk s k then (some k, updBlk k (fun b => { b with retried := false }) s) else drawBlock f cls fuel (notBlank k s)

/-- Takes a spare of a frond that passes its blank-check (R60, R80, R95). -/
def takeSpare (f : Nat) : Nat → State → Option Nat × State
  | 0, s => (none, s)
  | fuel + 1, s => match rawSpare f s with
    | (some k, s) => if blankOk s k then (some k, s) else takeSpare f fuel (notBlank k s)
    | (none, s) => (none, s)
/-- Takes a replacement for a position of a die that passes its blank-check (R60, R80). -/
def takeReplacement (die : Nat) : Nat → State → Option Nat × State
  | 0, s => (none, s)
  | fuel + 1, s => match rawReplacement die s with
    | (some k, s) => if blankOk s k then (some k, s) else takeReplacement die fuel (notBlank k s)
    | (none, s) => (none, s)
/-- A die-block for a stripe member of a frond: the least-worn free one, else a spare, else a die reserve position of one of its
dies (R60, R85, R105). -/
def drawMember (f cls : Nat) (s : State) : Option Nat × State :=
  match drawBlock f cls 64 s with
  | (some k, s) => (some k, s)
  | (none, s) => match takeSpare f 64 s with
    | (some k, s) => (some k, s)
    | (none, s) => match (dieSet s f 0).find? fun d => 0 < reserveLeft s d with
      | some d => takeReplacement d 64 s
      | none => (none, s)

/-! ### Zones and stripes changed by the module. -/
/-- A zone the module changed itself: listed and notified (R156), at both controllers whatever the attachment, which R156 leaves
open (assumption 151). -/
def zoneNotice (nsid z : Nat) (s : State) : State :=
  let add := fun (c : Ctrl) => { c with changedZones := if c.changedZones.contains (nsid, z * 1048576) then c.changedZones
                                                         else c.changedZones ++ [(nsid, z * 1048576)] }
  aenBoth 2 0xEF 0xBF (updCtrl .h0 add (updCtrl .h1 add s))
/-- Zone states that count as active (R135). -/
def zActive : ZState → Bool | .implOpen | .explOpen | .closed => true | _ => false
/-- Active zones and head resources of the module (R135, R147). -/
def activeCount (s : State) : Nat :=
  (s.zones.filter fun z => zActive z.2.st).length + 2 * (s.nss.filter fun n => n.2.used && !n.2.zoned).length
/-- Number of the zones of a namespace. -/
def zonesOf (n : Ns) : Nat := n.nsze / 1048576
/-- Stripe slots not used by a stripe nor claimed by a reservation (R146). -/
def freeSlots (s : State) : Nat :=
  475136 - (s.stripes.filter fun x => x.2.used).length
    - (s.nss.foldl (fun a n => if n.2.used && !n.2.zoned then a + (n.2.resv - n.2.slots.length) else a) 0)
/-- Lowest free slot of a rotation base. -/
def lowestOfBase (s : State) (b : Nat) : Nat → Nat → Option Nat
  | 0, _ => none
  | fuel + 1, i =>
    let k := b + 16 * i
    if 475136 ≤ k then none else if (stripeAt s k).used then lowestOfBase s b fuel (i + 1) else some k
/-- The allocator's next slot (R137): rotation bases in turn after the last base used. -/
def nextSlotGo (s : State) : Nat → Nat → Option Nat
  | 0, _ => none
  | n + 1, b => match lowestOfBase s (b % 16) 29696 0 with | some k => some k | none => nextSlotGo s n (b + 1)
def nextSlotFree (s : State) : Option Nat := nextSlotGo s 16 (s.pair.lastBase + 1)
/-- A programmed copy is dead (R121). On a frond that throttles writes its place admits one more codeword, up to the 65,536 of
the longest write (R123; assumption 133). -/
def releaseCopy (l : CopyLoc) (s : State) : State :=
  if !l.done then s
  else
    let s := updBlk (blkKey l.die l.block) (fun b => { b with live := b.live - 1 }) s
    if s.feat.thrPct ≤ fillPct (frondAt s l.frond) then
      updSeedbed (fun b => { b with credit := tupd 0 b.credit l.frond fun n => min 65536 (n + 1) }) s
    else s
/-- Drops every copy of the codewords selected (R121). -/
def releaseCopies (sel : Nat → Bool) (s : State) : State :=
  let drop := s.cws.filter fun c => sel c.1
  let s := drop.foldl (fun s c => c.2.copies.foldl (fun s l => releaseCopy l s) s) s
  drop.foldl (fun s c => updCw c.1 (fun x => { x with copies := [], folded := true }) s) s
/-- A seedbed block whose codewords are all dead and that is no head is queued for erase; a grown-bad one leaves the seedbed
(R113, R121). -/
def deadBlocks (f : Nat) (s : State) : State :=
  (s.blks.filter fun b => (b.2.state == 3 || (b.2.state == 8 && b.2.seed)) && b.2.live == 0 && frondOfDie (b.1 / 4096) == f
      && (match (dieAt s (b.1 / 4096)).head with | some h => h.1 != b.1 % 4096 | none => true)
      && !(s.progs.any fun p => blkKey p.2.die p.2.block == b.1)).foldl
    (fun s b =>
      if b.2.state = 8 then updFrond f (fun g => { g with sbUsed := g.sbUsed - 1 }) (updBlk b.1 (fun x => { x with seed := false }) s)
      else updFrond f (fun g => { g with sbErasing := g.sbErasing + 1 }) (toDirty b.1 s)) s
def deadBlocksAll (s : State) : State := (List.range 16).foldl (fun s f => deadBlocks f s) s
/-- Queues a long operation on a die-block (R43). -/
def queueOp (k : Nat) (o : LongOp) (s : State) : State :=
  updFrond (frondOfDie (k / 4096)) (fun g => { g with opDies := if g.opDies.contains (k / 4096) then g.opDies else g.opDies ++ [k / 4096] })
    (updDie (k / 4096) (fun d => { d with opQ := d.opQ ++ [{ o with block := k % 4096, arrival := now s }] }) s)
/-- Long operations on a die-block end: it is a member no longer (R101, R141). -/
def dropOps (k : Nat) (s : State) : State :=
  updDie (k / 4096) (fun d =>
    let mine := fun (o : LongOp) => decide (o.block = k % 4096)
    { d with op := d.op.filter fun o => !mine o, opQ := d.opQ.filter fun o => !mine o }) s
/-- Gives an extension chunk back (R115). -/
def freeExt (card : CardId) (s : State) : State := updSeedbed (fun b => { b with ext := pset b.ext card (pget b.ext card + 1) }) s
/-- Takes an extension chunk (R115). -/
def takeExt (card : CardId) (s : State) : State := updSeedbed (fun b => { b with ext := pset b.ext card (pget b.ext card - 1) }) s
/-- A stripe's parity accumulator is released, with its extension chunk (R115, R139, R141). -/
def dropAccum (slot : Nat) (s : State) : State :=
  let s := match (accumAt s slot).ext with | some c => freeExt c s | none => s
  { s with accums := tdel s.accums slot }
/-- Counts for the Stripe Health log (R106). -/
def inUse (s : State) : List (Nat × Stripe) := s.stripes.filter fun x => x.2.used
def noTolerance (s : State) : Nat :=
  ((inUse s).filter fun x => let l := lostNow s x.1; recoverable x.2.profile l && remaining x.2.profile l == 0).length
def beyond (s : State) : Nat := ((inUse s).filter fun x => !recoverable x.2.profile (lostNow s x.1) || !x.2.lostRows.isEmpty).length
/-- Posts the Stripe Health event where NO_TOLERANCE or BEYOND rises from zero between two states (R107). -/
def healthRise (s0 s : State) : State :=
  if (noTolerance s0 = 0 ∧ 0 < noTolerance s) ∨ (beyond s0 = 0 ∧ 0 < beyond s) then aenPage 0xC3 s else s
/-- A frond's STATE changes: event 0x0207 and the Stripe Health event (R106, R107, R467). -/
def frondState (f st : Nat) (s : State) : State :=
  let old := (frondAt s f).state
  if old = st then s
  else
    let gone := st == 1 || st == 2 || st == 3 || st == 9
    let s1 := updFrond f (fun g => { g with
      state := st,
      goneFc := if gone then (if g.goneFc = 0 then s.time.fc else g.goneFc) else if st = 0 ∨ st = 5 ∨ st = 6 then 0 else g.goneFc,
      goneEp := if gone then s.time.ep else if st = 0 ∨ st = 5 ∨ st = 6 then 0 else g.goneEp }) s
    healthRise s (aenPage 0xC3 (event 0x207 0 (srcQ s.time.master) (obj 4 f) st old 0 s1))
/-- Bytes a member's rebuild or fill brings (R106). -/
def memberBytes (s : State) (m : Nat) : Nat := ((stripeAt s (m / 16)).folded - (memberAt s m).verified) * 262144
/-- Members leave the queue of rebuild and fill. -/
def unqueue (sel : Nat → Bool) (s : State) : State :=
  updRebuild (fun r => { r with queue := r.queue.filter (!sel ·), active := r.active.filter (!sel ·), of := r.of.filter (!sel ·.1) }) s
/-- Rebuilds and fills without a member left have ended: each posts its events, a failed die of one is rebuilt, and a frond that was
rebuilt or filled is in service (R84, R106, R107, R467). -/
def rebuildIdle (s : State) : State :=
  let r := s.rebuild
  let ended := r.kinds.filter fun k => !(r.queue.any fun m => tget (0, 0) r.of m == k)
  let back := (List.range 16).filter fun f => ((frondAt s f).state == 5 || (frondAt s f).state == 6) && !(r.queue.any fun m => memberFrond (m / 16) (m % 16) == f)
  let s := back.foldl (fun s f => frondState f 0 s) s
  if ended = [] then s
  else
    let s := ended.foldl (fun s k => event 0x202 0 (srcQ s.time.master) k.2 k.1 r.done 0 s) s
    let s := (s.dies.filter fun d => d.2.state == 2 && ended.contains (1, obj 1 d.1)).foldl (fun s d => updDie d.1 (fun x => { x with state := 3 }) s) s
    aenPage 0xC3 (updRebuild (fun r => { r with kinds := r.kinds.filter fun k => !ended.contains k }) s)
/-- Reads fetched before a stripe is freed return its old data (R141). -/
def keepData (slot : Nat) (s : State) : State :=
  { s with pieces := s.pieces.map fun p =>
      if p.2.slot = slot ∧ !p.2.delivered ∧ p.2.kept = [] then
        (p.1, { p.2 with kept := p.2.blocks.map fun b => (b.2, (cwAt s b.2).data, (cwAt s b.2).pi) })
      else p }
/-- The running refresh of a frond is given up; its target goes to the dirty pool (R74). -/
def endRefresh (f : Nat) (s : State) : State :=
  match (frondAt s f).refresh with
  | some (_, dst, _, _) => toDirty dst (dropOps dst (updFrond f (fun g => { g with refresh := none }) s))
  | none => s
/-- The refresh of a die-block that is released ends (R74). -/
def dropRefresh (k : Nat) (s : State) : State :=
  let f := frondOfDie (k / 4096)
  match (frondAt s f).refresh with
  | some (src, _, _, _) => if src = k then endRefresh f s else s
  | none => s
/-- Buffers that stage reconstructed chunks of a stripe are freed. -/
def dropStaged (slot : Nat) (s : State) : State :=
  (s.chunks.filter fun c => slotOfH c.1 == slot).foldl (fun s c => match c.2.buf with
    | some b => decBuf (ownerOfNs s (stripeAt s slot).nsid) 2 b 0 s | none => s) s
/-- Frees a stripe slot: copies released, members to the dirty pools, chunks, accumulator, padding, rebuild and refresh
ended (R101, R121, R141). -/
def freeStripe (slot : Nat) (s : State) : State :=
  let st := stripeAt s slot
  let s := releaseCopies (fun ck => slotOfCk ck == slot) (keepData slot s)
  let s := dropStaged slot (dropAccum slot s)
  let s := { s with cws := s.cws.filter (fun c => slotOfCk c.1 != slot), chunks := s.chunks.filter (fun c => slotOfH c.1 != slot),
                    reqs := s.reqs.map fun r => (match r.2.chunk with
                      | some h => if slotOfH h = slot then (r.1, { r.2 with chunk := none }) else r | none => r),
                    seedbed := { s.seedbed with replace := s.seedbed.replace.filter (fun ck => slotOfCk ck != slot) } }
  let left := (s.rebuild.queue.filter fun m => m / 16 == slot).foldl (fun a m => a + memberBytes s m) 0
  let s := unqueue (· / 16 == slot) (updRebuild (fun r => { r with done := r.done + left }) s)
  let s := st.members.foldl (fun s m => match m.blk with | some b => toDirty b (dropOps b (dropRefresh b s)) | none => s) s
  let s := (List.range 16).foldl (fun s f => updFrond f (fun g => { g with
      table := g.table.filter (fun t => t.1 / 16 != slot), batch := g.batch.filter (fun h => slotOfH h != slot),
      pack := g.pack.filter (fun i => slotOfCk i.cw != slot) }) s) s
  let s := { s with dies := s.dies.map fun d => (d.1, { d.2 with opQ := d.2.opQ.filter (fun o => o.kind == .erase || slotOfH o.chunk != slot) }) }
  rebuildIdle (deadBlocksAll (updStripe slot (fun x => { gen := x.gen }) s))
/-- Pads the open row of a stripe and releases its accumulator (step 1 of R139): parity of the row is final. -/
def rowEnd (st : Stripe) (wp : Nat) : Nat := (wp + 64 * dataOf st.profile - 1) / (64 * dataOf st.profile)
end Sys2Proof.Machine
end

