-- ==== Sys2Proof/Machine/Cmds.lean ====
section
/-! DEFINITION. Fetched commands: how their media work is issued, how they complete, how zones open, reset and settle; what
the I/O commands share. -/
namespace Sys2Proof.Machine
open Sys2Proof

/-- A request of a superseded slice generation (R200); slice 0 is never reset. -/
def superseded (s : State) (sl gen : Nat) : Bool := sl != 0 && (sliceAt s sl).gen.toNat != gen
/-- Adds a media request as sent (R39). -/
def addReq (r : Req) (s : State) : State :=
  let (n, s) := fresh s
  { s with reqs := tins s.reqs n { r with st := .sent } }
/-- Adds a request whose data lands in an S16K buffer of its own; without a free one its link engine holds it back until the
next frame (R22, R92, R119, R260). -/
def addReqBuf (r : Req) (s : State) : State :=
  match takeBufs r.owner 3 1 s with
  | (some (b :: _), s) => addReq { r with buf := some b } s
  | (_, s) =>
    let (n, s) := fresh s
    let s := { s with reqs := tins s.reqs n { r with st := .held } }
    match r.piece with
    | some p => updPiece p (fun x => { x with deferredAt := match x.deferredAt with | some f => some f | none => some (now s) }) s
    | none => s
/-- A request's own S16K buffer is free: its data has been consumed, or will not come (R260). -/
def freeReqBuf (n : Nat) (s : State) : State :=
  match (reqAt s n).buf with
  | some b => decBuf (reqAt s n).owner 3 b 0 (updReq n (fun x => { x with buf := none }) s)
  | none => s
/-- Requests held back for want of a buffer try again, ahead of new ones (R259, R260). -/
def retryHeld (s : State) : State :=
  (s.reqs.filter fun r => r.2.st == .held).foldl (fun s r =>
    match takeBufs r.2.owner 3 1 s with
    | (some (b :: _), s) =>
      let s := updReq r.1 (fun x => { x with st := .sent, buf := some b, target := s.time.fc }) s
      (match r.2.piece with
       | some p => if s.reqs.any (fun q => q.2.piece == some p && q.2.st == .held) then s else updPiece p (fun x => { x with deferredAt := none }) s
       | none => s)
    | (_, s) => s) s
/-- Earliest frame a new request may name: the current one, where insertion is tried (R41). -/
def frameStart (s : State) (t : Nat) : Nat := s.time.start + (t - s.time.fc) * 16000

/-! ### Codewords on their way to the seedbed (R108–R112). -/
/-- All three copies are programmed (R112), those given up since with a departed frond among them; a codeword already folded
needs none. -/
def durable (cw : Cw) : Bool := cw.folded || (cw.waiting == 0 && decide (3 ≤ cw.copies.length + cw.cut) && cw.copies.all (·.done))
/-- Class of the command that a codeword belongs to; none for one that belongs to none. -/
def cwSvc (s : State) (cw : Cw) : Option Svc := cw.cmd.bind fun k => (tfind s.cmds k).map (·.svc)
/-- Weighted and background codewords of a Quihar that are outstanding at the fronds: of read pieces sent and not decoded, of
writes sent and not programmed (R206). -/
def outstanding (s : State) (c : CardId) : Nat :=
  let reads := (s.pieces.filter fun p => !p.2.turn && !p.2.ready && !p.2.delivered && decide (0 < p.2.route)
    && decide ((cmdAt s p.2.cmd).card = c) && (cmdAt s p.2.cmd).svc != .bound).foldl (fun a p => a + p.2.blocks.length) 0
  let writes := (s.cws.filter fun w => !w.2.copies.isEmpty && !durable w.2 && decide (ownerOfNs s w.2.nsid = c)
    && (match cwSvc s w.2 with | some .weighted | some .background => true | _ => false)).length
  reads + writes
/-- Codewords of a class wait at a Quihar for their turn (R206). -/
def turnWaits (s : State) (c : CardId) (v : Svc) : Bool :=
  (s.pieces.any fun p => p.2.turn && decide ((cmdAt s p.2.cmd).card = c) && (cmdAt s p.2.cmd).svc == v)
    || s.cws.any fun w => w.2.turn && decide (ownerOfNs s w.2.nsid = c) && (cwSvc s w.2).getD .weighted == v
/-- Codewords of a class may go to the fronds at once: bound ones always; others while nothing waits before them and the
16,384 of R206 are not reached. -/
def mayGo (s : State) (c : CardId) (v : Svc) (n : Nat) : Bool :=
  v == .bound || (decide (outstanding s c + n ≤ 16384) && !turnWaits s c .weighted && (v == .weighted || !turnWaits s c .background))
/-- Gives a codeword its copies and hands them to their fronds for packing (R108, R110). -/
def placeCw (ck : Nat) (s : State) : State :=
  let cw := cwAt s ck
  let i := memberFrond (slotOfCk ck) (posOfCk ck)
  let pl := placeCopies (frondIn s) i
  let s := updCw ck (fun x => { x with
    encrypted := true, turn := false, seq := seqNow s, waiting := 3 - pl.length,
    copies := pl.map fun p => { frond := p.1, idx := p.2 } }) s
  pl.foldl (fun s p => updFrond p.1 (fun g => { g with
    pack := g.pack ++ [{ cw := ck, idx := p.2, bound := cw.bound, at' := now s, first := decide (cw.kind = .fill) }] }) s) s
/-- Sends a codeword to its fronds, in its turn where it is of a weighted or background write (R206). -/
def sendCw (ck : Nat) (s : State) : State :=
  let cw := cwAt s ck
  if mayGo s (ownerOfNs s cw.nsid) ((cwSvc s cw).getD .bound) 1 then placeCw ck s
  else updCw ck (fun x => { x with encrypted := true, turn := true }) s
/-- A codeword belongs to a command that has not completed. -/
def openCw (s : State) (cw : Cw) : Bool := match cw.cmd with | some k => (tfind s.cmds k).isSome | none => false
/-- One more copy of a codeword on the next free frond of its six, at rank 4 where its write has completed; it waits where
none is free (R113, R125). -/
def recopy (ck idx : Nat) (s : State) : State :=
  let cw := cwAt s ck
  let i := memberFrond (slotOfCk ck) (posOfCk ck)
  match nextFrond s i (cw.copies.map (·.frond)) with
  | some f =>
    updFrond f (fun g => { g with pack := g.pack ++ [{ cw := ck, idx := idx, bound := cw.bound, at' := now s, late := !openCw s cw }] })
      (updCw ck (fun x => { x with copies := x.copies ++ [{ frond := f, idx := idx }] }) s)
  | none => updCw ck (fun x => { x with waiting := x.waiting + 1 }) s
/-- A fill codeword's protection information (R202). -/
def fillPi (fmt1 : Bool) : List Byte :=
  if fmt1 then le 8 (crc64 (zeros 4096)).toNat ++ List.replicate 8 0xFF else []
/-- Writes blocks of a zone as fill codewords (R202): they take the seedbed path of any write. -/
def fillBlocks (nsid z : Nat) (blocks : List Nat) (s : State) : State :=
  let n := nsAt s nsid
  let zk := zoneKey nsid z
  match (zoneAt s zk).slot with
  | none => s
  | some slot =>
    let s := updZone zk (fun x => { x with fills := x.fills + blocks.length }) s
    blocks.foldl (fun s b =>
      let ck := ckOf n.profile slot b
      let cw : Cw :=
        { kind := .fill, data := zeros 4096, pi := fillPi n.fmt1, key := Config.xtsKey (sliceAt s (n.slice.getD 0)).key n.salt,
          nsid := nsid, lba := z * 1048576 + b }
      let s := { s with cws := tins s.cws ck cw }
      updSe (ownerOfNs s nsid) (· ++ [.encrypt ck]) s) s

/-! ### Zone digest (R275, R276). -/
def foldPiecesGo : Nat → Zone → Zone
  | 0, z => z
  | n + 1, z =>
    match tfind z.pieces z.covered with
    | some c => foldPiecesGo n { z with digest := combine poly64 z.digest c 4096, covered := z.covered + 1, pieces := tdel z.pieces z.covered }
    | none => z
/-- Folds in every piece that has become contiguous (R276). -/
def foldPieces (z : Zone) : Zone := foldPiecesGo z.pieces.length z
/-- Enters a block's piece value (R276). -/
def addPiece (b : Nat) (data : List Byte) (z : Zone) : Zone :=
  foldPieces { z with pieces := tins z.pieces b (crc64 (fitTo 4096 data)) }

/-! ### Reads (R87, R91, R134). -/
/-- Groups codeword keys into pieces: consecutive keys of one plane page. -/
def groupCks (key : Nat → List Nat) : List (Nat × Nat) → List (List (Nat × Nat))
  | [] => []
  | (l, ck) :: r =>
    match groupCks key r with
    | ((l2, c2) :: g) :: gs => if key ck = key c2 then ((l, ck) :: (l2, c2) :: g) :: gs else [(l, ck)] :: ((l2, c2) :: g) :: gs
    | gs => [(l, ck)] :: gs
/-- A codeword is served from the seedbed overlay: not yet folded, and a copy that decodes has been programmed (R128, R150). -/
def inOverlay (s : State) (ck : Nat) : Bool :=
  let cw := cwAt s ck
  !cw.folded && cw.copies.any fun l => l.done && !l.bad
/-- The plane pages that hold a codeword: its stripe member's page, or the pages of its seedbed copies. Codewords of one
key come with one plane read (log entry 36). -/
def pageKey (s : State) (ck : Nat) : List Nat :=
  if inOverlay s ck then 1 :: (cwAt s ck).copies.flatMap fun l => [l.idx, l.die, l.block, l.wl, l.place / 4, b2n l.done]
  else [0, ck / 4]
/-- Request kind of a class of service (R43). -/
def readKind : Svc → WorkKind | .bound => .boundRead | .weighted => .weightedRead | .background => .backgroundRead
/-- Frames whose parity lets a card claim a plane (R47); any frame in single-controller operation. -/
def claimParity (s : State) (c : CardId) (dp t : Nat) : Bool := single s || (t + dp % 4 + cardNo c) % 2 == 0
/-- A plane's slot in a frame is claimed. -/
def claimed (s : State) (dp t : Nat) : Bool := s.stats.claims.any fun x => x.dp == dp && x.frame == t
/-- The first frame of the n from t on in which a plane can be claimed (R47). -/
def freeClaim (s : State) (c : CardId) (dp : Nat) : Nat → Nat → Option Nat
  | 0, _ => none
  | n + 1, t => if claimParity s c dp t && !claimed s dp t then some t else freeClaim s c dp n (t + 1)
/-- The first frame whose plan is open: the next one until count 12,000 (R40, R47). -/
def firstOpen (s : State) : Nat := s.time.fc + if s.time.count < 12000 then 1 else 2
/-- The last frame that ends at least 3,200 counts before a deadline (R47). -/
def lastBefore (s : State) (d : Nat) : Nat := s.time.fc + (d - 3200 - s.time.start) / 16000 - 1
/-- Frames from the first open one to the last before a deadline. -/
def claimRange (s : State) (d : Nat) : Nat := if s.time.start + 3200 ≤ d then lastBefore s d + 1 - firstOpen s else 0
/-- Records a claim of a command. -/
def addClaim (k dp t : Nat) (s : State) : State := updStats (fun x => { x with claims := x.claims ++ [{ dp := dp, frame := t, cmd := k }] }) s
/-- The frame in which a command has claimed a plane for a read that has not gone out yet. -/
def claimOf (s : State) (k dp : Nat) : Option Nat :=
  (s.stats.claims.find? fun x => x.dp == dp && x.cmd == k && !x.used && decide (s.time.fc ≤ x.frame)).map (·.frame)
/-- The claim of a command for a plane in a frame is taken by a read. -/
def useClaim (k dp t : Nat) (s : State) : State :=
  updStats (fun x => { x with claims := x.claims.map fun c => if c.cmd = k ∧ c.dp = dp ∧ c.frame = t then { c with used := true } else c }) s
/-- The frame in which a command can read a plane: the one it has claimed, or a claim that can be made now (R47). -/
def claimFor (s : State) (k dp : Nat) : Option Nat :=
  match claimOf s k dp with
  | some t => some t
  | none => (cmdAt s k).deadline.bind fun d => freeClaim s (cmdAt s k).card dp (claimRange s d) (firstOpen s)
/-- A claim for a plane read of a command fits: one is held or can be made; only a bound command needs one (R47, R92). -/
def claimFits (s : State) (k dp : Nat) : Bool := (cmdAt s k).svc != .bound || (cmdAt s k).deadline.isNone || (claimFor s k dp).isSome
/-- Target frame of a plane read of a command, which takes its claim; a claim that it needs is made now (R47). Where none can be made, no route
had one (step 4 of R71), and the request names the current frame. -/
def claimedFrame (k dp : Nat) (s : State) : Nat × State :=
  match claimOf s k dp with
  | some t => (t, useClaim k dp t s)
  | none => match claimFor s k dp with
    | some t => (t, useClaim k dp t (addClaim k dp t s))
    | none => (s.time.fc, s)
/-- The request of a piece for a place on the medium, and the state in which its claim is made. -/
def pieceReq (p : Nat) (die block wl plane page mask : Nat) (slc : Bool) (s : State) : Req × State :=
  let pc := pieceAt s p
  let c := cmdAt s pc.cmd
  let (t, s) := if c.svc = .bound then claimedFrame pc.cmd (die * 4 + plane) s else (s.time.fc, s)
  ({ kind := readKind c.svc, owner := c.card, slice := c.slice, gen := c.gen, die := die, block := block, wl := wl,
     plane := plane, page := page, slc := slc, mask := mask, target := t, deadline := c.deadline, piece := some p }, s)
/-- Sends the request of a piece to a place on the medium. -/
def sendPiece (p : Nat) (die block wl plane page mask : Nat) (slc : Bool) (s : State) : State :=
  let r := pieceReq p die block wl plane page mask slc s
  addReq r.1 r.2
/-- The codewords of a piece within the plane page of one of its seedbed copies. -/
def copyMask (s : State) (pc : Piece) (idx : Nat) : Nat :=
  (pc.blocks.map fun b => match (cwAt s b.2).copies.find? fun l => l.idx == idx with
    | some l => 2 ^ (l.place % 4)
    | none => 0).foldl (· ||| ·) 0
/-- Copies of a piece of the seedbed overlay that have not been tried and can be read. -/
def copiesLeft (s : State) (pc : Piece) : List CopyLoc := match pc.blocks with
  | [] => []
  | (_, ck) :: _ => (cwAt s ck).copies.filter fun l => l.done && !l.bad && !frondAbsent s l.frond && !pc.copiesTried.contains l.frond
/-- Sends a piece of the seedbed overlay to a copy not yet tried, a single read (R71): for a bound piece the copy whose plane
is claimed, if one is. None where no present copy is left. -/
def sendCopy (p : Nat) (s : State) : Option State :=
  let pc := pieceAt s p
  let left := copiesLeft s pc
  let held := left.filter fun l => (claimOf s pc.cmd (l.die * 4 + l.place / 4)).isSome
  let fit := left.filter fun l => claimFits s pc.cmd (l.die * 4 + l.place / 4)
  (held ++ fit ++ left).head?.map fun l =>
    sendPiece p l.die l.block l.wl (l.place / 4) 0 (copyMask s pc l.idx) true
      (updPiece p (fun x => { x with route := 2, copiesTried := x.copiesTried ++ [l.frond] }) s)
/-- A piece fails: 1 uncorrectable, 2 members unavailable (R72, R93). -/
def failPiece (p why : Nat) (s : State) : State := updPiece p (fun x => { x with fail := why, ready := true }) s
/-- Plane of a stripe member that holds a codeword's column: die × 4 + plane. -/
def memberPlane (s : State) (slot m ck : Nat) : Option Nat :=
  (match (stripeAt s slot).members[m]? with | some x => x.blk | none => none).map fun b => (b / 4096) * 4 + planeOf ck
/-- The members that read-around of a piece reads (R91), those given up left out; what has arrived counts as available. A
member for which no claim fits is left out where the row can do without it (R92). -/
def aroundFor (s : State) (pc : Piece) : Option (List Nat) :=
  let ck := match pc.blocks with | (_, ck) :: _ => ck | [] => 0
  let got := pc.asked.filter fun m => !pc.members.contains m && !pc.out.contains m
  let p := (stripeAt s pc.slot).profile
  let un := (List.range 16).filter fun m => m != pc.pos && !got.contains m && (unavailable s pc.slot m pc.row || pc.out.contains m)
  let full := (List.range 16).filter fun m => m != pc.pos && !got.contains m && !un.contains m
    && (match memberPlane s pc.slot m ck with | some dp => !claimFits s pc.cmd dp | none => false)
  match (if full = [] then none else aroundMembers p pc.pos (un ++ full)) with
  | some ms => some ms
  | none => aroundMembers p pc.pos un
/-- Every member that read-around of a piece reads has a claim, or can have one (R47, R71 step 3). -/
def aroundFits (s : State) (pc : Piece) : Bool :=
  let ck := match pc.blocks with | (_, ck) :: _ => ck | [] => 0
  match aroundFor s pc with
  | some ms => ms.all fun m => match memberPlane s pc.slot m ck with | some dp => claimFits s pc.cmd dp | none => false
  | none => false
/-- The command has claimed the planes of a piece's read-around, not that of its own member (R47). -/
def aroundHeld (s : State) (pc : Piece) : Bool :=
  let ck := match pc.blocks with | (_, ck) :: _ => ck | [] => 0
  match aroundFor s pc with
  | some ms => ms.all fun m => match memberPlane s pc.slot m ck with | some dp => (claimOf s pc.cmd dp).isSome | none => false
  | none => false
/-- Sends the requests of a piece's read-around to members, each with an S16K buffer of its own (R92, R260). -/
def askMembers (p : Nat) (ms : List Nat) (s : State) : State :=
  let pc := pieceAt s p
  match pc.blocks with
  | (_, ck) :: _ =>
    ms.foldl (fun s m =>
      match (match (stripeAt s pc.slot).members[m]? with | some x => x.blk | none => none) with
      | some b =>
        let r := pieceReq p (b / 4096) (b % 4096) pc.row (planeOf ck) (pageOf ck) ((pc.blocks.map fun b => maskOf b.2).foldl (· ||| ·) 0) false s
        addReqBuf r.1 r.2
      | none => s) s
  | [] => s
/-- A missing member of a row can still come back by itself: its frond is absent and not lost, its die is in quarantine, or
the member waits only to be filled after its frond's return, not to be rebuilt (R93; assumption 132). -/
def returnable (s : State) (slot m row : Nat) : Bool :=
  let st := stripeAt s slot
  let x := st.members.getD m {}
  let g := frondAt s (memberFrond slot m)
  if x.lost || st.lostRows.contains row then false
  else if frondAbsent s (memberFrond slot m) then !(g.state == 4 || ((g.state == 7 || g.state == 9) && g.hidden == 4))
  else match x.blk with
    | some b => (dieAt s (b / 4096)).state == 1 || (x.filling && (tget (0, 0) s.rebuild.of (mKey slot m)).1 == 3)
    | none => false
/-- A row with too many members unavailable: Stripe Members Unavailable while every missing one can return, else Unrecovered
Read Error (R93). -/
def failRow (p : Nat) (s : State) : State :=
  let pc := pieceAt s p
  let gone := (List.range 16).filter fun m => unavailable s pc.slot m pc.row
  if gone.all (fun m => returnable s pc.slot m pc.row) && !(stripeAt s pc.slot).lostRows.contains pc.row then failPiece p 2 s else failPiece p 1 s
/-- Serves a piece by read-around (R91): requests to the member pieces, or a failure under R93. -/
def readAround (p : Nat) (s : State) : State :=
  let pc := pieceAt s p
  match aroundFor s pc with
  | some ms =>
    let s := updPiece p (fun x => { x with route := 3, members := ms, asked := ms }) s
    let s := if (cmdAt s pc.cmd).svc = .bound then updStats (fun x => { x with round := x.round + 1 }) s else s
    askMembers p ms s
  | none => failRow p s
/-- Replaces a member piece that does not come by another member, while the row has tolerance left (R92). -/
def replaceMember (p m : Nat) (s : State) : Option State :=
  let s := updPiece p (fun x => { x with out := x.out ++ [m] }) s
  let pc := pieceAt s p
  (aroundFor s pc).map fun ms =>
    let new := ms.filter fun i => !pc.asked.contains i
    let left := pc.members.filter (fun i => i != m && ms.contains i) ++ new
    let s := askMembers p new (updPiece p (fun x => { x with members := left, asked := x.asked ++ new }) s)
    if left = [] then updSe (cmdAt s pc.cmd).card (· ++ [.reconstruct p]) s else s
/-- The member pieces of a read-around have been consumed: their buffers are free (R260). -/
def freeMembers (p : Nat) (s : State) : State :=
  (s.reqs.filter fun r => r.2.piece == some p).foldl (fun s r => freeReqBuf r.1 s) s
/-- The position that a read-around request reads. -/
def memberOf (s : State) (pc : Piece) (r : Req) : Nat :=
  ((List.range 16).find? fun i => (match (stripeAt s pc.slot).members[i]? with | some x => x.blk | none => none) == some (blkKey r.die r.block)).getD 16
/-- Issues a piece once it has its S16K buffer (R260): from the overlay, from its member, or by read-around. -/
def placePiece (p : Nat) (s : State) : State :=
  let pc := pieceAt s p
  let c := cmdAt s pc.cmd
  match takeBufs c.card 3 1 s with
  | (some (b :: _), s) =>
    let s := updPiece p (fun x => { x with buf := some b, deferredAt := none }) s
    match pc.blocks with
    | (_, ck) :: _ =>
      if inOverlay s ck then
        match sendCopy p s with
        | some s => s
        | none => failPiece p 2 s
      else if unavailable s pc.slot pc.pos pc.row then readAround p s
      else
        match (match (stripeAt s pc.slot).members[pc.pos]? with | some x => x.blk | none => none) with
        | some bk =>
          let dp := (bk / 4096) * 4 + planeOf ck
          -- claimed by read-around at its fetch, or its own plane can no longer be claimed (R47, R92)
          if (claimOf s pc.cmd dp).isNone ∧ c.deadline.isSome ∧ (aroundHeld s pc ∨ (!claimFits s pc.cmd dp ∧ aroundFits s pc)) then readAround p s
          else
            sendPiece p (bk / 4096) (bk % 4096) pc.row (planeOf ck) (pageOf ck)
              ((pc.blocks.map fun b => maskOf b.2).foldl (· ||| ·) 0) false (updPiece p (fun x => { x with route := 1 }) s)
        | none => readAround p s
    | [] => updPiece p (fun x => { x with ready := true }) s
  | (_, s) => updPiece p (fun x => { x with deferredAt := match x.deferredAt with | some f => some f | none => some (now s) }) s
/-- Issues a piece, in its turn where it is of the weighted or background class (R206). -/
def issuePiece (p : Nat) (s : State) : State :=
  let pc := pieceAt s p
  let c := cmdAt s pc.cmd
  if mayGo s c.card c.svc pc.blocks.length then placePiece p s else updPiece p (fun x => { x with turn := true }) s

/-! ### Deficit round robin (R206). -/
/-- What waits for its turn at a Quihar: a read piece, or a codeword of a write. -/
structure Turn where
  slice : Nat := 0
  order : Nat := 0
  n : Nat := 1
  key : Nat := 0
  piece : Bool := false
  deriving DecidableEq, Repr
/-- The waiting pieces and codewords of a class. -/
def turnsOf (s : State) (c : CardId) (v : Svc) : List Turn :=
  ((s.pieces.filter fun p => p.2.turn && decide ((cmdAt s p.2.cmd).card = c) && (cmdAt s p.2.cmd).svc == v).map fun p =>
      { slice := (cmdAt s p.2.cmd).slice, order := (cmdAt s p.2.cmd).order, n := p.2.blocks.length, key := p.1, piece := true })
    ++ (s.cws.filter fun w => w.2.turn && decide (ownerOfNs s w.2.nsid = c) && (cwSvc s w.2).getD .weighted == v).map fun w =>
      { slice := w.2.slice, order := match w.2.cmd with | some k => (cmdAt s k).order | none => 0, key := w.1 }
/-- A slice's deficit at a Quihar. -/
def setDeficit (sl : Nat) (c : CardId) (n : Nat) (s : State) : State := updSlice sl (fun x => { x with deficit := pset x.deficit c n }) s
/-- A waiting piece or codeword has its turn. -/
def goTurn (c : CardId) (t : Turn) (s : State) : State :=
  let s := setDeficit t.slice c (pget (sliceAt s t.slice).deficit c - t.n) s
  if t.piece then placePiece t.key (updPiece t.key (fun x => { x with turn := false }) s) else placeCw t.key s
/-- Deficit round robin over the slices that have waiting work of a class, each with a quantum of WEIGHT × 4 codewords; within
a slice in fetch order (R206). -/
def drrGo (c : CardId) (v : Svc) : Nat → State → State
  | 0, s => s
  | fuel + 1, s =>
    let l := turnsOf s c v
    let cur := (cardAt s c).turnSlice
    let pass := fun (s : State) =>
      match minBy (fun x => if cur < x then x else x + 65536) (l.map (·.slice)) with
      | some x => drrGo c v fuel (setDeficit x c (pget (sliceAt s x).deficit c + 4 * (sliceAt s x).share.weight) (updCard c (fun y => { y with turnSlice := x }) s))
      | none => s
    match minBy (·.order) (l.filter fun t => t.slice == cur) with
    | some t =>
      if pget (sliceAt s cur).deficit c < t.n then pass s
      else if outstanding s c + t.n ≤ 16384 then drrGo c v fuel (goTurn c t s) else s
    | none => pass (setDeficit cur c 0 s)
/-- Waiting weighted codewords of a Quihar go out, then background ones where no weighted one waits (R206). -/
def drrCard (c : CardId) (s : State) : State :=
  let run := fun (v : Svc) (s : State) => if turnWaits s c v then drrGo c v (3 * (turnsOf s c v).length + 3) s else s
  let s := run .weighted s
  if turnWaits s c .weighted then s else run .background s
/-- An outstanding codeword has retired: the next ones are taken (R206). -/
def drr (s : State) : State := drrCard .cb (drrCard .ca s)
/-- Creates the pieces of a command's blocks and issues them. Blocks that read as zeros never touch the medium: they form
one piece of route 0, ready at once and without an S16K buffer (R134, R140). -/
def startRead (k : Nat) (lbas : List Nat) (s : State) : State :=
  let c := cmdAt s k
  let res := lbas.map fun l => (l, resolve s c.e.nsid l)
  let zero := res.filterMap fun r => match r.2 with | none => some r.1 | some _ => none
  let cks := res.filterMap fun r => r.2.map fun ck => (r.1, ck)
  let groups := groupCks (pageKey s) cks
  let s := updCmd k (fun x => { x with st := .reading }) s
  let s := if zero = [] then s
    else
      let (p, s) := fresh s
      updCmd k (fun x => { x with pieces := x.pieces ++ [p] })
        { s with pieces := tins s.pieces p { cmd := k, blocks := zero.map fun l => (l, 0), slot := 475136, ready := true } }
  groups.foldl (fun s g =>
    let (p, s) := fresh s
    let ck := match g with | (_, c) :: _ => c | [] => 0
    let s := { s with pieces := tins s.pieces p { cmd := k, blocks := g, slot := slotOfCk ck, pos := posOfCk ck, row := rowOfCk ck } }
    issuePiece p (updCmd k (fun x => { x with pieces := x.pieces ++ [p] }) s)) s
/-- A range of a zone meets blocks whose write has been assigned and not settled (R134): of a command, or left by one that has
ended and not programmed yet. -/
def unsettledBut (s : State) (k nsid lba nlb : Nat) : Bool :=
  let z := zoneAt s (zoneKey nsid (lba / 1048576))
  let a := lba % 1048576
  (z.openW.any fun w => w.2.2 != k && decide (w.1 < a + nlb ∧ a < w.2.1))
    || (s.cws.any fun c => c.2.nsid == nsid && decide (lba ≤ c.2.lba ∧ c.2.lba < lba + nlb) && !durable c.2
      && (c.2.kind == .fill || (c.2.kind == .data && !openCw s c.2 && decide (z.covered ≤ c.2.lba % 1048576) && (tfind z.pieces (c.2.lba % 1048576)).isNone)))
/-- Pages of the page map that a range of a conventional namespace needs and that are not cached (R151). -/
def missingPages (s : State) (nsid lba nlb : Nat) : List Nat :=
  ((List.range (nlb / 2048 + 2)).map (lba / 2048 + ·)).filter fun p =>
    decide (p * 2048 < lba + nlb) && !(tget {} s.pages (nsid * 2 ^ 29 + p)).cached
/-- A fetched command that its owner has in its order: one fetched through the other card is ordered at its arrival (R138). -/
def arrived (d : Cmd) : Bool := d.st != .fetched || decide (d.card = d.owner)
/-- Zone Resets and Finishes that have not taken effect: they wait, or their row has not come yet. -/
def zoneActs (d : Cmd) : Bool :=
  d.kind == .zoneSend && (d.st == .flushWait || (d.st == .fetched && arrived d && (bits d.e.cdw13.toNat 7 0 == 4 || bits d.e.cdw13.toNat 7 0 == 2)))
/-- Logical blocks that a command reads: its range, or the source ranges of a Copy (R162). -/
def readLbas (c : Cmd) : List Nat :=
  if c.kind = .copy then
    (List.range (bits c.e.cdw12.toNat 7 0 + 1)).flatMap fun i =>
      (List.range (fld c.e.data (32 * i + 16) 2 + 1)).map (fld c.e.data (32 * i + 8) 8 + ·)
  else (List.range c.nlb).map (c.lba + ·)
/-- Ranges that a command reads. -/
def readRanges (c : Cmd) : List (Nat × Nat) :=
  if c.kind = .copy then
    (List.range (bits c.e.cdw12.toNat 7 0 + 1)).map fun i => (fld c.e.data (32 * i + 8) 8, fld c.e.data (32 * i + 16) 2 + 1)
  else [(c.lba, c.nlb)]
/-- A Zone Reset fetched before a read names a zone of it and has not taken effect (R141). -/
def readBehind (s : State) (k : Nat) : Bool :=
  let c := cmdAt s k
  s.cmds.any fun d => zoneActs d.2 && bits d.2.e.cdw13.toNat 7 0 == 4 && d.2.order < c.order && d.2.e.nsid == c.e.nsid
    && (bit d.2.e.cdw13.toNat 8 || (readRanges c).any fun r => decide (r.1 / 1048576 ≤ d.2.lba / 1048576 ∧ d.2.lba / 1048576 ≤ (r.1 + (r.2 - 1)) / 1048576))
/-- Some block that a command reads has been assigned to an earlier command and is not settled (R134), or an earlier Zone Reset
of it waits (R141). -/
def readUnsettled (s : State) (k : Nat) : Bool :=
  let c := cmdAt s k
  ((readRanges c).any fun r => unsettledBut s k c.e.nsid r.1 r.2) || readBehind s k
/-- The three copies of a map page, each on its own frond (R150): die × 4 + plane, block, wordline set. Where a page that has not
been written back lies is free. -/
def pageCopies (s : State) (pk : Nat) : List (Nat × Nat × Nat) :=
  match tfind s.metas.places pk with
  | some l => l
  | none => [0, 5, 11].map fun d => let x := Config.metaPlace pk d; (((pk + d) % 16 * 256 + x % 256) * 4 + x / 256 % 4, x / 1024 % 8, x / 8192 % 1024)
/-- A copy of a map page that can be read. -/
def pageCopy (s : State) (pk : Nat) : Option (Nat × Nat × Nat) :=
  (pageCopies s pk).find? fun x => frondIn s (x.1 / 1024) && (dieAt s (x.1 / 4)).state == 0
/-- A read of a map page is on its way (R151). -/
def pageComes (s : State) (pk : Nat) : Bool :=
  s.reqs.any fun r => r.2.mapPage == some pk && (match r.2.st with | .done | .withdrawn | .notPlaced => false | _ => true)
/-- Sends the SLC plane read of one copy of a map page, at the rank of the command that needs it and with its claim (R47,
R151). -/
def sendPageRead (k pk : Nat) (x : Nat × Nat × Nat) (s : State) : State :=
  let c := cmdAt s k
  let (t, s) := if c.svc = .bound then claimedFrame k x.1 s else (s.time.fc, s)
  addReq { kind := readKind c.svc, owner := c.owner, slice := c.slice, gen := c.gen, die := x.1 / 4, plane := x.1 % 4, block := x.2.1, wl := x.2.2,
           slc := true, mask := 15, target := t, deadline := c.deadline, mapPage := some pk } s
/-- A command waits for a map page; one read serves all that wait (R151). -/
def askPage (k pk : Nat) (s : State) : State :=
  let s := { s with pages := tupd {} s.pages pk (fun m => { m with waiters := m.waiters ++ [k] }) }
  if pageComes s pk then s else match pageCopy s pk with | some x => sendPageRead k pk x s | none => s
/-- Pages that a range uses take their reference bit (R151). -/
def touchPages (nsid lba nlb : Nat) (s : State) : State :=
  { s with pages := s.pages.map fun p => if p.2.cached ∧ p.1 / 2 ^ 29 = nsid ∧ lba / 2048 ≤ p.1 % 2 ^ 29 ∧ p.1 % 2 ^ 29 * 2048 < lba + nlb then (p.1, { p.2 with ref := true }) else p }
/-- A read proceeds: it waits for unsettled blocks or for map pages, else its pieces are issued. -/
def proceedRead (k : Nat) (s : State) : State :=
  let c := cmdAt s k
  let n := nsAt s c.e.nsid
  if n.zoned then
    if readUnsettled s k then updCmd k (fun x => { x with st := .zoneWait, since := now s }) s
    else startRead k (readLbas c) s
  else
    match (readRanges c).flatMap fun r => missingPages s c.e.nsid r.1 r.2 with
    | [] => startRead k (readLbas c) ((readRanges c).foldl (fun s r => touchPages c.e.nsid r.1 r.2 s) s)
    | ps => ps.foldl (fun s p => askPage k (c.e.nsid * 2 ^ 29 + p) s) (updCmd k (fun x => { x with st := .mapWait, since := now s }) s)
/-- Requests that are wanted no more (R42): their slots of a fixed plan stay idle, reads already issued run to their end and
their results are discarded. -/
def dropReqs (sel : Req → Bool) (s : State) : State :=
  let mine := s.reqs.filter fun r => sel r.2
  let runs := fun (r : Req) => match r.st with | .issued | .sensed => true | _ => false
  let gone := (mine.filter fun r => !runs r.2).map (·.1)
  let s := (mine.filter fun r => r.2.st == .planned).foldl (fun s r => updFrond (frondOfDie r.2.die) (fun g =>
    let cut := fun (p : Plan) => if p.reads.contains r.1 then
      { p with reads := p.reads.filter (· ≠ r.1), idle := p.idle ++ [(r.2.die, r.2.plane, r.2.win)] } else p
    { g with cur := cut g.cur, nxt := cut g.nxt }) s) s
  let s := if gone = [] then s
    else { s with fronds := s.fronds.map fun (g : Nat × FrondSt) => (g.1, { g.2 with waiting := g.2.waiting.filter fun n => !gone.contains n }) }
  { s with reqs := (s.reqs.filter fun r => !gone.contains r.1).map fun (r : Nat × Req) =>
      if sel r.2 then (r.1, { r.2 with piece := none, chunk := none, cw := none }) else r }
/-- A command's lock entries are invalidated (R226). -/
def dropLocks (k : Nat) (sp : Spikelet) : Spikelet :=
  let keep := fun (e : Nat × Entry) => !(decide (e.1 < 32768) && e.2.rule == k)
  { sp with ents := sp.ents.filter keep, shadow := sp.shadow.filter keep }
/-- Units of a command and its pieces that wait for a stream engine are not started any more; an engine that kept its scan or
copy is free (R200). -/
def stopUnits (k : Nat) (pieces : List Nat) (s : State) : State :=
  let keep := fun (w : SeWork) => match w with
    | .reconstruct p | .decrypt p => !pieces.contains p
    | .winnow j | .copy j => j != k
    | _ => true
  let s := updSe .ca (·.filter keep) (updSe .cb (·.filter keep) s)
  if s.engines.any fun e => e.2.winnow == some k then
    { s with engines := s.engines.map fun e => (e.1, if e.2.winnow = some k then { e.2 with winnow := none } else e.2) }
  else s
/-- A command that moves data, or a zone action, has left the module's tables: buffers, lock entries, queue of waiters. -/
def dropCmd (k : Nat) (s : State) : State :=
  let c := cmdAt s k
  let s := freeBufs c.owner c.bufs s
  let s := c.pieces.foldl (fun s p => freeMembers p (match (pieceAt s p).buf with | some b => decBuf c.card 3 b 0 s | none => s)) s
  let s := updSp c.owner (dropLocks k) s
  let s := stopUnits k c.pieces s
  let s := dropReqs (fun r => match r.piece with | some p => c.pieces.contains p | none => false) s
  let s := { s with pieces := s.pieces.filter (fun p => p.2.cmd != k), cmds := tdel s.cmds k }
  let s := if c.nlb = 0 then s
    else updZone (zoneKey c.e.nsid (c.lba / 1048576)) (fun z => { z with openW := z.openW.filter (fun w => w.2.2 != k) }) s
  { s with cmds := s.cmds.map fun x => (x.1, { x.2 with after := x.2.after.filter (· ≠ k) }) }
/-- Enters the latest deadline fault's lateness (R58). -/
def lateMiss (k late : Nat) (s : State) : State :=
  { s with misses := s.misses.map fun m => if m.cmd = k then { m with late := late } else m }
/-- Posts a command's completion and drops it. The miss record of a late command takes its lateness; a bound read enters
BOUND_WORST (R53, R58). -/
def complete (k : Nat) (st : Nat × Nat) (dw0 dw1 : Nat) (data : List Byte) (s : State) : State :=
  let c := cmdAt s k
  let st := match c.missed, st with | some 1, (0, 0) => (7, 0x80) | _, x => x
  let s := match c.missed, c.deadline with | some _, some d => lateMiss k (now s - d) s | _, _ => s
  let s := if c.svc = .bound ∧ (c.kind = .read ∨ c.kind = .bulkRead) then
    updStats (fun x => { x with boundWorst := max x.boundWorst (now s - c.rang) }) s else s
  let s := dropCmd k s
  if superseded s c.slice c.gen ∨ c.e.sqid = 0 ∨ c.silent then s
  else post { port := c.e.port, sqid := c.e.sqid, cid := c.e.cid, sct := st.1, sc := st.2, dw0 := dw0, dw1 := dw1, data := data } c.errLba c.e.nsid s

/-! ### Zones (R136–R141). -/
/-- Outcome of an opening (R137). -/
inductive OpenRes where
  | done (s : State)
  | wait (frond : Nat) (s : State)
  | exhausted (dw0 : Nat)
  | tooMany
/-- Blank-checks the next free die-block of every present frond (R80). -/
def checkPicks (cls : Nat) (s : State) : State :=
  ((List.range 16).filter (frondIn s)).foldl (fun s f => (drawBlock f cls 64 s).2) s
/-- Present fronds that lack a free die-block. -/
def lacking (s : State) (cls : Nat) : List Nat :=
  ((List.range 16).filter (frondIn s)).filter fun f => match pickBlock s f cls with | some b => !blankOk s b | none => true
/-- A long operation that erases, of a die. -/
def erasesOf (d : Die) : List LongOp := (d.op.toList ++ d.opQ).filter fun o => o.kind == .erase
/-- A die-block of the frond is dirty or erasing (R137). -/
def erasable (s : State) (f : Nat) : Bool :=
  !(frondAt s f).dirty.isEmpty || s.dies.any fun d => frondOfDie d.1 == f && ((erasesOf d.2).any (fun _ => true) || d.2.unwiped.isSome)
/-- An erase that a command waits for runs at rank 2 (R137). -/
def firstRank2 : List LongOp → List LongOp
  | [] => []
  | o :: r => if o.kind = .erase then { o with rank := min o.rank 2 } :: r else o :: firstRank2 r
/-- The frond's next erase is placed at rank 2 (R137): the started one, else the first waiting one; a dirty block that no
intent names yet is raised by the retry that follows its record. -/
def raiseErase (f : Nat) (s : State) : State :=
  let mine := s.dies.filter fun d => frondOfDie d.1 == f && (erasesOf d.2).any fun _ => true
  if mine.any (fun d => (erasesOf d.2).any fun o => decide (o.rank ≤ 2)) then s
  else
    let started := mine.find? fun d => match d.2.op with | some o => o.kind == .erase | none => false
    match (match started with | some d => some d | none => mine.head?) with
    | some d => updDie d.1 (fun x => match x.op with
        | some o => if o.kind = .erase then { x with op := some { o with rank := min o.rank 2 } } else { x with opQ := firstRank2 x.opQ }
        | none => { x with opQ := firstRank2 x.opQ }) s
    | none => s
/-- Allocates a stripe: the slot, a die-block on each present frond, a pending member on each absent one (R94, R137). -/
def allocStripe (slot nsid : Nat) (zone : Option Nat) (cls : Nat) (s : State) : State :=
  let p := (nsAt s nsid).profile
  let s0 := s
  let s := updStripe slot (fun x => { used := true, profile := p, gen := (x.gen + 1) % 2 ^ 32, nsid := nsid, zone := zone, allocSeq := seqNow s, cls := cls }) s
  let s := (List.range 16).foldl (fun s m =>
    let f := memberFrond slot m
    match (if frondIn s f then pickBlock s f cls else none) with
    | some b =>
      updStripe slot (fun x => { x with members := x.members ++ [{ blk := some b }] })
        (updBlk b (fun y => { y with state := 4, member := some (mKey slot m), retried := false }) s)
    | none => updStripe slot (fun x => { x with members := x.members ++ [{}] }) s) s
  healthRise s0 (updPair (fun x => { x with lastBase := slot % 16 }) s)
/-- Finds the slot and die-blocks of an opening (R137): it waits while every frond that lacks a block has one dirty or
erasing, whose erase it raises. -/
def tryAlloc (nsid : Nat) (zone : Option Nat) (cls : Nat) (reserved : Bool) (s : State) : OpenRes :=
  let s := checkPicks cls s
  match lacking s cls with
  | f :: r =>
    match (f :: r).find? fun x => !erasable s x with
    | some x => .exhausted x
    | none => .wait f ((f :: r).foldl (fun s x => raiseErase x s) s)
  | [] =>
    if !reserved ∧ freeSlots s = 0 then .exhausted 16
    else match nextSlotFree s with
      | none => .exhausted 16
      | some slot => .done (allocStripe slot nsid zone cls s)
/-- Opens a zone (R137): implicitly or explicitly. The journal record of kind 2 is queued with the state before. -/
def openZone (nsid z cls : Nat) (expl : Bool) (cmd : Option Nat) (s : State) : OpenRes :=
  if 16384 ≤ activeCount s then .tooMany
  else
    match tryAlloc nsid (some z) cls false s with
    | .done s' =>
      let zk := zoneKey nsid z
      let old := zoneAt s zk
      let slot := (s'.stripes.find? fun x => x.2.used && x.2.nsid == nsid && x.2.zone == some z).map (·.1)
      let s' := updZone zk (fun _ => { st := if expl then .explOpen else .implOpen, slot := slot, cls := cls }) s'
      let r : JRec := { kind := 2, nsid := nsid, lba := z * 1048576, slot := slot.getD 0, offset := cls, cmd := cmd, undo := some (zk, old) }
      .done (mirror (ownerOfNs s nsid) [] (journal (ownerOfNs s nsid) r s'))
    | x => x
/-- Zone Reset of a zone that the table of R136 allows to be reset (R141): the zone is Empty for every later command; its
copies and slot are released once the record of kind 4 is programmed, and the zone returns if the record is cut. -/
def zoneResetNow (nsid z : Nat) (cmd : Option Nat) (s : State) : State :=
  let zk := zoneKey nsid z
  let old := zoneAt s zk
  journal (ownerOfNs s nsid) { kind := 4, nsid := nsid, lba := z * 1048576, slot := old.slot.getD 0, cmd := cmd, undo := some (zk, old) }
    { s with zones := tdel s.zones zk }
/-! ### Parity and chunks (R114–R118, R139). -/
/-- Sends the final parity codewords of chosen parities of a row; those already sent stay. -/
def sendParity (slot row : Nat) (qs : List Nat) (s : State) : State :=
  let st := stripeAt s slot
  let a := accumAt s slot
  qs.foldl (fun s q => (List.range 64).foldl (fun s o =>
    let ck := cKey slot (dataOf st.profile + q) row o
    if (tfind s.cws ck).isSome then s
    else sendCw ck { s with cws := tins s.cws ck { kind := .parity, data := tget [] a.acc (o * 4 + q), nsid := st.nsid, encrypted := true } }) s) s
/-- A data codeword position at or above the finish point of its zone: padding, generated inside Filnas (R139). -/
def padding (s : State) (ck : Nat) : Bool :=
  let st := stripeAt s (slotOfCk ck)
  match st.finishRow, st.zone with
  | some _, some z => decide (posOfCk ck < dataOf st.profile) && decide ((zoneAt s (zoneKey st.nsid z)).wp ≤ offOfCk st.profile ck)
  | _, _ => false
/-- A codeword of a chunk counts as programmed: three copies, or padding of a stripe or of a finished zone (R118). -/
def cwReady (s : State) (ck : Nat) : Bool :=
  match tfind s.cws ck with
  | some cw => (cw.kind == .padding && cw.encrypted) || durable cw
  | none => padding s ck
def chunkReady (s : State) (h : Nat) : Bool := (List.range 64).all fun k => cwReady s (h * 64 + k)
/-- A chunk whose 64 codewords are ready is held for its fold (R118). -/
def chunkCheck (h : Nat) (s : State) : State :=
  let m := (stripeAt s (slotOfH h)).members.getD (posOfH h) {}
  if (chunkAt s h).st = .filling ∧ m.verified ≤ h % 1024 ∧ chunkReady s h then
    updChunk h (fun c => { c with st := .held, readyFc := s.time.fc }) s
  else s
/-- The open row of a stripe with a finish point ends once none of its codewords waits for a stream engine: its parity goes
to the seedbed and the accumulator is released (step 1 of R139). -/
def rowClose (slot : Nat) (s : State) : State :=
  let st := stripeAt s slot
  let a := accumAt s slot
  if st.finishRow.isNone || (tfind s.accums slot).isNone || a.lost || s.cws.any (fun c => slotOfCk c.1 == slot && !c.2.encrypted) then s
  else dropAccum slot (if 0 < a.count then sendParity slot a.row (List.range (16 - dataOf st.profile)) s else s)
/-- A stripe gets its finish point: the open row ends, its chunks may be ready, no hold applies any more (steps 1 and 2 of
R139). -/
def endRows (slot wp : Nat) (s : State) : State :=
  let st := stripeAt s slot
  let s := updStripe slot (fun x => { x with finishRow := some (rowEnd x wp) })
    { s with chunks := s.chunks.map fun c => if slotOfH c.1 = slot ∧ c.2.st = .held then (c.1, { c.2 with readyFc := 0 }) else c }
  let s := rowClose slot s
  if wp = 0 then s else (List.range 16).foldl (fun s m => chunkCheck (hKey slot m (rowEnd st wp - 1)) s) s
/-- Padding of a finished zone (R139): the open row ends, wordline sets above the last row with data are padded. -/
def finishStripe (slot wp : Nat) (s : State) : State :=
  let st := stripeAt s slot
  let s := endRows slot wp s
  if 1024 ≤ rowEnd st wp then s
  else st.members.foldl (fun s m =>
    match m.blk with
    | some b => queueOp b { kind := .pad, chunk := slot * 16384 + rowEnd st wp, ready := false } s
    | none => s) s
/-- Zone Finish (R139): the record of kind 3; the zone is Full once it is programmed. -/
def finishZone (nsid z : Nat) (cmd : Option Nat) (s : State) : State :=
  let zk := zoneKey nsid z
  let old := zoneAt s zk
  let row := match old.slot with | some slot => min 1023 (old.wp / (64 * dataOf (stripeAt s slot).profile)) | none => 0
  journal (ownerOfNs s nsid) { kind := 3, nsid := nsid, lba := z * 1048576, slot := row, cmd := cmd, undo := some (zk, old) } s
/-- The record of a Zone Finish is programmed: the zone is Full, its padding begins (R139). A zone that a reset has emptied
meanwhile stays Empty. -/
def finishDone (zk : Nat) (old : Zone) (s : State) : State :=
  let z := zoneAt s zk
  if (zActive z.st && z.slot == old.slot) || (z.st == .empty && old.slot.isNone) || (zActive z.st && old.slot.isNone) then
    let s := match z.slot with | some slot => finishStripe slot z.wp s | none => s
    updZone zk (fun x => { x with st := .full, finish := some x.wp }) s
  else s
/-- A zone becomes Read Only (R144): its open row's parity goes to the seedbed (step 1 of R139), it is listed and
notified. -/
def zoneReadOnly (nsid z : Nat) (s : State) : State :=
  let k := zoneKey nsid z
  let zo := zoneAt s k
  if zActive zo.st || zo.st == .full then
    let s := updZone k (fun x => { x with st := .readOnly, finish := if zActive x.st then some x.wp else x.finish }) s
    let s := match zo.slot with
      | some slot => if zActive zo.st then endRows slot zo.wp s else s
      | none => s
    let s := journal (ownerOfNs s nsid) { kind := 5, nsid := nsid, lba := z * 1048576, undo := some (k, zo) } s
    zoneNotice nsid z (event 0x206 1 (srcQ s.time.master) (obj 6 (nsid * 2 ^ 32 + z)) 5 0 0 s)
  else s
/-- The zone of a stripe goes Read Only; a conventional stripe only stays degraded. -/
def stripeReadOnly (slot : Nat) (s : State) : State :=
  let st := stripeAt s slot
  match st.zone with | some z => zoneReadOnly st.nsid z s | none => s
/-- Rows of a stripe are lost for good (R93, R106): LOST_COUNT and LOST, event 0x0203, zone Read Only. -/
def rowsLost (slot : Nat) (rows : List Nat) (s : State) : State :=
  let st := stripeAt s slot
  let new := rows.filter fun r => !st.lostRows.contains r
  if new = [] then s
  else
    let s := updStripe slot (fun x => { x with lostRows := x.lostRows ++ new }) s
    let s := if st.lostRows = [] then updRebuild (fun r => { r with
        lostCount := r.lostCount + 1,
        lost := if r.lost.contains slot ∨ r.lost.length ≥ 879 then r.lost else insertBy (fun a b => a < b) slot r.lost }) s else s
    stripeReadOnly slot (aenPage 0xC3 (event 0x203 2 (srcQ s.time.master) (obj 5 slot) 0 new.length 0 s))
/-- Zone Close (R136): accumulator and reservation kept. -/
def closeZone (nsid z : Nat) (cmd : Option Nat) (s : State) : State :=
  let zk := zoneKey nsid z
  let old := zoneAt s zk
  journal (ownerOfNs s nsid) { kind := 8, nsid := nsid, lba := z * 1048576, cmd := cmd, undo := some (zk, old) }
    (updZone zk (fun x => { x with st := .closed }) s)
/-- The module closes the opened zones that a selection names, each with its journal record (R136, R143, R152). -/
def closeZones (sel : Nat → Bool) (cmd : Option Nat) (s : State) : State :=
  (s.zones.filter fun z => sel (z.1 / 2 ^ 21) && (z.2.st == .implOpen || z.2.st == .explOpen)).foldl (fun s z =>
    closeZone (z.1 / 2 ^ 21) (z.1 % 2 ^ 21) cmd s) s
/-- Zone Offline (R144): slot and surviving members are released once the record of kind 6 is programmed. -/
def offlineZone (nsid z : Nat) (cmd : Option Nat) (s : State) : State :=
  let zk := zoneKey nsid z
  let old := zoneAt s zk
  journal (ownerOfNs s nsid) { kind := 6, nsid := nsid, lba := z * 1048576, slot := old.slot.getD 0, cmd := cmd, undo := some (zk, old) }
    (updZone zk (fun x => { x with st := .offline, slot := none, wp := 0 }) s)
/-- Erases the zones, or clears the map, of a namespace; the release of each of its stripes is journaled, and takes effect with its
record (R152, R198, R464). -/
def eraseNs (nsid : Nat) (cmd : Option Nat) (s : State) : State :=
  let n := nsAt s nsid
  if n.zoned then
    (s.zones.filter fun z => z.1 / 2 ^ 21 == nsid && z.2.st != .offline && z.2.st != .empty).foldl (fun s z =>
      zoneResetNow nsid (z.1 % 2 ^ 21) cmd s) s
  else
    let s := n.slots.foldl (fun s slot => journal (ownerOfNs s nsid) { kind := 7, nsid := nsid, slot := slot, cmd := cmd } s) s
    updNs nsid (fun x => { x with slots := [], head := none, gcHead := none, victim := none, gcFreed := 0 }) s

/-! ### What waits for earlier commands (R176, R187, R141). -/
/-- The structure of Zone Digest (R187): WP is the end of the blocks that DIGEST covers, in a Full zone its end. -/
def zStateCode : ZState → Nat | .empty => 1 | .implOpen => 2 | .explOpen => 3 | .closed => 4 | .readOnly => 13 | .full => 14 | .offline => 15
def digestData (s : State) (nsid z : Nat) : List Byte :=
  let x := zoneAt s (zoneKey nsid z)
  le 8 x.digest.toNat ++ le 8 (z * 1048576 + (if x.st = .full then (if x.slot.isSome then x.wp else 0) else x.covered)) ++ [BitVec.ofNat 8 (zStateCode x.st)] ++ zeros 7 ++ le 8 s.time.fc
/-- A namespace enters the Changed Namespace List of a controller; the first entry is notified (R164, R198). -/
def nsChanged (p : Port) (nsid : Nat) (s : State) : State :=
  let l := (ctrlAt s p).changedNs
  if l.contains nsid then s
  else
    let s := updCtrl p (fun c => { c with changedNs := l ++ [nsid] }) s
    if l = [] then aenPort p 2 0 4 s else s
/-- The controllers that a namespace is attached to are told of a change. -/
def nsNotice (nsid : Nat) (s : State) : State :=
  let n := nsAt s nsid
  let s := if n.att.a then nsChanged .h0 nsid s else s
  if n.att.b then nsChanged .h1 nsid s else s
/-- Removes a namespace whose last fetched command has completed (R165). -/
def removeNs (nsid : Nat) (s : State) : State :=
  let s := (s.stripes.filter fun x => x.2.used && x.2.nsid == nsid).foldl (fun s x => freeStripe x.1 s) s
  let s := nsNotice nsid s
  let s := match (nsAt s nsid).slice with | some sl => updSlice sl (fun x => { x with saveFresh := false }) s | none => s
  { s with nss := tdel s.nss nsid, map := s.map.filter (fun m => m.1 / 2 ^ 41 != nsid), zones := s.zones.filter (fun z => z.1 / 2 ^ 21 != nsid), pages := s.pages.filter (fun p => p.1 / 2 ^ 29 != nsid) }
/-- A media request of a slice that is at a frond, or whose data is on its way (R200, R209). -/
def sliceReq (sl : Nat) (r : Req) : Bool := r.slice == sl && (match r.st with | .done | .withdrawn | .notPlaced => false | _ => true)
/-- No request and no completion of a slice remains: no command, no read of one that has ended, no fill codeword (R200, R201,
R209). -/
def quiet (s : State) (sl : Nat) : Bool :=
  !(s.cmds.any fun c => c.2.slice == sl) && !(s.reqs.any fun r => sliceReq sl r.2)
    && !(s.zones.any fun z => z.2.fills != 0 && (nsAt s (z.1 / 2 ^ 21)).slice == some sl)
/-- Zones of a namespace in one of the states named, by index. -/
def zonesIn (s : State) (nsid : Nat) (ok : ZState → Bool) : List Nat :=
  (s.zones.filter fun z => z.1 / 2 ^ 21 == nsid && ok z.2.st).map (·.1 % 2 ^ 21)
/-- Zones that a Zone Management Send acts on: the one named, or with Select All those in the states it allows (R162). -/
def zoneTargets (s : State) (c : Cmd) (ok : ZState → Bool) : List Nat :=
  if bit c.e.cdw13.toNat 8 then zonesIn s c.e.nsid ok else [c.lba / 1048576]
/-- Runs a zone action on its zones; the command completes with the last of their journal records (R136, R152). -/
def zoneAct (k : Nat) (zs : List Nat) (f : Nat → State → State) (s : State) : State :=
  if zs = [] then complete k (0, 0) 0 0 [] s
  else zs.foldl (fun s z => f z s) (updCmd k (fun x => { x with st := .journal, recs := x.recs + zs.length }) s)
/-- States from which Zone Reset resets (R136). -/
def resettable : ZState → Bool | .implOpen | .explOpen | .closed | .full => true | _ => false
/-- A Zone Reset takes effect (R141). -/
def zoneResetCmd (k : Nat) (s : State) : State :=
  let c := cmdAt s k
  zoneAct k ((zoneTargets s c resettable).filter fun z => resettable (zoneAt s (zoneKey c.e.nsid z)).st)
    (fun z s => zoneResetNow c.e.nsid z (some k) s) s
/-- Zone Finish of the zones named, Full zones aside (R136, R139). -/
def finishable : ZState → Bool | .implOpen | .explOpen | .closed => true | _ => false
def zoneFinishCmd (k : Nat) (s : State) : State :=
  let c := cmdAt s k
  zoneAct k ((zoneTargets s c finishable).filter fun z => (zoneAt s (zoneKey c.e.nsid z)).st != .full)
    (fun z s => finishZone c.e.nsid z (some k) s) s
/-- After a command has gone: waiters whose last predecessor it was proceed. -/
def wake (s : State) : State :=
  let s := (s.cmds.filter fun c => c.2.st == .flushWait && c.2.after.isEmpty).foldl (fun s c =>
    match c.2.kind with
    | .flush => complete c.1 (0, 0) 0 0 [] s
    | .digest => complete c.1 (0, 0) 0 0 (digestData s c.2.e.nsid (c.2.lba / 1048576)) s
    | .zoneSend => if bits c.2.e.cdw13.toNat 7 0 = 2 then zoneFinishCmd c.1 s else zoneResetCmd c.1 s
    | _ => s) s
  let s := (s.cmds.filter fun c => c.2.st == .zoneWait && !readUnsettled s c.1).foldl (fun s c => proceedRead c.1 s) s
  let s := s.nss.foldl (fun s n =>
    match n.2.deleting with
    | some (p, cid) =>
      if s.cmds.any (fun c => c.2.e.nsid == n.1) then s
      else if cid = 65537 then removeNs n.1 s
      else finishChange { port := p, cid := cid, opc := 0x0D, nsid := n.1 } 1 (0, 0) 0 0 [] (removeNs n.1 s)
    | none => s) s
  s.slices.foldl (fun s x =>
    match x.2.waiter with
    | some (p, cid, opc) =>
      if quiet s x.1 then
        ok { port := p, cid := cid, opc := BitVec.ofNat 8 opc } (updSlice x.1 (fun y => { y with waiter := none }) s)
      else s
    | none => s) s
/-- Completes a command and lets its waiters proceed. -/
def finishCmd (k : Nat) (st : Nat × Nat) (dw0 dw1 : Nat) (data : List Byte) (s : State) : State := wake (complete k st dw0 dw1 data s)
/-- Drops a command without completion; waiters proceed. -/
def discard (k : Nat) (s : State) : State := wake (dropCmd k s)

/-! ### Writes (R112, R136, R147, R152). -/
/-- A write's last record or acknowledgement has come: it completes. -/
def endWrite (k : Nat) (s : State) : State :=
  let c := cmdAt s k
  match c.status with
  | some st => finishCmd k st c.dw0 c.dw1 [] s
  | none => finishCmd k (0, 0) c.dw0 c.dw1 [] s
/-- The mirror acknowledgement still outstanding (R286). -/
def unackedOf (s : State) (k : Nat) : Bool :=
  let c := cmdAt s k
  match c.tied with | some m => (cardAt s c.owner).unacked.any (fun r => r.msn == m) | none => false
/-- Runs of codewords at consecutive offsets of one stripe, at most 1,024 long: first key and length (R147, R152). -/
def cwRuns (p : Profile) : List Nat → List (Nat × Nat)
  | [] => []
  | ck :: r => match cwRuns p r with
    | (b, n) :: q =>
      if slotOfCk ck = slotOfCk b ∧ offOfCk p ck + 1 = offOfCk p b ∧ n < 1024 then (ck, n + 1) :: q else (ck, 1) :: (b, n) :: q
    | [] => [(ck, 1)]
/-- Every codeword of a write has three programmed copies (R112): zone pointers and digest are mirrored, conventional
records are packed. -/
def writeDurable (k : Nat) (s : State) : State :=
  let c := cmdAt s k
  let n := nsAt s c.e.nsid
  if n.zoned then
    let zk := zoneKey c.e.nsid (c.lba / 1048576)
    let z := zoneAt s zk
    let s := match z.slot with
      | some slot => updZone zk (fun z => (List.range c.nlb).foldl (fun z i =>
          addPiece (c.lba % 1048576 + i) (cwAt s (ckOf n.profile slot (c.lba % 1048576 + i))).data z) z) s
      | none => s
    let s := mirror c.owner [k] s
    if unackedOf s k then updCmd k (fun x => { x with st := .ackWait }) s
    else if 0 < c.recs then updCmd k (fun x => { x with st := .journal }) s
    else endWrite k s
  else
    let runs := cwRuns n.profile c.cws
    let s := updCmd k (fun x => { x with st := .journal, recs := x.recs + runs.length }) s
    (runs.foldl (fun (a : Nat × State) r =>
      (a.1 + r.2, journal c.owner { kind := 1, nsid := c.e.nsid, lba := a.1, slot := slotOfCk r.1, offset := offOfCk n.profile r.1,
                                    count := r.2, cmd := some k } a.2)) (c.lba, s)).2
/-- Takes codewords out of the fronds' packing queues. -/
def dropPack (cks : List Nat) (s : State) : State :=
  if cks = [] then s
  else (List.range 16).foldl (fun s f => updFrond f (fun g => { g with pack := g.pack.filter fun i => !cks.contains i.cw }) s) s
/-- The ciphertext and protection information of a codeword, as parity covers it; padding contributes zeros. -/
def cwBytes (cw : Cw) : List Byte :=
  if cw.kind = .padding then [] else Config.xts cw.key cw.nsid cw.lba (fitTo 4096 cw.data) ++ cw.pi
/-- Accumulates a codeword into the parities of its row. -/
def accum1 (p : Profile) (ck : Nat) (cw : Cw) (t : Tbl (List Byte)) : Tbl (List Byte) :=
  (List.range (16 - dataOf p)).foldl (fun t q => tupd [] t (ck % 64 * 4 + q) (fun acc => accumulate (profNo p) q (posOfCk ck) acc (cwBytes cw))) t
/-- A codeword has left a stream engine and none of its copies is in a plan or a program. -/
def unplanned (s : State) (ck : Nat) : Bool :=
  let w := cwAt s ck
  let packed := (List.range 16).foldl (fun a f => a + ((frondAt s f).pack.filter fun i => i.cw == ck).length) 0
  w.encrypted && !w.folded && w.copies.length == packed
/-- A codeword is written again in another form: what is packed or programmed of it is dead. -/
def writeAnew (ck : Nat) (w : Cw) (s : State) : State :=
  let s := (cwAt s ck).copies.foldl (fun s l => releaseCopy l s) (dropPack [ck] s)
  let s := { s with progs := s.progs.map fun (q : Nat × Prog) => (q.1, { q.2 with cws := q.2.cws.filter fun x => x.1 != ck }) }
  let s := updChunk (hOfCk ck) (fun c => { c with st := .filling }) { s with cws := tins s.cws ck { w with copies := [], waiting := 0, cut := 0 } }
  sendCw ck s
/-- Parity codewords of a data codeword's row that have been sent. -/
def sentParity (s : State) (ck : Nat) : List (Nat × Nat) :=
  let d := dataOf (stripeAt s (slotOfCk ck)).profile
  ((List.range (16 - d)).map fun q => (q, cKey (slotOfCk ck) (d + q) (rowOfCk ck) (ck % 64))).filter fun x => (tfind s.cws x.2).isSome
/-- The row's parity can still change: no sent parity codeword of it is on its way into its member (assumption 100). -/
def parityOpen (s : State) (ck : Nat) : Bool :=
  (sentParity s ck).all fun x => !(cwAt s x.2).folded && (match (chunkAt s (hOfCk x.2)).st with | .filling | .held => true | _ => false)
/-- The parity that a row has sent is written again with the new contents of one of its data codewords. -/
def reparity (ck : Nat) (old new : Cw) (s : State) : State :=
  let p := (stripeAt s (slotOfCk ck)).profile
  (sentParity s ck).foldl (fun s x =>
    let w := cwAt s x.2
    let acc := accumulate (profNo p) x.1 (posOfCk ck)
    writeAnew x.2 { w with data := acc (acc w.data (cwBytes old)) (cwBytes new) } s) s
/-- A fill codeword, or padding of a conventional stripe, takes the place of a codeword whose row's parity has been sent. -/
def putPadding (ck : Nat) (s : State) : State :=
  let w := cwAt s ck
  let n := nsAt s w.nsid
  let slot := slotOfCk ck
  let p := (stripeAt s slot).profile
  let a := accumAt s slot
  let new : Cw := if n.zoned then { kind := .fill, data := zeros 4096, pi := fillPi n.fmt1, key := w.key, nsid := w.nsid, lba := w.lba, encrypted := true }
    else { kind := .padding, nsid := w.nsid, encrypted := true }
  let s := if a.row == rowOfCk ck && !a.lost then updAccum slot (fun a => { a with acc := accum1 p ck new (accum1 p ck w a.acc) }) s else s
  let s := reparity ck w new (dropPack [ck] s)
  if n.zoned then writeAnew ck new (updZone (zoneKey w.nsid (w.lba / 1048576)) (fun z => { z with fills := z.fills + 1 }) s)
  else chunkCheck (hOfCk ck) { s with cws := tins s.cws ck new }
/-- Such a codeword is dropped (R111): where the parity of its row is still open it leaves the accumulator again; where parity of
the row has been sent, padding takes its place and the parity is written again (assumption 100). -/
def takeBack (ck : Nat) (s : State) : State :=
  let slot := slotOfCk ck
  let p := (stripeAt s slot).profile
  let a := accumAt s slot
  let final := a.row != rowOfCk ck || a.lost || (p == .l12 && decide (posOfCk ck < 6) && decide (384 ≤ a.count))
  if !unplanned s ck then s
  else if final then (if parityOpen s ck then putPadding ck s else s)
  else
    let s := updAccum slot (fun a => { a with count := a.count - 1, acc := accum1 p ck (cwAt s ck) a.acc }) s
    updCw ck (fun w => { w with encrypted := false, copies := [], waiting := 0 }) (dropPack [ck] s)
/-- The blocks of a command whose codewords do not stay become fill codewords of its zone (R176, R202), or padding of its
conventional stripe; the others go on to the medium. -/
def settleBy (stays : Cw → Bool) (k : Nat) (s : State) : State :=
  let c := cmdAt s k
  let n := nsAt s c.e.nsid
  let has := fun ck => stays (cwAt s ck)
  let keep := fun (s : State) => { s with cws := s.cws.map fun x => if x.2.cmd = some k ∧ stays x.2 then (x.1, { x.2 with slice := 0 }) else x }
  let se := fun (s : State) (l : List SeWork) => l.filter (fun w => match w with | .encrypt ck => (tfind s.cws ck).isSome | _ => true)
  let z := c.lba / 1048576
  let zo := zoneAt s (zoneKey c.e.nsid z)
  if n.zoned then
    match zo.slot with
    | some slot =>
      if zo.openW.any fun w => w.2.2 == k then
        let fill := ((List.range c.nlb).map (c.lba % 1048576 + ·)).filter fun b => !has (ckOf n.profile slot b)
        let s := dropPack (fill.map (ckOf n.profile slot)) s
        let s := keep { s with cws := s.cws.filter (fun x => !(x.2.cmd == some k && !stays x.2)) }
        let s := updSe .ca (se s) (updSe .cb (se s) s)
        -- what has three copies already enters the digest now (R276)
        let s := updZone (zoneKey c.e.nsid z) (fun zo => (List.range c.nlb).foldl (fun zo i =>
          let b := c.lba % 1048576 + i
          let ck := ckOf n.profile slot b
          if has ck ∧ durable (cwAt s ck) ∧ zo.covered ≤ b ∧ (tfind zo.pieces b).isNone then addPiece b (cwAt s ck).data zo else zo) zo) s
        fillBlocks c.e.nsid z fill s
      else s
    | none => s
  else
    let pad := c.cws.filter fun ck => !has ck
    let s := keep (dropPack pad s)
    pad.foldl (fun s ck =>
      let work := (seAt s c.owner).any fun w => decide (w = .encrypt ck)
      let s := { s with cws := tins s.cws ck { kind := .padding, nsid := c.e.nsid } }
      if work then s else updSe c.owner (· ++ [.encrypt ck]) s) s
/-- A dropped write is settled (R111, R162, R176, R201): its codewords in a plan or a program stay, the others are taken back from
the parity; what cannot be taken back stays too (assumptions 25, 100). -/
def settleWrite (k : Nat) (s : State) : State :=
  settleBy (·.encrypted) k ((cmdAt s k).cws.foldl (fun s ck => if (cwAt s ck).cmd = some k then takeBack ck s else s) s)
/-- Fails a command that may hold assigned blocks: these become fill codewords and the failure is posted (R124, R148). -/
def failCmd (k : Nat) (st : Nat × Nat) (dw0 dw1 : Nat) (s : State) : State :=
  finishCmd k st dw0 dw1 [] (settleWrite k (updCmd k (fun x => { x with missed := none, errLba := x.lba }) s))

/-! ### Conventional stripes (R147, R148). -/
/-- Free stripes F of a conventional namespace (R148). -/
def freeStripes (s : State) (nsid : Nat) : Nat :=
  let n := nsAt s nsid
  n.resv - n.deficit - n.slots.length
/-- Opens the next head stripe of a conventional namespace: host head or garbage-collection head (R147). -/
def openHead (nsid cls : Nat) (gc : Bool) (s : State) : OpenRes :=
  if freeStripes s nsid = 0 then .exhausted 16
  else match tryAlloc nsid none cls true s with
    | .done s' =>
      let slot := s'.stripes.find? fun x => x.2.used && x.2.nsid == nsid && x.2.zone == none && !((nsAt s nsid).slots.contains x.1)
      match slot with
      | some x => .done (updNs nsid (fun n => { n with
          slots := n.slots ++ [x.1],
          head := if gc then n.head else some x.1, gcHead := if gc then some x.1 else n.gcHead }) s')
      | none => .exhausted 16
    | x => x
/-- Takes the next n offsets of a head stripe, opening stripes as they fill; answers the codeword keys (R147). -/
def takeOffsets (nsid cls : Nat) (gc : Bool) : Nat → List Nat → State → List Nat × Option Nat × State
  | 0, acc, s => (acc, none, s)
  | n + 1, acc, s =>
    let ns := nsAt s nsid
    let use := fun (slot : Nat) (s : State) =>
      let st := stripeAt s slot
      let s := updStripe slot (fun x => { x with next := x.next + 1, closed := decide (x.next + 1 ≥ capOf x.profile) }) s
      let s := if st.next + 1 ≥ capOf st.profile then updNs nsid (fun x => if gc then { x with gcHead := none } else { x with head := none }) s else s
      (ckOf st.profile slot st.next, s)
    match (if gc then ns.gcHead else ns.head) with
    | some slot => let (ck, s) := use slot s; takeOffsets nsid cls gc n (acc ++ [ck]) s
    | none =>
      match openHead nsid cls gc s with
      | .done s =>
        let ns := nsAt s nsid
        (match (if gc then ns.gcHead else ns.head) with
         | some slot => let (ck, s) := use slot s; takeOffsets nsid cls gc n (acc ++ [ck]) s
         | none => (acc, some 16, s))
      | .wait f _ => (acc, some f, s)
      | .exhausted f => (acc, some f, s)
      | .tooMany => (acc, some 16, s)

/-- Frond mask of the members of a row that are unavailable (R177, 0x8A). -/
def frondMask (s : State) (slot row : Nat) : Nat :=
  (((List.range 16).filter fun m => unavailable s slot m row).map fun m => 2 ^ memberFrond slot m).foldl (· ||| ·) 0
/-- Every block of a scan before its end has been gathered. -/
def scanReady (s : State) (k : Nat) : Bool :=
  let c := cmdAt s k
  !(c.pieces.any fun p => let x := pieceAt s p; !x.delivered && x.blocks.any fun b => decide (b.1 < c.lba + c.nlb))
/-- A scan whose blocks have been gathered waits for a stream engine (R240). -/
def startScan (k : Nat) (s : State) : State :=
  let c := cmdAt s k
  if c.st = .reading ∧ scanReady s k then updSe c.card (· ++ [.winnow k]) (updCmd k (fun x => { x with st := .winnow }) s) else s
/-- Commands with a failed piece end (R72, R93): Unrecovered Read Error, or Stripe Members Unavailable. A Winnow Read ends
before the failed row once its output so far has moved (R445 J); a garbage-collection copy runs again later (R149). -/
def settleFailed (s : State) : State :=
  (s.pieces.filter fun p => p.2.fail != 0 && !p.2.delivered).foldl (fun s p =>
    if (tfind s.cmds p.2.cmd).isSome then
      let k := p.2.cmd
      let c := cmdAt s k
      let lba := match p.2.blocks with | (l, _) :: _ => l | [] => 0
      let st := if p.2.fail = 2 then (7, 0x8A) else (2, 0x81)
      let dw := if p.2.fail = 2 then frondMask s p.2.slot p.2.row else 0
      let s := updCmd k (fun c => { c with errLba := lba }) s
      if c.e.sqid = 0 then discard k (updNs c.e.nsid (fun n => { n with victim := none }) s)
      else if c.kind = .winnow then
        if lba < c.lba + c.nlb then
          startScan k (updCmd k (fun x => { x with nlb := lba - x.lba, status := some st, dw0 := dw }) s)
        else s
      else if c.kind = .copy then finishCmd k st dw 0 [] (settleWrite k s)
      else finishCmd k st dw 0 [] s
    else s) s

end Sys2Proof.Machine
end

