-- ==== Sys2Proof/Machine/Operands.lean ====
section
/-! DEFINITION. Operand forms of the I/O commands: block ranges, transfer lengths, protection information, copy and
deallocate ranges, zone actions (R159–R162, R166, R185), and the covers that range locks take (R225). -/
namespace Sys2Proof.Machine
open Sys2Proof

/-- SLBA of CDW10–CDW11. -/
def slba (e : Sqe) : Nat := e.cdw10.toNat + e.cdw11.toNat * 2 ^ 32
/-- NLB + 1 of CDW12[15:0]. -/
def nlb1 (e : Sqe) : Nat := d12 e 15 0 + 1
/-- PRACT and PRCHK (R161). -/
def pract (e : Sqe) : Bool := bit e.cdw12.toNat 29
def prchk (e : Sqe) : Nat := d12 e 28 26
/-- Bytes that one block moves over the host link (R160, R161). -/
def blockBytes (n : Ns) (e : Sqe) : Nat := if n.fmt1 && !pract e then 4112 else 4096
/-- Kind of an I/O opcode (R162, R185). -/
def kindOf (o : Byte) : CmdKind :=
  match o.toNat with
  | 0x00 => .flush | 0x01 => .write | 0x02 => .read | 0x08 => .writeZeroes | 0x09 => .dsm | 0x0C => .verify | 0x19 => .copy
  | 0x79 => .zoneSend | 0x7A => .zoneRecv | 0x7D => .append | 0x82 => .winnow | 0x86 => .digest | 0x88 => .bulkRead
  | 0x8C => .bulkAppend | _ => .other
/-- Source ranges of a Copy, format 0: (SLBA, blocks) (R162). -/
def copyRanges (e : Sqe) : List (Nat × Nat) :=
  (List.range (d12 e 7 0 + 1)).map fun i => (fld e.data (32 * i + 8) 8, fld e.data (32 * i + 16) 2 + 1)
/-- Deallocate ranges: (SLBA, blocks) (R162). -/
def dsmRanges (e : Sqe) : List (Nat × Nat) :=
  (List.range (d10 e 7 0 + 1)).map fun i => (fld e.data (16 * i + 8) 8, fld e.data (16 * i + 4) 4)
def sumLens (l : List (Nat × Nat)) : Nat := (l.map (·.2)).foldl (· + ·) 0
/-- First logical block that a command names. -/
def firstLba (e : Sqe) : Nat := match kindOf e.opc with | .flush | .dsm | .other => 0 | _ => slba e
/-- Logical blocks that a command names; 0 where it has no block count (R229). -/
def blocksOf (e : Sqe) : Nat :=
  match kindOf e.opc with
  | .read | .write | .append | .writeZeroes | .verify | .bulkRead | .bulkAppend => nlb1 e
  | .copy => sumLens (copyRanges e)
  | .winnow => e.cdw12.toNat
  | _ => 0
/-- Size class (R229). -/
def sizeClass (e : Sqe) : Nat := match blocksOf e with | 0 => 15 | n => min (Nat.clog 2 n) 14
/-- A command that writes blocks. -/
def isWrite : CmdKind → Bool | .write | .append | .writeZeroes | .copy | .bulkAppend => true | _ => false
/-- A command charged as a bound read, or as a bound write (R46, R185). -/
def boundRead : CmdKind → Bool | .read | .bulkRead => true | _ => false
def boundWrite : CmdKind → Bool | .write | .append | .bulkAppend => true | _ => false

/-! ### Protection information (R160, R161, R202). -/
/-- The 16 bytes of a block: guard, application tag, reference tag. -/
def piBytes (guard : BitVec 64) (app ref : Nat) : List Byte := le 8 guard.toNat ++ le 2 app ++ le 6 ref
/-- Protection information that the module generates (PRACT = 1). -/
def piGen (n : Ns) (e : Sqe) (lba : Nat) (data : List Byte) : List Byte :=
  piBytes (crc64 data) (d15 e 15 0) (if n.pit = 1 then lba % 2 ^ 48 else e.cdw14.toNat)
/-- The check of a block's protection information under PRCHK: the status of the first check that fails. -/
def piCheck (n : Ns) (chk mask tag lba : Nat) (data pi : List Byte) : Option (Nat × Nat) :=
  if !n.fmt1 then none
  else
    let app := fld pi 8 2
    let ref := fld pi 10 6
    let off := app == 0xFFFF && (n.pit == 1 || ref == 2 ^ 48 - 1)
    if off then none
    else if bit chk 2 && fld pi 0 8 != (crc64 data).toNat then some (2, 0x82)
    else if bit chk 1 && (app &&& mask) != (tag &&& mask) then some (2, 0x83)
    else if bit chk 0 && n.pit == 1 && ref != lba % 2 ^ 48 then some (2, 0x84)
    else none
/-- Expected application tag and mask of each source range of a Copy that holds an LBA (format 0; R161, R162). -/
def copyTags (e : Sqe) (lba : Nat) : List (Nat × Nat) :=
  (List.range (d12 e 7 0 + 1)).filterMap fun i =>
    let at' := fld e.data (32 * i + 8) 8
    if at' ≤ lba ∧ lba < at' + fld e.data (32 * i + 16) 2 + 1 then some (fld e.data (32 * i + 28) 2, fld e.data (32 * i + 30) 2) else none
/-- Block i of a command's host data: data bytes and protection information, as it will be stored. -/
def hostBlock (n : Ns) (e : Sqe) (lba i : Nat) : List Byte × List Byte :=
  let b := blockBytes n e
  let d := slice' e.data (i * b) 4096
  (d, if n.fmt1 then (if b = 4112 then slice' e.data (i * b + 4096) 16 else piGen n e lba d) else [])
/-- The first failing check of a write's blocks from an LBA (R161). -/
def piWrite (n : Ns) (e : Sqe) (lba : Nat) : Nat → Nat → Option ((Nat × Nat) × Nat)
  | 0, _ => none
  | k + 1, i =>
    if pract e || !n.fmt1 then none
    else
      let b := hostBlock n e (lba + i) i
      match piCheck n (prchk e) (d15 e 31 16) (d15 e 15 0) (lba + i) b.1 b.2 with
      | some st => some (st, lba + i)
      | none => piWrite n e lba k (i + 1)

/-! ### Covers of range locks (R225). -/
/-- The largest aligned block at lo that ends by hi. -/
def alignedGo (lo hi : Nat) : Nat → Nat → Nat
  | 0, k => k
  | n + 1, k => if lo % 2 ^ (k + 1) = 0 ∧ lo + 2 ^ (k + 1) ≤ hi then alignedGo lo hi n (k + 1) else k
/-- Minimal aligned decomposition of [lo, hi): (base, log2 of size). -/
def decompose : Nat → Nat → Nat → List (Nat × Nat)
  | 0, _, _ => []
  | n + 1, lo, hi => if hi ≤ lo then [] else
    let k := alignedGo lo hi 41 0
    (lo, k) :: decompose n (lo + 2 ^ k) hi
/-- A prefix contains another. -/
def holds (p q : Nat × Nat) : Bool := decide (p.1 ≤ q.1 ∧ q.1 + 2 ^ q.2 ≤ p.1 + 2 ^ p.2)
def parent (p : Nat × Nat) : Nat × Nat := (p.1 / 2 ^ (p.2 + 1) * 2 ^ (p.2 + 1), p.2 + 1)
/-- Replaces two siblings by their parent until none are left. -/
def mergeSib : Nat → List (Nat × Nat) → List (Nat × Nat)
  | 0, l => l
  | n + 1, l =>
    match l.find? (fun p => p.1 % 2 ^ (p.2 + 1) == 0 && l.contains (p.1 + 2 ^ p.2, p.2)) with
    | some p => mergeSib n (parent p :: l.filter fun q => !holds (parent p) q)
    | none => l
/-- Widens a cover until it has at most eight prefixes; a prefix doubles at most 41 times, so 42 steps for each are enough. -/
def widen : Nat → List (Nat × Nat) → List (Nat × Nat)
  | 0, l => l
  | n + 1, l =>
    if l.length ≤ 8 then l
    else match minBy (fun p => p.2 * 2 ^ 64 + p.1) l with
      | some p => widen n (mergeSib l.length (parent p :: l.filter fun q => !holds (parent p) q))
      | none => l
/-- Drops prefixes that another one of the list contains. -/
def dedup : List (Nat × Nat) → List (Nat × Nat)
  | [] => []
  | p :: r => if r.any (fun q => holds q p) then dedup r else p :: (dedup r).filter fun q => !holds p q
def coverOf (l : List (Nat × Nat)) : List (Nat × Nat) := dedup (l.flatMap fun r => decompose 84 r.1 (r.1 + r.2))
/-- The lock prefixes of a command from its shared and exclusive ranges (R170, R225): (base, log2 size, exclusive). -/
def lockCover (shared excl : List (Nat × Nat)) : List (Nat × Nat × Bool) :=
  let a := coverOf shared
  let b := coverOf excl
  if a.length + b.length ≤ 8 then a.map (fun p => (p.1, p.2, false)) ++ b.map (fun p => (p.1, p.2, true))
  else if b = [] then (widen (42 * a.length) a).map fun p => (p.1, p.2, false)
  else (widen (42 * (a.length + b.length)) (dedup (a ++ b))).map fun p => (p.1, p.2, true)
/-- Ranges that a command locks on a conventional namespace: shared, exclusive (R170). -/
def lockRanges (e : Sqe) : List (Nat × Nat) × List (Nat × Nat) :=
  match kindOf e.opc with
  | .read | .verify | .winnow | .bulkRead => ([(slba e, blocksOf e)], [])
  | .write | .writeZeroes | .bulkAppend | .append => ([], [(slba e, blocksOf e)])
  | .dsm => ([], (dsmRanges e).filter (0 < ·.2))
  | .copy =>
    let src := copyRanges e
    let dst := (slba e, sumLens src)
    if src.any (fun r => decide (r.1 < dst.1 + dst.2 ∧ dst.1 < r.1 + r.2)) then ([], dst :: src) else (src, [dst])
  | _ => ([], [])

end Sys2Proof.Machine
end

