-- ==== Sys2Proof/Machine/Fetch.lean ====
section
/-! DEFINITION. Fetch of I/O commands: classification in the spikelet (R216–R229), bound admission (R46–R49, R203–R205),
range locks (R170–R172, R226), buffers (R256, R259) and forwarding (R288). -/
namespace Sys2Proof.Machine
open Sys2Proof

/-! ### Spikelet searches (R218, R219). -/
/-- Profile 0 searches banks 0–7, profile 1 banks 8–23, the firmware's profiles banks 24–31. -/
def inProfile (profile idx : Nat) : Bool :=
  match profile with
  | 0 => decide (idx < 32768) | 1 => decide (32768 ≤ idx ∧ idx < 98304) | _ => decide (98304 ≤ idx)
/-- Units of an entry of a bank: one but in the firmware's banks, whose widths firmware fixes at start-up (R216; assumption 175). -/
def bankUnits (bank : Nat) : Nat := if bank < 24 then 1 else 2 ^ (Config.fwWidth bank % 3)
/-- Physical index of the entry that holds a unit: the position of its first unit (R217). -/
def entryPos (p : Nat) : Nat := p - p % bankUnits (p / 4096)
/-- The key and mask bits of an entry at a position. -/
def entryBits (p : Nat) : BitVec 320 := BitVec.ofNat 320 (2 ^ (80 * bankUnits (p / 4096)) - 1)
/-- Global masks; those of the firmware's profiles compare every bit (assumption 20). -/
def globalMask : Nat → BitVec 320
  | 0 => BitVec.ofNat 320 (2 ^ 47 - 1) | 1 => BitVec.ofNat 320 (2 ^ 52 - 1) | _ => BitVec.allOnes 320
/-- An entry matches a key under the entry's, the profile's and the search's mask. -/
def spMatch (profile : Nat) (key mask : BitVec 320) (x : Nat × Entry) : Bool :=
  x.2.valid && inProfile profile x.1 && ((x.2.key ^^^ key) &&& x.2.mask &&& globalMask profile &&& mask) == 0#320
/-- The winner: the highest priority, the lowest physical index among equals. -/
def spSearch (sp : Spikelet) (profile : Nat) (key mask : BitVec 320) : Option (Nat × Entry) :=
  (sp.ents.filter (spMatch profile key mask)).foldl (fun b x => match b with
    | none => some x
    | some y => if y.2.prio.toNat < x.2.prio.toNat then some x else some y) none

/-- The classifier key of a command (R227). -/
def classKey (e : Sqe) (slice : Nat) : BitVec 320 :=
  BitVec.ofNat 320 (slice % 1024 + (e.nsid % 8192) * 2 ^ 10 + e.opc.toNat * 2 ^ 23 + d13 e 31 16 * 2 ^ 31
    + portNo e.port * 2 ^ 47 + sizeClass e * 2 ^ 48)
/-- Classes of a command: placement, service, and the rule that won (R227, R228). -/
def classify (s : State) (card : CardId) (e : Sqe) (slice : Nat) : Nat × Svc × Nat :=
  match spSearch (spAt s card) 1 (classKey e slice) (BitVec.allOnes 320) with
  | some (_, x) =>
    let r := x.result.toNat
    (bits r 19 16, (match bits r 21 20 with | 0 => .bound | 1 => .weighted | _ => .background), bits r 15 0)
  | none => (0, .weighted, 65535)
/-- Counts a rule's hit (R231). -/
def countHit (rule : Nat) (s : State) : State :=
  if rule = 65535 then updFeat (fun f => { f with defaultHits := f.defaultHits + 1 }) s
  else { s with rules := tupd {} s.rules rule fun r => { r with hits := r.hits + 1 } }

/-! ### Entries of the array and their places (R220–R223). -/
/-- A position takes an entry; a retired unit takes none (R220, R221). -/
def putEntry (pos : Nat) (e : Entry) (sp : Spikelet) : Spikelet :=
  if sp.retired.contains pos then sp else { sp with ents := tins sp.ents pos e, shadow := tins sp.shadow pos e }
/-- A position is invalidated. -/
def clearEntry (pos : Nat) (sp : Spikelet) : Spikelet := { sp with ents := tdel sp.ents pos, shadow := tdel sp.shadow pos }
/-- Prefixes of a range of size classes: first class and number of free low bits, at most 6 (R231). -/
def sizePrefixes : Nat → Nat → Nat → List (Nat × Nat)
  | 0, _, _ => []
  | n + 1, lo, hi =>
    if hi < lo then []
    else
      let k := ([4, 3, 2, 1].find? fun k => lo % 2 ^ k == 0 && decide (lo + 2 ^ k ≤ hi + 1)).getD 0
      (lo, k) :: sizePrefixes n (lo + 2 ^ k) hi
/-- Entries that a rule takes (R231). -/
def ruleEntries (r : Rule) : Nat := (sizePrefixes 16 r.sizeMin r.sizeMax).length
/-- A host rule's position: banks 8–23 but for the last of bank 23 (R222). -/
def isRulePos (p : Nat) : Bool := decide (32768 ≤ p ∧ p < defaultEntryPos)
/-- A free position of the classifier. -/
def ruleFree (sp : Spikelet) (p : Nat) : Bool := isRulePos p && !sp.retired.contains p && (tfind sp.ents p).isNone
/-- Entries in the order of rule number and place in the decomposition (R222). -/
def entryLt (a b : Entry) : Bool := decide (a.rule < b.rule) || (a.rule == b.rule && decide (a.sub < b.sub))
/-- The free position nearest a gap that begins at p, the higher one on a tie (R223). -/
def nearFree (sp : Spikelet) (p : Nat) : Nat → Nat → Option Nat
  | 0, _ => none
  | n + 1, d =>
    if ruleFree sp (p + d) then some (p + d)
    else if d + 1 ≤ p ∧ ruleFree sp (p - 1 - d) then some (p - 1 - d) else nearFree sp p n (d + 1)
/-- Moves the entry of one position to another: written there first, then invalidated here (R220). -/
def moveEntry (src dst : Nat) (sp : Spikelet) : Spikelet :=
  match tfind sp.ents src with | some e => clearEntry src (putEntry dst e sp) | none => sp
/-- Usable positions strictly between two positions, rising. -/
def usable (sp : Spikelet) (a b : Nat) : List Nat := ((List.range (b - a)).map (a + ·)).filter fun p => isRulePos p && !sp.retired.contains p
/-- Shifts the entries between a free position and a gap by one position toward the free position (R223): the chain of
usable positions starts at the free one. -/
def shiftChain : List Nat → Spikelet → Spikelet
  | dst :: src :: r, sp => shiftChain (src :: r) (moveEntry src dst sp)
  | _, sp => sp
/-- Inserts an entry in its sorted place (R223); unchanged where no position is free. -/
def insertEntry (e : Entry) (sp : Spikelet) : Spikelet :=
  let es := sp.ents.filter fun x => isRulePos x.1
  let pred := (es.filter fun x => entryLt x.2 e).getLast?
  let succ := (es.find? fun x => !entryLt x.2 e).map (·.1)
  let first := match pred with | some p => p.1 + 1 | none => 32768
  let stop := succ.getD defaultEntryPos
  match (usable sp first stop).head? with
  | some p => putEntry p e sp
  | none => match nearFree sp first 65536 0 with
    | none => sp
    | some h =>
      if first ≤ h then
        let ch := (usable sp first (h + 1)).reverse
        putEntry (ch.getLast?.getD h) e (shiftChain ch sp)
      else
        let ch := usable sp h first
        putEntry (ch.getLast?.getD h) e (shiftChain ch sp)
/-- Holes of an aligned block of H positions. -/
def holesIn (sp : Spikelet) (h b : Nat) : Nat := ((List.range h).filter fun i => ruleFree sp (b * h + i)).length
/-- The nearest block with two or more holes, the higher one on a tie. -/
def nearBlock (sp : Spikelet) (h b : Nat) : Nat → Nat → Option Nat
  | 0, _ => none
  | n + 1, d =>
    if 2 ≤ holesIn sp h (b + d) then some (b + d)
    else if d ≤ b ∧ 2 ≤ holesIn sp h (b - d) then some (b - d) else nearBlock sp h b n (d + 1)
/-- A block gives one of its holes to the next block toward b: its entries between the hole nearest that side and the side
move one position, and the next block's nearest entry takes the position that this frees (R223). Order is kept. -/
def passHole (h c b : Nat) (sp : Spikelet) : Spikelet :=
  let own := (List.range h).map (c * h + ·)
  let next := if b < c then (List.range h).map fun i => c * h - 1 - i else (List.range h).map fun i => (c + 1) * h + i
  match (if b < c then own else own.reverse).find? (ruleFree sp), next.find? fun p => isRulePos p && (tfind sp.ents p).isSome with
  | some hole, some src =>
    let ch := if b < c then (usable sp (c * h) (hole + 1)).reverse else usable sp hole ((c + 1) * h)
    moveEntry src (ch.getLast?.getD hole) (shiftChain ch sp)
  | _, _ => sp
/-- A hole goes from block c to block b by way of the blocks between, each of which passes one on. -/
def passHoles (h b : Nat) : Nat → Nat → Spikelet → Spikelet
  | 0, _, sp => sp
  | n + 1, c, sp => if c = b then sp else passHoles h b n (if b < c then c - 1 else c + 1) (passHole h c b sp)
/-- Restores the hole of a block that an insertion has filled (R223): entries move one position at a time from the nearest
block that holds two holes; the blocks between keep theirs. -/
def restoreHole (h b : Nat) (sp : Spikelet) : Spikelet :=
  if 1 ≤ holesIn sp h b then sp
  else match nearBlock sp h b (65536 / h) 1 with
    | none => sp
    | some c => passHoles h b (65536 / h) c sp
/-- Restores every hole that insertions have used. -/
def restoreHoles (h : Nat) (sp : Spikelet) : Spikelet :=
  let full := (((sp.ents.filter fun x => isRulePos x.1).map fun x => x.1 / h).eraseDups).filter fun b => holesIn sp h b == 0
  full.foldl (fun sp b => restoreHole h b sp) sp
/-- An entry of a retired unit gets another position: a rule its sorted place, the default entry the last position free, a
firmware entry the first free; a range lock is held by its command alone (assumption 34). -/
def reseat (p : Nat) (e : Entry) (sp : Spikelet) : Spikelet :=
  if isRulePos p then insertEntry e sp
  else if p = defaultEntryPos then
    match ((List.range 65535).map (fun i => 98302 - i)).find? (ruleFree sp) with | some q => putEntry q e sp | none => sp
  else if p < 32768 then sp
  else
    let u := bankUnits (p / 4096)
    match ((List.range (4096 / u)).map (p / 4096 * 4096 + u * ·)).find? fun q => !sp.retired.contains q && (tfind sp.ents q).isNone with
    | some q => putEntry q e sp
    | none => sp

/-! ### Bound admission (R46–R48, R203–R205, R406). -/
/-- A Quihar's frequency in sixty-fourths of nominal: the lower of the power state's fraction, one eighth in PS3 and PS4, and the thermal
factor of the frame (R405, R407, R417, R420). -/
def freqOf (s : State) (c : CardId) : Nat :=
  min (match s.power.ps with | 0 => 64 | 1 => 48 | 2 => 32 | _ => 8) (cardAt s c).qNow
/-- Bound pools and reserved parts follow the frequency, rounded down (R406, R420). -/
def scaled (s : State) (c : CardId) (n : Nat) : Nat := n * freqOf s c / 64
/-- Sum of a reserved part over the slices bound to a port; slice 0 counts on both (R204). -/
def resvSum (s : State) (c : CardId) (p : Port) (f : Share → Nat) : Nat :=
  (s.slices.filter fun x => x.2.st != 0 && (x.1 == 0 || decide (x.2.port = p))).foldl (fun a x => a + scaled s c (f x.2.share)) 0
/-- Unreserved part of a Quihar's pool per frame; single-controller operation joins both pools (R46, R204). -/
def unreserved (s : State) (c : CardId) (pool : Nat) (f : Share → Nat) : Nat :=
  if single s then 2 * scaled s c pool - resvSum s c .h0 f - resvSum s c .h1 f else scaled s c pool - resvSum s c (portOf c) f
/-- Codewords left in a slice's bucket (R205). -/
def tokens (sh : Nat) (burst used : Nat) : Nat := sh * burst - used
/-- Charges n codewords to a slice's bucket and parts; none where they do not fit (R205). The DRAM factor scales the write
admission of the card (R420, assumption 28). DESIGN CHOICE: slice 0, which counts on both ports, has one reserved part in a frame
for both together (assumption 190). -/
def chargeBound (c : CardId) (sl n : Nat) (read : Bool) (s : State) : Option State :=
  let x := sliceAt s sl
  let r := if read then x.share.readCw else x.share.writeCw
  let used := if read then x.readUsed else x.writeUsed
  let resv := scaled s c r - (if read then x.readResv else x.writeResv)
  let un := (if read then unreserved s c 2500 (·.readCw) else unreserved s c 1024 (·.writeCw) * (cardAt s c).dFactor / 64)
    - pget (if read then s.stats.readUnres else s.stats.writeUnres) c
  if tokens r x.share.burst used < n ∨ resv + un < n then none
  else
    let a := min n resv
    let b := n - a
    let s := updSlice sl (fun x => if read then { x with readUsed := x.readUsed + n, readResv := x.readResv + a }
                                   else { x with writeUsed := x.writeUsed + n, writeResv := x.writeResv + a }) s
    some (updStats (fun t => if read then { t with readUnres := pset t.readUnres c (pget t.readUnres c + b) }
                             else { t with writeUnres := pset t.writeUnres c (pget t.writeUnres c + b) }) s)
/-- Claims a plane for a command in a frame up to `last` (R47). -/
def claimIn (c : CardId) (k last dp : Nat) (s : State) : Option State :=
  (freeClaim s c dp (last + 1 - firstOpen s) (firstOpen s)).map fun t => addClaim k dp t s
def claimList (c : CardId) (k last : Nat) : List Nat → State → Option State
  | [], s => some s
  | d :: r, s => match claimIn c k last d s with | some s => claimList c k last r s | none => none
/-- Planes that a piece's read-around needs (R91); a member without a free claim is left out where the row can do without it
(R92). -/
def aroundPlanes (s : State) (c : CardId) (last ck : Nat) : Option (List Nat) :=
  let slot := slotOfCk ck
  let un := (List.range 16).filter fun m => m != posOfCk ck && unavailable s slot m (rowOfCk ck)
  let full := (List.range 16).filter fun m => m != posOfCk ck && !un.contains m && (match memberPlane s slot m ck with
    | some dp => (freeClaim s c dp (last + 1 - firstOpen s) (firstOpen s)).isNone
    | none => false)
  let p := (stripeAt s slot).profile
  (match aroundMembers p (posOfCk ck) (un ++ full) with
   | some ms => some ms
   | none => aroundMembers p (posOfCk ck) un).map fun (ms : List Nat) => ms.filterMap fun m => memberPlane s slot m ck
/-- Claims of one piece (R47): its own plane, else the planes of its read-around; of an overlay piece the plane of a copy,
its other copies standing in place of read-around (R71). -/
def claimPiece (c : CardId) (k last ck : Nat) (s : State) : Option State :=
  if inOverlay s ck then
    ((cwAt s ck).copies.filter fun l => l.done && !frondAbsent s l.frond).findSome? fun l => claimIn c k last (l.die * 4 + l.place / 4) s
  else
  let own := if unavailable s (slotOfCk ck) (posOfCk ck) (rowOfCk ck) then none else memberPlane s (slotOfCk ck) (posOfCk ck) ck
  match own.bind (fun d => claimIn c k last d s) with
  | some s => some s
  | none => match aroundPlanes s c last ck with | some ds => claimList c k last ds s | none => none
def claimPieces (c : CardId) (k last : Nat) : List (List (Nat × Nat)) → State → Option State
  | [], s => some s
  | ((_, ck) :: _) :: r, s => match claimPiece c k last ck s with | some s => claimPieces c k last r s | none => none
  | [] :: r, s => claimPieces c k last r s
/-- Planes of the map pages that a bound read of a conventional namespace must read first (R151). -/
def pagePlanes (s : State) (nsid lba n : Nat) : List Nat :=
  if (nsAt s nsid).zoned then []
  else ((missingPages s nsid lba n).map (nsid * 2 ^ 29 + ·)).filterMap fun pk => if pageComes s pk then none else (pageCopy s pk).map (·.1)
/-- Claims of every piece of a bound read, and of the map pages it needs, all or none, under the number that the command is
about to take (R47, R151). -/
def claimRead (c : CardId) (nsid lba n deadline : Nat) (s : State) : Option State :=
  (claimList c s.next (lastBefore s deadline) (pagePlanes s nsid lba n) s).bind fun s =>
  let cks := (List.range n).filterMap fun i => (resolve s nsid (lba + i)).map fun ck => (lba + i, ck)
  claimPieces c s.next (lastBefore s deadline) (groupCks (pageKey s) cks) s
/-- Bound admission of a command classified bound: its deadline, or none where it runs as weighted (R47–R49, R205). -/
def admission (card : CardId) (sl : Nat) (e : Sqe) (bell : Nat) (s : State) : Option Nat × State :=
  let n := blocksOf e
  let k := kindOf e.opc
  let demote := (none, updSlice sl (fun x => { x with demoted := x.demoted + 1 }) (updStats (fun t => { t with demoted := t.demoted + 1 }) s))
  if 64 < n ∨ (!boundRead k ∧ !boundWrite k) then demote
  else
    let rd := boundRead k
    let dl := bell + if rd then 64000 else 128000
    match chargeBound card sl n rd s with
    | none => demote
    | some s1 =>
      match (if rd then claimRead card e.nsid (slba e) n dl s1 else some s1) with
      | none => demote
      | some s2 => (some dl, updSlice sl (fun x => { x with admitted := x.admitted + 1 }) (updStats (fun t => { t with admitted := t.admitted + 1 }) s2))

/-! ### Range locks (R170–R172, R224–R226). -/
/-- Key and mask of a lock entry (R224). -/
def lockEntry (nsid prio k : Nat) (p : Nat × Nat × Bool) : Entry :=
  { valid := true, prio := BitVec.ofNat 12 prio, result := BitVec.ofNat 24 k, rule := k,
    key := BitVec.ofNat 320 (p.1 % 2 ^ 33 + nsid % 8192 * 2 ^ 33 + b2n p.2.2 * 2 ^ 46),
    mask := BitVec.ofNat 320 (2 ^ 47 - 2 ^ min p.2.1 33) }
/-- The next n free positions of banks 0–7 from a position on, and whether the search wrapped (R226). -/
def lockPositions (sp : Spikelet) : Nat → Nat → Nat → List Nat
  | 0, _, _ => []
  | _, 0, _ => []
  | fuel + 1, n + 1, pos =>
    if sp.retired.contains pos || (tfind sp.ents pos).isSome then lockPositions sp fuel (n + 1) ((pos + 1) % 32768)
    else pos :: lockPositions sp fuel n ((pos + 1) % 32768)
/-- Raises the live lock priorities to 4,095 downward, oldest first (R226). -/
def relevel (sp : Spikelet) : Spikelet :=
  let live := sp.ents.filter fun x => decide (x.1 < 32768)
  let prios := sortBy (fun a b => decide (b < a)) ((live.map fun x => x.2.prio.toNat).eraseDups)
  let up := fun (x : Nat × Entry) => if x.1 < 32768 then (x.1, { x.2 with prio := BitVec.ofNat 12 (4095 - prios.idxOf x.2.prio.toNat) }) else x
  { sp with ents := sp.ents.map up, shadow := sp.shadow.map up, lockPrio := 4096 - prios.length }
/-- Writes a command's entries; none where too few positions are free (R172). -/
def writeLocks (nsid k : Nat) (ps : List (Nat × Nat × Bool)) (sp : Spikelet) : Option Spikelet :=
  let ix := lockPositions sp (32768 + ps.length) ps.length (sp.lockPos % 32768)
  if ix.length < ps.length then none
  else
    let wraps := ix.any (· < sp.lockPos)
    let sp := if wraps ∧ sp.lockPrio ≤ 1 then relevel sp else sp
    let prio := if wraps then sp.lockPrio - 1 else sp.lockPrio
    let put := fun t => (ix.zip ps).foldl (fun t x => tins t x.1 (lockEntry nsid prio k x.2)) t
    some { sp with ents := put sp.ents, shadow := put sp.shadow, lockPrio := prio, lockPos := match ix.getLast? with | some p => p + 1 | none => sp.lockPos }
/-- The entries of a command stand in the range-lock banks of its owner. -/
def hasEntries (s : State) (k : Nat) : Bool := (spAt s (cmdAt s k).owner).ents.any fun x => decide (x.1 < 32768) && x.2.rule == k
/-- The search of one prefix with profile 0 (R226): its fixed LBA bits and NSID, and MODE for a shared request alone. -/
def lockSearch (sp : Spikelet) (nsid : Nat) (p : Nat × Nat × Bool) : Option (Nat × Entry) :=
  spSearch sp 0 (BitVec.ofNat 320 (p.1 % 2 ^ 33 + nsid % 8192 * 2 ^ 33 + 2 ^ 46))
    (BitVec.ofNat 320 (2 ^ 46 - 2 ^ min p.2.1 33 + if p.2.2 then 0 else 2 ^ 46))
/-- Two prefixes conflict: they share a block and are not both shared (R171). -/
def lockClash (a b : Nat × Nat × Bool) : Bool := (a.2.2 || b.2.2) && decide (a.1 < b.1 + 2 ^ b.2.1 ∧ b.1 < a.1 + 2 ^ a.2.1)
/-- No command fetched earlier holds, or waits for, a conflicting lock (R171): every prefix's search returns no match, the
command's own entry or that of a later one (R226), and no earlier command waits for entries of its own (R172). -/
def locksClear (s : State) (k : Nat) : Bool :=
  let c := cmdAt s k
  (c.locks.all fun p => match lockSearch (spAt s c.owner) c.e.nsid p with
    | some x => x.2.rule == k || (match tfind s.cmds x.2.rule with | some d => decide (c.order ≤ d.order) | none => true)
    | none => true)
    && !(s.cmds.any fun d => d.2.order < c.order && d.2.e.nsid == c.e.nsid && d.1 != k && decide (d.2.owner = c.owner) && !hasEntries s d.1
      && d.2.locks.any fun a => c.locks.any (lockClash a))
/-- The locks of a command are given back. -/
def unlock (k : Nat) (s : State) : State :=
  updCmd k (fun x => { x with locks := [] }) (updSp (cmdAt s k).owner (dropLocks k) s)
/-- All locks of a command of a conventional namespace are requested at once (R170, R171); one that finds too few free
positions has no entries yet (R172). -/
def requestLocks (k : Nat) (s : State) : State :=
  let c := cmdAt s k
  let n := nsAt s c.e.nsid
  let r := lockRanges c.e
  let ps := lockCover r.1 r.2
  if !n.used ∨ n.zoned ∨ c.locks ≠ [] ∨ ps = [] then s
  else
    let s := updCmd k (fun x => { x with locks := ps, since := now s }) s
    match writeLocks c.e.nsid k ps (spAt s c.owner) with | some sp => updSp c.owner (fun _ => sp) s | none => s
/-- The command after it holds its locks. -/
def afterLocks (go : Nat → State → State) (k : Nat) (s : State) : State :=
  if locksClear s k then go k s else updCmd k (fun x => { x with st := .lockWait }) s
/-- A command goes on once its locks are clear; without entries it asks for them again (R172). -/
def lockStage (go : Nat → State → State) (k : Nat) (s : State) : State :=
  let s := requestLocks k s
  let c := cmdAt s k
  if c.locks = [] then go k s
  else if hasEntries s k then afterLocks go k s
  else match writeLocks c.e.nsid k c.locks (spAt s c.owner) with
    | some sp => afterLocks go k (updSp c.owner (fun _ => sp) s)
    | none => updCmd k (fun x => { x with st := .lockEntries }) s

/-! ### The fetch (R49, R159, R167, R169, R196). -/
/-- The I/O queues of a port may be fetched from now (R174, R175, R298, R331, R408, R410). -/
def ioFetch (s : State) (p : Port) : Bool :=
  let c := ctrlAt s p
  c.link && c.rdy && !c.stopped && c.shst == 0 && (cardAt s (cardOf p)).serving && !s.time.resetHeld
    && decide (s.power.ps ≤ 2) && s.power.exit.isNone && s.power.entry.isNone
    && s.sec.running.isNone
/-- Home card of a group (R281). -/
def homeOf : Group → CardId | .g1 => .ca | .g2 => .cb
/-- The old owner of a group in transfer fetches none of its commands (R296). -/
def draining (s : State) (card : CardId) (nsid : Nat) : Bool :=
  let n := nsAt s nsid
  n.used && s.pair.transfers.any fun t => t.group == n.group && decide (t.src = card)
/-- Commands of a moving group wait at the card that is to own it: for the switch of a transfer (R296), or for the end of
a takeover's replay (R283, R293). -/
def mustHold (s : State) (card : CardId) (nsid : Nat) : Bool :=
  let n := nsAt s nsid
  n.used && (s.pair.transfers.any (fun t => t.group == n.group && decide (t.dst = card))
    || (match s.pair.takeover with | some (c, _) => decide (c = card) && decide (homeOf n.group ≠ c) | none => false))
/-- The instant of the doorbell that first covers the head entry (R49). -/
def bellOf (q : SubQ) (dflt : Nat) : Nat := match q.bells with | (_, t) :: _ => max t q.resumed | [] => max dflt q.resumed
/-- The instant of that doorbell alone, without a Queue Resume (R58). -/
def rangOf (q : SubQ) (dflt : Nat) : Nat := match q.bells with | (_, t) :: _ => t | [] => dflt
/-- Fetches the head entry of a submission queue: classified, admitted, recorded, and its locks requested at its owner (R170,
R205, R227). -/
def tryFetch (e : Sqe) (s : State) : Option (Nat × State) :=
  let qk := qKey e.port e.sqid
  let q := sqAt s qk
  let sl := sliceAt s q.slice
  if e.sqid = 0 ∨ !ioFetch s e.port ∨ !q.used ∨ q.frozen ∨ q.head = q.tail ∨ (q.slice ≠ 0 ∧ sl.st ≠ 1) ∨ draining s (cardOf e.port) e.nsid then none
  else
    let card := cardOf e.port
    let bell := bellOf q (now s)
    let head := if q.head + 1 > q.size then 0 else q.head + 1
    let s := updSq qk (fun x => { x with head := head, bells := x.bells.filter (fun b => b.1 != head) }) s
    let (cls, svc, rule) := classify s card e q.slice
    let s := updSlice q.slice (fun x => { x with fetched := x.fetched + 1 }) (countHit rule s)
    let (dl, s) := if svc = .bound then admission card q.slice e bell s else (none, s)
    let svc' := if svc = .bound ∧ dl.isNone then Svc.weighted else svc
    let svc'' := if kindOf e.opc = .verify then Svc.weighted else svc'
    let n := nsAt s e.nsid
    let owner := if n.used then ownerOfNs s e.nsid else card
    let (k, s) := fresh s
    let c : Cmd :=
      { e := e, kind := kindOf e.opc, st := .fetched, slice := q.slice, gen := sl.gen.toNat, card := card, owner := owner, cls := cls,
        svc := svc'', lba := firstLba e, nlb := blocksOf e, deadline := dl, bell := bell, rang := rangOf q bell, fetched := s.time.fc, order := k,
        since := now s, prog := (tfind sl.progs (d13 e 7 0)).getD [], desc := tget {} sl.descs (d13 e 7 0), policy := sl.policy,
        cause := if bell < s.power.awake then 5 else 6, status := if n.deleting.isSome then some invalidNs else none }
    let s := { s with cmds := tins s.cmds k c }
    some (k, if (owner = card ∨ !bothServe s) ∧ !mustHold s card e.nsid then requestLocks k s else s)
/-- The command of an entry: fetched before under COMMAND_FETCH, or fetched now. -/
def fetched (e : Sqe) (s : State) : Option (Nat × State) :=
  let s := atCount e.cnt s
  match s.cmds.find? (fun c => c.2.st == .fetched && c.2.fwd.isNone && c.2.e.port == e.port && c.2.e.sqid == e.sqid && c.2.e.cid == e.cid) with
  | some c => some (c.1, updCmd c.1 (fun x => { x with e := e, kind := kindOf e.opc, lba := firstLba e, nlb := blocksOf e })
      (if c.2.locks ≠ [] ∧ lockRanges c.2.e ≠ lockRanges e then unlock c.1 s else s))
  | none => tryFetch e s
/-- A fetched command runs at its owner; one fetched through the other card is forwarded (R288). -/
def atOwner (run : Nat → State → State) (k : Nat) (s : State) : State :=
  let c := cmdAt s k
  if mustHold s c.card c.e.nsid then
    updCmd k (fun x => { x with st := .xferWait, cause := if s.pair.takeover.isSome then min x.cause 4 else x.cause }) s
  else if c.card ≠ c.owner ∧ bothServe s then
    send (.forward k (cardAt s c.card).ownEpoch) (updCmd k (fun x => { x with fwd := some (cardAt s c.card).ownEpoch }) s)
  else run k s
/-- Runs a command entry: unchanged where it cannot be fetched now (assumption 13). -/
def ioRun (e : Sqe) (run : Nat → State → State) (s : State) : State :=
  match fetched e s with | some (k, s) => atOwner run k s | none => s

/-- COMMAND_FETCH (R205): an I/O entry is fetched, classified and admitted; an admin entry is slice 0's (R159). -/
def execCommandFetch (e : Sqe) (s : State) : Out :=
  if e.sqid = 0 then .next (updSlice 0 (fun x => { x with fetched := x.fetched + 1 }) (atCount e.cnt s))
  else match tryFetch e (atCount e.cnt s) with
    | some (_, s) => .next s
    | none => .next s

/-! ### Checks that every I/O command makes (R160, R166, R196, R428). -/
/-- The data pointer of an I/O command (R159): PRP, or an SGL whose descriptor is a Data Block, a Segment or a Last Segment. -/
def ptrErr (e : Sqe) : Option (Nat × Nat) :=
  if e.psdt = 3 then some invalidField
  else if e.psdt = 0 ∨ e.opc.toNat % 4 = 0 ∨ e.opc = 0x79 then none
  else if [0x00, 0x20, 0x30].contains (e.dptr.toNat / 2 ^ 120) then none else some sglType
/-- The namespace of a command: used, bound to its slice, attached to its controller, ready (R196, R428). -/
def nsErr (s : State) (c : Cmd) : Option (Nat × Nat) :=
  let n := nsAt s c.e.nsid
  let att := match c.e.port with | .h0 => n.att.a | .h1 => n.att.b
  match c.status with
  | some st => some st
  | none =>
    if !n.used ∨ n.slice ≠ some c.slice ∨ !att then some invalidNs
    else if !n.ready then some nsNotReady else ptrErr c.e
/-- Range and data-pointer checks of a transfer of c.nlb blocks, at most `lim` (R166). -/
def lenErr (s : State) (c : Cmd) (lim : Nat) (moves : Bool) : Option (Nat × Nat) :=
  let n := nsAt s c.e.nsid
  if lim < c.nlb then some invalidField
  else if n.nsze < c.lba + c.nlb then some lbaRange
  else if moves ∧ c.e.dlen < c.nlb * blockBytes n c.e then some sglLength else none
/-- Fails a command before it has done anything. -/
def failNow (k : Nat) (st : Nat × Nat) (dw0 dw1 : Nat) (s : State) : State := finishCmd k st dw0 dw1 [] (updCmd k (fun x => { x with missed := none, errLba := x.lba }) s)

/-! ### Buffers (R207, R256, R259). -/
/-- Pool and number of buffers for a transfer (R256). -/
def poolFor (bytes : Nat) : Nat × Nat :=
  if bytes ≤ 4096 then (0, 1) else if bytes ≤ 65536 then (1, 1) else (2, cdiv bytes 262144)
/-- Buffers of a pool that a slice holds on a card (R207). -/
def sliceHolds (s : State) (c : CardId) (sl pool : Nat) : Nat :=
  ((s.cmds.filter fun x => x.2.slice == sl && decide (x.2.owner = c)).map fun x => (x.2.bufs.filter fun b => b.1 == pool).length).foldl (· + ·) 0
/-- Takes the buffers of a command's data, or defers it to the next frame (R207, R259). -/
def bufStage (go : Nat → State → State) (bytes k : Nat) (s : State) : State :=
  let c := cmdAt s k
  if c.bufs ≠ [] ∨ bytes = 0 then go k s
  else
    let (p, n) := poolFor bytes
    let defer := fun (s : State) => updCmd k (fun x => { x with st := .deferred, dw0 := p, since := if x.st = .deferred then x.since else now s }) s
    if (sliceAt s c.slice).share.bufPct * poolSize p / 100 < sliceHolds s c.owner c.slice p + n then
      defer (updPool c.owner p (fun q => { q with empty := q.empty + 1 }) s)
    else match takeBufs c.owner p n s with
      | (some ix, s) => go k (updCmd k (fun x => { x with bufs := ix.map fun i => (p, i), dw0 := 0 }) s)
      | (none, s) => defer s

end Sys2Proof.Machine
end

