-- ==== Sys2Proof/Machine/Io.lean ====
section
/-! DEFINITION. Meanings of the I/O commands: writes, reads, zone management, conventional space, their waits and time
limits (R112, R123, R124, R134–R149, R162, R170–R177, R185–R187, R246–R249). -/
namespace Sys2Proof.Machine
open Sys2Proof

/-- An entry with the opcode of its row. -/
def asOp (o : Byte) (e : Sqe) : Sqe := { e with opc := o }
/-- An entry with the zone send action of its row in CDW13[7:0]. -/
def asZsa (a : Nat) (e : Sqe) : Sqe :=
  { e with opc := 0x79, cdw13 := BitVec.ofNat 32 (e.cdw13.toNat / 256 * 256 + a) }

/-! ### The data of a write (R20 steps 3 and 4, R161, R202, R248). -/
/-- Block i of a write as it will be stored: data, protection information, and whether it is a fill block. -/
def blockData (s : State) (c : Cmd) (i : Nat) : List Byte × List Byte × Bool :=
  let n := nsAt s c.e.nsid
  let lba := c.lba + i
  match c.kind with
  | .writeZeroes => (zeros 4096, if n.fmt1 ∧ pract c.e then piGen n c.e lba (zeros 4096) else fillPi n.fmt1, false)
  | .copy =>
    match (readLbas c)[i]? with
    | some l => match c.data.find? (fun d => d.1 == l) with
      | some d => (d.2.1, if n.fmt1 ∧ pract c.e then piGen n c.e lba d.2.1 else d.2.2, false)
      | none => (zeros 4096, fillPi n.fmt1, false)
    | none => (zeros 4096, fillPi n.fmt1, false)
  | .bulkAppend =>
    let tag := c.desc.appTag
    match c.data.find? (fun d => d.1 == i) with
    | some d => if d.2.1.length = 4096 then (d.2.1, if n.fmt1 then piBytes (crc64 d.2.1) tag (lba % 2 ^ 48) else [], false)
                else (zeros 4096, fillPi n.fmt1, true)
    | none => (zeros 4096, fillPi n.fmt1, true)
  | _ => let d := hostBlock n c.e lba i; (d.1, d.2, false)
/-- Codeword keys that a command's blocks go to: of the zone's stripe, or the offsets taken from the head (R87, R147). -/
def destKeys (s : State) (k : Nat) : List Nat :=
  let c := cmdAt s k
  let n := nsAt s c.e.nsid
  if n.zoned then
    match (zoneAt s (zoneKey c.e.nsid (c.lba / 1048576))).slot with
    | some slot => (List.range c.nlb).map fun i => ckOf n.profile slot (c.lba % 1048576 + i)
    | none => []
  else c.cws
/-- An admitted write's codewords enter the stream engines (R20 step 4). -/
def enterWrite (k : Nat) (s : State) : State :=
  let c := cmdAt s k
  let n := nsAt s c.e.nsid
  let ks := destKeys s k
  let key := Config.xtsKey (sliceAt s (n.slice.getD 0)).key n.salt
  let s := updCmd k (fun x => { x with st := .writing, cws := ks }) s
  ((List.range ks.length).zip ks).foldl (fun s p =>
    let (d, pi, fill) := blockData s c p.1
    let cw : Cw :=
      { kind := if fill then .fill else .data, data := d, pi := pi, key := key, nsid := c.e.nsid, lba := c.lba + p.1, cmd := some k,
        slice := c.slice, gen := c.gen, bound := decide (c.svc = .bound) }
    updSe c.owner (· ++ [.encrypt p.2]) { s with cws := tins s.cws p.2 cw }) s

/-! ### Admission against the seedbed's fill (R123, R124). -/
/-- Fronds that take copies of a set of codewords. -/
def copyFronds (s : State) (ks : List Nat) : List Nat :=
  (((ks.map (· / 65536)).eraseDups).flatMap fun m => (placeCopies (frondIn s) (memberFrond (m / 16) (m % 16))).map (·.1)).eraseDups
/-- The first frond that stops admission (R123). -/
def stopFrondOf (s : State) (fs : List Nat) : Option Nat := fs.find? fun f => decide (s.feat.fullPct ≤ fillPct (frondAt s f))
/-- Copies that a set of codewords puts on a frond (R108). -/
def copiesOn (s : State) (ks : List Nat) (f : Nat) : Nat :=
  ((ks.map (· / 65536)).map fun m => ((placeCopies (frondIn s) (memberFrond (m / 16) (m % 16))).filter (·.1 == f)).length).sum
/-- The first frond that throttles a write beyond the credit of the copies it takes (R123). -/
def throttleOf (s : State) (fs ks : List Nat) : Option Nat :=
  fs.find? fun f => decide (s.feat.thrPct ≤ fillPct (frondAt s f)) && decide (tget 0 s.seedbed.credit f < copiesOn s ks f)
/-- Waits for room in the order of fetch; FULL_WAITS counts a write once (R123, R131). -/
def waitRoom (k f : Nat) (s : State) : State :=
  let first := (cmdAt s k).st != .fullWait
  updCmd k (fun x => { x with st := .fullWait, stopFrond := f, since := if first then now s else x.since, waited := true })
    (if (cmdAt s k).waited then s else updSeedbed (fun b => { b with fullWaits := b.fullWaits + 1 }) s)
/-- A fill codeword of the write's zone waits for a frond: later writes of the zone wait behind it (R124, R125). -/
def fillsWait (s : State) (c : Cmd) : Bool :=
  (nsAt s c.e.nsid).zoned && s.cws.any fun w => w.2.kind == .fill && w.2.nsid == c.e.nsid
    && w.2.lba / 1048576 == c.lba / 1048576 && decide (0 < w.2.waiting) && !w.2.folded
/-- DRAM traffic that a write of n bytes costs: arrival and stream read, and parity accumulation, which a transfer shorter than
256 KiB does in place (R29). -/
def dramCost (n : Nat) : Nat := if n < 262144 then 6 * n else 5 * n / 2
/-- DRAM traffic of a frame that the copy of a rank takes: 8 GB/s of a retraining, 12 GB/s read and written of a migration (R265, R269;
assumption 70). -/
def copyTraffic (m : CardMem) : Nat := match m.rop with | .copy _ _ => 2000000 | .migrate _ _ => 6000000 | _ => 0
/-- DRAM traffic that a frame leaves to writes: of 200 GB/s, or of 170 GB/s of a card that serves alone (R29, R269, R299). -/
def dramShare (s : State) : Nat := (if single s then 42500000 else 50000000) - copyTraffic s.memA - copyTraffic s.memB
/-- DRAM traffic by which the admission of n bytes written on a card is measured: its DRAM factor scales the admission (R29, R420; assumption
28). -/
def writeTraffic (s : State) (c : CardId) (n : Nat) : Nat := dramCost n * 64 / (cardAt s c).dFactor
/-- The frame's share covers a write's traffic beside what the frame has left to carry; a write above the whole
share goes alone, and its rest is carried by the frames that follow (R29, R299; assumption 146). -/
def dramRoom (s : State) (c : CardId) (n : Nat) : Bool := s.stats.dramUsed == 0 || decide (s.stats.dramUsed + writeTraffic s c (n * 4096) ≤ dramShare s)
/-- Admission of a write's codewords: it waits behind a full frond, behind an earlier write that waits for one of its fronds,
at the release rate of a throttled one, for its zone's accumulator, behind fill codewords of its zone, for DRAM bandwidth, or
while the card's write admission is stopped (R29, R117, R123–R125, R421). -/
def writeAdmit (k : Nat) (s : State) : State :=
  let c := cmdAt s k
  let ks := destKeys s k
  let fs := copyFronds s ks
  if (cardAt s c.owner).writesOff then updCmd k (fun x => { x with st := .admitWait }) s
  else if ks.any (fun ck => (accumAt s (slotOfCk ck)).lost) || fillsWait s c || !dramRoom s c.owner ks.length then updCmd k (fun x => { x with st := .admitWait }) s
  else match stopFrondOf s fs with
    | some f => waitRoom k f s
    | none =>
      match s.cmds.find? fun d => d.2.st == .fullWait && d.2.order < c.order && (copyFronds s (destKeys s d.1)).any fun f => fs.contains f with
      | some d => waitRoom k d.2.stopFrond s
      | none => match throttleOf s fs ks with
        | some f => waitRoom k f s
        | none =>
          let pay := fs.filter fun f => decide (s.feat.thrPct ≤ fillPct (frondAt s f))
          enterWrite k (updStats (fun x => { x with dramUsed := x.dramUsed + writeTraffic s c.owner (ks.length * 4096) })
            (updSeedbed (fun b => { b with credit := pay.foldl (fun t f => tupd 0 t f (· - copiesOn s ks f)) b.credit }) s))

/-! ### Bulk transfers (R241–R253). -/
/-- Offset of a bulk command into the remote region. -/
def remoteOff (e : Sqe) : Nat := e.cdw14.toNat + e.cdw15.toNat * 2 ^ 32
/-- Key of the queue pair of a descriptor. -/
def qpKeyOf (d : Desc) : Nat := cardNo d.port * 4096 + d.qp
/-- Reason for which a bulk command fails at fetch (R252, R253); of several that hold, the order 1, 8, 7 is a choice of the model
(assumption 153). -/
def bulkErr (s : State) (c : Cmd) : Option Nat :=
  let d := c.desc
  if !d.enable then some 1
  else if !(cardAt s d.port).serving ∨ (bulkAt s d.port).gid = 0 then some 8
  else if (qpAt s (qpKeyOf d)).error ≠ 0 then some 7 else none
/-- Bytes that fit the remote region (R247). -/
def regionRoom (c : Cmd) : Nat := c.desc.len - remoteOff c.e
/-- Blocks that RDMA READs outstanding on a queue pair ask for. -/
def readsOut (q : Qp) : Nat := (q.out.filter fun o => o.2.2.2.2).length
/-- RDMA READ requests outstanding on a queue pair. -/
def reqsOut (q : Qp) : List Nat := q.reqs.filter fun p => q.out.any fun o => o.1 == p
/-- The bulk port of a card transmits: its link is up and no pause holds it (R242, R250). -/
def portSends (s : State) (c : CardId) : Bool := (bulkAt s c).linkUp && !(bulkAt s c).paused
/-- Bytes that a rate in tenths of Gb/s lets through in a frame of 250 µs. -/
def frameBytes (rate : Nat) : Nat := rate * 3125
/-- A queue pair may send now: its port transmits and its rate covers what it has sent (R250, R251). -/
def qpTurn (s : State) (qk : Nat) : Bool := portSends s (qpCard qk) && decide ((qpAt s qk).spent < frameBytes (qpAt s qk).rate)
/-- RDMA WRITEs leave in order while the queue pair may send; those of commands that have ended do not (R200, R251, R254). -/
def issueWrites (qk : Nat) : Nat → State → State
  | 0, s => s
  | fuel + 1, s =>
    match (qpAt s qk).todo with
    | [] => s
    | (k, p, n) :: r =>
      if (tfind s.cmds k).isNone then issueWrites qk fuel (updQp qk (fun q => { q with todo := r }) s)
      else if !qpTurn s qk then s
      else
        let psn := (qpAt s qk).psn
        issueWrites qk fuel (send (.rdma (qpCard qk) (qk % 4096) psn n false) (updQp qk (fun q => { q with
          todo := r, psn := (psn + 1) % 2 ^ 24, una := if q.out = [] then psn else q.una, out := q.out ++ [(psn, k, p, n, false)],
          spent := q.spent + n, ackAt := if q.out = [] then now s else q.ackAt }) s))
/-- Issues an RDMA READ for the next blocks, at most 16 requests and 1 MiB outstanding on the queue pair (R248). -/
def issueReads (k : Nat) (s : State) : State :=
  let c := cmdAt s k
  let d := c.desc
  let qk := qpKeyOf d
  let room := 256 - readsOut (qpAt s qk)
  let bytes := min (c.nlb * 4096) (regionRoom c)
  let total := cdiv bytes 4096
  let asked := ((qpAt s qk).out.filter fun o => o.2.1 == k).length + c.data.length
  let n := min room (total - asked)
  if n = 0 ∨ !qpTurn s qk ∨ 16 ≤ (reqsOut (qpAt s qk)).length then s
  else
    let psn := (qpAt s qk).psn
    let sz := min (bytes - asked * 4096) (n * 4096)
    let add := (List.range n).map fun i => ((psn + i) % 2 ^ 24, k, asked + i, min 4096 (bytes - (asked + i) * 4096), true)
    send (.rdma d.port d.qp psn sz true)
      (updQp qk (fun q => { q with
        psn := (q.psn + n) % 2 ^ 24, expect := if q.out = [] then psn else q.expect, out := q.out ++ add,
        reqs := reqsOut q ++ [(psn + n - 1) % 2 ^ 24], spent := q.spent + sz, ackAt := if q.out = [] then now s else q.ackAt }) s)
/-- RDMA READs of the Bulk Appends of a queue pair. -/
def issueAppends (qp : Nat) (s : State) : State :=
  (s.cmds.filter fun c => c.2.kind == .bulkAppend && c.2.st == .bulk && c.2.desc.enable && qpKeyOf c.2.desc == qp).foldl (fun s c => issueReads c.1 s) s
/-- The data of a Bulk Append has come to its end: arrived blocks are written, the others become fill codewords (R249). -/
def bulkArrived (k reason : Nat) (s : State) : State :=
  let c := cmdAt s k
  let cut := reason ≠ 0
  let s := if cut then updCmd k (fun x => { x with status := some (7, 0x86), dw0 := c.moved, dw1 := reason, errLba := c.lba }) s else s
  writeAdmit k s
/-- Starts the RDMA READs of a Bulk Append whose blocks are assigned. -/
def bulkStart (k : Nat) (s : State) : State :=
  let c := cmdAt s k
  if regionRoom c = 0 then bulkArrived k 2 s else issueReads k (updCmd k (fun x => { x with st := .bulk }) s)

/-! ### Zone writes (R136–R138, R173). -/
/-- The check of a zone write or append at its fetch (R136, R138, R173). -/
def zoneWriteErr (s : State) (c : Cmd) : Option (Nat × Nat) :=
  let n := nsAt s c.e.nsid
  let z := zoneAt s (zoneKey c.e.nsid (c.lba / 1048576))
  let app := c.kind = .append ∨ c.kind = .bulkAppend
  match z.st with
  | .full => some (1, 0xB9)
  | .readOnly => some (1, 0xBA)
  | .offline => some (1, 0xBB)
  | _ =>
    if app ∧ c.lba % 1048576 ≠ 0 then some invalidField
    else if capOf n.profile < (if app then z.wp else c.lba % 1048576) + c.nlb then some (1, 0xB8)
    else if !app ∧ c.lba % 1048576 ≠ z.wp then some (1, 0xBC) else none
/-- What follows the assignment of a write's blocks. -/
def afterAssign (k : Nat) (s : State) : State :=
  match (cmdAt s k).kind with
  | .copy => proceedRead k s
  | .bulkAppend => bulkStart k s
  | _ => writeAdmit k s
/-- Blocks are assigned at the write pointer, which moves on at that moment (R138) and is mirrored (R286); a write to a Closed zone opens it, one that
ends at the capacity makes it Full, each with its record (R136). -/
def assign (k : Nat) (s : State) : State :=
  let c := cmdAt s k
  let n := nsAt s c.e.nsid
  let zi := c.lba / 1048576
  let zk := zoneKey c.e.nsid zi
  let wp := (zoneAt s zk).wp
  let lba := zi * 1048576 + wp
  let app := c.kind = .append ∨ c.kind = .bulkAppend
  let old := zoneAt s zk
  let full := wp + c.nlb = capOf n.profile
  let rec' := fun (kd slot : Nat) (s : State) =>
    journal c.owner { kind := kd, nsid := c.e.nsid, lba := zi * 1048576, slot := slot, offset := if kd = 2 then old.cls else 0, cmd := some k }
      (updCmd k (fun x => { x with recs := x.recs + 1 }) s)
  let s := updZone zk (fun z => { z with
    wp := wp + c.nlb, openW := z.openW ++ [(wp, wp + c.nlb, k)],
    st := if full then .full else if z.st = .closed then .implOpen else z.st }) (mirror c.owner [] s)
  let s := if old.st = .closed then rec' 2 (old.slot.getD 0) s else s
  let s := if full then rec' 3 1023 s else s
  afterAssign k (updCmd k (fun x => { x with
    lba := lba, errLba := lba, dw0 := if app then lba % 2 ^ 32 else 0, dw1 := if app then lba / 2 ^ 32 else 0 }) s)
/-- A Zone Reset or Finish fetched earlier has not taken effect yet. -/
def resetAhead (s : State) (k : Nat) : Bool :=
  let c := cmdAt s k
  s.cmds.any fun d => zoneActs d.2 && d.2.order < c.order && d.2.e.nsid == c.e.nsid
    && (bit d.2.e.cdw13.toNat 8 || d.2.lba / 1048576 == c.lba / 1048576)
/-- A write that has not been assigned its blocks yet: its row has not come, or it waits for buffers, for an earlier command or
for its zone's opening. -/
def unassigned (d : Cmd) : Bool :=
  isWrite d.kind && (match d.st with | .deferred | .aheadWait | .openWait | .allocWait => true | .fetched => arrived d | _ => false)
/-- An earlier write of the zone has not been assigned its blocks yet (R138, R173). -/
def writeAhead (s : State) (k : Nat) : Bool :=
  let c := cmdAt s k
  s.cmds.any fun d => d.1 != k && unassigned d.2 && d.2.order < c.order && d.2.e.nsid == c.e.nsid
    && d.2.lba / 1048576 == c.lba / 1048576
    && !((zoneAt s (zoneKey c.e.nsid (c.lba / 1048576))).openW.any fun w => w.2.2 == d.1)
/-- Something fetched earlier for the zone comes first. -/
def ahead (s : State) (k : Nat) : Bool := resetAhead s k || writeAhead s k
/-- The owner is not the tick master, whose allocator it must ask for a slot (R137). -/
def mustAsk (s : State) (nsid : Nat) : Bool := bothServe s && decide (ownerOfNs s nsid ≠ s.time.master)
/-- The first failing check of a Zone Append's protection information, for the LBA at which its blocks are assigned (R138, R161). -/
def appendErr (s : State) (c : Cmd) : Option ((Nat × Nat) × Nat) :=
  let n := nsAt s c.e.nsid
  if c.kind = .append then piWrite n c.e (c.lba + (zoneAt s (zoneKey c.e.nsid (c.lba / 1048576))).wp) c.nlb 0 else none
/-- Opens the zone of a write where it is Empty, then assigns (R137); `granted` once the allocator has been asked. -/
def zoneStageWith (granted : Bool) (k : Nat) (s : State) : State :=
  let c := cmdAt s k
  let wait := fun (f : Nat) (s : State) => updCmd k (fun x => { x with
    st := .openWait, stopFrond := f, since := if x.st = .openWait then x.since else now s }) s
  if ahead s k then updCmd k (fun x => { x with st := .aheadWait }) s
  else match ((zoneWriteErr s c).map fun st => (st, c.lba)).orElse (fun _ => appendErr s c) with
    | some (st, l) => failNow k st 0 0 (updCmd k (fun x => { x with lba := l }) s)
    | none =>
      if (zoneAt s (zoneKey c.e.nsid (c.lba / 1048576))).st = .empty then
        if mustAsk s c.e.nsid && !granted then updCmd k (fun x => { x with st := .allocWait, since := now s }) s
        else match openZone c.e.nsid (c.lba / 1048576) c.cls false (some k) s with
        | .done s => assign k (updCmd k (fun x => { x with recs := x.recs + 1 }) s)
        | .wait f s => wait f s
        | .exhausted d => failNow k (7, 0x83) d 0 s
        | .tooMany => failNow k (1, 0xBD) 0 0 s
      else assign k s
def zoneStage (k : Nat) (s : State) : State := zoneStageWith false k s

/-! ### Conventional writes (R147, R148, R170). -/
/-- A closed stripe of the namespace holds an invalid block (R148, R149). -/
def victims (s : State) (nsid : Nat) : List (Nat × Nat) :=
  ((nsAt s nsid).slots.filter fun x => (stripeAt s x).closed && decide ((stripeAt s x).valid < (stripeAt s x).next)).map fun x => ((stripeAt s x).valid, x)
/-- Garbage collection has a stripe to free. -/
def gcRuns (s : State) (nsid : Nat) : Bool := (nsAt s nsid).victim.isSome || !(victims s nsid).isEmpty
/-- A write of n blocks needs another head stripe, whose slot the allocator gives (R137, R147). -/
def headShort (s : State) (nsid : Nat) (gc : Bool) (n : Nat) : Bool :=
  match (if gc then (nsAt s nsid).gcHead else (nsAt s nsid).head) with
  | some x => decide (capOf (stripeAt s x).profile < (stripeAt s x).next + n)
  | none => true
/-- Space for a conventional write under R148 (with 3 or 4 free stripes, as garbage collection frees blocks), then its offsets
and admission. DESIGN CHOICE: with two free stripes or fewer it waits until there are more (assumption 188). -/
def convStageWith (granted : Bool) (k : Nat) (s : State) : State :=
  let c := cmdAt s k
  let f := freeStripes s c.e.nsid
  let gc := c.e.sqid = 0
  let wait := fun (st : CmdSt) => updCmd k (fun x => { x with st := st, since := if x.st = st then x.since else now s }) s
  if !gc ∧ f ≤ 2 ∧ victims s c.e.nsid = [] then failNow k (7, 0x83) 16 0 s
  else if !gc ∧ (f ≤ 2 ∨ (f ≤ 4 ∧ (nsAt s c.e.nsid).gcFreed < c.nlb ∧ gcRuns s c.e.nsid)) then wait .gcWait
  else if mustAsk s c.e.nsid && !granted && headShort s c.e.nsid gc c.nlb then wait .allocWait
  else
    let take := fun (s : State) => if gc ∨ f ≤ 4 then updNs c.e.nsid (fun n => { n with gcFreed := n.gcFreed - c.nlb }) s else s
    match takeOffsets c.e.nsid c.cls gc c.nlb [] s with
    | (ks, none, s) => (if c.kind = .bulkAppend then bulkStart k else writeAdmit k) (updCmd k (fun x => { x with cws := ks }) (take s))
    | (_, some d, _) =>
      if d < 16 ∧ erasable s d then updCmd k (fun x => { x with
        st := .openWait, stopFrond := d, since := if x.st = .openWait then x.since else now s }) (raiseErase d s)
      else failNow k (7, 0x83) d 0 s
/-- Space for a conventional write that holds no grant of the allocator yet (R137, R148; with two free stripes or fewer see assumption 188). -/
def convStage (k : Nat) (s : State) : State := convStageWith false k s
/-- Journal records that clear a range of a conventional namespace (R162; assumption 21). -/
def clearRecs (k : Nat) (ranges : List (Nat × Nat)) (s : State) : State :=
  let c := cmdAt s k
  let parts := ranges.flatMap fun r => (List.range (cdiv r.2 1024)).map fun i => (r.1 + i * 1024, min 1024 (r.2 - i * 1024))
  if parts = [] then finishCmd k (0, 0) 0 0 [] s
  else
    parts.foldl (fun s r => journal c.owner { kind := 1, nsid := c.e.nsid, lba := r.1, slot := 524287, count := r.2, cmd := some k } s)
      (updCmd k (fun x => { x with st := .journal, recs := parts.length }) s)
def bytesOf (s : State) (c : Cmd) : Nat :=
  match c.kind with
  | .writeZeroes => 0
  | .bulkAppend => c.nlb * 4096
  | .copy => max 65537 (c.nlb * 4096)
  | _ => c.nlb * blockBytes (nsAt s c.e.nsid) c.e
/-- A write's own path after its checks (R108, R138, R170, R256); a garbage-collection copy takes no locks (R149). -/
def writeGo (k : Nat) (s : State) : State :=
  let c := cmdAt s k
  if c.e.sqid = 0 then bufStage proceedRead (bytesOf s c) k s
  else if (nsAt s c.e.nsid).zoned then bufStage zoneStage (bytesOf s c) k s
  else lockStage (fun k s =>
    match c.kind with
    | .writeZeroes => clearRecs k [(c.lba, c.nlb)] s
    | .copy => bufStage proceedRead (bytesOf s c) k s
    | _ => bufStage convStage (bytesOf s c) k s) k s
/-- Fronds that a write of a range may place copies on: three of the six of every destination must be present (R108). -/
def noPlace (s : State) : Nat := (((List.range 16).filter fun f => !frondIn s f).map (2 ^ ·)).foldl (· ||| ·) 0
/-- Blocks of writes of the same zone or conventional namespace that were fetched earlier and have none assigned yet. -/
def blocksAhead (s : State) (k : Nat) : Nat :=
  let c := cmdAt s k
  let z := (nsAt s c.e.nsid).zoned
  (s.cmds.filter fun d => d.1 != k && isWrite d.2.kind && d.2.order < c.order && d.2.e.nsid == c.e.nsid
    && (!z || d.2.lba / 1048576 == c.lba / 1048576) && (unassigned d.2 || d.2.st == .gcWait)
    && d.2.cws.isEmpty && !((zoneAt s (zoneKey c.e.nsid (c.lba / 1048576))).openW.any fun w => w.2.2 == d.1)).foldl (fun a d => a + d.2.nlb) 0
/-- Fronds of the chunks that n blocks from an offset of a stripe fill (R87). -/
def chunkFronds (p : Profile) (slot off n : Nat) : List Nat :=
  if n = 0 then []
  else ((List.range ((off + n - 1) / 64 + 1 - off / 64)).map fun i => memberFrond slot ((off / 64 + i) % dataOf p)).eraseDups
/-- Destination fronds of a write at its fetch (R87, R108): those of its zone's chunks, or of the head stripe and the next; a
stripe still to be opened is the allocator's next one (R137). -/
def destFronds (s : State) (k : Nat) : List Nat :=
  let c := cmdAt s k
  let n := nsAt s c.e.nsid
  let next := (nextSlotFree s).getD 0
  if n.zoned then
    let z := zoneAt s (zoneKey c.e.nsid (c.lba / 1048576))
    let app := c.kind = .append ∨ c.kind = .bulkAppend
    if resetAhead s k then chunkFronds n.profile next (if app then blocksAhead s k else c.lba % 1048576) c.nlb
    else chunkFronds n.profile (z.slot.getD next) (if app then z.wp + blocksAhead s k else c.lba % 1048576) c.nlb
  else
    let cap := capOf n.profile
    match n.head with
    | some slot =>
      let off := (stripeAt s slot).next + blocksAhead s k
      (chunkFronds n.profile slot (min off cap) (min c.nlb (cap - off))
        ++ chunkFronds n.profile next (off - cap) (c.nlb - min c.nlb (cap - off))).eraseDups
    | none => chunkFronds n.profile next (blocksAhead s k % cap) c.nlb
def placeErr (s : State) (k : Nat) : Bool := (destFronds s k).any fun f => !enoughFronds s f
/-- A write after its namespace, length and command-set checks. -/
def writeChecked (k lim : Nat) (moves : Bool) (s : State) : State :=
  let c := cmdAt s k
  let n := nsAt s c.e.nsid
  match nsErr s c with
  | some st => failNow k st 0 0 s
  | none =>
    match lenErr s c lim moves with
    | some st => failNow k st 0 0 s
    | none =>
      if n.zoned then
        match zoneWriteErr s c with
        | some st =>
          if !ahead s k then failNow k st 0 0 s
          else if placeErr s k then failNow k (7, 0x8A) (noPlace s) 0 s
          else writeGo k s
        | none =>
          if placeErr s k then failNow k (7, 0x8A) (noPlace s) 0 s
          else match (if moves ∧ c.kind ≠ .append then piWrite n c.e c.lba c.nlb 0 else none) with
            | some (st, l) => failNow k st 0 0 (updCmd k (fun x => { x with lba := l }) s)
            | none => writeGo k s
      else if c.kind ≠ .writeZeroes ∧ placeErr s k then failNow k (7, 0x8A) (noPlace s) 0 s
      else match (if moves then piWrite n c.e c.lba c.nlb 0 else none) with
        | some (st, l) => failNow k st 0 0 (updCmd k (fun x => { x with lba := l }) s)
        | none => writeGo k s
def runWrite (k : Nat) (s : State) : State := writeChecked k 1024 true s
def runAppend (k : Nat) (s : State) : State :=
  if (nsErr s (cmdAt s k)).isNone ∧ !(nsAt s (cmdAt s k).e.nsid).zoned then failNow k invalidOpcode 0 0 s else writeChecked k 512 true s
def runWriteZeroes (k : Nat) (s : State) : State := writeChecked k 65536 false s
/-- Zones that a range lies in. -/
def rangeZones (lba n : Nat) : List Nat := (List.range ((lba + n - 1) / 1048576 + 1 - lba / 1048576)).map (lba / 1048576 + ·)
/-- The check of a read's zones: none Offline, no zone boundary crossed (R136; DEDUCED, assumption 22). -/
def zoneReadErr (s : State) (c : Cmd) (lba n : Nat) : Option (Nat × Nat) :=
  if !(nsAt s c.e.nsid).zoned then none
  else if (rangeZones lba n).length > 1 then some (1, 0xB8)
  else if (rangeZones lba n).any fun z => (zoneAt s (zoneKey c.e.nsid z)).st == .offline then some (1, 0xBB) else none
/-- The read path: locks on a conventional namespace, then its pieces; a forwarded read's piece list goes back to the
fetching card (R170, R289). -/
def readGo (k : Nat) (s : State) : State :=
  let go := fun k s =>
    if (cmdAt s k).fwd.isSome ∧ (cmdAt s k).card ≠ (cmdAt s k).owner then send (.pieceList k) (updCmd k (fun x => { x with st := .listWait }) s)
    else proceedRead k s
  if (nsAt s (cmdAt s k).e.nsid).zoned then go k s else lockStage go k s
def readChecked (k lim : Nat) (moves : Bool) (s : State) : State :=
  let c := cmdAt s k
  match nsErr s c with
  | some st => failNow k st 0 0 s
  | none => match lenErr s c lim moves with
    | some st => failNow k st 0 0 s
    | none => match zoneReadErr s c c.lba c.nlb with
      | some st => failNow k st 0 0 s
      | none => readGo k s
def runRead (k : Nat) (s : State) : State := readChecked k 1024 true s
def runVerify (k : Nat) (s : State) : State := readChecked k 65536 false s
/-- Copy (R158, R162, R166): format 0, limits, sources and destination inside the namespace. -/
def runCopy (k : Nat) (s : State) : State :=
  let c := cmdAt s k
  let n := nsAt s c.e.nsid
  let rs := copyRanges c.e
  match nsErr s c with
  | some st => failNow k st 0 0 s
  | none =>
    if d12 c.e 11 8 ≠ 0 ∨ 128 < rs.length ∨ rs.any (fun r => decide (1024 < r.2)) ∨ 1024 < c.nlb then failNow k invalidField 0 0 s
    else if c.e.dlen < 32 * rs.length then failNow k sglLength 0 0 s
    else if n.nsze < c.lba + c.nlb ∨ rs.any (fun r => decide (n.nsze < r.1 + r.2)) then failNow k lbaRange 0 0 s
    else match rs.findSome? (fun r => zoneReadErr s c r.1 r.2) with
      | some st => failNow k st 0 0 s
      | none => writeChecked k 1024 false s
/-- Flush (R176): waits for the writes fetched before it on its queue. -/
def runFlush (k : Nat) (s : State) : State :=
  let c := cmdAt s k
  let l := (s.cmds.filter fun d => d.1 != k && d.2.e.sqid == c.e.sqid && decide (d.2.e.port = c.e.port) && d.2.order < c.order
    && (isWrite d.2.kind || d.2.kind == .dsm)).map (·.1)
  if l = [] then finishCmd k (0, 0) 0 0 [] s else updCmd k (fun x => { x with st := .flushWait, after := l }) s
/-- Dataset Management (R162): deallocates on a conventional namespace, changes nothing on a zoned one. -/
def runDsm (k : Nat) (s : State) : State :=
  let c := cmdAt s k
  let n := nsAt s c.e.nsid
  let rs := dsmRanges c.e
  match nsErr s c with
  | some st => failNow k st 0 0 s
  | none =>
    if n.zoned ∨ !bit c.e.cdw11.toNat 2 then finishCmd k (0, 0) 0 0 [] s
    else if c.e.dlen < 16 * rs.length then failNow k sglLength 0 0 s
    else if rs.any (fun r => decide (n.nsze < r.1 + r.2)) then failNow k lbaRange 0 0 s
    else lockStage (fun k s => clearRecs k rs s) k s

/-! ### Zone management (R136–R144, R187). -/
/-- Earlier writes and appends to the zones that a command names. -/
def zoneEarlier (s : State) (k : Nat) : List Nat :=
  let c := cmdAt s k
  (s.cmds.filter fun d => d.1 != k && isWrite d.2.kind && d.2.e.nsid == c.e.nsid && d.2.order < c.order && arrived d.2
    && (bit c.e.cdw13.toNat 8 && c.kind == .zoneSend || d.2.lba / 1048576 == c.lba / 1048576)).map (·.1)
/-- Checks of a zone command: the namespace's command set, the zone start (R162). -/
def zoneCmdErr (s : State) (c : Cmd) (conv : Nat × Nat) : Option (Nat × Nat) :=
  let n := nsAt s c.e.nsid
  match nsErr s c with
  | some st => some st
  | none =>
    if !n.zoned then some conv
    else if c.kind = .zoneSend ∧ bit c.e.cdw13.toNat 8 then none
    else if c.lba % 1048576 ≠ 0 then some invalidField
    else if n.nsze ≤ c.lba then some lbaRange else none
/-- A zone action whose zone is in a state that R136 does not allow. -/
def stateErr (k : Nat) (s : State) : State := failNow k (1, 0xBF) 0 0 s
/-- Runs a zone action under its checks. -/
def zoneSend (k : Nat) (go : Cmd → State → State) (s : State) : State :=
  match zoneCmdErr s (cmdAt s k) invalidOpcode with
  | some st => failNow k st 0 0 s
  | none => go (cmdAt s k) s
/-- State of the zone that a zone action without Select All names. -/
def namedState (s : State) (c : Cmd) : ZState := (zoneAt s (zoneKey c.e.nsid (c.lba / 1048576))).st
def selAll (c : Cmd) : Bool := bit c.e.cdw13.toNat 8
/-- Zone Open of one zone that is not Empty (R136). -/
def setOpen (nsid z cls : Nat) (cmd : Option Nat) (s : State) : State :=
  let zk := zoneKey nsid z
  let old := zoneAt s zk
  journal (ownerOfNs s nsid) { kind := 2, nsid := nsid, lba := z * 1048576, slot := old.slot.getD 0, offset := cls, cmd := cmd, undo := some (zk, old) }
    (updZone zk (fun x => { x with st := .explOpen }) s)
def zoneOpenWith (granted : Bool) (k : Nat) (s : State) : State := zoneSend k (fun c s =>
  if selAll c then zoneAct k (zonesIn s c.e.nsid (· == .closed)) (fun z s => setOpen c.e.nsid z (zoneAt s (zoneKey c.e.nsid z)).cls (some k) s) s
  else match namedState s c with
    | .implOpen | .closed => zoneAct k [c.lba / 1048576] (fun z s => setOpen c.e.nsid z (zoneAt s (zoneKey c.e.nsid z)).cls (some k) s) s
    | .empty =>
      if mustAsk s c.e.nsid && !granted then updCmd k (fun x => { x with st := .allocWait, since := now s }) s
      else (match openZone c.e.nsid (c.lba / 1048576) c.cls true (some k) s with
       | .done s => updCmd k (fun x => { x with st := .journal, recs := x.recs + 1 }) s
       | .wait f s => updCmd k (fun x => { x with st := .openWait, stopFrond := f, since := if x.st = .openWait then x.since else now s }) s
       | .exhausted d => failNow k (7, 0x83) d 0 s
       | .tooMany => failNow k (1, 0xBD) 0 0 s)
    | _ => stateErr k s) s
def zoneOpenCmd (k : Nat) (s : State) : State := zoneOpenWith false k s
def zoneCloseCmd (k : Nat) (s : State) : State := zoneSend k (fun c s =>
  let open' := fun (x : ZState) => x == .implOpen || x == .explOpen
  if selAll c ∨ open' (namedState s c) then wake (zoneAct k (zoneTargets s c open') (fun z s => closeZone c.e.nsid z (some k) s) s)
  else if namedState s c = .closed then finishCmd k (0, 0) 0 0 [] s else stateErr k s) s
/-- Earlier commands that read blocks of the zones that a Zone Reset names: they return the old data (R141). -/
def readsEarlier (s : State) (k : Nat) : List Nat :=
  let c := cmdAt s k
  let z := c.lba / 1048576
  let inZone := fun (lba n : Nat) => decide (lba / 1048576 ≤ z ∧ z ≤ (lba + (n - 1)) / 1048576)
  let touches := fun (d : Cmd) => match d.kind with
    | .read | .verify | .winnow | .bulkRead => selAll c || inZone d.lba d.nlb
    | .copy => selAll c || (copyRanges d.e).any fun r => inZone r.1 r.2
    | _ => false
  (s.cmds.filter fun d => d.1 != k && d.2.e.nsid == c.e.nsid && d.2.order < c.order && arrived d.2 && touches d.2).map (·.1)
/-- Zone Finish or Reset once the earlier commands that it waits for have completed. -/
def afterEarlier (before : List Nat) (k : Nat) (go : Nat → State → State) (s : State) : State :=
  match before with
  | [] => wake (go k s)
  | l => updCmd k (fun x => { x with st := .flushWait, after := l }) s
def zoneFinishRun (k : Nat) (s : State) : State := zoneSend k (fun c s =>
  if selAll c ∨ finishable (namedState s c) then afterEarlier (zoneEarlier s k) k zoneFinishCmd s
  else match namedState s c with
    | .full => finishCmd k (0, 0) 0 0 [] s
    | .empty => afterEarlier (zoneEarlier s k) k zoneFinishCmd s
    | _ => stateErr k s) s
def zoneResetRun (k : Nat) (s : State) : State := zoneSend k (fun c s =>
  if selAll c ∨ resettable (namedState s c) then afterEarlier (zoneEarlier s k ++ readsEarlier s k) k zoneResetCmd s
  else if namedState s c = .empty then finishCmd k (0, 0) 0 0 [] s else stateErr k s) s
def zoneOfflineCmd (k : Nat) (s : State) : State := zoneSend k (fun c s =>
  if selAll c ∨ namedState s c = .readOnly then
    wake (zoneAct k (zoneTargets s c (· == .readOnly)) (fun z s => offlineZone c.e.nsid z (some k) s) s)
  else stateErr k s) s
/-- The zone send action of a command (CDW13[7:0]). -/
def runZoneSend (k : Nat) (s : State) : State :=
  match d13 (cmdAt s k).e 7 0 with
  | 1 => zoneCloseCmd k s
  | 2 => zoneFinishRun k s
  | 3 => zoneOpenCmd k s
  | 4 => zoneResetRun k s
  | 5 => zoneOfflineCmd k s
  | _ => zoneSend k (fun _ s => failNow k invalidField 0 0 s) s
/-- A zone descriptor of Report Zones: type 2, state, capacity, start, write pointer; no attribute set (R133). -/
def zoneDesc (n : Ns) (z : Zone) (i : Nat) : List Byte :=
  [2, BitVec.ofNat 8 (zStateCode z.st * 16)] ++ zeros 6 ++ le 8 (capOf n.profile) ++ le 8 (i * 1048576) ++ le 8 (i * 1048576 + z.wp) ++ zeros 32
/-- Does a reporting option select a state (ZNS: 0 every zone, 1–7 one state)? -/
def reports (opt : Nat) (z : ZState) : Bool :=
  match opt, z with
  | 0, _ | 1, .empty | 2, .implOpen | 3, .explOpen | 4, .closed | 5, .full | 6, .readOnly | 7, .offline => true
  | _, _ => false
/-- Report Zones, with partial report (R162). -/
def runZoneRecv (k : Nat) (s : State) : State :=
  let c := cmdAt s k
  let n := nsAt s c.e.nsid
  match nsErr s c with
  | some st => failNow k st 0 0 s
  | none =>
    if !n.zoned then failNow k invalidOpcode 0 0 s
    else if d13 c.e 7 0 ≠ 0 ∨ 7 < d13 c.e 15 8 then failNow k invalidField 0 0 s
    else if n.nsze ≤ c.lba then failNow k lbaRange 0 0 s
    else
      let len := (c.e.cdw12.toNat + 1) * 4
      let first := c.lba / 1048576
      let sel := ((List.range (zonesOf n - first)).map (first + ·)).filter fun z => reports (d13 c.e 15 8) (zoneAt s (zoneKey c.e.nsid z)).st
      let fit := sel.take ((len - 64) / 64)
      let nz := if bit c.e.cdw13.toNat 16 then fit.length else sel.length
      let d := le 8 nz ++ zeros 56 ++ fit.flatMap fun z => zoneDesc n (zoneAt s (zoneKey c.e.nsid z)) z
      if c.e.dlen < len then failNow k sglLength 0 0 s else finishCmd k (0, 0) 0 0 (fitTo len d) s
/-- Zone Digest (R187, R276): waits for the earlier writes and appends of its zone. -/
def runDigest (k : Nat) (s : State) : State :=
  let c := cmdAt s k
  match zoneCmdErr s c invalidField with
  | some st => failNow k st 0 0 s
  | none =>
    if namedState s c = .offline then failNow k (1, 0xBB) 0 0 s
    else if c.e.dlen < 32 then failNow k sglLength 0 0 s
    else if c.e.cdw12 ≠ 0 ∨ c.e.cdw13 ≠ 0 ∨ c.e.cdw14 ≠ 0 ∨ c.e.cdw15 ≠ 0 then failNow k invalidField 0 0 s
    else match zoneEarlier s k with
      | [] => finishCmd k (0, 0) 0 0 (digestData s c.e.nsid (c.lba / 1048576)) s
      | l => updCmd k (fun x => { x with st := .flushWait, after := l }) s

/-! ### Bulk and winnow commands at their fetch (R185, R236, R246–R249). -/
/-- Bulk Read: reads the blocks that the remote region still takes (R246, R247). -/
def runBulkRead (k : Nat) (s : State) : State :=
  let c := cmdAt s k
  match nsErr s c with
  | some st => failNow k st 0 0 s
  | none =>
    if c.e.dptr ≠ 0 ∨ d12 c.e 31 16 ≠ 0 ∨ d13 c.e 31 8 ≠ 0 ∨ 1024 < c.nlb then failNow k invalidField 0 0 s
    else if (nsAt s c.e.nsid).nsze < c.lba + c.nlb then failNow k lbaRange 0 0 s
    else match bulkErr s c with
      | some r => failNow k (7, 0x86) 0 r s
      | none => match zoneReadErr s c c.lba c.nlb with
        | some st => failNow k st 0 0 s
        | none =>
          let room := regionRoom c
          if room = 0 then failNow k (7, 0x86) 0 2 s
          else if room < c.nlb * 4096 then
            readGo k (updCmd k (fun x => { x with nlb := cdiv room 4096, status := some (7, 0x86), dw1 := 2 }) s)
          else readGo k s
/-- Bulk Append (R248): acts as a Zone Append; its data comes by RDMA READ. -/
def runBulkAppend (k : Nat) (s : State) : State :=
  let c := cmdAt s k
  match nsErr s c with
  | some st => failNow k st 0 0 s
  | none =>
    if !(nsAt s c.e.nsid).zoned ∨ c.e.dptr ≠ 0 ∨ d12 c.e 31 16 ≠ 0 ∨ d13 c.e 31 8 ≠ 0 then failNow k invalidField 0 0 s
    else match bulkErr s c with
      | some r => failNow k (7, 0x86) 0 r s
      | none => writeChecked k 512 false s
/-- Winnow Read (R236, R186): the program slot must be loaded; the scan lies within one zone, or within 1,048,576 blocks. -/
def runWinnow (k : Nat) (s : State) : State :=
  let c := cmdAt s k
  let n := nsAt s c.e.nsid
  match nsErr s c with
  | some st => failNow k st 0 0 s
  | none =>
    if c.nlb = 0 ∨ 1048576 < c.nlb ∨ 15 < d13 c.e 7 0 ∨ d13 c.e 31 9 ≠ 0 ∨ d14 c.e 31 16 ≠ 0 ∨ d14 c.e 15 0 = 0 ∨ 1024 < d14 c.e 15 0
        ∨ c.e.cdw15 ≠ 0 then failNow k invalidField 0 0 s
    else if n.nsze < c.lba + c.nlb then failNow k lbaRange 0 0 s
    else if n.zoned ∧ 1 < (rangeZones c.lba c.nlb).length then failNow k invalidField 0 0 s
    else if c.e.dlen < d14 c.e 15 0 * 4096 then failNow k sglLength 0 0 s
    else if c.prog = [] then failNow k (7, 0x85) 0 11 s
    else match zoneReadErr s c c.lba c.nlb with
      | some st => failNow k st 0 0 s
      | none => readGo k s
/-- Runs a command by its kind, at its owner. -/
def runKind (k : Nat) (s : State) : State :=
  match (cmdAt s k).kind with
  | .read => runRead k s
  | .write => runWrite k s
  | .append => runAppend k s
  | .writeZeroes => runWriteZeroes k s
  | .dsm => runDsm k s
  | .verify => runVerify k s
  | .copy => runCopy k s
  | .flush => runFlush k s
  | .zoneSend => runZoneSend k s
  | .zoneRecv => runZoneRecv k s
  | .winnow => runWinnow k s
  | .digest => runDigest k s
  | .bulkRead => runBulkRead k s
  | .bulkAppend => runBulkAppend k s
  | .other => failNow k invalidOpcode 0 0 s
/-- A waiting command tries again: deferred for buffers, waiting for room, for an erase, for a free stripe or for lock
entries (R123, R137, R148, R172, R259). -/
def resume (k : Nat) (s : State) : State :=
  let c := cmdAt s k
  match c.st with
  | .deferred | .lockEntries => if isWrite c.kind then writeGo k s else if c.kind = .dsm then runDsm k s else readGo k s
  | .fullWait | .admitWait => writeAdmit k s
  | .gcWait => convStage k s
  | .aheadWait => zoneStage k s
  | .openWait =>
    if c.kind = .zoneSend then zoneOpenCmd k s
    else if (nsAt s c.e.nsid).zoned then
      (if (zoneAt s (zoneKey c.e.nsid (c.lba / 1048576))).openW.any (fun w => w.2.2 == k) then writeAdmit k s else zoneStage k s)
    else if c.cws = [] then convStage k s else writeAdmit k s
  | _ => s
/-- A command's locks are clear: it goes on (R171). -/
def lockGranted (k : Nat) (s : State) : State :=
  let c := cmdAt s k
  if isWrite c.kind then writeGo k s else if c.kind = .dsm then runDsm k s else readGo k s

/-! ### The rows. -/
/-- FLUSH (R176). -/
def execFlush (e : Sqe) (s : State) : Out := .next (ioRun (asOp 0x00 e) runFlush s)
/-- WRITE (R112, R138, R173). -/
def execWrite (e : Sqe) (s : State) : Out := .next (ioRun (asOp 0x01 e) runWrite s)
/-- READ (R22, R134). -/
def execRead (e : Sqe) (s : State) : Out := .next (ioRun (asOp 0x02 e) runRead s)
/-- WRITE_ZEROES (R162). -/
def execWriteZeroes (e : Sqe) (s : State) : Out := .next (ioRun (asOp 0x08 e) runWriteZeroes s)
/-- DATASET_MANAGEMENT (R162). -/
def execDatasetManagement (e : Sqe) (s : State) : Out := .next (ioRun (asOp 0x09 e) runDsm s)
/-- VERIFY (R162). -/
def execVerify (e : Sqe) (s : State) : Out := .next (ioRun (asOp 0x0C e) runVerify s)
/-- COPY (R162). -/
def execCopy (e : Sqe) (s : State) : Out := .next (ioRun (asOp 0x19 e) runCopy s)
/-- ZONE_OPEN (R136, R137). -/
def execZoneOpen (e : Sqe) (s : State) : Out := .next (ioRun (asZsa 3 e) zoneOpenCmd s)
/-- ZONE_CLOSE (R136). -/
def execZoneClose (e : Sqe) (s : State) : Out := .next (ioRun (asZsa 1 e) zoneCloseCmd s)
/-- ZONE_FINISH (R139); it waits for the codewords of earlier writes of the zone (assumption 23). -/
def execZoneFinish (e : Sqe) (s : State) : Out := .next (ioRun (asZsa 2 e) zoneFinishRun s)
/-- ZONE_RESET (R141). -/
def execZoneReset (e : Sqe) (s : State) : Out := .next (ioRun (asZsa 4 e) zoneResetRun s)
/-- ZONE_OFFLINE (R144). -/
def execZoneOffline (e : Sqe) (s : State) : Out := .next (ioRun (asZsa 5 e) zoneOfflineCmd s)
/-- SET_ZONE_DESCRIPTOR_EXTENSION (R162): Invalid Field in Command. -/
def execSetZoneDescriptorExtension (e : Sqe) (s : State) : Out :=
  .next (ioRun (asZsa 16 e) (fun k s => zoneSend k (fun _ s => failNow k invalidField 0 0 s) s) s)
/-- REPORT_ZONES (R162). -/
def execReportZones (e : Sqe) (s : State) : Out := .next (ioRun (asOp 0x7A e) runZoneRecv s)
/-- ZONE_APPEND (R138). -/
def execZoneAppend (e : Sqe) (s : State) : Out := .next (ioRun (asOp 0x7D e) runAppend s)
/-- WINNOW_READ (R236). -/
def execWinnowRead (e : Sqe) (s : State) : Out := .next (ioRun (asOp 0x82 e) runWinnow s)
/-- ZONE_DIGEST (R187). -/
def execZoneDigest (e : Sqe) (s : State) : Out := .next (ioRun (asOp 0x86 e) runDigest s)
/-- BULK_READ (R246). -/
def execBulkRead (e : Sqe) (s : State) : Out := .next (ioRun (asOp 0x88 e) runBulkRead s)
/-- BULK_APPEND (R248). -/
def execBulkAppend (e : Sqe) (s : State) : Out := .next (ioRun (asOp 0x8C e) runBulkAppend s)

/-- FORWARDED_COMMAND (R288, R290): the owner takes it in its order of arrival; one with an older OWN_EPOCH is returned and
forwarded again to the current owner. -/
def execForwardedCommand (cmd epoch : Nat) (s : State) : Out :=
  let c := cmdAt s cmd
  if (tfind s.cmds cmd).isNone ∨ c.st ≠ .fetched ∨ c.fwd.isNone then .next s
  else if mustHold s c.card c.e.nsid then .next (updCmd cmd (fun x => { x with st := .xferWait, fwd := none }) s)
  else if epoch = (cardAt s c.owner).ownEpoch then
    let (k, s) := fresh s
    .next (runKind cmd (updCmd cmd (fun x => { x with order := k }) s))
  else
    let o := ownerOfNs s c.e.nsid
    let s := updCmd cmd (fun x => { x with owner := o, fwd := none }) s
    .next (atOwner runKind cmd s)
/-- PIECE_LIST (R289): the fetching card issues the pieces on its own links. -/
def execPieceList (cmd : Nat) (s : State) : Out :=
  if (cmdAt s cmd).st = .listWait then .next (settleFailed (proceedRead cmd s)) else .next s
/-- RANGE_LOCK_GRANT (R171): the command proceeds once its prefixes are clear. -/
def execRangeLockGrant (cmd : Nat) (s : State) : Out :=
  let c := cmdAt s cmd
  if c.st = .lockWait ∧ locksClear s cmd then .next (lockGranted cmd (updCmd cmd (fun x => { x with st := .deferred, since := now s }) s))
  else if c.st = .lockEntries then .next (resume cmd s)
  else .next s
/-- RANGE_LOCK_TIMEOUT (R172): 64 frames without entries. -/
def execRangeLockTimeout (cmd : Nat) (s : State) : Out :=
  let c := cmdAt s cmd
  if c.st = .lockEntries ∧ elapsed s c.since 64 then .next (failNow cmd (7, 0x84) 0 0 s) else .next s
/-- ZONE_OPEN_WAIT_EXPIRY (R137): 400 frames. -/
def execZoneOpenWaitExpiry (cmd : Nat) (s : State) : Out :=
  let c := cmdAt s cmd
  if c.st = .openWait ∧ elapsed s c.since 400 then .next (failNow cmd (7, 0x83) c.stopFrond 0 s) else .next s
/-- GC_WRITE_WAIT_EXPIRY (R148): 4,000 frames with two free stripes or fewer; with more a write is never refused. -/
def execGcWriteWaitExpiry (cmd : Nat) (s : State) : Out :=
  let c := cmdAt s cmd
  if c.st = .gcWait ∧ elapsed s c.since 4000 ∧ freeStripes s c.e.nsid ≤ 2 then .next (failNow cmd (7, 0x83) 16 0 s) else .next s
/-- FULL_WAIT_EXPIRY (R124): FULL_WAIT frames of stopped admission fail the write; assigned blocks become fill codewords. -/
def execFullWaitExpiry (cmd : Nat) (s : State) : Out :=
  let c := cmdAt s cmd
  if c.st = .fullWait ∧ s.feat.fullWait ≤ c.stoppedFrames then
    let s := updSeedbed (fun b => { b with fullFails := b.fullFails + 1 }) s
    .next (aenPage 0xC6 (failCmd cmd (7, 0x81) c.stopFrond 0 s))
  else .next s
/-- BUFFER_DEFERRAL_EXPIRY (R259, R177): 400 frames of deferral of the fetch, or of a piece, fail the command. -/
def execBufferDeferralExpiry (cmd : Nat) (s : State) : Out :=
  let c := cmdAt s cmd
  let late := fun (p : Piece) => match p.deferredAt with | some f => elapsed s f 400 | none => false
  let fail := fun (card : CardId) (pool : Nat) (s : State) =>
    failCmd cmd (7, 0x82) pool 0 (updPool card pool (fun q => { q with failed := (q.failed + 1) % 2 ^ 32 }) s)
  if c.st = .deferred ∧ c.bufs = [] ∧ elapsed s c.since 400 then .next (fail c.owner c.dw0 s)
  else if c.pieces.any (fun p => late (pieceAt s p)) then .next (fail c.card 3 s)
  else .next s

end Sys2Proof.Machine
end

