-- ==== Sys2Proof/Machine/Metas.lean ====
section
/-! DEFINITION. Metadata on its way to the medium: what is written, on which fronds, and when it is packed (R74, R77, R120, R150–R155,
R235). -/
namespace Sys2Proof.Machine
open Sys2Proof

/-- Enters a metadata work: one copy for each frond named. -/
def addWork (of : MetaOf) (size : Nat) (fronds : List Nat) (s : State) : State :=
  let (n, s) := fresh s
  updMetas (fun m => { m with work := tins m.work n { of := of, size := size, copies := fronds.map fun f => (f, none) } }) s
def dropWork (n : Nat) (s : State) : State := updMetas (fun m => { m with work := tdel m.work n }) s
/-- The first work of a kind, oldest first. -/
def findWork (s : State) (p : MetaOf → Bool) : Option (Nat × MetaWork) := s.metas.work.find? fun w => p w.2.of
def isErases (f : Nat) : MetaOf → Bool | .erases g _ _ _ => g == f | _ => false
def isMembers (f : Nat) : MetaOf → Bool | .members g _ => g == f | _ => false
def isJournal (c : CardId) : MetaOf → Bool | .journal d _ _ => decide (d = c) | _ => false
def isRoot (c : CardId) : MetaOf → Bool | .root d => decide (d = c) | _ => false
def isSegment (c : CardId) : MetaOf → Bool | .segment d _ => decide (d = c) | _ => false
def isPage (k : Nat) : MetaOf → Bool | .page x => x == k | _ => false
def isRewrite (b : Nat) : MetaOf → Bool | .rewrite x _ => x == b | _ => false
def isProgram (j : Nat) : MetaOf → Bool | .program x _ => x == j | _ => false
/-- The work is written: every copy of it is programmed. -/
def written (w : Option (Nat × MetaWork)) : Bool := match w with | some x => x.2.copies.isEmpty && x.2.reads == 0 | none => false
/-- Fronds of the three copies from frond j on: j, j + 5 and j + 11; where one is absent the next present frond that takes none
(R150, R152; assumption 183). -/
def metaFronds (s : State) (j : Nat) : List Nat :=
  [0, 5, 11].foldl (fun l d => l ++ (((List.range 16).map fun i => (j + d + i) % 16).find? fun f => frondIn s f && !l.contains f).toList) []
/-- Packs records of a card, 256 to a codeword, on the fronds of the frame (R152). -/
def packRecs (c : CardId) : Nat → State → State
  | 0, s => s
  | n + 1, s =>
    match (jAt s c).queue.take 256 with
    | [] => s
    | l => packRecs c n (updJ c (fun j => { j with queue := j.queue.drop 256, packFc := some s.time.fc })
        (addWork (.journal c l (seqNow s)) 1 (metaFronds s (s.time.fc % 16)) s))
/-- The records of a card that wait are packed once in a frame, as its first plan is fixed (R152; assumption 183). -/
def packJournal (c : CardId) (s : State) : State :=
  if (jAt s c).packFc = some s.time.fc ∨ metaFronds s (s.time.fc % 16) = [] then s else packRecs c ((jAt s c).queue.length / 256 + 1) s
/-- Journal records of a card that are packed and not programmed on all three copies. -/
def workRecs (s : State) (c : CardId) : List JRec := s.metas.work.flatMap fun w => match w.2.of with
  | .journal d l _ => if d = c then l else []
  | _ => []
/-- No journal record tied to a command or a job waits to be programmed (R152, R464). -/
def recsDone (s : State) (k : Nat) : Bool :=
  !((workRecs s .ca ++ workRecs s .cb ++ s.jA.queue ++ s.jB.queue).any fun r => r.cmd == some k)
/-- A frond leaves, or parks, once its member table and an erase record are written (R410, R433): they are due at once. -/
def leavingFc (s : State) (f : Nat) : Option Nat :=
  if (frondAt s f).prepared = 1 then some (frondAt s f).prepFc
  else match s.power.entry with | some e => if e.step = 3 then some e.parkFc else none | none => none
/-- A frond's erase record is written since a frame, and nothing has been erased since (R410, R433). -/
def erasesKept (s : State) (f fc : Nat) : Bool :=
  decide (fc ≤ (frondAt s f).journalFc) && (frondAt s f).erased.isEmpty && (findWork s (isErases f)).isNone
/-- Verified row counts of a frond are packed for its member table, within 16 frames of the last program (R120). -/
def packMembers (f : Nat) (s : State) : State :=
  let g := frondAt s f
  if g.batch = [] ∨ (s.time.fc < g.tableFc + 15 ∧ (leavingFc s f).isNone) ∨ (findWork s (isMembers f)).isSome then s
  else addWork (.members f g.batch) (min 16 (cdiv g.batch.length 256)) [f] s
/-- The next position that a new frond's die brought unerased, of each of its dies (R102). -/
def unwipedNext (s : State) (f : Nat) : List Nat :=
  (s.dies.filter fun d => frondOfDie d.1 == f && decide (d.2.state ≤ 1)).filterMap fun d => match d.2.unwiped with
    | some p => if p < 2048 then some (blkKey d.1 p) else none
    | none => none
/-- A new frond's next positions enter the block table as dirty, factory-bad ones left out (R60, R102). -/
def takeUnwiped (f : Nat) (s : State) : State :=
  (unwipedNext s f).foldl (fun s k =>
    let s := updDie (k / 4096) (fun d => { d with unwiped := if k % 4096 < 2047 then some (k % 4096 + 1) else none }) s
    if (blkAt s k).state = 9 then s
    else updFrond f (fun g => { g with dirty := if g.dirty.contains k then g.dirty else g.dirty ++ [k] })
      (updBlk k (fun b => { b with state := 1, after := if b.state = 0 then b.after else b.state, mode := none }) s)) s
/-- A frond's erase record is packed every 64 frames: the erases completed since the last one, and the blocks that may be erased
next; two copies (R77). -/
def packErases (f : Nat) (s : State) : State :=
  let g := frondAt s f
  let due := decide (g.journalFc + 64 ≤ s.time.fc + 1) || (match leavingFc s f with | some t => !erasesKept s f t | none => false)
  if !due ∨ (findWork s (isErases f)).isSome then s
  else
    let s := takeUnwiped f s
    let g := frondAt s f
    addWork (.erases f g.erased g.recovered g.dirty) 1 [f, f] (updFrond f (fun g => { g with journalFc := s.time.fc }) s)
/-- What a frond's next plan finds to write: map records, its member table, its erase journal (R43). -/
def packMetas (f : Nat) (s : State) : State := packErases f (packMembers f (packJournal .cb (packJournal .ca s)))
/-- A map page is written back, on the three fronds of its number (R150, R151). -/
def writePage (k : Nat) (s : State) : State :=
  if (findWork s (isPage k)).isSome || (metaFronds s (k % 2 ^ 29 % 16)).isEmpty then s
  else { addWork (.page k) 4 (metaFronds s (k % 2 ^ 29 % 16)) s with pages := tupd {} s.pages k (fun p => { p with writing := true }) }
/-- Works with a copy for a frond that no program carries yet, oldest first. -/
def worksFor (s : State) (f : Nat) : List (Nat × MetaWork) := s.metas.work.filter fun w => w.2.reads == 0 && w.2.copies.any fun c => c.1 == f && c.2.isNone
/-- Works that fit in one program of 16 codewords, oldest first, each with the place of its first codeword; those of a plane page or
more begin on a plane (R110). -/
def fitWorks : Nat → List (Nat × MetaWork) → List (Nat × Nat)
  | _, [] => []
  | o, w :: r =>
    let at' := if 4 ≤ w.2.size then (o + 3) / 4 * 4 else o
    if at' + w.2.size ≤ 16 then (w.1, at') :: fitWorks (at' + w.2.size) r else fitWorks o r
/-- One-segment programs that a frond's waiting works need. -/
def programsDue (s : State) (f : Nat) : Nat :=
  (worksFor s f).foldl (fun a w => a + (w.2.copies.filter fun c => c.1 == f && c.2.isNone).length) 0
/-- A copy of a work on a frond is carried by a program from now on. -/
def carry (f q chan : Nat) (w : MetaWork) : MetaWork :=
  match w.copies.findIdx? (fun c => c.1 == f && c.2.isNone) with
  | some i => { w with copies := w.copies.set i (f, some q), chans := w.chans ++ [chan] }
  | none => w
/-- A program that does not bring its copies: they are packed again (R68, R113). -/
def uncarry (q : Nat) (s : State) : State :=
  updMetas (fun m => { m with work := m.work.map fun w => (w.1, { w.2 with copies := w.2.copies.map fun c => if c.2 = some q then (c.1, none) else c }) }) s
/-- Copies of works that were to lie on a frond that has gone go to the next present frond that takes none (R152; assumption 183);
what only that frond keeps ends with it. -/
def metasGone (f : Nat) (s : State) : State :=
  let own := fun (o : MetaOf) => isErases f o || isMembers f o || (match o with | .rewrite b _ => frondOfDie (b / 4096) == f | _ => false)
  let one := fun (w : MetaWork) => w.copies.foldl (fun (l : List (Nat × Option Nat)) c =>
    if c.1 ≠ f then l ++ [c]
    else match ((List.range 16).map fun i => (f + i) % 16).find? fun g => g != f && frondIn s g && !(w.copies.any fun x => x.1 == g) && !(l.any fun x => x.1 == g) with
      | some g => l ++ [(g, none)]
      | none => l) []
  updMetas (fun m => { m with work := (m.work.filter fun w => !own w.2.of).map fun w => (w.1, { w.2 with copies := one w.2 }) }) s

/-! ### Rewriting a metadata block (R74). -/
/-- Reads one wordline set of a metadata block that is rewritten. -/
def readRow (k wl : Nat) (s : State) : State :=
  let n := s.next
  let s := updWork n (fun w => { w with reads := 4 }) (addWork (.rewrite k wl) 16 [frondOfDie (k / 4096)] s)
  (List.range 4).foldl (fun s p => addReq { kind := .refreshRead, owner := s.time.master, die := k / 4096, block := k % 4096, wl := wl, plane := p,
                                             slc := true, mask := 15, target := s.time.fc, arrival := now s, work := some n } s) s
/-- A metadata block has nothing left that counts: it goes to the dirty pool. -/
def metaDone (k : Nat) (s : State) : State :=
  updFrond (frondOfDie (k / 4096)) (fun g => { g with refreshDone := g.refreshDone + 1 }) (updBlk k (fun b => { b with after := 5 }) (toDirty k s))
/-- The next wordline set of a metadata block from one on, or its end. -/
def rewriteFrom (k wl : Nat) (s : State) : State := if wl < (blkAt s k).rows then readRow k wl s else metaDone k s
/-- Scheduled metadata blocks of a frond are rewritten, each once: its head is closed first (R74). -/
def rewriteTick (f : Nat) (s : State) : State :=
  (s.blks.filter fun b => b.2.state == 5 && b.2.refresh && frondOfDie (b.1 / 4096) == f && decide ((dieAt s (b.1 / 4096)).state = 0)
      && (findWork s (isRewrite b.1)).isNone).foldl (fun s b =>
    rewriteFrom b.1 0 (updDie (b.1 / 4096) (fun d => { d with metaHead := d.metaHead.filter fun h => h.1 != b.1 % 4096 }) s)) s
/-- Places of map pages that a wordline set held move with it. -/
def movePlaces (k wl : Nat) (die block row : Nat) (s : State) : State :=
  let one := fun (x : Nat × Nat × Nat) => if x.1 / 4 = k / 4096 ∧ x.2.1 = k % 4096 ∧ x.2.2 = wl then (die * 4 + x.1 % 4, block, row) else x
  updMetas (fun m => { m with places := m.places.map fun p => (p.1, p.2.map one) }) s
/-- A metadata program has passed: its copies are programmed, and with a work's last one a map page is clean, a rewritten set's
successor is read, a table segment is done; other works wait for their row (R120, R150–R154). -/
def metaPass (q : Nat) (p : Prog) (s : State) : State :=
  let s := updBlk (blkKey p.die p.block) (fun b => { b with mode := some false }) s
  p.works.foldl (fun s x =>
    match tfind s.metas.work x.1 with
    | none => s
    | some w =>
      let w' := { w with copies := w.copies.filter fun c => c.2 != some q }
      let s := updWork x.1 (fun _ => w') s
      let s := match w.of with
        | .page k => updMetas (fun m => { m with places := tupd [] m.places k fun l =>
            (l.filter fun y => y.1 / 1024 != p.frond) ++ [(p.die * 4 + x.2 / 4, p.block, p.wl)] }) s
        | .rewrite k wl => movePlaces k wl p.die p.block p.wl s
        | _ => s
      if w'.copies ≠ [] then s
      else match w.of with
        | .page k => dropWork x.1 { s with pages := s.pages.map fun y => if y.1 = k ∧ y.2.writing then (k, { y.2 with dirty := false, writing := false }) else y }
        | .segment _ _ => dropWork x.1 s
        | .rewrite k wl => rewriteFrom k (wl + 1) (dropWork x.1 s)
        | _ => s) s
/-- Media metadata of the 16 codewords of a program: its codewords' own, KIND 3 for metadata, and KIND 2 for places left over (R110,
R127). -/
def progMeta (s : State) (p : Prog) : List (List Byte) :=
  let plain := fun (kind : CwKind) (seq : Nat) => mediaMeta p.die p.block p.wl 0 kind 0 0 seq
  (List.range 16).map fun i =>
    if p.works = [] then
      match p.cws[i]? with
      | some w => copyMeta w.1 (cwAt s w.1) { frond := p.frond, idx := w.2, die := p.die, block := p.block, wl := p.wl, place := i }
      | none => plain .padding 0
    else match p.works.find? fun x => decide (x.2 ≤ i ∧ i < x.2 + (workAt s x.1).size) with
      | some x => plain .metadata (match (workAt s x.1).of with | .journal _ _ q => q | _ => 0)
      | none => plain .padding 0

end Sys2Proof.Machine
end

