-- ==== Sys2Proof/Machine/Plans.lean ====
section
/-! DEFINITION. Frame plans: placing requests, ranks, charges, packing of seedbed programs, dies that fail or enter
quarantine (R34–R52, R81, R95, R105, R109–R111). -/
namespace Sys2Proof.Machine
open Sys2Proof

/-- The module is a member of a sheaf (R326). -/
def isMember (s : State) : Bool := s.sheaf.st == 1 || s.sheaf.st == 2
/-- SFC of the present frame: counted on from the last pair (R309). -/
def sfcNow (s : State) : Nat := s.sheaf.sfc + (s.time.fc - s.sheaf.fcAt)
def epochNow (s : State) : Nat := sfcNow s / 64
/-- The phase plan that is in force in an epoch (R322). -/
def planFor (s : State) (epoch : Nat) : PhasePlan :=
  match s.sheaf.planNext with | some (e, p) => if e ≤ epoch then p else s.sheaf.plan | none => s.sheaf.plan
/-- Erase segments at rank 7 that a frond may start in the next frame; none: no cap (R320). -/
def eraseCap (s : State) : Option Nat :=
  if !isMember s then none
  else
    let e := (sfcNow s + 1) / 64
    let p := planFor s e
    some (if bit (p.masks.getD (e % max 1 p.cycle) 0) s.sheaf.pos then p.heavy else p.light)
/-- Rank of a request (R43). -/
def rankOf : WorkKind → Nat
  | .boundRead => 1 | .seedProgram | .metaProgram => 2 | .weightedRead | .mapRead => 3 | .rebuildRead | .rebuildProgram => 4
  | .foldRead | .refreshRead => 5 | .backgroundRead | .gcRead => 6 | .erase => 7 | .scrub | .recal => 8
/-- Codewords a mask names. -/
def popMask (m : Nat) : Nat := (List.range 4).foldl (fun a i => a + b2n (bit m i)) 0
/-- Charges in tenths of a milliwatt (R44). -/
def readCharge (mask : Nat) : Nat := 50 + 3 * popMask mask
def baseCharge : Nat := 7680
/-- Cap of a channel's plan (R45, R52). -/
def chanCap (s : State) (c : Nat) : Nat := if (chanAt s c).reduced then 160 else 190
/-- A request serves host or rebuild reads, which a quarantined die does not take (R51). -/
def quarOk : WorkKind → Bool | .foldRead | .refreshRead | .scrub | .recal => true | _ => false
/-- The die takes this request at all (R51, R81, R94). -/
def dieTakes (s : State) (r : Req) : Bool :=
  let d := dieAt s r.die
  !frondAbsent s (frondOfDie r.die) && (d.state == 0 || (d.state == 1 && quarOk r.kind))
/-- The result of a read in frame t can meet its deadline (R39, R47). -/
def meets (s : State) (r : Req) (t : Nat) : Bool :=
  match r.deadline with | none => true | some d => decide (frameStart s (t + 1) + 3200 ≤ d)
/-- Lexicographic order of sort keys. -/
def lexLt : List Nat → List Nat → Bool
  | [], _ => false
  | _ :: _, [] => false
  | a :: r, b :: q => decide (a < b) || (a == b && lexLt r q)
/-- Sort key of a read (R43): rank, deadline, target frame, arrival, QA before QB; recomputation of a lost accumulator goes before
every other fold read (R117). -/
def reqKey (r : Req) : List Nat :=
  [rankOf r.kind, b2n (rankOf r.kind == 5 && r.accum.isNone), r.deadline.getD (2 ^ 80), r.target, r.arrival, cardNo r.owner]
def readKey (s : State) (n : Nat) : List Nat := reqKey (reqAt s n)
/-- Training frame of a channel (R65). -/
def trainsIn (g : FrondSt) (ch t : Nat) : Bool := g.training == some (ch, t)
/-- Counts from issue to the latest end of a sense (R35). -/
def senseCounts (slc : Bool) : Nat := if slc then 2560 else 6400
/-- Reads of a frond that are to run in a frame. -/
def readsIn (s : State) (f t : Nat) : List Req :=
  let g := frondAt s f
  ((g.waiting.filter fun n => (reqAt s n).frame == some t) ++ (if t = s.time.fc then g.cur.reads else []) ++ (if t = g.nxt.frame then g.nxt.reads else [])).map (reqAt s)
/-- Of these, the ones that a request cannot displace: in a fixed plan, or ahead of it in the order of R43. -/
def aheadIn (s : State) (f : Nat) (r : Req) (t : Nat) : List Req :=
  (readsIn s f t).filter fun q => q.st != .accepted || lexLt (reqKey q) (reqKey r)
/-- Segments that an operation takes (R38). -/
def segsOf : OpKind → Nat | .erase => 72 | .verify => 4 | _ => 20
/-- The started operation of a die may run a segment in a frame: it has segments left for it, a verification's among them. -/
def segmentIn (s : State) (die t : Nat) : Bool := match (dieAt s die).op with
  | some o => decide (t ≤ s.time.fc + (segsOf o.kind - o.segs) + (if o.kind = .erase ∨ o.kind = .verify then 0 else 4))
  | none => false
/-- The window in which a request fits in a frame beside what goes before it: a free slot of its plane, transfers in the plan that moves
its data out, the next frame's for the read window, and the allowance (R34, R39, R44, R45). -/
def winIn (s : State) (f : Nat) (r : Req) (t : Nat) : Option Window :=
  let g := frondAt s f
  let ch := chanOfDie r.die
  let now' := aheadIn s f r t
  let prior := (aheadIn s f r (t - 1)).filter (·.win == .read)
  let taken := fun w => now'.any fun q => q.die == r.die && q.plane == r.plane && q.win == w
  let cws := fun (l : List Req) => (l.filter fun q => chanOfDie q.die == ch).foldl (fun a q => a + popMask q.mask) (popMask r.mask)
  let power := prior.foldl (fun a q => a + 3 * popMask q.mask)
    (now'.foldl (fun a q => a + if q.win = .free then readCharge q.mask else 50) baseCharge)
  let covers := fun c => r.kind == .boundRead || decide (power + c ≤ g.allowance)
  if trainsIn g ch t || !(chanAt s ch).trained then none
  else if !taken .free && !segmentIn s r.die t && covers (readCharge r.mask) && decide (cws (now'.filter (·.win == .free) ++ prior) ≤ chanCap s ch) then some .free
  else if !taken .read && covers 50 && !trainsIn g ch (t + 1)
      && decide (cws (now'.filter (·.win == .read) ++ (aheadIn s f r (t + 1)).filter (·.win == .free)) ≤ chanCap s ch) then some .read
  else none
/-- The earliest open frame in which a request fits and can meet its deadline, with its window there (R39). -/
def findFrame (s : State) (f : Nat) (r : Req) : Nat → Nat → Option (Nat × Window)
  | 0, _ => none
  | n + 1, t => match (if meets s r t then winIn s f r t else none) with
    | some w => some (t, w)
    | none => findFrame s f r n (t + 1)
/-- The first frame whose plan of a frond is open (R40). -/
def openFrame (s : State) (f : Nat) : Nat :=
  let g := frondAt s f
  s.time.fc + if g.closed || (g.nxt.frame == s.time.fc + 1 && (g.nxt.fixed || g.nxt.hold)) then 2 else 1

/-! ### Channel plans (R45). -/
/-- Transfers of a channel in their order of service: carried data-out, data-in, data-out of this frame's reads. -/
def chanList (p : Plan) (ch : Nat) : List Xfer :=
  let l := p.xfers.filter fun x => x.chan == ch % 8
  l.filter (·.grp == 1) ++ l.filter (·.grp == 2) ++ l.filter (·.grp == 3)
/-- The count at which a channel's transfers have ended: at each moment the first of those ready goes, 82 counts a codeword. -/
def xferEnd : Nat → Nat → List Xfer → Nat
  | 0, t, _ => t
  | n + 1, t, l => match l.find? fun x => decide (x.ready ≤ t) with
    | some x => xferEnd n (t + 82 * x.n) (lrem l x)
    | none => match minBy (·.ready) l with | some x => xferEnd n (max t x.ready) l | none => t
/-- A channel's plan takes these further transfers: within its cap, all ended by count 15,984. -/
def xferFits (s : State) (f : Nat) (p : Plan) (l : List Xfer) : Bool :=
  l.all fun x =>
    let all := chanList { p with xfers := p.xfers ++ l } x.chan
    decide (all.foldl (fun a y => a + y.n) 0 ≤ chanCap s (f * 8 + x.chan)) && decide (xferEnd (2 * all.length + 1) 0 all ≤ 15984)
def addXfers (l : List Xfer) (p : Plan) : Plan := { p with xfers := p.xfers ++ l }
/-- Data-out of a read in the plan of its sense, from the latest end of it; or carried into the next frame's plan. -/
def outXfer (r : Req) (n issued : Nat) : Xfer :=
  { chan := chanOfDie r.die % 8, grp := 3, n := popMask r.mask, ready := issued + senseCounts r.slc, of := .read n }
def carryXfer (r : Req) (n : Nat) : Xfer := { chan := chanOfDie r.die % 8, grp := 1, n := popMask r.mask, of := .read n }
/-- Transfers of an item leave a plan. -/
def dropXfer (o : XferOf) (p : Plan) : Plan := { p with xfers := p.xfers.filter fun x => x.of != o }
/-- A read of a plan is given up: its slot stays idle in that frame (R42). -/
def idleRead (s : State) (n : Nat) (p : Plan) : Plan :=
  let p' := dropXfer (.read n) p
  if p.reads.contains n then
    { p' with reads := p.reads.filter (· ≠ n), idle := p.idle ++ [((reqAt s n).die, (reqAt s n).plane, (reqAt s n).win)] }
  else p'
/-- Sends a request again for a later frame (R39). -/
def sendAgain (n : Nat) (s : State) : State := updReq n (fun x => { x with st := .sent, target := s.time.fc + 1, frame := none }) s
/-- A piece whose plane read is not to be had: another seedbed copy (R71), read-around (R91) or another member (R92), the
read's own buffer free; the state after `last` where none is left. -/
def otherRoute (p n : Nat) (last : State → State) (s : State) : State :=
  let pc := pieceAt s p
  let next := if pc.route = 2 then sendCopy p s
    else if pc.route = 3 then replaceMember p (memberOf s pc (reqAt s n)) s
    else if (aroundFor s pc).isSome then some (readAround p s) else none
  match next with | some s => freeReqBuf n s | none => last s
/-- A request to a die that takes no such read, being failed, quarantined or on an absent frond (R51, R93). -/
def noDie (n : Nat) (s : State) : State :=
  match (reqAt s n).piece with
  | some p => otherRoute p n (failRow p) (updReq n (fun x => { x with st := .notPlaced }) s)
  | none => if (reqAt s n).mapPage.isSome then updReq n (fun x => { x with st := .notPlaced }) s else sendAgain n s
/-- A request that is not placed: a bound read piece takes read-around, anything else is sent again for a later frame
(R39). -/
def notPlaced (n : Nat) (s : State) : State :=
  let r := reqAt s n
  match r.piece with
  | some p =>
    if r.kind = .boundRead then
      otherRoute p n (sendAgain n) (updReq n (fun x => { x with st := .notPlaced }) s)
    else sendAgain n s
  | none => sendAgain n s
/-- A window of a die's plane is taken, or stays idle after a withdrawal (R42), in a plan. -/
def slotTaken (s : State) (p : Plan) (die plane : Nat) (w : Window) : Bool :=
  p.idle.contains (die, plane, w) || p.reads.any fun n => let q := reqAt s n; q.die == die && q.plane == plane && q.win == w
/-- Insertion into the current frame (R41): the empty slot whose limit of R34 the arrival meets, with a free transfer after the
latest end of its sense and the allowance to cover it. A read-window read moves out in the next frame (R45): not where its
channel trains then (R65), nor where that frame's fixed plan has no transfer left. -/
def insertWin (s : State) (r : Req) (n cnt : Nat) : Option Window :=
  let f := frondOfDie r.die
  let g := frondAt s f
  let d := dieAt s r.die
  let ch := chanOfDie r.die
  let power := fun c => r.kind == .boundRead || decide (g.cur.charge + c ≤ g.allowance)
  let noSeg := !d.seg && !g.cur.segs.contains r.die && d.prog.isNone
  let fixed := g.nxt.frame == s.time.fc + 1 && (g.nxt.fixed || g.nxt.hold)
  let carried := ((g.cur.reads.map (reqAt s)).filter fun q => q.win == .read && chanOfDie q.die == ch).foldl (fun a q => a + popMask q.mask) 0
  let full := r.kind == .scrub && decide (s.feat.scrubReads ≤ ((g.cur.reads.filter fun q => (reqAt s q).kind == .scrub).length))
  if g.cur.hold || trainsIn g ch s.time.fc || !(chanAt s ch).trained || !dieTakes s r || full then none
  else if noSeg && !slotTaken s g.cur r.die r.plane .free && (d.cache.getD r.plane none).isNone && (d.sensing.getD r.plane none).isNone
      && decide (cnt ≤ if r.slc then 5888 else 2048) && power (readCharge r.mask) && xferFits s f g.cur [outXfer r n (cnt + 64)] then some .free
  else if !slotTaken s g.cur r.die r.plane .read && decide (cnt ≤ 8896) && power 50 && !trainsIn g ch (s.time.fc + 1)
      && (if fixed then xferFits s f g.nxt [carryXfer r n] else decide (carried + popMask r.mask ≤ chanCap s ch)) then some .read
  else none
/-- Enters an inserted read into the current plan; its carried data-out into the next one, where that is fixed already. -/
def insertRead (n cnt : Nat) (w : Window) (s : State) : State :=
  let r := reqAt s n
  let f := frondOfDie r.die
  updFrond f (fun g =>
    let cur := { g.cur with reads := g.cur.reads ++ [n], charge := g.cur.charge + (if w = .free then readCharge r.mask else 50) }
    let fixed := g.nxt.frame == s.time.fc + 1 && (g.nxt.fixed || g.nxt.hold)
    if w = .free then { g with cur := addXfers [outXfer r n (cnt + 64)] cur }
    else if fixed then
      { g with cur := cur, nxt := { addXfers [carryXfer r n] g.nxt with charge := g.nxt.charge + 3 * popMask r.mask } }
    else { g with cur := cur }) s
/-- Offsets in force for a read's group: fifteen for QLC, the sixteenth for SLC (R76). -/
def offsOf (s : State) (r : Req) : List Int :=
  let l := tget [] (dieAt s r.die).offsets (r.block / 32)
  if r.slc then l.drop 15 else l.take 15
/-- Issues a sense: the plane senses for the request, once an earlier sense on it has ended (R35, R36). -/
def issueSense (n : Nat) (s : State) : State :=
  let r := reqAt s n
  updReq n (fun x => { x with st := .issued }) (updDie r.die (fun d =>
    if (d.sensing.getD r.plane none).isNone then { d with sensing := d.sensing.set r.plane (some n) } else d) s)

/-! ### Building a plan (R40, R43, R44, R109, R110). -/
/-- Rank in force of a long operation: erase at 4 while the free pool is low (R142). -/
def opRank (g : FrondSt) (o : LongOp) : Nat := if o.kind = .erase ∧ g.freeLow ∧ 4 < o.rank then 4 else o.rank
/-- Background media work is stopped: in PS3 and PS4, and from step 2 of an entry (R407, R410). -/
def parked (s : State) : Bool := decide (3 ≤ s.power.ps) || (match s.power.entry with | some e => decide (2 ≤ e.step) | none => false)
/-- An operation that needs its data in the program latches (R36). -/
def holdsLatches : OpKind → Bool | .erase => false | _ => true
/-- The program latches of a die are held by a started program, or by one whose data has moved in (R36). -/
def latchesHeld (d : Die) : Bool := (d.op.toList ++ d.opQ.filter (·.ready)).any fun o => holdsLatches o.kind
/-- The next program of a die that waits for its data-in: real data before padding (R140). -/
def nextData (d : Die) : Option LongOp :=
  let l := d.opQ.filter fun o => !o.ready && holdsLatches o.kind
  match l.find? (·.kind != .pad) with | some o => some o | none => l.head?
/-- Every codeword of a fold's chunk has been decoded. -/
def dataDecoded (s : State) (o : LongOp) : Bool := o.kind != .qlc || (chunkAt s o.chunk).reads == 0
/-- The data-in of the die's next program runs in the current frame and its data is there (R45). -/
def landing (s : State) (g : FrondSt) (die : Nat) (o : LongOp) : Bool :=
  !g.cur.hold && g.cur.xfers.any (fun x => x.of == .longOp die) && nextData (dieAt s die) == some o && dataDecoded s o
/-- A block of the die is erase-incomplete: it is erased before any other of the die (R78). -/
def incomplete (s : State) (die : Nat) : Bool := s.blks.any fun b => b.1 / 4096 == die && b.2.state == 2
/-- A waiting operation may start: its data is in the latches, or its erase is named in a programmed intent (R36, R77, R78). -/
def mayStart (s : State) (g : FrondSt) (die : Nat) (o : LongOp) : Bool :=
  if o.kind = .erase then
    let b := blkAt s (blkKey die o.block)
    b.intent && (b.state == 2 || !incomplete s die)
  else o.ready || landing s g die o
/-- The long operation a die would run next: the started one, else the first of least rank that may start, padding last (R37,
R51, R77, R140); a started program or verification alone while fronds are being parked (R410). -/
def nextOp (s : State) (g : FrondSt) (die : Nat) : Option LongOp :=
  let d := dieAt s die
  if (g.noSegs && (g.prepared ≠ 1 || s.power.feedLost)) || g.shutdown then none
  else match d.op with
    | some o => if g.prepared = 1 && o.kind = .erase then none else if d.state ≤ 1 && decide (o.segs < segsOf o.kind) && (!parked s || o.kind != .erase) then some o else none
    | none => if d.state ≠ 0 || parked s || g.prepared = 1 then none
      else minBy (fun o => 2 * opRank g o + b2n (o.kind == .pad)) (d.opQ.filter (mayStart s g die))
/-- Frame of the present power epoch in which an absolute count fell. -/
def frameOfCount (s : State) (a : Nat) : Nat := s.time.fc - cdiv (s.time.start - a) 16000
/-- Sort key of a long operation's segment or data-in (R43, R140): padding after every ready fold. -/
def opKey (s : State) (g : FrondSt) (o : LongOp) : List Nat :=
  [opRank g o, b2n (opRank g o == 5), if o.kind = .pad then 2 ^ 81 else 2 ^ 80, frameOfCount s o.arrival, o.arrival, 0]
/-- Charge of an operation's segment (R44). -/
def segCharge (o : LongOp) : Nat := if o.kind = .verify then 80 else 340
/-- One more erase segment at rank 7 would break the phase plan's cap (R320). -/
def overCap (s : State) (g : FrondSt) (p : Plan) (o : LongOp) : Bool :=
  match eraseCap s with
  | some n => o.kind == .erase && opRank g o == 7 && decide (n ≤ (p.segs.filter fun d => match nextOp s g d with
      | some q => q.kind == .erase && opRank g q == 7 | none => false).length)
  | none => false
/-- Count from which the data-in of a waiting program may run in the next frame; none while its data is not to be had by
then. The last reads of a fold on its own frond may move out and be decoded first (R45, R54; assumption 134). -/
def dataInReady (s : State) (die : Nat) (o : LongOp) : Option Nat :=
  if dataDecoded s o then some 0
  else
    let l := s.reqs.filter fun r => r.2.chunk == some o.chunk && (match r.2.st with | .done | .withdrawn => false | _ => true)
    let near := fun (r : Req) => frondOfDie r.die == frondOfDie die && r.buf.isNone && (match r.st with | .issued | .sensed | .moved => true | _ => false)
    if l ≠ [] ∧ l.all fun r => near r.2 then some 4352 else none
/-- What a plan is built from: a read request, a segment or a data-in of a die. -/
inductive Item where
  | read (n : Nat)
  | seg (die : Nat)
  | dataIn (die : Nat)
  deriving DecidableEq, Repr
/-- A die of the frond has its segment window free of programs and segments in a plan. -/
def windowFree (s : State) (p : Plan) (die : Nat) : Bool :=
  !p.segs.contains die && !(p.progs.any fun q => (progAt s q).die == die)
/-- Enters a read in a window of a plan. -/
def addRead (n : Nat) (r : Req) (w : Window) (p : Plan) : Plan :=
  let p := { p with reads := p.reads ++ [n], charge := p.charge + (if w = .free then readCharge r.mask else 50) }
  if w = .free then addXfers [outXfer r n 64] p else p
/-- Adds one item of the sorted list to the plan where it fits. Reads answer their window: the free segment window of a die
with no operation waiting, else the read window (assumption 135). -/
def addItem (s : State) (f : Nat) (acc : Plan × List (Nat × Window)) (it : Item) : Plan × List (Nat × Window) :=
  let (p, done) := acc
  let g := frondAt s f
  let t := s.time.fc + 1
  let budget := g.allowance
  match it with
  | .seg die =>
    match nextOp s g die with
    | some o =>
      let c := segCharge o
      let freeUsed := done.any fun x => x.2 == .free && (reqAt s x.1).die == die
      if p.charge + c ≤ budget ∧ !freeUsed ∧ !overCap s g p o ∧ !trainsIn g (chanOfDie die) t ∧ (chanAt s (chanOfDie die)).trained ∧ windowFree s p die then
        ({ p with segs := p.segs ++ [die], charge := p.charge + c }, done)
      else acc
    | none => acc
  | .dataIn die =>
    let ch := chanOfDie die
    match nextData (dieAt s die) with
    | some o =>
      let x : Xfer := { chan := ch % 8, grp := 2, n := 64, ready := (dataInReady s die o).getD 0, of := .longOp die }
      if p.charge + 192 ≤ budget ∧ !trainsIn g ch t ∧ !trainsIn g ch (t + 1) ∧ (chanAt s ch).trained ∧ xferFits s f p [x]
          ∧ !(p.progs.any fun q => (progAt s q).die == die) then
        (addXfers [x] { p with charge := p.charge + 192 }, done)
      else acc
    | none => acc
  | .read n =>
    let r := reqAt s n
    let ch := chanOfDie r.die
    let used := fun w => done.any fun x => x.2 == w && (reqAt s x.1).die == r.die && (reqAt s x.1).plane == r.plane
    let covers := fun c => p.charge + c ≤ budget || r.kind == .boundRead
    let carried := (done.filter fun x => x.2 == .read && chanOfDie (reqAt s x.1).die == ch).foldl (fun a x => a + popMask (reqAt s x.1).mask) 0
    let scrubs := (p.reads.filter fun q => (reqAt s q).kind == .scrub).length
    let can := !trainsIn g ch t && (chanAt s ch).trained && dieTakes s r && !superseded s r.slice r.gen
      && (r.kind != .scrub || decide (scrubs < s.feat.scrubReads))
    let free := windowFree s p r.die && !used .free && covers (readCharge r.mask) && xferFits s f p [outXfer r n 64]
    let late := !used .read && !trainsIn g ch (t + 1) && covers 50 && decide (carried + popMask r.mask ≤ chanCap s ch)
    let win := if (nextOp s g r.die).isNone && free then some Window.free else if late then some .read else if free then some .free else none
    match can, win with
    | true, some w => (addRead n r w p, done ++ [(n, w)])
    | _, _ => acc
/-- Opens a write head on a die (R109): the least-worn free block that passes the blank-check of R80. -/
def openHeadBlock (die : Nat) : Nat → State → Option Nat × State
  | 0, s => (none, s)
  | fuel + 1, s =>
    match leastWorn s die with
    | none => (none, s)
    | some (_, pos) =>
      let k := blkKey die pos
      if blankOk s k then
        (some pos, updFrond (frondOfDie die) (fun g => { g with sbUsed := g.sbUsed + 1 })
          (updBlk k (fun x => { x with state := 3, retried := false, seed := true }) s))
      else openHeadBlock die fuel (notBlank k s)
/-- The frond may hold one more die-block of its seedbed (R122). -/
def seedRoom (g : FrondSt) : Bool := decide (g.sbUsed < 16384 - g.sbMissing)
/-- Data-in of a one-segment program into a die in the current frame's plan (R45, R110). -/
def seedXfer (die : Nat) (o : XferOf) : Xfer := { chan := chanOfDie die % 8, grp := 2, n := 16, ready := 12000, of := o }
/-- A die can take a one-segment program in the next frame: no started operation, latches free, a free segment window, its
data-in in free transfers of the current channel plan (R36, R109, R110). -/
def takesProgram (s : State) (f : Nat) (p : Plan) (done : List (Nat × Window)) (die : Nat) : Bool :=
  let g := frondAt s f
  let d := dieAt s die
  let ch := chanOfDie die
  d.state == 0 && d.op.isNone && !latchesHeld d && windowFree s p die && (chanAt s ch).trained
    && !((g.cur.xfers ++ p.xfers).any fun x => x.of == .longOp die)
    && !(done.any fun x => x.2 == .free && (reqAt s x.1).die == die)
    && !trainsIn g ch s.time.fc && !trainsIn g ch (s.time.fc + 1) && !trainsIn g ch (s.time.fc + 2) && !g.cur.hold
    && xferFits s f g.cur [seedXfer die (.prog 0)]
/-- Codeword transfers used in the current plan of a die's channel, against its cap: the fewer left, the larger. -/
def chanLoad (s : State) (f die : Nat) : Nat :=
  200 + (chanList (frondAt s f).cur (chanOfDie die)).foldl (fun a x => a + x.n) 0 - chanCap s (chanOfDie die)
/-- The die of a frond that takes the next seedbed program: of those that can, the one whose channel plan has the most free
transfers (R109). -/
def headDie (s : State) (f : Nat) (p : Plan) (done : List (Nat × Window)) : Option Nat :=
  let room := seedRoom (frondAt s f)
  minBy (chanLoad s f) (((List.range 256).map (f * 256 + ·)).filter fun die =>
    (match (dieAt s die).head with | some (_, wl) => decide (wl < 1024) | none => false) || (room && (leastWorn s die).isSome)
      |> (· && takesProgram s f p done die))
/-- Where a die's head goes on: its open block, or the least-worn free one (R109). -/
def headStart (die : Nat) (s : State) : Option Nat × Nat × State :=
  match (dieAt s die).head with
  | some (pos, wl) => if wl < 1024 then (some pos, wl, s) else let r := openHeadBlock die 4 s; (r.1, 0, r.2)
  | none => let r := openHeadBlock die 4 s; (r.1, 0, r.2)
/-- Enters a one-segment program into a plan, its data-in into the current one; both are charged where they run (R44, R45, R110). -/
def enterProg (q : Nat) (g : Prog) (p : Plan) (s : State) : Plan × State :=
  ({ p with progs := p.progs ++ [q], charge := p.charge + 340 },
    updFrond g.frond (fun x => { x with cur := addXfers [seedXfer g.die (.prog q)] { x.cur with charge := x.cur.charge + 48 } })
      { s with progs := tins s.progs q g })
/-- The allowances of both frames leave room for a one-segment program (R44). -/
def progRoom (g : FrondSt) (p : Plan) : Bool := decide (p.charge + 340 ≤ g.allowance) && decide (g.cur.charge + 48 ≤ g.allowance)
/-- Puts codewords into one program at a word line of a head (R110). -/
def putProgram (f die pos wl : Nat) (items : List PackItem) (p : Plan) (s : State) : Plan × State :=
  let (q, s) := fresh s
  let s := updDie die (fun d => { d with head := some (pos, wl + 1) }) s
  let r := enterProg q { frond := f, die := die, block := pos, wl := wl, cws := items.map fun i => (i.cw, i.idx), frame := s.time.fc + 1,
                         late := items.all fun i => i.late && !i.first } p s
  let s := items.zipIdx.foldl (fun s i => updCw i.1.cw (fun c => { c with copies := c.copies.map fun l =>
      if l.frond = f ∧ l.prog = none ∧ !l.done then { l with die := die, block := pos, wl := wl, place := i.2, prog := some q } else l }) s) r.2
  (r.1, items.foldl (fun s i => match (cwAt s i.cw).cmd with | some k => updCmd k (fun c => { c with issued := true }) s | none => s) s)
/-- Puts up to 16 codewords into one program on a head of the frond, within both frames' allowance (R44, R109, R110). -/
def packOne (f : Nat) (items : List PackItem) (done : List (Nat × Window)) (p : Plan) (s : State) : Option Plan × State :=
  if !progRoom (frondAt s f) p then (none, s)
  else match headDie s f p done with
  | none => (none, s)
  | some die => match headStart die s with
    | (some pos, wl, s) => let r := putProgram f die pos wl items p s; (some r.1, r.2)
    | (none, _, s) => (none, s)
/-- Order of a waiting codeword (R43, R110): bound class first, then deadline, then arrival. -/
def ownKey (s : State) (i : PackItem) : List Nat :=
  let due := ((cwAt s i.cw).cmd.bind fun k => tfind s.cmds k).bind (·.deadline)
  [b2n (!i.bound), due.getD (2 ^ 80), i.at']
/-- The same with fill codewords of a failed write ahead of every other codeword of their zone (R124). -/
def packKey (s : State) (l : List PackItem) (i : PackItem) : List Nat :=
  if i.first then
    (l.filter fun j => slotOfCk j.cw == slotOfCk i.cw).foldl (fun k j => if lexLt (ownKey s j) k then ownKey s j else k) (ownKey s i) ++ [0]
  else ownKey s i ++ [1]
/-- Packs the waiting codewords of a frond: whole programs, then a padded one that may not wait (R110). -/
def packGo (f : Nat) (done : List (Nat × Window)) : Nat → List PackItem → Plan → State → Plan × List PackItem × State
  | 0, items, p, s => (p, items, s)
  | fuel + 1, items, p, s =>
    let now := items.take 16
    if now = [] then (p, items, s)
    else if now.length < 16 ∧ !(now.any (·.bound)) ∧ now.all (fun i => decide (i.waited < 5)) ∧ s.feat.packWait ≠ 0 then
      (p, items.map fun i => { i with waited := i.waited + 1 }, s)
    else match packOne f now done p s with
      | (some p, s) => packGo f done fuel (items.drop 16) p s
      | (none, s) => (p, items, s)

/-! ### Metadata programs (R38, R43, R77, R152; assumption 183). -/
/-- The first metadata die-block of a die in which nothing is programmed. -/
def metaBlank (s : State) (die : Nat) : Option Nat :=
  (List.range' 0 2112).find? fun p => blkState s (blkKey die p) == 5 && (blkAt s (blkKey die p)).rows == 0
/-- A die has an open metadata block. -/
def metaOpen (s : State) (die : Nat) : Bool := match (dieAt s die).metaHead with | some h => decide (h.2 < 1024) | none => false
/-- A closed metadata block whose contents are held elsewhere by now makes room for a block that takes its use: no map page lies in it. -/
def reclaimMeta (die : Nat) (s : State) : State :=
  match s.blks.find? fun b => b.1 / 4096 == die && b.2.state == 5 && decide (0 < b.2.rows) && !b.2.refresh
      && !(s.metas.places.any fun p => p.2.any fun x => x.1 / 4 == die && x.2.1 == b.1 % 4096) with
  | some b => updBlk b.1 (fun x => { x with after := 5 }) (toDirty b.1 s)
  | none => s
/-- The block a die's metadata goes to next: a blank metadata block, else the least-worn free one (R61). -/
def metaNext (s : State) (die : Nat) : Option (Nat × Bool) :=
  match metaBlank s die with | some pos => some (pos, false) | none => (leastWorn s die).map fun x => (x.2, true)
/-- A block begins to take metadata; where it was free, a closed metadata block that nothing needs goes. -/
def beginMeta (die pos : Nat) (new : Bool) (s : State) : State :=
  updBlk (blkKey die pos) (fun b => { b with state := 5, rows := if new then 0 else b.rows, retried := false }) (if new then reclaimMeta die s else s)
/-- Where a die's metadata goes on: its open block, else the next one that passes the blank-check before its first program (R61, R80). -/
def metaStart (die : Nat) : Nat → State → Option (Nat × Nat) × State
  | 0, s => (none, s)
  | fuel + 1, s =>
    if metaOpen s die then ((dieAt s die).metaHead, s)
    else match metaNext s die with
      | none => (none, s)
      | some (pos, new) =>
        if blankOk s (blkKey die pos) then (some (pos, 0), beginMeta die pos new s) else metaStart die fuel (notBlank (blkKey die pos) s)
/-- The die that takes a frond's next metadata program: one whose channel carries no other copy of an erase record, with an open
metadata block where there is one. -/
def metaDie (s : State) (f : Nat) (p : Plan) (done : List (Nat × Window)) (l : List (Nat × MetaWork)) : Option Nat :=
  let bad := (l.filter fun w => isErases f w.2.of).flatMap (·.2.chans)
  minBy (fun d => (if metaOpen s d then 0 else 1000) + chanLoad s f d) (((List.range 256).map (f * 256 + ·)).filter fun d =>
    !bad.contains (chanOfDie d) && takesProgram s f p done d && (metaOpen s d || (metaBlank s d).isSome || (leastWorn s d).isSome))
/-- Puts the works that fit into one metadata program of a frond. -/
def putMeta (f die pos wl : Nat) (l : List (Nat × MetaWork)) (p : Plan) (s : State) : Plan × State :=
  let (q, s) := fresh s
  let ws := fitWorks 0 l
  let s := updDie die (fun d => { d with metaHead := some (pos, wl + 1) }) (updBlk (blkKey die pos) (fun b => { b with rows := wl + 1 }) s)
  enterProg q { frond := f, die := die, block := pos, wl := wl, works := ws, frame := s.time.fc + 1 } p
    (ws.foldl (fun s w => updWork w.1 (carry f q (chanOfDie die)) s) s)
/-- Metadata programs of a frond's next plan, while works wait for one. -/
def putMetas (f : Nat) (done : List (Nat × Window)) : Nat → Plan → State → Plan × State
  | 0, p, s => (p, s)
  | n + 1, p, s =>
    let l := worksFor s f
    if l = [] ∨ !progRoom (frondAt s f) p then (p, s)
    else match metaDie s f p done l with
      | none => (p, s)
      | some die => match metaStart die 4 s with
        | (some (pos, wl), s) => let r := putMeta f die pos wl l p s; putMetas f done n r.1 r.2
        | (none, s) => (p, s)
/-- Codewords of a superseded generation not yet in a plan are dropped before data-in (R111). -/
def dropOld (s : State) (l : List PackItem) : List PackItem :=
  l.filter fun i => let c := cwAt s i.cw; (tfind s.cws i.cw).isSome && !superseded s c.slice c.gen
/-- Data-out that the ending frame's read-window reads carry into the next plan, bound class first (R45). -/
def carried (s : State) (g : FrondSt) : List Nat :=
  sortBy (fun a b => lexLt (readKey s a) (readKey s b)) (g.cur.reads.filter fun n => (reqAt s n).win == .read)
/-- Transfers that the ending frame's reads carry into the next plan. -/
def carriedXfers (s : State) (g : FrondSt) : List Xfer := (carried s g).map fun n => carryXfer (reqAt s n) n
/-- A hold plan: nothing starts, the carried data-outs run (R50). -/
def holdPlan (s : State) (g : FrondSt) (t : Nat) : Plan :=
  let l := carriedXfers s g
  { frame := t, hold := true, xfers := l, charge := baseCharge + l.foldl (fun a x => a + 3 * x.n) 0 }
/-- Filnas places a request in the earliest open plan that takes it, from a frame on; otherwise it is not placed (R39). One whose die
takes no such read any more goes another way (R51). -/
def placeReq (n : Nat) (last : State → State) (s : State) : State :=
  let r := reqAt s n
  let f := frondOfDie r.die
  let t := max (openFrame s f) r.target
  if !dieTakes s r then noDie n s
  else match findFrame s f r (s.time.fc + 65 - t) t with
  | some (t, w) => updFrond f (fun g => { g with waiting := g.waiting ++ [n] }) (updReq n (fun x => { x with st := .accepted, frame := some t, win := w }) s)
  | none => last s
/-- Fixes the plan of the next frame (R40): rank 1, metadata and seedbed programs, then the rest in order; copies placed again
go with rank 4. Codewords that came after count 12,000 go a frame later (R110). -/
def fixPlan (f cnt : Nat) (s : State) : State :=
  let s := packMetas f s
  let g := frondAt s f
  let t := s.time.fc + 1
  let cand := g.waiting.filter fun n => (reqAt s n).frame == some t && (reqAt s n).st == .accepted
  let reads := cand.map fun n => (readKey s n, Item.read n)
  let segs := g.opDies.filterMap fun d => (nextOp s g d).map fun o => (opKey s g o, Item.seg d)
  let ins := if g.noSegs || g.shutdown || parked s then [] else g.opDies.filterMap fun d =>
    let x := dieAt s d
    if latchesHeld x || x.state != 0 || g.cur.xfers.any (fun y => y.of == .longOp d) then none
    else (nextData x).bind fun o => (dataInReady s d o).map fun _ => (opKey s g o, Item.dataIn d)
  let items := sortBy (fun a b => lexLt a.1 b.1) (reads ++ segs ++ ins)
  let upTo := fun (a b : Nat) => items.filter fun i => decide (a ≤ i.1.getD 0 9 ∧ i.1.getD 0 9 ≤ b)
  let p0 : Plan := { holdPlan s g t with fixed := true, hold := false }
  let a1 := (upTo 0 1).foldl (fun a i => addItem s f a i.2) (p0, [])
  let pack := dropOld s g.pack
  let here := pack.filter fun i => decide (i.at' ≤ s.time.start + 12000)
  let soon := here.filter fun i => i.first || !i.late
  let soon := ((sortBy (fun a b => lexLt a.1 b.1) (soon.map fun i => (packKey s soon i, i))).map (·.2))
  let again := here.filter fun i => i.late && !i.first
  let still := g.noSegs || g.shutdown
  let due := programsDue s f
  let want := (cand.map fun n => readCharge (reqAt s n).mask) ++ (segs.map fun i => match i.2 with
    | .seg d => (match nextOp s g d with | some o => segCharge o | none => 0) | _ => 0) ++ ins.map fun _ => 192
  let (p, s) := if g.shutdown || s.power.feedLost || (g.noSegs && g.prepared ≠ 1) then (a1.1, s) else putMetas f a1.2 due a1.1 s
  let (p, left1, s) := if still then (p, soon, s) else packGo f a1.2 (soon.length + 1) soon p s
  let a2 := (upTo 2 3).foldl (fun a i => addItem s f a i.2) (p, a1.2)
  let (p, left2, s) := if still then (a2.1, again, s) else packGo f a2.2 (again.length + 1) again a2.1 s
  let a3 := (upTo 4 9).foldl (fun a i => addItem s f a i.2) (p, a2.2)
  let s := a3.2.foldl (fun s x => updReq x.1 (fun r => { r with st := .planned, win := x.2, frame := some t, offs := offsOf s r }) s) s
  let miss := cand.filter fun n => !a3.1.reads.contains n
  let own := fun (c : CardId) => a3.1.reads.filter fun n => (reqAt s n).owner == c
  let s := updFrond f (fun g => { g with
    nxt := a3.1, pack := left1 ++ left2 ++ pack.filter (fun i => !decide (i.at' ≤ s.time.start + 12000)),
    waiting := g.waiting.filter (fun n => !cand.contains n), fixWorst := max g.fixWorst cnt,
    demand := baseCharge + want.foldl (· + ·) 0 + 388 * (cdiv pack.length 16 + due), placed := ⟨own .ca, own .cb⟩,
    planHeard := ⟨false, false⟩, aliveTx := ⟨(g.aliveTx.a + 1) % 256, (g.aliveTx.b + 1) % 256⟩ }) s
  let s := miss.foldl (fun s n => placeReq n (notPlaced n) s) s
  let g := frondAt s f
  send (.planMsg f .cb g.aliveTx.b (own .cb)) (send (.planMsg f .ca g.aliveTx.a (own .ca)) s)

/-! ### Withdrawal, overruns and failed dies (R42, R50–R52, R81, R95, R105). -/
/-- Withdraws a request from its plan: its slot stays idle (R42). -/
def withdraw (n : Nat) (s : State) : State :=
  updFrond (frondOfDie (reqAt s n).die) (fun g => { g with
    cur := idleRead s n g.cur, nxt := idleRead s n g.nxt, waiting := g.waiting.filter (· ≠ n) })
    (updReq n (fun x => { x with st := .withdrawn }) s)
/-- A read whose sense or data-out is lost, with the cause of R58: host pieces of every class take read-around, which the table
of R50 says for bound and weighted ones only (assumption 137); other reads a later frame (R50). -/
def loseRead (why n : Nat) (s : State) : State :=
  let r := reqAt s n
  let s := withdraw n s
  match r.piece with
  | some p =>
    let s := updPiece p (fun x => { x with cause := min x.cause why }) s
    otherRoute p n (sendAgain n) s
  | none => sendAgain n s
/-- The codewords of a program go back to their frond's packing queue, ahead of newer ones (R50, R68, R110). -/
def repack (p : Nat) (q : Prog) (s : State) : State :=
  let live := q.cws.filter fun w => (tfind s.cws w.1).isSome
  let item := fun (w : Nat × Nat) => ({
    cw := w.1, idx := w.2, bound := (cwAt s w.1).bound, late := q.late, first := decide ((cwAt s w.1).kind = .fill) } : PackItem)
  live.foldl (fun s w => updCw w.1 (fun c => { c with copies := c.copies.map fun l => if l.prog = some p then { l with prog := none } else l }) s)
    (updFrond q.frond (fun g => { g with pack := live.map item ++ g.pack }) s)
/-- A program that does not run: what it carries is packed again (R50, R110). -/
def unpack (p : Nat) (s : State) : State :=
  let s := uncarry p (repack p (progAt s p) s)
  { s with progs := tdel s.progs p }
/-- The segment window of a die stays idle in a plan (R42). -/
def idleDie (die : Nat) (p : Plan) : Plan := { p with idle := p.idle ++ (List.range 4).map fun i => (die, i, .free) }
/-- A fault delays the write that a codeword belongs to (R58). -/
def delayCw (ck why : Nat) (s : State) : State :=
  match (cwAt s ck).cmd with
  | some k => if (tfind s.cmds k).isSome then updCmd k (fun c => { c with cause := min c.cause why }) s else s
  | none => s
/-- A fault delays the writes whose codewords a program holds (R58). -/
def delayProg (p why : Nat) (s : State) : State := (progAt s p).cws.foldl (fun s w => delayCw w.1 why s) s
/-- A program of a fixed plan is withdrawn with the cause of R58: it leaves the plan, its window, its data-in and its head's place stay
unused (R42, R50). -/
def dropProg (f p why : Nat) (s : State) : State :=
  unpack p (updFrond f (fun g => { g with
    cur := dropXfer (.prog p) g.cur, nxt := idleDie (progAt s p).die { g.nxt with progs := g.nxt.progs.filter (· ≠ p) } }) (delayProg p why s))
/-- A zone or conventional stripe is open for writing (R98). -/
def stripeOpen (s : State) (st : Stripe) : Bool :=
  match st.zone with
  | some z => (match (zoneAt s (zoneKey st.nsid z)).st with | .implOpen | .explOpen => true | _ => false)
  | none => !st.closed
/-- Members to rebuild or fill in the order of R98: least remaining tolerance, open stripes, stripe slot. -/
def rebuildOrder (s : State) (l : List Nat) : List Nat :=
  let key := fun m =>
    let st := stripeAt s (m / 16)
    [remaining st.profile (lostNow s (m / 16)), b2n (!stripeOpen s st), m / 16, m % 16]
  sortBy (fun a b => lexLt (key a) (key b)) l
/-- A failure or a return re-sorts the queue (R98, R101). -/
def sortQueue (s : State) : State := updRebuild (fun r => { r with queue := rebuildOrder s r.queue }) s
/-- Queues members for rebuild or fill: kind 1 die, 2 frond, 3 fill (R95, R96, R103, R107). -/
def startRebuild (kind ob : Nat) (ms : List Nat) (s : State) : State :=
  let new := ms.filter fun m => !s.rebuild.queue.contains m
  if new = [] then s
  else
    let idle := s.rebuild.queue = []
    let bytes := new.foldl (fun a m => a + memberBytes s m) 0
    let s := updRebuild (fun r => { r with
      queue := rebuildOrder s (r.queue ++ new), of := new.foldl (fun t m => tins t m (kind, ob)) r.of, kinds := if r.kinds.contains (kind, ob) then r.kinds else r.kinds ++ [(kind, ob)],
      done := if idle then 0 else r.done, total := if idle then bytes else r.total + bytes }) s
    aenPage 0xC3 (event 0x201 0 (srcQ s.time.master) ob kind new.length 0 s)
/-- A member finds no spare: it stays missing, its rebuild ends and its zone goes Read Only (R105, R144). -/
def memberGone (m : Nat) (s : State) : State :=
  let s0 := s
  let s := setMember m (fun x => { x with blk := none, lost := true, filling := false }) s
  let busy := s.rebuild.queue.contains m
  let s := unqueue (· == m) (if busy then updRebuild (fun r => { r with total := r.total - memberBytes s0 m }) s else s)
  let s := stripeReadOnly (m / 16) (aenPage 0xC3 (event 0x204 1 (srcQ s.time.master) (obj 5 (m / 16)) (m % 16) 0 (memberFrond (m / 16) (m % 16)) s))
  healthRise s0 (if busy then rebuildIdle s else s)
/-- STATE of a die-block that counts as free, dirty, in the seedbed or allocated (R145). -/
def inStock (st : Nat) : Bool := st == 0 || st == 1 || st == 2 || st == 3 || st == 4
/-- Free, dirty and allocated member die-blocks of a frond, its seedbed's die-blocks (R122) and failed dies left out, with
its pending members (R145). -/
def memberStock (s : State) (f : Nat) : Nat :=
  let good := (List.range 256).filter fun d => decide ((dieAt s (f * 256 + d)).state ≤ 1)
  let mine := s.blks.filter fun b => frondOfDie (b.1 / 4096) == f && decide ((dieAt s (b.1 / 4096)).state ≤ 1)
  let more := (mine.filter fun b => inStock b.2.state && !inStock (blkDefault b.1).state).length
  let less := (mine.filter fun b => !inStock b.2.state && inStock (blkDefault b.1).state).length
  let pending := (s.stripes.filter fun x => x.2.used && (match x.2.members[(f + 16 - x.1 % 16) % 16]? with
    | some m => m.blk.isNone && !m.lost | none => false)).length
  good.length * 1920 + more - less + pending - (16384 - (frondAt s f).sbMissing)
/-- Zones that are not Offline and stripe slots of conventional namespaces, less those given up (R145). -/
def stockDemand (s : State) : Nat :=
  s.nss.foldl (fun a n => if !n.2.used then a
    else if n.2.zoned then a + (zonesOf n.2 - (s.zones.filter fun z => z.1 / 2 ^ 21 == n.1 && z.2.st == .offline).length)
    else a + (n.2.resv - n.2.deficit)) 0
/-- A frond with too few die-blocks takes Empty zones Offline (R145). -/
def backingDeficit (f : Nat) (s : State) : State :=
  let have' := memberStock s f
  let need := stockDemand s
  if have' ≥ need then s
  else
    (List.range (need - have')).foldl (fun s _ =>
      let empt := fun (n : Nat × Ns) => zonesOf n.2 - (s.zones.filter fun z => z.1 / 2 ^ 21 == n.1 && z.2.st != .empty).length
      let cand := s.nss.filter fun n => n.2.used && n.2.zoned && decide (0 < empt n)
      match minBy (fun n => 2 ^ 30 - empt n) cand with
      | some n =>
        match ((List.range (zonesOf n.2)).reverse.find? fun z => (zoneAt s (zoneKey n.1 z)).st == .empty) with
        | some z =>
          zoneNotice n.1 z (event 0x206 1 (srcQ s.time.master) (obj 6 (n.1 * 2 ^ 32 + z)) 6 0 0 (offlineZone n.1 z none s))
        | none => s
      | none =>
        match minBy (fun (n : Nat × Ns) => 2 ^ 30 - freeStripes s n.1) (s.nss.filter fun n => n.2.used && !n.2.zoned && decide (0 < freeStripes s n.1)) with
        | some n => updNs n.1 (fun x => { x with deficit := x.deficit + 1 }) s
        | none => s) s
/-- A codeword's copy is to be placed again: at once where it was never programmed or its write has not completed, else at
rank 4 within REBUILD_RATE (R113, R125). -/
def placeAgain (ck : Nat) (l : CopyLoc) (s : State) : State :=
  let s := updCw ck (fun x => { x with copies := x.copies.filter (fun y => !(y.frond == l.frond && y.idx == l.idx)) }) s
  let s := updFrond l.frond (fun g => { g with pack := g.pack.filter (fun i => i.cw != ck) }) s
  if l.done && !openCw s (cwAt s ck) then
    updSeedbed (fun b => { b with replace := if b.replace.contains ck then b.replace else b.replace ++ [ck] }) s
  else recopy ck l.idx s
/-- Copies lost with a set of blocks are placed again (R113, R125). -/
def loseCopies (sel : CopyLoc → Bool) (s : State) : State :=
  (s.cws.filter fun c => !c.2.folded && c.2.copies.any sel).foldl (fun s c => (c.2.copies.filter sel).foldl (fun s l => placeAgain c.1 l s) s) s
/-- Takes up to n spares of a frond into a STATE; answers how many it found (R95). -/
def drawSpares (f st : Nat) : Nat → Nat → State → Nat × State
  | 0, got, s => (got, s)
  | n + 1, got, s => match rawSpare f s with
    | (some k, s) => drawSpares f st n (got + 1) (updBlk k (fun b => { b with state := st }) s)
    | (none, s) => (got, s)
/-- A stripe member of a failed die gets the least-worn spare of its frond as its rebuild's target (R95). -/
def spareMember (m : Nat) (s : State) : State :=
  match takeSpare (memberFrond (m / 16) (m % 16)) 64 s with
  | (some k, s) =>
    updStripe (m / 16) (fun x => { x with
        gen := (x.gen + 1) % 2 ^ 32, members := x.members.set (m % 16) { blk := some k, filling := true } })
      (updBlk k (fun b => { b with state := 4, member := some m }) s)
  | (none, s) => memberGone m s
/-- A read that serves no command ends with its die: the scrub pass it belonged to is made again, a copy that it was to place
again is read elsewhere (R75, R125). -/
def dropRead (n : Nat) (s : State) : State :=
  let r := reqAt s n
  let s := if r.kind = .scrub then updBlk (blkKey r.die r.block) (fun b => { b with scrubLeft := 0 }) s else s
  let s := match r.cw with | some ck => updSeedbed (fun b => { b with replace := b.replace ++ [ck] }) s | none => s
  let s := match r.accum with | some x => updAccum x (fun a => { a with asked := false }) s | none => s
  let s := match r.work with | some w => dropWork w s | none => s
  freeReqBuf n (withdraw n s)
/-- Reads to a die or a frond that has gone: pieces take another route, other requests end. -/
def loseReads (sel : Req → Bool) (s : State) : State :=
  (s.reqs.filter fun r => sel r.2 && (match r.2.st with | .held | .accepted | .planned | .issued | .sensed | .sent => true | _ => false)).foldl
    (fun s r => match r.2.piece with
      | some _ => loseRead 6 r.1 s
      | none => dropRead r.1 s) s
/-- What runs on a die, or was to read it, ends as the die fails (R75, R81). -/
def stopDie (die row : Nat) (s : State) : State :=
  let d := dieAt s die
  let f := frondOfDie die
  let s := updDie die (fun d => { d with state := 2, op := none, opQ := [], seg := false, prog := none, head := none, metaHead := none, recalQ := [] }) s
  let s := loseReads (fun r => r.die == die) (event 0x10B 2 (srcF f) (obj 1 die) row d.grownBad 0 s)
  match (frondAt s f).refresh with | some (a, b, _, _) => if a / 4096 = die ∨ b / 4096 = die then endRefresh f s else s | none => s
/-- Spares stand in for the other accounted blocks of a failed die: 64 in the seedbed, from which `seeds` blocks have gone, `wait` of them
waiting for erase; then `idle` free ones (R95, assumption 136). -/
def dieStock (f idle seeds wait : Nat) (s : State) : State :=
  let (got, s) := drawSpares f 0 64 0 s
  updFrond f (fun g => { g with sbMissing := g.sbMissing + (64 - got), sbUsed := g.sbUsed - seeds, sbErasing := g.sbErasing - wait })
    (drawSpares f 0 idle 0 s).2
/-- Verified rows of a frond that no member table names yet count no longer: their blocks are gone, and they fold again (R95, R103). -/
def unverify (f : Nat) (sel : Nat → Bool) (s : State) : State :=
  let gone := (frondAt s f).batch.filter sel
  let s := updMetas (fun m => { m with work := m.work.map fun w => match w.2.of with
    | .members g l => if g = f then (w.1, { w.2 with of := .members g (l.filter fun h => !gone.contains h) }) else w
    | _ => w }) (updFrond f (fun g => { g with batch := g.batch.filter fun h => !gone.contains h }) s)
  gone.foldl (fun s h => if (tfind s.chunks h).isSome then updChunk h (fun c => { c with st := .held }) s else s) s
/-- Copies of map pages are gone: each is restored from another copy, on the frond that it lay on (R95, R150). -/
def restorePages (gone : Nat → Bool) (s : State) : State :=
  let lost := s.metas.places.filter fun p => p.2.any fun x => gone (x.1 / 4)
  let s := updMetas (fun m => { m with places := m.places.map fun p => (p.1, p.2.filter fun x => !gone (x.1 / 4)) }) s
  lost.foldl (fun s p =>
    match p.2.find? fun x => !gone (x.1 / 4) && !frondAbsent s (x.1 / 1024) with
    | none => s
    | some x =>
      let n := s.next
      let s := addWork (.page p.1) 4 (((p.2.filter fun y => gone (y.1 / 4)).map (·.1 / 1024)).eraseDups) s
      addReq { kind := .rebuildRead, owner := s.time.master, die := x.1 / 4, plane := x.1 % 4, block := x.2.1, wl := x.2.2, slc := true, mask := 15,
               target := s.time.fc, arrival := now s, work := some n } (updWork n (fun w => { w with reads := 1 }) s)) s
/-- Metadata on a failed die is gone: map pages are restored from their other copies; a wordline set being rewritten, and what a
program was to bring, are taken up again (R95). -/
def dropMetas (die : Nat) (s : State) : State :=
  let s := updMetas (fun m => { m with work := m.work.filter fun w => match w.2.of with | .rewrite b _ => b / 4096 != die | _ => true }) s
  restorePages (· == die) ((s.progs.filter fun p => p.2.die == die && p.2.works != []).foldl (fun s p => uncarry p.1 s) s)
/-- The copies, programs and members of a failed die are gone. -/
def dropDie (die : Nat) (s : State) : State :=
  let s := dropMetas die (unverify (frondOfDie die) (fun h => match (memberAt s (h / 1024)).blk with | some b => b / 4096 == die | none => false) s)
  let s := { s with progs := s.progs.filter (fun p => p.2.die != die),
                    blks := s.blks.map fun b => if b.1 / 4096 = die then (b.1, { b.2 with member := none, live := 0, seed := false, leave := false, rows := 0 }) else b }
  loseCopies (fun l => l.die == die && l.frond == frondOfDie die) s
/-- A die is declared failed (R81): cause row 1–4; its work stops and its rebuild into spares begins (R95): metadata blocks
first, then members in the order of R98, seedbed blocks, blocks that were free for members (assumption 136). -/
def dieFailed (die row : Nat) (s : State) : State :=
  if (dieAt s die).state ≥ 2 then s
  else
    let f := frondOfDie die
    let mine := s.blks.filter fun b => b.1 / 4096 == die
    let s := (drawSpares f 5 8 0 (dropDie die (stopDie die row s))).2
    let ms := rebuildOrder s (mine.filterMap fun b => b.2.member)
    let seeds := (mine.filter fun b => b.2.seed).length
    let idle := 1920 + (mine.filter fun b => decide (b.2.state ≤ 2) && decide ((blkDefault b.1).state ≠ 0)).length
      - (mine.filter fun b => decide (2 < b.2.state) && decide ((blkDefault b.1).state = 0)).length + seeds - 64
    let wait := (mine.filter fun b => b.2.seed && decide (b.2.state = 1 ∨ b.2.state = 2)).length
    let s := dieStock f idle seeds wait (ms.foldl (fun s m => spareMember m s) s)
    let lost := ms.filter fun m => (match (stripeAt s (m / 16)).members[m % 16]? with | some x => x.filling | none => false)
    sortQueue (startRebuild 1 (obj 1 die) lost (backingDeficit f (aenPage 0xC3 s)))
/-- A die counts an overrun (R51): quarantine after QUAR_THRESHOLD within QUAR_WINDOW frames, failure at the third
entry. -/
def dieOverrun (die : Nat) (s : State) : State :=
  let fc := s.time.fc
  let d := dieAt s die
  let l := (d.overruns.filter fun x => fc < x + s.feat.quarWin) ++ [fc]
  let s := updDie die (fun d => { d with overruns := l, lastOverrun := now s }) s
  if s.feat.quarThr ≤ l.length ∧ d.state = 0 then
    let n := d.quarEntries + 1
    let s := updDie die (fun d => { d with state := 1, quarFc := fc, quarEntries := n }) s
    let s := updStats (fun x => { x with quarEntries := x.quarEntries + 1 }) s
    let s := event 0x105 1 (srcF (frondOfDie die)) (obj 1 die) n 0 0 s
    let f := frondOfDie die
    let s := (((frondAt s f).cur.reads ++ (frondAt s f).nxt.reads ++ (frondAt s f).waiting).filter fun n =>
      (reqAt s n).die == die && !quarOk (reqAt s n).kind && ((reqAt s n).st == .planned || (reqAt s n).st == .accepted)).foldl (fun s n => loseRead 2 n s) s
    let s := ((frondAt s f).nxt.progs.filter fun p => (progAt s p).die == die).foldl (fun s p => dropProg f p 2 s) s
    if 3 ≤ n then dieFailed die 3 s else s
  else s
/-- A grown-bad count above 256 fails the die (R81). -/
def badCheck (die : Nat) (s : State) : State := if 256 < (dieAt s die).grownBad then dieFailed die 4 s else s

/-- A stripe member moves to another die-block, which holds its rows by now: the generation rises (R103; for its mirror record see
assumption 172). -/
def moveMember (m new : Nat) (s : State) : State :=
  updStripe (m / 16) (fun x => { x with
      gen := (x.gen + 1) % 2 ^ 32, members := x.members.set (m % 16) { (x.members.getD (m % 16) {}) with blk := some new } })
    (updBlk new (fun b => { b with state := 4, member := some m }) s)
/-- A die without power: its work, latches and registers are gone; its recalibrations are kept for its return (R442). -/
def clearDie (d : Die) : Die :=
  { d with
    op := none, opQ := [], seg := false, suspending := false, suspended := false, overdue := false, prog := none, head := none, metaHead := none,
    recalQ := d.recalQ.map fun x => (x.1, 8),
    sensing := [none, none, none, none], cache := [none, none, none, none] }
/-- A frond becomes absent (R94): its reads are lost to read-around, unprogrammed copies and copies of other fronds' data
are placed again (R125), its own data stays on the other two copies. -/
def frondGone (f st : Nat) (s : State) : State :=
  let s := frondState f st s
  let s := loseReads (fun r => frondOfDie r.die == f) s
  let held := s.cws.filter fun c => !c.2.folded && memberFrond (slotOfCk c.1) (posOfCk c.1) == f && durable c.2
  let s := held.foldl (fun s c => updCw c.1 (fun x => { x with
      cut := x.cut + (x.copies.filter fun l => l.frond == f).length, copies := x.copies.filter (fun l => l.frond != f) }) s) s
  let s := endRefresh f (loseCopies (fun l => l.frond == f) s)
  let s := { s with progs := s.progs.filter (fun p => p.2.frond != f),
                    dies := s.dies.map fun d => if frondOfDie d.1 = f then (d.1, clearDie d.2) else d }
  let s := metasGone f (unverify f (fun _ => true) s)
  settleFailed (updFrond f (fun g => { g with cur := {}, nxt := {}, pack := [], waiting := [], opDies := [] }) s)
/-- Every parity codeword of a row has its copies programmed (R116). -/
def rowParityHeld (s : State) (slot row : Nat) : Bool :=
  let d := dataOf (stripeAt s slot).profile
  (List.range (16 - d)).all fun q => (List.range 64).all fun o => cwReady s (cKey slot (d + q) row o)
/-- Rows of fronds absent for too long are released, oldest SEQ first: where the stripe stays recoverable with the absent
member lost, the row's parity is held and no codeword of it belongs to a write still open (R116, R125, R132). DESIGN CHOICE: against
ABSENT_HOLD_PCT held copies count as codewords, 16,384 to a die-block; how copies in shared blocks occupy die-blocks is left open
(assumption 187). -/
def absentRelease (s : State) : State :=
  let held := s.cws.filter fun c => !c.2.folded && frondAbsent s (memberFrond (slotOfCk c.1) (posOfCk c.1))
  let copies := held.foldl (fun a c => a + (c.2.copies.filter (·.done)).length) 0
  let total := (List.range 16).foldl (fun a f => a + (16384 - (frondAt s f).sbMissing)) 0
  if copies * 100 ≤ s.feat.absentPct * total * 16384 then s
  else
    let may := fun (c : Nat × Cw) =>
      recoverable (stripeAt s (slotOfCk c.1)).profile (lostNow s (slotOfCk c.1)) && rowParityHeld s (slotOfCk c.1) (rowOfCk c.1)
        && !(held.any fun w => hOfCk w.1 == hOfCk c.1 && openCw s w.2)
    match minBy (fun c => c.2.seq) (held.filter may) with
    | some c =>
      let h := hOfCk c.1
      let s := releaseCopies (fun ck => hOfCk ck == h) s
      aenPage 0xC6 (updSeedbed (fun x => { x with absentReleased := x.absentReleased + 1 }) s)
    | none => s

end Sys2Proof.Machine
end

