-- ==== Sys2Proof/Machine/Rows.lean ====
section
/-! DEFINITION. Rows on their way into stripe members: fold reads, reconstruction of rebuilt and filled rows, refresh copies,
copies placed again, and the background reads of scrub and recalibration (R74–R76, R97–R104, R118–R119, R125). -/
namespace Sys2Proof.Machine
open Sys2Proof

/-- The member that a chunk belongs to. -/
def rowMember (s : State) (h : Nat) : Member := memberAt s (h / 1024)
/-- The Quihar that owns a chunk's namespace. -/
def ownerOfH (s : State) (h : Nat) : CardId := ownerOfNs s (stripeAt s (slotOfH h)).nsid
/-- The sixteen plane pages of a wordline set: plane, page level. -/
def allPages : List (Nat × Nat) := (List.range 16).map fun i => (i % 4, i / 4)
/-- A request that may still bring its data. -/
def reqLive (r : Req) : Bool := match r.st with | .done | .notPlaced | .withdrawn => false | _ => true
/-- The requests of a chunk are given up, their buffers freed (R260). -/
def dropRow (h : Nat) (s : State) : State :=
  dropReqs (fun r => r.chunk == some h) ((s.reqs.filter fun r => r.2.chunk == some h).foldl (fun s r => freeReqBuf r.1 s) s)
/-- The P256K buffer that stages a chunk is free (R22, R97). -/
def freeStage (h : Nat) (s : State) : State :=
  match (chunkAt s h).buf with
  | some b => decBuf (ownerOfH s h) 2 b 0 (updChunk h (fun c => { c with buf := none }) s)
  | none => s

/-! ### Recalibration (R76). -/
/-- Temperature of the package that holds a die, °C, as last sampled (R419). -/
def packageTemp (s : State) (die : Nat) : Option Nat := (tget none s.power.temps (64 + die / 8)).map fun t => (t / 8).toNat
/-- A closed wordline set of a group, set 0 of the first block of it that a stripe member holds rows in, or of a metadata block; with
SLC or not. -/
def closedBlock (s : State) (die group : Nat) : Option (Nat × Bool) :=
  (s.blks.find? fun b => b.1 / 4096 == die && b.1 % 4096 / 32 == group
    && (b.2.state == 5 && decide (0 < b.2.rows) || b.2.mode == some true && (match b.2.member with | some m => decide (0 < (memberAt s m).verified) | none => false))).map
      fun b => (b.1 % 4096, b.2.state == 5)
/-- A group's recalibration is due: its seven plane reads at rank 8, at offsets stepped around the current ones, go out, where the group
holds a closed wordline set (R76; assumption 140). None starts in PS3 or PS4, or on a frond that is prepared: it is kept for later under the count 8 (R442). -/
def recalDue (die group : Nat) (s : State) : State :=
  let d := dieAt s die
  if 66 ≤ group || 2 ≤ d.state || d.recalQ.any (fun x => x.1 == group) then s
  else if 3 ≤ s.power.ps || (frondAt s (frondOfDie die)).prepared != 0 then updDie die (fun d => { d with recalQ := d.recalQ ++ [(group, 8)] }) s
  else match closedBlock s die group with
    | some (b, slc) =>
      (List.range 7).foldl (fun (s : State) (i : Nat) => addReq { kind := .recal, die := die, block := b, slc := slc, mask := 1, step := (i : Int) - 3, target := s.time.fc + 1, arrival := now s } s)
        (updDie die (fun d => { d with recalQ := d.recalQ ++ [(group, 7)] }) s)
    | none => updDie die (fun d => { d with recalQ := d.recalQ ++ [(group, 0)] }) s
/-- Recalibrations of a frond that were kept for later start again (R442). -/
def recalAgain (f : Nat) (s : State) : State :=
  if frondAbsent s f || 3 ≤ s.power.ps || (frondAt s f).prepared != 0 then s
  else (s.dies.filter fun d => frondOfDie d.1 == f && d.2.recalQ.any fun x => x.2 == 8).foldl (fun s d =>
    (d.2.recalQ.filter fun x => x.2 == 8).foldl (fun s x => recalDue d.1 x.1 s)
      (updDie d.1 (fun y => { y with recalQ := y.recalQ.filter fun x => x.2 != 8 }) s)) s
/-- One of a recalibration's reads has ended. -/
def recalReadDone (die group : Nat) (s : State) : State :=
  updDie die (fun d => { d with recalQ := d.recalQ.map fun x => if x.1 = group then (x.1, x.2 - 1) else x }) s
/-- A package has moved by RECAL_TEMP since the last calibration of a group of one of its eight dies (R76). -/
def recalTemp (pkg : Nat) (temp : Nat) (s : State) : State :=
  (List.range 8).foldl (fun s i =>
    let die := pkg * 8 + i
    ((dieAt s die).calTemp.filter fun x => decide (s.feat.recalTemp ≤ (temp - x.2) + (x.2 - temp))).foldl (fun s x => recalDue die x.1 s) s) s

/-! ### Refresh marks and scrub passes (R73, R75). -/
/-- Schedules a die-block for refresh once (R73). -/
def scheduleRefresh (k : Nat) (s : State) : State := updBlk k (fun b => { b with refresh := true }) s
/-- A margin read of a scrub pass has ended; with the last the pass is complete (R75, R82). -/
def scrubReadDone (k : Nat) (s : State) : State :=
  updBlk k (fun b => { b with
    scrubLeft := b.scrubLeft - 1, scrubbed := if b.scrubLeft = 1 then s.time.past + s.time.fc else b.scrubbed }) s

/-! ### Fold reads (R118, R119). -/
/-- Rows below a row of a member have been requested, or folded. -/
def foldOrder (s : State) (h : Nat) (m : Member) : Bool :=
  let row := h % 1024
  decide (row ≤ m.verified) || (match tfind s.chunks (h - 1) with
    | some c => c.st != .filling && c.st != .held && c.st != .failed
    | none => false)
/-- The copy of a codeword that a fold reads: the least of its copies that decodes and whose frond is present (R119, R128). -/
def foldCopy (s : State) (cw : Cw) : Option CopyLoc :=
  minBy (·.idx) (cw.copies.filter fun l => l.done && !l.bad && !frondAbsent s l.frond)
/-- Adds a fold read: one on another frond than the chunk's takes an S16K buffer of the owning Quihar (R21, R119). -/
def addFoldRead (h die block wl plane mask : Nat) (s : State) : State :=
  let r : Req :=
    { kind := .foldRead, owner := ownerOfH s h, die := die, block := block, wl := wl, plane := plane, slc := true, mask := mask,
      target := s.time.fc, arrival := now s, chunk := some h }
  if frondOfDie die = memberFrond (slotOfH h) (posOfH h) then addReq r s else addReqBuf r s
/-- An uncorrectable codeword is recorded: where it lay (R72). -/
def uncorrEvent (k wl : Nat) (s : State) : State := event 0x10A 2 (srcF (frondOfDie (k / 4096))) (obj 2 k) 0 wl 0 s
/-- A row of a member is uncorrectable, and lost (R72, R93). -/
def rowLost (h : Nat) (s : State) : State :=
  rowsLost (slotOfH h) [h % 1024] (match (rowMember s h).blk with | some b => uncorrEvent b (h % 1024) s | none => s)
/-- A codeword of a fold that no copy brings: it is lost, and its row (R72, R93). -/
def foldLost (h ck : Nat) (s : State) : State :=
  let s := match (cwAt s ck).copies with | l :: _ => uncorrEvent (blkKey l.die l.block) l.wl s | [] => s
  rowsLost (slotOfH h) [h % 1024] (updCw ck (fun c => { c with lost := true }) s)
/-- Requests a chunk's fold: one read for each plane page that holds codewords of it; its QLC program waits for its data. -/
def foldRequest (h : Nat) (s : State) : State :=
  match (rowMember s h).blk with
  | none => s
  | some b =>
    let cks := ((List.range 64).map (h * 64 + ·)).filter fun ck => match tfind s.cws ck with | some c => c.kind != .padding && !c.folded | none => false
    let found := cks.map fun ck => (ck, foldCopy s (cwAt s ck))
    let lost := found.filterMap fun x => if x.2.isNone then some x.1 else none
    let at' := found.filterMap fun x => x.2.map fun l => ((l.die, l.block, l.wl, l.place / 4), l.place % 4)
    let places := ((at'.map (·.1)).eraseDups).map fun p => (p, ((at'.filter fun x => x.1 == p).map (·.2)).eraseDups.foldl (fun a i => a + 2 ^ i) 0)
    let s := updChunk h (fun c => { c with st := if places = [] then .dataIn else .reading, reads := places.length, recovery := false }) s
    let s := places.foldl (fun s p => addFoldRead h p.1.1 p.1.2.1 p.1.2.2.1 p.1.2.2.2 p.2 s) s
    lost.foldl (fun s ck => foldLost h ck s) (queueOp b { kind := .qlc, chunk := h, ready := false } s)
/-- A fold read has delivered: with the last the chunk's data may go to the latches (R119). -/
def foldReadDone (n h : Nat) (s : State) : State :=
  let s := freeReqBuf n s
  if (tfind s.chunks h).isNone || (chunkAt s h).st != .reading then s
  else updChunk h (fun c => { c with reads := c.reads - 1, st := if c.reads ≤ 1 then .dataIn else .reading }) s
/-- The copies of codewords that a read was to bring are dead: no tier decoded them (R128). -/
def badCopies (r : Req) (s : State) : State :=
  let here := fun (l : CopyLoc) => l.done && l.die == r.die && l.block == r.block && l.wl == r.wl && l.place / 4 == r.plane && bit r.mask (l.place % 4)
  { s with cws := s.cws.map fun c => if c.2.copies.any here then
      (c.1, { c.2 with copies := c.2.copies.map fun l => if here l then { l with bad := true } else l }) else c }
/-- A fold read has failed: each codeword that it was to bring is read from another copy that decodes, or is lost (R119). -/
def foldReroute (n h : Nat) (s : State) : State :=
  let r := reqAt s n
  let here := fun (l : CopyLoc) => l.die == r.die && l.block == r.block && l.wl == r.wl && l.place / 4 == r.plane && bit r.mask (l.place % 4)
  let mine := (s.cws.filter fun c => hOfCk c.1 == h && !c.2.folded && c.2.copies.any here).map (·.1)
  let s := badCopies r s
  if (tfind s.chunks h).isNone || (chunkAt s h).st != .reading then freeReqBuf n s
  else
    let s := mine.foldl (fun s ck => match foldCopy s (cwAt s ck) with
      | some l => addFoldRead h l.die l.block l.wl (l.place / 4) (2 ^ (l.place % 4)) (updChunk h (fun c => { c with reads := c.reads + 1 }) s)
      | none => foldLost h ck s) s
    foldReadDone n h s

/-! ### Rows by reconstruction (R97, R101, R104). -/
/-- Members that the reconstruction of a row reads, those given up left out (R91, R101). -/
def rowMembers (s : State) (h : Nat) (out : List Nat) : Option (List Nat) :=
  let slot := slotOfH h
  aroundMembers (stripeAt s slot).profile (posOfH h)
    ((List.range 16).filter fun m => m != posOfH h && (unavailable s slot m (h % 1024) || out.contains m))
/-- The row stays unreadable though every member that can return does (R101). -/
def rowDoomed (s : State) (h : Nat) (out : List Nat) : Bool :=
  let slot := slotOfH h
  (aroundMembers (stripeAt s slot).profile (posOfH h) ((List.range 16).filter fun m => m != posOfH h
    && (out.contains m || (unavailable s slot m (h % 1024) && !returnable s slot m (h % 1024))))).isNone
/-- Asks members for pages of a row; their pieces arrive in S16K buffers (R92). -/
def askRow (h : Nat) (ms : List Nat) (pages : List (Nat × Nat)) (s : State) : State :=
  ms.foldl (fun s m => match ((stripeAt s (slotOfH h)).members.getD m {}).blk with
    | some b => pages.foldl (fun s p => addReqBuf
        { kind := .rebuildRead, owner := ownerOfH s h, die := b / 4096, block := b % 4096, wl := h % 1024, plane := p.1, page := p.2, mask := 15,
          target := s.time.fc, arrival := now s, chunk := some h } s) s
    | none => s) s
/-- Starts the reconstruction of a row: the P256K buffer that stages it, and the reads of its members (R97). None where no
buffer is free or too few members are available. -/
def startRow (h : Nat) (s : State) : Option State :=
  match rowMembers s h (chunkAt s h).out with
  | none => none
  | some ms => match takeBufs (ownerOfH s h) 2 1 s with
    | (some (b :: _), s) =>
      some (askRow h ms allPages (updChunk h (fun c => { c with st := .reading, recovery := true, reads := 16 * ms.length, buf := some b }) s))
    | _ => none
/-- The cursor of a member passes a row (R100, R104). -/
def passRow (h : Nat) (s : State) : State :=
  setMember (h / 1024) (fun m => if m.verified = h % 1024 then { m with verified := h % 1024 + 1 } else m)
    { s with chunks := tdel s.chunks h }
/-- The refresh that a row is copied for, if one is: its target block (R74). -/
def refreshOf (s : State) (h : Nat) : Option Nat :=
  match (frondAt s (memberFrond (slotOfH h) (posOfH h))).refresh with
  | some (src, dst, row, _) => if (blkAt s src).member = some (h / 1024) ∧ row = h % 1024 then some dst else none
  | none => none
/-- The program that brings a row of a refresh to its target waits for its data (R74). -/
def refreshProgram (h dst : Nat) (s : State) : State := queueOp dst { kind := .refresh, chunk := h, ready := false, prog := .refresh } s
/-- A row cannot be reconstructed: it is lost where the cause is permanent, else left missing until a member returns
(R101). A refresh goes on with what the source still gives. -/
def rowBack (h : Nat) (s : State) : State :=
  let out := (chunkAt s h).out
  let s := freeStage h (dropRow h s)
  if rowDoomed s h out then
    match refreshOf s h with
    | some dst => refreshProgram h dst { s with chunks := tdel s.chunks h }
    | none => passRow h (rowLost h s)
  else updChunk h (fun c => { c with st := .failed, recovery := true, reads := 0 }) s
/-- A row whose reads have all come waits for a stream engine (R97). -/
def rowReady (h : Nat) (s : State) : State :=
  if (chunkAt s h).reads = 0 ∧ (chunkAt s h).st = .reading then
    updSe (ownerOfH s h) (· ++ [.rebuild h]) (updChunk h (fun c => { c with st := .combining }) s)
  else s
/-- A chunk is being read for its reconstruction. -/
def rowReading (s : State) (h : Nat) : Bool := (tfind s.chunks h).isSome && (chunkAt s h).recovery && (chunkAt s h).st == .reading
/-- A member piece of a row has been decoded; it stays in its buffer until the row is combined. -/
def rowReadDone (n h : Nat) (s : State) : State :=
  if rowReading s h then rowReady h (updChunk h (fun c => { c with reads := c.reads - 1 }) s) else freeReqBuf n s
/-- A member piece of a row does not come: another member takes its place where R88 allows (R101). -/
def rowReroute (n h : Nat) (s : State) : State :=
  let r := reqAt s n
  let s := freeReqBuf n (updReq n (fun x => { x with st := .done }) s)
  if !rowReading s h then s
  else
    let posOf := fun (q : Req) => (List.range 16).find? fun m => ((stripeAt s (slotOfH h)).members.getD m {}).blk == some (blkKey q.die q.block)
    let s := updChunk h (fun c => { c with out := c.out ++ (posOf r).toList }) s
    match rowMembers s h (chunkAt s h).out with
    | none => rowBack h s
    | some ms =>
      let asked := (s.reqs.filter fun q => q.2.chunk == some h && q.2.plane == r.plane && q.2.page == r.page).filterMap fun q => posOf q.2
      let new := ms.filter fun m => !asked.contains m
      rowReady h (askRow h new [(r.plane, r.page)] (updChunk h (fun c => { c with reads := c.reads - 1 + new.length }) s))
/-- A stream engine has combined a row: the staged chunk waits for its program on the member's target, or on that of a
refresh (R74, R97). -/
def rowCombined (h : Nat) (s : State) : State :=
  if (chunkAt s h).st != .combining then s
  else
    let s := updChunk h (fun c => { c with st := .dataIn }) (dropRow h s)
    match refreshOf s h, (rowMember s h).blk with
    | some dst, _ => refreshProgram h dst s
    | none, some b => queueOp b { kind := .rebuild, chunk := h, ready := false, prog := .rebuild, rank := 4, recovery := true } s
    | none, none => { freeStage h s with chunks := tdel s.chunks h }
/-- A member under rebuild or fill begins again on another die-block, from row 0 (R100, R101). -/
def restartFill (m new : Nat) (s : State) : State :=
  let s := (s.chunks.filter fun c => c.1 / 1024 == m && c.2.recovery).foldl (fun s c => { freeStage c.1 (dropRow c.1 s) with chunks := tdel s.chunks c.1 }) s
  updStripe (m / 16) (fun x => { x with
      gen := (x.gen + 1) % 2 ^ 32, members := x.members.set (m % 16) { blk := some new, filling := true } })
    (updBlk new (fun b => { b with state := 4, member := some m, mode := none }) s)
/-- A member's rows are being copied to another die-block, or are about to be: nothing else is programmed meanwhile (R60, R103). -/
def leaving (s : State) (m : Nat) : Bool := match (memberAt s m).blk with | some b => (blkAt s b).leave | none => false
/-- The next row of a member under rebuild or fill: from seedbed copies still held, as fold work; else by reconstruction,
while its Quihar has credit under REBUILD_RATE; the rebuilt chunk is staged in DRAM, in and out (R22, R29, R99, R104). -/
def fillRow (m : Nat) (s : State) : State :=
  let st := stripeAt s (m / 16)
  let x := st.members.getD (m % 16) {}
  let h := m * 1024 + x.verified
  let own := ownerOfNs s st.nsid
  let pay := fun (s : State) => match startRow h s with
    | some s => updStats (fun x => { x with dramUsed := x.dramUsed + 524288 })
        (updRebuild (fun r => { r with credit := pset r.credit own (pget r.credit own - 262144) }) s)
    | none => if rowDoomed s h (chunkAt s h).out then passRow h (rowLost h s) else s
  if x.blk.isNone ∨ leaving s m ∨ !x.filling ∨ st.folded ≤ x.verified ∨ frondAbsent s (memberFrond (m / 16) (m % 16)) then s
  else if st.lostRows.contains x.verified then passRow h s
  else match tfind s.chunks h with
    | some c =>
      if c.st = .held ∧ !c.recovery then foldRequest h s
      else if c.st = .failed ∧ c.recovery ∧ 262144 ≤ pget s.rebuild.credit own then pay s
      else s
    | none => if 262144 ≤ pget s.rebuild.credit own then pay s else s
/-- What moves a chunk's row on is still there: its reads, its stream-engine unit, its long operation, its place in the next
member table. -/
def rowMoves (s : State) (h : Nat) (c : Chunk) : Bool :=
  match c.st with
  | .reading => s.reqs.any fun r => r.2.chunk == some h && reqLive r.2
  | .combining => (s.seA ++ s.seB).any fun w => decide (w = .rebuild h)
  | .dataIn | .programming | .verifying => s.dies.any fun d => (d.2.op.toList ++ d.2.opQ).any fun o => o.chunk == h && o.kind != .erase && o.kind != .pad
  | .verified => (frondAt s (memberFrond (slotOfH h) (posOfH h))).batch.contains h
  | _ => true
/-- A row whose work was lost with a die, a frond or a reset begins again: its copies, or its sources, are still there (R50,
R101, R129). -/
def unstick (s : State) : State :=
  (s.chunks.filter fun c => !rowMoves s c.1 c.2).foldl (fun s c =>
    if c.2.recovery then updChunk c.1 (fun x => { x with st := .failed, reads := 0 }) (freeStage c.1 (dropRow c.1 s))
    else
      let s := match (rowMember s c.1).blk with
        | some b => updDie (b / 4096) (fun d => { d with opQ := d.opQ.filter fun o => !(o.kind == .qlc && o.chunk == c.1) }) s
        | none => s
      updChunk c.1 (fun x => { x with st := .held, reads := 0 }) s) s

/-! ### Refresh (R74). -/
/-- Programmed wordline sets of a member: its verified rows, or all up to its last padded one. -/
def programmedRows (x : Member) : Nat := max x.verified x.padded
/-- A member that may be refreshed: none of its stripe is being filled (R101), or its block has to be left. -/
def refreshable (s : State) (k : Nat) : Bool :=
  match (blkAt s k).member with
  | some m => (blkAt s k).leave || !((stripeAt s (m / 16)).members.any (·.filling))
  | none => false
/-- Chunks with a copy in a seedbed block that is due for refresh fold ahead of their turn (R74). -/
def foldAhead (f : Nat) (s : State) : State :=
  let seeds := (s.blks.filter fun b => b.2.refresh && b.2.state == 3 && frondOfDie (b.1 / 4096) == f).map (·.1)
  if seeds = [] then s
  else
    let ahead := ((s.cws.filter fun c => c.2.copies.any fun l => seeds.contains (blkKey l.die l.block)).map fun c => hOfCk c.1).eraseDups
    { s with chunks := s.chunks.map fun c => if ahead.contains c.1 then (c.1, { c.2 with readyFc := 0 }) else c }
/-- A die-block for the rows of a member that leaves its block: the replacement of a grown-bad one, else any (R60, R74). -/
def leaveFor (k m : Nat) (s : State) : Option Nat × State :=
  if (blkAt s k).state = 8 then takeReplacement (k / 4096) 64 s else drawMember (frondOfDie (k / 4096)) (stripeAt s (m / 16)).cls s
/-- The copy of a member's rows begins on a frond: of one that has to leave its block first, else of one scheduled for refresh, into
the least-worn free die-block (R74). A member that has to leave and finds none is missing (R105). -/
def startRefresh (f : Nat) (s : State) : State :=
  let due := s.blks.filter fun b => (b.2.refresh || b.2.leave) && frondOfDie (b.1 / 4096) == f && decide ((dieAt s (b.1 / 4096)).state ≤ 1)
      && (b.2.state == 4 || b.2.leave) && refreshable s b.1
  match (match due.find? (·.2.leave) with | some b => some b | none => due.head?) with
  | none => s
  | some (src, b) =>
    let m := b.member.getD 0
    let go := fun (dst : Nat) (s : State) => updFrond f (fun g => { g with refresh := some (src, dst, 0, 0) }) (updBlk dst (fun x => { x with state := 4 }) s)
    if b.leave then match leaveFor src m s with
      | (some dst, s) => go dst s
      | (none, s) => memberGone m (updFrond f (fun g => { g with check := true }) (toDirty src s))
    else match drawBlock f (stripeAt s (m / 16)).cls 64 s with
      | (some dst, s) => go dst s
      | (none, s) => s
/-- A long operation on a die-block waits or runs. -/
def opOn (s : State) (k : Nat) : Bool :=
  let d := dieAt s (k / 4096)
  (d.op.toList ++ d.opQ).any fun o => o.block == k % 4096 && o.kind != .erase
/-- Wordline sets above a finish row are still to be padded on a member (R139, R295). -/
def padAgain (m : Nat) (s : State) : State :=
  let st := stripeAt s (m / 16)
  match st.finishRow, (memberAt s m).blk with
  | some r, some b =>
    let row := max r (memberAt s m).padded
    if row < 1024 ∧ !opOn s b ∧ !leaving s m then queueOp b { kind := .pad, chunk := m / 16 * 16384 + row, ready := false } s else s
  | _, _ => s
/-- A frond's refresh at a tick: the next row's sixteen reads (R74). -/
def refreshTick (f : Nat) (s : State) : State :=
  if parked s || !frondIn s f then s
  else
  let s := rewriteTick f (foldAhead f s)
  match (frondAt s f).refresh with
    | none => startRefresh f s
    | some (src, dst, row, reads) =>
      match (blkAt s src).member with
      | none => endRefresh f s
      | some m =>
        let h := m * 1024 + row
        if programmedRows (rowMember s h) ≤ row || opOn s dst then s
        else match tfind s.chunks h with
          | some c => if c.st = .failed && c.recovery then (startRow h s).getD s else s
          | none =>
            if 0 < reads ∧ s.reqs.any (fun r => r.2.chunk == some h && reqLive r.2) then s
            else
              let read := fun (s : State) (p : Nat × Nat) =>
                addReq { kind := .refreshRead, owner := ownerOfH s h, die := src / 4096, block := src % 4096, wl := row, plane := p.1,
                         page := p.2, mask := 15, target := s.time.fc, arrival := now s, chunk := some h } s
              allPages.foldl read (updFrond f (fun g => { g with refresh := some (src, dst, row, 16) }) s)
/-- A page of the row that a refresh copies has been decoded; with the last its program waits for its segments. -/
def refreshReadDone (h : Nat) (s : State) : State :=
  let f := memberFrond (slotOfH h) (posOfH h)
  match refreshOf s h, (frondAt s f).refresh with
  | some dst, some (src, _, row, n) =>
    if n = 0 then s
    else
      let s := updFrond f (fun g => { g with refresh := some (src, dst, row, n - 1) }) s
      if n = 1 then refreshProgram h dst s else s
  | _, _ => s
/-- A page of the source that no tier decodes: the row is rebuilt by read-around instead (R72, R74). -/
def refreshReroute (h : Nat) (s : State) : State :=
  match refreshOf s h with
  | none => s
  | some dst =>
    let f := memberFrond (slotOfH h) (posOfH h)
    let s := dropRow h (updFrond f (fun g => { g with refresh := g.refresh.map fun x => (x.1, x.2.1, x.2.2.1, 0) }) s)
    match startRow h s with
    | some s => s
    | none =>
      if rowDoomed s h [] then
        refreshProgram h dst (match (rowMember s h).blk with | some b => uncorrEvent b (h % 1024) s | none => s)
      else updChunk h (fun c => { c with st := .failed, recovery := true }) s
/-- A refresh copy's row has passed its verification (R74). -/
def refreshRowDone (h : Nat) (s : State) : State :=
  let f := memberFrond (slotOfH h) (posOfH h)
  updFrond f (fun g => { g with refresh := g.refresh.map fun x => (x.1, x.2.1, x.2.2.1 + 1, 0) }) { s with chunks := tdel s.chunks h }

/-! ### Copies placed again (R125). -/
/-- A codeword's first copy index that no copy has. -/
def freeIdxOf (cw : Cw) : Nat := ((List.range 3).find? fun i => !(cw.copies.any fun l => l.idx == i)).getD 0
/-- Reads a codeword for a copy to be placed again, through an S16K buffer, at rank 4 (R125). -/
def replaceRead (ck : Nat) (s : State) : State :=
  match foldCopy s (cwAt s ck) with
  | some l => addReqBuf { kind := .rebuildRead, owner := ownerOfNs s (stripeAt s (slotOfCk ck)).nsid, die := l.die, block := l.block, wl := l.wl,
                          plane := l.place / 4, slc := true, mask := 2 ^ (l.place % 4), target := s.time.fc, arrival := now s, cw := some ck } s
  | none => s
/-- Copies to be placed again start, oldest SEQ first, while their Quihar has credit under REBUILD_RATE (R99, R125). -/
def replaceTick (s : State) : State :=
  let live := s.seedbed.replace.filter fun ck => (tfind s.cws ck).isSome && !(cwAt s ck).folded
  let s := updSeedbed (fun b => { b with replace := live }) s
  (sortBy (fun a b => decide ((cwAt s a).seq < (cwAt s b).seq)) (live.filter fun ck => (foldCopy s (cwAt s ck)).isSome)).foldl (fun s ck =>
    let own := ownerOfNs s (stripeAt s (slotOfCk ck)).nsid
    if pget s.rebuild.credit own < 4096 then s
    else replaceRead ck (updRebuild (fun r => { r with credit := pset r.credit own (pget r.credit own - 4096) })
      (updSeedbed (fun b => { b with replace := lrem b.replace ck }) s))) s
/-- The codeword has been read: its new copy goes out; one that lacks a further copy is read again for it (R125). -/
def placeDone (n ck : Nat) (s : State) : State :=
  let s := freeReqBuf n s
  if (tfind s.cws ck).isNone || (cwAt s ck).folded then s
  else
    let s := recopy ck (freeIdxOf (cwAt s ck)) (updCw ck (fun w => { w with waiting := w.waiting - 1 }) s)
    let w := cwAt s ck
    if decide (w.copies.length + w.cut < 3) && (nextFrond s (memberFrond (slotOfCk ck) (posOfCk ck)) (w.copies.map (·.frond))).isSome then
      updSeedbed (fun b => { b with replace := if b.replace.contains ck then b.replace else b.replace ++ [ck] }) s
    else s
/-- The copy that was read does not decode: another is tried, if one is left (R125, R128). -/
def placeFailed (n ck : Nat) (s : State) : State :=
  let s := freeReqBuf n (badCopies (reqAt s n) s)
  if (foldCopy s (cwAt s ck)).isSome then updSeedbed (fun b => { b with replace := b.replace ++ [ck] }) s
  else foldLost (hOfCk ck) ck s

/-! ### Lost accumulators (R117). -/
/-- Data codewords of a stripe's open row that have passed a stream engine. -/
def openRow (s : State) (slot : Nat) : List (Nat × Cw) :=
  let a := accumAt s slot
  let p := (stripeAt s slot).profile
  s.cws.filter fun c => slotOfCk c.1 == slot && rowOfCk c.1 == a.row && decide (posOfCk c.1 < dataOf p) && c.2.encrypted
/-- The fold reads that bring the codewords of a lost accumulator's row to its Quihar, one for each plane page of a copy; a codeword that
no copy brings is lost, and its row (R72, R117). -/
def askAccum (slot : Nat) (s : State) : State :=
  let cks := ((openRow s slot).filter fun c => c.2.kind != .padding && !c.2.copies.isEmpty).map (·.1)
  let found := cks.map fun ck => (ck, foldCopy s (cwAt s ck))
  let at' := found.filterMap fun x => x.2.map fun l => ((l.die, l.block, l.wl, l.place / 4), l.place % 4)
  let places := ((at'.map (·.1)).eraseDups).map fun p => (p, ((at'.filter fun x => x.1 == p).map (·.2)).eraseDups.foldl (fun a i => a + 2 ^ i) 0)
  let dead := found.filter fun x => x.2.isNone && (cwAt s x.1).copies.all (·.bad) && !(cwAt s x.1).lost
  let s := dead.foldl (fun s x => foldLost (hOfCk x.1) x.1 s) (updAccum slot (fun a => { a with asked := true }) s)
  places.foldl (fun s p => addReqBuf
    { kind := .foldRead, owner := ownerOfNs s (stripeAt s slot).nsid, die := p.1.1, block := p.1.2.1, wl := p.1.2.2.1, plane := p.1.2.2.2, slc := true, mask := p.2,
      target := s.time.fc, arrival := now s, accum := some slot } s) s
/-- Lost accumulators of Quihars that serve are read for (R117). -/
def accumTick (s : State) : State :=
  (s.accums.filter fun a => a.2.lost && !a.2.asked && (cardAt s (ownerOfNs s (stripeAt s a.1).nsid)).serving).foldl (fun s a => askAccum a.1 s) s
/-- Every read of a lost accumulator has ended. -/
def accumRead (s : State) (slot : Nat) : Bool := (accumAt s slot).asked && !(s.reqs.any fun r => r.2.accum == some slot && reqLive r.2)

/-! ### What a read that serves no command does when it ends. -/
/-- A plane read of a metadata work has ended. -/
def workReadDone (n w : Nat) (s : State) : State := freeReqBuf n (updWork w (fun x => { x with reads := x.reads - 1 }) s)
/-- No tier decodes a plane page that a metadata work copies (R72): a map page keeps its other copies. -/
def workReadFailed (n w : Nat) (s : State) : State :=
  let r := reqAt s n
  let s := uncorrEvent (blkKey r.die r.block) r.wl s
  match (workAt s w).of with
  | .page _ => freeReqBuf n (dropWork w s)
  | _ => workReadDone n w s
/-- A read of a lost accumulator does not decode: its row is asked for again, from other copies (R117, R128). -/
def accumReadFailed (n slot : Nat) (s : State) : State :=
  freeReqBuf n (updAccum slot (fun a => { a with asked := false }) (badCopies (reqAt s n) s))
/-- A background read has been decoded. -/
def readDone (n : Nat) (s : State) : State :=
  let r := reqAt s n
  match r.work with
  | some w => workReadDone n w s
  | none =>
  match r.kind, r.chunk, r.cw with
  | .foldRead, some h, _ => foldReadDone n h s
  | .rebuildRead, some h, _ => rowReadDone n h s
  | .rebuildRead, none, some ck => placeDone n ck s
  | .refreshRead, some h, _ => refreshReadDone h s
  | .scrub, _, _ => scrubReadDone (blkKey r.die r.block) s
  | .recal, _, _ => recalReadDone r.die (r.block / 32) s
  | _, _, _ => freeReqBuf n s
/-- A margin read that no tier decodes: the refresh of its block rebuilds the codeword by read-around, else it is
uncorrectable (R72). -/
def scrubFailed (r : Req) (s : State) : State :=
  let k := blkKey r.die r.block
  let s := match (blkAt s k).member with
    | some m => if (rowMembers s (m * 1024 + r.wl) []).isSome then s else uncorrEvent k r.wl s
    | none => uncorrEvent k r.wl s
  scrubReadDone k s
/-- No copy of a map page decodes: the commands that wait for it end with Unrecovered Read Error (R72, R150). -/
def pageLost (r : Req) (pk : Nat) (s : State) : State :=
  let w := (tget ({} : MapPage) s.pages pk).waiters
  let s := { uncorrEvent (blkKey r.die r.block) r.wl s with pages := tupd {} s.pages pk (fun p => { p with waiters := [] }) }
  w.foldl (fun s k =>
    if (cmdAt s k).st ≠ .mapWait then s
    else if (cmdAt s k).e.sqid = 0 then discard k (updNs (cmdAt s k).e.nsid (fun n => { n with victim := none }) s)
    else finishCmd k (2, 0x81) 0 0 [] (updCmd k (fun c => { c with errLba := c.lba }) s)) s
/-- A copy of a map page that no tier decodes: the next copy is read, while one is left (R150). -/
def pageFailed (r : Req) (pk : Nat) (s : State) : State :=
  let l := pageCopies s pk
  let i := l.idxOf (r.die * 4 + r.plane, r.block, r.wl)
  match (l.drop (i + 1)).find? fun x => frondIn s (x.1 / 1024) && (dieAt s (x.1 / 4)).state == 0, (tget ({} : MapPage) s.pages pk).waiters with
  | some x, k :: _ => sendPageRead k pk x s
  | none, _ :: _ => pageLost r pk s
  | _, [] => s
/-- Map pages that commands wait for and no read brings are asked for again (R151). -/
def pagesTick (s : State) : State :=
  s.pages.foldl (fun s p => match p.2.waiters with
    | k :: _ => if p.2.cached || p.2.arrived || pageComes s p.1 then s else (match pageCopy s p.1 with | some x => sendPageRead k p.1 x s | none => s)
    | [] => s) s
/-- No tier has decoded a background read. -/
def readFailed (n : Nat) (s : State) : State :=
  let r := reqAt s n
  match r.mapPage, r.work, r.accum with
  | some pk, _, _ => pageFailed r pk s
  | none, some w, _ => workReadFailed n w s
  | none, none, some x => accumReadFailed n x s
  | none, none, none =>
  match r.kind, r.chunk, r.cw with
  | .foldRead, some h, _ => foldReroute n h s
  | .rebuildRead, some h, _ => rowReroute n h s
  | .rebuildRead, none, some ck => placeFailed n ck s
  | .refreshRead, some h, _ => refreshReroute h s
  | .scrub, _, _ => scrubFailed r s
  | .recal, _, _ => recalReadDone r.die (r.block / 32) s
  | _, _, _ => freeReqBuf n s

end Sys2Proof.Machine
end

