-- ==== Sys2Proof/Machine/Media.lean ====
section
/-! DEFINITION. Meanings of the media commands: markers, requests, plans, segments, senses, decode, erase, channels,
refresh, scrub (R33–R54, R62–R84). -/
namespace Sys2Proof.Machine
open Sys2Proof

/-- FRAME_START_MARKER (R33): Filnas follows the marker of the card it follows, correcting its phase by at most 16 counts;
no FC is skipped or repeated. -/
def execFrameStartMarker (frond : Frond) (card : CardId) (low : BitVec 16) (phase : Int) (s : State) : Out :=
  if card = (frondAt s frond).follows then
    let corr := max (-16) (min 16 phase)
    .next (updFrond frond (fun g => { g with
      marker := low, phase := phase - corr, marked := pset g.marked card true, unmarked := 0, fc := s.time.fc }) s)
  else .next (updFrond frond (fun g => { g with marked := pset g.marked card true, unmarked := 0 }) s)
/-- MARKER_MISSING (R33): the master's marker is 64 counts late; Filnas follows the other Quihar from this frame on. -/
def execMarkerMissing (frond : Frond) (s : State) : Out :=
  if pget (frondAt s frond).marked s.time.master then .next s
  else .next (updFrond frond (fun g => { g with follows := other s.time.master }) s)
/-- A request that its die does not take: a rebuild's piece comes from another member (R51, R101), any other takes the route
of a read that is not to be had. -/
def turnedAway (n : Nat) (s : State) : State :=
  match (reqAt s n).kind, (reqAt s n).chunk with
  | .rebuildRead, some h => rowReroute n h s
  | _, _ => noDie n s
/-- MEDIA_REQUEST (R39, R41): the request is inserted into the current frame, placed in the earliest open plan, or not
placed. -/
def mediaRequest (n cnt : Nat) (s : State) : State :=
  let r := reqAt s n
  let g := frondAt s (frondOfDie r.die)
  let s := atCount cnt s
  let fc := s.time.fc
  if r.st ≠ .sent then s
  else if g.fenced.contains r.owner then send (.refuse n) (updReq n (fun x => { x with st := .withdrawn }) s)
  else if superseded s r.slice r.gen then freeReqBuf n (updReq n (fun x => { x with st := .withdrawn }) s)
  else if !dieTakes s r then settleFailed (turnedAway n s)
  else if fc + 64 < r.target then settleFailed (notPlaced n s)
  else
    let s := updReq n (fun x => { x with arrival := now s }) s
    match (if r.target ≤ fc then insertWin s r n cnt else none) with
    | some w =>
      let s := insertRead n cnt w (updReq n (fun x => { x with st := .planned, frame := some fc, win := w, offs := offsOf s x }) s)
      if w = .free then issueSense n s else s
    | none => settleFailed (placeReq n (notPlaced n) s)
def execMediaRequest (req cnt : Nat) (s : State) : Out := .next (mediaRequest req cnt s)
/-- PLAN_CLOSE (R40): the plan for the next frame stops accepting requests. -/
def execPlanClose (frond : Frond) (s : State) : Out :=
  .next (atCount 12000 (updFrond frond (fun g => { g with closed := true }) s))
/-- FRAME_PLAN_FIX (R40, R110): the plan is fixed no later than count 15,872; a second fix of one plan changes nothing. -/
def execFramePlanFix (frond : Frond) (cnt : Nat) (s : State) : Out :=
  let g := frondAt s frond
  if 15872 < cnt ∨ (frondAbsent s frond ∧ g.prepared ≠ 1) ∨ (g.nxt.frame = s.time.fc + 1 ∧ (g.nxt.fixed ∨ g.nxt.hold)) then .next s
  else .next (settleFailed (fixPlan frond cnt (atCount cnt s)))
/-- A Quihar treats its requests in a frond's next plan as not placed (R52). -/
def planLost (card : CardId) (f : Nat) (s : State) : State :=
  let mine := pget (frondAt s f).placed card
  settleFailed (mine.foldl (fun s n => notPlaced n (withdraw n s)) (updFrond f (fun g => { g with placed := pset g.placed card [] }) s))
/-- FRAME_PLAN_MESSAGE (R40, R274): alive counter and CRC are checked. A discarded message is none; after a gap the Quihar's
requests for that frame count as not placed (R52). -/
def execFramePlanMessage (card : CardId) (frond : Frond) (ctr : BitVec 8) (crcOk : Bool) (s : State) : Out :=
  let old := pget (frondAt s frond).planRx card
  let (s, last, good) := Sys2Proof.Machine.alive card 3 old ctr crcOk s
  let s := updFrond frond (fun g => { g with planRx := pset g.planRx card last, planHeard := pset g.planHeard card (pget g.planHeard card || good) }) s
  if good && old.any (fun x => ctr != x + 1) then .next (planLost card frond s) else .next s
/-- SUSPEND_POINT (R37): a segment that has not finished its multi-segment operation receives Suspend. -/
def execSuspendPoint (die : Nat) (s : State) : Out :=
  let d := dieAt s die
  .next (if d.seg ∧ d.op.isSome then updDie die (fun d => { d with suspending := true }) s else s)
/-- Reads of the read window are issued at the segment check (R34). -/
def issueWindow (die : Nat) (s : State) : State :=
  ((frondAt s (frondOfDie die)).cur.reads.filter fun n =>
    let r := reqAt s n; r.die == die && r.win == .read && r.st == .planned).foldl (fun s n => issueSense n s) s
/-- A member without a programmed row, or under rebuild or fill, goes to another die-block at once and begins again there: with row 0, or
with its padding (R50, R101). -/
def beginAgain (m new : Nat) (s : State) : State :=
  if (memberAt s m).filling then restartFill m new s else padAgain m (moveMember m new s)
/-- The die-block to which such a member goes: for a grown-bad one its replacement, or the least-worn spare in a rebuild; else any
(R60, R101, R105). -/
def newTarget (k m why : Nat) (s : State) : Option Nat × State :=
  let f := frondOfDie (k / 4096)
  if why = 0 then drawMember f (stripeAt s (m / 16)).cls (toDirty k s)
  else
    let (got, s) := if (memberAt s m).filling then takeSpare f 64 (grownBad k why s) else (none, grownBad k why s)
    match got with | some b => (some b, s) | none => takeReplacement (k / 4096) 64 s
/-- A program's target block is given up: to the dirty pool where it was only interrupted, or grown bad. What it was to program waits
for another program. A member with programmed rows stays readable there until they have been copied (R38, R103); another goes at once,
and is missing where there is no block for it (R50, R60, R68, R101, R105). -/
def leaveTarget (k : Nat) (o : LongOp) (bad : Bool) (s : State) : State :=
  let f := frondOfDie (k / 4096)
  let kind := if o.kind = .verify then o.prog else o.kind
  let why := if !bad then 0 else if o.kind = .verify then 2 else 1
  let m := if kind = .refresh then none else (blkAt s k).member
  let s := dropOps k (if kind = .refresh then updFrond f (fun g => { g with refresh := none }) s else s)
  let s := if kind = .qlc ∧ (tfind s.chunks o.chunk).isSome then updChunk o.chunk (fun c => { c with st := .held, readyFc := 0 }) s else s
  let short := fun (s : State) => badCheck (k / 4096) (if bad then backingDeficit f s else s)
  match m with
  | none =>
    if !bad then toDirty k s
    else match takeReplacement (k / 4096) 64 (grownBad k why s) with
      | (some _, s) => badCheck (k / 4096) s
      | (none, s) => short s
  | some m =>
    if !(memberAt s m).filling && decide (0 < programmedRows (memberAt s m)) then
      badCheck (k / 4096) (updBlk k (fun b => { b with member := some m, leave := true }) (if bad then grownBad k why s else s))
    else match newTarget k m why s with
      | (some b, s) => badCheck (k / 4096) (beginAgain m b s)
      | (none, s) => short (memberGone m s)
/-- What a die reset interrupts (R50, R78): a one-segment program is packed again on another head's block, a long program abandons its
target, an erase leaves its block erase-incomplete. Event 0x10C will name row 3 of R79's table for it, half-erased: which row such a
block takes is the model's choice (assumption 184). -/
def interruptOp (die : Nat) (s : State) : State :=
  let f := frondOfDie die
  let s := match (dieAt s die).prog with
    | some p =>
      let meta' := (progAt s p).works != []
      unpack p (updDie die (fun d => { d with
        prog := none, head := if meta' then d.head else none, metaHead := if meta' then none else d.metaHead }) (delayProg p 2 s))
    | none => s
  match (dieAt s die).op with
  | none => s
  | some o =>
    let k := blkKey die o.block
    let s := updDie die (fun d => { d with op := none, seg := false, suspending := false, suspended := false }) s
    if o.kind = .erase then
      updFrond f (fun g => { g with dirty := k :: g.dirty.filter (· ≠ k) }) (updBlk k (fun b => { b with state := 2, intent := false, recovery := 3 }) s)
    else leaveTarget k o false s
/-- A die that is not idle is reset (R50). -/
def resetDie (die : Nat) (s : State) : State := updDie die (fun d => { d with resetting := true, overdue := false }) (interruptOp die s)
/-- SEGMENT_CHECK (R34, R50): a ready or suspended die issues its read-window reads; another is a segment overrun and
receives Suspend again. An overdue die that is still not idle is reset. -/
def segmentCheck (die : Nat) (ready : Bool) (s : State) : State :=
  let d := dieAt s die
  let f := frondOfDie die
  let s := atCount 8960 s
  if ready then
    issueWindow die (updDie die (fun d => { d with
      suspended := d.op.isSome && (d.suspended || d.seg), suspending := false, seg := false, overdue := false, resetting := false, resets := 0 }) s)
  else
    let s := updStats (fun x => { x with segOver := x.segOver + 1 }) (updFrond f (fun g => { g with segOver := (g.segOver + 1) % 2 ^ 32 }) s)
    let s := event 0x101 1 (srcF f) (obj 1 die) 0 8960 0 s
    let lost := (frondAt s f).cur.reads.filter fun n => let r := reqAt s n; r.die == die && r.win == .read && r.st == .planned
    let s := lost.foldl (fun s n => loseRead 2 n s) s
    let s := if d.overdue then resetDie die s else updDie die (fun d => { d with overdue := true, suspending := true }) s
    settleFailed (dieOverrun die s)
def execSegmentCheck (die : Nat) (ready : Bool) (s : State) : Out := .next (segmentCheck die ready s)
/-- READ_CHECK (R50): a sense that has not ended is aborted as a read-window overrun; a die of a segment overrun that is not
idle by count 15,680 is reset. -/
def execReadCheck (die plane cnt : Nat) (ended : Bool) (s : State) : Out :=
  if ended then .next s
  else
    let reset := fun (s : State) => if (dieAt s die).overdue ∧ 15680 ≤ cnt then resetDie die s else s
    match (dieAt s die).sensing.getD plane none with
    | some n =>
      let f := frondOfDie die
      let s := atCount cnt s
      let s := updDie die (fun d => { d with sensing := d.sensing.set plane none }) s
      let s := updStats (fun x => { x with rwOver := x.rwOver + 1 }) (updFrond f (fun g => { g with rwOver := (g.rwOver + 1) % 2 ^ 32 }) s)
      let s := event 0x102 1 (srcF f) (obj 1 die) plane cnt 0 s
      .next (settleFailed (reset (dieOverrun die (loseRead 2 n s))))
    | none => .next (if (dieAt s die).overdue ∧ 15680 ≤ cnt then settleFailed (resetDie die (atCount cnt s)) else s)
/-- CHANNEL_PLAN_OVERRUN (R50, R52): the channel's unfinished transfers, those of the requests, programs and dies named, are
dropped; three within 4,000 frames lower the cap and schedule a retraining. -/
def execChannelPlanOverrun (chan : Nat) (dropped : List Nat) (s : State) : Out :=
  let f := chan / 8
  let fc := s.time.fc
  let s := updStats (fun x => { x with chOver := x.chOver + 1 }) (updFrond f (fun g => { g with chOver := (g.chOver + 1) % 2 ^ 32 }) s)
  let s := event 0x103 1 (srcF f) (obj 3 chan) 0 dropped.length 0 s
  let s := dropped.foldl (fun s n => if chanOfDie (reqAt s n).die = chan ∧ (tfind s.reqs n).isSome then
      let r := reqAt s n
      loseRead 2 n (updDie r.die (fun d => { d with cache := d.cache.map fun c => if c = some n then none else c }) s)
    else s) s
  let lost := (frondAt s f).nxt.progs.filter fun p => chanOfDie (progAt s p).die == chan && dropped.contains p
  let s := lost.foldl (fun s p => dropProg f p 2 s) s
  let dies := dropped.filter fun d => chanOfDie d == chan && (frondAt s f).cur.xfers.any fun x => x.of == .longOp d
  let s := updFrond f (fun g => { g with
    cur := dies.foldl (fun p d => dropXfer (.longOp d) p) g.cur,
    nxt := (dies.filter g.nxt.segs.contains).foldl (fun p d => idleDie d { p with segs := p.segs.filter (· ≠ d) }) g.nxt }) s
  let l := ((chanAt s chan).overruns.filter fun x => fc < x + 4000) ++ [fc]
  let s := updChan chan (fun c => { c with overruns := l }) s
  let s := if 3 ≤ l.length then updChan chan (fun c => { c with reduced := true, reducedAt := now s, due := true, overruns := [] }) s else s
  .next (settleFailed s)
/-- CHANNEL_CAP_RESTORE (R52): after 4,000 frames the cap is 190 again. -/
def execChannelCapRestore (chan : Nat) (s : State) : Out :=
  let c := chanAt s chan
  .next (if c.reduced ∧ elapsed s c.reducedAt 4000 then updChan chan (fun c => { c with reduced := false }) s else s)
/-- QUARANTINE_LIFT (R51): QUAR_HOLD frames without an overrun end the quarantine. -/
def execQuarantineLift (die : Nat) (s : State) : Out :=
  let d := dieAt s die
  if d.state = 1 ∧ elapsed s d.lastOverrun s.feat.quarHold then
    .next (event 0x106 0 (srcF (frondOfDie die)) (obj 1 die) 0 (s.time.fc - d.quarFc) 0
      (updDie die (fun d => { d with state := 0, overruns := [] }) s))
  else .next s
/-- SENSE_END (R35, R36): the page waits in the plane's cache register; a read already issued to the plane senses next. -/
def execSenseEnd (die plane : Nat) (s : State) : Out :=
  let d := dieAt s die
  match d.sensing.getD plane none, d.cache.getD plane none with
  | some n, none =>
    let nxt := (s.reqs.find? fun r => r.1 != n && r.2.die == die && r.2.plane == plane && r.2.st == .issued).map (·.1)
    .next (updReq n (fun r => { r with st := .sensed })
      (updDie die (fun d => { d with sensing := d.sensing.set plane nxt, cache := d.cache.set plane (some n) }) s))
  | _, _ => .next s
/-- A read whose result is wanted no more: it ran to its end, and its data is discarded (R42). -/
def unwanted (r : Req) : Bool :=
  r.piece.isNone && r.chunk.isNone && r.cw.isNone && r.mapPage.isNone && r.work.isNone && r.accum.isNone && (match r.kind with | .scrub | .recal | .mapRead => false | _ => true)
/-- Steps by which the extra reads of a tier move the offsets, by the number still to come: one step either side, then two and
three steps out (R69; assumption 185). -/
def extraStep : Tier → Nat → Int
  | .hard, _ => 0
  | .soft, n => if n = 2 then -1 else 1
  | .deep, n => match n with | 5 => -1 | 4 => 1 | 3 => -2 | 2 => 2 | _ => 3
/-- DATA_OUT_END (R36, R45): the page's codewords have moved out, the cache register is free; a retry's next extra read is
sent for the frame claimed for it (R70), else the codewords go to decode. -/
def execDataOutEnd (req : Nat) (s : State) : Out :=
  let r := reqAt s req
  if r.st ≠ .sensed then .next s
  else
    let s := updDie r.die (fun d => { d with cache := d.cache.map fun c => if c = some req then none else c }) s
    if unwanted r then .next (freeReqBuf req (updReq req (fun x => { x with st := .done }) s))
    else if 1 < r.extra then .next (updReq req (fun x => { x with
      st := .sent, extra := x.extra - 1, step := extraStep x.tier (x.extra - 1), target := x.later.head?.getD (s.time.fc + 1), later := x.later.tail, frame := none }) s)
    else .next (updReq req (fun x => { x with st := .moved, extra := 0, step := if x.kind = .recal then x.step else 0 }) s)

/-! ### Decoding (R69–R76). -/
/-- Warn threshold of a die (R73). -/
def warnOf (s : State) (die : Nat) : Nat := hardLimit die * s.feat.warnPct / 100
/-- Worst-case decode time of a tier (R69). -/
def decodeTime : Tier → Nat | .hard => 256 | .soft => 1536 | .deep => 4608
/-- Extra plane reads that a tier still needs (R69, R71). -/
def extraReads (r : Req) : Tier → Nat | .hard => 0 | .soft => 2 | .deep => if r.failedAt.contains .soft then 3 else 5
/-- The earliest frames, from t on, in which n further reads of a plane can be claimed (R70, R71). -/
def claimFrames (s : State) (c : CardId) (dp : Nat) : Nat → Nat → Option (List Nat)
  | 0, _ => some []
  | n + 1, t => (freeClaim s c dp 66 t).bind fun u => (claimFrames s c dp n (u + 1)).map (u :: ·)
/-- The first extra read may use the read window of the frame claimed for the original read, where that was served from the
free segment window and the slot is still empty (R70). -/
def secondWindow (s : State) (r : Req) (cnt : Nat) : Bool :=
  r.frame == some s.time.fc && r.win == .free && decide (cnt ≤ 8896) && !slotTaken s (frondAt s (frondOfDie r.die)).cur r.die r.plane .read
    && (match r.piece with
      | some p => s.stats.claims.any fun c => c.cmd == (pieceAt s p).cmd && c.dp == r.die * 4 + r.plane && c.frame == s.time.fc
      | none => false)
/-- Frames that the extra reads of a tier would claim, after the one in the current frame's read window if there is one. -/
def retryFrames (s : State) (r : Req) (cnt : Nat) (t : Tier) : Option (List Nat) :=
  (claimFrames s r.owner (r.die * 4 + r.plane) (extraReads r t - b2n (secondWindow s r cnt)) (firstOpen s)).map fun l =>
    if secondWindow s r cnt then s.time.fc :: l else l
/-- Planned end of a read in frame t that is then decoded at a tier (R71). -/
def plannedEnd (s : State) (t : Nat) (x : Tier) : Nat := frameStart s (t + 1) + 4096 + decodeTime x + 3200
/-- The budget test fits(tier) of R71. -/
def fits (s : State) (r : Req) (cnt : Nat) (t : Tier) : Bool :=
  match r.deadline with
  | none => true
  | some d => match (retryFrames s r cnt t).bind (·.getLast?) with
    | some last => decide (plannedEnd s last t ≤ d)
    | none => false
/-- Starts a retry of a tier: its extra reads are planned like the plane read they follow, a bound piece's with claims
(R70). -/
def startRetry (n cnt : Nat) (t : Tier) (s : State) : State :=
  let r := reqAt s n
  let s := updDie r.die (fun d => if t = .soft then { d with soft := (d.soft + 1) % 2 ^ 32 } else { d with deep := (d.deep + 1) % 2 ^ 32 }) s
  let s := if t = .deep then recalDue r.die (r.block / 32) s else s
  let frames := if r.deadline.isSome then (retryFrames s r cnt t).getD [] else []
  let s := match r.piece with
    | some p => (frames.filter (s.time.fc < ·)).foldl (fun s u => useClaim (pieceAt s p).cmd (r.die * 4 + r.plane) u (addClaim (pieceAt s p).cmd (r.die * 4 + r.plane) u s))
        (updPiece p (fun x => { x with cause := min x.cause 1 }) s)
    | none => s
  updReq n (fun x => { x with
    st := .sent, tier := t, extra := extraReads r t, step := extraStep t (extraReads r t), target := frames.head?.getD s.time.fc, later := frames.tail,
    frame := none }) s
/-- A piece cannot be rebuilt any more: its codewords are uncorrectable (R72). -/
def uncorrectable (p n : Nat) (s : State) : State :=
  let r := reqAt s n
  failPiece p 1 (event 0x10A 2 (srcF (frondOfDie r.die)) (obj 2 (blkKey r.die r.block)) 0 r.wl 0 s)
/-- What follows when no tier decodes a piece or no retry fits (R71): read-around, another seedbed copy, another member, or
the codeword is uncorrectable (R72). -/
def lastRoute (p n : Nat) (s : State) : State :=
  let r := reqAt s n
  let pc := pieceAt s p
  let done := updPiece p (fun x => { x with cause := min x.cause 1 }) (updReq n (fun x => { x with st := .done }) s)
  match pc.route with
  | 2 => (sendCopy p done).getD (uncorrectable p n done)
  | 1 => if (aroundFor done pc).isSome then readAround p done else uncorrectable p n done
  | _ => ((replaceMember p (memberOf s pc r) done).map (freeReqBuf n)).getD (uncorrectable p n done)
/-- The last frame whose claims the plane reads of members need (R47). -/
def claimsOf (s : State) (r : Req) (pc : Piece) (ms : List Nat) : Option Nat :=
  ms.foldl (fun a m => a.bind fun t =>
    (match (stripeAt s pc.slot).members[m]? with | some x => x.blk | none => none).bind fun b =>
      let dp := (b / 4096) * 4 + r.plane
      match claimOf s pc.cmd dp with
      | some u => some (max t u)
      | none => (freeClaim s r.owner dp 66 (firstOpen s)).map (max t)) (some s.time.fc)
/-- The earliest frame in which another seedbed copy of a piece can be read (R47, R71). -/
def copyFrame (s : State) (r : Req) (pc : Piece) : Option Nat :=
  minBy id ((copiesLeft s pc).filterMap fun l =>
    let dp := l.die * 4 + l.place / 4
    match claimOf s pc.cmd dp with | some t => some t | none => freeClaim s r.owner dp 66 (firstOpen s))
/-- Another route than a retry that does not fit (R71, steps 3 and 4): read-around where its member claims fit, else the route
whose planned completion is earliest, read-around on a tie; for a piece of the overlay another copy takes its place. -/
def otherFirst (s : State) (p : Nat) (r : Req) (cnt : Nat) (t : Tier) : Bool :=
  let pc := pieceAt s p
  let sooner := fun (a : Option Nat) => match a, (retryFrames s r cnt t).bind (·.getLast?) with
    | some a, some b => decide (plannedEnd s a .hard ≤ plannedEnd s b t)
    | some _, none => true
    | none, _ => false
  match pc.route with
  | 2 => (copiesLeft s pc).any (fun l => claimFits s pc.cmd (l.die * 4 + l.place / 4)) || sooner (copyFrame s r pc)
  | 1 => aroundFits s pc || sooner ((aroundFor s pc).bind (claimsOf s r pc))
  | _ => false
/-- A member piece of read-around whose hard decode fails is replaced where the row has tolerance left and, for a bound
piece, the claim fits (R92). -/
def swapMember (p n : Nat) (s : State) : Option State :=
  let r := reqAt s n
  let pc := pieceAt s p
  if pc.route ≠ 3 then none
  else
    let m := memberOf s pc r
    let new := ((aroundFor s { pc with out := pc.out ++ [m] }).getD []).filter fun i => !pc.asked.contains i
    let fit := new.all fun i => match memberPlane s pc.slot i (match pc.blocks with | (_, ck) :: _ => ck | [] => 0) with
      | some dp => claimFits s pc.cmd dp
      | none => false
    if fit then
      (replaceMember p m (updPiece p (fun x => { x with cause := min x.cause 1 }) (updReq n (fun x => { x with st := .done }) s))).map (freeReqBuf n)
    else none
/-- Kinds of reads whose corrected bits schedule a refresh, and those that make a recalibration due (R73, R76). -/
def hostKind : WorkKind → Bool | .boundRead | .weightedRead | .backgroundRead | .gcRead => true | _ => false
def warns (k : WorkKind) : Bool := hostKind k || (match k with | .foldRead | .rebuildRead | .scrub => true | _ => false)
/-- The corrected-bit count of a decode is counted, whatever its result; a codeword counts as decoded once, with its first hard decode
(R69, R73, R76, R84). -/
def countBits (n cbc : Nat) (t : Tier) (s : State) : State :=
  let r := reqAt s n
  let s := updDie r.die (fun d => { d with
    codewords := (d.codewords + if t = .hard ∧ r.failedAt = [] then popMask r.mask else 0) % 2 ^ 32, cbcMax := max d.cbcMax (min cbc 65535) }) s
  if cbc ≤ warnOf s r.die then s
  else
    let s := if warns r.kind then scheduleRefresh (blkKey r.die r.block) s else s
    if hostKind r.kind || r.kind == .scrub then recalDue r.die (r.block / 32) s else s
/-- A piece's plane page has been decoded: on to a stream engine, with the last member piece of a read-around to its
reconstruction. -/
def pieceDecoded (p n : Nat) (s : State) : State :=
  let r := reqAt s n
  let pc := pieceAt s p
  if pc.route = 3 then
    let mine := memberOf s pc r
    let left := pc.members.filter (· ≠ mine)
    let s := updPiece p (fun x => { x with members := left }) s
    if left = [] ∧ pc.members.contains mine then updSe r.owner (· ++ [.reconstruct p]) s else s
  else updSe r.owner (· ++ [.decrypt p]) s
/-- A tier has failed: the next one, or the route of R71 (R92 for a member piece). -/
def decodeFailed (n cnt : Nat) (t : Tier) (s : State) : State :=
  let r := reqAt s n
  let next : Option Tier := if !r.failedAt.contains .soft then some .soft else if !r.failedAt.contains .deep then some .deep else none
  match next, r.piece with
  | some u, some p =>
    (match (if t = .hard then swapMember p n s else none) with
     | some s => s
     | none =>
       if fits s r cnt u || !otherFirst s p r cnt u then startRetry n cnt u s
       else
         let s := if (pieceAt s p).route = 1 then updDie r.die (fun d => { d with routed := (d.routed + 1) % 2 ^ 32 }) s else s
         lastRoute p n s)
  | some u, none => startRetry n cnt u s
  | none, q =>
    let s := scheduleRefresh (blkKey r.die r.block) (updDie r.die (fun d => { d with uncorr := (d.uncorr + popMask r.mask) % 2 ^ 32 }) s)
    match q with
    | some p => lastRoute p n (if (pieceAt s p).route = 2 then badCopies r s else s)
    | none => readFailed n (updReq n (fun x => { x with st := .done }) s)
/-- DECODE_RESULT (R69, R71–R73): corrected bits are counted; `bad` names the codewords that do not decode: with none the plane page goes
on to its stream engine or fold, else those alone take the route of R71. -/
def decodeResult (n : Nat) (t : Tier) (bad cbc cnt : Nat) (s : State) : State :=
  let r := reqAt s n
  let s := atCount cnt s
  if r.st ≠ .moved ∨ (t ≠ r.tier ∧ t ≠ .hard) then s
  else if superseded s r.slice r.gen then freeReqBuf n (updReq n (fun x => { x with st := .withdrawn }) s)
  else if unwanted r then freeReqBuf n (updReq n (fun x => { x with st := .done }) s)
  else
    let s := countBits n cbc t s
    if bad &&& r.mask = 0 then
      let s := updReq n (fun x => { x with st := .done }) s
      match r.piece with
      | some p => pieceDecoded p n s
      | none => settleFailed (readDone n s)
    else
      settleFailed (decodeFailed n cnt t (updReq n (fun x => { x with
        mask := bad &&& x.mask, failedAt := if x.failedAt.contains t then x.failedAt else x.failedAt ++ [t] }) s))
def execDecodeResult (req : Nat) (tier : Tier) (bad cbc cnt : Nat) (s : State) : Out := .next (drr (decodeResult req tier bad cbc cnt s))

/-! ### Erase (R62, R68, R77–R79, R142). -/
/-- ERASE_DONE (R62, R68): a passed erase counts its cycle and wear and the block takes up the use it is erased for, free as
a rule; one not passed after 72 segments makes it grown bad. -/
def eraseDone (die : Nat) (pass : Bool) (s : State) : State :=
  match (dieAt s die).op with
  | none => s
  | some o =>
    if o.kind ≠ .erase then s
    else
      let k := blkKey die o.block
      let f := frondOfDie die
      let b := blkAt s k
      let ended := updDie die (fun d => { d with op := none, seg := false, suspending := false, suspended := false }) s
      if pass then
        let q := b.mode == some true
        let s := updBlk k (fun b => { b with
          state := b.after, after := 0, qlc := if q then sat 2 (b.qlc + 1) else b.qlc, slc := if q then b.slc else sat 2 (b.slc + 1),
          wear := sat 2 (b.wear + if q then 10 else 1), mode := none, refresh := false, intent := false, recovery := 0, seed := false }) ended
        updFrond f (fun g => { g with
          erased := g.erased ++ [(k, q)], recovered := if b.state = 2 then g.recovered ++ [(k, max 1 b.recovery)] else g.recovered,
          sbUsed := if b.seed then g.sbUsed - 1 else g.sbUsed, sbErasing := if b.seed then g.sbErasing - 1 else g.sbErasing }) s
      else if o.segs < 72 then s
      else
        let s := if b.seed then updFrond f (fun g => { g with sbErasing := g.sbErasing - 1 }) ended else ended
        let (got, s) := takeReplacement die 64 (grownBad k 3 s)
        badCheck die (if got.isSome then s else backingDeficit f s)
def execEraseDone (die : Nat) (pass : Bool) (s : State) : Out := .next (eraseDone die pass s)
/-- One erase-journal record stands (R77, R79, R142): its completions and the recoveries among them are recorded, and the blocks that its
intent names may be erased, an erase-incomplete one before any other of its die (R78). -/
def eraseRecord (f : Nat) (ended : List (Nat × Bool)) (recovered : List (Nat × Nat)) (named : List Nat) (s : State) : State :=
  let s := recovered.foldl (fun s x => event 0x10C 0 (srcF f) (obj 2 x.1) x.2 0 0 s) s
  let s := (named.filter (frondAt s f).dirty.contains).foldl (fun s k =>
    let o : LongOp := { kind := .erase, block := k % 4096, rank := 7, arrival := now s }
    updFrond f (fun g => { g with opDies := if g.opDies.contains (k / 4096) then g.opDies else g.opDies ++ [k / 4096] })
      (updDie (k / 4096) (fun d => { d with opQ := if (blkAt s k).state = 2 then o :: d.opQ else d.opQ ++ [o] })
        (updBlk k (fun b => { b with intent := true }) s))) s
  updFrond f (fun g => { g with
    erased := g.erased.drop ended.length, recovered := g.recovered.drop recovered.length, dirty := g.dirty.filter fun k => !named.contains k }) s
/-- ERASE_JOURNAL_RECORD (R77): both copies of a frond's record have programmed, on two dies of different channels. -/
def execEraseJournalRecord (frond : Frond) (s : State) : Out :=
  match findWork s (isErases frond) with
  | some (n, w) => .next (if written (some (n, w)) then (match w.of with
      | .erases f e r l => eraseRecord f e r l (dropWork n s)
      | _ => s) else s)
  | none => .next s
/-- Row of R79 for a die-block whose erase was cut: near its end, or half-erased; what the medium shows is free (assumption
141). -/
def cutRow (s : State) (k : Nat) : Nat := if Config.nearErased k ((blkAt s k).qlc + (blkAt s k).slc) then 2 else 3
/-- A die-block becomes erase-incomplete: it is erased again before any other of its die (R78). -/
def markIncomplete (k row : Nat) (s : State) : State :=
  updFrond (frondOfDie (k / 4096)) (fun g => { g with dirty := k :: g.dirty.filter (· ≠ k) })
    (updBlk k (fun b => { b with state := 2, intent := false, recovery := row }) s)
/-- Erases of a frond end with its Filnas: started ones leave their blocks erase-incomplete, those only named stay dirty and
are named again, and one completed since the last record is made again, uncounted, where its block is still free (R62, R77–R79,
R142). -/
def cutErases (f : Nat) (s : State) : State :=
  let cut := fun (s : State) (d : Nat × Die) =>
    let named := d.2.opQ.filter fun o => o.kind == .erase
    let s := updDie d.1 (fun x => { x with opQ := x.opQ.filter fun o => o.kind != .erase }) s
    let s := named.foldl (fun s o => updFrond f (fun g => { g with
        dirty := if g.dirty.contains (blkKey d.1 o.block) then g.dirty else g.dirty ++ [blkKey d.1 o.block] })
      (updBlk (blkKey d.1 o.block) (fun b => { b with intent := false }) s)) s
    match d.2.op with
    | some o =>
      if o.kind = .erase then
        markIncomplete (blkKey d.1 o.block) (cutRow s (blkKey d.1 o.block))
          (updDie d.1 (fun x => { x with op := none, seg := false, suspending := false, suspended := false }) s)
      else s
    | none => s
  let s := (s.dies.filter fun d => frondOfDie d.1 == f && (erasesOf d.2).any fun _ => true).foldl cut s
  let s := ((frondAt s f).erased.filter fun x => (blkAt s x.1).state == 0).foldl (fun s x =>
    markIncomplete x.1 2 (updBlk x.1 (fun b => { b with
      qlc := if x.2 then b.qlc - 1 else b.qlc, slc := if x.2 then b.slc else b.slc - 1, wear := b.wear - (if x.2 then 10 else 1) }) s)) s
  updFrond f (fun g => { g with erased := [], recovered := g.recovered.filter fun x => (blkAt s x.1).state != 2 }) s
/-- DIE_RESET_TIMEOUT (R81): no ready status within 2 frames of a reset; the second in succession fails the die. -/
def execDieResetTimeout (die : Nat) (s : State) : Out :=
  let d := dieAt s die
  if d.state ≥ 2 ∨ !d.resetting then .next s
  else if d.resets = 0 then .next (updDie die (fun d => { d with resets := 1 }) s)
  else .next (settleFailed (dieFailed die 1 (updDie die (fun d => { d with resets := 2, resetting := false }) s)))

/-! ### Channels (R64–R66). -/
/-- A channel is due for retraining (R65): scheduled under R52 or deferred, RETRAIN_HOURS since its last training, or one of its four
packages has moved by RETRAIN_TEMP from its temperature at that training (assumption 142). -/
def chanDue (s : State) (chan : Nat) : Bool :=
  let c := chanAt s chan
  c.due || decide (c.trainFc + s.feat.retrainHours * 14400000 ≤ s.time.fc)
    || (List.range 4).any fun i => match packageTemp s (chan * 32 + i * 8), c.pkgTemps.getD i none with
      | some t, some o => decide (s.feat.retrainTemp ≤ (t - o) + (o - t))
      | _, _ => false
/-- A channel's training frame is named, one channel of a frond at a time and one start in 64 frames; else it stays due (R65).
It is the frame after the first whose plan is still open. None starts in PS3 or PS4, or on a frond that is prepared (R442). -/
def nameTraining (chan : Nat) (s : State) : State :=
  let f := chan / 8
  let g := frondAt s f
  if 3 ≤ s.power.ps ∨ g.prepared ≠ 0 ∨ g.training.isSome ∨ (g.trainStart ≠ 0 ∧ s.time.fc < g.trainStart + 64) then updChan chan (fun c => { c with due := true }) s
  else
    let fixed := g.nxt.frame = s.time.fc + 1 ∧ (g.nxt.fixed ∨ g.nxt.hold)
    updChan chan (fun c => { c with due := true })
      (updFrond f (fun g => { g with training := some (chan, s.time.fc + if fixed then 3 else 2), trainStart := s.time.fc }) s)
/-- CHANNEL_RETRAIN_DUE (R65): a training frame is named for a channel that is due. -/
def execChannelRetrainDue (chan : Nat) (s : State) : Out :=
  .next (if frondAbsent s (chan / 8) || (chanAt s chan).failed || !(chanAt s chan).trained || !chanDue s chan then s else nameTraining chan s)
/-- A deferred retraining of a frond starts as soon as it may (R65). -/
def trainTick (f : Nat) (s : State) : State :=
  match (List.range 8).find? fun c => let x := chanAt s (f * 8 + c); x.due && !x.failed && x.trained with
  | some c => if frondAbsent s f ∨ (frondAt s f).training.isSome then s else nameTraining (f * 8 + c) s
  | none => s
/-- A channel on which nothing runs any more: its 32 dies fail (R24, R66). -/
def channelFailed (chan : Nat) (s : State) : State :=
  (List.range 32).foldl (fun s i => dieFailed (chan * 32 + i) 2 s) (updChan chan (fun c => { c with failed := true }) s)
/-- CHANNEL_TRAINING_END (R64–R66): one attempt at a training ends, with the dies whose eye is too narrow, and is recorded. It
is the training's last where every die has passed or has had two attempts: delays are centred, a die that failed twice is a
failed die, and a channel on which no die trains fails as one. -/
def execChannelTrainingEnd (chan : Nat) (failed : List Nat) (eye temp : Nat) (s : State) : Out :=
  let f := chan / 8
  let dies := (List.range 32).map (chan * 32 + ·)
  let bad := dies.filter fun d => failed.contains d && decide ((dieAt s d).state ≤ 1)
  let s := event 0x108 0 (srcF f) (obj 3 chan) (b2n (bad ≠ [])) eye 0 s
  let s := (dies.filter fun d => !bad.contains d && decide (0 < (dieAt s d).trainFails)).foldl (fun s d => updDie d (fun x => { x with trainFails := 0 }) s) s
  let s := bad.foldl (fun s d => updDie d (fun x => { x with trainFails := x.trainFails + 1 }) s) s
  if bad.any fun d => decide ((dieAt s d).trainFails < 2) then .next s
  else
    let s := updChan chan (fun c => { c with
      trainFc := s.time.fc, trainings := (c.trainings + 1) % 65536, trainTemp := temp, due := false, trained := true,
      pkgTemps := (List.range 4).map fun i => some ((packageTemp s (chan * 32 + i * 8)).getD temp) }) s
    let s := updFrond f (fun g => { g with training := if (g.training.map (·.1)) = some chan then none else g.training }) s
    let s := bad.foldl (fun s d => updDie d (fun x => { x with trainFails := 0 }) s) s
    let live := dies.filter fun d => decide ((dieAt s d).state ≤ 1)
    if bad ≠ [] ∧ live.all (bad.contains ·) then .next (settleFailed (channelFailed chan s))
    else .next (settleFailed (bad.foldl (fun s d => dieFailed d 2 s) s))

/-! ### Refresh, scrub, read offsets (R74–R76). -/
/-- REFRESH_DONE (R74): the verified copy of every programmed row takes the member over; the old block goes to dirty, or stays grown
bad (R60). -/
def execRefreshDone (die block : Nat) (s : State) : Out :=
  let k := blkKey die block
  let f := frondOfDie die
  match (frondAt s f).refresh, (blkAt s k).member with
  | some (src, dst, row, _), some m =>
    if src ≠ k ∨ row < programmedRows (memberAt s m) ∨ !refreshable s k ∨ opOn s dst then .next s
    else .next (padAgain m (updFrond f (fun g => { g with refreshDone := g.refreshDone + 1, refresh := none }) (toDirty k (moveMember m dst s))))
  | _, _ => .next s
/-- Every wordline set of a member is programmed: the block is closed (R75, R140). -/
def memberClosed (st : Stripe) (x : Member) : Bool :=
  !x.filling && (match st.finishRow with
    | some r => decide (r ≤ x.verified) && decide (1024 ≤ max r x.padded)
    | none => decide (1024 ≤ x.verified))
/-- Scrub interval of a die-block in frames: that of its zone's placement class, for metadata the shortest in force (R75,
R82); none for a block that is not scrubbed. -/
def scrubInterval (s : State) (k : Nat) : Option Nat :=
  let b := blkAt s k
  let iv := fun c => tget 168 s.feat.interval c * 14400000
  match b.member with
  | some m =>
    let st := stripeAt s (m / 16)
    if memberClosed st (st.members.getD (m % 16) {}) then some (iv st.cls) else none
  | none => if b.state = 5 then minBy id ((List.range 16).map iv) else none
/-- A die-block's scrub pass is overdue: its interval has run out (R75). -/
def scrubOverdue (s : State) (k : Nat) : Bool :=
  match scrubInterval s k with
  | some iv => decide ((blkAt s k).scrubbed + iv < s.time.past + s.time.fc)
  | none => false
/-- SCRUB_DUE (R75): the margin reads of one pass over a closed stripe member or a metadata block are queued at rank 8: 8
wordline sets, all four planes and, in QLC, all four pages. The codeword that a margin read returns goes round with the wordline set
and from pass to pass (assumption 143). -/
def execScrubDue (die block : Nat) (s : State) : Out :=
  let k := blkKey die block
  let b := blkAt s k
  match scrubInterval s k with
  | none => .next s
  | some iv =>
    if s.time.past + s.time.fc < b.scrubbed + iv ∨ 0 < b.scrubLeft ∨ (dieAt s die).state ≥ 2 ∨ frondAbsent s (frondOfDie die) then .next s
    else
      let slc := b.state = 5
      let own := match b.member with | some m => ownerOfNs s (stripeAt s (m / 16)).nsid | none => s.time.master
      let pages := if slc then (List.range 4).map fun p => (p, 0) else allPages
      let sets := [0, 146, 292, 438, 585, 731, 877, 1023]
      let reads := sets.flatMap fun w => pages.map fun p => (w, p)
      let read := fun (s : State) (x : Nat × Nat × Nat) =>
        addReq { kind := .scrub, owner := own, die := die, block := block, wl := x.1, plane := x.2.1, page := x.2.2, slc := slc,
                 mask := 2 ^ ((x.1 + b.passes) % 4), margin := s.feat.marginStep, target := s.time.fc + 1, arrival := now s } s
      .next (reads.foldl read (updBlk k (fun x => { x with scrubLeft := reads.length, passes := x.passes + 1 }) s))
/-- READ_OFFSET_RECALIBRATION (R76): a due recalibration has ended; the group's sixteen new offsets apply to plane reads of
plans fixed from now on. -/
def execReadOffsetRecalibration (die group : Nat) (offsets : List Int) (s : State) : Out :=
  let d := dieAt s die
  if d.state ≥ 2 ∨ 66 ≤ group ∨ offsets.length ≠ 16 ∨ !(d.recalQ.contains (group, 0)) then .next s
  else .next (updDie die (fun d => { d with
    offsets := tins d.offsets group offsets, recals := (d.recals + 1) % 65536, recalQ := d.recalQ.filter (fun x => x.1 != group),
    calTemp := match packageTemp s die with | some t => tins d.calTemp group t | none => d.calTemp }) s)

end Sys2Proof.Machine
end

