-- ==== Sys2Proof/Machine/Winnow.lean ====
section
/-! DEFINITION. Winnow programs and the scan they drive: the defects of R234, the automaton of R237, the output of R238 and
R239. -/
namespace Sys2Proof.Machine
open Sys2Proof

/-! ### The program's header and tables (R233). -/
def wpPatterns (p : List Byte) : Nat := fld p 2 2
def wpStates (p : List Byte) : Nat := fld p 4 4
def wpClasses (p : List Byte) : Nat := fld p 12 2
def wpBytes (p : List Byte) : Nat := 320 + wpStates p * wpClasses p * 2 + wpStates p * 32
/-- TRANSITIONS and ACCEPT of the table layout of R233. -/
def wpNext (p : List Byte) (st : Nat) (b : Byte) : Nat :=
  fld p (320 + (st * wpClasses p + fld p (64 + b.toNat) 1) * 2) 2
def wpAccept (p : List Byte) (st : Nat) : Nat := fld p (320 + wpStates p * wpClasses p * 2 + st * 32) 32
/-- The first index below n at which a test holds. -/
def firstIdx (f : Nat → Bool) (n : Nat) : Option Nat := (List.range n).find? f
/-- No Rsvd field of a program's header is set (R12, R233); checked before the defects of R234 (assumption 152). -/
def wpRsvd (p : List Byte) : Bool := decide (fld p 8 1 < 2) && fld p 14 2 == 0 && fld p 24 8 == 0
/-- The first defect of a program of a given length in pages, that of the lowest offset: (byte offset, reason code) (R234). An
inconsistent PGM_LENGTH is named by the offset of PROGRAM_BYTES (assumption 176). -/
def wpDefect (p : List Byte) (pages : Nat) : Option (Nat × Nat) :=
  let st := wpStates p
  let cl := wpClasses p
  let mode := fld p 8 1
  if fld p 0 2 ≠ 1 then some (0, 1)
  else if wpPatterns p = 0 ∨ 256 < wpPatterns p then some (2, 2)
  else if st = 0 ∨ 65536 < st then some (4, 3)
  else if 1 < mode ∨ (mode = 0 ∧ (fld p 9 1 ≠ 0 ∨ fld p 10 2 = 0)) ∨ (mode = 1 ∧ fld p 10 2 ≠ 0) then some (8, 4)
  else if cl = 0 ∨ 256 < cl then some (12, 5)
  else if fld p 16 4 ≠ wpBytes p ∨ 4194304 < wpBytes p ∨ pages ≠ cdiv (wpBytes p) 4096 then some (16, 5)
  else if st ≤ fld p 20 4 then some (20, 3)
  else if slice' p 32 32 ≠ Config.sha256 (slice' p 64 (wpBytes p - 64)) then some (32, 9)
  else match firstIdx (fun i => cl ≤ fld p (64 + i) 1) 256 with
    | some i => some (64 + i, 6)
    | none => match firstIdx (fun i => st ≤ fld p (320 + i * 2) 2) (st * cl) with
      | some i => some (320 + i * 2, 7)
      | none => match firstIdx (fun i => 2 ^ (wpPatterns p - 8 * (i % 32)) ≤ fld p (320 + st * cl * 2 + i) 1) (st * 32) with
        | some i => some (320 + st * cl * 2 + i, 8)
        | none => (firstIdx (fun i => fld p (wpBytes p + i) 1 != 0) (pages * 4096 - wpBytes p)).map fun i => (wpBytes p + i, 5)

/-! ### Records and matches (R237). -/
/-- Fixed-length records from an offset. -/
def fixedRecords (len : Nat) : Nat → Nat → List Byte → List (Nat × List Byte)
  | 0, _, _ => []
  | n + 1, off, l => if l = [] then [] else (off, l.take len) :: fixedRecords len n (off + len) (l.drop len)
/-- Delimited records: each delimiter ends, and belongs to, its record; `cur` is the record so far, reversed. -/
def delimRecords (d : Byte) : List Byte → Nat → List Byte → List (Nat × List Byte)
  | [], start, cur => if cur = [] then [] else [(start, cur.reverse)]
  | b :: r, start, cur =>
    if b = d then (start, (b :: cur).reverse) :: delimRecords d r (start + cur.length + 1) [] else delimRecords d r start (b :: cur)
/-- The records of a stream. -/
def wpRecords (p l : List Byte) : List (Nat × List Byte) :=
  if fld p 8 1 = 0 then fixedRecords (fld p 10 2) l.length 0 l else delimRecords (BitVec.ofNat 8 (fld p 9 1)) l 0 []
/-- The set of patterns found in a record. -/
def wpFound (p r : List Byte) : Nat :=
  (r.foldl (fun a b => let st := wpNext p a.1 b; (st, a.2 ||| wpAccept p st)) (fld p 20 4, 0)).2

/-! ### Output (R238, R239). -/
/-- An output item: the record's offset in the stream, and its bytes. -/
def wpItems (p : List Byte) (tuples : Bool) (recs : List (Nat × List Byte)) : List (Nat × List Byte) :=
  recs.flatMap fun r =>
    let f := wpFound p r.2
    if f = 0 then []
    else if tuples then
      ((List.range 256).filter (bit f)).map fun n => (r.1, le 8 r.1 ++ le 4 r.2.length ++ le 2 n ++ zeros 2)
    else [(r.1, r.2)]
/-- Items that fit the room left, and the offset of the first that does not. -/
def wpTake : Nat → List (Nat × List Byte) → List Byte × Option Nat
  | _, [] => ([], none)
  | room, (off, b) :: r => if room < b.length then ([], some off) else let x := wpTake (room - b.length) r; (b ++ x.1, x.2)
/-- The output of a scan into a buffer: bytes, Dword 0, Dword 1 (R186, R239). -/
def winnowOut (p : List Byte) (tuples : Bool) (room : Nat) (l : List Byte) : List Byte × Nat × Nat :=
  let items := wpItems p tuples (wpRecords p l)
  match items with
  | (off, b) :: _ =>
    if room < b.length then (b.take room, room + 2 ^ 30 + 2 ^ 31, off + b.length)
    else
      let x := wpTake room items
      (match x.2 with | some o => (x.1, x.1.length + 2 ^ 31, o) | none => (x.1, x.1.length, 0))
  | [] => ([], 0, 0)

end Sys2Proof.Machine
end

