-- ==== Sys2Proof/Machine/Stream.lean ====
section
/-! DEFINITION. Stream engines, delivery of read data, deadlines (R22, R53, R86, R114–R117, R236–R240, R445–R447). -/
namespace Sys2Proof.Machine
open Sys2Proof

/-! ### Which work an engine takes (R446, R447). -/
/-- Class of a unit of work. -/
def seClass : SeWork → Nat | .parity _ _ | .reconstruct _ | .rebuild _ => 0 | .encrypt _ | .decrypt _ => 1 | .winnow _ => 2 | .copy _ => 3
/-- Command that a unit serves. -/
def seCmd (s : State) : SeWork → Option Nat
  | .encrypt ck => (cwAt s ck).cmd
  | .reconstruct p | .decrypt p => some (pieceAt s p).cmd
  | .winnow k | .copy k => some k
  | .parity _ _ | .rebuild _ => none
/-- Engines that run a Winnow Read or a Copy between units. -/
def seHolder (s : State) (card : CardId) (k : Nat) : Option Nat := (List.range 24).find? fun n => (engAt s (cardNo card * 64 + 16 + n)).winnow == some k
def svcNo : Svc → Nat | .bound => 0 | .weighted => 1 | .background => 2
/-- Scans of a service class that wait for an engine of a card (R240). -/
def scansWait (s : State) (card : CardId) (v : Svc) : List (Nat × Cmd) :=
  (seAt s card).filterMap fun w => match w with
    | .winnow k => if (seHolder s card k).isSome then none else ((tfind s.cmds k).map fun c => (k, c)).filter fun x => x.2.svc == v
    | _ => none
/-- Place of a slice in a round that goes on from the one where the round robin stands: 1 to 1,024. -/
def roundPlace (cur sl : Nat) : Nat := if cur < sl then sl - cur else sl + 1024 - cur
/-- When the deficit round robin of R206 reaches the first waiting scan of a slice: visits of slices from now on, each with a
quantum of WEIGHT × 4 blocks. -/
def scanTime (s : State) (card : CardId) (c : Cmd) : Nat :=
  let x := sliceAt s c.slice
  let cost := match minBy (·.order) (((scansWait s card c.svc).map (·.2)).filter fun d => d.slice == c.slice) with | some d => d.nlb | none => c.nlb
  let cur := (cardAt s card).scanSlice
  let v := cdiv (cost - pget x.scanDeficit card) (4 * x.share.weight)
  if c.slice = cur ∧ v = 0 then 0 else (max 1 v - 1) * 1024 + roundPlace cur c.slice
/-- A waiting scan takes an engine: the visits up to it give their quanta, and it is paid for; a slice without waiting scans
keeps no deficit (R206, R240). -/
def scanStarts (card : CardId) (k : Nat) (s : State) : State :=
  let c := cmdAt s k
  let t := scanTime s card c
  let l := ((scansWait s card c.svc).map (·.2.slice)).eraseDups
  let cur := (cardAt s card).scanSlice
  let s := { s with slices := s.slices.map fun x =>
      let d := pget x.2.scanDeficit card
      let p := roundPlace cur x.1
      let got := if !l.contains x.1 then 0 else d + (if t < p then 0 else ((t - p) / 1024 + 1) * (4 * x.2.share.weight))
      (x.1, { x.2 with scanDeficit := pset x.2.scanDeficit card (if x.1 = c.slice then got - c.nlb else got) }) }
  updCard card (fun x => { x with scanSlice := c.slice }) s
/-- Order within and among classes: class, service class, deadline, fetch order (R447); scans that wait for an engine take theirs
in the order of R206. -/
def seKey (s : State) (card : CardId) (w : SeWork) : List Nat :=
  match (seCmd s w).bind (tfind s.cmds) with
  | some c =>
    match w with
    | .winnow k => [2, svcNo c.svc, if (seHolder s card k).isSome then 0 else scanTime s card c, c.order]
    | _ => [seClass w, svcNo c.svc, c.deadline.getD (2 ^ 80), c.order]
  | none => match w with | .rebuild _ => [0, 2, 2 ^ 80, 2 ^ 80] | _ => [seClass w, 0, 0, 0]
/-- Key of a stream engine, index 16–39 of its card, and whether it is in service. -/
def seEng (card : CardId) (n : Nat) : Nat := cardNo card * 64 + 16 + n
def seUp (s : State) (card : CardId) (n : Nat) : Bool := let e := engAt s (seEng card n); !e.failed && !e.forGood
def seCount (s : State) (card : CardId) : Nat := ((List.range 24).filter (seUp s card)).length
/-- Scans that run on engines of a card below an index. -/
def winnowing (s : State) (card : CardId) (below : Nat) : Nat :=
  ((List.range below).filter fun n => seUp s card n && (match (engAt s (seEng card n)).winnow with | some k => (cmdAt s k).kind == .winnow | none => false)).length
/-- Scans that a card may run at once (R240). -/
def scanLimit (s : State) (card : CardId) : Nat := min 16 (seCount s card - 8)
/-- A unit can run on this engine now: a codeword in row order and, at L12, behind its group A and with an extension chunk
(R115); a winnow under the limit of R240 and on its own engine: where engines have failed, scans beyond the limit pause. -/
def seReady (s : State) (card : CardId) (n : Nat) (w : SeWork) : Bool :=
  match w with
  | .encrypt ck =>
    let slot := slotOfCk ck
    let a := accumAt s slot
    let b := (stripeAt s slot).profile == .l12 && decide (6 ≤ posOfCk ck)
    !a.lost && a.row == rowOfCk ck && (!b || decide (384 ≤ a.count) && (a.ext.isSome || decide (0 < pget s.seedbed.ext card)))
  | .winnow k =>
    (match seHolder s card k with
     | some m => m == n && decide (winnowing s card n < scanLimit s card)
     | none => decide (winnowing s card 24 < scanLimit s card) && (engAt s (seEng card n)).winnow.isNone)
  | .copy k => (match seHolder s card k with | some m => m == n | none => (engAt s (seEng card n)).winnow.isNone)
  | _ => true
/-- The unit that an engine takes: the least key, the earliest arrival on a tie. -/
def seTake (s : State) (card : CardId) (n : Nat) : Option SeWork :=
  ((seAt s card).filter (seReady s card n)).foldl (fun b w => match b with
    | none => some w
    | some x => if lexLt (seKey s card w) (seKey s card x) then some w else some x) none

/-! ### Parity and encryption (R86, R114–R116, R335). -/
/-- The row's accumulation has grown: L0 is final at the group-A boundary, every parity at the row's end (R115, R116). -/
def rowStep (slot : Nat) (s : State) : State :=
  let st := stripeAt s slot
  let a := accumAt s slot
  let d := dataOf st.profile
  if a.count = 64 * d then
    let s := sendParity slot a.row (List.range (16 - d)) s
    let s := match a.ext with | some c => freeExt c s | none => s
    if a.row = 1023 then { s with accums := tdel s.accums slot } else updAccum slot (fun x => { row := x.row + 1 }) s
  else rowClose slot (if st.profile = .l12 ∧ a.count = 384 then sendParity slot a.row [0] s else s)
/-- Data of a Bulk Append leaves the port's receive buffer as its codewords pass; XON below 2 MiB (R250). -/
def rxDrain (k : Option Nat) (s : State) : State :=
  match k.bind (tfind s.cmds) with
  | some c =>
    if c.kind = .bulkAppend then
      let b := bulkAt s c.desc.port
      let left := b.rxUsed - 4096
      let xon := b.xoff && decide (left < 2097152)
      let s := updBulk c.desc.port (fun b => { b with rxUsed := left, xoff := b.xoff && !xon }) s
      if xon then send (.pfc c.desc.port true) s else s
    else s
  | none => s
/-- One codeword: encrypted, accumulated, sent to its fronds (R20, R108, R114). -/
def encryptUnit (card : CardId) (ck : Nat) (s : State) : State :=
  if (tfind s.cws ck).isNone ∨ (cwAt s ck).encrypted then s
  else
    let cw := cwAt s ck
    let slot := slotOfCk ck
    let p := (stripeAt s slot).profile
    let need := decide (p = .l12) && decide (6 ≤ posOfCk ck) && (accumAt s slot).ext.isNone
    let s := if need then takeExt card s else s
    let s := updAccum slot (fun a => { a with ext := if need then some card else a.ext, count := a.count + 1, acc := accum1 p ck cw a.acc }) s
    let s := if cw.kind = .padding then chunkCheck (hOfCk ck) (updCw ck (fun x => { x with encrypted := true }) s) else sendCw ck s
    rowStep slot (rxDrain cw.cmd s)

/-! ### What reads deliver (R22, R161, R236, R246). -/
/-- The data of a read, block after block, with protection information where it is not stripped. -/
def readData (n : Ns) (c : Cmd) : List Byte :=
  (List.range c.nlb).flatMap fun i => match c.data.find? (fun d => d.1 == c.lba + i) with
    | some d => fitTo 4096 d.2.1 ++ (if blockBytes n c.e = 4112 then fitTo 16 d.2.2 else [])
    | none => zeros (blockBytes n c.e)
/-- The check of one delivered block under its command's rules. -/
def readCheck (n : Ns) (c : Cmd) (lba : Nat) (d pi : List Byte) : Option (Nat × Nat) :=
  match c.kind with
  | .winnow => piCheck n 4 0 0 lba d pi
  | .bulkRead => piCheck n (if c.desc.appTag = 0xFFFF then 5 else 7) 0xFFFF c.desc.appTag lba d pi
  | .copy => (copyTags c.e lba).findSome? fun t => piCheck n (d12 c.e 14 12) t.2 t.1 lba d pi
  | _ => piCheck n (prchk c.e) (d15 c.e 31 16) (d15 c.e 15 0) lba d pi
/-- The blocks of a piece with their data, as decrypted; zeros for a piece of route 0, with protection information of all
ones (R134); the old data where the stripe has been freed since the fetch (R141). -/
def pieceData (s : State) (p : Nat) : List (Nat × List Byte × List Byte) :=
  let pc := pieceAt s p
  if pc.route = 0 then pc.blocks.map fun b => (b.1, zeros 4096, if (nsAt s (cmdAt s pc.cmd).e.nsid).fmt1 then List.replicate 16 0xFF else [])
  else pc.blocks.map fun b => match pc.kept.find? fun x => x.1 == b.2 with
    | some x => (b.1, fitTo 4096 x.2.1, x.2.2)
    | none => let cw := cwAt s b.2; (b.1, fitTo 4096 cw.data, cw.pi)
/-- RDMA WRITEs of a piece: one packet per block, cut at the region end (R246, R247). -/
def bulkSend (p : Nat) (s : State) : State :=
  let k := (pieceAt s p).cmd
  let c := cmdAt s k
  let qk := qpKeyOf c.desc
  let s := updQp qk (fun q => { q with todo := q.todo ++ (pieceAt s p).blocks.map fun b => (k, p, min 4096 (regionRoom c - (b.1 - c.lba) * 4096)) }) s
  issueWrites qk (qpAt s qk).todo.length s
/-- A command has RDMA packets to send or outstanding. -/
def rdmaOpen (q : Qp) (k : Nat) : Bool := q.out.any (fun o => o.2.1 == k) || q.todo.any (fun o => o.1 == k)
/-- A Bulk Read ends once every piece is delivered and every packet acknowledged (R246). -/
def bulkReadEnd (k : Nat) (s : State) : State :=
  let c := cmdAt s k
  if c.kind = .bulkRead ∧ c.st = .reading ∧ c.pieces.all (fun p => (pieceAt s p).delivered) ∧
      !rdmaOpen (qpAt s (qpKeyOf c.desc)) k then
    match c.status with
    | some (7, 0x86) => finishCmd k (7, 0x86) c.moved c.dw1 [] s
    | some st => finishCmd k st 0 0 [] s
    | none => finishCmd k (0, 0) c.moved 0 [] s
  else s
/-- Everything a command reads has been delivered: what it does next. -/
def readEnd (k : Nat) (s : State) : State :=
  let c := cmdAt s k
  let n := nsAt s c.e.nsid
  if c.st ≠ .reading then s
  else if c.kind = .winnow then startScan k s
  else if !(c.pieces.all fun p => (pieceAt s p).delivered) then s
  else match c.kind with
    | .bulkRead => bulkReadEnd k s
    | .copy =>
      (match c.status with
       | some st => finishCmd k st 0 0 [] (settleWrite k s)
       | none => updSe c.owner (· ++ [.copy k]) (updCmd k (fun x => { x with st := .held }) s))
    | .verify => finishCmd k (c.status.getD (0, 0)) 0 0 [] s
    | _ => finishCmd k (c.status.getD (0, 0)) 0 0 (readData n c) s
/-- READ_PIECE_DELIVERY (R22): the piece is checked and moves out; its S16K buffer is free, or held for the packets of a
Bulk Read (R246). A failed check is the command's status once its data has moved (R161);
a Bulk Read cut at its region's end keeps 0x86 reason 2 beside it (R247, assumption 155). -/
def deliver (p : Nat) (s : State) : State :=
  let pc := pieceAt s p
  let k := pc.cmd
  let c := cmdAt s k
  if (tfind s.pieces p).isNone ∨ !pc.ready ∨ pc.delivered ∨ pc.fail ≠ 0 then s
  else if superseded s c.slice c.gen then discard k s
  else
    let n := nsAt s c.e.nsid
    let ds := pieceData s p
    let bad := ds.findSome? fun d => (readCheck n c d.1 d.2.1 d.2.2).map fun st => (st, d.1)
    let s := updPiece p (fun x => { x with delivered := true }) s
    let s := updCmd k (fun x => { x with data := x.data ++ ds }) s
    let s := match bad, c.status with | some (st, l), none => updCmd k (fun x => { x with status := some st, errLba := l }) s | _, _ => s
    let s := { s with misses := s.misses.map fun m => if m.cmd = k then { m with cause := min c.cause pc.cause } else m }
    if c.kind = .bulkRead then readEnd k (bulkSend p s)
    else
      let s := match pc.buf with | some b => updPiece p (fun x => { x with buf := none }) (decBuf c.card 3 b 0 s) | none => s
      readEnd k s
def execReadPieceDelivery (piece : Nat) (s : State) : Out := .next (deliver piece s)
/-- RECONSTRUCTION_DONE (R92): the member pieces of a read-around have been combined into the missing codewords. -/
def execReconstructionDone (piece : Nat) (s : State) : Out :=
  let pc := pieceAt s piece
  if (tfind s.pieces piece).isNone ∨ pc.route ≠ 3 ∨ pc.members ≠ [] ∨ pc.ready then .next s
  else
    let drop := fun (l : List SeWork) => l.filter (fun w => decide (w ≠ .reconstruct piece))
    .next (freeMembers piece (updSe .ca drop (updSe .cb drop (updPiece piece (fun x => { x with ready := true }) s))))

/-! ### Winnow and copy units (R237–R240, R447). -/
/-- The scanned stream: the data bytes of each block in LBA order (R236). -/
def scanBytes (c : Cmd) : List Byte :=
  (List.range c.nlb).flatMap fun i => match c.data.find? (fun d => d.1 == c.lba + i) with
    | some d => fitTo 4096 d.2.1
    | none => zeros 4096
/-- A Winnow Read has scanned its last unit: its output moves and it completes (R186, R239, R445 J). -/
def scanEnd (k : Nat) (s : State) : State :=
  let c := cmdAt s k
  let (d, dw0, dw1) := winnowOut c.prog (bit c.e.cdw13.toNat 8) (d14 c.e 15 0 * 4096) (scanBytes c)
  match c.status with
  | some st => finishCmd k st c.dw0 0 d s
  | none => finishCmd k (0, 0) dw0 dw1 d s
/-- One unit of a Winnow Read or Copy on an engine: the engine keeps it until its last unit. -/
def longUnit (card : CardId) (n k blocks : Nat) (w : SeWork) (done : State → State) (s : State) : State :=
  let c := cmdAt s k
  if c.moved + blocks < c.nlb then
    updSe card (· ++ [w]) (updEng (seEng card n) (fun e => { e with winnow := some k }) (updCmd k (fun x => { x with moved := x.moved + blocks }) s))
  else done (updEng (seEng card n) (fun e => { e with winnow := none }) (updCmd k (fun x => { x with moved := 0 }) s))
/-- The first failing check of a Copy's destination blocks under PRCHK (R161). -/
def copyErr (s : State) (c : Cmd) : Option ((Nat × Nat) × Nat) :=
  let n := nsAt s c.e.nsid
  if pract c.e then none
  else (List.range c.nlb).findSome? fun i =>
    let b := blockData s c i
    (piCheck n (prchk c.e) (d15 c.e 31 16) (d15 c.e 15 0) (c.lba + i) b.1 b.2.1).map fun st => (st, c.lba + i)
/-- A Copy's data goes on to be written: admitted on a zone, placed at the head of a conventional namespace. -/
def copyOn (k : Nat) (s : State) : State :=
  let c := cmdAt s k
  match copyErr s c with
  | some (st, l) => finishCmd k st 0 0 [] (settleWrite k (updCmd k (fun x => { x with errLba := l }) s))
  | none => if (nsAt s c.e.nsid).zoned then writeAdmit k s else convStage k s
/-- One codeword of a row under reconstruction; with the 64th the row is combined (R97, R447). -/
def rowUnit (card : CardId) (h : Nat) (s : State) : State :=
  if (chunkAt s h).st != .combining then s
  else if 63 ≤ (chunkAt s h).reads then rowCombined h (updChunk h (fun c => { c with reads := 0 }) s)
  else updSe card (· ++ [.rebuild h]) (updChunk h (fun c => { c with reads := c.reads + 1 }) s)
/-- STREAM_ENGINE_UNIT (R447): the engine runs one unit of the highest waiting class; in PS3 and PS4 its clock has stopped
and its power is off (R25, R26). -/
def streamUnit (card : CardId) (n : Nat) (s : State) : State :=
  if !engineWorks s card (16 + n) then s
  else match seTake s card n with
    | none => s
    | some w =>
      let s := match w with
        | .winnow k => if (seHolder s card k).isNone ∧ (tfind s.cmds k).isSome then scanStarts card k s else s
        | _ => s
      let s := updSe card (fun l => lrem l w) s
      match w with
      | .parity slot _ => rowStep slot s
      | .encrypt ck => encryptUnit card ck s
      | .reconstruct p => if (tfind s.pieces p).isSome then freeMembers p (updPiece p (fun x => { x with ready := true }) s) else s
      | .decrypt p => if (tfind s.pieces p).isSome then updPiece p (fun x => { x with ready := true }) s else s
      | .rebuild h => rowUnit card h s
      | .winnow k => if (tfind s.cmds k).isSome then longUnit card n k 16 w (scanEnd k) s
                     else updEng (seEng card n) (fun e => { e with winnow := none }) s
      | .copy k => if (tfind s.cmds k).isSome then longUnit card n k 64 w (copyOn k) s
                   else updEng (seEng card n) (fun e => { e with winnow := none }) s
def execStreamEngineUnit (card : CardId) (engine : Nat) (s : State) : Out :=
  if 24 ≤ engine then .next s else .next (streamUnit card engine s)

/-! ### Deadlines (R53, R57, R58, R124). -/
/-- Cause of a deadline fault: the lowest that delayed a piece still outstanding, or the whole command (R58, R406, R445
F). -/
def missCause (s : State) (k : Nat) : Nat :=
  (((cmdAt s k).pieces.map (pieceAt s)).filter fun p => !p.delivered).foldl (fun m p => min m p.cause) (cmdAt s k).cause
/-- COMMAND_DEADLINE (R53): a bound command that has not completed is a deadline fault, treated by its slice's policy. -/
def commandDeadline (k : Nat) (s : State) : State :=
  let c := cmdAt s k
  match c.deadline, c.missed with
  | some d, none =>
    if c.svc ≠ .bound ∨ s.time.start + 16000 ≤ d ∨ superseded s c.slice c.gen then s
    else
      let s := if s.time.start ≤ d then atCount (d - s.time.start) s else s
      let cause := missCause s k
      let pol := b2n c.policy
      let back := if s.time.start ≤ d then 0 else cdiv (s.time.start - d) 16000
      let m : Miss :=
        { fc := s.time.fc - back, count := d + back * 16000 - s.time.start, slice := c.slice,
          gen := c.gen, sqid := c.e.sqid, cid := c.e.cid, port := portNo c.e.port, opc := c.e.opc.toNat, nsid := c.e.nsid, policy := pol,
          cause := cause, cmd := k }
      let s := { s with misses := ((s.misses ++ [m]).reverse.take 64).reverse }
      let s := updStats (fun x => if c.policy then { x with missAbort := x.missAbort + 1 } else { x with missLate := x.missLate + 1 }) s
      let s := updSlice c.slice (fun x => { x with misses := (x.misses + 1) % 2 ^ 32 }) s
      let s := event 0x107 1 (srcQ c.owner) (obj 7 c.slice) cause (now s - d) (qKey c.e.port c.e.sqid) s
      let app := c.kind = .append ∨ c.kind = .bulkAppend
      if !c.policy then updCmd k (fun x => { x with missed := some 0 }) s
      else if boundRead c.kind then finishCmd k (7, 0x80) 0 0 [] s
      else if c.st = .fullWait ∨ c.st = .admitWait then failCmd k (7, 0x80) (if app then c.dw0 else 0) (if app then c.dw1 else 0) s
      else updCmd k (fun x => { x with missed := some 1 }) s
  | _, _ => s
def execCommandDeadline (cmd : Nat) (s : State) : Out := .next (commandDeadline cmd s)

end Sys2Proof.Machine
end

