-- ==== Sys2Proof/Machine/Fold.lean ====
section
/-! DEFINITION. Seedbed program reports, the fold, release of copies, lost accumulators, rebuild and fill (R68, R95–R104,
R110–R121). -/
namespace Sys2Proof.Machine
open Sys2Proof

/-- A codeword has a further programmed copy: with the third it is durable, its write or fill block settles, its chunk may
be ready (R112, R118, R276). -/
def settleCw (ck : Nat) (s : State) : State :=
  let cw := cwAt s ck
  if !durable cw then s
  else
    let s := match cw.cmd.bind fun k => (tfind s.cmds k).map fun c => (k, c) with
      | some (k, c) => if c.st = .writing ∧ c.cws.all (fun x => durable (cwAt s x)) then writeDurable k s else s
      | none =>
        if (cw.kind = .fill ∨ cw.kind = .data) ∧ (nsAt s cw.nsid).zoned then
          let b := cw.lba % 1048576
          updZone (zoneKey cw.nsid (cw.lba / 1048576)) (fun z =>
            let z := { z with fills := if cw.kind = .fill then z.fills - 1 else z.fills }
            if z.slot = some (slotOfCk ck) ∧ z.covered ≤ b ∧ (tfind z.pieces b).isNone then addPiece b cw.data z else z) s
        else s
    chunkCheck (hOfCk ck) s

/-! ### Program reports (R68, R112, R113). -/
/-- A shared program passed: its copies are programmed. -/
def progPass (n : Nat) (q : Prog) (s : State) : State :=
  let k := blkKey q.die q.block
  let live := (q.cws.filter fun w => (tfind s.cws w.1).isSome).length
  let s := updBlk k (fun b => { b with mode := some false, live := b.live + live }) s
  let s := q.cws.foldl (fun s w => if (tfind s.cws w.1).isSome then
      updCw w.1 (fun c => { c with copies := c.copies.map fun l => if l.prog = some n then { l with prog := none, done := true } else l }) s
    else s) s
  q.cws.foldl (fun s w => settleCw w.1 s) s
/-- A seedbed program failed: its block is grown bad, and leaves the seedbed once its valid codewords are released; its
codewords are packed again, ahead of newer ones, on another head (R68, R113). -/
def progFail (n : Nat) (q : Prog) (s : State) : State :=
  let k := blkKey q.die q.block
  let live := q.cws.filter fun w => (tfind s.cws w.1).isSome
  let s := repack n q (updFrond q.frond (fun g => { g with progFails := (g.progFails + 1) % 2 ^ 32 }) s)
  let s := updDie q.die (fun d => { d with head := d.head.filter fun h => h.1 != q.block }) s
  let s := event 0x205 1 (srcF q.frond) (obj 2 k) 0 live.length 0 (grownBad k 1 s)
  let (got, s) := takeReplacement q.die 64 s
  badCheck q.die (if got.isSome then s else backingDeficit q.frond s)
/-- A metadata program failed: what it carried is packed again, and its block is grown bad; what the block holds stays readable, and
its replacement is a metadata block (R60, R68). -/
def metaFail (n : Nat) (q : Prog) (s : State) : State :=
  let k := blkKey q.die q.block
  let s := updDie q.die (fun d => { d with metaHead := d.metaHead.filter fun h => h.1 != q.block }) (uncarry n s)
  match takeReplacement q.die 64 (grownBad k 1 s) with
  | (some b, s) => badCheck q.die (updBlk b (fun x => { x with state := 5, rows := 0 }) s)
  | (none, s) => badCheck q.die (backingDeficit q.frond s)
/-- PROGRAM_STATUS_REPORT (R112, R113). -/
def programReport (n : Nat) (pass : Bool) (s : State) : State :=
  match tfind s.progs n with
  | none => s
  | some q =>
    let s := updDie q.die (fun d => { d with prog := if d.prog = some n then none else d.prog }) { s with progs := tdel s.progs n }
    if q.works ≠ [] then settleFailed (if pass then metaPass n q s else metaFail n q s)
    else if pass then absentRelease (wake (deadBlocks q.frond (progPass n q s))) else settleFailed (progFail n q s)
def execProgramStatusReport (prog : Nat) (pass : Bool) (s : State) : Out := .next (drr (programReport prog pass s))
/-- PACK_WAIT_EXPIRY (R110): weighted codewords that have waited PACK_WAIT frames go into the next program, padded. -/
def execPackWaitExpiry (frond : Frond) (s : State) : Out :=
  .next (updFrond frond (fun g => { g with pack := g.pack.map fun i => if s.feat.packWait ≤ i.waited then { i with waited := 5 } else i }) s)

/-! ### The fold (R118–R120). -/
/-- FOLD_HOLD_EXPIRY (R118): the hold of a ready chunk has ended, or its frond's fill lifts holds. -/
def foldHoldExpiry (slot pos row : Nat) (s : State) : State :=
  let h := hKey slot pos row
  let st := stripeAt s slot
  let m := st.members.getD pos {}
  let f := memberFrond slot pos
  let c := chunkAt s h
  let hold := tget 0 s.feat.foldHold st.cls * 4000
  let free := decide (s.feat.thrPct ≤ fillPct (frondAt s f)) || decide (c.readyFc + hold ≤ s.time.fc) || st.finishRow.isSome
  match m.blk with
  | none => s
  | some b =>
    if c.st = .held ∧ free ∧ foldOrder s h m ∧ !m.filling ∧ !leaving s (h / 1024) ∧ !frondAbsent s f ∧ (dieAt s (b / 4096)).state = 0 then foldRequest h s else s
def execFoldHoldExpiry (slot pos row : Nat) (s : State) : Out := .next (foldHoldExpiry slot pos row s)
/-- Bytes of the last 4,000 frames. -/
def recentBytes (fc n : Nat) (l : List (Nat × Nat)) : List (Nat × Nat) := (l.filter fun x => fc < x.1 + 4000) ++ [(fc, n)]
/-- QLC_PROGRAM_DONE (R38): after 20 segments a program goes on to its verification segments; one wholly of padding is not
verified, and padding goes on with the next row (R139). One that reports status fail gives its target up (R68). -/
def qlcDone (die : Nat) (pass : Bool) (s : State) : State :=
  match (dieAt s die).op with
  | none => s
  | some o =>
    if o.segs < 20 ∨ o.kind = .erase ∨ o.kind = .verify then s
    else if !pass then
      settleFailed (leaveTarget (blkKey die o.block) o true
        (updDie die (fun d => { d with op := none, seg := false, suspending := false, suspended := false }) s))
    else
      let next := fun (q : Option LongOp) (s : State) => updDie die (fun d => { d with op := q, seg := false, suspending := false, suspended := false }) s
      match o.kind with
      | .pad =>
        let row := o.chunk % 1024
        let m := mKey (slotOfH o.chunk) ((die / 256 + 16 - slotOfH o.chunk % 16) % 16)
        let s := setMember m (fun x => { x with padded := row + 1 }) (next none s)
        if row < 1023 then queueOp (blkKey die o.block) { kind := .pad, chunk := o.chunk + 1, ready := false } s else s
      | .qlc =>
        if (List.range 64).all fun i => match tfind s.cws (o.chunk * 64 + i) with | some c => c.kind == .padding | none => true then
          updFrond (frondOfDie die) (fun g => { g with batch := g.batch ++ [o.chunk] }) (updChunk o.chunk (fun c => { c with st := .verified }) (next none s))
        else updChunk o.chunk (fun c => { c with st := .verifying }) (next (some { o with kind := .verify, segs := 0, prog := .qlc }) s)
      | .rebuild | .refresh =>
        let s := if (tfind s.chunks o.chunk).isSome then updChunk o.chunk (fun c => { c with st := .verifying }) s else s
        next (some { o with kind := .verify, segs := 0, prog := o.kind }) s
      | _ => s
def execQlcProgramDone (report : DieStatus) (s : State) : Out := .next (qlcDone report.die report.pass s)
/-- FOLD_VERIFY_DONE (R21, R120): within the verify limit a folded row waits for the next member-table program, a rebuilt one
moves its member's cursor on and is entered in the table too (R97, R103), a refresh goes on to its next row (R74). Beyond the
limit the target is given up (R68). -/
def foldVerify (die : Nat) (within : Bool) (s : State) : State :=
  match (dieAt s die).op with
  | none => s
  | some o =>
    if o.kind ≠ .verify ∨ o.segs < 4 then s
    else
      let s := updDie die (fun d => { d with op := none, seg := false, suspending := false, suspended := false }) s
      let enter := fun (s : State) => updFrond (frondOfDie die) (fun g => { g with batch := g.batch ++ [o.chunk] }) s
      if !within then settleFailed (leaveTarget (blkKey die o.block) o true s)
      else match o.prog with
        | .refresh => refreshRowDone o.chunk s
        | .rebuild =>
          let s := updRebuild (fun r => { r with done := r.done + 262144, recent := recentBytes s.time.fc 262144 r.recent }) s
          enter (passRow o.chunk s)
        | _ => enter (updChunk o.chunk (fun c => { c with st := .verified }) s)
def execFoldVerifyDone (die : Nat) (within : Bool) (s : State) : Out := .next (foldVerify die within s)
/-- Folded row count of a stripe: the rows that each of its present, whole members holds (assumption 26). -/
def foldedRows (s : State) (slot : Nat) : Nat :=
  let st := stripeAt s slot
  let l := (List.range 16).filterMap fun m => match st.members[m]? with
    | some x => if x.blk.isNone || x.filling || frondAbsent s (memberFrond slot m) then none else some x.verified
    | none => none
  match l with | [] => st.folded | a :: r => max st.folded (r.foldl min a)
/-- The fronds of copies 1 and 2 of a folded row are told to release them (R120, step 4). -/
def tellRelease (h : Nat) (s : State) : State :=
  let fronds := ((s.cws.filter fun c => hOfCk c.1 == h).flatMap fun c => c.2.copies.map (·.frond)).eraseDups
  fronds.foldl (fun s f => deadBlocks f s) { releaseCopies (fun ck => hOfCk ck == h) s with chunks := tdel s.chunks h }
/-- Folded rows whose map delta the partner has acknowledged, or cannot any more, are released (R120, R286). -/
def tellTick (s : State) : State :=
  (s.chunks.filter fun c => match c.2.telling with
    | some m => !bothServe s || !((cardAt s (ownerOfH s c.1)).unacked.any fun r => r.msn == m)
    | none => false).foldl (fun s c => tellRelease c.1 s) s
/-- A verified row of a member is in the member table: copy 0 is dead, the row count is a map delta that is mirrored, and then
copies 1 and 2 are released (R120). -/
def releaseFold (h : Nat) (s : State) : State :=
  let slot := slotOfH h
  let own := ownerOfH s h
  let f := memberFrond slot (posOfH h)
  let fill := (memberAt s (h / 1024)).filling
  let s := setMember (h / 1024) (fun x => { x with verified := h % 1024 + 1 }) s
  let s := updStripe slot (fun x => { x with folded := foldedRows s slot }) s
  let s := updFrond f (fun g => { g with table := tins g.table (h / 1024) { gen := (stripeAt s slot).gen, verified := h % 1024 + 1 } }) s
  let local' := fun (s : State) (c : Nat × Cw) => (c.2.copies.filter (·.frond == f)).foldl (fun s l => releaseCopy l s)
    (updCw c.1 (fun x => { x with copies := x.copies.filter (·.frond != f), folded := true }) s)
  let s := deadBlocks f ((s.cws.filter fun c => hOfCk c.1 == h).foldl local' s)
  let s := if fill then updRebuild (fun r => { r with done := r.done + 262144 }) s else s
  let s := updSeedbed (fun b => { b with
    foldedBytes := b.foldedBytes + 262144, recent := recentBytes s.time.fc 262144 b.recent }) s
  if bothServe s then updChunk h (fun c => { c with st := .released, telling := some ((cardAt s own).msnTx + 1) }) (mirror own [] s)
  else tellRelease h s
/-- A rebuilt or reconstructed row is in the member table (R103, R120). -/
def recordRow (f h : Nat) (s : State) : State :=
  let r : MemberRec := { gen := (stripeAt s (slotOfH h)).gen, verified := (memberAt s (h / 1024)).verified }
  updFrond f (fun g => { g with batch := g.batch.filter (· ≠ h), table := tins g.table (h / 1024) r }) s
/-- A member table program brings verified rows (R116, R120): copies of those whose parity is held are released. A frond in
preparation writes it too (R433). -/
def memberTable (f : Nat) (rows : List Nat) (s : State) : State :=
  let s := ((sortBy (fun a b => decide (a < b)) rows).filter (frondAt s f).batch.contains).foldl (fun s h =>
    if (tfind s.chunks h).isNone then recordRow f h s
    else if rowParityHeld s (slotOfH h) (h % 1024) ∧ (memberAt s (h / 1024)).verified = h % 1024 then
      releaseFold h (updFrond f (fun g => { g with batch := g.batch.filter (· ≠ h) }) s)
    else s) s
  updFrond f (fun g => { g with tableFc := s.time.fc }) s
/-- MEMBER_TABLE_PROGRAM (R120): the program of the packed row counts has passed. -/
def execMemberTableProgram (frond : Frond) (s : State) : Out :=
  match findWork s (isMembers frond) with
  | some (n, w) => .next (if written (some (n, w)) then (match w.of with
      | .members f l => memberTable f l (dropWork n s)
      | _ => s) else s)
  | none => .next s

/-! ### Lost accumulators (R117). -/
/-- A lost accumulator needs an extension chunk: group B of an L12 row has begun (R115). -/
def needsExt (s : State) (slot : Nat) : Bool :=
  decide ((stripeAt s slot).profile = .l12) && (openRow s slot).any (fun c => decide (6 ≤ posOfCk c.1))
/-- The accumulator of a stripe, recomputed from the codewords of its open row that have passed a stream engine; one that needs
an extension chunk waits while the pool is empty (R115, R117). -/
def recompute (slot : Nat) (s : State) : State :=
  let a := accumAt s slot
  let card := ownerOfNs s (stripeAt s slot).nsid
  let ext := needsExt s slot
  if !a.lost || (ext && pget s.seedbed.ext card == 0) then s
  else
    let p := (stripeAt s slot).profile
    let l := openRow s slot
    let acc := l.foldl (fun t c => accum1 p c.1 c.2 t) []
    let s := match a.ext with | some c => freeExt c s | none => s
    let s := if ext then takeExt card s else s
    rowStep slot (updAccum slot (fun a => { row := a.row, count := l.length, acc := acc, ext := if ext then some card else none }) s)
/-- ACCUMULATOR_RECOMPUTE_DONE (R117): of a zone, or of a conventional namespace's heads; waiting writes proceed. -/
def execAccumulatorRecomputeDone (nsid zone : Nat) (s : State) : Out :=
  let n := nsAt s nsid
  let slots := if n.zoned then ((zoneAt s (zoneKey nsid zone)).slot).toList else n.head.toList ++ n.gcHead.toList
  let lost := slots.filter fun x => (accumAt s x).lost && accumRead s x
  let s := lost.foldl (fun s x => recompute x s) s
  let wait := (s.cmds.filter fun c => (c.2.st == .openWait || c.2.st == .aheadWait || c.2.st == .admitWait) && c.2.e.nsid == nsid
    && (!n.zoned || c.2.lba / 1048576 == zone)).map (·.1)
  .next (if lost = [] then s else wait.foldl (fun s k => resume k s) s)

/-! ### Rebuild and fill (R95–R101, R104, R107). -/
/-- A stripe's member is whole: record of kind 9, mirrored, the queue position every 1,024 stripes (R100). -/
def stripeWhole (slot pos : Nat) (s : State) : State :=
  let own := ownerOfNs s (stripeAt s slot).nsid
  let since := pget s.rebuild.sinceMirror own + 1
  let s := updRebuild (fun r => { r with
    sinceMirror := pset r.sinceMirror own (since % 1024), position := pset r.position own slot,
    mirrored := if since = 1024 then pset r.mirrored own slot else r.mirrored }) s
  let s := if since = 1024 then mirror own [] s else s
  mirror own [] (journal own { kind := 9, nsid := (stripeAt s slot).nsid, slot := slot, offset := pos } s)
/-- REBUILD_STRIPE_DONE (R100): the cursor of a member has reached the stripe's folded row count: the stripe is whole. The last
member of a rebuild or fill ends it (R107). -/
def rebuildDone (slot pos : Nat) (s : State) : State :=
  let m := mKey slot pos
  let st := stripeAt s slot
  let x := st.members.getD pos {}
  let f := memberFrond slot pos
  if !s.rebuild.queue.contains m ∨ !st.used ∨ frondAbsent s f ∨ !x.filling ∨ x.blk.isNone ∨ x.verified < st.folded then s
  else
    let s := stripeWhole slot pos (setMember m (fun x => { x with filling := false }) s)
    rebuildIdle (padAgain m (unqueue (· == m) s))
def execRebuildStripeDone (slot pos : Nat) (s : State) : Out := .next (rebuildDone slot pos s)

end Sys2Proof.Machine
end

