-- ==== Sys2Proof/Machine/Maps.lean ====
section
/-! DEFINITION. The map journal, map pages, checkpoints, the allocator's requests and garbage collection (R137, R147–R154). -/
namespace Sys2Proof.Machine
open Sys2Proof

/-- Writes one entry of the page map: valid counts of both stripes, the page dirty (R149, R150). -/
def mapSet (nsid lba : Nat) (v : Option (Nat × Nat)) (s : State) : State :=
  let k := nsid * 2 ^ 41 + lba
  let s := match tget none s.map k with | some (o, _) => updStripe o (fun x => { x with valid := x.valid - 1 }) s | none => s
  let s := match v with | some (o, _) => updStripe o (fun x => { x with valid := x.valid + 1 }) s | none => s
  { s with map := tput none s.map k v, pages := tupd {} s.pages (nsid * 2 ^ 29 + lba / 2048) (fun p => { p with dirty := true, writing := false, ref := p.cached }) }
/-- A record of kind 1 covers its codewords from now on (R153). -/
def coverCws (r : JRec) (s : State) : State :=
  let p := (stripeAt s r.slot).profile
  if r.slot = 524287 then s
  else (List.range r.count).foldl (fun s i =>
    let ck := ckOf p r.slot (r.offset + i)
    if (tfind s.cws ck).isSome then updCw ck (fun c => { c with recorded := true }) s else s) s
/-- A record of kind 1 takes effect: blocks written, or cleared; a garbage-collection copy only where the entry still points
at the victim (R149, R152, assumption 21). -/
def applyUpdate (r : JRec) (s : State) : State :=
  let s := coverCws r s
  let gc := match r.cmd with | some k => (cmdAt s k).e.sqid == 0 && (tfind s.cmds k).isSome | none => false
  let victim := (nsAt s r.nsid).victim
  (List.range r.count).foldl (fun s i =>
    let old := tget none s.map (r.nsid * 2 ^ 41 + r.lba + i)
    let v := if r.slot = 524287 then none else some (r.slot, r.offset + i)
    if gc && (old.map (·.1)) != victim then s else mapSet r.nsid (r.lba + i) v s) s
/-- A stripe that a record of kind 4, 6 or 7 releases: it is still the namespace's, and no zone's any more. -/
def releases (s : State) (r : JRec) : Bool :=
  let st := stripeAt s r.slot
  st.used && st.nsid == r.nsid && (match st.zone with | some z => (zoneAt s (zoneKey r.nsid z)).slot != some r.slot | none => r.kind == 7)
/-- A conventional stripe is released: map entries that still point at it are cleared, and its slot is free (R149, R152). -/
def slotGone (r : JRec) (s : State) : State :=
  let mine := s.map.filter fun m => m.1 / 2 ^ 41 == r.nsid && (m.2.map (·.1)) == some r.slot
  let s := mine.foldl (fun s m => mapSet r.nsid (m.1 % 2 ^ 41) none s) s
  let v := (nsAt s r.nsid).victim = some r.slot
  updNs r.nsid (fun n => { n with
    victim := if v then none else n.victim, slots := n.slots.filter (· ≠ r.slot),
    gcFreed := if v then n.gcFreed + capOf (stripeAt s r.slot).profile else n.gcFreed }) s
/-- What a programmed journal record changes in the tables (R152). -/
def recEffect (r : JRec) (s : State) : State :=
  match r.kind with
  | 1 => applyUpdate r s
  | 3 => (match r.undo with | some (zk, old) => finishDone zk old s | none => s)
  | 4 | 6 => (match r.undo with | some (_, z) => if z.slot.isSome && releases s r then freeStripe r.slot s else s | none => s)
  | 7 => if releases s r then freeStripe r.slot (slotGone r s) else s
  | _ => s
/-- One journal record is programmed on all three copies: its change stands and its command's last record completes it
(R152). -/
def applyRec (r : JRec) (s : State) : State :=
  let s := recEffect r s
  match r.cmd with
  | none => s
  | some k =>
    if (tfind s.cmds k).isNone then s
    else
      let s := updCmd k (fun c => { c with recs := c.recs - 1 }) s
      if (cmdAt s k).recs = 0 ∧ (cmdAt s k).st = .journal then
        (if unackedOf s k then updCmd k (fun c => { c with st := .ackWait }) s else endWrite k s)
      else s
/-- Records of a card are programmed on all three copies: its changes are mirrored and the commands are tied to the mirror record
(R152, R286). -/
def recsWritten (c : CardId) (l : List JRec) (s : State) : State :=
  let s := updJ c (fun j => { j with recs := j.recs ++ l, written := j.written + l.length }) s
  l.foldl (fun s r => applyRec r s) (mirror c ((l.filterMap (·.cmd)).filter fun k => (tfind s.cmds k).isSome) s)
/-- MAP_JOURNAL_PROGRAMMED (R152): the oldest codeword of packed records of a card is programmed. -/
def journalProgrammed (c : CardId) (s : State) : State :=
  match findWork s (isJournal c) with
  | some (n, w) => if written (some (n, w)) then (match w.of with
      | .journal _ l _ => recsWritten c l (dropWork n s)
      | _ => s) else s
  | none => s
def execMapJournalProgrammed (card : CardId) (s : State) : Out := .next (journalProgrammed card s)

/-! ### The map cache (R151). -/
/-- Pages that the cache of a card holds now, and its size in pages. -/
def cachedOf (s : State) (c : CardId) : List (Nat × MapPage) :=
  s.pages.filter fun p => p.2.cached && decide (ownerOfNs s (p.1 / 2 ^ 29) = c)
def cachePages (s : State) (c : CardId) : Nat := (memAt s c).cacheNow * 65536
/-- Frees one cache frame by the clock: from its hand on, clean pages lose their reference bits up to the first without one,
which goes. Where every page is dirty, none is free: the first that is not being written back is (R151). -/
def evict (c : CardId) (s : State) : Bool × State :=
  let l := cachedOf s c
  let hand := (jAt s c).hand
  let round := (l.filter fun p => decide (hand < p.1)) ++ l.filter fun p => decide (p.1 ≤ hand)
  let clean := round.filter fun p => !p.2.dirty
  let drop := fun (p : Nat × MapPage) (passed : List Nat) => updJ c (fun j => { j with hand := p.1 })
    { s with pages := tdel (s.pages.map fun q => if passed.contains q.1 then (q.1, { q.2 with ref := false }) else q) p.1 }
  match clean.find? (fun p => !p.2.ref), clean with
  | some p, _ => (true, drop p ((clean.takeWhile (·.2.ref)).map (·.1)))
  | none, p :: _ => (true, drop p (clean.map (·.1)))
  | none, [] => (false, match round.find? fun p => !p.2.writing with | some p => writePage p.1 s | none => s)
/-- A map page that has been read takes a frame of its card's cache and the commands that wait for it proceed; it waits while no frame is
free (R151). -/
def placePage (pk : Nat) (s : State) : State :=
  let c := ownerOfNs s (pk / 2 ^ 29)
  let (room, s) := if cachePages s c ≤ (cachedOf s c).length then evict c s else (true, s)
  let x := tget ({} : MapPage) s.pages pk
  if !room then { s with pages := tupd {} s.pages pk (fun p => { p with arrived := true }) }
  else
    let s := { s with pages := tins s.pages pk { x with cached := true, ref := true, arrived := false, waiters := [] } }
    settleFailed (x.waiters.foldl (fun s k => if (cmdAt s k).st = .mapWait then proceedRead k s else s) s)
/-- MAP_PAGE_READ (R151): the read of the page has ended. -/
def mapPageRead (nsid page : Nat) (s : State) : State :=
  let pk := nsid * 2 ^ 29 + page
  if (tget ({} : MapPage) s.pages pk).cached ∨ !(nsAt s nsid).used ∨ (nsAt s nsid).zoned ∨ pageComes s pk then s else placePage pk s
def execMapPageRead (nsid page : Nat) (s : State) : Out := .next (mapPageRead nsid page s)
/-- Pages that wait for a frame of the cache. -/
def arrivedTick (s : State) : State := (s.pages.filter fun p => p.2.arrived && !p.2.cached).foldl (fun s p => placePage p.1 s) s

/-! ### Checkpoints (R154). -/
/-- A card's map page. -/
def pageOwned (s : State) (card : CardId) (pk : Nat) : Bool := decide (ownerOfNs s (pk / 2 ^ 29) = card)
/-- A checkpoint begins: dirty map pages are written back first. -/
def startCheckpoint (card : CardId) (s : State) : State :=
  if (jAt s card).running.isSome then s
  else
    let s := updJ card (fun j => { j with running := some (seqNow s), stage := 0, lastFc := s.time.fc, written := 0, older := j.recs.length }) s
    (s.pages.filter fun p => p.2.dirty && pageOwned s card p.1).foldl (fun s p => writePage p.1 s) s
/-- A checkpoint goes on: once its map pages are written its table segments, then its root, on the fronds of the frame's number
(assumption 183). -/
def checkpointTick (card : CardId) (s : State) : State :=
  let j := jAt s card
  let fronds := metaFronds s (s.time.fc % 16)
  let pages := s.metas.work.any fun w => match w.2.of with | .page k => pageOwned s card k | _ => false
  if j.running.isNone ∨ fronds = [] ∨ !(cardAt s card).serving then s
  else if j.stage = 0 ∧ !pages then
    (List.range 6).foldl (fun s t => addWork (.segment card t) 16 fronds s) (updJ card (fun j => { j with stage := 1 }) s)
  else if j.stage = 1 ∧ (findWork s (isSegment card)).isNone then addWork (.root card) 1 fronds (updJ card (fun j => { j with stage := 2 }) s)
  else s
/-- CHECKPOINT_START: every 16,384 frames, or after 4,194,304 records. -/
def execCheckpointStart (card : CardId) (s : State) : Out :=
  let j := jAt s card
  .next (if !(cardAt s card).serving ∨ (s.time.fc < j.lastFc + 16384 ∧ j.written < 4194304) then s else startCheckpoint card s)
/-- CHECKPOINT_COMPLETE: the root's three copies are programmed; older records are dead. -/
def execCheckpointComplete (card : CardId) (s : State) : Out :=
  match (jAt s card).running, findWork s (isRoot card) with
  | some q, some (n, w) =>
    .next (if written (some (n, w)) then updJ card (fun j => { j with
      running := none, stage := 0, rootSeq := q, rootEp := s.time.ep, recs := j.recs.drop j.older, older := 0, rootBase := s.pair.lastBase,
      rootPos := pget s.rebuild.position card, rootOwn := (cardAt s card).ownEpoch }) (dropWork n s) else s)
  | _, _ => .next s

/-! ### Allocator requests and garbage collection (R137, R149). -/
/-- ALLOCATOR_REQUEST (R137): the tick master's allocator opens the zone, or the head stripe of a conventional namespace, for the
commands that asked, in fetch order; the opening takes the class named. -/
def allocatorRequest (nsid zone cls : Nat) (s : State) : State :=
  let l := (s.cmds.filter fun c => c.2.st == .allocWait && c.2.e.nsid == nsid && (!(nsAt s nsid).zoned || c.2.lba / 1048576 == zone)).map (·.1)
  let s := match l with | k :: _ => updCmd k (fun c => { c with cls := cls }) s | [] => s
  l.foldl (fun s k =>
    if (cmdAt s k).kind = .zoneSend then zoneOpenWith true k s
    else if (nsAt s nsid).zoned then zoneStageWith true k s
    else convStageWith true k s) s
def execAllocatorRequest (nsid zone : Nat) (cls : Nat) (s : State) : Out := .next (allocatorRequest nsid zone cls s)
/-- Victim of garbage collection: the closed stripe with the fewest valid blocks, the lowest slot on a tie (R149). -/
def pickVictim (s : State) (nsid : Nat) : Option Nat := (minBy (fun x => x.1 * 2 ^ 20 + x.2) (victims s nsid)).map (·.2)
/-- Blocks whose map entry points at a stripe. -/
def validOf (s : State) (nsid slot : Nat) : List Nat :=
  (s.map.filter fun m => m.1 / 2 ^ 41 == nsid && (m.2.map (·.1)) == some slot).map (·.1 % 2 ^ 41)
/-- Groups a rising list into runs (first, length) of at most 1,024 blocks. -/
def runsOf : List Nat → List (Nat × Nat)
  | [] => []
  | a :: r => match runsOf r with
    | (b, n) :: q => if a + 1 = b ∧ n < 1024 then (a, n + 1) :: q else (a, 1) :: (b, n) :: q
    | [] => [(a, 1)]
/-- A garbage-collection copy of one run of blocks: a command of the module's own, queue 0 (R149), whose data is staged in
P256K buffers (R22, R256). A head stripe that it opens takes the placement class of the present garbage-collection head, else
of the victim: no classified write opens it, and R147 leaves the class open (assumption 144). -/
def gcCopy (nsid : Nat) (urgent : Bool) (r : Nat × Nat) (s : State) : State :=
  let (k, s) := fresh s
  let card := ownerOfNs s nsid
  let e : Sqe :=
    { port := portOf card, opc := 0x19, nsid := nsid, cdw10 := BitVec.ofNat 32 r.1, cdw11 := BitVec.ofNat 32 (r.1 / 2 ^ 32),
      data := zeros 8 ++ le 8 r.1 ++ le 2 (r.2 - 1) ++ zeros 14 }
  let n := nsAt s nsid
  let cls := match n.gcHead with | some x => (stripeAt s x).cls | none => (stripeAt s (n.victim.getD 0)).cls
  let c : Cmd :=
    { e := e, kind := .copy, st := .fetched, card := card, owner := card, lba := r.1, nlb := r.2, order := k, cls := cls,
      svc := if urgent then .weighted else .background, fetched := s.time.fc, since := now s }
  writeGo k { s with cmds := tins s.cmds k c }
/-- Garbage collection of a conventional namespace: it takes a victim, or copies what is left of the one it has again, where
no copy runs (R148, R149). What it has freed counts only while F is 3 or 4. -/
def gcStart (nsid : Nat) (s : State) : State :=
  let n := nsAt s nsid
  let s := if 4 < freeStripes s nsid ∧ n.gcFreed ≠ 0 then updNs nsid (fun n => { n with gcFreed := 0 }) s else s
  if n.zoned ∨ !n.used ∨ s.cmds.any (fun c => c.2.e.sqid == 0 && c.2.e.nsid == nsid) then s
  else match n.victim.orElse fun _ => pickVictim s nsid with
    | none => s
    | some v =>
      let s := updNs nsid (fun n => { n with victim := some v }) s
      (runsOf (validOf s nsid v)).foldl (fun s r => gcCopy nsid (decide (freeStripes s nsid ≤ 4)) r s) s
/-- GC_VICTIM_RELEASE (R149): no valid block, no copy and no read of the victim is left: its release is recorded, and takes effect with
its record. -/
def gcRelease (slot : Nat) (s : State) : State :=
  let st := stripeAt s slot
  let n := nsAt s st.nsid
  let busy := s.cmds.any fun c => c.2.e.sqid == 0 && c.2.e.nsid == st.nsid
  let reads := s.pieces.any fun p => p.2.slot == slot && !p.2.delivered
  let waits := (workRecs s .ca ++ workRecs s .cb ++ s.jA.queue ++ s.jB.queue).any fun r => r.kind == 7 && r.slot == slot
  if n.victim ≠ some slot ∨ !st.used ∨ busy ∨ reads ∨ waits ∨ !(validOf s st.nsid slot).isEmpty then s
  else journal (ownerOfNs s st.nsid) { kind := 7, nsid := st.nsid, slot := slot } s
def execGcVictimRelease (slot : Nat) (s : State) : Out := .next (gcRelease slot s)

end Sys2Proof.Machine
end

