-- ==== Sys2Proof/Machine/Bulk.lean ====
section
/-! DEFINITION. Bulk ports: packets of queue pairs, flow and congestion control, links (R241, R242, R246–R254). -/
namespace Sys2Proof.Machine
open Sys2Proof

/-- The oldest unacknowledged PSN of a list of outstanding packets, or the next one to use. -/
def unaOf (q : Qp) : Nat := match q.out with | o :: _ => o.1 | [] => q.psn
/-- The next READ response expected. -/
def expectOf (q : Qp) : Nat := match q.out.find? (fun o => o.2.2.2.2) with | some o => o.1 | none => q.psn
/-- Acknowledged packets up to a PSN: WRITEs of the front part of the list (R246). -/
def ackedBy (q : Qp) (psn : Nat) : List (Nat × Nat × Nat × Nat × Bool) :=
  if q.out.any (fun o => o.1 == psn) then (q.out.take (q.out.findIdx (fun o => o.1 == psn) + 1)).filter fun o => !o.2.2.2.2 else []
/-- Counts acknowledged packets: bytes moved, S16K buffers freed, Bulk Reads that end (R246). -/
def ackList (qp : Nat) (l : List (Nat × Nat × Nat × Nat × Bool)) (s : State) : State :=
  if l = [] then s
  else
    let s := updQp qp (fun q => let q := { q with out := q.out.filter (fun o => !l.contains o), retries := 0, ackAt := now s }; { q with una := unaOf q }) s
    let s := l.foldl (fun s o => if (tfind s.cmds o.2.1).isSome then updCmd o.2.1 (fun c => { c with moved := c.moved + o.2.2.2.1 }) s else s) s
    let pcs := (l.map (·.2.2.1)).eraseDups
    let s := pcs.foldl (fun s p =>
      if (qpAt s qp).out.any (fun o => o.2.2.1 == p && !o.2.2.2.2) || (qpAt s qp).todo.any (fun o => o.2.1 == p) then s
      else match tfind s.pieces p with
        | some pc => (match pc.buf with
          | some b => updPiece p (fun x => { x with buf := none }) (decBuf (cmdAt s pc.cmd).card 3 b 0 s)
          | none => s)
        | none => s) s
    ((l.map (·.2.1)).eraseDups).foldl (fun s k => if (tfind s.cmds k).isSome then bulkReadEnd k s else s) s
/-- Sends again what is outstanding from a PSN on: WRITE packets, and one READ request for the rest of the reads; where the port
does not transmit, once it does (R250, R252). Packets of commands that have ended are not sent again; they stay to be
acknowledged (R200, R254). -/
def resend (qp psn : Nat) (s : State) : State :=
  let q := qpAt s qp
  let l := (q.out.drop (q.out.findIdx (fun o => o.1 == psn))).filter fun o => (tfind s.cmds o.2.1).isSome
  let bytes := fun (l : List (Nat × Nat × Nat × Nat × Bool)) => l.foldl (fun a x => a + x.2.2.2.1) 0
  if l = [] then updQp qp (fun q => { q with late := none }) s
  else if !portSends s (qpCard qp) then updQp qp (fun q => { q with late := some psn, ackAt := now s }) s
  else
    let s := (l.filter fun o => !o.2.2.2.2).foldl (fun s o => send (.rdma (qpCard qp) (qp % 4096) o.1 o.2.2.2.1 false) s) s
    let s := updQp qp (fun q => { q with late := none, ackAt := now s, spent := q.spent + bytes l }) s
    match l.filter (fun o => o.2.2.2.2) with
    | [] => s
    | o :: r => updQp qp (fun q => { q with reqs := [((o :: r).getLast?.getD o).1] }) (send (.rdma (qpCard qp) (qp % 4096) o.1 (bytes (o :: r)) true) s)
/-- A queue pair goes on: a retransmission that waits, the WRITEs that wait, then the READs of its Bulk Appends (R248–R252). -/
def qpGoes (qp : Nat) (s : State) : State :=
  let s := match (qpAt s qp).late with | some p => resend qp p s | none => s
  issueAppends qp (issueWrites qp (qpAt s qp).todo.length s)
/-- The queue pairs of a port that are in service go on. -/
def portGoes (c : CardId) (s : State) : State :=
  (s.qps.filter fun q => decide (qpCard q.1 = c) && q.2.used && q.2.error == 0).foldl (fun s q => qpGoes q.1 s) s
/-- A CNP or NAK of a port leaves, or waits for the end of a pause (R250). -/
def answerRoce (c : CardId) (m : Nat × Option (Nat × Nat)) (s : State) : State :=
  if (bulkAt s c).paused then updBulk c (fun b => { b with held := b.held ++ [m] }) s
  else send (match m.2 with | none => .cnp c m.1 | some (psn, code) => .nak c m.1 psn code) s
/-- A pause ends: what waited leaves (R250). -/
def pauseEnds (c : CardId) (s : State) : State :=
  let l := (bulkAt s c).held
  portGoes c (l.foldl (fun s m => answerRoce c m s) (updBulk c (fun b => { b with paused := false, held := [] }) s))
/-- A frame's rate covers what the queue pairs have sent; those that waited for it go on (R251). -/
def bulkTick (s : State) : State :=
  let s := { s with qps := s.qps.map fun q => (q.1, { q.2 with spent := q.2.spent - frameBytes q.2.rate }) }
  portGoes .cb (portGoes .ca s)
/-- A queue pair drops what it has to send and what is outstanding. -/
def qpCleared (q : Qp) : Qp := { q with out := [], todo := [], reqs := [], late := none, retries := 0 }
/-- Bulk commands that use a queue pair now. -/
def qpCmds (s : State) (qp : Nat) : List Nat :=
  (s.cmds.filter fun c => (c.2.kind == .bulkRead || c.2.kind == .bulkAppend) && c.2.desc.enable && qpKeyOf c.2.desc == qp
    && (c.2.kind == .bulkRead || c.2.st == .bulk)).map (·.1)
/-- Bulk transfers end with a reason: a read with the bytes moved, an append with fill codewords (R247, R249). -/
def bulkEnd (reason k : Nat) (s : State) : State :=
  let c := cmdAt s k
  if c.kind = .bulkAppend then bulkArrived k reason s else finishCmd k (7, 0x86) c.moved reason [] s
/-- The queue pair enters error (R252, R467). -/
def qpError (qp reason : Nat) (s : State) : State :=
  if !(qpAt s qp).used ∨ (qpAt s qp).error ≠ 0 then s
  else
    let s := updQp qp (fun q => { qpCleared q with error := reason }) s
    let s := event 0x303 1 (srcQ (qpCard qp)) 0 reason qp 0 s
    (qpCmds s qp).foldl (fun s k => bulkEnd reason k s) s
/-- One retry without progress: retransmission, or error after RETRY_CNT of them (R252). -/
def retry (qp psn : Nat) (s : State) : State :=
  let q := qpAt s qp
  if (bulkAt s (qpCard qp)).retryCnt ≤ q.retries then qpError qp 5 s
  else resend qp psn (updQp qp (fun q => { q with retries := q.retries + 1 }) s)
def countNak (qp : Nat) (s : State) : State := updBulk (qpCard qp) (fun b => { b with nakIn := b.nakIn + 1 }) s

/-- RDMA_ACK (R246, R260). -/
def execRdmaAck (qp psn cnt : Nat) (s : State) : Out :=
  .next (ackList qp (ackedBy (qpAt s qp) psn) (atCount cnt s))
/-- NAK_SEQUENCE_ERROR (R252): packets before the PSN are acknowledged; retransmission from it. -/
def execNakSequenceError (qp psn : Nat) (s : State) : Out :=
  let s := countNak qp s
  let q := qpAt s qp
  if !(q.out.any fun o => o.1 == psn) then .next s
  else .next (retry qp psn (ackList qp ((q.out.take (q.out.findIdx (fun o => o.1 == psn))).filter fun o => !o.2.2.2.2) s))
/-- NAK_REMOTE_ACCESS_ERROR (R252, R253). -/
def execNakRemoteAccessError (qp : Nat) (s : State) : Out := .next (qpError qp 3 (countNak qp s))
/-- NAK_REMOTE_OPERATIONAL_ERROR (R252, R253). -/
def execNakRemoteOperationalError (qp : Nat) (s : State) : Out := .next (qpError qp 4 (countNak qp s))
/-- ACK_TIMEOUT frames have passed with no acknowledgement; they do not run while the link is down (R252, assumption 197). -/
def ackOverdue (s : State) (qp : Nat) : Bool :=
  (bulkAt s (qpCard qp)).linkUp && elapsed s (qpAt s qp).ackAt (bulkAt s (qpCard qp)).ackTimeout
/-- ACK_TIMEOUT (R252): retransmission from the oldest unacknowledged PSN. -/
def execAckTimeout (qp : Nat) (s : State) : Out :=
  .next (match (qpAt s qp).out with | [] => s | o :: _ => if ackOverdue s qp then retry qp o.1 s else s)
/-- A response marked Congestion Experienced is answered with a CNP, at most one per queue pair in 3,200 counts (R251). -/
def cnpAnswer (qp : Nat) (ce : Bool) (s : State) : State :=
  let due : Bool := match (qpAt s qp).cnpSent with | some t => decide (t + 3200 ≤ now s) | none => true
  if ce && due then answerRoce (qpCard qp) (qp % 4096, none) (updQp qp (fun q => { q with cnpSent := some (now s) }) s) else s
/-- RDMA_READ_RESPONSE (R248–R251): the expected packet's data arrives; one beyond a gap re-requests from the missing
packet. XOFF and XON are sent whatever PFC_EN is, which R250 leaves open (assumption 156). -/
def readResponse (qp psn : Nat) (ce : Bool) (bytes : List Byte) (s : State) : State :=
  let s := cnpAnswer qp ce s
  let q := qpAt s qp
  let e := expectOf q
  match q.out.find? fun o => o.2.2.2.2 && o.1 == psn with
  | none => s
  | some o =>
    if psn ≠ e then resend qp e s
    else
      let k := o.2.1
      let s := updQp qp (fun q => let q := { q with out := q.out.filter (· ≠ o), retries := 0, ackAt := now s }; { q with una := unaOf q, expect := expectOf q }) s
      if (tfind s.cmds k).isNone then s
      else
        let card := qpCard qp
        let data := bytes.take o.2.2.2.1
        let s := updCmd k (fun c => { c with data := c.data ++ [(o.2.2.1, data, [])], moved := c.moved + data.length }) s
        let used := (bulkAt s card).rxUsed + data.length
        let off := decide (3145728 < used) && !(bulkAt s card).xoff
        let s := updBulk card (fun b => { b with rxUsed := used, xoff := b.xoff || off }) s
        let s := if off then send (.pfc card false) s else s
        let c := cmdAt s k
        let s := issueAppends qp s
        if c.st = .bulk ∧ cdiv (min (c.nlb * 4096) (regionRoom c)) 4096 ≤ c.data.length then
          bulkArrived k (if regionRoom c < c.nlb * 4096 then 2 else 0) s
        else s
def execRdmaReadResponse (qp psn : Nat) (ce : Bool) (cnt : Nat) (bytes : List Byte) (s : State) : Out :=
  .next (readResponse qp psn ce bytes (atCount cnt s))
/-- CNP_RECEIVED (R251): the rate falls by CUT / 256, not below 1 Gb/s. -/
def execCnpReceived (qp : Nat) (s : State) : Out :=
  let cut := (bulkAt s (qpCard qp)).cut
  .next (updQp qp (fun q => { q with rate := max 10 (q.rate * (256 - cut) / 256), cnpAt := now s }) s)
/-- RATE_RECOVER (R251): RECOVER frames without a CNP raise the rate by STEP, up to 800 Gb/s. -/
def execRateRecover (qp : Nat) (s : State) : Out :=
  let b := bulkAt s (qpCard qp)
  let q := qpAt s qp
  if q.rate < 8000 ∧ elapsed s q.cnpAt b.recover then
    .next (updQp qp (fun q => { q with rate := min 8000 (q.rate + b.step), cnpAt := now s }) s)
  else .next s
/-- INVALID_REQUEST_PACKET (R241): NAK Invalid Request, counted; a silent port drops it. -/
def execInvalidRequestPacket (bulk : CardId) (qp psn : Nat) (opcode : BitVec 8) (s : State) : Out :=
  let resp := decide (13 ≤ opcode.toNat % 32 ∧ opcode.toNat % 32 ≤ 18) || opcode == 0x81#8
  if (bulkAt s bulk).gid = 0 ∨ resp then .next s
  else .next (answerRoce bulk (qp, some (psn, 0x61)) (updBulk bulk (fun b => { b with refused := b.refused + 1 }) s))
/-- The port's IPv4 address, of an IPv4-mapped LOCAL_GID. -/
def ipv4Of (g : BitVec 128) : Option (BitVec 32) := if g >>> 32 = 0xFFFF#128 then some (g.setWidth 32) else none
/-- ARP_REQUEST (R241): answered for the local address only. -/
def execArpRequest (bulk : CardId) (target : BitVec 32) (senderMac : BitVec 48) (senderIp : BitVec 32) (s : State) : Out :=
  if ipv4Of (bulkAt s bulk).gid = some target then .next (send (.arp bulk senderMac senderIp) s) else .next s
/-- NEIGHBOR_SOLICITATION (R241): answered for the local address only. -/
def execNeighborSolicitation (bulk : CardId) (target : BitVec 128) (sender : BitVec 128) (s : State) : Out :=
  let g := (bulkAt s bulk).gid
  if g ≠ 0 ∧ g = target then .next (send (.neighborAdv bulk sender) s) else .next s
/-- PFC_FRAME (R250): a nonzero pause time for PFC_PRIO pauses transmission, zero ends it. -/
def execPfcFrame (bulk : CardId) (prio quanta : Nat) (s : State) : Out :=
  let b := bulkAt s bulk
  .next (if !b.pfcEn ∨ prio ≠ b.pfcPrio then s
    else if quanta = 0 then pauseEnds bulk s else updBulk bulk (fun b => { b with paused := true }) s)
/-- PFC_PAUSE_END (R250). -/
def execPfcPauseEnd (bulk : CardId) (s : State) : Out := .next (pauseEnds bulk s)
/-- OTHER_FRAME (R241): dropped without effect. -/
def execOtherFrame (_bulk : CardId) (s : State) : Out := .next s
/-- BULK_LINK_DOWN (R242, R253): LINK_UP falls and the 64-frame count starts. -/
def execBulkLinkDown (bulk : CardId) (s : State) : Out :=
  .next (updBulk bulk (fun b => { b with linkUp := false, downAt := if b.downAt.isNone then some (now s) else b.downAt }) s)
/-- BULK_LINK_UP (R242): lost packets are recovered by re-request and retransmission. -/
def execBulkLinkUp (bulk : CardId) (s : State) : Out :=
  let s := updBulk bulk (fun b => { b with linkUp := true, downAt := none }) s
  let again := fun (q : Nat × Qp) =>
    if qpCard q.1 = bulk ∧ q.2.used ∧ q.2.error = 0 ∧ q.2.out ≠ [] then (q.1, { q.2 with late := some (unaOf q.2) }) else q
  .next (pauseEnds bulk { s with qps := s.qps.map again })
/-- BULK_LINK_DOWN_EXPIRY (R253 reason 6): transfers with data outstanding end; the queue pairs stay in service. The 64 frames
count from the loss of the link, which R253 leaves open (assumption 154). -/
def execBulkLinkDownExpiry (bulk : CardId) (s : State) : Out :=
  match (bulkAt s bulk).downAt with
  | none => .next s
  | some t =>
    if !elapsed s t 64 then .next s
    else
      let busy := s.qps.filter fun q => decide (qpCard q.1 = bulk) && !q.2.out.isEmpty
      .next (busy.foldl (fun s q =>
        let ks := (q.2.out.map (·.2.1) ++ q.2.todo.map (·.1)).eraseDups
        let s := updQp q.1 qpCleared s
        ks.foldl (fun s k => if (tfind s.cmds k).isSome then bulkEnd 6 k s else s) s) s)

end Sys2Proof.Machine
end

