-- ==== Sys2Proof/Machine/Depart.lean ====
section
/-! DEFINITION. Fronds that leave (R94, R103, R433, R434), and fronds that no link engine reaches (R24). -/
namespace Sys2Proof.Machine
open Sys2Proof

/-- Index and position of the members of a frond's used stripes: member keys. -/
def membersOf (s : State) (f : Nat) : List Nat :=
  (s.stripes.filter fun x => x.2.used).map fun x => x.1 * 16 + (f + 16 - x.1 % 16) % 16
/-- A departing frond's member table stands as its members stood, with the cut programs marked (R103). -/
def sealTable (f : Nat) (s : State) : State :=
  let cut := (s.dies.filter fun d => frondOfDie d.1 == f).filterMap fun d => match d.2.op with
    | some o => if o.kind = .erase then none else (blkAt s (blkKey d.1 o.block)).member
    | none => none
  let rec' := (membersOf s f).filterMap fun m =>
    let x := memberAt s m
    let was := match tfind (frondAt s f).table m with | some r => r.cut && r.gen == (stripeAt s (m / 16)).gen | none => false
    if x.blk.isSome then some (m, ({ gen := (stripeAt s (m / 16)).gen, verified := x.verified, cut := was || cut.contains m } : MemberRec)) else none
  updFrond f (fun g => { g with table := rec'.foldl (fun t x => tins t x.1 x.2) [] }) s
/-- A chunk is on its way into its member. -/
def underWay (c : Chunk) : Bool :=
  match c.st with | .requested | .reading | .combining | .dataIn | .programming | .verifying | .failed => true | _ => false
/-- Chunks of a frond that were on their way go back to the seedbed's hold, rows of a rebuild or fill are given up; what was
verified waits for the member table (R101, R103). -/
def holdChunks (f : Nat) (s : State) : State :=
  (s.chunks.filter fun c => memberFrond (slotOfH c.1) (posOfH c.1) == f && underWay c.2).foldl (fun s c =>
    let s := freeStage c.1 (dropRow c.1 s)
    if c.2.recovery then { s with chunks := tdel s.chunks c.1 } else updChunk c.1 (fun x => { x with st := .held, reads := 0 }) s) s
/-- A frond leaves, with its STATE of R106: announced 1, unannounced 2, failed 3, lost 4, foreign 7, empty 8, fuse off 9. -/
def frondDepart (f st : Nat) (s : State) : State :=
  let rs := (s.rebuild.queue.filter fun m => memberFrond (m / 16) (m % 16) == f)
  let s := holdChunks f (cutErases f (sealTable f s))
  let s := frondGone f st s
  let s := unqueue rs.contains s
  sortQueue (rebuildIdle (updFrond f (fun g => { g with training := none }) s))
/-- The Filnas of a frond has started: no plan is fixed for a channel of it before its training has ended (R64). -/
def untrain (f : Nat) (s : State) : State :=
  (List.range 8).foldl (fun s c => updChan (f * 8 + c) (fun x => { x with trained := false }) s) s
/-- Fronds that no engine reaches are absent and reported as failed (R24). -/
def linkCheck (s : State) : State :=
  if !anyServe s then s
  else ((List.range 16).filter fun f => let g := frondAt s f; (g.state == 0 || g.state == 5 || g.state == 6) && !leReaches s f).foldl
    (fun s f => updFrond f (fun g => { g with leGone := true }) (frondDepart f 3 s)) s

/-- A card core has failed: the frond is absent; the module resets its Filnas once in a power epoch (R24, R429). -/
def coreFailed (f : Nat) (s : State) : State :=
  let n := (frondAt s f).coreFails
  updFrond f (fun g => { g with coreFails := n + 1, coreReset := n == 0 })
    (event 0x401 2 (srcF f) (obj 11 (128 + 9 * f + 8)) 1 (n + 1) 0 (frondDepart f 3 s))
/-- MARKER_LOST (R33): no marker on either link for 16 frames; the Filnas is handled as a failed card core (R24). -/
def execMarkerLost (frond : Frond) (s : State) : Out :=
  let g := frondAt s frond
  if g.unmarked < 16 ∨ frondAbsent s frond then .next s
  else .next (coreFailed frond s)
/-- PLAN_LATE (R50, R52): a hold plan runs in the next frame; eight within 4,000 frames fail the card core. -/
def execPlanLate (frond : Frond) (cnt : Nat) (s : State) : Out :=
  let g := frondAt s frond
  let t := s.time.fc + 1
  if frondAbsent s frond ∨ (g.nxt.frame = t ∧ g.nxt.fixed) ∨ cnt < 15872 then .next s
  else
    let s := updStats (fun x => { x with planLate := x.planLate + 1 }) (atCount cnt s)
    let l := (g.lateFcs.filter fun x => s.time.fc < x + 4000) ++ [s.time.fc]
    let miss := g.waiting.filter fun n => (reqAt s n).frame == some t
    let s := updFrond frond (fun g => { g with
      planLate := (g.planLate + 1) % 2 ^ 32, lateFcs := l, nxt := holdPlan s g t,
      waiting := g.waiting.filter (fun n => !miss.contains n) }) s
    let s := event 0x104 1 (srcF frond) (obj 4 frond) 0 (if cnt < 16000 then cnt else 16000) 0 s
    let s := miss.foldl (fun s n => let s := notPlaced n s; match (reqAt s n).piece with
      | some p => updPiece p (fun x => { x with cause := min x.cause 3 }) s | none => s) s
    let s := (g.pack.filter fun i => decide (i.at' ≤ s.time.start + 12000)).foldl (fun s i => delayCw i.cw 3 s) (settleFailed s)
    if 8 ≤ l.length then .next (coreFailed frond (updFrond frond (fun g => { g with lateFcs := [] }) s))
    else .next s

end Sys2Proof.Machine
end

