-- ==== Sys2Proof/Machine/Reset.lean ====
section
/-! DEFINITION. Controllers of the host ports: doorbells, registers, resets, shutdown (R11, R14, R49, R174–R176, R210,
R211), and wake events (R408, R412). -/
namespace Sys2Proof.Machine
open Sys2Proof

/-! ### Wake events and regulator requests (R408, R412–R414). -/
/-- Regulators of what is powered: core and point-of-load supply of each serving card, point-of-load supply of each
powered frond (R414; assumption 27). -/
def regsOf (s : State) (fronds : Bool) : List RegId :=
  (if s.pair.ca.serving then [.core .ca, .cardPol .ca 0] else []) ++ (if s.pair.cb.serving then [.core .cb, .cardPol .cb 0] else [])
    ++ (if fronds then ((List.finRange 16).filter fun f => frondIn s f.val).map fun f => RegId.frondPol f 0 else [])
/-- Requests regulator outputs (R414). -/
def requestRegs (l : List RegId) (s : State) : State :=
  l.foldl (fun s r => send (.regulator r) (updPower (fun p => { p with regReqs := p.regReqs.filter (fun q => q.id ≠ r) ++ [{ id := r, sent := now s }] }) s)) s
/-- The core voltage of a serving card follows its frequency (R414, R417). -/
def followFreq (old s : State) : State :=
  [CardId.ca, .cb].foldl (fun s c =>
    if !(cardAt s c).serving ∨ freqOf s c = freqOf old c ∨ s.power.regReqs.any (fun q => q.id == .core c && !q.freq) then s
    else send (.regulator (.core c)) (updPower (fun p => { p with
      regReqs := p.regReqs.filter (fun q => q.id ≠ .core c) ++ [{ id := .core c, sent := now s, freq := true }] }) s)) s
/-- Exit to an operational state begins (R413). From PS4 the Filnas of each frond starts again: its channels are to train (R64). -/
def startExit (x : ExitSt) (s : State) : State :=
  let s := if s.power.ps = 4 then (List.range 16).foldl (fun s f => if frondIn s f then untrain f s else s) s else s
  requestRegs (regsOf s true) (updPower (fun p => { p with exit := some x, exitFc := s.time.fc }) s)
/-- A wake event (R408, R412): it starts the exit, or is taken at the next abort point of an entry. -/
def wakeEvent (target : Option Nat) (s : State) : State :=
  let t := target.getD s.power.lastOp
  match s.power.entry with
  | some en => if en.wake.isSome then s else updPower (fun p => { p with entry := some { en with wake := some t } }) s
  | none => if 3 ≤ s.power.ps ∧ s.power.exit.isNone then startExit { target := t } s else s

/-! ### Controller reset (R174, R176, R210). -/
/-- The queues of a slice as they stand (R210, R211). -/
def qImages (s : State) (p : Port) (sl : Nat) : List QImage :=
  (s.sqs.filter fun x => x.2.used && x.1 / 65536 == portNo p && x.2.slice == sl).map fun x =>
    let q := x.2
    let c := cqAt s (qKey p q.cqid)
    { sqid := x.1 % 65536, cqid := q.cqid, sqSize := q.size, cqSize := c.size, sqBase := q.base, cqBase := c.base, head := q.head,
      tail := q.tail, cqTail := c.tail, cqHead := c.head, vector := c.vector, phase := c.phase, ien := c.ien, contig := q.contig,
      frozen := q.frozen }
/-- The slices bound to a lost port become frozen with PORT_LOST set; slice 0 belongs to both ports (R210). -/
def portLost (p : Port) (s : State) : State :=
  { s with slices := s.slices.map fun x =>
      if x.1 ≠ 0 ∧ x.2.port = p ∧ (x.2.st = 1 ∨ x.2.st = 2) then
        (x.1, { x.2 with
          st := 2, portLost := true, lostQs := if x.2.portLost then x.2.lostQs else qImages s p x.1,
          changeFc := if x.2.st = 1 then s.time.fc else x.2.changeFc })
      -- the queues of a slice in reset are being deleted; it is frozen at the reset's end
      else if x.1 ≠ 0 ∧ x.2.port = p ∧ x.2.st = 3 then (x.1, { x.2 with portLost := true })
      else x }
/-- A command owed to a port is no longer owed a completion. -/
def mute3 (p : Port) : Option (Port × Nat × Nat) → Option (Port × Nat × Nat)
  | some (q, cid, o) => some (q, if q = p then 65536 else cid, o)
  | none => none
def muteTx (p : Port) (l : List BarrierTx) : List BarrierTx := l.map fun t => { t with cmd := mute3 p t.cmd }
def muteCqe (p : Port) (l : List (EventRec × Option Cqe)) : List (EventRec × Option Cqe) :=
  l.map fun x => (x.1, x.2.map fun q => if q.port = p ∧ q.sqid = 0 then { q with cid := 65536 } else q)
def muteCard (p : Port) (c : Card) : Card :=
  { c with writing := c.writing.map fun w => { w with cmd := mute3 p w.cmd }, actCmd := mute3 p c.actCmd }
/-- Admin commands that have not completed on a reset controller end without completion (R176). -/
def dropAdmin (p : Port) (s : State) : State :=
  let s := updCard .ca (muteCard p) (updCard .cb (muteCard p) s)
  let s := updPower (fun x => { x with
    psNext := x.psNext.map fun y => { y with cmd := mute3 p y.cmd }, entry := x.entry.map fun y => { y with cmd := mute3 p y.cmd },
    exit := x.exit.map fun y => { y with cmd := mute3 p y.cmd }, woken := x.woken.filter (·.port ≠ p),
    peuA := { x.peuA with out := muteTx p x.peuA.out },
    peuB := { x.peuB with out := muteTx p x.peuB.out } }) s
  let s := updSheaf (fun x => { x with
    planCmd := mute3 p x.planCmd,
    handCmd := x.handCmd.map fun c => if c.1 = p then (c.1, 65536, c.2.2) else c }) s
  let s := updSec (fun x => { x with running := x.running.map fun r => if r.2.1 = p then (r.1, r.2.1, 65536) else r }) s
  let s := updEvents (fun x => { x with changeQ := muteCqe p x.changeQ, writing := muteCqe p x.writing, aenQ := pset x.aenQ (cardOf p) [] }) s
  { s with
    nss := s.nss.map fun n => (n.1, { n.2 with deleting := n.2.deleting.map fun d => if d.1 = p then (p, 65536) else d }),
    slices := s.slices.map fun x => (x.1, { x.2 with waiter := mute3 p x.2.waiter }),
    fronds := s.fronds.map fun f => (f.1, { f.2 with prepCmd := f.2.prepCmd.map fun c => if c.1 = portNo p then (c.1, 65536) else c }),
    heldAdmin := s.heldAdmin.filter (·.port ≠ p),
    jobs := s.jobs.map fun j => if j.e.port = p then { j with e := { j.e with cid := 65536 } } else j }
/-- A write runs on after the reset of its port: its first seedbed program has been issued and its data is held. -/
def runsOn (c : Cmd) : Bool :=
  c.issued && (match c.st with | .writing | .programmed | .journal | .ackWait => isWrite c.kind | _ => false)
/-- Zone Resets that are cut before their records are programmed have not taken effect: the zones stand as they stood (R141). One
whose zone a later write has opened stands (assumption 149). -/
def undoResets (sel : JRec → Bool) (s : State) : State :=
  let cut := fun (r : JRec) => r.kind == 4 && sel r && (match r.undo with | some (zk, _) => (tfind s.zones zk).isNone | none => false)
  let back := fun (s : State) (r : JRec) => match r.undo with | some (zk, old) => updZone zk (fun _ => old) s | none => s
  let one := fun (c : CardId) (s : State) =>
    ((jAt s c).queue.filter cut).reverse.foldl back (updJ c (fun j => { j with queue := j.queue.filter fun r => !cut r }) s)
  let packed := fun (s : State) (w : Nat × MetaWork) => match w.2.of with
    | .journal c l q => (l.filter cut).reverse.foldl back (updWork w.1 (fun x => { x with of := .journal c (l.filter fun r => !cut r) q }) s)
    | _ => s
  let s := one .cb (one .ca s)
  (s.metas.work.filter fun w => !written (some w)).reverse.foldl packed s
/-- The I/O commands fetched through a port meet its reset (R176, R254). -/
def dropPort (p : Port) (s : State) : State :=
  let s := undoResets (fun r => match r.cmd.bind (tfind s.cmds) with | some c => decide (c.e.port = p) && c.kind == .zoneSend | none => false) s
  wake ((s.cmds.filter fun c => decide (c.2.e.port = p) && c.2.e.sqid != 0).foldl (fun s c =>
    if runsOn c.2 then updCmd c.1 (fun x => { x with silent := true }) s
    else dropCmd c.1 (if isWrite c.2.kind then settleWrite c.1 s else s)) s)
/-- Controller reset (R174, R176): the register CC it leaves. -/
def ctrlReset (p : Port) (cc : BitVec 32) (s : State) : State :=
  let s := dropAdmin p (dropPort p (portLost p s))
  let att := fun ns => let n := nsAt s ns; match p with | .h0 => n.att.a | .h1 => n.att.b
  let s := closeZones att none s
  let s := updCtrl p (fun c =>
    { link := c.link, cc := cc, rdy := false, nssro := c.nssro, aqa := c.aqa, asq := c.asq, acq := c.acq, errors := c.errors,
      errCount := c.errCount, changedNs := c.changedNs, changedZones := c.changedZones, ana1 := c.ana1, ana2 := c.ana2,
      anaChanges := c.anaChanges }) s
  { s with sqs := s.sqs.filter (fun q => q.1 / 65536 != portNo p), cqs := s.cqs.filter (fun q => q.1 / 65536 != portNo p) }

/-- CC_EN_CLEAR (R174). -/
def execCcEnClear (port : Port) (s : State) : Out :=
  let c := ctrlAt s port
  .next (if c.link && c.cc.getLsbD 0 || c.rdy then ctrlReset port (c.cc &&& ~~~1#32) s else s)
/-- FUNCTION_LEVEL_RESET (R174). -/
def execFunctionLevelReset (port : Port) (s : State) : Out := .next (if (ctrlAt s port).link then ctrlReset port 0 s else s)
/-- CONTROLLER_LEVEL_RESET (R174). -/
def execControllerLevelReset (port : Port) (s : State) : Out := .next (if (ctrlAt s port).link then ctrlReset port 0 s else s)
/-- PCIE_LINK_LOSS (R174). -/
def execPcieLinkLoss (port : Port) (s : State) : Out :=
  .next (if (ctrlAt s port).link then updCtrl port (fun c => { c with link := false }) (ctrlReset port 0 s) else s)
/-- PCIE_LINK_UP (R174): the controller can be enabled again. -/
def execPcieLinkUp (port : Port) (s : State) : Out :=
  .next (if (cardAt s (cardOf port)).serving then updCtrl port (fun c => { c with link := true }) s else s)
/-- SHUTDOWN_NOTIFICATION (R175). -/
def execShutdownNotification (port : Port) (s : State) : Out :=
  let c := ctrlAt s port
  .next (if c.link ∧ c.rdy ∧ c.shst = 0 then updCtrl port (fun c => { c with shst := 1, stopped := true }) s else s)
/-- The port has nothing left to serve: it is shut down, or its controller is not enabled. -/
def portQuiet (s : State) (p : Port) : Bool := let c := ctrlAt s p; !c.link || !c.rdy || c.shst == 2
/-- A command of a port is owed its completion. -/
def owed3 (p : Port) : Option (Port × Nat × Nat) → Bool
  | some (q, cid, _) => decide (q = p ∧ cid < 65536)
  | none => false
/-- Fetched admin commands of a port that have not completed, Asynchronous Event Requests aside (R175; assumption 180). -/
def adminOwed (s : State) (p : Port) : Bool :=
  let rec' := fun (l : List (EventRec × Option Cqe)) => l.any fun x => match x.2 with | some q => decide (q.port = p ∧ q.sqid = 0 ∧ q.cid < 65536) | none => false
  let w := s.power
  [w.psNext.bind (·.cmd), w.entry.bind (·.cmd), w.exit.bind (·.cmd), s.sheaf.planCmd, s.sheaf.handCmd.map fun c => (c.1, c.2.1, 0), s.pair.ca.actCmd, s.pair.cb.actCmd,
   s.pair.ca.writing.bind (·.cmd), s.pair.cb.writing.bind (·.cmd)].any (owed3 p)
    || (w.peuA.out ++ w.peuB.out).any (fun t => owed3 p t.cmd) || rec' s.events.changeQ || rec' s.events.writing
    || s.nss.any (fun n => match n.2.deleting with | some d => decide (d.1 = p ∧ d.2 < 65536) | none => false)
    || s.slices.any (fun x => owed3 p x.2.waiter)
    || s.fronds.any (fun f => match f.2.prepCmd with | some c => decide (c.1 = portNo p ∧ c.2 < 65536) | none => false)
    || s.heldAdmin.any (fun e => decide (e.port = p)) || w.woken.any (fun e => decide (e.port = p))
    || s.jobs.any (fun j => decide (j.e.port = p ∧ j.e.cid < 65536))
/-- SHUTDOWN_COMPLETE (R175): every fetched command has completed. -/
def execShutdownComplete (port : Port) (s : State) : Out :=
  let c := ctrlAt s port
  if c.shst = 1 ∧ !(s.cmds.any fun x => decide (x.2.e.port = port) && x.2.e.sqid != 0) ∧ !adminOwed s port then
    let s := updCtrl port (fun c => { c with shst := 2 }) s
    .next (if portQuiet s .h0 && portQuiet s .h1 then updTime (fun t => { t with cleanEnd := true }) s else s)
  else .next s
/-- SQ_TAIL_DOORBELL (R49, R408). -/
def execSqTailDoorbell (port : Port) (sqid tail cnt : Nat) (s : State) : Out :=
  let s := atCount cnt s
  let k := qKey port sqid
  let q := sqAt s k
  if sqid = 0 ∨ !q.used ∨ q.size < tail ∨ !(ctrlAt s port).link then .next s
  else .next (wakeEvent none (updSq k (fun x => { x with tail := tail, bells := if tail = x.tail then x.bells else x.bells ++ [(tail, now s)] }) s))
/-- CQ_HEAD_DOORBELL (R211). -/
def execCqHeadDoorbell (port : Port) (cqid head : Nat) (s : State) : Out :=
  let k := qKey port cqid
  let q := cqAt s k
  .next (if q.used ∧ head ≤ q.size ∧ (ctrlAt s port).link then updCq k (fun x => { x with head := head }) s else s)
/-- CSTS as it reads: RDY, CFS, SHST, NSSRO. -/
def cstsOf (c : Ctrl) : Nat := b2n c.rdy + 2 * b2n c.fatal + 4 * c.shst + 16 * b2n c.nssro
/-- What a read of a controller register returns (R11): the value it holds; NSSR reads zero. CAP holds MQES 4,095, TO 20 and
MPSMIN 0 (R158, R159), its other fields are the NVMe specification's. A host's read changes nothing, and no command of the table
carries one. -/
def readRegister (s : State) (p : Port) : HostReg → Nat
  | .cap =>
    let b := fun i => (Config.standardByte "CAP" i).toNat
    4095 + b 2 * 2 ^ 16 + 20 * 2 ^ 24 + b 4 * 2 ^ 32 + b 5 * 2 ^ 40 + b 6 / 16 * 2 ^ 52 + b 7 * 2 ^ 56
  | .vs => 0x00020000
  | .nssr => 0
  | .cc => (ctrlAt s p).cc.toNat
  | .csts => cstsOf (ctrlAt s p)
  | .aqa => (ctrlAt s p).aqa.toNat
  | .asq => (ctrlAt s p).asq.toNat
  | .acq => (ctrlAt s p).acq.toNat
  | .intms | .intmc => (ctrlAt s p).intm.toNat
/-- REGISTER_WRITE (R11, R14): read-only registers ignore it, CSTS.NSSRO is cleared by a 1 unless the module sets it in the
same cycle, the interrupt mask is set and cleared bit by bit; a reset or shutdown that a write to CC or NSSR asks for has a
row of its own. CC.EN set enables the controller of a serving card (R427). -/
def execRegisterWrite (port : Port) (reg : HostReg) (value hwSet : BitVec 64) (s : State) : Out :=
  let w : BitVec 32 := value.setWidth 32
  if !(ctrlAt s port).link then .next s
  else match reg with
  | .cap | .vs | .nssr => .next s
  | .cc => .next (updCtrl port (fun c =>
      { c with cc := w ||| (c.cc &&& 1#32), rdy := c.rdy || (w.getLsbD 0 && (cardAt s (cardOf port)).serving) }) s)
  | .csts => .next (updCtrl port (fun c => { c with nssro := hwSet.getLsbD 4 || (c.nssro && !value.getLsbD 4) }) s)
  | .aqa => .next (updCtrl port (fun c => { c with aqa := w }) s)
  | .asq => .next (updCtrl port (fun c => { c with asq := value }) s)
  | .acq => .next (updCtrl port (fun c => { c with acq := value }) s)
  | .intms => .next (updCtrl port (fun c => { c with intm := c.intm ||| w }) s)
  | .intmc => .next (updCtrl port (fun c => { c with intm := c.intm &&& ~~~w }) s)

end Sys2Proof.Machine
end

