-- ==== Sys2Proof/Machine/Pair.lean ====
section
/-! DEFINITION. The controller pair: heartbeats, mirror records, cards that leave service, takeover, planned transfers
(R281–R302). -/
namespace Sys2Proof.Machine
open Sys2Proof

/-! ### ANA states (R282, R283). -/
/-- ANA states that a port reports for groups 1 and 2: 1 optimized, 2 non-optimized, 3 inaccessible (R282). -/
def anaOf (s : State) (p : Port) : Nat × Nat :=
  let c := cardOf p
  if 2 ≤ (cardAt s c).activating ∨ (cardAt s c).leaving = 2 then (3, 3)
  else (if s.pair.own1 = c then 1 else 2, if s.pair.own2 = c then 1 else 2)
/-- One controller's reported states follow; a change posts ANA Change (R283). -/
def anaPort (p : Port) (s : State) : State :=
  let a := anaOf s p
  let c := ctrlAt s p
  if !(cardAt s (cardOf p)).serving ∨ (c.ana1 = a.1 ∧ c.ana2 = a.2) then s
  else aenPort p 2 3 0x0C (updCtrl p (fun c => { c with ana1 := a.1, ana2 := a.2, anaChanges := c.anaChanges + 1 }) s)
def anaUpdate (s : State) : State := anaPort .h1 (anaPort .h0 s)
/-- A change of owner: every serving card keeps the new ownership epoch; a card that has left keeps its older one (R291,
R302). -/
def raiseEpoch (s : State) : State :=
  let own := fun (c : Card) => if c.serving then c.ownEpoch else 0
  let e := max (max (own s.pair.ca) (own s.pair.cb)) (max s.jA.rootOwn s.jB.rootOwn) + 1
  let put := fun (c : Card) => if c.serving then { c with ownEpoch := e } else c
  updCard .ca put (updCard .cb put s)

/-! ### Mirror records (R286, R287). -/
/-- The acknowledgement of a record lets the commands tied to it complete. -/
def ackRecord (c : CardId) (msn : Nat) (s : State) : State :=
  match (cardAt s c).unacked.find? (fun r => r.msn == msn) with
  | none => s
  | some r =>
    let s := updCard c (fun x => { x with unacked := x.unacked.filter (fun r => r.msn != msn), msnAcked := max x.msnAcked msn }) s
    let s := r.cmds.foldl (fun s k =>
      let x := cmdAt s k
      if (tfind s.cmds k).isSome ∧ x.tied = some msn then
        let s := updCmd k (fun x => { x with tied := none }) s
        if x.st = .ackWait then (if 0 < x.recs then updCmd k (fun x => { x with st := .journal }) s else endWrite k s) else s
      else s) s
    if (cardAt s c).unacked = [] then updCard c (fun x => { x with holding := false }) s else s
/-- Every outstanding record up to an MSN is acknowledged. -/
def ackUpTo (c : CardId) (msn : Nat) (s : State) : State :=
  (((cardAt s c).unacked.map (·.msn)).filter (· ≤ msn)).foldl (fun s m => ackRecord c m s) s
/-- No partner acknowledges any more: held commands complete without it (R287, R299). -/
def ackAll (c : CardId) (s : State) : State := ((cardAt s c).unacked.map (·.msn)).foldl (fun s m => ackRecord c m s) s

/-! ### A card leaves service (R24, R292–R295, R299, R302). -/
/-- The survivor writes the journal records that were mirrored and not programmed (R286); conventional writes keep their new
data only where their records were programmed (R294). The failed card's checkpoint ends. -/
def passJournal (c : CardId) (s : State) : State :=
  let o := other c
  let open' := fun (w : Nat × MetaWork) => isJournal c w.2.of && !written (some w)
  let packed := (s.metas.work.filter open').flatMap fun w => match w.2.of with | .journal _ l _ => l | _ => []
  let q := (packed ++ (jAt s c).queue).filter fun r => r.kind != 1
  let s := updMetas (fun m => { m with work := (m.work.filter fun w => !(open' w || isSegment c w.2.of || isRoot c w.2.of)).map fun w =>
    match w.2.of with | .journal d l n => if d = c then (w.1, { w.2 with of := .journal o l n }) else w | _ => w }) s
  let s := updJ c (fun j => { j with queue := [], running := none, stage := 0 }) s
  updJ o (fun j => { j with queue := j.queue ++ q.map fun r => { r with cmd := r.cmd.filter fun k => (tfind s.cmds k).isNone } }) s
/-- A codeword has a programmed copy, or is folded. -/
def onMedium (cw : Cw) : Bool := cw.folded || cw.copies.any (·.done)
/-- Codewords that a failed card held (R293 step 3): those with a programmed copy get their missing copies again (R125),
the blocks of a zone that no copy covers become fill codewords, parity is computed again, and what else was on its way is
padding. -/
def replaceMissing (o : CardId) (mine : List Nat) (s : State) : State :=
  let there := mine.filter fun ck => (tfind s.cws ck).isSome
  let late := there.filter fun ck => let w := cwAt s ck; w.encrypted && !w.folded && !durable w
  let s := dropPack late s
  let s := late.foldl (fun s ck =>
    let w := cwAt s ck
    if onMedium w then
      (w.copies.filter fun l => !l.done).foldl (fun s l => recopy ck l.idx s) (updCw ck (fun w => { w with copies := w.copies.filter (·.done) }) s)
    else if (nsAt s w.nsid).zoned ∧ (w.kind = .data ∨ w.kind = .fill) then
      fillBlocks w.nsid (w.lba / 1048576) [w.lba % 1048576] { s with cws := tdel s.cws ck }
    else sendCw ck (updCw ck (fun w => { w with copies := [], kind := if w.kind = .data then .padding else w.kind }) s)) s
  let rest := there.filter fun ck => !(cwAt s ck).encrypted && !((seAt s o).any fun w => decide (w = .encrypt ck))
  updSe o (· ++ rest.map .encrypt) s
/-- What an uncompleted command of a failed owner leaves: its blocks without a programmed copy become fill codewords
(R293, R294). -/
def settleLost (k : Nat) (s : State) : State :=
  if isWrite (cmdAt s k).kind then settleBy onMedium k s else s
/-- Commands that only read. -/
def readsOnly : CmdKind → Bool | .read | .verify | .winnow | .digest | .bulkRead | .zoneRecv | .flush | .other => true | _ => false
/-- Commands meet the loss of a card (R294): those of its port end with it; reads forwarded to it run again at the
survivor; changes forwarded to it fail with Asymmetric Access Transition. -/
def cmdsMeet (c : CardId) (s : State) : State :=
  let o := other c
  let s := (s.cmds.filter fun x => decide (x.2.card = c) || (x.2.e.sqid == 0 && decide (x.2.owner = c))).foldl (fun s x => dropCmd x.1 (settleLost x.1 s)) s
  (s.cmds.filter fun x => decide (x.2.owner = c)).foldl (fun s x =>
    if readsOnly x.2.kind then
      updCmd x.1 (fun y => if y.fwd.isSome ∨ y.st = .listWait then { y with owner := o, fwd := none, st := .xferWait, cause := min y.cause 4 }
        else { y with owner := o, cause := min y.cause 4 }) s
    else if x.2.fwd.isSome then updCmd x.1 (fun y => { y with owner := o, fwd := none, st := .xferWait, cause := min y.cause 4 }) s
    else finishCmd x.1 (3, 0x03) 0 0 [] (settleLost x.1 s)) s
/-- A member caught in the middle of its rebuild or fill gets a new target and starts again from row 0; its partial target
goes to the dirty pool (R100, R295). -/
def restartMember (m : Nat) (s : State) : State :=
  match (memberAt s m).blk with
  | none => s
  | some b =>
    if !(memberAt s m).filling then s
    else match drawMember (memberFrond (m / 16) (m % 16)) (stripeAt s (m / 16)).cls (toDirty b (dropOps b s)) with
      | (some k, s) => restartFill m k s
      | (none, s) => memberGone m s
/-- Recovery restarts the stripes in progress that are named; they are begun anew at a tick (R295). -/
def restartRebuild (ms : List Nat) (s : State) : State :=
  updRebuild (fun r => { r with active := r.active.filter fun m => !ms.contains m }) (ms.foldl (fun s m => restartMember m s) s)
/-- A card's port, bulk port and culm port go down with it (R292, R299, R324, R254). -/
def portsDown (c : CardId) (s : State) : State :=
  let s := ctrlReset (portOf c) 0 s
  let s := updCtrl (portOf c) (fun x => { x with link := false }) s
  let s := updCulm (culmOf c) (fun x => { x with link := 6, nbr := none }) s
  let s := (s.cmds.filter fun x => (x.2.kind == .bulkRead || x.2.st == .bulk) && x.2.desc.enable && decide (x.2.desc.port = c)).foldl (fun s x => bulkEnd 8 x.1 s) s
  let s := { s with qps := s.qps.map fun q => if qpCard q.1 = c then (q.1, qpCleared q.2) else q }
  updBulk c (fun b => { b with linkUp := false, downAt := some (now s), held := [] }) s
/-- A takeover is a wake event; an entry in progress is refused by block 0x03 at its next abort point (R408, R424). -/
def takeoverWakes (s : State) : State :=
  match s.power.entry with
  | some en => updPower (fun p => { p with entry := some { en with taken := true } }) s
  | none => wakeEvent none s
/-- The survivor takes over (R293, R294). -/
def takeover (c : CardId) (s : State) : State :=
  let o := other c
  let moved := decide (s.pair.own1 = c) || decide (s.pair.own2 = c)
  let was := s.time.master
  let busy := s.rebuild.active.filter fun m => decide (ownerOfNs s (stripeAt s (m / 16)).nsid = c)
  let s := send (.fence c) s
  let s := setMaster o s
  let mine := (s.cws.filter fun x => decide (ownerOfNs s x.2.nsid = c)).map (·.1)
  let lost := fun (a : Nat × Accum) => if ownerOfNs s (stripeAt s a.1).nsid = c then (a.1, { a.2 with lost := true }) else a
  let s := undoResets (fun r => ownerOfNs s r.nsid == c) s
  let s := { closeZones (fun ns => ownerOfNs s ns == c) none s with accums := s.accums.map lost }
  let s := updSe c (fun _ => []) (passJournal c s)
  let s := { s with nss := s.nss.map fun n => if n.2.victim.isSome ∧ ownerOf s n.2.group = c then (n.1, { n.2 with victim := none, gcFreed := 0 }) else n }
  let s := updPair (fun p => { p with
    own1 := o, own2 := o, transfers := [], handTo := none, takeover := if moved then some (o, s.time.fc) else p.takeover,
    lastServing := some o }) s
  let s := restartRebuild busy (replaceMissing o mine (cmdsMeet c (raiseEpoch s)))
  let s := if was = c then
      updSec (fun x => { x with nonces := [], tokens := [], attestQ := [], reports := [], attestNext := x.reservedEnd }) s
    else s
  takeoverWakes (linkCheck (anaUpdate (wake (ackAll o s))))
/-- The heartbeat of a card, with its STATE (R285). -/
def heartbeatOf (s : State) (c : CardId) (st : Nat) : HeartbeatMsg :=
  { alive := (cardAt s c).aliveTx, state := st, owns1 := decide (s.pair.own1 = c), owns2 := decide (s.pair.own2 = c),
    tickMaster := decide (s.time.master = c), fcLow := BitVec.ofNat 32 s.time.fc, msnAck := (cardAt s c).msnRx, ownEpoch := (cardAt s c).ownEpoch }
/-- A card leaves service (R292): row 1 by itself with a heartbeat of STATE 4, 2 heartbeats and STATUS, 3 removed, 4 the link between the
cards. A survivor asserts the partner hold, whatever the row (R293). -/
def cardOut (c : CardId) (row : Nat) (why : HeldWhy) (s : State) : State :=
  if !(cardAt s c).serving then s
  else
    let o := other c
    let s := event 0x402 2 (srcQ o) (obj 8 (cardNo c)) row 0 0 s
    let s := portsDown c s
    let hold := carries (cardAt s o)
    let s := updCard c (fun x => { x with
      serving := false, hb := 4, why := why, beat := false, missed := 0, unacked := [], holding := false, entering := 0, writing := none,
      activating := 0, leaving := 0, held := hold, heldBefore := x.heldBefore || hold, heldAgain := x.heldBefore && hold, aliveTx := if row = 1 then x.aliveTx + 1 else x.aliveTx }) s
    let s := if row = 1 then send (.heartbeat c (heartbeatOf s c 4)) s else s
    let s := updMem c rankDrop s
    let s := updPair (fun p => { p with lastServing := some (if hold then o else c) }) s
    if hold then takeover c (updCard o (fun x => { x with beat := false, missed := 0, copying := false }) s)
    else
      -- a partner that an activation is restarting starts alone (R302)
      let s := if (cardAt s o).serving then updCard o (fun x => { x with serving := false, entering := 1, activating := 0, why := .none, hb := 0 }) (portsDown o s) else s
      updSe .ca (fun _ => []) (updSe .cb (fun _ => []) { s with cmds := [], pieces := [] })

/-! ### The rows. -/
/-- HEARTBEAT (R285, R274): a repeat or a failed CRC counts as a missed one; STATE 4 says that the partner leaves. -/
def execHeartbeat (card : CardId) (hb : HeartbeatMsg) (s : State) : Out :=
  if !(cardAt s card).serving then .next s
  else
    let (s, last, good) := alive card 2 ((memAt s card).alive.getD 2 {}).last hb.alive hb.crcOk s
    let s := updMem card (fun m => { m with alive := m.alive.set 2 { (m.alive.getD 2 {}) with last := last } }) s
    if !good then .next s
    else
      let s := updCard card (fun c => { c with beat := true, missed := 0, partnerHb := hb.state }) s
      let s := ackUpTo card hb.msnAck s
      .next (if hb.state = 4 then cardOut (other card) 1 .partnerHold s else s)
/-- Silence of a card at a PEU as its last STATUS says (R398). -/
def silentOf (p : Peu) : CardId → Nat | .ca => p.status.caSilent | .cb => p.status.cbSilent
/-- PEUs that are fed (R292). -/
def fedPeus (s : State) : List Peu := [s.power.peuA, s.power.peuB].filter fun p => p.present && p.feed
/-- A PEU's STATUS is current on either link (R397). -/
def statusCurrent (s : State) (p : Peu) : Bool :=
  let ok := fun (a : Option Nat) => match a with | some f => !elapsed s f 16 | none => false
  p.present && (ok p.atA || ok p.atB)
/-- HEARTBEAT_MISSED (R285, R292): after four, the PEUs' STATUS decides between a failed partner and a failed link. -/
def execHeartbeatMissed (card : CardId) (s : State) : Out :=
  let c := cardAt s card
  let o := other card
  if !c.serving ∨ !(cardAt s o).serving ∨ c.beat then .next s
  else
    let s := updCard card (fun c => { c with missed := c.missed + 1 }) s
    let m := c.missed + 1
    let fed := fedPeus s
    if m < 4 then .next s
    else if fed.all (fun p => statusCurrent s p && decide (8 ≤ silentOf p o)) then .next (cardOut o 2 .partnerHold s)
    else if fed.any (fun p => statusCurrent s p && decide (silentOf p o < m)) then
      .next (cardOut (other s.time.master) 4 .partnerHold (updPair (fun p => { p with lanes := 0 }) s))
    else .next s
/-- CARD_PRESENT_OPEN (R292, R439): the removal ends a partner hold. -/
def execCardPresentOpen (card : CardId) (s : State) : Out :=
  let s := cardOut card 3 .removed s
  .next (updCard card (fun c => { c with present := false, serving := false, why := .removed, entering := 0, fuseOn := false, held := false })
    (updFuse (16 + cardNo card) (fun _ => {}) s))
/-- FENCE_RECEIVED (R293): the Filnas refuses the fenced card's requests and withdraws those in its plans; recovery work
goes on from the survivor (R295). -/
def execFenceReceived (frond : Frond) (fenced : CardId) (s : State) : Out :=
  let f := frond.val
  if (cardAt s fenced).serving ∧ (cardAt s (other fenced)).serving then .next s
  else
    let s := updFrond f (fun g => { g with fenced := if g.fenced.contains fenced then g.fenced else g.fenced ++ [fenced] }) s
    let rs := s.reqs.filter fun r => frondOfDie r.2.die == f && decide (r.2.owner = fenced)
      && (match r.2.st with | .sent | .accepted | .planned => true | _ => false)
    .next (rs.foldl (fun s r =>
      let s := withdraw r.1 s
      if r.2.piece.isSome then s
      else updReq r.1 (fun x => { x with owner := other fenced, st := .sent, target := s.time.fc + 1, frame := none }) s) s)
/-- RHIZOME_LANE_LOSS (R284): 8 lanes, or a failed link that the tick master survives (R292). -/
def execRhizomeLaneLoss (trainsOn8 : Bool) (s : State) : Out :=
  if trainsOn8 then .next (updPair (fun p => { p with lanes := if p.lanes = 0 then 0 else 8 }) s)
  else
    let s := updPair (fun p => { p with lanes := 0 }) s
    .next (if bothServe s then cardOut (other s.time.master) 4 .partnerHold s else s)
/-- MIRROR_RECORD (R286): applied in MSN order, and acknowledged. -/
def execMirrorRecord (card : CardId) (msn : Nat) (s : State) : Out :=
  let c := cardAt s card
  if !c.serving ∨ c.msnRx + 1 < msn then .next s
  else .next (send (.mirrorAck card msn) (updCard card (fun x => { x with msnRx := max x.msnRx msn }) s))
/-- MIRROR_ACK (R286). -/
def execMirrorAck (card : CardId) (msn : Nat) (s : State) : Out := .next (ackRecord card msn s)
/-- MIRROR_ACK_TIMEOUT (R287): the tied commands are held until the detection has decided. -/
def execMirrorAckTimeout (card : CardId) (msn : Nat) (s : State) : Out :=
  .next (if (cardAt s card).unacked.any (fun r => r.msn == msn && elapsed s r.sent 4) then
    updCard card (fun x => { x with holding := true }) s else s)
/-- A planned transfer of a group begins (R296). -/
def startTransfer (g : Group) (dest : CardId) (s : State) : State :=
  let src := ownerOf s g
  if !s.pair.ca.serving ∨ !s.pair.cb.serving ∨ src = dest ∨ s.pair.takeover.isSome ∨ s.pair.transfers.any (fun t => t.group == g) then s
  else
    let s := updPair (fun p => { p with transfers := p.transfers ++ [{ group := g, src := src, dst := dest }] }) s
    updCard src (fun c => { c with hb := 2 }) s
/-- OWNERSHIP_TRANSFER (R296). -/
def execOwnershipTransfer (group : Group) (dest : CardId) (s : State) : Out := .next (startTransfer group dest s)
/-- Commands of a group that its old owner still holds (R296). -/
def undrained (s : State) (t : Transfer) : Bool :=
  s.cmds.any fun c => decide (c.2.owner = t.src) && c.2.st != .xferWait && (nsAt s c.2.e.nsid).used && (nsAt s c.2.e.nsid).group == t.group
/-- OWNERSHIP_COPY_DONE (R296): the group is drained and copied; ownership switches at the next frame boundary. -/
def execOwnershipCopyDone (group : Group) (s : State) : Out :=
  .next (updPair (fun p => { p with
    transfers := p.transfers.map fun t => if t.group = group ∧ !undrained s t then { t with step := 3 } else t }) s)
/-- Commands that waited for a group's new owner run at it, in fetch order (R296 step 4, R293). -/
def releaseHeld (s : State) : State :=
  (s.cmds.filter fun c => c.2.st == .xferWait && !mustHold s c.2.card c.2.e.nsid).foldl (fun s c =>
    atOwner runKind c.1 (updCmd c.1 (fun x => { x with owner := if (nsAt s x.e.nsid).used then ownerOfNs s x.e.nsid else x.card, st := .fetched, fwd := none }) s)) s
/-- The switch of a transfer at a frame boundary (R296 steps 3 and 4, R298). -/
def switchGroup (t : Transfer) (s : State) : State :=
  let s := updPair (fun p => { p with
    own1 := if t.group = .g1 then t.dst else p.own1, own2 := if t.group = .g2 then t.dst else p.own2,
    transfers := p.transfers.filter (· ≠ t) }) s
  let hbOf := fun (c : Card) => if c.serving ∧ c.hb = 2 then { c with hb := 1 } else c
  let s := raiseEpoch (updCard .ca hbOf (updCard .cb hbOf s))
  releaseHeld (anaUpdate s)
/-- TAKEOVER_COMPLETE (R293): the taken-over namespaces are served. -/
def execTakeoverComplete (card : CardId) (s : State) : Out :=
  match s.pair.takeover with
  | some (c, fc) =>
    if c = card then
      let s := updPair (fun p => { p with takeover := none }) s
      .next (releaseHeld (event 0x403 1 (srcQ card) (obj 8 (cardNo card)) (cardAt s card).ownEpoch (s.time.fc - fc) 0 s))
    else .next s
  | none => .next s
/-- The card whose Quihar is tick master: CA while it is in service, being neither asked to leave nor restarted by its
activation, else CB (R32, R298, R436). -/
def tickHome (s : State) : CardId :=
  let c := s.pair.ca
  if c.serving && c.leaving == 0 && !(c.activating == 2 || c.activating == 3 || c.activating == 4) then .ca else .cb
/-- TICK_MASTER_HANDOVER (R32, R301): the duties move to the card whose they are at the next frame boundary. -/
def execTickMasterHandover (s : State) : Out :=
  .next (if bothServe s ∧ s.pair.handTo.isNone ∧ tickHome s ≠ s.time.master then
    updPair (fun p => { p with handTo := some (other s.time.master) }) s else s)
/-- Rules as a card's spikelet holds them, without range locks (R232, R300); retired units stay retired (R221; assumption 177). -/
def rulesOnly (sp : Spikelet) : Spikelet :=
  { ents := sp.ents.filter (fun e => decide (32768 ≤ e.1)), shadow := sp.shadow.filter (fun e => decide (32768 ≤ e.1)), retired := sp.retired }
/-- A card's spikelet loads its partner's table: what would stand in a unit that this card has retired gets another position. -/
def loadRules (own partner : Spikelet) : Spikelet :=
  let p := rulesOnly partner
  let here := fun (x : Nat × Entry) => !own.retired.contains x.1
  (p.shadow.filter fun x => !here x).foldl (fun sp x => reseat x.1 x.2 sp)
    { p with ents := p.ents.filter here, shadow := p.shadow.filter here, retired := own.retired }
/-- Culm port of a card that comes into service: down, unless it is held down or disabled (R304, R325). -/
def culmBack (card : CardId) (s : State) : State :=
  updCulm (culmOf card) (fun x => { x with link := if s.sheaf.st = 3 ∨ s.sheaf.st = 4 then 4 else if s.sheaf.enabled then 0 else 5, downAt := now s }) s
end Sys2Proof.Machine
end

