-- ==== Sys2Proof/Machine/Flags.lean ====
section
/-! DEFINITION. Values the module derives from its state: caps and budgets (R393, R405, R417–R420), segments that may
not start (R399, R421, R433). -/
namespace Sys2Proof.Machine
open Sys2Proof

/-- No segment may start on a frond: the last feed is lost, it is being prepared, or it is in thermal shutdown (R399, R421,
R433). -/
def segsOff (s : State) (g : FrondSt) : Bool := s.power.feedLost || g.prepared != 0 || g.shutdown
/-- Cap of a power state, W (R405). -/
def capOfPs : Nat → Nat | 0 => 320 | 1 => 220 | 2 => 150 | 3 => 55 | _ => 22
def capNow (s : State) : Nat := capOfPs s.power.ps
/-- Non-media load of an operational state, W (R405). -/
def loadOfPs : Nat → Nat | 0 => 190 | 1 => 152 | _ => 120
/-- A PEU's term of C, W: min(VIN × I_LIMIT, 320) of a current STATUS, times its thermal factor (R393, R420). -/
def peuTerm (s : State) (p : Peu) : Nat :=
  if statusCurrent s p && p.status.state == 2 && p.outOn then min (p.status.m.vin.toNat * p.status.iLimit / 1000) 320 * p.factor / 64 else 0
/-- Some PEU's STATUS is current (R393). -/
def someCurrent (s : State) : Bool := statusCurrent s s.power.peuA || statusCurrent s s.power.peuB
/-- Input capacity C (R393): while no STATUS is current, the last C for 400 frames and then 150 W. -/
def capacity (s : State) : Nat :=
  if statusCurrent s s.power.peuA || statusCurrent s s.power.peuB then peuTerm s s.power.peuA + peuTerm s s.power.peuB
  else s.power.capacity
/-- STATE_BUDGET, W (R405, R418). -/
def stateBudget (s : State) : Nat :=
  if 3 ≤ s.power.ps then 0 else min 100 (min (capNow s) (capacity s) * 92 / 100 - loadOfPs s.power.ps)
/-- A frond's thermal factor. -/
def frondFactor (s : State) (f : Nat) : Nat := tget 64 s.power.frondF f
/-- Thermal budget in tenths of a milliwatt: 6.25 W × F / 64 of each present frond (R420). -/
def thermalTenths (s : State) : Nat :=
  ((List.range 16).filter (frondIn s)).foldl (fun a f => a + frondFactor s f) 0 * 62500 / 64
def thermalBudget (s : State) : Nat := thermalTenths s / 10000
/-- SHEAF_BUDGET, W: 20 + floor((GRANT − BASE) × 0.92); 100 when not a member (R319, R418). -/
def sheafBudget (s : State) : Nat :=
  if isMember s && s.sheaf.grant != 0 then min 100 (20 + (s.sheaf.grant - s.sheaf.base) * 92 / 100) else 100
/-- IN_FORCE, W, and the media power budget in tenths of a milliwatt (R417, R418). -/
def budgetTenths (s : State) : Nat :=
  min (min s.power.hostBudget (stateBudget s) * 10000) (min (thermalTenths s) (sheafBudget s * 10000))
def inForce (s : State) : Nat := budgetTenths s / 10000

end Sys2Proof.Machine
end

