-- ==== Sys2Proof/Machine/PowerState.lean ====
section
/-! DEFINITION. Moves between power states: entry, refusal, wake, exit, regulators and oscillators (R406–R416, R424). -/
namespace Sys2Proof.Machine
open Sys2Proof

/-- Completes an admin command whose port, CID and opcode were kept. -/
def answer (cmd : Option (Port × Nat × Nat)) (st : Nat × Nat) (dw0 dw1 : Nat) (s : State) : State :=
  match cmd with
  | some (p, cid, _) => post { port := p, cid := cid, sct := st.1, sc := st.2, dw0 := dw0, dw1 := dw1 } 0 0 s
  | none => s
/-- The port, CID and opcode of an admin command. -/
def keepCmd (e : Sqe) : Option (Port × Nat × Nat) := some (e.port, e.cid, e.opc.toNat)
/-- The last entry's outcome (R425) and its event (R467). -/
def entryEnds (result block point target : Nat) (s : State) : State :=
  event 0x720 0 (srcQ s.time.master) 0 result (target + block * 256) 0
    (updPower (fun p => { p with
      entry := none, lastResult := result, lastBlock := block, lastPoint := point, lastTarget := target, lastFc := s.time.fc,
      lastEp := s.time.ep }) s)
/-- The completed steps are restarted in reverse order, and the command fails with 0x8C (R411, R412). -/
def unwind (block : Nat) (s : State) : State :=
  match s.power.entry with
  | none => s
  | some en =>
    -- the slots that PS4 has switched off are on again: their channels train (R410, R413)
    let s := if 3 < en.step ∧ en.target = 4 then (List.range 16).foldl (fun s f => if frondIn s f then untrain f s else s) s else s
    let s := { s with fronds := s.fronds.map fun f => (f.1, if 3 < en.step ∨ (en.step = 3 ∧ f.2.noSegs) then { f.2 with noSegs := segsOff s f.2 } else f.2) }
    let s := if en.step = 6 then requestRegs (regsOf s true) (updPower (fun p => { p with regReqs := [] }) s) else s
    let s := updPower (fun p => if block = 0xFE then { p with abandoned := p.abandoned + 1 } else { p with refused := p.refused + 1 }) s
    let s := entryEnds (if block = 0xFE then 3 else 2) block (en.step - 1) en.target s
    let s := match en.wake with
      | some t => if t ≠ s.power.ps then updPower (fun p => { p with psNext := some { target := t } }) s else s
      | none => s
    aenPage 0xC8 (answer en.cmd (7, 0x8C) block 0 s)
/-- Block of step 2 that refuses (R409). -/
def refuser (s : State) : Option Nat :=
  let busy := fun (c : Card) => c.activating != 0 || c.window.isSome
  let mig := fun (m : CardMem) => match m.rop with | .migrate _ _ => true | _ => false
  let upd := fun (p : Peu) => p.updating || decide (2 ≤ p.upd)
  if s.pair.takeover.isSome || !s.pair.transfers.isEmpty || busy s.pair.ca || busy s.pair.cb then some 3
  else if s.sec.running.isSome then some 4
  else if !s.rebuild.queue.isEmpty || !s.seedbed.replace.isEmpty then some 5
  else if s.sheaf.relay.st ≠ 0 then some 6
  else if s.pair.ca.serving && mig s.memA then some 8
  else if s.pair.cb.serving && mig s.memB then some 9
  else if upd s.power.peuA then some 0x0A
  else if upd s.power.peuB then some 0x0B else none
/-- A frond's records stand: its erase record, and its member table where it is switched off (R410, R433). -/
def recordsKept (s : State) (f fc : Nat) (table : Bool) : Bool :=
  erasesKept s f fc && (!table || ((frondAt s f).batch.isEmpty && (findWork s (isMembers f)).isNone))
/-- Fronds that delay the entry: a started program or verification runs, or their records are not written (R409, R410). -/
def parkDelays (s : State) (en : EntrySt) : List Nat :=
  ((List.range 16).filter fun f => frondIn s f && (!recordsKept s f en.parkFc (en.target == 4) || s.dies.any fun d => frondOfDie d.1 == f
    && (match d.2.op with | some o => o.kind != .erase | none => false))).map (0x10 + ·)
/-- What parks a frond (R410 step 3). -/
def parkFrond (target f : Nat) (s : State) : State :=
  if !frondIn s f then s
  else updFrond f (fun g => { g with noSegs := true }) (if target = 4 then cutErases f s else s)
/-- An entry waits for the blocks that delay it (R409). -/
def entryWait (en : EntrySt) (l : List Nat) (s : State) : State :=
  updPower (fun p => { p with entry := some { en with delaying := l, since := if l.any en.delaying.contains then en.since else now s } }) s
/-- An entry passes its step: unwound where a takeover or a wake event has come, else on to the next step (R410, R412, R424). -/
def entryPass (go : State → State) (s : State) : State :=
  match s.power.entry with
  | some e =>
    if e.taken ∨ e.wake.isSome then unwind (if e.taken then 3 else 0xFE) (updPower (fun p => { p with entry := some { e with step := e.step + 1 } }) s)
    else
      let s := updPower (fun p => { p with entry := some { e with step := e.step + 1, delaying := [], since := now s, parkFc := s.time.fc + 1 } }) s
      if e.step = 5 then requestRegs (regsOf s (e.target == 3)) s else go s
  | none => s
/-- Step 1: host ports and bulk ports (R409, R410). -/
def entryHosts (en : EntrySt) (go : State → State) (s : State) : State :=
  if s.cmds.any fun c => c.2.e.sqid != 0 then entryWait en [1] s
  else if s.qps.any fun q => !q.2.out.isEmpty || !q.2.todo.isEmpty then entryWait en [2] s
  else entryPass go s
/-- Step 2: the controller pair checks for refusals and writes checkpoints (R409, R410). -/
def entryPair (en : EntrySt) (go : State → State) (s : State) : State :=
  match refuser s with
  | some b => unwind b s
  | none =>
    let idle := fun (m : CardMem) => match m.rop with | .copy _ _ => { m with rop := .idle } | _ => m
    let s := updMem .ca idle (updMem .cb idle s)
    let ask := fun (c : CardId) (s : State) => if (cardAt s c).serving then startCheckpoint c s else s
    if !en.ckpt then go (updPower (fun p => { p with entry := some { en with ckpt := true } }) (ask .cb (ask .ca s)))
    else if s.jA.running.isSome || s.jB.running.isSome then s
    else entryPass go s
/-- Step 6: with every regulator's answer the state is entered (R410, R412). -/
def entryDone (en : EntrySt) (s : State) : State :=
  if s.power.regReqs.isEmpty then
    let s := updPower (fun p => { p with ps := en.target, lastOp := p.ps, entries := p.entries + 1 }) s
    let s := answer en.cmd (0, 0) 0 0 (entryEnds 1 0 5 en.target s)
    match en.wake with | some t => startExit { target := t } s | none => s
  else s
/-- The entry goes on as far as its blocks let it (R409, R410, R412). -/
def entryGo : Nat → State → State
  | 0, s => s
  | fuel + 1, s =>
    match s.power.entry with
    | none => s
    | some en =>
      if en.step = 1 then entryHosts en (entryGo fuel) s
      else if en.step = 2 then entryPair en (entryGo fuel) s
      else if en.step = 3 then
        (match parkDelays s en with
         | [] => entryPass (entryGo fuel) ((List.range 16).foldl (fun s f => parkFrond en.target f s) s)
         | l => entryWait en l s)
      else if en.step = 4 ∨ en.step = 5 then entryPass (entryGo fuel) s
      else entryDone en s
def entryAdvance (s : State) : State := entryGo 8 s
/-- An entry begins (R410). -/
def startEntry (target : Nat) (cmd : Option (Port × Nat × Nat)) (s : State) : State :=
  entryAdvance (updPower (fun p => { p with lastOp := p.ps, entry := some { target := target, cmd := cmd, since := now s } }) s)

/-- ENTRY_DELAY_EXPIRY (R409, R411): a block that has delayed for its limit refuses. -/
def execEntryDelayExpiry (block : Nat) (s : State) : Out :=
  match s.power.entry with
  | some en =>
    let lim := if block < 0x10 then 400 else 64
    .next (if en.delaying.contains block ∧ elapsed s en.since lim then unwind block s else s)
  | none => .next s
/-- REGULATOR_ACK (R414). -/
def execRegulatorAck (reg : RegId) (s : State) : Out :=
  .next (entryAdvance (updPower (fun p => { p with regReqs := p.regReqs.filter (fun q => q.id ≠ reg) }) s))
/-- Card or frond that a regulator supplies. -/
def regCard : RegId → Option CardId | .core c => some c | .cardPol c _ => some c | .frondPol _ _ => none
/-- A regulator failure (R415). -/
def regFailed (reg : RegId) (s : State) : State :=
  let ob := match reg with | .core c | .cardPol c _ => obj 8 (cardNo c) | .frondPol f _ => obj 4 f.val
  let s := updPower (fun p => { p with regFails := p.regFails + 1, regReqs := p.regReqs.filter (fun q => q.id ≠ reg) }) s
  let s := aenPage 0xC8 (event 0x724 2 (srcQ s.time.master) ob 0 0 0 s)
  if s.power.entry.isSome then unwind 0x20 s
  else match reg with
  | .frondPol f _ =>
    let s := updFuse f.val (fun x => { x with off := true }) s
    if frondAbsent s f.val then s else frondDepart f.val 3 s
  | .core c | .cardPol c _ =>
    if (cardAt s c).serving then cardOut c 1 .outOfService s
    else updCard c (fun x => if x.entering = 0 then x else { x with entering := 0, why := .failedStart, hb := 4 }) s
/-- REGULATOR_TIMEOUT (R414, R415): 8 frames without an answer; three retries, then a failure. -/
def execRegulatorTimeout (reg : RegId) (s : State) : Out :=
  match s.power.regReqs.find? (fun q => q.id == reg) with
  | none => .next s
  | some q =>
    if !elapsed s q.sent 8 then .next s
    else if q.retries < 3 then
      .next (send (.regulator reg) (updPower (fun p => { p with
        regReqs := p.regReqs.map fun r => if r.id = reg then { r with retries := r.retries + 1, sent := now s } else r }) s))
    else .next (regFailed reg s)
/-- OSCILLATOR_TIMEOUT (R416, R427, R437): the secondary oscillator, at an exit from PS4 or at a start; a card whose secondary is not ready
either stays held. -/
def execOscillatorTimeout (card : CardId) (s : State) : Out :=
  let c := cardAt s card
  let starts := !c.serving && c.present && (c.entering == 1 || c.entering == 6)
  if !starts ∧ (s.power.ps ≠ 4 ∨ s.power.exit.isNone ∨ !c.serving) then .next s
  else if c.osc2 then .next (if starts then updCard card (fun x => { x with entering := 0, why := .failedStart, hb := 4 }) s else cardOut card 1 .outOfService s)
  else .next (aenPage 0xC8 (event 0x725 1 (srcQ card) (obj 8 (cardNo card)) 0 0 0 (updCard card (fun c => { c with osc2 := true }) s)))

end Sys2Proof.Machine
end

