-- ==== Sys2Proof/Machine/Return.lean ====
section
/-! DEFINITION. Fronds that come: the return of a known frond
(R102–R104), the acceptance of a new one (R96, R435), preparation for removal (R433). -/
namespace Sys2Proof.Machine
open Sys2Proof

/-- The active firmware slot of a card, and the image that the module runs (R356, R360). -/
def activeSlot (c : Card) : FwSlot := if c.active = 2 then c.slot2 else c.slot1
def runningImage (s : State) : FwSlot := activeSlot (cardAt s s.time.master)
/-- Codewords that waited for a present frond get their copies: those of completed data in their turn, others at once (R125). -/
def placeWaiting (s : State) : State :=
  (s.cws.filter fun c => 0 < c.2.waiting && !c.2.folded).foldl (fun s c =>
    let there := fun (s : State) => (nextFrond s (memberFrond (slotOfCk c.1) (posOfCk c.1)) ((cwAt s c.1).copies.map (·.frond))).isSome
    if !there s then s
    else if !openCw s c.2 && c.2.copies.any (·.done) then
      updSeedbed (fun b => { b with replace := if b.replace.contains c.1 then b.replace else b.replace ++ [c.1] }) s
    else (List.range c.2.waiting).foldl (fun s _ =>
      if there s then recopy c.1 (freeIdxOf (cwAt s c.1)) (updCw c.1 (fun w => { w with waiting := w.waiting - 1 }) s) else s) s) s
/-- A member takes a free die-block that its frond's member table does not name: its rows are to be brought from row v on. -/
def memberBlock (f m v : Nat) (s : State) : State :=
  match drawMember f (stripeAt s (m / 16)).cls s with
  | (some b, s) =>
    setMember m (fun _ => { blk := some b, verified := v, filling := true })
      (updBlk b (fun y => { y with state := 4, member := some m, mode := if v = 0 then none else some true }) s)
  | (none, s) => memberGone m s
/-- A member is relocated: the generation of its stripe rises (R103). -/
def raiseGen (m : Nat) (s : State) : State := updStripe (m / 16) (fun x => { x with gen := (x.gen + 1) % 2 ^ 32 }) s
/-- One member of a returning frond, by the table of R103. Cut: the verified rows are copied inside the frond to another die-block, and
until then read where they are; one without a verified row goes there at once.
Reallocated without a pending member here, because another member of the stripe was relocated: the table states no further
action, and the model takes a new die-block and fills it (assumption 145). -/
def memberReturn (f m : Nat) (s : State) : State :=
  let x := memberAt s m
  match x.blk, tfind (frondAt s f).table m with
  | some b, some r =>
    if r.gen ≠ (stripeAt s (m / 16)).gen then memberBlock f m 0 (raiseGen m (toDirty b s))
    else if r.cut ∧ r.verified = 0 then memberBlock f m 0 (raiseGen m (toDirty b s))
    else
      let s := if r.cut then updBlk b (fun y => { y with member := some m, leave := true }) s else s
      padAgain m (setMember m (fun y => { y with verified := r.verified, filling := decide (r.verified < (stripeAt s (m / 16)).folded) }) s)
  | some b, none => memberBlock f m 0 (raiseGen m (toDirty b s))
  | none, _ => if x.lost then s else memberBlock f m 0 s
/-- The cut programs of a frond's members have been dealt with. -/
def uncut (f : Nat) (s : State) : State := updFrond f (fun g => { g with table := g.table.map fun r => (r.1, { r.2 with cut := false }) }) s
/-- Marker 0x0006 in a frond's store, after the records it holds (R383, R435). -/
def acceptMark (f : Nat) (s : State) : State :=
  let r := mkRec s 6 5 (cardNo s.time.master) (ofLe (Config.moduleSerial.take 20) + f * 2 ^ 160)
  updFrond f (fun g => { g with store := if g.store.length < 4096 then g.store ++ [r] else g.store }) s
/-- Members of a frond that are to be filled or rebuilt, queued in the order of R98. -/
def queueFills (kind f : Nat) (s : State) : State :=
  let ms := (membersOf s f).filter fun m => (memberAt s m).filling
  let s := frondState f (if ms = [] then 0 else if kind = 3 then 6 else 5) s
  startRebuild kind (obj 4 f) ms s
/-- Seedbed copies that a returning frond still holds belong to codewords that have got others meanwhile: they are dead, and
its blocks that hold no live one are erased (R121, R125). -/
def staleSeed (f : Nat) (s : State) : State :=
  let here := fun (k : Nat) => s.cws.foldl (fun a c => a + (c.2.copies.filter fun l => l.done && l.frond == f && blkKey l.die l.block == k).length) 0
  let count := fun (b : Nat × Blk) => if frondOfDie (b.1 / 4096) = f ∧ b.2.seed then (b.1, { b.2 with live := here b.1 }) else b
  deadBlocks f { s with blks := s.blks.map count }
/-- A known frond returns without rebuild (R102–R104, R125). -/
def frondKnown (f : Nat) (s : State) : State :=
  let s := updFrond f (fun g => { g with
    prepared := 0, insert := 0, ident := none, noSegs := s.power.feedLost, shutdown := false, leGone := false, coreReset := false,
    planRx := ⟨none, none⟩, planHeard := ⟨false, false⟩ }) s
  let s := frondState f 0 s
  let s := staleSeed f ((membersOf s f).foldl (fun s m => memberReturn f m s) s)
  placeWaiting (sortQueue (queueFills 3 f (acceptMark f (uncut f s))))
/-- The channels of an inserted frond have trained before it is accepted (R435). -/
def trainedIn (f : Nat) (s : State) : State :=
  (List.range 8).foldl (fun s c => updChan (f * 8 + c) (fun x => { x with
    trained := true, due := false, trainFc := s.time.fc, pkgTemps := (List.range 4).map fun i => packageTemp s (f * 256 + c * 32 + i * 8) }) s) s
/-- Factory-bad positions of a new frond's dies (R60): each accounted one is replaced by the lowest good position above the accounted
ones, in its use. -/
def markFactory (f : Nat) (bad : List Nat) (s : State) : State :=
  bad.foldl (fun s b =>
    let k := blkKey (f * 256 + b / 4096) (b % 4096)
    let s := updBlk k (fun x => { x with state := 9 }) s
    if 2048 ≤ b % 4096 then s
    else match (List.range 64).find? fun i => !bad.contains (b / 4096 * 4096 + 2048 + i) && (blkAt s (blkKey (k / 4096) (2048 + i))).state == 7 with
      | some i =>
        let n := blkKey (k / 4096) (2048 + i)
        updFrond f (fun g => { g with dirty := g.dirty ++ [n] }) (updBlk n (fun x => { x with state := 1, after := (blkDefault k).state }) s)
      | none => s) s
/-- A new frond is accepted; the slot's old frond is lost and the slot is rebuilt: every member of a stripe in use waits for a
die-block (R96, R102). Its accounted die-blocks are all dirty (R102), and its dies that failed stay so (R81). -/
def frondNew (f : Nat) (id : FrondIdent) (s : State) : State :=
  let r := mkRec s 0x813 3 (cardNo s.time.master) (evData (obj 4 f) f 0 (obj 4 f))
  let s := updEvents (fun ev => { ev with changeQ := ev.changeQ ++ [(r, none)] }) s
  let g : FrondSt :=
    { state := (frondAt s f).state, present := true, serial := id.serial, record := id.serial, store := id.store.take 4096,
      locate := (frondAt s f).locate, fc := s.time.fc, follows := s.time.master, code := (runningImage s).filnasSha,
      goneFc := (frondAt s f).goneFc, goneEp := (frondAt s f).goneEp, fenced := (frondAt s f).fenced, noSegs := s.power.feedLost }
  let s := updFrond f (fun _ => g) s
  let s := { s with
    dies := s.dies.filter (fun d => frondOfDie d.1 != f), blks := s.blks.filter (fun b => frondOfDie (b.1 / 4096) != f),
    chans := s.chans.filter (fun c => c.1 / 8 != f) }
  let s := (List.range 256).foldl (fun s i => updDie (f * 256 + i) (fun _ => { state := if id.failed.contains i then 2 else 0, unwiped := some 0 }) s) s
  let s := restorePages (fun d => frondOfDie d == f) (frondState f 5 (markFactory f id.factoryBad s))
  let s := (membersOf s f).foldl (fun s m => raiseGen m (setMember m (fun _ => { filling := true }) s)) s
  placeWaiting (sortQueue (queueFills 2 f (acceptMark f (trainedIn f s))))
/-- A frond of record is lost: its members are missing until a rebuild (R96, R102). A unit in the slot that is foreign, or whose fuse is off,
hides the STATE. -/
def frondLost (f : Nat) (s : State) : State :=
  let s := if (frondAt s f).state = 7 ∨ (frondAt s f).state = 9 then updFrond f (fun g => { g with hidden := 4 }) s else frondState f 4 s
  let s := (membersOf s f).foldl (fun s m => setMember m (fun x => { x with blk := none, verified := 0, filling := false, padded := 0 }) s) s
  settleFailed (updFrond f (fun g => { g with prepared := 0 }) s)

end Sys2Proof.Machine
end

