-- ==== Sys2Proof/Machine/Epoch.lean ====
section
/-! DEFINITION. The end of a power epoch and the beginning of the next: what a loss of power or an NVM Subsystem Reset cuts,
what replay recovers, the first record of an epoch (R16, R78, R79, R129, R141, R153, R155, R277, R375, R380, R427, R429). -/
namespace Sys2Proof.Machine
open Sys2Proof

/-! ### What is cut. -/
/-- A zone stands as it stood before a record (R141, R152). -/
def zoneBack (r : JRec) (s : State) : State := match r.undo with | some (zk, old) => updZone zk (fun _ => old) s | none => s
/-- A member whose completion is not recorded is rebuilt again (R100). -/
def memberAgain (m : Nat) (s : State) : State :=
  if (memberAt s m).blk.isNone ∨ (memberAt s m).filling then s
  else
    let k := (3, obj 4 (memberFrond (m / 16) (m % 16)))
    updRebuild (fun r => { r with
      queue := r.queue ++ [m], active := r.active ++ [m], of := tins r.of m k, kinds := if r.kinds.contains k then r.kinds else r.kinds ++ [k] })
      (setMember m (fun x => { x with filling := true }) s)
/-- A journal record that was not programmed is undone, by its kind: the zone is as it was before, a stripe that it was to release stays, a
member is not whole yet; a Zone Finish and a conventional write have not acted (R139, R141, R152, R153). -/
def undoRec (s : State) (r : JRec) : State :=
  match r.kind with
  | 2 => zoneBack r (match r.undo.bind fun u => (zoneAt s u.1).slot with | some slot => freeStripe slot s | none => s)
  | 4 | 6 | 8 => zoneBack r s
  | 5 => zoneBack r (match r.undo.bind (·.2.slot) with
      | some slot => updStripe slot (fun x => { x with finishRow := if r.undo.any fun u => zActive u.2.st then none else x.finishRow }) s
      | none => s)
  | 7 => updNs r.nsid (fun n => { n with slots := if n.slots.contains r.slot then n.slots else n.slots ++ [r.slot] }) s
  | 9 => memberAgain (mKey r.slot r.offset) s
  | _ => s
/-- Codewords of records of a card, programmed on all three copies or not. -/
def packedRecs (s : State) (c : CardId) (done : Bool) : List JRec :=
  (s.metas.work.filter fun w => written (some w) == done).flatMap fun w => match w.2.of with
    | .journal d l _ => if d = c then l else []
    | _ => []
/-- What a card was writing of its journal and its checkpoint is given up. -/
def dropJournal (c : CardId) (s : State) : State :=
  updMetas (fun m => { m with work := m.work.filter fun w => !(isJournal c w.2.of || isSegment c w.2.of || isRoot c w.2.of) })
    (updJ c (fun j => { j with queue := [], running := none, stage := 0 }) s)
/-- The records that are programmed take effect; those that wait for it are undone, newest first. -/
def cutJournal (c : CardId) (s : State) : State :=
  let l := packedRecs s c true
  let s := updJ c (fun j => { j with recs := j.recs ++ l, written := j.written + l.length }) (l.foldl (fun s r => recEffect r s) s)
  dropJournal c (((packedRecs s c false ++ (jAt s c).queue).reverse).foldl undoRec s)
/-- A checkpoint before an NVM Subsystem Reset carries every change of the tables (R154, R429); a conventional write whose records are not
programmed has not changed them (R152). -/
def saveJournal (c : CardId) (s : State) : State :=
  let q := packedRecs s c true ++ (packedRecs s c false ++ (jAt s c).queue).filter fun r => r.kind != 1
  let s := dropJournal c (q.foldl (fun s r => recEffect r s) s)
  updJ c (fun j => { j with
    recs := [], older := 0, written := 0, rootSeq := seqNow s, rootEp := s.time.ep,
    rootBase := s.pair.lastBase, rootPos := pget s.rebuild.position c, rootOwn := (cardAt s c).ownEpoch }) s
/-- A Filnas stops: started erases become erase-incomplete, a cut program marks its member (R78, R103). -/
def stopFilnas (f : Nat) (s : State) : State :=
  let g := frondAt s f
  if g.state = 0 ∨ g.state = 5 ∨ g.state = 6 then holdChunks f (cutErases f (sealTable f s)) else s
/-- The records of the program that a power loss meets: a free number of them is whole, then perhaps one torn slot, which
reads as code 0 (R380, assumption 7). -/
def cutRecords (l : List EventRec) (d : BitVec 64) : List EventRec :=
  let k := d.toNat % (l.length + 1)
  l.take k ++ (if k < l.length ∧ bit d.toNat 32 then [({} : EventRec)] else [])
/-- A program of records stands in the recorder of every card that serves (R380, R381). -/
def putRecords (l : List EventRec) (r : Recorder) : Recorder :=
  l.foldl (fun r e =>
    if e.reserve then { r with reserve := r.reserve ++ [e] } else { r with main := r.main ++ [e] }) r
/-- Recorder at a power loss: the running program is cut, what waits is lost (R379, R380). -/
def cutRecorder (s : State) : State :=
  if s.events.writing = [] then s
  else
    let (d, s) := draw s
    let l := cutRecords (s.events.writing.map (·.1)) d
    let put := fun (c : CardId) (s : State) => if (cardAt s c).serving ∧ !(cardAt s c).copying then updRec c (putRecords l) s else s
    put .ca (put .cb (l.foldl (fun s r => countChange r s) s))
/-- What of a frond's Filnas does not outlive its restart. -/
def freshFilnas (g : FrondSt) : FrondSt :=
  { g with
    cur := {}, nxt := {}, closed := false, placed := ⟨[], []⟩, waiting := [], pack := [], opDies := [], batch := [], storeQ := [],
    marked := ⟨false, false⟩, planRx := ⟨none, none⟩, planHeard := ⟨false, false⟩, refresh := none,
    unmarked := 0, fenced := [], aliveTx := ⟨0, 0⟩, segOver := 0, rwOver := 0, chOver := 0, planLate := 0, lateFcs := [], fixWorst := 0,
    refreshDone := 0, progFails := 0, coreFails := 0, coreReset := false, prepCmd := none, training := none, trainStart := 0, noSegs := false, prepFc := 0,
    shutdown := false, fc := 0, journalFc := 0, tableFc := 0, switched := none, phase := 0, demand := 0, allowance := 0,
    prepared := if g.prepared = 2 then 2 else 0 }
/-- What Filnas keeps of a die over a restart: its read offsets, grown-bad positions and reserve, and that it has failed. -/
def freshDie (d : Die) : Die :=
  { state := if 2 ≤ d.state then d.state else 0, offsets := d.offsets, calTemp := d.calTemp, grownBad := d.grownBad,
    reserveUsed := d.reserveUsed, unwiped := d.unwiped }
/-- A card's record over a stop of the module: configuration store and slots stay, a slot write that was cut leaves its slot
empty (R358). -/
def stopCard (powerOff : Bool) (c : Card) : Card :=
  let cut := fun (n : Nat) (w : FwSlot) => match c.writing with
    | some x => if x.slot = n then { w with valid := false, confirmed := false, sha := [], image := [], revision := [] } else w
    | none => w
  let starts := c.present && c.why != .foreign && (powerOff || c.serving)
  { c with
    serving := false, why := if starts then .none else c.why, hb := if starts then 0 else c.hb, entering := if starts then 6 else 0,
    missed := 0, beat := false, partnerHb := 1, msnTx := 0, msnAcked := 0, msnRx := 0, unacked := [], holding := false,
    held := c.held && !powerOff, heldBefore := false, heldAgain := false, slot1 := cut 1 c.slot1, slot2 := cut 2 c.slot2, staged := [], writing := none, window := none,
    soakAt := 0, activating := 0, leaving := 0, actCmd := none, osc2 := c.osc2 && !powerOff, qFactor := 64, dFactor := 64, qNow := 64, writesOff := false, copying := false, turnSlice := 0, scanSlice := 0,
    fuseOn := if powerOff then c.present && c.why != .foreign else c.fuseOn }
/-- The memory of a card over its restart: rank roles and table stay, a rank in training is the spare (R263, R264). -/
def stopMem (feat : Features) (powerOff : Bool) (m : CardMem) : CardMem :=
  let m := rankDrop m
  let roles := m.ranks.map fun r => (r.1, ({ role := if r.2.role = 8 then 7 else r.2.role } : Rank))
  { freshMem with
    ranks := roles, table := m.table, spare := (roles.find? fun r => r.2.role == 7).map (·.1), grainNow := if powerOff then feat.grainNext else m.grainNow,
    cacheNow := if powerOff then feat.cacheNext else m.cacheNow }
/-- A slice over a power cycle: active, without I/O queues (R192); counters start at zero (R215). -/
def stopSlice (n : Nat) (x : Slice) : Slice :=
  let y : Slice :=
    { x with
             st := if x.st = 0 then 0 else 1, waiter := none, shareNext := none, share := x.shareNext.getD x.share, portLost := false,
             lostQs := [], readUsed := 0, writeUsed := 0, readResv := 0, writeResv := 0, deficit := ⟨0, 0⟩, scanDeficit := ⟨0, 0⟩, fetched := 0,
             admitted := 0, demoted := 0, misses := 0, changeFc := 0 }
  if n = 0 then { y with share := {} } else y
/-- A PEU with its output on, or carrying it by hold-up (R391). -/
def delivers (p : Peu) : Bool := p.present && p.outOn && (p.st == 2 || p.holdUp)
/-- What the cards keep of a PEU over their restart. -/
def stopPeu (p : Peu) : Peu :=
  { p with out := [], comp := [], compNext := 0, cardRxA := none, cardRxB := none, upd := 0, calRead := 0, unknown := false, factor := 64 }
/-- A queue pair over a stop of the module: it restarts at the PSN that follows the last one it used (R245). -/
def qpFresh (q : Qp) : Qp :=
  { used := true, slice := q.slice, gid := q.gid, qpn := q.qpn, psn := q.psn, una := q.psn, expect := q.psn, error := q.error }
/-- The module stops: everything that only DRAM, SRAM and running engines hold is gone (R302, R427, R429). -/
def stopAll (powerOff : Bool) (s : State) : State :=
  let s := applySettings s
  let s := (List.range 16).foldl (fun s f => stopFilnas f s) s
  let s := if powerOff then cutJournal .ca (cutJournal .cb s) else saveJournal .ca (saveJournal .cb s)
  let s := cutRecorder s
  let ctrl := fun (c : Ctrl) => ({
    link := false, cc := 0, rdy := false, nssro := !powerOff, errors := c.errors, errCount := c.errCount, ana1 := c.ana1, ana2 := c.ana2,
    anaChanges := c.anaChanges } : Ctrl)
  let qps := s.qps.filterMap fun q => if q.2.used && !q.2.closing then some (q.1, qpFresh q.2) else none
  let bulk := fun (b : BulkPort) => { b with linkUp := false, downAt := none, nakIn := 0, refused := 0, paused := false, rxUsed := 0, xoff := false, held := [] }
  let w := s.power
  let f := s.feat
  { s with
    fronds := s.fronds.map (fun g => (g.1, freshFilnas g.2)), dies := s.dies.map (fun d => (d.1, freshDie d.2)),
    blks := s.blks.map (fun b => (b.1, { b.2 with scrubLeft := 0 })), chans := (List.range 128).map (fun c => (c, { trainings := 0, trained := false })), reqs := [], progs := [],
    stats := {}, misses := [], pages := [], metas := { places := s.metas.places }, sqs := [], cqs := [], cmds := [], pieces := [], qps := qps, engines := (s.engines.filter (·.2.forGood)).map fun e => (e.1, { e.2 with failed := false }),
    seA := [], seB := [], c0 := ctrl s.c0, c1 := ctrl s.c1, b0 := bulk s.b0, b1 := bulk s.b1,
    nss := s.nss.map (fun n => (n.1, { n.2 with ready := false, deleting := none, victim := none, gcFreed := 0 })),
    slices := s.slices.map (fun x => (x.1, stopSlice x.1 x.2)), rules := s.rules.map (fun r => (r.1, { r.2 with hits := 0 })),
    memA := stopMem f powerOff s.memA, memB := stopMem f powerOff s.memB,
    rebuild := { s.rebuild with recent := [], sinceMirror := ⟨0, 0⟩, credit := ⟨0, 0⟩ },
    seedbed := { wfnBase := s.seedbed.wfnBase },
    pair := { s.pair with
      ca := stopCard powerOff s.pair.ca, cb := stopCard powerOff s.pair.cb, lanes := 16, takeover := none, transfers := [], handTo := none },
    sheaf := { pos := s.sheaf.pos, st := if s.sheaf.st = 4 then 4 else 0, enabled := s.sheaf.enabled, handed := s.sheaf.handed,
               budget := s.sheaf.budget, plan := s.sheaf.plan, planGen := s.sheaf.planGen, relayId := s.sheaf.relayId },
    sec := { s.sec with nonces := [], tokens := [], attestQ := [], reports := [], attestNext := s.sec.reservedEnd, signedAt := none, running := none, keyIds := [] },
    events := { s.events with ring := [], sumQ := [], changeQ := [], writing := [], buckets := [], posted := [], aenQ := ⟨[], []⟩, refilled := none },
    power :=
      { peuA := stopPeu w.peuA, peuB := stopPeu w.peuB, fuses := if powerOff then [] else w.fuses, lastResult := w.lastResult,
        lastBlock := w.lastBlock, lastTarget := w.lastTarget, lastPoint := w.lastPoint, lastFc := w.lastFc, lastEp := w.lastEp,
        hostBudget := w.hostBudget, pkgThr := w.pkgThr, qjThr := w.qjThr, filThr := w.filThr, dramThr := w.dramThr, privBand := w.privBand },
    feat := { f with quarThr := 3, quarWin := 4000, quarHold := 40000, tempOver := 353, tempUnder := 0, defaultHits := 0 },
    mi := { s.mi with eid := 0, changed := ⟨0, 0⟩, awaiting := none }, heldAdmin := [], jobs := [],
    spA := rulesOnly s.spA, spB := rulesOnly s.spB }
/-- The 12 V bus is gone: the power epoch ends by a power loss, by a shutdown, or after both cards had left (R375, R428). -/
def powerLoss (s : State) : State :=
  if !s.time.bus then s
  else
    let how := if !anyServe s then 4 else if s.time.cleanEnd then 1 else 0
    let off := fun (p : Peu) => { p with outOn := false, st := if p.st = 7 ∨ p.st = 3 ∨ p.st = 4 ∨ p.st = 5 then p.st else 0, holdUp := false, updating := false, blocks := [] }
    let s := stopAll true s
    let s := updPeu .a off (updPeu .b off s)
    updTime (fun t => { t with bus := false, lastEnd := how, resetHeld := false }) s
/-- The bus falls with the last PEU that delivers (R391, R399). -/
def busCheck (s : State) : State := if delivers s.power.peuA || delivers s.power.peuB then s else powerLoss s

/-! ### What replay recovers (R129, R155). -/
/-- A seedbed copy is live (R128): it decodes, its codeword is data or parity, of the present allocation of its slot, of a row
that its member has not verified. -/
def liveCopy (s : State) (ck : Nat) (w : Cw) (l : CopyLoc) : Bool :=
  l.done && !l.bad && (w.kind == .data || w.kind == .fill || w.kind == .parity) && decide ((stripeAt s (slotOfCk ck)).allocSeq ≤ w.seq)
    && decide ((memberAt s (hOfCk ck / 1024)).verified ≤ rowOfCk ck)
/-- A codeword is folded, or covered by a live seedbed copy (R129). -/
def covered (s : State) (ck : Nat) : Bool :=
  match tfind s.cws ck with | some w => w.folded || w.copies.any (liveCopy s ck w) | none => false
/-- Blocks from the zone start that are covered, one after the other. -/
def runFrom (s : State) (p : Profile) (slot : Nat) : Nat → Nat → Nat
  | 0, b => b
  | n + 1, b => if covered s (ckOf p slot b) then runFrom s p slot n (b + 1) else b
/-- Folds the blocks between the covered length of a digest and the recovered write pointer in (R277). -/
def digestTo (s : State) (p : Profile) (slot : Nat) : Nat → Zone → Zone
  | 0, z => z
  | n + 1, z => digestTo s p slot n (addPiece z.covered (cwAt s (ckOf p slot z.covered)).data z)
/-- A parity codeword whose row's accumulation had reached its end when power went (R116). -/
def parityFinal (p : Profile) (run ck : Nat) : Bool :=
  let row := run / (64 * dataOf p)
  decide (rowOfCk ck < row) || (p == .l12 && rowOfCk ck == row && posOfCk ck == 12 && decide (384 ≤ run % (64 * 12)))
/-- An open or written zone: the write pointer, the digest, the open row, what lies beyond the run (R129, R136). -/
def replayZone (zk : Nat) (s : State) : State :=
  let z := zoneAt s zk
  match z.slot with
  | none => updZone zk (fun z => { z with openW := [], fills := 0 }) s
  | some slot =>
    if z.finish.isSome || !(zActive z.st || z.st == .full) then updZone zk (fun z => { z with openW := [], fills := 0, pieces := [] }) s
    else
      let p := (stripeAt s slot).profile
      let run := runFrom s p slot (capOf p) 0
      let gone := fun ck => slotOfCk ck == slot && !(cwAt s ck).folded &&
        (if posOfCk ck < dataOf p then decide (run ≤ offOfCk p ck) else !parityFinal p run ck)
      let drop := (s.cws.filter fun c => gone c.1).map (·.1)
      let s := releaseCopies gone s
      let s := { s with
        cws := s.cws.filter (fun c => !drop.contains c.1), chunks := s.chunks.filter (fun c => !drop.any fun ck => hOfCk ck == c.1),
        accums := if run < capOf p then s.accums else tdel s.accums slot }
      let s := if run < capOf p then
        updAccum slot (fun _ => { row := run / (64 * dataOf p), lost := decide (run % (64 * dataOf p) ≠ 0) }) s else s
      let z' := digestTo s p slot (run - z.covered) { z with pieces := [] }
      updZone zk (fun _ => { z' with wp := run, st := if run = capOf p then .full else .closed, openW := [], fills := 0, pieces := [] }) s
/-- A conventional stripe: codewords that no programmed record of kind 1 covers are released; their places hold padding (R153). -/
def replayConv (slot : Nat) (s : State) : State :=
  let dead := s.cws.filter fun c => slotOfCk c.1 == slot && c.2.kind == .data && !c.2.folded && !c.2.recorded
  let s := dead.foldl (fun s c => c.2.copies.foldl (fun s l =>
    if l.done then updBlk (blkKey l.die l.block) (fun b => { b with live := b.live - 1 }) s else s)
      (updCw c.1 (fun w => { kind := .padding, nsid := w.nsid, encrypted := w.encrypted }) s)) s
  let work := (s.cws.filter fun c => slotOfCk c.1 == slot && c.2.kind == .padding && !c.2.encrypted).map (·.1)
  let s := updSe (ownerOfNs s (stripeAt s slot).nsid) (· ++ work.map .encrypt) s
  match tfind s.accums slot with
  | some a => if 0 < a.count then updAccum slot (fun a => { row := a.row, lost := true }) s else s
  | none => s
/-- Every live codeword with fewer than three copies gets new ones (R129 step 5). -/
def replayCopies (s : State) : State :=
  let late := s.cws.filter fun c => c.2.encrypted && !c.2.folded && c.2.kind != .padding && !durable c.2
  let s := late.foldl (fun s c => updCw c.1 (fun w =>
    let d := w.copies.filter (·.done)
    { w with copies := d, waiting := 3 - w.cut - d.length, cmd := none, turn := false }) s) s
  placeWaiting { s with cws := s.cws.map fun c => (c.1, { c.2 with cmd := none }) }
/-- Members of the fronds in service after their Filnas has started again: the Cut case of R103, padding still to do. -/
def replayMembers (s : State) : State :=
  (List.range 16).foldl (fun s f =>
    let g := frondAt s f
    if g.state = 0 ∨ g.state = 5 ∨ g.state = 6 then
      uncut f ((membersOf s f).foldl (fun s m => match tfind (frondAt s f).table m with
        | some r => if r.cut then memberReturn f m s else padAgain m s
        | none => s) s)
    else s) s
/-- Both owners' recovery (R129, R155); members caught in the middle of a rebuild begin again (R100). A zone whose stripe has lost a
member or a row for good is Read Only still (R144). -/
def replay (s : State) : State :=
  let s := restartRebuild s.rebuild.active (replayMembers s)
  let s := s.zones.foldl (fun s z => replayZone z.1 s) s
  let s := (s.stripes.filter fun x => x.2.used && (!x.2.lostRows.isEmpty || x.2.members.any (·.lost))).foldl (fun s x => stripeReadOnly x.1 s) s
  let s := (s.stripes.filter fun x => x.2.used && x.2.zone.isNone).foldl (fun s x => replayConv x.1 s) s
  deadBlocksAll (replayCopies s)

/-! ### The next epoch begins (R16, R375, R427). -/
/-- The largest EP that a present card's configuration store, or the epoch that ends, holds (R16). -/
def heldEp (s : State) : Nat :=
  let held := fun (c : Card) => if c.present then c.ep else 0
  max s.time.ep (max (held s.pair.ca) (held s.pair.cb))
/-- EP increments in the configuration stores (R16). -/
def raiseEp (s : State) : State :=
  let ep := (heldEp s + 1) % 2 ^ 32
  let put := fun (c : Card) => if c.present then { c with ep := ep } else c
  updPair (fun p => { p with ca := put p.ca, cb := put p.cb }) (updTime (fun t => { t with ep := ep }) s)
/-- Marker 0x0002: the previous epoch, the last FC recorded in it, how it ended (R375). -/
def epochMarker (how : Nat) (s : State) : State :=
  let l := (recAt s s.time.master).main ++ (recAt s s.time.master).reserve
  let last := (l.filter fun r => r.ep == s.time.ep).foldl (fun a r => max a r.fc) 0
  let ep := s.time.ep
  let s := updTime (fun t => { t with
    fc := 0, start := 0, len := 16000, count := 0, bus := true, resetHeld := false, past := t.past + t.fc, wall := none,
    lastEnd := how, lastWrite := 0, cleanEnd := false }) (raiseEp s)
  marker 2 (ep + last * 2 ^ 32 + how * 2 ^ 96) s
/-- WFN_BASE is one more than the largest SEQ found in the checkpoints, with the allocation SEQs of their stripe tables, and in
the seedbed scan (R126, R154). -/
def nextSeq (found : Nat) (s : State) : State :=
  let root := (s.stripes.filter fun x => x.2.used).foldl (fun a x => max a x.2.allocSeq) (max s.jA.rootSeq s.jB.rootSeq)
  let old := (s.cws.filter fun c => c.2.copies.any (·.done)).foldl (fun a c => max a c.2.seq) root
  updSeedbed (fun x => { x with wfnBase := (max found old + 1) % 2 ^ 48 }) s
/-- Fronds whose fuses a power-on has cleared, or whose link engines work again, return (R24, R401, R427). -/
def returnFronds (back : Nat → Bool) (s : State) : State :=
  ((List.range 16).filter fun f => (frondAt s f).present && back f).foldl (fun s f => frondKnown f s) s

end Sys2Proof.Machine
end

