-- ==== Sys2Proof/Machine/Barrier.lean ====
section
/-! DEFINITION. Power entry: PEU inputs and faults, the barrier links, PEU code, slot fuses (R389–R404). -/
namespace Sys2Proof.Machine
open Sys2Proof

/-! ### The PEU's own actions (R391, R399). -/
/-- Bits of FAULTS (R398). -/
def fReverse : Nat := 0
def fUnder : Nat := 1
def fOver : Nat := 2
def fOpen : Nat := 3
def fShort : Nat := 4
def fCurrent : Nat := 5
def fTemp : Nat := 6
def fBank : Nat := 7
def setBit (b : BitVec 16) (n : Nat) : BitVec 16 := b ||| (1#16 <<< n)
def clrBits (b : BitVec 16) (l : List Nat) : BitVec 16 := l.foldl (fun b n => b &&& ~~~(1#16 <<< n)) b
/-- A PEU tells each card of a fault (R395). -/
def alarm (p : PeuId) (s : State) : State :=
  let x := peuAt s p
  send (.peuAlarm p x.faults.toNat (x.m.vin % 65536).toNat x.st) s
/-- A fault: its bit, a new STATE and whether hold-up carries the output; a PEU in STATE 7 stays there (R399). -/
def peuFault (p : PeuId) (bitNo st : Nat) (hold : Bool) (s : State) : State :=
  let x := peuAt s p
  if !x.present then s
  else
    let keeps := hold && delivers x
    let s := updPeu p (fun x => { x with
      faults := setBit x.faults bitNo, st := if x.st = 7 then 7 else st, holdUp := keeps, feed := x.feed && !hold && bitNo != fOver,
      inSwitch := x.inSwitch && bitNo != fShort && bitNo != fOver && bitNo != fReverse, offAt := if bitNo = fCurrent then now s else x.offAt }) s
    busCheck (alarm p s)
/-- A restart under R391: on, STATE 6 where a command has disabled the output, or STATE 5 while the PEU is too warm (R399); the faults
of the input and the over-current are cleared. A foreign unit does not start (R2). -/
def peuRestart (p : PeuId) (s : State) : State :=
  updPeu p (fun x =>
    let hot := x.faults.getLsbD fTemp
    if !x.keltan then x else { x with
      feed := true, inSwitch := true, holdUp := false, st := if x.disabled then 6 else if hot then 5 else 2, outOn := !x.disabled && !hot,
      faults := clrBits x.faults [fReverse, fUnder, fOver, fOpen, fCurrent] }) s
/-- FEED_START (R391): 40 frames at or above 35 V start the PEU from off, from an input fault or with a new unit; an over-voltage waits for
its own recovery. -/
def execFeedStart (peu : PeuId) (s : State) : Out :=
  let x := peuAt s peu
  .next (if !x.present ∨ !x.keltan ∨ x.st = 7 ∨ x.faults.getLsbD fOver then s
    else if (x.st = 0 ∨ x.st = 1 ∨ x.st = 3) ∧ !x.holdUp then peuRestart peu s
    else updPeu peu (fun x => { x with feed := true, faults := clrBits x.faults [fReverse, fUnder, fOpen] }) s)
/-- FEED_UNDER_VOLTAGE (R391, R399): hold-up carries the output. -/
def execFeedUnderVoltage (peu : PeuId) (s : State) : Out := .next (peuFault peu fUnder 3 true s)
/-- HOLD_UP_EXPIRY (R391, R399): the output goes off; with no other PEU on, the bus is gone. -/
def execHoldUpExpiry (peu : PeuId) (s : State) : Out :=
  .next (if (peuAt s peu).holdUp then busCheck (updPeu peu (fun x => { x with holdUp := false }) s) else s)
/-- No segment is held back for a lost feed any more (R399). -/
def feedBack (s : State) : State :=
  if !s.power.feedLost then s
  else
    let s := updPower (fun p => { p with feedLost := false }) s
    { s with fronds := s.fronds.map fun f => (f.1, { f.2 with noSegs := segsOff s f.2 || (f.2.noSegs && parked s) }) }
/-- FEED_RETURN_WITHIN_HOLD_UP (R391, R399): the output stays on throughout; plans return to normal. -/
def execFeedReturnWithinHoldUp (peu : PeuId) (s : State) : Out :=
  .next (if (peuAt s peu).holdUp then
    feedBack (updPeu peu (fun x => { x with
      holdUp := false, feed := true, inSwitch := true, st := 2, faults := clrBits x.faults [fReverse, fUnder, fOpen] }) s)
  else s)
/-- FEED_OVER_VOLTAGE (R391): the input switch opens and the output goes off at once. -/
def execFeedOverVoltage (peu : PeuId) (s : State) : Out := .next (peuFault peu fOver 3 false s)
/-- OVER_VOLTAGE_RECOVERY (R391): restart as at start. -/
def execOverVoltageRecovery (peu : PeuId) (s : State) : Out :=
  let x := peuAt s peu
  .next (if x.present ∧ x.st = 3 ∧ x.faults.getLsbD fOver then peuRestart peu s else s)
/-- REVERSE_POLARITY (R399): the input switch stays open. -/
def execReversePolarity (peu : PeuId) (s : State) : Out := .next (peuFault peu fReverse 3 true s)
/-- OPEN_RETURN (R399): as a lost feed. -/
def execOpenReturn (peu : PeuId) (s : State) : Out := .next (peuFault peu fOpen 3 true s)
/-- INPUT_SHORT (R399): the input switch latches open until the PEU is removed. -/
def execInputShort (peu : PeuId) (s : State) : Out := .next (peuFault peu fShort 7 false s)
/-- OUTPUT_OVER_CURRENT (R399). -/
def execOutputOverCurrent (peu : PeuId) (s : State) : Out := .next (peuFault peu fCurrent 4 false s)
/-- HICCUP_RESTART (R399): 400 frames after an over-current. -/
def execHiccupRestart (peu : PeuId) (s : State) : Out :=
  let x := peuAt s peu
  .next (if x.present ∧ x.st = 4 ∧ elapsed s x.offAt 400 then peuRestart peu s else s)
/-- PEU_OVER_TEMPERATURE (R399). -/
def execPeuOverTemperature (peu : PeuId) (s : State) : Out := .next (peuFault peu fTemp 5 false s)
/-- PEU_TEMPERATURE_RECOVERY (R399): restart below 95 °C, where the feed is there. -/
def execPeuTemperatureRecovery (peu : PeuId) (s : State) : Out :=
  let x := peuAt s peu
  let s := updPeu peu (fun x => { x with faults := clrBits x.faults [fTemp] }) s
  .next (if x.present ∧ x.st = 5 then
    if x.feed then peuRestart peu s else updPeu peu (fun x => { x with st := if x.disabled then 6 else 3 }) s
  else s)

/-! ### What the commander sends (R396, R402, R403). -/
/-- ALIVE of the messages to a PEU from one card. -/
def aliveTo (x : Peu) : CardId → Nat | .ca => x.aliveA | .cb => x.aliveB
def bumpTo (c : CardId) (x : Peu) : Peu :=
  match c with | .ca => { x with aliveA := (x.aliveA + 1) % 256 } | .cb => { x with aliveB := (x.aliveB + 1) % 256 }
/-- One message to a PEU with the next ALIVE of a card's link. -/
def sendPeu (p : PeuId) (c : CardId) (type : Nat) (payload : List Nat) (s : State) : Nat × State :=
  let s := updPeu p (bumpTo c) s
  let a := aliveTo (peuAt s p) c
  (a, send (.barrier p c type a payload) s)
/-- The commander sends a command and keeps it until it is acknowledged (R396). -/
def command (p : PeuId) (type : Nat) (payload : List Nat) (cmd : Option (Port × Nat × Nat)) (s : State) : State :=
  let (a, s) := sendPeu p s.time.master type payload s
  updPeu p (fun x => { x with out := x.out ++ [{ type := type, alive := a, sent := now s, payload := payload, cmd := cmd }] }) s
/-- The commander reads the calibration and sends the saved current limit (R403, R404, R427). -/
def greetPeu (p : PeuId) (s : State) : State :=
  if !(peuAt s p).present ∨ !(peuAt s p).keltan then s
  else
    let s := command p 0x12 [(peuAt s p).iSaved] none (updPeu p (fun x => { x with calRead := 0 }) s)
    command p 0x30 [0] none s
/-- PEU component bytes of an image (R354). -/
def compOf (img : List Byte) (kind : Nat) : List Byte :=
  match (List.range 4).find? (fun i => fld img (1792 + 64 * i) 1 == kind) with
  | some i => slice' img (fld img (1796 + 64 * i) 4) (fld img (1800 + 64 * i) 4)
  | none => []
/-- Sends blocks while fewer than eight are unacknowledged, and IMAGE_END after the last one (R402). -/
def sendBlocks : Nat → PeuId → State → State
  | 0, _, s => s
  | n + 1, p, s =>
    let x := peuAt s p
    let open' := (x.out.filter fun t => t.type == 0x20).length
    if x.upd ≠ 2 ∨ 8 ≤ open' then s
    else if x.compNext < x.comp.length then
      sendBlocks n p (command p 0x20 (x.compNext :: (slice' x.comp x.compNext 256).map (·.toNat)) none
        (updPeu p (fun y => { y with compNext := y.compNext + 256 }) s))
    else if open' = 0 ∧ !(x.out.any fun t => t.type == 0x21) then
      command p 0x21 (x.comp.length :: (runningImage s).peuSha.map (·.toNat)) none s
    else s
/-- The other PEU is fed with its output enabled (R361, R402). -/
def otherOn (s : State) (p : PeuId) : Bool := let y := peuAt s (otherPeu p); y.present && y.st == 2 && y.outOn
/-- A waiting PEU update begins: PEU-A first, one at a time, while the other is available (R361). -/
def peuUpdate (p : PeuId) (s : State) : State :=
  let x := peuAt s p
  if x.upd = 1 ∧ x.present ∧ otherOn s p ∧ (peuAt s (otherPeu p)).upd < 2 ∧ !(p = .b ∧ s.power.peuA.upd = 1) then
    sendBlocks 9 p (updPeu p (fun x => { x with upd := 2, comp := compOf (runningImage s).image 4, compNext := 0 }) s)
  else s
/-- The serving cards run images whose component of a kind is the same (R361). -/
def agree (s : State) (g : FwSlot → List Byte) : Bool :=
  [CardId.ca, .cb].all fun c => !(cardAt s c).serving || g (activeSlot (cardAt s c)) == g (runningImage s)
/-- Running PEU code that differs from the component of the cards' images is to be updated (R361, R440). -/
def peuCheck (s : State) : State :=
  let due := fun (x : Peu) => if x.present && x.keltan && x.upd == 0 && agree s (·.peuSha) && x.code != (runningImage s).peuSha then { x with upd := 1 } else x
  peuUpdate .b (peuUpdate .a (updPeu .a due (updPeu .b due s)))

/-! ### Messages of the PEUs to the cards (R393, R395, R397–R399). -/
/-- PEU_STATUS_SEND (R395, R398): measured values, and the silence of each card. -/
def execPeuStatusSend (peu : PeuId) (meas : PeuMeasure) (s : State) : Out :=
  let x := peuAt s peu
  if !x.present ∨ !x.keltan then .next s
  else
    let silent := fun (heard : Nat) => min 255 (s.time.fc - heard)
    let st : PeuStatusMsg :=
      { m := meas, state := x.st, faults := x.faults, caSilent := silent x.heardA, cbSilent := silent x.heardB, iLimit := x.iLimit, margin := x.margin,
        bank := x.bank, updating := x.updating }
    .next (send (.peuStatus peu st) (updPeu peu (fun x => { x with m := meas, txA := (x.txA + 1) % 256, txB := (x.txB + 1) % 256 }) s))
/-- C is computed again; below the cap of the power state it posts the asynchronous event of R404. -/
def capacityStep (c0 : Nat) (s : State) : State :=
  let c := capacity s
  let s := updPower (fun p => { p with
    capacity := c, staleSince := if someCurrent s then none else match p.staleSince with | some f => some f | none => some (now s) }) s
  if c < capNow s ∧ capNow s ≤ c0 then aenPage 0xC8 s else s
/-- Alive state of a PEU's messages on one card's link. -/
def cardRx (x : Peu) : CardId → Option (BitVec 8) | .ca => x.cardRxA | .cb => x.cardRxB
def setCardRx (c : CardId) (l : Option (BitVec 8)) (x : Peu) : Peu :=
  match c with | .ca => { x with cardRxA := l } | .cb => { x with cardRxB := l }
/-- A message of a PEU passes the check of its link (R274). -/
def hear (c : CardId) (p : PeuId) (a : BitVec 8) (crcOk : Bool) (s : State) : Bool × State :=
  let (s, last, good) := alive c 0 (cardRx (peuAt s p) c) a crcOk s
  (good, updPeu p (setCardRx c last) s)
/-- STATE has left 2: the asynchronous event of R404. -/
def left2 (old new : Nat) (s : State) : State := if old = 2 ∧ new ≠ 2 then aenPage 0xC8 s else s
/-- PEU_STATUS (R393, R397, R398, R399): telemetry, C, feed restored, the end of an update. -/
def execPeuStatus (card : CardId) (peu : PeuId) (alive : BitVec 8) (crcOk : Bool) (st : PeuStatusMsg) (s : State) : Out :=
  if !(cardAt s card).serving ∨ !(peuAt s peu).keltan then .next s
  else
    let (good, s) := hear card peu alive crcOk s
    if !good then .next s
    else
      let x := peuAt s peu
      let c0 := capacity s
      let s := updPeu peu (fun x =>
        let y := { x with status := st, unknown := false }
        match card with
        | .ca => { y with atA := some (now s), downA := false }
        | .cb => { y with atB := some (now s), downB := false }) s
      let s := if card = s.time.master then updPower (fun p => { p with pinSum := p.pinSum + st.m.pin, pinN := if peu = PeuId.a ∨ !statusCurrent s s.power.peuA then p.pinN + 1 else p.pinN }) s else s
      let s := left2 x.status.state st.state s
      let s := if x.status.state ≠ 2 ∧ st.state = 2 then event 0x70A 0 (srcP peu) (obj 9 (peuNo peu)) 0 0 0 (feedBack s) else s
      let s := if x.upd = 3 ∧ !st.updating then
          peuCheck (event 0x602 0 (srcP peu) (obj 9 (peuNo peu)) 6 (runningImage s).secVersion 0 (updPeu peu (fun x => { x with upd := 0, comp := [] }) s))
        else s
      .next (capacityStep c0 s)
/-- Event codes of the faults of R399, by FAULTS bit, with their class (assumption 29). -/
def faultCode : Nat → Option Nat
  | 0 => some 0x701 | 1 => some 0x702 | 2 => some 0x704 | 3 => some 0x703 | 4 => some 0x705 | 5 => some 0x706 | 6 => some 0x707 | _ => none
/-- ALARM (R395, R399): each new fault is recorded; the last feed lost stops new segments. -/
def execAlarm (card : CardId) (peu : PeuId) (alive : BitVec 8) (faults : BitVec 16) (vin : Int) (st : Nat) (s : State) : Out :=
  if !(cardAt s card).serving ∨ !(peuAt s peu).keltan then .next s
  else
    let (good, s) := hear card peu alive true s
    if !good then .next s
    else
      let x := peuAt s peu
      let c0 := capacity s
      let new := (List.range 8).filter fun n => faults.getLsbD n && !x.status.faults.getLsbD n
      let s := new.foldl (fun s n => match faultCode n with
        | some code => event code 1 (srcP peu) (obj 9 (peuNo peu)) 0 0 0 s
        | none => s) s
      let s := if new.contains fReverse then aenPage 0xC8 s else s
      let s := updPeu peu (fun x => { x with status := { x.status with faults := faults, state := st, m := { x.status.m with vin := vin } } }) s
      let s := left2 x.status.state st s
      let o := peuAt s (otherPeu peu)
      let last := (new.contains fUnder || new.contains fOpen) && !(o.present && o.status.state == 2)
      let s := if last ∧ !s.power.feedLost then
          let s := event 0x709 2 (srcP peu) (obj 9 (peuNo peu)) 0 0 0 (updPower (fun p => { p with feedLost := true }) s)
          (List.range 16).foldl (fun s f => updFrond f (fun g => { g with noSegs := true }) s) s
        else s
      .next (capacityStep c0 s)
/-- STATUS_SILENCE (R397, R399): a link without a valid STATUS for 16 frames is down. -/
def execStatusSilence (card : CardId) (peu : PeuId) (s : State) : Out :=
  let x := peuAt s peu
  let (at', down) := match card with | .ca => (x.atA, x.downA) | .cb => (x.atB, x.downB)
  let silent := match at' with | some f => elapsed s f 16 | none => true
  if !(cardAt s card).serving ∨ down ∨ !silent then .next s
  else
    let c0 := capacity s
    let s := updPeu peu (fun x => match card with | .ca => { x with downA := true, atA := none } | .cb => { x with downB := true, atB := none }) s
    .next (capacityStep c0 (event 0x708 1 (srcQ card) (obj 9 (peuNo peu)) 0 0 0 s))
/-- CAPACITY_FALLBACK (R393): 400 frames without a current STATUS. -/
def execCapacityFallback (s : State) : Out :=
  match s.power.staleSince with
  | some f =>
    if someCurrent s ∨ !elapsed s f 400 then .next s
    else
      let c0 := s.power.capacity
      let s := updPower (fun p => { p with capacity := 150 }) s
      .next (if 150 < capNow s ∧ capNow s ≤ c0 then aenPage 0xC8 s else s)
  | none => .next s

/-! ### Messages of the cards at a PEU (R395, R396, R402, R403). -/
/-- A message of a card passes the check of the PEU's link and ends the card's silence (R274, R398); a foreign unit takes part in
nothing (R2). -/
def peuHears (p : PeuId) (m : BarrierCmd) (s : State) : Bool × State :=
  let x := peuAt s p
  let r := aliveCheck {} (match m.card with | .ca => x.rxA | .cb => x.rxB) m.alive m.crcOk
  if !x.present ∨ !x.keltan ∨ !r.2.2 then (false, s)
  else (true, updPeu p (fun x => match m.card with
    | .ca => { x with rxA := r.2.1, heardA := s.time.fc }
    | .cb => { x with rxB := r.2.1, heardB := s.time.fc }) s)
/-- ACK or NAK of a command (R395). -/
def peuAck (p : PeuId) (m : BarrierCmd) (type result data : Nat) (s : State) : State :=
  send (.peuAck p m.card type m.alive.toNat result data)
    (updPeu p (fun x => match m.card with | .ca => { x with txA := (x.txA + 1) % 256 } | .cb => { x with txB := (x.txB + 1) % 256 }) s)
/-- A command from the commander runs; from the other card it gets NAK 2 (R396). -/
def atPeu (p : PeuId) (m : BarrierCmd) (type : Nat) (run : State → Nat × Nat × State) (s : State) : State :=
  let (good, s) := peuHears p m s
  if !good then s
  else if m.card ≠ s.time.master then peuAck p m type 2 0 s
  else
    let r := run s
    peuAck p m type r.1 r.2.1 r.2.2
/-- CARD_STATUS (R395, R398). -/
def execCardStatus (peu : PeuId) (card : CardId) (alive : BitVec 8) (crcOk : Bool) (s : State) : Out :=
  .next (peuHears peu { card := card, alive := alive, crcOk := crcOk } s).2
/-- OUTPUT_ENABLE (R395, R404): a restart under R391. -/
def execOutputEnable (peu : PeuId) (m : BarrierCmd) (s : State) : Out :=
  .next (atPeu peu m 0x10 (fun s =>
    let s := updPeu peu (fun x => { x with disabled := false }) s
    let x := peuAt s peu
    (0, 0, if x.st = 6 ∧ x.feed then peuRestart peu s else if x.st = 6 then updPeu peu (fun x => { x with st := 0 }) s else s)) s)
/-- OUTPUT_DISABLE (R395, R404): STATE 6. -/
def execOutputDisable (peu : PeuId) (m : BarrierCmd) (s : State) : Out :=
  .next (busCheck (atPeu peu m 0x11 (fun s =>
    (0, 0, updPeu peu (fun x => { x with disabled := true, outOn := false, holdUp := false, st := if x.st = 7 then 7 else 6 }) s)) s))
/-- CURRENT_LIMIT_SET (R395): 4.0 to 10.0 A. -/
def execCurrentLimitSet (peu : PeuId) (m : BarrierCmd) (limit : Nat) (s : State) : Out :=
  .next (atPeu peu m 0x12 (fun s =>
    if 40 ≤ limit ∧ limit ≤ 100 then (0, 0, updPeu peu (fun x => { x with iLimit := limit }) s) else (1, 0, s)) s)
/-- MARGIN_SET (R395): −5.0 to +5.0 %. -/
def execMarginSet (peu : PeuId) (m : BarrierCmd) (margin : Int) (s : State) : Out :=
  .next (atPeu peu m 0x13 (fun s =>
    if -50 ≤ margin ∧ margin ≤ 50 then (0, 0, updPeu peu (fun x => { x with margin := margin }) s) else (1, 0, s)) s)
/-- IMAGE_BLOCK (R402): 256 bytes into the idle bank. -/
def execImageBlock (peu : PeuId) (m : BarrierCmd) (offset : Nat) (bytes : List Byte) (s : State) : Out :=
  .next (atPeu peu m 0x20 (fun s =>
    if bytes.length = 256 ∧ offset % 256 = 0 ∧ offset + 256 ≤ 524288 then
      (0, 0, updPeu peu (fun x => { x with updating := true, checked := false, blocks := tins x.blocks offset bytes }) s)
    else (1, 0, s)) s)
/-- IMAGE_END (R402): the hash decides; the active bank's own hash ends the update. -/
def execImageEnd (peu : PeuId) (m : BarrierCmd) (length : Nat) (sha : List Byte) (s : State) : Out :=
  .next (atPeu peu m 0x21 (fun s =>
    let x := peuAt s peu
    let code := ((List.range (cdiv length 256)).flatMap fun i => fitTo 256 (tget [] x.blocks (i * 256))).take length
    if Config.sha256 code ≠ sha then (1, 0, s)
    else if sha = x.code then (0, 0, updPeu peu (fun x => { x with updating := false, checked := false, blocks := [] }) s)
    else (0, 0, updPeu peu (fun x => { x with checked := true, idle := sha }) s)) s)
/-- IMAGE_ACTIVATE (R402): the banks switch while the other PEU is on. -/
def execImageActivate (peu : PeuId) (m : BarrierCmd) (s : State) : Out :=
  .next (atPeu peu m 0x22 (fun s =>
    let x := peuAt s peu
    if x.checked ∧ otherOn s peu then
      (0, 0, updPeu peu (fun x => { x with bank := !x.bank, code := x.idle, idle := x.code, checked := false, updating := false, blocks := [] }) s)
    else (3, 0, s)) s)
/-- PEU_UPDATING_TIMEOUT (R402): 400 frames after its activation the PEU goes back to the old bank, with FAULTS bit 7. -/
def execPeuUpdatingTimeout (peu : PeuId) (s : State) : Out :=
  let x := peuAt s peu
  .next (if x.present ∧ x.upd = 3 ∧ !x.checked ∧ elapsed s x.actFc 400 then
    alarm peu (updPeu peu (fun x => { x with
      bank := !x.bank, code := x.idle, idle := x.code, updating := false, faults := setBit x.faults fBank, upd := 0, comp := [] }) s)
  else s)
/-- PEU_ACTIVATE_RETRY (R402): the commander tries again. -/
def execPeuActivateRetry (peu : PeuId) (s : State) : Out :=
  let x := peuAt s peu
  .next (if x.present ∧ x.upd = 3 ∧ !(x.out.any fun t => t.type == 0x22) ∧ elapsed s x.actFc 400 then
    command peu 0x22 [] none (updPeu peu (fun x => { x with actFc := now s }) s) else s)
/-- Calibration value n of a PEU (R403). -/
def calOf (x : Peu) (p : PeuId) (n : Nat) : BitVec 32 := match tfind x.cal n with | some v => v | none => Config.calibration (peuNo p) n
/-- CAL_READ (R403). -/
def execCalRead (peu : PeuId) (m : BarrierCmd) (index : Nat) (s : State) : Out :=
  .next (atPeu peu m 0x30 (fun s => if index < 256 then (0, (calOf (peuAt s peu) peu index).toNat, s) else (1, 0, s)) s)
/-- CAL_WRITE (R403): at guard level 0, with a change record. -/
def execCalWrite (peu : PeuId) (m : BarrierCmd) (index : Nat) (value : BitVec 32) (s : State) : Out :=
  .next (atPeu peu m 0x31 (fun s =>
    if 256 ≤ index then (1, 0, s)
    else if s.sec.level ≠ 0 then (2, 0, s)
    else (0, 0, change 0 index 5 0 0 0 0 [] none (updPeu peu (fun x => { x with cal := tins x.cal index value }) s))) s)
/-- BARRIER_UNKNOWN_TYPE (R395): NAK 2 at a PEU; discarded and counted as a CRC failure at a card. -/
def execBarrierUnknownType (peu : PeuId) (atPeu : Bool) (m : BarrierCmd) (type : BitVec 8) (s : State) : Out :=
  if atPeu then
    let (good, s) := peuHears peu m s
    .next (if good then peuAck peu m type.toNat 2 0 s else s)
  else
    .next (updMem m.card (fun x => { x with
      alive := x.alive.set 0 { (x.alive.getD 0 {}) with crcFails := ((x.alive.getD 0 {}).crcFails + 1) % 2 ^ 32 } }) s)

/-! ### Acknowledgements and retries at the commander (R396, R402, R404). -/
/-- A Power Entry Control command ends: its change record, then its completion (R348, R404). -/
def peuCtlEnd (cmd : Option (Port × Nat × Nat)) (action : Nat) (st : Nat × Nat) (s : State) : State :=
  match cmd with
  | some (p, cid, _) => finishChange { port := p, cid := cid, opc := 0xEC } action st 0 0 [] s
  | none => s
/-- PEU_ACTION of a barrier command (R404). -/
def actionOf (type : Nat) : Nat := type - 0x10
/-- ACK_NAK (R396): the command it names is done, refused or, for IMAGE_ACTIVATE, to be tried again. -/
def execAckNak (card : CardId) (peu : PeuId) (type alive : BitVec 8) (result : Nat) (_data : BitVec 32) (s : State) : Out :=
  let x := peuAt s peu
  match (if (cardAt s card).serving then x.out.find? (fun t => t.type == type.toNat && t.alive == alive.toNat) else none) with
  | none => .next s
  | some t =>
    let s := updPeu peu (fun x => { x with out := x.out.filter (· ≠ t) }) s
    if result ≠ 0 then
      let s := peuCtlEnd t.cmd (actionOf t.type) (if result = 1 then invalidField else internalError) s
      .next (if t.type = 0x21 ∨ (t.type = 0x20) then
          event 0x7FF 1 (srcQ card) (obj 9 (peuNo peu)) 402 0 0 (updPeu peu (fun x => { x with upd := 0, comp := [] }) s)
        else s)
    else
      let s := if t.type = 0x12 then updPeu peu (fun x => { x with iSaved := if t.cmd.isSome then t.payload.getD 0 100 else x.iSaved }) s else s
      let s := peuCtlEnd t.cmd (actionOf t.type) (0, 0) s
      .next (match t.type with
        | 0x20 => sendBlocks 9 peu s
        | 0x21 =>
          if (runningImage s).peuSha = (peuAt s peu).code then peuCheck (updPeu peu (fun x => { x with upd := 0, comp := [] }) s)
          else command peu 0x22 [] none (updPeu peu (fun x => { x with upd := 3, actFc := now s }) s)
        | 0x30 =>
          let n := (peuAt s peu).calRead + 1
          let s := updPeu peu (fun x => { x with calRead := n }) s
          if n < 256 then command peu 0x30 [n] none s else s
        | _ => s)
/-- BARRIER_COMMAND_TIMEOUT (R396): 8 frames without an answer; three retries, then the partner's link with the same rule, then a failure. -/
def execBarrierCommandTimeout (peu : PeuId) (s : State) : Out :=
  match (peuAt s peu).out.find? (fun t => elapsed s t.sent 8) with
  | none => .next s
  | some t =>
    let again := fun (y : BarrierTx) (c : CardId) (s : State) =>
      let (a, s) := sendPeu peu c t.type t.payload s
      updPeu peu (fun x => { x with out := x.out.replace t { y with alive := a, sent := now s } }) s
    let c := if t.viaPartner then other s.time.master else s.time.master
    if t.retries < 3 then .next (again { t with retries := t.retries + 1 } c s)
    else if !t.viaPartner ∧ bothServe s then .next (again { t with retries := 0, viaPartner := true } (other s.time.master) s)
    else
      let s := updPeu peu (fun x => { x with out := x.out.erase t, unknown := true, upd := if t.type = 0x20 ∨ t.type = 0x21 then 0 else x.upd }) s
      .next (peuCtlEnd t.cmd (actionOf t.type) internalError
        (event 0x7FF 1 (srcQ s.time.master) (obj 9 (peuNo peu)) 396 0 0 s))

/-! ### Slot fuses (R400, R401). -/
/-- OBJECT of a slot. -/
def slotObj : FuseSlot → Nat | .frond f => obj 4 f.val | .card c => obj 8 (cardNo c)
/-- The unit in a slot whose fuse has tripped is gone (R94, R292, R401); a foreign unit was not there for the module (R2). -/
def slotOff (slot : FuseSlot) (s : State) : State :=
  match slot with
  | .frond f =>
    let g := frondAt s f.val
    if g.state = 0 ∨ g.state = 5 ∨ g.state = 6 then updFrond f.val (fun g => { g with hidden := 2 }) (frondDepart f.val 9 s)
    else if g.state = 1 ∨ g.state = 2 then updFrond f.val (fun x => { x with hidden := g.state }) (frondState f.val 9 s) else s
  | .card c =>
    if (cardAt s c).why = .foreign then s else updCard c (fun x => { x with fuseOn := false, entering := 0, held := false }) (cardOut c 3 .outOfService s)
/-- FUSE_TRIP (R401): the slot turns off; a trip after the third retry latches. -/
def execFuseTrip (slot : FuseSlot) (s : State) : Out :=
  let k := fuseNo slot
  let x := fuseAt s k
  if x.off ∨ x.latched then .next s
  else
    let latch := decide (3 ≤ x.retries)
    let s := updFuse k (fun x => { x with
      off := true, latched := latch, onSince := none, trip := match x.trip with | some f => some f | none => some (now s) }) s
    let s := event 0x710 1 (srcQ s.time.master) (slotObj slot) 0 0 0 s
    let s := if latch then aenPage 0xC8 (event 0x711 2 (srcQ s.time.master) (slotObj slot) 0 0 0 s) else s
    .next (slotOff slot s)
/-- The identity of a frond whose slot is switched on again: as it was read when it was inserted, its failed dies and factory-bad positions
as they are. -/
def frondId (s : State) (f : Nat) : FrondIdent :=
  let g := frondAt s f
  g.ident.getD { serial := g.serial, store := g.store, failed := (List.range 256).filter fun i => decide (2 ≤ (dieAt s (f * 256 + i)).state),
                 factoryBad := (s.blks.filter fun b => frondOfDie (b.1 / 4096) == f && b.2.state == 9).map fun b => b.1 % (256 * 4096) }
/-- The fuse of a frond slot is switched on again: a known frond returns, one that has been declared lost is a new frond, one that was held
in the slot is held again (R102, R401, R435). -/
def frondOn (f : Nat) (s : State) : State :=
  let g := frondAt s f
  if !g.present ∨ g.state ≠ 9 then s
  else if g.insert = 1 ∨ g.insert = 2 then frondState f g.hidden s
  else if g.hidden = 4 then untrain f (frondNew f (frondId s f) s)
  else if g.hasRecord ∧ g.serial = g.record then frondKnown f (untrain f s)
  else frondState f g.hidden s
/-- The fuse of a slot is switched on again; a card starts (R300, R401), a foreign unit does not (R2). -/
def slotOn (slot : FuseSlot) (s : State) : State :=
  match slot with
  | .frond f => frondOn f.val s
  | .card c => if (cardAt s c).present ∧ (cardAt s c).why ≠ .foreign then updCard c (fun x => { x with fuseOn := true, why := .none, entering := 1 }) s else s
/-- A retry is made now. -/
def fuseRetryNow (slot : FuseSlot) (s : State) : State :=
  slotOn slot (updFuse (fuseNo slot) (fun x => { x with off := false, retries := x.retries + 1, onSince := some (now s), due := false }) s)
/-- FUSE_RETRY (R401): 4,000, 8,000 and 12,000 frames after the trip; in PS4 a frond slot's retry is made at wake. -/
def execFuseRetry (slot : FuseSlot) (s : State) : Out :=
  let k := fuseNo slot
  let x := fuseAt s k
  match x.trip with
  | some t =>
    if !x.off ∨ x.latched ∨ 3 ≤ x.retries ∨ !elapsed s t (4000 * (x.retries + 1)) then .next s
    else if s.power.ps = 4 ∧ k < 16 then .next (updFuse k (fun x => { x with due := true }) s)
    else .next (fuseRetryNow slot s)
  | none => .next s
/-- FUSE_HOLD_RESET (R401): a retry that holds for 40,000 frames resets the count. -/
def execFuseHoldReset (slot : FuseSlot) (s : State) : Out :=
  let k := fuseNo slot
  match (fuseAt s k).onSince with
  | some f => .next (if elapsed s f 40000 then updFuse k (fun _ => {}) s else s)
  | none => .next s

end Sys2Proof.Machine
end

