-- ==== Sys2Proof/Machine/Thermal.lean ====
section
/-! DEFINITION. Temperature sensors, thermal factors, shutdown actions and broken sensors (R419–R422). -/
namespace Sys2Proof.Machine
open Sys2Proof

/-- Number of a sensor: junction 0–23, DRAM 24–31, Filnas 32–63, packages 64–575, PEU 576–583 (assumption 31). -/
def sensorNo : SensorId → Nat
  | .junction c n => cardNo c * 12 + n
  | .dram c n => 24 + cardNo c * 4 + n
  | .filnas f n => 32 + f.val * 2 + n
  | .package f n => 64 + f.val * 32 + n
  | .peu p n => 576 + peuNo p * 4 + n
/-- The sensor exists (R419). -/
def sensorOk : SensorId → Bool
  | .junction _ n => decide (n < 12) | .dram _ n => decide (n < 4) | .filnas _ n => decide (n < 2)
  | .package _ n => decide (n < 32) | .peu _ n => decide (n < 4)
/-- A frond has power: it is present, its fuse is on, and its slot is not switched off (R401, R407, R433). -/
def frondPowered (s : State) (f : Nat) : Bool :=
  let g := frondAt s f
  g.present && !(fuseAt s f).off && g.prepared != 2 && g.state != 7 && s.power.ps != 4 && s.time.bus
/-- The unit of a sensor has power and reports it. -/
def sensorOn (s : State) : SensorId → Bool
  | .junction c _ | .dram c _ => (cardAt s c).serving
  | .filnas f _ | .package f _ => frondPowered s f.val
  | .peu p _ => (peuAt s p).present
/-- Throttle and critical points in eighths of a degree, by sensor number (R420, R423). -/
def throttleOfNo (w : Power) (n : Nat) : Int :=
  (if n < 24 then w.qjThr else if n < 32 then w.dramThr else if n < 64 then w.filThr else if n < 576 then w.pkgThr else 100 : Nat) * 8
def critOfNo (n : Nat) : Int := if n < 24 then 880 else if n < 32 then 760 else if n < 64 then 880 else if n < 576 then 640 else 880
/-- The reading that counts: a broken sensor reads exactly its critical point (R422). -/
def countedTemp (w : Power) (n : Nat) : Option Int := if w.broken.contains n then some (critOfNo n) else tget none w.temps n
/-- F of one reading (R420). -/
def factorOf (t p : Int) : Nat := if t ≤ p then 64 else max 16 (64 - (t - p).toNat)
/-- Lowest factor of a list of sensors (R420). -/
def lowest (w : Power) (l : List Nat) : Nat :=
  l.foldl (fun a n => match countedTemp w n with | some t => min a (factorOf t (throttleOfNo w n)) | none => a) 64
/-- Sensors of the domains: frond 0–15, Quihar 16–17, DRAM 18–19, PEU 20–21 (R420). -/
def sensorsOf (d : Nat) : List Nat :=
  if d < 16 then (List.range 32).map (64 + d * 32 + ·) ++ [32 + d * 2, 33 + d * 2]
  else if d < 18 then (List.range 12).map ((d - 16) * 12 + ·)
  else if d < 20 then (List.range 4).map (24 + (d - 18) * 4 + ·)
  else (List.range 4).map (576 + (d - 20) * 4 + ·)
/-- OBJECT of a domain. -/
def domainObj (d : Nat) : Nat := if d < 16 then obj 4 d else if d < 20 then obj 8 (d % 2) else obj 9 (d - 20)
/-- A domain's factor; the frequency of a Quihar follows it from the next frame on (R419). -/
def setFactor (d v : Nat) (s : State) : State :=
  if d < 16 then updPower (fun p => { p with frondF := tput 64 p.frondF d v }) s
  else match d with
  | 16 => updCard .ca (fun c => { c with qFactor := v }) s
  | 17 => updCard .cb (fun c => { c with qFactor := v }) s
  | 18 => updCard .ca (fun c => { c with dFactor := v }) s
  | 19 => updCard .cb (fun c => { c with dFactor := v }) s
  | 20 => updPeu .a (fun x => { x with factor := v }) s
  | _ => updPeu .b (fun x => { x with factor := v }) s
/-- One domain: its factor, and event 0x0726 when it first falls below 64 and when it returns (R420, R426). -/
def domainStep (d : Nat) (s : State) : State :=
  let v := lowest s.power (sensorsOf d)
  let was := s.power.throttledNow.contains d
  let s := setFactor d v s
  if v < 64 ∧ !was then
    aenPage 0xC8 (event 0x726 1 (srcQ s.time.master) (domainObj d) 0 v 0 (updPower (fun p => { p with throttledNow := p.throttledNow ++ [d] }) s))
  else if v = 64 ∧ was then
    event 0x726 1 (srcQ s.time.master) (domainObj d) 0 v 0 (updPower (fun p => { p with throttledNow := p.throttledNow.filter (· ≠ d) }) s)
  else s
/-- Every valid reading of a list of sensors lies below its critical point. -/
def belowCrit (w : Power) (l : List Nat) : Bool :=
  l.all fun n => w.broken.contains n || (match tget none w.temps n with | some t => decide (t < critOfNo n) | none => true)
/-- A shutdown action ends once the readings are below the critical point (R421). -/
def shutdownEnd (s : State) : State :=
  let s := (List.range 16).foldl (fun s f =>
    if (frondAt s f).shutdown && belowCrit s.power (sensorsOf f) then
      updFrond f (fun g => { g with noSegs := segsOff s { g with shutdown := false } || parked s }) (updFrond f (fun g => { g with shutdown := false }) s)
    else s) s
  let dram := fun (c : CardId) (s : State) =>
    if (cardAt s c).writesOff && belowCrit s.power (sensorsOf (18 + cardNo c)) then updCard c (fun x => { x with writesOff := false }) s else s
  dram .ca (dram .cb s)
/-- Factors of every domain, and C under the PEU factors (R393, R420). -/
def thermalStep (s : State) : State :=
  let c0 := capacity s
  capacityStep c0 (shutdownEnd ((List.range 22).foldl (fun s d => domainStep d s) s))
/-- A reading is entered; readings of unpowered units, and invalid ones, are not (R419, R422). A package that has moved by
RECAL_TEMP has its dies' groups recalibrated (R76). -/
def enterReading (r : SensorReading) (s : State) : State :=
  if sensorOk r.id && sensorOn s r.id && decide (-320 ≤ r.t ∧ r.t ≤ 1200) then
    let s := updPower (fun p => { p with temps := tput none p.temps (sensorNo r.id) (some r.t) }) s
    match r.id with
    | .package f n => recalTemp (f.val * 32 + n) (r.t / 8).toNat s
    | _ => s
  else s
/-- Readings of a unit without power are not kept (R424, R425). -/
def dropReadings (s : State) : State :=
  updPower (fun p => { p with temps := p.temps.filter fun x => if 32 ≤ x.1 ∧ x.1 < 64 then frondPowered s ((x.1 - 32) / 2)
    else if 64 ≤ x.1 ∧ x.1 < 576 then frondPowered s ((x.1 - 64) / 32) else true }) s
/-- The hottest package of a frond in the round, the lowest number on a tie (R419). -/
def hottest (w : Power) (f : Nat) : Option Nat :=
  ((List.range 32).foldl (fun (a : Option (Nat × Int)) n => match tget none w.temps (64 + f * 32 + n), a with
    | some t, none => some (n, t)
    | some t, some (m, u) => if u < t then some (n, t) else some (m, u)
    | none, a => a) none).map (·.1)
/-- SENSOR_SLOW_ROUND (R419, R420). -/
def execSensorSlowRound (readings : List SensorReading) (s : State) : Out :=
  let s := dropReadings (readings.foldl (fun s r => enterReading r s) s)
  let s := (List.range 16).foldl (fun s f => match hottest s.power f with
    | some n => updPower (fun p => { p with hotPkg := tput 0 p.hotPkg f n }) s
    | none => s) s
  .next (thermalStep s)
/-- THERMAL_SHUTDOWN (R408, R421, R426): the sensor reads 5 °C above its critical point, if no round has read it higher (assumption 203). -/
def execThermalShutdown (sensor : SensorId) (s : State) : Out :=
  let n := sensorNo sensor
  if !sensorOk sensor ∨ !sensorOn s sensor ∨ s.power.broken.contains n then .next s
  else
    let s := aenPage 0xC8 (event 0x729 2 (srcQ s.time.master) (obj 12 n) 0 0 0 s)
    let s := updPower (fun p => { p with temps := tput none p.temps n (some (max ((tget none p.temps n).getD 0) (critOfNo n + 40))) }) s
    .next (wakeEvent none (match sensor with
      | .package f _ | .filnas f _ => updFrond f.val (fun g => { g with shutdown := true, noSegs := true }) s
      | .junction c _ => cardOut c 1 .outOfService s
      | .dram c _ => updCard c (fun x => { x with writesOff := true }) s
      | .peu _ _ => s))
/-- Broken sensors of a frond. -/
def brokenOf (s : State) (f : Nat) : Nat := (s.power.broken.filter fun n => (sensorsOf f).contains n).length
/-- SENSOR_BROKEN (R422): the domain runs at the floor; the fourth of a frond flags it for service. -/
def execSensorBroken (sensor : SensorId) (s : State) : Out :=
  let n := sensorNo sensor
  if !sensorOk sensor ∨ !sensorOn s sensor ∨ s.power.broken.contains n then .next s
  else
    let s := updPower (fun p => { p with broken := insertBy (fun a b => a < b) n p.broken }) s
    let s := aenPage 0xC8 (event 0x727 1 (srcQ s.time.master) (obj 12 n) 1 0 0 s)
    let s := match sensor with
      | .package f _ | .filnas f _ =>
        if 4 ≤ brokenOf s f.val ∧ !(frondAt s f.val).service then
          aenPage 0xC8 (event 0x728 1 (srcQ s.time.master) (obj 4 f.val) 0 0 0 (updFrond f.val (fun g => { g with service := true }) s))
        else s
      | _ => s
    .next (thermalStep s)
/-- SENSOR_VALID_AGAIN (R422). -/
def execSensorValidAgain (sensor : SensorId) (s : State) : Out :=
  let n := sensorNo sensor
  if s.power.broken.contains n then
    .next (thermalStep (event 0x727 1 (srcQ s.time.master) (obj 12 n) 0 0 0 (updPower (fun p => { p with broken := p.broken.filter (· ≠ n) }) s)))
  else .next s

end Sys2Proof.Machine
end

