-- ==== Sys2Proof/Machine/Start.lean ====
section
/-! DEFINITION. Start-up and resets of the module, the starts of its cards, failed engines (R2, R24, R302, R304, R359, R360,
R362, R363, R427–R430, R437, R438, R454). -/
namespace Sys2Proof.Machine
open Sys2Proof

/-! ### Failed engines (R24). -/
/-- Engines of one kind on a card that are out: control cores 0–15, stream engines 16–39, link engines 40–55, housekeeping
engines 56–63. -/
def enginesOut (s : State) (c : CardId) (lo hi : Nat) : Nat :=
  ((List.range (hi - lo)).filter fun i => let e := engAt s (cardNo c * 64 + lo + i); e.failed || e.forGood).length
/-- Failures of one kind within the power epoch (R24): an engine that an earlier epoch's self-test failed is out and not counted. -/
def enginesFailed (s : State) (c : CardId) (lo hi : Nat) : Nat :=
  ((List.range (hi - lo)).filter fun i => (engAt s (cardNo c * 64 + lo + i)).failed).length
def engineRange (i : Nat) : Nat × Nat := if i < 16 then (0, 16) else if i < 40 then (16, 40) else if i < 56 then (40, 56) else (56, 64)
/-- The failures leave the card unable to serve (R24). -/
def tooFew (s : State) (c : CardId) : Bool :=
  decide (5 ≤ enginesFailed s c 0 16) || decide (8 < enginesOut s c 16 40) || decide (2 ≤ enginesFailed s c 56 64)
/-- An engine of a card is stopped as failed: event 0x0401, and the soak count restarts (R24, R362). -/
def engineOut (c : CardId) (i how : Nat) (s : State) : State :=
  let s := updEng (cardNo c * 64 + i) (fun e => { e with failed := true, forGood := e.forGood || how == 0, winnow := none }) s
  let r := engineRange i
  updCard c (fun x => { x with soakAt := now s })
    (event 0x401 2 (srcQ c) (obj 11 (cardNo c * 64 + i)) how (enginesFailed s c r.1 r.2) 0 s)

/-! ### DRAM ranks at a start (R264, R269, R280). -/
/-- OBJECT of a rank. -/
def rankObj (card : CardId) (n : Nat) : Nat := obj 10 (cardNo card * 8 + n)
def rankAt (s : State) (card : CardId) (n : Nat) : Rank := tget {} (memAt s card).ranks n
def updRank (card : CardId) (n : Nat) (g : Rank → Rank) (s : State) : State := updMem card (fun m => { m with ranks := tupd {} m.ranks n g }) s
/-- The card runs without a spare rank: event 0x0406 and the event of log page 0xCB (R269, R280). -/
def noSpare (card : CardId) (s : State) : State :=
  aenPage 0xCB (event 0x406 1 (srcQ card) (obj 8 (cardNo card)) 0 0 0
    (updMem card (fun m => { m with spare := none, noSpareFc := s.time.fc }) s))
/-- A rank is retired: why 0 training, 1 uncorrectable error (R264, R269). -/
def retire (card : CardId) (n why : Nat) (s : State) : State :=
  aenPage 0xCB (event 0x405 2 (srcQ card) (rankObj card n) why 0 0 (updMem card (rankRole n 9) s))
/-- The DRAM sensor of a rank's channel, in °C. -/
def rankTemp (s : State) (card : CardId) (n : Nat) : Option Int := (tget none s.power.temps (24 + cardNo card * 4 + n / 2)).map (· / 8)
/-- Ranks whose training failed at a start: the operand of CARD_START names rank r as 64 + r. -/
def ranksFailed (s : State) (card : CardId) (bad : List Nat) : List Nat :=
  (List.range 8).filter fun r => bad.contains (64 + r) && (rankAt s card r).role != 9
/-- A rank that fails its training is retired and the spare takes its slot (R264). -/
def rankFails (card : CardId) (s : State) (r : Nat) : State :=
  let s := retire card r 0 s
  match (memAt s card).spare with
  | none => s
  | some y => noSpare card (if y = r then s else updMem card (rankSwitch r y) s)
/-- A slot of the rank table is left without a rank in service (R264). -/
def slotLost (s : State) (card : CardId) : Bool := (memAt s card).table.any fun r => (rankAt s card r).role == 9
/-- What the training of a start leaves of each rank in use: its temperature, its narrowest eye, its counts (R264, R279). -/
def ranksTrained (card : CardId) (s : State) : State :=
  let one := fun (n : Nat) (r : Rank) => if r.role = 9 then r else { r with
    temp := ((rankTemp s card n).map Int.toNat).getD r.temp, eye := Config.rankEye (cardNo card * 8 + n) (now s) % 256
    trainings := (r.trainings + 1) % 2 ^ 32, trainFc := s.time.fc, trainEp := s.time.ep, recent := [] }
  updMem card (fun m => { m with ranks := m.ranks.map fun r => (r.1, one r.1 r.2) }) s
/-- The self-test and the training of a card's start, with what failed (R24, R264). -/
def selfTest (card : CardId) (bad : List Nat) (s : State) : State :=
  (ranksFailed s card bad).foldl (rankFails card) ((bad.filter (· < 64)).foldl (fun s i => engineOut card i 0 s) s)
/-- A card that has too few engines or ranks stays held (R24, R264). -/
def unfit (s : State) (card : CardId) : Bool := tooFew s card || slotLost s card

/-! ### Images at a start (R359, R360, R363). -/
/-- Slot n of a card. -/
def slotOf (c : Card) (n : Nat) : FwSlot := if n = 2 then c.slot2 else c.slot1
def setSlot (n : Nat) (w : FwSlot) (c : Card) : Card := if n = 2 then { c with slot2 := w } else { c with slot1 := w }
/-- The slot that a card does not run. -/
def idleSlot (c : Card) : Nat := if c.active = 2 then 1 else 2
/-- Event 0x0602 (R467). -/
def fwEvent (ob what sec : Nat) (s : State) : State := event 0x602 0 (srcQ s.time.master) ob what sec 0 s
/-- The image that a start runs: slot, whether it becomes active by a commit, whether the card fell back; none holds the
card. -/
def startSlot (c : Card) (activeOk otherOk : Bool) : Option (Nat × Bool × Bool) :=
  let new := c.nextSlot != 0 && c.nextSlot != c.active
  let want := if new then c.nextSlot else c.active
  let alt := if want = 2 then 1 else 2
  let back := !new && (!(slotOf c want).confirmed || c.fallBack)
  let altOk := otherOk && (slotOf c alt).confirmed && (slotOf c alt).valid
  if !back && activeOk && (slotOf c want).valid then some (want, new, false)
  else if altOk then some (alt, false, back || !new)
  else none
/-- A fallback is recorded and announced (R363). -/
def fellBack (card : CardId) (s : State) : State :=
  aenPort (portOf card) 2 1 3 (fwEvent (obj 8 (cardNo card)) 3 (activeSlot (cardAt s card)).secVersion s)
/-- A card runs the image of a slot from now on. -/
def runSlot (card : CardId) (n : Nat) (new back : Bool) (s : State) : State :=
  let s := updCard card (fun c => { c with
    active := n, nextSlot := 0, fallBack := false, window := if new then some (now s) else none, soakAt := now s }) s
  let s := if new then fwEvent (obj 8 (cardNo card)) 1 (activeSlot (cardAt s card)).secVersion s else s
  if back then fellBack card s else s

/-! ### A card comes into service at the start of the module (R427, R438). -/
/-- The running code of the fronds and PEUs, as the first card of an epoch loads it; units that the image does not admit are
foreign (R2, R360). -/
def loadUnits (s : State) : State :=
  let w := runningImage s
  let s := (List.range 16).foldl (fun s f =>
    let g := frondAt s f
    if g.state = 0 ∨ g.state = 5 ∨ g.state = 6 then
      if bit w.hwFrond (frondRev s f) then updFrond f (fun g => { g with code := w.filnasSha, follows := s.time.master }) s
      else updFrond f (fun g => { g with hidden := 2 }) (frondDepart f 7 s)
    else s) s
  let s := [PeuId.a, .b].foldl (fun s p =>
    if (peuAt s p).present ∧ (peuAt s p).keltan ∧ !bit w.hwPeu (peuRev s p) then updPeu p (fun x => { x with keltan := false }) s else s) s
  peuCheck (greetPeu .b (greetPeu .a s))
/-- The fronds of slots whose fuse a power-on has switched on again return as after a retry, fronds that a link engine reaches again as
known ones (R24, R401). -/
def returnWaiting (s : State) : State :=
  let s := (List.range 16).foldl (fun s f => if (fuseAt s f).off then s else frondOn f s) s
  returnFronds (fun f => (frondAt s f).state == 3 && (frondAt s f).leGone && leReaches s f) s
/-- The card serves: its port is up and ready, its memory is trained, its regulators are requested (R414), its home group is its own once
both serve. -/
def serve (card : CardId) (s : State) : State :=
  let o := other card
  let first := !(cardAt s o).serving
  let s := updCard card (fun c => { c with
    serving := true, present := true, why := .none, hb := 1, entering := 0, osc2 := c.osc2, copying := !first && decide (recAt s card ≠ recAt s o) }) s
  let s := updCtrl (portOf card) (fun c => { c with link := true, rdy := true, cc := 0x00460001#32, shst := 0 }) s
  let s := ranksTrained card s
  let s := updPair (fun p => { p with
    own1 := if first ∨ card = CardId.ca then card else p.own1, own2 := if first ∨ card = CardId.cb then card else p.own2,
    lastServing := some card }) s
  let s := if first ∨ card = CardId.ca then setMaster card s else s
  let s := culmBack card (raiseEpoch s)
  let s := requestRegs ([.core card, .cardPol card 0] ++ if first then ((List.finRange 16).filter fun f => frondIn s f.val).map fun f => .frondPol f 0 else []) s
  let s := if first then loadUnits s else s
  linkCheck (returnWaiting (anaUpdate s))

/-! ### The rows. -/
/-- MODULE_POWER_ON (R427, R454): straps, a new epoch, recovery from the medium; the cards start. -/
def execModulePowerOn (straps : BitVec 5) (foundSeq : Nat) (s : State) : Out :=
  if s.time.bus then .next s
  else
    let s := epochMarker s.time.lastEnd (nextSeq foundSeq s)
    let odd := ((List.range 5).filter fun n => straps.getLsbD n).length % 2 == 1
    let pos := straps.toNat % 16
    let hold := fun (p : CulmPort) (s : State) =>
      event 0x506 1 (srcQ s.time.master) (obj 13 pos) (culmNo p) 4 0 (updCulm p (fun x => { x with link := 4 }) s)
    let s := updSheaf (fun x => { x with pos := pos, st := if odd then 0 else 4, u0 := { link := 6 }, u1 := { link := 6 } }) s
    let s := if odd then s else hold .u1 (hold .u0 s)
    let on := fun (x : Peu) => if x.present ∧ x.keltan ∧ x.feed ∧ (x.st = 2 ∨ x.st = 6) then { x with disabled := false, margin := 0, st := 2, outOn := true } else { x with disabled := false, margin := 0 }
    .next (replay (updPeu .a on (updPeu .b on s)))
/-- A restart of both cards without a loss of power: a new epoch that begins as at power-on (R16, R429). -/
def restart (s : State) : State := replay (epochMarker 2 (nextSeq 0 s))
/-- NVM_SUBSYSTEM_RESET (R429): NSSR on a port. Media work not done when the cards restart is cut (assumption 32). -/
def execNvmSubsystemReset (port : Port) (s : State) : Out :=
  if !s.time.bus ∨ s.time.resetHeld ∨ !(ctrlAt s port).link then .next s else .next (restart (stopAll false s))
/-- RESET_N_ASSERT (R430): at least 4 frames start an NVM Subsystem Reset and hold both cards. -/
def execResetNAssert (frames : Nat) (s : State) : Out :=
  if frames < 4 ∨ !s.time.bus ∨ s.time.resetHeld then .next s
  else .next (updTime (fun t => { t with resetHeld := true }) (stopAll false s))
/-- RESET_N_RELEASE (R430): the cards restart, and the assertion is recorded in the new epoch. -/
def execResetNRelease (s : State) : Out :=
  if s.time.resetHeld then .next (event 0x801 0 (srcQ s.time.master) 0 0 0 0 (restart s)) else .next s
/-- Every accumulator of a namespace's open rows has been recomputed (step 6 of R129). -/
def accumsBack (s : State) (nsid : Nat) : Bool := !(s.accums.any fun a => a.2.lost && (stripeAt s a.1).nsid == nsid)
/-- NAMESPACES_READY (R129, R428): the namespaces of an owner whose recovery has ended are ready. -/
def execNamespacesReady (card : CardId) (s : State) : Out :=
  let ids := (s.nss.filter fun n => n.2.used && !n.2.ready && decide (ownerOf s n.2.group = card) && accumsBack s n.1).map (·.1)
  if !(cardAt s card).serving ∨ ids = [] then .next s
  else
    let s := { s with nss := s.nss.map fun n => if ids.contains n.1 then (n.1, { n.2 with ready := true }) else n }
    let add := fun (c : Ctrl) => { c with changedNs := c.changedNs ++ ids.filter fun n => !c.changedNs.contains n }
    let s := updCtrl .h0 add (updCtrl .h1 add s)
    .next (aenBoth 2 0 4 (event 0x802 0 (srcQ card) (obj 8 (cardNo card)) (cardNo card) s.time.fc 0 s))
/-- The image of a serving partner is copied into the idle slot of a card that is to restart from it (R437 step 2). -/
def copyImage (card : CardId) (s : State) : State :=
  let w := activeSlot (cardAt s (other card))
  let n := idleSlot (cardAt s card)
  event 0x822 0 (srcQ (other card)) (obj 8 (cardNo card)) (cardNo card) 0 0
    (updCard card (fun c => { setSlot n { w with confirmed := true } c with active := n, nextSlot := 0, entering := 1 }) s)
/-- A card whose image is checked beside a serving partner: image copy, wait for confirmation, or mirror (R437 steps 2–4);
the partner's saved values, at level 2 its SEALED fuse. -/
def besidePartner (card : CardId) (s : State) : State :=
  let p := cardAt s (other card)
  if (activeSlot (cardAt s card)).sha ≠ (activeSlot p).sha then
    if (activeSlot p).confirmed then copyImage card s else updCard card (fun c => { c with entering := 3 }) s
  else updCard card (fun c => { c with
    entering := 4, ownEpoch := p.ownEpoch, ep := p.ep, mrk := some s.sec.mrkGen, sealed := c.sealed || s.sec.level == 2, secMin := max c.secMin p.secMin }) s
/-- A card is held, with its reason. -/
def holdCard (card : CardId) (why : HeldWhy) (s : State) : State :=
  updCard card (fun c => { c with entering := 0, why := why, hb := 4 }) s
/-- CARD_START (R264, R359, R360, R363): the image, the self-test and the training of a card that starts with the module, beside a
serving partner, or in an activation (R298 step 3). -/
def execCardStart (card : CardId) (failedUnits : List Nat) (activeOk otherOk : Bool) (s : State) : Out :=
  let c := cardAt s card
  let o := other card
  let act := c.serving && c.activating == 3
  if !s.time.bus ∨ s.time.resetHeld ∨ !(act || c.entering == 1 || c.entering == 6) then .next s
  else if act then
    let s := selfTest card failedUnits s
    .next (if activeOk && !unfit s card then updCard card (fun c => { c with activating := 4 }) (ranksTrained card s) else cardOut card 1 .failedStart s)
  else match startSlot c activeOk otherOk with
  | none => .next (holdCard card .failedStart s)
  | some (n, new, back) =>
    let s := selfTest card failedUnits (runSlot card n new back s)
    if unfit s card then .next (holdCard card .failedStart s)
    else if c.entering = 6 ∧ c.mrk = some s.sec.mrkGen then .next (serve card s)
    else if (cardAt s o).serving then .next (besidePartner card (ranksTrained card s))
    else if c.entering = 6 then
      .next (event 0x824 2 (srcQ card) (obj 8 (cardNo card)) (cardNo card) 0 0 (holdCard card .noKey s))
    else .next (updCard card (fun c => { c with entering := 2 }) s)
/-- CARD_START_ALONE (R302, R438): a card that starts while no card serves begins a new epoch, if its key and its OWN_EPOCH
are current. -/
def execCardStartAlone (card : CardId) (rootEpoch : Nat) (s : State) : Out :=
  let c := cardAt s card
  if !s.time.bus ∨ s.time.resetHeld ∨ anyServe s ∨ !c.present ∨ (c.entering ≠ 1 ∧ c.entering ≠ 2) then .next s
  else if c.mrk ≠ some s.sec.mrkGen then .next (event 0x824 2 (srcQ card) (obj 8 (cardNo card)) (cardNo card) 0 0 (holdCard card .noKey s))
  else if c.ownEpoch < max rootEpoch (max s.jA.rootOwn s.jB.rootOwn) then .next (holdCard card .staleEpoch s)
  else
    let s := cutJournal .ca (cutJournal .cb s)
    let keep := fun (x : Card) => { x with active := c.active, window := c.window.map fun _ => 0, soakAt := 0, entering := 0 }
    let s := updCard card keep (stopAll false s)
    let s := setMaster card s
    let s := updCtrl .h0 (fun c => { c with nssro := false }) (updCtrl .h1 (fun c => { c with nssro := false }) s)
    .next (serve card (replay (epochMarker 4 (nextSeq 0 s))))

/-- CARD_ENTER_SERVICE (R300, R298 step 5): the partner's mirror and rule table are loaded, the home group moves back, and fronds
that a link engine reaches again return (R24). -/
def execCardEnterService (card : CardId) (s : State) : Out :=
  let c := cardAt s card
  let o := other card
  let home := match card with | .ca => Group.g1 | .cb => .g2
  if !(cardAt s o).serving ∨ !c.present then .next s
  else if c.serving ∧ c.activating = 4 then
    let s := updCard card (fun x => { x with activating := 5, hb := 1 }) (updSp card (fun sp => loadRules sp (spAt s o)) s)
    let s := if card = CardId.ca ∧ s.time.master = CardId.cb then updPair (fun p => { p with handTo := some .ca }) s else s
    .next (startTransfer home card s)
  else if !c.serving ∧ c.entering = 4 then
    let e := (cardAt s o).ownEpoch
    let s := updCard card (fun x => { x with
      serving := true, why := .none, hb := 1, entering := 5, ownEpoch := e, msnTx := 0, msnAcked := 0, msnRx := (cardAt s o).msnTx,
      copying := true, mrk := some s.sec.mrkGen }) s
    let s := updSp card (fun sp => loadRules sp (spAt s o)) (updMem card rankDrop s)
    let s := requestRegs [.core card, .cardPol card 0] (culmBack card s)
    let s := { s with fronds := s.fronds.map fun f => (f.1, { f.2 with fenced := f.2.fenced.filter (· ≠ card) }) }
    let s := if card = CardId.ca ∧ s.time.master = CardId.cb then updPair (fun p => { p with handTo := some .ca }) s else s
    .next (returnWaiting (startTransfer home card s))
  else .next s

end Sys2Proof.Machine
end

