-- ==== Sys2Proof/Machine/Service.lean ====
section
/-! DEFINITION. Field service: fronds, cards and PEUs that are prepared, pulled and inserted, failed engines (R24, R433–R440). -/
namespace Sys2Proof.Machine
open Sys2Proof

/-! ### Fronds (R433–R435). -/
/-- OBJECT and ARG0 of a slot event (R441). -/
def frondEvent (code cls f a1 a2 : Nat) (s : State) : State := event code cls (srcQ s.time.master) (obj 4 f) f a1 a2 s
/-- FROND_PRESENT_CLOSE (R401, R435): a unit is inserted; a latched fuse is cleared. -/
def execFrondPresentClose (frond : Frond) (s : State) : Out :=
  let f := frond.val
  .next (if (frondAt s f).present then s
    else updFuse f (fun _ => {}) (updFrond f (fun g => { g with present := true, insert := 1, ident := none, serial := [] }) s))
/-- FROND_SETTLED (R383, R435): the fuse is on, the running code is loaded, identity and member table are read. In PS4 the
slot stays off (R424). -/
def execFrondSettled (frond : Frond) (ident : FrondIdent) (s : State) : Out :=
  let f := frond.val
  let g := frondAt s f
  .next (if !g.present ∨ g.insert ≠ 1 ∨ s.power.ps = 4 ∨ !s.time.bus ∨ (fuseAt s f).off then s
    else requestRegs [.frondPol frond 0] <| updFrond f (fun g => { g with
      insert := 2, ident := some ident, serial := ident.serial, store := ident.store.take 4096, code := (runningImage s).filnasSha }) s)
/-- The slot's fuse is switched off again: the unit is not accepted (R435). -/
def notTaken (f : Nat) (s : State) : State := updFrond f (fun g => { g with insert := 0, ident := none }) s
/-- The four conditions of a known frond, beside its absence (R102). -/
def isKnown (g : FrondSt) (f : Nat) (id : FrondIdent) : Bool :=
  g.hasRecord && id.serial == g.record && id.tableValid && id.tableSlot == some f && g.state != 4
/-- The slot of this module whose frond of record the unit is (R435). -/
def otherSlot (s : State) (f : Nat) (id : FrondIdent) : Bool :=
  match id.tableSlot with
  | some n => id.tableValid && n != f && decide (n < 16) && (frondAt s n).hasRecord && (frondAt s n).record == id.serial
  | none => false
/-- FROND_ACCEPTANCE (R424, R435): the decision table; in PS3 and PS4 a frond waits for the exit. -/
def execFrondAcceptance (frond : Frond) (s : State) : Out :=
  let f := frond.val
  let g := frondAt s f
  match (if g.present ∧ g.insert = 2 ∧ !(fuseAt s f).off ∧ s.power.ps < 3 then g.ident else none) with
  | none => .next s
  | some id =>
    let row := fun (n : Nat) (s : State) => frondEvent 0x812 0 f n 0 s
    if !id.partOk ∨ !bit (runningImage s).hwFrond id.rev then
      .next (row 1 (notTaken f (frondState f 7 (updFrond f (fun g => { g with hidden := g.state }) s))))
    else if !id.coreOk ∨ !id.trainOk then .next (row 6 (notTaken f (frondState f 3 s)))
    else if isKnown g f id then .next (frondKnown f (trainedIn f (row 2 s)))
    else if otherSlot s f id then .next (frondEvent 0x815 1 f 0 0 (row 3 (notTaken f s)))
    else if g.state = 3 ∨ g.state = 4 ∨ g.state = 8 ∨ !g.hasRecord then .next (frondNew f id (row 4 s))
    else .next (row 5 (updFrond f (fun g => { g with insert := 3 }) s))
/-- A Frond Service command ends (R184, R348, R433). -/
def prepEnds (f : Nat) (s : State) : State :=
  match (frondAt s f).prepCmd with
  | some (p, cid) =>
    finishChange { port := if p = 0 then .h0 else .h1, cid := cid, opc := 0xE0 } 0 (0, 0) (frondAt s f).prepCount 0 []
      (updFrond f (fun g => { g with prepCmd := none }) s)
  | none => s
/-- FROND_PRESENT_OPEN (R422, R434): a unit is pulled, announced or not. -/
def execFrondPresentOpen (frond : Frond) (s : State) : Out :=
  let f := frond.val
  let g := frondAt s f
  if !g.present then .next s
  else
    let s := frondEvent 0x811 1 f (if g.prepared = 2 then 0 else 1) 0 s
    let s := if g.state = 0 ∨ g.state = 5 ∨ g.state = 6 then frondDepart f 2 s
      else if g.state = 9 then frondState f g.hidden s
      else if g.state = 7 then frondState f (if g.hasRecord then g.hidden else 8) s
      else if g.hasRecord then s else frondState f 8 s
    let s := updFrond f (fun g => { g with
      present := false, insert := 0, ident := none, serial := [], service := false, shutdown := false, prepared := 0, coreReset := false, leGone := false }) s
    .next (placeWaiting (absentRelease (prepEnds f s)))
/-- PREPARE_PROGRAM_CUT (R433): programs not done 64 frames into the preparation are cut. -/
def execPrepareProgramCut (frond : Frond) (s : State) : Out :=
  let f := frond.val
  if (frondAt s f).prepared ≠ 1 ∨ s.time.fc + 1 < (frondAt s f).prepFc + 64 then .next s
  else
    let s := holdChunks f (sealTable f s)
    .next { s with dies := s.dies.map fun d =>
      if frondOfDie d.1 == f && (match d.2.op with | some o => o.kind != .erase | none => false) then
        (d.1, { d.2 with op := none, seg := false, suspended := false, suspending := false }) else d }
/-- Started programs or verifications of a frond. -/
def programsRun (s : State) (f : Nat) : Bool :=
  s.dies.any fun d => frondOfDie d.1 == f && (match d.2.op with | some o => o.kind != .erase | none => false)
/-- PREPARE_COMPLETE (R433): member table and erase record are written, the fuse is off, the command completes. -/
def execPrepareComplete (frond : Frond) (s : State) : Out :=
  let f := frond.val
  if (frondAt s f).prepared ≠ 1 ∨ programsRun s f ∨ !recordsKept s f (frondAt s f).prepFc true then .next s
  else
    let s := frondDepart f 1 s
    let s := frondEvent 0x810 0 f 0 0 (updFrond f (fun g => { g with prepared := 2 }) s)
    .next (placeWaiting (prepEnds f s))

/-! ### Controller cards (R436–R439). -/
/-- A card as it is inserted: what its configuration store holds (R437). -/
def insertedCard (id : CardIdent) : Card :=
  { present := true, rev := some id.rev, serving := false, hb := 0, ownEpoch := id.ownEpoch, ep := id.ep % 2 ^ 32, entering := 1, sealed := id.sealed, slot1 := { sha := id.slot1Sha },
    slot2 := { sha := id.slot2Sha }, active := id.activeSlot, mrk := if id.moduleSerial = Config.moduleSerial then id.mrkGen else none }
/-- CARD_PRESENT_CLOSE (R2, R372, R437): a card is inserted and starts; a foreign unit does not. -/
def execCardPresentClose (card : CardId) (ident : CardIdent) (s : State) : Out :=
  if (cardAt s card).present then .next s
  else
    let foreign := !ident.partOk || !bit (runningImage s).hwCard ident.rev
    let s := updFuse (16 + cardNo card) (fun _ => {}) s
    let s := { s with engines := s.engines.filter fun e => e.1 / 64 ≠ cardNo card }
    let same := decide (ident.recorderSerial = Config.moduleSerial ∧ ident.clearGen = (recAt s (other card)).clearGen)
    let s := updRec card (fun r => if same then r else { clearGen := (recAt s (other card)).clearGen }) s
    let s := updSp card (fun sp => { sp with retired := [], rewritten := [] }) s
    let s := updMem card (fun m => { freshMem with grainNow := m.grainNow, cacheNow := m.cacheNow }) s
    let c := insertedCard ident
    let s := updCard card (fun _ => if foreign then { c with entering := 0, why := .foreign, fuseOn := false }
      else { c with entering := if s.time.bus then 1 else 0 }) s
    .next (event 0x821 0 (srcQ s.time.master) (obj 8 (cardNo card)) (cardNo card) 0 0 s)
/-- The request of an SVC press is accepted (R436). -/
def mayLeave (s : State) (card : CardId) : Bool :=
  let c := cardAt s card
  let o := cardAt s (other card)
  o.serving && o.hb == 1 && c.activating == 0 && o.activating == 0 && c.window.isNone && o.window.isNone && s.sec.running.isNone
    && c.leaving == 0 && o.leaving == 0
/-- SVC_BUTTON_HOLD (R436, R439): a serving card asks to leave; a card under the partner hold is released. -/
def execSvcButtonHold (card : CardId) (s : State) : Out :=
  let c := cardAt s card
  let refused := event 0x823 1 (srcQ s.time.master) (obj 8 (cardNo card)) (cardNo card) 0 0 s
  if c.serving then
    .next (if mayLeave s card then updCtrl (portOf card) (fun x => { x with stopped := true }) (updCard card (fun c => { c with leaving := 1 }) s)
      else refused)
  else if c.present ∧ c.held then
    .next (if c.heldAgain then refused else updCard card (fun c => { c with why := .none, entering := 1, held := false }) s)
  else .next s
/-- A card leaves service on request, its groups moved and the tick handed over: no takeover, no hold (R436). -/
def cardLeaves (card : CardId) (s : State) : State :=
  let s := event 0x402 2 (srcQ (other card)) (obj 8 (cardNo card)) 1 0 0 s
  let s := event 0x820 0 (srcQ (other card)) (obj 8 (cardNo card)) (cardNo card) 0 0 s
  let s := portsDown card s
  let s := updCard card (fun c => { c with
    serving := false, hb := 4, why := .request, leaving := 0, fuseOn := false, beat := false, missed := 0, unacked := [], holding := false, aliveTx := c.aliveTx + 1 }) s
  let s := send (.heartbeat card (heartbeatOf s card 4)) s
  let s := updCard (other card) (fun c => { c with copying := false }) (updMem card rankDrop s)
  linkCheck (ackAll (other card) (updPair (fun p => { p with lastServing := some (other card) }) s))

/-! ### PEUs (R440). -/
/-- PEU_PRESENT_OPEN (R404, R440): a PEU is pulled; the other takes the load. -/
def execPeuPresentOpen (peu : PeuId) (s : State) : Out :=
  let x := peuAt s peu
  if !x.present then .next s
  else
    let c0 := capacity s
    let s := x.out.foldl (fun s t => peuCtlEnd t.cmd (actionOf t.type) internalError s) s
    let s := updPeu peu (fun x => { present := false, st := 0, outOn := false, feed := x.feed, iSaved := x.iSaved, status := {}, atA := none, atB := none, calRead := 0 }) s
    let s := left2 x.status.state 0 (event 0x830 0 (srcQ s.time.master) (obj 9 (peuNo peu)) (peuNo peu) 0 0 s)
    .next (busCheck (capacityStep c0 s))
/-- PEU_PRESENT_CLOSE (R2, R360, R402–R404, R440): a PEU is inserted; it starts under R391. One that is no Keltan PEU, or whose
board revision the running image does not admit, is foreign. -/
def execPeuPresentClose (peu : PeuId) (ident : PeuIdent) (code : List Byte) (s : State) : Out :=
  let x := peuAt s peu
  let keltan := ident.keltan && bit (runningImage s).hwPeu ident.rev
  if x.present then .next s
  else
    let s := updPeu peu (fun x => { x with
      present := true, keltan := keltan, rev := some ident.rev, st := 0, outOn := keltan, code := code, idle := [], cal := [], faults := 0, iLimit := 100, margin := 0, upd := 0 }) s
    let s := event 0x830 0 (srcQ s.time.master) (obj 9 (peuNo peu)) (peuNo peu) 1 0 s
    .next (if keltan then peuCheck (greetPeu peu s) else s)

/-! ### Failed engines in service (R24). -/
/-- ENGINE_WATCHDOG (R24, R429): sixteen frames without a heartbeat of an engine that has power and clock (R25, R26). -/
def execEngineWatchdog (engine : EngineRef) (s : State) : Out :=
  match engine with
  | .quihar c i =>
    if 64 ≤ i ∨ !engineWorks s c i then .next s
    else
      let s := engineOut c i 1 s
      .next (linkCheck (if tooFew s c then cardOut c 1 .outOfService s else s))
  | .filnas f i =>
    if frondAbsent s f.val then .next s
    else if i = 8 then .next (coreFailed f.val s)
    else if i < 8 ∧ !(chanAt s (f.val * 8 + i)).failed then
      .next (channelFailed (f.val * 8 + i) (event 0x401 2 (srcF f.val) (obj 11 (128 + 9 * f.val + i)) 1 1 0 s))
    else .next s

end Sys2Proof.Machine
end

