-- ==== Sys2Proof/Machine/Mem.lean ====
section
/-! DEFINITION. Spikelet searches, writes and parity (R216–R223), buffers (R256–R261), fences (R267), DRAM ranks and poison
(R263–R270, R280), check-value units (R271–R273). -/
namespace Sys2Proof.Machine
open Sys2Proof

/-! ### Spikelet (R217–R223). -/
/-- SPIKELET_UPDATE (R220): the position is invalidated, written and validated. -/
def execSpikeletUpdate (card : CardId) (pos : Nat) (entry : SpikEntry) (s : State) : Out :=
  let rule := if pos < 32768 then entry.result.toNat else bits entry.result.toNat 15 0
  .next (updSp card (putEntry (entryPos pos)
    { valid := true, prio := entry.prio, key := entry.key &&& entryBits pos, mask := entry.mask &&& entryBits pos, result := entry.result, rule := rule }) s)

/-- One unit whose parity fails: rewritten from the shadow, or retired at its second failure (R221). -/
def parityFault (card : CardId) (bank p : Nat) (s : State) : State :=
  let sp := spAt s card
  let again := sp.rewritten.contains p
  let s := event 0x302 1 (srcQ card) (obj 11 (cardNo card * 64)) bank (p + if again then 2 ^ 63 else 0) 0 s
  if again then
    updSp card (fun sp =>
      let e := tfind sp.shadow p
      let sp := clearEntry p { sp with retired := sp.retired ++ [p], rewritten := lrem sp.rewritten p }
      match e with | some e => reseat p e sp | none => sp) s
  else
    updSp card (fun sp => { sp with
      rewritten := sp.rewritten ++ [p]
      ents := match tfind sp.shadow p with | some e => tins sp.ents p e | none => tdel sp.ents p }) s
/-- Entries with a parity fault, by their positions. -/
def repair (card : CardId) (l : List Nat) (s : State) : State :=
  l.foldl (fun s p => if (spAt s card).retired.contains p then s else parityFault card (p / 4096) p s) s
/-- SPIKELET_SHADOW_COMPARE (R221). -/
def execSpikeletShadowCompare (card : CardId) (bank : Nat) (faulty : List Nat) (s : State) : Out :=
  .next (repair card ((faulty.filter fun p => p / 4096 == bank).map entryPos) s)
/-- SPIKELET_SEARCH (R218): entries with a parity fault, which the operand names by their units, count as invalid and are repaired
(R221). -/
def execSpikeletSearch (card : CardId) (profile : Nat) (key : BitVec 320) (mask : SearchMask) (s : State) : Out :=
  let m := if profile = 0 then mask.mask else BitVec.allOnes 320
  let bad := (mask.faulty.filter (inProfile profile)).map entryPos
  .next (repair card bad (updSp card (fun sp => { sp with
    found := (spSearch { sp with ents := sp.ents.filter fun x => !bad.contains x.1 } profile key m).map fun x => x.2.result }) s))

/-! ### Buffers (R256–R261). -/
/-- BUFFER_REQUEST (R258): granted whole or not at all. -/
def execBufferRequest (card : CardId) (pool : Pool) (count : Nat) (_engine : Nat) (s : State) : Out :=
  let p := poolNo pool
  if count = 0 ∨ 16 < count then .next s
  else
    let (g, s) := takeBufs card p count s
    .next (updMem card (fun m => { m with granted := g.map fun l => l.map fun i => BitVec.ofNat 32 (p * 2 ^ 30 + i) }) s)
/-- n decrements of a buffer. -/
def decTimes (card : CardId) (p i engine : Nat) : Nat → State → State
  | 0, s => s
  | n + 1, s => decTimes card p i engine n (decBuf card p i engine s)
/-- REFERENCE_DECREMENT (R257, R261): decrements that arrive together are all applied. -/
def execReferenceDecrement (card : CardId) (handle : BitVec 32) (consumers engine : Nat) (s : State) : Out :=
  .next (decTimes card (bits handle.toNat 31 30) (bits handle.toNat 19 0) engine consumers s)
/-- FENCE (R267): every earlier write of the source is visible to every source. A write of the model is visible at once
(assumption 35), so the fence completes and is counted. -/
def execFence (card : CardId) (source : Nat) (s : State) : Out :=
  .next (updMem card (fun m => { m with fences := tupd 0 m.fences source (· + 1) }) s)

/-! ### Ranks (R263–R265, R268, R269, R280). -/
/-- A line becomes poisoned (R268). -/
def poisonLine (card : CardId) (n line : Nat) (s : State) : State :=
  let p := n * 2 ^ 28 + line
  updMem card (fun m => { m with
    poison := if m.poison.contains p then m.poison else m.poison ++ [p]
    poisonLines := m.poisonLines + 1 }) s
/-- A failing rank migrates to y (R269). -/
def migrateTo (card : CardId) (n y : Nat) (s : State) : State :=
  updMem card (fun m => rankRole y 7 { m with rop := .migrate n y, spare := some y }) (retire card n 1 s)
/-- DRAM_CORRECTED_ERROR (R265, R268). -/
def execDramCorrectedError (card : CardId) (rank : Nat) (s : State) : Out :=
  .next (updRank card rank (fun r => { r with
    corrected := (r.corrected + 1) % 2 ^ 32
    recent := (r.recent.filter fun f => s.time.fc < f + 4000) ++ [s.time.fc] }) s)
/-- DRAM_UNCORRECTABLE_ERROR (R268, R269): the line is poisoned, on a migrating rank's successor where one is being written;
the table of R269 by what the card is doing. -/
def dramBad (card : CardId) (n line : Nat) (s : State) : State :=
  let m := memAt s card
  let role := (rankAt s card n).role
  let s := updRank card n (fun r => { r with uncorr := (r.uncorr + 1) % 2 ^ 32 }) s
  let lost := fun (s : State) =>
    match (memAt s card).spare with
    | some y => if y = n then noSpare card (retire card n 1 s) else migrateTo card n y s
    | none => aenPage 0xCB (cardOut card 1 .outOfService s)
  match m.rop with
  | .migrate x y => if n = x then poisonLine card y line s else aenPage 0xCB (cardOut card 1 .outOfService (poisonLine card n line s))
  | .copy _ _ | .switching _ _ => lost (updMem card (fun m => { m with rop := .idle }) (poisonLine card n line s))
  | .train x =>
    if n = x then s
    else migrateTo card n x (updMem card (fun m => rankRole x 7 { m with spare := some x }) (poisonLine card n line s))
  | .idle => if role = 9 then s else lost (poisonLine card n line s)
def execDramUncorrectableError (card : CardId) (rank line : Nat) (s : State) : Out :=
  .next (if (cardAt s card).serving then dramBad card rank line s else s)
/-- A rank's retraining is due (R265). -/
def retrainDue (s : State) (card : CardId) (n : Nat) : Bool :=
  let r := rankAt s card n
  decide (s.feat.rankHours * 14400000 ≤ s.time.fc - r.trainFc)
    || (match rankTemp s card n with | some t => decide (s.feat.rankTemp ≤ (t - r.temp).natAbs) | none => false)
    || decide (1024 < (r.recent.filter fun f => s.time.fc < f + 4000).length)
/-- A card copies a rank. -/
def copies (m : CardMem) : Bool := match m.rop with | .copy _ _ => true | _ => false
/-- RANK_RETRAIN_DUE (R265, R442): the copy into the spare begins; never on both cards at once. -/
def execRankRetrainDue (card : CardId) (rank : Nat) (s : State) : Out :=
  let m := memAt s card
  match m.rop, m.spare with
  | .idle, some y =>
    .next (if (cardAt s card).serving ∧ m.table.contains rank ∧ retrainDue s card rank ∧ !parked s
              ∧ !((cardAt s (other card)).serving && copies (memAt s (other card)))
           then updMem card (fun m => { m with rop := .copy rank y }) s else s)
  | _, _ => .next s
/-- RANK_COPY_DONE (R265): the table names the spare from the next frame boundary. -/
def execRankCopyDone (card : CardId) (s : State) : Out :=
  .next (updMem card (fun m => match m.rop with | .copy x y => { m with rop := .switching x y } | _ => m) s)
/-- Step 2 of R265, at a frame boundary: the rank that was copied trains. -/
def rankBoundary (card : CardId) (s : State) : State :=
  updMem card (fun m => match m.rop with
    | .switching x y => rankRole x 8 { rankSwitch x y m with rop := .train x, spare := none }
    | _ => m) s
/-- RANK_TRAINING_END (R264, R265): the rank becomes the spare, or is retired. -/
def execRankTrainingEnd (card : CardId) (pass : Bool) (eye temp : Nat) (s : State) : Out :=
  match (memAt s card).rop with
  | .train x =>
    let s := updRank card x (fun r => { r with
      temp := temp, eye := eye, trainings := (r.trainings + 1) % 2 ^ 32, trainFc := s.time.fc, trainEp := s.time.ep, recent := [] }) s
    let s := event 0x408 0 (srcQ card) (rankObj card x) (if pass then 0 else 1) eye 0 s
    .next (if pass then updMem card (fun m => rankRole x 7 { m with rop := .idle, spare := some x }) s
           else noSpare card (retire card x 0 (updMem card (fun m => { m with rop := .idle }) s)))
  | _ => .next s
/-- RANK_MIGRATION_DONE (R269): the spare has taken the slot; no spare is left. -/
def execRankMigrationDone (card : CardId) (s : State) : Out :=
  match (memAt s card).rop with
  | .migrate x y => .next (noSpare card (updMem card (fun m => { rankSwitch x y m with rop := .idle }) s))
  | _ => .next s

/-! ### Poison (R262, R270). -/
/-- The block of a command whose write data is poisoned has not passed a stream engine. -/
def notSent (s : State) (k block : Nat) : Bool :=
  s.cws.any fun c => c.2.cmd == some k && c.2.lba == block && !c.2.encrypted && c.2.kind == .data
/-- POISON_READ: the consumer's action. Recovered data is written again, which ends the line's poison (R268). -/
def poisonRead (card : CardId) (line : Nat) (use : PoisonUse) (s : State) : State :=
  let clear := updMem card (fun m => { m with poison := lrem m.poison line })
  match use with
  | .writeData k b =>
    if (tfind s.cmds k).isSome ∧ notSent s k b then
      let s := updMem card (fun m => { m with poisonFails := m.poisonFails + 1 }) s
      finishCmd k dataTransferError 0 0 [] (settleWrite k (updCmd k (fun x => { x with missed := none, errLba := b }) s))
    else s
  | .staged k =>
    if (tfind s.cmds k).isSome then updMem card (fun m => { m with resourced := m.resourced + 1 }) (clear s) else s
  | .durable => s
  | .accumulator nsid zone =>
    let n := nsAt s nsid
    match (if n.zoned then (zoneAt s (zoneKey nsid zone)).slot else if zone = 0 then n.head else n.gcHead) with
    | some slot => if (tfind s.accums slot).isSome then updAccum slot (fun a => { a with lost := true }) (clear s) else clear s
    | none => clear s
  | .cleanPage nsid page =>
    let pk := nsid * 2 ^ 29 + page
    clear { s with pages := tupd {} s.pages pk fun p => if p.dirty then p else { p with cached := false, ref := false } }
  | .dirtyPage nsid page =>
    let pk := nsid * 2 ^ 29 + page
    clear { s with pages := tupd {} s.pages pk fun p => if p.dirty then { p with ref := true } else p }
  | .program _ _ => clear s
  | .ownTable => clear s
  | .mirrorTable => clear s
  | .freeRing _ => clear s
  | .working i => clear (updEng (cardNo card * 64 + i) (fun e => { e with winnow := none }) s)
def execPoisonRead (card : CardId) (line : Nat) (use : PoisonUse) (s : State) : Out :=
  .next (if (memAt s card).poison.contains line then poisonRead card line use s else s)

/-! ### Check-value units (R271–R273). -/
def unitAt (s : State) (card : CardId) (n : Nat) : CheckCtx := tget {} (memAt s card).units n
/-- CRC-32C uses bits [31:0] of REG, and bits [63:32] are zero (R272). -/
def normCtx (c : CheckCtx) : CheckCtx := if c.alg then { c with reg := (c.reg.setWidth 32).setWidth 64 } else c
/-- CHECK_UNIT_COMBINE (R273): the finished value A of the context becomes that of A's bytes followed by B's. -/
def execCheckUnitCombine (card : CardId) (unit : Nat) (value : BitVec 64) (bytes : Nat) (s : State) : Out :=
  let c := unitAt s card unit
  let reg : BitVec 64 :=
    if c.alg then (~~~ combine poly32 (~~~ c.reg.setWidth 32) (value.setWidth 32) bytes).setWidth 64
    else ~~~ combine poly64 (~~~ c.reg) value bytes
  .next (updMem card (fun m => { m with
    units := tput {} m.units unit { c with reg := reg, bytes := c.bytes + BitVec.ofNat 48 bytes } }) s)
/-- CHECK_CONTEXT_LOAD (R272): the unit's context is saved; a load takes effect for the next byte. -/
def execCheckContextLoad (card : CardId) (unit : Nat) (load : Option CheckCtx) (s : State) : Out :=
  let c := unitAt s card unit
  .next (updMem card (fun m => { m with
    saved := c, units := match load with | some x => tput {} m.units unit (normCtx x) | none => m.units }) s)

end Sys2Proof.Machine
end

