-- ==== Sys2Proof/Machine/Sheaf.lean ====
section
/-! DEFINITION. The sheaf: culm ports and messages (R303–R308), rachis (R309–R312), lead (R313–R316), shelf budget
(R317–R319), phase plan (R320–R322), sheaf events (R323). -/
namespace Sys2Proof.Machine
open Sys2Proof

/-! ### Ports and messages. -/
def otherCulm : CulmPort → CulmPort | .u0 => .u1 | .u1 => .u0
def cardOfCulm : CulmPort → CardId | .u0 => .ca | .u1 => .cb
/-- A port is up, on two lanes or one (R326). -/
def linkUp (x : Culm) : Bool := x.link == 2 || x.link == 3
def portUp (s : State) (p : CulmPort) : Bool := linkUp (culmAt s p)
def memberAt' (s : State) (p : Nat) : SheafMember := tget {} s.sheaf.members p
def updMember (p : Nat) (g : SheafMember → SheafMember) (s : State) : State := updSheaf (fun x => { x with members := tupd {} x.members p g }) s
/-- Members of the census beside the module itself (R313). -/
def census (s : State) : List (Nat × SheafMember) := s.sheaf.members.filter fun m => m.2.st != 0 && m.2.st != 4 && m.1 != s.sheaf.pos
/-- Members in the census, the module among them. -/
def memberCount (s : State) : Nat := if isMember s then (census s).length + 1 else 0
/-- Sends one message on a port that is up (R306). -/
def culmSend (p : CulmPort) (type dst : Nat) (bcast : Bool) (hops : Nat) (src : Nat) (payload : List Nat) (s : State) : State :=
  if portUp s p then
    send (.culm p type src dst bcast hops payload) (updCulm p (fun x => { x with aliveTx := x.aliveTx + 1, sent := x.sent + 1 }) s)
  else s
/-- A message of the module's own on one port; each takes the next sequence number. -/
def ownMsg (p : CulmPort) (type dst : Nat) (payload : List Nat) (s : State) : State :=
  culmSend p type dst false 0 s.sheaf.pos payload (updSheaf (fun x => { x with seq := (x.seq + 1) % 65536 }) s)
/-- A broadcast of the module's own on both ports. -/
def broadcast (type : Nat) (payload : List Nat) (s : State) : State :=
  let s := updSheaf (fun x => { x with seq := (x.seq + 1) % 65536 }) s
  culmSend .u1 type 0 true 0 s.sheaf.pos payload (culmSend .u0 type 0 true 0 s.sheaf.pos payload s)
/-- A message to one member, by the shorter way (R307). -/
def toMember (dst type : Nat) (payload : List Nat) (s : State) : State := ownMsg (memberAt' s dst).via type dst payload s
/-- Topology (R305, R326): a ring was seen when one broadcast came on both ports; else a chain while a port is up. -/
def topologyOf (s : State) (ring : Bool) : Nat :=
  if portUp s .u0 && portUp s .u1 && ring then 2 else if portUp s .u0 || portUp s .u1 then 1 else 0
/-- Reception at a port: check of R274, forwarding of R307; the state, and whether the message is for this module and new. -/
def receive (p : CulmPort) (type : Nat) (hdr : CulmHdr) (fwd : Bool) (payload : List Nat) (s : State) : State × Bool :=
  if !portUp s p then (s, false)
  else
    let (s, last, good) := alive (cardOfCulm p) 1 (culmAt s p).aliveRx hdr.alive hdr.crcOk s
    let s := updCulm p (fun x => { x with aliveRx := last }) s
    if !good then (s, false)
    else
      let s := updCulm p (fun x => { x with received := x.received + 1, downAt := now s }) s
      let key := hdr.src * 65536 + hdr.seq
      let dup := hdr.bcast && s.sheaf.seen.contains key
      let s := if dup then updSheaf (fun x => { x with topology := topologyOf s true }) s else s
      let mine := hdr.bcast || decide (hdr.dst = s.sheaf.pos)
      let o := otherCulm p
      let s := if fwd ∧ hdr.hops + 1 ≤ 15 ∧ hdr.src ≠ s.sheaf.pos ∧ portUp s o ∧ ((hdr.bcast ∧ !dup) ∨ (!hdr.bcast ∧ !mine)) then
          updCulm o (fun x => { x with forwarded := x.forwarded + 1 }) (culmSend o type hdr.dst hdr.bcast (hdr.hops + 1) hdr.src payload s)
        else s
      let s := if hdr.bcast ∧ !dup then updSheaf (fun x => { x with seen := (x.seen ++ [key]).drop (x.seen.length - 255) }) s else s
      (s, mine && !dup && (hdr.src != s.sheaf.pos || !hdr.bcast))
/-- OBJECT of a sheaf position. -/
def posObj (p : Nat) : Nat := obj 13 p
def sheafEvent (code cls ob a0 a1 a2 : Nat) (s : State) : State := event code cls (srcQ s.time.master) ob a0 a1 a2 s
/-- A port is held down (R304, R305, R327). -/
def holdPort (p : CulmPort) (s : State) : State :=
  aenPage 0xC9 (sheafEvent 0x506 1 (posObj s.sheaf.pos) (culmNo p) 4 0
    (updCulm p (fun x => { x with link := 4, nbr := none, aliveRx := none, downAt := now s }) s))
/-- A port carries a wrap link to its neighbour (R305). -/
def isWrap (pos : Nat) (p : CulmPort) (x : Culm) : Bool :=
  linkUp x && match x.nbr with | some (n, _) => (match p with | .u0 => decide (pos < n) | .u1 => decide (n < pos)) | none => false
/-- What a neighbour's position and port say of the wiring (R305): held where U0 meets U0, U1 meets U1, or at the U0 end of
a second wrap link. -/
def wireCheck (p : CulmPort) (s : State) : State :=
  match (culmAt s p).nbr with
  | some (_, q) =>
    if p = q then holdPort p s
    else if isWrap s.sheaf.pos .u0 (culmAt s .u0) ∧ p = CulmPort.u0 ∧ (isWrap s.sheaf.pos .u1 (culmAt s .u1) ∨ s.sheaf.topology = 2) then holdPort p s
    else updSheaf (fun x => { x with topology := topologyOf s (x.topology == 2) }) s
  | none => s
/-- A port has trained: the module is a member from now on (R303, R313). -/
def joinSheaf (s : State) : State :=
  if s.sheaf.st = 0 then updSheaf (fun x => { x with st := 1, rachis := 3, rachisAt := now s, fcAt := s.time.fc, sfc := 0, inside := 0, outside := 0, membersMax := max x.membersMax 1 }) s else s
/-- CULM_LINK_UP (R303, R305). -/
def execCulmLinkUp (port : CulmPort) (nbrPos : Nat) (nbrPort : CulmPort) (lanes : Nat) (s : State) : Out :=
  let x := culmAt s port
  .next (if !(cardAt s (cardOfCulm port)).serving ∨ 2 ≤ x.link then s
    else
      let s := updCulm port (fun x => { x with link := if lanes = 1 then 3 else 2, nbr := some (nbrPos, nbrPort), trainings := x.trainings + 1, aliveRx := none, downAt := now s }) s
      wireCheck port (joinSheaf s))
/-- CULM_PORT_DOWN (R303): no valid message for 8 frames. -/
def execCulmPortDown (port : CulmPort) (s : State) : Out :=
  .next (if portUp s port ∧ elapsed s (culmAt s port).downAt 8 then
      let s := updCulm port (fun x => { x with link := 0, nbr := none, aliveRx := none, downAt := now s }) s
      updSheaf (fun x => { x with topology := topologyOf s false }) s
    else s)
/-- CULM_RETRAIN (R303): an attempt every 400 frames. -/
def execCulmRetrain (port : CulmPort) (trained : Bool) (s : State) : Out :=
  let x := culmAt s port
  .next (if (cardAt s (cardOfCulm port)).serving ∧ x.link ≤ 1 ∧ elapsed s x.downAt 400 then
      if trained then joinSheaf (updCulm port (fun x => { x with link := 2, trainings := x.trainings + 1, aliveRx := none, downAt := now s }) s)
      else updCulm port (fun x => { x with link := 0, downAt := now s }) s
    else s)
/-- CULM_LANE_LOSS (R303, R324): one lane at half rate; without a lane the port is down. -/
def execCulmLaneLoss (port : CulmPort) (s : State) : Out :=
  .next (updCulm port (fun x => if x.link = 2 then { x with link := 3 }
                                else if x.link = 3 then { x with link := 0, nbr := none, aliveRx := none, downAt := now s } else x) s)

/-! ### Link delay (R306, R310). -/
/-- DELAY_MEASURE: at link-up and every 4,000 frames. -/
def execDelayMeasure (port : CulmPort) (s : State) : Out :=
  .next (match (culmAt s port).nbr with | some (n, _) => ownMsg port 2 n [] s | none => s)
/-- DELAY_REQ: answered with the counts of its sending and its arrival. -/
def execDelayReq (port : CulmPort) (hdr : CulmHdr) (sent recv : Nat) (s : State) : Out :=
  let (s, mine) := receive port 2 hdr false [sent] s
  .next (if mine then ownMsg port 3 hdr.src [sent, recv] s else s)
/-- DELAY_RSP: half the round trip less the responder's turnaround, in sixteenths of a count. -/
def execDelayRsp (port : CulmPort) (hdr : CulmHdr) (reqSent reqRecv rspSent rspRecv : Nat) (s : State) : Out :=
  let (s, mine) := receive port 3 hdr false [reqSent, reqRecv, rspSent] s
  .next (if mine then updCulm port (fun x => { x with delay := 8 * ((rspRecv - reqSent) - (rspSent - reqRecv)) }) s else s)

/-! ### Census (R304, R306, R313, R322). -/
/-- The rachis has been locked for 4,000 frames, or the module leads (R313). -/
def lockedLong (s : State) : Bool :=
  s.sheaf.st == 2 || (match s.sheaf.lockedFc with | some f => decide (f + 4000 ≤ s.time.fc) | none => false)
/-- Some member leads. -/
def leadKnown (s : State) : Bool := s.sheaf.st == 2 || (census s).any fun m => m.2.st == 2
/-- The module is eligible for the lead (R313). -/
def eligible (s : State) : Bool :=
  s.sheaf.enabled && !s.sheaf.handed && isMember s && (carries s.pair.ca || carries s.pair.cb) && (lockedLong s || !leadKnown s)
/-- The phase plan as PLAN carries it (R321). -/
def planBytes (p : PhasePlan) : List Byte :=
  fitTo p.length (le 2 p.cycle ++ [BitVec.ofNat 8 p.light, BitVec.ofNat 8 p.heavy] ++ zeros 60 ++ p.masks.flatMap (le 2))
def sendPlan (s : State) : State :=
  let (e, p) := s.sheaf.planNext.getD (0, s.sheaf.plan)
  broadcast 0x12 ([s.sheaf.planGen, e] ++ (planBytes p).map (·.toNat)) (updSheaf (fun x => { x with planAt := now s }) s)
/-- A member enters the census (R323, R327). -/
def joins (p : Nat) (s : State) : State :=
  let s := updSheaf (fun x => { x with membersMax := max x.membersMax (memberCount s) }) s
  aenPage 0xC9 (sheafEvent 0x501 0 (posObj p) 0 0 0 s)
/-- A member leaves the census (R323, R327). -/
def leaves (p : Nat) (s : State) : State := aenPage 0xC9 (sheafEvent 0x501 0 (posObj p) 1 0 0 s)
/-- A message of a member came by the path with fewer hops, with U0 on a tie, or the path to it has been silent for n frames
(R311). DESIGN CHOICE: a path counts as gone after 2 frames of silence for RACHIS, 17 for other messages (assumption 191). -/
def nearer (m : SheafMember) (port : CulmPort) (hops n : Nat) (s : State) : Bool :=
  decide (hops < m.hops) || m.via == port || !portUp s m.via || elapsed s m.viaAt n || (hops == m.hops && port == CulmPort.u0)
/-- A member has been heard: it is entered, or, at the lead, waits for the plan first (R322). -/
def heard (p : Nat) (port : CulmPort) (hops : Nat) (serial : List Byte) (code : Nat) (el ovr : Bool) (s : State) : State :=
  let m := memberAt' s p
  let new := m.st == 0
  let lead := s.sheaf.st == 2
  let st := if lead ∧ (new ∨ m.st = 4) then 4 else if code = 0 then (if el then 1 else 3) else if lead ∧ code = 2 then 1 else code
  let near := new || nearer m port hops 17 s
  let s := updMember p (fun m => { m with
    st := st, hops := if near then hops else m.hops, via := if near then port else m.via, viaAt := if near then now s else m.viaAt,
    eligible := el, override := ovr,
    serial := if serial = [] then m.serial else serial, seenSfc := sfcNow s, seenAt := now s }) s
  if new then (if lead then sendPlan s else joins p s) else s
/-- Two modules report this module's position: the higher serial number holds its ports down (R304). -/
def conflict (serial : List Byte) (s : State) : State :=
  if bytesLt serial Config.moduleSerial then
    aenPage 0xC9 (holdPort .u1 (holdPort .u0 (updSheaf (fun x => { x with st := 3, rachis := 0, drive := false, members := [] }) s)))
  else s
/-- The lowest eligible member other than the lead (R316). -/
def successor (s : State) : Option Nat := minBy id (((census s).filter fun m => m.2.eligible && m.2.st != 3).map (·.1))
/-- A handover begins (R316): the switch is at the next epoch boundary at least 16 frames ahead. -/
def startHand (cmd : Option (Port × Nat × Nat × Nat)) (x : Nat) (s : State) : State :=
  let sw := cdiv (sfcNow s + 16) 64 * 64
  broadcast 0x14 [x, sw] (updSheaf (fun y => { y with hand := some (x, sw), handCmd := cmd }) s)
/-- A lead hands over to an eligible member of a lower position (R313). -/
def yieldLead (p : Nat) (s : State) : State :=
  let m := memberAt' s p
  if s.sheaf.st = 2 ∧ p < s.sheaf.pos ∧ m.st = 1 ∧ m.eligible ∧ s.sheaf.hand.isNone then startHand none p s else s
/-- HELLO (R306): a neighbour's identity. -/
def execHello (port : CulmPort) (hdr : CulmHdr) (msg : HelloMsg) (s : State) : Out :=
  let (s, _) := receive port 4 { hdr with bcast := false } false [] s
  let good := decide ((culmAt s port).aliveRx = some hdr.alive) && hdr.crcOk && portUp s port
  if !good then .next s
  else
    let s := wireCheck port (updCulm port (fun x => { x with nbr := some (msg.pos, msg.port) }) s)
    .next (if !portUp s port then s
      else if msg.pos = s.sheaf.pos then (if msg.serial = Config.moduleSerial then s else conflict msg.serial s)
      else yieldLead msg.pos (heard msg.pos port 1 msg.serial 0 msg.eligible msg.override s))
/-- CENSUS (R304, R306). -/
def execCensus (port : CulmPort) (hdr : CulmHdr) (list : List CensusEntry) (s : State) : Out :=
  let (s, mine) := receive port 5 hdr true (list.flatMap fun e => [e.pos, e.state, e.hops, e.lastSfc]) s
  if !mine then .next s
  else
    match list.find? fun e => e.pos == s.sheaf.pos && e.serial != [] && decide (e.serial ≠ Config.moduleSerial) with
    | some e => .next (conflict e.serial s)
    | none =>
      let own := list.find? fun e => e.pos == hdr.src
      let code := match own with | some e => e.state | none => 1
      .next (yieldLead hdr.src (heard hdr.src port (hdr.hops + 1) ((own.map (·.serial)).getD []) (if code = 0 ∨ code = 4 then 1 else code)
        (code != 3 && code != 4) (memberAt' s hdr.src).override s))
/-- A Sheaf Phase Plan Set completes once every member of the census has acknowledged (R322). -/
def planDone (s : State) : State :=
  match s.sheaf.planCmd with
  | some (p, cid, opc) =>
    if (census s).all (·.2.acked) then
      finishChange { port := p, cid := cid, opc := BitVec.ofNat 8 opc } 0 (0, 0) 0 0 [] (updSheaf (fun x => { x with planCmd := none }) s)
    else s
  | none => s
/-- CENSUS_EXPIRY (R313, R323, R327): not heard for 64 frames. -/
def execCensusExpiry (pos : Nat) (s : State) : Out :=
  let m := memberAt' s pos
  .next (if m.st ≠ 0 ∧ elapsed s m.seenAt 64 ∧ pos ≠ s.sheaf.pos then
      let s := updSheaf (fun x => { x with members := tdel x.members pos }) s
      planDone (if m.st = 4 then s else leaves pos s)
    else s)

/-! ### Rachis (R309–R312, R314). -/
/-- One measurement of the rachis' lead over the module's tick: lock after 64 consecutive frames inside ±128 counts; after 4
consecutive frames outside it is lost, and the module holds over until the next measurement, from which it slews again (R55;
assumption 148). -/
def rachisStep (off : Int) (s : State) : State :=
  updSheaf (fun x =>
    let inn := decide (-128 ≤ off ∧ off ≤ 128)
    let i := if inn then x.inside + 1 else 0
    let o := if inn then 0 else x.outside + 1
    let st := if x.rachis = 1 then (if o < 4 then 1 else 3) else if 64 ≤ i then 1 else 2
    { x with
      offset := off, inside := i, outside := o, rachis := st, lockedFc := if st = 1 then some (x.lockedFc.getD s.time.fc) else none }) s
/-- A change of lead (R315, R316, R327): the records the old lead has not acknowledged go to the new one (R323). -/
def leadChange (p ep : Nat) (s : State) : State :=
  let old := s.sheaf.lead
  let s := updSheaf (fun x => { x with
    lead := p, leadEpoch := ep, leadChanges := x.leadChanges + 1, hand := none, eventSent := x.eventAcked,
    st := if p = x.pos then 2 else 1, drive := decide (p = x.pos) && x.backoff.isNone,
    members := x.members.map fun m => (m.1, { m.2 with st := if m.1 = p ∧ m.2.st ≠ 0 then 2 else if m.2.st = 2 then 1 else m.2.st }) }) s
  aenPage 0xC9 (sheafEvent 0x502 0 (posObj p) ep 0 old s)
/-- The lead emits RACHIS on both ports (R306, R309, R310). -/
def emitRachis (s : State) : State :=
  let c := Config.residence s.drawn
  broadcast 1 [sfcNow s, s.sheaf.leadEpoch, s.sheaf.pos, c] { s with drawn := s.drawn + 1 }
/-- A Sheaf Control command that waited for its handover (R325): 1 disables the ports, 2 makes the module ineligible. -/
def leaveSheaf (s : State) : State :=
  updCulm .u1 (fun x => { x with link := if x.link = 6 then 6 else 5, nbr := none, aliveRx := none })
    (updCulm .u0 (fun x => { x with link := if x.link = 6 then 6 else 5, nbr := none, aliveRx := none })
      (updSheaf (fun x => { x with
        enabled := false, st := if x.st = 3 ∨ x.st = 4 then x.st else 0, members := [], topology := 0, rachis := 0, drive := false,
        hand := none, grant := 0, base := 0, nextGrant := none, stale := false, over' := false, lockedFc := none, planNext := none }) s))
def handEnds (s : State) : State :=
  match s.sheaf.handCmd with
  | some (p, cid, opc, act) =>
    let s := updSheaf (fun x => { x with handCmd := none }) s
    let s := if act = 1 then leaveSheaf s else updSheaf (fun x => { x with handed := true }) s
    finishChange { port := p, cid := cid, opc := BitVec.ofNat 8 opc } act (0, 0) 0 0 [] s
  | none => s
/-- The module follows a rachis (R310, R311): SFC, lead and offset as the preferred path brings them; a preferred path silent for 2
frames counts as no longer there (DESIGN CHOICE, assumption 191). -/
def follow (port : CulmPort) (hops sfc ep p : Nat) (correction arrival : Int) (s : State) : State :=
  let near := nearer (memberAt' s p) port hops 2 s
  let s := updSheaf (fun x => { x with sfc := sfc, fcAt := s.time.fc, rachisAt := now s, lead := p, leadEpoch := ep }) s
  let s := updMember p (fun m => if m.st = 0 then m
    else if near then { m with seenAt := now s, seenSfc := sfc, hops := hops, via := port, viaAt := now s }
    else { m with seenAt := now s, seenSfc := sfc }) s
  if (memberAt' s p).via = port ∨ (memberAt' s p).st = 0 then
    rachisStep ((correction + (culmAt s port).delay) / 16 - arrival) s
  else s
/-- RACHIS: `arrival` is the count at which it arrived, from the module's own tick. -/
def rachis (port : CulmPort) (hdr : CulmHdr) (sfc ep p : Nat) (correction arrival : Int) (s : State) : State :=
  let c := Config.residence s.drawn
  let (s, mine) := receive port 1 hdr true [sfc, ep, p, (correction + (culmAt s port).delay + c).toNat] { s with drawn := s.drawn + 1 }
  if !mine ∨ !isMember s then s
  else
    let x := s.sheaf
    let current := x.st == 2 || !elapsed s x.rachisAt 2
    let lead := if x.st = 2 then x.pos else x.lead
    let known := leadKnown s
    if known ∧ p = lead then (if x.st = 2 then s else follow port (hdr.hops + 1) sfc ep p correction arrival s)
    else if !known || (decide (x.leadEpoch < ep) && ((match x.hand with | some (n, _) => n == p | none => false : Bool) || !current)) then
      handEnds (follow port (hdr.hops + 1) sfc ep p correction arrival (leadChange p ep s))
    else if p < lead then
      let s := updSheaf (fun x => { x with
        merges := x.merges + 1, leadChanges := x.leadChanges + 1, eventSent := x.eventAcked, st := 1, drive := false, inside := 0, hand := none,
        members := x.members.map fun m => (m.1, { m.2 with st := if m.1 = p ∧ m.2.st ≠ 0 then 2 else if m.2.st = 2 then 1 else m.2.st }) }) s
      follow port (hdr.hops + 1) sfc ep p correction arrival (aenPage 0xC9 (sheafEvent 0x503 0 (posObj p) 0 0 0 s))
    else s
def execRachis (port : CulmPort) (hdr : CulmHdr) (sfc leadEpoch leadPos : Nat) (correction arrival : Int) (s : State) : Out :=
  .next (rachis port hdr sfc leadEpoch leadPos correction arrival s)
/-- TICK_IO_PULSE (R312): a foreign pulse stops the module's own driving for 4,000 + 1,000 × position frames. -/
def execTickIoPulse (own : Bool) (s : State) : Out :=
  .next (if own then s
    else updSheaf (fun x => { x with
      foreignAt := some (now s), drive := false, backoff := if x.drive then some (now s + (4000 + 1000 * x.pos) * 16000) else x.backoff }) s)
/-- TICK_IO_FALLBACK (R311): sixteen frames without RACHIS; each pulse brings its measurement. -/
def execTickIoFallback (offset : Int) (s : State) : Out :=
  .next (if s.sheaf.st = 1 ∧ elapsed s s.sheaf.rachisAt 16 then
      updSheaf (fun x => { x with rachis := 4, offset := offset, foreignAt := some (now s), lockedFc := none, inside := 0 }) s
    else s)
/-- TICK_IO_DRIVE_RESUME (R312). -/
def execTickIoDriveResume (s : State) : Out :=
  let x := s.sheaf
  .next (match x.backoff with
    | some f =>
      if elapsed s f 0 && (match x.foreignAt with | some g => elapsed s g 64 | none => true : Bool) then
        updSheaf (fun x => { x with backoff := none, drive := x.st == 2 }) s
      else s
    | none => s)

/-! ### The lead (R313–R316). -/
/-- LEAD_LOST (R315, R324): the lowest eligible member remaining takes the lead and emits from its holdover; with both ports
down the module waits until the others have left its census. -/
def execLeadLost (s : State) : Out :=
  let x := s.sheaf
  let alone := !portUp s .u0 && !portUp s .u1
  if x.st ≠ 1 ∨ !elapsed s x.rachisAt (if alone then 64 else 16) then .next s
  else
    let gone := (census s).filter fun m => m.2.st == 2
    let s := updSheaf (fun x => { x with members := x.members.filter (fun m => m.2.st != 2), rachis := if x.rachis = 4 then 4 else 3 }) s
    let s := gone.foldl (fun s m => leaves m.1 s) s
    let lower := (census s).any fun m => m.2.eligible && decide (m.1 < x.pos)
    .next (if eligible s ∧ (!lower ∨ alone) then
        let s := leadChange x.pos (x.leadEpoch + 1) s
        emitRachis (updSheaf (fun y => { y with rachis := 1, offset := 0, membersMax := max y.membersMax (memberCount s) }) s)
      else s)
/-- HANDOVER (R316): successor and switch SFC. -/
def execHandover (hdr : CulmHdr) (successor switchSfc : Nat) (s : State) : Out :=
  let (s, mine) := receive hdr.port 0x14 hdr true [successor, switchSfc] s
  .next (if mine ∧ s.sheaf.st = 1 ∧ hdr.src = s.sheaf.lead then updSheaf (fun x => { x with hand := some (successor, switchSfc) }) s else s)
/-- HANDOVER_SWITCH (R316): the successor leads, the old lead stops. -/
def execHandoverSwitch (s : State) : Out :=
  match s.sheaf.hand with
  | some (n, sw) =>
    .next (if sfcNow s < sw then s
      else if n = s.sheaf.pos ∧ s.sheaf.st = 1 then
        emitRachis (updSheaf (fun x => { x with rachis := 1, offset := 0 }) (leadChange n (s.sheaf.leadEpoch + 1) s))
      else if s.sheaf.st = 2 then
        handEnds (updSheaf (fun x => { x with rachisAt := now s }) (leadChange n (s.sheaf.leadEpoch + 1) s))
      else s)
  | none => .next s

/-! ### The shelf budget (R317–R319). -/
/-- ceil(P − (M − 20) / 0.92) and the like, of P in watts and M as tenths of a milliwatt summed over 64 frames. -/
def overMedia (p : Int) (m : Nat) (sign : Int) : Int :=
  let num := p * 58880000 + sign * ((m : Int) - 12800000) * 100
  Int.neg ((-num) / 58880000)
/-- BASE and WANT of a member (R317). -/
def baseOf (s : State) : Nat := if 3 ≤ s.power.ps then capNow s else (overMedia s.power.pinMean s.power.chargeLast (-1)).toNat
def wantOf (s : State) : Nat :=
  if 3 ≤ s.power.ps then capNow s else min (capNow s) (overMedia (baseOf s) (min s.power.demandLast 64000000) 1).toNat
/-- DEMAND_SEND (R317): in frame 40 of an epoch. -/
def execDemandSend (s : State) : Out :=
  let d := (baseOf s, wantOf s)
  .next (if sfcNow s % 64 ≠ 40 ∨ !isMember s then s
    else if s.sheaf.st = 2 then updMember s.sheaf.pos (fun m => { m with demand := some d }) s
    else toMember s.sheaf.lead 0x10 [d.1, d.2, capNow s] s)
/-- DEMAND at the lead. -/
def execDemand (hdr : CulmHdr) (base want cap : Nat) (s : State) : Out :=
  let (s, mine) := receive hdr.port 0x10 hdr true [base, want, cap] s
  .next (if mine ∧ s.sheaf.st = 2 then updMember hdr.src (fun m => { m with demand := some (base, min want cap) }) s else s)
/-- Shares of R318 over (position, BASE, WANT), lowest position first: grants, and OVER. -/
def shareOut (b : Nat) (l : List (Nat × Nat × Nat)) : List (Nat × Nat × Nat × Nat) × Bool :=
  let base := (l.map fun m => m.2.1).foldl (· + ·) 0
  let avail := b - base
  let x := (l.map fun m => m.2.2 - m.2.1).foldl (· + ·) 0
  let g := l.map fun m => (m.1, m.2.1, m.2.2, m.2.1 + if x ≤ avail then m.2.2 - m.2.1 else (m.2.2 - m.2.1) * avail / x)
  let left := b - (g.map fun m => m.2.2.2).foldl (· + ·) 0
  let r := g.foldl (fun (acc : List (Nat × Nat × Nat × Nat) × Nat) m =>
    if 0 < acc.2 ∧ m.2.2.2 < m.2.2.1 then (acc.1 ++ [(m.1, m.2.1, m.2.2.1, m.2.2.2 + 1)], acc.2 - 1) else (acc.1 ++ [m], acc.2)) ([], left)
  (r.1, decide (b < base))
/-- GRANT_COMPUTE (R318, R319, R327): by frame 56. -/
def execGrantCompute (s : State) : Out :=
  let x := s.sheaf
  let ph := sfcNow s % 64
  if x.st ≠ 2 ∨ ph < 40 ∨ 56 < ph then .next s
  else
    let n := memberCount s
    let b := if n < x.membersMax then x.budget * n / x.membersMax else x.budget
    let own := memberAt' s x.pos
    let all := sortBy (fun a b => decide (a.1 < b.1)) ((x.pos, own) :: census s)
    let l := all.map fun m => let d := m.2.demand.getD (m.2.base, m.2.want); (m.1, d.1, d.2)
    let (g, ovr) := shareOut b l
    let s := g.foldl (fun s m => updMember m.1 (fun y => { y with base := m.2.1, want := m.2.2.1, grant := m.2.2.2 }) s) s
    let s := if ovr ∧ !x.over' then
        aenPage 0xC9 (sheafEvent 0x504 1 0 x.budget ((g.map fun m => m.2.1).foldl (· + ·) 0) 0 s)
      else s
    let s := updSheaf (fun y => { y with
      over' := ovr, nextGrant := (g.find? fun m => m.1 == x.pos).map fun m => (epochNow s + 1, m.2.2.2, m.2.1) }) s
    .next (broadcast 0x11 ([epochNow s + 1, x.budget, b2n ovr] ++ g.flatMap fun m => [m.1, m.2.1, m.2.2.1, m.2.2.2]) s)
/-- GRANT at a member (R318): applied at the tick that starts its epoch; the budget it carries is saved (R325, R348). -/
def execGrant (hdr : CulmHdr) (epoch budget : Nat) (ovr : Bool) (shares : List GrantShare) (s : State) : Out :=
  let (s, mine) := receive hdr.port 0x11 hdr true ([epoch, budget, b2n ovr] ++ shares.flatMap fun g => [g.pos, g.base, g.want, g.grant]) s
  if !mine ∨ s.sheaf.st ≠ 1 ∨ hdr.src ≠ s.sheaf.lead then .next s
  else
    let s := shares.foldl (fun s g => updMember g.pos (fun y => { y with base := g.base, want := g.want, grant := g.grant }) s) s
    let s := if budget ≠ s.sheaf.budget then
        change 0xE4 3 4 0 0 0 0 [] none (updSheaf (fun x => { x with budget := budget, membersMax := memberCount s }) s)
      else s
    let s := if ovr ∧ !s.sheaf.over' then aenPage 0xC9 s else s
    .next (updSheaf (fun x => { x with
      over' := ovr
      nextGrant := match shares.find? fun g => g.pos == x.pos with | some g => some (epoch, g.grant, g.base) | none => x.nextGrant }) s)
/-- GRANT_STALE (R318): after four epochs without a GRANT the member uses its partition share. -/
def execGrantStale (s : State) : Out :=
  .next (if isMember s ∧ 4 ≤ s.sheaf.grantless ∧ !s.sheaf.stale then
      updSheaf (fun x => { x with stale := true, grant := max x.base (min x.grant (x.budget / max 1 x.membersMax)) }) s
    else s)

/-! ### The phase plan (R320–R322). -/
/-- A plan structure (R321). -/
def planOf (b : List Byte) : PhasePlan :=
  { cycle := fld b 0 2, light := fld b 2 1, heavy := fld b 3 1, masks := (List.range (fld b 0 2)).map fun i => fld b (64 + 2 * i) 2, length := b.length }
/-- The checks of R321. -/
def planOk (b : List Byte) (len : Nat) : Bool :=
  let c := fld b 0 2
  decide (1 ≤ c ∧ c ≤ 2016) && decide (fld b 2 1 ≤ 16) && decide (1 ≤ fld b 3 1 ∧ fld b 3 1 ≤ 64 ∧ fld b 2 1 ≤ fld b 3 1)
    && decide (len = 64 * cdiv (64 + 2 * c) 64) && allZero (slice' b 4 60) && allZero ((b.take len).drop (64 + 2 * c))
/-- PLAN at a member (R322): saved, in force from its first epoch, acknowledged. -/
def execPlan (hdr : CulmHdr) (planGen firstEpoch : Nat) (body : List Byte) (s : State) : Out :=
  let (s, mine) := receive hdr.port 0x12 hdr true ([planGen, firstEpoch] ++ body.map (·.toNat)) s
  if !mine ∨ s.sheaf.st ≠ 1 then .next s
  else
    let s := if planGen ≠ s.sheaf.planGen then
        sheafEvent 0x505 0 0 planGen firstEpoch 0 (change 0xE5 0 4 0 0 0 0 [] none
          (updSheaf (fun x => { x with planGen := planGen, planNext := some (firstEpoch, planOf body) }) s))
      else s
    .next (toMember hdr.src 0x13 [planGen] s)
/-- PLAN_ACK at the lead (R322): a joining member counts in the census from now on. -/
def execPlanAck (hdr : CulmHdr) (planGen : Nat) (s : State) : Out :=
  let (s, mine) := receive hdr.port 0x13 hdr true [planGen] s
  if !mine ∨ s.sheaf.st ≠ 2 ∨ planGen ≠ s.sheaf.planGen then .next s
  else
    let m := memberAt' s hdr.src
    let s := updMember hdr.src (fun m => if m.st = 0 then m else { m with acked := true, st := if m.st = 4 then (if m.eligible then 1 else 3) else m.st }) s
    .next (planDone (if m.st = 4 then joins hdr.src s else s))
/-- The records of the module recorder, oldest first, and records as the bytes of a message (R306, R323). -/
def ownRecords (s : State) : List EventRec := (recAt s s.time.master).main ++ (recAt s s.time.master).reserve
def recNums (l : List EventRec) : List Nat := (l.flatMap recBytes).map (·.toNat)
/-- Records of the module recorder not yet sent to the lead, at most 64 of them, in messages of 16 (R323). -/
def sendEvents (s : State) : State :=
  let a := s.sheaf.eventSent
  let n := min 64 ((ownRecords s).length - a)
  if s.sheaf.st ≠ 1 ∨ n = 0 then s
  else updSheaf (fun x => { x with eventSent := a + n, eventAt := now s })
    ((List.range (cdiv n 16)).foldl (fun s i => toMember s.sheaf.lead 0x20 (recNums (((ownRecords s).drop (a + 16 * i)).take (min 16 (n - 16 * i)))) s) s)
/-- PLAN_RESEND (R308): sixteen frames without acknowledgement. -/
def execPlanResend (s : State) : Out :=
  .next (if s.sheaf.st = 2 then
      (if (s.sheaf.members.any fun m => m.2.st != 0 && m.1 != s.sheaf.pos && !m.2.acked) ∧ elapsed s s.sheaf.planAt 16 then sendPlan s else s)
    else if elapsed s s.sheaf.eventAt 16 then sendEvents (updSheaf (fun x => { x with eventSent := x.eventAcked }) s)
    else s)

/-! ### Sheaf events (R323). -/
/-- A copy enters the lead's ring, which keeps 65,536. -/
def ringAdd (p : Nat) (r : EventRec) (s : State) : State :=
  updSheaf (fun x =>
    let l := x.ring ++ [(sfcNow s, p, r)]
    if 65536 < l.length then { x with ring := l.drop 1, ringFirst := x.ringFirst + 1 } else { x with ring := l }) s
/-- SHEAF_EVENT at the lead; its answer brings the last record accepted. -/
def execSheafEvent (hdr : CulmHdr) (records : List EventRec) (s : State) : Out :=
  let (s, mine) := receive hdr.port 0x20 hdr true (recNums records) s
  .next (if mine ∧ s.sheaf.st = 2 then toMember hdr.src 0x21 (recNums records.getLast?.toList) (records.foldl (fun s r => ringAdd hdr.src r s) s) else s)
/-- Number of the module recorder's records up to the first one like r that the lead has not acknowledged (R323). -/
def recordsAcked (s : State) (r : EventRec) : Nat :=
  match ((ownRecords s).drop s.sheaf.eventAcked).findIdx? (· == r) with | some i => s.sheaf.eventAcked + i + 1 | none => s.sheaf.eventAcked
/-- EVENT_ACK at a member: the last record accepted, and with it every record before it. -/
def execEventAck (hdr : CulmHdr) (last : EventRec) (s : State) : Out :=
  let (s, mine) := receive hdr.port 0x21 hdr true (recNums [last]) s
  .next (if mine ∧ hdr.src = s.sheaf.lead then updSheaf (fun x => { x with eventAcked := recordsAcked s last }) s else s)

end Sys2Proof.Machine
end

