-- ==== Sys2Proof/Machine/Recorder.lean ====
section
/-! DEFINITION. Event recording: intake and rate limits (R371–R379), the writer (R380, R381), frond event stores (R383),
erasing after a clear (R385). -/
namespace Sys2Proof.Machine
open Sys2Proof

/-- Positions of the main area and of the change reserve (R381). -/
def mainSize : Nat := 1044480
def reserveSize : Nat := 4096
/-- Change records and markers of the recorders take no token (R377). -/
def execEventIntake (code cls source obj arg0 arg1 arg2 cnt : Nat) (s : State) : Out :=
  let s := atCount cnt s
  let r := mkRec s code cls source (evData obj arg0 arg1 arg2)
  .next (if code = 0 ∨ s.time.resetHeld ∨ !anyServe s then s
    else if code < 256 then updEvents (fun ev => { ev with sumQ := ev.sumQ ++ [r] }) s
    else intake r s)

/-! ### Refill and summaries (R377, R378). -/
/-- Depth and refill of a code: an override gives both (R386). -/
def refillOf (ev : Events) (code : Nat) : Nat :=
  match ev.overrides.find? (fun p => p.1 == code) with | some p => p.2 | none => ev.refill
/-- Summary of a code's suppressed counts. -/
def summaryRec (s : State) (code : Nat) (b : Bucket) : EventRec :=
  mkRec s 1 4 (cardNo s.time.master)
    (code % 2 ^ 16 + b.rate % 2 ^ 32 * 2 ^ 32 + b.ring % 2 ^ 32 * 2 ^ 64 + b.first % 2 ^ 64 * 2 ^ 96 + b.last % 2 ^ 64 * 2 ^ 160)
/-- One code's summary: queued where the queue has room and the recorder is not full, else the code is left over. -/
def summarise (s : State) (ev : Events) (x : Nat × Bucket) : Events :=
  if ev.sumQ.length < 64 ∧ !recFull s then
    { ev with sumQ := ev.sumQ ++ [summaryRec s x.1 x.2], buckets := tput ({} : Bucket) ev.buckets x.1 { taken := x.2.taken } }
  else { ev with buckets := tput ({} : Bucket) ev.buckets x.1 { x.2 with left := true } }
/-- EVENT_REFILL (R377, R378): once at each tick with FC mod PERIOD = 0. -/
def execEventRefill (s : State) : Out :=
  if s.time.fc % max 1 s.events.period ≠ 0 ∨ s.events.refilled = some s.time.fc then .next s
  else
    let supp := s.events.buckets.filter fun b => 0 < b.2.rate + b.2.ring
    let order := (supp.filter fun b => b.2.left) ++ supp.filter fun b => !b.2.left
    let ev := order.foldl (summarise s) { s.events with refilled := some s.time.fc }
    let full := fun (b : Bucket) => 0 < b.rate + b.ring
    .next { s with events := ev.buckets.foldl (fun e b =>
      if full b.2 then e
      else { e with buckets := tput ({} : Bucket) e.buckets b.1 { b.2 with taken := b.2.taken - refillOf ev b.1 } }) ev }

/-! ### The writer (R379–R381). -/
/-- A store position has been erased (R385). -/
def slotErased (ev : Events) (pos : Nat) : Bool := match ev.erasedTo with | none => true | some k => decide (pos < k * 1024)
/-- Order of intake of the heads of the two queues that the writer takes before the ring. -/
def sooner (a b : EventRec) : Bool := decide (a.fc < b.fc) || (a.fc == b.fc && decide (a.count ≤ b.count))
/-- The next record for a program that would put it at main position m or reserve position r. -/
def nextRecord (m r : Nat) (ev : Events) : Option ((EventRec × Option Cqe) × Events) :=
  let roomy := decide (m < mainSize) && slotErased ev m
  let change : Option ((EventRec × Option Cqe) × Events) := match ev.changeQ with
    | c :: q =>
      if roomy then some (c, { ev with changeQ := q })
      else if mainSize ≤ m ∧ r < reserveSize ∧ slotErased ev (mainSize + r) then
        some (({ c.1 with reserve := true }, c.2), { ev with changeQ := q })
      else none
    | [] => none
  match ev.sumQ, change with
  | x :: q, some c => if roomy && sooner x c.1.1 then some ((x, none), { ev with sumQ := q }) else some c
  | x :: q, none => if roomy then some ((x, none), { ev with sumQ := q }) else none
  | [], some c => some c
  | [], none => match ev.ring with
    | x :: q => if roomy then some ((x, none), { ev with ring := q }) else none
    | [] => none
/-- After the marker of a clear comes that clear's change record (R349, R385): the queue of summaries and markers waits. -/
def nextAfter (clear : Bool) (m r : Nat) (ev : Events) : Option ((EventRec × Option Cqe) × Events) :=
  if clear ∧ ev.changeQ ≠ [] then (nextRecord m r { ev with sumQ := [] }).map fun x => (x.1, { x.2 with sumQ := ev.sumQ })
  else nextRecord m r ev
/-- Up to n records of one program. -/
def gather : Nat → Bool → Nat → Nat → Events → List (EventRec × Option Cqe) × Events
  | 0, _, _, _, ev => ([], ev)
  | n + 1, clear, m, r, ev => match nextAfter clear m r ev with
    | none => ([], ev)
    | some (x, ev) =>
      let c := x.1.code == 4
      let (l, ev) := if x.1.reserve then gather n c m (r + 1) ev else gather n c (m + 1) r ev
      (x :: l, ev)
/-- HE5 starts its next program where none runs (R380). -/
def startProgram (s : State) : State :=
  if s.events.writing ≠ [] ∨ !anyServe s then s
  else
    let r := recAt s s.time.master
    let (l, ev) := gather 4 false r.main.length r.reserve.length s.events
    { s with events := { ev with writing := l } }
/-- A full main area records no event that is not a change: what waits is counted (R381). -/
def dropFull (s : State) : State :=
  if recFull s then
    updEvents (fun ev => { ev with dropped := ev.dropped + ev.ring.length + ev.sumQ.length, ring := [], sumQ := [] }) s
  else s
/-- FULL of the module recorder becomes 1 (R381, R388). -/
def fullCheck (s : State) : State :=
  let r := recAt s s.time.master
  if mainSize ≤ r.main.length ∧ !r.full then
    aenPage 0xC0 (dropFull (updRec .cb (fun r => { r with full := true }) (updRec .ca (fun r => { r with full := true }) s)))
  else dropFull s

/-! ### Frond event stores (R383, R388). -/
/-- The frond that a unit in the OBJECT encoding lies on. -/
def frondOfObj (v : Nat) : Option Nat :=
  let i := v / 256
  match v % 256 with
  | 1 => some (i / 256) | 2 => some (i / 4096 / 256) | 3 => some (i / 8) | 4 => some i | _ => none
/-- A record concerns a frond: its Filnas is the source, OBJECT or ARG2 names the frond or a part of it, or it sums up a
code of which the frond's store holds a record. -/
def concerns (g : FrondSt) (f : Nat) (r : EventRec) : Bool :=
  if r.code = 1 then (g.store ++ g.storeQ).any fun x => decide (x.code = r.data % 2 ^ 16)
  else r.source == 2 + f
    || (decide (256 ≤ r.code) && (frondOfObj (r.data % 2 ^ 64) == some f || frondOfObj (r.data / 2 ^ 192 % 2 ^ 64) == some f))
/-- A copy is written in a store; a full store keeps its first records. -/
def storePut (f : Nat) (r : EventRec) (s : State) : State :=
  let g := frondAt s f
  if g.store.length < 4096 then updFrond f (fun g => { g with store := g.store ++ [r] }) s
  else
    let s := updFrond f (fun g => { g with storeFull := true, storeDrop := g.storeDrop + 1 }) s
    if g.storeFull then s else aenPage 0xC1 s
/-- A copy for a frond: written, kept while the frond is powered off, or not written (R383). -/
def copyTo (f : Nat) (r : EventRec) (s : State) : State :=
  let g := frondAt s f
  if !concerns g f r ∨ !g.present ∨ g.state = 7 then s
  else if frondPowered s f then storePut f r s
  else updFrond f (fun g => { g with storeQ := if g.storeQ.length < 64 then g.storeQ ++ [r] else g.storeQ }) s
/-- Copies that waited for a frond's power are written (R383). -/
def flushStore (f : Nat) (s : State) : State :=
  if frondPowered s f then (frondAt s f).storeQ.foldl (fun s r => storePut f r s) (updFrond f (fun g => { g with storeQ := [] }) s) else s
/-- A record stands in the recorders: its copies go to the fronds and, on the lead, to the sheaf ring (R323, R383). -/
def recorded (r : EventRec) (s : State) : State :=
  let s := if s.sheaf.st = 2 then ringAdd s.sheaf.pos r s else s
  if r.code = 0x10 ∨ r.cls = 5 then s else (List.range 16).foldl (fun s f => copyTo f r s) s
/-- The running program has ended (R371, R380): its records stand in the recorders of both serving cards, and the commands
that waited for them complete (R348). -/
def programEnd (s : State) : State :=
  let w := s.events.writing
  let put := fun (c : CardId) (s : State) =>
    if (cardAt s c).serving ∧ !(cardAt s c).copying then updRec c (putRecords (w.map (·.1))) s else s
  let s := put .ca (put .cb (updEvents (fun ev => { ev with writing := [] }) s))
  let s := w.foldl (fun s x => recorded x.1 (countChange x.1 s)) s
  let s := w.foldl (fun s x => match x.2 with | some q => post q 0 q.nsid s | none => s) s
  let s := if reserveFree s < 256 ∧ w.any (·.1.reserve) then aenPage 0xCC s else s
  startProgram (fullCheck s)
def execRecorderProgramEnd (s : State) : Out := .next (programEnd s)
/-- RECORDER_COPY_DONE (R372): the card's recorder equals its partner's. -/
def execRecorderCopyDone (card : CardId) (s : State) : Out :=
  .next (if (cardAt s card).copying then
      updCard card (fun c => { c with copying := false }) (updRec card (fun _ => recAt s (other card)) s)
    else s)
/-- RECORDER_SECTOR_ERASE_DONE (R385): one 64 KiB sector more is erased. -/
def execRecorderSectorEraseDone (s : State) : Out :=
  .next (updEvents (fun ev => { ev with
    erasedTo := match ev.erasedTo with | some k => if 1023 ≤ k then none else some (k + 1) | none => none }) s)

end Sys2Proof.Machine
end

