-- ==== Sys2Proof/Machine/Admin.lean ====
section
/-! DEFINITION. The admin queues: which commands run when (R174, R333, R343, R344, R408, R428, R463), queues (R159, R195),
Abort and Asynchronous Event Request (R158, R162). -/
namespace Sys2Proof.Machine
open Sys2Proof

/-! ### The fields of an admin entry. -/
def setBits (v : Dword) (hi lo x : Nat) : Dword :=
  BitVec.ofNat 32 (v.toNat - bits v.toNat hi lo * 2 ^ lo + x % 2 ^ (hi + 1 - lo) * 2 ^ lo)
/-- The row names opcode and selectors; the other fields are the entry's. -/
def asAdmin (opc : Byte) (e : Sqe) : Sqe := { e with opc := opc }
def with10 (hi lo x : Nat) (e : Sqe) : Sqe := { e with cdw10 := setBits e.cdw10 hi lo x }
/-- The bits of CDW10–CDW15 outside the masks given are zero (R12, R178). -/
def rsvdOk (m10 m11 m12 m13 m14 m15 : Nat) (e : Sqe) : Bool :=
  let free := fun (v : Dword) (m : Nat) => decide (v.toNat ||| m = m)
  free e.cdw10 m10 && free e.cdw11 m11 && free e.cdw12 m12 && free e.cdw13 m13 && free e.cdw14 m14 && free e.cdw15 m15
/-- A Set Features identifier. -/
def fidOf (e : Sqe) : Nat := d10 e 7 0
/-- Commands that need a token at guard level 2 (R344). -/
def needsToken (e : Sqe) : Bool :=
  match e.opc.toNat with
  | 0x0D | 0x15 | 0x80 | 0x84 | 0x10 | 0xC1 | 0xC4 | 0xC5 | 0xD1 | 0xD5 | 0xF1 | 0xE9 | 0xE4 | 0xE5 | 0xEC => true
  | 0x09 => decide (0xC0 ≤ fidOf e ∧ fidOf e ≤ 0xC8)
  | 0xE0 => decide (d10 e 11 8 ≤ 3)
  | _ => false
/-- Commands that are configuration changes (R348). -/
def isChange (e : Sqe) : Bool := needsToken e || e.opc == 0xDC || e.opc == 0xE8
/-- What a change record names beside the opcode: Feature Identifier, SLICE or ACTION (R348). -/
def whatOf (e : Sqe) : Nat :=
  match e.opc.toNat with
  | 0x09 => fidOf e
  | 0xC1 | 0xC4 | 0xC5 | 0xD1 => d10 e 9 0
  | 0xE0 | 0xEC => d10 e 11 8
  | 0xE4 => d10 e 3 0
  | 0x0D | 0x15 => d10 e 3 0
  | 0x10 => d10 e 5 3
  | _ => 0
/-- An admin command ends: a configuration change once its record is written (R348), any other at once. -/
def ends (e : Sqe) (st : Nat × Nat) (dw0 dw1 : Nat) (data : List Byte) (s : State) : State :=
  if isChange e then finishChange e (whatOf e) st dw0 dw1 data s else finish e st.1 st.2 dw0 dw1 data s
def done (e : Sqe) (s : State) : State := ends e (0, 0) 0 0 [] s
def bad (e : Sqe) (st : Nat × Nat) (s : State) : State := ends e st 0 0 [] s
/-- Authorization Refused with its reason (R342, R350). -/
def refused (e : Sqe) (reason : Nat) (s : State) : State :=
  finish e 7 0x88 reason 0 [] (updSec (fun x => { x with refused := x.refused + 1, lastReason := reason }) s)

/-! ### Tokens of TYPE 2 (R341, R343). -/
/-- CDW10 to CDW15 as bytes. -/
def cdwBytes (e : Sqe) : List Byte :=
  [e.cdw10, e.cdw11, e.cdw12, e.cdw13, e.cdw14, e.cdw15].flatMap fun v => le 4 v.toNat
/-- Data that an admin command transfers from the host: the low two bits of its opcode say so. -/
def hostData (e : Sqe) : List Byte := if e.opc.toNat % 4 = 1 then e.data else []
/-- A TYPE 2 body matches a command in every field. -/
def tokenFits (e : Sqe) (t : Token) : Bool :=
  let d := hostData e
  t.type == 2 && !t.used && fld t.body 0 1 == e.opc.toNat && (fld t.body 1 1 % 4 == 2 || fld t.body 1 1 % 4 == portNo e.port)
    && fld t.body 4 4 == e.nsid && slice' t.body 8 24 == cdwBytes e && fld t.body 32 4 == d.length
    && slice' t.body 40 32 == (if d = [] then zeros 32 else fitTo 32 (Config.sha256 d))
/-- Consumes the oldest held token that fits; its KEY_ID is kept for the change record (R343, R348). -/
def consume (e : Sqe) (s : State) : Option State :=
  match s.sec.tokens.find? (tokenFits e) with
  | some t => some (updSec (fun x => { x with
      tokens := x.tokens.filter fun y => y.handle ≠ t.handle
      keyIds := tput [] x.keyIds (portNo e.port * 65536 + e.cid) t.keyId }) s)
  | none => none

/-! ### The gate. -/
/-- The admin queue of a port is served (R174, R175, R427, R430). -/
def adminOpen (s : State) (p : Port) : Bool :=
  let c := ctrlAt s p
  c.link && c.rdy && c.shst == 0 && (cardAt s (cardOf p)).serving && !s.time.resetHeld
/-- Commands served in PS3 and PS4 without leaving the state (R408). -/
def nonWaking (e : Sqe) : Bool :=
  match e.opc.toNat with
  | 0x06 | 0x02 | 0x0A | 0x0C | 0x08 => true
  | 0x09 => [0x02, 0x04, 0x0E, 0xC1, 0xC2].contains (fidOf e)
  | _ => false
/-- Identify, Get Log Page and Get Features (R333). -/
def readsAdmin (e : Sqe) : Bool := [0x06, 0x02, 0x0A].contains e.opc.toNat
/-- The command names a namespace that is not ready yet (R428). -/
def nsWaits (s : State) (e : Sqe) : Bool :=
  let one := (nsAt s e.nsid).used && !(nsAt s e.nsid).ready
  match e.opc.toNat with
  | 0x0D => d10 e 3 0 == 1 && one
  | 0x15 => one
  | 0x80 => one || (e.nsid == 0xFFFFFFFF && s.nss.any fun n => n.2.used && !n.2.ready)
  | _ => false
/-- Admin opcodes that the module supports. -/
def adminOpcodes : List Nat :=
  [0x00, 0x01, 0x02, 0x04, 0x05, 0x06, 0x08, 0x09, 0x0A, 0x0C, 0x0D, 0x10, 0x11, 0x15, 0x80, 0x84, 0xC1, 0xC4, 0xC5, 0xC6, 0xC8, 0xCC,
   0xD0, 0xD1, 0xD5, 0xD6, 0xD9, 0xDC, 0xE0, 0xE4, 0xE5, 0xE8, 0xE9, 0xEC, 0xF1]
/-- The tick master is handing over, and takes no token (R301 step 1). -/
def handing (s : State) (e : Sqe) : Bool := s.pair.handTo.isSome && e.opc == 0xD9#8
/-- Runs an admin command, or keeps it waiting: for the exit that it causes (R408), for the end of a guard level change or
Sanitize (R333), for its namespace (R428), for a move of the tick master (R301). A change needs room for its record (R349), and at level 2 its token (R344). An
admin command accepts a PRP data pointer only (R159). -/
def admin (e : Sqe) (run : State → State) (s : State) : State :=
  let s := atCount e.cnt s
  let run := fun s => if e.psdt ≠ 0 ∧ adminOpcodes.contains e.opc.toNat then bad e invalidField s else run s
  if e.sqid ≠ 0 ∨ !adminOpen s e.port then s
  else if (3 ≤ s.power.ps ∨ s.power.entry.isSome ∨ s.power.exit.isSome) ∧ !nonWaking e then
    wakeEvent none (updPower (fun p => { p with woken := p.woken ++ [e] }) s)
  else if (s.sec.running.isSome ∧ !readsAdmin e) ∨ nsWaits s e ∨ handing s e then { s with heldAdmin := s.heldAdmin ++ [e] }
  else if isChange e ∧ !changeRoom s then refused e 11 s
  else if s.sec.level = 2 ∧ needsToken e then
    match consume e s with | some s => run s | none => refused e 10 s
  else run s

/-! ### Queues (R159, R195, R211). -/
/-- A slice may own queues of a port: slice 0 on both, another on the port it is bound to (R192, R195). -/
def sliceOn (s : State) (p : Port) (sl : Nat) : Bool := sl == 0 || ((sliceAt s sl).st != 0 && decide ((sliceAt s sl).port = p))
/-- NVMe status codes of queue commands (assumption 15). -/
def cqInvalid : Nat × Nat := (1, 0x00)
def qidInvalid : Nat × Nat := (1, 0x01)
def qsizeInvalid : Nat × Nat := (1, 0x02)
def vectorInvalid : Nat × Nat := (1, 0x08)
def qDeletion : Nat × Nat := (1, 0x0C)
/-- CREATE_IO_COMPLETION_QUEUE (R159, R195). -/
def createCq (e : Sqe) (s : State) : State :=
  let id := d10 e 15 0
  let size := d10 e 31 16
  let sl := d13 e 9 0
  let k := qKey e.port id
  let held := (s.cqs.filter fun q => q.2.used && q.2.slice == sl).length
  if !sliceOn s e.port sl then bad e invalidField s
  else if id = 0 ∨ (ctrlAt s e.port).ncq < id ∨ (cqAt s k).used ∨ (sliceAt s sl).qpairs ≤ held then bad e qidInvalid s
  else if size = 0 ∨ 4095 < size then bad e qsizeInvalid s
  else if 2048 ≤ d11 e 31 16 then bad e vectorInvalid s
  else
    done e (updCq k (fun _ => { used := true, slice := sl, size := size, base := e.dptr.toNat % 2 ^ 64, vector := d11 e 31 16, ien := bit e.cdw11.toNat 1 }) s)
def execCreateIoCompletionQueue (e : Sqe) (s : State) : Out := .next (admin (asAdmin 0x05 e) (createCq (asAdmin 0x05 e)) s)
/-- CREATE_IO_SUBMISSION_QUEUE (R159, R195). -/
def createSq (e : Sqe) (s : State) : State :=
  let id := d10 e 15 0
  let size := d10 e 31 16
  let sl := d13 e 9 0
  let k := qKey e.port id
  let cq := cqAt s (qKey e.port (d11 e 31 16))
  let held := (s.sqs.filter fun q => q.2.used && q.2.slice == sl).length
  if !sliceOn s e.port sl then bad e invalidField s
  else if id = 0 ∨ (ctrlAt s e.port).nsq < id ∨ (sqAt s k).used ∨ (sliceAt s sl).qpairs ≤ held then bad e qidInvalid s
  else if size = 0 ∨ 4095 < size then bad e qsizeInvalid s
  else if !cq.used ∨ cq.slice ≠ sl then bad e cqInvalid s
  else
    done e (updSq k (fun _ => { used := true, slice := sl, cqid := d11 e 31 16, size := size, base := e.dptr.toNat % 2 ^ 64, contig := bit e.cdw11.toNat 0 }) s)
def execCreateIoSubmissionQueue (e : Sqe) (s : State) : Out := .next (admin (asAdmin 0x01 e) (createSq (asAdmin 0x01 e)) s)
/-- A command may be aborted: not a write whose first seedbed program has been issued (R162), not one whose journal records
or acknowledgement are outstanding. -/
def abortable (c : Cmd) : Bool :=
  !((c.issued && (isWrite c.kind || c.kind == .copy)) || c.st == .journal || c.st == .ackWait)
/-- Ends a fetched command with a status of NVMe: its assigned blocks become fill codewords (R162). -/
def abortCmd (st : Nat × Nat) (k : Nat) (s : State) : State := failCmd k st 0 0 s
/-- DELETE_IO_SUBMISSION_QUEUE (R162, R169): commands of the queue that can be aborted end with Command Aborted due to SQ
Deletion, the others without completion. -/
def deleteSq (e : Sqe) (s : State) : State :=
  let id := d10 e 15 0
  let k := qKey e.port id
  if id = 0 ∨ !(sqAt s k).used then bad e qidInvalid s
  else
    let l := (s.cmds.filter fun c => decide (c.2.e.port = e.port) && c.2.e.sqid == id).map (·.1)
    let s := l.foldl (fun s c => if abortable (cmdAt s c) then abortCmd (0, 0x08) c s else updCmd c (fun x => { x with silent := true }) s) s
    done e { s with sqs := tdel s.sqs k }
def execDeleteIoSubmissionQueue (e : Sqe) (s : State) : Out := .next (admin (asAdmin 0x00 e) (deleteSq (asAdmin 0x00 e)) s)
/-- DELETE_IO_COMPLETION_QUEUE (R162). -/
def deleteCq (e : Sqe) (s : State) : State :=
  let id := d10 e 15 0
  let k := qKey e.port id
  if id = 0 ∨ !(cqAt s k).used then bad e qidInvalid s
  else if s.sqs.any fun q => q.2.used && q.1 / 65536 == portNo e.port && q.2.cqid == id then bad e qDeletion s
  else done e { s with cqs := tdel s.cqs k }
def execDeleteIoCompletionQueue (e : Sqe) (s : State) : Out := .next (admin (asAdmin 0x04 e) (deleteCq (asAdmin 0x04 e)) s)

/-! ### Abort and Asynchronous Event Request (R158, R162). -/
/-- ABORT (R162): Dword 0 bit 0 is 1 where it is not performed. -/
def abort (e : Sqe) (s : State) : State :=
  let sq := d10 e 15 0
  let cid := d10 e 31 16
  let is := fun (x : Sqe) => decide (x.port = e.port) && x.cid == cid
  let gone : Cqe := { port := e.port, cid := cid, sct := 0, sc := 7 }
  if sq ≠ 0 then
    match s.cmds.find? fun c => is c.2.e && c.2.e.sqid == sq with
    | some c => if abortable c.2 then okDw e 0 (abortCmd (0, 7) c.1 s) else okDw e 1 s
    | none => okDw e 1 s
  else if (ctrlAt s e.port).aers.contains cid then
    okDw e 0 (post gone 0 0 (updCtrl e.port (fun c => { c with aers := lrem c.aers cid }) s))
  else if s.heldAdmin.any is then okDw e 0 (post gone 0 0 { s with heldAdmin := s.heldAdmin.filter fun x => !is x })
  else if s.power.woken.any is then
    okDw e 0 (post gone 0 0 (updPower (fun p => { p with woken := p.woken.filter fun x => !is x }) s))
  else okDw e 1 s
def execAbort (e : Sqe) (s : State) : Out := .next (admin (asAdmin 0x08 e) (abort (asAdmin 0x08 e)) s)
/-- ASYNCHRONOUS_EVENT_REQUEST: eight outstanding (R158, R162). -/
def asyncRequest (e : Sqe) (s : State) : State :=
  if 8 ≤ (ctrlAt s e.port).aers.length then fail e 1 0x05 s
  else aenDeliver e.port (updCtrl e.port (fun c => { c with aers := c.aers ++ [e.cid] }) s)
def execAsynchronousEventRequest (e : Sqe) (s : State) : Out := .next (admin (asAdmin 0x0C e) (asyncRequest (asAdmin 0x0C e)) s)

/-! ### Opcodes of no row (R162, R178). -/
/-- The field that selects among an opcode's commands has a value that names none of them: ACTION 6–15 of Frond Service,
SHEAF_ACTION and PEU_ACTION 4–15, SEL 2–15 of the namespace commands, commit actions 4–7. Such an encoding is reserved (R12). -/
def reservedAction (e : Sqe) : Bool :=
  match e.opc.toNat with
  | 0xE0 => decide (6 ≤ d10 e 11 8)
  | 0xEC => decide (4 ≤ d10 e 11 8)
  | 0xE4 => decide (4 ≤ d10 e 3 0)
  | 0x0D | 0x15 => decide (2 ≤ d10 e 3 0)
  | 0x10 => decide (4 ≤ d10 e 5 3)
  | _ => false
/-- UNSUPPORTED_OPCODE (R162): Invalid Command Opcode, on an admin or an I/O queue. A supported opcode whose reserved encoding
no other row can take fails with Invalid Field in Command (R3, R12). -/
def execUnsupportedOpcode (e : Sqe) (s : State) : Out :=
  .next (if e.sqid = 0 then
           (if reservedAction e then admin e (bad e invalidField) s
            else if adminOpcodes.contains e.opc.toNat then s else admin e (failWith e invalidOpcode) s)
         else if kindOf e.opc = .other then ioRun e (fun k s => failNow k invalidOpcode 0 0 s) s else s)

end Sys2Proof.Machine
end

