-- ==== Sys2Proof/Machine/Logs.lean ====
section
/-! DEFINITION. Identify (R158, R160, R162, R405) and the log pages (R164), each laid out as its chapter's table says.
Offsets of NVMe structures are those of the NVMe specification (assumption 15). -/
namespace Sys2Proof.Machine
open Sys2Proof

/-! ### Identify. -/
def byte (n : Nat) : Byte := BitVec.ofNat 8 n
/-- A structure of n bytes with fields at their offsets: (offset, bytes), offsets rising. -/
def layout (n : Nat) (l : List (Nat × List Byte)) : List Byte :=
  fitTo n (l.foldl (fun a x => a ++ zeros (x.1 - a.length) ++ x.2) [])
/-- Power state descriptors (R405): MP, NOPS, ENLAT, EXLAT, relative values. -/
def psd (mp nops enlat exlat rel : Nat) : List Byte :=
  le 2 mp ++ [0, byte (nops * 2)] ++ le 4 enlat ++ le 4 exlat ++ List.replicate 4 (byte rel) ++ zeros 16
def psds : List Byte :=
  psd 32000 0 250 250 0 ++ psd 22000 0 250 250 1 ++ psd 15000 0 250 250 2 ++ psd 5500 1 250000 20000 3 ++ psd 2200 1 300000 2000000 4
/-- PCI vendor ID, device ID and model string, on both host ports (R7). -/
def pciVendor : Nat := 0x1FC4
def pciDevice : Nat := 0x4B32
def modelString : String := "BERISK KELTAN KZ2048"
/-- Identify Controller (R158). -/
def idController (s : State) (p : Port) : List Byte :=
  layout 4096
    [(0, le 2 pciVendor ++ le 2 pciVendor), (4, asciiPad 20 Config.moduleSerial), (24, asciiPad 40 (ascii modelString)),
     (64, fitTo 8 (activeSlot (cardAt s (cardOf p))).revision), (76, [0x0B, 10]), (78, le 2 (1 + portNo p)), (80, le 4 0x00020000),
     (111, [1]), (256, le 2 0x000E), (258, [3, 7, 0x14, 0x06, 255, 4]), (342, [10, 0x47]), (344, le 4 2 ++ le 4 2), (512, [0x66, 0x44]),
     (516, le 4 4096), (520, le 2 0x01DC), (534, le 2 0x0001), (536, le 4 1), (2048, psds)]
/-- Identify Namespace of the NVM command set (R158, R160). -/
def idNamespace (n : Ns) : List Byte :=
  layout 4096
    [(0, le 8 n.nsze ++ le 8 n.nsze ++ le 8 n.nsze), (25, [1, (if n.fmt1 then 0x11 else 0), 0x01, 0x05, byte n.pit, 0x01]), (33, [1]),
     (74, le 2 1024 ++ le 4 1024 ++ [127]), (92, le 4 (match n.group with | .g1 => 1 | .g2 => 2)),
     (128, [0, 0, 12, 0, 16, 0, 12, 0])]
/-- Identify Namespace with NSID 0xFFFFFFFF: what all namespaces share. -/
def idCommon : List Byte := layout 4096 [(25, [1, 0, 0x01, 0x05, 0, 0x01]), (33, [1]), (74, le 2 1024 ++ le 4 1024 ++ [127]), (128, [0, 0, 12, 0, 16, 0, 12, 0])]
/-- Identify Namespace of the Zoned Namespace command set: zone size, active and open limits of R135. -/
def idZoned : List Byte := layout 4096 [(4, le 4 16383 ++ le 4 16383), (2816, le 8 1048576), (2832, le 8 1048576)]
/-- I/O command set specific namespace data of the NVM command set: format 1 has the 64-bit guard. -/
def idNvmNs : List Byte := layout 4096 [(16, le 4 0x100)]
/-- Namespace identification descriptors: the NVMe Namespace UUID, whose value the spec does not state, and the command set. -/
def idDescriptors (nsid : Nat) (n : Ns) : List Byte :=
  fitTo 4096 ([3, 16, 0, 0] ++ (List.range 16).map (fun i => Config.standardByte "UUID" (nsid * 16 + i)) ++ [4, 1, 0, 0, byte (2 * b2n n.zoned)])
/-- The namespace is attached to a port's controller. -/
def attachedTo (n : Ns) (p : Port) : Bool := n.used && pget n.att (cardOf p)
def nsidList (l : List Nat) : List Byte := fitTo 4096 ((l.take 1024).flatMap (le 4))
/-- Namespaces above an NSID that satisfy a condition. -/
def nsAbove (s : State) (nsid : Nat) (p : Ns → Bool) : List Nat := (s.nss.filter fun x => decide (nsid < x.1) && p x.2).map (·.1)
def ctrlList (l : List Nat) : List Byte := fitTo 4096 (le 2 l.length ++ l.flatMap (le 2))
/-- Data of an Identify command, or its status (R162). -/
def identifyData (s : State) (e : Sqe) : Except (Nat × Nat) (List Byte) :=
  let n := nsAt s e.nsid
  let csi := d11 e 31 24
  let inRange := decide (1 ≤ e.nsid ∧ e.nsid ≤ 4096)
  match d10 e 7 0 with
  | 0x00 => if e.nsid = 0xFFFFFFFF then .ok idCommon else if !inRange then .error invalidNs
            else .ok (if attachedTo n e.port then idNamespace n else zeros 4096)
  | 0x01 => .ok (idController s e.port)
  | 0x02 => if 0xFFFFFFFE ≤ e.nsid then .error invalidNs else .ok (nsidList (nsAbove s e.nsid fun n => attachedTo n e.port))
  | 0x03 => if attachedTo n e.port then .ok (idDescriptors e.nsid n) else .error invalidNs
  | 0x05 => if csi ≠ 0 ∧ csi ≠ 2 then .error invalidField else if !inRange then .error invalidNs
            else .ok (if !attachedTo n e.port then zeros 4096 else if csi = 0 then idNvmNs else if n.zoned then idZoned else zeros 4096)
  | 0x06 => if csi = 0 then .ok (zeros 4096) else if csi = 2 then .ok (fitTo 4096 [9]) else .error invalidField
  | 0x10 => if 0xFFFFFFFE ≤ e.nsid then .error invalidNs else .ok (nsidList (nsAbove s e.nsid fun n => n.used))
  | 0x11 => if !inRange then .error invalidNs else .ok (if n.used then idNamespace n else zeros 4096)
  | 0x12 => if !inRange then .error invalidNs
            else .ok (ctrlList (([Port.h0, .h1].filter fun p => attachedTo n p && decide (d10 e 31 16 ≤ 1 + portNo p)).map fun p => 1 + portNo p))
  | 0x13 => .ok (ctrlList ([1, 2].filter fun c => decide (d10 e 31 16 ≤ c)))
  | 0x1C => .ok (fitTo 4096 (le 8 5))
  | _ => .error invalidField
def identify (e : Sqe) (s : State) : State :=
  match identifyData s e with
  | .ok d => if e.dlen < 4096 then failWith e sglLength s else okData e d s
  | .error st => failWith e st s
/-- IDENTIFY (R158, R162). -/
def execIdentify (e : Sqe) (s : State) : Out := .next (admin (asAdmin 0x06 e) (identify (asAdmin 0x06 e)) s)

/-! ### Standard pages. -/
/-- An Error Information entry (R168). -/
def errBytes (x : ErrEntry) : List Byte :=
  fitTo 64 (le 8 x.count ++ le 2 x.sqid ++ le 2 x.cid ++ le 2 ((x.sc + x.sct * 256) * 2 + 0x4000) ++ le 2 x.loc ++ le 8 x.lba ++ le 4 x.nsid
            ++ zeros 4 ++ le 8 x.csi)
def pageErrors (s : State) (p : Port) : List Byte := fitTo 16384 ((ctrlAt s p).errors.flatMap errBytes)
/-- Composite temperature: the hottest flash package, K; none before a reading (R164). -/
def composite (s : State) : Option Nat :=
  ((List.range 512).foldl (fun (a : Option Int) n => match countedTemp s.power (64 + n), a with
    | some t, some u => some (max t u) | some t, none => some t | none, a => a) none).map fun t => (t / 8 + 273).toNat
/-- Available Spare: lowest SPARES_LEFT of any frond, percent of 30,720 (R164). -/
def availableSpare (s : State) : Nat := ((List.range 16).foldl (fun a f => min a (frondAt s f).spares) 30720) * 100 / 30720
/-- Wear, in tenths, of the accounted die-blocks that satisfy a condition on their key. -/
def wearSum (s : State) (p : Nat → Bool) : Nat := (s.blks.filter fun b => p b.1 && decide (b.2.state < 7)).foldl (fun a b => a + b.2.wear) 0
/-- Percentage Used: mean wear over the rated 2,400 units (R164). -/
def percentUsed (s : State) : Nat := wearSum s (fun _ => true) * 100 / (4096 * 2048 * 24000)
/-- Critical Warning (R465). -/
def criticalWarning (s : State) : Nat :=
  b2n (availableSpare s < 10)
    + 2 * b2n (match composite s with | some t => decide (s.feat.tempOver ≤ t ∨ t < s.feat.tempUnder) | none => false)
    + 4 * b2n (noTolerance s ≠ 0 || beyond s ≠ 0 || s.rebuild.lostCount ≠ 0)
/-- SMART / Health (R164, R465); counters of NVMe for which the spec states nothing keep free values (assumption 15). -/
def pageSmart (s : State) : List Byte :=
  [byte (criticalWarning s)] ++ le 2 ((composite s).getD 0) ++ [byte (availableSpare s), 10, byte (min 255 (percentUsed s))]
    ++ (List.range 506).map fun i => Config.standardByte "SMART" (6 + i)
/-- Firmware Slot Information (R370). -/
def pageFirmware (s : State) (p : Port) : List Byte :=
  let c := cardAt s (cardOf p)
  let rev := fun (x : FwSlot) => if x.valid then fitTo 8 x.revision else zeros 8
  layout 512 [(0, [byte (c.active + 16 * c.nextSlot)]), (8, rev c.slot1 ++ rev c.slot2)]
/-- Changed Namespace List. -/
def pageChangedNs (s : State) (p : Port) : List Byte :=
  let l := (ctrlAt s p).changedNs
  if 1024 < l.length then fitTo 4096 (le 4 0xFFFFFFFF) else fitTo 4096 ((sortBy (fun a b => decide (a < b)) l).flatMap (le 4))
/-- Commands Supported and Effects: CSUPP is set for what the module supports; the effect bits that NVMe defines beside it
are not stated (assumption 15). -/
def pageEffects : List Byte :=
  let ent := fun (base : Nat) (on : Bool) (i : Nat) =>
    if on then (0x01 ||| (Config.standardByte "EFFECTS" (base + 4 * i) &&& 0xFE)) :: (List.range 3).map (fun j => Config.standardByte "EFFECTS" (base + 4 * i + 1 + j))
    else zeros 4
  fitTo 4096 ((List.range 256).flatMap (fun i => ent 0 (adminOpcodes.contains i) i)
              ++ (List.range 256).flatMap fun i => ent 1024 (decide (kindOf (byte i) ≠ .other)) i)
/-- ANA (R282, R283): one descriptor for each group with a namespace attached to the controller. -/
def pageAna (s : State) (e : Sqe) : List Byte :=
  let c := ctrlAt s e.port
  let desc := fun (g : Group) (id st : Nat) =>
    let l := nsAbove s 0 fun n => attachedTo n e.port && n.group == g
    if l = [] then none
    else
      let l' := if d10 e 8 8 = 1 then [] else l
      some (le 4 id ++ le 4 l'.length ++ le 8 c.anaChanges ++ [byte st] ++ zeros 15 ++ l'.flatMap (le 4))
  let ds := [desc .g1 1 c.ana1, desc .g2 2 c.ana2].filterMap id
  le 8 c.anaChanges ++ le 2 ds.length ++ zeros 6 ++ ds.flatten
/-- Sanitize Status (R338). -/
def pageSanitize (s : State) : List Byte :=
  fitTo 512 (le 2 s.sec.sprog ++ le 2 s.sec.sstat ++ le 4 s.sec.sanCdw10 ++ List.replicate 24 0xFF)
/-- Changed Zone List of a namespace (R156). -/
def pageChangedZones (s : State) (e : Sqe) : List Byte :=
  let l := ((ctrlAt s e.port).changedZones.filter fun z => z.1 == e.nsid).map (·.2)
  if 511 < l.length then fitTo 4096 (le 2 0xFFFF) else fitTo 4096 (le 2 l.length ++ zeros 6 ++ l.flatMap (le 8))

/-! ### Vendor pages. -/
/-- FC, EP and VERSION open every vendor page. -/
def hdr (s : State) : List Byte := le 8 s.time.fc ++ le 4 s.time.ep ++ le 2 1
/-- Dies of a frond in quarantine now. -/
def quarOf (s : State) (p : Nat → Bool) : List Nat := (s.dies.filter fun d => p d.1 && d.2.state == 1).map (·.1)
/-- Frame Statistics (R58). -/
def pageFrames (s : State) : List Byte :=
  let x := s.stats
  let frond := fun f =>
    let g := frondAt s f
    let cap := (List.range 8).foldl (fun a c => a + b2n (chanAt s (f * 8 + c)).reduced * 2 ^ c) 0
    fitTo 32 (le 4 g.segOver ++ le 4 g.rwOver ++ le 4 g.chOver ++ le 4 g.planLate ++ le 2 (quarOf s fun d => frondOfDie d == f).length
              ++ [byte cap, 0] ++ le 2 g.fixWorst)
  let miss := fun (m : Miss) =>
    fitTo 44 (le 8 m.fc ++ le 2 m.count ++ le 2 m.slice ++ le 2 m.gen ++ le 2 m.sqid ++ le 2 m.cid ++ [byte m.port, byte m.opc] ++ le 4 m.nsid
              ++ le 8 m.late ++ [byte m.policy, byte m.cause])
  let q := quarOf s fun _ => true
  layout 4096
    [(0, hdr s ++ [byte (cardNo s.time.master), byte s.sheaf.rachis] ++ leInt 4 s.sheaf.offset), (24, le 8 x.segOver ++ le 8 x.rwOver ++ le 8 x.chOver
       ++ le 8 x.planLate ++ le 8 x.quarEntries ++ le 8 x.admitted ++ le 8 x.demoted ++ le 8 x.round ++ le 8 x.missLate ++ le 8 x.missAbort
       ++ le 4 q.length ++ le 4 x.boundWorst), (256, (List.range 16).flatMap frond), (768, s.misses.flatMap miss),
     (3584, (List.range 512).map fun i => byte ((List.range 8).foldl (fun a b => a + b2n (q.contains (8 * i + b)) * 2 ^ b) 0))]
/-- Stripe Health (R106). -/
def pageStripes (s : State) : List Byte :=
  let r := s.rebuild
  let used := inUse s
  let miss := fun n => (used.filter fun x => (lostNow s x.1).length == n).length
  let got := (r.recent.filter fun x => s.time.fc < x.1 + 4000).foldl (fun a x => a + x.2) 0
  let state := match (r.kinds.map (·.1)).eraseDups with | [] => 0 | [k] => k | _ => 4
  let eta := if r.total ≤ r.done then 0 else if got = 0 then 2 ^ 32 - 1 else sat 4 (cdiv ((r.total - r.done) * 4000) got)
  let frond := fun f =>
    let g := frondAt s f
    let dies := (s.dies.filter fun d => frondOfDie d.1 == f && decide (2 ≤ d.2.state)).length
    let held := used.foldl (fun a x => a + ((List.range 16).filter fun m =>
      memberFrond x.1 m == f && (match x.2.members[m]? with | some y => y.blk.isSome | none => false)).length) 0
    let fill := (r.queue.filter fun m => memberFrond (m / 16) (m % 16) == f).length
    fitTo 32 ([byte g.state, 0] ++ le 2 dies ++ le 4 held ++ le 4 g.spares ++ le 4 fill ++ le 8 g.goneFc ++ le 4 g.goneEp)
  layout 4096
    [(0, hdr s ++ [byte state, byte r.rate] ++ le 4 used.length ++ le 4 (miss 1) ++ le 4 (miss 2) ++ le 4 (noTolerance s) ++ le 4 (beyond s)
       ++ le 4 ((r.queue.map (· / 16)).eraseDups.length) ++ le 8 r.done ++ le 8 r.total ++ le 4 (got / 1000000) ++ le 4 eta),
     (64, (List.range 16).flatMap frond), (576, le 4 r.lostCount ++ r.lost.flatMap (le 4) ++ List.replicate ((879 - r.lost.length) * 4) 0xFF)]
/-- Block Wear of one die (R83). -/
def pageWear (s : State) (d : Nat) : List Byte :=
  let acc := ((List.range 2112).filter fun i => decide (blkState s (blkKey d i) < 7)).map fun i => (blkAt s (blkKey d i)).wear
  fitTo 64 (hdr s ++ le 2 d ++ le 2 2400 ++ le 2 (factoryBad s d) ++ le 2 (dieAt s d).grownBad ++ le 2 (reserveLeft s d)
            ++ le 4 (acc.foldl (· + ·) 0 / max 1 acc.length) ++ le 4 (acc.foldl max 0))
    ++ (List.range 2112).flatMap fun i =>
      let k := blkKey d i
      let b := blkAt s k
      le 2 (sat 2 b.qlc) ++ le 2 (sat 2 b.slc) ++ le 2 (sat 2 b.wear) ++ [byte (blkState s k), byte (b2n b.refresh + 2 * b2n (scrubOverdue s k))]
/-- Media Read Health of one frond (R84): a slot without a frond in service counts nothing. -/
def pageMedia (s : State) (f : Nat) : List Byte :=
  let g := frondAt s f
  let on := [0, 5, 6].contains g.state
  let c := fun n => if on then n else 0
  let blks := s.blks.filter fun b => frondOfDie (b.1 / 4096) == f
  let meta' := (List.range 2048).map fun i => blkKey (f * 256 + i / 8) (i % 8)
  let late := ((blks.map (·.1) ++ meta').eraseDups.filter fun k => scrubOverdue s k).length
  let chan := fun i =>
    let x := chanAt s (f * 8 + i)
    le 8 (c x.trainFc) ++ le 2 (c x.trainings) ++ [byte x.trainTemp, byte (if x.reduced then 160 else 190)] ++ zeros 4
  let die := fun i =>
    let d := f * 256 + i
    let x := dieAt s d
    fitTo 32 (le 4 (c x.codewords) ++ le 4 (c x.soft) ++ le 4 (c x.deep) ++ le 4 (c x.uncorr) ++ le 4 (c x.routed) ++ le 2 (hardLimit d)
              ++ le 2 (warnOf s d) ++ le 2 (c x.cbcMax) ++ le 2 (c x.recals) ++ [byte x.state])
  fitTo 64 (hdr s ++ [byte f, 0] ++ le 4 (c late) ++ le 4 (c (blks.filter fun b => b.2.refresh).length)
            ++ le 8 (c g.refreshDone))
    ++ (List.range 8).flatMap chan ++ (List.range 256).flatMap die
/-- Seedbed Status (R131). -/
def pageSeedbed (s : State) : List Byte :=
  let b := s.seedbed
  let held := (s.cws.filter fun c => !c.2.folded && !c.2.lost && (c.2.kind == .data || c.2.kind == .fill || c.2.kind == .parity)).length * 4096
  let rate := (b.recent.filter fun x => s.time.fc < x.1 + 4000).foldl (fun a x => a + x.2) 0 / 1000000
  let frond := fun f =>
    let g := frondAt s f
    let heads := (s.dies.filter fun d => frondOfDie d.1 == f && d.2.head.isSome).length
    let ready := (s.chunks.filter fun h => memberFrond (slotOfH h.1) (posOfH h.1) == f
      && [FoldSt.held, .requested, .reading, .dataIn, .programming, .verifying].contains h.2.st).length
    let absent := (s.cws.flatMap fun c =>
      if frondAbsent s (memberFrond (slotOfCk c.1) (posOfCk c.1)) then (c.2.copies.filter fun x => x.frond == f && x.done).map fun x => (x.die, x.block, x.wl) else []).eraseDups.length
    fitTo 32 (le 4 g.sbUsed ++ le 4 g.sbErasing ++ [byte (fillPct g), byte (sbState s f)] ++ le 2 heads ++ le 4 ready ++ le 4 absent ++ le 4 g.progFails
              ++ le 4 (substitutesOf s f))
  layout 1024
    [(0, hdr s ++ [byte (sbStateAll s), 0] ++ le 8 (seqNow s) ++ le 8 held ++ le 8 b.foldedBytes ++ le 4 rate ++ le 4 (b.ext.a + b.ext.b)
       ++ le 8 b.fullWaits ++ le 8 b.fullFails), (64, (List.range 16).flatMap frond), (576, le 8 b.absentReleased)]
/-- The share structure, 64 bytes (R203). -/
def shareBytes (x : Share) : List Byte :=
  fitTo 64 (le 2 x.readCw ++ le 2 x.writeCw ++ [byte x.burst, byte x.bufPct] ++ le 2 x.weight ++ le 2 x.quota)
/-- The share accepted last (R208, R215). -/
def shareOf (x : Slice) : Share := x.shareNext.getD x.share
/-- Queue pairs that a slice holds now. -/
def queuesHeld (s : State) (sl : Nat) : Nat := (s.sqs.filter fun q => q.2.used && q.2.slice == sl).length
/-- Classifier entries that a slice holds. -/
def rulesHeld (s : State) (sl : Nat) : Nat :=
  (s.rules.filter fun r => r.2.valid && r.2.slice == sl).foldl (fun a r => a + ruleEntries r.2) 0
/-- Slice Table (R215). -/
def pageSlices (s : State) : List Byte :=
  let ent := fun i =>
    let x := sliceAt s i
    let b0 := x.st + 8 * (if i = 0 then 0 else portNo x.port) + 16 * b2n x.policy + 32 * b2n x.portLost
    fitTo 64 ([byte b0, byte (min 64 (queuesHeld s i))] ++ le 2 x.gen.toNat ++ le 4 (if i = 0 ∨ x.st = 0 then 0 else x.pasid) ++ (shareBytes (shareOf x)).take 8
              ++ le 2 (rulesHeld s i) ++ le 2 (shareOf x).quota ++ le 2 ((s.nss.filter fun n => n.2.used && n.2.slice == some i).length) ++ zeros 2
              ++ le 8 x.fetched ++ le 8 x.admitted ++ le 8 x.demoted ++ le 4 x.misses ++ le 4 x.saveSeq ++ le 8 x.changeFc)
  fitTo 64 (hdr s ++ le 2 ((s.slices.filter fun x => x.2.st != 0).length) ++ le 2 (unreserved s .ca 2500 (·.readCw)) ++ le 2 (unreserved s .cb 2500 (·.readCw))
            ++ le 2 (unreserved s .ca 1024 (·.writeCw)) ++ le 2 (unreserved s .cb 1024 (·.writeCw)))
    ++ (List.range 1024).flatMap ent
/-- A STATUS payload (R398). -/
def statusBytes (x : PeuStatusMsg) : List Byte :=
  fitTo 32 (leInt 2 x.m.vin ++ leInt 2 x.m.iin ++ le 2 x.m.vout ++ le 2 x.m.iout ++ le 2 x.m.pin ++ x.m.temps.flatMap (leInt 1) ++ [byte x.state, 0]
            ++ le 2 x.faults.toNat ++ [byte (min 255 x.caSilent), byte (min 255 x.cbSilent)] ++ le 2 x.iLimit ++ leInt 2 x.margin
            ++ [byte x.m.share, byte (b2n x.bank + 2 * b2n x.updating)])
/-- A temperature of the log: 0x8001 broken, 0x8000 not read (R425). -/
def tempBytes (s : State) (n : Nat) : List Byte :=
  if s.power.broken.contains n then le 2 0x8001 else match tget none s.power.temps n with | some t => leInt 2 t | none => le 2 0x8000
/-- A sensor of the privileged set is read every frame (R419). -/
def privileged (s : State) (n : Nat) : Bool :=
  match countedTemp s.power n with | some t => decide (throttleOfNo s.power n - s.power.privBand * 8 ≤ t) | none => false
/-- Bits of a list of sensors that are broken. -/
def brokenMap (s : State) (l : List Nat) : Nat := l.zipIdx.foldl (fun a x => a + b2n (s.power.broken.contains x.1) * 2 ^ x.2) 0
/-- Power and Thermal (R425). -/
def pagePower (s : State) : List Byte :=
  let w := s.power
  let entry := if w.entry.isSome then 1 else if w.exit.isSome then 2 else if w.regReqs.any (!·.freq) then 3 else 0
  let card := fun (c : CardId) =>
    let j := (List.range 12).map (cardNo c * 12 + ·)
    let d := (List.range 4).map (24 + cardNo c * 4 + ·)
    fitTo 64 ((j ++ d).flatMap (tempBytes s) ++ [byte (cardAt s c).qFactor, byte (cardAt s c).dFactor, byte (b2n (j.any (privileged s))), 0] ++ le 4 (brokenMap s (j ++ d)))
  let frond := fun f =>
    let g := frondAt s f
    let hot := tget 0 w.hotPkg f
    let ls := (List.range 32).map (64 + f * 32 + ·) ++ [32 + f * 2, 33 + f * 2]
    let flags := b2n (frondPowered s f) + 2 * b2n (privileged s (64 + f * 32 + hot)) + 4 * b2n g.service + 8 * b2n g.shutdown
    fitTo 32 (tempBytes s (32 + f * 2) ++ tempBytes s (33 + f * 2) ++ tempBytes s (64 + f * 32 + hot) ++ [byte hot, byte (frondFactor s f)]
              ++ le 2 (g.allowance / 10) ++ [byte (brokenOf s f), byte flags] ++ zeros 4 ++ le 8 (brokenMap s ls))
  layout 4096
    [(0, hdr s ++ [byte w.ps, byte entry] ++ le 2 (capNow s) ++ le 2 (capacity s) ++ le 2 w.pinMean),
     (24, [byte (inForce s), byte (stateBudget s), byte (thermalBudget s), byte (sheafBudget s), byte (freqOf s .ca), byte (freqOf s .cb)]),
     (32, [byte w.lastResult, byte w.lastBlock, byte w.lastTarget, byte w.lastPoint] ++ le 8 w.lastFc ++ le 4 w.lastEp ++ le 8 w.entries ++ le 8 w.refused
       ++ le 8 w.abandoned ++ le 8 w.throttled ++ le 2 w.broken.length ++ [byte (b2n s.pair.ca.osc2 + 2 * b2n s.pair.cb.osc2), 0] ++ le 4 w.regFails),
     (128, statusBytes w.peuA.status ++ statusBytes w.peuB.status), (192, card .ca ++ card .cb), (320, (List.range 16).flatMap frond),
     (832, (List.range 512).flatMap fun n => tempBytes s (64 + n))]
/-- Phase index of the current epoch, and a position's turn to erase heavily (R320, R321). -/
def phaseIndex (s : State) : Nat := if isMember s then epochNow s % max 1 s.sheaf.plan.cycle else 0
def heavyNow (s : State) (pos : Nat) : Bool := isMember s && bit (s.sheaf.plan.masks.getD (phaseIndex s) 0) pos
/-- Sheaf Status (R326). -/
def pageSheaf (s : State) : List Byte :=
  let x := s.sheaf
  let mem := fun p =>
    let m := memberAt' s p
    let me := isMember s && p == x.pos
    let st := if me then (if x.st = 2 then 2 else if eligible s then 1 else 3) else m.st
    let ovr := if me then x.override else m.override
    let b1 := (if me then 0 else m.hops) + 16 * (if me then 0 else culmNo m.via) + 32 * b2n (st != 0 && heavyNow s p) + 64 * b2n ovr
    fitTo 64 ([byte st, byte b1] ++ le 2 m.base ++ le 2 m.want ++ le 2 m.grant ++ fitTo 20 (if me then Config.moduleSerial else m.serial)
              ++ le 8 (if me then sfcNow s else m.seenSfc))
  let port := fun (p : CulmPort) =>
    let c := culmAt s p
    let nb := match c.nbr with | some (n, q) => n % 16 + 16 * culmNo q + 32 | none => 0
    let link := if x.enabled then c.link else 5
    fitTo 64 ([byte link, byte nb, 0, 0] ++ le 4 c.delay ++ le 8 c.trainings ++ le 8 c.sent ++ le 8 c.received ++ le 8 c.forwarded)
  let flags := b2n (eligible s) + 2 * b2n x.over' + 4 * b2n x.stale + 8 * b2n x.override + 16 * b2n x.drive
  layout 8192
    [(0, hdr s ++ [byte x.pos, byte x.st, byte x.lead, byte x.topology, byte (memberCount s), byte flags] ++ le 4 x.leadEpoch
       ++ le 8 (if isMember s then sfcNow s else 0) ++ le 8 (if isMember s then s.time.fc else 0) ++ le 2 x.budget ++ le 2 x.grant ++ le 2 (sheafBudget s)
       ++ [byte x.membersMax, 0] ++ le 4 x.planGen ++ le 2 (phaseIndex s) ++ zeros 2 ++ le 8 x.leadChanges ++ le 8 x.merges),
     (256, (List.range 16).flatMap mem ++ port .u0 ++ port .u1), (4096, fitTo 4096 (planBytes x.plan))]
/-- Buffer and DRAM Health (R279). -/
def pageDram (s : State) : List Byte :=
  let card := fun (c : CardId) =>
    let m := memAt s c
    let pool := fun i =>
      let q := m.pools.getD i {}
      le 4 (poolSize i - q.out.length) ++ le 4 q.free ++ le 4 q.freeMin ++ zeros 4 ++ le 8 q.empty ++ le 4 q.races ++ le 4 q.failed
    let rank := fun i =>
      let r := tget {} m.ranks i
      [byte r.role, byte r.temp, byte r.eye, 0] ++ le 4 r.corrected ++ le 4 r.uncorr ++ le 4 r.trainings ++ le 8 r.trainFc ++ le 4 r.trainEp ++ zeros 4
    let str := fun i => let a := m.alive.getD i {}; le 4 a.missing ++ le 4 a.repeats ++ le 4 a.crcFails ++ zeros 4
    let copying := match m.rop with | .copy x _ | .switching x _ | .migrate x _ => x | _ => 0xFF
    layout 992
      [(0, [byte (b2n (!(cardAt s c).serving)), byte (m.spare.getD 0xFF), byte copying]), (8, (List.range 4).flatMap pool ++ (List.range 8).flatMap rank),
       (392, le 8 m.poisonLines ++ le 8 m.resourced ++ le 8 m.poisonFails ++ le 4 m.refFaults ++ zeros 4 ++ (List.range 4).flatMap str)]
  fitTo 64 (hdr s) ++ card .ca ++ card .cb
/-- Byte 14 and 15 of the Security State log, and of the report (R347, R350). -/
def secFlags (s : State) : List Byte :=
  let key := fun i => b2n ((tfind s.sec.keys i).isSome) * 2 ^ i
  [byte (s.sec.level + 4 * b2n (sealedNow s) + 8 * b2n (debugOpen s)), byte (key 0 + key 1 + key 2 + key 3 + 16 * b2n s.sec.cosign.isSome)]
/-- Key identifier I of an HSS public key (R350). -/
def keyIdOf (pub : List Byte) : List Byte := slice' pub 12 16
/-- Security State (R350). -/
def pageSecurity (s : State) : List Byte :=
  let x := s.sec
  let key := fun i => match tfind x.keys i with
    | some k => fitTo 64 ([1, byte (Config.hssLevels k.pub), 0, 0] ++ le 4 (Config.hssLmsType k.pub) ++ le 4 (Config.hssOtsType k.pub) ++ keyIdOf k.pub
                          ++ fitTo 32 (Config.sha256 k.pub))
    | none => zeros 64
  layout 512
    [(0, hdr s ++ secFlags s ++ fitTo 32 Config.vendorRoot ++ fitTo 32 (x.cosign.getD []) ++ le 4 x.mrkGen ++ le 2 x.nonces.length
       ++ le 2 (x.tokens.length) ++ le 8 x.accepted ++ le 8 x.refused ++ le 8 x.attestNext ++ le 8 x.reservedEnd ++ le 8 x.changes ++ le 4 (reserveFree s)
       ++ [byte x.lastReason]), (192, (List.range 4).flatMap key)]
/-- The endorsement page (R347). -/
def pageEndorsement : List Byte :=
  layout 8192 [(0, le 2 1), (4, le 4 Config.endorsementSig.length ++ fitTo 20 Config.moduleSerial), (32, fitTo 60 Config.attestKey),
               (128, Config.endorsementSig.take 8064)]

/-! ### Records (R373, R382, R384). -/
/-- Records of a store with their positions. -/
def positions (x : Recorder) : List (Nat × EventRec) :=
  (x.main.zipIdx.map fun r => (r.2, r.1)) ++ x.reserve.zipIdx.map fun r => (mainSize + r.2, r.1)
/-- The position that the next record of a store takes. -/
def writePos (x : Recorder) : Nat := if x.main.length < mainSize then x.main.length else mainSize + x.reserve.length
/-- The module recorder's window (R382): header, entries. DESIGN CHOICE: a position past the last one returns no entries, itself as NEXT,
and END 1 (assumption 196). -/
def pageRecorder (s : State) (e : Sqe) (bytes : Nat) : Except (Nat × Nat × Nat) (List Byte) :=
  let sel := d11 e 31 16
  let h := e.cdw12.toNat + e.cdw13.toNat * 2 ^ 32
  let c := cardAt s (cardOf e.port)
  let x := recAt s (if c.copying then other (cardOf e.port) else cardOf e.port)
  let size := if sel = 2 then 80 else 64
  let room := min 64 ((bytes - 64) / size)
  let head := fun (ended again : Bool) (n next lost : Nat) =>
    fitTo 64 (hdr s ++ [byte (sel + 4 * b2n x.full + 8 * b2n ended + 16 * b2n again + 32 * b2n (c.copying && sel != 2)), byte n] ++ le 8 next
              ++ le 4 (x.main.length + x.reserve.length) ++ le 4 x.reserve.length ++ le 8 s.events.dropped ++ le 8 s.events.suppressed ++ le 4 x.clearGen
              ++ le 4 lost)
  if 2 < sel then .error (0, 0x02, 0)
  else if sel = 2 ∧ s.sheaf.st ≠ 2 then .error (0, 0x0C, if s.sheaf.st = 1 then s.sheaf.lead else 0xFFFFFFFF)
  else if bytes < 64 + size then .error (0, 0x02, 0)
  else if sel = 2 then
    let first := s.sheaf.ringFirst
    let start := max h first
    let l := (s.sheaf.ring.drop (start - first)).take room
    let next := start + l.length
    .ok (head (decide (first + s.sheaf.ring.length ≤ next)) false l.length next (if h = 0 then 0 else first - h)
      ++ l.flatMap fun r => le 8 r.1 ++ [byte r.2.1] ++ zeros 7 ++ recBytes r.2.2)
  else
    let again := decide (h ≠ 0 ∧ h / 2 ^ 32 ≠ x.clearGen)
    let start := if h = 0 ∨ again then 0 else h % 2 ^ 32
    let all := (positions x).filter fun r => decide (start ≤ r.1) && (sel == 0 || r.2.cls == 3)
    let l := all.take room
    let next := if all.length ≤ room then max start (writePos x) else match l.getLast? with | some r => r.1 + 1 | none => start
    .ok (head (decide (all.length ≤ room)) again l.length (next + x.clearGen * 2 ^ 32) 0 ++ l.flatMap fun r => recBytes r.2)
/-- A frond's event store (R384). -/
def pageFrondEvents (s : State) (f : Nat) : List Byte :=
  let g := frondAt s f
  let on := [0, 5, 6].contains g.state
  if on then
    fitTo 256 (hdr s ++ [byte f, byte (1 + 2 * b2n g.storeFull)] ++ fitTo 20 g.serial ++ le 2 g.store.length ++ le 2 g.storeQ.length ++ le 8 g.storeDrop ++ le 4 g.clears)
      ++ fitTo 262144 (g.store.flatMap recBytes)
  else fitTo 262400 (hdr s ++ [byte f])

/-! ### Get Log Page (R164). -/
/-- Bytes asked for, and the offset. -/
def logBytes (e : Sqe) : Nat := (d10 e 31 16 + d11 e 15 0 * 65536 + 1) * 4
def logOffset (e : Sqe) : Nat := e.cdw12.toNat + e.cdw13.toNat * 2 ^ 32
/-- Pages of R164. -/
def logPages : List Nat :=
  [0x01, 0x02, 0x03, 0x04, 0x05, 0x0C, 0x81, 0xBF, 0xC0, 0xC1, 0xC2, 0xC3, 0xC4, 0xC5, 0xC6, 0xC7, 0xC8, 0xC9, 0xCB, 0xCC, 0xCD]
/-- The whole page, or a status and Dword 0. -/
def logPage (s : State) (e : Sqe) (bytes : Nat) : Except (Nat × Nat × Nat) (List Byte) :=
  let lsi := d11 e 31 16
  let low := fun (n : Nat) (p : List Byte) => if lsi ≤ n then Except.ok p else .error (0, 0x02, 0)
  match d10 e 7 0 with
  | 0x01 => .ok (pageErrors s e.port)
  | 0x02 => if e.nsid = 0 ∨ e.nsid = 0xFFFFFFFF then .ok (pageSmart s) else .error (0, 0x02, 0)
  | 0x03 => .ok (pageFirmware s e.port)
  | 0x04 => .ok (pageChangedNs s e.port)
  | 0x05 => .ok pageEffects
  | 0x0C => .ok (pageAna s e)
  | 0x81 => .ok (pageSanitize s)
  | 0xBF => .ok (pageChangedZones s e)
  | 0xC0 => pageRecorder s e bytes
  | 0xC1 => low 15 (pageFrondEvents s lsi)
  | 0xC2 => .ok (pageFrames s)
  | 0xC3 => .ok (pageStripes s)
  | 0xC4 => low 4095 (pageWear s lsi)
  | 0xC5 => low 15 (pageMedia s lsi)
  | 0xC6 => .ok (pageSeedbed s)
  | 0xC7 => .ok (pageSlices s)
  | 0xC8 => .ok (pagePower s)
  | 0xC9 => .ok (pageSheaf s)
  | 0xCB => .ok (pageDram s)
  | 0xCC => .ok (pageSecurity s)
  | 0xCD => if lsi = 0 then .ok pageEndorsement
            else match s.sec.reports.find? fun r => r.1 == lsi with | some r => .ok r.2 | none => .error (0, 0x02, 0)
  | _ => .error (1, 0x09, 0)
/-- The window of a page that a request returns: zeros past its end; an offset at or beyond the end is refused, but for page
0xC0, where it is a handle (R164, R382). -/
def logWindow (s : State) (e : Sqe) (bytes off : Nat) : Except (Nat × Nat × Nat) (List Byte) :=
  match logPage s e bytes with
  | .error st => .error st
  | .ok d => if d10 e 7 0 = 0xC0 then .ok (fitTo bytes d) else if d.length ≤ off then .error (0, 0x02, 0) else .ok (slice' d off bytes)
/-- What reading a page re-arms (R107, R388) and clears. -/
def logRead (e : Sqe) (s : State) : State :=
  let page := d10 e 7 0
  if d10 e 15 15 = 1 then s
  else
    let s := aenArm page s
    if page = 0x04 then updCtrl e.port (fun c => { c with changedNs := [] }) s
    else if page = 0xBF then updCtrl e.port (fun c => { c with changedZones := c.changedZones.filter fun z => z.1 != e.nsid }) s
    else s
def getLog (e : Sqe) (s : State) : State :=
  match logWindow s e (logBytes e) (logOffset e) with
  | .error (sct, sc, dw0) => failDw e sct sc dw0 0 s
  | .ok d => if e.dlen < logBytes e then failWith e sglLength s else logRead e (okData e d s)
/-- The entry that a row of one page stands for. -/
def asLog (page : Nat) (e : Sqe) : Sqe := with10 7 0 page (asAdmin 0x02 e)
def execGetLogErrorInformation (e : Sqe) (s : State) : Out := .next (admin (asLog 0x01 e) (getLog (asLog 0x01 e)) s)
def execGetLogSmartHealth (e : Sqe) (s : State) : Out := .next (admin (asLog 0x02 e) (getLog (asLog 0x02 e)) s)
def execGetLogFirmwareSlot (e : Sqe) (s : State) : Out := .next (admin (asLog 0x03 e) (getLog (asLog 0x03 e)) s)
/-- GET_LOG_STANDARD: the page is one of the five of the row. -/
def execGetLogStandard (e : Sqe) (s : State) : Out :=
  .next (if [0x04, 0x05, 0x0C, 0x81, 0xBF].contains (d10 e 7 0) then admin (asAdmin 0x02 e) (getLog (asAdmin 0x02 e)) s else s)
def execGetLogModuleRecorder (e : Sqe) (s : State) : Out := .next (admin (asLog 0xC0 e) (getLog (asLog 0xC0 e)) s)
def execGetLogFrondEvents (e : Sqe) (s : State) : Out := .next (admin (asLog 0xC1 e) (getLog (asLog 0xC1 e)) s)
def execGetLogFrameStatistics (e : Sqe) (s : State) : Out := .next (admin (asLog 0xC2 e) (getLog (asLog 0xC2 e)) s)
def execGetLogStripeHealth (e : Sqe) (s : State) : Out := .next (admin (asLog 0xC3 e) (getLog (asLog 0xC3 e)) s)
def execGetLogBlockWear (e : Sqe) (s : State) : Out := .next (admin (asLog 0xC4 e) (getLog (asLog 0xC4 e)) s)
def execGetLogMediaReadHealth (e : Sqe) (s : State) : Out := .next (admin (asLog 0xC5 e) (getLog (asLog 0xC5 e)) s)
def execGetLogSeedbedStatus (e : Sqe) (s : State) : Out := .next (admin (asLog 0xC6 e) (getLog (asLog 0xC6 e)) s)
def execGetLogSliceTable (e : Sqe) (s : State) : Out := .next (admin (asLog 0xC7 e) (getLog (asLog 0xC7 e)) s)
def execGetLogPowerThermal (e : Sqe) (s : State) : Out := .next (admin (asLog 0xC8 e) (getLog (asLog 0xC8 e)) s)
def execGetLogSheafStatus (e : Sqe) (s : State) : Out := .next (admin (asLog 0xC9 e) (getLog (asLog 0xC9 e)) s)
def execGetLogBufferDramHealth (e : Sqe) (s : State) : Out := .next (admin (asLog 0xCB e) (getLog (asLog 0xCB e)) s)
def execGetLogSecurityState (e : Sqe) (s : State) : Out := .next (admin (asLog 0xCC e) (getLog (asLog 0xCC e)) s)
def execGetLogAttestation (e : Sqe) (s : State) : Out := .next (admin (asLog 0xCD e) (getLog (asLog 0xCD e)) s)
/-- INVALID_LOG_PAGE (R164). -/
def execInvalidLogPage (e : Sqe) (s : State) : Out :=
  .next (if logPages.contains (d10 e 7 0) then s else admin (asAdmin 0x02 e) (getLog (asAdmin 0x02 e)) s)

end Sys2Proof.Machine
end

