-- ==== Sys2Proof/Machine/Features.lean ====
section
/-! DEFINITION. Set Features and Get Features (R56, R57, R82, R130, R163, R242, R278, R376, R386, R406, R418, R423, R463,
R466). -/
namespace Sys2Proof.Machine
open Sys2Proof

/-- Feature Identifier Not Saveable (R466). -/
def notSaveable : Nat × Nat := (1, 0x0D)
/-- Features of R163. -/
def featureIds : List Nat := [0x01, 0x02, 0x04, 0x07, 0x08, 0x09, 0x0B, 0x0E, 0xC0, 0xC1, 0xC2, 0xC3, 0xC4, 0xC5, 0xC6, 0xC7, 0xC8]
/-- Saveable features (R466). -/
def saveable (fid : Nat) : Bool := decide (0xC1 ≤ fid ∧ fid ≤ 0xC8)
/-- Values accepted last, whether or not they are in force yet (R466). -/
def featAccepted (s : State) : Features := s.featNext.getD s.feat
def setAccepted (s : State) : Nat × Nat × Nat × Nat × Nat × Nat :=
  let w := s.power
  w.setNext.getD (w.hostBudget, w.pkgThr, w.qjThr, w.filThr, w.dramThr, w.privBand)
def paramsAccepted (s : State) : Nat × Nat × Nat × List (Nat × Nat) :=
  let ev := s.events
  ev.next.getD (ev.depth, ev.refill, ev.period, ev.overrides)
def bulkAccepted (s : State) (c : CardId) : BulkPort := (pget s.bulkNext c).getD (bulkAt s c)
def inRange (lo hi x : Nat) : Bool := decide (lo ≤ x ∧ x ≤ hi)
/-- Vendor feature values of one record that apply from the next frame boundary. -/
def setFeat (g : Features → Features) (s : State) : State := { s with featNext := some (g (featAccepted s)) }
/-- Values of tables of sixteen entries. -/
def table16 (d : Nat) (l : List Nat) : Tbl Nat := l.zipIdx.foldl (fun t x => tput d t x.2 x.1) []

/-- A Set Features command: the Save bit of a feature that is not saveable is refused (R466). -/
def setFeature (e : Sqe) (run : State → State) (s : State) : State :=
  if bit e.cdw10.toNat 31 && !saveable (fidOf e) then bad e notSaveable s else run s
/-- The structure of a feature, n bytes long, must lie within the data pointer (R166, R178). -/
def withData (n : Nat) (e : Sqe) (run : List Byte → State → State) (s : State) : State :=
  if e.dlen < n then bad e sglLength s else run (fitTo n e.data) s
/-- A feature of one row: the row names its identifier. -/
def asFeature (fid : Nat) (e : Sqe) : Sqe := with10 7 0 fid (asAdmin 0x09 e)
def runFeature (fid : Nat) (e : Sqe) (f : Sqe → State → State) (s : State) : Out :=
  let x := asFeature fid e
  .next (admin x (setFeature x (f x)) s)

/-! ### Standard features (R163). -/
def setArbitration (e : Sqe) (s : State) : State := done e (updCtrl e.port (fun c => { c with arbitration := e.cdw11.toNat }) s)
def execSetFeaturesArbitration (e : Sqe) (s : State) : Out := runFeature 0x01 e setArbitration s
/-- Power Management (R406, R408, R412). A command that has to wait for a move under way runs after it. -/
def setPowerState (e : Sqe) (s : State) : State :=
  let t := d11 e 4 0
  let w := s.power
  let later := fun (s : State) => updPower (fun p => { p with woken := p.woken ++ [e] }) s
  if 4 < t ∨ d11 e 7 5 ≠ 0 then bad e invalidField s
  else if w.entry.isSome then (if t ≤ 2 then later (wakeEvent (some t) s) else bad e sequenceError s)
  else if w.exit.isSome ∨ w.psNext.isSome then later s
  else if t = w.ps then done e s
  else if 3 ≤ w.ps then
    startExit (if t ≤ 2 then { target := t, cmd := keepCmd e } else { target := w.lastOp, follow := some t, cmd := keepCmd e }) s
  else if t ≤ 2 then updPower (fun p => { p with psNext := some { target := t, cmd := keepCmd e } }) s
  else startEntry t (keepCmd e) s
def execSetFeaturesPowerManagement (e : Sqe) (s : State) : Out := runFeature 0x02 e setPowerState s
/-- Temperature Threshold: the composite temperature only. -/
def setThreshold (e : Sqe) (s : State) : State :=
  let v := d11 e 15 0
  let sel := d11 e 19 16
  let both := fun (g : Features → Features) (s : State) => { s with feat := g s.feat, featNext := s.featNext.map g }
  if (sel ≠ 0 ∧ sel ≠ 15) ∨ 1 < d11 e 21 20 then bad e invalidField s
  else done e (both (fun f => if d11 e 21 20 = 0 then { f with tempOver := v } else { f with tempUnder := v }) s)
def execSetFeaturesTemperatureThreshold (e : Sqe) (s : State) : Out := runFeature 0x04 e setThreshold s
/-- Number of Queues (R159): before any I/O queue exists. -/
def setQueues (e : Sqe) (s : State) : State :=
  let sq := d11 e 15 0
  let cq := d11 e 31 16
  let mine := fun (k : Nat) => k / 65536 == portNo e.port
  if (s.sqs.any fun q => q.2.used && mine q.1) || s.cqs.any fun q => q.2.used && mine q.1 then bad e sequenceError s
  else
    let n := min 8192 (sq + 1)
    let m := min 8192 (cq + 1)
    ends e (0, 0) (n - 1 + (m - 1) * 65536) 0 [] (updCtrl e.port (fun c => { c with nsq := n, ncq := m }) s)
def execSetFeaturesNumberOfQueues (e : Sqe) (s : State) : Out := runFeature 0x07 e setQueues s
def setCoalescing (e : Sqe) (s : State) : State := done e (updCtrl e.port (fun c => { c with coalesce := d11 e 15 0 }) s)
def execSetFeaturesInterruptCoalescing (e : Sqe) (s : State) : Out := runFeature 0x08 e setCoalescing s
/-- Interrupt Vector Configuration: 2,048 vectors (R159). -/
def setVector (e : Sqe) (s : State) : State :=
  if 2048 ≤ d11 e 15 0 then bad e invalidField s
  else done e (updCtrl e.port (fun c => { c with vectors := tput 0 c.vectors (d11 e 15 0) (d11 e 16 16) }) s)
def execSetFeaturesInterruptVector (e : Sqe) (s : State) : Out := runFeature 0x09 e setVector s
def setAsync (e : Sqe) (s : State) : State := done e (updCtrl e.port (fun c => { c with asyncCfg := e.cdw11.toNat }) s)
def execSetFeaturesAsyncEventConfig (e : Sqe) (s : State) : Out := runFeature 0x0B e setAsync s
/-- Highest WALL_TIME in the master's recorder (R376). -/
def highestWall (s : State) : Nat :=
  let r := recAt s s.time.master
  (r.main ++ r.reserve).foldl (fun a x => max a x.wall) 0
/-- Timestamp (R375, R376). -/
def setTimestamp (e : Sqe) (d : List Byte) (s : State) : State :=
  let ms := fld d 0 6
  let old := s.time.timeEpoch
  let floor := match s.time.wall with | some _ => wallNow s | none => highestWall s
  let was := wallNow s
  let s := updTime (fun t => { t with wall := some (ms, t.fc), timeEpoch := if ms < floor then (old + 1) % 2 ^ 32 else old }) s
  done e (marker 3 (was + ms * 2 ^ 64 + old * 2 ^ 128 + portNo e.port * 2 ^ 160) s)
def execSetFeaturesTimestamp (e : Sqe) (s : State) : Out := runFeature 0x0E e (fun x => withData 8 x (setTimestamp x)) s
/-- Volatile Write Cache: no cache is present. -/
def noCache (e : Sqe) (s : State) : State := bad e invalidField s
def execSetFeaturesVolatileWriteCache (e : Sqe) (s : State) : Out := runFeature 0x06 e noCache s
/-- Any other Feature Identifier. -/
def unknownFeature (e : Sqe) (s : State) : State := bad e invalidField s
def execSetFeaturesUnsupported (e : Sqe) (s : State) : Out :=
  let x := asAdmin 0x09 e
  .next (if featureIds.contains (fidOf e) ∨ fidOf e = 6 then s else admin x (unknownFeature x) s)

/-! ### Vendor features. -/
/-- Runs a setting where its checks pass, else Invalid Field in Command and nothing changes. -/
def settingIf (okay : Bool) (e : Sqe) (g : State → State) (s : State) : State := if okay then done e (g s) else bad e invalidField s
/-- Frame Parameters 0xC0 (R56). -/
def setFrames (e : Sqe) (d : List Byte) (s : State) : State :=
  let thr := fld d 12 1
  let win := fld d 14 2
  let hold := fld d 16 4
  settingIf (inRange 2 8 thr && inRange 1000 16000 win && inRange 4000 400000 hold && allZero (d.drop 20)) e
    (setFeat fun f => { f with quarThr := thr, quarWin := win, quarHold := hold }) s
def execSetFeaturesFrameParameters (e : Sqe) (s : State) : Out := runFeature 0xC0 e (fun x => withData 32 x (setFrames x)) s
/-- Thermal Throttle Points 0xC1 (R423). -/
def setThrottle (e : Sqe) (d : List Byte) (s : State) : State :=
  let (pkg, qj, fil, dram, band) := (fld d 0 1, fld d 2 1, fld d 4 1, fld d 6 1, fld d 10 1)
  let (host, _) := setAccepted s
  settingIf (inRange 55 70 pkg && inRange 85 100 qj && inRange 85 100 fil && inRange 70 85 dram && inRange 1 10 band && allZero (d.drop 11)) e
    (updPower fun p => { p with setNext := some (host, pkg, qj, fil, dram, band) }) s
def execSetFeaturesThermalThrottlePoints (e : Sqe) (s : State) : Out := runFeature 0xC1 e (fun x => withData 32 x (setThrottle x)) s
/-- Media Power Budget 0xC2 (R418). -/
def setBudget (e : Sqe) (d : List Byte) (s : State) : State :=
  let (_, rest) := setAccepted s
  settingIf (inRange 20 100 (fld d 0 1) && allZero (d.drop 5)) e (updPower fun p => { p with setNext := some (fld d 0 1, rest) }) s
def execSetFeaturesMediaPowerBudget (e : Sqe) (s : State) : Out := runFeature 0xC2 e (fun x => withData 32 x (setBudget x)) s
/-- Event Rate Limits 0xC3 (R386). -/
def setRates (e : Sqe) (d : List Byte) (s : State) : State :=
  let (depth, refill, period) := (fld d 0 1, fld d 1 1, fld d 2 2)
  let ents := (List.range 12).map fun i => (fld d (16 + 4 * i) 2, fld d (18 + 4 * i) 1, fld d (19 + 4 * i) 1)
  let used := ents.filter fun x => x.1 != 0
  settingIf (inRange 1 255 depth && inRange 1 depth refill && inRange 400 40000 period && allZero (slice' d 4 12) && (ents.all fun x => x.2.2 == 0)
      && used.all fun x => decide (255 < x.1) && inRange 1 255 x.2.1) e
    (updEvents fun ev => { ev with next := some (depth, refill, period, used.map fun x => (x.1, x.2.1)) }) s
def execSetFeaturesEventRateLimit (e : Sqe) (s : State) : Out := runFeature 0xC3 e (fun x => withData 64 x (setRates x)) s
/-- Scrub Policy 0xC4 (R82). -/
def setScrub (e : Sqe) (d : List Byte) (s : State) : State :=
  let (warn, step, reads, rt, rc, rh) := (fld d 0 1, fld d 1 1, fld d 2 2, fld d 4 1, fld d 5 1, fld d 6 2)
  let iv := (List.range 16).map fun i => fld d (8 + 2 * i) 2
  settingIf (inRange 30 90 warn && inRange 1 7 step && inRange 1 256 reads && inRange 5 40 rt && inRange 5 40 rc && inRange 1 168 rh
      && iv.all (inRange 24 2160) && allZero (d.drop 40)) e
    (setFeat fun f => { f with
      warnPct := warn, marginStep := step, scrubReads := reads, retrainTemp := rt, recalTemp := rc, retrainHours := rh, interval := table16 168 iv }) s
def execSetFeaturesScrubPolicy (e : Sqe) (s : State) : Out := runFeature 0xC4 e (fun x => withData 64 x (setScrub x)) s
/-- DRAM Interleave Grain 0xC5 (R278). -/
def setGrain (e : Sqe) (d : List Byte) (s : State) : State :=
  let (grain, cache, k, rt, rh) := (fld d 0 1, fld d 2 1, fld d 4 1, fld d 5 1, fld d 6 2)
  settingIf (inRange 8 16 grain && inRange 2 16 cache && inRange 6 12 k && inRange 5 20 rt && inRange 1 168 rh && allZero (d.drop 8)) e
    (setFeat fun f => { f with grainNext := grain, cacheNext := cache, refreshK := k, rankTemp := rt, rankHours := rh }) s
def execSetFeaturesDramInterleaveGrain (e : Sqe) (s : State) : Out := runFeature 0xC5 e (fun x => withData 32 x (setGrain x)) s
/-- Bulk Port 0xC6 (R242): a change of address, VLAN or PFC fields takes the port down; the other values apply from the next
frame boundary. -/
def setBulk (e : Sqe) (d : List Byte) (s : State) : State :=
  let c := if d11 e 0 0 = 1 then CardId.cb else .ca
  let old := bulkAccepted s c
  let v := fld d 6 2
  let n : BulkPort := { old with
    vid := bits v 11 0, pcp := bits v 14 12, vlan := bit v 15, gid := BitVec.ofNat 128 (fld d 8 16), nextHop := BitVec.ofNat 48 (fld d 24 6),
    pfcPrio := bits (fld d 32 1) 2 0, pfcEn := bit (fld d 32 1) 3, dscp := bits (fld d 33 1) 5 0, cnpDscp := bits (fld d 34 1) 5 0, cut := fld d 35 1,
    recover := fld d 36 1, step := fld d 37 1, ackTimeout := fld d 38 1, retryCnt := bits (fld d 39 1) 2 0 }
  let down := decide (n.vid ≠ old.vid ∨ n.pcp ≠ old.pcp ∨ n.vlan ≠ old.vlan ∨ n.gid ≠ old.gid ∨ n.nextHop ≠ old.nextHop ∨ n.pfcPrio ≠ old.pfcPrio
    ∨ n.pfcEn ≠ old.pfcEn)
  let okay := d11 e 31 1 == 0 && (!n.vlan || inRange 1 4094 n.vid) && inRange 1 128 n.cut && inRange 1 255 n.recover && inRange 1 200 n.step
    && inRange 1 64 n.ackTimeout && fld d 30 2 == 0 && decide (fld d 32 1 < 16 ∧ fld d 33 1 < 64 ∧ fld d 34 1 < 64 ∧ fld d 39 1 < 8)
    && decide (fld d 40 1 < 2) && allZero (slice' d 41 7)
  settingIf okay e (fun s =>
    let s := { s with bulkNext := pset s.bulkNext c (some n) }
    if down then
      updBulk c (fun b => { b with
        vid := n.vid, pcp := n.pcp, vlan := n.vlan, gid := n.gid, nextHop := n.nextHop, pfcPrio := n.pfcPrio, pfcEn := n.pfcEn, linkUp := false,
        downAt := if b.linkUp then some (now s) else b.downAt }) s
    else s) s
def execSetFeaturesBulkPort (e : Sqe) (s : State) : Out := runFeature 0xC6 e (fun x => withData 64 x (setBulk x)) s
/-- Deadline Miss Policy 0xC7 (R57). -/
def setMissPolicy (e : Sqe) (s : State) : State :=
  let sl := d11 e 9 0
  settingIf (d11 e 15 10 == 0 && d11 e 31 17 == 0 && (sliceAt s sl).st != 0) e (updSlice sl fun x => { x with policy := d11 e 16 16 == 1, saveFresh := false }) s
def execSetFeaturesDeadlineMissPolicy (e : Sqe) (s : State) : Out := runFeature 0xC7 e setMissPolicy s
/-- Seedbed Policy 0xC8 (R130). -/
def setSeedbed (e : Sqe) (d : List Byte) (s : State) : State :=
  let (thr, full, wait, pack, hold) := (fld d 0 1, fld d 1 1, fld d 2 2, fld d 4 1, fld d 5 1)
  settingIf (inRange 50 97 thr && inRange (thr + 1) 99 full && inRange 400 40000 wait && decide (pack ≤ 4) && inRange 5 50 hold && fld d 6 2 == 0
      && allZero (d.drop 24)) e
    (setFeat fun f => { f with
      thrPct := thr, fullPct := full, fullWait := wait, packWait := pack, absentPct := hold,
      foldHold := table16 0 ((List.range 16).map fun i => fld d (8 + i) 1) }) s
def execSetFeaturesSeedbedPolicy (e : Sqe) (s : State) : Out := runFeature 0xC8 e (fun x => withData 32 x (setSeedbed x)) s

/-! ### Get Features (R466). -/
/-- Structures of the vendor features from given values; read-only fields are current. -/
def framesBytes (f : Features) : List Byte :=
  fitTo 32 (le 2 16000 ++ le 2 8960 ++ le 2 7040 ++ le 2 12000 ++ le 2 5000 ++ le 2 2048 ++ [byte f.quarThr, 190] ++ le 2 f.quarWin ++ le 4 f.quarHold)
def throttleBytes (v : Nat × Nat × Nat × Nat × Nat × Nat) : List Byte :=
  let (_, pkg, qj, fil, dram, band) := v
  fitTo 32 [byte pkg, 80, byte qj, 110, byte fil, 110, byte dram, 95, 100, 110, byte band]
def budgetBytes (s : State) (v : Nat × Nat × Nat × Nat × Nat × Nat) : List Byte :=
  fitTo 32 [byte v.1, byte (stateBudget s), byte (thermalBudget s), byte (sheafBudget s), byte (inForce s)]
def ratesBytes (v : Nat × Nat × Nat × List (Nat × Nat)) : List Byte :=
  fitTo 64 ([byte v.1, byte v.2.1] ++ le 2 v.2.2.1 ++ zeros 12 ++ v.2.2.2.flatMap fun o => le 2 o.1 ++ [byte o.2, 0])
def scrubBytes (f : Features) : List Byte :=
  fitTo 64 ([byte f.warnPct, byte f.marginStep] ++ le 2 f.scrubReads ++ [byte f.retrainTemp, byte f.recalTemp] ++ le 2 f.retrainHours
            ++ (List.range 16).flatMap fun i => le 2 (tget 168 f.interval i))
def grainBytes (s : State) (c : CardId) (f : Features) : List Byte :=
  fitTo 32 ([byte f.grainNext, byte (memAt s c).grainNow, byte f.cacheNext, byte (memAt s c).cacheNow, byte f.refreshK, byte f.rankTemp] ++ le 2 f.rankHours)
def bulkBytes (s : State) (c : CardId) (n : BulkPort) : List Byte :=
  let b := bulkAt s c
  fitTo 64 (le 6 (Config.bulkMac (cardNo c)).toNat ++ le 2 (n.vid + n.pcp * 4096 + b2n n.vlan * 32768) ++ le 16 n.gid.toNat ++ le 6 n.nextHop.toNat ++ zeros 2
            ++ [byte (n.pfcPrio + 8 * b2n n.pfcEn), byte n.dscp, byte n.cnpDscp, byte n.cut, byte n.recover, byte n.step, byte n.ackTimeout, byte n.retryCnt,
                byte (b2n b.linkUp)] ++ zeros 7 ++ le 8 b.nakIn ++ le 8 b.refused)
def seedbedBytes (f : Features) : List Byte :=
  fitTo 32 ([byte f.thrPct, byte f.fullPct] ++ le 2 f.fullWait ++ [byte f.packWait, byte f.absentPct, 0, 0] ++ (List.range 16).map fun i => byte (tget 0 f.foldHold i))
/-- Timestamp: milliseconds and origin (R376). -/
def timeBytes (s : State) : List Byte :=
  match s.time.wall with | some _ => fitTo 8 (le 6 (wallNow s) ++ [2]) | none => fitTo 8 (le 6 (s.time.fc / 4))
/-- Dword 0 and the structure of a feature: its current or saved values (own), or its defaults; none where it is not
supported or names a slice that does not exist. -/
def featureValue (s : State) (e : Sqe) (own : Bool) : Option (Nat × List Byte) :=
  let c := if own then ctrlAt s e.port else {}
  let f := if own then featAccepted s else {}
  let bc := if d11 e 0 0 = 1 then CardId.cb else .ca
  let dw := fun (n : Nat) => some (n, ([] : List Byte))
  let data := fun (l : List Byte) => some (0, l)
  match fidOf e with
  | 0x01 => dw c.arbitration
  | 0x02 => dw (if own then s.power.ps else 0)
  | 0x04 => if (d11 e 19 16 ≠ 0 ∧ d11 e 19 16 ≠ 15) ∨ 1 < d11 e 21 20 then none else dw (if d11 e 21 20 = 0 then f.tempOver else f.tempUnder)
  | 0x07 => dw (c.nsq - 1 + (c.ncq - 1) * 65536)
  | 0x08 => dw c.coalesce
  | 0x09 => if 2048 ≤ d11 e 15 0 then none else dw (d11 e 15 0 + tget 0 c.vectors (d11 e 15 0) * 65536)
  | 0x0B => dw c.asyncCfg
  | 0x0E => data (if own then timeBytes s else zeros 8)
  | 0xC0 => data (framesBytes f)
  | 0xC1 => data (throttleBytes (if own then setAccepted s else (100, 70, 100, 100, 85, 5)))
  | 0xC2 => data (budgetBytes s (if own then setAccepted s else (100, 70, 100, 100, 85, 5)))
  | 0xC3 => data (ratesBytes (if own then paramsAccepted s else (8, 8, 4000, [])))
  | 0xC4 => data (scrubBytes f)
  | 0xC5 => data (grainBytes s (cardOf e.port) f)
  | 0xC6 => if d11 e 31 1 ≠ 0 then none else data (bulkBytes s bc (if own then bulkAccepted s bc else {}))
  | 0xC7 => if (sliceAt s (d11 e 9 0)).st = 0 ∨ d11 e 15 10 ≠ 0 ∨ d11 e 31 17 ≠ 0 then none
            else dw (b2n (own && (sliceAt s (d11 e 9 0)).policy) * 65536)
  | 0xC8 => data (seedbedBytes f)
  | _ => none
/-- Get Features: SEL 0 current, 1 default, 2 saved, 3 capabilities (R466). -/
def getFeatures (e : Sqe) (s : State) : State :=
  let answer := fun (v : Option (Nat × List Byte)) =>
    match v with
    | some (dw0, d) => if e.dlen < d.length then failWith e sglLength s else finish e 0 0 dw0 0 d s
    | none => failWith e invalidField s
  match d10 e 10 8 with
  | 0 => answer (featureValue s e true)
  | 1 => answer (featureValue s e false)
  | 2 => answer (featureValue s e (saveable (fidOf e)))
  | 3 => if featureIds.contains (fidOf e) then okDw e (4 + b2n (saveable (fidOf e))) s else failWith e invalidField s
  | _ => failWith e invalidField s
/-- GET_FEATURES (R163, R466). -/
def execGetFeatures (e : Sqe) (s : State) : Out := .next (admin (asAdmin 0x0A e) (getFeatures (asAdmin 0x0A e)) s)

end Sys2Proof.Machine
end

