-- ==== Sys2Proof/Machine/NsAdmin.lean ====
section
/-! DEFINITION. Namespaces and Format NVM (R146, R165, R196, R338, R464), and the admin commands that end with media work. -/
namespace Sys2Proof.Machine
open Sys2Proof

/-! ### Jobs. -/
/-- A job begins, or waits for fetched commands. -/
def addJob (e : Sqe) (begun : Bool) (dw0 : Nat) (s : State) : Nat × State :=
  let (k, s) := fresh s
  (k, { s with jobs := s.jobs ++ [{ key := k, e := e, begun := begun, dw0 := dw0 }] })
/-- A job has gone from the list. -/
def dropJob (k : Nat) (s : State) : State := { s with jobs := s.jobs.filter fun j => j.key != k }

/-! ### Namespace Management (R146, R165). -/
/-- NVMe status codes of namespace commands that R160, R165 and R196 do not state (assumption 15). -/
def invalidFormat : Nat × Nat := (1, 0x0A)
def thinProvisioning : Nat × Nat := (1, 0x1B)
def ctrlListInvalid : Nat × Nat := (1, 0x1C)
/-- The lowest NSID not in use. -/
def freeNsid (s : State) : Option Nat := (List.range 4096).findSome? fun i => if (nsAt s (i + 1)).used then none else some (i + 1)
/-- Stripe slots that a conventional namespace reserves (R146). -/
def reservation (p : Profile) (nsze : Nat) : Nat := cdiv (11 * nsze) (10 * capOf p) + 4
/-- The group of a new namespace: that of ANAGRPID, or of the card that owns fewer namespaces (R165). -/
def pickGroup (s : State) (id : Nat) : Group :=
  let owned := fun (c : CardId) => (s.nss.filter fun n => n.2.used && decide (ownerOf s n.2.group = c)).length
  match id with
  | 1 => .g1
  | 2 => .g2
  | _ => if owned .cb < owned .ca then .g2 else .g1
/-- A format and protection information type of R160. -/
def formatOk (fmt ext pit : Nat) : Bool := (fmt == 0 && pit == 0) || (fmt == 1 && ext == 1 && (pit == 1 || pit == 3))
/-- NAMESPACE_CREATE (R165); a frond that holds too few die-blocks for it takes zones Offline (R145). -/
def nsCreate (e : Sqe) (d : List Byte) (s : State) : State :=
  let nsze := fld d 0 8
  let csi := d11 e 31 24
  let fmt := bits (fld d 26 1) 3 0
  let pit := bits (fld d 29 1) 2 0
  let ana := fld d 92 4
  let zoned := csi == 2
  let prof := match fld d 3072 1 with | 0 => Profile.s14 | 1 => .l12 | _ => .s15
  let r := if zoned then 0 else reservation prof nsze
  let conv := s.nss.foldl (fun a n => if n.2.used && !n.2.zoned then a + n.2.nsze else a) 0
  if csi ≠ 0 ∧ csi ≠ 2 then bad e (1, 0x29) s
  else if 2 < fld d 3072 1 ∨ nsze = 0 ∨ 2 ^ 40 < nsze ∨ (zoned ∧ nsze % 1048576 ≠ 0) then bad e invalidField s
  else if fld d 8 8 ≠ nsze then bad e thinProvisioning s
  else if !formatOk fmt (bits (fld d 26 1) 4 4) pit then bad e invalidFormat s
  else if 2 < ana then bad e (1, 0x24) s
  else if !zoned ∧ 2 ^ 33 < conv + nsze then bad e (1, 0x15) s
  else if freeSlots s < r then ends e (7, 0x83) 16 0 [] s
  else if !zoned ∧ 16384 < activeCount s + 2 then ends e (7, 0x83) 17 0 [] s
  else match freeNsid s with
    | none => bad e (1, 0x16) s
    | some id =>
      let (salt, s) := drawKey s
      let s := ends e (0, 0) id 0 [] (updNs id (fun _ => {
        used := true, zoned := zoned, profile := prof, group := pickGroup s ana, nsze := nsze, fmt1 := fmt == 1, pit := pit, salt := salt, resv := r }) s)
      (List.range 16).foldl (fun s f => backingDeficit f s) s
/-- The entry of a row with a selection in CDW10[3:0]. -/
def asSel (opc : Byte) (sel : Nat) (e : Sqe) : Sqe := with10 3 0 sel (asAdmin opc e)
def execNamespaceCreate (e : Sqe) (s : State) : Out :=
  let x := asSel 0x0D 0 e
  .next (admin x (withData 4096 x (nsCreate x)) s)
/-- A namespace that admin commands may name: it exists and is not being deleted (R165). -/
def liveNs (s : State) (nsid : Nat) : Bool := let n := nsAt s nsid; n.used && n.deleting.isNone
/-- NAMESPACE_DELETE (R165): completes after the commands fetched for the namespace. NSID 0xFFFFFFFF names them all; the
command completes with the highest of them. -/
def nsDelete (e : Sqe) (s : State) : State :=
  if e.nsid = 0xFFFFFFFF then
    match ((s.nss.filter fun n => liveNs s n.1).map (·.1)).reverse with
    | [] => done e s
    | last :: rest =>
      wake (updNs last (fun n => { n with deleting := some (e.port, e.cid) })
        (rest.foldl (fun s id => updNs id (fun n => { n with deleting := some (e.port, 65537) }) s) s))
  else if !liveNs s e.nsid then bad e invalidNs s
  else wake (updNs e.nsid (fun n => { n with deleting := some (e.port, e.cid) }) s)
def execNamespaceDelete (e : Sqe) (s : State) : Out := .next (admin (asSel 0x0D 1 e) (nsDelete (asSel 0x0D 1 e)) s)

/-! ### Namespace Attachment (R165, R196). -/
/-- The controllers of a controller list: those of H0 and H1, in rising order; none if the list is not valid. -/
def ctrlsOf (d : List Byte) : Option (List Port) :=
  match fld d 0 2, fld d 2 2, fld d 4 2 with
  | 1, 1, _ => some [.h0]
  | 1, 2, _ => some [.h1]
  | 2, 1, 2 => some [.h0, .h1]
  | _, _, _ => none
/-- NAMESPACE_ATTACH: the first attach binds the namespace to the slice of CDW12[9:0]. -/
def nsAttach (e : Sqe) (d : List Byte) (s : State) : State :=
  let n := nsAt s e.nsid
  let sl := d12 e 9 0
  if !liveNs s e.nsid then bad e invalidNs s
  else match ctrlsOf d with
    | none => bad e ctrlListInvalid s
    | some ps =>
      if (n.slice.isSome ∧ n.slice ≠ some sl) ∨ ps.any (attachedTo n) then bad e (1, 0x18) s
      else if (sliceAt s sl).st = 0 ∨ (sliceAt s sl).st = 4 then bad e invalidField s
      else
        let s := updNs e.nsid (fun x => { x with slice := some sl, att := ps.foldl (fun a p => pset a (cardOf p) true) x.att }) s
        let s := if n.slice.isNone then updSlice sl (fun x => { x with saveFresh := false }) s else s
        done e (ps.foldl (fun s p => nsChanged p e.nsid s) s)
def execNamespaceAttach (e : Sqe) (s : State) : Out :=
  let x := asSel 0x15 0 e
  .next (admin x (withData 4096 x (nsAttach x)) s)
/-- NAMESPACE_DETACH: the binding stays. -/
def nsDetach (e : Sqe) (d : List Byte) (s : State) : State :=
  let n := nsAt s e.nsid
  if !liveNs s e.nsid then bad e invalidNs s
  else match ctrlsOf d with
    | none => bad e ctrlListInvalid s
    | some ps =>
      if ps.any fun p => !attachedTo n p then bad e (1, 0x1A) s
      else
        done e (updNs e.nsid (fun x => { x with att := ps.foldl (fun a p => pset a (cardOf p) false) x.att })
          (ps.foldl (fun s p => nsChanged p e.nsid s) s))
def execNamespaceDetach (e : Sqe) (s : State) : Out :=
  let x := asSel 0x15 1 e
  .next (admin x (withData 4096 x (nsDetach x)) s)

/-! ### Format NVM (R160, R162, R338). -/
/-- Namespaces that a Format names. -/
def formatSet (s : State) (e : Sqe) : List Nat :=
  if e.nsid = 0xFFFFFFFF then (s.nss.filter fun n => liveNs s n.1).map (·.1) else [e.nsid]
/-- The format takes effect: zones emptied, the salt replaced for a secure erase, the new LBA format in force. -/
def formatNow (k : Nat) (e : Sqe) (s : State) : State :=
  (formatSet s e).foldl (fun s id =>
    let s := eraseNs id (some k) s
    let (salt, s) := if d10 e 11 9 = 0 then ((nsAt s id).salt, s) else drawKey s
    updNs id (fun n => { n with salt := salt, fmt1 := d10 e 3 0 == 1, pit := d10 e 7 5 }) s) s
/-- FORMAT_NVM begins; it waits for the commands fetched for its namespaces. -/
def formatNvm (e : Sqe) (s : State) : State :=
  if e.nsid ≠ 0xFFFFFFFF ∧ !liveNs s e.nsid then bad e invalidNs s
  else if 2 < d10 e 11 9 then bad e invalidField s
  else if !formatOk (d10 e 3 0) (d10 e 4 4) (d10 e 7 5) then bad e invalidFormat s
  else (addJob e false 0 s).2
/-- A waiting Format begins once no fetched command names its namespaces. -/
def formatBegin (j : Job) (s : State) : State :=
  if s.cmds.any fun c => (formatSet s j.e).contains c.2.e.nsid then s
  else formatNow j.key j.e { s with jobs := s.jobs.map fun x => if x.key = j.key then { x with begun := true } else x }

end Sys2Proof.Machine
end

