-- ==== Sys2Proof/Machine/Firmware.lean ====
section
/-! DEFINITION. Firmware images: download, verification, commit, slot writes, activation, Filnas updates, health and fallback
(R298, R352–R364, R370). -/
namespace Sys2Proof.Machine
open Sys2Proof

/-! ### The staging buffer (R357). -/
/-- What of a staged piece at o lies outside the bytes from off to off + n. -/
def outside (off n : Nat) (x : Nat × List Byte) : List (Nat × List Byte) :=
  let stop := x.1 + x.2.length
  if stop ≤ off ∨ off + n ≤ x.1 then [x]
  else (if x.1 < off then [(x.1, x.2.take (off - x.1))] else []) ++ if off + n < stop then [(off + n, x.2.drop (off + n - x.1))] else []
/-- A piece is staged; a piece at offset 0 discards what was staged. -/
def stage (off : Nat) (b : List Byte) (t : Tbl (List Byte)) : Tbl (List Byte) :=
  let keep := if off = 0 then [] else t.flatMap (outside off b.length)
  keep.foldl (fun t x => tins t x.1 x.2) [(off, b)]
/-- Bytes staged from offset 0 on without a gap. -/
def stagedBytes (t : Tbl (List Byte)) : List Byte := t.foldl (fun l x => if x.1 = l.length then l ++ x.2 else l) []
/-- The largest co-signature block: length, public key, signature (R355, R357). DESIGN CHOICE: no greatest co-signature is given; the
greatest SIG_LENGTH of an image, 16,384, stands for it (assumption 194). -/
def cosignMax : Nat := 4 + 60 + 16384
def imageMax : Nat := 50331648
/-- FIRMWARE_IMAGE_DOWNLOAD (R357). -/
def download (e : Sqe) (s : State) : State :=
  let n := (e.cdw10.toNat + 1) * 4
  let off := e.cdw11.toNat * 4
  if 4194304 < n ∨ imageMax + cosignMax < off + n then bad e invalidField s
  else if e.dlen < n then bad e sglLength s
  else done e (updCard (cardOf e.port) (fun c => { c with staged := stage off (fitTo n e.data) c.staged }) s)
def execFirmwareImageDownload (e : Sqe) (s : State) : Out := .next (admin (asAdmin 0x11 e) (download (asAdmin 0x11 e)) s)

/-! ### The image (R352–R355). -/
def imgLength (b : List Byte) : Nat := fld b 8 4
def sigOffset (b : List Byte) : Nat := fld b 12 4
def sigLength (b : List Byte) : Nat := fld b 16 4
def signerPub (b : List Byte) : List Byte := slice' b 36 60
def bothCards (b : List Byte) : Bool := bits (fld b 264 1) 1 0 != 0
def isSheaf (b : List Byte) : Bool := bit (fld b 264 1) 1
def sheafMask (b : List Byte) : Nat := fld b 266 2
/-- Component table entry i: KIND, OFFSET, LENGTH, HW_MASK, SHA256 (R354). -/
def component (b : List Byte) (i : Nat) : Nat × Nat × Nat × Nat × List Byte :=
  let o := 1792 + 64 * i
  (fld b o 1, fld b (o + 4) 4, fld b (o + 8) 4, fld b (o + 12) 4, slice' b (o + 32) 32)
def components (b : List Byte) : List (Nat × Nat × Nat × Nat × List Byte) := (List.range 4).map (component b)
/-- Largest LENGTH of a KIND. -/
def kindMax : Nat → Nat | 1 => 16777216 | 2 => 25165824 | 3 => 4194304 | _ => 524288
/-- HW_MASK and SHA256 of the component of a KIND. -/
def maskOfKind (b : List Byte) (k : Nat) : Nat := match (components b).find? fun c => c.1 == k with | some c => c.2.2.2.1 | none => 0
def shaOfKind (b : List Byte) (k : Nat) : List Byte := match (components b).find? fun c => c.1 == k with | some c => c.2.2.2.2 | none => []
/-- The bytes between one part's end and the next part's start are zero, and no two parts overlap: parts in rising order of
offset. -/
def gapsOk (b : List Byte) : Nat → List (Nat × Nat) → Bool
  | _, [] => true
  | at', (o, n) :: r => decide (at' ≤ o) && allZero (slice' b at' (o - at')) && gapsOk b (o + n) r
/-- What follows IMAGE_LENGTH: nothing, or one co-signature block (R355). -/
def trailer (b : List Byte) : List Byte := b.drop (imgLength b)
def trailerOk (b : List Byte) : Bool :=
  let t := trailer b
  t.isEmpty || (decide (64 < t.length) && fld t 0 4 == t.length - 4 && decide (t.length ≤ cosignMax))
/-- Reason 1 of R359: MAGIC, FORMAT, lengths, offsets, Rsvd bytes, KINDs. -/
def layoutOk (b : List Byte) : Bool :=
  let parts := sortBy (fun x y => decide (x.1 < y.1)) ((components b).map fun c => (c.2.1, c.2.2.1))
  let count := fld b 265 1
  b.take 4 == ascii "TRMS" && fld b 4 2 == 1 && decide (8192 ≤ imgLength b ∧ imgLength b ≤ imageMax)
    && sigOffset b % 4096 == 0 && decide (sigLength b ≤ 16384) && sigOffset b + sigLength b == imgLength b
    && fld b 6 2 == 0 && allZero (slice' b 96 160) && fld b 258 2 == 0 && decide (fld b 264 1 < 4) && decide (count ≤ 64)
    && allZero (slice' b 268 244) && allZero (slice' b (512 + 20 * count) (1280 - 20 * count)) && allZero (slice' b 2048 2048)
    && ([1, 2, 3, 4].all fun k => (components b).any fun c => c.1 == k)
    && ((List.range 4).all fun i => fld b (1793 + 64 * i) 3 == 0 && fld b (1808 + 64 * i) 16 == 0)
    && ((components b).all fun c => c.2.1 % 4096 == 0 && decide (1 ≤ c.2.2.1 ∧ c.2.2.1 ≤ kindMax c.1))
    && gapsOk b 4096 (parts ++ [(sigOffset b, sigLength b)]) && trailerOk b
/-- Units of each kind in service are admitted by the masks (reason 3). -/
def unitsAdmitted (s : State) (card : CardId) (rev hwCard hwFrond hwPeu : Nat) : Bool :=
  bit rev (cardRev s card)
    && ([CardId.ca, .cb].all fun c => !(cardAt s c).serving || bit hwCard (cardRev s c))
    && ((List.range 16).all fun f => frondAbsent s f || bit hwFrond (frondRev s f))
    && ([PeuId.a, .b].all fun p => !((peuAt s p).present && (peuAt s p).keltan) || bit hwPeu (peuRev s p))
/-- The module serial number is listed, or no list binds the image (reason 4). -/
def serialOk (b : List Byte) : Bool :=
  let n := fld b 265 1
  n == 0 || (List.range n).any fun i => slice' b (512 + 20 * i) 20 == fitTo 20 Config.moduleSerial
def componentsOk (b : List Byte) : Bool :=
  (components b).all fun c => Config.sha256 (slice' b c.2.1 c.2.2.1) == c.2.2.2.2
/-- The vendor signature (R355). -/
def signatureOk (b : List Byte) : Bool :=
  decide (0 < sigLength b) && Config.sha256 (signerPub b) == Config.vendorRoot
    && Config.hssVerify (signerPub b) (b.take (sigOffset b)) (slice' b (sigOffset b) (sigLength b))
/-- The co-signature block (R355). -/
def cosignOk (root b : List Byte) : Bool :=
  let t := trailer b
  decide (64 < t.length) && Config.sha256 (slice' t 4 60) == root && Config.hssVerify (slice' t 4 60) (b.take (imgLength b)) (t.drop 64)
/-- A slot's contents from an image (R352, R354, R356). -/
def fwOf (b : List Byte) : FwSlot :=
  { valid := true, confirmed := false, sha := Config.sha256 b, image := b, revision := slice' b 20 8, secVersion := fld b 28 4, ifLevel := fld b 32 2,
    minPeerIf := fld b 34 2, hwCard := maskOfKind b 1 &&& maskOfKind b 2, hwFrond := maskOfKind b 3, hwPeu := maskOfKind b 4,
    filnasSha := shaOfKind b 3, peuSha := shaOfKind b 4 }
/-- Reason 9: the partner's running image, and the running Filnas and PEU code, reach MIN_PEER_IF. -/
def peersOk (s : State) (card : CardId) (w : FwSlot) : Bool :=
  let p := cardAt s (other card)
  (!p.serving || decide (w.minPeerIf ≤ (activeSlot p).ifLevel)) && decide (w.minPeerIf ≤ (runningImage s).ifLevel)
/-- The verification of R359 on a card: the reason of the first check that fails. The image as shipped is held without its
bytes. -/
def checkImage (s : State) (card : CardId) (w : FwSlot) (act3 : Bool) : Option Nat :=
  let b := w.image
  let signed := s.sec.level != 0
  let shipped := b.isEmpty
  if !shipped ∧ (b.length < 4096 ∨ b.length < imgLength b) then some 10
  else if !shipped && !layoutOk b then some 1
  else if !shipped && fld b 256 2 != 0x4B5A then some 2
  else if !unitsAdmitted s card (if shipped then 4294967295 else fld b 260 4) w.hwCard w.hwFrond w.hwPeu then some 3
  else if !shipped && !serialOk b then some 4
  else if !shipped && !componentsOk b then some 5
  else if signed && !shipped && !signatureOk b then some 6
  else if signed && (match s.sec.cosign with | some r => !(if shipped then Config.shippedCosigned r else cosignOk r b) | none => false : Bool) then some 7
  else if signed && decide (w.secVersion < (cardAt s card).secMin) then some 8
  else if act3 && !peersOk s card w then some 9
  else none
/-- The same of an image that was staged or relayed: with no byte of it there, reason 10 (R359). -/
def checkNew (s : State) (card : CardId) (w : FwSlot) (act3 : Bool) : Option Nat := if w.image.isEmpty then some 10 else checkImage s card w act3

/-! ### Commit (R298, R358, R359, R364, R365). -/
/-- NVMe status codes of Firmware Commit, and Image Rejected (R358, R359). -/
def invalidSlot : Nat × Nat := (1, 0x06)
def invalidImage : Nat × Nat := (1, 0x07)
def imageRejected : Nat × Nat := (7, 0x89)
/-- A slot write begins: the slot is empty until its record is written (R356, R358). -/
def beginWrite (card : CardId) (w : SlotWrite) (s : State) : State :=
  updCard card (fun c => setSlot w.slot { valid := false, confirmed := false } { c with writing := some w }) s
/-- A firmware step of a card's image is recorded. -/
def relayEvent (w : FwSlot) (s : State) : State := fwEvent 0 7 w.secVersion s
/-- Spores of an image with its co-signature block (R366). -/
def cutSpores (b : List Byte) : Tbl (List Byte) := (List.range (cdiv b.length 65536)).map fun i => (i + 1, slice' b (65536 * i) 65536)
/-- C_0 (R366). -/
def chain0 (id len : Nat) : List Byte := Config.sha256 (le 4 id ++ le 4 len)
def chainOf (id len : Nat) (t : Tbl (List Byte)) : List Byte := t.foldl (fun c x => Config.sha256 (c ++ x.2)) (chain0 id len)
def offer (s : State) : State :=
  let r := s.sheaf.relay
  broadcast 0x30 ([r.id, r.length, r.spores, r.action, r.origin] ++ r.cn.map (·.toNat)) s
/-- Positions in the census, the module's own among them, as a mask. -/
def censusMask (s : State) : Nat := ((census s).map fun m => 2 ^ m.1).foldl (· ||| ·) (2 ^ s.sheaf.pos)
/-- A relay begins on the lead (R365–R367). Without an eligible successor the lead itself sends to the members. -/
def startRelay (w : FwSlot) (action : Nat) (s : State) : State :=
  let b := w.image
  let id := (s.sheaf.relayId + 1) % 2 ^ 32
  let t := cutSpores b
  let o := (successor s).getD s.sheaf.pos
  let c := chainOf id b.length t
  let r : Relay :=
    { st := if o = s.sheaf.pos then 2 else 1, id := id, length := b.length, spores := t.length, action := action, origin := o, cn := c,
      mask := sheafMask b &&& censusMask s, held := t, chain := c, verified := t.length, state := 1, lead := s.sheaf.pos, stepAt := now s, sha := w.sha }
  let clear := s.sheaf.members.map fun m => (m.1, { m.2 with spores := 0, sporeState := 0, activated := false })
  offer (relayEvent w (updSheaf (fun x => { x with relay := r, relayId := id, members := clear }) s))
/-- A card may be activated at once (R298, R364): its partner serves and none of the two is activating or on trial. -/
def mayActivate (s : State) (card : CardId) : Bool :=
  let p := cardAt s (other card)
  p.serving && p.activating == 0 && (cardAt s card).activating == 0 && (activeSlot p).confirmed
/-- The slot that FS selects on a card: 0 is the inactive one. -/
def fsSlot (c : Card) (fs : Nat) : Nat := if fs = 0 then idleSlot c else fs
/-- Commit actions 0, 1 and 3: checks in order, then the slot writes begin. DESIGN CHOICE: the order of the refusals is slot,
unconfirmed image, image, running relay or busy partner (R358, assumption 193). -/
def commitStaged (e : Sqe) (s : State) : State :=
  let card := cardOf e.port
  let o := other card
  let c := cardAt s card
  let action := d10 e 5 3
  let slot := fsSlot c (d10 e 2 0)
  let w := fwOf (stagedBytes c.staged)
  let relay := isSheaf w.image && s.sheaf.st == 2
  let own := !relay || bit (sheafMask w.image) s.sheaf.pos
  let both := own && bothCards w.image
  if 2 < slot ∨ slot = c.active then bad e invalidSlot s
  else if !(activeSlot c).confirmed ∨ c.activating ≠ 0 ∨ c.writing.isSome then bad e sequenceError s
  else if action = 3 ∧ !mayActivate s card then bad e sequenceError s
  else match checkNew s card w (action == 3) with
  | some r => ends e imageRejected r 0 [] s
  | none =>
    if relay ∧ s.sheaf.relay.st ≠ 0 then bad e sequenceError s
    else if both ∧ (!(cardAt s o).serving ∨ !(activeSlot (cardAt s o)).confirmed ∨ (cardAt s o).activating ≠ 0 ∨ (cardAt s o).writing.isSome) then
      bad e sequenceError s
    else if !own then done e (startRelay w action s)
    else
      let x : SlotWrite := { slot := slot, fw := w, action := action, both := both, relay := relay, cmd := keepCmd e }
      if both then
        match checkImage s o w (action == 3) with
        | some r => ends e imageRejected r 0 [] s
        | none => beginWrite o { x with slot := idleSlot (cardAt s o), cmd := none } (beginWrite card x s)
      else beginWrite card x s
/-- Commit action 2: the image in the slot is verified again and becomes active at the card's next start. DESIGN CHOICE: an empty
slot answers Invalid Firmware Image (R358, assumption 192). -/
def commitSlot (e : Sqe) (s : State) : State :=
  let card := cardOf e.port
  let c := cardAt s card
  let n := fsSlot c (d10 e 2 0)
  if 2 < n then bad e invalidSlot s
  else if !(slotOf c n).valid then bad e invalidImage s
  else match checkImage s card (slotOf c n) false with
  | some r => ends e imageRejected r 0 [] s
  | none => done e (updCard card (fun c => { c with nextSlot := n }) s)
/-- Bits of a Firmware Commit that R358 and NVMe define: FS and the action. -/
def commitOk (e : Sqe) : Bool := rsvdOk 0x3F 0 0 0 0 0 e
def asCommit (action : Nat) (e : Sqe) : Sqe := with10 5 3 action (asAdmin 0x10 e)
def runCommit (f : Sqe → State → State) (e : Sqe) (s : State) : Out :=
  .next (admin e (fun s => if commitOk e then f e s else bad e invalidField s) s)
/-- FIRMWARE_COMMIT_REPLACE (R358). -/
def execFirmwareCommitReplace (e : Sqe) (s : State) : Out := runCommit commitStaged (asCommit 0 e) s
/-- FIRMWARE_COMMIT_NEXT_START (R358). -/
def execFirmwareCommitNextStart (e : Sqe) (s : State) : Out := runCommit commitStaged (asCommit 1 e) s
/-- FIRMWARE_COMMIT_ACTIVATE_SLOT (R358). -/
def execFirmwareCommitActivateSlot (e : Sqe) (s : State) : Out := runCommit commitSlot (asCommit 2 e) s
/-- FIRMWARE_COMMIT_IMMEDIATE (R298, R358). -/
def execFirmwareCommitImmediate (e : Sqe) (s : State) : Out := runCommit commitStaged (asCommit 3 e) s

/-! ### Slot writes (R356, R358). -/
/-- The card stops fetching and its activation begins (R298 step 1). -/
def beginActivation (card : CardId) (s : State) : State :=
  updCtrl (portOf card) (fun c => { c with stopped := true }) (updCard card (fun c => { c with activating := 1 }) s)
/-- Both cards activate, CB first; CA waits until CB's image is confirmed (R358). -/
def activateBoth (s : State) : State := beginActivation .cb (updCard .ca (fun c => { c with activating := 6 }) s)
/-- A commit command ends (R348). -/
def commitEnds (cmd : Option (Port × Nat × Nat)) (action : Nat) (st : Nat × Nat) (s : State) : State :=
  match cmd with
  | some (p, cid, _) => finishChange { port := p, cid := cid, opc := 0x10 } action st 0 0 [] s
  | none => s
/-- The module tells the lead how far it has come (R366). -/
def confirmSpores (s : State) : State :=
  let r := s.sheaf.relay
  if s.sheaf.st = 1 ∧ r.st ≠ 0 then toMember s.sheaf.lead 0x32 [r.id, r.verified, r.state, r.reason] s else s
/-- The image of a relay is stored: the member confirms, and begins to send if it is the originator (R367). -/
def relayStored (s : State) : State :=
  let s := updSheaf (fun x => { x with relay := { x.relay with
    state := 1, st := if x.relay.st = 3 ∧ x.relay.origin = x.pos then 2 else x.relay.st, sent := 0, stepAt := now s } }) s
  confirmSpores s
/-- What follows once a commit's slots are written: the slot that becomes active next, the activation, the relay. -/
def slotsWritten (card : CardId) (w : SlotWrite) (s : State) : State :=
  let cards := if w.both then [card, other card] else [card]
  let s := cards.foldl (fun s c => match (cardAt s c).writing with
    | some x => updCard c (fun y => { y with writing := none, nextSlot := if w.action = 1 ∨ w.action = 3 then x.slot else y.nextSlot }) s
    | none => s) s
  if w.relay ∧ w.cmd.isNone then relayStored s
  else if w.relay then
    commitEnds w.cmd w.action (0, 0) (startRelay w.fw w.action
      (cards.foldl (fun s c => if w.action = 3 then updCard c (fun y => { y with nextSlot := 0 }) s else s) s))
  else if w.action = 3 then
    let s := updCard card (fun c => { c with actCmd := w.cmd }) s
    if w.both then activateBoth s else beginActivation card s
  else commitEnds w.cmd w.action (0, 0) s
/-- A commit goes on when its slot writes have ended; it fails where the partner has left before both slots were written. -/
def commitStep (card : CardId) (s : State) : State :=
  match (cardAt s card).writing with
  | some w =>
    if !w.written then s
    else if !w.both then slotsWritten card w s
    else if w.cmd.isNone ∧ !w.relay then
      if (cardAt s (other card)).serving then s else updCard card (fun c => { c with writing := none }) s
    else match (cardAt s (other card)).writing with
      | some x => if x.written then slotsWritten card w s else s
      | none => commitEnds w.cmd w.action internalError (updCard card (fun c => { c with writing := none }) s)
  | none => s
/-- SLOT_WRITE_DONE (R358): the slot record is written. -/
def execSlotWriteDone (card : CardId) (s : State) : Out :=
  match (if (cardAt s card).serving then (cardAt s card).writing else none) with
  | some w =>
    if w.written then .next s
    else
      let s := updCard card (fun c => setSlot w.slot w.fw { c with writing := some { w with written := true } }) s
      .next (commitStep .cb (commitStep .ca s))
  | none => .next s

/-! ### The steps of an activation (R298, R358), at a tick. -/
/-- Groups that a card owns. -/
def ownedBy (s : State) (c : CardId) : List Group := [Group.g1, .g2].filter fun g => decide (ownerOf s g = c)
def homeGroup : CardId → Group | .ca => .g1 | .cb => .g2
/-- A commit of action 3 ends with its last card's activation, or with a failure. -/
def activationEnds (st : Nat × Nat) (s : State) : State :=
  [CardId.ca, .cb].foldl (fun s c =>
    let k := (cardAt s c).actCmd
    if k.isSome then commitEnds k 3 st (updCard c (fun x => { x with actCmd := none }) s) else s) s
/-- CA waits for CB's image (R358): it follows once CB's is confirmed; it stays on its image where CB has not kept it. -/
def waitForCb (s : State) : State :=
  let b := s.pair.cb
  if s.pair.ca.activating ≠ 6 ∨ b.activating ≠ 0 then s
  else if b.serving ∧ (activeSlot b).sha = (slotOf s.pair.ca s.pair.ca.nextSlot).sha ∧ (activeSlot b).confirmed then beginActivation .ca s
  else if b.serving ∧ b.window.isSome then s
  else activationEnds internalError (updCard .ca (fun c => { c with activating := 0, nextSlot := 0 }) s)
/-- One card's activation goes on: 1 its commands complete, 2 its groups move, 5 its home group is back; it ends where the partner has failed
before step 3 (assumption 204). -/
def activationStep (card : CardId) (s : State) : State :=
  let c := cardAt s card
  let step := if c.serving then c.activating else 0
  if (step = 1 ∨ step = 2) ∧ !carries (cardAt s (other card)) then
    activationEnds internalError (updCtrl (portOf card) (fun x => { x with stopped := false }) (updCard card (fun c => { c with activating := 0, nextSlot := 0 }) s))
  else match step with
  | 1 =>
    if s.cmds.any fun x => decide (x.2.card = card) && x.2.e.sqid != 0 then s
    else
      let s := updCard card (fun c => { c with activating := 2 }) s
      anaUpdate ((ownedBy s card).foldl (fun s g => startTransfer g (other card) s) s)
  | 2 =>
    if ownedBy s card ≠ [] ∨ s.time.master = card then
      (if s.time.master = card ∧ s.pair.handTo.isNone then updPair (fun p => { p with handTo := some (other card) }) s else s)
    else
      let n := if c.nextSlot = 0 then idleSlot c else c.nextSlot
      updCard card (fun c => { c with hb := 3 }) (runSlot card n true false (updCard card (fun c => { c with activating := 3 }) s))
  | 5 =>
    if (ownedBy s card).contains (homeGroup card) then
      let s := updCtrl (portOf card) (fun x => { x with stopped := false }) (updCard card (fun c => { c with activating := 0 }) s)
      let s := anaUpdate s
      if card = CardId.cb ∧ s.pair.ca.activating = 6 then s else activationEnds (0, 0) s
    else s
  | _ => s

/-! ### Filnas updates (R361). -/
/-- A frond runs Filnas code that differs from the component on which the serving cards agree. -/
def filnasDue (s : State) (f : Nat) : Bool :=
  let sha := (runningImage s).filnasSha
  agree s (·.filnasSha) && !frondAbsent s f && (frondAt s f).code != sha && s.pair.filStopped != some sha
/-- FILNAS_UPDATE (R361): ascending, at most one frond every 64 frames, switched at a tick. -/
def execFilnasUpdate (frond : Frond) (s : State) : Out :=
  let f := frond.val
  let busy := (List.range 16).any fun n => (frondAt s n).switched.isSome || (decide (n < f) && filnasDue s n)
  .next (if filnasDue s f ∧ !busy ∧ (s.pair.filSwitch = 0 ∨ elapsed s s.pair.filSwitch 64) then
      updPair (fun p => { p with filSwitch := now s })
        (updFrond f (fun g => { g with idleCode := g.code, code := (runningImage s).filnasSha, bank := !g.bank, switched := some (now s) }) s)
    else s)
/-- FILNAS_UPDATE_TIMEOUT (R361): back to the old bank; the update stops. -/
def execFilnasUpdateTimeout (frond : Frond) (s : State) : Out :=
  let f := frond.val
  match (frondAt s f).switched with
  | some t =>
    .next (if elapsed s t 64 then
      fwEvent (obj 4 f) 5 (runningImage s).secVersion (updPair (fun p => { p with filStopped := some (frondAt s f).code })
        (updFrond f (fun g => { g with idleCode := g.code, code := g.idleCode, bank := !g.bank, switched := none }) s))
    else s)
  | none => .next s
/-- A Filnas that has run its new code for more than 64 frames has been updated. -/
def filnasRuns (f : Nat) (s : State) : State :=
  match (frondAt s f).switched with
  | some t => if elapsed s t 65 then fwEvent (obj 4 f) 4 (runningImage s).secVersion (updFrond f (fun g => { g with switched := none }) s) else s
  | none => s

/-! ### Health (R362, R363). -/
/-- The soak count restarts at every frame in which the card does not serve with STATE 1 and its home group. -/
def soak (card : CardId) (s : State) : State :=
  let c := cardAt s card
  if c.window.isSome ∧ !(c.serving ∧ c.hb = 1 ∧ ownerOf s (homeGroup card) = card) then updCard card (fun c => { c with soakAt := now s }) s else s
/-- Every Filnas update that the image requires has ended. -/
def filnasEnded (s : State) : Bool := (List.range 16).all fun f => !filnasDue s f && (frondAt s f).switched.isNone
/-- HEALTH_CONFIRM (R362): CONFIRMED is written and SEC_MIN raised; a partner that waits for the image goes on (R437). -/
def execHealthConfirm (card : CardId) (s : State) : Out :=
  let c := cardAt s card
  let o := other card
  if c.window.isNone ∨ !c.serving ∨ c.hb ≠ 1 ∨ ownerOf s (homeGroup card) ≠ card ∨ !elapsed s c.soakAt 240000 ∨ !filnasEnded s then .next s
  else
    let w := activeSlot c
    let s := updCard card (fun c => { setSlot c.active { w with confirmed := true } c with window := none, secMin := max c.secMin w.secVersion }) s
    let s := fwEvent (obj 8 (cardNo card)) 2 w.secVersion s
    .next (if (cardAt s o).entering = 3 then besidePartner o s else s)
/-- HEALTH_WINDOW_EXPIRY (R363): the card leaves service and restarts from the other slot, unless it serves alone. -/
def execHealthWindowExpiry (card : CardId) (s : State) : Out :=
  let c := cardAt s card
  match c.window with
  | some f =>
    if !c.serving ∨ !elapsed s f 3600000 then .next s
    else
      let s := updCard card (fun c => { c with window := none, fallBack := true }) s
      .next (if (cardAt s (other card)).serving then updCard card (fun c => { c with entering := 1, why := .none }) (cardOut card 1 .none s)
        else event 0x6FF 1 (srcQ card) (obj 8 (cardNo card)) 363 0 0 s)
  | none => .next s

end Sys2Proof.Machine
end

