-- ==== Sys2Proof/Machine/Relay.lean ====
section
/-! DEFINITION. The spore relay (R365–R369). -/
namespace Sys2Proof.Machine
open Sys2Proof

def relayOf (s : State) : Relay := s.sheaf.relay
def updRelay (g : Relay → Relay) (s : State) : State := updSheaf (fun x => { x with relay := g x.relay }) s
/-- The module holds the whole image and has verified it. -/
def whole (r : Relay) : Bool := r.st != 0 && r.spores != 0 && r.verified == r.spores
/-- The image from its spores. -/
def relayImage (r : Relay) : List Byte := (r.held.flatMap (·.2)).take r.length
/-- Members that take part and are still in the census, beside the module itself (R365, R367). -/
def takingPart (s : State) : List (Nat × SheafMember) := (census s).filter fun m => bit (relayOf s).mask m.1
/-- The module's own position takes part (R365). -/
def ownPart (s : State) : Bool := bit (relayOf s).mask s.sheaf.pos
/-- A relay step is recorded (R370). -/
def relayStepEvent (s : State) : State := fwEvent 0 7 (fld (tget [] (relayOf s).held 1) 28 4) s
/-- The lead ends the relay (R366, R368, R369). -/
def endRelay (result : Nat) (s : State) : State :=
  let s := relayStepEvent (broadcast 0x36 [(relayOf s).id, result] s)
  let s := if result = 2 then event 0x6FF 1 (srcQ s.time.master) 0 368 0 0 s else s
  updRelay (fun _ => {}) s
/-- The cursor (R367): the lowest confirmed index over the members that take part. -/
def cursor (s : State) : Nat := (takingPart s).foldl (fun a m => min a m.2.spores) (relayOf s).spores

/-! ### Receiving (R366, R367). -/
/-- SPORE_OFFER: a new relay, or the same relay with another originator. -/
def execSporeOffer (hdr : CulmHdr) (relayId length spores action originator : Nat) (chain : List Byte) (s : State) : Out :=
  let (s, mine) := receive hdr.port 0x30 hdr true ([relayId, length, spores, action, originator] ++ chain.map (·.toNat)) s
  let r := relayOf s
  .next (if !mine ∨ s.sheaf.st ≠ 1 ∨ hdr.src ≠ s.sheaf.lead then s
    else if r.st ≠ 0 ∧ r.id = relayId then
      updRelay (fun r => { r with
        origin := originator, lead := hdr.src,
        st := if originator = s.sheaf.pos ∧ r.st = 3 ∧ r.state = 1 then 2 else r.st, sent := if originator = s.sheaf.pos then 0 else r.sent }) s
    else
      updSheaf (fun x => { x with
        relayId := relayId
        relay := { st := 3, id := relayId, length := length, spores := spores, action := action, origin := originator, cn := chain,
                   mask := censusMask s, chain := chain0 relayId length, up := hdr.port, lead := hdr.src, stepAt := now s } }) s)
/-- After the last spore: the chain value, the image under R359, the slots of both cards (R367 step 4). DESIGN CHOICE: a chain
value that differs is confirmed with state 2 and reason 0 (assumption 195). -/
def imageWhole (s : State) : State :=
  let r := relayOf s
  let b := relayImage r
  let w := fwOf b
  let act := r.action == 3
  let free := fun (c : CardId) => let x := cardAt s c; x.serving && x.writing.isNone && x.activating == 0 && (activeSlot x).confirmed
  let own := bit (sheafMask b) s.sheaf.pos
  let reason := if r.chain ≠ r.cn then some 0 else match checkNew s .ca w act with | some n => some n | none => checkNew s .cb w act
  let s := updRelay (fun r => { r with sha := w.sha, mask := r.mask &&& sheafMask b }) s
  match reason with
  | some n => confirmSpores (updRelay (fun r => { r with state := 2, reason := n }) s)
  | none =>
    if !own then relayStored s
    else if !(free .ca && free .cb) then confirmSpores (updRelay (fun r => { r with state := 2, reason := 0 }) s)
    else
      let x : SlotWrite := { fw := w, action := r.action % 3, both := true, relay := true }
      beginWrite .cb { x with slot := idleSlot s.pair.cb } (beginWrite .ca { x with slot := idleSlot s.pair.ca } s)
/-- Spores whose pieces have come are checked in rising order; each checked spore goes on to the next frame's forwarding. -/
def checkSpores (port : CulmPort) : Nat → State → State
  | 0, s => s
  | n + 1, s =>
    let r := relayOf s
    let i := r.verified + 1
    let ps := (List.range 64).map fun k => tfind r.parts (i * 64 + k)
    if r.spores < i ∨ !(ps.all (·.isSome)) then s
    else
      let l := ps.map (·.getD [])
      let b := l.flatMap (·.take 1024)
      let c := Config.sha256 (r.chain ++ b)
      let parts := r.parts.filter fun x => x.1 / 64 ≠ i
      if (l.getD 63 []).drop 1024 ≠ c then updRelay (fun r => { r with parts := parts }) s
      else
        let o := otherCulm port
        let s := updRelay (fun r => { r with
          parts := parts, chain := c, verified := i, held := tins r.held i b, stepAt := now s,
          fwd := if (takingPart s).any (fun m => decide (m.2.via = o) && m.1 != r.lead) then r.fwd ++ [(o, i)] else r.fwd }) s
        let s := confirmSpores s
        if i = r.spores then imageWhole s else checkSpores port n s
/-- SPORE_DATA (R367 step 3): a piece of a spore that the module does not hold. -/
def execSporeData (port : CulmPort) (hdr : CulmHdr) (relayId index piece : Nat) (bytes chain : List Byte) (s : State) : Out :=
  let (s, mine) := receive port 0x31 hdr false [relayId, index, piece] s
  let r := relayOf s
  .next (if !mine ∨ r.st ≠ 3 ∨ r.id ≠ relayId ∨ index ≤ r.verified ∨ r.spores < index ∨ 64 ≤ piece ∨ bytes.length ≠ 1024 then s
    else
      let b := if piece = 63 then bytes ++ fitTo 32 chain else bytes
      checkSpores port r.spores (updRelay (fun r => { r with up := port, parts := tins r.parts (index * 64 + piece) b }) s))
/-- SPORE_MISSING (R367): sixteen frames without the spore. -/
def execSporeMissing (index : Nat) (s : State) : Out :=
  let r := relayOf s
  .next (if r.st = 3 ∧ r.verified < index ∧ index ≤ r.spores ∧ elapsed s r.stepAt 16 then
      match (culmAt s r.up).nbr with
      | some (n, _) => ownMsg r.up 0x33 n [r.id, index] (updRelay (fun r => { r with stepAt := now s }) s)
      | none => s
    else s)
/-- One spore, as its 64 pieces with the chain value after it, on one port. -/
def sendSpore (p : CulmPort) (i : Nat) (s : State) : State :=
  match (culmAt s p).nbr with
  | some (_, _) => if portUp s p then
      send (.spore p (relayOf s).id i) (updCulm p (fun x => { x with aliveTx := x.aliveTx + 64, sent := x.sent + 64 })
        (updSheaf (fun x => { x with seq := (x.seq + 64) % 65536 }) s))
    else s
  | none => s
/-- SPORE_RESEND (R367): a spore that the module holds is sent again. -/
def execSporeResend (port : CulmPort) (hdr : CulmHdr) (relayId index : Nat) (s : State) : Out :=
  let (s, mine) := receive port 0x33 hdr false [relayId, index] s
  .next (if mine ∧ (relayOf s).st ≠ 0 ∧ (relayOf s).id = relayId ∧ (tfind (relayOf s).held index).isSome then sendSpore port index s else s)

/-! ### The lead (R367, R369). -/
/-- The next member, in rising position, to be activated; the lead itself last. -/
def activateNext (s : State) : State :=
  let r := relayOf s
  match minBy id (((takingPart s).filter fun m => !m.2.activated).map (·.1)) with
  | some p =>
    toMember p 0x34 [r.id] (relayStepEvent (updRelay (fun r => { r with st := 4, activating := some p, stepAt := now s }) s))
  | none =>
    if !ownPart s then endRelay 0 s
    else
      let s := relayStepEvent (updRelay (fun r => { r with st := 4, activating := some s.sheaf.pos, own := true, stepAt := now s }) s)
      let next := fun (c : Card) => { c with nextSlot := idleSlot c }
      if mayActivate s .cb ∧ (activeSlot s.pair.cb).confirmed ∧ (activeSlot s.pair.ca).confirmed then activateBoth (updCard .ca next (updCard .cb next s))
      else endRelay 1 s
/-- Every member that takes part has answered: the relay is complete, stops, or its activation begins (R369). -/
def collect (s : State) : State :=
  let r := relayOf s
  let l := takingPart s
  if s.sheaf.st ≠ 2 ∨ (r.st ≠ 5 ∧ r.st ≠ 2) ∨ l.any (fun m => m.2.sporeState == 0) then s
  else if l.any fun m => m.2.sporeState == 2 then endRelay 1 s
  else if r.action = 3 then activateNext s
  else endRelay 0 s
/-- SPORE_CONFIRM at the lead: the cursor, the originator's turn, the end. -/
def execSporeConfirm (hdr : CulmHdr) (relayId highest state reason : Nat) (s : State) : Out :=
  let (s, mine) := receive hdr.port 0x32 hdr true [relayId, highest, state, reason] s
  let r := relayOf s
  .next (if !mine ∨ s.sheaf.st ≠ 2 ∨ r.st = 0 ∨ r.id ≠ relayId then s
    else
      let s := updMember hdr.src (fun m => { m with spores := highest, sporeState := state }) s
      if r.st = 1 ∧ hdr.src = r.origin then
        (if state = 1 then collect (relayStepEvent (updRelay (fun r => { r with st := 5 }) s)) else if state = 2 then endRelay 1 s else s)
      else collect s)
/-- The module answers the lead that its activation has ended (R366). -/
def answerActivate (result : Nat) (s : State) : State :=
  toMember s.sheaf.lead 0x35 [(relayOf s).id, result] (updRelay (fun r => { r with own := false }) s)
/-- RELAY_ACTIVATE at a member: both its cards activate in the order of R358. -/
def execRelayActivate (hdr : CulmHdr) (relayId : Nat) (s : State) : Out :=
  let (s, mine) := receive hdr.port 0x34 hdr true [relayId] s
  let r := relayOf s
  .next (if !mine ∨ s.sheaf.st ≠ 1 ∨ r.st = 0 ∨ r.id ≠ relayId ∨ r.own then s
    else if r.state = 1 ∧ mayActivate s .cb ∧ (activeSlot s.pair.cb).confirmed ∧ (activeSlot s.pair.ca).confirmed then
      let next := fun (c : Card) => { c with nextSlot := idleSlot c }
      activateBoth (updCard .ca next (updCard .cb next (updRelay (fun r => { r with own := true }) s)))
    else answerActivate 2 s)
/-- An activation in the relay has ended with a result. -/
def activated (p result : Nat) (s : State) : State :=
  if result ≠ 0 then endRelay 1 s
  else if p = s.sheaf.pos then endRelay 0 s
  else activateNext (updMember p (fun m => { m with activated := true }) s)
/-- ACTIVATE_DONE at the lead. -/
def execActivateDone (hdr : CulmHdr) (relayId result : Nat) (s : State) : Out :=
  let (s, mine) := receive hdr.port 0x35 hdr true [relayId, result] s
  let r := relayOf s
  .next (if mine ∧ s.sheaf.st = 2 ∧ r.st = 4 ∧ r.id = relayId ∧ r.activating = some hdr.src then activated hdr.src result s else s)
/-- ACTIVATION_TIMEOUT (R369): 3,600,000 frames without an answer. -/
def execActivationTimeout (s : State) : Out :=
  let r := relayOf s
  .next (if s.sheaf.st = 2 ∧ r.st = 4 ∧ elapsed s r.stepAt 3600000 then endRelay 1 s else s)
/-- RELAY_END at a member: what is stored stays. -/
def execRelayEnd (hdr : CulmHdr) (relayId result : Nat) (s : State) : Out :=
  let (s, mine) := receive hdr.port 0x36 hdr true [relayId, result] s
  .next (if mine ∧ s.sheaf.st = 1 ∧ (relayOf s).st ≠ 0 ∧ (relayOf s).id = relayId then updRelay (fun _ => {}) (relayStepEvent s) else s)

/-! ### What a relay does at a tick (R367–R369). -/
/-- Ports on which the originator sends: those behind which a member takes part. -/
def sendPorts (s : State) : List CulmPort :=
  [CulmPort.u0, .u1].filter fun p => (takingPart s).any fun m => decide (m.2.via = p) && m.1 != (relayOf s).lead
/-- Up to four spores on each port (R367). -/
def sendSome (ports : List CulmPort) (s : State) : State :=
  let r := relayOf s
  let n := min 4 (r.spores - r.sent)
  let s := (List.range n).foldl (fun s k => ports.foldl (fun s p => sendSpore p (r.sent + k + 1) s) s) s
  updRelay (fun r => { r with sent := r.sent + n }) s
/-- A change of lead (R368): every member confirms again; a new lead that holds the image goes on from the cursor 64 frames
later, one whose originator is there collects, else it ends the relay. -/
def relayLead (s : State) : State :=
  let r := relayOf s
  if r.st = 0 ∨ r.lead = s.sheaf.lead ∨ (s.sheaf.st ≠ 1 ∧ s.sheaf.st ≠ 2) then s
  else
    let s := updRelay (fun r => { r with lead := s.sheaf.lead, stepAt := now s }) s
    if s.sheaf.st = 1 then
      confirmSpores (updRelay (fun r => { r with st := if r.st = 4 ∨ r.st = 5 then 3 else r.st, state := if whole r then 1 else r.state }) s)
    else
      let there := fun (p : Nat) => (census s).any fun m => m.1 == p
      let clear := s.sheaf.members.map fun m => (m.1, { m.2 with spores := 0, sporeState := 0 })
      let s := updSheaf (fun x => { x with members := clear }) s
      if whole r then updRelay (fun x => { x with st := 2, origin := s.sheaf.pos, sent := x.spores }) s
      else if there r.origin ∨ there r.lead then updRelay (fun x => { x with st := if x.origin = s.sheaf.pos then 3 else 5 }) s
      else endRelay 2 s
/-- The lead has lost its originator: the next eligible member takes its part (R368). -/
def relayOrigin (s : State) : State :=
  let r := relayOf s
  if s.sheaf.st ≠ 2 ∨ (r.st ≠ 1 ∧ r.st ≠ 5) ∨ r.origin = s.sheaf.pos ∨ ((census s).any fun m => m.1 == r.origin) then s
  else if !whole r then endRelay 2 s
  else match successor s with
    | some p => offer (relayStepEvent (updRelay (fun r => { r with st := 1, origin := p, sent := (memberAt' s p).spores }) s))
    | none => updRelay (fun r => { r with st := 2, origin := s.sheaf.pos, sent := cursor s }) s
/-- Where the module's own cards stand in the relay's activation: 0 both confirmed, 1 one has not kept the image, none yet. -/
def ownResult (s : State) : Option Nat :=
  let r := relayOf s
  let runs := fun (c : Card) => c.serving && (activeSlot c).sha == r.sha
  let kept := fun (c : Card) => runs c && (activeSlot c).confirmed && c.activating == 0
  let way := fun (c : Card) => c.activating != 0 || (runs c && ((activeSlot c).confirmed || c.window.isSome))
  if kept s.pair.ca && kept s.pair.cb then some 0 else if way s.pair.ca && way s.pair.cb then none else some 1
/-- The relay at a tick. -/
def relayStep (s : State) : State :=
  let s := relayOrigin (relayLead s)
  let r := relayOf s
  if r.st = 0 then s
  else
    let s := if s.sheaf.st = 2 ∧ r.st = 2 ∧ r.sent = r.spores ∧ elapsed s r.stepAt 64 ∧ s.time.start ≤ r.stepAt + 1024000 ∧ cursor s < r.spores then
        updRelay (fun r => { r with sent := cursor s }) s else s
    let s := updRelay (fun r => { r with fwd := [] }) (r.fwd.foldl (fun s x => sendSpore x.1 x.2 s) s)
    let s := if r.st = 1 then sendSome [(memberAt' s r.origin).via] s else if (relayOf s).st = 2 then sendSome (sendPorts s) s else s
    let s := collect s
    if (relayOf s).own then
      match ownResult s with
      | some n => if s.sheaf.st = 2 then activated s.sheaf.pos n (updRelay (fun r => { r with own := false }) s) else answerActivate n s
      | none => s
    else if s.sheaf.st = 2 ∧ (relayOf s).st = 4 ∧ (match (relayOf s).activating with
        | some p => p != s.sheaf.pos && !((census s).any fun m => m.1 == p) | none => true : Bool) then endRelay 1 s
    else s

end Sys2Proof.Machine
end

