-- ==== Sys2Proof/Machine/SliceAdmin.lean ====
section
/-! DEFINITION. Slices: creation, reset, deletion, freeze, save and restore (R179, R192–R215), Queue Resume and Share Set. -/
namespace Sys2Proof.Machine
open Sys2Proof

/-! ### The drain of a slice (R42, R111, R201). -/
/-- A conventional write whose codewords all have three copies: its records are still programmed (R201). -/
def runsDry (s : State) (c : Cmd) : Bool :=
  isWrite c.kind && !(nsAt s c.e.nsid).zoned && (match c.st with | .journal | .ackWait | .programmed => true | _ => false)
/-- The drain of one slice: every command of it ends without completion, its writes are settled. -/
def drainSlice (sl : Nat) (s : State) : State :=
  let own := s.cmds.filter fun c => c.2.slice == sl && c.2.e.sqid != 0
  let s := own.foldl (fun s c =>
    if runsDry s c.2 then updCmd c.1 (fun x => { x with silent := true })  s
    else dropCmd c.1 (if isWrite c.2.kind || c.2.kind == .copy then settleWrite c.1 s else s)) s
  wake s
/-- The I/O queues of a slice are deleted without completions. -/
def dropQueues (sl : Nat) (s : State) : State :=
  { s with sqs := s.sqs.filter fun q => q.2.slice != sl, cqs := s.cqs.filter fun q => q.2.slice != sl }
def bumpGen (x : Slice) : Slice := { x with gen := x.gen + 1 }
/-- Steps 1 to 4 of R201. The queues are not fetched from any more; step 5 deletes them once all is settled. The records of the zones
that close are its job's. -/
def resetSlice (sl job : Nat) (s : State) : State :=
  let s := drainSlice sl (updSlice sl bumpGen s)
  closeZones (fun ns => (nsAt s ns).slice == some sl) (some job) s

/-! ### Checks (R179, R194, R203, R204). -/
def sliceOf (e : Sqe) : Nat := d10 e 9 0
/-- A slice command: reserved bits zero, slice 1–1,023, none of a reset or delete running (R179, R214). -/
def sliceCmd (m10 m11 m12 : Nat) (e : Sqe) (run : State → State) (s : State) : State :=
  let sl := sliceOf e
  if !rsvdOk m10 m11 m12 0 0 0 e ∨ sl = 0 then bad e invalidField s
  else if 3 ≤ (sliceAt s sl).st then bad e sequenceError s
  else run s
/-- A slice command on an existing slice (R178). -/
def sliceLive (m10 m11 m12 : Nat) (e : Sqe) (run : State → State) (s : State) : State :=
  sliceCmd m10 m11 m12 e (fun s => if (sliceAt s (sliceOf e)).st = 0 then bad e invalidField s else run s) s
/-- Share structure (R203); none where a field is out of range or a Rsvd byte is set. -/
def shareFrom (d : List Byte) : Option Share :=
  let x : Share := { readCw := fld d 0 2, writeCw := fld d 2 2, burst := fld d 4 1, bufPct := fld d 5 1, weight := fld d 6 2, quota := fld d 8 2 }
  if x.readCw ≤ 2500 ∧ x.writeCw ≤ 1024 ∧ 1 ≤ x.burst ∧ x.burst ≤ 16 ∧ 1 ≤ x.bufPct ∧ x.bufPct ≤ 100 ∧ 1 ≤ x.weight ∧ x.weight ≤ 1000 ∧ x.quota ≤ 4096
      ∧ allZero (slice' d 10 54) then some x else none
/-- The sums of R204 on a port hold with a share for a slice in place of what it has; `of` gives the others' shares. -/
def sumsOf (of : Slice → Share) (s : State) (p : Port) (sl : Nat) (n : Share) : Bool :=
  let l := s.slices.filter fun x => x.1 != sl && x.2.st != 0 && (x.1 == 0 || decide (x.2.port = p))
  let sum := fun (f : Share → Nat) => l.foldl (fun a x => a + f (of x.2)) (f n)
  decide (sum (·.readCw) ≤ 2500 ∧ sum (·.writeCw) ≤ 1024)
/-- They hold from the next frame boundary on, where a Share Set takes effect (R208). -/
def sumsHold (s : State) (p : Port) (sl : Nat) (n : Share) : Bool := sumsOf shareOf s p sl n
/-- They hold at once and from the next boundary on: of a share that comes into force in this frame (R194, R212). -/
def sumsNow (s : State) (p : Port) (sl : Nat) (now' next : Share) : Bool := sumsOf (·.share) s p sl now' && sumsHold s p sl next
/-- The PASID is bound to another slice of a port. -/
def pasidTaken (s : State) (p : Port) (sl pasid : Nat) : Bool :=
  s.slices.any fun x => x.1 != 0 && x.1 != sl && x.2.st != 0 && decide (x.2.port = p) && x.2.pasid == pasid
/-- A command that binds or moves a slice ends: its change record names the slice and PASID (R348). -/
def bindEnds (e : Sqe) (sl pasid dw0 : Nat) (s : State) : State :=
  let k := portNo e.port * 65536 + e.cid
  change e.opc.toNat (d10 e 9 0) 2 (portNo e.port) sl pasid 0 (tget [] s.sec.keyIds k)
    (some { port := e.port, sqid := e.sqid, cid := e.cid, dw0 := dw0 }) (updSec (fun x => { x with keyIds := tdel x.keyIds k }) s)

/-! ### Create (R193, R194, R197). -/
def sliceCreate (e : Sqe) (s : State) : State :=
  let any := d10 e 10 10 = 1
  let pick := if any then ((List.range 1024).drop 1).find? fun n => (sliceAt s n).st == 0 else some (sliceOf e)
  let d := fitTo 256 e.data
  let pasid := d12 e 19 0
  if !rsvdOk 0x7FF 0xFFFF 0xFFFFF 0 0 0 e ∨ d11 e 15 0 ≠ 256 ∨ (!any ∧ sliceOf e = 0) then bad e invalidField s
  else if e.dlen < 256 then bad e sglLength s
  else match pick with
  | none => bad e sequenceError s
  | some sl =>
    if (sliceAt s sl).st ≠ 0 then bad e sequenceError s
    else if pasidTaken s e.port sl pasid ∨ fld d 64 1 = 0 ∨ 64 < fld d 64 1 ∨ 1 < fld d 65 1 ∨ !allZero (d.drop 66) then bad e invalidField s
    else match shareFrom d with
    | none => bad e invalidField s
    | some x =>
      if !sumsNow s e.port sl x x then bad e invalidField s
      else
        let (key, s) := drawKey s
        let g := (sliceAt s sl).gen + 1
        let n : Slice := { st := 1, port := e.port, pasid := pasid, gen := g, share := x, qpairs := fld d 64 1, policy := fld d 65 1 == 1, key := key, changeFc := s.time.fc }
        bindEnds e sl pasid (sl + g.toNat * 65536) (updSlice sl (fun _ => n) s)
def execSliceCreate (e : Sqe) (s : State) : Out := .next (admin (asAdmin 0xC1 e) (sliceCreate (asAdmin 0xC1 e)) s)

/-! ### Reset and Delete (R198, R201). -/
def setSliceSt (sl st : Nat) (s : State) : State := updSlice sl (fun x => { x with st := st, changeFc := s.time.fc }) s
def sliceReset (e : Sqe) (s : State) : State :=
  let sl := sliceOf e
  sliceLive 0x3FF 0 0 e (fun s =>
    let g := ((sliceAt s sl).gen + 1).toNat
    let (k, s) := addJob e true (g * 65536) s
    let s := updSlice sl (fun x => { x with portLost := false, lostQs := [] }) (setSliceSt sl 3 (resetSlice sl k s))
    event 0x301 0 (srcQ s.time.master) (obj 7 sl) g 0 0 s) s
def execSliceReset (e : Sqe) (s : State) : Out := .next (admin (asAdmin 0xC8 e) (sliceReset (asAdmin 0xC8 e)) s)
/-- A Slice Reset ends once nothing of the old generation remains and the closing of its zones is recorded: the queues are deleted (R201). A slice whose port has been lost
meanwhile is frozen (R210). -/
def resetEnds (j : Job) (s : State) : State :=
  let sl := sliceOf j.e
  if !quiet s sl ∨ !recsDone s j.key then s
  else okDw j.e j.dw0 (dropJob j.key (updSlice sl (fun x => { x with st := if x.portLost then 2 else 1, changeFc := s.time.fc }) (dropQueues sl s)))
def sliceDelete (e : Sqe) (s : State) : State :=
  let sl := sliceOf e
  sliceLive 0x3FF 0 0 e (fun s => let (k, s) := addJob e false 0 s; setSliceSt sl 4 (resetSlice sl k s)) s
def execSliceDelete (e : Sqe) (s : State) : Out := .next (admin (asAdmin 0xC4 e) (sliceDelete (asAdmin 0xC4 e)) s)
/-- Rules leave the table and both spikelets (R198). -/
def dropRules (gone : Nat → Bool) (s : State) : State :=
  let out := fun (sp : Spikelet) => { sp with
    ents := sp.ents.filter fun x => !(isRulePos x.1 && gone x.2.rule)
    shadow := sp.shadow.filter fun x => !(isRulePos x.1 && gone x.2.rule) }
  updSp .ca out (updSp .cb out { s with rules := s.rules.filter fun r => !gone r.1 })
/-- Some descriptor names a queue pair (R243). -/
def qpNamed (s : State) (k : Nat) : Bool :=
  s.slices.any fun x => x.2.descs.any fun d => d.2.enable && cardNo d.2.port * 4096 + d.2.qp == k
/-- Commands in flight use a queue pair. -/
def qpBusy (s : State) (k : Nat) : Bool := s.cmds.any fun c => c.2.desc.enable && cardNo c.2.desc.port * 4096 + c.2.desc.qp == k
/-- Queue pairs that no descriptor names go out of service, at once or with their last command (R245). -/
def closeQps (s : State) : State :=
  { s with qps := s.qps.filterMap fun q =>
      if !q.2.used ∨ qpNamed s q.1 then some q else if qpBusy s q.1 then some (q.1, { q.2 with closing := true }) else none }
/-- The slice's key is destroyed, its namespaces erased and unbound (R198, R331 step 4). -/
def deleteSlice (sl : Nat) (cmd : Option Nat) (s : State) : State :=
  let ids := (s.nss.filter fun n => n.2.used && n.2.slice == some sl).map (·.1)
  let s := ids.foldl (fun s id =>
    updNs id (fun n => { n with slice := none, att := ⟨false, false⟩ }) (nsNotice id (eraseNs id cmd s))) s
  let s := dropRules (fun r => (tget {} s.rules r).slice == sl) (dropQueues sl s)
  closeQps (updSlice sl (fun x => { st := 4, gen := x.gen, port := x.port, pasid := x.pasid, changeFc := x.changeFc }) s)
def deleteGoes (j : Job) (s : State) : State :=
  let sl := sliceOf j.e
  if !j.begun then
    if !quiet s sl ∨ !recsDone s j.key then s
    else deleteSlice sl (some j.key) { s with jobs := s.jobs.map fun x => if x.key = j.key then { x with begun := true } else x }
  else if !recsDone s j.key then s
  else done j.e (dropJob j.key (closeQps (updSlice sl (fun x => { gen := x.gen, changeFc := s.time.fc })
    (dropRules (fun r => (tget {} s.rules r).slice == sl) (dropQueues sl s)))))

/-! ### Freeze (R209). -/
/-- A waiting Slice Freeze is answered before another command takes its place (R214). -/
def freezeEnds (sl : Nat) (s : State) : State :=
  match (sliceAt s sl).waiter with
  | some (p, cid, opc) => ok { port := p, cid := cid, opc := BitVec.ofNat 8 opc } (updSlice sl (fun y => { y with waiter := none }) s)
  | none => s
def sliceFreeze (e : Sqe) (s : State) : State :=
  let sl := sliceOf e
  sliceLive 0x103FF 0 0 e (fun s =>
    if (sliceAt s sl).st = 2 then done e s
    else wake (updSlice sl (fun x => { x with waiter := keepCmd e }) (setSliceSt sl 2 s))) s
def execSliceFreeze (e : Sqe) (s : State) : Out :=
  let x := with10 16 16 0 (asAdmin 0xCC e)
  .next (admin x (sliceFreeze x) s)
def sliceThaw (e : Sqe) (s : State) : State :=
  let sl := sliceOf e
  sliceLive 0x103FF 0 0 e (fun s =>
    if (sliceAt s sl).st ≠ 2 then done e s
    else done e (updSlice sl (fun x => { x with portLost := false, lostQs := [] }) (setSliceSt sl 1 (freezeEnds sl s)))) s
def execSliceThaw (e : Sqe) (s : State) : Out :=
  let x := with10 16 16 1 (asAdmin 0xCC e)
  .next (admin x (sliceThaw x) s)

/-! ### Save and Restore (R211, R212). -/
def qBytes (q : QImage) : List Byte :=
  fitTo 64 (le 2 q.sqid ++ le 2 q.cqid ++ le 2 q.sqSize ++ le 2 q.cqSize ++ le 8 q.sqBase ++ le 8 q.cqBase ++ le 2 q.head ++ le 2 q.tail ++ le 2 q.cqTail
            ++ le 2 q.cqHead ++ le 2 q.vector ++ [BitVec.ofNat 8 (b2n q.phase + 2 * b2n q.ien + 4 * b2n q.contig + 8 * b2n q.frozen)])
def qFrom (b : List Byte) : QImage :=
  let f := fld b 34 1
  { sqid := fld b 0 2, cqid := fld b 2 2, sqSize := fld b 4 2, cqSize := fld b 6 2, sqBase := fld b 8 8, cqBase := fld b 16 8, head := fld b 24 2,
    tail := fld b 26 2, cqTail := fld b 28 2, cqHead := fld b 30 2, vector := fld b 32 2, phase := bit f 0, ien := bit f 1, contig := bit f 2, frozen := bit f 3 }
/-- Bytes that TAG covers, and TAG under the image key, which follows from the module root key (R211, R334). -/
def imageTag (s : State) (b : List Byte) : List Byte := fitTo 32 (Config.hmac s.sec.mrkGen (b.take 32 ++ b.drop 64))
/-- The state image of a slice. KEY_SLOT is the slice's number. -/
def sliceImage (s : State) (sl : Nat) : List Byte :=
  let x := sliceAt s sl
  let qs := (if x.portLost then x.lostQs else qImages s x.port sl).take 64
  let ids := (s.nss.filter fun n => n.2.used && n.2.slice == some sl).map (·.1)
  let len := 4288 + 4 * ids.length
  let head := le 2 1 ++ le 2 sl ++ le 4 (len / 4) ++ le 4 x.saveSeq ++ le 2 x.gen.toNat
    ++ [BitVec.ofNat 8 qs.length, BitVec.ofNat 8 (portNo x.port + 2 * b2n x.policy + 4 * b2n x.portLost)] ++ le 4 x.pasid ++ le 2 ids.length ++ zeros 10
  let progs := x.progs.foldl (fun a p => a + 2 ^ p.1) 0
  let descs := x.descs.foldl (fun a d => if d.2.enable then a + 2 ^ d.1 else a) 0
  let body := shareBytes (shareOf x) ++ [BitVec.ofNat 8 x.qpairs, 0] ++ le 2 sl ++ le 2 (rulesHeld s sl) ++ le 2 progs ++ le 32 descs ++ zeros 24
    ++ fitTo 4096 (qs.flatMap qBytes) ++ ids.flatMap (le 4)
  head ++ imageTag s (head ++ zeros 32 ++ body) ++ body
def sliceSave (e : Sqe) (s : State) : State :=
  let sl := sliceOf e
  let room := d11 e 15 0
  sliceLive 0x3FF 0xFFFF 0 e (fun s =>
    if (sliceAt s sl).st ≠ 2 ∨ !quiet s sl then bad e sequenceError s
    else
      let s1 := updSlice sl (fun x => { x with saveSeq := (x.saveSeq + 1) % 2 ^ 32, saveFresh := true }) s
      let b := sliceImage s1 sl
      if room = 0 ∨ 16384 < room then bad e invalidField s
      else if room * 4 < b.length then ends e invalidField (b.length / 4) 0 [] s
      else if e.dlen < b.length then bad e sglLength s
      else ends e (0, 0) (b.length / 4) 0 b s1) s
def execSliceStateSave (e : Sqe) (s : State) : Out := .next (admin (asAdmin 0xC6 e) (sliceSave (asAdmin 0xC6 e)) s)
/-- A queue of the image is re-created on a port; with PORT_LOST its head equals its tail. -/
def putQueue (p : Port) (sl : Nat) (lost : Bool) (q : QImage) (s : State) : State :=
  let s := updSq (qKey p q.sqid) (fun _ => {
    used := true, slice := sl, cqid := q.cqid, size := q.sqSize, base := q.sqBase, head := if lost then q.tail else q.head, tail := q.tail, frozen := q.frozen,
    contig := q.contig }) s
  updCq (qKey p q.cqid) (fun _ => {
    used := true, slice := sl, size := q.cqSize, base := q.cqBase, tail := q.cqTail, head := q.cqHead, vector := q.vector, phase := q.phase, ien := q.ien }) s
def sliceRestore (e : Sqe) (s : State) : State :=
  let sl := sliceOf e
  let x := sliceAt s sl
  let n := d11 e 15 0 * 4
  let b := fitTo n e.data
  let pasid := d12 e 19 0
  let lost := bit (fld b 15 1) 2
  let qs := (List.range (min 64 (fld b 14 1))).map fun i => qFrom (slice' b (192 + 64 * i) 64)
  let free := fun (q : QImage) =>
    let sq := sqAt s (qKey e.port q.sqid)
    let cq := cqAt s (qKey e.port q.cqid)
    (!sq.used || sq.slice == sl) && (!cq.used || cq.slice == sl)
  sliceLive 0x3FF 0xFFFF 0xFFFFF e (fun s =>
    if x.st ≠ 2 ∨ !quiet s sl then bad e sequenceError s
    else if e.dlen < n then bad e sglLength s
    else if n = 0 ∨ 65536 < n ∨ fld b 4 4 * 4 ≠ n ∨ slice' b 32 32 ≠ imageTag s b ∨ fld b 2 2 ≠ sl then bad e invalidField s
    else if fld b 8 4 ≠ x.saveSeq ∨ !x.saveFresh then bad e sequenceError s
    else if pasidTaken s e.port sl pasid ∨ !sumsNow s e.port sl x.share (shareOf x) then bad e invalidField s
    else if !qs.all free then bad e qidInvalid s
    else
      let s := qs.foldl (fun s q => putQueue e.port sl lost q s) (dropQueues sl s)
      bindEnds e sl pasid 0 (updSlice sl (fun x => { x with
        port := e.port, pasid := pasid, portLost := false, lostQs := [], saveFresh := false, changeFc := s.time.fc }) s)) s
def execSliceStateRestore (e : Sqe) (s : State) : Out := .next (admin (asAdmin 0xC5 e) (sliceRestore (asAdmin 0xC5 e)) s)

/-! ### Queue Resume and Share Set (R169, R180, R208). -/
/-- Queue Resume. DESIGN CHOICE: an SQID in range that names no queue gets Invalid Queue Identifier (assumption 189). -/
def queueResume (e : Sqe) (s : State) : State :=
  let k := qKey e.port (d10 e 15 0)
  let q := sqAt s k
  if !rsvdOk 0xFFFF 0 0 0 0 0 e ∨ d10 e 15 0 = 0 then bad e invalidField s
  else if !q.used then bad e qidInvalid s
  else if 3 ≤ (sliceAt s q.slice).st then bad e sequenceError s
  else if q.frozen then ends e (0, 0) 1 0 [] (updSq k (fun x => { x with frozen := false, resumed := now s }) s)
  else done e s
def execQueueResume (e : Sqe) (s : State) : Out := .next (admin (asAdmin 0xD0 e) (queueResume (asAdmin 0xD0 e)) s)
def shareSet (e : Sqe) (s : State) : State :=
  let sl := sliceOf e
  let x := sliceAt s sl
  let ports := if sl = 0 then [Port.h0, .h1] else [x.port]
  if !rsvdOk 0x3FF 0 0 0 0 0 e ∨ x.st = 0 then bad e invalidField s
  else if 3 ≤ x.st then bad e sequenceError s
  else if e.dlen < 64 then bad e sglLength s
  else match shareFrom (fitTo 64 e.data) with
  | none => bad e invalidField s
  | some n =>
    if !(ports.all fun p => sumsHold s p sl n) ∨ n.quota < rulesHeld s sl then bad e invalidField s
    else done e (updSlice sl (fun x => { x with shareNext := some n, saveFresh := false }) s)
def execShareSet (e : Sqe) (s : State) : Out := .next (admin (asAdmin 0xD1 e) (shareSet (asAdmin 0xD1 e)) s)

/-! ### Format NVM (R338). -/
/-- FORMAT_NVM: it begins and ends with its job. -/
def execFormatNvm (e : Sqe) (s : State) : Out := .next (admin (asAdmin 0x80 e) (formatNvm (asAdmin 0x80 e)) s)
def formatGoes (j : Job) (s : State) : State :=
  if !j.begun then formatBegin j s else if recsDone s j.key then done j.e (dropJob j.key s) else s

end Sys2Proof.Machine
end

