-- ==== Sys2Proof/Machine/HostTables.lean ====
section
/-! DEFINITION. What host software loads: classifier rules (R222, R223, R231, R232), winnow programs (R233–R235), stream
descriptors (R243–R245). -/
namespace Sys2Proof.Machine
open Sys2Proof

/-! ### Classifier rules. -/
/-- The classifier entry of one prefix of a rule (R227, R231). -/
def ruleEntry (n : Nat) (r : Rule) (sub : Nat) (pre : Nat × Nat) : Entry :=
  let m (b : Bool) (w at' : Nat) := if b then (2 ^ w - 1) * 2 ^ at' else 0
  let port := if r.portSel = 2 then 1 else 0
  { valid := true, prio := BitVec.ofNat 12 r.prio, rule := n, sub := sub,
    key := BitVec.ofNat 320 (r.slice % 1024 + r.nsid * 2 ^ 10 + r.opcode * 2 ^ 23 + r.hint * 2 ^ 31 + port * 2 ^ 47 + pre.1 * 2 ^ 48),
    mask := BitVec.ofNat 320 (m true 10 0 + m (r.nsid != 0) 13 10 + r.opcodeMask * 2 ^ 23 + r.hintMask * 2 ^ 31 + m (r.portSel != 0) 1 47
      + (16 - 2 ^ pre.2) * 2 ^ 48),
    result := BitVec.ofNat 24 (n + r.placement * 65536 + r.service * 1048576) }
/-- Entries that await removal follow those of the same rule that replace them. -/
def oldMark : Nat := 64
/-- A rule is installed, replaced or removed in one spikelet: the new entries first, then the old ones go (R220, R232). -/
def applyRule (n : Nat) (r : Option Rule) (h : Nat) (sp : Spikelet) : Spikelet :=
  let mark := fun (x : Nat × Entry) => if isRulePos x.1 ∧ x.2.rule = n then (x.1, { x.2 with sub := oldMark + x.2.sub }) else x
  let sp := { sp with ents := sp.ents.map mark, shadow := sp.shadow.map mark }
  let sp := match r with
    | some r => (sizePrefixes 16 r.sizeMin r.sizeMax).zipIdx.foldl (fun (sp : Spikelet) (x : (Nat × Nat) × Nat) => insertEntry (ruleEntry n r x.2 x.1) sp) sp
    | none => sp
  let gone := fun (x : Nat × Entry) => isRulePos x.1 && x.2.rule == n && decide (oldMark ≤ x.2.sub)
  restoreHoles h { sp with ents := sp.ents.filter fun x => !gone x, shadow := sp.shadow.filter fun x => !gone x }
/-- A rule structure (R231). -/
def ruleFrom (b : List Byte) : Rule :=
  let w := fld b 2 2
  { slice := bits (fld b 0 2) 9 0, prio := bits w 11 0, valid := bit (fld b 4 1) 0, placement := bits (fld b 5 1) 3 0, service := bits (fld b 5 1) 5 4,
    sizeMin := bits (fld b 6 1) 3 0, sizeMax := bits (fld b 6 1) 7 4, portSel := bits (fld b 7 1) 1 0, nsid := fld b 8 4, opcode := fld b 12 1,
    opcodeMask := fld b 13 1, hint := fld b 14 2, hintMask := fld b 16 2 }
def ruleBytes (r : Rule) : List Byte :=
  fitTo 64 (le 2 r.slice ++ le 2 r.prio ++ [BitVec.ofNat 8 (b2n r.valid), BitVec.ofNat 8 (r.placement + 16 * r.service), BitVec.ofNat 8 (r.sizeMin + 16 * r.sizeMax),
            BitVec.ofNat 8 r.portSel] ++ le 4 r.nsid ++ [BitVec.ofNat 8 r.opcode, BitVec.ofNat 8 r.opcodeMask] ++ le 2 r.hint ++ le 2 r.hintMask
            ++ [BitVec.ofNat 8 (ruleEntries r), 0, 0, 0, 0, 0] ++ le 8 r.hits)
/-- No Rsvd bit of a rule structure is set; HOLE and read-only fields are no Rsvd bits. -/
def ruleRsvd (b : List Byte) : Bool :=
  decide (fld b 0 2 < 1024 ∧ fld b 2 2 < 4096 ∧ fld b 4 1 < 2 ∧ fld b 5 1 < 64 ∧ fld b 7 1 < 4 ∧ fld b 19 1 < 8) && fld b 20 4 == 0 && allZero (slice' b 32 32)
/-- Fields in range (R232); ENTRIES and HITS are read-only, and what a write puts there is ignored (R11). -/
def ruleRange (b : List Byte) : Bool :=
  let r := ruleFrom b
  decide (r.service ≤ 2 ∧ r.portSel ≤ 2)
    && (!r.valid || (decide (1 ≤ r.prio ∧ r.sizeMin ≤ r.sizeMax ∧ r.nsid ≤ 4096) && fld b 19 1 == 0))
/-- Entries that host rules may use at H = 2^h (R221, R222). -/
def ruleCapacity (s : State) (h : Nat) : Nat :=
  let lost := fun (c : CardId) => if (cardAt s c).serving then ((spAt s c).retired.filter isRulePos).length else 0
  65535 - 65536 / 2 ^ h - max (lost .ca) (lost .cb)
def entriesHeld (t : Tbl Rule) : Nat := t.foldl (fun a r => a + ruleEntries r.2) 0
/-- The rule table after a write, in ascending number. -/
def writeRules (first : Nat) (l : List (List Byte)) (t : Tbl Rule) : Tbl Rule :=
  l.zipIdx.foldl (fun t x => let r := ruleFrom x.1; if r.valid then tins t (first + x.2) { r with hits := 0 } else tdel t (first + x.2)) t
/-- A configuration change fails and names the first failing structure (R232). -/
def badAt (e : Sqe) (loc : Nat) (s : State) : State :=
  let k := portNo e.port * 65536 + e.cid
  change e.opc.toNat (whatOf e) 1 (portNo e.port) 0 0 2 (tget [] s.sec.keyIds k) (some { port := e.port, cid := e.cid, sc := 2, loc := some loc, nsid := e.nsid })
    (updSec (fun x => { x with keyIds := tdel x.keyIds k }) s)
/-- SPIKELET_RULE_WRITE (R231, R232). -/
def ruleWrite (e : Sqe) (s : State) : State :=
  let n := d10 e 15 0
  let first := d11 e 15 0
  let l := (List.range n).map fun i => slice' e.data (64 * i) 64
  let fails := fun (ok : List Byte → Nat → Bool) => l.zipIdx.find? fun x => !ok x.1 x.2
  if !rsvdOk 0xFFFF 0xFFFF 0 0 0 0 e ∨ n = 0 ∨ 256 < n then bad e invalidField s
  else if e.dlen < 64 * n then bad e sglLength s
  else if 65536 < first + n ∨ (n ≠ 1 ∧ first + n = 65536) then badAt e 0 s
  else if first = 65535 then
    let b := l.getD 0 []
    let h := fld b 19 1
    if !allZero (b.set 19 0) ∨ h < 3 ∨ 6 < h ∨ ruleCapacity s h < entriesHeld s.rules then badAt e 0 s
    else
      let re := fun (c : CardId) (s : State) => if (cardAt s c).serving then updSp c (restoreHoles (2 ^ h)) s else s
      done e (re .cb (re .ca { s with feat := { s.feat with holeLog := h }, featNext := s.featNext.map fun f => { f with holeLog := h } }))
  else
    let t := writeRules first l s.rules
    let own := fun (b : List Byte) (i : Nat) => match tfind s.rules (first + i) with | some r => r.slice == (ruleFrom b).slice | none => true
    let many := l.zipIdx.find? fun x =>
      let sl := (ruleFrom x.1).slice
      decide ((sliceAt s sl).share.quota < entriesHeld (t.filter fun r => r.2.slice == sl))
    match fails fun b _ => (sliceAt s (bits (fld b 0 2) 9 0)).st != 0 with
    | some x => badAt e x.2 s
    | none => match fails fun b _ => ruleRange b && ruleRsvd b with
      | some x => badAt e x.2 s
      | none => match fails own with
        | some x => badAt e x.2 s
        | none => match many with
          | some x => badAt e x.2 s
          | none =>
            if ruleCapacity s s.feat.holeLog < entriesHeld t then badAt e 0 s
            else
              let go := fun (c : CardId) (s : State) =>
                if (cardAt s c).serving then
                  updSp c (fun sp => l.zipIdx.foldl (fun sp x =>
                    let r := ruleFrom x.1
                    applyRule (first + x.2) (if r.valid then some r else none) (2 ^ s.feat.holeLog) sp) sp) s
                else s
              let s := l.foldl (fun s b => updSlice (ruleFrom b).slice (fun x => { x with saveFresh := false }) s) { s with rules := t }
              done e (go .cb (go .ca s))
def execSpikeletRuleWrite (e : Sqe) (s : State) : Out := .next (admin (asAdmin 0xD5 e) (ruleWrite (asAdmin 0xD5 e)) s)
/-- SPIKELET_RULE_READ (R231). -/
def ruleRead (e : Sqe) (s : State) : State :=
  let n := d10 e 15 0
  let first := d11 e 15 0
  let one := fun (i : Nat) =>
    if i = 65535 then fitTo 64 (zeros 19 ++ [BitVec.ofNat 8 s.feat.holeLog] ++ zeros 4 ++ le 8 s.feat.defaultHits)
    else match tfind s.rules i with | some r => ruleBytes r | none => zeros 64
  if !rsvdOk 0xFFFF 0xFFFF 0 0 0 0 e ∨ n = 0 ∨ 256 < n ∨ 65536 < first + n then bad e invalidField s
  else if e.dlen < 64 * n then bad e sglLength s
  else okData e ((List.range n).flatMap fun i => one (first + i)) s
def execSpikeletRuleRead (e : Sqe) (s : State) : Out := .next (admin (asAdmin 0xD6 e) (ruleRead (asAdmin 0xD6 e)) s)

/-! ### Winnow programs. -/
/-- Bytes that the program store holds, but for one slot, with those of loads under way. -/
def programStore (s : State) (sl slot : Nat) : Nat :=
  s.slices.foldl (fun a x => x.2.progs.foldl (fun a p => if x.1 = sl ∧ p.1 = slot then a else a + p.2.length) a)
    (s.jobs.foldl (fun a j => if j.e.opc.toNat = 0xF1 then a + 4096 * d11 j.e 15 0 else a) 0)
/-- The 64 KiB parts that a program is written in (assumption 183). -/
def programParts (e : Sqe) : Nat := cdiv (d11 e 15 0) 16
/-- A program load goes on: three copies are written into SLC metadata die-blocks, then the program replaces its slot's, and the
command completes (R235). A slice that has gone meanwhile takes none. -/
def programGoes (j : Job) (s : State) : State :=
  let sl := d12 j.e 9 0
  let parts := s.metas.work.filter fun w => isProgram j.key w.2.of
  let fronds := metaFronds s (s.time.fc % 16)
  if !j.begun then
    if fronds = [] then s
    else (List.range (programParts j.e)).foldl (fun s i => addWork (.program j.key i) 16 fronds s)
      { s with jobs := s.jobs.map fun x => if x.key = j.key then { x with begun := true } else x }
  else if !parts.all fun w => written (some w) then s
  else
    let s := dropJob j.key (parts.foldl (fun s w => dropWork w.1 s) s)
    if (sliceAt s sl).st = 0 then bad j.e invalidField s
    else done j.e (updSlice sl (fun x => { x with progs := tins x.progs (d10 j.e 7 0) (fitTo (4096 * d11 j.e 15 0) j.e.data), saveFresh := false }) s)
/-- WINNOW_PROGRAM_LOAD (R233–R235): a program that is accepted is written by its job. -/
def programLoad (e : Sqe) (s : State) : State :=
  let slot := d10 e 7 0
  let pages := d11 e 15 0
  let sl := d12 e 9 0
  if !rsvdOk 0xFF 0xFFFF 0x3FF 0 0 0 e ∨ 15 < slot ∨ pages = 0 ∨ 1024 < pages ∨ (sliceAt s sl).st = 0 then bad e invalidField s
  else if e.dlen < 4096 * pages then bad e sglLength s
  else
    let p := fitTo (4096 * pages) e.data
    if !wpRsvd p then bad e invalidField s
    else match wpDefect p pages with
    | some (off, reason) => ends e (7, 0x85) off reason [] s
    | none =>
      if 2147483648 < programStore s sl slot + p.length then ends e (7, 0x85) 0 10 [] s
      else (addJob e false 0 s).2
def execWinnowProgramLoad (e : Sqe) (s : State) : Out := .next (admin (asAdmin 0xF1 e) (programLoad (asAdmin 0xF1 e)) s)

/-! ### Stream descriptors. -/
/-- A descriptor (R244); an unset one is clear. -/
def descFrom (b : List Byte) : Desc :=
  if bit (fld b 46 1) 0 then
    { enable := true, gid := BitVec.ofNat 128 (fld b 0 16), va := fld b 16 8, len := fld b 24 8, rkey := fld b 32 4, qpn := fld b 36 3, psn := fld b 40 3,
      qp := fld b 44 2 % 4096, port := if bit (fld b 46 1) 1 then .cb else .ca, appTag := fld b 48 2 }
  else {}
def descRsvd (b : List Byte) : Bool :=
  fld b 39 1 == 0 && fld b 43 1 == 0 && decide (fld b 44 2 < 4096 ∧ fld b 46 1 < 4) && fld b 47 1 == 0 && allZero (slice' b 50 14)
def qpOf (d : Desc) : Nat := cardNo d.port * 4096 + d.qp
/-- A set descriptor meets R245 with the queue pairs as they stand. -/
def descOk (q : Tbl Qp) (sl : Nat) (d : Desc) : Bool :=
  let x := tget {} q (qpOf d)
  decide (4096 ≤ d.len ∧ d.len ≤ 2 ^ 48) && (!x.used || (x.slice == sl && x.gid == d.gid && x.qpn == d.qpn))
/-- Setting a descriptor brings its queue pair into service, or back from error, at its START_PSN (R243, R252). -/
def serveQp (sl : Nat) (d : Desc) (q : Tbl Qp) : Tbl Qp :=
  let x := tget {} q (qpOf d)
  if x.used ∧ x.error = 0 then tins q (qpOf d) { x with closing := false }
  else tins q (qpOf d) { used := true, slice := sl, gid := d.gid, qpn := d.qpn, psn := d.psn, una := d.psn, expect := d.psn }
/-- Every descriptor is checked, each with the queue pairs as the ones before it leave them. -/
def descsOk (sl : Nat) : List Desc → Tbl Qp → Bool
  | [], _ => true
  | d :: r, q => if d.enable then descOk q sl d && descsOk sl r (serveQp sl d q) else descsOk sl r q
/-- BULK_ENDPOINT_SET (R183, R244, R245). -/
def endpointSet (e : Sqe) (s : State) : State :=
  let first := d10 e 15 0
  let n := d11 e 15 0
  let sl := d12 e 9 0
  let l := (List.range n).map fun i => slice' e.data (64 * i) 64
  let ds := l.map descFrom
  if !rsvdOk 0xFFFF 0xFFFF 0x3FF 0 0 0 e ∨ n = 0 ∨ 256 < first + n ∨ (sliceAt s sl).st = 0 then bad e invalidField s
  else if e.dlen < 64 * n then bad e sglLength s
  else if !(l.all descRsvd && descsOk sl ds s.qps) then bad e invalidField s
  else
    let s := updSlice sl (fun x => { x with
      descs := ds.zipIdx.foldl (fun t d => tput {} t (first + d.2) d.1) x.descs, saveFresh := false }) s
    done e (closeQps { s with qps := ds.foldl (fun q d => if d.enable then serveQp sl d q else q) s.qps })
def execBulkEndpointSet (e : Sqe) (s : State) : Out := .next (admin (asAdmin 0xE9 e) (endpointSet (asAdmin 0xE9 e)) s)

end Sys2Proof.Machine
end

