-- ==== Sys2Proof/Machine/Security.lean ====
section
/-! DEFINITION. Nonces, tokens and attestation (R339–R347), guard levels (R328–R333), Sanitize (R338), Event Clear (R385), and the
jobs of admin commands. -/
namespace Sys2Proof.Machine
open Sys2Proof

/-! ### Tokens (R339–R343). -/
/-- A token's fields (R340). -/
def tokType (t : List Byte) : Nat := fld t 2 2
def bodyLength (t : List Byte) : Nat := fld t 40 4
def tokSigner (t : List Byte) : List Byte := slice' t 64 60
def tokBody (t : List Byte) : List Byte := slice' t 128 (bodyLength t)
/-- BODY_LENGTH of a TYPE (R341). -/
def bodySize : Nat → Nat | 1 => 8 | 2 => 72 | 3 => 8 | 4 => 64 | 5 => 40 | _ => 32
/-- Rsvd bytes and reserved values of a body (R341). -/
def bodyOk (ty : Nat) (b : List Byte) : Bool :=
  let f := fun (o : Nat) => fld b o 1
  match ty with
  | 1 => decide (f 0 < 4 ∧ f 1 < 4) && allZero (b.drop 2)
  | 2 => decide (f 1 < 3) && fld b 2 2 == 0 && fld b 36 4 == 0 && (fld b 32 4 != 0 || allZero (slice' b 40 32))
  | 3 => decide (f 0 < 2 ∧ f 1 < 16) && allZero (b.drop 2)
  | 4 => decide (f 0 < 4 ∧ f 1 < 2) && fld b 2 2 == 0 && (f 1 == 0 || allZero (slice' b 4 60))
  | 5 => decide (f 0 < 2) && fld b 1 3 == 0 && fld b 36 4 == 0
  | _ => true
/-- Reason 5 of R342. -/
def tokenFormOk (t : List Byte) : Bool :=
  let ty := tokType t
  fld t 0 2 == 1 && decide (1 ≤ ty ∧ ty ≤ 6) && fld t 4 4 == t.length && bodyLength t == bodySize ty && decide (128 + bodySize ty ≤ t.length)
    && fld t 28 4 == 0 && allZero (slice' t 44 20) && fld t 124 4 == 0 && bodyOk ty (tokBody t)
    && (if ty = 6 then fld t 32 8 == 0 && allZero (tokSigner t) && t.length == 160 else Config.signerParamsOk (tokSigner t))
/-- Reason 3 of R342: who may sign. -/
def signerOk (s : State) (t : List Byte) : Bool :=
  let h := Config.sha256 (tokSigner t)
  let noKey := s.sec.keys.isEmpty
  s.sec.keys.any (fun k => Config.sha256 k.2.pub == h) || (s.sec.level == 0 && noKey && h == Config.factoryAuth)
    || (tokType t == 4 && decide (s.sec.level ≤ 1) && noKey && h == Config.sha256 (slice' (tokBody t) 4 60))
/-- Reason 4 of R342: the signature over bytes 0 to 127 + BODY_LENGTH. -/
def tokenSigned (t : List Byte) : Bool :=
  Config.hssVerify (tokSigner t) (t.take (128 + bodyLength t)) (t.drop (128 + bodyLength t))
/-- Keys after a TYPE 4 token (R345). -/
def keysAfter (b : List Byte) (k : Tbl AuthKey) : Tbl AuthKey :=
  if fld b 1 1 = 1 then tdel k (fld b 0 1) else tins k (fld b 0 1) { pub := slice' b 4 60 }
/-- The checks of R342 after the nonce, in their order: the reason of the first that fails. -/
def tokenReason (s : State) (t : List Byte) : Option Nat :=
  let ty := tokType t
  let b := tokBody t
  if ty ≠ 6 ∧ !signerOk s t then some 3
  else if ty ≠ 6 ∧ !tokenSigned t then some 4
  else if ty = 1 ∧ (fld b 0 1 ≠ s.sec.level ∨ fld b 1 1 = s.sec.level) then some 6
  else if ty = 4 ∧ s.sec.level = 2 ∧ fld b 1 1 = 1 ∧ keysAfter b s.sec.keys = [] then some 9
  else if 64 ≤ s.sec.tokens.length then some 8
  else if !changeRoom s then some 11
  else none
/-- The next handle from n on that no held token has (R343). -/
def freeHandle (held : List Nat) : Nat → Nat → Nat
  | 0, n => n
  | fuel + 1, n => if held.contains n then freeHandle held fuel (if n = 65535 then 1 else n + 1) else n
/-- A token is accepted (R343): a TYPE 4 or 5 token takes effect, the others are held under a handle. -/
def acceptToken (e : Sqe) (t : List Byte) (s : State) : State :=
  let ty := tokType t
  let b := tokBody t
  let keyId := if ty = 6 then [] else keyIdOf (tokSigner t)
  let h := freeHandle (s.sec.tokens.map (·.handle)) 64 s.sec.nextHandle
  let s := updSec (fun x => { x with accepted := x.accepted + 1, nextHandle := if h = 65535 then 1 else h + 1 }) s
  if ty = 4 ∨ ty = 5 then
    let s := updSec (fun x => { x with
      keys := if ty = 4 then keysAfter b x.keys else x.keys
      cosign := if ty = 5 then (if fld b 0 1 = 1 then none else some (slice' b 4 32)) else x.cosign
      keyIds := tput [] x.keyIds (portNo e.port * 65536 + e.cid) keyId }) s
    aenPage 0xCC (finishChange e 0 (0, 0) h 0 [] s)
  else
    okDw e h (updSec (fun x => { x with
      tokens := x.tokens ++ [{ handle := h, type := ty, body := b, keyId := keyId, born := now s }]
      attestQ := if ty = 6 then x.attestQ ++ [h] else x.attestQ }) s)
/-- AUTHORIZATION_SUBMIT_TOKEN (R181, R342). The nonce is consumed by the check of reason 1. -/
def submitToken (e : Sqe) (s : State) : State :=
  let n := d11 e 15 0
  if 2 ≤ d10 e 1 0 ∨ !rsvdOk 3 0xFFFF 0 0 0 0 e ∨ n = 0 ∨ 8192 < n then bad e invalidField s
  else if e.dlen < n then bad e sglLength s
  else
    let t := fitTo n e.data
    let nonce := BitVec.ofNat 64 (fld t 32 8)
    if !tokenFormOk t then refused e 5 s
    else if slice' t 8 20 ≠ fitTo 20 Config.moduleSerial then refused e 2 s
    else if tokType t ≠ 6 ∧ !(s.sec.nonces.any fun x => x.value == nonce) then refused e 1 s
    else
      let s := if tokType t = 6 then s else updSec (fun x => { x with nonces := x.nonces.filter fun y => y.value != nonce }) s
      match tokenReason s t with
      | some 4 => refused e 4 (aenPage 0xCC (event 0x601 1 (srcQ s.time.master) 0 4 (tokType t) 0 s))
      | some r => refused e r s
      | none => acceptToken e t s
/-- The row of OP 0; its reserved values are refused by the handler. -/
def execAuthorizationSubmitToken (e : Sqe) (s : State) : Out :=
  let x := if d10 e 1 0 = 1 then with10 1 0 0 (asAdmin 0xD9 e) else asAdmin 0xD9 e
  .next (admin x (submitToken x) s)
/-- ISSUE_NONCE (R184, R339): at most 16 nonces, the oldest gives way. -/
def issueNonce (e : Sqe) (s : State) : State :=
  if !rsvdOk 3 0xFFFF 0 0 0 0 e then bad e invalidField s
  else
    let (v, s) := draw s
    let s := updSec (fun x => { x with nonces := (x.nonces ++ [({ value := v, born := now s } : Nonce)]).drop (x.nonces.length - 15) }) s
    finish e 0 0 (v.toNat % 2 ^ 32) (v.toNat / 2 ^ 32) [] s
def execIssueNonce (e : Sqe) (s : State) : Out :=
  let x := with10 1 0 1 (asAdmin 0xD9 e)
  .next (admin x (issueNonce x) s)
/-- NONCE_EXPIRY (R339): a nonce is valid for 2,400,000 frames. -/
def execNonceExpiry (nonce : BitVec 64) (s : State) : Out :=
  .next (updSec (fun x => { x with nonces := x.nonces.filter fun y => !(y.value == nonce && elapsed s y.born 2400000) }) s)
/-- A handle has gone: consumed or released, with its report. -/
def dropHandle (h : Nat) (s : State) : State :=
  updSec (fun x => { x with
    tokens := x.tokens.filter fun t => t.handle != h
    attestQ := x.attestQ.filter fun y => y != h
    reports := x.reports.filter fun r => r.1 != h }) s
/-- HANDLE_EXPIRY (R343): a handle is held for 240,000 frames. -/
def execHandleExpiry (handle : Nat) (s : State) : Out :=
  .next (if s.sec.tokens.any fun t => t.handle == handle && elapsed s t.born 240000 then dropHandle handle s else s)

/-! ### Attestation (R346, R347). -/
/-- Bytes 0–1,023 of a report. -/
def reportBody (s : State) (challenge : List Byte) : List Byte :=
  let x := s.sec
  let card := fun (c : CardId) =>
    let y := cardAt s c
    fitTo 64 ([byte (b2n (!y.serving)), byte y.active, 0, 0] ++ fitTo 8 (activeSlot y).revision ++ fitTo 32 (activeSlot y).sha)
  let key := fun (i : Nat) => match tfind x.keys i with | some k => keyIdOf k.pub | none => zeros 16
  layout 1024
    [(0, le 2 1), (4, le 4 3604 ++ fitTo 20 Config.moduleSerial), (32, fitTo 32 challenge ++ le 8 x.attestNext ++ le 8 s.time.fc ++ le 4 s.time.ep),
     (88, le 8 (wallNow s) ++ secFlags s), (100, le 4 x.mrkGen ++ fitTo 32 Config.vendorRoot ++ fitTo 32 (x.cosign.getD []) ++ (List.range 4).flatMap key),
     (256, card .ca ++ card .cb ++ le 8 x.changes ++ le 8 x.lastFc ++ le 4 x.lastEp)]
/-- ATTESTATION_SIGNATURE (R346): the tick master signs the oldest waiting report, at most one per 8 frames and none
while it hands over (R301); no index is used twice. -/
def execAttestationSignature (s : State) : Out :=
  let x := s.sec
  let due := match x.signedAt with | some f => elapsed s f 8 | none => true
  match x.attestQ with
  | [] => .next s
  | h :: q =>
    if !(cardAt s s.time.master).serving ∨ !due ∨ s.pair.handTo.isSome then .next s
    else
      let body := match x.tokens.find? fun t => t.handle == h with | some t => t.body | none => []
      let b := reportBody s body
      let page := fitTo 8192 (b ++ fitTo 3604 (Config.attestSign x.attestNext b))
      .next (updSec (fun x => { x with
        attestQ := q, reports := x.reports ++ [(h, page)], signedAt := some (now s), attestNext := x.attestNext + 1
        reservedEnd := if x.reservedEnd ≤ x.attestNext then x.reservedEnd + 1024 else x.reservedEnd }) s)

/-! ### Guard levels (R330–R333). -/
/-- The tokens of R343 that a command names by HANDLE. -/
def heldToken (s : State) (h ty : Nat) : Option Token := s.sec.tokens.find? fun t => t.handle == h && t.type == ty
/-- A command uses a token: it is consumed, and its KEY_ID kept for the change record (R343, R348). -/
def useToken (e : Sqe) (t : Token) (s : State) : State :=
  updSec (fun x => { x with keyIds := tput [] x.keyIds (portNo e.port * 65536 + e.cid) t.keyId }) (dropHandle t.handle s)
/-- A command that uses a token is refused: reason and change record (R342, R348). -/
def refusedChange (e : Sqe) (reason : Nat) (s : State) : State :=
  finishChange e (whatOf e) (7, 0x88) reason 0 [] (updSec (fun x => { x with refused := x.refused + 1, lastReason := reason }) s)
/-- Both cards serve and none activates (R333). -/
def calm (s : State) : Bool :=
  s.pair.ca.serving && s.pair.cb.serving && s.pair.ca.activating == 0 && s.pair.cb.activating == 0
/-- A card's active image verifies against VENDOR_ROOT and the co-signature root (R332). -/
def imageVerifies (s : State) (c : CardId) : Bool :=
  let w := activeSlot (cardAt s c)
  if w.image.isEmpty then (match s.sec.cosign with | some r => Config.shippedCosigned r | none => true)
  else signatureOk w.image && (match s.sec.cosign with | some r => cosignOk r w.image | none => true)
/-- The level is in force; nonces, handles and what waits for them are discarded (R339). -/
def setLevel (lv : Nat) (s : State) : State :=
  let blow := fun (c : Card) => if lv = 2 then { c with sealed := true } else c
  aenPage 0xCC (updSec (fun x => { x with level := lv, nonces := [], tokens := [], attestQ := [], reports := [], running := none })
    (updCard .cb blow (updCard .ca blow s)))
/-- Fetch stops and every slice drains (R331 step 1, R338). -/
def beginErase (e : Sqe) (dw0 : Nat) (s : State) : State :=
  let s := updSec (fun x => { x with running := some (e.opc.toNat, e.port, e.cid) }) s
  (addJob e false dw0 s).2
/-- GUARD_LEVEL_CHANGE (R330, R332, R333). -/
def guardChange (e : Sqe) (s : State) : State :=
  let lv := d10 e 1 0
  if !rsvdOk 3 0xFFFF 0 0 0 0 e ∨ lv = 3 then bad e invalidField s
  else if !calm s then bad e sequenceError s
  else match heldToken s (d11 e 15 0) 1 with
    | none => refusedChange e 7 s
    | some t =>
      if fld t.body 1 1 ≠ lv then refusedChange e 7 s
      else
        let s := useToken e t s
        if fld t.body 0 1 ≠ s.sec.level then refusedChange e 6 s
        else if s.sec.level = 0 ∧ !(imageVerifies s .ca && imageVerifies s .cb) then refusedChange e 12 s
        else if lv = 2 ∧ s.sec.keys = [] then refusedChange e 13 s
        else if s.sec.level = 1 ∧ lv = 2 then ends e (0, 0) lv 0 [] (setLevel lv s)
        else
          let s := beginErase e lv s
          (List.range 1024).foldl (fun s sl =>
            if (sliceAt s sl).st = 0 then s else closeZones (fun ns => (nsAt s ns).slice == some sl) none (drainSlice sl (updSlice sl bumpGen s))) s
def execGuardLevelChange (e : Sqe) (s : State) : Out := .next (admin (asAdmin 0xDC e) (guardChange (asAdmin 0xDC e)) s)
/-- Nothing that was fetched for any slice remains. -/
def allDrained (s : State) : Bool := !(s.cmds.any fun c => c.2.e.sqid != 0) && !(s.zones.any fun z => z.2.fills != 0)
def beginJob (j : Job) (s : State) : State := { s with jobs := s.jobs.map fun x => if x.key = j.key then { x with begun := true } else x }
/-- A new module root key, wrapped by both cards (R331 step 3, R336, R338). -/
def newRoot (s : State) : State :=
  let g := (s.sec.mrkGen + 1) % 2 ^ 32
  let hold := fun (c : Card) => if c.serving then { c with mrk := some g } else c
  updCard .cb hold (updCard .ca hold (updSec (fun x => { x with mrkGen := g }) s))
/-- A new media key for a slice. -/
def newSliceKey (sl : Nat) (s : State) : State := let (k, s) := drawKey s; updSlice sl (fun x => { x with key := k }) s
/-- Steps 2 to 6 of R331. -/
def lowerNow (j : Job) (s : State) : State :=
  let s := newSliceKey 0 (newRoot (beginJob j s))
  let live := (s.slices.filter fun x => x.1 != 0 && x.2.st != 0).map (·.1)
  let s := live.foldl (fun s sl => updSlice sl (fun x => { gen := x.gen, changeFc := s.time.fc }) (dropQueues sl (deleteSlice sl (some j.key) s))) s
  let ids := (s.nss.filter fun n => n.2.used).map (·.1)
  let s := ids.foldl (fun s id => updNs id (fun n => { n with slice := none, att := ⟨false, false⟩ }) (nsNotice id (eraseNs id (some j.key) s))) s
  if j.dw0 = 0 ∧ s.sec.level ≠ 0 then updSec (fun x => { x with keys := [], cosign := none }) s else s
/-- A guard level change goes on (R331, R332): it erases once all is drained, and ends once its records are programmed. -/
def guardGoes (j : Job) (s : State) : State :=
  if !j.begun then (if allDrained s then lowerNow j s else s)
  else if !recsDone s j.key then s
  else ends j.e (0, 0) j.dw0 0 [] (setLevel j.dw0 (dropJob j.key s))

/-! ### Sanitize (R338). -/
def sanitizeBegin (e : Sqe) (s : State) : State :=
  if d10 e 2 0 ≠ 4 then bad e invalidField s
  else if !calm s then bad e sequenceError s
  else beginErase e 0 (updSec (fun x => { x with sprog := 0, sstat := 2, sanCdw10 := e.cdw10.toNat }) s)
/-- SANITIZE: the Crypto Erase action. -/
def execSanitize (e : Sqe) (s : State) : Out := .next (admin (asAdmin 0x84 e) (sanitizeBegin (asAdmin 0x84 e)) s)
/-- Root key, slice keys and salts are replaced, zones and maps emptied; slices, bindings, shares and rules are kept. -/
def cryptoErase (j : Job) (s : State) : State :=
  let s := newRoot (beginJob j s)
  let s := ((s.slices.filter fun x => x.2.st != 0).map (·.1)).foldl (fun s sl => newSliceKey sl s) s
  ((s.nss.filter fun n => n.2.used).map (·.1)).foldl (fun s id =>
    let (k, s) := drawKey s
    updNs id (fun n => { n with salt := k }) (eraseNs id (some j.key) s)) s
def sanitizeGoes (j : Job) (s : State) : State :=
  if !j.begun then (if allDrained s then cryptoErase j s else s)
  else if !recsDone s j.key then s
  else done j.e (updSec (fun x => { x with sprog := 0xFFFF, sstat := 1, running := none }) (dropJob j.key s))
/-- What a waiting job does at a frame tick. -/
def jobStep (j : Job) (s : State) : State :=
  match j.e.opc.toNat with
  | 0xC8 => resetEnds j s
  | 0xC4 => deleteGoes j s
  | 0x80 => formatGoes j s
  | 0x84 => sanitizeGoes j s
  | 0xF1 => programGoes j s
  | _ => guardGoes j s

/-! ### Event Clear (R385). -/
/-- DATA of the marker 0x0004 (R375). -/
def clearData (gen scope f : Nat) (keyId : List Byte) : Nat :=
  gen % 2 ^ 32 + scope * 2 ^ 32 + f * 2 ^ 40 + ofLe (fitTo 16 keyId) * 2 ^ 48
/-- The checks of Event Clear: a card that copies, the frond, the token. -/
def clearChecked (e : Sqe) (scope : Nat) (run : Token → State → State) (s : State) : State :=
  let f := d10 e 3 0
  if !rsvdOk 0x10F 0xFFFF 0 0 0 0 e then bad e invalidField s
  else if s.pair.ca.copying ∨ s.pair.cb.copying ∨ (scope = 0 ∧ frondAbsent s f) then bad e sequenceError s
  else match heldToken s (d11 e 15 0) 3 with
    | none => refusedChange e 7 s
    | some t =>
      if fld t.body 0 1 ≠ scope ∨ fld t.body 1 1 ≠ f then refusedChange e 7 s
      else run t (useToken e t s)
/-- SCOPE 0: one frond's store. -/
def clearFrond (e : Sqe) (t : Token) (s : State) : State :=
  let f := d10 e 3 0
  let m := mkRec s 4 5 (cardNo s.time.master) (clearData (recAt s s.time.master).clearGen 0 f t.keyId)
  done e (updFrond f (fun g => { g with store := [m], storeQ := [], storeFull := false, storeDrop := 0, clears := (g.clears + 1) % 2 ^ 32 }) s)
def execEventClearFrond (e : Sqe) (s : State) : Out :=
  let x := with10 8 8 0 (asAdmin 0xE8 e)
  .next (admin x (clearChecked x 0 (clearFrond x)) s)
/-- SCOPE 1: both module recorders. Change records not yet written follow the marker and this command's own record. -/
def clearModule (e : Sqe) (t : Token) (s : State) : State :=
  let f := d10 e 3 0
  let gen := ((recAt s s.time.master).clearGen + 1) % 2 ^ 32
  let m := mkRec s 4 5 (cardNo s.time.master) (clearData gen 1 f t.keyId)
  let waiting := (s.events.writing.filter fun x => x.1.cls == 3 || x.2.isSome).map (fun (x : EventRec × Option Cqe) => ({ x.1 with reserve := false }, x.2))
    ++ s.events.changeQ
  let empty := fun (_ : Recorder) => ({ clearGen := gen } : Recorder)
  let s := updRec .ca empty (updRec .cb empty (updEvents (fun ev => { ev with
    sumQ := m :: ev.sumQ, changeQ := [], writing := [], dropped := 0, suppressed := 0, erasedTo := some 0 }) s))
  let s := done e (updSheaf (fun x => { x with eventAcked := 0, eventSent := 0 }) s)
  updEvents (fun ev => { ev with changeQ := ev.changeQ ++ waiting }) s
def execEventClearModule (e : Sqe) (s : State) : Out :=
  let x := with10 8 8 1 (asAdmin 0xE8 e)
  .next (admin x (clearChecked x 1 (clearModule x)) s)

end Sys2Proof.Machine
end

