-- ==== Sys2Proof/Machine/Control.lean ====
section
/-! DEFINITION. Vendor commands of field service, sheaf and power entry: Frond Service (R182, R433), Sheaf Control and Sheaf Phase
Plan Set (R321, R322, R325), Power Entry Control (R404). -/
namespace Sys2Proof.Machine
open Sys2Proof

/-! ### Frond Service. -/
/-- A row of a vendor command names the value of its ACTION field, CDW10[11:8]. -/
def withAction (opc : Byte) (a : Nat) (e : Sqe) : Sqe := with10 11 8 a (asAdmin opc e)
def frondNamed (e : Sqe) : Nat := d10 e 3 0
/-- A Frond Service row: no reserved bit is set (R182). -/
def frondCmd (e : Sqe) (run : Nat → State → State) (s : State) : State :=
  if !rsvdOk 0x10F0F 0xF 0 0 0 0 e then bad e invalidField s else run (frondNamed e) s
/-- The member of a stripe on a frond. -/
def memberOn (f slot : Nat) : Nat := (f + 16 - slot % 16) % 16
/-- Stripes in use that a frond's absence takes beyond tolerance, and those whose remaining tolerance it brings to zero
(R88, R98, R184). -/
def absenceCost (s : State) (f : Nat) : Nat × Nat :=
  s.stripes.foldl (fun a x =>
    let lost := lostNow s x.1
    let m := memberOn f x.1
    let p := x.2.profile
    if !x.2.used || lost.contains m || !recoverable p lost then a
    else if !recoverable p (m :: lost) then (a.1 + 1, a.2)
    else if remaining p (m :: lost) = 0 ∧ remaining p lost ≠ 0 then (a.1, a.2 + 1) else a) (0, 0)
/-- A frond in service, or on its way out of it. -/
def frondServes (g : FrondSt) : Bool := g.state == 0 || g.state == 5 || g.state == 6
/-- Fronds that would be missing: those absent and the one named. -/
def missingMask (s : State) (f : Nat) : Nat :=
  (List.range 16).foldl (fun a n => if n = f ∨ frondAbsent s n then a + 2 ^ n else a) 0
/-- ACTION 0 (R182, R433): from its fetch the frond counts as absent for placement and new pieces. -/
def prepareFrond (e : Sqe) (f : Nat) (s : State) : State :=
  let g := frondAt s f
  let force := bit e.cdw10.toNat 16
  if g.prepared ≠ 0 then done e s
  else if !g.present ∨ !frondServes g then bad e sequenceError s
  else
    let (broken, brought) := absenceCost s f
    if !force ∧ 0 < broken then ends e (7, 0x8A) (missingMask s f) 0 [] s
    else updFrond f (fun g => { g with
      prepared := 1, prepFc := s.time.fc + 1, noSegs := true, training := none, prepCmd := some (portNo e.port, e.cid), prepCount := brought + if force then broken else 0 }) s
def execPrepareRemoval (e : Sqe) (s : State) : Out :=
  let x := withAction 0xE0 0 e
  .next (admin x (frondCmd x (prepareFrond x)) s)
/-- The prepared frond of a slot stays: a preparation that still runs ends with Command Abort Requested, a frond that was
switched off returns as a known frond (R433). -/
def stayFrond (f : Nat) (s : State) : State :=
  if (frondAt s f).prepared = 2 then frondKnown f (untrain f s)
  else
    let s := match (frondAt s f).prepCmd with
      | some (p, cid) => finishChange { port := if p = 0 then .h0 else .h1, cid := cid, opc := 0xE0 } 0 (0, 7) 0 0 [] s
      | none => s
    let s := updFrond f (fun g => { g with prepared := 0, prepCmd := none }) s
    placeWaiting (updFrond f (fun g => { g with noSegs := segsOff s g }) s)
/-- ACTION 1 (R182, R433). -/
def cancelPrepare (e : Sqe) (f : Nat) (s : State) : State :=
  let g := frondAt s f
  if g.prepared ≠ 0 ∧ g.present then done e (stayFrond f s)
  else if frondServes g then done e s
  else bad e sequenceError s
def execCancelPrepare (e : Sqe) (s : State) : Out :=
  let x := withAction 0xE0 1 e
  .next (admin x (frondCmd x (cancelPrepare x)) s)
/-- ACTION 2 (R94, R182, R435): the slot's frond of record is lost; a frond held in the slot is accepted. -/
def declareLost (e : Sqe) (f : Nat) (s : State) : State :=
  let g := frondAt s f
  if frondServes g ∨ !g.hasRecord then bad e sequenceError s
  else
    let s := frondLost f s
    done e (match g.ident with
      | some id => if g.insert = 3 ∧ !(fuseAt s f).off then frondNew f id s else s
      | none => s)
def execDeclareLost (e : Sqe) (s : State) : Out :=
  let x := withAction 0xE0 2 e
  .next (admin x (frondCmd x (declareLost x)) s)
/-- ACTION 3 (R99, R182): REBUILD_RATE, 1 to 10 GB/s. -/
def setRate (e : Sqe) (f : Nat) (s : State) : State :=
  let r := d11 e 3 0
  if f ≠ 0 ∨ r = 0 ∨ 10 < r then bad e invalidField s else done e (updRebuild (fun x => { x with rate := r }) s)
def execSetRebuildRate (e : Sqe) (s : State) : Out :=
  let x := withAction 0xE0 3 e
  .next (admin x (frondCmd x (setRate x)) s)
/-- ACTION 4 and 5 (R182, R432): the locate indicator of a slot. -/
def setLocate (e : Sqe) (v : Bool) (f : Nat) (s : State) : State := done e (updFrond f (fun g => { g with locate := v }) s)
def execLocateLedOn (e : Sqe) (s : State) : Out :=
  let x := withAction 0xE0 4 e
  .next (admin x (frondCmd x (setLocate x true)) s)
def execLocateLedOff (e : Sqe) (s : State) : Out :=
  let x := withAction 0xE0 5 e
  .next (admin x (frondCmd x (setLocate x false)) s)

/-! ### Sheaf Control (R325). -/
/-- A Sheaf Control row names its SHEAF_ACTION, CDW10[3:0]. -/
def withSheaf (a : Nat) (e : Sqe) : Sqe := with10 3 0 a (asAdmin 0xE4 e)
def sheafCmd (e : Sqe) (run : State → State) (s : State) : State :=
  if !rsvdOk 0xF 0xFFFF 0 0 0 0 e then bad e invalidField s else run s
/-- A command that only the lead runs: Dword 0 names the lead, or no member. -/
def leadOnly (e : Sqe) (run : State → State) (s : State) : State :=
  if s.sheaf.st = 2 then run s
  else ends e sequenceError (if isMember s then s.sheaf.lead else 0xFFFFFFFF) 0 [] s
/-- Action 0: both ports train again; a port of a module in conflict or with a strap fault stays held down (R304). -/
def enablePorts (e : Sqe) (s : State) : State :=
  let held := s.sheaf.st == 3 || s.sheaf.st == 4
  let up := fun (x : Culm) => if x.link = 5 then { x with link := if held then 4 else 0, downAt := now s } else x
  done e (updCulm .u0 up (updCulm .u1 up (updSheaf (fun x => { x with enabled := true, handed := false }) s)))
def execEnableCulmPorts (e : Sqe) (s : State) : Out := .next (admin (withSheaf 0 e) (sheafCmd (withSheaf 0 e) (enablePorts (withSheaf 0 e))) s)
/-- A Sheaf Control command waits for a handover: one that already runs, or a new one (R316, R325). -/
def awaitHand (e : Sqe) (action x : Nat) (s : State) : State :=
  let c := some (e.port, e.cid, e.opc.toNat, action)
  if s.sheaf.hand.isNone then startHand c x s
  else if s.sheaf.handCmd.isNone then updSheaf (fun y => { y with handCmd := c }) s
  else bad e sequenceError s
/-- Action 1: a lead first hands over where it can; the module leaves the sheaf. -/
def disablePorts (e : Sqe) (s : State) : State :=
  match (if s.sheaf.st = 2 then successor s else none) with
  | some x => awaitHand e 1 x s
  | none => done e (leaveSheaf s)
def execDisableCulmPorts (e : Sqe) (s : State) : Out := .next (admin (withSheaf 1 e) (sheafCmd (withSheaf 1 e) (disablePorts (withSheaf 1 e))) s)
/-- Action 2: handover; the module becomes ineligible. -/
def handOver (e : Sqe) (s : State) : State :=
  match successor s with
  | some x => awaitHand e 2 x s
  | none => bad e sequenceError s
def execHandOverLead (e : Sqe) (s : State) : Out :=
  let x := withSheaf 2 e
  .next (admin x (sheafCmd x (leadOnly x (handOver x))) s)
/-- Action 3: BUDGET; every GRANT carries it to the members (R318). -/
def shelfBudget (e : Sqe) (s : State) : State :=
  let b := d11 e 15 0
  if b < 320 ∨ 5120 < b then bad e invalidField s
  else done e (updSheaf (fun x => { x with budget := b, membersMax := memberCount s }) s)
def execSetShelfPowerBudget (e : Sqe) (s : State) : Out :=
  let x := withSheaf 3 e
  .next (admin x (sheafCmd x (leadOnly x (shelfBudget x))) s)

/-! ### Sheaf Phase Plan Set (R321, R322). -/
/-- First epoch, at least 256 frames ahead, whose index under a plan of c epochs is 0. -/
def firstEpoch (s : State) (c : Nat) : Nat := cdiv (cdiv (sfcNow s + 256) 64) c * c
/-- An earlier plan whose acknowledgements are still awaited gives way: its command ends with success. -/
def planYields (s : State) : State :=
  match s.sheaf.planCmd with
  | some (p, cid, opc) =>
    finishChange { port := p, cid := cid, opc := BitVec.ofNat 8 opc } 0 (0, 0) 0 0 [] (updSheaf (fun x => { x with planCmd := none }) s)
  | none => s
def setPlan (e : Sqe) (s : State) : State :=
  let n := d10 e 15 0
  if !rsvdOk 0xFFFF 0 0 0 0 0 e ∨ n < 128 ∨ 4096 < n ∨ n % 64 ≠ 0 then bad e invalidField s
  else if e.dlen < n then bad e sglLength s
  else
    let b := fitTo n e.data
    if !planOk b n then bad e invalidField s
    else
      let p := planOf b
      let first := firstEpoch s p.cycle
      let s := planYields s
      let gen := (s.sheaf.planGen + 1) % 2 ^ 32
      let s := updSheaf (fun x => { x with
        planGen := gen, planNext := some (first, p), planCmd := keepCmd e, members := x.members.map fun m => (m.1, { m.2 with acked := false }) }) s
      planDone (sendPlan (sheafEvent 0x505 0 0 gen first 0 s))
def execSheafPhasePlanSet (e : Sqe) (s : State) : Out :=
  let x := asAdmin 0xE5 e
  .next (admin x (leadOnly x (setPlan x)) s)

/-! ### Power Entry Control (R404). -/
def peuOfCmd (e : Sqe) : PeuId := if bit e.cdw10.toNat 0 then .b else .a
/-- PEU_VALUE as a signed number of tenths of a percent. -/
def marginOf (e : Sqe) : Int := let v := d11 e 15 0; if 32768 ≤ v then (v : Int) - 65536 else v
/-- Conditions of every Power Entry Control row; a foreign PEU is not in service and takes no command (R2, R404). -/
def peuCmd (e : Sqe) (run : PeuId → State → State) (s : State) : State :=
  if !rsvdOk 0xF01 0xFFFF 0 0 0 0 e then bad e invalidField s
  else if !(peuAt s (peuOfCmd e)).present ∨ !(peuAt s (peuOfCmd e)).keltan ∨ 2 ≤ s.power.peuA.upd ∨ 2 ≤ s.power.peuB.upd then bad e sequenceError s
  else run (peuOfCmd e) s
/-- PEU_ACTION 0: a PEU in STATE 7 refuses. -/
def enableOutput (e : Sqe) (p : PeuId) (s : State) : State :=
  if (peuAt s p).status.state = 7 then bad e sequenceError s else command p 0x10 [] (keepCmd e) s
def execPeuEnableOutput (e : Sqe) (s : State) : Out :=
  let x := withAction 0xEC 0 e
  .next (admin x (peuCmd x (enableOutput x)) s)
/-- PEU_ACTION 1: the other PEU must carry the load; 0x8C names it otherwise. -/
def disableOutput (e : Sqe) (p : PeuId) (s : State) : State :=
  let o := peuAt s (otherPeu p)
  if !statusCurrent s o ∨ o.status.state ≠ 2 then ends e (7, 0x8C) (0x0A + peuNo (otherPeu p)) 0 [] s
  else command p 0x11 [] (keepCmd e) s
def execPeuDisableOutput (e : Sqe) (s : State) : Out :=
  let x := withAction 0xEC 1 e
  .next (admin x (peuCmd x (disableOutput x)) s)
/-- PEU_ACTION 2: I_LIMIT, 4.0 to 10.0 A. -/
def limitCurrent (e : Sqe) (p : PeuId) (s : State) : State :=
  let v := d11 e 15 0
  if v < 40 ∨ 100 < v then bad e invalidField s else command p 0x12 [v] (keepCmd e) s
def execPeuSetCurrentLimit (e : Sqe) (s : State) : Out :=
  let x := withAction 0xEC 2 e
  .next (admin x (peuCmd x (limitCurrent x)) s)
/-- PEU_ACTION 3: the output margin, −5.0 to +5.0 %. -/
def marginCurrent (e : Sqe) (p : PeuId) (s : State) : State :=
  if marginOf e < -50 ∨ 50 < marginOf e then bad e invalidField s else command p 0x13 [d11 e 15 0] (keepCmd e) s
def execPeuSetMargin (e : Sqe) (s : State) : Out :=
  let x := withAction 0xEC 3 e
  .next (admin x (peuCmd x (marginCurrent x)) s)

end Sys2Proof.Machine
end

