-- ==== Sys2Proof/Machine/Mi.lean ====
section
/-! DEFINITION. The SMBus interface: Basic Management Command, MCTP control, NVMe-MI (R188–R191). Response layouts are those of
the standards that R188 names (assumption 15); packets, PEC and message integrity checks are not shown. -/
namespace Sys2Proof.Machine
open Sys2Proof

/-- The tick master answers (R191). -/
def miServes (s : State) : Bool := (cardAt s s.time.master).serving && !s.time.resetHeld
/-- A response leaves on the SMBus contacts: its status or completion code, and what follows it. -/
def respond (status : Nat) (body : List Byte) (s : State) : State :=
  if miServes s then send (.mi (byte status :: body)) { s with mi := { s.mi with status := status, resp := body } } else s
/-- Units of a part that are in service, with their board revisions. -/
def vpdContent (s : State) : List Byte :=
  let card := fun (c : CardId) => if (cardAt s c).serving then [byte (cardRev s c)] else []
  let peu := fun (p : PeuId) => if (peuAt s p).present ∧ (peuAt s p).keltan then [byte (peuRev s p)] else []
  ascii "BK-KZ2048-A" ++ ascii "BK-KZ2048-A" ++ fitTo 20 Config.moduleSerial ++ card .ca ++ card .cb ++ peu .a ++ peu .b
    ++ ((List.range 16).filter (frondIn s)).map fun f => byte (frondRev s f)

/-! ### Health as NVMe-MI shows it. -/
/-- A temperature in °C as NVMe-MI encodes it: 0x80 without a reading. -/
def tempByte (k : Option Nat) : Nat :=
  match k with
  | none => 0x80
  | some t => if 400 ≤ t then 0x7F else if 273 ≤ t then t - 273 else if t ≤ 213 then 0xC4 else 256 - (273 - t)
/-- Smart warnings: the Critical Warning byte, each bit inverted. -/
def smartWarnings (s : State) : Nat := 255 - criticalWarning s % 256
/-- Controller status of a port: ready, fatal status, shutdown status, reset occurred. -/
def ctrlStatus (s : State) (p : Port) : Nat := readRegister s p .csts
/-- Bits of NVMe-MI's changed flags: from bit 9 temperature, Percentage Used, spare and warning. -/
def changedBits (old new : Nat) (h0 h1 : Nat × Nat × Nat) : Nat :=
  (Nat.xor old new) + 512 * b2n (h0.1 != h1.1) + 1024 * b2n (h0.2.1 != h1.2.1) + 4096 * b2n (h0.2.2 != h1.2.2)
/-- The changed-status bits follow the controllers (R189), compared at each frame tick. -/
def miTick (s : State) : State :=
  let h := ((composite s).getD 0, percentUsed s, criticalWarning s)
  let now' : Pair Nat := ⟨ctrlStatus s .h0, ctrlStatus s .h1⟩
  let m := s.mi
  let chg := fun (c : CardId) => (pget m.changed c) ||| changedBits (pget m.seen c) (pget now' c) m.seenHealth h
  { s with mi := { m with changed := ⟨chg .ca, chg .cb⟩, seen := now', seenHealth := h } }
/-- Status flags of the Basic Management Command: no arbitration lost, ready, functional, no reset required, links. -/
def basicFlags (s : State) : Nat :=
  0x80 + 0x40 * b2n (!(s.c0.rdy || s.c1.rdy)) + 0x20 + 0x10 + 8 * b2n s.c0.link + 4 * b2n s.c1.link
/-- SMBUS_BLOCK_READ (R190): a read at address 0x6A; any other offset returns reserved bytes, zero: a
whole SMBus block of 32, since the rule gives no number (assumption 179). -/
def execSmbusBlockRead (offset : Nat) (s : State) : Out :=
  .next (match offset with
    | 0 => respond 6 [byte (basicFlags s), byte (smartWarnings s), byte (tempByte (composite s)), byte (min 255 (percentUsed s)), 0, 0] s
    | 8 => respond 22 (le 2 pciVendor ++ fitTo 20 Config.moduleSerial) s
    | _ => respond 32 (zeros 32) s)

/-! ### MCTP control (R188). -/
/-- SET_ENDPOINT_ID: the null and the broadcast ID are no endpoint IDs. -/
def execSetEndpointId (eid : BitVec 8) (s : State) : Out :=
  .next (if eid = 0 ∨ eid = 0xFF then respond 2 [] s
    else if miServes s then respond 0 [0, eid, 0] { s with mi := { s.mi with eid := eid } } else s)
def execGetEndpointId (s : State) : Out := .next (respond 0 [s.mi.eid, 0, 0] s)
def execGetEndpointUuid (s : State) : Out := .next (respond 0 (fitTo 16 Config.endpointUuid) s)
/-- GET_MCTP_VERSION_SUPPORT: base specification 1.3; for NVMe-MI the version is that of its binding. -/
def execGetMctpVersionSupport (msgType : BitVec 8) (s : State) : Out :=
  .next (if msgType = 0xFF ∨ msgType = 0 then respond 0 [1, 0xF1, 0xF3, 0xFF, 0x00] s
    else if msgType = 4 then respond 0 (1 :: (List.range 4).map (Config.standardByte "NVMe-MI over MCTP version")) s
    else respond 0x80 [] s)
/-- GET_MESSAGE_TYPE_SUPPORT: NVMe-MI alone beside control messages. -/
def execGetMessageTypeSupport (s : State) : Out := .next (respond 0 [1, 4] s)
/-- MCTP_UNSUPPORTED_CONTROL: ERROR_UNSUPPORTED_CMD. Control commands 1 to 5 are rows of their own. -/
def execMctpUnsupportedControl (command : BitVec 8) (s : State) : Out :=
  .next (if 1 ≤ command.toNat ∧ command.toNat ≤ 5 then s else respond 5 [] s)

/-! ### Management Interface commands (R189). -/
/-- Response statuses of NVMe-MI. -/
def miBadOpcode : Nat := 3
def miBadParameter : Nat := 4
/-- A structure of NVMe-MI: what this manual states at its offsets, the rest as the standard defines it. -/
def miStruct (name : String) (n : Nat) (l : List (Nat × Byte)) : List Byte :=
  (List.range n).map fun i => match l.find? fun x => x.1 == i with | some x => x.2 | none => Config.standardByte name i
/-- READ_NVME_MI_DATA_STRUCTURE: subsystem, port, controller list, controller. -/
def execReadNvmeMiDataStructure (dtyp : BitVec 8) (sel : Nat) (s : State) : Out :=
  .next (match dtyp.toNat with
    | 0 => respond 0 (miStruct "MI subsystem" 32 [(0, 2)]) s
    | 1 =>
      if sel ≤ 1 then respond 0 (miStruct "MI PCIe port" 32 [(0, 1)]) s
      else if sel = 2 then respond 0 (miStruct "MI SMBus port" 32 [(0, 2), (2, 250), (3, 0), (10, 0x1D), (11, 2), (12, 1)]) s
      else respond miBadParameter [] s
    | 2 => respond 0 (let l := [1, 2].filter (sel ≤ ·); le 2 l.length ++ l.flatMap (le 2)) s
    | 3 =>
      if sel = 1 ∨ sel = 2 then respond 0 (miStruct "MI controller" 32 [(0, byte (sel - 1)), (8, byte pciVendor), (9, byte (pciVendor / 256)),
          (10, byte pciDevice), (11, byte (pciDevice / 256)), (12, byte pciVendor), (13, byte (pciVendor / 256))]) s
      else respond miBadParameter [] s
    | _ => respond miBadParameter [] s)
/-- NVM_SUBSYSTEM_HEALTH_STATUS_POLL: the changed-status bits of both controllers are cleared where the request says so. -/
def execNvmSubsystemHealthStatusPoll (clear : Bool) (s : State) : Out :=
  let m := s.mi
  let flags := 0x20 * b2n (s.c0.rdy || s.c1.rdy) + 8 * b2n s.c0.link + 4 * b2n s.c1.link
  let body := [byte flags, byte (smartWarnings s), byte (tempByte (composite s)), byte (min 255 (percentUsed s))] ++ le 2 (m.changed.a ||| m.changed.b) ++ [0, 0]
  .next (if clear ∧ miServes s then respond 0 body { s with mi := { m with changed := ⟨0, 0⟩ } } else respond 0 body s)
/-- CONTROLLER_HEALTH_STATUS_POLL: an entry for each controller. -/
def execControllerHealthStatusPoll (s : State) : Out :=
  let entry := fun (p : Port) => fitTo 16 (le 2 (1 + portNo p) ++ le 2 (ctrlStatus s p) ++ le 2 ((composite s).getD 0)
    ++ [byte (min 255 (percentUsed s)), byte (availableSpare s), byte (criticalWarning s)])
  .next (respond 0 ([0, 0, 2] ++ entry .h0 ++ entry .h1) s)
/-- CONFIGURATION_GET: SMBus frequency, MCTP transmission unit. -/
def execConfigurationGet (ident : BitVec 8) (s : State) : Out :=
  .next (match ident.toNat with
    | 1 => respond 0 [byte s.mi.freq, 0, 0] s
    | 3 => respond 0 (le 2 s.mi.mtu ++ [0]) s
    | _ => respond miBadParameter [] s)
/-- A Configuration Set is in force and saved; its change record has origin 3, and the response waits for it (R189, R348). -/
def configured (ident : Nat) (g : Mi → Mi) (s : State) : State :=
  if !changeRoom s then respond 2 [] s
  else change 0x03 ident 3 0 0 0 0 [] none { s with mi := { g s.mi with awaiting := some s.time.master } }
/-- CONFIGURATION_SET: 100 or 400 kHz; 64 to 250 bytes. -/
def execConfigurationSet (ident : BitVec 8) (value : Nat) (s : State) : Out :=
  .next (if !miServes s then s
    else match ident.toNat with
    | 1 => if value = 1 ∨ value = 2 then configured 1 (fun m => { m with freq := value }) s else respond miBadParameter [] s
    | 3 => if 64 ≤ value ∧ value ≤ 250 then configured 3 (fun m => { m with mtu := value }) s else respond miBadParameter [] s
    | _ => respond miBadParameter [] s)
/-- Origin of a change record. -/
def originOf (r : EventRec) : Nat := r.data / 2 ^ 24 % 256
/-- A waiting Configuration Set is answered once its record is written; a request in progress when the tick master moved gets
no response (R191, R348). -/
def miAnswer (s : State) : State :=
  match s.mi.awaiting with
  | none => s
  | some c =>
    let none' := fun (s : State) => { s with mi := { s.mi with awaiting := none } }
    let waits := (s.events.changeQ ++ s.events.writing).any fun x => x.1.code == 0x10 && originOf x.1 == 3
    if c ≠ s.time.master then none' s else if waits then s else respond 0 [0, 0, 0] (none' s)
/-- VPD_READ: a window of 256 bytes. -/
def execVpdRead (offset length : Nat) (s : State) : Out :=
  .next (if 256 < offset + length then respond miBadParameter [] s
    else respond 0 ([0, 0, 0] ++ (List.range length).map fun i => Config.vpdByte (vpdContent s) (offset + i)) s)

/-! ### Tunnelled admin commands (R189). -/
/-- Response of an NVMe admin command: completion dwords, status and data. -/
def miAdmin (st : Nat × Nat) (dw0 : Nat) (data : List Byte) (s : State) : State :=
  respond 0 ([0, 0, 0] ++ le 4 dw0 ++ le 4 0 ++ le 4 ((st.2 + st.1 * 256) * 2 ^ 17) ++ data) s
/-- MI_ADMIN_IDENTIFY: CNS 0x00 to 0x02. -/
def execMiAdminIdentify (e : Sqe) (s : State) : Out :=
  .next (if 2 < d10 e 7 0 then miAdmin invalidField 0 [] s
    else match identifyData s e with | .ok d => miAdmin (0, 0) 0 d s | .error st => miAdmin st 0 [] s)
/-- MI_ADMIN_GET_LOG_PAGE: at most 4,096 bytes; it re-arms no event of the host. -/
def execMiAdminGetLogPage (e : Sqe) (s : State) : Out :=
  .next (if 4096 < logBytes e then miAdmin invalidField 0 [] s
    else match logWindow s e (logBytes e) (logOffset e) with
      | .ok d => miAdmin (0, 0) 0 d s
      | .error (sct, sc, dw0) => miAdmin (sct, sc) dw0 [] s)
/-- MI_ADMIN_GET_FEATURES: the selections of R466. -/
def execMiAdminGetFeatures (e : Sqe) (s : State) : Out :=
  let answer := fun (v : Option (Nat × List Byte)) => match v with | some (dw0, d) => miAdmin (0, 0) dw0 d s | none => miAdmin invalidField 0 [] s
  .next (match d10 e 10 8 with
    | 0 => answer (featureValue s e true)
    | 1 => answer (featureValue s e false)
    | 2 => answer (featureValue s e (saveable (fidOf e)))
    | 3 => if featureIds.contains (fidOf e) then miAdmin (0, 0) (4 + b2n (saveable (fidOf e))) [] s else miAdmin invalidField 0 [] s
    | _ => miAdmin invalidField 0 [] s)
/-- MI_UNSUPPORTED_COMMAND: any other command, Set Features included. -/
def execMiUnsupportedCommand (admin : Bool) (opcode : BitVec 8) (s : State) : Out :=
  .next (if admin then (if [0x02, 0x06, 0x0A].contains opcode.toNat then s else miAdmin invalidOpcode 0 [] s)
    else if opcode.toNat ≤ 5 then s else respond miBadOpcode [] s)

end Sys2Proof.Machine
end

