-- ==== Sys2Proof/Machine/Tick.lean ====
section
/-! DEFINITION. The frame tick: the duties of R448 and what every rule binds to a frame boundary (R15, R18, R32, R33, R40, R44,
R55, R205, R285, R298, R301, R306, R318, R361, R395, R406, R413). -/
namespace Sys2Proof.Machine
open Sys2Proof

/-! ### Commands that waited (R333, R408, R428). -/
/-- The state of an outcome. -/
def stateOf (s : State) (o : Out) : State := match o with | .next t => t | _ => s
/-- A Set Features command by its identifier. -/
def setFeatureAgain (e : Sqe) (s : State) : Out :=
  match fidOf e with
  | 0x01 => execSetFeaturesArbitration e s
  | 0x02 => execSetFeaturesPowerManagement e s
  | 0x04 => execSetFeaturesTemperatureThreshold e s
  | 0x06 => execSetFeaturesVolatileWriteCache e s
  | 0x07 => execSetFeaturesNumberOfQueues e s
  | 0x08 => execSetFeaturesInterruptCoalescing e s
  | 0x09 => execSetFeaturesInterruptVector e s
  | 0x0B => execSetFeaturesAsyncEventConfig e s
  | 0x0E => execSetFeaturesTimestamp e s
  | 0xC0 => execSetFeaturesFrameParameters e s
  | 0xC1 => execSetFeaturesThermalThrottlePoints e s
  | 0xC2 => execSetFeaturesMediaPowerBudget e s
  | 0xC3 => execSetFeaturesEventRateLimit e s
  | 0xC4 => execSetFeaturesScrubPolicy e s
  | 0xC5 => execSetFeaturesDramInterleaveGrain e s
  | 0xC6 => execSetFeaturesBulkPort e s
  | 0xC7 => execSetFeaturesDeadlineMissPolicy e s
  | 0xC8 => execSetFeaturesSeedbedPolicy e s
  | _ => execSetFeaturesUnsupported e s
/-- A Frond Service command by its ACTION. -/
def frondAgain (e : Sqe) (s : State) : Out :=
  match d10 e 11 8 with
  | 0 => execPrepareRemoval e s
  | 1 => execCancelPrepare e s
  | 2 => execDeclareLost e s
  | 3 => execSetRebuildRate e s
  | 4 => execLocateLedOn e s
  | 5 => execLocateLedOff e s
  | _ => execUnsupportedOpcode e s
/-- Sheaf Control, Power Entry Control and Firmware Commit by their actions. -/
def sheafAgain (e : Sqe) (s : State) : Out :=
  match d10 e 3 0 with
  | 0 => execEnableCulmPorts e s
  | 1 => execDisableCulmPorts e s
  | 2 => execHandOverLead e s
  | 3 => execSetShelfPowerBudget e s
  | _ => execUnsupportedOpcode e s
def peuAgain (e : Sqe) (s : State) : Out :=
  match d10 e 11 8 with
  | 0 => execPeuEnableOutput e s
  | 1 => execPeuDisableOutput e s
  | 2 => execPeuSetCurrentLimit e s
  | 3 => execPeuSetMargin e s
  | _ => execUnsupportedOpcode e s
def commitAgain (e : Sqe) (s : State) : Out :=
  match d10 e 5 3 with
  | 0 => execFirmwareCommitReplace e s
  | 1 => execFirmwareCommitNextStart e s
  | 2 => execFirmwareCommitActivateSlot e s
  | 3 => execFirmwareCommitImmediate e s
  | _ => execUnsupportedOpcode e s
/-- A command that was kept waiting comes again, by its opcode. -/
def commandAgain (e : Sqe) (s : State) : Out :=
  match e.opc.toNat with
  | 0x00 => execDeleteIoSubmissionQueue e s
  | 0x01 => execCreateIoSubmissionQueue e s
  | 0x04 => execDeleteIoCompletionQueue e s
  | 0x05 => execCreateIoCompletionQueue e s
  | 0x06 => execIdentify e s
  | 0x08 => execAbort e s
  | 0x09 => setFeatureAgain e s
  | 0x0A => execGetFeatures e s
  | 0x0C => execAsynchronousEventRequest e s
  | 0x0D => if reservedAction e then execUnsupportedOpcode e s else if d10 e 3 0 = 1 then execNamespaceDelete e s else execNamespaceCreate e s
  | 0x10 => commitAgain e s
  | 0x11 => execFirmwareImageDownload e s
  | 0x15 => if reservedAction e then execUnsupportedOpcode e s else if d10 e 3 0 = 1 then execNamespaceDetach e s else execNamespaceAttach e s
  | 0x80 => execFormatNvm e s
  | 0x84 => execSanitize e s
  | 0xC1 => execSliceCreate e s
  | 0xC4 => execSliceDelete e s
  | 0xC5 => execSliceStateRestore e s
  | 0xC6 => execSliceStateSave e s
  | 0xC8 => execSliceReset e s
  | 0xCC => if bit e.cdw10.toNat 16 then execSliceThaw e s else execSliceFreeze e s
  | 0xD0 => execQueueResume e s
  | 0xD1 => execShareSet e s
  | 0xD5 => execSpikeletRuleWrite e s
  | 0xD6 => execSpikeletRuleRead e s
  | 0xD9 => if d10 e 1 0 = 1 then execIssueNonce e s else execAuthorizationSubmitToken e s
  | 0xDC => execGuardLevelChange e s
  | 0xE0 => frondAgain e s
  | 0xE4 => sheafAgain e s
  | 0xE5 => execSheafPhasePlanSet e s
  | 0xE8 => if bit e.cdw10.toNat 8 then execEventClearModule e s else execEventClearFrond e s
  | 0xE9 => execBulkEndpointSet e s
  | 0xEC => peuAgain e s
  | 0xF1 => execWinnowProgramLoad e s
  | _ => execUnsupportedOpcode e s
/-- Commands kept waiting come again in their order, at the tick; those of a port that serves none wait on. -/
def runAgain (l : List Sqe) (s : State) : State :=
  l.foldl (fun s e =>
    -- a shutdown under way lets what has been fetched run (R175)
    let shn := (ctrlAt s e.port).shst == 1
    let s' := if shn then updCtrl e.port (fun c => { c with shst := 0 }) s else s
    if adminOpen s' e.port then
      let t := stateOf s' (commandAgain { e with cnt := 0 } s')
      if shn then updCtrl e.port (fun c => { c with shst := 1 }) t else t
    else { s with heldAdmin := s.heldAdmin ++ [e] }) s
/-- Commands that waited for a move between power states (R406, R408). -/
def runWoken (s : State) : State :=
  if s.power.woken = [] ∨ 3 ≤ s.power.ps ∨ s.power.entry.isSome ∨ s.power.exit.isSome ∨ s.power.psNext.isSome then s
  else runAgain s.power.woken (updPower (fun p => { p with woken := [] }) s)
/-- Commands that waited for a guard level change, a Sanitize or a namespace (R333, R428). -/
def runHeld (s : State) : State := runAgain s.heldAdmin { s with heldAdmin := [] }

/-! ### The frame counter (R15, R17, R55). -/
/-- Counts by which a member's frame is shortened toward its source: at most 16 either way (R55). -/
def slewOf (x : Sheaf) : Int :=
  if x.st = 1 ∧ (x.rachis = 1 ∨ x.rachis = 2 ∨ x.rachis = 4) then max (-16) (min 16 x.offset) else 0
/-- FC increments; the new frame's length; what is counted per frame begins again (R29, R205). The buckets refill before a Share
Set takes effect at the same boundary, by the old allowance: R208 leaves that order open (assumption 147). -/
def passFrame (s : State) : State :=
  let c := slewOf s.sheaf
  let fc := s.time.fc + 1
  let s := updTime (fun t => { t with fc := fc, start := t.start + t.len, len := (16000 - c).toNat, count := 0 }) s
  let s := updSheaf (fun x => { x with offset := x.offset - c }) s
  let s := updStats (fun x => { x with
    readUnres := ⟨0, 0⟩, writeUnres := ⟨0, 0⟩, dramUsed := x.dramUsed - dramShare s, claims := x.claims.filter fun c => decide (fc ≤ c.frame) }) s
  let refill := fun (x : Slice) => { x with
    readUsed := x.readUsed - x.share.readCw, writeUsed := x.writeUsed - x.share.writeCw, readResv := 0, writeResv := 0 }
  let ended := fun (r : Nat × Req) => r.2.piece.isNone && r.2.buf.isNone && (r.2.st == .done || r.2.st == .withdrawn)
  { s with slices := s.slices.map fun x => (x.1, refill x.2), reqs := s.reqs.filter fun r => !ended r }
/-- A member that has heard no RACHIS for a frame and the range of lock has lost its lock and holds over (R55; assumption 148); so does
one whose TICK_IO pulses have ceased (R311; assumption 191). -/
def rachisTick (s : State) : State :=
  if s.sheaf.st = 1 ∧ (s.sheaf.rachis = 1 ∨ s.sheaf.rachis = 2) ∧ s.sheaf.rachisAt + 16128 < s.time.start then
    updSheaf (fun x => { x with rachis := 3, inside := 0, lockedFc := none }) s
  else if s.sheaf.st = 1 ∧ s.sheaf.rachis = 4 ∧ (match s.sheaf.foreignAt with | some t => elapsed s t 2 | none => true : Bool) then
    updSheaf (fun x => { x with rachis := 3 }) s
  else s
/-- A write that admission has stopped for at FULL_PCT counts the frame that ends (R124). -/
def countStopped (s : State) : State :=
  { s with cmds := s.cmds.map fun c =>
      if c.2.st = .fullWait ∧ (stopFrondOf s (copyFronds s (destKeys s c.1))).isSome then (c.1, { c.2 with stoppedFrames := c.2.stoppedFrames + 1 }) else c }

/-! ### Frame boundary of the module's states (R296, R301, R406, R436). -/
/-- An operational state takes effect, and its command completes (R406). -/
def powerMove (s : State) : State :=
  match s.power.psNext with
  | some x =>
    let s := if 1 ≤ x.target then { s with cmds := s.cmds.map fun c => if c.2.svc = .bound then (c.1, { c.2 with cause := min c.2.cause 5 }) else c } else s
    answer x.cmd (0, 0) 0 0 (followFreq s (updPower (fun p => { p with ps := x.target, psNext := none }) s))
  | none => s
/-- The thermal factors computed in the frame that ends apply to the frequencies of this one (R419). -/
def factorTick (s : State) : State :=
  let latch := fun (c : Card) => { c with qNow := c.qFactor }
  followFreq s (updCard .ca latch (updCard .cb latch s))
/-- The tick master moves without a takeover (R301). -/
def masterMove (s : State) : State :=
  match s.pair.handTo with
  | some c =>
    let s := updPair (fun p => { p with handTo := none }) s
    if (cardAt s c).serving ∧ s.time.master ≠ c then event 0x404 0 (srcQ c) (obj 8 (cardNo c)) 0 0 0 (setMaster c s) else s
  | none => s
/-- A card that was asked to leave (R436): its commands complete, its groups and the tick move, it leaves; it stays where its partner has failed
meanwhile (assumption 204). -/
def leavingStep (card : CardId) (s : State) : State :=
  let l := if (cardAt s card).serving then (cardAt s card).leaving else 0
  if l ≠ 0 ∧ !carries (cardAt s (other card)) then
    updCtrl (portOf card) (fun x => { x with stopped := false }) (updCard card (fun c => { c with leaving := 0 }) s)
  else match l with
  | 1 =>
    if s.cmds.any fun x => decide (x.2.card = card) && x.2.e.sqid != 0 then s
    else
      let s := updCard card (fun c => { c with leaving := 2 }) s
      anaUpdate ((ownedBy s card).foldl (fun s g => startTransfer g (other card) s) s)
  | 2 =>
    if s.time.master = card then (if s.pair.handTo.isNone then updPair (fun p => { p with handTo := some (other card) }) s else s)
    else if ownedBy s card = [] then cardLeaves card s else s
  | _ => s
/-- A re-entered card whose home group is back has entered (R437). -/
def enteredStep (card : CardId) (s : State) : State :=
  if (cardAt s card).entering = 5 ∧ (ownedBy s card).contains (homeGroup card) then updCard card (fun c => { c with entering := 0 }) s else s
/-- Transfers that are drained and copied switch; the tick moves; cards leave, enter and activate. -/
def pairBoundary (s : State) : State :=
  let s := (s.pair.transfers.filter (·.step == 3)).foldl (fun s t => switchGroup t s) s
  let s := masterMove s
  let s := enteredStep .cb (enteredStep .ca (leavingStep .cb (leavingStep .ca s)))
  let s := commitStep .cb (commitStep .ca s)
  soak .cb (soak .ca (waitForCb (activationStep .cb (activationStep .ca s))))

/-! ### Fronds (R33, R37, R40, R142, R429). -/
/-- Free die-blocks of a frond, which the erases of R142 replenish. -/
def freeBlocks (s : State) (f : Nat) : Nat :=
  let dies := ((List.range 256).map (f * 256 + ·)).filter fun d => decide ((dieAt s d).state ≤ 1)
  let top : Nat → Nat := fun d => match (dieAt s d).unwiped with | some c => min c 1928 | none => 1928
  let mine := s.blks.filter fun b => dies.contains (b.1 / 4096)
  let more := (mine.filter fun b => b.2.state == 0 && (blkDefault b.1).state != 0).length
  let less := (mine.filter fun b => b.2.state != 0 && (blkDefault b.1).state == 0 && decide (b.1 % 4096 < top (b.1 / 4096))).length
  dies.foldl (fun a d => a + (top d - 8)) 0 + more - less
/-- Erases run at rank 4 from 512 free die-blocks down until there are 1,024 (R142); the member then sets OVERRIDE (R320). -/
def freePools (s : State) : State :=
  let low := fun (f : Nat) (g : FrondSt) => let n := freeBlocks s f; if n < 512 then true else if 1024 ≤ n then false else g.freeLow
  let s := { s with fronds := s.fronds.map fun g => (g.1, { g.2 with freeLow := low g.1 g.2 }) }
  updSheaf (fun x => { x with override := isMember s && s.fronds.any fun g => g.2.freeLow && frondIn s g.1 }) s
/-- Reads that the ended frame left unissued, and requests that no plan took: they are sent again (R39). -/
def leftover (f : Nat) (s : State) : State :=
  let g := frondAt s f
  let old := g.cur.reads.filter fun n => (reqAt s n).st == .planned && (reqAt s n).frame != some s.time.fc
  let late := g.waiting.filter fun n => match (reqAt s n).frame with | some t => decide (t ≤ s.time.fc) | none => false
  let s := updFrond f (fun g => { g with waiting := g.waiting.filter fun n => !late.contains n }) s
  settleFailed ((old ++ late).foldl (fun s n => notPlaced n s) s)
/-- The data-ins of the ended frame have moved their programs' data into the latches; a staged chunk's buffer is free (R22, R36,
R45). -/
def landData (f : Nat) (s : State) : State :=
  let g := frondAt s f
  let one := fun (s : State) (die : Nat) => match nextData (dieAt s die) with
    | some o =>
      if !landing s g die o then s
      else
        let s := updDie die (fun d => { d with opQ := d.opQ.map fun q => if q = o then { q with ready := true } else q }) s
        if o.kind = .pad ∨ (tfind s.chunks o.chunk).isNone then s
        else updChunk o.chunk (fun c => { c with st := .programming }) (freeStage o.chunk s)
    | none => s
  (g.cur.xfers.filterMap fun x => match x.of with | .longOp d => some d | _ => none).foldl one s
/-- A Quihar that has not heard the frame-plan message of the plan that begins treats its requests in it as not placed (R52). -/
def unheard (f : Nat) (s : State) : State :=
  let lost := fun (c : CardId) (s : State) =>
    let g := frondAt s f
    if g.nxt.frame = s.time.fc ∧ g.nxt.fixed ∧ !g.nxt.hold ∧ (cardAt s c).serving ∧ !pget g.planHeard c then planLost c f s else s
  lost .cb (lost .ca s)
/-- The plan fixed for this frame begins; a frame without one runs as a hold plan does (R40, R50). -/
def shiftPlan (f : Nat) (s : State) : State :=
  let fc := s.time.fc
  updFrond f (fun g => { g with
    cur := if g.nxt.frame = fc then g.nxt else holdPlan s g fc,
    nxt := if g.nxt.frame = fc then {} else if fc < g.nxt.frame then g.nxt else {}, closed := false, placed := ⟨[], []⟩ }) s
/-- A segment of a planned long operation starts at count 64 (R34, R37); with the first one of a QLC program its block is in QLC mode
(R61). -/
def startSegment (f die : Nat) (s : State) : State :=
  let d := dieAt s die
  match nextOp s (frondAt s f) die with
  | some o =>
    let s := if holdsLatches o.kind ∧ o.kind ≠ .verify ∧ o.segs = 0 then updBlk (blkKey die o.block) (fun b => { b with mode := some true }) s else s
    updDie die (fun x => { x with
      op := some { o with segs := o.segs + 1 }, opQ := if d.op.isNone then lrem x.opQ o else x.opQ, seg := true, suspended := false }) s
  | none => s
/-- The frame's segments, programs and free-window reads begin (R34, R35, R110); with the last feed lost no segment starts
(R399). -/
def startPlan (f : Nat) (s : State) : State :=
  let p := (frondAt s f).cur
  let s := { s with dies := s.dies.map fun d => if frondOfDie d.1 = f ∧ d.2.prog.isSome then (d.1, { d.2 with prog := none }) else d }
  let progs := p.progs.filter fun q => (tfind s.progs q).isSome
  let off := fun q => s.power.feedLost || (dieAt s (progAt s q).die).state != 0
  let s := (progs.filter off).foldl (fun s q => unpack q s) s
  let s := if s.power.feedLost then s else p.segs.foldl (fun s d => startSegment f d s) s
  let s := (progs.filter fun q => !off q).foldl (fun s q => updDie (progAt s q).die (fun d => { d with prog := some q }) s) s
  (p.reads.filter fun n => (reqAt s n).win == .free && (reqAt s n).st == .planned).foldl (fun s n => issueSense n s) s
/-- Frame-start markers on both cards' links, and the frames that a Filnas has gone without one (R32, R33). -/
def frondMarker (f : Nat) (s : State) : State :=
  if !frondPowered s f then s
  else
    let s := updFrond f (fun g => { g with fc := s.time.fc, unmarked := if g.marked.a || g.marked.b then 0 else g.unmarked + 1, marked := ⟨false, false⟩ }) s
    let mark := fun (c : CardId) (s : State) => if (cardAt s c).serving then send (.marker c f (s.time.fc % 65536)) s else s
    mark .cb (mark .ca s)
/-- A Filnas that was reset after its first failure serves again (R429). -/
def coreBack (f : Nat) (s : State) : State :=
  let g := frondAt s f
  if g.coreReset && g.present && leReaches s f && !(fuseAt s f).off && g.state == 3 then frondKnown f (untrain f s) else s
/-- A frond's part of the tick. -/
def frondTick (f : Nat) (s : State) : State :=
  let s := flushStore f (filnasRuns f (frondMarker f (coreBack f s)))
  if frondIn s f || (frondAt s f).prepared == 1 then startPlan f (shiftPlan f (unheard f (landData f (leftover f s)))) else s

/-! ### The media budget and the allowances (R44, R317–R319, R420). -/
/-- Charge and demand of the frame that ends (R317). -/
def countCharge (s : State) : State :=
  let l := ((List.range 16).filter fun f => frondIn s f || (frondAt s f).prepared == 1).map (frondAt s)
  let c := l.foldl (fun a g => a + g.cur.charge) 0
  let d := l.foldl (fun a g => a + g.demand) 0
  updPower (fun p => { p with
    chargeSum := p.chargeSum + c, demandSum := p.demandSum + min d 1000000, throttled := p.throttled + if p.throttledNow = [] then 0 else 1 }) s
/-- The first frame of a power epoch: sums become means, the grant and the plan of the epoch apply (R317, R318, R322). -/
def epochTick (s : State) : State :=
  if sfcNow s % 64 ≠ 0 then s
  else
    let e := epochNow s
    let s := updPower (fun p => { p with
      pinMean := if p.pinN = 0 then p.pinMean else p.pinSum / (10 * p.pinN), pinSum := 0, pinN := 0, chargeLast := p.chargeSum, chargeSum := 0,
      demandLast := p.demandSum, demandSum := 0 }) s
    if !isMember s then s
    else
      let s := updSheaf (fun x => { x with plan := planFor s e, planNext := match x.planNext with | some (n, p) => if n ≤ e then none else some (n, p) | none => none,
                                           members := x.members.map fun m => (m.1, { m.2 with demand := none }) }) s
      updSheaf (fun x => match x.nextGrant with
        | some (n, g, b) => if n ≤ e then { x with grant := g, base := b, nextGrant := none, grantless := 0, stale := false } else { x with grantless := x.grantless + 1 }
        | none => { x with grantless := x.grantless + 1 }) s
/-- Shares of what is left above the base charges: (frond, weight, room), in proportion to weight, none above its room (R44). -/
def fillShares : Nat → Nat → List (Nat × Nat × Nat) → List (Nat × Nat)
  | 0, _, l => l.map fun x => (x.1, 0)
  | n + 1, rest, l =>
    let w := l.foldl (fun a x => a + x.2.1) 0
    let share := fun (x : Nat × Nat × Nat) => if w = 0 then 0 else rest * x.2.1 / w
    let full := l.filter fun x => decide (x.2.2 ≤ share x)
    if full = [] ∨ w = 0 then l.map fun x => (x.1, share x)
    else full.map (fun x => (x.1, x.2.2))
      ++ fillShares n (rest - full.foldl (fun a x => a + x.2.2) 0) (l.filter fun x => !decide (x.2.2 ≤ share x))
/-- Ceiling of a frond: its demand, or its thermal ceiling (R420). -/
def ceilingOf (s : State) (f : Nat) : Nat := min (max baseCharge (frondAt s f).demand) (125000 * frondFactor s f / 64)
/-- The allowances of a frame in tenths of a milliwatt (R44). -/
def allowancesOf (s : State) : List (Nat × Nat) :=
  let l := (List.range 16).filter fun f => frondIn s f || (frondAt s f).prepared == 1
  let budget := budgetTenths s
  if s.power.ps = 4 then l.map fun f => (f, 0)
  else if s.power.ps = 3 then l.map fun f => (f, baseCharge)
  else if budget < l.length * baseCharge then l.map fun f => (f, budget / l.length)
  else (fillShares 16 (budget - l.length * baseCharge)
    (l.map fun f => (f, max baseCharge (frondAt s f).demand - baseCharge, ceilingOf s f - baseCharge))).map fun x => (x.1, x.2 + baseCharge)
/-- HE1 sends the allowances (R44). -/
def sendAllowances (s : State) : State :=
  (allowancesOf s).foldl (fun s x => updFrond x.1 (fun g => { g with allowance := x.2 }) s) s

/-! ### Messages of a tick (R285, R306, R312, R322, R323, R395). -/
/-- Heartbeat of a card that serves or starts, and what it has heard of its partner in the ended frame. -/
def heartbeatTick (c : CardId) (s : State) : State :=
  let x := cardAt s c
  if !x.serving && (!x.present || x.held || x.entering == 0) then s
  else
    let s := updCard c (fun x => { x with aliveTx := x.aliveTx + 1, beat := false }) s
    send (.heartbeat c (heartbeatOf s c (if x.serving then x.hb else 0))) s
/-- The queue positions of a card's I/O queues are mirrored at each frame boundary (R286). -/
def queueTick (c : CardId) (s : State) : State :=
  if (cardAt s c).serving && s.sqs.any (fun q => q.2.used && decide (q.1 / 65536 = portNo (portOf c)) && q.1 % 65536 != 0) then mirror c [] s else s
/-- Card STATUS to each PEU at every fourth tick (R395). -/
def cardStatus (s : State) : State :=
  if s.time.fc % 4 ≠ 0 then s
  else
    let one := fun (p : PeuId) (c : CardId) (s : State) =>
      if (cardAt s c).serving ∧ (peuAt s p).present ∧ (peuAt s p).keltan then
        (sendPeu p c 0x01 [s.time.fc % 2 ^ 32, (cardAt s c).hb, b2n (decide (c = s.time.master)), 0] s).2 else s
    one .b .cb (one .b .ca (one .a .cb (one .a .ca s)))
/-- HELLO on one port, in the order in which R306 names its fields; its health is the Critical Warning of the module (assumption 201). -/
def helloOn (p : CulmPort) (s : State) : State :=
  let nums := fun (l : List Byte) => l.map (·.toNat)
  ownMsg p 0x04 0 ([s.sheaf.pos, culmNo p] ++ nums Config.moduleSerial ++ [b2n (eligible s), criticalWarning s, b2n s.sheaf.override]
    ++ nums (runningImage s).revision) s
/-- Each position heard: state, hops, last SFC heard (R306). -/
def censusMsg (s : State) : State :=
  broadcast 0x05 ([s.sheaf.pos, s.sheaf.st, 0, sfcNow s] ++ s.sheaf.members.flatMap fun m => [m.1, m.2.st, m.2.hops, m.2.seenSfc]) s
/-- What a member sends at a tick. -/
def sheafTick (s : State) : State :=
  if !isMember s then s
  else
    let s := if s.sheaf.st = 2 then emitRachis s else s
    let s := if s.sheaf.drive then send (.tickPulse (64 * (s.sheaf.pos + 1))) s else s
    let s := if s.time.fc % 4 = 0 then helloOn .u1 (helloOn .u0 s) else s
    let s := if s.time.fc % 16 = 0 then censusMsg s else s
    let s := if s.sheaf.st = 2 ∧ s.time.fc % 4000 = 0 then sendPlan s else s
    relayStep (sendEvents s)

/-! ### Work that waited for a frame boundary. -/
/-- Waiting commands try again in fetch order, then read pieces without a buffer (R22, R123, R171, R207, R259). -/
def retryWaiting (s : State) : State :=
  let waits := fun (c : Cmd) => match c.st with
    | .deferred | .lockEntries | .fullWait | .admitWait | .gcWait | .openWait | .aheadWait => true | _ => false
  let l := sortBy (fun (a b : Nat × Cmd) => decide (a.2.order < b.2.order)) (s.cmds.filter fun c => waits c.2)
  let s := l.foldl (fun s c => if waits (cmdAt s c.1) && (tfind s.cmds c.1).isSome then resume c.1 s else s) s
  let s := retryHeld s
  drr (settleFailed ((s.pieces.filter fun p => p.2.deferredAt.isSome).foldl (fun s p =>
    let c := cmdAt s p.2.cmd
    if (pieceAt s p.1).deferredAt.isSome ∧ (pieceAt s p.1).buf.isNone ∧ (c.svc = .bound ∨ outstanding s c.card + p.2.blocks.length ≤ 16384) then
      placePiece p.1 s else s) s))
/-- Each Quihar's share of REBUILD_RATE for a frame, in proportion to its queued bytes (R99, R125); what it does not use is kept
for one row. -/
def rebuildCredit (s : State) : State :=
  let own := fun (m : Nat) => ownerOfNs s (stripeAt s m).nsid
  let work := fun (c : CardId) => (s.rebuild.queue.filter fun m => decide (own (m / 16) = c)).foldl (fun a m => a + memberBytes s m) 0
    + 4096 * (s.seedbed.replace.filter fun ck => decide (own (slotOfCk ck) = c)).length
  let all := work .ca + work .cb
  let rate := 250000 * s.rebuild.rate
  let next := fun (c : CardId) => if work c = 0 then 0 else min (262144 + rate) (pget s.rebuild.credit c + rate * work c / all)
  updRebuild (fun r => { r with credit := ⟨next .ca, next .cb⟩ }) s
/-- A pending member of a frond in service takes a free die-block as its target, once one has been erased (R94, R96, R102). -/
def memberTarget (m : Nat) (s : State) : State :=
  let x := memberAt s m
  if x.blk.isSome ∨ x.lost ∨ !x.filling then s
  else match drawMember (memberFrond (m / 16) (m % 16)) (stripeAt s (m / 16)).cls s with
    | (some b, s) => setMember m (fun x => { x with blk := some b }) (updBlk b (fun y => { y with state := 4, member := some m, mode := none }) s)
    | (none, s) => s
/-- Rebuilds and fills in progress, at most 16 stripes of each owner, of namespaces that are ready (R98, R295, R428): targets, and the next row of each (R97,
R104). -/
def rebuildTick (s : State) : State :=
  if parked s then s
  else
    let s := replaceTick (rebuildCredit s)
    let own := fun (m : Nat) => ownerOfNs s (stripeAt s (m / 16)).nsid
    let go := fun (c : CardId) (a : List Nat) => a ++ ((s.rebuild.queue.filter fun m => decide (own m = c) && !a.contains m && (nsAt s (stripeAt s (m / 16)).nsid).ready
      && !frondAbsent s (memberFrond (m / 16) (m % 16))).take (16 - (a.filter fun m => decide (own m = c)).length))
    let s := updRebuild (fun r => { r with active := go .cb (go .ca (r.active.filter fun m => r.queue.contains m)) }) s
    s.rebuild.active.foldl (fun s m => fillRow m (memberTarget m s)) s
/-- What failed blank-checks mean for a frond's dies, and for its stock (R81, R145; assumption 182). -/
def checkTick (s : State) : State :=
  ((List.range 16).filter fun f => (frondAt s f).check).foldl (fun s f =>
    let s := updFrond f (fun g => { g with check := false }) s
    backingDeficit f ((s.dies.filter fun d => frondOfDie d.1 == f && decide (256 < d.2.grownBad)).foldl (fun s d => badCheck d.1 s) s)) s
/-- What the fronds' background work does at a tick: rows and map pages that lost their way, retrainings and recalibrations that were deferred, refreshes, rows
whose release the partner has acknowledged, lost accumulators, checkpoints, blocks that failed their blank-check (R50, R65, R74, R81, R117, R120, R154). -/
def backgroundTick (s : State) : State :=
  accumTick <| checkpointTick .cb <| checkpointTick .ca <| arrivedTick <| checkTick <| settleFailed <| tellTick (pagesTick <| (List.range 16).foldl (fun s f => refreshTick f (recalAgain f (trainTick f s))) (unstick s))
/-- STATE of the Seedbed Status log is looked at once in a frame: its rise from 0 posts the event (R132). A frond below
THROTTLE_PCT keeps no credit (R123). -/
def seedbedTick (s : State) : State :=
  let st := sbStateAll s
  let s := if s.seedbed.stateSeen = 0 ∧ st ≠ 0 then aenPage 0xC6 s else s
  updSeedbed (fun b => { b with stateSeen := st, credit := b.credit.filter fun x => decide (s.feat.thrPct ≤ fillPct (frondAt s x.1)) }) s
/-- Garbage collection of the conventional namespaces (R149). -/
def gcTick (s : State) : State :=
  if parked s ∨ !anyServe s ∨ s.pair.takeover.isSome then s else (s.nss.map (·.1)).foldl (fun s n => gcStart n s) s
/-- Rank operations at a frame boundary; a card that has no spare says so once in 4,000,000 frames (R265, R269). -/
def memTick (card : CardId) (s : State) : State :=
  let s := rankBoundary card s
  let m := memAt s card
  let bare : Bool := match m.rop with | .idle => m.spare.isNone | _ => false
  if (cardAt s card).serving ∧ bare ∧ m.noSpareFc + 4000000 ≤ s.time.fc then noSpare card s else s
/-- What a serving module does besides, at every tick. -/
def servingTick (s : State) : State :=
  let s := memTick .cb (memTick .ca s)
  let s := peuUpdate .b (peuUpdate .a s)
  let s := closeQps (bulkTick (gcTick (rebuildTick (backgroundTick (absentRelease (placeWaiting (retryWaiting s)))))))
  let s := seedbedTick s
  let s := wake s
  let s := s.jobs.foldl (fun s j => jobStep j s) s
  miTick (miAnswer (startProgram (linkCheck (runHeld (runWoken (entryAdvance s))))))
/-- Ticks come while the module has power and some card serves, or starts with the module (R16, R427, R430). -/
def ticks (s : State) : Bool := s.time.bus && !s.time.resetHeld && (anyServe s || s.pair.ca.entering == 6 || s.pair.cb.entering == 6)
/-- One tick, in the order of R448. -/
def frameTick (s : State) : State :=
  let s := rachisTick (passFrame (countCharge (countStopped s)))
  let s := pairBoundary (factorTick (powerMove (applySettings s)))
  if !anyServe s then s
  else
    let s := (List.range 16).foldl (fun s f => frondTick f s) (freePools s)
    let s := sendAllowances (epochTick s)
    servingTick (sheafTick (queueTick .cb (queueTick .ca (heartbeatTick .cb (heartbeatTick .ca (cardStatus s))))))
/-- FRAME_TICK (R15, R448). -/
def execFrameTick (s : State) : Out := .next (if ticks s then frameTick s else s)

/-! ### The end of an exit (R413). -/
/-- Every channel of the fronds in service that has not failed is trained (R64). -/
def allTrained (s : State) : Bool :=
  (List.range 128).all fun c => !frondIn s (c / 8) || (chanAt s c).failed || (chanAt s c).trained
/-- Every powered frond runs again: after PS4 with its code loaded (R360). -/
def frondsBack (from4 : Bool) (s : State) : State :=
  let s := { s with fronds := s.fronds.map fun g => (g.1, { g.2 with noSegs := segsOff s g.2 }) }
  if !from4 then s
  else
    (List.range 16).foldl (fun s f => if frondPowered s f then updFrond f (fun g => { g with code := (runningImage s).filnasSha, unmarked := 0 }) s else s) s
/-- Fuse retries that fell due in PS4 are made (R401, R413 step 5). -/
def dueRetries (s : State) : State :=
  (List.finRange 16).foldl (fun s f => if (fuseAt s f.val).due then fuseRetryNow (.frond f) s else s) s
/-- Engines whose power domain was off and that fail their self-test at the exit (R25, R413 step 3): which do is a free value. -/
def exitFailures (s : State) : List (CardId × Nat) :=
  let off := fun (c : CardId) (i : Nat) => (cardAt s c).serving && !engineDown s c i
    && (match domainOf i with | .cc n => decide (4 ≤ n.val) | .se _ => true | .le _ => s.power.ps == 4 | _ => false)
  [CardId.ca, .cb].flatMap fun c =>
    ((List.range 64).filter fun i => off c i && Config.selfTestFails (cardNo c * 64 + i) (now s)).map fun i => (c, i)
/-- Engines that fail their self-test stay out, and a card left with too few leaves service (R24). -/
def retestEngines (failed : List (CardId × Nat)) (s : State) : State :=
  let s := failed.foldl (fun s x => engineOut x.1 x.2 0 s) s
  if failed.isEmpty then s
  else linkCheck ([CardId.ca, .cb].foldl (fun s c => if (cardAt s c).serving ∧ tooFew s c then cardOut c 1 .outOfService s else s) s)
/-- POWER_STATE_EXIT_DONE (R408, R413): the regulators have answered, and after PS4 the channels have trained. A
command that named a second non-operational state begins its entry. -/
def execPowerStateExitDone (s : State) : Out :=
  match s.power.exit with
  | none => .next s
  | some x =>
    if !s.power.regReqs.isEmpty || (s.power.ps == 4 && !allTrained s) then .next s
    else
      let left := s.power.ps
      let failed := exitFailures s
      let s := updPower (fun p => { p with ps := x.target, exit := none, awake := now s }) s
      let s := retestEngines failed (dueRetries (frondsBack (left == 4) s))
      let s := event 0x721 0 (srcQ s.time.master) 0 left (s.time.fc - s.power.exitFc) 0 s
      .next (match x.follow with
        | some t => startEntry t x.cmd s
        | none => runWoken (answer x.cmd (0, 0) 0 0 s))

end Sys2Proof.Machine
end

