-- ==== Sys2Proof/Machine/Dispatch.lean ====
section
/-! DEFINITION. The dispatch of a command to its meaning: one arm per row of the opcode table. -/
namespace Sys2Proof.Machine
open Sys2Proof

/-- The effect of a command on everything but the queue. -/
def exec (i : Instr) (s : State) : Host.Outcome State Fault Refusal :=
  match i with
  | .modulePowerOn straps foundSeq => Sys2Proof.Machine.execModulePowerOn straps foundSeq s
  | .namespacesReady card => Sys2Proof.Machine.execNamespacesReady card s
  | .nvmSubsystemReset port => Sys2Proof.Machine.execNvmSubsystemReset port s
  | .resetNAssert frames => Sys2Proof.Machine.execResetNAssert frames s
  | .resetNRelease => Sys2Proof.Machine.execResetNRelease s
  | .ccEnClear port => Sys2Proof.Machine.execCcEnClear port s
  | .functionLevelReset port => Sys2Proof.Machine.execFunctionLevelReset port s
  | .controllerLevelReset port => Sys2Proof.Machine.execControllerLevelReset port s
  | .pcieLinkLoss port => Sys2Proof.Machine.execPcieLinkLoss port s
  | .shutdownNotification port => Sys2Proof.Machine.execShutdownNotification port s
  | .shutdownComplete port => Sys2Proof.Machine.execShutdownComplete port s
  | .sqTailDoorbell port sqid tail cnt => Sys2Proof.Machine.execSqTailDoorbell port sqid tail cnt s
  | .cqHeadDoorbell port cqid head => Sys2Proof.Machine.execCqHeadDoorbell port cqid head s
  | .registerWrite port reg value hwSet => Sys2Proof.Machine.execRegisterWrite port reg value hwSet s
  | .commandFetch e => Sys2Proof.Machine.execCommandFetch e s
  | .frameTick => Sys2Proof.Machine.execFrameTick s
  | .frameStartMarker frond card low phase => Sys2Proof.Machine.execFrameStartMarker frond card low phase s
  | .markerMissing frond => Sys2Proof.Machine.execMarkerMissing frond s
  | .markerLost frond => Sys2Proof.Machine.execMarkerLost frond s
  | .mediaRequest req cnt => Sys2Proof.Machine.execMediaRequest req cnt s
  | .planClose frond => Sys2Proof.Machine.execPlanClose frond s
  | .framePlanFix frond cnt => Sys2Proof.Machine.execFramePlanFix frond cnt s
  | .framePlanMessage card frond alive crcOk => Sys2Proof.Machine.execFramePlanMessage card frond alive crcOk s
  | .planLate frond cnt => Sys2Proof.Machine.execPlanLate frond cnt s
  | .suspendPoint die => Sys2Proof.Machine.execSuspendPoint die s
  | .segmentCheck die ready => Sys2Proof.Machine.execSegmentCheck die ready s
  | .readCheck die plane cnt ended => Sys2Proof.Machine.execReadCheck die plane cnt ended s
  | .channelPlanOverrun chan dropped => Sys2Proof.Machine.execChannelPlanOverrun chan dropped s
  | .channelCapRestore chan => Sys2Proof.Machine.execChannelCapRestore chan s
  | .quarantineLift die => Sys2Proof.Machine.execQuarantineLift die s
  | .senseEnd die plane => Sys2Proof.Machine.execSenseEnd die plane s
  | .dataOutEnd req => Sys2Proof.Machine.execDataOutEnd req s
  | .decodeResult req tier bad cbc cnt => Sys2Proof.Machine.execDecodeResult req tier bad cbc cnt s
  | .streamEngineUnit card engine => Sys2Proof.Machine.execStreamEngineUnit card engine s
  | .reconstructionDone piece => Sys2Proof.Machine.execReconstructionDone piece s
  | .readPieceDelivery piece => Sys2Proof.Machine.execReadPieceDelivery piece s
  | .commandDeadline cmd => Sys2Proof.Machine.execCommandDeadline cmd s
  | .engineWatchdog engine => Sys2Proof.Machine.execEngineWatchdog engine s
  | .programStatusReport prog pass => Sys2Proof.Machine.execProgramStatusReport prog pass s
  | .packWaitExpiry frond => Sys2Proof.Machine.execPackWaitExpiry frond s
  | .foldHoldExpiry slot pos row => Sys2Proof.Machine.execFoldHoldExpiry slot pos row s
  | .qlcProgramDone report => Sys2Proof.Machine.execQlcProgramDone report s
  | .foldVerifyDone die within => Sys2Proof.Machine.execFoldVerifyDone die within s
  | .memberTableProgram frond => Sys2Proof.Machine.execMemberTableProgram frond s
  | .accumulatorRecomputeDone nsid zone => Sys2Proof.Machine.execAccumulatorRecomputeDone nsid zone s
  | .fullWaitExpiry cmd => Sys2Proof.Machine.execFullWaitExpiry cmd s
  | .eraseDone die pass => Sys2Proof.Machine.execEraseDone die pass s
  | .eraseJournalRecord frond => Sys2Proof.Machine.execEraseJournalRecord frond s
  | .dieResetTimeout die => Sys2Proof.Machine.execDieResetTimeout die s
  | .channelRetrainDue chan => Sys2Proof.Machine.execChannelRetrainDue chan s
  | .channelTrainingEnd chan failed eye temp => Sys2Proof.Machine.execChannelTrainingEnd chan failed eye temp s
  | .refreshDone die block => Sys2Proof.Machine.execRefreshDone die block s
  | .scrubDue die block => Sys2Proof.Machine.execScrubDue die block s
  | .readOffsetRecalibration die group offsets => Sys2Proof.Machine.execReadOffsetRecalibration die group offsets s
  | .rebuildStripeDone slot pos => Sys2Proof.Machine.execRebuildStripeDone slot pos s
  | .zoneOpenWaitExpiry cmd => Sys2Proof.Machine.execZoneOpenWaitExpiry cmd s
  | .allocatorRequest nsid zone cls => Sys2Proof.Machine.execAllocatorRequest nsid zone cls s
  | .gcVictimRelease slot => Sys2Proof.Machine.execGcVictimRelease slot s
  | .gcWriteWaitExpiry cmd => Sys2Proof.Machine.execGcWriteWaitExpiry cmd s
  | .mapJournalProgrammed card => Sys2Proof.Machine.execMapJournalProgrammed card s
  | .mapPageRead nsid page => Sys2Proof.Machine.execMapPageRead nsid page s
  | .checkpointStart card => Sys2Proof.Machine.execCheckpointStart card s
  | .checkpointComplete card => Sys2Proof.Machine.execCheckpointComplete card s
  | .rangeLockGrant cmd => Sys2Proof.Machine.execRangeLockGrant cmd s
  | .rangeLockTimeout cmd => Sys2Proof.Machine.execRangeLockTimeout cmd s
  | .spikeletSearch card profile key mask => Sys2Proof.Machine.execSpikeletSearch card profile key mask s
  | .spikeletUpdate card pos entry => Sys2Proof.Machine.execSpikeletUpdate card pos entry s
  | .spikeletShadowCompare card bank faulty => Sys2Proof.Machine.execSpikeletShadowCompare card bank faulty s
  | .bufferRequest card pool count engine => Sys2Proof.Machine.execBufferRequest card pool count engine s
  | .bufferDeferralExpiry cmd => Sys2Proof.Machine.execBufferDeferralExpiry cmd s
  | .referenceDecrement card handle consumers engine => Sys2Proof.Machine.execReferenceDecrement card handle consumers engine s
  | .fence card source => Sys2Proof.Machine.execFence card source s
  | .dramCorrectedError card rank => Sys2Proof.Machine.execDramCorrectedError card rank s
  | .dramUncorrectableError card rank line => Sys2Proof.Machine.execDramUncorrectableError card rank line s
  | .poisonRead card line use => Sys2Proof.Machine.execPoisonRead card line use s
  | .rankRetrainDue card rank => Sys2Proof.Machine.execRankRetrainDue card rank s
  | .rankCopyDone card => Sys2Proof.Machine.execRankCopyDone card s
  | .rankTrainingEnd card pass eye temp => Sys2Proof.Machine.execRankTrainingEnd card pass eye temp s
  | .rankMigrationDone card => Sys2Proof.Machine.execRankMigrationDone card s
  | .checkUnitCombine card unit value bytes => Sys2Proof.Machine.execCheckUnitCombine card unit value bytes s
  | .checkContextLoad card unit load => Sys2Proof.Machine.execCheckContextLoad card unit load s
  | .heartbeat card hb => Sys2Proof.Machine.execHeartbeat card hb s
  | .heartbeatMissed card => Sys2Proof.Machine.execHeartbeatMissed card s
  | .takeoverComplete card => Sys2Proof.Machine.execTakeoverComplete card s
  | .fenceReceived frond fenced => Sys2Proof.Machine.execFenceReceived frond fenced s
  | .cardPresentOpen card => Sys2Proof.Machine.execCardPresentOpen card s
  | .rhizomeLaneLoss trainsOn8 => Sys2Proof.Machine.execRhizomeLaneLoss trainsOn8 s
  | .mirrorRecord card msn => Sys2Proof.Machine.execMirrorRecord card msn s
  | .mirrorAck card msn => Sys2Proof.Machine.execMirrorAck card msn s
  | .mirrorAckTimeout card msn => Sys2Proof.Machine.execMirrorAckTimeout card msn s
  | .forwardedCommand cmd epoch => Sys2Proof.Machine.execForwardedCommand cmd epoch s
  | .pieceList cmd => Sys2Proof.Machine.execPieceList cmd s
  | .ownershipTransfer group dest => Sys2Proof.Machine.execOwnershipTransfer group dest s
  | .ownershipCopyDone group => Sys2Proof.Machine.execOwnershipCopyDone group s
  | .cardEnterService card => Sys2Proof.Machine.execCardEnterService card s
  | .tickMasterHandover => Sys2Proof.Machine.execTickMasterHandover s
  | .cardStartAlone card rootEpoch => Sys2Proof.Machine.execCardStartAlone card rootEpoch s
  | .cardStart card failedUnits activeOk otherOk => Sys2Proof.Machine.execCardStart card failedUnits activeOk otherOk s
  | .culmLinkUp port nbrPos nbrPort lanes => Sys2Proof.Machine.execCulmLinkUp port nbrPos nbrPort lanes s
  | .culmPortDown port => Sys2Proof.Machine.execCulmPortDown port s
  | .culmRetrain port trained => Sys2Proof.Machine.execCulmRetrain port trained s
  | .rachis port hdr sfc leadEpoch leadPos correction arrival => Sys2Proof.Machine.execRachis port hdr sfc leadEpoch leadPos correction arrival s
  | .tickIoPulse own => Sys2Proof.Machine.execTickIoPulse own s
  | .tickIoFallback offset => Sys2Proof.Machine.execTickIoFallback offset s
  | .tickIoDriveResume => Sys2Proof.Machine.execTickIoDriveResume s
  | .delayReq port hdr sent recv => Sys2Proof.Machine.execDelayReq port hdr sent recv s
  | .delayRsp port hdr reqSent reqRecv rspSent rspRecv => Sys2Proof.Machine.execDelayRsp port hdr reqSent reqRecv rspSent rspRecv s
  | .delayMeasure port => Sys2Proof.Machine.execDelayMeasure port s
  | .hello port hdr msg => Sys2Proof.Machine.execHello port hdr msg s
  | .census port hdr heard => Sys2Proof.Machine.execCensus port hdr heard s
  | .censusExpiry pos => Sys2Proof.Machine.execCensusExpiry pos s
  | .leadLost => Sys2Proof.Machine.execLeadLost s
  | .handover hdr successor switchSfc => Sys2Proof.Machine.execHandover hdr successor switchSfc s
  | .handoverSwitch => Sys2Proof.Machine.execHandoverSwitch s
  | .demandSend => Sys2Proof.Machine.execDemandSend s
  | .demand hdr base want cap => Sys2Proof.Machine.execDemand hdr base want cap s
  | .grantCompute => Sys2Proof.Machine.execGrantCompute s
  | .grant hdr epoch budget ovr shares => Sys2Proof.Machine.execGrant hdr epoch budget ovr shares s
  | .grantStale => Sys2Proof.Machine.execGrantStale s
  | .plan hdr planGen firstEpoch body => Sys2Proof.Machine.execPlan hdr planGen firstEpoch body s
  | .planAck hdr planGen => Sys2Proof.Machine.execPlanAck hdr planGen s
  | .planResend => Sys2Proof.Machine.execPlanResend s
  | .sheafEvent hdr records => Sys2Proof.Machine.execSheafEvent hdr records s
  | .eventAck hdr last => Sys2Proof.Machine.execEventAck hdr last s
  | .sporeOffer hdr relayId length spores action originator chain => Sys2Proof.Machine.execSporeOffer hdr relayId length spores action originator chain s
  | .sporeData port hdr relayId index piece bytes chain => Sys2Proof.Machine.execSporeData port hdr relayId index piece bytes chain s
  | .sporeConfirm hdr relayId highest state reason => Sys2Proof.Machine.execSporeConfirm hdr relayId highest state reason s
  | .sporeMissing index => Sys2Proof.Machine.execSporeMissing index s
  | .sporeResend port hdr relayId index => Sys2Proof.Machine.execSporeResend port hdr relayId index s
  | .relayActivate hdr relayId => Sys2Proof.Machine.execRelayActivate hdr relayId s
  | .activateDone hdr relayId result => Sys2Proof.Machine.execActivateDone hdr relayId result s
  | .activationTimeout => Sys2Proof.Machine.execActivationTimeout s
  | .relayEnd hdr relayId result => Sys2Proof.Machine.execRelayEnd hdr relayId result s
  | .nonceExpiry nonce => Sys2Proof.Machine.execNonceExpiry nonce s
  | .handleExpiry handle => Sys2Proof.Machine.execHandleExpiry handle s
  | .attestationSignature => Sys2Proof.Machine.execAttestationSignature s
  | .slotWriteDone card => Sys2Proof.Machine.execSlotWriteDone card s
  | .filnasUpdate frond => Sys2Proof.Machine.execFilnasUpdate frond s
  | .filnasUpdateTimeout frond => Sys2Proof.Machine.execFilnasUpdateTimeout frond s
  | .healthConfirm card => Sys2Proof.Machine.execHealthConfirm card s
  | .healthWindowExpiry card => Sys2Proof.Machine.execHealthWindowExpiry card s
  | .eventIntake code cls source obj arg0 arg1 arg2 cnt => Sys2Proof.Machine.execEventIntake code cls source obj arg0 arg1 arg2 cnt s
  | .recorderProgramEnd => Sys2Proof.Machine.execRecorderProgramEnd s
  | .eventRefill => Sys2Proof.Machine.execEventRefill s
  | .recorderCopyDone card => Sys2Proof.Machine.execRecorderCopyDone card s
  | .feedStart peu => Sys2Proof.Machine.execFeedStart peu s
  | .feedUnderVoltage peu => Sys2Proof.Machine.execFeedUnderVoltage peu s
  | .holdUpExpiry peu => Sys2Proof.Machine.execHoldUpExpiry peu s
  | .feedOverVoltage peu => Sys2Proof.Machine.execFeedOverVoltage peu s
  | .overVoltageRecovery peu => Sys2Proof.Machine.execOverVoltageRecovery peu s
  | .reversePolarity peu => Sys2Proof.Machine.execReversePolarity peu s
  | .openReturn peu => Sys2Proof.Machine.execOpenReturn peu s
  | .inputShort peu => Sys2Proof.Machine.execInputShort peu s
  | .outputOverCurrent peu => Sys2Proof.Machine.execOutputOverCurrent peu s
  | .hiccupRestart peu => Sys2Proof.Machine.execHiccupRestart peu s
  | .peuOverTemperature peu => Sys2Proof.Machine.execPeuOverTemperature peu s
  | .peuTemperatureRecovery peu => Sys2Proof.Machine.execPeuTemperatureRecovery peu s
  | .peuStatusSend peu meas => Sys2Proof.Machine.execPeuStatusSend peu meas s
  | .peuStatus card peu alive crcOk st => Sys2Proof.Machine.execPeuStatus card peu alive crcOk st s
  | .alarm card peu alive faults vin st => Sys2Proof.Machine.execAlarm card peu alive faults vin st s
  | .statusSilence card peu => Sys2Proof.Machine.execStatusSilence card peu s
  | .capacityFallback => Sys2Proof.Machine.execCapacityFallback s
  | .cardStatus peu card alive crcOk => Sys2Proof.Machine.execCardStatus peu card alive crcOk s
  | .outputEnable peu m => Sys2Proof.Machine.execOutputEnable peu m s
  | .outputDisable peu m => Sys2Proof.Machine.execOutputDisable peu m s
  | .currentLimitSet peu m limit => Sys2Proof.Machine.execCurrentLimitSet peu m limit s
  | .marginSet peu m margin => Sys2Proof.Machine.execMarginSet peu m margin s
  | .imageBlock peu m offset bytes => Sys2Proof.Machine.execImageBlock peu m offset bytes s
  | .imageEnd peu m length sha => Sys2Proof.Machine.execImageEnd peu m length sha s
  | .imageActivate peu m => Sys2Proof.Machine.execImageActivate peu m s
  | .peuActivateRetry peu => Sys2Proof.Machine.execPeuActivateRetry peu s
  | .peuUpdatingTimeout peu => Sys2Proof.Machine.execPeuUpdatingTimeout peu s
  | .calRead peu m index => Sys2Proof.Machine.execCalRead peu m index s
  | .calWrite peu m index value => Sys2Proof.Machine.execCalWrite peu m index value s
  | .barrierUnknownType peu atPeu m type => Sys2Proof.Machine.execBarrierUnknownType peu atPeu m type s
  | .ackNak card peu type alive result data => Sys2Proof.Machine.execAckNak card peu type alive result data s
  | .barrierCommandTimeout peu => Sys2Proof.Machine.execBarrierCommandTimeout peu s
  | .fuseTrip slot => Sys2Proof.Machine.execFuseTrip slot s
  | .fuseRetry slot => Sys2Proof.Machine.execFuseRetry slot s
  | .fuseHoldReset slot => Sys2Proof.Machine.execFuseHoldReset slot s
  | .sensorSlowRound readings => Sys2Proof.Machine.execSensorSlowRound readings s
  | .thermalShutdown sensor => Sys2Proof.Machine.execThermalShutdown sensor s
  | .sensorBroken sensor => Sys2Proof.Machine.execSensorBroken sensor s
  | .sensorValidAgain sensor => Sys2Proof.Machine.execSensorValidAgain sensor s
  | .entryDelayExpiry block => Sys2Proof.Machine.execEntryDelayExpiry block s
  | .powerStateExitDone => Sys2Proof.Machine.execPowerStateExitDone s
  | .regulatorAck reg => Sys2Proof.Machine.execRegulatorAck reg s
  | .regulatorTimeout reg => Sys2Proof.Machine.execRegulatorTimeout reg s
  | .oscillatorTimeout card => Sys2Proof.Machine.execOscillatorTimeout card s
  | .frondPresentClose frond => Sys2Proof.Machine.execFrondPresentClose frond s
  | .frondSettled frond ident => Sys2Proof.Machine.execFrondSettled frond ident s
  | .frondAcceptance frond => Sys2Proof.Machine.execFrondAcceptance frond s
  | .frondPresentOpen frond => Sys2Proof.Machine.execFrondPresentOpen frond s
  | .prepareProgramCut frond => Sys2Proof.Machine.execPrepareProgramCut frond s
  | .prepareComplete frond => Sys2Proof.Machine.execPrepareComplete frond s
  | .cardPresentClose card ident => Sys2Proof.Machine.execCardPresentClose card ident s
  | .svcButtonHold card => Sys2Proof.Machine.execSvcButtonHold card s
  | .peuPresentOpen peu => Sys2Proof.Machine.execPeuPresentOpen peu s
  | .peuPresentClose peu ident code => Sys2Proof.Machine.execPeuPresentClose peu ident code s
  | .rdmaAck qp psn cnt => Sys2Proof.Machine.execRdmaAck qp psn cnt s
  | .nakSequenceError qp psn => Sys2Proof.Machine.execNakSequenceError qp psn s
  | .nakRemoteAccessError qp => Sys2Proof.Machine.execNakRemoteAccessError qp s
  | .nakRemoteOperationalError qp => Sys2Proof.Machine.execNakRemoteOperationalError qp s
  | .rdmaReadResponse qp psn ce cnt bytes => Sys2Proof.Machine.execRdmaReadResponse qp psn ce cnt bytes s
  | .cnpReceived qp => Sys2Proof.Machine.execCnpReceived qp s
  | .rateRecover qp => Sys2Proof.Machine.execRateRecover qp s
  | .ackTimeout qp => Sys2Proof.Machine.execAckTimeout qp s
  | .invalidRequestPacket bulk qp psn opcode => Sys2Proof.Machine.execInvalidRequestPacket bulk qp psn opcode s
  | .arpRequest bulk target senderMac senderIp => Sys2Proof.Machine.execArpRequest bulk target senderMac senderIp s
  | .neighborSolicitation bulk target sender => Sys2Proof.Machine.execNeighborSolicitation bulk target sender s
  | .pfcFrame bulk prio quanta => Sys2Proof.Machine.execPfcFrame bulk prio quanta s
  | .pfcPauseEnd bulk => Sys2Proof.Machine.execPfcPauseEnd bulk s
  | .otherFrame bulk => Sys2Proof.Machine.execOtherFrame bulk s
  | .bulkLinkDownExpiry bulk => Sys2Proof.Machine.execBulkLinkDownExpiry bulk s
  | .smbusBlockRead offset => Sys2Proof.Machine.execSmbusBlockRead offset s
  | .setEndpointId eid => Sys2Proof.Machine.execSetEndpointId eid s
  | .getEndpointId => Sys2Proof.Machine.execGetEndpointId s
  | .getEndpointUuid => Sys2Proof.Machine.execGetEndpointUuid s
  | .getMctpVersionSupport msgType => Sys2Proof.Machine.execGetMctpVersionSupport msgType s
  | .getMessageTypeSupport => Sys2Proof.Machine.execGetMessageTypeSupport s
  | .mctpUnsupportedControl command => Sys2Proof.Machine.execMctpUnsupportedControl command s
  | .readNvmeMiDataStructure dtyp sel => Sys2Proof.Machine.execReadNvmeMiDataStructure dtyp sel s
  | .nvmSubsystemHealthStatusPoll clear => Sys2Proof.Machine.execNvmSubsystemHealthStatusPoll clear s
  | .controllerHealthStatusPoll => Sys2Proof.Machine.execControllerHealthStatusPoll s
  | .configurationGet ident => Sys2Proof.Machine.execConfigurationGet ident s
  | .configurationSet ident value => Sys2Proof.Machine.execConfigurationSet ident value s
  | .vpdRead offset length => Sys2Proof.Machine.execVpdRead offset length s
  | .miAdminIdentify e => Sys2Proof.Machine.execMiAdminIdentify e s
  | .miAdminGetLogPage e => Sys2Proof.Machine.execMiAdminGetLogPage e s
  | .miAdminGetFeatures e => Sys2Proof.Machine.execMiAdminGetFeatures e s
  | .miUnsupportedCommand admin opcode => Sys2Proof.Machine.execMiUnsupportedCommand admin opcode s
  | .createIoSubmissionQueue e => Sys2Proof.Machine.execCreateIoSubmissionQueue e s
  | .createIoCompletionQueue e => Sys2Proof.Machine.execCreateIoCompletionQueue e s
  | .deleteIoSubmissionQueue e => Sys2Proof.Machine.execDeleteIoSubmissionQueue e s
  | .deleteIoCompletionQueue e => Sys2Proof.Machine.execDeleteIoCompletionQueue e s
  | .identify e => Sys2Proof.Machine.execIdentify e s
  | .abort e => Sys2Proof.Machine.execAbort e s
  | .asynchronousEventRequest e => Sys2Proof.Machine.execAsynchronousEventRequest e s
  | .getFeatures e => Sys2Proof.Machine.execGetFeatures e s
  | .getLogErrorInformation e => Sys2Proof.Machine.execGetLogErrorInformation e s
  | .getLogSmartHealth e => Sys2Proof.Machine.execGetLogSmartHealth e s
  | .getLogFirmwareSlot e => Sys2Proof.Machine.execGetLogFirmwareSlot e s
  | .getLogStandard e => Sys2Proof.Machine.execGetLogStandard e s
  | .getLogModuleRecorder e => Sys2Proof.Machine.execGetLogModuleRecorder e s
  | .getLogFrondEvents e => Sys2Proof.Machine.execGetLogFrondEvents e s
  | .getLogFrameStatistics e => Sys2Proof.Machine.execGetLogFrameStatistics e s
  | .getLogStripeHealth e => Sys2Proof.Machine.execGetLogStripeHealth e s
  | .getLogBlockWear e => Sys2Proof.Machine.execGetLogBlockWear e s
  | .getLogMediaReadHealth e => Sys2Proof.Machine.execGetLogMediaReadHealth e s
  | .getLogSeedbedStatus e => Sys2Proof.Machine.execGetLogSeedbedStatus e s
  | .getLogSliceTable e => Sys2Proof.Machine.execGetLogSliceTable e s
  | .getLogPowerThermal e => Sys2Proof.Machine.execGetLogPowerThermal e s
  | .getLogSheafStatus e => Sys2Proof.Machine.execGetLogSheafStatus e s
  | .getLogBufferDramHealth e => Sys2Proof.Machine.execGetLogBufferDramHealth e s
  | .getLogSecurityState e => Sys2Proof.Machine.execGetLogSecurityState e s
  | .getLogAttestation e => Sys2Proof.Machine.execGetLogAttestation e s
  | .invalidLogPage e => Sys2Proof.Machine.execInvalidLogPage e s
  | .setFeaturesArbitration e => Sys2Proof.Machine.execSetFeaturesArbitration e s
  | .setFeaturesPowerManagement e => Sys2Proof.Machine.execSetFeaturesPowerManagement e s
  | .setFeaturesTemperatureThreshold e => Sys2Proof.Machine.execSetFeaturesTemperatureThreshold e s
  | .setFeaturesNumberOfQueues e => Sys2Proof.Machine.execSetFeaturesNumberOfQueues e s
  | .setFeaturesInterruptCoalescing e => Sys2Proof.Machine.execSetFeaturesInterruptCoalescing e s
  | .setFeaturesInterruptVector e => Sys2Proof.Machine.execSetFeaturesInterruptVector e s
  | .setFeaturesAsyncEventConfig e => Sys2Proof.Machine.execSetFeaturesAsyncEventConfig e s
  | .setFeaturesTimestamp e => Sys2Proof.Machine.execSetFeaturesTimestamp e s
  | .setFeaturesVolatileWriteCache e => Sys2Proof.Machine.execSetFeaturesVolatileWriteCache e s
  | .setFeaturesUnsupported e => Sys2Proof.Machine.execSetFeaturesUnsupported e s
  | .setFeaturesFrameParameters e => Sys2Proof.Machine.execSetFeaturesFrameParameters e s
  | .setFeaturesThermalThrottlePoints e => Sys2Proof.Machine.execSetFeaturesThermalThrottlePoints e s
  | .setFeaturesMediaPowerBudget e => Sys2Proof.Machine.execSetFeaturesMediaPowerBudget e s
  | .setFeaturesEventRateLimit e => Sys2Proof.Machine.execSetFeaturesEventRateLimit e s
  | .setFeaturesScrubPolicy e => Sys2Proof.Machine.execSetFeaturesScrubPolicy e s
  | .setFeaturesDramInterleaveGrain e => Sys2Proof.Machine.execSetFeaturesDramInterleaveGrain e s
  | .setFeaturesBulkPort e => Sys2Proof.Machine.execSetFeaturesBulkPort e s
  | .setFeaturesDeadlineMissPolicy e => Sys2Proof.Machine.execSetFeaturesDeadlineMissPolicy e s
  | .setFeaturesSeedbedPolicy e => Sys2Proof.Machine.execSetFeaturesSeedbedPolicy e s
  | .namespaceCreate e => Sys2Proof.Machine.execNamespaceCreate e s
  | .namespaceDelete e => Sys2Proof.Machine.execNamespaceDelete e s
  | .namespaceAttach e => Sys2Proof.Machine.execNamespaceAttach e s
  | .namespaceDetach e => Sys2Proof.Machine.execNamespaceDetach e s
  | .firmwareImageDownload e => Sys2Proof.Machine.execFirmwareImageDownload e s
  | .firmwareCommitReplace e => Sys2Proof.Machine.execFirmwareCommitReplace e s
  | .firmwareCommitNextStart e => Sys2Proof.Machine.execFirmwareCommitNextStart e s
  | .firmwareCommitActivateSlot e => Sys2Proof.Machine.execFirmwareCommitActivateSlot e s
  | .firmwareCommitImmediate e => Sys2Proof.Machine.execFirmwareCommitImmediate e s
  | .formatNvm e => Sys2Proof.Machine.execFormatNvm e s
  | .sanitize e => Sys2Proof.Machine.execSanitize e s
  | .flush e => Sys2Proof.Machine.execFlush e s
  | .write e => Sys2Proof.Machine.execWrite e s
  | .read e => Sys2Proof.Machine.execRead e s
  | .writeZeroes e => Sys2Proof.Machine.execWriteZeroes e s
  | .datasetManagement e => Sys2Proof.Machine.execDatasetManagement e s
  | .verify e => Sys2Proof.Machine.execVerify e s
  | .copy e => Sys2Proof.Machine.execCopy e s
  | .zoneOpen e => Sys2Proof.Machine.execZoneOpen e s
  | .zoneClose e => Sys2Proof.Machine.execZoneClose e s
  | .zoneFinish e => Sys2Proof.Machine.execZoneFinish e s
  | .zoneReset e => Sys2Proof.Machine.execZoneReset e s
  | .zoneOffline e => Sys2Proof.Machine.execZoneOffline e s
  | .setZoneDescriptorExtension e => Sys2Proof.Machine.execSetZoneDescriptorExtension e s
  | .reportZones e => Sys2Proof.Machine.execReportZones e s
  | .zoneAppend e => Sys2Proof.Machine.execZoneAppend e s
  | .unsupportedOpcode e => Sys2Proof.Machine.execUnsupportedOpcode e s
  | .sliceCreate e => Sys2Proof.Machine.execSliceCreate e s
  | .sliceDelete e => Sys2Proof.Machine.execSliceDelete e s
  | .sliceReset e => Sys2Proof.Machine.execSliceReset e s
  | .sliceFreeze e => Sys2Proof.Machine.execSliceFreeze e s
  | .sliceThaw e => Sys2Proof.Machine.execSliceThaw e s
  | .sliceStateSave e => Sys2Proof.Machine.execSliceStateSave e s
  | .sliceStateRestore e => Sys2Proof.Machine.execSliceStateRestore e s
  | .queueResume e => Sys2Proof.Machine.execQueueResume e s
  | .shareSet e => Sys2Proof.Machine.execShareSet e s
  | .spikeletRuleWrite e => Sys2Proof.Machine.execSpikeletRuleWrite e s
  | .spikeletRuleRead e => Sys2Proof.Machine.execSpikeletRuleRead e s
  | .winnowProgramLoad e => Sys2Proof.Machine.execWinnowProgramLoad e s
  | .winnowRead e => Sys2Proof.Machine.execWinnowRead e s
  | .zoneDigest e => Sys2Proof.Machine.execZoneDigest e s
  | .bulkRead e => Sys2Proof.Machine.execBulkRead e s
  | .bulkAppend e => Sys2Proof.Machine.execBulkAppend e s
  | .bulkEndpointSet e => Sys2Proof.Machine.execBulkEndpointSet e s
  | .authorizationSubmitToken e => Sys2Proof.Machine.execAuthorizationSubmitToken e s
  | .issueNonce e => Sys2Proof.Machine.execIssueNonce e s
  | .guardLevelChange e => Sys2Proof.Machine.execGuardLevelChange e s
  | .eventClearFrond e => Sys2Proof.Machine.execEventClearFrond e s
  | .eventClearModule e => Sys2Proof.Machine.execEventClearModule e s
  | .prepareRemoval e => Sys2Proof.Machine.execPrepareRemoval e s
  | .cancelPrepare e => Sys2Proof.Machine.execCancelPrepare e s
  | .declareLost e => Sys2Proof.Machine.execDeclareLost e s
  | .setRebuildRate e => Sys2Proof.Machine.execSetRebuildRate e s
  | .locateLedOn e => Sys2Proof.Machine.execLocateLedOn e s
  | .locateLedOff e => Sys2Proof.Machine.execLocateLedOff e s
  | .enableCulmPorts e => Sys2Proof.Machine.execEnableCulmPorts e s
  | .disableCulmPorts e => Sys2Proof.Machine.execDisableCulmPorts e s
  | .handOverLead e => Sys2Proof.Machine.execHandOverLead e s
  | .setShelfPowerBudget e => Sys2Proof.Machine.execSetShelfPowerBudget e s
  | .sheafPhasePlanSet e => Sys2Proof.Machine.execSheafPhasePlanSet e s
  | .peuEnableOutput e => Sys2Proof.Machine.execPeuEnableOutput e s
  | .peuDisableOutput e => Sys2Proof.Machine.execPeuDisableOutput e s
  | .peuSetCurrentLimit e => Sys2Proof.Machine.execPeuSetCurrentLimit e s
  | .peuSetMargin e => Sys2Proof.Machine.execPeuSetMargin e s
  | .culmLaneLoss port => Sys2Proof.Machine.execCulmLaneLoss port s
  | .bulkLinkDown bulk => Sys2Proof.Machine.execBulkLinkDown bulk s
  | .bulkLinkUp bulk => Sys2Proof.Machine.execBulkLinkUp bulk s
  | .pcieLinkUp port => Sys2Proof.Machine.execPcieLinkUp port s
  | .feedReturnWithinHoldUp peu => Sys2Proof.Machine.execFeedReturnWithinHoldUp peu s
  | .recorderSectorEraseDone => Sys2Proof.Machine.execRecorderSectorEraseDone s

end Sys2Proof.Machine
end

