-- ==== Sys2Proof/Safety.lean ====
section
/-! DEFINITION. What counts as a safe run of the block: a step answers a next state, time does not run backwards, and the
queue of waiting commands is consumed from its front alone. -/
namespace Sys2Proof.Machine
open Sys2Proof

/-- (EP, FC) orders all time of a module (R17). -/
def State.timeLe (s t : State) : Prop :=
  s.time.ep < t.time.ep ∨ (s.time.ep = t.time.ep ∧ s.time.fc ≤ t.time.fc)

/-- The step of a state is a next state. -/
def State.runs (s : State) : Prop := ∃ t, step s = .next t

/-- The completion of a command entry with success (R167). -/
def cqeOf (e : Sqe) (dw0 : Nat) (data : List Byte) : Cqe := { port := e.port, sqid := e.sqid, cid := e.cid, dw0 := dw0, data := data }
/-- From s to t one completion is posted, success of entry e with Dword 0 and data. -/
def State.replies (s t : State) (e : Sqe) (dw0 : Nat) (data : List Byte) : Prop := t.cqes = s.cqes ++ [cqeOf e dw0 data]
/-- From s to t a change record of opcode and what is queued for entry e with outcome success (R348, R375), and the
completion of e with success waits for it to be written. -/
def State.records (s t : State) (e : Sqe) (opc what dw0 : Nat) : Prop :=
  ∃ r : EventRec, t.events.changeQ = s.events.changeQ ++ [(r, some { cqeOf e dw0 [] with nsid := e.nsid })] ∧ r.code = 0x10 ∧ r.cls = 3 ∧
    r.fc = s.time.fc ∧ r.ep = s.time.ep ∧ r.count = e.cnt ∧
    r.data = changeData opc what 1 (portNo e.port) 0 0 0 (tget [] s.sec.keyIds (portNo e.port * 65536 + e.cid))
/-- Beside that record, the event intake, the security state and time are as before, but for the count within
the frame; the key that a token brought for the record is used up. -/
def State.recordsOnly (s t : State) (e : Sqe) (opc what dw0 : Nat) : Prop :=
  s.records t e opc what dw0 ∧ { t.events with changeQ := s.events.changeQ } = s.events ∧
  t.sec = { s.sec with keyIds := tdel s.sec.keyIds (portNo e.port * 65536 + e.cid) } ∧
  t.time = { s.time with count := e.cnt }
/-- An entry of the admin queue that the module serves at once: its data pointer is of the PRP kind (R159), its controller is served (R174, R427, R430), the module is in
an operating power state and moves to no other (R408), no guard level change or Sanitize runs (R333), every namespace is
ready (R428), the guard level asks no token (R344) and a change record has room (R349). -/
def State.admits (s : State) (e : Sqe) : Bool :=
  e.sqid == 0 && decide (e.cid < 65536) && e.psdt == 0 && adminOpen s e.port && decide (s.power.ps ≤ 2) && s.power.entry.isNone && s.power.exit.isNone
    && s.sec.running.isNone && s.pair.handTo.isNone && (s.nss.all fun n => !n.2.used || n.2.ready) && s.sec.level != 2 && changeRoom s

/-- A PEU takes a message: it is present and the message passes the check of its link (R274, R395). -/
def State.peuTakes (s : State) (p : PeuId) (m : BarrierCmd) : Bool :=
  let x := peuAt s p
  x.present && x.keltan && m.crcOk && (match m.card with | .ca => x.rxA | .cb => x.rxB) != some m.alive
/-- Two PEU records agree but for the bookkeeping of their links. -/
def peuLike (x y : Peu) : Prop :=
  { x with rxA := y.rxA, rxB := y.rxB, heardA := y.heardA, heardB := y.heardB, txA := y.txA, txB := y.txB } = y
/-- From s to t a PEU answers a message and becomes x but for its links' bookkeeping; nothing else changes. -/
def State.peuAnswers (s t : State) (p : PeuId) (m : BarrierCmd) (type result data : Nat) (x : Peu) : Prop :=
  t.tx = s.tx ++ [.peuAck p m.card type m.alive.toNat result data] ∧ peuLike (peuAt t p) x ∧ peuAt t (otherPeu p) = peuAt s (otherPeu p) ∧
  { t with power := s.power, tx := s.tx } = s ∧ { t.power with peuA := s.power.peuA, peuB := s.power.peuB } = s.power
/-- From s to t only PEU p changes, and becomes x. -/
def State.peuBecomes (s t : State) (p : PeuId) (x : Peu) : Prop := t = updPeu p (fun _ => x) s

/-- The keys of a table rise strictly: its canonical form, in which each key is listed once. -/
def rising {α : Type} (t : Tbl α) : Bool := decide ((t.map Prod.fst).Pairwise (· < ·))
/-- Every table of the state is in its canonical form. -/
def State.canonical (s : State) : Bool :=
  rising s.fronds && rising s.chans && rising s.dies && rising s.blks && rising s.reqs && rising s.progs && rising s.cws && rising s.chunks && rising
  s.stripes && rising s.accums && rising s.nss && rising s.zones && rising s.map && rising s.pages && rising s.sqs && rising s.cqs && rising s.cmds &&
  rising s.pieces && rising s.slices && rising s.rules && rising s.qps && rising s.engines && rising s.metas.work && rising s.metas.places

/-- A fetched command as the row of entry e runs it. -/
def Cmd.runAs (c : Cmd) (e : Sqe) : Cmd := { c with e := e, kind := kindOf e.opc, lba := firstLba e, nlb := blocksOf e }
/-- Entry e stands fetched as the module's only I/O command, number k, at the card that owns its namespace; its data pointer
is of a kind the module accepts (R159); its controller, slice and namespace take it (R134, R171, R196, R288, R428). -/
structure State.runsAlone (s : State) (k : Nat) (c : Cmd) (e : Sqe) : Prop where
  canonical : s.canonical = true
  cmds : s.cmds = [(k, c)]
  fetched : c.st = .fetched ∧ c.fwd = none ∧ c.card = c.owner ∧ mustHold s c.card e.nsid = false
  entry : c.e.port = e.port ∧ c.e.sqid = e.sqid ∧ c.e.cid = e.cid ∧ e.sqid ≠ 0 ∧ e.cid < 65536 ∧ ptrErr e = none
  fresh : c.bufs = [] ∧ c.pieces = [] ∧ c.locks = [] ∧ c.cws = [] ∧ c.data = [] ∧ c.recs = 0 ∧ c.status = none ∧ c.missed = none ∧ c.tied = none
  answers : c.silent = false ∧ c.svc ≠ .bound ∧ superseded s c.slice c.gen = false ∧ (ctrlAt s e.port).link = true ∧ (ctrlAt s e.port).rdy = true
  namespaceOk : (nsAt s e.nsid).used = true ∧ (nsAt s e.nsid).ready = true ∧ (nsAt s e.nsid).slice = some c.slice ∧
    pget (nsAt s e.nsid).att (cardOf e.port) = true
  noWaiters : (∀ n ∈ s.nss, n.2.deleting = none) ∧ (∀ x ∈ s.slices, x.2.waiter = none)
/-- Nothing of the host's data or of any zone differs from s to t, beside the tables that a command's end clears. -/
def State.onlyEnds (s t : State) : Prop :=
  t.cmds = [] ∧ (∀ z, (zoneAt t z).st = (zoneAt s z).st ∧ (zoneAt t z).wp = (zoneAt s z).wp ∧ (zoneAt t z).slot = (zoneAt s z).slot) ∧
  { t with
    cqes := s.cqes, cmds := s.cmds, pieces := s.pieces, reqs := s.reqs, zones := s.zones, spA := s.spA, spB := s.spB, cqs := s.cqs, sqs := s.sqs, tx := s.tx,
    c0 := s.c0, c1 := s.c1, seA := s.seA, seB := s.seB, engines := s.engines, time := s.time } = s
/-- No frond's seedbed throttles or stops writes, the owner admits them, and no parity accumulator is lost (R117, R123, R421). -/
def State.seedbedFree (s : State) (owner : CardId) : Prop :=
  (cardAt s owner).writesOff = false ∧ s.feat.thrPct ≤ s.feat.fullPct ∧ (∀ f, fillPct (frondAt s f) < s.feat.thrPct) ∧ ∀ k, (accumAt s k).lost = false
/-- A transfer of so many bytes finds its buffers, within the part of its slice (R207, R256). -/
def State.buffersFor (s : State) (c : Cmd) (bytes : Nat) : Prop :=
  bytes = 0 ∨ (poolFor bytes).2 ≤ (poolAt s c.owner (poolFor bytes).1).free ∧
    (poolFor bytes).2 ≤ (sliceAt s c.slice).share.bufPct * poolSize (poolFor bytes).1 / 100

/-- No read piece and no codeword waits for its turn at a Quihar (R206). -/
def State.noTurns (s : State) : Prop := (∀ p ∈ s.pieces, p.2.turn = false) ∧ ∀ w ∈ s.cws, w.2.turn = false
/-- No read piece has failed. -/
def State.noFails (s : State) : Prop := ∀ p ∈ s.pieces, p.2.fail = 0

/-- From s to t at most the event intake and what posting asynchronous events touches differ. -/
def State.onlyTells (s t : State) : Prop := { t with events := s.events, c0 := s.c0, c1 := s.c1, cqes := s.cqes, tx := s.tx } = s
/-- From s to t at most what the release of a stripe touches differs (R101, R121, R141). -/
def State.onlyFrees (s t : State) : Prop :=
  s.onlyTells { t with
    pieces := s.pieces, reqs := s.reqs, cws := s.cws, chunks := s.chunks, accums := s.accums, seedbed := s.seedbed, rebuild := s.rebuild, blks := s.blks,
    dies := s.dies, fronds := s.fronds, stripes := s.stripes, memA := s.memA, memB := s.memB }
/-- The journal records that a zone write of n blocks at the write pointer brings: one of kind 2 where it opens a Closed zone,
one of kind 3 where it ends at the capacity (R136, R152). -/
def assignRecs (nsid k n : Nat) (p : Profile) (lba : Nat) (z : Zone) : List JRec :=
  (if z.st = .closed then [{ kind := 2, nsid := nsid, lba := lba, slot := z.slot.getD 0, offset := z.cls, cmd := some k }] else [])
    ++ if z.wp + n = capOf p then [{ kind := 3, nsid := nsid, lba := lba, slot := 1023, cmd := some k }] else []
/-- What a frond erases again or refreshes is of its own dies. -/
def State.keepsHome (s : State) (f : Frond) : Prop :=
  (∀ x ∈ (frondAt s f).erased, frondOfDie (x.1 / 4096) = f.val) ∧ ∀ r, (frondAt s f).refresh = some r → frondOfDie (r.2.1 / 4096) = f.val
/-- From s to t the journal of a card queues records; the other card's is as before. -/
def State.journals (s t : State) (c : CardId) (l : List JRec) : Prop :=
  jAt t c = { jAt s c with queue := (jAt s c).queue ++ l } ∧ jAt t (other c) = jAt s (other c)
/-- From s to t card c has sent its partner one mirror record that ties no command, and then the messages l (R286). -/
def State.mirrors (s t : State) (c : CardId) (l : List Tx) : Prop :=
  let u := mirror c [] { s with time := t.time }
  t.pair = u.pair ∧ t.tx = u.tx ++ l
/-- A frond once the queue of rebuild and fill has been looked through: one in rebuild or fill without a member in it is in service
(R106, R107). -/
def State.afterQueue (s : State) (g : Nat) : FrondSt :=
  let x := frondAt s g
  if g < 16 ∧ (x.state = 5 ∨ x.state = 6) ∧ ∀ m ∈ s.rebuild.queue, memberFrond (m / 16) (m % 16) ≠ g then { x with state := 0, goneFc := 0, goneEp := 0 } else x
/-- No slot waits for a fuse or a link engine to return its frond (R24, R401). -/
def State.noReturns (s : State) : Prop :=
  ∀ f < 16, ((frondAt s f).state = 9 → (fuseAt s f).off = true ∨ (frondAt s f).present = false) ∧
    ((frondAt s f).state = 3 → (frondAt s f).leGone = false)
/-- Nothing is on its way to or from the media, and no die, die-block or stripe slot differs from its default. -/
def State.quiet (s : State) : Prop :=
  s.reqs = [] ∧ s.progs = [] ∧ s.cws = [] ∧ s.chunks = [] ∧ s.cmds = [] ∧ s.pieces = [] ∧ s.dies = [] ∧ s.blks = [] ∧ s.stripes = [] ∧ s.metas.work = [] ∧ s.metas.places = []

/-- A culm message passes the check of its port, is new, and is for this module (R274, R306, R307). -/
def State.hears (s : State) (p : CulmPort) (h : CulmHdr) : Prop :=
  portUp s p = true ∧ h.crcOk = true ∧ some h.alive ≠ (culmAt s p).aliveRx ∧ h.src ≠ s.sheaf.pos ∧
  (h.bcast = true ∧ h.src * 65536 + h.seq ∉ s.sheaf.seen ∨ h.bcast = false ∧ h.dst = s.sheaf.pos)
/-- Two sheaf records agree but for their ports and the bookkeeping of messages. -/
def sheafLike (x y : Sheaf) : Prop := { x with u0 := y.u0, u1 := y.u1, seen := y.seen, seq := y.seq } = y
/-- Two port records agree but for the bookkeeping of messages. -/
def culmLike (x y : Culm) : Prop :=
  { x with aliveTx := y.aliveTx, aliveRx := y.aliveRx, sent := y.sent, received := y.received, forwarded := y.forwarded, downAt := y.downAt } = y
/-- From s to t both ports are alike, and beside the sheaf record only messages, their statistics and events differ. -/
def State.onlyCulm (s t : State) : Prop :=
  culmLike t.sheaf.u0 s.sheaf.u0 ∧ culmLike t.sheaf.u1 s.sheaf.u1 ∧
  s.onlyTells { t with sheaf := s.sheaf, memA := s.memA, memB := s.memB }

/-- From s to t a command entry is turned away by the gate: Authorization Refused with a reason, an Error Information entry,
the security counters; nothing else changes; the entry's location is a free value (R168, R342, R349, R350). -/
def State.turnsAway (s t : State) (e : Sqe) (reason : Nat) : Prop :=
  t.cqes = s.cqes ++ [{ port := e.port, sqid := 0, cid := e.cid, sct := 7, sc := 0x88, dw0 := reason, more := true }] ∧
  ctrlAt t e.port = { ctrlAt s e.port with
    errCount := (ctrlAt s e.port).errCount + 1
    errors :=
      ((({ count := (ctrlAt s e.port).errCount + 1, cid := e.cid, sct := 7, sc := 0x88, nsid := e.nsid, csi := reason,
           loc := (Config.errorLoc (2 * ((ctrlAt s e.port).errCount + 1) + portNo e.port)).toNat } : ErrEntry) :: (ctrlAt s e.port).errors).take 256) } ∧
  t.sec = { s.sec with refused := s.sec.refused + 1, lastReason := reason } ∧
  (∀ p, p ≠ e.port → ctrlAt t p = ctrlAt s p) ∧ { t with cqes := s.cqes, c0 := s.c0, c1 := s.c1, sec := s.sec, time := s.time } = s
/-- From s to t the SMBus endpoint answers with a status and a body; nothing else changes. -/
def State.answersMi (s t : State) (status : Nat) (body : List Byte) : Prop :=
  t = { s with tx := s.tx ++ [.mi (byte status :: body)], mi := { s.mi with status := status, resp := body } }

/-- The queue of waiting commands, the power epoch and the frame count (R15, R16). -/
def State.clock (s : State) : List Instr × Nat × Nat := (s.pending, s.time.ep, s.time.fc)

end Sys2Proof.Machine
end

