-- ==== Sys2Proof/Certificates/Slice0/Obligations.lean ====
section
/-! DEFINITION. The statements about the model: time and the queue of commands, then every family of commands. Each says what
a command leaves, and that everything else stays. Each docstring names the rules it formalises. -/
open Sys2Proof Sys2Proof.Machine

/-- A step takes the command at the front of the queue (19 Start-up and service (order of a card's work), R15). -/
def Obligations.StepRunsFrontCommand : Prop :=
  ∀ (s : State) (c : Instr) (r : List Instr), s.pending = c :: r → step s = exec c { s with pending := r }

/-- With no command waiting a step changes nothing (R15 (ticks are commands of their own, assumption 2)). -/
def Obligations.StepIdlesOnEmptyQueue : Prop :=
  ∀ s : State, s.pending = [] → step s = .next s

/-- No command touches the queue: a step removes its front alone (R15 (command queue of the model, assumption 4)). -/
def Obligations.QueueIsFirstInFirstOut : Prop :=
  ∀ (s : State) (c : Instr) (r : List Instr), s.pending = c :: r → ∃ t, step s = .next t ∧ t.pending = r

/-- Every step keeps the order of time (EP, FC), while EP does not wrap at its 32 bits (R15, R16). -/
def Obligations.TimeNeverGoesBack : Prop :=
  ∀ s : State, heldEp s < 2 ^ 32 - 1 → ∃ t, step s = .next t ∧ s.timeLe t

/-- FC and EP change only at a tick and at the start of a power epoch (R15). -/
def Obligations.FrameCountMovesOnlyAtTicks : Prop :=
  ∀ (c : Instr) (s : State), ∃ t, exec c s = .next t ∧
    match c with
    | .frameTick => t.time.ep = s.time.ep ∧ t.time.fc = if ticks s then s.time.fc + 1 else s.time.fc
    | .modulePowerOn .. | .nvmSubsystemReset .. | .resetNRelease | .cardStartAlone .. =>
      (t.time.ep = s.time.ep ∧ t.time.fc = s.time.fc) ∨ (t.time.ep = (heldEp s + 1) % 2 ^ 32 ∧ t.time.fc = 0)
    | _ => t.time.ep = s.time.ep ∧ t.time.fc = s.time.fc

/-- Each log page row answers the requested window of its page and re-arms its event (R164, R178, R107). -/
def Obligations.GetLogAnswersRequestedWindow : Prop :=
  ∀ r ∈ [(Instr.getLogErrorInformation, 0x01), (.getLogSmartHealth, 0x02), (.getLogFirmwareSlot, 0x03), (.getLogModuleRecorder, 0xC0),
      (.getLogFrondEvents, 0xC1), (.getLogFrameStatistics, 0xC2), (.getLogStripeHealth, 0xC3), (.getLogBlockWear, 0xC4),
      (.getLogMediaReadHealth, 0xC5), (.getLogSeedbedStatus, 0xC6), (.getLogSliceTable, 0xC7), (.getLogPowerThermal, 0xC8),
      (.getLogSheafStatus, 0xC9), (.getLogBufferDramHealth, 0xCB), (.getLogSecurityState, 0xCC), (.getLogAttestation, 0xCD)],
    ∀ (s : State) (e : Sqe) (d : List Byte), s.admits e = true → logBytes (asLog r.2 e) ≤ e.dlen →
      logPage (atCount e.cnt s) (asLog r.2 e) (logBytes (asLog r.2 e)) = .ok d → (r.2 = 0xC0 ∨ logOffset e < d.length) →
      ∃ out : List Byte, out.length = logBytes (asLog r.2 e) ∧
        (∀ i < logBytes (asLog r.2 e), out[i]? = some (d.getD (if r.2 = 0xC0 then i else logOffset e + i) 0)) ∧
        exec (r.1 e) s = .next { atCount e.cnt s with
          cqes := s.cqes ++ [cqeOf e 0 out]
          events := if d10 (asLog r.2 e) 15 15 = 1 then s.events else { s.events with posted := s.events.posted.filter (· ≠ r.2) } }

/-- The standard log page row answers its five pages; changed-list pages are cleared by the read (R164, R178). -/
def Obligations.StandardLogPagesAnswer : Prop :=
  ∀ (s : State) (e : Sqe) (d : List Byte), s.admits e = true → d10 e 7 0 ∈ [0x04, 0x05, 0x0C, 0x81, 0xBF] → logBytes e ≤ e.dlen →
      logPage (atCount e.cnt s) (asAdmin 0x02 e) (logBytes e) = .ok d → logOffset e < d.length →
      ∃ t, exec (.getLogStandard e) s = .next t ∧ s.replies t e 0 (slice' d (logOffset e) (logBytes e)) ∧
        (d10 e 7 0 = 0x04 → d10 e 15 15 = 0 → (ctrlAt t e.port).changedNs = []) ∧
        (d10 e 7 0 = 0xBF → d10 e 15 15 = 0 → ∀ z ∈ (ctrlAt t e.port).changedZones, z.1 ≠ e.nsid) ∧
        { t with cqes := s.cqes, c0 := s.c0, c1 := s.c1, events := s.events, time := s.time } = s

/-- Identify and Get Features answer their data and change nothing (R158, R162, R163, R466). -/
def Obligations.IdentifyAndGetFeaturesAnswer : Prop :=
  (∀ (s : State) (e : Sqe) (d : List Byte), s.admits e = true → identifyData (atCount e.cnt s) (asAdmin 0x06 e) = .ok d → 4096 ≤ e.dlen →
      d.length = 4096 ∧ exec (.identify e) s = .next { atCount e.cnt s with cqes := s.cqes ++ [cqeOf e 0 d] }) ∧
    (∀ (s : State) (e : Sqe) (dw0 : Nat) (d : List Byte), s.admits e = true → d.length ≤ e.dlen →
      (d10 e 10 8 = 0 ∧ featureValue (atCount e.cnt s) e true = some (dw0, d) ∨
       d10 e 10 8 = 1 ∧ featureValue (atCount e.cnt s) e false = some (dw0, d) ∨
       d10 e 10 8 = 2 ∧ saveable (fidOf e) = false ∧ featureValue (atCount e.cnt s) e false = some (dw0, d) ∨
       d10 e 10 8 = 3 ∧ fidOf e ∈ featureIds ∧ d = [] ∧ dw0 = (if saveable (fidOf e) then 5 else 4)) →
      exec (.getFeatures e) s = .next { atCount e.cnt s with cqes := s.cqes ++ [cqeOf e dw0 d] })

/-- Rows that stand for what the module does not support complete with the status the spec names (R162, R163, R164, R167, R168,
R178). -/
def Obligations.UnsupportedRowsFailWithTheirStatus : Prop :=
  ∀ (s : State) (e : Sqe) (sct sc : Nat) (c : Instr), s.admits e = true →
      (c = .invalidLogPage e ∧ d10 e 7 0 ∉ logPages ∧ sct = 1 ∧ sc = 0x09 ∨
       c = .unsupportedOpcode e ∧ e.opc.toNat ∉ adminOpcodes ∧ sct = 0 ∧ sc = 0x01 ∨
       c = .setFeaturesVolatileWriteCache e ∧ bit (asFeature 0x06 e).cdw10.toNat 31 = false ∧ sct = 0 ∧ sc = 0x02 ∨
       c = .setFeaturesUnsupported e ∧ fidOf e ∉ featureIds ∧ fidOf e ≠ 6 ∧ sct = 0 ∧ sc = 0x02) →
      ∃ t, exec c s = .next t ∧ t.cqes = s.cqes ++ [{ cqeOf e 0 [] with sct := sct, sc := sc, more := true }] ∧
        (∃ en, (ctrlAt t e.port).errors = (en :: (ctrlAt s e.port).errors).take 256 ∧ en.cid = e.cid ∧ en.sct = sct ∧ en.sc = sc ∧
          en.count = (ctrlAt s e.port).errCount + 1) ∧
        (∀ p, p ≠ e.port → ctrlAt t p = ctrlAt s p) ∧
        { t with cqes := s.cqes, c0 := s.c0, c1 := s.c1, time := s.time } = s

/-- Standard features, the power state feature and the deadline miss policy take effect (R159, R163, R376, R466, R57, R408,
R412). -/
def Obligations.StandardFeaturesTakeEffect : Prop :=
  ((∀ r ∈ [(Instr.setFeaturesArbitration, 0x01, fun (e : Sqe) (c : Ctrl) => { c with arbitration := e.cdw11.toNat }),
       (.setFeaturesInterruptCoalescing, 0x08, fun e c => { c with coalesce := d11 e 15 0 }),
       (.setFeaturesAsyncEventConfig, 0x0B, fun e c => { c with asyncCfg := e.cdw11.toNat })],
      ∀ (s : State) (e : Sqe), s.admits e = true → bit (asFeature r.2.1 e).cdw10.toNat 31 = false →
      exec (r.1 e) s = .next { updCtrl e.port (r.2.2 e) (atCount e.cnt s) with cqes := s.cqes ++ [cqeOf e 0 []] }) ∧
    (∀ (s : State) (e : Sqe), s.admits e = true → bit (asFeature 0x09 e).cdw10.toNat 31 = false → d11 e 15 0 < 2048 →
      exec (.setFeaturesInterruptVector e) s = .next { updCtrl e.port (fun c => { c with
        vectors := tput 0 c.vectors (d11 e 15 0) (d11 e 16 16) }) (atCount e.cnt s) with cqes := s.cqes ++ [cqeOf e 0 []] }) ∧
    (∀ (s : State) (e : Sqe), s.admits e = true → bit (asFeature 0x07 e).cdw10.toNat 31 = false →
      (s.sqs.any fun q => q.2.used && q.1 / 65536 == portNo e.port) = false → (s.cqs.any fun q => q.2.used && q.1 / 65536 == portNo e.port) = false →
      ∃ n m, n = min 8192 (d11 e 15 0 + 1) ∧ m = min 8192 (d11 e 31 16 + 1) ∧
      exec (.setFeaturesNumberOfQueues e) s = .next { updCtrl e.port (fun c => { c with nsq := n, ncq := m }) (atCount e.cnt s) with
        cqes := s.cqes ++ [cqeOf e (n - 1 + (m - 1) * 65536) []] }) ∧
    (∀ (s : State) (e : Sqe), s.admits e = true → bit (asFeature 0x04 e).cdw10.toNat 31 = false →
      (d11 e 19 16 = 0 ∨ d11 e 19 16 = 15) → d11 e 21 20 ≤ 1 →
      ∃ t, exec (.setFeaturesTemperatureThreshold e) s = .next t ∧ s.replies t e 0 [] ∧
        t.feat = (if d11 e 21 20 = 0 then { s.feat with tempOver := d11 e 15 0 } else { s.feat with tempUnder := d11 e 15 0 }) ∧
        { t with cqes := s.cqes, time := s.time, feat := s.feat, featNext := s.featNext } = s) ∧
    (∀ (s : State) (e : Sqe), s.admits e = true → bit (asFeature 0x0E e).cdw10.toNat 31 = false → 8 ≤ e.dlen →
      ∃ t, exec (.setFeaturesTimestamp e) s = .next t ∧ s.replies t e 0 [] ∧
        t.time.wall = some (fld (fitTo 8 e.data) 0 6, s.time.fc) ∧
        { t with cqes := s.cqes, time := s.time, events := s.events } = s)) ∧
  ((∀ (s : State) (e : Sqe), s.admits e = true → bit (asFeature 0x02 e).cdw10.toNat 31 = false → d11 e 7 5 = 0 → s.power.psNext = none →
      d11 e 4 0 = s.power.ps →
      exec (.setFeaturesPowerManagement e) s = .next { atCount e.cnt s with cqes := s.cqes ++ [cqeOf e 0 []] }) ∧
    (∀ (s : State) (e : Sqe), s.admits e = true → bit (asFeature 0x02 e).cdw10.toNat 31 = false → d11 e 7 5 = 0 → s.power.psNext = none →
      d11 e 4 0 ≠ s.power.ps → d11 e 4 0 ≤ 2 →
      exec (.setFeaturesPowerManagement e) s =
        .next (updPower (fun p => { p with psNext := some { target := d11 e 4 0, cmd := some (e.port, e.cid, 0x09) } }) (atCount e.cnt s))) ∧
    (∀ (s : State) (e : Sqe), s.admits e = true → d11 e 15 10 = 0 → d11 e 31 17 = 0 → (sliceAt s (d11 e 9 0)).st ≠ 0 →
      ∃ t, exec (.setFeaturesDeadlineMissPolicy e) s = .next t ∧ s.recordsOnly t e 0x09 0xC7 0 ∧
        t.slices = tupd {} s.slices (d11 e 9 0) (fun x => { x with policy := d11 e 16 16 == 1, saveFresh := false }) ∧
        { t with events := s.events, sec := s.sec, time := s.time, slices := s.slices } = s))

/-- Vendor features apply from the next frame; a new bulk address takes the port down at once (R56, R82, R130, R278, R386, R418,
R423, R242). -/
def Obligations.VendorFeaturesApplyNextFrame : Prop :=
  ((∀ r ∈ [(Instr.setFeaturesFrameParameters, 0xC0, 32,
        fun (d : List Byte) => inRange 2 8 (fld d 12 1) && inRange 1000 16000 (fld d 14 2) && inRange 4000 400000 (fld d 16 4) && allZero (d.drop 20),
        fun (d : List Byte) (f : Features) => { f with quarThr := fld d 12 1, quarWin := fld d 14 2, quarHold := fld d 16 4 }),
       (.setFeaturesScrubPolicy, 0xC4, 64,
        fun d => inRange 30 90 (fld d 0 1) && inRange 1 7 (fld d 1 1) && inRange 1 256 (fld d 2 2) && inRange 5 40 (fld d 4 1) && inRange 5 40 (fld d 5 1)
          && inRange 1 168 (fld d 6 2) && (((List.range 16).map fun i => fld d (8 + 2 * i) 2).all (inRange 24 2160)) && allZero (d.drop 40),
        fun d f => { f with
          warnPct := fld d 0 1, marginStep := fld d 1 1, scrubReads := fld d 2 2, retrainTemp := fld d 4 1, recalTemp := fld d 5 1, retrainHours := fld d 6 2
          interval := table16 168 ((List.range 16).map fun i => fld d (8 + 2 * i) 2) }),
       (.setFeaturesDramInterleaveGrain, 0xC5, 32,
        fun d => inRange 8 16 (fld d 0 1) && inRange 2 16 (fld d 2 1) && inRange 6 12 (fld d 4 1) && inRange 5 20 (fld d 5 1) && inRange 1 168 (fld d 6 2)
          && allZero (d.drop 8),
        fun d f => { f with grainNext := fld d 0 1, cacheNext := fld d 2 1, refreshK := fld d 4 1, rankTemp := fld d 5 1, rankHours := fld d 6 2 }),
       (.setFeaturesSeedbedPolicy, 0xC8, 32,
        fun d => inRange 50 97 (fld d 0 1) && inRange (fld d 0 1 + 1) 99 (fld d 1 1) && inRange 400 40000 (fld d 2 2) && decide (fld d 4 1 ≤ 4)
          && inRange 5 50 (fld d 5 1) && fld d 6 2 == 0 && allZero (d.drop 24),
        fun d f => { f with
          thrPct := fld d 0 1, fullPct := fld d 1 1, fullWait := fld d 2 2, packWait := fld d 4 1, absentPct := fld d 5 1
          foldHold := table16 0 ((List.range 16).map fun i => fld d (8 + i) 1) })],
      ∀ (s : State) (e : Sqe), s.admits e = true → r.2.2.1 ≤ e.dlen → r.2.2.2.1 (fitTo r.2.2.1 e.data) = true →
      ∃ t, exec (r.1 e) s = .next t ∧ s.recordsOnly t e 0x09 r.2.1 0 ∧
        t.featNext = some (r.2.2.2.2 (fitTo r.2.2.1 e.data) (featAccepted s)) ∧
        { t with events := s.events, sec := s.sec, time := s.time, featNext := s.featNext } = s) ∧
    (∀ (s : State) (e : Sqe) (d : List Byte), s.admits e = true → 32 ≤ e.dlen → d = fitTo 32 e.data →
      inRange 55 70 (fld d 0 1) = true → inRange 85 100 (fld d 2 1) = true → inRange 85 100 (fld d 4 1) = true → inRange 70 85 (fld d 6 1) = true →
      inRange 1 10 (fld d 10 1) = true → allZero (d.drop 11) = true →
      ∃ t, exec (.setFeaturesThermalThrottlePoints e) s = .next t ∧ s.recordsOnly t e 0x09 0xC1 0 ∧
        t.power = { s.power with setNext := some ((setAccepted s).1, fld d 0 1, fld d 2 1, fld d 4 1, fld d 6 1, fld d 10 1) } ∧
        { t with events := s.events, sec := s.sec, time := s.time, power := s.power } = s) ∧
    (∀ (s : State) (e : Sqe) (d : List Byte), s.admits e = true → 32 ≤ e.dlen → d = fitTo 32 e.data →
      inRange 20 100 (fld d 0 1) = true → allZero (d.drop 5) = true →
      ∃ t, exec (.setFeaturesMediaPowerBudget e) s = .next t ∧ s.recordsOnly t e 0x09 0xC2 0 ∧
        t.power = { s.power with setNext := some (fld d 0 1, (setAccepted s).2) } ∧
        { t with events := s.events, sec := s.sec, time := s.time, power := s.power } = s) ∧
    (∀ (s : State) (e : Sqe) (d : List Byte), s.admits e = true → 64 ≤ e.dlen → d = fitTo 64 e.data →
      inRange 1 255 (fld d 0 1) = true → inRange 1 (fld d 0 1) (fld d 1 1) = true → inRange 400 40000 (fld d 2 2) = true → allZero (d.drop 4) = true →
      ∃ t, exec (.setFeaturesEventRateLimit e) s = .next t ∧ s.records t e 0x09 0xC3 0 ∧
        t.events.next = some (fld d 0 1, fld d 1 1, fld d 2 2, []) ∧
        { t with events := s.events, sec := s.sec, time := s.time } = s)) ∧
  (∀ (s : State) (e : Sqe) (d : List Byte) (c : CardId), s.admits e = true → 64 ≤ e.dlen → d = fitTo 64 e.data → d11 e 31 1 = 0 →
      c = (if d11 e 0 0 = 1 then CardId.cb else .ca) →
      (bit (fld d 6 2) 15 = false ∨ inRange 1 4094 (bits (fld d 6 2) 11 0) = true) → inRange 1 128 (fld d 35 1) = true → inRange 1 255 (fld d 36 1) = true →
      inRange 1 200 (fld d 37 1) = true → inRange 1 64 (fld d 38 1) = true → fld d 30 2 = 0 → fld d 32 1 < 16 → fld d 33 1 < 64 → fld d 34 1 < 64 →
      fld d 39 1 < 8 → fld d 40 1 < 2 → allZero (slice' d 41 7) = true →
      ∃ t n, exec (.setFeaturesBulkPort e) s = .next t ∧ s.recordsOnly t e 0x09 0xC6 0 ∧ pget t.bulkNext c = some n ∧
        n.gid = BitVec.ofNat 128 (fld d 8 16) ∧ n.cut = fld d 35 1 ∧ n.step = fld d 37 1 ∧ n.ackTimeout = fld d 38 1 ∧
        (n.gid ≠ (bulkAccepted s c).gid → (bulkAt t c).linkUp = false ∧ (bulkAt t c).gid = n.gid) ∧
        bulkAt t (other c) = bulkAt s (other c) ∧ pget t.bulkNext (other c) = pget s.bulkNext (other c) ∧
        { t with events := s.events, sec := s.sec, time := s.time, b0 := s.b0, b1 := s.b1, bulkNext := s.bulkNext } = s)

/-- Create and Delete of I/O queues, Abort and Asynchronous Event Request (R159, R162, R195, R211). -/
def Obligations.QueueCommandsCreateAndDelete : Prop :=
  (∀ (s : State) (e : Sqe), s.admits e = true → sliceOn s e.port (d13 e 9 0) = true → 1 ≤ d10 e 15 0 → d10 e 15 0 ≤ (ctrlAt s e.port).ncq →
      (cqAt s (qKey e.port (d10 e 15 0))).used = false →
      (s.cqs.filter fun q => q.2.used && q.2.slice == d13 e 9 0).length < (sliceAt s (d13 e 9 0)).qpairs →
      1 ≤ d10 e 31 16 → d10 e 31 16 ≤ 4095 → d11 e 31 16 < 2048 →
      exec (.createIoCompletionQueue e) s = .next { updCq (qKey e.port (d10 e 15 0)) (fun _ => {
        used := true, slice := d13 e 9 0, size := d10 e 31 16, base := e.dptr.toNat % 2 ^ 64, vector := d11 e 31 16, ien := bit e.cdw11.toNat 1 })
        (atCount e.cnt s) with cqes := s.cqes ++ [cqeOf e 0 []] }) ∧
    (∀ (s : State) (e : Sqe), s.admits e = true → sliceOn s e.port (d13 e 9 0) = true → 1 ≤ d10 e 15 0 → d10 e 15 0 ≤ (ctrlAt s e.port).nsq →
      (sqAt s (qKey e.port (d10 e 15 0))).used = false →
      (s.sqs.filter fun q => q.2.used && q.2.slice == d13 e 9 0).length < (sliceAt s (d13 e 9 0)).qpairs →
      1 ≤ d10 e 31 16 → d10 e 31 16 ≤ 4095 → (cqAt s (qKey e.port (d11 e 31 16))).used = true → (cqAt s (qKey e.port (d11 e 31 16))).slice = d13 e 9 0 →
      exec (.createIoSubmissionQueue e) s = .next { updSq (qKey e.port (d10 e 15 0)) (fun _ => {
        used := true, slice := d13 e 9 0, cqid := d11 e 31 16, size := d10 e 31 16, base := e.dptr.toNat % 2 ^ 64, contig := bit e.cdw11.toNat 0 })
        (atCount e.cnt s) with cqes := s.cqes ++ [cqeOf e 0 []] }) ∧
    (∀ (s : State) (e : Sqe), s.admits e = true → 1 ≤ d10 e 15 0 → (sqAt s (qKey e.port (d10 e 15 0))).used = true →
      (s.cmds.filter fun c => decide (c.2.e.port = e.port) && c.2.e.sqid == d10 e 15 0) = [] →
      exec (.deleteIoSubmissionQueue e) s = .next { atCount e.cnt s with
        sqs := tdel s.sqs (qKey e.port (d10 e 15 0)), cqes := s.cqes ++ [cqeOf e 0 []] }) ∧
    (∀ (s : State) (e : Sqe), s.admits e = true → 1 ≤ d10 e 15 0 → (cqAt s (qKey e.port (d10 e 15 0))).used = true →
      (s.sqs.any fun q => q.2.used && q.1 / 65536 == portNo e.port && q.2.cqid == d10 e 15 0) = false →
      exec (.deleteIoCompletionQueue e) s = .next { atCount e.cnt s with
        cqs := tdel s.cqs (qKey e.port (d10 e 15 0)), cqes := s.cqes ++ [cqeOf e 0 []] }) ∧
    (∀ (s : State) (e : Sqe), s.admits e = true → d10 e 15 0 = 0 → d10 e 31 16 < 65536 → (ctrlAt s e.port).aers.contains (d10 e 31 16) = true →
      ∃ t, exec (.abort e) s = .next t ∧
        t.cqes = s.cqes ++ [{ port := e.port, cid := d10 e 31 16, sct := 0, sc := 7, more := true }, cqeOf e 0 []] ∧
        (ctrlAt t e.port).aers = lrem (ctrlAt s e.port).aers (d10 e 31 16) ∧
        { t with cqes := s.cqes, c0 := s.c0, c1 := s.c1, time := s.time } = s) ∧
    (∀ (s : State) (e : Sqe), s.admits e = true → (ctrlAt s e.port).aers.length < 8 → pget s.events.aenQ (cardOf e.port) = [] →
      exec (.asynchronousEventRequest e) s = .next (updCtrl e.port (fun c => { c with aers := c.aers ++ [e.cid] }) (atCount e.cnt s)))

/-- Namespace create, attach and detach; a delete without fetched commands marks and removes at once (R146, R160, R165, R196,
R197). -/
def Obligations.NamespaceCommandsTakeEffect : Prop :=
  (∀ (s : State) (e : Sqe) (d : List Byte) (id : Nat) (prof : Profile), s.admits e = true → 4096 ≤ e.dlen → d = fitTo 4096 e.data →
      (fld d 3072 1 = 0 ∧ prof = .s14 ∨ fld d 3072 1 = 1 ∧ prof = .l12 ∨ fld d 3072 1 = 2 ∧ prof = .s15) → 1 ≤ fld d 0 8 → fld d 0 8 ≤ 2 ^ 40 →
      fld d 8 8 = fld d 0 8 → formatOk (bits (fld d 26 1) 3 0) (bits (fld d 26 1) 4 4) (bits (fld d 29 1) 2 0) = true → fld d 92 4 ≤ 2 →
      (d11 e 31 24 = 2 ∧ fld d 0 8 % 1048576 = 0 ∨
       d11 e 31 24 = 0 ∧ (s.nss.foldl (fun a n => if n.2.used && !n.2.zoned then a + n.2.nsze else a) 0) + fld d 0 8 ≤ 2 ^ 33 ∧
         reservation prof (fld d 0 8) ≤ freeSlots s ∧ activeCount s + 2 ≤ 16384) →
      freeNsid s = some id →
      (let nss := tupd {} s.nss id (fun _ => ({
        used := true, zoned := d11 e 31 24 == 2, profile := prof, group := pickGroup s (fld d 92 4), nsze := fld d 0 8, fmt1 := bits (fld d 26 1) 3 0 == 1,
        pit := bits (fld d 29 1) 2 0, salt := s.drawn, resv := if d11 e 31 24 = 2 then 0 else reservation prof (fld d 0 8) } : Ns))
      (∀ f < 16, stockDemand { s with nss := nss } ≤ memberStock s f) →
      ∃ t, exec (.namespaceCreate e) s = .next t ∧ s.recordsOnly t e 0x0D 0 id ∧ t.nss = nss ∧
        { t with events := s.events, sec := s.sec, time := s.time, nss := s.nss, drawn := s.drawn } = s)) ∧
    (∀ (s : State) (e : Sqe) (ps : List Port), s.admits e = true → 4096 ≤ e.dlen → liveNs s e.nsid = true → ctrlsOf (fitTo 4096 e.data) = some ps →
      ((sliceAt s (d12 e 9 0)).st = 1 ∨ (sliceAt s (d12 e 9 0)).st = 2 ∨ (sliceAt s (d12 e 9 0)).st = 3) → ((nsAt s e.nsid).slice = none ∨ (nsAt s e.nsid).slice = some (d12 e 9 0)) →
      (∀ p ∈ ps, pget (nsAt s e.nsid).att (cardOf p) = false) →
      ∃ t, exec (.namespaceAttach e) s = .next t ∧
        t.nss = tupd {} s.nss e.nsid (fun x => { x with slice := some (d12 e 9 0), att := ps.foldl (fun a p => pset a (cardOf p) true) x.att }) ∧
        (∀ k, k ≠ d12 e 9 0 → sliceAt t k = sliceAt s k) ∧ t.zones = s.zones ∧ t.map = s.map ∧ t.cmds = s.cmds ∧ t.sqs = s.sqs ∧ t.cqs = s.cqs ∧ t.dies = s.dies) ∧
    (∀ (s : State) (e : Sqe) (ps : List Port), s.admits e = true → 4096 ≤ e.dlen → liveNs s e.nsid = true → ctrlsOf (fitTo 4096 e.data) = some ps →
      (∀ p ∈ ps, pget (nsAt s e.nsid).att (cardOf p) = true) →
      ∃ t, exec (.namespaceDetach e) s = .next t ∧
        t.nss = tupd {} s.nss e.nsid (fun x => { x with att := ps.foldl (fun a p => pset a (cardOf p) false) x.att }) ∧
        t.slices = s.slices ∧ t.zones = s.zones ∧ t.map = s.map ∧ t.cmds = s.cmds ∧ t.sqs = s.sqs ∧ t.cqs = s.cqs ∧ t.dies = s.dies) ∧
    (∀ (s : State) (e : Sqe) (n : Ns), s.admits e = true → e.nsid ≠ 0xFFFFFFFF → s.cmds = [] → s.nss = [(e.nsid, n)] → n.used = true → n.deleting = none →
      ∃ t, exec (.namespaceDelete e) s = .next t ∧ t.nss = [] ∧ t.cmds = [] ∧ ∃ r q, (r, some q) ∈ t.events.changeQ ∧ q.port = e.port ∧ q.cid = e.cid ∧ q.sc = 0)

/-- Slice Create, Share Set and Slice State Restore write the slice and record the binding (R179, R193, R194, R197, R203, R208,
R348). -/
def Obligations.SliceBindingCommandsTakeEffect : Prop :=
  (∀ (s : State) (e : Sqe) (d : List Byte) (x : Share) (sl : Nat), s.admits e = true → rsvdOk 0x7FF 0xFFFF 0xFFFFF 0 0 0 e = true → d11 e 15 0 = 256 →
      d10 e 10 10 = 0 → sl = d10 e 9 0 → sl ≠ 0 → 256 ≤ e.dlen → (sliceAt s sl).st = 0 → d = fitTo 256 e.data → pasidTaken s e.port sl (d12 e 19 0) = false →
      1 ≤ fld d 64 1 → fld d 64 1 ≤ 64 → fld d 65 1 ≤ 1 → allZero (d.drop 66) = true → shareFrom d = some x → sumsNow s e.port sl x x = true →
      ∃ t r, exec (.sliceCreate e) s = .next t ∧
        t.slices = tupd {} s.slices sl (fun y => {
          st := 1, port := e.port, pasid := d12 e 19 0, gen := y.gen + 1, share := x, qpairs := fld d 64 1, policy := fld d 65 1 == 1, key := s.drawn,
          changeFc := s.time.fc }) ∧
        t.events.changeQ = s.events.changeQ ++ [(r, some (cqeOf e (sl + ((sliceAt s sl).gen + 1).toNat * 65536) []))] ∧
        r.data = changeData 0xC1 sl 2 (portNo e.port) sl (d12 e 19 0) 0 (tget [] s.sec.keyIds (portNo e.port * 65536 + e.cid)) ∧
        { t with events := s.events, sec := s.sec, time := s.time, slices := s.slices, drawn := s.drawn } = s) ∧
    (∀ (s : State) (e : Sqe) (x : Share) (sl : Nat), s.admits e = true → rsvdOk 0x3FF 0 0 0 0 0 e = true → sl = d10 e 9 0 →
      ((sliceAt s sl).st = 1 ∨ (sliceAt s sl).st = 2) → 64 ≤ e.dlen → shareFrom (fitTo 64 e.data) = some x →
      (∀ p ∈ (if sl = 0 then [Port.h0, .h1] else [(sliceAt s sl).port]), sumsHold s p sl x = true) → rulesHeld s sl ≤ x.quota →
      ∃ t, exec (.shareSet e) s = .next t ∧ s.recordsOnly t e 0xD1 sl 0 ∧
        t.slices = tupd {} s.slices sl (fun y => { y with shareNext := some x, saveFresh := false }) ∧
        { t with events := s.events, sec := s.sec, time := s.time, slices := s.slices } = s)

/-- Slice Reset, Delete, Freeze, Thaw, State Save, Restore and Queue Resume (R198, R201, R209, R211, R212, R214). -/
def Obligations.SliceStateCommandsTakeEffect : Prop :=
  (∀ (s : State) (e : Sqe) (sl : Nat), s.admits e = true → rsvdOk 0x3FF 0 0 0 0 0 e = true → sl = d10 e 9 0 → sl ≠ 0 →
      ((sliceAt s sl).st = 1 ∨ (sliceAt s sl).st = 2) → s.cmds = [] → (∀ n ∈ s.nss, n.2.deleting = none) → (∀ x ∈ s.slices, x.2.waiter = none) →
      ∀ r ∈ [(Instr.sliceReset e, 3, true), (Instr.sliceDelete e, 4, false)],
      ∃ t, exec r.1 s = .next t ∧ (sliceAt t sl).st = r.2.1 ∧ (sliceAt t sl).gen = (sliceAt s sl).gen + 1 ∧ (∀ k, k ≠ sl → sliceAt t k = sliceAt s k) ∧
        t.sqs = s.sqs ∧ t.cqs = s.cqs ∧
        (∃ j, t.jobs = s.jobs ++ [j] ∧ j.begun = r.2.2 ∧ j.e.cid = e.cid ∧ j.e.port = e.port) ∧ t.cqes = s.cqes ∧ t.nss = s.nss ∧ t.map = s.map) ∧
    (∀ (s : State) (e : Sqe) (sl : Nat), s.admits e = true → rsvdOk 0x103FF 0 0 0 0 0 (with10 16 16 0 e) = true → sl = d10 (with10 16 16 0 e) 9 0 → sl ≠ 0 →
      (sliceAt s sl).st = 1 → s.cmds = [] → quiet s sl = true → (∀ n ∈ s.nss, n.2.deleting = none) → (∀ x ∈ s.slices, x.2.waiter = none) →
      ∃ t, exec (.sliceFreeze e) s = .next t ∧ (sliceAt t sl).st = 2 ∧ (∀ k, k ≠ sl → sliceAt t k = sliceAt s k) ∧ s.replies t e 0 []) ∧
    (∀ (s : State) (e : Sqe) (sl : Nat), s.admits e = true → rsvdOk 0x103FF 0 0 0 0 0 (with10 16 16 1 e) = true → sl = d10 (with10 16 16 1 e) 9 0 → sl ≠ 0 →
      (sliceAt s sl).st = 2 → (sliceAt s sl).waiter = none →
      ∃ t, exec (.sliceThaw e) s = .next t ∧ (sliceAt t sl).st = 1 ∧ (sliceAt t sl).portLost = false ∧ (∀ k, k ≠ sl → sliceAt t k = sliceAt s k) ∧
        s.replies t e 0 [] ∧ { t with cqes := s.cqes, time := s.time, slices := s.slices } = s) ∧
    (∀ (s s1 : State) (e : Sqe) (sl : Nat), s.admits e = true → rsvdOk 0x3FF 0xFFFF 0 0 0 0 e = true → sl = d10 e 9 0 → sl ≠ 0 → (sliceAt s sl).st = 2 →
      quiet s sl = true → s1 = updSlice sl (fun x => { x with saveSeq := (x.saveSeq + 1) % 2 ^ 32, saveFresh := true }) (atCount e.cnt s) →
      1 ≤ d11 e 15 0 → d11 e 15 0 ≤ 16384 → (sliceImage s1 sl).length ≤ d11 e 15 0 * 4 → (sliceImage s1 sl).length ≤ e.dlen →
      exec (.sliceStateSave e) s = .next { s1 with cqes := s.cqes ++ [cqeOf e ((sliceImage s1 sl).length / 4) (sliceImage s1 sl)] }) ∧
    (∀ (s : State) (e : Sqe) (sl n : Nat) (b : List Byte), s.admits e = true → rsvdOk 0x3FF 0xFFFF 0xFFFFF 0 0 0 e = true → sl = d10 e 9 0 → sl ≠ 0 →
      (sliceAt s sl).st = 2 → quiet s sl = true → n = d11 e 15 0 * 4 → n ≤ e.dlen → 1 ≤ n → n ≤ 65536 → b = fitTo n e.data → fld b 4 4 * 4 = n →
      slice' b 32 32 = imageTag s b → fld b 2 2 = sl → fld b 8 4 = (sliceAt s sl).saveSeq → (sliceAt s sl).saveFresh = true →
      pasidTaken s e.port sl (d12 e 19 0) = false → sumsNow s e.port sl (sliceAt s sl).share (shareOf (sliceAt s sl)) = true → fld b 14 1 = 0 →
      ∃ t, exec (.sliceStateRestore e) s = .next t ∧ (sliceAt t sl).port = e.port ∧ (sliceAt t sl).pasid = d12 e 19 0 ∧ (sliceAt t sl).saveFresh = false ∧
        (∀ k, k ≠ sl → sliceAt t k = sliceAt s k) ∧ t.sqs = s.sqs.filter (fun q => q.2.slice != sl) ∧
        { t with events := s.events, sec := s.sec, time := s.time, slices := s.slices, sqs := s.sqs, cqs := s.cqs } = s) ∧
    (∀ (s : State) (e : Sqe) (k : Nat), s.admits e = true → rsvdOk 0xFFFF 0 0 0 0 0 e = true → d10 e 15 0 ≠ 0 → k = qKey e.port (d10 e 15 0) →
      (sqAt s k).used = true → ((sliceAt s (sqAt s k).slice).st = 1 ∨ (sliceAt s (sqAt s k).slice).st = 2) → (sqAt s k).frozen = true →
      exec (.queueResume e) s = .next { updSq k (fun x => { x with frozen := false, resumed := s.time.start + e.cnt }) (atCount e.cnt s) with
        cqes := s.cqes ++ [cqeOf e 1 []] })

/-- Spikelet Rule Write and Read, Winnow Program Load and Bulk Endpoint Set (R183, R231, R232, R233, R235, R243, R244). -/
def Obligations.HostTablesAreLoaded : Prop :=
  (∀ (s : State) (e : Sqe) (n first : Nat) (l : List (List Byte)), s.admits e = true → n = d10 e 15 0 → first = d11 e 15 0 →
      rsvdOk 0xFFFF 0xFFFF 0 0 0 0 e = true → 1 ≤ n → n ≤ 256 → 64 * n ≤ e.dlen → first + n ≤ 65535 →
      l = (List.range n).map (fun i => slice' e.data (64 * i) 64) →
      (∀ x ∈ l.zipIdx, (sliceAt s (bits (fld x.1 0 2) 9 0)).st ≠ 0 ∧ ruleRange x.1 = true ∧ ruleRsvd x.1 = true ∧
        (∀ r, tfind s.rules (first + x.2) = some r → r.slice = (ruleFrom x.1).slice) ∧
        entriesHeld ((writeRules first l s.rules).filter fun r => r.2.slice == (ruleFrom x.1).slice) ≤ (sliceAt s (ruleFrom x.1).slice).share.quota) →
      entriesHeld (writeRules first l s.rules) ≤ ruleCapacity s s.feat.holeLog →
      ∃ t, exec (.spikeletRuleWrite e) s = .next t ∧ s.recordsOnly t e 0xD5 0 0 ∧ t.rules = writeRules first l s.rules ∧
        { t with events := s.events, sec := s.sec, time := s.time, rules := s.rules, spA := s.spA, spB := s.spB, slices := s.slices } = s) ∧
    (∀ (s : State) (e : Sqe), s.admits e = true → rsvdOk 0xFFFF 0xFFFF 0 0 0 0 e = true → 1 ≤ d10 e 15 0 → d10 e 15 0 ≤ 256 →
      d11 e 15 0 + d10 e 15 0 ≤ 65536 → 64 * d10 e 15 0 ≤ e.dlen →
      ∃ d : List Byte, d.length = 64 * d10 e 15 0 ∧ exec (.spikeletRuleRead e) s = .next { atCount e.cnt s with cqes := s.cqes ++ [cqeOf e 0 d] } ∧
        ∀ i < d10 e 15 0, ∀ r, d11 e 15 0 + i < 65535 → tfind s.rules (d11 e 15 0 + i) = some r → slice' d (64 * i) 64 = ruleBytes r) ∧
    (∀ (s : State) (e : Sqe) (p : List Byte) (sl : Nat), s.admits e = true → rsvdOk 0xFF 0xFFFF 0x3FF 0 0 0 e = true → d10 e 7 0 ≤ 15 →
      1 ≤ d11 e 15 0 → d11 e 15 0 ≤ 1024 → sl = d12 e 9 0 → (sliceAt s sl).st ≠ 0 → 4096 * d11 e 15 0 ≤ e.dlen → p = fitTo (4096 * d11 e 15 0) e.data →
      wpRsvd p = true → wpDefect p (d11 e 15 0) = none → programStore s sl (d10 e 7 0) + p.length ≤ 2147483648 →
      ∃ t j, exec (.winnowProgramLoad e) s = .next t ∧ t.jobs = s.jobs ++ [j] ∧ j.begun = false ∧ j.e.port = e.port ∧ j.e.cid = e.cid ∧ j.e.opc = 0xF1 ∧
        j.e.cdw10 = e.cdw10 ∧ j.e.cdw11 = e.cdw11 ∧ j.e.cdw12 = e.cdw12 ∧ j.e.data = e.data ∧
        { t with time := s.time, jobs := s.jobs, next := s.next } = s) ∧
    (∀ (s t : State) (j : Job) (sl : Nat) (p : List Byte), j.e.opc = 0xF1 → j.begun = true → sl = d12 j.e 9 0 → (sliceAt s sl).st ≠ 0 →
      p = fitTo (4096 * d11 j.e 15 0) j.e.data → (∀ w ∈ s.metas.work, isProgram j.key w.2.of = true → w.2.copies = [] ∧ w.2.reads = 0) → t = programGoes j s →
      t.slices = tupd {} s.slices sl (fun x => { x with progs := tins x.progs (d10 j.e 7 0) p, saveFresh := false }) ∧
        (∃ r, t.events.changeQ = s.events.changeQ ++ [(r, some { cqeOf j.e 0 [] with nsid := j.e.nsid })]) ∧ t.jobs = s.jobs.filter (fun x => x.key != j.key) ∧
        { t with events := s.events, sec := s.sec, metas := s.metas, jobs := s.jobs, slices := s.slices } = s) ∧
    (∀ (s : State) (e : Sqe) (n : Nat) (l : List (List Byte)) (sl : Nat), s.admits e = true → rsvdOk 0xFFFF 0xFFFF 0x3FF 0 0 0 e = true → n = d11 e 15 0 →
      1 ≤ n → d10 e 15 0 + n ≤ 256 → sl = d12 e 9 0 → (sliceAt s sl).st ≠ 0 → 64 * n ≤ e.dlen → l = (List.range n).map (fun i => slice' e.data (64 * i) 64) →
      l.all descRsvd = true → descsOk sl (l.map descFrom) s.qps = true →
      ∃ t, exec (.bulkEndpointSet e) s = .next t ∧ s.recordsOnly t e 0xE9 0 0 ∧
        t.slices = tupd {} s.slices sl (fun x => { x with
          descs := (l.map descFrom).zipIdx.foldl (fun t d => tput {} t (d10 e 15 0 + d.2) d.1) x.descs, saveFresh := false }) ∧
        { t with events := s.events, sec := s.sec, time := s.time, slices := s.slices, qps := s.qps } = s)

/-- Tokens, nonces, guard levels, Sanitize, Format and Event Clear (R181, R184, R330, R331, R338, R339, R342, R343, R385). -/
def Obligations.SecurityCommandsTakeEffect : Prop :=
  (∀ (s : State) (e : Sqe), s.admits e = true → rsvdOk 3 0xFFFF 0 0 0 0 (with10 1 0 1 e) = true →
      ∃ t, exec (.issueNonce e) s = .next t ∧ t.drawn = s.drawn + 1 ∧
        t.cqes = s.cqes ++ [{ cqeOf e ((Config.random s.drawn).toNat % 2 ^ 32) [] with dw1 := (Config.random s.drawn).toNat / 2 ^ 32 }] ∧
        t.sec.nonces.length ≤ 16 ∧ t.sec.nonces.getLast? = some { value := Config.random s.drawn, born := s.time.start + e.cnt } ∧
        { t with cqes := s.cqes, sec := { t.sec with nonces := s.sec.nonces }, time := s.time, drawn := s.drawn } = s) ∧
    (∀ (s : State) (e : Sqe) (b : List Byte), s.admits e = true → d10 e 1 0 = 0 → rsvdOk 3 0xFFFF 0 0 0 0 e = true → 1 ≤ d11 e 15 0 → d11 e 15 0 ≤ 8192 →
      d11 e 15 0 ≤ e.dlen → b = fitTo (d11 e 15 0) e.data → tokenFormOk b = true → slice' b 8 20 = fitTo 20 Config.moduleSerial →
      (tokType b = 1 ∨ tokType b = 2 ∨ tokType b = 3) → (s.sec.nonces.any fun x => x.value == BitVec.ofNat 64 (fld b 32 8)) = true → tokenReason s b = none →
      ∃ t k h, exec (.authorizationSubmitToken e) s = .next t ∧ s.replies t e h [] ∧ t.sec.tokens = s.sec.tokens ++ [k] ∧ k.handle = h ∧
        k.type = tokType b ∧ k.body = tokBody b ∧ k.born = s.time.start + e.cnt ∧ (∀ x ∈ t.sec.nonces, x.value ≠ BitVec.ofNat 64 (fld b 32 8)) ∧
        t.sec.accepted = s.sec.accepted + 1 ∧ t.sec.keys = s.sec.keys ∧ t.sec.level = s.sec.level ∧
        { t with cqes := s.cqes, sec := s.sec, time := s.time } = s) ∧
    (∀ (s : State) (e : Sqe) (k : Token), s.admits e = true → rsvdOk 3 0xFFFF 0 0 0 0 e = true → d10 e 1 0 = 2 → calm s = true →
      heldToken s (d11 e 15 0) 1 = some k → fld k.body 1 1 = 2 → fld k.body 0 1 = 1 → s.sec.level = 1 → s.sec.keys ≠ [] →
      ∃ t, exec (.guardLevelChange e) s = .next t ∧ t.sec.level = 2 ∧ t.pair.ca.sealed = true ∧ t.pair.cb.sealed = true ∧ t.sec.nonces = [] ∧
        t.sec.tokens = [] ∧ t.sec.mrkGen = s.sec.mrkGen ∧ t.slices = s.slices ∧ t.nss = s.nss ∧ ∃ r, t.events.changeQ = s.events.changeQ ++ [(r, some { cqeOf e 2 [] with nsid := e.nsid })]) ∧
    (∀ (s : State) (e : Sqe), s.admits e = true → d10 e 2 0 = 4 → calm s = true →
      ∃ t j, exec (.sanitize e) s = .next t ∧ t.sec.running = some (0x84, e.port, e.cid) ∧ t.sec.sstat = 2 ∧ t.sec.sprog = 0 ∧ t.jobs = s.jobs ++ [j] ∧
        j.begun = false ∧ { t with sec := s.sec, time := s.time, jobs := s.jobs, next := s.next } = s) ∧
    (∀ (s : State) (e : Sqe), s.admits e = true → liveNs s e.nsid = true → d10 e 11 9 ≤ 2 → formatOk (d10 e 3 0) (d10 e 4 4) (d10 e 7 5) = true →
      ∃ t j, exec (.formatNvm e) s = .next t ∧ t.jobs = s.jobs ++ [j] ∧ j.begun = false ∧ j.e.cid = e.cid ∧
        { t with time := s.time, jobs := s.jobs, next := s.next } = s) ∧
    (∀ (s : State) (e x : Sqe) (f : Nat) (k : Token), s.canonical = true → s.admits e = true → x = with10 8 8 0 e → f = d10 x 3 0 → rsvdOk 0x10F 0xFFFF 0 0 0 0 x = true →
      s.pair.ca.copying = false → s.pair.cb.copying = false → frondAbsent s f = false → heldToken s (d11 e 15 0) 3 = some k → fld k.body 0 1 = 0 → fld k.body 1 1 = f →
      ∃ t m, exec (.eventClearFrond e) s = .next t ∧ (frondAt t f).store = [m] ∧ m.code = 4 ∧ (frondAt t f).storeFull = false ∧ (frondAt t f).storeQ = [] ∧
        t.events.recA = s.events.recA ∧ t.events.recB = s.events.recB ∧ { t with events := s.events, sec := s.sec, time := s.time, fronds := s.fronds } = s) ∧
    (∀ (s : State) (e x : Sqe) (k : Token), s.admits e = true → x = with10 8 8 1 e → rsvdOk 0x10F 0xFFFF 0 0 0 0 x = true →
      s.pair.ca.copying = false → s.pair.cb.copying = false → heldToken s (d11 e 15 0) 3 = some k → fld k.body 0 1 = 1 → fld k.body 1 1 = d10 x 3 0 →
      ∃ t m r, exec (.eventClearModule e) s = .next t ∧ t.events.recA.main = [] ∧ t.events.recB.main = [] ∧ t.events.recA.reserve = [] ∧
        t.events.recA.clearGen = ((recAt s s.time.master).clearGen + 1) % 2 ^ 32 ∧ t.events.recB.clearGen = t.events.recA.clearGen ∧
        t.events.sumQ = m :: s.events.sumQ ∧ m.code = 4 ∧ t.events.changeQ.head? = some (r, some { cqeOf e 0 [] with nsid := e.nsid }) ∧
        { t with events := s.events, sec := s.sec, time := s.time, sheaf := s.sheaf } = s)

/-- Frond Service, Sheaf Control, Phase Plan Set and Power Entry Control act on their own unit (R99, R182, R318, R325, R404,
R433, R435). -/
def Obligations.ControlCommandsTakeEffect : Prop :=
  (∀ (s : State) (e x : Sqe) (f : Nat), s.admits e = true → x = withAction 0xE0 0 e → f = frondNamed x → rsvdOk 0x10F0F 0xF 0 0 0 0 x = true →
      (frondAt s f).prepared = 0 → (frondAt s f).present = true → frondServes (frondAt s f) = true → (absenceCost s f).1 = 0 →
      exec (.prepareRemoval e) s = .next (updFrond f (fun g => { g with
        prepared := 1, prepFc := s.time.fc + 1, noSegs := true, training := none, prepCmd := some (portNo e.port, e.cid), prepCount := (absenceCost s f).2 }) (atCount e.cnt s))) ∧
    (∀ (s : State) (e x : Sqe) (f : Nat), s.canonical = true → s.admits e = true → x = withAction 0xE0 1 e → f = frondNamed x → rsvdOk 0x10F0F 0xF 0 0 0 0 x = true →
      (frondAt s f).prepared = 1 → (frondAt s f).present = true → (frondAt s f).serial ≠ [] → s.cws = [] →
      ∃ t, exec (.cancelPrepare e) s = .next t ∧ (frondAt t f).prepared = 0 ∧ (frondAt t f).prepCmd = none ∧
        { t with events := s.events, sec := s.sec, time := s.time, fronds := s.fronds } = s) ∧
    (∀ (s : State) (e x : Sqe) (f : Nat), s.canonical = true → s.admits e = true → x = withAction 0xE0 2 e → f = frondNamed x → rsvdOk 0x10F0F 0xF 0 0 0 0 x = true →
      frondServes (frondAt s f) = false → (frondAt s f).state ≠ 7 → (frondAt s f).hasRecord = true → (frondAt s f).ident = none → s.stripes = [] → s.pieces = [] → s.cmds = [] →
      ∃ t, exec (.declareLost e) s = .next t ∧ (frondAt t f).state = 4 ∧ (frondAt t f).prepared = 0 ∧ t.dies = s.dies ∧ t.nss = s.nss ∧ t.zones = s.zones) ∧
    (∀ (s : State) (e x : Sqe), s.admits e = true → x = withAction 0xE0 3 e → frondNamed x = 0 → rsvdOk 0x10F0F 0xF 0 0 0 0 x = true → 1 ≤ d11 e 3 0 →
      d11 e 3 0 ≤ 10 →
      ∃ t, exec (.setRebuildRate e) s = .next t ∧ s.recordsOnly t e 0xE0 3 0 ∧ t.rebuild = { s.rebuild with rate := d11 e 3 0 } ∧
        { t with events := s.events, sec := s.sec, time := s.time, rebuild := s.rebuild } = s) ∧
    (∀ (s : State) (e x : Sqe) (v : Bool), s.admits e = true → x = withAction 0xE0 (if v then 4 else 5) e → rsvdOk 0x10F0F 0xF 0 0 0 0 x = true →
      exec (if v then .locateLedOn e else .locateLedOff e) s = .next { updFrond (frondNamed x) (fun g => { g with locate := v }) (atCount e.cnt s) with
        cqes := s.cqes ++ [cqeOf e 0 []] }) ∧
    (∀ (s : State) (e x : Sqe), s.admits e = true → x = withSheaf 0 e → rsvdOk 0xF 0xFFFF 0 0 0 0 x = true → s.sheaf.st ≠ 3 → s.sheaf.st ≠ 4 →
      ∃ t, exec (.enableCulmPorts e) s = .next t ∧ s.recordsOnly t e 0xE4 0 0 ∧ t.sheaf.enabled = true ∧ t.sheaf.u0.link ≠ 5 ∧ t.sheaf.u1.link ≠ 5 ∧
        (s.sheaf.u0.link ≠ 5 → t.sheaf.u0 = s.sheaf.u0) ∧ { t with events := s.events, sec := s.sec, time := s.time, sheaf := s.sheaf } = s) ∧
    (∀ (s : State) (e x : Sqe), s.admits e = true → x = withSheaf 1 e → rsvdOk 0xF 0xFFFF 0 0 0 0 x = true → s.sheaf.st ≠ 2 →
      ∃ t, exec (.disableCulmPorts e) s = .next t ∧ s.recordsOnly t e 0xE4 1 0 ∧ t.sheaf.enabled = false ∧ t.sheaf.members = [] ∧
        (t.sheaf.u0.link = 5 ∨ t.sheaf.u0.link = 6) ∧ { t with events := s.events, sec := s.sec, time := s.time, sheaf := s.sheaf } = s) ∧
    (∀ (s : State) (e x : Sqe) (n : Nat), s.admits e = true → x = withSheaf 2 e → rsvdOk 0xF 0xFFFF 0 0 0 0 x = true → s.sheaf.st = 2 → successor s = some n →
      s.sheaf.hand = none →
      ∃ t sw, exec (.handOverLead e) s = .next t ∧ t.sheaf.hand = some (n, sw) ∧ sfcNow s + 16 ≤ sw ∧ sw % 64 = 0 ∧
        t.sheaf.handCmd = some (e.port, e.cid, 0xE4, 2) ∧ t.cqes = s.cqes ∧ t.sheaf.lead = s.sheaf.lead) ∧
    (∀ (s : State) (e x : Sqe), s.admits e = true → x = withSheaf 3 e → rsvdOk 0xF 0xFFFF 0 0 0 0 x = true → s.sheaf.st = 2 → 320 ≤ d11 e 15 0 →
      d11 e 15 0 ≤ 5120 →
      ∃ t, exec (.setShelfPowerBudget e) s = .next t ∧ s.recordsOnly t e 0xE4 3 0 ∧
        t.sheaf = { s.sheaf with budget := d11 e 15 0, membersMax := memberCount s } ∧
        { t with events := s.events, sec := s.sec, time := s.time, sheaf := s.sheaf } = s) ∧
    (∀ (s : State) (e : Sqe) (n : Nat) (b : List Byte), s.admits e = true → n = d10 e 15 0 → rsvdOk 0xFFFF 0 0 0 0 0 e = true → 128 ≤ n → n ≤ 4096 →
      n % 64 = 0 → n ≤ e.dlen → b = fitTo n e.data → planOk b n = true → s.sheaf.st = 2 → s.sheaf.planCmd = none →
      ∃ t first, exec (.sheafPhasePlanSet e) s = .next t ∧ t.sheaf.planGen = (s.sheaf.planGen + 1) % 2 ^ 32 ∧ t.sheaf.planNext = some (first, planOf b) ∧
        sfcNow s + 256 ≤ first * 64 ∧ t.sheaf.plan = s.sheaf.plan) ∧
    (∀ r ∈ [(Instr.peuEnableOutput, 0, 0x10), (.peuSetCurrentLimit, 2, 0x12), (.peuSetMargin, 3, 0x13), (.peuDisableOutput, 1, 0x11)],
      ∀ (s : State) (e x : Sqe) (p : PeuId), s.admits e = true → x = withAction 0xEC r.2.1 e → p = peuOfCmd x → rsvdOk 0xF01 0xFFFF 0 0 0 0 x = true →
        (peuAt s p).present = true → (peuAt s p).keltan = true → s.power.peuA.upd < 2 → s.power.peuB.upd < 2 →
        (r.2.1 = 0 → (peuAt s p).status.state ≠ 7) → (r.2.1 = 1 → statusCurrent s (peuAt s (otherPeu p)) = true ∧ (peuAt s (otherPeu p)).status.state = 2) →
        (r.2.1 = 2 → 40 ≤ d11 e 15 0 ∧ d11 e 15 0 ≤ 100) → (r.2.1 = 3 → -50 ≤ marginOf e ∧ marginOf e ≤ 50) →
        ∃ t k, exec (r.1 e) s = .next t ∧ (peuAt t p).out = (peuAt s p).out ++ [k] ∧ k.type = r.2.2 ∧ k.cmd = some (e.port, e.cid, 0xEC) ∧
          k.payload = (if r.2.1 = 2 ∨ r.2.1 = 3 then [d11 e 15 0] else []) ∧ peuAt t (otherPeu p) = peuAt s (otherPeu p) ∧
          { t with time := s.time, power := s.power, tx := s.tx } = s)

/-- Module power-on, NVM Subsystem Reset, RESET_N release and the start of a sole card open a power epoch (R16, R302, R427, R429,
R430). -/
def Obligations.RestartsOpenANewEpoch : Prop :=
  (∀ (straps : BitVec 5) (found : Nat) (s : State), s.time.bus = false →
      ∃ t, exec (.modulePowerOn straps found) s = .next t ∧ t.time.ep = (heldEp s + 1) % 2 ^ 32 ∧ t.time.fc = 0) ∧
    (∀ (p : Port) (s : State), s.time.bus = true → s.time.resetHeld = false → (ctrlAt s p).link = true →
      ∃ t, exec (.nvmSubsystemReset p) s = .next t ∧ t.time.ep = (heldEp s + 1) % 2 ^ 32 ∧ t.time.fc = 0) ∧
    (∀ s : State, s.time.resetHeld = true →
      ∃ t, exec .resetNRelease s = .next t ∧ t.time.ep = (heldEp s + 1) % 2 ^ 32 ∧ t.time.fc = 0) ∧
    (∀ (n : Nat) (s : State), 4 ≤ n → s.time.bus = true → s.time.resetHeld = false →
      ∃ t, exec (.resetNAssert n) s = .next t ∧ t.time.ep = s.time.ep ∧ t.time.fc = s.time.fc ∧ t.time.resetHeld = true) ∧
    (∀ (c : CardId) (root : Nat) (s : State), s.time.bus = true → s.time.resetHeld = false → anyServe s = false → (cardAt s c).present = true →
      ((cardAt s c).entering = 1 ∨ (cardAt s c).entering = 2) → (cardAt s c).mrk = some s.sec.mrkGen →
      max root (max s.jA.rootOwn s.jB.rootOwn) ≤ (cardAt s c).ownEpoch →
      ∃ t, exec (.cardStartAlone c root) s = .next t ∧ t.time.ep = (heldEp s + 1) % 2 ^ 32 ∧ t.time.fc = 0)

/-- Cards start, namespaces become ready, and the straps set the position in the sheaf (R359, R360, R427, R428, R304). -/
def Obligations.CardsStartAndNamespacesBecomeReady : Prop :=
  ((∀ (card : CardId) (bad : List Nat) (a o : Bool) (s : State) (n : Nat) (new back : Bool), s.time.bus = true → s.time.resetHeld = false →
      (cardAt s card).serving = false → (cardAt s card).entering = 1 → startSlot (cardAt s card) a o = some (n, new, back) →
      unfit (selfTest card bad s) card = false →
      ((cardAt s (other card)).serving = false →
        ∃ t, exec (.cardStart card bad a o) s = .next t ∧ (cardAt t card).entering = 2 ∧ (cardAt t card).active = n ∧ (cardAt t card).nextSlot = 0 ∧
          cardAt t (other card) = cardAt s (other card)) ∧
      ((cardAt s (other card)).serving = true → (slotOf (cardAt s card) n).sha = (activeSlot (cardAt s (other card))).sha →
        ∃ t, exec (.cardStart card bad a o) s = .next t ∧ (cardAt t card).entering = 4 ∧ (cardAt t card).active = n ∧ (cardAt t card).nextSlot = 0 ∧
          (cardAt t card).ownEpoch = (cardAt s (other card)).ownEpoch ∧ (cardAt t card).ep = (cardAt s (other card)).ep ∧
          (cardAt t card).mrk = some s.sec.mrkGen ∧ cardAt t (other card) = cardAt s (other card))) ∧
    (∀ (card : CardId) (bad : List Nat) (o : Bool) (s : State), s.time.bus = true → s.time.resetHeld = false → (cardAt s card).serving = true →
      (cardAt s card).activating = 3 → unfit (selfTest card bad s) card = false →
      ∃ t, exec (.cardStart card bad true o) s = .next t ∧ (cardAt t card).activating = 4 ∧ (cardAt t card).serving = true ∧
        cardAt t (other card) = cardAt s (other card)) ∧
    (∀ (card : CardId) (s : State), s.canonical = true → (cardAt s card).serving = true →
      (∃ n ∈ s.nss, n.2.used = true ∧ n.2.ready = false ∧ ownerOf s n.2.group = card ∧ accumsBack s n.1 = true) →
      ∃ t, exec (.namespacesReady card) s = .next t ∧ t.nss.map Prod.fst = s.nss.map Prod.fst ∧
        (∀ n ∈ t.nss, n.2.used = true → ownerOf t n.2.group = card → accumsBack s n.1 = true → n.2.ready = true) ∧
        (∀ n ∈ s.nss, n.2.used = false ∨ n.2.ready = true ∨ ownerOf s n.2.group ≠ card ∨ accumsBack s n.1 = false → n ∈ t.nss) ∧
        (∀ n ∈ s.nss, n.2.used = true → n.2.ready = false → ownerOf s n.2.group = card → accumsBack s n.1 = true →
          n.1 ∈ (ctrlAt t .h0).changedNs ∧ n.1 ∈ (ctrlAt t .h1).changedNs) ∧
        { t with nss := s.nss, c0 := s.c0, c1 := s.c1, events := s.events, cqes := s.cqes, tx := s.tx } = s)) ∧
  (∀ (straps : BitVec 5) (found : Nat) (s : State), s.time.bus = false →
      ∃ t, exec (.modulePowerOn straps found) s = .next t ∧ t.sheaf.pos = straps.toNat % 16 ∧
        t.sheaf.st = (if ((List.range 5).filter fun n => straps.getLsbD n).length % 2 = 1 then 0 else 4) ∧
        (((List.range 5).filter fun n => straps.getLsbD n).length % 2 ≠ 1 → t.sheaf.u0.link = 4 ∧ t.sheaf.u1.link = 4))

/-- Each of the four controller resets leaves the controller disabled and without I/O queues, and the partner's queues untouched
(R174, R176, R143, R210). -/
def Obligations.ControllerResetsClearTheController : Prop :=
  ∀ (p : Port) (s : State) (c : Instr), (c = .ccEnClear p ∧ (ctrlAt s p).rdy = true ∨ c = .functionLevelReset p ∨ c = .controllerLevelReset p ∨ c = .pcieLinkLoss p) →
      (ctrlAt s p).link = true → s.cmds = [] → (∀ n ∈ s.nss, n.2.deleting = none) → (∀ x ∈ s.slices, x.2.waiter = none) →
      ∃ t, exec c s = .next t ∧ (ctrlAt t p).rdy = false ∧ (ctrlAt t p).cc.getLsbD 0 = false ∧ (ctrlAt t p).aers = [] ∧
        (ctrlAt t p).link = (c != .pcieLinkLoss p) ∧ (∀ q, q ∈ t.sqs ↔ q ∈ s.sqs ∧ q.1 / 65536 ≠ portNo p) ∧
        (∀ q, q ∈ t.cqs ↔ q ∈ s.cqs ∧ q.1 / 65536 ≠ portNo p) ∧ (∀ q, q ≠ p → ctrlAt t q = ctrlAt s q) ∧
        t.zones.map Prod.fst = s.zones.map Prod.fst ∧ t.slices.map Prod.fst = s.slices.map Prod.fst ∧
        { t with sqs := s.sqs, cqs := s.cqs, c0 := s.c0, c1 := s.c1, zones := s.zones, slices := s.slices, pair := s.pair, power := s.power,
                 sheaf := s.sheaf, sec := s.sec, events := s.events, nss := s.nss, fronds := s.fronds, heldAdmin := s.heldAdmin, jobs := s.jobs,
                 jA := s.jA, jB := s.jB, metas := s.metas } = s

/-- CSTS.NSSRO: set by the module in the cycle of a host write of 1, it stays set (R14). -/
def Obligations.SetBitOutlivesAWriteOfOne : Prop :=
  ∀ (p : Port) (v hw : BitVec 64) (s : State), (ctrlAt s p).link = true →
      ∃ t, exec (.registerWrite p .csts v hw) s = .next t ∧
        (v.getLsbD 4 = true → hw.getLsbD 4 = true → (ctrlAt t p).nssro = true) ∧
        (v.getLsbD 4 = true → hw.getLsbD 4 = false → (ctrlAt t p).nssro = false) ∧
        (v.getLsbD 4 = false → hw.getLsbD 4 = false → (ctrlAt t p).nssro = (ctrlAt s p).nssro) ∧
        t = updCtrl p (fun c => { c with nssro := (ctrlAt t p).nssro }) s

/-- Host register writes, doorbells, shutdown and link-up act on their own controller or queue alone (R11, R49, R174, R175, R211,
R427). -/
def Obligations.PortRegistersAndDoorbells : Prop :=
  (∀ (p : Port) (v hw : BitVec 64) (s : State), (ctrlAt s p).link = true →
      exec (.registerWrite p .aqa v hw) s = .next (updCtrl p (fun c => { c with aqa := v.setWidth 32 }) s) ∧
      exec (.registerWrite p .asq v hw) s = .next (updCtrl p (fun c => { c with asq := v }) s) ∧
      exec (.registerWrite p .acq v hw) s = .next (updCtrl p (fun c => { c with acq := v }) s) ∧
      (∃ t, exec (.registerWrite p .intms v hw) s = .next t ∧ ∀ i < 32, (ctrlAt t p).intm.getLsbD i = ((ctrlAt s p).intm.getLsbD i || v.getLsbD i)) ∧
      (∃ t, exec (.registerWrite p .intmc v hw) s = .next t ∧ ∀ i < 32, (ctrlAt t p).intm.getLsbD i = ((ctrlAt s p).intm.getLsbD i && !v.getLsbD i)) ∧
      (v.getLsbD 0 = true → (cardAt s (cardOf p)).serving = true → ∃ t, exec (.registerWrite p .cc v hw) s = .next t ∧ (ctrlAt t p).rdy = true ∧
        (ctrlAt t p).cc = v.setWidth 32 ∧ { t with c0 := s.c0, c1 := s.c1 } = s ∧ ∀ q, q ≠ p → ctrlAt t q = ctrlAt s q)) ∧
    (∀ (p : Port) (id tail cnt : Nat) (s : State), id ≠ 0 → (sqAt s (qKey p id)).used = true → tail ≤ (sqAt s (qKey p id)).size →
      (ctrlAt s p).link = true → s.power.entry = none → s.power.ps < 3 →
      ∃ t, exec (.sqTailDoorbell p id tail cnt) s = .next t ∧ (sqAt t (qKey p id)).tail = tail ∧
        (∃ i, (tail, s.time.start + cnt) = i ∧ i ∈ (sqAt t (qKey p id)).bells) ∧
        (∀ k, k ≠ qKey p id → sqAt t k = sqAt s k) ∧ { t with sqs := s.sqs, time := s.time } = s) ∧
    (∀ (p : Port) (id head : Nat) (s : State), (cqAt s (qKey p id)).used = true → head ≤ (cqAt s (qKey p id)).size → (ctrlAt s p).link = true →
      ∃ t, exec (.cqHeadDoorbell p id head) s = .next t ∧ cqAt t (qKey p id) = { cqAt s (qKey p id) with head := head } ∧
        (∀ k, k ≠ qKey p id → cqAt t k = cqAt s k) ∧ { t with cqs := s.cqs } = s) ∧
    (∀ (p : Port) (s : State), (ctrlAt s p).link = true → (ctrlAt s p).rdy = true → (ctrlAt s p).shst = 0 →
      ∃ t, exec (.shutdownNotification p) s = .next t ∧ ctrlAt t p = { ctrlAt s p with shst := 1, stopped := true } ∧
        (∀ q, q ≠ p → ctrlAt t q = ctrlAt s q) ∧ { t with c0 := s.c0, c1 := s.c1 } = s ∧
        ∀ e : Sqe, e.port = p → e.sqid ≠ 0 → exec (.commandFetch e) t = .next t) ∧
    (∀ (p : Port) (s : State), (ctrlAt s p).shst = 1 → (∀ c ∈ s.cmds, c.2.e.port = p → c.2.e.sqid = 0) → adminOwed s p = false →
      ∃ t, exec (.shutdownComplete p) s = .next t ∧ ctrlAt t p = { ctrlAt s p with shst := 2 } ∧ (∀ q, q ≠ p → ctrlAt t q = ctrlAt s q) ∧
        { t with c0 := s.c0, c1 := s.c1, time := s.time } = s) ∧
    (∀ (p : Port) (s : State) (c : Nat × Cmd), c ∈ s.cmds → c.2.e.port = p → c.2.e.sqid ≠ 0 → exec (.shutdownComplete p) s = .next s) ∧
    (∀ (p : Port) (s : State), adminOwed s p = true → exec (.shutdownComplete p) s = .next s) ∧
    (∀ (p : Port) (s : State), (cardAt s (cardOf p)).serving = true →
      ∃ t, exec (.pcieLinkUp p) s = .next t ∧ ctrlAt t p = { ctrlAt s p with link := true } ∧ (∀ q, q ≠ p → ctrlAt t q = ctrlAt s q) ∧
        { t with c0 := s.c0, c1 := s.c1 } = s)

/-- A fetch advances its queue's head by one entry, counts for its slice and holds the command with its classes (R49, R159, R196,
R205, R227, R231). -/
def Obligations.FetchTakesTheHeadEntry : Prop :=
  (∀ (e : Sqe) (s : State), e.sqid ≠ 0 → s.canonical = true → ioFetch s e.port = true → (sqAt s (qKey e.port e.sqid)).used = true →
      (sqAt s (qKey e.port e.sqid)).frozen = false → (sqAt s (qKey e.port e.sqid)).head ≠ (sqAt s (qKey e.port e.sqid)).tail →
      ((sqAt s (qKey e.port e.sqid)).slice = 0 ∨ (sliceAt s (sqAt s (qKey e.port e.sqid)).slice).st = 1) →
      draining s (cardOf e.port) e.nsid = false →
      ∃ (t : State) (c : Cmd), exec (.commandFetch e) s = .next t ∧ t.cmds = tins s.cmds s.next c ∧ c.e = e ∧ c.st = .fetched ∧
        c.slice = (sqAt s (qKey e.port e.sqid)).slice ∧ c.gen = (sliceAt s c.slice).gen.toNat ∧ c.card = cardOf e.port ∧ c.fetched = s.time.fc ∧
        (c.svc = .bound → c.deadline.isSome = true) ∧
        (sqAt t (qKey e.port e.sqid)).head = (if (sqAt s (qKey e.port e.sqid)).head + 1 > (sqAt s (qKey e.port e.sqid)).size then 0 else (sqAt s (qKey e.port e.sqid)).head + 1) ∧
        (sqAt t (qKey e.port e.sqid)).tail = (sqAt s (qKey e.port e.sqid)).tail ∧
        (sliceAt t c.slice).fetched = (sliceAt s c.slice).fetched + 1 ∧ (∀ k, k ≠ c.slice → sliceAt t k = sliceAt s k) ∧
        (∀ k, k ≠ qKey e.port e.sqid → sqAt t k = sqAt s k) ∧
        { t with sqs := s.sqs, slices := s.slices, rules := s.rules, feat := s.feat, stats := s.stats, cmds := s.cmds, next := s.next, time := s.time, spA := s.spA, spB := s.spB } = s) ∧
    (∀ (e : Sqe) (s : State), e.sqid = 0 → ∃ t, exec (.commandFetch e) s = .next t ∧ (sliceAt t 0).fetched = (sliceAt s 0).fetched + 1 ∧
        (∀ k, k ≠ 0 → sliceAt t k = sliceAt s k) ∧ { t with slices := s.slices, time := s.time } = s)

/-- Each PEU fault sets its FAULTS bit and STATE; a lost feed hands the output to hold-up (R391, R398, R399). -/
def Obligations.PeuFaultsTakeTheOutputOrHoldUp : Prop :=
  ∀ (p : PeuId) (s : State), (peuAt s p).present = true → delivers (peuAt s (otherPeu p)) = true →
    ∀ r ∈ [(Instr.feedUnderVoltage p, 1, 3, true), (.feedOverVoltage p, 2, 3, false), (.reversePolarity p, 0, 3, true), (.openReturn p, 3, 3, true),
      (.inputShort p, 4, 7, false), (.outputOverCurrent p, 5, 4, false), (.peuOverTemperature p, 6, 5, false)],
      ∃ t, exec r.1 s = .next t ∧ (peuAt t p).st = (if (peuAt s p).st = 7 then 7 else r.2.2.1) ∧
        (∀ n < 16, (peuAt t p).faults.getLsbD n = ((peuAt s p).faults.getLsbD n || n == r.2.1)) ∧
        (peuAt t p).holdUp = (r.2.2.2 && delivers (peuAt s p)) ∧
        { peuAt t p with st := (peuAt s p).st, faults := (peuAt s p).faults, holdUp := (peuAt s p).holdUp, feed := (peuAt s p).feed, inSwitch := (peuAt s p).inSwitch, offAt := (peuAt s p).offAt } = peuAt s p ∧
        (peuAt t p).offAt = (if r.1 = .outputOverCurrent p then now s else (peuAt s p).offAt) ∧
        peuAt t (otherPeu p) = peuAt s (otherPeu p) ∧ t.tx = s.tx ++ [.peuAlarm p (peuAt t p).faults.toNat ((peuAt s p).m.vin % 65536).toNat (peuAt t p).st] ∧
        { t with power := s.power, tx := s.tx } = s ∧ { t.power with peuA := s.power.peuA, peuB := s.power.peuB } = s.power

/-- Feed start, over-voltage recovery, hiccup and cooled PEUs restart; hold-up ends by return or expiry (R391, R399). Two faults at once are the model's choice (log entry 205). -/
def Obligations.PeuRestartsAndHoldUp : Prop :=
  (∀ (p : PeuId) (s : State) (c : Instr) (hot : Bool), (peuAt s p).present = true → (peuAt s p).keltan = true →
      hot = ((peuAt s p).faults.getLsbD 6 && decide (c ≠ .peuTemperatureRecovery p)) →
      (c = .feedStart p ∧ ((peuAt s p).st = 0 ∨ (peuAt s p).st = 1 ∨ (peuAt s p).st = 3) ∧ (peuAt s p).holdUp = false ∧ (peuAt s p).faults.getLsbD 2 = false ∨
       c = .overVoltageRecovery p ∧ (peuAt s p).st = 3 ∧ (peuAt s p).faults.getLsbD 2 = true ∨
       c = .hiccupRestart p ∧ (peuAt s p).st = 4 ∧ elapsed s (peuAt s p).offAt 400 = true ∨
       c = .peuTemperatureRecovery p ∧ (peuAt s p).st = 5 ∧ (peuAt s p).feed = true) →
      ∃ t, exec c s = .next t ∧ (peuAt t p).st = (if (peuAt s p).disabled then 6 else if hot then 5 else 2) ∧ (peuAt t p).outOn = (!(peuAt s p).disabled && !hot) ∧
        (∀ n < 16, (peuAt t p).faults.getLsbD n = ((peuAt s p).faults.getLsbD n && ([4, 7, 8, 9, 10, 11, 12, 13, 14, 15].contains n || (n == 6 && hot)))) ∧
        (peuAt t p).feed = true ∧ (peuAt t p).inSwitch = true ∧ (peuAt t p).holdUp = false ∧ s.peuBecomes t p (peuAt t p)) ∧
    (∀ (p : PeuId) (s : State), (peuAt s p).present = true → (peuAt s p).st = 5 → (peuAt s p).feed = false →
      ∃ t, exec (.peuTemperatureRecovery p) s = .next t ∧ s.peuBecomes t p (peuAt t p) ∧ (peuAt t p).st = (if (peuAt s p).disabled then 6 else 3) ∧
        (∀ n < 16, (peuAt t p).faults.getLsbD n = ((peuAt s p).faults.getLsbD n && n != 6)) ∧ (peuAt t p).outOn = (peuAt s p).outOn) ∧
    (∀ (p : PeuId) (s : State), (peuAt s p).faults.getLsbD 2 = true → exec (.feedStart p) s = .next s) ∧
    (∀ (p : PeuId) (s : State), (peuAt s p).holdUp = true → s.power.feedLost = false →
      ∃ t, exec (.feedReturnWithinHoldUp p) s = .next t ∧ s.peuBecomes t p (peuAt t p) ∧ (peuAt t p).st = 2 ∧ (peuAt t p).holdUp = false ∧
        (peuAt t p).feed = true ∧ (peuAt t p).outOn = (peuAt s p).outOn) ∧
    (∀ (p : PeuId) (s : State), (peuAt s p).holdUp = true → delivers (peuAt s (otherPeu p)) = true →
      exec (.holdUpExpiry p) s = .next (updPeu p (fun x => { x with holdUp := false }) s)) ∧
    (∀ (p : PeuId) (s : State), s.time.bus = true → (peuAt s p).holdUp = true → (peuAt s p).st ≠ 2 → delivers (peuAt s (otherPeu p)) = false →
      ∃ t, exec (.holdUpExpiry p) s = .next t ∧ t.time.bus = false ∧ t.time.ep = s.time.ep ∧ t.time.fc = s.time.fc)

/-- STATUS, ALARM, silence and the fallback of C at the cards (R393, R395, R397, R398, R399). -/
def Obligations.CardsFollowPeuStatus : Prop :=
  (∀ (p : PeuId) (meas : PeuMeasure) (s : State), (peuAt s p).present = true → (peuAt s p).keltan = true →
      ∃ (t : State) (st : PeuStatusMsg), exec (.peuStatusSend p meas) s = .next t ∧ t.tx = s.tx ++ [.peuStatus p st] ∧ st.m = meas ∧ st.state = (peuAt s p).st ∧
        st.faults = (peuAt s p).faults ∧ st.iLimit = (peuAt s p).iLimit ∧ st.margin = (peuAt s p).margin ∧ st.bank = (peuAt s p).bank ∧
        st.caSilent = min 255 (s.time.fc - (peuAt s p).heardA) ∧ (peuAt t p).m = meas ∧ peuAt t (otherPeu p) = peuAt s (otherPeu p) ∧
        { t with power := s.power, tx := s.tx } = s) ∧
    (∀ (c : CardId) (p : PeuId) (a : BitVec 8) (st : PeuStatusMsg) (s : State), (cardAt s c).serving = true → (peuAt s p).present = true →
      (peuAt s p).keltan = true → cardRx (peuAt s p) c ≠ some a → (peuAt s p).upd ≠ 3 →
      ∃ t, exec (.peuStatus c p a true st) s = .next t ∧ (peuAt t p).status = st ∧ (peuAt t p).unknown = false ∧
        (match c with | .ca => (peuAt t p).atA | .cb => (peuAt t p).atB) = some (now s) ∧ peuAt t (otherPeu p) = peuAt s (otherPeu p) ∧
        t.power.staleSince = none ∧ t.power.capacity = peuTerm t t.power.peuA + peuTerm t t.power.peuB ∧
        { t with power := s.power, tx := s.tx, cqes := s.cqes, events := s.events, c0 := s.c0, c1 := s.c1, memA := s.memA, memB := s.memB, fronds := s.fronds } = s) ∧
    (∀ (c : CardId) (p : PeuId) (a : BitVec 8) (faults : BitVec 16) (vin : Int) (st : Nat) (s : State), (cardAt s c).serving = true →
      (peuAt s p).keltan = true → cardRx (peuAt s p) c ≠ some a →
      ∃ t, exec (.alarm c p a faults vin st) s = .next t ∧ (peuAt t p).status.faults = faults ∧ (peuAt t p).status.state = st ∧ (peuAt t p).status.m.vin = vin ∧
        peuAt t (otherPeu p) = peuAt s (otherPeu p) ∧
        (faults.getLsbD 1 = true → (peuAt s p).status.faults.getLsbD 1 = false →
          ((peuAt s (otherPeu p)).present && (peuAt s (otherPeu p)).status.state == 2) = false →
          t.power.feedLost = true ∧ (s.power.feedLost = false → ∀ f < 16, (frondAt t f).noSegs = true)) ∧
        { t with power := s.power, tx := s.tx, cqes := s.cqes, events := s.events, c0 := s.c0, c1 := s.c1, memA := s.memA, memB := s.memB, fronds := s.fronds } = s) ∧
    (∀ (p : PeuId) (s : State) (f : Nat), (cardAt s .ca).serving = true → (peuAt s p).downA = false → (peuAt s p).atA = some f → elapsed s f 16 = true →
      ∃ t, exec (.statusSilence .ca p) s = .next t ∧ (peuAt t p).downA = true ∧ (peuAt t p).atA = none ∧
        { peuAt t p with downA := false, atA := some f } = peuAt s p ∧ peuAt t (otherPeu p) = peuAt s (otherPeu p)) ∧
    (∀ (p : PeuId) (s : State) (f : Nat), (cardAt s .cb).serving = true → (peuAt s p).downB = false → (peuAt s p).atB = some f → elapsed s f 16 = true →
      ∃ t, exec (.statusSilence .cb p) s = .next t ∧ (peuAt t p).downB = true ∧ (peuAt t p).atB = none ∧
        { peuAt t p with downB := false, atB := some f } = peuAt s p ∧ peuAt t (otherPeu p) = peuAt s (otherPeu p)) ∧
    (∀ (s : State) (f : Nat), s.power.staleSince = some f → someCurrent s = false → elapsed s f 400 = true →
      ∃ t, exec .capacityFallback s = .next t ∧ t.power = { s.power with capacity := 150 } ∧
        { t with power := s.power, tx := s.tx, cqes := s.cqes, events := s.events, c0 := s.c0, c1 := s.c1 } = s)

/-- Barrier commands at a PEU: each accepted command of the commander runs and is acknowledged; refusals are NAKs (R395, R396,
R402, R403, R404). -/
def Obligations.PeuCommandsRunAtThePeu : Prop :=
  ∀ (p : PeuId) (m : BarrierCmd) (s : State), s.peuTakes p m = true →
      (∃ t, exec (.cardStatus p m.card m.alive m.crcOk) s = .next t ∧ (match m.card with | .ca => (peuAt t p).heardA | .cb => (peuAt t p).heardB) = s.time.fc ∧
        peuLike (peuAt t p) (peuAt s p) ∧ s.peuBecomes t p (peuAt t p)) ∧
      (∀ type : BitVec 8, ∃ t, exec (.barrierUnknownType p true m type) s = .next t ∧ s.peuAnswers t p m type.toNat 2 0 (peuAt s p)) ∧
      (∃ t, exec (.barrierUnknownType p false m 0xFF) s = .next t ∧
        ((memAt t m.card).alive.getD 0 {}).crcFails = (if (memAt s m.card).alive = [] then 0 else (((memAt s m.card).alive.getD 0 {}).crcFails + 1) % 2 ^ 32) ∧
        { t with memA := s.memA, memB := s.memB } = s ∧ memAt t (other m.card) = memAt s (other m.card)) ∧
      (m.card ≠ s.time.master → delivers (peuAt s p) = true ∨ delivers (peuAt s (otherPeu p)) = true → ∀ (n o : Nat) (g : Int) (b sha : List Byte) (v : BitVec 32),
        ∀ r ∈ [(Instr.outputEnable p m, 0x10), (.outputDisable p m, 0x11), (.currentLimitSet p m n, 0x12), (.marginSet p m g, 0x13), (.imageBlock p m o b, 0x20),
          (.imageEnd p m n sha, 0x21), (.imageActivate p m, 0x22), (.calRead p m n, 0x30), (.calWrite p m n v, 0x31)],
        ∃ t, exec r.1 s = .next t ∧ s.peuAnswers t p m r.2 2 0 (peuAt s p)) ∧
      (m.card = s.time.master →
        ((peuAt s p).st = 6 → (peuAt s p).feed = true → ∃ t, exec (.outputEnable p m) s = .next t ∧
          s.peuAnswers t p m 0x10 0 0 { peuAt s p with
            disabled := false, inSwitch := true, holdUp := false, st := if (peuAt s p).faults.getLsbD 6 then 5 else 2, outOn := !(peuAt s p).faults.getLsbD 6,
            faults := clrBits (peuAt s p).faults [0, 1, 2, 3, 5] }) ∧
        (delivers (peuAt s (otherPeu p)) = true → ∃ t, exec (.outputDisable p m) s = .next t ∧
          s.peuAnswers t p m 0x11 0 0 { peuAt s p with disabled := true, outOn := false, holdUp := false, st := if (peuAt s p).st = 7 then 7 else 6 }) ∧
        (∀ n : Nat, ∃ t, exec (.currentLimitSet p m n) s = .next t ∧
          (40 ≤ n → n ≤ 100 → s.peuAnswers t p m 0x12 0 0 { peuAt s p with iLimit := n }) ∧ (n < 40 ∨ 100 < n → s.peuAnswers t p m 0x12 1 0 (peuAt s p))) ∧
        (∀ n : Int, ∃ t, exec (.marginSet p m n) s = .next t ∧
          (-50 ≤ n → n ≤ 50 → s.peuAnswers t p m 0x13 0 0 { peuAt s p with margin := n }) ∧ (n < -50 ∨ 50 < n → s.peuAnswers t p m 0x13 1 0 (peuAt s p))) ∧
        (∀ (o : Nat) (b : List Byte), ∃ t, exec (.imageBlock p m o b) s = .next t ∧
          (b.length = 256 → o % 256 = 0 → o + 256 ≤ 524288 →
            s.peuAnswers t p m 0x20 0 0 { peuAt s p with updating := true, checked := false, blocks := tins (peuAt s p).blocks o b }) ∧
          (b.length ≠ 256 ∨ o % 256 ≠ 0 ∨ 524288 < o + 256 → s.peuAnswers t p m 0x20 1 0 (peuAt s p))) ∧
        (∀ (len : Nat) (sha code : List Byte), code = ((List.range (cdiv len 256)).flatMap fun i => fitTo 256 (tget [] (peuAt s p).blocks (i * 256))).take len →
          ∃ t : State, exec (.imageEnd p m len sha) s = .next t ∧
          (Config.sha256 code ≠ sha → s.peuAnswers t p m 0x21 1 0 (peuAt s p)) ∧
          (Config.sha256 code = sha → sha ≠ (peuAt s p).code → s.peuAnswers t p m 0x21 0 0 { peuAt s p with checked := true, idle := sha }) ∧
          (Config.sha256 code = sha → sha = (peuAt s p).code → s.peuAnswers t p m 0x21 0 0 { peuAt s p with updating := false, checked := false, blocks := [] })) ∧
        (∃ t, exec (.imageActivate p m) s = .next t ∧
          ((peuAt s p).checked = true → otherOn s p = true → s.peuAnswers t p m 0x22 0 0 { peuAt s p with
            bank := !(peuAt s p).bank, code := (peuAt s p).idle, idle := (peuAt s p).code, checked := false, updating := false, blocks := [] }) ∧
          ((peuAt s p).checked = false ∨ otherOn s p = false → s.peuAnswers t p m 0x22 3 0 (peuAt s p))) ∧
        (∀ n, ∃ t, exec (.calRead p m n) s = .next t ∧ (n < 256 → s.peuAnswers t p m 0x30 0 (calOf (peuAt s p) p n).toNat (peuAt s p)) ∧
          (256 ≤ n → s.peuAnswers t p m 0x30 1 0 (peuAt s p))) ∧
        (∀ n < 256, ∀ v : BitVec 32, s.sec.level ≠ 0 → ∃ t, exec (.calWrite p m n v) s = .next t ∧ s.peuAnswers t p m 0x31 2 0 (peuAt s p)) ∧
        (∀ n < 256, ∀ v : BitVec 32, s.sec.level = 0 → ∃ (t : State) (r : EventRec), exec (.calWrite p m n v) s = .next t ∧
          calOf (peuAt t p) p n = v ∧ peuLike (peuAt t p) { peuAt s p with cal := tins (peuAt s p).cal n v } ∧ t.tx = s.tx ++ [.peuAck p m.card 0x31 m.alive.toNat 0 0] ∧
          t.events = { s.events with changeQ := s.events.changeQ ++ [(r, none)] } ∧ r.code = 0x10 ∧ r.cls = 3 ∧
          { t with power := s.power, tx := s.tx, events := s.events } = s))

/-- Acknowledgements, retries and code updates at the commander (R396, R402, R404). -/
def Obligations.CommanderFollowsAcknowledgements : Prop :=
  (∀ (c : CardId) (p : PeuId) (type a : BitVec 8) (result : Nat) (d : BitVec 32) (s : State) (x : BarrierTx) (port : Port) (cid o : Nat),
      (cardAt s c).serving = true → (peuAt s p).out.find? (fun t => t.type == type.toNat && t.alive == a.toNat) = some x → 0x10 ≤ x.type → x.type ≤ 0x13 →
      x.cmd = some (port, cid, o) →
      ∃ (t : State) (r : EventRec) (q : Cqe), exec (.ackNak c p type a result d) s = .next t ∧ (peuAt t p).out = (peuAt s p).out.filter (· ≠ x) ∧
        t.events = { s.events with changeQ := s.events.changeQ ++ [(r, some q)] } ∧ q.port = port ∧ q.cid = cid ∧ q.sct = 0 ∧
        q.sc = (if result = 0 then 0 else if result = 1 then 2 else 6) ∧
        (peuAt t p).iSaved = (if result = 0 ∧ x.type = 0x12 then x.payload.getD 0 100 else (peuAt s p).iSaved) ∧
        { peuAt t p with out := (peuAt s p).out, iSaved := (peuAt s p).iSaved } = peuAt s p ∧ peuAt t (otherPeu p) = peuAt s (otherPeu p) ∧
        { t with power := s.power, events := s.events, sec := s.sec } = s) ∧
    (∀ (p : PeuId) (s : State) (x : BarrierTx) (rest : List BarrierTx), (peuAt s p).out = x :: rest → x.retries < 3 → x.viaPartner = false →
      elapsed s x.sent 8 = true →
      ∃ (t : State) (a : Nat), exec (.barrierCommandTimeout p) s = .next t ∧ (peuAt t p).out = { x with retries := x.retries + 1, alive := a, sent := now s } :: rest ∧
        a = (aliveTo (peuAt s p) s.time.master + 1) % 256 ∧ t.tx = s.tx ++ [.barrier p s.time.master x.type a x.payload] ∧
        peuAt t (otherPeu p) = peuAt s (otherPeu p) ∧ { t with power := s.power, tx := s.tx } = s) ∧
    (∀ (p : PeuId) (s : State), (peuAt s p).present = true → (peuAt s p).upd = 3 → (peuAt s p).checked = false → elapsed s (peuAt s p).actFc 400 = true →
      ∃ t, exec (.peuUpdatingTimeout p) s = .next t ∧ (peuAt t p).bank = !(peuAt s p).bank ∧ (peuAt t p).code = (peuAt s p).idle ∧
        (peuAt t p).idle = (peuAt s p).code ∧ (peuAt t p).faults.getLsbD 7 = true ∧ (peuAt t p).updating = false ∧ (peuAt t p).upd = 0 ∧
        peuAt t (otherPeu p) = peuAt s (otherPeu p) ∧ { t with power := s.power, tx := s.tx } = s) ∧
    (∀ (p : PeuId) (s : State), (peuAt s p).present = true → (peuAt s p).upd = 3 → (∀ x ∈ (peuAt s p).out, x.type ≠ 0x22) → elapsed s (peuAt s p).actFc 400 = true →
      ∃ (t : State) (a : Nat), exec (.peuActivateRetry p) s = .next t ∧ (peuAt t p).out = (peuAt s p).out ++ [{ type := 0x22, alive := a, sent := now s }] ∧
        (peuAt t p).actFc = now s ∧ t.tx = s.tx ++ [.barrier p s.time.master 0x22 a []] ∧ peuAt t (otherPeu p) = peuAt s (otherPeu p) ∧
        { t with power := s.power, tx := s.tx } = s)

/-- A trip opens a slot's fuse and latches after the third retry; retries and the hold reset the count (R400, R401, R413). -/
def Obligations.SlotFusesTripAndRetry : Prop :=
  (∀ (f : Frond) (s : State), (fuseAt s f.val).off = false → (fuseAt s f.val).latched = false →
      ((frondAt s f.val).state = 3 ∨ (frondAt s f.val).state = 4 ∨ (frondAt s f.val).state = 8) →
      ∃ t, exec (.fuseTrip (.frond f)) s = .next t ∧ (fuseAt t f.val).off = true ∧ (fuseAt t f.val).latched = decide (3 ≤ (fuseAt s f.val).retries) ∧
        (fuseAt t f.val).trip = some ((fuseAt s f.val).trip.getD (now s)) ∧ (fuseAt t f.val).retries = (fuseAt s f.val).retries ∧
        (∀ k, k ≠ f.val → fuseAt t k = fuseAt s k) ∧ { t.power with fuses := s.power.fuses } = s.power ∧
        { t with power := s.power, events := s.events, cqes := s.cqes, tx := s.tx, c0 := s.c0, c1 := s.c1 } = s) ∧
    (∀ (c : CardId) (s : State), (fuseAt s (16 + cardNo c)).off = false → (fuseAt s (16 + cardNo c)).latched = false → (cardAt s c).serving = false →
      (cardAt s c).why ≠ .foreign →
      ∃ t, exec (.fuseTrip (.card c)) s = .next t ∧ (fuseAt t (16 + cardNo c)).off = true ∧
        (fuseAt t (16 + cardNo c)).latched = decide (3 ≤ (fuseAt s (16 + cardNo c)).retries) ∧ (∀ k, k ≠ 16 + cardNo c → fuseAt t k = fuseAt s k) ∧
        cardAt t c = { cardAt s c with fuseOn := false, entering := 0, held := false } ∧ cardAt t (other c) = cardAt s (other c) ∧
        { t with power := s.power, pair := s.pair, events := s.events, cqes := s.cqes, tx := s.tx, c0 := s.c0, c1 := s.c1 } = s) ∧
    (∀ (f : Frond) (s : State) (k : Nat), (fuseAt s f.val).trip = some k → (fuseAt s f.val).off = true → (fuseAt s f.val).latched = false →
      (fuseAt s f.val).retries < 3 → elapsed s k (4000 * ((fuseAt s f.val).retries + 1)) = true → (frondAt s f.val).present = false →
      ∃ t, exec (.fuseRetry (.frond f)) s = .next t ∧
        fuseAt t f.val = (if s.power.ps = 4 then { fuseAt s f.val with due := true }
          else { fuseAt s f.val with off := false, retries := (fuseAt s f.val).retries + 1, onSince := some (now s), due := false }) ∧
        (∀ j, j ≠ f.val → fuseAt t j = fuseAt s j) ∧ { t with power := s.power } = s) ∧
    (∀ (c : CardId) (s : State) (k : Nat), (fuseAt s (16 + cardNo c)).trip = some k → (fuseAt s (16 + cardNo c)).off = true → (fuseAt s (16 + cardNo c)).latched = false →
      (fuseAt s (16 + cardNo c)).retries < 3 → elapsed s k (4000 * ((fuseAt s (16 + cardNo c)).retries + 1)) = true → (cardAt s c).present = true →
      (cardAt s c).why ≠ .foreign →
      ∃ t, exec (.fuseRetry (.card c)) s = .next t ∧ (fuseAt t (16 + cardNo c)).off = false ∧
        (fuseAt t (16 + cardNo c)).retries = (fuseAt s (16 + cardNo c)).retries + 1 ∧ cardAt t c = { cardAt s c with fuseOn := true, why := .none, entering := 1 } ∧
        cardAt t (other c) = cardAt s (other c) ∧ { t with power := s.power, pair := s.pair } = s) ∧
    (∀ (slot : FuseSlot) (s : State) (f : Nat), (fuseAt s (fuseNo slot)).onSince = some f → elapsed s f 40000 = true →
      exec (.fuseHoldReset slot) s = .next { s with power := { s.power with fuses := tdel s.power.fuses (fuseNo slot) } })

/-- A sensor round sets factors by the hottest reading; shutdown and broken sensors act on their own domain (R419, R420, R421,
R422). The reading at a shutdown is log entry 203. -/
def Obligations.SensorsThrottleAndShutDown : Prop :=
  (∀ (l : List SensorReading) (c : CardId) (s : State), ∃ t, exec (.sensorSlowRound l) s = .next t ∧
        t.power.temps = (dropReadings (l.foldl (fun s r => enterReading r s) s)).power.temps ∧
        (cardAt t c).qFactor = lowest t.power (sensorsOf (16 + cardNo c)) ∧ (cardAt t c).dFactor = lowest t.power (sensorsOf (18 + cardNo c)) ∧
        { t with
          power := s.power, pair := s.pair, fronds := s.fronds, dies := s.dies, reqs := s.reqs, next := s.next, events := s.events, cqes := s.cqes, tx := s.tx, c0 := s.c0, c1 := s.c1 } = s) ∧
    (∀ (x : SensorId) (s : State), sensorOk x = true → sensorOn s x = true → sensorNo x ∉ s.power.broken → s.power.entry = none → s.power.ps < 3 →
      (∀ c n, x ≠ .junction c n) →
      ∃ t, exec (.thermalShutdown x) s = .next t ∧
        (∀ f n, (x = .package f n ∨ x = .filnas f n) → (frondAt t f.val).shutdown = true ∧ (frondAt t f.val).noSegs = true ∧
          (∀ g, g ≠ f.val → frondAt t g = frondAt s g) ∧ t.pair = s.pair) ∧
        (∀ c n, x = .dram c n → cardAt t c = { cardAt s c with writesOff := true } ∧ cardAt t (other c) = cardAt s (other c) ∧ t.fronds = s.fronds) ∧
        (∀ p n, x = .peu p n → t.fronds = s.fronds ∧ t.pair = s.pair) ∧
        t.power = { s.power with
          temps := tput none s.power.temps (sensorNo x) (some (max ((tget none s.power.temps (sensorNo x)).getD 0) (critOfNo (sensorNo x) + 40))) } ∧
        { t with power := s.power, fronds := s.fronds, pair := s.pair, events := s.events, cqes := s.cqes, tx := s.tx, c0 := s.c0, c1 := s.c1 } = s) ∧
    (∀ (x : SensorId) (s : State), sensorOk x = true → sensorOn s x = true → sensorNo x ∉ s.power.broken →
      ∃ t, exec (.sensorBroken x) s = .next t ∧ (∀ m, m ∈ t.power.broken ↔ m = sensorNo x ∨ m ∈ s.power.broken) ∧ t.power.temps = s.power.temps ∧
        { t with power := s.power, pair := s.pair, fronds := s.fronds, events := s.events, cqes := s.cqes, tx := s.tx, c0 := s.c0, c1 := s.c1 } = s) ∧
    (∀ (x : SensorId) (s : State), sensorNo x ∈ s.power.broken →
      ∃ t, exec (.sensorValidAgain x) s = .next t ∧ (∀ m, m ∈ t.power.broken ↔ m ≠ sensorNo x ∧ m ∈ s.power.broken) ∧ t.power.temps = s.power.temps ∧
        { t with power := s.power, pair := s.pair, fronds := s.fronds, events := s.events, cqes := s.cqes, tx := s.tx, c0 := s.c0, c1 := s.c1 } = s)

/-- Entry refused by a late block, regulator answers, oscillator fallback and the end of an exit (R408, R409, R411, R413, R414,
R416). -/
def Obligations.PowerStateMovesEndAsTheySay : Prop :=
  (∀ (block : Nat) (s : State) (en : EntrySt) (p : Port) (cid o : Nat), s.power.entry = some en → en.step ≤ 2 → en.wake = none → en.cmd = some (p, cid, o) →
      en.delaying.contains block = true → elapsed s en.since (if block < 0x10 then 400 else 64) = true → block ≠ 0xFE → cid < 65536 →
      (ctrlAt s p).link = true → (ctrlAt s p).rdy = true →
      ∃ t, exec (.entryDelayExpiry block) s = .next t ∧ t.power.entry = none ∧ t.power.ps = s.power.ps ∧ t.power.lastResult = 2 ∧ t.power.lastBlock = block ∧
        t.power.lastTarget = en.target ∧ t.power.lastFc = s.time.fc ∧ t.power.refused = s.power.refused + 1 ∧ t.power.abandoned = s.power.abandoned ∧
        (∃ q ∈ t.cqes, q.port = p ∧ q.sqid = 0 ∧ q.cid = cid ∧ q.sct = 7 ∧ q.sc = 0x8C ∧ q.dw0 = block) ∧ (∀ q ∈ s.cqes, q ∈ t.cqes) ∧
        { t with power := s.power, events := s.events, cqes := s.cqes, tx := s.tx, c0 := s.c0, c1 := s.c1 } = s) ∧
    (∀ (r : RegId) (s : State), s.power.entry = none →
      exec (.regulatorAck r) s = .next { s with power := { s.power with regReqs := s.power.regReqs.filter (fun q => q.id ≠ r) } }) ∧
    (∀ (r : RegId) (s : State) (q : RegReq), s.power.regReqs.find? (fun q => q.id == r) = some q → q.retries < 3 →
      elapsed s q.sent 8 = true →
      ∃ t, exec (.regulatorTimeout r) s = .next t ∧ t.tx = s.tx ++ [.regulator r] ∧ t.power.regReqs.map (·.id) = s.power.regReqs.map (·.id) ∧
        (∀ x ∈ t.power.regReqs, ∃ y ∈ s.power.regReqs, y.id = x.id ∧ (x.retries = y.retries + if y.id = r then 1 else 0) ∧ x.sent = if y.id = r then now s else y.sent) ∧
        { t.power with regReqs := s.power.regReqs } = s.power ∧ { t with power := s.power, tx := s.tx } = s) ∧
    (∀ (c : CardId) (s : State), (s.power.ps = 4 ∧ s.power.exit ≠ none ∧ (cardAt s c).serving = true ∨
        (cardAt s c).serving = false ∧ (cardAt s c).present = true ∧ (cardAt s c).entering = 1) → (cardAt s c).osc2 = false →
      ∃ t, exec (.oscillatorTimeout c) s = .next t ∧ cardAt t c = { cardAt s c with osc2 := true } ∧ cardAt t (other c) = cardAt s (other c) ∧
        { t with pair := s.pair, events := s.events, cqes := s.cqes, tx := s.tx, c0 := s.c0, c1 := s.c1 } = s) ∧
    (∀ (s : State) (n : Nat) (p : Port) (cid o : Nat), s.power.exit = some { target := n, cmd := some (p, cid, o) } → s.power.regReqs = [] → s.power.fuses = [] →
      s.power.woken = [] → s.power.ps ≠ 4 → cid < 65536 → (ctrlAt s p).link = true → (ctrlAt s p).rdy = true → exitFailures s = [] →
      ∃ t, exec .powerStateExitDone s = .next t ∧ t.power = { s.power with ps := n, exit := none, awake := s.time.start + s.time.count } ∧
        t.cqes = s.cqes ++ [{ port := p, cid := cid }] ∧ t.fronds.map Prod.fst = s.fronds.map Prod.fst ∧
        { t with power := s.power, events := s.events, cqes := s.cqes, fronds := s.fronds } = s) ∧
    (∀ (s u : State) (n : Nat), s.power.exit = some { target := n } → s.power.regReqs = [] → s.power.fuses = [] → s.power.woken = [] → s.power.ps ≠ 4 →
      rising s.engines = true → u = (exitFailures s).foldl (fun s x => engineOut x.1 x.2 0 s) s → tooFew u .ca = false → tooFew u .cb = false →
      ∃ t, exec .powerStateExitDone s = .next t ∧ t.power.ps = n ∧
        (∀ x ∈ exitFailures s, (engAt t (cardNo x.1 * 64 + x.2)).failed = true ∧ (engAt t (cardNo x.1 * 64 + x.2)).forGood = true) ∧
        ∀ k, (∀ x ∈ exitFailures s, k ≠ cardNo x.1 * 64 + x.2) → engAt t k = engAt s k)

/-- Markers, plan close, plan fix, plan message, a late plan and lost markers at a Filnas (R24, R33, R40, R50, R52, R274). -/
def Obligations.FilnasFollowsMarkersAndPlans : Prop :=
  (∀ (f : Frond) (c : CardId) (low : BitVec 16) (ph : Int) (s : State),
      ∃ t, exec (.frameStartMarker f c low ph) s = .next t ∧ (frondAt t f).marked = pset (frondAt s f).marked c true ∧ (frondAt t f).unmarked = 0 ∧
        (c = (frondAt s f).follows → (frondAt t f).marker = low ∧ (frondAt t f).fc = s.time.fc ∧ (-16 ≤ ph → ph ≤ 16 → (frondAt t f).phase = 0) ∧
          (16 < ph → (frondAt t f).phase = ph - 16) ∧ (ph < -16 → (frondAt t f).phase = ph + 16)) ∧
        (c ≠ (frondAt s f).follows → (frondAt t f).marker = (frondAt s f).marker ∧ (frondAt t f).fc = (frondAt s f).fc ∧ (frondAt t f).phase = (frondAt s f).phase) ∧
        { frondAt t f with
          marked := (frondAt s f).marked, unmarked := (frondAt s f).unmarked, marker := (frondAt s f).marker, fc := (frondAt s f).fc,
          phase := (frondAt s f).phase } = frondAt s f ∧
        (∀ g, g ≠ f.val → frondAt t g = frondAt s g) ∧ { t with fronds := s.fronds } = s) ∧
    (∀ (f : Frond) (s : State), pget (frondAt s f).marked s.time.master = false →
      ∃ t, exec (.markerMissing f) s = .next t ∧ t.fronds = tupd {} s.fronds f.val (fun g => { g with follows := other s.time.master }) ∧ { t with fronds := s.fronds } = s) ∧
    (∀ (f : Frond) (s : State), ∃ t, exec (.planClose f) s = .next t ∧ frondAt t f = { frondAt s f with closed := true } ∧
        (∀ g, g ≠ f.val → frondAt t g = frondAt s g) ∧ { t with fronds := s.fronds, time := s.time } = s) ∧
    (∀ (f : Frond) (cnt : Nat) (s : State), cnt ≤ 15872 → s.canonical = true → frondAbsent s f = false → (frondAt s f).nxt.frame ≠ s.time.fc + 1 → (frondAt s f).waiting = [] →
      (frondAt s f).pack = [] → (frondAt s f).cur.reads = [] → s.metas.work = [] → packMetas f (atCount cnt s) = atCount cnt s → s.noFails →
      ∃ t, exec (.framePlanFix f cnt) s = .next t ∧ (frondAt t f).nxt.frame = s.time.fc + 1 ∧ (frondAt t f).nxt.fixed = true ∧ (frondAt t f).nxt.hold = false ∧
        (frondAt t f).nxt.reads = [] ∧ (frondAt t f).nxt.progs = [] ∧ (frondAt t f).nxt.charge ≤ max baseCharge (frondAt s f).allowance ∧
        (∀ d ∈ (frondAt t f).nxt.segs, d ∈ (frondAt s f).opDies) ∧
        t.tx = s.tx ++ [.planMsg f .ca (((frondAt s f).aliveTx.a + 1) % 256) [], .planMsg f .cb (((frondAt s f).aliveTx.b + 1) % 256) []] ∧
        (∀ g, g ≠ f.val → frondAt t g = frondAt s g) ∧ { t with fronds := s.fronds, tx := s.tx, time := s.time } = s) ∧
    (∀ (c : CardId) (f : Frond) (a : BitVec 8) (s : State), pget (frondAt s f).planRx c ≠ some a →
      (pget (frondAt s f).planRx c = none ∨ pget (frondAt s f).planRx c = some (a - 1) ∨ pget (frondAt s f).placed c = [] ∧ s.noFails) →
      ∃ t, exec (.framePlanMessage c f a true) s = .next t ∧ pget (frondAt t f).planRx c = some a ∧ pget (frondAt t f).planHeard c = true ∧
        pget (frondAt t f).planRx (other c) = pget (frondAt s f).planRx (other c) ∧ pget (frondAt t f).planHeard (other c) = pget (frondAt s f).planHeard (other c) ∧
        { frondAt t f with planRx := (frondAt s f).planRx, planHeard := (frondAt s f).planHeard } = frondAt s f ∧ (∀ g, g ≠ f.val → frondAt t g = frondAt s g) ∧
        memAt t (other c) = memAt s (other c) ∧ { memAt t c with alive := (memAt s c).alive } = memAt s c ∧
        ((memAt t c).alive.getD 3 {}).crcFails = ((memAt s c).alive.getD 3 {}).crcFails ∧
        { t with fronds := s.fronds, memA := s.memA, memB := s.memB } = s) ∧
    (∀ (c : CardId) (f : Frond) (a : BitVec 8) (s : State), 3 < (memAt s c).alive.length →
      ∃ t, exec (.framePlanMessage c f a false) s = .next t ∧ (∀ g, frondAt t g = frondAt s g) ∧
        ((memAt t c).alive.getD 3 {}).crcFails = (((memAt s c).alive.getD 3 {}).crcFails + 1) % 2 ^ 32 ∧
        { t with fronds := s.fronds, memA := s.memA, memB := s.memB } = s) ∧
    (∀ (f : Frond) (cnt : Nat) (s : State), frondAbsent s f = false → 15872 ≤ cnt → s.canonical = true → ((frondAt s f).nxt.frame ≠ s.time.fc + 1 ∨ (frondAt s f).nxt.fixed = false) →
      (frondAt s f).waiting = [] → (frondAt s f).lateFcs.length < 7 → (frondAt s f).pack = [] → s.noFails →
      ∃ t, exec (.planLate f cnt) s = .next t ∧ (frondAt t f).nxt = holdPlan s (frondAt s f) (s.time.fc + 1) ∧
        ((frondAt s f).cur.reads = [] → (frondAt t f).nxt = { frame := s.time.fc + 1, hold := true, charge := baseCharge }) ∧
        (frondAt t f).planLate = ((frondAt s f).planLate + 1) % 2 ^ 32 ∧ t.stats = { s.stats with planLate := s.stats.planLate + 1 } ∧
        (∀ g, g ≠ f.val → frondAt t g = frondAt s g) ∧ { t with fronds := s.fronds, stats := s.stats, events := s.events, time := s.time } = s) ∧
    (∀ (f : Frond) (s : State), 16 ≤ (frondAt s f).unmarked → s.canonical = true → frondAbsent s f = false →
      ∃ t, exec (.markerLost f) s = .next t ∧ (frondAt t f).coreFails = (frondAt s f).coreFails + 1 ∧ ((frondAt t f).coreReset = true ↔ (frondAt s f).coreFails = 0) ∧
        (s.reqs = [] → s.cws = [] → s.pieces = [] → (frondAt t f).state = 3 ∧ frondAbsent t f = true))

/-- A media request is placed or refused; suspend, segment check, sense, data-out and decode move it on (R34, R35, R37, R39, R41,
R42, R45, R50, R69, R73). -/
def Obligations.MediaReadsAdvance : Prop :=
  (∀ (n cnt : Nat) (r : Req) (s : State), tfind s.reqs n = some r → r.st = .sent →
      ((frondAt s (frondOfDie r.die)).fenced.contains r.owner = true →
        ∃ t, exec (.mediaRequest n cnt) s = .next t ∧ tfind t.reqs n = some { r with st := .withdrawn } ∧ t.tx = s.tx ++ [.refuse n] ∧
          { t with reqs := s.reqs, tx := s.tx, time := s.time } = s) ∧
      ((frondAt s (frondOfDie r.die)).fenced.contains r.owner = false → superseded s r.slice r.gen = true →
        ∃ t, exec (.mediaRequest n cnt) s = .next t ∧ tfind t.reqs n = some { r with st := .withdrawn, buf := none } ∧
          { t with reqs := s.reqs, memA := s.memA, memB := s.memB, events := s.events, time := s.time } = s) ∧
      ((frondAt s (frondOfDie r.die)).fenced.contains r.owner = false → superseded s r.slice r.gen = false → dieTakes s r = true → r.target ≤ s.time.fc + 64 →
        s.noFails →
        (∀ (k t0 : Nat) (w : Window) (u : State), s.time.fc < r.target → t0 = max (openFrame s (frondOfDie r.die)) r.target →
          u = updReq n (fun x => { x with arrival := s.time.start + cnt }) (atCount cnt s) →
          findFrame u (frondOfDie r.die) (reqAt u n) (s.time.fc + 65 - t0) t0 = some (k, w) →
          ∃ t, exec (.mediaRequest n cnt) s = .next t ∧ tfind t.reqs n = some { r with st := .accepted, frame := some k, win := w, arrival := s.time.start + cnt } ∧
            frondAt t (frondOfDie r.die) = { frondAt s (frondOfDie r.die) with waiting := (frondAt s (frondOfDie r.die)).waiting ++ [n] } ∧
            (∀ g, g ≠ frondOfDie r.die → frondAt t g = frondAt s g) ∧ { t with reqs := s.reqs, fronds := s.fronds, time := s.time } = s) ∧
        (∀ w : Window, r.target ≤ s.time.fc → insertWin (updReq n (fun x => { x with arrival := s.time.start + cnt }) (atCount cnt s)) r n cnt = some w →
          ∃ (t : State) (x : Req), exec (.mediaRequest n cnt) s = .next t ∧ tfind t.reqs n = some x ∧ x.st = (if w = .free then .issued else .planned) ∧ x.win = w ∧
            x.frame = some s.time.fc ∧ (frondAt t (frondOfDie r.die)).cur.reads = (frondAt s (frondOfDie r.die)).cur.reads ++ [n] ∧
            (frondAt t (frondOfDie r.die)).cur.charge = (frondAt s (frondOfDie r.die)).cur.charge + (if w = .free then readCharge r.mask else 50) ∧
            { t with reqs := s.reqs, fronds := s.fronds, dies := s.dies, time := s.time } = s))) ∧
    (∀ (d : Nat) (s : State), (dieAt s d).seg = true → (dieAt s d).op.isSome = true →
      ∃ t, exec (.suspendPoint d) s = .next t ∧ dieAt t d = { dieAt s d with suspending := true } ∧ (∀ k, k ≠ d → dieAt t k = dieAt s k) ∧ { t with dies := s.dies } = s) ∧
    (∀ (d : Nat) (s : State), (frondAt s (frondOfDie d)).cur.reads = [] →
      (∃ t, exec (.segmentCheck d true) s = .next t ∧
        t.dies = tupd {} s.dies d (fun x => { x with
          suspended := x.op.isSome && (x.suspended || x.seg), suspending := false, seg := false, overdue := false, resetting := false, resets := 0 }) ∧
        { t with dies := s.dies, time := s.time } = s) ∧
      ((dieAt s d).overdue = false → (dieAt s d).overruns.length + 1 < s.feat.quarThr → s.noFails →
        ∃ t, exec (.segmentCheck d false) s = .next t ∧ (dieAt t d).overdue = true ∧ (dieAt t d).suspending = true ∧ (dieAt t d).state = (dieAt s d).state ∧
          (dieAt t d).lastOverrun = s.time.start + 8960 ∧ t.stats = { s.stats with segOver := s.stats.segOver + 1 } ∧ (∀ k, k ≠ d → dieAt t k = dieAt s k) ∧
          { t with dies := s.dies, fronds := s.fronds, stats := s.stats, events := s.events, time := s.time } = s)) ∧
    (∀ (d pl cnt n : Nat) (r : Req) (s : State), (dieAt s d).sensing.getD pl none = some n → tfind s.reqs n = some r → r.piece = none →
      s.canonical = true → (dieAt s d).overdue = false → (dieAt s d).overruns.length + 1 < s.feat.quarThr → s.noFails →
      ∃ t, exec (.readCheck d pl cnt false) s = .next t ∧ (dieAt t d).sensing = (dieAt s d).sensing.set pl none ∧
        tfind t.reqs n = some { r with st := .sent, target := s.time.fc + 1, frame := none } ∧ t.stats = { s.stats with rwOver := s.stats.rwOver + 1 } ∧
        (dieAt t d).state = (dieAt s d).state ∧ (∀ k, k ≠ d → dieAt t k = dieAt s k) ∧
        { t with dies := s.dies, fronds := s.fronds, reqs := s.reqs, stats := s.stats, events := s.events, time := s.time } = s) ∧
    (∀ (d pl cnt : Nat) (s : State), (dieAt s d).sensing.getD pl none = none → (dieAt s d).overdue = true → 15680 ≤ cnt → (dieAt s d).op = none →
      (dieAt s d).prog = none → s.noFails →
      ∃ t, exec (.readCheck d pl cnt false) s = .next t ∧ dieAt t d = { dieAt s d with resetting := true, overdue := false } ∧
        (∀ k, k ≠ d → dieAt t k = dieAt s k) ∧ { t with dies := s.dies, time := s.time } = s) ∧
    (∀ (d pl n : Nat) (r : Req) (s : State), (dieAt s d).sensing.getD pl none = some n → (dieAt s d).cache[pl]? = some none → tfind s.reqs n = some r →
      s.canonical = true → ∃ t, exec (.senseEnd d pl) s = .next t ∧ (dieAt t d).cache = (dieAt s d).cache.set pl (some n) ∧ tfind t.reqs n = some { r with st := .sensed } ∧
        (∀ k, k ≠ d → dieAt t k = dieAt s k) ∧ { t with dies := s.dies, reqs := s.reqs } = s) ∧
    (∀ (n : Nat) (r : Req) (s : State), tfind s.reqs n = some r → r.st = .sensed →
      (unwanted r = false → ∃ t, exec (.dataOutEnd n) s = .next t ∧
        tfind t.reqs n = some (if 1 < r.extra then { r with
              st := .sent, extra := r.extra - 1, step := extraStep r.tier (r.extra - 1), target := r.later.head?.getD (s.time.fc + 1), later := r.later.tail,
              frame := none }
          else { r with st := .moved, extra := 0, step := if r.kind = .recal then r.step else 0 }) ∧ t.dies = tupd {} s.dies r.die (fun d => { d with cache := d.cache.map fun c => if c = some n then none else c }) ∧
        { t with dies := s.dies, reqs := s.reqs } = s) ∧
      (unwanted r = true → ∃ t, exec (.dataOutEnd n) s = .next t ∧ tfind t.reqs n = some { r with st := .done, buf := none } ∧
        t.dies = tupd {} s.dies r.die (fun d => { d with cache := d.cache.map fun c => if c = some n then none else c }) ∧
        { t with dies := s.dies, reqs := s.reqs, memA := s.memA, memB := s.memB, events := s.events } = s)) ∧
    (∀ (n cbc cnt p : Nat) (r : Req) (s : State), tfind s.reqs n = some r → n < s.next → r.st = .moved → superseded s r.slice r.gen = false → r.piece = some p →
      (pieceAt s p).route ≠ 3 → s.noTurns →
      (cbc ≤ warnOf s r.die → ∃ t, exec (.decodeResult n r.tier 0 cbc cnt) s = .next t ∧ tfind t.reqs n = some { r with st := .done } ∧
        seAt t r.owner = seAt s r.owner ++ [.decrypt p] ∧ seAt t (other r.owner) = seAt s (other r.owner) ∧
        dieAt t r.die = { dieAt s r.die with
          codewords := ((dieAt s r.die).codewords + if r.tier = .hard ∧ r.failedAt = [] then popMask r.mask else 0) % 2 ^ 32, cbcMax := max (dieAt s r.die).cbcMax (min cbc 65535) } ∧
        (∀ k, k ≠ r.die → dieAt t k = dieAt s k) ∧ { t with dies := s.dies, reqs := s.reqs, seA := s.seA, seB := s.seB, time := s.time } = s) ∧
      (warnOf s r.die < cbc → hostKind r.kind = true → ∃ t, exec (.decodeResult n r.tier 0 cbc cnt) s = .next t ∧
        tfind t.reqs n = some { r with st := .done } ∧ seAt t r.owner = seAt s r.owner ++ [.decrypt p] ∧
        (blkAt t (blkKey r.die r.block)).refresh = true ∧ (∀ k, k ≠ blkKey r.die r.block → blkAt t k = blkAt s k) ∧
        (dieAt t r.die).codewords = ((dieAt s r.die).codewords + if r.tier = .hard ∧ r.failedAt = [] then popMask r.mask else 0) % 2 ^ 32 ∧ (∀ k, k ≠ r.die → dieAt t k = dieAt s k) ∧
        { t with dies := s.dies, reqs := s.reqs, next := s.next, blks := s.blks, seA := s.seA, seB := s.seB, time := s.time } = s))

/-- Erase, channel training, quarantine, refresh, scrub, recalibration and die resets have the effects of their rules (R51, R52,
R62, R64, R65, R74, R75, R76, R77, R81). -/
def Obligations.ErasesChannelsAndUpkeep : Prop :=
  (∀ (d : Nat) (o : LongOp) (s : State), (dieAt s d).op = some o → o.kind = .erase →
      s.canonical = true → ∃ t, exec (.eraseDone d true) s = .next t ∧ (blkAt t (blkKey d o.block)).state = (blkAt s (blkKey d o.block)).after ∧ (blkAt t (blkKey d o.block)).mode = none ∧
        (blkAt t (blkKey d o.block)).qlc = (if (blkAt s (blkKey d o.block)).mode = some true then sat 2 ((blkAt s (blkKey d o.block)).qlc + 1) else (blkAt s (blkKey d o.block)).qlc) ∧
        (blkAt t (blkKey d o.block)).slc = (if (blkAt s (blkKey d o.block)).mode = some true then (blkAt s (blkKey d o.block)).slc else sat 2 ((blkAt s (blkKey d o.block)).slc + 1)) ∧
        (frondAt t (frondOfDie d)).erased = (frondAt s (frondOfDie d)).erased ++ [(blkKey d o.block, (blkAt s (blkKey d o.block)).mode == some true)] ∧
        (frondAt t (frondOfDie d)).recovered = (frondAt s (frondOfDie d)).recovered ++
          (if (blkAt s (blkKey d o.block)).state = 2 then [(blkKey d o.block, max 1 (blkAt s (blkKey d o.block)).recovery)] else []) ∧
        t.dies = tupd {} s.dies d (fun x => { x with op := none, seg := false, suspending := false, suspended := false }) ∧
        (∀ k, k ≠ blkKey d o.block → blkAt t k = blkAt s k) ∧ { t with dies := s.dies, blks := s.blks, fronds := s.fronds } = s) ∧
    (∀ (f : Frond) (n : Nat) (w : MetaWork) (e : List (Nat × Bool)) (r : List (Nat × Nat)) (l : List Nat) (s : State),
      findWork s (isErases f) = some (n, w) → w.of = .erases f.val e r l → w.copies = [] → w.reads = 0 → (∀ k ∈ l, frondOfDie (k / 4096) = f.val) →
      ∃ t, exec (.eraseJournalRecord f) s = .next t ∧ (frondAt t f).erased = (frondAt s f).erased.drop e.length ∧
        (frondAt t f).recovered = (frondAt s f).recovered.drop r.length ∧ (frondAt t f).dirty = (frondAt s f).dirty.filter (fun k => !l.contains k) ∧
        (∀ k, k ∈ l → k ∈ (frondAt s f).dirty → (blkAt t k).intent = true ∧ ∃ o ∈ (dieAt t (k / 4096)).opQ, o.kind = .erase ∧ o.block = k % 4096) ∧
        (∀ k, (k ∉ l ∨ k ∉ (frondAt s f).dirty) → blkAt t k = blkAt s k) ∧ (∀ g, g ≠ f.val → frondAt t g = frondAt s g) ∧
        t.metas = { s.metas with work := tdel s.metas.work n } ∧
        { t with dies := s.dies, blks := s.blks, fronds := s.fronds, metas := s.metas, events := s.events } = s) ∧
    (∀ (c : Nat) (s : State), frondAbsent s (c / 8) = false → (chanAt s c).failed = false → (chanAt s c).trained = true → chanDue s c = true →
      s.power.ps ≤ 2 → (frondAt s (c / 8)).prepared = 0 → (frondAt s (c / 8)).training = none → ((frondAt s (c / 8)).trainStart = 0 ∨ (frondAt s (c / 8)).trainStart + 64 ≤ s.time.fc) →
      ∃ t, exec (.channelRetrainDue c) s = .next t ∧ (chanAt t c).due = true ∧
        (frondAt t (c / 8)).training = some (c, s.time.fc +
          if (frondAt s (c / 8)).nxt.frame = s.time.fc + 1 ∧ ((frondAt s (c / 8)).nxt.fixed = true ∨ (frondAt s (c / 8)).nxt.hold = true) then 3 else 2) ∧
        (frondAt t (c / 8)).trainStart = s.time.fc ∧ (∀ k, k ≠ c → chanAt t k = chanAt s k) ∧ (∀ g, g ≠ c / 8 → frondAt t g = frondAt s g) ∧
        { t with chans := s.chans, fronds := s.fronds } = s) ∧
    (∀ (c eye temp : Nat) (s : State), s.noFails →
      ∃ t, exec (.channelTrainingEnd c [] eye temp) s = .next t ∧
        t.chans = tupd {} s.chans c (fun x => { x with
          trainFc := s.time.fc, trainings := (x.trainings + 1) % 65536, trainTemp := temp, due := false, trained := true,
          pkgTemps := (List.range 4).map fun i => some ((packageTemp s (c * 32 + i * 8)).getD temp) }) ∧
        t.fronds = tupd {} s.fronds (c / 8) (fun g => { g with training := if (g.training.map (·.1)) = some c then none else g.training }) ∧
        (∀ i < 32, (dieAt t (c * 32 + i)).trainFails = 0) ∧ (∀ d, { dieAt t d with trainFails := (dieAt s d).trainFails } = dieAt s d) ∧
        { t with chans := s.chans, fronds := s.fronds, dies := s.dies, events := s.events } = s) ∧
    (∀ (c : Nat) (l : List Nat) (s : State),
      ∃ t, exec (.channelPlanOverrun c l) s = .next t ∧
        (2 ≤ ((chanAt s c).overruns.filter fun x => s.time.fc < x + 4000).length → (chanAt t c).reduced = true ∧ (chanAt t c).due = true ∧ chanCap t c = 160) ∧
        (((chanAt s c).overruns.filter fun x => s.time.fc < x + 4000).length < 2 → (chanAt t c).reduced = (chanAt s c).reduced ∧ s.time.fc ∈ (chanAt t c).overruns) ∧
        (∀ k, k ≠ c → chanAt t k = chanAt s k) ∧
        (l = [] → s.noFails → t.stats = { s.stats with chOver := s.stats.chOver + 1 } ∧
          { t with chans := s.chans, fronds := s.fronds, stats := s.stats, events := s.events } = s)) ∧
    (∀ (c : Nat) (s : State), (chanAt s c).reduced = true → elapsed s (chanAt s c).reducedAt 4000 = true →
      exec (.channelCapRestore c) s = .next { s with chans := tupd {} s.chans c (fun x => { x with reduced := false }) }) ∧
    (∀ (d : Nat) (s : State), (dieAt s d).state = 1 → elapsed s (dieAt s d).lastOverrun s.feat.quarHold = true →
      ∃ t, exec (.quarantineLift d) s = .next t ∧ t.dies = tupd {} s.dies d (fun x => { x with state := 0, overruns := [] }) ∧
        { t with dies := s.dies, events := s.events } = s) ∧
    (∀ (d b m dst row n : Nat) (s : State), s.canonical = true → (frondAt s (frondOfDie d)).refresh = some (blkKey d b, dst, row, n) →
      (blkAt s (blkKey d b)).member = some m → programmedRows (memberAt s m) ≤ row → (stripeAt s (m / 16)).members.any (·.filling) = false → opOn s dst = false →
      m % 16 < (stripeAt s (m / 16)).members.length →
      ∃ t, exec (.refreshDone d b) s = .next t ∧ (memberAt t m).blk = some dst ∧ (stripeAt t (m / 16)).gen = ((stripeAt s (m / 16)).gen + 1) % 2 ^ 32 ∧
        (∀ k, k ≠ m / 16 → stripeAt t k = stripeAt s k) ∧ (frondAt t (frondOfDie d)).refresh = none ∧
        (frondAt t (frondOfDie d)).refreshDone = (frondAt s (frondOfDie d)).refreshDone + 1 ∧ { t with blks := s.blks, fronds := s.fronds, stripes := s.stripes, dies := s.dies } = s) ∧
    (∀ (d b iv n : Nat) (s : State), scrubInterval s (blkKey d b) = some iv → (blkAt s (blkKey d b)).scrubbed + iv ≤ s.time.past + s.time.fc →
      (blkAt s (blkKey d b)).scrubLeft = 0 → (dieAt s d).state < 2 → frondAbsent s (frondOfDie d) = false →
      n = (if (blkAt s (blkKey d b)).state = 5 then 32 else 128) →
      ∃ t, exec (.scrubDue d b) s = .next t ∧ t.next = s.next + n ∧
        (∀ i < n, ∃ r, tfind t.reqs (s.next + i) = some r ∧ r.kind = .scrub ∧ r.die = d ∧ r.block = b ∧ r.st = .sent ∧ r.plane = i % 4 ∧ r.margin = s.feat.marginStep) ∧
        (∀ k, k < s.next → tfind t.reqs k = tfind s.reqs k) ∧ (blkAt t (blkKey d b)).scrubLeft = n ∧
        (blkAt t (blkKey d b)).scrubbed = (blkAt s (blkKey d b)).scrubbed ∧ { t with reqs := s.reqs, blks := s.blks, next := s.next } = s) ∧
    (∀ (d g : Nat) (l : List Int) (s : State), (dieAt s d).state < 2 → g < 66 → l.length = 16 → (dieAt s d).recalQ.contains (g, 0) = true →
      ∃ t, exec (.readOffsetRecalibration d g l) s = .next t ∧ tfind (dieAt t d).offsets g = some l ∧ (dieAt t d).recals = ((dieAt s d).recals + 1) % 65536 ∧
        (∀ x ∈ (dieAt t d).recalQ, x.1 ≠ g) ∧ (∀ k, k ≠ d → dieAt t k = dieAt s k) ∧ { t with dies := s.dies } = s) ∧
    (∀ (d : Nat) (s : State), (dieAt s d).state < 2 → (dieAt s d).resetting = true →
      ((dieAt s d).resets = 0 → ∃ t, exec (.dieResetTimeout d) s = .next t ∧ dieAt t d = { dieAt s d with resets := 1 } ∧
        (∀ k, k ≠ d → dieAt t k = dieAt s k) ∧ { t with dies := s.dies } = s) ∧
      ((dieAt s d).resets ≠ 0 → (frondAt s (frondOfDie d)).refresh = none → s.reqs = [] → s.blks = [] → s.cws = [] → s.nss = [] → s.zones = [] → s.pieces = [] →
        ∃ t, exec (.dieResetTimeout d) s = .next t ∧ (dieAt t d).state = 2 ∧ (dieAt t d).op = none ∧ (dieAt t d).head = none ∧ (dieAt t d).resets = 2 ∧
          (∀ k, k ≠ d → dieAt t k = dieAt s k)))

/-- Stream engine units, a reconstruction, the delivery of a read and a missed deadline (R22, R53, R58, R92, R108, R114, R446,
R447). -/
def Obligations.StreamEnginesDeliverAndMiss : Prop :=
  (∀ (card : CardId) (n p : Nat) (w : SeWork) (pc : Piece) (s : State), n < 24 → engineWorks s card (16 + n) = true → seTake s card n = some w →
      (w = .decrypt p ∨ w = .reconstruct p) → tfind s.pieces p = some pc →
      ∃ t, exec (.streamEngineUnit card n) s = .next t ∧ seAt t card = (seAt s card).erase w ∧ seAt t (other card) = seAt s (other card) ∧
        tfind t.pieces p = some { pc with ready := true } ∧ (∀ q, q ≠ p → tfind t.pieces q = tfind s.pieces q) ∧
        (w = .decrypt p → t.reqs = s.reqs ∧ t.memA = s.memA ∧ t.memB = s.memB ∧ t.events = s.events) ∧
        (∀ r ∈ t.reqs, r.2.piece = some p → w = .reconstruct p → s.canonical = true → r.2.buf = none) ∧
        { t with pieces := s.pieces, seA := s.seA, seB := s.seB, reqs := s.reqs, memA := s.memA, memB := s.memB, events := s.events } = s) ∧
    (∀ (card : CardId) (n ck : Nat) (cw : Cw) (s : State), n < 24 → engineWorks s card (16 + n) = true → seTake s card n = some (.encrypt ck) →
      tfind s.cws ck = some cw → cw.encrypted = false → (∀ k, cw.cmd = some k → (cmdAt s k).kind ≠ .bulkAppend) →
      (stripeAt s (slotOfCk ck)).profile ≠ .l12 → (accumAt s (slotOfCk ck)).count + 1 < 64 * dataOf (stripeAt s (slotOfCk ck)).profile →
      (stripeAt s (slotOfCk ck)).finishRow = none →
      ∃ (t : State) (x : Cw), exec (.streamEngineUnit card n) s = .next t ∧ seAt t card = (seAt s card).erase (.encrypt ck) ∧ tfind t.cws ck = some x ∧ x.encrypted = true ∧
        (cw.kind = .padding → x = { cw with encrypted := true } ∧ t.fronds = s.fronds) ∧
        (cw.kind ≠ .padding → mayGo s (ownerOfNs s cw.nsid) ((cwSvc s cw).getD .bound) 1 = true →
          x.copies.length + x.waiting = 3 ∧ (x.copies.map (·.frond)).Nodup ∧ ∀ l ∈ x.copies, frondIn s l.frond = true ∧
            ∃ i ∈ (frondAt t l.frond).pack, i.cw = ck ∧ i.idx = l.idx) ∧
        (cw.kind ≠ .padding → mayGo s (ownerOfNs s cw.nsid) ((cwSvc s cw).getD .bound) 1 = false →
          x = { cw with encrypted := true, turn := true } ∧ t.fronds = s.fronds) ∧
        accumAt t (slotOfCk ck) = { accumAt s (slotOfCk ck) with
          count := (accumAt s (slotOfCk ck)).count + 1, acc := accum1 (stripeAt s (slotOfCk ck)).profile ck cw (accumAt s (slotOfCk ck)).acc } ∧
        (∀ q, q ≠ slotOfCk ck → accumAt t q = accumAt s q) ∧ (∀ q, q ≠ ck → tfind t.cws q = tfind s.cws q) ∧
        (cw.kind ≠ .padding → t.chunks = s.chunks) ∧ (∀ h, h ≠ hOfCk ck → chunkAt t h = chunkAt s h) ∧
        { t with cws := s.cws, accums := s.accums, fronds := s.fronds, seA := s.seA, seB := s.seB, chunks := s.chunks } = s) ∧
    (∀ (p : Nat) (pc : Piece) (s : State), tfind s.pieces p = some pc → pc.route = 3 → pc.members = [] → pc.ready = false →
      ∃ t, exec (.reconstructionDone p) s = .next t ∧ tfind t.pieces p = some { pc with ready := true } ∧ SeWork.reconstruct p ∉ t.seA ∧ SeWork.reconstruct p ∉ t.seB ∧
        (∀ w, w ≠ SeWork.reconstruct p → (w ∈ t.seA ↔ w ∈ s.seA) ∧ (w ∈ t.seB ↔ w ∈ s.seB)) ∧ (∀ q, q ≠ p → tfind t.pieces q = tfind s.pieces q) ∧
        { t with pieces := s.pieces, seA := s.seA, seB := s.seB, reqs := s.reqs, memA := s.memA, memB := s.memB, events := s.events } = s) ∧
    (∀ (p k : Nat) (pc : Piece) (c : Cmd) (s : State), tfind s.pieces p = some pc → pc.ready = true → pc.delivered = false → pc.fail = 0 → pc.buf = none → pc.cmd = k →
      s.cmds = [(k, c)] → c.kind = .read → c.st = .reading → c.pieces = [p] → c.status = none → c.missed = none → c.bufs = [] → c.svc ≠ .bound → c.silent = false →
      c.e.sqid ≠ 0 → c.e.cid < 65536 → superseded s c.slice c.gen = false → (ctrlAt s c.e.port).link = true → (ctrlAt s c.e.port).rdy = true →
      (∀ d ∈ pieceData s p, Machine.readCheck (nsAt s c.e.nsid) c d.1 d.2.1 d.2.2 = none) → (∀ n ∈ s.nss, n.2.deleting = none) → (∀ x ∈ s.slices, x.2.waiter = none) → s.misses = [] →
      (∀ r ∈ s.reqs, r.2.piece = some p → r.2.st = .done ∧ r.2.buf = none) →
      ∃ t, exec (.readPieceDelivery p) s = .next t ∧ s.replies t c.e 0 (readData (nsAt s c.e.nsid) { c with data := c.data ++ pieceData s p }) ∧
        t.cmds = [] ∧ tfind t.pieces p = none ∧ (∀ f, { frondAt t f with waiting := (frondAt s f).waiting } = frondAt s f) ∧
        { t with
          cqes := s.cqes, cmds := s.cmds, pieces := s.pieces, reqs := s.reqs, zones := s.zones, spA := s.spA, spB := s.spB, cqs := s.cqs, tx := s.tx,
          fronds := s.fronds, seA := s.seA, seB := s.seB, engines := s.engines } = s) ∧
    (∀ (k d : Nat) (c : Cmd) (s : State), tfind s.cmds k = some c → c.deadline = some d → c.missed = none → c.svc = .bound → s.time.start ≤ d → d < s.time.start + 16000 →
      superseded s c.slice c.gen = false →
      (c.policy = false → ∃ (t : State) (m : Miss), exec (.commandDeadline k) s = .next t ∧ tfind t.cmds k = some { c with missed := some 0 } ∧
        t.misses = ((s.misses ++ [m]).reverse.take 64).reverse ∧ m.cmd = k ∧ m.fc = s.time.fc ∧ m.count = d - s.time.start ∧ m.slice = c.slice ∧ m.policy = 0 ∧
        m.cause = missCause s k ∧ t.stats = { s.stats with missLate := s.stats.missLate + 1 } ∧ (sliceAt t c.slice).misses = ((sliceAt s c.slice).misses + 1) % 2 ^ 32 ∧
        (∀ q, q ≠ k → tfind t.cmds q = tfind s.cmds q) ∧ (∀ q, q ≠ c.slice → sliceAt t q = sliceAt s q) ∧
        { t with cmds := s.cmds, misses := s.misses, stats := s.stats, slices := s.slices, events := s.events, time := s.time } = s) ∧
      (c.policy = true → boundRead c.kind = true → s.cmds = [(k, c)] → c.bufs = [] → c.pieces = [] → c.silent = false → c.e.sqid ≠ 0 → c.e.cid < 65536 →
        (ctrlAt s c.e.port).link = true → (ctrlAt s c.e.port).rdy = true → (∀ n ∈ s.nss, n.2.deleting = none) → (∀ x ∈ s.slices, x.2.waiter = none) →
        ∃ t, exec (.commandDeadline k) s = .next t ∧ t.cmds = [] ∧ t.stats.missAbort = s.stats.missAbort + 1 ∧
          t.cqes = s.cqes ++ [{ port := c.e.port, sqid := c.e.sqid, cid := c.e.cid, sct := 7, sc := 0x80, more := true }] ∧
          (ctrlAt t c.e.port).errCount = (ctrlAt s c.e.port).errCount + 1 ∧ (sliceAt t c.slice).misses = ((sliceAt s c.slice).misses + 1) % 2 ^ 32))

/-- Program reports, packing wait, fold, verification, member table, recomputed accumulator and a rebuilt member (R38, R68, R100,
R103, R110, R112, R113, R116, R117, R118, R119, R120). -/
def Obligations.SeedbedFoldsIntoStripes : Prop :=
  (∀ (n : Nat) (q : Prog) (s : State), tfind s.progs n = some q → q.works = [] → s.cmds = [] → (∀ x ∈ s.nss, x.2.deleting = none) → (∀ x ∈ s.slices, x.2.waiter = none) →
      (∀ f, frondAbsent s f = false) → (∀ b ∈ s.blks, 0 < b.2.live ∨ b.2.state ≠ 3 ∧ b.2.seed = false) → s.noTurns →
      ∃ t, exec (.programStatusReport n true) s = .next t ∧ t.progs = tdel s.progs n ∧
        (∀ ck cw, tfind s.cws ck = some cw → tfind t.cws ck = some (if q.cws.any (fun w => w.1 == ck) then
            { cw with copies := cw.copies.map fun l => if l.prog = some n then { l with prog := none, done := true } else l } else cw)) ∧
        blkAt t (blkKey q.die q.block) = { blkAt s (blkKey q.die q.block) with
          mode := some false, live := (blkAt s (blkKey q.die q.block)).live + (q.cws.filter fun w => (tfind s.cws w.1).isSome).length } ∧
        t.dies = tupd {} s.dies q.die (fun d => { d with prog := if d.prog = some n then none else d.prog }) ∧
        (∀ k, k ≠ blkKey q.die q.block → blkAt t k = blkAt s k) ∧
        { t with progs := s.progs, dies := s.dies, blks := s.blks, cws := s.cws, zones := s.zones, chunks := s.chunks } = s) ∧
    (∀ (n : Nat) (q : Prog) (s : State), s.canonical = true → tfind s.progs n = some q → q.works = [] → q.frond = frondOfDie q.die → q.die = blkKey q.die q.block / 4096 → (dieAt s q.die).grownBad < 256 →
      0 < reserveLeft s q.die → (∀ i < 64, blankOk s (blkKey q.die (2048 + i)) = true) → (blkAt s (blkKey q.die q.block)).state ≠ 7 → s.noFails → s.noTurns →
      ∃ (t : State) (k : Nat), exec (.programStatusReport n false) s = .next t ∧ t.progs = tdel s.progs n ∧ (blkAt t (blkKey q.die q.block)).state = 8 ∧
        (dieAt t q.die).grownBad = (dieAt s q.die).grownBad + 1 ∧ (dieAt t q.die).reserveUsed = (dieAt s q.die).reserveUsed + 1 ∧
        (∀ h, (dieAt t q.die).head = some h → h.1 ≠ q.block) ∧
        (frondAt t q.frond).progFails = ((frondAt s q.frond).progFails + 1) % 2 ^ 32 ∧
        (frondAt t q.frond).pack.map (fun i => (i.cw, i.idx)) =
          (q.cws.filter fun w => (tfind s.cws w.1).isSome) ++ (frondAt s q.frond).pack.map (fun i => (i.cw, i.idx)) ∧
        k / 4096 = q.die ∧ 2048 ≤ k % 4096 ∧ k % 4096 < 2112 ∧ (blkAt s k).state = 7 ∧ blkAt t k = { blkAt s k with state := 0 } ∧
        (∀ j, j ≠ blkKey q.die q.block → j ≠ k → blkAt t j = blkAt s j) ∧ (∀ d, d ≠ q.die → dieAt t d = dieAt s d) ∧ (∀ g, g ≠ q.frond → frondAt t g = frondAt s g) ∧
        { t with progs := s.progs, fronds := s.fronds, dies := s.dies, blks := s.blks, cws := s.cws, events := s.events } = s) ∧
    (∀ (f : Frond) (s : State), exec (.packWaitExpiry f) s = .next { s with
      fronds := tupd {} s.fronds f.val (fun g => { g with pack := g.pack.map fun i => if s.feat.packWait ≤ i.waited then { i with waited := 5 } else i }) }) ∧
    (∀ (slot pos row b : Nat) (m : Member) (s : State), pos < 16 → row < 1024 → (stripeAt s slot).members[pos]? = some m → m.blk = some b → m.filling = false → (blkAt s b).leave = false →
      (chunkAt s (hKey slot pos row)).st = .held → (chunkAt s (hKey slot pos row)).readyFc + tget 0 s.feat.foldHold (stripeAt s slot).cls * 4000 ≤ s.time.fc →
      foldOrder s (hKey slot pos row) m = true → frondAbsent s (memberFrond slot pos) = false → (dieAt s (b / 4096)).state = 0 →
      (∀ k < 64, ∀ cw, tfind s.cws (hKey slot pos row * 64 + k) = some cw → cw.kind ≠ .padding → cw.folded = false → (foldCopy s cw).isSome = true) →
      (∃ k < 64, ∃ cw, tfind s.cws (hKey slot pos row * 64 + k) = some cw ∧ cw.kind ≠ .padding ∧ cw.folded = false) →
      ∃ t, exec (.foldHoldExpiry slot pos row) s = .next t ∧ (chunkAt t (hKey slot pos row)).st = .reading ∧ 0 < (chunkAt t (hKey slot pos row)).reads ∧
        t.next = s.next + (chunkAt t (hKey slot pos row)).reads ∧
        (∀ i < (chunkAt t (hKey slot pos row)).reads, ∃ r, tfind t.reqs (s.next + i) = some r ∧ r.kind = .foldRead ∧ r.chunk = some (hKey slot pos row) ∧ r.slc = true ∧
          (r.st = .sent ∨ r.st = .held ∧ frondOfDie r.die ≠ memberFrond slot pos)) ∧
        (∀ n, n < s.next → tfind t.reqs n = tfind s.reqs n) ∧ (∀ h, h ≠ hKey slot pos row → chunkAt t h = chunkAt s h) ∧
        (dieAt t (b / 4096)).opQ = (dieAt s (b / 4096)).opQ ++ [{ kind := .qlc, chunk := hKey slot pos row, ready := false, block := b % 4096, arrival := now s }] ∧
        { t with chunks := s.chunks, reqs := s.reqs, next := s.next, dies := s.dies, fronds := s.fronds, memA := s.memA, memB := s.memB } = s) ∧
    (∀ (d : Nat) (o : LongOp) (s : State), (dieAt s d).op = some o → 20 ≤ o.segs → o.block < 4096 →
      (o.kind = .qlc → (∃ i < 64, ∃ cw, tfind s.cws (o.chunk * 64 + i) = some cw ∧ cw.kind ≠ .padding) → ∃ t, exec (.qlcProgramDone { die := d, pass := true }) s = .next t ∧
        dieAt t d = { dieAt s d with op := some { o with kind := .verify, segs := 0, prog := .qlc }, seg := false, suspending := false, suspended := false } ∧
        (chunkAt t o.chunk).st = .verifying ∧ { t with dies := s.dies, chunks := s.chunks } = s) ∧
      (o.kind = .rebuild ∨ o.kind = .refresh → ∃ t, exec (.qlcProgramDone { die := d, pass := true }) s = .next t ∧
        dieAt t d = { dieAt s d with op := some { o with kind := .verify, segs := 0, prog := o.kind }, seg := false, suspending := false, suspended := false } ∧
        { t with dies := s.dies, chunks := s.chunks } = s) ∧
      (o.kind = .pad → ∃ t, exec (.qlcProgramDone { die := d, pass := true }) s = .next t ∧ (dieAt t d).op = none ∧
        (dieAt t d).opQ = (dieAt s d).opQ ++ (if o.chunk % 1024 < 1023 then [{ kind := .pad, chunk := o.chunk + 1, ready := false, block := o.block, arrival := now s }] else []) ∧
        (∀ k, k ≠ d → dieAt t k = dieAt s k) ∧ { t with dies := s.dies, stripes := s.stripes, fronds := s.fronds } = s)) ∧
    (∀ (d : Nat) (o : LongOp) (s : State), (dieAt s d).op = some o → o.kind = .verify → 4 ≤ o.segs → o.prog = .qlc →
      ∃ t, exec (.foldVerifyDone d true) s = .next t ∧ t.dies = tupd {} s.dies d (fun x => { x with op := none, seg := false, suspending := false, suspended := false }) ∧
        (chunkAt t o.chunk).st = .verified ∧
        (frondAt t (frondOfDie d)).batch = (frondAt s (frondOfDie d)).batch ++ [o.chunk] ∧ { t with dies := s.dies, chunks := s.chunks, fronds := s.fronds } = s) ∧
    (∀ (f : Frond) (h n : Nat) (w : MetaWork) (m : Member) (s : State), findWork s (isMembers f) = some (n, w) → w.of = .members f.val [h] → w.copies = [] → w.reads = 0 →
      (frondAt s f).batch = [h] → f.val = memberFrond (slotOfH h) (posOfH h) →
      (tfind s.chunks h).isSome = true → (stripeAt s (slotOfH h)).members[posOfH h]? = some m → m.verified = h % 1024 → m.filling = false →
      rowParityHeld s (slotOfH h) (h % 1024) = true →
      ∃ t, exec (.memberTableProgram f) s = .next t ∧ (frondAt t f).batch = [] ∧ (frondAt t f).tableFc = s.time.fc ∧
        (stripeAt t (slotOfH h)).members[posOfH h]? = some { m with verified := h % 1024 + 1 } ∧
        tfind (frondAt t f).table (mKey (slotOfH h) (posOfH h)) = some { gen := (stripeAt s (slotOfH h)).gen, verified := h % 1024 + 1 } ∧
        (∀ ck cw, tfind s.cws ck = some cw → tfind t.cws ck = some (if hOfCk ck = h then
          { cw with copies := if bothServe s then cw.copies.filter (·.frond != f.val) else [], folded := true } else cw)) ∧
        (bothServe s = false → t.chunks = tdel s.chunks h) ∧
        (bothServe s = true → (chunkAt t h).st = .released ∧ (chunkAt t h).telling = some ((cardAt s (ownerOfH s h)).msnTx + 1)) ∧
        t.seedbed.foldedBytes = s.seedbed.foldedBytes + 262144 ∧ t.metas = { s.metas with work := tdel s.metas.work n } ∧
        { t with metas := s.metas, fronds := s.fronds, stripes := s.stripes, cws := s.cws, blks := s.blks, chunks := s.chunks, seedbed := s.seedbed, tx := s.tx, pair := s.pair } = s) ∧
    (∀ (nsid z slot : Nat) (s : State), (nsAt s nsid).zoned = true → (zoneAt s (zoneKey nsid z)).slot = some slot → (accumAt s slot).lost = true → accumRead s slot = true →
      (accumAt s slot).ext = none →
      (stripeAt s slot).profile ≠ .l12 → (stripeAt s slot).finishRow = none → s.cmds = [] → (openRow s slot).length < 64 * dataOf (stripeAt s slot).profile →
      ∃ t, exec (.accumulatorRecomputeDone nsid z) s = .next t ∧ (accumAt t slot).lost = false ∧ (accumAt t slot).row = (accumAt s slot).row ∧
        (accumAt t slot).count = (openRow s slot).length ∧ (∀ q, q ≠ slot → accumAt t q = accumAt s q) ∧ { t with accums := s.accums } = s) ∧
    (∀ (slot pos b : Nat) (m : Member) (s : State), pos < 16 → mKey slot pos ∈ s.rebuild.queue → (stripeAt s slot).used = true →
      frondAbsent s (memberFrond slot pos) = false → (stripeAt s slot).members[pos]? = some m → m.blk = some b → m.filling = true →
      (stripeAt s slot).folded ≤ m.verified →
      ∃ t, exec (.rebuildStripeDone slot pos) s = .next t ∧ (stripeAt t slot).members[pos]? = some { m with filling := false } ∧
        (stripeAt t slot).gen = (stripeAt s slot).gen ∧ t.rebuild.queue = s.rebuild.queue.filter (· ≠ mKey slot pos) ∧
        pget t.rebuild.position (ownerOfNs s (stripeAt s slot).nsid) = slot ∧
        (jAt t (ownerOfNs s (stripeAt s slot).nsid)).queue = (jAt s (ownerOfNs s (stripeAt s slot).nsid)).queue ++
          [{ kind := 9, nsid := (stripeAt s slot).nsid, slot := slot, offset := pos }] ∧
        jAt t (other (ownerOfNs s (stripeAt s slot).nsid)) = jAt s (other (ownerOfNs s (stripeAt s slot).nsid)) ∧ (∀ k, k ≠ slot → stripeAt t k = stripeAt s k) ∧
        { t with stripes := s.stripes, fronds := s.fronds, dies := s.dies, rebuild := s.rebuild, jA := s.jA, jB := s.jB, tx := s.tx, pair := s.pair, events := s.events,
                 cqes := s.cqes, c0 := s.c0, c1 := s.c1 } = s)

/-- An I/O row run on an entry that COMMAND_FETCH would fetch is COMMAND_FETCH followed by the row (R159, R171, R288). -/
def Obligations.RowsFetchTheirEntryOrTakeItFetched : Prop :=
  ∀ r ∈ [(Instr.flush, asOp 0x00), (.write, asOp 0x01), (.read, asOp 0x02), (.writeZeroes, asOp 0x08), (.datasetManagement, asOp 0x09), (.verify, asOp 0x0C),
      (.copy, asOp 0x19), (.zoneOpen, asZsa 3), (.zoneClose, asZsa 1), (.zoneFinish, asZsa 2), (.zoneReset, asZsa 4), (.zoneOffline, asZsa 5),
      (.setZoneDescriptorExtension, asZsa 16), (.reportZones, asOp 0x7A), (.zoneAppend, asOp 0x7D), (.winnowRead, asOp 0x82), (.zoneDigest, asOp 0x86),
      (.bulkRead, asOp 0x88), (.bulkAppend, asOp 0x8C)],
    ∀ (e : Sqe) (s : State), s.canonical = true → r.2 e = e → e.sqid ≠ 0 →
      (s.cmds.any fun c => c.2.st == .fetched && c.2.fwd.isNone && c.2.e.port == e.port && c.2.e.sqid == e.sqid && c.2.e.cid == e.cid) = false →
      (tryFetch e (atCount e.cnt s)).isSome = true → ∃ t, exec (.commandFetch e) s = .next t ∧ exec (r.1 e) s = exec (r.1 e) t

/-- Read, Verify, Winnow Read and Bulk Read gather every block they name in pieces; a Copy assigns its blocks and gathers (R22,
R87, R134, R150, R151, R170, R185, R236, R246). -/
def Obligations.ReadsGatherTheirBlocks : Prop :=
  (∀ r ∈ [(Instr.read, asOp 0x02, fun (s : State) (c : Cmd) => (lenErr s c 1024 true).isNone), (.verify, asOp 0x0C, fun s c => (lenErr s c 65536 false).isNone),
        (.winnowRead, asOp 0x82, fun s c => decide (1 ≤ c.nlb ∧ c.nlb ≤ 1048576 ∧ d13 c.e 7 0 ≤ 15 ∧ d13 c.e 31 9 = 0 ∧ d14 c.e 31 16 = 0 ∧ 1 ≤ d14 c.e 15 0 ∧
          d14 c.e 15 0 ≤ 1024 ∧ c.e.cdw15 = 0 ∧ c.lba + c.nlb ≤ (nsAt s c.e.nsid).nsze ∧ d14 c.e 15 0 * 4096 ≤ c.e.dlen ∧ c.prog ≠ [])),
        (.bulkRead, asOp 0x88, fun s c => decide (c.e.dptr = 0 ∧ d12 c.e 31 16 = 0 ∧ d13 c.e 31 8 = 0 ∧ c.nlb ≤ 1024 ∧ c.lba + c.nlb ≤ (nsAt s c.e.nsid).nsze ∧
          bulkErr s c = none ∧ c.nlb * 4096 ≤ regionRoom c ∧ 0 < regionRoom c))],
      ∀ (e : Sqe) (k : Nat) (c x : Cmd) (s : State), s.runsAlone k c e → x = c.runAs (r.2.1 e) → r.2.2 s x = true →
        zoneReadErr s x x.lba x.nlb = none → ((nsAt s e.nsid).zoned = true → unsettledBut s k e.nsid x.lba x.nlb = false) →
        ((nsAt s e.nsid).zoned = false → missingPages s e.nsid x.lba x.nlb = [] ∧
          (writeLocks e.nsid k (lockCover (lockRanges (r.2.1 e)).1 (lockRanges (r.2.1 e)).2) (spAt s c.owner)).isSome = true) →
        ∃ t y, exec (r.1 e) s = .next t ∧ t.cmds = [(k, y)] ∧ y.st = .reading ∧ y.e = r.2.1 e ∧
          (∀ l, (∃ p ∈ y.pieces, l ∈ (pieceAt t p).blocks.map Prod.fst) ↔ x.lba ≤ l ∧ l < x.lba + x.nlb) ∧
          (∀ p ∈ y.pieces, (pieceAt t p).cmd = k ∧ (pieceAt t p).delivered = false) ∧
          ((∀ l, x.lba ≤ l → l < x.lba + x.nlb → resolve s e.nsid l = none) → 0 < x.nlb → y.pieces = [s.next] ∧ (pieceAt t s.next).ready = true ∧ t.reqs = s.reqs) ∧
          { t with
            cmds := s.cmds, pieces := s.pieces, reqs := s.reqs, memA := s.memA, memB := s.memB, stats := s.stats, next := s.next, time := s.time, spA := s.spA,
            spB := s.spB, pages := s.pages } = s) ∧
    (∀ (e : Sqe) (k slot : Nat) (c x : Cmd) (s : State) (zk : Nat), s.runsAlone k c e → x = c.runAs (asOp 0x19 e) → (nsAt s e.nsid).zoned = true →
      d12 x.e 11 8 = 0 → (copyRanges x.e).length ≤ 128 → (∀ r ∈ copyRanges x.e, r.2 ≤ 1024 ∧ r.1 + r.2 ≤ (nsAt s e.nsid).nsze ∧ zoneReadErr s x r.1 r.2 = none) →
      32 * (copyRanges x.e).length ≤ e.dlen → lenErr s x 1024 false = none → zk = zoneKey e.nsid (x.lba / 1048576) → (zoneAt s zk).slot = some slot →
      (zoneAt s zk).st ≠ .empty → zoneWriteErr s x = none → placeErr { s with cmds := [(k, x)] } k = false →
      s.buffersFor c (max 65537 (x.nlb * 4096)) →
      (∀ r ∈ copyRanges x.e, unsettledBut s k e.nsid r.1 r.2 = false) → (∀ r ∈ copyRanges x.e, r.1 / 1048576 ≠ x.lba / 1048576) →
      ∃ t y, exec (.copy e) s = .next t ∧ t.cmds = [(k, y)] ∧ y.st = .reading ∧ y.lba = x.lba / 1048576 * 1048576 + (zoneAt s zk).wp ∧
        (zoneAt t zk).wp = (zoneAt s zk).wp + x.nlb ∧ (zoneAt t zk).openW = (zoneAt s zk).openW ++ [((zoneAt s zk).wp, (zoneAt s zk).wp + x.nlb, k)] ∧
        (∀ l, (∃ p ∈ y.pieces, l ∈ (pieceAt t p).blocks.map Prod.fst) ↔ ∃ r ∈ copyRanges x.e, r.1 ≤ l ∧ l < r.1 + r.2) ∧
        (∀ z, z ≠ zk → zoneAt t z = zoneAt s z) ∧
        s.journals t c.owner (assignRecs e.nsid k x.nlb (nsAt s e.nsid).profile (x.lba / 1048576 * 1048576) (zoneAt s zk)) ∧
        s.mirrors t c.owner [] ∧
        { t with
          cmds := s.cmds, pieces := s.pieces, reqs := s.reqs, zones := s.zones, memA := s.memA, memB := s.memB, stats := s.stats, next := s.next, time := s.time,
          jA := s.jA, jB := s.jB, pair := s.pair, tx := s.tx } = s)

/-- Writes take their blocks at the write pointer or the head, and their codewords enter the stream engines (R87, R112, R136,
R138, R147, R248). -/
def Obligations.WritesAreAssignedAndEnter : Prop :=
  (∀ r ∈ [(Instr.write, asOp 0x01, 1024, true), (.zoneAppend, asOp 0x7D, 512, true), (.writeZeroes, asOp 0x08, 65536, false)],
      ∀ (e : Sqe) (k slot zk : Nat) (c x : Cmd) (n : Ns) (z : Zone) (s : State), s.runsAlone k c e → x = c.runAs (r.2.1 e) → n = nsAt s e.nsid → n.zoned = true →
        lenErr s x r.2.2.1 r.2.2.2 = none → zk = zoneKey e.nsid (x.lba / 1048576) → z = zoneAt s zk → z.slot = some slot → z.st ≠ .empty → zoneWriteErr s x = none →
        placeErr { s with cmds := [(k, x)] } k = false →
        (r.2.2.2 = true → piWrite n x.e (if x.kind = .append then x.lba + z.wp else x.lba) x.nlb 0 = none) →
        s.buffersFor c (bytesOf s x) → s.seedbedFree c.owner → fillsWait s x = false → dramRoom s c.owner x.nlb = true →
        ∃ t y, exec (r.1 e) s = .next t ∧ t.cmds = [(k, y)] ∧ y.st = .writing ∧ y.lba = x.lba / 1048576 * 1048576 + z.wp ∧
          y.cws = (List.range x.nlb).map (fun i => ckOf n.profile slot (z.wp + i)) ∧
          (x.kind = .append → y.dw0 + y.dw1 * 2 ^ 32 = y.lba) ∧
          zoneAt t zk = { z with
            wp := z.wp + x.nlb, openW := z.openW ++ [(z.wp, z.wp + x.nlb, k)],
            st := if z.wp + x.nlb = capOf n.profile then .full else if z.st = .closed then .implOpen else z.st } ∧
          seAt t c.owner = seAt s c.owner ++ y.cws.map SeWork.encrypt ∧ seAt t (other c.owner) = seAt s (other c.owner) ∧
          (∀ i < x.nlb, ∃ cw, tfind t.cws (ckOf n.profile slot (z.wp + i)) = some cw ∧ cw.kind = .data ∧ cw.cmd = some k ∧ cw.nsid = e.nsid ∧ cw.lba = y.lba + i ∧
            cw.data = (if r.2.2.2 then slice' e.data (i * blockBytes n x.e) 4096 else zeros 4096) ∧ cw.encrypted = false ∧ cw.copies = []) ∧
          (∀ ck, ck ∉ y.cws → tfind t.cws ck = tfind s.cws ck) ∧ (∀ q, q ≠ zk → zoneAt t q = zoneAt s q) ∧
          s.journals t c.owner (assignRecs e.nsid k x.nlb n.profile (x.lba / 1048576 * 1048576) z) ∧
          y.recs = (assignRecs e.nsid k x.nlb n.profile (x.lba / 1048576 * 1048576) z).length ∧
          t.stats = { s.stats with dramUsed := s.stats.dramUsed + writeTraffic s c.owner (x.nlb * 4096) } ∧ s.mirrors t c.owner [] ∧
          { t with
            cmds := s.cmds, zones := s.zones, cws := s.cws, seA := s.seA, seB := s.seB, memA := s.memA, memB := s.memB, time := s.time, stats := s.stats,
            jA := s.jA, jB := s.jB, pair := s.pair, tx := s.tx } = s) ∧
    (∀ (e : Sqe) (k slot zk : Nat) (c x : Cmd) (s : State), s.runsAlone k c e → x = c.runAs (asOp 0x8C e) → (nsAt s e.nsid).zoned = true → e.dptr = 0 →
      d12 x.e 31 16 = 0 → d13 x.e 31 8 = 0 → bulkErr s x = none → 0 < regionRoom x → lenErr s x 512 false = none → zk = zoneKey e.nsid (x.lba / 1048576) →
      (zoneAt s zk).slot = some slot → (zoneAt s zk).st ≠ .empty → zoneWriteErr s x = none → placeErr { s with cmds := [(k, x)] } k = false →
      s.buffersFor c (x.nlb * 4096) →
      ∃ t y, exec (.bulkAppend e) s = .next t ∧ t.cmds = [(k, y)] ∧ y.st = .bulk ∧ y.dw0 + y.dw1 * 2 ^ 32 = x.lba / 1048576 * 1048576 + (zoneAt s zk).wp ∧
        (zoneAt t zk).wp = (zoneAt s zk).wp + x.nlb ∧ (∀ q, q ≠ zk → zoneAt t q = zoneAt s q) ∧ (∀ q, q ≠ qpKeyOf x.desc → qpAt t q = qpAt s q) ∧
        (readsOut (qpAt s (qpKeyOf x.desc)) < 256 → (reqsOut (qpAt s (qpKeyOf x.desc))).length < 16 → qpTurn s (qpKeyOf x.desc) = true → (∀ o ∈ (qpAt s (qpKeyOf x.desc)).out, o.2.1 ≠ k) → 0 < x.nlb →
          ∃ o ∈ (qpAt t (qpKeyOf x.desc)).out, o.1 = (qpAt s (qpKeyOf x.desc)).psn % 2 ^ 24 ∧ o.2.1 = k ∧ o.2.2.2.2 = true) ∧
        s.journals t c.owner (assignRecs e.nsid k x.nlb (nsAt s e.nsid).profile (x.lba / 1048576 * 1048576) (zoneAt s zk)) ∧
        (∃ l, s.mirrors t c.owner l) ∧
        { t with
          cmds := s.cmds, zones := s.zones, qps := s.qps, memA := s.memA, memB := s.memB, tx := s.tx, time := s.time, jA := s.jA, jB := s.jB, pair := s.pair } = s) ∧
    (∀ (e : Sqe) (k slot : Nat) (c x : Cmd) (n : Ns) (st : Stripe) (s : State), s.runsAlone k c e → x = c.runAs (asOp 0x01 e) → n = nsAt s e.nsid → n.zoned = false →
      lenErr s x 1024 true = none → placeErr { s with cmds := [(k, x)] } k = false → piWrite n x.e x.lba x.nlb 0 = none → n.head = some slot → st = stripeAt s slot →
      st.next + x.nlb < capOf st.profile → st.profile = n.profile → st.closed = false → 4 < freeStripes s e.nsid → s.buffersFor c (bytesOf s x) → s.seedbedFree c.owner →
      dramRoom s c.owner x.nlb = true →
      (writeLocks e.nsid k (lockCover (lockRanges (asOp 0x01 e)).1 (lockRanges (asOp 0x01 e)).2) (spAt s c.owner)).isSome = true →
      ∃ t y, exec (.write e) s = .next t ∧ t.cmds = [(k, y)] ∧ y.st = .writing ∧ y.lba = x.lba ∧
        y.cws = (List.range x.nlb).map (fun i => ckOf n.profile slot (st.next + i)) ∧ stripeAt t slot = { st with next := st.next + x.nlb } ∧
        seAt t c.owner = seAt s c.owner ++ y.cws.map SeWork.encrypt ∧ (∀ q, q ≠ slot → stripeAt t q = stripeAt s q) ∧
        t.stats = { s.stats with dramUsed := s.stats.dramUsed + writeTraffic s c.owner (x.nlb * 4096) } ∧
        { t with
          stats := s.stats, cmds := s.cmds, stripes := s.stripes, cws := s.cws, seA := s.seA, seB := s.seB, memA := s.memA, memB := s.memB, spA := s.spA, spB := s.spB, time := s.time } = s)

/-- Flush, deallocation, zone actions, Report Zones and Zone Digest of a command with nothing before it (R136, R139, R141, R144,
R152, R162, R170, R176, R187). -/
def Obligations.ZoneAndFlushCommandsAct : Prop :=
  (∀ r ∈ [(Instr.flush, asOp 0x00, fun (_ : State) (_ : Cmd) => true),
        (.datasetManagement, asOp 0x09, fun s x => (nsAt s x.e.nsid).zoned || !bit x.e.cdw11.toNat 2),
        (.zoneClose, asZsa 1, fun s x => (zoneCmdErr s x invalidOpcode).isNone && !selAll x && namedState s x == .closed),
        (.zoneFinish, asZsa 2, fun s x => (zoneCmdErr s x invalidOpcode).isNone && !selAll x && namedState s x == .full),
        (.zoneReset, asZsa 4, fun s x => (zoneCmdErr s x invalidOpcode).isNone && !selAll x && namedState s x == .empty)],
      ∀ (e : Sqe) (k : Nat) (c : Cmd) (s : State), s.runsAlone k c e → r.2.2 s (c.runAs (r.2.1 e)) = true →
        ∃ t, exec (r.1 e) s = .next t ∧ s.replies t e 0 [] ∧ s.onlyEnds t) ∧
    (∀ r ∈ [(Instr.zoneOpen, asZsa 3, [ZState.implOpen, .closed], fun (z : Zone) => { z with st := .explOpen }, 2),
        (.zoneClose, asZsa 1, [.implOpen, .explOpen], fun z => { z with st := .closed }, 8),
        (.zoneFinish, asZsa 2, [.empty, .implOpen, .explOpen, .closed], fun z => z, 3),
        (.zoneReset, asZsa 4, [.implOpen, .explOpen, .closed, .full], fun _ => {}, 4),
        (.zoneOffline, asZsa 5, [.readOnly], fun z => { z with st := .offline, slot := none, wp := 0 }, 6)],
      ∀ (e : Sqe) (k zk : Nat) (c x : Cmd) (s : State), s.runsAlone k c e → x = c.runAs (r.2.1 e) → zoneCmdErr s x invalidOpcode = none → selAll x = false →
        namedState s x ∈ r.2.2.1 → zk = zoneKey e.nsid (x.lba / 1048576) →
        ∃ t y j, exec (r.1 e) s = .next t ∧ t.cmds = [(k, y)] ∧ y.st = .journal ∧ y.recs = 1 ∧
          zoneAt t zk = r.2.2.2.1 (zoneAt s zk) ∧ (∀ z, z ≠ zk → zoneAt t z = zoneAt s z) ∧ s.journals t (ownerOfNs s e.nsid) [j] ∧
          j.kind = r.2.2.2.2 ∧ j.nsid = e.nsid ∧ j.lba = x.lba / 1048576 * 1048576 ∧ j.cmd = some k ∧ j.undo = some (zk, zoneAt s zk) ∧
          { t with cmds := s.cmds, zones := s.zones, jA := s.jA, jB := s.jB, time := s.time } = s) ∧
    (∀ r ∈ [(Instr.zoneOpen, asZsa 3, [ZState.explOpen, .full, .readOnly, .offline], 1, 0xBF), (.zoneClose, asZsa 1, [.empty, .full, .readOnly, .offline], 1, 0xBF),
        (.zoneFinish, asZsa 2, [.readOnly, .offline], 1, 0xBF), (.zoneReset, asZsa 4, [.readOnly, .offline], 1, 0xBF),
        (.zoneOffline, asZsa 5, [.empty, .implOpen, .explOpen, .closed, .full, .offline], 1, 0xBF),
        (.setZoneDescriptorExtension, asZsa 16, [.empty, .implOpen, .explOpen, .closed, .full, .readOnly, .offline], 0, 0x02)],
      ∀ (e : Sqe) (k : Nat) (c x : Cmd) (s : State), s.runsAlone k c e → x = c.runAs (r.2.1 e) → zoneCmdErr s x invalidOpcode = none → selAll x = false →
        namedState s x ∈ r.2.2.1 →
        ∃ t, exec (r.1 e) s = .next t ∧ t.cqes = s.cqes ++ [{ cqeOf e 0 [] with sct := r.2.2.2.1, sc := r.2.2.2.2, more := true }] ∧ s.onlyEnds t) ∧
    (∀ (e : Sqe) (k len : Nat) (c x : Cmd) (s : State), s.runsAlone k c e → x = c.runAs (asOp 0x7A e) → (nsAt s e.nsid).zoned = true → d13 x.e 7 0 = 0 → d13 x.e 15 8 ≤ 7 →
      x.lba < (nsAt s e.nsid).nsze → len = (e.cdw12.toNat + 1) * 4 → 64 ≤ len → len ≤ e.dlen → bit e.cdw13.toNat 16 = false →
      ∃ t d, exec (.reportZones e) s = .next t ∧ s.replies t e 0 d ∧ d.length = len ∧ s.onlyEnds t ∧
        fld d 0 8 = (((List.range (zonesOf (nsAt s e.nsid) - x.lba / 1048576)).map (x.lba / 1048576 + ·)).filter fun z =>
          reports (d13 x.e 15 8) (zoneAt s (zoneKey e.nsid z)).st).length % 2 ^ 64) ∧
    (∀ (e : Sqe) (k : Nat) (c x : Cmd) (s : State), s.runsAlone k c e → x = c.runAs (asOp 0x86 e) → zoneCmdErr s x invalidField = none → namedState s x ≠ .offline →
      32 ≤ e.dlen → e.cdw12 = 0 → e.cdw13 = 0 → e.cdw14 = 0 → e.cdw15 = 0 →
      ∃ t, exec (.zoneDigest e) s = .next t ∧ s.replies t e 0 (digestData s e.nsid (x.lba / 1048576)) ∧ s.onlyEnds t) ∧
    (∀ r ∈ [(Instr.datasetManagement, asOp 0x09, dsmRanges, fun (s : State) (x : Cmd) => bit x.e.cdw11.toNat 2 && decide (16 * (dsmRanges x.e).length ≤ x.e.dlen)
          && (dsmRanges x.e).all fun r => decide (r.1 + r.2 ≤ (nsAt s x.e.nsid).nsze)),
        (.writeZeroes, asOp 0x08, fun x => [(slba x, blocksOf x)], fun s x => (lenErr s x 65536 false).isNone)],
      ∀ (e : Sqe) (k : Nat) (c x : Cmd) (s : State), s.runsAlone k c e → x = c.runAs (r.2.1 e) → (nsAt s e.nsid).zoned = false → r.2.2.2 s x = true →
        (∃ q ∈ r.2.2.1 x.e, 0 < q.2) →
        (writeLocks e.nsid k (lockCover (lockRanges (r.2.1 e)).1 (lockRanges (r.2.1 e)).2) (spAt s c.owner)).isSome = true →
        ∃ t y l, exec (r.1 e) s = .next t ∧ t.cmds = [(k, y)] ∧ y.st = .journal ∧ y.recs = l.length ∧ (jAt t c.owner).queue = (jAt s c.owner).queue ++ l ∧
          (∀ j ∈ l, j.kind = 1 ∧ j.slot = 524287 ∧ j.nsid = e.nsid ∧ j.cmd = some k ∧ 1 ≤ j.count ∧ j.count ≤ 1024) ∧
          (∀ b, (∃ j ∈ l, j.lba ≤ b ∧ b < j.lba + j.count) ↔ ∃ q ∈ r.2.2.1 x.e, q.1 ≤ b ∧ b < q.1 + q.2) ∧
          { t with cmds := s.cmds, jA := s.jA, jB := s.jB, spA := s.spA, spB := s.spB, time := s.time } = s)

/-- Forwarded commands, piece lists and lock grants go on; waits past their limit fail the command with their status (R124, R137,
R148, R171, R172, R177, R259, R288, R289). -/
def Obligations.WaitingCommandsGoOnOrExpire : Prop :=
  (∀ (k ep : Nat) (c : Cmd) (s : State), s.cmds = [(k, c)] → c.st = .fetched → c.fwd.isSome = true → mustHold s c.card c.e.nsid = true →
      ∃ t, exec (.forwardedCommand k ep) s = .next t ∧ t.cmds = [(k, { c with st := .xferWait, fwd := none })] ∧ { t with cmds := s.cmds } = s) ∧
    (∀ (k : Nat) (c : Cmd) (s : State), s.cmds = [(k, c)] → c.st = .fetched → c.fwd.isSome = true → mustHold s c.card c.e.nsid = false →
      exec (.forwardedCommand k (cardAt s c.owner).ownEpoch) s = .next (runKind k { s with cmds := [(k, { c with order := s.next })], next := s.next + 1 })) ∧
    (∀ (k : Nat) (c : Cmd) (s : State), s.cmds = [(k, c)] → c.st = .listWait → c.kind = .read → (nsAt s c.e.nsid).zoned = true → c.pieces = [] → c.data = [] → 0 < c.nlb →
      unsettledBut s k c.e.nsid c.lba c.nlb = false → (∀ l, c.lba ≤ l → l < c.lba + c.nlb → resolve s c.e.nsid l = none) → (∀ p ∈ s.pieces, p.2.fail = 0) →
      ∃ t y, exec (.pieceList k) s = .next t ∧ t.cmds = [(k, y)] ∧ y.st = .reading ∧ y.pieces = [s.next] ∧
        (pieceAt t s.next).blocks.map Prod.fst = (List.range c.nlb).map (c.lba + ·) ∧ (pieceAt t s.next).ready = true ∧
        { t with cmds := s.cmds, pieces := s.pieces, next := s.next } = s) ∧
    (∀ (k : Nat) (c : Cmd) (s : State), s.cmds = [(k, c)] → c.st = .lockWait → c.locks ≠ [] → c.kind = .dsm → c.status = none →
      (nsAt s c.e.nsid).used = true → (nsAt s c.e.nsid).ready = true → (nsAt s c.e.nsid).slice = some c.slice → pget (nsAt s c.e.nsid).att (cardOf c.e.port) = true →
      (nsAt s c.e.nsid).zoned = false → bit c.e.cdw11.toNat 2 = true → 16 * (dsmRanges c.e).length ≤ c.e.dlen →
      (∀ r ∈ dsmRanges c.e, r.1 + r.2 ≤ (nsAt s c.e.nsid).nsze) → (∃ r ∈ dsmRanges c.e, 0 < r.2) →
      ∃ t y l, exec (.rangeLockGrant k) s = .next t ∧ t.cmds = [(k, y)] ∧ y.st = .journal ∧ y.recs = l.length ∧ (jAt t c.owner).queue = (jAt s c.owner).queue ++ l ∧
        (∀ j ∈ l, j.kind = 1 ∧ j.slot = 524287 ∧ j.cmd = some k) ∧ { t with cmds := s.cmds, jA := s.jA, jB := s.jB } = s) ∧
    (∀ (k : Nat) (c : Cmd) (s : State), s.cmds = [(k, c)] → c.bufs = [] → c.pieces = [] → c.cws = [] → c.missed = none → c.silent = false → c.svc ≠ .bound →
      c.e.sqid ≠ 0 → c.e.cid < 65536 → superseded s c.slice c.gen = false → (ctrlAt s c.e.port).link = true → (ctrlAt s c.e.port).rdy = true → s.canonical = true →
      (∀ n ∈ s.nss, n.2.deleting = none) → (∀ x ∈ s.slices, x.2.waiter = none) → (nsAt s c.e.nsid).zoned = false →
      ∀ r ∈ [(Instr.rangeLockTimeout k, CmdSt.lockEntries, 64, 0x84, 0), (.zoneOpenWaitExpiry k, .openWait, 400, 0x83, c.stopFrond), (.gcWriteWaitExpiry k, .gcWait, 4000, 0x83, 16),
          (.fullWaitExpiry k, .fullWait, 0, 0x81, c.stopFrond), (.bufferDeferralExpiry k, .deferred, 400, 0x82, c.dw0)],
        c.st = r.2.1 → (r.2.1 = .gcWait → freeStripes s c.e.nsid ≤ 2) → (r.2.1 ≠ .fullWait → elapsed s c.since r.2.2.1 = true) → (r.2.1 = .fullWait → s.feat.fullWait ≤ c.stoppedFrames ∧ 0xC6 ∈ s.events.posted) →
        ∃ t, exec r.1 s = .next t ∧ t.cmds = [] ∧
          t.cqes = s.cqes ++ [{ port := c.e.port, sqid := c.e.sqid, cid := c.e.cid, sct := 7, sc := r.2.2.2.1, dw0 := r.2.2.2.2, more := true }] ∧
          (ctrlAt t c.e.port).errCount = (ctrlAt s c.e.port).errCount + 1 ∧
          (r.2.1 = .fullWait → t.seedbed = { s.seedbed with fullFails := s.seedbed.fullFails + 1 }) ∧
          (r.2.1 = .deferred → (poolAt t c.owner c.dw0).failed = (if c.dw0 < (memAt s c.owner).pools.length then ((poolAt s c.owner c.dw0).failed + 1) % 2 ^ 32 else 0)) ∧
          { t with
            cqes := s.cqes, cmds := s.cmds, pieces := s.pieces, reqs := s.reqs, zones := s.zones, spA := s.spA, spB := s.spB, cqs := s.cqs, sqs := s.sqs, tx := s.tx,
            c0 := s.c0, c1 := s.c1, seedbed := s.seedbed, memA := s.memA, memB := s.memB, cws := s.cws, seA := s.seA, seB := s.seB, engines := s.engines } = s)

/-- The allocator opens a zone; journal records take effect once programmed; map pages, checkpoints, victims (R85, R94, R137,
R149, R150, R151, R152, R154). -/
def Obligations.MapsJournalsAndAllocator : Prop :=
  (∀ (k slot zk : Nat) (c x : Cmd) (cls : Nat) (s : State), s.canonical = true → s.cmds = [(k, c)] → c.st = .allocWait → c.kind = .zoneSend → x = { c with cls := cls } →
      zoneCmdErr s x invalidOpcode = none → selAll x = false → namedState s x = .empty → zk = zoneKey c.e.nsid (c.lba / 1048576) → activeCount s < 16384 →
      cls < 16 → lacking s cls = [] → 0 < freeSlots s → nextSlotFree s = some slot → (∀ y ∈ s.stripes, y.2.used = true → y.2.nsid ≠ c.e.nsid) →
      ∃ t y j, exec (.allocatorRequest c.e.nsid (c.lba / 1048576) cls) s = .next t ∧ t.cmds = [(k, y)] ∧ y.st = .journal ∧ y.recs = c.recs + 1 ∧
        zoneAt t zk = { st := .explOpen, slot := some slot, cls := cls } ∧ (stripeAt t slot).used = true ∧ (stripeAt t slot).nsid = c.e.nsid ∧
        (stripeAt t slot).zone = some (c.lba / 1048576) ∧ (stripeAt t slot).gen = ((stripeAt s slot).gen + 1) % 2 ^ 32 ∧
        (stripeAt t slot).members.length = 16 ∧
        (∀ i < 16, ∃ m, (stripeAt t slot).members[i]? = some m ∧ m.blk.isSome = frondIn s (memberFrond slot i) ∧
          ∀ b, m.blk = some b → frondOfDie (b / 4096) = memberFrond slot i ∧ (blkAt t b).state = 4 ∧ (blkAt t b).member = some (mKey slot i)) ∧
        s.journals t (ownerOfNs s c.e.nsid) [j] ∧ j.kind = 2 ∧ j.slot = slot ∧ j.offset = cls ∧ j.cmd = some k ∧
        t.pair.lastBase = slot % 16 ∧ (∀ z, z ≠ zk → zoneAt t z = zoneAt s z) ∧ (∀ q, q ≠ slot → stripeAt t q = stripeAt s q) ∧
        s.onlyTells { t with cmds := s.cmds, zones := s.zones, stripes := s.stripes, blks := s.blks, jA := s.jA, jB := s.jB, pair := s.pair }) ∧
    (∀ (c : CardId) (n : Nat) (w : MetaWork) (r : JRec) (q zk : Nat) (old : Zone) (s : State), s.canonical = true → s.cmds = [] →
      findWork s (isJournal c) = some (n, w) → w.of = .journal c [r] q → w.copies = [] → w.reads = 0 → r.kind = 3 → r.undo = some (zk, old) →
      (zActive (zoneAt s zk).st = true ∧ (zoneAt s zk).slot = old.slot ∨ (zoneAt s zk).st = .empty ∧ old.slot = none) →
      ∃ t, exec (.mapJournalProgrammed c) s = .next t ∧ (jAt t c).queue = (jAt s c).queue ∧ (jAt t c).recs = (jAt s c).recs ++ [r] ∧
        t.metas = { s.metas with work := tdel s.metas.work n } ∧
        zoneAt t zk = { zoneAt s zk with st := .full, finish := some (zoneAt s zk).wp } ∧ ∀ q, q ≠ zk → zoneAt t q = zoneAt s q) ∧
    (∀ (c : CardId) (n : Nat) (w : MetaWork) (r : JRec) (q : Nat) (s : State), s.canonical = true → s.cmds = [] → findWork s (isJournal c) = some (n, w) →
      w.of = .journal c [r] q → w.copies = [] → w.reads = 0 → r.kind = 1 →
      ∃ t, exec (.mapJournalProgrammed c) s = .next t ∧ t.metas = { s.metas with work := tdel s.metas.work n } ∧ (jAt t c).queue = (jAt s c).queue ∧
        (∀ i < r.count, ∀ ck, ck = ckOf (stripeAt s r.slot).profile r.slot (r.offset + i) → r.slot ≠ 524287 → (tfind s.cws ck).isSome = true →
          (cwAt t ck).recorded = true) ∧ (jAt t c).recs = (jAt s c).recs ++ [r] ∧ (jAt t c).written = (jAt s c).written + 1 ∧
        jAt t (other c) = jAt s (other c) ∧
        (∀ b, tget none t.map (r.nsid * 2 ^ 41 + b) = if r.lba ≤ b ∧ b < r.lba + r.count then
          (if r.slot = 524287 then none else some (r.slot, r.offset + (b - r.lba))) else tget none s.map (r.nsid * 2 ^ 41 + b)) ∧
        { t with
          jA := s.jA, jB := s.jB, map := s.map, pages := s.pages, stripes := s.stripes, cws := s.cws, metas := s.metas, tx := s.tx, pair := s.pair } = s) ∧
    (∀ (c : CardId) (s : State), (∀ n w, findWork s (isJournal c) = some (n, w) → w.copies ≠ []) → exec (.mapJournalProgrammed c) s = .next s) ∧
    (∀ (nsid page : Nat) (s : State), (nsAt s nsid).used = true → (nsAt s nsid).zoned = false → tfind s.pages (nsid * 2 ^ 29 + page) = none →
      (cachedOf s (ownerOfNs s nsid)).length < cachePages s (ownerOfNs s nsid) → (∀ p ∈ s.pieces, p.2.fail = 0) →
      (∀ r ∈ s.reqs, r.2.mapPage ≠ some (nsid * 2 ^ 29 + page)) →
      exec (.mapPageRead nsid page) s = .next { s with pages := tins s.pages (nsid * 2 ^ 29 + page) { cached := true, ref := true } }) ∧
    (∀ (c : CardId) (s : State), s.canonical = true → (cardAt s c).serving = true → (jAt s c).running = none → ((jAt s c).lastFc + 16384 ≤ s.time.fc ∨ 4194304 ≤ (jAt s c).written) →
      ∃ t, exec (.checkpointStart c) s = .next t ∧
        jAt t c = { jAt s c with running := some (seqNow s), stage := 0, lastFc := s.time.fc, written := 0, older := (jAt s c).recs.length } ∧
        jAt t (other c) = jAt s (other c) ∧ t.pages.map Prod.fst = s.pages.map Prod.fst ∧
        (∀ p ∈ s.pages, p.2.dirty = true → ownerOfNs s (p.1 / 2 ^ 29) = c → metaFronds s (p.1 % 2 ^ 29 % 16) ≠ [] → (findWork t (isPage p.1)).isSome = true) ∧
        (∀ w ∈ s.metas.work, w ∈ t.metas.work ∨ s.next ≤ w.1) ∧ t.metas.places = s.metas.places ∧
        (∀ k, { tget ({} : MapPage) t.pages k with writing := false } = { tget ({} : MapPage) s.pages k with writing := false }) ∧
        { t with jA := s.jA, jB := s.jB, pages := s.pages, metas := s.metas, next := s.next } = s) ∧
    (∀ (c : CardId) (s : State), (∀ n w, findWork s (isRoot c) = some (n, w) → w.copies ≠ []) → exec (.checkpointComplete c) s = .next s) ∧
    (∀ (c : CardId) (q n : Nat) (w : MetaWork) (s : State), (jAt s c).running = some q → findWork s (isRoot c) = some (n, w) → w.copies = [] → w.reads = 0 →
      ∃ t, exec (.checkpointComplete c) s = .next t ∧ (jAt t c).running = none ∧ (jAt t c).stage = 0 ∧ t.metas = { s.metas with work := tdel s.metas.work n } ∧ (jAt t c).rootSeq = q ∧ (jAt t c).rootEp = s.time.ep ∧
        (jAt t c).recs = (jAt s c).recs.drop (jAt s c).older ∧ (jAt t c).queue = (jAt s c).queue ∧ (jAt t c).rootOwn = (cardAt s c).ownEpoch ∧
        jAt t (other c) = jAt s (other c) ∧ { t with jA := s.jA, jB := s.jB, metas := s.metas } = s) ∧
    (∀ (slot : Nat) (st : Stripe) (s : State), st = stripeAt s slot → st.used = true → (nsAt s st.nsid).victim = some slot → s.cmds = [] →
      (∀ p ∈ s.pieces, p.2.slot ≠ slot) → validOf s st.nsid slot = [] → (∀ r ∈ workRecs s .ca ++ workRecs s .cb ++ s.jA.queue ++ s.jB.queue, r.kind ≠ 7 ∨ r.slot ≠ slot) →
      ∃ t, exec (.gcVictimRelease slot) s = .next t ∧ s.journals t (ownerOfNs s st.nsid) [{ kind := 7, nsid := st.nsid, slot := slot }] ∧
        { t with jA := s.jA, jB := s.jB } = s) ∧
    (∀ (c : CardId) (n : Nat) (w : MetaWork) (q slot : Nat) (st : Stripe) (s : State), s.canonical = true → st = stripeAt s slot → st.used = true → st.zone = none → (nsAt s st.nsid).victim = some slot → s.cmds = [] →
      validOf s st.nsid slot = [] → findWork s (isJournal c) = some (n, w) → w.of = .journal c [{ kind := 7, nsid := st.nsid, slot := slot }] q → w.copies = [] → w.reads = 0 →
      ∃ t, exec (.mapJournalProgrammed c) s = .next t ∧ (stripeAt t slot) = { gen := st.gen } ∧
        nsAt t st.nsid = { nsAt s st.nsid with victim := none, slots := (nsAt s st.nsid).slots.filter (· ≠ slot), gcFreed := (nsAt s st.nsid).gcFreed + capOf st.profile } ∧ (∀ n, n ≠ st.nsid → nsAt t n = nsAt s n) ∧
        (jAt t c).queue = (jAt s c).queue ∧ t.metas = { s.metas with work := tdel s.metas.work n } ∧
        (∀ b ∈ st.members.filterMap (·.blk), (blkAt t b).state = (if (blkAt s b).state = 8 then 8 else 1) ∧ (blkAt t b).member = none) ∧
        (∀ q, q ≠ slot → stripeAt t q = stripeAt s q) ∧ s.onlyFrees { t with nss := s.nss, jA := s.jA, jB := s.jB, metas := s.metas, pair := s.pair })

/-- Insertion, settling, acceptance, preparation and removal of fronds (R102, R103, R383, R401, R422, R433, R434, R435). The request at an insertion and a slot behind its open fuse are log entries 206 and 207. -/
def Obligations.FrondsAreServiced : Prop :=
  (∀ (f : Frond) (s : State), (frondAt s f).present = false →
      ∃ t, exec (.frondPresentClose f) s = .next t ∧ frondAt t f = { frondAt s f with present := true, insert := 1, ident := none, serial := [] } ∧
        (rising s.power.fuses = true → fuseAt t f.val = {}) ∧ (∀ g, g ≠ f.val → frondAt t g = frondAt s g) ∧
        { t with fronds := s.fronds, power := s.power } = s ∧ { t.power with fuses := s.power.fuses } = s.power) ∧
    (∀ (f : Frond) (id : FrondIdent) (s : State), (frondAt s f).present = true → (frondAt s f).insert = 1 → s.power.ps ≠ 4 → s.time.bus = true → (fuseAt s f.val).off = false →
      ∃ t, exec (.frondSettled f id) s = .next t ∧
        frondAt t f = { frondAt s f with insert := 2, ident := some id, serial := id.serial, store := id.store.take 4096, code := (runningImage s).filnasSha } ∧
        (∀ g, g ≠ f.val → frondAt t g = frondAt s g) ∧ t.tx = s.tx ++ [.regulator (.frondPol f 0)] ∧
        t.power = { s.power with regReqs := s.power.regReqs.filter (fun q => q.id ≠ .frondPol f 0) ++ [{ id := .frondPol f 0, sent := now s }] } ∧
        { t with fronds := s.fronds, power := s.power, tx := s.tx } = s) ∧
    (∀ (f : Frond) (s : State), (fuseAt s f.val).off = true ∨ 3 ≤ s.power.ps → exec (.frondAcceptance f) s = .next s) ∧
    (∀ (f : Frond) (id : FrondIdent) (s : State), s.canonical = true → (frondAt s f).present = true → (frondAt s f).insert = 2 → (frondAt s f).ident = some id →
      (fuseAt s f.val).off = false → s.power.ps < 3 →
      (id.partOk = true ∧ bit (runningImage s).hwFrond id.rev = true → id.coreOk = true ∧ id.trainOk = true → isKnown (frondAt s f) f id = true →
        (∀ x ∈ s.stripes, x.2.used = false) ∧ ∀ c ∈ s.cws, c.2.waiting = 0) →
      ∃ t, exec (.frondAcceptance f) s = .next t ∧ (∀ g, g ≠ f.val → frondAt t g = frondAt s g) ∧
        (let a := frondAt s f
         let b := frondAt t f
         if id.partOk = false ∨ bit (runningImage s).hwFrond id.rev = false then
           b.state = 7 ∧ b.hidden = a.state ∧ b.insert = 0 ∧ b.ident = none ∧ b.serial = a.serial ∧ s.onlyTells { t with fronds := s.fronds }
         else if id.coreOk = false ∨ id.trainOk = false then
           b.state = 3 ∧ b.insert = 0 ∧ b.ident = none ∧ b.serial = a.serial ∧ s.onlyTells { t with fronds := s.fronds }
         else if isKnown a f id = true then
           b.state = 0 ∧ b.insert = 0 ∧ b.ident = none ∧ b.prepared = 0 ∧ b.serial = a.serial ∧ b.record = a.record ∧ b.goneFc = (if a.state = 0 then a.goneFc else 0) ∧
             b.noSegs = s.power.feedLost ∧ (∀ i < 8, (chanAt t (f.val * 8 + i)).trained = true) ∧ (∀ i, i / 8 ≠ f.val → chanAt t i = chanAt s i) ∧
             (∀ k, k / 1048576 ≠ f.val → blkAt t k = blkAt s k) ∧
             s.onlyTells { t with fronds := s.fronds, chans := s.chans, blks := s.blks, dies := s.dies, rebuild := s.rebuild }
         else if otherSlot s f id = true then b = { a with insert := 0, ident := none } ∧ s.onlyTells { t with fronds := s.fronds }
         else ¬ (a.state = 3 ∨ a.state = 4 ∨ a.state = 8 ∨ a.hasRecord = false) → b = { a with insert := 3 } ∧ s.onlyTells { t with fronds := s.fronds })) ∧
    (∀ (f : Frond) (id : FrondIdent) (s : State), s.canonical = true → (frondAt s f).present = true → (frondAt s f).insert = 2 → (frondAt s f).ident = some id →
      (fuseAt s f.val).off = false → s.power.ps < 3 → id.partOk = true → bit (runningImage s).hwFrond id.rev = true → id.coreOk = true → id.trainOk = true → isKnown (frondAt s f) f id = false → otherSlot s f id = false →
      ((frondAt s f).state = 3 ∨ (frondAt s f).state = 4 ∨ (frondAt s f).state = 8 ∨ (frondAt s f).hasRecord = false) →
      (∀ x ∈ s.stripes, x.2.used = false) → (∀ c ∈ s.cws, c.2.waiting = 0) → (∀ p ∈ s.metas.places, ∀ x ∈ p.2, x.1 / 1024 ≠ f.val) →
      ∃ t r, exec (.frondAcceptance f) s = .next t ∧ (frondAt t f).state = 0 ∧ (frondAt t f).serial = id.serial ∧ (frondAt t f).record = id.serial ∧ (frondAt t f).hasRecord = true ∧
        (frondAt t f).insert = 0 ∧ (frondAt t f).table = [] ∧ (frondAt t f).spares = 30720 ∧
        (∀ i < 256, dieAt t (f.val * 256 + i) = { state := if id.failed.contains i then 2 else 0, unwiped := some 0 }) ∧
        (id.factoryBad = [] → ∀ k, k / 1048576 = f.val → blkAt t k = blkDefault k) ∧
        (∀ b ∈ id.factoryBad, b < 1048576 → (blkAt t (f.val * 1048576 + b)).state = 9) ∧
        (∀ i < 8, chanAt t (f.val * 8 + i) = {
          trained := true, due := false, trainFc := s.time.fc, pkgTemps := (List.range 4).map fun j => packageTemp s (f.val * 256 + i * 32 + j * 8) }) ∧
        (∀ d, d / 256 ≠ f.val → dieAt t d = dieAt s d) ∧ (∀ k, k / 1048576 ≠ f.val → blkAt t k = blkAt s k) ∧ (∀ i, i / 8 ≠ f.val → chanAt t i = chanAt s i) ∧
        (∀ g, g ≠ f.val → frondAt t g = frondAt s g) ∧ t.events.changeQ = s.events.changeQ ++ [(r, none)] ∧ r.code = 0x813 ∧ r.cls = 3 ∧
        s.onlyTells { t with fronds := s.fronds, dies := s.dies, blks := s.blks, chans := s.chans, rebuild := s.rebuild }) ∧
    (∀ (f : Frond) (s : State), s.canonical = true → (frondAt s f).prepared = 1 → (frondAt s f).prepFc + 64 ≤ s.time.fc + 1 →
      ∃ t, exec (.prepareProgramCut f) s = .next t ∧
        (∀ d o, (dieAt s d).op = some o → d / 256 = f.val → o.kind ≠ .erase →
          dieAt t d = { dieAt s d with op := none, seg := false, suspended := false, suspending := false }) ∧
        (∀ d, (d / 256 ≠ f.val ∨ (dieAt s d).op = none ∨ ∃ o, (dieAt s d).op = some o ∧ o.kind = .erase) → dieAt t d = dieAt s d) ∧
        (∀ m r, tfind (frondAt t f).table m = some r → m ∈ membersOf s f ∧ r.gen = (stripeAt s (m / 16)).gen ∧ r.verified = (memberAt s m).verified) ∧
        (∀ k, chunkAt t k = chunkAt s k ∨ (memberFrond (slotOfH k) (posOfH k) = f.val ∧ underWay (chunkAt s k) = true ∧
          chunkAt t k = if (chunkAt s k).recovery = true then {} else { chunkAt s k with st := .held, reads := 0, buf := none })) ∧
        (∀ g, (g ≠ f.val → (frondAt t g).table = (frondAt s g).table) ∧
          { frondAt t g with table := (frondAt s g).table, cur := (frondAt s g).cur, nxt := (frondAt s g).nxt, waiting := (frondAt s g).waiting } = frondAt s g) ∧
        s.onlyTells { t with fronds := s.fronds, dies := s.dies, chunks := s.chunks, reqs := s.reqs, memA := s.memA, memB := s.memB }) ∧
    (∀ (f : Frond) (p cid : Nat) (s : State), s.canonical = true → s.quiet → (frondAt s f).prepared = 1 → (frondAt s f).prepCmd = some (p, cid) → (frondAt s f).dirty = [] →
      (frondAt s f).batch = [] → (frondAt s f).erased = [] → (frondAt s f).prepFc ≤ (frondAt s f).journalFc → s.keepsHome f → (frondAt s f).state ≠ 1 →
      ∃ t r, exec (.prepareComplete f) s = .next t ∧ (frondAt t f).state = 1 ∧ (frondAt t f).prepared = 2 ∧ (frondAt t f).prepCmd = none ∧ (frondAt t f).goneEp = s.time.ep ∧
        (frondAt t f).record = (frondAt s f).record ∧ (∀ g, g ≠ f.val → frondAt t g = s.afterQueue g) ∧
        t.events.changeQ = s.events.changeQ ++ [(r, some { port := if p = 0 then .h0 else .h1, cid := cid, dw0 := (frondAt s f).prepCount })] ∧ r.code = 0x10 ∧ r.cls = 3 ∧
        s.onlyTells { t with fronds := s.fronds, rebuild := s.rebuild, sec := s.sec, dies := s.dies, blks := s.blks }) ∧
    (∀ (f : Frond) (s : State), (frondAt s f).journalFc < (frondAt s f).prepFc → exec (.prepareComplete f) s = .next s) ∧
    (∀ (f : Frond) (s : State), s.canonical = true → s.quiet → s.keepsHome f → (frondAt s f).present = true → (frondAt s f).prepCmd = none →
      ∃ t, exec (.frondPresentOpen f) s = .next t ∧ (frondAt t f).present = false ∧ (frondAt t f).insert = 0 ∧ (frondAt t f).ident = none ∧ (frondAt t f).serial = [] ∧
        (frondAt t f).prepared = 0 ∧ (frondAt t f).shutdown = false ∧ (frondAt t f).record = (frondAt s f).record ∧ (frondAt t f).hasRecord = (frondAt s f).hasRecord ∧
        (frondAt t f).state = (let a := frondAt s f
          if a.state = 0 ∨ a.state = 5 ∨ a.state = 6 then 2 else if a.state = 9 then a.hidden else if a.state = 7 then (if a.hasRecord then a.hidden else 8) else if a.hasRecord then a.state else 8) ∧
        ((frondAt s f).state = 0 → (frondAt t f).goneFc = (if (frondAt s f).goneFc = 0 then s.time.fc else (frondAt s f).goneFc) ∧ (frondAt t f).goneEp = s.time.ep) ∧
        (∀ g, g ≠ f.val → frondAt t g = (if (frondAt s f).state = 0 ∨ (frondAt s f).state = 5 ∨ (frondAt s f).state = 6 then s.afterQueue g else frondAt s g)) ∧
        s.onlyTells { t with fronds := s.fronds, rebuild := s.rebuild, dies := s.dies, blks := s.blks })

/-- Insertion of cards and PEUs, the SVC button, removal of a PEU, and an engine whose heartbeat stops (R24, R391, R401, R403,
R429, R436, R437, R439, R440). -/
def Obligations.CardsPeusAndEnginesAreServiced : Prop :=
  (∀ (c : CardId) (id : CardIdent) (s : State), (cardAt s c).present = false →
      ∃ t, exec (.cardPresentClose c id) s = .next t ∧
        cardAt t c = (if id.partOk = false ∨ bit (runningImage s).hwCard id.rev = false then { insertedCard id with entering := 0, why := .foreign, fuseOn := false }
          else { insertedCard id with entering := if s.time.bus then 1 else 0 }) ∧ cardAt t (other c) = cardAt s (other c) ∧
        memAt t c = { freshMem with grainNow := (memAt s c).grainNow, cacheNow := (memAt s c).cacheNow } ∧ memAt t (other c) = memAt s (other c) ∧
        spAt t c = { spAt s c with retired := [], rewritten := [] } ∧ spAt t (other c) = spAt s (other c) ∧
        (rising s.engines = true → ∀ e, engAt t e = if e / 64 = cardNo c then {} else engAt s e) ∧ (rising s.power.fuses = true → fuseAt t (16 + cardNo c) = {}) ∧
        recAt t c = (if id.recorderSerial = Config.moduleSerial ∧ id.clearGen = (recAt s (other c)).clearGen then recAt s c else { clearGen := (recAt s (other c)).clearGen })) ∧
    (∀ (c : CardId) (s : State),
      ((cardAt s c).serving = true → mayLeave s c = true →
        ∃ t, exec (.svcButtonHold c) s = .next t ∧ cardAt t c = { cardAt s c with leaving := 1 } ∧ cardAt t (other c) = cardAt s (other c) ∧
          ctrlAt t (portOf c) = { ctrlAt s (portOf c) with stopped := true } ∧ ctrlAt t (portOf (other c)) = ctrlAt s (portOf (other c)) ∧
          { t with pair := s.pair, c0 := s.c0, c1 := s.c1 } = s ∧ { t.pair with ca := s.pair.ca, cb := s.pair.cb } = s.pair) ∧
      ((cardAt s c).serving = false → (cardAt s c).present = true → (cardAt s c).held = true → (cardAt s c).heldAgain = false →
        ∃ t, exec (.svcButtonHold c) s = .next t ∧ cardAt t c = { cardAt s c with why := .none, entering := 1, held := false } ∧ cardAt t (other c) = cardAt s (other c) ∧
          { t with pair := s.pair } = s ∧ { t.pair with ca := s.pair.ca, cb := s.pair.cb } = s.pair) ∧
      ((cardAt s c).serving = true ∧ mayLeave s c = false ∨ (cardAt s c).serving = false ∧ (cardAt s c).present = true ∧ (cardAt s c).held = true ∧ (cardAt s c).heldAgain = true →
        ∃ t, exec (.svcButtonHold c) s = .next t ∧ { t with events := s.events } = s)) ∧
    (∀ (p : PeuId) (s : State), (peuAt s p).present = true → (∀ x ∈ (peuAt s p).out, x.cmd = none) → delivers (peuAt s (otherPeu p)) = true →
      ∃ t, exec (.peuPresentOpen p) s = .next t ∧
        peuAt t p = { present := false, st := 0, outOn := false, feed := (peuAt s p).feed, iSaved := (peuAt s p).iSaved, status := {}, atA := none, atB := none, calRead := 0 } ∧
        peuAt t (otherPeu p) = peuAt s (otherPeu p) ∧ t.power.capacity = capacity t ∧ s.onlyTells { t with power := s.power }) ∧
    (∀ (p : PeuId) (id : PeuIdent) (keltan : Bool) (code : List Byte) (s : State), (peuAt s p).present = false → keltan = (id.keltan && bit (runningImage s).hwPeu id.rev) →
      ∃ t, exec (.peuPresentClose p id code) s = .next t ∧ (peuAt t p).present = true ∧ (peuAt t p).rev = some id.rev ∧ (peuAt t p).keltan = keltan ∧ (peuAt t p).st = 0 ∧ (peuAt t p).outOn = keltan ∧
        (peuAt t p).code = code ∧ (peuAt t p).cal = [] ∧ (peuAt t p).iLimit = 100 ∧ (peuAt t p).margin = 0 ∧ (peuAt t p).feed = (peuAt s p).feed ∧
        (peuAt t p).iSaved = (peuAt s p).iSaved ∧ (keltan = true → (peuAt t p).calRead = 0) ∧ (keltan = false → peuAt t (otherPeu p) = peuAt s (otherPeu p)) ∧
        s.onlyTells { t with power := s.power }) ∧
    (∀ (c : CardId) (i : Nat) (s : State), i < 64 → engineWorks s c i = true →
      tooFew (engineOut c i 1 s) c = false → (∀ f, leReaches (engineOut c i 1 s) f = true) →
      ∃ t, exec (.engineWatchdog (.quihar c i)) s = .next t ∧ engAt t (cardNo c * 64 + i) = { engAt s (cardNo c * 64 + i) with failed := true, winnow := none } ∧
        (∀ e, e ≠ cardNo c * 64 + i → engAt t e = engAt s e) ∧ cardAt t c = { cardAt s c with soakAt := now s } ∧ cardAt t (other c) = cardAt s (other c) ∧
        { t with engines := s.engines, pair := s.pair, events := s.events } = s) ∧
    (∀ (f : Frond) (s : State), s.canonical = true → s.quiet → s.keepsHome f → frondAbsent s f = false →
      ∃ t, exec (.engineWatchdog (.filnas f 8)) s = .next t ∧ (frondAt t f).state = 3 ∧ (frondAt t f).coreFails = (frondAt s f).coreFails + 1 ∧
        (frondAt t f).coreReset = decide ((frondAt s f).coreFails = 0) ∧ (∀ g, g ≠ f.val → frondAt t g = s.afterQueue g) ∧
        s.onlyTells { t with fronds := s.fronds, rebuild := s.rebuild, dies := s.dies, blks := s.blks }) ∧
    (∀ (f : Frond) (i : Nat) (s : State), s.canonical = true → s.quiet → s.keepsHome f → frondAbsent s f = false → i < 8 → (chanAt s (f.val * 8 + i)).failed = false →
      ∃ t, exec (.engineWatchdog (.filnas f i)) s = .next t ∧ (chanAt t (f.val * 8 + i)).failed = true ∧
        (∀ j, j < 32 → (dieAt t ((f.val * 8 + i) * 32 + j)).state = 2) ∧ (∀ d, d / 32 ≠ f.val * 8 + i → dieAt t d = dieAt s d) ∧
        (∀ g, g ≠ f.val → frondAt t g = frondAt s g))

/-- Every way a card fails or is pulled takes it out of service, and the serving partner owns everything (R24, R284, R285, R291,
R292, R293, R269, R301, R421, R439). -/
def Obligations.CardsLeaveServiceAndPartnerTakesOver : Prop :=
  ∀ (i : Instr) (c : CardId) (w : HeldWhy) (s : State), s.quiet → (cardAt s c).serving = true → carries (cardAt s (other c)) = true →
    (∀ n ∈ s.nss, n.2.deleting = none) → (∀ x ∈ s.slices, x.2.waiter = none) → (cardAt s (other c)).unacked = [] →
    ((i = .cardPresentOpen c ∧ w = .removed) ∨
     (∃ hb, i = .heartbeat (other c) hb ∧ hb.state = 4 ∧ hb.crcOk = true ∧ some hb.alive ≠ ((memAt s (other c)).alive.getD 2 {}).last ∧ w = .partnerHold) ∨
     (i = .heartbeatMissed (other c) ∧ (cardAt s (other c)).beat = false ∧ 3 ≤ (cardAt s (other c)).missed ∧
       ((fedPeus s).all fun p => statusCurrent s p && decide (8 ≤ silentOf p c)) = true ∧ w = .partnerHold) ∨
     (i = .rhizomeLaneLoss false ∧ bothServe s = true ∧ c = other s.time.master ∧ w = .partnerHold) ∨
     (∃ n, i = .engineWatchdog (.quihar c n) ∧ n < 64 ∧ engineWorks s c n = true ∧
       tooFew (engineOut c n 1 s) c = true ∧ w = .outOfService) ∨
     (∃ n line, i = .dramUncorrectableError c n line ∧ (memAt s c).rop = .idle ∧ (rankAt s c n).role ≠ 9 ∧ (memAt s c).spare = none ∧ w = .outOfService) ∨
     (∃ n, i = .thermalShutdown (.junction c n) ∧ n < 12 ∧ sensorNo (.junction c n) ∉ s.power.broken ∧ w = .outOfService)) →
    ∃ t, exec i s = .next t ∧ (cardAt t c).serving = false ∧ (cardAt t c).why = w ∧ (cardAt t c).held = (i != .cardPresentOpen c) ∧ (cardAt t c).hb = 4 ∧ (ctrlAt t (portOf c)).link = false ∧ (ctrlAt t (portOf c)).rdy = false ∧
      (bulkAt t c).linkUp = false ∧ (culmAt t (culmOf c)).link = 6 ∧
      (cardAt t (other c)).serving = true ∧ t.pair.own1 = other c ∧ t.pair.own2 = other c ∧ t.time.master = other c ∧ .fence c ∈ t.tx ∧
      (cardAt s (other c)).ownEpoch < (cardAt t (other c)).ownEpoch ∧ (cardAt t c).ownEpoch = (cardAt s c).ownEpoch ∧ t.pair.transfers = [] ∧
      (s.pair.own1 = c ∨ s.pair.own2 = c → t.pair.takeover = some (other c, s.time.fc)) ∧ (i = .cardPresentOpen c → (cardAt t c).present = false ∧ (cardAt t c).fuseOn = false) ∧
      (ctrlAt t (portOf (other c))).link = (ctrlAt s (portOf (other c))).link ∧ t.map = s.map ∧ t.feat = s.feat ∧ t.rules = s.rules ∧ t.misses = s.misses

/-- Heartbeats, mirror records, planned transfers, fences, and a card that enters service again (R274, R284, R285, R286, R287,
R292, R293, R296, R300, R301). -/
def Obligations.PairMirrorsTransfersAndReturns : Prop :=
  (∀ (c : CardId) (hb : HeartbeatMsg) (s : State), (cardAt s c).serving = true → 2 < (memAt s c).alive.length →
      (hb.crcOk = true → some hb.alive ≠ ((memAt s c).alive.getD 2 {}).last → hb.state ≠ 4 → (cardAt s c).unacked = [] →
        ∃ t, exec (.heartbeat c hb) s = .next t ∧ cardAt t c = { cardAt s c with beat := true, missed := 0, partnerHb := hb.state } ∧ cardAt t (other c) = cardAt s (other c) ∧
          ((memAt t c).alive.getD 2 {}).last = some hb.alive ∧ ((memAt t c).alive.getD 2 {}).crcFails = ((memAt s c).alive.getD 2 {}).crcFails ∧
          memAt t (other c) = memAt s (other c) ∧ { t with pair := s.pair, memA := s.memA, memB := s.memB } = s) ∧
      ((hb.crcOk = false ∨ some hb.alive = ((memAt s c).alive.getD 2 {}).last) →
        ∃ t, exec (.heartbeat c hb) s = .next t ∧ t.pair = s.pair ∧ ((memAt t c).alive.getD 2 {}).last = ((memAt s c).alive.getD 2 {}).last ∧
          ((memAt t c).alive.getD 2 {}).crcFails = (if hb.crcOk then ((memAt s c).alive.getD 2 {}).crcFails else (((memAt s c).alive.getD 2 {}).crcFails + 1) % 2 ^ 32) ∧
          ((memAt t c).alive.getD 2 {}).repeats = (if hb.crcOk then (((memAt s c).alive.getD 2 {}).repeats + 1) % 2 ^ 32 else ((memAt s c).alive.getD 2 {}).repeats) ∧
          { t with memA := s.memA, memB := s.memB } = s)) ∧
    (∀ (c : CardId) (s : State), (cardAt s c).serving = true → (cardAt s (other c)).serving = true → (cardAt s c).beat = false → (cardAt s c).missed < 3 →
      ∃ t, exec (.heartbeatMissed c) s = .next t ∧ cardAt t c = { cardAt s c with missed := (cardAt s c).missed + 1 } ∧ cardAt t (other c) = cardAt s (other c) ∧
        { t with pair := s.pair } = s ∧ { t.pair with ca := s.pair.ca, cb := s.pair.cb } = s.pair) ∧
    (∀ (c : CardId) (fc : Nat) (s : State), s.pair.takeover = some (c, fc) → (∀ x ∈ s.cmds, x.2.st ≠ .xferWait) →
      ∃ t, exec (.takeoverComplete c) s = .next t ∧ t.pair = { s.pair with takeover := none } ∧ { t with pair := s.pair, events := s.events } = s) ∧
    (∀ (f : Frond) (c : CardId) (s : State), s.canonical = true → ¬ ((cardAt s c).serving = true ∧ (cardAt s (other c)).serving = true) →
      ∃ t, exec (.fenceReceived f c) s = .next t ∧ c ∈ (frondAt t f).fenced ∧ (∀ g, g ≠ f.val → frondAt t g = frondAt s g) ∧
        (∀ n r, tfind s.reqs n = some r →
          (frondOfDie r.die = f.val → r.owner = c → (r.st = .sent ∨ r.st = .accepted ∨ r.st = .planned) →
            n ∉ (frondAt t f).waiting ∧ n ∉ (frondAt t f).cur.reads ∧ n ∉ (frondAt t f).nxt.reads ∧
            reqAt t n = if r.piece.isSome then { r with st := .withdrawn } else { r with owner := other c, st := .sent, target := s.time.fc + 1, frame := none }) ∧
          (¬ (frondOfDie r.die = f.val ∧ r.owner = c ∧ (r.st = .sent ∨ r.st = .accepted ∨ r.st = .planned)) → reqAt t n = r)) ∧
        { t with fronds := s.fronds, reqs := s.reqs } = s) ∧
    (∀ s : State, ∃ t, exec (.rhizomeLaneLoss true) s = .next t ∧ t.pair = { s.pair with lanes := if s.pair.lanes = 0 then 0 else 8 } ∧ { t with pair := s.pair } = s) ∧
    (∀ (c : CardId) (m : Nat) (s : State), (cardAt s c).serving = true → m ≤ (cardAt s c).msnRx + 1 →
      ∃ t, exec (.mirrorRecord c m) s = .next t ∧ cardAt t c = { cardAt s c with msnRx := max (cardAt s c).msnRx m } ∧ cardAt t (other c) = cardAt s (other c) ∧
        t.tx = s.tx ++ [.mirrorAck c m] ∧ { t with pair := s.pair, tx := s.tx } = s ∧ { t.pair with ca := s.pair.ca, cb := s.pair.cb } = s.pair) ∧
    (∀ (c : CardId) (m : Nat) (r : MirrorRec) (s : State), r ∈ (cardAt s c).unacked → r.msn = m → ((cardAt s c).unacked.map (·.msn)).Nodup →
      (∀ k ∈ r.cmds, (cmdAt s k).st ≠ .ackWait) →
      ∃ t, exec (.mirrorAck c m) s = .next t ∧ (cardAt t c).unacked = (cardAt s c).unacked.filter (fun x => x.msn != m) ∧ (cardAt t c).msnAcked = max (cardAt s c).msnAcked m ∧
        (cardAt t c).holding = ((cardAt s c).holding && !(cardAt t c).unacked.isEmpty) ∧ cardAt t (other c) = cardAt s (other c) ∧
        (∀ k x, tfind s.cmds k = some x → cmdAt t k = if k ∈ r.cmds ∧ x.tied = some m then { x with tied := none } else x) ∧
        { t with pair := s.pair, cmds := s.cmds } = s) ∧
    (∀ (c : CardId) (m : Nat) (s : State), ∃ t, exec (.mirrorAckTimeout c m) s = .next t ∧
        cardAt t c = (if (∃ r ∈ (cardAt s c).unacked, r.msn = m ∧ elapsed s r.sent 4 = true) then { cardAt s c with holding := true } else cardAt s c) ∧
        cardAt t (other c) = cardAt s (other c) ∧ { t with pair := s.pair } = s ∧ { t.pair with ca := s.pair.ca, cb := s.pair.cb } = s.pair) ∧
    (∀ (g : Group) (c : CardId) (s : State), s.pair.ca.serving = true → s.pair.cb.serving = true → ownerOf s g = other c → s.pair.takeover = none → (∀ t ∈ s.pair.transfers, t.group ≠ g) →
      ∃ t, exec (.ownershipTransfer g c) s = .next t ∧ t.pair.transfers = s.pair.transfers ++ [{ group := g, src := other c, dst := c }] ∧
        cardAt t (other c) = { cardAt s (other c) with hb := 2 } ∧ cardAt t c = cardAt s c ∧ { t with pair := s.pair } = s ∧
        { t.pair with ca := s.pair.ca, cb := s.pair.cb, transfers := s.pair.transfers } = s.pair) ∧
    (∀ (g : Group) (s : State), ∃ t, exec (.ownershipCopyDone g) s = .next t ∧ t.pair.transfers.length = s.pair.transfers.length ∧
        (∀ (i : Nat) (x : Transfer), s.pair.transfers[i]? = some x → t.pair.transfers[i]? = some (if x.group = g ∧ undrained s x = false then { x with step := 3 } else x)) ∧
        { t with pair := s.pair } = s ∧ { t.pair with transfers := s.pair.transfers } = s.pair) ∧
    (∀ s : State, bothServe s = true → s.pair.handTo = none →
      ∃ t, exec .tickMasterHandover s = .next t ∧ t.pair = { s.pair with handTo := if tickHome s = s.time.master then none else some (other s.time.master) } ∧
        { t with pair := s.pair } = s) ∧
    (∀ (c : CardId) (g : Group) (s : State), (cardAt s (other c)).serving = true → (cardAt s c).present = true → g = (match c with | .ca => .g1 | .cb => .g2) →
      ((cardAt s c).serving = true ∧ (cardAt s c).activating = 4 ∨ (cardAt s c).serving = false ∧ (cardAt s c).entering = 4 ∧ s.noReturns) →
      ∃ t, exec (.cardEnterService c) s = .next t ∧ (cardAt t c).serving = true ∧ (cardAt t c).hb = 1 ∧ spAt t c = loadRules (spAt s c) (spAt s (other c)) ∧
        ((spAt s c).retired = [] → spAt t c = { rulesOnly (spAt s (other c)) with retired := [] }) ∧
        spAt t (other c) = spAt s (other c) ∧
        ((cardAt s c).serving = true → (cardAt t c).activating = 5 ∧ t.fronds = s.fronds ∧ t.sheaf = s.sheaf ∧ t.memA = s.memA ∧ t.memB = s.memB ∧ t.power = s.power ∧ t.tx = s.tx) ∧
        ((cardAt s c).serving = false → (cardAt t c).entering = 5 ∧ (cardAt t c).why = .none ∧ (cardAt t c).ownEpoch = (cardAt s (other c)).ownEpoch ∧
          (cardAt t c).copying = true ∧ (cardAt t c).mrk = some s.sec.mrkGen ∧ (cardAt t c).msnRx = (cardAt s (other c)).msnTx ∧ (culmAt t (culmOf c)).link = (if s.sheaf.st = 3 ∨ s.sheaf.st = 4 then 4 else if s.sheaf.enabled then 0 else 5) ∧
          t.tx = s.tx ++ [.regulator (.core c), .regulator (.cardPol c 0)] ∧ { t.power with regReqs := s.power.regReqs } = s.power ∧
          (∀ q, q ∈ t.power.regReqs ↔ q ∈ s.power.regReqs ∧ q.id ≠ .core c ∧ q.id ≠ .cardPol c 0 ∨ q = { id := .core c, sent := now s } ∨ q = { id := .cardPol c 0, sent := now s }) ∧
          ∀ f, c ∉ (frondAt t f).fenced ∧ { frondAt t f with fenced := (frondAt s f).fenced } = frondAt s f) ∧
        (ownerOf s g = other c → s.pair.takeover = none → (∀ t ∈ s.pair.transfers, t.group ≠ g) →
          t.pair.transfers = s.pair.transfers ++ [{ group := g, src := other c, dst := c }] ∧ (cardAt t (other c)).hb = 2) ∧
        t.pair.own1 = s.pair.own1 ∧ t.pair.own2 = s.pair.own2 ∧ t.pair.handTo = (if c = .ca ∧ s.time.master = .cb then some .ca else s.pair.handTo) ∧
        { t with pair := s.pair, spA := s.spA, spB := s.spB, memA := s.memA, memB := s.memB, sheaf := s.sheaf, fronds := s.fronds, power := s.power, tx := s.tx } = s)

/-- COMBINE turns the running value over A and the finished value of B into the running value over A followed by B (R271, R272,
R273). -/
def Obligations.CombineGivesTheCrcOfBothParts : Prop :=
  ∀ (c : CardId) (n : Nat) (a b : List Byte) (s : State), rising (memAt s c).units = true →
    ((unitAt s c n).alg = false → (unitAt s c n).reg = a.foldl (crcByte poly64) (BitVec.allOnes 64) →
      ∃ t, exec (.checkUnitCombine c n (crc64 b) b.length) s = .next t ∧
        unitAt t c n = { unitAt s c n with reg := (a ++ b).foldl (crcByte poly64) (BitVec.allOnes 64), bytes := (unitAt s c n).bytes + BitVec.ofNat 48 b.length } ∧
        (∀ m, m ≠ n → unitAt t c m = unitAt s c m) ∧ { t with memA := s.memA, memB := s.memB } = s) ∧
    ((unitAt s c n).alg = true → (unitAt s c n).reg = (a.foldl (crcByte poly32) (BitVec.allOnes 32)).setWidth 64 →
      ∃ t, exec (.checkUnitCombine c n ((crc32c b).setWidth 64) b.length) s = .next t ∧
        unitAt t c n = { unitAt s c n with reg := ((a ++ b).foldl (crcByte poly32) (BitVec.allOnes 32)).setWidth 64, bytes := (unitAt s c n).bytes + BitVec.ofNat 48 b.length } ∧
        (∀ m, m ≠ n → unitAt t c m = unitAt s c m) ∧ { t with memA := s.memA, memB := s.memB } = s)

/-- Spikelet searches, writes and parity repair; buffer grants and decrements; fences; contexts of check-value units (R217, R218,
R220, R221, R257, R258, R261, R267, R272). -/
def Obligations.SpikeletAndBufferManagerAct : Prop :=
  (∀ (c : CardId) (p : Nat) (key mask : BitVec 320) (faulty : List Nat) (s : State), rising (spAt s c).ents = true →
      ∃ t, exec (.spikeletSearch c p key { mask := mask, faulty := faulty }) s = .next t ∧ ((∀ q ∈ faulty, inProfile p q = false) → { spAt t c with found := (spAt s c).found } = spAt s c) ∧
        spAt t (other c) = spAt s (other c) ∧
        (∀ l, l = (faulty.filter (inProfile p)).map entryPos → l.Nodup → (∀ q ∈ l, q ∉ (spAt s c).retired ∧ q ∉ (spAt s c).rewritten) →
          (spAt t c).retired = (spAt s c).retired ∧ (spAt t c).rewritten = (spAt s c).rewritten ++ l ∧ (spAt t c).shadow = (spAt s c).shadow ∧
          ∀ q, tfind (spAt t c).ents q = if q ∈ l then tfind (spAt s c).shadow q else tfind (spAt s c).ents q) ∧
        (let bad := fun (x : Nat × Entry) => ∃ q ∈ faulty, inProfile p q = true ∧ entryPos q = x.1
         let hit := fun (x : Nat × Entry) => x ∈ (spAt s c).ents ∧ ¬ bad x ∧ spMatch p key (if p = 0 then mask else BitVec.allOnes 320) x = true
         (spAt t c).found = none ∧ (∀ x, ¬ hit x) ∨
          ∃ x, hit x ∧ (spAt t c).found = some x.2.result ∧ ∀ y, hit y → y.2.prio.toNat < x.2.prio.toNat ∨ (y.2.prio = x.2.prio ∧ x.1 ≤ y.1)) ∧
        { t with spA := s.spA, spB := s.spB, events := s.events } = s) ∧
    (∀ (c : CardId) (u p : Nat) (e : SpikEntry) (s : State), p = entryPos u →
      ∃ t, exec (.spikeletUpdate c u e) s = .next t ∧ (u / 4096 < 24 → p = u) ∧ spAt t (other c) = spAt s (other c) ∧ { t with spA := s.spA, spB := s.spB } = s ∧
        (p ∈ (spAt s c).retired → spAt t c = spAt s c) ∧
        (p ∉ (spAt s c).retired → { spAt t c with ents := (spAt s c).ents, shadow := (spAt s c).shadow } = spAt s c ∧
          (∃ x, tfind (spAt t c).ents p = some x ∧ tfind (spAt t c).shadow p = some x ∧ x.valid = true ∧ x.prio = e.prio ∧ x.key = e.key &&& entryBits u ∧ x.mask = e.mask &&& entryBits u ∧ x.result = e.result) ∧
          ∀ q, q ≠ p → tfind (spAt t c).ents q = tfind (spAt s c).ents q ∧ tfind (spAt t c).shadow q = tfind (spAt s c).shadow q)) ∧
    (∀ (c : CardId) (u p : Nat) (s : State), p = entryPos u → rising (spAt s c).ents = true → rising (spAt s c).shadow = true → p ∉ (spAt s c).retired →
      ∃ t, exec (.spikeletShadowCompare c (u / 4096) [u]) s = .next t ∧ spAt t (other c) = spAt s (other c) ∧ { t with spA := s.spA, spB := s.spB, events := s.events } = s ∧
        (p ∉ (spAt s c).rewritten → (spAt t c).retired = (spAt s c).retired ∧ p ∈ (spAt t c).rewritten ∧ tfind (spAt t c).ents p = tfind (spAt s c).shadow p ∧
          (spAt t c).shadow = (spAt s c).shadow ∧ ∀ q, q ≠ p → tfind (spAt t c).ents q = tfind (spAt s c).ents q) ∧
        (p ∈ (spAt s c).rewritten → (spAt t c).retired = (spAt s c).retired ++ [p] ∧ tfind (spAt t c).ents p = none ∧ tfind (spAt t c).shadow p = none)) ∧
    (∀ (c : CardId) (pool : Pool) (n eng p : Nat) (q : PoolSt) (s : State), p = poolNo pool → q = poolAt s c p → (memAt s c).pools.length = 4 → 1 ≤ n → n ≤ 16 →
      rising q.refs = true → q.free + q.refs.length + q.out.length ≤ poolSize p →
      ∃ t, exec (.bufferRequest c pool n eng) s = .next t ∧ (∀ r, r ≠ p → poolAt t c r = poolAt s c r) ∧ memAt t (other c) = memAt s (other c) ∧
        { t with memA := s.memA, memB := s.memB } = s ∧
        (n ≤ q.free → ∃ ix : List Nat, ix.length = n ∧ ix.Nodup ∧ (∀ i ∈ ix, i < poolSize p ∧ tfind q.refs i = none ∧ i ∉ q.out ∧ tfind (poolAt t c p).refs i = some 1) ∧
          (∀ i, i ∉ ix → tfind (poolAt t c p).refs i = tfind q.refs i) ∧ (poolAt t c p).free = q.free - n ∧ (poolAt t c p).empty = q.empty ∧ (poolAt t c p).out = q.out ∧
          (memAt t c).granted = some (ix.map fun i => BitVec.ofNat 32 (p * 2 ^ 30 + i))) ∧
        (q.free < n → (memAt t c).granted = none ∧ poolAt t c p = { q with empty := q.empty + 1 })) ∧
    (∀ (c : CardId) (h : BitVec 32) (n eng p i v : Nat) (q : PoolSt) (s : State), p = bits h.toNat 31 30 → i = bits h.toNat 19 0 → q = poolAt s c p →
      (memAt s c).pools.length = 4 → rising q.refs = true → 1 ≤ n →
      ∃ t, exec (.referenceDecrement c h n eng) s = .next t ∧ memAt t (other c) = memAt s (other c) ∧ (∀ r, r ≠ p → poolAt t c r = poolAt s c r) ∧
        { t with memA := s.memA, memB := s.memB, events := s.events } = s ∧
        (tfind q.refs i = some v → n < v → tfind (poolAt t c p).refs i = some (v - n) ∧ (poolAt t c p).free = q.free ∧ (memAt t c).refFaults = (memAt s c).refFaults) ∧
        (tfind q.refs i = some v → n = v → tfind (poolAt t c p).refs i = none ∧ (poolAt t c p).free = q.free + 1 ∧ (memAt t c).refFaults = (memAt s c).refFaults) ∧
        (tfind q.refs i = none → i ∉ q.out → tfind (poolAt t c p).refs i = none ∧ (poolAt t c p).out = q.out ++ [i] ∧ (poolAt t c p).free = q.free - 1 ∧
          (memAt t c).refFaults = ((memAt s c).refFaults + 1) % 2 ^ 32)) ∧
    (∀ (c : CardId) (src : Nat) (s : State), ∃ t, exec (.fence c src) s = .next t ∧ tget 0 (memAt t c).fences src = tget 0 (memAt s c).fences src + 1 ∧
        (∀ x, x ≠ src → tget 0 (memAt t c).fences x = tget 0 (memAt s c).fences x) ∧ { memAt t c with fences := (memAt s c).fences } = memAt s c ∧
        memAt t (other c) = memAt s (other c) ∧ { t with memA := s.memA, memB := s.memB } = s) ∧
    (∀ (c : CardId) (n : Nat) (x : Option CheckCtx) (s : State), rising (memAt s c).units = true →
      ∃ t, exec (.checkContextLoad c n x) s = .next t ∧ (memAt t c).saved = unitAt s c n ∧ unitAt t c n = (match x with | some y => normCtx y | none => unitAt s c n) ∧
        (∀ m, m ≠ n → unitAt t c m = unitAt s c m) ∧ memAt t (other c) = memAt s (other c) ∧ { t with memA := s.memA, memB := s.memB } = s)

/-- DRAM errors, retraining and migration of ranks, and what each consumer does with a poisoned line (R117, R151, R235, R257,
R262, R264, R265, R268, R269, R270, R280). -/
def Obligations.RanksAndPoisonAct : Prop :=
  (∀ (c : CardId) (n : Nat) (s : State), ∃ t, exec (.dramCorrectedError c n) s = .next t ∧ (rankAt t c n).corrected = ((rankAt s c n).corrected + 1) % 2 ^ 32 ∧
        (rankAt t c n).role = (rankAt s c n).role ∧ (rankAt t c n).recent.getLast? = some s.time.fc ∧ (∀ m, m ≠ n → rankAt t c m = rankAt s c m) ∧
        { memAt t c with ranks := (memAt s c).ranks } = memAt s c ∧ memAt t (other c) = memAt s (other c) ∧ { t with memA := s.memA, memB := s.memB } = s) ∧
    (∀ (c : CardId) (n line : Nat) (s : State), (cardAt s c).serving = true → rising (memAt s c).ranks = true →
      (∀ y, (memAt s c).spare = some y → y ≠ n →
        ((memAt s c).rop = .idle ∧ (rankAt s c n).role ≠ 9 ∨ (∃ a b, (memAt s c).rop = .copy a b) ∨ ∃ a b, (memAt s c).rop = .switching a b) →
        ∃ t, exec (.dramUncorrectableError c n line) s = .next t ∧ (memAt t c).rop = .migrate n y ∧ (memAt t c).spare = some y ∧ n * 2 ^ 28 + line ∈ (memAt t c).poison ∧
          (memAt t c).poisonLines = (memAt s c).poisonLines + 1 ∧ (rankAt t c n).role = 9 ∧ (rankAt t c y).role = 7 ∧ (rankAt t c n).uncorr = ((rankAt s c n).uncorr + 1) % 2 ^ 32 ∧
          (memAt t c).table = (memAt s c).table ∧ memAt t (other c) = memAt s (other c) ∧ s.onlyTells { t with memA := s.memA, memB := s.memB }) ∧
      (∀ x, (memAt s c).rop = .train x →
        ∃ t, exec (.dramUncorrectableError c n line) s = .next t ∧ (rankAt t c n).uncorr = ((rankAt s c n).uncorr + 1) % 2 ^ 32 ∧
          (if n = x then (memAt t c).rop = .train x ∧ (memAt t c).poison = (memAt s c).poison
           else (memAt t c).rop = .migrate n x ∧ (memAt t c).spare = some x ∧ n * 2 ^ 28 + line ∈ (memAt t c).poison ∧ (rankAt t c n).role = 9 ∧ (rankAt t c x).role = 7) ∧
          s.onlyTells { t with memA := s.memA, memB := s.memB }) ∧
      (∀ y, (memAt s c).rop = .migrate n y →
        ∃ t, exec (.dramUncorrectableError c n line) s = .next t ∧ (memAt t c).rop = .migrate n y ∧ y * 2 ^ 28 + line ∈ (memAt t c).poison ∧
          (memAt t c).poisonLines = (memAt s c).poisonLines + 1 ∧ { t with memA := s.memA, memB := s.memB } = s)) ∧
    (∀ (c : CardId) (n y : Nat) (s : State), (memAt s c).rop = .idle → (memAt s c).spare = some y → (cardAt s c).serving = true → n ∈ (memAt s c).table → retrainDue s c n = true →
      parked s = false → copies (memAt s (other c)) = false →
      ∃ t, exec (.rankRetrainDue c n) s = .next t ∧ memAt t c = { memAt s c with rop := .copy n y } ∧ memAt t (other c) = memAt s (other c) ∧ { t with memA := s.memA, memB := s.memB } = s) ∧
    (∀ (c : CardId) (x y : Nat) (s : State), (memAt s c).rop = .copy x y →
      ∃ t, exec (.rankCopyDone c) s = .next t ∧ memAt t c = { memAt s c with rop := .switching x y } ∧ memAt t (other c) = memAt s (other c) ∧ { t with memA := s.memA, memB := s.memB } = s) ∧
    (∀ (c : CardId) (pass : Bool) (eye temp x : Nat) (s : State), (memAt s c).rop = .train x → rising (memAt s c).ranks = true →
      ∃ t, exec (.rankTrainingEnd c pass eye temp) s = .next t ∧ (memAt t c).rop = .idle ∧ (memAt t c).spare = (if pass then some x else none) ∧
        (rankAt t c x).role = (if pass then 7 else 9) ∧ (rankAt t c x).trainings = ((rankAt s c x).trainings + 1) % 2 ^ 32 ∧ (rankAt t c x).temp = temp ∧ (rankAt t c x).eye = eye ∧
        (rankAt t c x).trainFc = s.time.fc ∧ (rankAt t c x).trainEp = s.time.ep ∧ (∀ m, m ≠ x → rankAt t c m = rankAt s c m) ∧ (memAt t c).table = (memAt s c).table ∧
        memAt t (other c) = memAt s (other c) ∧ s.onlyTells { t with memA := s.memA, memB := s.memB }) ∧
    (∀ (c : CardId) (x y : Nat) (s : State), (memAt s c).rop = .migrate x y →
      ∃ t, exec (.rankMigrationDone c) s = .next t ∧ (memAt t c).rop = .idle ∧ (memAt t c).spare = none ∧ (memAt t c).table = (memAt s c).table.map (fun r => if r = x then y else r) ∧
        memAt t (other c) = memAt s (other c) ∧ s.onlyTells { t with memA := s.memA, memB := s.memB }) ∧
    (∀ (c : CardId) (line : Nat) (s : State), line ∈ (memAt s c).poison → s.canonical = true →
      (∃ t, exec (.poisonRead c line .durable) s = .next t ∧ t = s) ∧
      (∀ u, (u = .ownTable ∨ u = .mirrorTable ∨ (∃ a b, u = .program a b) ∨ ∃ p, u = .freeRing p) →
        ∃ t, exec (.poisonRead c line u) s = .next t ∧ memAt t c = { memAt s c with poison := (memAt s c).poison.erase line } ∧ memAt t (other c) = memAt s (other c) ∧
          { t with memA := s.memA, memB := s.memB } = s) ∧
      (∀ nsid z slot, (if (nsAt s nsid).zoned then (zoneAt s (zoneKey nsid z)).slot else if z = 0 then (nsAt s nsid).head else (nsAt s nsid).gcHead) = some slot →
        (tfind s.accums slot).isSome = true →
        ∃ t, exec (.poisonRead c line (.accumulator nsid z)) s = .next t ∧ (accumAt t slot) = { accumAt s slot with lost := true } ∧ (∀ k, k ≠ slot → accumAt t k = accumAt s k) ∧
          (memAt t c).poison = (memAt s c).poison.erase line ∧ { t with accums := s.accums, memA := s.memA, memB := s.memB } = s) ∧
      (∀ nsid p x, tfind s.pages (nsid * 2 ^ 29 + p) = some x →
        (x.dirty = false → ∃ t, exec (.poisonRead c line (.cleanPage nsid p)) s = .next t ∧ tget {} t.pages (nsid * 2 ^ 29 + p) = { x with cached := false, ref := false } ∧
          (∀ k, k ≠ nsid * 2 ^ 29 + p → tget {} t.pages k = tget {} s.pages k) ∧ (memAt t c).poison = (memAt s c).poison.erase line ∧
          { t with pages := s.pages, memA := s.memA, memB := s.memB } = s) ∧
        (x.dirty = true → ∃ t, exec (.poisonRead c line (.dirtyPage nsid p)) s = .next t ∧ tget {} t.pages (nsid * 2 ^ 29 + p) = { x with ref := true } ∧
          (∀ k, k ≠ nsid * 2 ^ 29 + p → tget {} t.pages k = tget {} s.pages k) ∧ (memAt t c).poison = (memAt s c).poison.erase line ∧
          { t with pages := s.pages, memA := s.memA, memB := s.memB } = s)) ∧
      (∀ i, ∃ t, exec (.poisonRead c line (.working i)) s = .next t ∧ engAt t (cardNo c * 64 + i) = { engAt s (cardNo c * 64 + i) with winnow := none } ∧
          (memAt t c).poison = (memAt s c).poison.erase line ∧ { t with engines := s.engines, memA := s.memA, memB := s.memB } = s) ∧
      (∀ k, (tfind s.cmds k).isSome = true → ∃ t, exec (.poisonRead c line (.staged k)) s = .next t ∧ (memAt t c).resourced = (memAt s c).resourced + 1 ∧
          (memAt t c).poison = (memAt s c).poison.erase line ∧ { t with memA := s.memA, memB := s.memB } = s)) ∧
    (∀ (c : CardId) (line k b : Nat) (x : Cmd) (s : State), line ∈ (memAt s c).poison → s.canonical = true → s.cmds = [(k, x)] → notSent s k b = true →
      (nsAt s x.e.nsid).zoned = false → x.e.sqid ≠ 0 → x.e.cid < 65536 → x.silent = false → superseded s x.slice x.gen = false → x.svc ≠ .bound →
      (ctrlAt s x.e.port).link = true → (ctrlAt s x.e.port).rdy = true → (∀ n ∈ s.nss, n.2.deleting = none) → (∀ y ∈ s.slices, y.2.waiter = none) →
      ∃ t, exec (.poisonRead c line (.writeData k b)) s = .next t ∧ t.cmds = [] ∧ (memAt t c).poisonFails = (memAt s c).poisonFails + 1 ∧
        t.cqes = s.cqes ++ [{ port := x.e.port, sqid := x.e.sqid, cid := x.e.cid, sct := 0, sc := 0x04, more := true }] ∧
        t.map = s.map ∧ t.jA = s.jA ∧ t.jB = s.jB)

/-- Culm ports come up, go down and are held; HELLO and CENSUS enter members; RACHIS and TICK_IO set the time (R303, R304, R305,
R306, R307, R309, R310, R311, R312, R313, R315). -/
def Obligations.SheafPortsAndRachisAct : Prop :=
  (∀ (p q : CulmPort) (n l : Nat) (s : State), (cardAt s (cardOfCulm p)).serving = true → (culmAt s p).link < 2 →
      ∃ t, exec (.culmLinkUp p n q l) s = .next t ∧ (culmAt t p).trainings = (culmAt s p).trainings + 1 ∧ culmAt t (otherCulm p) = culmAt s (otherCulm p) ∧
        t.sheaf.st = (if s.sheaf.st = 0 then 1 else s.sheaf.st) ∧
        (p ≠ q → (p = .u1 ∨ n ≤ s.sheaf.pos) → (culmAt t p).link = (if l = 1 then 3 else 2) ∧ (culmAt t p).nbr = some (n, q)) ∧
        ((p = q ∨ p = .u0 ∧ s.sheaf.pos < n ∧ isWrap s.sheaf.pos .u1 s.sheaf.u1 = true) → (culmAt t p).link = 4 ∧ (culmAt t p).nbr = none) ∧
        t.sheaf.members = s.sheaf.members ∧ t.sheaf.lead = s.sheaf.lead ∧ s.onlyTells { t with sheaf := s.sheaf }) ∧
    (∀ (p : CulmPort) (s : State), portUp s p = true → elapsed s (culmAt s p).downAt 8 = true →
      ∃ t, exec (.culmPortDown p) s = .next t ∧ culmAt t p = { culmAt s p with link := 0, nbr := none, aliveRx := none, downAt := now s } ∧
        culmAt t (otherCulm p) = culmAt s (otherCulm p) ∧ { t.sheaf with u0 := s.sheaf.u0, u1 := s.sheaf.u1, topology := s.sheaf.topology } = s.sheaf ∧
        { t with sheaf := s.sheaf } = s) ∧
    (∀ (p : CulmPort) (b : Bool) (s : State), (cardAt s (cardOfCulm p)).serving = true → (culmAt s p).link ≤ 1 → elapsed s (culmAt s p).downAt 400 = true →
      ∃ t, exec (.culmRetrain p b) s = .next t ∧ (culmAt t p).link = (if b then 2 else 0) ∧ (culmAt t p).trainings = (culmAt s p).trainings + (if b then 1 else 0) ∧
        (culmAt t p).downAt = now s ∧ culmAt t (otherCulm p) = culmAt s (otherCulm p) ∧ { t with sheaf := s.sheaf } = s) ∧
    (∀ (p : CulmPort) (s : State), ∃ t, exec (.culmLaneLoss p) s = .next t ∧
        (culmAt t p).link = (if (culmAt s p).link = 2 then 3 else if (culmAt s p).link = 3 then 0 else (culmAt s p).link) ∧
        culmAt t (otherCulm p) = culmAt s (otherCulm p) ∧ { t.sheaf with u0 := s.sheaf.u0, u1 := s.sheaf.u1 } = s.sheaf ∧ { t with sheaf := s.sheaf } = s) ∧
    (∀ (p q : CulmPort) (n : Nat) (s : State), portUp s p = true → (culmAt s p).nbr = some (n, q) →
      ∃ t, exec (.delayMeasure p) s = .next t ∧ t.tx = s.tx ++ [.culm p 2 s.sheaf.pos n false 0 []] ∧ t.sheaf.seq = (s.sheaf.seq + 1) % 65536 ∧
        sheafLike t.sheaf s.sheaf ∧ s.onlyCulm t) ∧
    (∀ (p : CulmPort) (h : CulmHdr) (a b : Nat) (s : State), s.hears p h → h.bcast = false →
      ∃ t, exec (.delayReq p h a b) s = .next t ∧ t.tx = s.tx ++ [.culm p 3 s.sheaf.pos h.src false 0 [a, b]] ∧ (culmAt t p).aliveRx = some h.alive ∧
        (culmAt t p).received = (culmAt s p).received + 1 ∧ sheafLike t.sheaf s.sheaf ∧ s.onlyCulm t) ∧
    (∀ (p : CulmPort) (h : CulmHdr) (a b c d : Nat) (s : State), s.hears p h → h.bcast = false →
      ∃ t, exec (.delayRsp p h a b c d) s = .next t ∧ (culmAt t p).delay = 8 * ((d - a) - (c - b)) ∧ sheafLike t.sheaf s.sheaf ∧
        culmAt t (otherCulm p) = culmAt s (otherCulm p) ∧ { t with sheaf := s.sheaf, memA := s.memA, memB := s.memB } = s) ∧
    (∀ (p : CulmPort) (h : CulmHdr) (m : HelloMsg) (s : State), portUp s p = true → h.crcOk = true → some h.alive ≠ (culmAt s p).aliveRx → s.sheaf.st = 1 →
      m.port ≠ p → (p = .u1 ∨ m.pos ≤ s.sheaf.pos) →
      ∃ t, exec (.hello p h m) s = .next t ∧
        (if m.pos = s.sheaf.pos then
          (if bytesLt m.serial Config.moduleSerial = true then t.sheaf.st = 3 ∧ t.sheaf.u0.link = 4 ∧ t.sheaf.u1.link = 4 ∧ t.sheaf.members = []
           else t.sheaf.st = 1 ∧ t.sheaf.members = s.sheaf.members ∧ (culmAt t p).nbr = some (m.pos, m.port))
        else
          let x := memberAt' t m.pos
          (culmAt t p).nbr = some (m.pos, m.port) ∧ t.sheaf.st = 1 ∧ x.st = (if m.eligible then 1 else 3) ∧ x.seenAt = now s ∧ x.override = m.override ∧
            (m.serial ≠ [] → x.serial = m.serial) ∧ ((memberAt' s m.pos).st = 0 → x.hops = 1 ∧ x.via = p) ∧ ∀ k, k ≠ m.pos → memberAt' t k = memberAt' s k) ∧
        t.sheaf.lead = s.sheaf.lead ∧ s.onlyTells { t with sheaf := s.sheaf, memA := s.memA, memB := s.memB }) ∧
    (∀ (p : CulmPort) (h : CulmHdr) (l : List CensusEntry) (s : State), s.hears p h → h.bcast = true → s.sheaf.st = 1 → (∀ e ∈ l, e.pos ≠ s.sheaf.pos) →
      ∃ t, exec (.census p h l) s = .next t ∧ (memberAt' t h.src).seenAt = now s ∧
        (memberAt' t h.src).st = (match l.find? fun e => e.pos == h.src with | some e => if e.state = 0 ∨ e.state = 4 then 1 else e.state | none => 1) ∧
        (∀ k, k ≠ h.src → memberAt' t k = memberAt' s k) ∧ ((memberAt' s h.src).st = 0 → (memberAt' t h.src).hops = h.hops + 1 ∧ (memberAt' t h.src).via = p) ∧
        (portUp s (otherCulm p) = true → h.hops < 15 → ∃ pl, .culm (otherCulm p) 5 h.src h.dst true (h.hops + 1) pl ∈ t.tx) ∧ s.onlyCulm t) ∧
    (∀ (k : Nat) (s : State), rising s.sheaf.members = true → (memberAt' s k).st ≠ 0 → elapsed s (memberAt' s k).seenAt 64 = true → k ≠ s.sheaf.pos → s.sheaf.planCmd = none →
      ∃ t, exec (.censusExpiry k) s = .next t ∧ memberAt' t k = {} ∧ (∀ j, j ≠ k → memberAt' t j = memberAt' s j) ∧
        { t.sheaf with members := s.sheaf.members } = s.sheaf ∧ s.onlyTells { t with sheaf := s.sheaf }) ∧
    (∀ (p : CulmPort) (h : CulmHdr) (sfc ep k : Nat) (c a : Int) (s : State), s.hears p h → h.bcast = true → s.sheaf.st = 1 → k ≠ s.sheaf.pos → s.sheaf.handCmd = none →
      (leadKnown s = false ∨ k = s.sheaf.lead ∨ k < s.sheaf.lead) →
      ∃ t, exec (.rachis p h sfc ep k c a) s = .next t ∧ t.sheaf.sfc = sfc ∧ t.sheaf.fcAt = s.time.fc ∧ t.sheaf.rachisAt = now s ∧ t.sheaf.lead = k ∧ t.sheaf.leadEpoch = ep ∧
        t.sheaf.st = 1 ∧ ((memberAt' s k).via = p ∨ (memberAt' s k).st = 0 → t.sheaf.offset = (c + (culmAt s p).delay) / 16 - a) ∧
        (leadKnown s = true → k = s.sheaf.lead → t.sheaf.leadChanges = s.sheaf.leadChanges ∧ t.sheaf.merges = s.sheaf.merges) ∧
        ((leadKnown s = false ∨ k ≠ s.sheaf.lead) → t.sheaf.leadChanges = s.sheaf.leadChanges + 1) ∧
        t.drawn = s.drawn + 1 ∧ s.onlyCulm { t with drawn := s.drawn }) ∧
    (∀ s : State, ∃ t, exec (.tickIoPulse false) s = .next t ∧ t.sheaf = { s.sheaf with
          foreignAt := some (now s), drive := false,
          backoff := if s.sheaf.drive then some (now s + (4000 + 1000 * s.sheaf.pos) * 16000) else s.sheaf.backoff } ∧ { t with sheaf := s.sheaf } = s) ∧
    (∀ (o : Int) (s : State), s.sheaf.st = 1 → elapsed s s.sheaf.rachisAt 16 = true →
      ∃ t, exec (.tickIoFallback o) s = .next t ∧ t.sheaf = { s.sheaf with rachis := 4, offset := o, foreignAt := some (now s), lockedFc := none, inside := 0 } ∧ { t with sheaf := s.sheaf } = s) ∧
    (∀ (f : Nat) (s : State), s.sheaf.backoff = some f → elapsed s f 0 = true → (∀ g, s.sheaf.foreignAt = some g → elapsed s g 64 = true) →
      ∃ t, exec .tickIoDriveResume s = .next t ∧ t.sheaf = { s.sheaf with backoff := none, drive := s.sheaf.st == 2 } ∧ { t with sheaf := s.sheaf } = s)

/-- A lost lead is taken, a lead is handed over, the shelf budget is shared, plans spread, and events reach the lead (R308, R313,
R315, R316, R317, R318, R319, R322, R323, R325). -/
def Obligations.SheafLeadSharesBudgetPlansAndEvents : Prop :=
  (∀ s : State, s.sheaf.st = 1 → (portUp s .u0 = true ∨ portUp s .u1 = true) → elapsed s s.sheaf.rachisAt 16 = true → s.sheaf.enabled = true → s.sheaf.handed = false →
      (carries s.pair.ca = true ∨ carries s.pair.cb = true) → (∀ m ∈ census s, m.2.st ≠ 2 → m.2.eligible = true → s.sheaf.pos ≤ m.1) →
      ∃ t, exec .leadLost s = .next t ∧ t.sheaf.st = 2 ∧ t.sheaf.lead = s.sheaf.pos ∧ t.sheaf.leadEpoch = s.sheaf.leadEpoch + 1 ∧ t.sheaf.leadChanges = s.sheaf.leadChanges + 1 ∧
        t.sheaf.rachis = 1 ∧ t.sheaf.offset = 0 ∧ t.sheaf.drive = s.sheaf.backoff.isNone ∧ t.drawn = s.drawn + 1 ∧
        (∀ p, portUp s p = true → .culm p 1 s.sheaf.pos 0 true 0 [sfcNow s, s.sheaf.leadEpoch + 1, s.sheaf.pos, Config.residence s.drawn] ∈ t.tx) ∧
        s.onlyCulm { t with drawn := s.drawn }) ∧
    (∀ (h : CulmHdr) (n sw : Nat) (s : State), s.hears h.port h → s.sheaf.st = 1 → h.src = s.sheaf.lead →
      ∃ t, exec (.handover h n sw) s = .next t ∧ sheafLike t.sheaf { s.sheaf with hand := some (n, sw) } ∧ s.onlyCulm t) ∧
    (∀ (n sw : Nat) (s : State), s.sheaf.hand = some (n, sw) → sw ≤ sfcNow s → s.sheaf.handCmd = none →
      (n = s.sheaf.pos ∧ s.sheaf.st = 1 ∨ n ≠ s.sheaf.pos ∧ s.sheaf.st = 2) →
      ∃ t, exec .handoverSwitch s = .next t ∧ t.sheaf.lead = n ∧ t.sheaf.st = (if n = s.sheaf.pos then 2 else 1) ∧ t.sheaf.leadEpoch = s.sheaf.leadEpoch + 1 ∧
        t.sheaf.hand = none ∧ t.sheaf.leadChanges = s.sheaf.leadChanges + 1 ∧ t.sheaf.budget = s.sheaf.budget ∧ s.onlyCulm { t with drawn := s.drawn } ∧
        (n = s.sheaf.pos → ∀ p, portUp s p = true →
          .culm p 1 s.sheaf.pos 0 true 0 [sfcNow s, s.sheaf.leadEpoch + 1, s.sheaf.pos, Config.residence s.drawn] ∈ t.tx)) ∧
    (∀ (n sw cid opc act : Nat) (p : Port) (s : State), s.sheaf.hand = some (n, sw) → sw ≤ sfcNow s → s.sheaf.handCmd = some (p, cid, opc, act) → s.sheaf.st = 2 → n ≠ s.sheaf.pos →
      ∃ t r q, exec .handoverSwitch s = .next t ∧ t.sheaf.lead = n ∧ t.sheaf.leadEpoch = s.sheaf.leadEpoch + 1 ∧ t.sheaf.hand = none ∧ t.sheaf.handCmd = none ∧
        (if act = 1 then t.sheaf.st = 0 ∧ t.sheaf.enabled = false ∧ t.sheaf.members = [] else t.sheaf.st = 1 ∧ t.sheaf.handed = true) ∧
        t.events.changeQ = s.events.changeQ ++ [(r, some q)] ∧ q.port = p ∧ q.cid = cid ∧ q.sct = 0 ∧ q.sc = 0) ∧
    (∀ s : State, sfcNow s % 64 = 40 →
      (s.sheaf.st = 2 → ∃ t, exec .demandSend s = .next t ∧ memberAt' t s.sheaf.pos = { memberAt' s s.sheaf.pos with demand := some (baseOf s, wantOf s) } ∧
        (∀ k, k ≠ s.sheaf.pos → memberAt' t k = memberAt' s k) ∧ { t with sheaf := s.sheaf } = s) ∧
      (s.sheaf.st = 1 → portUp s (memberAt' s s.sheaf.lead).via = true →
        ∃ t, exec .demandSend s = .next t ∧ t.tx = s.tx ++ [.culm (memberAt' s s.sheaf.lead).via 0x10 s.sheaf.pos s.sheaf.lead false 0 [baseOf s, wantOf s, capNow s]] ∧
          sheafLike t.sheaf s.sheaf ∧ s.onlyCulm t)) ∧
    (∀ (h : CulmHdr) (b w cap : Nat) (s : State), s.hears h.port h → s.sheaf.st = 2 →
      ∃ t, exec (.demand h b w cap) s = .next t ∧ (memberAt' t h.src).demand = some (b, min w cap) ∧ (memberAt' t h.src).grant = (memberAt' s h.src).grant ∧
        (∀ k, k ≠ h.src → memberAt' t k = memberAt' s k) ∧ t.sheaf.st = 2 ∧ s.onlyCulm t) ∧
    (∀ (b : Nat) (all : List Nat) (s : State), s.sheaf.st = 2 → 40 ≤ sfcNow s % 64 → sfcNow s % 64 ≤ 56 → rising s.sheaf.members = true →
      all = s.sheaf.pos :: (census s).map Prod.fst →
      b = (if memberCount s < s.sheaf.membersMax then s.sheaf.budget * memberCount s / s.sheaf.membersMax else s.sheaf.budget) →
      ∃ t, exec .grantCompute s = .next t ∧
        (∀ p ∈ all, let m := memberAt' t p
          m.base = ((memberAt' s p).demand.getD ((memberAt' s p).base, (memberAt' s p).want)).1 ∧ m.want = ((memberAt' s p).demand.getD ((memberAt' s p).base, (memberAt' s p).want)).2 ∧
          m.base ≤ m.grant ∧ m.grant ≤ max m.base m.want) ∧
        t.sheaf.over' = decide (b < (all.map fun p => (memberAt' t p).base).sum) ∧
        (t.sheaf.over' = false → (all.map fun p => (memberAt' t p).grant).sum ≤ b) ∧
        t.sheaf.nextGrant = some (epochNow s + 1, (memberAt' t s.sheaf.pos).grant, (memberAt' t s.sheaf.pos).base) ∧ s.onlyCulm t) ∧
    (∀ (h : CulmHdr) (ep b : Nat) (o : Bool) (l : List GrantShare) (g : GrantShare) (s : State), s.hears h.port h → s.sheaf.st = 1 → h.src = s.sheaf.lead →
      g ∈ l → g.pos = s.sheaf.pos → (l.map (·.pos)).Nodup → rising s.sheaf.members = true →
      ∃ t, exec (.grant h ep b o l) s = .next t ∧ t.sheaf.nextGrant = some (ep, g.grant, g.base) ∧ t.sheaf.over' = o ∧ t.sheaf.budget = b ∧
        (∀ m ∈ l, (memberAt' t m.pos).grant = m.grant ∧ (memberAt' t m.pos).base = m.base ∧ (memberAt' t m.pos).want = m.want) ∧
        (∀ k, (∀ m ∈ l, m.pos ≠ k) → memberAt' t k = memberAt' s k) ∧
        (b ≠ s.sheaf.budget → ∃ r, t.events.changeQ = s.events.changeQ ++ [(r, none)] ∧ r.code = 0x10) ∧ (b = s.sheaf.budget → (o = false ∨ s.sheaf.over' = true) → t.events = s.events) ∧ s.onlyCulm t) ∧
    (∀ s : State, isMember s = true → 4 ≤ s.sheaf.grantless → s.sheaf.stale = false →
      ∃ t, exec .grantStale s = .next t ∧ t.sheaf = { s.sheaf with
          stale := true, grant := max s.sheaf.base (min s.sheaf.grant (s.sheaf.budget / max 1 s.sheaf.membersMax)) } ∧ { t with sheaf := s.sheaf } = s) ∧
    (∀ (h : CulmHdr) (gen ep : Nat) (body : List Byte) (s : State), s.hears h.port h → s.sheaf.st = 1 →
      ∃ t, exec (.plan h gen ep body) s = .next t ∧ t.sheaf.planGen = gen ∧ t.sheaf.planNext = (if gen = s.sheaf.planGen then s.sheaf.planNext else some (ep, planOf body)) ∧
        (gen ≠ s.sheaf.planGen → ∃ r, t.events.changeQ = s.events.changeQ ++ [(r, none)] ∧ r.code = 0x10) ∧
        (portUp s (memberAt' s h.src).via = true → .culm (memberAt' s h.src).via 0x13 s.sheaf.pos h.src false 0 [gen] ∈ t.tx) ∧ t.sheaf.plan = s.sheaf.plan ∧ s.onlyCulm t) ∧
    (∀ (h : CulmHdr) (s : State), s.hears h.port h → s.sheaf.st = 2 → (memberAt' s h.src).st ≠ 0 →
      ∃ t, exec (.planAck h s.sheaf.planGen) s = .next t ∧ (memberAt' t h.src).acked = true ∧
        (memberAt' t h.src).st = (if (memberAt' s h.src).st = 4 then (if (memberAt' s h.src).eligible then 1 else 3) else (memberAt' s h.src).st) ∧
        (∀ k, k ≠ h.src → memberAt' t k = memberAt' s k) ∧ (s.sheaf.planCmd = none → s.onlyCulm t) ∧
        (∀ p cid opc, s.sheaf.planCmd = some (p, cid, opc) → rising s.sheaf.members = true → (∀ m ∈ census s, m.1 ≠ h.src → m.2.acked = true) →
          t.sheaf.planCmd = none ∧ ∃ r q, t.events.changeQ = s.events.changeQ ++ [(r, some q)] ∧ q.port = p ∧ q.cid = cid ∧ q.sct = 0 ∧ q.sc = 0)) ∧
    (∀ s : State,
      (s.sheaf.st = 2 → (∃ m ∈ s.sheaf.members, m.2.st ≠ 0 ∧ m.1 ≠ s.sheaf.pos ∧ m.2.acked = false) → elapsed s s.sheaf.planAt 16 = true →
        ∃ t, exec .planResend s = .next t ∧ (∀ p, portUp s p = true → ∃ pl, .culm p 0x12 s.sheaf.pos 0 true 0 (s.sheaf.planGen :: pl) ∈ t.tx) ∧ sheafLike t.sheaf { s.sheaf with planAt := now s } ∧ s.onlyCulm t) ∧
      (s.sheaf.st = 1 → elapsed s s.sheaf.eventAt 16 = true → ∃ t, exec .planResend s = .next t ∧
        t.sheaf.eventSent = s.sheaf.eventAcked + min 64 ((ownRecords s).length - s.sheaf.eventAcked) ∧
        t.sheaf.eventAcked = s.sheaf.eventAcked ∧ s.onlyCulm t)) ∧
    (∀ (h : CulmHdr) (l : List EventRec) (s : State), s.hears h.port h → s.sheaf.st = 2 → s.sheaf.ring.length + l.length ≤ 65536 →
      ∃ t, exec (.sheafEvent h l) s = .next t ∧ t.sheaf.ring = s.sheaf.ring ++ l.map (fun r => (sfcNow s, h.src, r)) ∧ t.sheaf.ringFirst = s.sheaf.ringFirst ∧
        (portUp s (memberAt' s h.src).via = true → .culm (memberAt' s h.src).via 0x21 s.sheaf.pos h.src false 0 (recNums l.getLast?.toList) ∈ t.tx) ∧ s.onlyCulm t) ∧
    (∀ (h : CulmHdr) (r : EventRec) (n : Nat) (s : State), s.hears h.port h → h.src = s.sheaf.lead → (ownRecords s)[s.sheaf.eventAcked + n]? = some r →
      (∀ i, i < n → (ownRecords s)[s.sheaf.eventAcked + i]? ≠ some r) →
      ∃ t, exec (.eventAck h r) s = .next t ∧ sheafLike t.sheaf { s.sheaf with eventAcked := s.sheaf.eventAcked + n + 1 } ∧ s.onlyCulm t)

/-- Image download, the four commits, slot writes, Filnas updates, confirmation and the end of a health window (R298, R348, R356,
R357, R358, R359, R361, R362, R363). -/
def Obligations.FirmwareIsStagedCommittedAndConfirmed : Prop :=
  (∀ (e : Sqe) (n off : Nat) (c : CardId) (s : State), s.admits e = true → c = cardOf e.port → n = (e.cdw10.toNat + 1) * 4 → off = e.cdw11.toNat * 4 → n ≤ 4194304 →
      off + n ≤ imageMax + cosignMax → n ≤ e.dlen →
      ∃ t, exec (.firmwareImageDownload e) s = .next t ∧ s.replies t e 0 [] ∧ { cardAt t c with staged := (cardAt s c).staged } = cardAt s c ∧ cardAt t (other c) = cardAt s (other c) ∧
        (off = 0 → stagedBytes (cardAt t c).staged = fitTo n e.data) ∧
        (∀ b, (cardAt s c).staged = [(0, b)] → off = b.length → off ≠ 0 → stagedBytes (cardAt t c).staged = b ++ fitTo n e.data) ∧
        { t with pair := s.pair, cqes := s.cqes, time := s.time } = s) ∧
    (∀ r ∈ [(Instr.firmwareCommitReplace, 0), (.firmwareCommitNextStart, 1), (.firmwareCommitImmediate, 3)],
      ∀ (e f : Sqe) (slot : Nat) (c : CardId) (w : FwSlot) (s : State), s.admits e = true → c = cardOf e.port → f = asCommit r.2 e → commitOk f = true → slot = fsSlot (cardAt s c) (d10 f 2 0) →
      slot ≤ 2 → slot ≠ (cardAt s c).active → ((cardAt s c).active = 1 ∨ (cardAt s c).active = 2) → (activeSlot (cardAt s c)).confirmed = true → (cardAt s c).activating = 0 → (cardAt s c).writing = none → (r.2 = 3 → mayActivate s c = true) →
      w = fwOf (stagedBytes (cardAt s c).staged) → (isSheaf w.image && s.sheaf.st == 2) = false →
      (∀ n, checkNew s c w (r.2 == 3) = some n →
        ∃ t q, exec (r.1 e) s = .next t ∧ t.events.changeQ = s.events.changeQ ++ [(q, some { port := e.port, sqid := e.sqid, cid := e.cid, sct := 7, sc := 0x89, dw0 := n, nsid := e.nsid })] ∧
          { t with events := s.events, sec := s.sec, time := s.time } = s) ∧
      (checkNew s c w (r.2 == 3) = none →
        (bothCards w.image = true → (cardAt s (other c)).serving = true ∧ (activeSlot (cardAt s (other c))).confirmed = true ∧ (cardAt s (other c)).activating = 0 ∧
          (cardAt s (other c)).writing = none ∧ checkImage s (other c) w (r.2 == 3) = none) →
        ∃ t x, exec (r.1 e) s = .next t ∧ (cardAt t c).writing = some x ∧ x.slot = slot ∧ x.fw = w ∧ x.action = r.2 ∧ x.both = bothCards w.image ∧ x.relay = false ∧ x.cmd = keepCmd f ∧
          (slotOf (cardAt t c) slot).valid = false ∧ activeSlot (cardAt t c) = activeSlot (cardAt s c) ∧
          (bothCards w.image = false → cardAt t (other c) = cardAt s (other c)) ∧
          (bothCards w.image = true → (cardAt t (other c)).writing = some { x with slot := idleSlot (cardAt s (other c)), cmd := none }) ∧
          { t with pair := s.pair, time := s.time } = s)) ∧
    (∀ (e f : Sqe) (n : Nat) (c : CardId) (s : State), s.admits e = true → c = cardOf e.port → f = asCommit 2 e → commitOk f = true → n = fsSlot (cardAt s c) (d10 f 2 0) → n ≤ 2 →
      (slotOf (cardAt s c) n).valid = true → checkImage s c (slotOf (cardAt s c) n) false = none →
      ∃ t, exec (.firmwareCommitActivateSlot e) s = .next t ∧ s.records t e 0x10 2 0 ∧ cardAt t c = { cardAt s c with nextSlot := n } ∧ cardAt t (other c) = cardAt s (other c) ∧
        { t with events := s.events, sec := s.sec, time := s.time, pair := s.pair } = s) ∧
    (∀ (c : CardId) (w : SlotWrite) (p : Port) (cid o : Nat) (s : State), (cardAt s c).serving = true → (cardAt s c).writing = some w → w.written = false → w.both = false → w.relay = false →
      (cardAt s (other c)).writing = none → w.cmd = some (p, cid, o) →
      ∃ t, exec (.slotWriteDone c) s = .next t ∧ slotOf (cardAt t c) w.slot = w.fw ∧ (cardAt t c).writing = none ∧ cardAt t (other c) = cardAt s (other c) ∧
        (cardAt t c).nextSlot = (if w.action = 1 ∨ w.action = 3 then w.slot else (cardAt s c).nextSlot) ∧ (cardAt t c).active = (cardAt s c).active ∧
        (w.action = 3 → (cardAt t c).activating = 1 ∧ (cardAt t c).actCmd = w.cmd ∧ (ctrlAt t (portOf c)).stopped = true ∧ t.events = s.events) ∧
        (w.action ≠ 3 → ∃ q, t.events.changeQ = s.events.changeQ ++ [(q, some { port := p, cid := cid })] ∧ (cardAt t c).activating = (cardAt s c).activating) ∧ t.cqes = s.cqes) ∧
    (∀ (f : Frond) (s : State), filnasDue s f.val = true → (∀ n, n < 16 → (frondAt s n).switched = none ∧ (n < f.val → filnasDue s n = false)) →
      (s.pair.filSwitch = 0 ∨ elapsed s s.pair.filSwitch 64 = true) →
      ∃ t, exec (.filnasUpdate f) s = .next t ∧ frondAt t f = { frondAt s f with
            idleCode := (frondAt s f).code, code := (runningImage s).filnasSha, bank := !(frondAt s f).bank, switched := some (now s) } ∧
        (∀ n, n ≠ f.val → frondAt t n = frondAt s n) ∧ t.pair = { s.pair with filSwitch := now s } ∧ { t with fronds := s.fronds, pair := s.pair } = s) ∧
    (∀ (f : Frond) (c : Nat) (s : State), s.canonical = true → (frondAt s f).switched = some c → elapsed s c 64 = true →
      ∃ t, exec (.filnasUpdateTimeout f) s = .next t ∧ frondAt t f = { frondAt s f with
            idleCode := (frondAt s f).code, code := (frondAt s f).idleCode, bank := !(frondAt s f).bank, switched := none } ∧
        (∀ n, n ≠ f.val → frondAt t n = frondAt s n) ∧ t.pair = { s.pair with filStopped := some (frondAt s f).code } ∧ { t with fronds := s.fronds, pair := s.pair, events := s.events } = s) ∧
    (∀ (c : CardId) (s : State), (cardAt s c).window.isSome = true → (cardAt s c).serving = true → (cardAt s c).hb = 1 → ownerOf s (homeGroup c) = c →
      elapsed s (cardAt s c).soakAt 240000 = true → filnasEnded s = true → (cardAt s (other c)).entering ≠ 3 →
      ∃ t, exec (.healthConfirm c) s = .next t ∧ activeSlot (cardAt t c) = { activeSlot (cardAt s c) with confirmed := true } ∧ (cardAt t c).window = none ∧
        (cardAt t c).secMin = max (cardAt s c).secMin (activeSlot (cardAt s c)).secVersion ∧ (cardAt t c).active = (cardAt s c).active ∧ cardAt t (other c) = cardAt s (other c) ∧
        { t with pair := s.pair, events := s.events } = s) ∧
    (∀ (c : CardId) (f : Nat) (s : State), (cardAt s c).window = some f → (cardAt s c).serving = true → elapsed s f 3600000 = true →
      ((cardAt s (other c)).serving = false →
        ∃ t, exec (.healthWindowExpiry c) s = .next t ∧ cardAt t c = { cardAt s c with window := none, fallBack := true } ∧ cardAt t (other c) = cardAt s (other c) ∧
          { t with pair := s.pair, events := s.events } = s) ∧
      ((cardAt s (other c)).serving = true → s.quiet → (∀ n ∈ s.nss, n.2.deleting = none) → (∀ x ∈ s.slices, x.2.waiter = none) → (cardAt s (other c)).unacked = [] →
        ∃ t, exec (.healthWindowExpiry c) s = .next t ∧ (cardAt t c).serving = false ∧ (cardAt t c).entering = 1 ∧ (cardAt t c).fallBack = true ∧ (cardAt t c).window = none ∧
          (cardAt t (other c)).serving = true ∧ t.pair.own1 = other c ∧ t.pair.own2 = other c ∧ t.time.master = other c))

/-- An offer opens a relay, spores are checked and kept, confirmed, asked for again, and the relay activates and ends (R365,
R366, R367, R368, R369). -/
def Obligations.SporesAreRelayedAndActivated : Prop :=
  (∀ (h : CulmHdr) (id len sp act o : Nat) (cn : List Byte) (s : State), s.hears h.port h → s.sheaf.st = 1 → h.src = s.sheaf.lead →
      ∃ t, exec (.sporeOffer h id len sp act o cn) s = .next t ∧ s.onlyCulm t ∧
        ((relayOf s).st = 0 ∨ (relayOf s).id ≠ id → t.sheaf.relayId = id ∧ relayOf t =
          { st := 3, id := id, length := len, spores := sp, action := act, origin := o, cn := cn, mask := censusMask s, chain := chain0 id len, up := h.port, lead := h.src, stepAt := now s }) ∧
        ((relayOf s).st ≠ 0 ∧ (relayOf s).id = id → (relayOf t).origin = o ∧ (relayOf t).held = (relayOf s).held ∧ (relayOf t).verified = (relayOf s).verified ∧
          (relayOf t).st = (if o = s.sheaf.pos ∧ (relayOf s).st = 3 ∧ (relayOf s).state = 1 then 2 else (relayOf s).st))) ∧
    (∀ (p : CulmPort) (h : CulmHdr) (i k : Nat) (b c : List Byte) (s : State), s.hears p h → (relayOf s).st = 3 → (relayOf s).verified < i → i ≤ (relayOf s).spores → k < 64 → b.length = 1024 →
      (let r := relayOf s
       let pc := if k = 63 then b ++ fitTo 32 c else b
       let ps := tins r.parts (i * 64 + k) pc
       let whole' := (List.range 64).all fun j => (tfind ps ((r.verified + 1) * 64 + j)).isSome
       let bytes := ((List.range 64).map fun j => ((tfind ps ((r.verified + 1) * 64 + j)).getD []).take 1024).flatten
       let last := ((tfind ps ((r.verified + 1) * 64 + 63)).getD []).drop 1024
       ∃ t, exec (.sporeData p h r.id i k b c) s = .next t ∧
        (whole' = false → relayOf t = { r with up := p, parts := ps } ∧ s.onlyCulm t) ∧
        (whole' = true → last ≠ Config.sha256 (r.chain ++ bytes) → relayOf t = { r with up := p, parts := ps.filter fun x => x.1 / 64 ≠ r.verified + 1 } ∧ s.onlyCulm t) ∧
        (whole' = true → last = Config.sha256 (r.chain ++ bytes) → r.verified + 1 < r.spores → (∀ x ∈ ps, x.1 / 64 ≠ r.verified + 2) →
          (relayOf t).verified = r.verified + 1 ∧ tfind (relayOf t).held (r.verified + 1) = some bytes ∧ (relayOf t).chain = Config.sha256 (r.chain ++ bytes) ∧
          (∀ j, j ≠ r.verified + 1 → tfind (relayOf t).held j = tfind r.held j) ∧ (relayOf t).st = 3 ∧ s.onlyCulm t))) ∧
    (∀ (i n : Nat) (q : CulmPort) (s : State), (relayOf s).st = 3 → (relayOf s).verified < i → i ≤ (relayOf s).spores → elapsed s (relayOf s).stepAt 16 = true →
      (culmAt s (relayOf s).up).nbr = some (n, q) → portUp s (relayOf s).up = true →
      ∃ t, exec (.sporeMissing i) s = .next t ∧ t.tx = s.tx ++ [.culm (relayOf s).up 0x33 s.sheaf.pos n false 0 [(relayOf s).id, i]] ∧
        relayOf t = { relayOf s with stepAt := now s } ∧ s.onlyCulm t) ∧
    (∀ (p : CulmPort) (h : CulmHdr) (i : Nat) (s : State), s.hears p h → (relayOf s).st ≠ 0 → (tfind (relayOf s).held i).isSome = true → (culmAt s p).nbr.isSome = true →
      ∃ t, exec (.sporeResend p h (relayOf s).id i) s = .next t ∧ t.tx = s.tx ++ [.spore p (relayOf s).id i] ∧ relayOf t = relayOf s ∧ s.onlyCulm t) ∧
    (∀ (h : CulmHdr) (hi st why : Nat) (s : State), s.hears h.port h → s.sheaf.st = 2 → (relayOf s).st = 2 → (st = 0 ∧ bit (relayOf s).mask h.src = true ∧
      (memberAt' s h.src).st ≠ 0 ∧ (memberAt' s h.src).st ≠ 4) → rising s.sheaf.members = true →
      ∃ t, exec (.sporeConfirm h (relayOf s).id hi st why) s = .next t ∧ memberAt' t h.src = { memberAt' s h.src with spores := hi, sporeState := st } ∧
        (∀ k, k ≠ h.src → memberAt' t k = memberAt' s k) ∧ relayOf t = relayOf s ∧ s.onlyCulm t) ∧
    (∀ (h : CulmHdr) (s : State), s.hears h.port h → s.sheaf.st = 1 → (relayOf s).st ≠ 0 → (relayOf s).own = false →
      ((relayOf s).state = 1 → mayActivate s .cb = true → (activeSlot s.pair.cb).confirmed = true → (activeSlot s.pair.ca).confirmed = true →
        ∃ t, exec (.relayActivate h (relayOf s).id) s = .next t ∧ (relayOf t).own = true ∧ t.pair.cb.activating = 1 ∧ t.pair.ca.activating = 6 ∧
          t.pair.cb.nextSlot = idleSlot s.pair.cb ∧ t.pair.ca.nextSlot = idleSlot s.pair.ca ∧ (ctrlAt t .h1).stopped = true) ∧
      ((relayOf s).state ≠ 1 → portUp s (memberAt' s s.sheaf.lead).via = true →
        ∃ t, exec (.relayActivate h (relayOf s).id) s = .next t ∧ .culm (memberAt' s s.sheaf.lead).via 0x35 s.sheaf.pos s.sheaf.lead false 0 [(relayOf s).id, 2] ∈ t.tx ∧
          t.pair = s.pair ∧ s.onlyCulm t)) ∧
    (∀ (h : CulmHdr) (res : Nat) (s : State), s.hears h.port h → s.sheaf.st = 2 → (relayOf s).st = 4 → (relayOf s).activating = some h.src → rising s.sheaf.members = true →
      (res ≠ 0 ∨ ownPart s = false ∧ ∀ m ∈ takingPart s, m.1 ≠ h.src → m.2.activated = true) →
      ∃ t, exec (.activateDone h (relayOf s).id res) s = .next t ∧ relayOf t = {} ∧
        (∀ p, portUp s p = true → .culm p 0x36 s.sheaf.pos 0 true 0 [(relayOf s).id, if res = 0 then 0 else 1] ∈ t.tx) ∧ s.onlyCulm t) ∧
    (∀ s : State, s.sheaf.st = 2 → (relayOf s).st = 4 → elapsed s (relayOf s).stepAt 3600000 = true →
      ∃ t, exec .activationTimeout s = .next t ∧ relayOf t = {} ∧ (∀ p, portUp s p = true → .culm p 0x36 s.sheaf.pos 0 true 0 [(relayOf s).id, 1] ∈ t.tx) ∧ s.onlyCulm t) ∧
    (∀ (h : CulmHdr) (res : Nat) (s : State), s.hears h.port h → s.sheaf.st = 1 → (relayOf s).st ≠ 0 →
      ∃ t, exec (.relayEnd h (relayOf s).id res) s = .next t ∧ relayOf t = {} ∧ t.sheaf.relayId = s.sheaf.relayId ∧ s.onlyCulm t)

/-- Acknowledgements, NAKs, time-outs and READ responses of queue pairs; rates, pauses and links of bulk ports (R241, R242, R246,
R247, R248, R250, R251, R252, R253). When ACK_TIMEOUT runs is log entry 197. -/
def Obligations.BulkPortsMoveDataAndRecover : Prop :=
  (∀ (qp psn cnt k : Nat) (c : Cmd) (a b : List (Nat × Nat × Nat × Nat × Bool)) (o : Nat × Nat × Nat × Nat × Bool) (s : State), s.canonical = true → (qpAt s qp).used = true →
      (qpAt s qp).out = a ++ o :: b → o.1 = psn → (∀ x ∈ a, x.1 ≠ psn) → (∀ x ∈ a ++ [o], x.2.2.2.2 = false ∧ x.2.1 = k ∧ x ∉ b) → s.cmds = [(k, c)] → qpKeyOf c.desc = qp →
      (∀ p ∈ s.pieces, p.2.buf = none) →
      ((∃ x ∈ b, x.2.1 = k) →
        ∃ t, exec (.rdmaAck qp psn cnt) s = .next t ∧ (qpAt t qp).out = b ∧ (qpAt t qp).retries = 0 ∧ (qpAt t qp).psn = (qpAt s qp).psn ∧
          t.cmds = [(k, { c with moved := c.moved + ((a ++ [o]).map fun x => x.2.2.2.1).sum })] ∧ (∀ m, m ≠ qp → qpAt t m = qpAt s m) ∧
          { t with qps := s.qps, cmds := s.cmds, time := s.time } = s) ∧
      (b = [] → c.kind = .bulkRead → c.st = .reading → (∀ p ∈ c.pieces, (pieceAt s p).delivered = true) → (∀ x ∈ (qpAt s qp).todo, x.1 ≠ k) →
        c.status = none → c.missed = none → c.silent = false → c.svc ≠ .bound →
        c.e.sqid ≠ 0 → c.e.cid < 65536 → superseded s c.slice c.gen = false → (ctrlAt s c.e.port).link = true → (ctrlAt s c.e.port).rdy = true → c.bufs = [] →
        (∀ n ∈ s.nss, n.2.deleting = none) → (∀ x ∈ s.slices, x.2.waiter = none) →
        ∃ t, exec (.rdmaAck qp psn cnt) s = .next t ∧ (qpAt t qp).out = [] ∧ t.cmds = [] ∧
          t.cqes = s.cqes ++ [cqeOf c.e (c.moved + ((a ++ [o]).map fun x => x.2.2.2.1).sum) []])) ∧
    (∀ (i : Instr) (qp psn : Nat) (o : Nat × Nat × Nat × Nat × Bool) (b : List (Nat × Nat × Nat × Nat × Bool)) (s : State), s.canonical = true → (qpAt s qp).used = true →
      (qpAt s qp).out = o :: b → o.1 = psn → (i = .nakSequenceError qp psn ∨ i = .ackTimeout qp ∧ ackOverdue s qp = true) →
      ((qpAt s qp).retries < (bulkAt s (qpCard qp)).retryCnt → portSends s (qpCard qp) = false → (∀ x ∈ o :: b, (tfind s.cmds x.2.1).isSome = true) →
        ∃ t, exec i s = .next t ∧ qpAt t qp = { qpAt s qp with retries := (qpAt s qp).retries + 1, late := some psn, ackAt := now s } ∧ (∀ m, m ≠ qp → qpAt t m = qpAt s m) ∧
          { t with qps := s.qps, b0 := s.b0, b1 := s.b1 } = s) ∧
      ((qpAt s qp).retries < (bulkAt s (qpCard qp)).retryCnt → portSends s (qpCard qp) = true → (∀ x ∈ o :: b, x.2.2.2.2 = false ∧ (tfind s.cmds x.2.1).isSome = true) →
        ∃ t, exec i s = .next t ∧ qpAt t qp = { qpAt s qp with
            retries := (qpAt s qp).retries + 1, late := none, ackAt := now s, spent := (qpAt s qp).spent + ((o :: b).map fun x => x.2.2.2.1).sum } ∧
          (∀ m, m ≠ qp → qpAt t m = qpAt s m) ∧
          t.tx = s.tx ++ (o :: b).map (fun x => .rdma (qpCard qp) (qp % 4096) x.1 x.2.2.2.1 false) ∧
          (i = .nakSequenceError qp psn → (bulkAt t (qpCard qp)).nakIn = (bulkAt s (qpCard qp)).nakIn + 1) ∧ { t with qps := s.qps, tx := s.tx, b0 := s.b0, b1 := s.b1 } = s) ∧
      ((bulkAt s (qpCard qp)).retryCnt ≤ (qpAt s qp).retries → (qpAt s qp).error = 0 → qpCmds s qp = [] →
        ∃ t, exec i s = .next t ∧ qpAt t qp = { qpCleared (qpAt s qp) with error := 5 } ∧ (∀ m, m ≠ qp → qpAt t m = qpAt s m) ∧
          { t with qps := s.qps, events := s.events, b0 := s.b0, b1 := s.b1 } = s)) ∧
    (∀ r ∈ [((fun q => Instr.nakRemoteAccessError q), 3), ((fun q => .nakRemoteOperationalError q), 4)], ∀ (qp : Nat) (s : State), s.canonical = true → (qpAt s qp).used = true →
      (qpAt s qp).error = 0 →
      (qpCmds s qp = [] → ∃ t, exec (r.1 qp) s = .next t ∧ qpAt t qp = { qpCleared (qpAt s qp) with error := r.2 } ∧ (∀ m, m ≠ qp → qpAt t m = qpAt s m) ∧
          (bulkAt t (qpCard qp)).nakIn = (bulkAt s (qpCard qp)).nakIn + 1 ∧ { t with qps := s.qps, events := s.events, b0 := s.b0, b1 := s.b1 } = s) ∧
      (∀ k c, s.cmds = [(k, c)] → c.kind = .bulkRead → c.desc.enable = true → qpKeyOf c.desc = qp → c.pieces = [] → c.bufs = [] → c.missed = none → c.silent = false → c.svc ≠ .bound →
        c.e.sqid ≠ 0 → c.e.cid < 65536 → superseded s c.slice c.gen = false → (ctrlAt s c.e.port).link = true → (ctrlAt s c.e.port).rdy = true →
        (∀ n ∈ s.nss, n.2.deleting = none) → (∀ x ∈ s.slices, x.2.waiter = none) →
        ∃ t, exec (r.1 qp) s = .next t ∧ (qpAt t qp).error = r.2 ∧ t.cmds = [] ∧
          t.cqes = s.cqes ++ [{ port := c.e.port, sqid := c.e.sqid, cid := c.e.cid, sct := 7, sc := 0x86, dw0 := c.moved, dw1 := r.2, more := true }])) ∧
    (∀ (qp psn cnt k total : Nat) (bytes : List Byte) (c : Cmd) (o : Nat × Nat × Nat × Nat × Bool) (b : List (Nat × Nat × Nat × Nat × Bool)) (s : State), s.canonical = true →
      (qpAt s qp).used = true → (qpAt s qp).out = o :: b → o ∉ b → (∀ x ∈ o :: b, x.2.2.2.2 = true ∧ x.2.1 = k) →
      (psn = o.1 → s.cmds = [(k, c)] → qpKeyOf c.desc = qp → total = cdiv (min (c.nlb * 4096) (regionRoom c)) 4096 → total ≤ (o :: b).length + c.data.length → c.data.length + 1 < total →
        ∃ t, exec (.rdmaReadResponse qp psn false cnt bytes) s = .next t ∧ (qpAt t qp).out = b ∧ (qpAt t qp).retries = 0 ∧
          t.cmds = [(k, { c with data := c.data ++ [(o.2.2.1, bytes.take o.2.2.2.1, [])], moved := c.moved + (bytes.take o.2.2.2.1).length })] ∧
          (bulkAt t (qpCard qp)).rxUsed = (bulkAt s (qpCard qp)).rxUsed + (bytes.take o.2.2.2.1).length ∧
          (bulkAt t (qpCard qp)).xoff = ((bulkAt s (qpCard qp)).xoff || decide (3145728 < (bulkAt t (qpCard qp)).rxUsed)) ∧ (∀ m, m ≠ qp → qpAt t m = qpAt s m) ∧
          { t with qps := s.qps, cmds := s.cmds, time := s.time, tx := s.tx, b0 := s.b0, b1 := s.b1 } = s) ∧
      (psn ≠ o.1 → (∃ x ∈ b, x.1 = psn) → portSends s (qpCard qp) = true → (tfind s.cmds k).isSome = true →
        ∃ t, exec (.rdmaReadResponse qp psn false cnt bytes) s = .next t ∧ (qpAt t qp).out = (qpAt s qp).out ∧ (∀ m, m ≠ qp → qpAt t m = qpAt s m) ∧
          t.tx = s.tx ++ [.rdma (qpCard qp) (qp % 4096) o.1 ((o :: b).map fun x => x.2.2.2.1).sum true] ∧ { t with tx := s.tx, time := s.time, qps := s.qps } = s)) ∧
    (∀ (qp : Nat) (s : State), s.canonical = true → ∃ t, exec (.cnpReceived qp) s = .next t ∧
        qpAt t qp = { qpAt s qp with rate := max 10 ((qpAt s qp).rate * (256 - (bulkAt s (qpCard qp)).cut) / 256), cnpAt := now s } ∧
        (∀ m, m ≠ qp → qpAt t m = qpAt s m) ∧ { t with qps := s.qps } = s) ∧
    (∀ (qp : Nat) (s : State), s.canonical = true → (qpAt s qp).rate < 8000 → elapsed s (qpAt s qp).cnpAt (bulkAt s (qpCard qp)).recover = true →
      ∃ t, exec (.rateRecover qp) s = .next t ∧ qpAt t qp = { qpAt s qp with rate := min 8000 ((qpAt s qp).rate + (bulkAt s (qpCard qp)).step), cnpAt := now s } ∧
        (∀ m, m ≠ qp → qpAt t m = qpAt s m) ∧ { t with qps := s.qps } = s) ∧
    (∀ (c : CardId) (qp psn : Nat) (o : BitVec 8) (s : State), (bulkAt s c).gid ≠ 0 → (o = 0x0A#8 ∨ o = 0x0C#8 ∨ o = 0x04#8) →
      ∃ t, exec (.invalidRequestPacket c qp psn o) s = .next t ∧
        ((bulkAt s c).paused = false → t.tx = s.tx ++ [.nak c qp psn 0x61] ∧ bulkAt t c = { bulkAt s c with refused := (bulkAt s c).refused + 1 }) ∧
        ((bulkAt s c).paused = true → t.tx = s.tx ∧
          bulkAt t c = { bulkAt s c with refused := (bulkAt s c).refused + 1, held := (bulkAt s c).held ++ [(qp, some (psn, 0x61))] }) ∧
        bulkAt t (other c) = bulkAt s (other c) ∧ { t with tx := s.tx, b0 := s.b0, b1 := s.b1 } = s) ∧
    (∀ (c : CardId) (ip sip : BitVec 32) (mac : BitVec 48) (s : State), ∃ t, exec (.arpRequest c ip mac sip) s = .next t ∧
        (ipv4Of (bulkAt s c).gid = some ip → t.tx = s.tx ++ [.arp c mac sip]) ∧ (ipv4Of (bulkAt s c).gid ≠ some ip → t = s) ∧ { t with tx := s.tx } = s) ∧
    (∀ (c : CardId) (g from' : BitVec 128) (s : State), ∃ t, exec (.neighborSolicitation c g from') s = .next t ∧
        (g ≠ 0 → (bulkAt s c).gid = g → t.tx = s.tx ++ [.neighborAdv c from']) ∧ ((bulkAt s c).gid ≠ g → t = s) ∧ { t with tx := s.tx } = s) ∧
    (∀ (c : CardId) (p n : Nat) (s : State), ∃ t, exec (.pfcFrame c p n) s = .next t ∧
        ((bulkAt s c).pfcEn = false ∨ p ≠ (bulkAt s c).pfcPrio → t = s) ∧
        ((bulkAt s c).pfcEn = true → p = (bulkAt s c).pfcPrio → n ≠ 0 → bulkAt t c = { bulkAt s c with paused := true } ∧ { t with b0 := s.b0, b1 := s.b1 } = s) ∧
        ((bulkAt s c).pfcEn = true → p = (bulkAt s c).pfcPrio → n = 0 → exec (.pfcPauseEnd c) s = .next t) ∧ bulkAt t (other c) = bulkAt s (other c)) ∧
    (∀ (c : CardId) (s : State), (∃ t, exec (.pfcPauseEnd c) s = .next t ∧ bulkAt t c = { bulkAt s c with paused := false, held := [] } ∧
        bulkAt t (other c) = bulkAt s (other c) ∧
        (∃ l, t.tx = s.tx ++ (bulkAt s c).held.map (fun m => match m.2 with | none => .cnp c m.1 | some (x, code) => .nak c m.1 x code) ++ l) ∧
        { t with b0 := s.b0, b1 := s.b1, tx := s.tx, qps := s.qps } = s) ∧ (∃ t, exec (.otherFrame c) s = .next t ∧ t = s) ∧
      (∃ t, exec (.bulkLinkDown c) s = .next t ∧ (bulkAt t c).linkUp = false ∧ (bulkAt t c).downAt = some ((bulkAt s c).downAt.getD (now s)) ∧
        bulkAt t (other c) = bulkAt s (other c) ∧ { t with b0 := s.b0, b1 := s.b1 } = s) ∧
      (∃ t, exec (.bulkLinkUp c) s = .next t ∧ bulkAt t c = { bulkAt s c with linkUp := true, downAt := none, paused := false, held := [] } ∧
        bulkAt t (other c) = bulkAt s (other c) ∧ { t with b0 := s.b0, b1 := s.b1, tx := s.tx, qps := s.qps } = s)) ∧
    (∀ (c : CardId) (f : Nat) (s : State), s.canonical = true → (bulkAt s c).downAt = some f → elapsed s f 64 = true → s.cmds = [] →
      ∃ t, exec (.bulkLinkDownExpiry c) s = .next t ∧
        (∀ k, qpAt t k = if qpCard k = c ∧ (qpAt s k).out ≠ [] then qpCleared (qpAt s k) else qpAt s k) ∧ { t with qps := s.qps } = s)

/-- Nonces and handles expire, reports are signed in order, events enter and are written, recorders are copied and erased (R339,
R343, R346, R348, R371, R372, R377, R378, R380, R381, R385). -/
def Obligations.NoncesHandlesAndRecordersAct : Prop :=
  (∀ (v : BitVec 64) (s : State), ∃ t, exec (.nonceExpiry v) s = .next t ∧ (∀ n, n ∈ t.sec.nonces ↔ n ∈ s.sec.nonces ∧ ¬ (n.value = v ∧ elapsed s n.born 2400000 = true)) ∧
        { t with sec := s.sec } = s ∧ { t.sec with nonces := s.sec.nonces } = s.sec) ∧
    (∀ (h : Nat) (k : Token) (s : State), k ∈ s.sec.tokens → k.handle = h → elapsed s k.born 240000 = true →
      ∃ t, exec (.handleExpiry h) s = .next t ∧ (∀ x, x ∈ t.sec.tokens ↔ x ∈ s.sec.tokens ∧ x.handle ≠ h) ∧ (∀ x, x ∈ t.sec.attestQ ↔ x ∈ s.sec.attestQ ∧ x ≠ h) ∧
        (∀ x, x ∈ t.sec.reports ↔ x ∈ s.sec.reports ∧ x.1 ≠ h) ∧ { t with sec := s.sec } = s ∧
        { t.sec with tokens := s.sec.tokens, attestQ := s.sec.attestQ, reports := s.sec.reports } = s.sec) ∧
    (∀ (h : Nat) (q : List Nat) (s : State), s.sec.attestQ = h :: q → (cardAt s s.time.master).serving = true → (∀ f, s.sec.signedAt = some f → elapsed s f 8 = true) → s.pair.handTo = none →
      ∃ t page, exec .attestationSignature s = .next t ∧ t.sec.attestQ = q ∧ t.sec.reports = s.sec.reports ++ [(h, page)] ∧ page.length = 8192 ∧ t.sec.signedAt = some (now s) ∧
        t.sec.attestNext = s.sec.attestNext + 1 ∧ (s.sec.attestNext ≤ s.sec.reservedEnd → t.sec.attestNext ≤ t.sec.reservedEnd) ∧ { t with sec := s.sec } = s ∧
        { t.sec with attestQ := s.sec.attestQ, reports := s.sec.reports, signedAt := s.sec.signedAt, attestNext := s.sec.attestNext, reservedEnd := s.sec.reservedEnd } = s.sec) ∧
    (∀ (code cls src ob a0 a1 a2 cnt : Nat) (s : State), 256 ≤ code → s.time.resetHeld = false → anyServe s = true → recFull s = false →
      ∃ t, exec (.eventIntake code cls src ob a0 a1 a2 cnt) s = .next t ∧ t.time = { s.time with count := cnt } ∧ t.events.dropped = s.events.dropped ∧
        t.events.changeQ = s.events.changeQ ∧ t.events.sumQ = s.events.sumQ ∧
        ((tget {} s.events.buckets code).taken < depthOf s.events code → s.events.ring.length < 256 →
          (∃ r, t.events.ring = s.events.ring ++ [r] ∧ r.code = code ∧ r.cls = cls ∧ r.source = src ∧ r.fc = s.time.fc ∧ r.ep = s.time.ep ∧ r.count = cnt ∧ r.data = evData ob a0 a1 a2) ∧
          t.events.suppressed = s.events.suppressed ∧ (tget {} t.events.buckets code).taken = (tget {} s.events.buckets code).taken + 1) ∧
        (depthOf s.events code ≤ (tget {} s.events.buckets code).taken → t.events.ring = s.events.ring ∧ t.events.suppressed = s.events.suppressed + 1 ∧
          (tget {} t.events.buckets code).rate = (tget {} s.events.buckets code).rate + 1) ∧
        { t with events := s.events, time := s.time } = s) ∧
    (∀ s : State, s.time.fc % max 1 s.events.period = 0 → s.events.refilled ≠ some s.time.fc → (∀ b ∈ s.events.buckets, b.2.rate + b.2.ring = 0) → rising s.events.buckets = true →
      ∃ t, exec .eventRefill s = .next t ∧
        (∀ c b, tfind s.events.buckets c = some b → (tget {} t.events.buckets c).taken = b.taken - refillOf s.events c) ∧ t.events.sumQ = s.events.sumQ ∧
        t.events.ring = s.events.ring ∧ { t with events := s.events } = s ∧ exec .eventRefill t = .next t) ∧
    (∀ (r : EventRec) (q : Cqe) (s : State), s.events.writing = [(r, some q)] → r.code = 0x10 → r.reserve = false → s.pair.ca.serving = true → s.pair.cb.serving = true →
      s.pair.ca.copying = false → s.pair.cb.copying = false → s.sheaf.st ≠ 2 → s.events.changeQ = [] → s.events.sumQ = [] → s.events.ring = [] →
      (recAt s s.time.master).main.length + 1 < mainSize → (recAt s s.time.master).full = false →
      (ctrlAt s q.port).link = true → (ctrlAt s q.port).rdy = true → q.sqid = 0 → q.cid < 65536 → q.sct = 0 → q.sc = 0 →
      ∃ t, exec .recorderProgramEnd s = .next t ∧ t.events.recA.main = s.events.recA.main ++ [r] ∧ t.events.recB.main = s.events.recB.main ++ [r] ∧ t.events.writing = [] ∧
        t.cqes = s.cqes ++ [q] ∧ t.sec.changes = s.sec.changes + 1 ∧ t.sec.lastFc = r.fc ∧ t.sec.lastEp = r.ep ∧ { t with events := s.events, sec := s.sec, cqes := s.cqes } = s) ∧
    (∀ (c : CardId) (s : State), (cardAt s c).copying = true →
      ∃ t, exec (.recorderCopyDone c) s = .next t ∧ recAt t c = recAt s (other c) ∧ recAt t (other c) = recAt s (other c) ∧ cardAt t c = { cardAt s c with copying := false } ∧
        cardAt t (other c) = cardAt s (other c) ∧ { t with pair := s.pair, events := s.events } = s) ∧
    (∀ (k : Nat) (s : State), s.events.erasedTo = some k →
      ∃ t, exec .recorderSectorEraseDone s = .next t ∧ t.events = { s.events with erasedTo := if k < 1023 then some (k + 1) else none } ∧ { t with events := s.events } = s)

/-- The SMBus endpoint answers block reads, MCTP control, Management Interface commands and tunnelled admin commands; the card
that serves alone answers (R188, R189, R190, R191). -/
def Obligations.SmbusAndMiRequestsAreAnswered : Prop :=
  (∀ s : State, miServes s = true →
      (∃ t, exec (.smbusBlockRead 0) s = .next t ∧ s.answersMi t 6
        [byte (basicFlags s), byte (smartWarnings s), byte (tempByte (composite s)), byte (min 255 (percentUsed s)), 0, 0]) ∧
      (∃ t, exec (.smbusBlockRead 8) s = .next t ∧ s.answersMi t 22 ([0xC4, 0x1F] ++ fitTo 20 Config.moduleSerial)) ∧
      (∀ o, o ≠ 0 → o ≠ 8 → ∃ t, exec (.smbusBlockRead o) s = .next t ∧ s.answersMi t 32 (zeros 32)) ∧
      (∀ v : BitVec 8, v ≠ 0 → v ≠ 0xFF → ∃ t, exec (.setEndpointId v) s = .next t ∧ t.mi = { s.mi with eid := v, status := 0, resp := [0, v, 0] } ∧
        t.tx = s.tx ++ [.mi [0, 0, v, 0]] ∧ { t with mi := s.mi, tx := s.tx } = s) ∧
      (∃ t, exec .getEndpointId s = .next t ∧ s.answersMi t 0 [s.mi.eid, 0, 0]) ∧
      (∃ t b, exec .getEndpointUuid s = .next t ∧ s.answersMi t 0 b ∧ b.length = 16) ∧
      (∀ v : BitVec 8, v = 0 ∨ v = 0xFF → ∃ t, exec (.getMctpVersionSupport v) s = .next t ∧ s.answersMi t 0 [1, 0xF1, 0xF3, 0xFF, 0]) ∧
      (∃ t, exec .getMessageTypeSupport s = .next t ∧ s.answersMi t 0 [1, 4]) ∧
      (∀ v : BitVec 8, v = 0 ∨ 5 < v.toNat → ∃ t, exec (.mctpUnsupportedControl v) s = .next t ∧ s.answersMi t 5 []) ∧
      (∀ d n, (d = 0 ∨ d = 1 ∧ n ≤ 2 ∨ d = 3 ∧ 1 ≤ n ∧ n ≤ 2) → ∃ t b, exec (.readNvmeMiDataStructure d n) s = .next t ∧ s.answersMi t 0 b ∧ b.length = 32) ∧
      (∃ t, exec (.readNvmeMiDataStructure 2 0) s = .next t ∧ s.answersMi t 0 [2, 0, 1, 0, 2, 0]) ∧
      (∀ d n, 3 < d.toNat ∨ d = 1 ∧ 2 < n ∨ d = 3 ∧ (n = 0 ∨ 2 < n) → ∃ t, exec (.readNvmeMiDataStructure d n) s = .next t ∧ s.answersMi t 4 []) ∧
      (∀ clear, ∃ t b, exec (.nvmSubsystemHealthStatusPoll clear) s = .next t ∧ b.length = 8 ∧ b.drop 4 = le 2 (s.mi.changed.a ||| s.mi.changed.b) ++ [0, 0] ∧
        t.mi = { s.mi with changed := if clear then ⟨0, 0⟩ else s.mi.changed, status := 0, resp := b } ∧ t.tx = s.tx ++ [.mi (0 :: b)] ∧
        { t with mi := s.mi, tx := s.tx } = s) ∧
      (∃ t b, exec .controllerHealthStatusPoll s = .next t ∧ s.answersMi t 0 b ∧ b.length = 35 ∧ b.take 7 = [0, 0, 2, 1, 0] ++ le 2 (ctrlStatus s .h0)) ∧
      (∃ t, exec (.configurationGet 1) s = .next t ∧ s.answersMi t 0 [byte s.mi.freq, 0, 0]) ∧
      (∃ t, exec (.configurationGet 3) s = .next t ∧ s.answersMi t 0 (le 2 s.mi.mtu ++ [0])) ∧
      (∀ v : BitVec 8, v ≠ 1 → v ≠ 3 → (∃ t, exec (.configurationGet v) s = .next t ∧ s.answersMi t 4 []) ∧
        ∀ n, ∃ t, exec (.configurationSet v n) s = .next t ∧ s.answersMi t 4 []) ∧
      (changeRoom s = true → ∀ v n, (v = 1 ∧ (n = 1 ∨ n = 2) ∨ v = 3 ∧ 64 ≤ n ∧ n ≤ 250) →
        ∃ (t : State) (r : EventRec), exec (.configurationSet v n) s = .next t ∧
          t.mi = { s.mi with freq := if v = 1 then n else s.mi.freq, mtu := if v = 3 then n else s.mi.mtu, awaiting := some s.time.master } ∧
          t.events = { s.events with changeQ := s.events.changeQ ++ [(r, none)] } ∧ r.code = 0x10 ∧ r.data = changeData 0x03 v.toNat 3 0 0 0 0 [] ∧
          { t with mi := s.mi, events := s.events } = s) ∧
      (∀ n, n = 0 ∨ 2 < n → ∃ t, exec (.configurationSet 1 n) s = .next t ∧ s.answersMi t 4 []) ∧
      (∀ n, n < 64 ∨ 250 < n → ∃ t, exec (.configurationSet 3 n) s = .next t ∧ s.answersMi t 4 []) ∧
      (∀ o n, (o + n ≤ 256 → ∃ t b, exec (.vpdRead o n) s = .next t ∧ s.answersMi t 0 ([0, 0, 0] ++ b) ∧ b.length = n) ∧
        (256 < o + n → ∃ t, exec (.vpdRead o n) s = .next t ∧ s.answersMi t 4 [])) ∧
      (∀ e d, d10 e 7 0 ≤ 2 → identifyData s e = .ok d → ∃ t, exec (.miAdminIdentify e) s = .next t ∧ s.answersMi t 0 (zeros 15 ++ d)) ∧
      (∀ e, d10 e 7 0 = 1 → ∃ d, identifyData s e = .ok d) ∧
      (∀ e d, logBytes e ≤ 4096 → logWindow s e (logBytes e) (logOffset e) = .ok d →
        ∃ t, exec (.miAdminGetLogPage e) s = .next t ∧ s.answersMi t 0 (zeros 15 ++ d)) ∧
      (∀ e, 4096 < logBytes e → ∃ t, exec (.miAdminGetLogPage e) s = .next t ∧ s.answersMi t 0 (zeros 11 ++ le 4 (2 * 2 ^ 17))) ∧
      (∀ e n d, d10 e 10 8 = 0 → featureValue s e true = some (n, d) →
        ∃ t, exec (.miAdminGetFeatures e) s = .next t ∧ s.answersMi t 0 (zeros 3 ++ le 4 n ++ zeros 8 ++ d)) ∧
      (∀ o : BitVec 8, o ≠ 0x02 → o ≠ 0x06 → o ≠ 0x0A → ∃ t, exec (.miUnsupportedCommand true o) s = .next t ∧ s.answersMi t 0 (zeros 11 ++ le 4 (1 * 2 ^ 17))) ∧
      (∀ o : BitVec 8, 5 < o.toNat → ∃ t, exec (.miUnsupportedCommand false o) s = .next t ∧ s.answersMi t 3 [])) ∧
    (∀ s : State, miServes s = false → ∀ i ∈ [Instr.smbusBlockRead 0, .smbusBlockRead 8, .setEndpointId 1, .getEndpointId, .getEndpointUuid, .getMessageTypeSupport,
        .controllerHealthStatusPoll, .nvmSubsystemHealthStatusPoll true, .configurationSet 1 2, .vpdRead 0 256], exec i s = .next s)

/-- A change without room for its record is refused with reason 11, one without its token at level 2 with reason 10; a token that
fits is consumed (R168, R342, R343, R344, R349, R350). -/
def Obligations.ChangesNeedRecordRoomAndToken : Prop :=
  (∀ r ∈ ([((fun e => Instr.sliceCreate e), 0xC1#8), ((fun e => .sliceDelete e), 0xC4#8), ((fun e => .shareSet e), 0xD1#8), ((fun e => .sliceStateRestore e), 0xC5#8),
        ((fun e => .formatNvm e), 0x80#8), ((fun e => .sanitize e), 0x84#8), ((fun e => .spikeletRuleWrite e), 0xD5#8), ((fun e => .winnowProgramLoad e), 0xF1#8),
        ((fun e => .bulkEndpointSet e), 0xE9#8)] : List ((Sqe → Instr) × BitVec 8)), ∀ (e : Sqe) (s : State),
      e.sqid = 0 → e.cid < 65536 → adminOpen s e.port = true → s.power.ps ≤ 2 → s.power.entry = none → s.power.exit = none → s.sec.running = none →
      (∀ n ∈ s.nss, n.2.used = true → n.2.ready = true) →
      (changeRoom s = false → ∃ t, exec (r.1 e) s = .next t ∧ s.turnsAway t e 11) ∧
      (changeRoom s = true → s.sec.level = 2 → (∀ k ∈ s.sec.tokens, tokenFits { e with opc := r.2 } k = false) →
        ∃ t, exec (r.1 e) s = .next t ∧ s.turnsAway t e 10)) ∧
    (∀ r ∈ ([((fun e => Instr.sliceCreate e), 0xC1#8), ((fun e => .shareSet e), 0xD1#8), ((fun e => .spikeletRuleWrite e), 0xD5#8),
        ((fun e => .winnowProgramLoad e), 0xF1#8), ((fun e => .bulkEndpointSet e), 0xE9#8)] : List ((Sqe → Instr) × BitVec 8)), ∀ (e : Sqe) (s : State) (k : Token) (a b : List Token),
      e.sqid = 0 → adminOpen s e.port = true → s.power.ps ≤ 2 → s.power.entry = none → s.power.exit = none → s.sec.running = none →
      changeRoom s = true → s.sec.level = 2 → s.sec.tokens = a ++ k :: b → (∀ x ∈ a, tokenFits { e with opc := r.2 } x = false) →
      tokenFits { e with opc := r.2 } k = true →
      ∃ t, exec (r.1 e) s = .next t ∧ (∀ x, x ∈ t.sec.tokens ↔ x ∈ s.sec.tokens ∧ x.handle ≠ k.handle) ∧ t.sec.refused = s.sec.refused)

/-- The state at reset: what the manual gives, and every table in its canonical form; the choices of log entries 1 and 3 are not
part of it (R15, R55, R106, R130, R228, R256, R282, R386, R398, R418, R427). -/
def Obligations.ResetStateIsAsStated : Prop :=
  State.reset.canonical = true ∧ State.reset.pending = [] ∧ State.reset.time.fc = 0 ∧ State.reset.time.len = 16000 ∧ State.reset.time.master = .ca ∧
    State.reset.pair.ca.serving = true ∧ State.reset.pair.cb.serving = true ∧ State.reset.sec.level = 1 ∧ State.reset.nss = [] ∧ State.reset.sqs = [] ∧ State.reset.cqs = [] ∧
    State.reset.slices.map Prod.fst = [0] ∧ (sliceAt State.reset 0).st = 1 ∧ State.reset.c0.ana1 = 1 ∧ State.reset.c0.ana2 = 2 ∧ State.reset.c1.ana1 = 2 ∧ State.reset.c1.ana2 = 1 ∧
    (∀ c : CardId, (recAt State.reset c).main = [] ∧ (recAt State.reset c).reserve = [] ∧ (poolAt State.reset c 0).free = 1048576 ∧ (poolAt State.reset c 1).free = 262144 ∧
      (poolAt State.reset c 2).free = 65536 ∧ (poolAt State.reset c 3).free = 4096) ∧
    State.reset.events.depth = 8 ∧ State.reset.events.refill = 8 ∧ State.reset.events.period = 4000 ∧ State.reset.power.ps = 0 ∧ State.reset.power.hostBudget = 100 ∧
    State.reset.feat.thrPct = 95 ∧ State.reset.feat.fullPct = 98 ∧ State.reset.feat.fullWait = 4000 ∧ State.reset.feat.packWait = 1 ∧ State.reset.feat.absentPct = 25 ∧
    State.reset.feat.quarThr = 3 ∧ State.reset.feat.quarWin = 4000 ∧ State.reset.feat.quarHold = 40000 ∧ (∀ p : PeuId, (peuAt State.reset p).iLimit = 100) ∧
    (∀ f, (frondAt State.reset f).present = true ∧ (frondAt State.reset f).state = 0 ∧ (frondAt State.reset f).spares = 30720) ∧
    State.reset.spA.ents = [(defaultEntryPos, defaultEntry)] ∧ State.reset.spB.ents = [(defaultEntryPos, defaultEntry)]

/-- Every table of the state stays in its one canonical form through every step (model invariant, log entry 37) (R85, R136, R150,
R195). -/
def Obligations.CanonicalTablesKept : Prop :=
  ∀ s t : State, s.canonical = true → step s = .next t → t.canonical = true
end

