-- ==== Sys2Proof/Laws/Table.lean ====
section
/-! SUPPORT. The sparse tables: reading back what was written, leaving every other key alone, and keeping the canonical form. -/
namespace Sys2Proof.Laws
open Sys2Proof Sys2Proof.Machine

variable {α : Type}

@[simp] theorem tget_tins_same (d : α) (t : Tbl α) (k : Nat) (v : α) : tget d (tins t k v) k = v := by
  induction t with
  | nil => simp [tins, tget]
  | cons p r ih =>
    obtain ⟨j, a⟩ := p
    unfold tins
    split
    · simp [tget]
    · split
      · simp [tget]
      · rename_i h1 h2; simp [tget, ih, Ne.symm h2]

theorem tget_tins_ne (d : α) (t : Tbl α) (k j : Nat) (v : α) (h : j ≠ k) : tget d (tins t k v) j = tget d t j := by
  induction t with
  | nil => simp [tins, tget, Ne.symm h]
  | cons p r ih =>
    obtain ⟨i, a⟩ := p
    unfold tins
    split
    · simp [tget, Ne.symm h]
    · split
      · rename_i h1 h2; subst h2; simp [tget, Ne.symm h]
      · simp [tget, ih]

theorem tget_tdel_ne (d : α) (t : Tbl α) (k j : Nat) (h : j ≠ k) : tget d (tdel t k) j = tget d t j := by
  induction t with
  | nil => rfl
  | cons p r ih =>
    obtain ⟨i, a⟩ := p
    unfold tdel
    split
    · rename_i h1; subst h1; simp [tget, Ne.symm h]
    · simp [tget, ih]

/-- A key below every listed key reads as the default. -/
theorem tget_below (d : α) (t : Tbl α) (k : Nat) (h : ∀ p ∈ t, k < p.1) : tget d t k = d := by
  induction t with
  | nil => rfl
  | cons p r ih =>
    obtain ⟨i, a⟩ := p
    have h1 := h (i, a) (List.mem_cons_self ..)
    have h2 : i ≠ k := by simp at h1; omega
    simp only [tget, h2, if_false]
    exact ih fun p hp => h p (List.mem_cons_of_mem _ hp)

theorem tget_tdel_same (d : α) (t : Tbl α) (k : Nat) (h : (t.map Prod.fst).Pairwise (· < ·)) : tget d (tdel t k) k = d := by
  induction t with
  | nil => rfl
  | cons p r ih =>
    obtain ⟨i, a⟩ := p
    simp only [List.map_cons, List.pairwise_cons] at h
    unfold tdel
    split
    · rename_i h1; subst h1
      exact tget_below d r _ fun p hp => h.1 p.1 (List.mem_map_of_mem hp)
    · rename_i h1; simp only [tget, h1, if_false]; exact ih h.2

theorem mem_tdel (t : Tbl α) (k : Nat) (p : Nat × α) (h : p ∈ tdel t k) : p ∈ t := by
  induction t with
  | nil => exact h
  | cons q r ih =>
    obtain ⟨i, a⟩ := q
    unfold tdel at h
    split at h
    · exact List.mem_cons_of_mem _ h
    · rcases List.mem_cons.mp h with h | h
      · subst h; exact List.mem_cons_self ..
      · exact List.mem_cons_of_mem _ (ih h)

theorem mem_tins (t : Tbl α) (k : Nat) (v : α) (p : Nat × α) (h : p ∈ tins t k v) : p = (k, v) ∨ p ∈ t := by
  induction t with
  | nil => simpa [tins] using h
  | cons q r ih =>
    obtain ⟨i, a⟩ := q
    unfold tins at h
    split at h
    · simpa using h
    · split at h
      · rcases List.mem_cons.mp h with h | h
        · exact .inl h
        · exact .inr (List.mem_cons_of_mem _ h)
      · rcases List.mem_cons.mp h with h | h
        · exact .inr (h ▸ List.mem_cons_self ..)
        · exact (ih h).imp id (List.mem_cons_of_mem _)

theorem keys_tdel (t : Tbl α) (k : Nat) (h : (t.map Prod.fst).Pairwise (· < ·)) : ((tdel t k).map Prod.fst).Pairwise (· < ·) := by
  induction t with
  | nil => exact h
  | cons q r ih =>
    obtain ⟨i, a⟩ := q
    simp only [List.map_cons, List.pairwise_cons] at h
    unfold tdel
    split
    · exact h.2
    · simp only [List.map_cons, List.pairwise_cons]
      refine ⟨fun x hx => ?_, ih h.2⟩
      obtain ⟨p, hp, rfl⟩ := List.mem_map.mp hx
      exact h.1 _ (List.mem_map_of_mem (mem_tdel r k p hp))

theorem keys_tins (t : Tbl α) (k : Nat) (v : α) (h : (t.map Prod.fst).Pairwise (· < ·)) : ((tins t k v).map Prod.fst).Pairwise (· < ·) := by
  induction t with
  | nil => simp [tins]
  | cons q r ih =>
    obtain ⟨i, a⟩ := q
    have h0 := h
    simp only [List.map_cons, List.pairwise_cons] at h
    unfold tins
    split
    · rename_i hk
      simp only [List.map_cons, List.pairwise_cons]
      refine ⟨fun x hx => ?_, h⟩
      rcases List.mem_cons.mp hx with hx | hx
      · omega
      · exact lt_trans hk (h.1 x hx)
    · split
      · rename_i hk; subst hk
        simpa only [List.map_cons, List.pairwise_cons] using h
      · rename_i hk1 hk2
        simp only [List.map_cons, List.pairwise_cons]
        refine ⟨fun x hx => ?_, ih h.2⟩
        obtain ⟨p, hp, rfl⟩ := List.mem_map.mp hx
        rcases mem_tins r k v p hp with rfl | hp
        · show i < k; omega
        · exact h.1 _ (List.mem_map_of_mem hp)

variable [DecidableEq α]

/-- A written entry reads back. -/
theorem tget_tput_same (d : α) (t : Tbl α) (k : Nat) (v : α) (h : tableWf d t = true) : tget d (tput d t k v) k = v := by
  simp only [tableWf, Bool.and_eq_true, decide_eq_true_eq] at h
  unfold tput
  split
  · rename_i hv; rw [hv]; exact tget_tdel_same d t k h.1
  · exact tget_tins_same d t k v

/-- A write leaves every other key alone. -/
theorem tget_tput_ne (d : α) (t : Tbl α) (k j : Nat) (v : α) (h : j ≠ k) : tget d (tput d t k v) j = tget d t j := by
  unfold tput
  split
  · exact tget_tdel_ne d t k j h
  · exact tget_tins_ne d t k j v h

/-- A write keeps the canonical form. -/
theorem tableWf_tput (d : α) (t : Tbl α) (k : Nat) (v : α) (h : tableWf d t = true) : tableWf d (tput d t k v) = true := by
  simp only [tableWf, Bool.and_eq_true, decide_eq_true_eq, List.all_eq_true] at h ⊢
  unfold tput
  split
  · exact ⟨keys_tdel t k h.1, fun p hp => h.2 p (mem_tdel t k p hp)⟩
  · rename_i hv
    refine ⟨keys_tins t k v h.1, fun p hp => ?_⟩
    rcases mem_tins t k v p hp with rfl | hp
    · exact hv
    · exact h.2 p hp

/-- An update of one entry keeps the canonical form. -/
theorem tableWf_tupd (d : α) (t : Tbl α) (k : Nat) (f : α → α) (h : tableWf d t = true) : tableWf d (tupd d t k f) = true :=
  tableWf_tput d t k _ h

/-- An updated entry reads back; every other key is left alone. -/
theorem tget_tupd (d : α) (t : Tbl α) (k j : Nat) (f : α → α) (h : tableWf d t = true) :
    tget d (tupd d t k f) j = if j = k then f (tget d t k) else tget d t j := by
  unfold tupd
  split
  · rename_i hk; subst hk; exact tget_tput_same d t _ _ h
  · rename_i hk; exact tget_tput_ne d t k j _ hk

omit [DecidableEq α] in
/-- A listed entry is one of the table. -/
theorem tget_mem (d : α) (t : Tbl α) (k : Nat) : tget d t k = d ∨ (k, tget d t k) ∈ t := by
  induction t with
  | nil => exact .inl rfl
  | cons p r ih =>
    obtain ⟨j, a⟩ := p
    unfold tget
    split
    · rename_i hj; subst hj; exact .inr (List.mem_cons_self ..)
    · exact ih.imp id (List.mem_cons_of_mem _)

end Sys2Proof.Laws
end

