-- ==== Sys2Proof/Laws/Admin.lean ====
section
/-! SUPPORT. The gate of the admin queues and the completions: what they answer for an entry that is served at once. -/
namespace Sys2Proof.Laws
open Sys2Proof Sys2Proof.Machine

/-- Bits of a dword that setBits writes read back. -/
theorem bits_setBits (v : Dword) (hi lo x : Nat) (h : hi < 32) (hl : lo ≤ hi) :
    bits (setBits v hi lo x).toNat hi lo = x % 2 ^ (hi + 1 - lo) := by
  unfold setBits bits
  rw [BitVec.toNat_ofNat, Nat.shiftRight_eq_div_pow, Nat.shiftRight_eq_div_pow]
  have hv : v.toNat < 2 ^ 32 := v.isLt
  obtain ⟨r, hr⟩ : ∃ r, 2 ^ 32 = r * 2 ^ (hi + 1 - lo) * 2 ^ lo := ⟨2 ^ (32 - (hi + 1)), by rw [← pow_add, ← pow_add]; congr 1; omega⟩
  have hW : 0 < 2 ^ (hi + 1 - lo) := by positivity
  have hP : 0 < 2 ^ lo := by positivity
  generalize 2 ^ (hi + 1 - lo) = W at *
  generalize 2 ^ lo = P at *
  generalize v.toNat = V at *
  have e1 := Nat.div_add_mod V P
  have e2 := Nat.div_add_mod (V / P) W
  have c1 := Nat.mod_lt V hP
  have c2 := Nat.mod_lt x hW
  generalize hq : V / P = q at *
  generalize hd : q / W = d at *
  have hq1 : q < r * W := by rw [← hq]; exact Nat.div_lt_of_lt_mul (by rw [Nat.mul_comm]; omega)
  have hd1 : d < r := by rw [← hd]; exact Nat.div_lt_of_lt_mul (by rw [Nat.mul_comm]; exact hq1)
  have e3 : V = d * W * P + q % W * P + V % P := by
    calc V = P * q + V % P := e1.symm
      _ = (W * d + q % W) * P + V % P := by rw [e2, Nat.mul_comm]
      _ = d * W * P + q % W * P + V % P := by ring
  have e4 : V - q % W * P + x % W * P = P * (d * W + x % W) + V % P := by
    have : V - q % W * P = d * W * P + V % P := by omega
    rw [this]; ring
  have b1 : (d + 1) * W * P ≤ r * W * P := Nat.mul_le_mul_right _ (Nat.mul_le_mul_right _ hd1)
  have b2 : P * (d * W + x % W) + P ≤ (d + 1) * W * P := by
    have : d * W + x % W + 1 ≤ (d + 1) * W := by rw [Nat.add_mul]; omega
    calc P * (d * W + x % W) + P = (d * W + x % W + 1) * P := by ring
      _ ≤ (d + 1) * W * P := Nat.mul_le_mul_right _ this
  have b3 : P * (d * W + x % W) + V % P < 2 ^ 32 := by
    calc P * (d * W + x % W) + V % P < P * (d * W + x % W) + P := Nat.add_lt_add_left c1 _
      _ ≤ 2 ^ 32 := by rw [hr]; exact b2.trans b1
  rw [e4, Nat.mod_eq_of_lt b3, Nat.mul_add_div hP, Nat.div_eq_of_lt c1, Nat.add_zero, Nat.mul_add_mod_self_right,
    Nat.mod_eq_of_lt c2]

@[simp] theorem with10_fields (hi lo x : Nat) (e : Sqe) :
    (with10 hi lo x e).port = e.port ∧ (with10 hi lo x e).sqid = e.sqid ∧ (with10 hi lo x e).cid = e.cid ∧ (with10 hi lo x e).opc = e.opc ∧
    (with10 hi lo x e).cnt = e.cnt ∧ (with10 hi lo x e).nsid = e.nsid ∧ (with10 hi lo x e).dlen = e.dlen ∧ (with10 hi lo x e).data = e.data :=
  ⟨rfl, rfl, rfl, rfl, rfl, rfl, rfl, rfl⟩

/-- An entry of one feature has its identifier. -/
theorem fidOf_asFeature (fid : Nat) (e : Sqe) (h : fid < 256) : fidOf (asFeature fid e) = fid := by
  unfold fidOf d10 asFeature with10
  rw [bits_setBits _ _ _ _ (by omega) (by omega)]
  exact Nat.mod_eq_of_lt h
/-- An entry of one log page names it. -/
theorem page_asLog (page : Nat) (e : Sqe) (h : page < 256) : d10 (asLog page e) 7 0 = page := by
  unfold d10 asLog with10
  rw [bits_setBits _ _ _ _ (by omega) (by omega)]
  exact Nat.mod_eq_of_lt h

/-- What an admitted entry meets. -/
theorem admits_facts (s : State) (e : Sqe) (h : s.admits e = true) :
    e.sqid = 0 ∧ e.cid < 65536 ∧ adminOpen s e.port = true ∧ s.power.ps ≤ 2 ∧ s.power.entry = none ∧ s.power.exit = none ∧
    s.sec.running = none ∧ (∀ n ∈ s.nss, n.2.used = true → n.2.ready = true) ∧ s.sec.level ≠ 2 ∧ changeRoom s = true ∧ e.psdt = 0 ∧
    s.pair.handTo = none := by
  simp only [State.admits, Bool.and_eq_true, beq_iff_eq, decide_eq_true_eq, Option.isNone_iff_eq_none, List.all_eq_true, Bool.or_eq_true,
    Bool.not_eq_true', bne_iff_ne, ne_eq] at h
  obtain ⟨⟨⟨⟨⟨⟨⟨⟨⟨⟨⟨h1, h2⟩, h0⟩, h3⟩, h4⟩, h5⟩, h6⟩, h7⟩, hm⟩, h8⟩, h9⟩, h10⟩ := h
  exact ⟨h1, h2, h3, h4, h5, h6, h7, fun n hn hu => (h8 n hn).resolve_left (by simp [hu]), h9, h10, h0, hm⟩

theorem nsWaits_ready (s : State) (e : Sqe) (h : ∀ n ∈ s.nss, n.2.used = true → n.2.ready = true) : nsWaits s e = false := by
  have one : ((nsAt s e.nsid).used && !(nsAt s e.nsid).ready) = false := by
    rcases tget_mem ({} : Ns) s.nss e.nsid with hd | hm
    · simp only [nsAt, hd]; rfl
    · have := h _ hm
      simp only [nsAt]
      cases hu : (tget ({} : Ns) s.nss e.nsid).used <;> simp_all
  have any : (s.nss.any fun n => n.2.used && !n.2.ready) = false := by
    simp only [List.any_eq_false, Bool.and_eq_true, Bool.not_eq_true', not_and, Bool.not_eq_false]
    exact fun n hn hu => h n hn hu
  unfold nsWaits
  simp only [one, any]
  split <;> simp

/-- The gate runs an admitted entry at once, at its count within the frame. -/
theorem admin_admits (e : Sqe) (run : State → State) (s : State) (h : s.admits e = true) : admin e run s = run (atCount e.cnt s) := by
  obtain ⟨h1, h2, h3, h4, h5, h6, h7, h8, h9, h10, h0, hm⟩ := admits_facts s e h
  have hd : handing (atCount e.cnt s) e = false := by
    have : (atCount e.cnt s).pair.handTo = none := hm
    simp [handing, this]
  have hw := nsWaits_ready (atCount e.cnt s) e h8
  have ha : adminOpen (atCount e.cnt s) e.port = true := h3
  have hc : changeRoom (atCount e.cnt s) = true := h10
  have p1 : ¬ 3 ≤ (atCount e.cnt s).power.ps := by show ¬ 3 ≤ s.power.ps; omega
  have p2 : (atCount e.cnt s).power.entry = none := h5
  have p3 : (atCount e.cnt s).power.exit = none := h6
  have p4 : (atCount e.cnt s).sec.running = none := h7
  have p5 : (atCount e.cnt s).sec.level ≠ 2 := h9
  unfold admin
  simp [h0, h1, ha, hc, hw, hd, p1, p2, p3, p4, p5]

/-- The gate at another entry with the same place in the queue. -/
theorem admits_congr (s : State) (e f : Sqe) (h1 : f.sqid = e.sqid) (h2 : f.cid = e.cid) (h3 : f.port = e.port)
    (h4 : f.psdt = e.psdt) : s.admits f = s.admits e := by
  unfold State.admits; rw [h1, h2, h3, h4]

/-- A completion of the admin queue with success: it is posted, and nothing else happens. -/
theorem finish_ok (e : Sqe) (dw0 : Nat) (data : List Byte) (s : State) (h1 : e.sqid = 0) (h2 : e.cid < 65536) (h3 : adminOpen s e.port = true) :
    finish e 0 0 dw0 0 data s = { s with cqes := s.cqes ++ [cqeOf e dw0 data] } := by
  have hl : (ctrlAt s e.port).link = true ∧ (ctrlAt s e.port).rdy = true := by
    simp only [adminOpen, Bool.and_eq_true] at h3; exact ⟨h3.1.1.1.1, h3.1.1.1.2⟩
  have : ¬ 65536 ≤ e.cid := by omega
  simp [finish, post, cqAdvance, cqeOf, h1, hl, this]

end Sys2Proof.Laws
end

