-- ==== Sys2Proof/Laws/Clock.lean ====
section
/-! SUPPORT. What every shared operation does to the queue of waiting commands and to time: nothing. One lemma for each
operation; the commands that open a power epoch or a frame (R15, R16) are the only ones that move the clock. -/
open Sys2Proof Sys2Proof.Machine
namespace Sys2Proof.Laws
set_option linter.unusedTactic false
set_option linter.unreachableTactic false
set_option linter.unusedSimpArgs false

@[simp] theorem clock_mk pending time stats misses fronds chans dies blks reqs progs cws chunks stripes accums rebuild seedbed
    nss zones map pages jA jB metas c0 c1 sqs cqs cmds pieces cqes slices spA spB rules b0 b1 bulkNext qps memA memB engines seA
    seB pair sheaf sec events power feat featNext mi tx next drawn heldAdmin jobs :
    State.clock (State.mk pending time stats misses fronds chans dies blks reqs progs cws chunks stripes accums rebuild seedbed nss
      zones map pages jA jB metas c0 c1 sqs cqs cmds pieces cqes slices spA spB rules b0 b1 bulkNext qps memA memB engines seA seB
      pair sheaf sec events power feat featNext mi tx next drawn heldAdmin jobs) = (pending, time.ep, time.fc) :=
  by simp only [State.clock]
@[simp] theorem clock_fold (s : State) : (s.pending, s.time.ep, s.time.fc) = s.clock := by simp only [State.clock]
@[simp] theorem clock_ite (p : Prop) [Decidable p] (a b : State) : (if p then a else b).clock = if p then a.clock else b.clock := by split <;> rfl
@[simp] theorem clock_foldl {α : Type} (f : State → α → State) (l : List α) (s : State) (h : ∀ t a, (f t a).clock = t.clock) :
    (l.foldl f s).clock = s.clock := by
  induction l generalizing s with
  | nil => rfl
  | cons a l ih => rw [List.foldl_cons, ih, h]


@[simp] theorem clock_foldr {α : Type} (f : α → State → State) (l : List α) (s : State) (h : ∀ a t, (f a t).clock = t.clock) :
    (l.foldr f s).clock = s.clock := by
  induction l with
  | nil => rfl
  | cons a l ih => rw [List.foldr_cons, h, ih]
@[simp] theorem clock_ite_snd {α : Type} (p : Prop) [Decidable p] (a b : α × State) :
    (if p then a else b).2.clock = if p then a.2.clock else b.2.clock := by split <;> rfl
theorem clock_getD {o : Option State} {d s : State} (ho : ∀ t, o = some t → t.clock = s.clock) (hd : d.clock = s.clock) :
    (o.getD d).clock = s.clock := by
  cases o with
  | none => exact hd
  | some t => exact ho t rfl

@[simp] theorem clock_updFrond (f : Nat) (g : FrondSt → FrondSt) (s : State) : (updFrond f g s).clock = s.clock := by simp [updFrond]
@[simp] theorem clock_updDie (d : Nat) (g : Die → Die) (s : State) : (updDie d g s).clock = s.clock := by simp [updDie]
@[simp] theorem clock_updChan (c : Nat) (g : Chan → Chan) (s : State) : (updChan c g s).clock = s.clock := by simp [updChan]
@[simp] theorem clock_updBlk (k : Nat) (g : Blk → Blk) (s : State) : (updBlk k g s).clock = s.clock := by simp [updBlk]
@[simp] theorem clock_updReq (n : Nat) (g : Req → Req) (s : State) : (updReq n g s).clock = s.clock := by simp [updReq]
@[simp] theorem clock_updCw (k : Nat) (g : Cw → Cw) (s : State) : (updCw k g s).clock = s.clock := by simp [updCw]
@[simp] theorem clock_updChunk (k : Nat) (g : Chunk → Chunk) (s : State) : (updChunk k g s).clock = s.clock := by simp [updChunk]
@[simp] theorem clock_updStripe (k : Nat) (g : Stripe → Stripe) (s : State) : (updStripe k g s).clock = s.clock := by simp [updStripe]
@[simp] theorem clock_updAccum (k : Nat) (g : Accum → Accum) (s : State) : (updAccum k g s).clock = s.clock := by simp [updAccum]
@[simp] theorem clock_updNs (k : Nat) (g : Ns → Ns) (s : State) : (updNs k g s).clock = s.clock := by simp [updNs]
@[simp] theorem clock_updZone (k : Nat) (g : Zone → Zone) (s : State) : (updZone k g s).clock = s.clock := by simp [updZone]
@[simp] theorem clock_updCmd (k : Nat) (g : Cmd → Cmd) (s : State) : (updCmd k g s).clock = s.clock := by simp [updCmd]
@[simp] theorem clock_updPiece (k : Nat) (g : Piece → Piece) (s : State) : (updPiece k g s).clock = s.clock := by simp [updPiece]
@[simp] theorem clock_updSlice (k : Nat) (g : Slice → Slice) (s : State) : (updSlice k g s).clock = s.clock := by simp [updSlice]
@[simp] theorem clock_updSq (k : Nat) (g : SubQ → SubQ) (s : State) : (updSq k g s).clock = s.clock := by simp [updSq]
@[simp] theorem clock_updCq (k : Nat) (g : ComQ → ComQ) (s : State) : (updCq k g s).clock = s.clock := by simp [updCq]
@[simp] theorem clock_updQp (k : Nat) (g : Qp → Qp) (s : State) : (updQp k g s).clock = s.clock := by simp [updQp]
@[simp] theorem clock_updEng (k : Nat) (g : Engine → Engine) (s : State) : (updEng k g s).clock = s.clock := by simp [updEng]
@[simp] theorem clock_updCtrl (p : Port) (g : Ctrl → Ctrl) (s : State) : (updCtrl p g s).clock = s.clock := by
  unfold updCtrl
  split <;> simp
@[simp] theorem clock_updCard (c : CardId) (g : Card → Card) (s : State) : (updCard c g s).clock = s.clock := by
  unfold updCard
  split <;> simp
@[simp] theorem clock_updMem (c : CardId) (g : CardMem → CardMem) (s : State) : (updMem c g s).clock = s.clock := by
  unfold updMem
  split <;> simp
@[simp] theorem clock_updJ (c : CardId) (g : Journal → Journal) (s : State) : (updJ c g s).clock = s.clock := by
  unfold updJ
  split <;> simp
@[simp] theorem clock_updSp (c : CardId) (g : Spikelet → Spikelet) (s : State) : (updSp c g s).clock = s.clock := by
  unfold updSp
  split <;> simp
@[simp] theorem clock_updBulk (c : CardId) (g : BulkPort → BulkPort) (s : State) : (updBulk c g s).clock = s.clock := by
  unfold updBulk
  split <;> simp
@[simp] theorem clock_updSe (c : CardId) (g : List SeWork → List SeWork) (s : State) : (updSe c g s).clock = s.clock := by
  unfold updSe
  split <;> simp
@[simp] theorem clock_updPeu (p : PeuId) (g : Peu → Peu) (s : State) : (updPeu p g s).clock = s.clock := by
  unfold updPeu
  split <;> simp
@[simp] theorem clock_updRec (c : CardId) (g : Recorder → Recorder) (s : State) : (updRec c g s).clock = s.clock := by
  unfold updRec
  split <;> simp
@[simp] theorem clock_updCulm (p : CulmPort) (g : Culm → Culm) (s : State) : (updCulm p g s).clock = s.clock := by
  unfold updCulm
  split <;> simp
@[simp] theorem clock_updFuse (k : Nat) (g : Fuse → Fuse) (s : State) : (updFuse k g s).clock = s.clock := by simp [updFuse]
@[simp] theorem clock_updTime (g : TimeSt → TimeSt) (s : State) (h : ∀ t, (g t).ep = t.ep ∧ (g t).fc = t.fc) :
    (updTime g s).clock = s.clock := by
  simp only [updTime, State.clock, (h s.time).1, (h s.time).2]
@[simp] theorem clock_setMaster (c : CardId) (s : State) : (setMaster c s).clock = s.clock := by
  unfold setMaster
  repeat' (first | (simp; done) | simp | split | intro _ | (refine (clock_foldl _ _ _ ?_).trans ?_))
@[simp] theorem clock_updStats (g : Stats → Stats) (s : State) : (updStats g s).clock = s.clock := by simp [updStats]
@[simp] theorem clock_updPower (g : Power → Power) (s : State) : (updPower g s).clock = s.clock := by simp [updPower]
@[simp] theorem clock_updSheaf (g : Sheaf → Sheaf) (s : State) : (updSheaf g s).clock = s.clock := by simp [updSheaf]
@[simp] theorem clock_updSec (g : Security → Security) (s : State) : (updSec g s).clock = s.clock := by simp [updSec]
@[simp] theorem clock_updEvents (g : Events → Events) (s : State) : (updEvents g s).clock = s.clock := by simp [updEvents]
@[simp] theorem clock_updRebuild (g : Rebuild → Rebuild) (s : State) : (updRebuild g s).clock = s.clock := by simp [updRebuild]
@[simp] theorem clock_updSeedbed (g : Seedbed → Seedbed) (s : State) : (updSeedbed g s).clock = s.clock := by simp [updSeedbed]
@[simp] theorem clock_updMetas (g : Metas → Metas) (s : State) : (updMetas g s).clock = s.clock := by
  unfold updMetas
  repeat' (first | (simp; done) | simp | split | intro _ | (refine (clock_foldl _ _ _ ?_).trans ?_))
@[simp] theorem clock_updWork (n : Nat) (g : MetaWork → MetaWork) (s : State) : (updWork n g s).clock = s.clock := by
  unfold updWork
  repeat' (first | (simp; done) | simp | split | intro _ | (refine (clock_foldl _ _ _ ?_).trans ?_))
@[simp] theorem clock_updPair (g : PairSt → PairSt) (s : State) : (updPair g s).clock = s.clock := by simp [updPair]
@[simp] theorem clock_updFeat (g : Features → Features) (s : State) : (updFeat g s).clock = s.clock := by simp [updFeat]
@[simp] theorem clock_send (t : Tx) (s : State) : (send t s).clock = s.clock := by simp [send]
@[simp] theorem clock_atCount (n : Nat) (s : State) : (atCount n s).clock = s.clock := by simp [atCount]
@[simp] theorem clock_fresh (s : State) : (fresh s).2.clock = s.clock := by simp [fresh]
theorem clock_fresh_eq {s : State} {x : _} {t : State} (h : fresh s = (x, t)) : t.clock = s.clock := by
  have := clock_fresh s
  rw [h] at this; exact this
@[simp] theorem clock_draw (s : State) : (draw s).2.clock = s.clock := by simp [draw]
theorem clock_draw_eq {s : State} {x : _} {t : State} (h : draw s = (x, t)) : t.clock = s.clock := by
  have := clock_draw s
  rw [h] at this; exact this
@[simp] theorem clock_drawKey (s : State) : (drawKey s).2.clock = s.clock := by simp [drawKey]
theorem clock_drawKey_eq {s : State} {x : _} {t : State} (h : drawKey s = (x, t)) : t.clock = s.clock := by
  have := clock_drawKey s
  rw [h] at this; exact this
@[simp] theorem clock_intake (r : EventRec) (s : State) : (intake r s).clock = s.clock := by simp [intake]
@[simp] theorem clock_event (code cls source ob a0 a1 a2 : Nat) (s : State) : (event code cls source ob a0 a1 a2 s).clock = s.clock := by simp [event]
@[simp] theorem clock_marker (code data : Nat) (s : State) : (marker code data s).clock = s.clock := by simp [marker]
@[simp] theorem clock_aenDeliver (p : Port) (s : State) : (aenDeliver p s).clock = s.clock := by
  unfold aenDeliver
  repeat' (first | (simp; done) | simp | split | intro _ | (refine (clock_foldl _ _ _ ?_).trans ?_))
@[simp] theorem clock_aenPort (p : Port) (ty info page : Nat) (s : State) : (aenPort p ty info page s).clock = s.clock := by simp [aenPort]
@[simp] theorem clock_aenBoth (ty info page : Nat) (s : State) : (aenBoth ty info page s).clock = s.clock := by simp [aenBoth]
@[simp] theorem clock_aenPage (page : Nat) (s : State) : (aenPage page s).clock = s.clock := by simp [aenPage]
@[simp] theorem clock_aenArm (page : Nat) (s : State) : (aenArm page s).clock = s.clock := by simp [aenArm]
@[simp] theorem clock_cqAdvance (q : Cqe) (s : State) : (cqAdvance q s).clock = s.clock := by simp [cqAdvance]
@[simp] theorem clock_post (q : Cqe) (lba nsid : Nat) (s : State) : (post q lba nsid s).clock = s.clock := by simp [post]
@[simp] theorem clock_finish (e : Sqe) (sct sc dw0 dw1 : Nat) (data : List Byte) (s : State) : (finish e sct sc dw0 dw1 data s).clock = s.clock := by simp [finish]
@[simp] theorem clock_ok (e : Sqe) (s : State) : (ok e s).clock = s.clock := by simp [ok]
@[simp] theorem clock_okDw (e : Sqe) (dw0 : Nat) (s : State) : (okDw e dw0 s).clock = s.clock := by simp [okDw]
@[simp] theorem clock_okData (e : Sqe) (d : List Byte) (s : State) : (okData e d s).clock = s.clock := by simp [okData]
@[simp] theorem clock_fail (e : Sqe) (sct sc : Nat) (s : State) : (fail e sct sc s).clock = s.clock := by simp [fail]
@[simp] theorem clock_failDw (e : Sqe) (sct sc dw0 dw1 : Nat) (s : State) : (failDw e sct sc dw0 dw1 s).clock = s.clock := by simp [failDw]
@[simp] theorem clock_failLba (e : Sqe) (sct sc dw0 dw1 lba : Nat) (s : State) : (failLba e sct sc dw0 dw1 lba s).clock = s.clock := by simp [failLba]
@[simp] theorem clock_failWith (e : Sqe) (st : Nat × Nat) (s : State) : (failWith e st s).clock = s.clock := by simp [failWith]
@[simp] theorem clock_change (opc what origin port slice pasid outcome : Nat) (keyId : List Byte) (done : Option Cqe) (s : State) :
    (change opc what origin port slice pasid outcome keyId done s).clock = s.clock := by simp [change]
@[simp] theorem clock_countChange (r : EventRec) (s : State) : (countChange r s).clock = s.clock := by
  unfold countChange
  split <;> simp
@[simp] theorem clock_finishChange (e : Sqe) (what : Nat) (st : Nat × Nat) (dw0 dw1 : Nat) (data : List Byte) (s : State) :
    (finishChange e what st dw0 dw1 data s).clock = s.clock := by simp [finishChange]
@[simp] theorem clock_okChange (e : Sqe) (what dw0 : Nat) (s : State) : (okChange e what dw0 s).clock = s.clock := by simp [okChange]
@[simp] theorem clock_updPool (c : CardId) (p : Nat) (g : PoolSt → PoolSt) (s : State) : (updPool c p g s).clock = s.clock := by simp [updPool]
@[simp] theorem clock_takeBufs (c : CardId) (p n : Nat) (s : State) : (takeBufs c p n s).2.clock = s.clock := by
  unfold takeBufs
  repeat' (first | (simp; done) | simp | split | intro _ | (refine (clock_foldl _ _ _ ?_).trans ?_))
theorem clock_takeBufs_eq {c : CardId} {p : Nat} {n : Nat} {s : State} {x : _} {t : State} (h : takeBufs c p n s = (x, t)) : t.clock = s.clock := by
  have := clock_takeBufs c p n s
  rw [h] at this; exact this
@[simp] theorem clock_decBuf (c : CardId) (p i engine : Nat) (s : State) : (decBuf c p i engine s).clock = s.clock := by
  unfold decBuf
  repeat' (first | (simp; done) | simp | split | intro _ | (refine (clock_foldl _ _ _ ?_).trans ?_))
@[simp] theorem clock_freeBufs (c : CardId) (l : List (Nat × Nat)) (s : State) : (freeBufs c l s).clock = s.clock := by simp [freeBufs]
@[simp] theorem clock_applySettings (s : State) : (applySettings s).clock = s.clock := by simp [applySettings]
@[simp] theorem clock_alive (c : CardId) (n : Nat) (l : Option (BitVec 8)) (x : BitVec 8) (b : Bool) (s : State) :
    (alive c n l x b s).1.clock = s.clock := by simp [alive]
theorem clock_alive_eq {c : CardId} {n : Nat} {l : Option (BitVec 8)} {x : BitVec 8} {b : Bool} {s t : State} {y : Option (BitVec 8)} {z : Bool}
    (h : alive c n l x b s = (t, y, z)) : t.clock = s.clock := by
  have := clock_alive c n l x b s
  rw [h] at this; exact this
@[simp] theorem clock_journal (c : CardId) (r : JRec) (s : State) : (journal c r s).clock = s.clock := by simp [journal]
@[simp] theorem clock_mirror (c : CardId) (cmds : List Nat) (s : State) : (mirror c cmds s).clock = s.clock := by simp [mirror]
@[simp] theorem clock_setMember (m : Nat) (g : Member → Member) (s : State) : (setMember m g s).clock = s.clock := by simp [setMember]
@[simp] theorem clock_toDirty (k : Nat) (s : State) : (toDirty k s).clock = s.clock := by simp [toDirty]
@[simp] theorem clock_rawSpare (f : Nat) (s : State) : (rawSpare f s).2.clock = s.clock := by
  unfold rawSpare
  repeat' (first | (simp; done) | simp | split | intro _ | (refine (clock_foldl _ _ _ ?_).trans ?_))
theorem clock_rawSpare_eq {f : Nat} {s : State} {s' : State} {q1 : Option Nat} (h : rawSpare f s = (q1, s')) : s'.clock = s.clock := by
  have q := clock_rawSpare f s
  rw [h] at q; exact q
@[simp] theorem clock_rawReplacement (die : Nat) (s : State) : (rawReplacement die s).2.clock = s.clock := by
  unfold rawReplacement
  repeat' (first | (simp; done) | (simp [clock_rawSpare_eq ‹rawSpare _ _ = _›]; done) | simp | split | intro _ | (refine (clock_foldl _ _ _ ?_).trans ?_))
theorem clock_rawReplacement_eq {die : Nat} {s : State} {s' : State} {q1 : Option Nat} (h : rawReplacement die s = (q1, s')) : s'.clock = s.clock := by
  have q := clock_rawReplacement die s
  rw [h] at q; exact q
@[simp] theorem clock_grownBad (k why : Nat) (s : State) : (grownBad k why s).clock = s.clock := by simp [grownBad]
@[simp] theorem clock_notBlank (k : Nat) (s : State) : (notBlank k s).clock = s.clock := by
  unfold notBlank
  repeat' (first | (simp; done) | (simp [clock_rawReplacement_eq ‹rawReplacement _ _ = _›]; done) | simp | split | intro _ | (refine (clock_foldl _ _ _ ?_).trans ?_))
theorem clock_drawBlock_eq {f cls n : Nat} {s : State} {x : Option Nat} {t : State} (h : drawBlock f cls n s = (x, t)) :
    t.clock = s.clock := by
  induction n generalizing s with
  | zero => simp only [drawBlock, Prod.mk.injEq] at h; rw [h.2]
  | succ n ih =>
    rw [drawBlock] at h
    repeat' (first | (simp only [Prod.mk.injEq] at h; rw [h.2]; done) | (have h1 := ih h; rw [h1]; simp; done) | (simp only [Prod.mk.injEq] at h; rw [← h.2]; simp; done) | split at h)
@[simp] theorem clock_drawBlock (f cls n : Nat) (s : State) : (drawBlock f cls n s).2.clock = s.clock := clock_drawBlock_eq rfl
theorem clock_takeSpare_eq {f n : Nat} {s : State} {x : Option Nat} {t : State} (h : takeSpare f n s = (x, t)) : t.clock = s.clock := by
  induction n generalizing s with
  | zero => simp only [takeSpare, Prod.mk.injEq] at h; rw [h.2]
  | succ n ih =>
    rw [takeSpare] at h
    split at h
    · rename_i h1
      have q := clock_rawSpare_eq h1
      split at h
      · simp only [Prod.mk.injEq] at h; rw [← h.2, q]
      · rw [ih h]; simp [q]
    · rename_i h1
      simp only [Prod.mk.injEq] at h; rw [← h.2, clock_rawSpare_eq h1]
@[simp] theorem clock_takeSpare (f n : Nat) (s : State) : (takeSpare f n s).2.clock = s.clock := clock_takeSpare_eq rfl
theorem clock_takeReplacement_eq {die n : Nat} {s : State} {x : Option Nat} {t : State} (h : takeReplacement die n s = (x, t)) : t.clock = s.clock := by
  induction n generalizing s with
  | zero => simp only [takeReplacement, Prod.mk.injEq] at h; rw [h.2]
  | succ n ih =>
    rw [takeReplacement] at h
    split at h
    · rename_i h1
      have q := clock_rawReplacement_eq h1
      split at h
      · simp only [Prod.mk.injEq] at h; rw [← h.2, q]
      · rw [ih h]; simp [q]
    · rename_i h1
      simp only [Prod.mk.injEq] at h; rw [← h.2, clock_rawReplacement_eq h1]
@[simp] theorem clock_takeReplacement (die n : Nat) (s : State) : (takeReplacement die n s).2.clock = s.clock := clock_takeReplacement_eq rfl
@[simp] theorem clock_drawMember (f cls : Nat) (s : State) : (drawMember f cls s).2.clock = s.clock := by
  unfold drawMember
  repeat' (first
    | (simp; done)
    | (simp [clock_drawBlock_eq ‹drawBlock _ _ _ _ = _›, clock_takeSpare_eq ‹takeSpare _ _ _ = _›, clock_takeReplacement_eq ‹takeReplacement _ _ _ = _›]; done)
    | (simp [clock_drawBlock_eq ‹drawBlock _ _ _ _ = _›, clock_takeSpare_eq ‹takeSpare _ _ _ = _›]; done)
    | (simp [clock_drawBlock_eq ‹drawBlock _ _ _ _ = _›, clock_takeReplacement_eq ‹takeReplacement _ _ _ = _›]; done)
    | (simp [clock_takeSpare_eq ‹takeSpare _ _ _ = _›, clock_takeReplacement_eq ‹takeReplacement _ _ _ = _›]; done)
    | (simp [clock_drawBlock_eq ‹drawBlock _ _ _ _ = _›]; done)
    | (simp [clock_takeSpare_eq ‹takeSpare _ _ _ = _›]; done)
    | (simp [clock_takeReplacement_eq ‹takeReplacement _ _ _ = _›]; done)
    | simp | split | intro _ | (refine (clock_foldl _ _ _ ?_).trans ?_))
theorem clock_drawMember_eq {f cls : Nat} {s : State} {s' : State} {q1 : Option Nat} (h : drawMember f cls s = (q1, s')) : s'.clock = s.clock := by
  have q := clock_drawMember f cls s
  rw [h] at q; exact q
@[simp] theorem clock_zoneNotice (nsid z : Nat) (s : State) : (zoneNotice nsid z s).clock = s.clock := by simp [zoneNotice]
@[simp] theorem clock_releaseCopy (l : CopyLoc) (s : State) : (releaseCopy l s).clock = s.clock := by
  unfold releaseCopy
  repeat' (first | (simp; done) | simp | split | intro _ | (refine (clock_foldl _ _ _ ?_).trans ?_))
@[simp] theorem clock_releaseCopies (sel : Nat → Bool) (s : State) : (releaseCopies sel s).clock = s.clock := by simp [releaseCopies]
@[simp] theorem clock_deadBlocks (f : Nat) (s : State) : (deadBlocks f s).clock = s.clock := by simp [deadBlocks]
@[simp] theorem clock_deadBlocksAll (s : State) : (deadBlocksAll s).clock = s.clock := by simp [deadBlocksAll]
@[simp] theorem clock_queueOp (k : Nat) (o : LongOp) (s : State) : (queueOp k o s).clock = s.clock := by
  unfold queueOp
  repeat' (first | (simp; done) | simp | split | intro _ | (refine (clock_foldl _ _ _ ?_).trans ?_))
@[simp] theorem clock_dropOps (k : Nat) (s : State) : (dropOps k s).clock = s.clock := by simp [dropOps]
@[simp] theorem clock_freeExt (card : CardId) (s : State) : (freeExt card s).clock = s.clock := by simp [freeExt]
@[simp] theorem clock_takeExt (card : CardId) (s : State) : (takeExt card s).clock = s.clock := by
  unfold takeExt
  repeat' (first | (simp; done) | simp | split | intro _ | (refine (clock_foldl _ _ _ ?_).trans ?_))
@[simp] theorem clock_dropAccum (slot : Nat) (s : State) : (dropAccum slot s).clock = s.clock := by
  unfold dropAccum
  repeat' (first | (simp; done) | simp | split | intro _ | (refine (clock_foldl _ _ _ ?_).trans ?_))
@[simp] theorem clock_healthRise (s0 s : State) : (healthRise s0 s).clock = s.clock := by simp [healthRise]
@[simp] theorem clock_frondState (f st : Nat) (s : State) : (frondState f st s).clock = s.clock := by simp [frondState]
@[simp] theorem clock_unqueue (sel : Nat → Bool) (s : State) : (unqueue sel s).clock = s.clock := by
  unfold unqueue
  repeat' (first | (simp; done) | simp | split | intro _ | (refine (clock_foldl _ _ _ ?_).trans ?_))
@[simp] theorem clock_rebuildIdle (s : State) : (rebuildIdle s).clock = s.clock := by
  unfold rebuildIdle
  repeat' (first | (simp; done) | simp | split | intro _ | (refine (clock_foldl _ _ _ ?_).trans ?_))
@[simp] theorem clock_keepData (slot : Nat) (s : State) : (keepData slot s).clock = s.clock := by
  unfold keepData
  repeat' (first | (simp; done) | simp | split | intro _ | (refine (clock_foldl _ _ _ ?_).trans ?_))
@[simp] theorem clock_endRefresh (f : Nat) (s : State) : (endRefresh f s).clock = s.clock := by
  unfold endRefresh
  repeat' (first | (simp; done) | simp | split | intro _ | (refine (clock_foldl _ _ _ ?_).trans ?_))
@[simp] theorem clock_dropRefresh (k : Nat) (s : State) : (dropRefresh k s).clock = s.clock := by
  unfold dropRefresh
  repeat' (first | (simp; done) | simp | split | intro _ | (refine (clock_foldl _ _ _ ?_).trans ?_))
@[simp] theorem clock_dropStaged (slot : Nat) (s : State) : (dropStaged slot s).clock = s.clock := by
  unfold dropStaged
  repeat' (first | (simp; done) | simp | split | intro _ | (refine (clock_foldl _ _ _ ?_).trans ?_))
@[simp] theorem clock_freeStripe (slot : Nat) (s : State) : (freeStripe slot s).clock = s.clock := by
  unfold freeStripe
  repeat' (first | (simp; done) | simp | split | intro _ | (refine (clock_foldl _ _ _ ?_).trans ?_))
@[simp] theorem clock_addReq (r : Req) (s : State) : (addReq r s).clock = s.clock := by simp [addReq]
@[simp] theorem clock_addReqBuf (r : Req) (s : State) : (addReqBuf r s).clock = s.clock := by
  unfold addReqBuf
  repeat' (first | (simp; done) | (simp [clock_fresh_eq ‹fresh _ = _›, clock_takeBufs_eq ‹takeBufs _ _ _ _ = _›]; done) | (simp [clock_fresh_eq ‹fresh _ = _›]; done) | (simp [clock_takeBufs_eq ‹takeBufs _ _ _ _ = _›]; done) | simp | split | intro _ | (refine (clock_foldl _ _ _ ?_).trans ?_))
@[simp] theorem clock_freeReqBuf (n : Nat) (s : State) : (freeReqBuf n s).clock = s.clock := by
  unfold freeReqBuf
  repeat' (first | (simp; done) | simp | split | intro _ | (refine (clock_foldl _ _ _ ?_).trans ?_))
@[simp] theorem clock_retryHeld (s : State) : (retryHeld s).clock = s.clock := by
  unfold retryHeld
  repeat' (first | (simp; done) | (simp [clock_takeBufs_eq ‹takeBufs _ _ _ _ = _›]; done) | simp | split | intro _ | (refine (clock_foldl _ _ _ ?_).trans ?_))
@[simp] theorem clock_placeCw (ck : Nat) (s : State) : (placeCw ck s).clock = s.clock := by
  unfold placeCw
  repeat' (first | (simp; done) | simp | split | intro _ | (refine (clock_foldl _ _ _ ?_).trans ?_))
@[simp] theorem clock_sendCw (ck : Nat) (s : State) : (sendCw ck s).clock = s.clock := by simp [sendCw]
@[simp] theorem clock_recopy (ck idx : Nat) (s : State) : (recopy ck idx s).clock = s.clock := by
  unfold recopy
  repeat' (first | (simp; done) | simp | split | intro _ | (refine (clock_foldl _ _ _ ?_).trans ?_))
@[simp] theorem clock_fillBlocks (nsid z : Nat) (blocks : List Nat) (s : State) : (fillBlocks nsid z blocks s).clock = s.clock := by
  unfold fillBlocks
  repeat' (first | (simp; done) | simp | split | intro _ | (refine (clock_foldl _ _ _ ?_).trans ?_))
@[simp] theorem clock_addClaim (k dp t : Nat) (s : State) : (addClaim k dp t s).clock = s.clock := by
  unfold addClaim
  repeat' (first | (simp; done) | simp | split | intro _ | (refine (clock_foldl _ _ _ ?_).trans ?_))
@[simp] theorem clock_useClaim (k dp t : Nat) (s : State) : (useClaim k dp t s).clock = s.clock := by
  unfold useClaim
  repeat' (first | (simp; done) | simp | split | intro _ | (refine (clock_foldl _ _ _ ?_).trans ?_))
@[simp] theorem clock_claimedFrame (k dp : Nat) (s : State) : (claimedFrame k dp s).2.clock = s.clock := by
  unfold claimedFrame
  repeat' (first | (simp; done) | simp | split | intro _ | (refine (clock_foldl _ _ _ ?_).trans ?_))
theorem clock_claimedFrame_eq {k dp : Nat} {s : State} {s' : State} {q1 : Nat} (h : claimedFrame k dp s = (q1, s')) : s'.clock = s.clock := by
  have q := clock_claimedFrame k dp s
  rw [h] at q; exact q
@[simp] theorem clock_pieceReq (p : Nat) (die block wl plane page mask : Nat) (slc : Bool) (s : State) : (pieceReq p die block wl plane page mask slc s).2.clock = s.clock := by
  unfold pieceReq
  repeat' (first | (simp; done) | (simp [clock_claimedFrame_eq ‹claimedFrame _ _ _ = _›]; done) | simp | split | intro _ | (refine (clock_foldl _ _ _ ?_).trans ?_))
theorem clock_pieceReq_eq {p : Nat} {die block wl plane page mask : Nat} {slc : Bool} {s : State} {s' : State} {q1 : Req} (h : pieceReq p die block wl plane page mask slc s = (q1, s')) : s'.clock = s.clock := by
  have q := clock_pieceReq p die block wl plane page mask slc s
  rw [h] at q; exact q
@[simp] theorem clock_sendPiece (p : Nat) (die block wl plane page mask : Nat) (slc : Bool) (s : State) : (sendPiece p die block wl plane page mask slc s).clock = s.clock := by
  unfold sendPiece
  repeat' (first | (simp; done) | (simp [clock_pieceReq_eq ‹pieceReq _ _ _ _ _ _ _ _ _ = _›]; done) | simp | split | intro _ | (refine (clock_foldl _ _ _ ?_).trans ?_))
theorem clock_sendCopy_some {p : Nat} {s t : State} (h : sendCopy p s = some t) : t.clock = s.clock := by
  simp only [sendCopy, Option.map_eq_some_iff] at h
  obtain ⟨l, _, rfl⟩ := h
  simp
@[simp] theorem clock_failPiece (p why : Nat) (s : State) : (failPiece p why s).clock = s.clock := by simp [failPiece]
@[simp] theorem clock_askMembers (p : Nat) (ms : List Nat) (s : State) : (askMembers p ms s).clock = s.clock := by
  unfold askMembers
  repeat' (first | (simp; done) | (simp [clock_pieceReq_eq ‹pieceReq _ _ _ _ _ _ _ _ _ = _›]; done) | simp | split | intro _ | (refine (clock_foldl _ _ _ ?_).trans ?_))
@[simp] theorem clock_failRow (p : Nat) (s : State) : (failRow p s).clock = s.clock := by simp [failRow]
@[simp] theorem clock_readAround (p : Nat) (s : State) : (readAround p s).clock = s.clock := by
  unfold readAround
  repeat' (first | (simp; done) | simp | split | intro _ | (refine (clock_foldl _ _ _ ?_).trans ?_))
theorem clock_replaceMember_some {p m : Nat} {s t : State} (h : replaceMember p m s = some t) : t.clock = s.clock := by
  unfold replaceMember at h
  simp only [Option.map_eq_some_iff] at h
  obtain ⟨l, _, rfl⟩ := h
  split <;> simp
@[simp] theorem clock_freeMembers (p : Nat) (s : State) : (freeMembers p s).clock = s.clock := by
  unfold freeMembers
  repeat' (first | (simp; done) | simp | split | intro _ | (refine (clock_foldl _ _ _ ?_).trans ?_))
@[simp] theorem clock_placePiece (p : Nat) (s : State) : (placePiece p s).clock = s.clock := by
  unfold placePiece
  repeat' (first | (simp; done) | (simp [clock_takeBufs_eq ‹takeBufs _ _ _ _ = _›, clock_sendCopy_some ‹sendCopy _ _ = some _›]; done) | (simp [clock_takeBufs_eq ‹takeBufs _ _ _ _ = _›]; done) | (simp [clock_sendCopy_some ‹sendCopy _ _ = some _›]; done) | simp | split | intro _ | (refine (clock_foldl _ _ _ ?_).trans ?_))
@[simp] theorem clock_issuePiece (p : Nat) (s : State) : (issuePiece p s).clock = s.clock := by
  unfold issuePiece
  repeat' (first | (simp; done) | simp | split | intro _ | (refine (clock_foldl _ _ _ ?_).trans ?_))
@[simp] theorem clock_setDeficit (sl : Nat) (c : CardId) (n : Nat) (s : State) : (setDeficit sl c n s).clock = s.clock := by
  unfold setDeficit
  repeat' (first | (simp; done) | simp | split | intro _ | (refine (clock_foldl _ _ _ ?_).trans ?_))
@[simp] theorem clock_goTurn (c : CardId) (t : Turn) (s : State) : (goTurn c t s).clock = s.clock := by
  unfold goTurn
  repeat' (first | (simp; done) | simp | split | intro _ | (refine (clock_foldl _ _ _ ?_).trans ?_))
@[simp] theorem clock_drrGo (c : CardId) (v : Svc) (n : Nat) (s : State) : (drrGo c v n s).clock = s.clock := by
  induction n generalizing s with
  | zero => simp [drrGo]
  | succ n ih =>
    rw [drrGo]
    repeat' (first | (simp [ih]; done) | simp [ih] | split)
@[simp] theorem clock_drrCard (c : CardId) (s : State) : (drrCard c s).clock = s.clock := by
  unfold drrCard
  repeat' (first | (simp; done) | simp | split | intro _ | (refine (clock_foldl _ _ _ ?_).trans ?_))
@[simp] theorem clock_drr (s : State) : (drr s).clock = s.clock := by
  unfold drr
  repeat' (first | (simp; done) | simp | split | intro _ | (refine (clock_foldl _ _ _ ?_).trans ?_))
@[simp] theorem clock_startRead (k : Nat) (lbas : List Nat) (s : State) : (startRead k lbas s).clock = s.clock := by simp [startRead]
@[simp] theorem clock_sendPageRead (k pk : Nat) (x : Nat × Nat × Nat) (s : State) : (sendPageRead k pk x s).clock = s.clock := by
  unfold sendPageRead
  repeat' (first | (simp; done) | (simp [clock_claimedFrame_eq ‹claimedFrame _ _ _ = _›]; done) | simp | split | intro _ | (refine (clock_foldl _ _ _ ?_).trans ?_))
@[simp] theorem clock_askPage (k pk : Nat) (s : State) : (askPage k pk s).clock = s.clock := by
  unfold askPage
  repeat' (first | (simp; done) | simp | split | intro _ | (refine (clock_foldl _ _ _ ?_).trans ?_))
@[simp] theorem clock_touchPages (nsid lba nlb : Nat) (s : State) : (touchPages nsid lba nlb s).clock = s.clock := by
  unfold touchPages
  repeat' (first | (simp; done) | simp | split | intro _ | (refine (clock_foldl _ _ _ ?_).trans ?_))
@[simp] theorem clock_proceedRead (k : Nat) (s : State) : (proceedRead k s).clock = s.clock := by
  unfold proceedRead
  repeat' (first | (simp; done) | simp | split | intro _ | (refine (clock_foldl _ _ _ ?_).trans ?_))
@[simp] theorem clock_dropReqs (sel : Req → Bool) (s : State) : (dropReqs sel s).clock = s.clock := by
  unfold dropReqs
  repeat' (first | (simp; done) | simp | split | intro _ | (refine (clock_foldl _ _ _ ?_).trans ?_))
@[simp] theorem clock_stopUnits (k : Nat) (pieces : List Nat) (s : State) : (stopUnits k pieces s).clock = s.clock := by
  unfold stopUnits
  repeat' (first | (simp; done) | simp | split | intro _ | (refine (clock_foldl _ _ _ ?_).trans ?_))
@[simp] theorem clock_dropCmd (k : Nat) (s : State) : (dropCmd k s).clock = s.clock := by
  unfold dropCmd
  repeat' (first | (simp; done) | simp | split | intro _ | (refine (clock_foldl _ _ _ ?_).trans ?_))
@[simp] theorem clock_lateMiss (k late : Nat) (s : State) : (lateMiss k late s).clock = s.clock := by simp [lateMiss]
@[simp] theorem clock_complete (k : Nat) (st : Nat × Nat) (dw0 dw1 : Nat) (data : List Byte) (s : State) :
    (complete k st dw0 dw1 data s).clock = s.clock := by
  unfold complete
  repeat' (first | (simp; done) | simp | split | intro _ | (refine (clock_foldl _ _ _ ?_).trans ?_))
@[simp] theorem clock_checkPicks (cls : Nat) (s : State) : (checkPicks cls s).clock = s.clock := by
  unfold checkPicks
  repeat' (first | (simp; done) | (simp [clock_drawBlock_eq ‹drawBlock _ _ _ _ = _›]; done) | simp | split | intro _ | (refine (clock_foldl _ _ _ ?_).trans ?_))
@[simp] theorem clock_raiseErase (f : Nat) (s : State) : (raiseErase f s).clock = s.clock := by
  unfold raiseErase
  repeat' (first | (simp; done) | simp | split | intro _ | (refine (clock_foldl _ _ _ ?_).trans ?_))
@[simp] theorem clock_allocStripe (slot nsid : Nat) (zone : Option Nat) (cls : Nat) (s : State) :
    (allocStripe slot nsid zone cls s).clock = s.clock := by
  unfold allocStripe
  repeat' (first | (simp; done) | simp | split | intro _ | (refine (clock_foldl _ _ _ ?_).trans ?_))
theorem clock_tryAlloc_done {nsid : Nat} {z : Option Nat} {cls : Nat} {r : Bool} {s t : State} (h : tryAlloc nsid z cls r s = .done t) :
    t.clock = s.clock := by
  unfold tryAlloc at h
  dsimp only at h
  repeat' (first | (simp at h; done) | (simp at h; subst h; simp; done) | split at h)
theorem clock_tryAlloc_wait {nsid : Nat} {z : Option Nat} {cls : Nat} {r : Bool} {f : Nat} {s t : State} (h : tryAlloc nsid z cls r s = .wait f t) :
    t.clock = s.clock := by
  unfold tryAlloc at h
  dsimp only at h
  repeat' (first | (simp at h; done) | (simp at h; obtain ⟨_, h⟩ := h; subst h; simp; done) | split at h)
theorem clock_openZone_wait {nsid z cls : Nat} {e : Bool} {c : Option Nat} {f : Nat} {s t : State} (h : openZone nsid z cls e c s = .wait f t) :
    t.clock = s.clock := by
  unfold openZone at h
  split at h
  · simp at h
  · split at h
    · simp at h
    · exact clock_tryAlloc_wait h
theorem clock_openZone_done {nsid z cls : Nat} {e : Bool} {c : Option Nat} {s t : State} (h : openZone nsid z cls e c s = .done t) :
    t.clock = s.clock := by
  unfold openZone at h
  split at h
  · simp at h
  · split at h
    · rename_i u hu
      simp only [OpenRes.done.injEq] at h
      rw [← h, ← clock_tryAlloc_done hu]; simp
    · exact clock_tryAlloc_done h
@[simp] theorem clock_zoneResetNow (nsid z : Nat) (cmd : Option Nat) (s : State) : (zoneResetNow nsid z cmd s).clock = s.clock := by simp [zoneResetNow]
@[simp] theorem clock_sendParity (slot row : Nat) (qs : List Nat) (s : State) : (sendParity slot row qs s).clock = s.clock := by simp [sendParity]
@[simp] theorem clock_chunkCheck (h : Nat) (s : State) : (chunkCheck h s).clock = s.clock := by simp [chunkCheck]
@[simp] theorem clock_rowClose (slot : Nat) (s : State) : (rowClose slot s).clock = s.clock := by
  unfold rowClose
  repeat' (first | (simp; done) | simp | split | intro _ | (refine (clock_foldl _ _ _ ?_).trans ?_))
@[simp] theorem clock_endRows (slot wp : Nat) (s : State) : (endRows slot wp s).clock = s.clock := by
  unfold endRows
  repeat' (first | (simp; done) | simp | split | intro _ | (refine (clock_foldl _ _ _ ?_).trans ?_))
@[simp] theorem clock_finishStripe (slot wp : Nat) (s : State) : (finishStripe slot wp s).clock = s.clock := by
  unfold finishStripe
  repeat' (first | (simp; done) | simp | split | intro _ | (refine (clock_foldl _ _ _ ?_).trans ?_))
@[simp] theorem clock_finishZone (nsid z : Nat) (cmd : Option Nat) (s : State) : (finishZone nsid z cmd s).clock = s.clock := by
  unfold finishZone
  repeat' (first | (simp; done) | simp | split | intro _ | (refine (clock_foldl _ _ _ ?_).trans ?_))
@[simp] theorem clock_finishDone (zk : Nat) (old : Zone) (s : State) : (finishDone zk old s).clock = s.clock := by
  unfold finishDone
  repeat' (first | (simp; done) | simp | split | intro _ | (refine (clock_foldl _ _ _ ?_).trans ?_))
@[simp] theorem clock_zoneReadOnly (nsid z : Nat) (s : State) : (zoneReadOnly nsid z s).clock = s.clock := by
  unfold zoneReadOnly
  repeat' (first | (simp; done) | simp | split | intro _ | (refine (clock_foldl _ _ _ ?_).trans ?_))
@[simp] theorem clock_stripeReadOnly (slot : Nat) (s : State) : (stripeReadOnly slot s).clock = s.clock := by
  unfold stripeReadOnly
  repeat' (first | (simp; done) | simp | split | intro _ | (refine (clock_foldl _ _ _ ?_).trans ?_))
@[simp] theorem clock_rowsLost (slot : Nat) (rows : List Nat) (s : State) : (rowsLost slot rows s).clock = s.clock := by simp [rowsLost]
@[simp] theorem clock_closeZone (nsid z : Nat) (cmd : Option Nat) (s : State) : (closeZone nsid z cmd s).clock = s.clock := by simp [closeZone]
@[simp] theorem clock_closeZones (sel : Nat → Bool) (cmd : Option Nat) (s : State) : (closeZones sel cmd s).clock = s.clock := by
  unfold closeZones
  repeat' (first | (simp; done) | simp | split | intro _ | (refine (clock_foldl _ _ _ ?_).trans ?_))
@[simp] theorem clock_offlineZone (nsid z : Nat) (cmd : Option Nat) (s : State) : (offlineZone nsid z cmd s).clock = s.clock := by
  unfold offlineZone
  repeat' (first | (simp; done) | simp | split | intro _ | (refine (clock_foldl _ _ _ ?_).trans ?_))
@[simp] theorem clock_eraseNs (nsid : Nat) (cmd : Option Nat) (s : State) : (eraseNs nsid cmd s).clock = s.clock := by simp [eraseNs]
@[simp] theorem clock_nsChanged (p : Port) (nsid : Nat) (s : State) : (nsChanged p nsid s).clock = s.clock := by simp [nsChanged]
@[simp] theorem clock_nsNotice (nsid : Nat) (s : State) : (nsNotice nsid s).clock = s.clock := by simp [nsNotice]
@[simp] theorem clock_removeNs (nsid : Nat) (s : State) : (removeNs nsid s).clock = s.clock := by
  unfold removeNs
  repeat' (first | (simp; done) | simp | split | intro _ | (refine (clock_foldl _ _ _ ?_).trans ?_))
@[simp] theorem clock_zoneAct (k : Nat) (zs : List Nat) (f : Nat → State → State) (s : State) (hf : ∀ y0 y1, (f y0 y1).clock = y1.clock) :
    (zoneAct k zs f s).clock = s.clock := by simp [zoneAct, hf]
@[simp] theorem clock_zoneResetCmd (k : Nat) (s : State) : (zoneResetCmd k s).clock = s.clock := by simp [zoneResetCmd]
@[simp] theorem clock_zoneFinishCmd (k : Nat) (s : State) : (zoneFinishCmd k s).clock = s.clock := by simp [zoneFinishCmd]
@[simp] theorem clock_wake (s : State) : (wake s).clock = s.clock := by
  unfold wake
  refine (clock_foldl _ _ _ ?_).trans ((clock_foldl _ _ _ ?_).trans ((clock_foldl _ _ _ ?_).trans (clock_foldl _ _ _ ?_)))
  · intro t a
    rcases a.2.waiter with _ | ⟨p, cid, opc⟩
    · rfl
    · simp only
      split <;> simp
  · intro t a
    rcases a.2.deleting with _ | ⟨p, cid⟩
    · rfl
    · simp only
      split
      · rfl
      · split <;> simp
  · intro t a
    simp
  · intro t a
    split
    · simp
    · simp
    · split <;> simp
    · rfl
@[simp] theorem clock_finishCmd (k : Nat) (st : Nat × Nat) (dw0 dw1 : Nat) (data : List Byte) (s : State) :
    (finishCmd k st dw0 dw1 data s).clock = s.clock := by simp [finishCmd]
@[simp] theorem clock_discard (k : Nat) (s : State) : (Machine.discard k s).clock = s.clock := by
  unfold Machine.discard
  repeat' (first | (simp; done) | simp | split | intro _ | (refine (clock_foldl _ _ _ ?_).trans ?_))
@[simp] theorem clock_endWrite (k : Nat) (s : State) : (endWrite k s).clock = s.clock := by
  unfold endWrite
  repeat' (first | (simp; done) | simp | split | intro _ | (refine (clock_foldl _ _ _ ?_).trans ?_))
theorem clock_foldl_snd {α β : Type} (f : β × State → α → β × State) (l : List α) (x : β × State) (h : ∀ t a, (f t a).2.clock = t.2.clock) :
    (l.foldl f x).2.clock = x.2.clock := by
  induction l generalizing x with
  | nil => rfl
  | cons a l ih => rw [List.foldl_cons, ih, h]
@[simp] theorem clock_writeDurable (k : Nat) (s : State) : (writeDurable k s).clock = s.clock := by
  unfold writeDurable
  repeat' (first | (simp; done) | (refine (clock_foldl_snd _ _ _ ?_).trans ?_ <;> simp; done) | simp | split)
@[simp] theorem clock_dropPack (cks : List Nat) (s : State) : (dropPack cks s).clock = s.clock := by simp [dropPack]
@[simp] theorem clock_writeAnew (ck : Nat) (w : Cw) (s : State) : (writeAnew ck w s).clock = s.clock := by
  unfold writeAnew
  repeat' (first | (simp; done) | simp | split | intro _ | (refine (clock_foldl _ _ _ ?_).trans ?_))
@[simp] theorem clock_reparity (ck : Nat) (old new : Cw) (s : State) : (reparity ck old new s).clock = s.clock := by
  unfold reparity
  repeat' (first | (simp; done) | simp | split | intro _ | (refine (clock_foldl _ _ _ ?_).trans ?_))
@[simp] theorem clock_putPadding (ck : Nat) (s : State) : (putPadding ck s).clock = s.clock := by
  unfold putPadding
  repeat' (first | (simp; done) | simp | split | intro _ | (refine (clock_foldl _ _ _ ?_).trans ?_))
@[simp] theorem clock_takeBack (ck : Nat) (s : State) : (takeBack ck s).clock = s.clock := by simp [takeBack]
@[simp] theorem clock_settleBy (stays : Cw → Bool) (k : Nat) (s : State) : (settleBy stays k s).clock = s.clock := by
  unfold settleBy
  repeat' (first | (simp; done) | simp | split | intro _ | (refine (clock_foldl _ _ _ ?_).trans ?_))
@[simp] theorem clock_settleWrite (k : Nat) (s : State) : (settleWrite k s).clock = s.clock := by simp [settleWrite]
@[simp] theorem clock_failCmd (k : Nat) (st : Nat × Nat) (dw0 dw1 : Nat) (s : State) : (failCmd k st dw0 dw1 s).clock = s.clock := by simp [failCmd]
theorem clock_openHead_done {nsid cls : Nat} {gc : Bool} {s t : State} (h : openHead nsid cls gc s = .done t) : t.clock = s.clock := by
  unfold openHead at h
  split at h
  · simp at h
  · split at h
    · rename_i u hu
      simp only at h
      split at h
      · simp only [OpenRes.done.injEq] at h
        rw [← h, ← clock_tryAlloc_done hu]; simp
      · simp at h
    · exact clock_tryAlloc_done h
theorem clock_takeOffsets_eq {nsid cls : Nat} {gc : Bool} (n : Nat) {acc : List Nat} {s : State} {x : List Nat} {y : Option Nat} {t : State}
    (h : takeOffsets nsid cls gc n acc s = (x, y, t)) : t.clock = s.clock := by
  induction n generalizing acc s with
  | zero => simp only [takeOffsets, Prod.mk.injEq] at h; rw [h.2.2]
  | succ n ih =>
    rw [takeOffsets] at h
    simp only at h
    split at h
    · have h1 := ih h
      rw [h1]; split <;> simp
    · split at h
      · rename_i u hu
        have h2 := clock_openHead_done hu
        split at h
        · have h1 := ih h
          rw [h1, ← h2]; split <;> simp
        · simp only [Prod.mk.injEq] at h
          rw [← h.2.2, h2]
      all_goals (simp only [Prod.mk.injEq] at h; rw [h.2.2])
@[simp] theorem clock_takeOffsets (nsid cls : Nat) (gc : Bool) (n : Nat) (acc : List Nat) (s : State) :
    (takeOffsets nsid cls gc n acc s).2.2.clock = s.clock := clock_takeOffsets_eq n rfl
@[simp] theorem clock_startScan (k : Nat) (s : State) : (startScan k s).clock = s.clock := by simp [startScan]
@[simp] theorem clock_settleFailed (s : State) : (settleFailed s).clock = s.clock := by simp [settleFailed]
@[simp] theorem clock_addWork (of : MetaOf) (size : Nat) (fronds : List Nat) (s : State) : (addWork of size fronds s).clock = s.clock := by
  unfold addWork
  repeat' (first | (simp; done) | (simp [clock_fresh_eq ‹fresh _ = _›]; done) | simp | split | intro _ | (refine (clock_foldl _ _ _ ?_).trans ?_))
@[simp] theorem clock_dropWork (n : Nat) (s : State) : (dropWork n s).clock = s.clock := by
  unfold dropWork
  repeat' (first | (simp; done) | simp | split | intro _ | (refine (clock_foldl _ _ _ ?_).trans ?_))
@[simp] theorem clock_packRecs (c : CardId) (n : Nat) (s : State) : (packRecs c n s).clock = s.clock := by
  induction n generalizing s with
  | zero => rfl
  | succ n ih =>
    rw [packRecs]
    split <;> simp [ih]
@[simp] theorem clock_packJournal (c : CardId) (s : State) : (packJournal c s).clock = s.clock := by
  unfold packJournal
  repeat' (first | (simp; done) | simp | split | intro _ | (refine (clock_foldl _ _ _ ?_).trans ?_))
@[simp] theorem clock_packMembers (f : Nat) (s : State) : (packMembers f s).clock = s.clock := by
  unfold packMembers
  repeat' (first | (simp; done) | simp | split | intro _ | (refine (clock_foldl _ _ _ ?_).trans ?_))
@[simp] theorem clock_takeUnwiped (f : Nat) (s : State) : (takeUnwiped f s).clock = s.clock := by
  unfold takeUnwiped
  repeat' (first | (simp; done) | simp | split | intro _ | (refine (clock_foldl _ _ _ ?_).trans ?_))
@[simp] theorem clock_packErases (f : Nat) (s : State) : (packErases f s).clock = s.clock := by
  unfold packErases
  repeat' (first | (simp; done) | simp | split | intro _ | (refine (clock_foldl _ _ _ ?_).trans ?_))
@[simp] theorem clock_packMetas (f : Nat) (s : State) : (packMetas f s).clock = s.clock := by
  unfold packMetas
  repeat' (first | (simp; done) | simp | split | intro _ | (refine (clock_foldl _ _ _ ?_).trans ?_))
@[simp] theorem clock_writePage (k : Nat) (s : State) : (writePage k s).clock = s.clock := by
  unfold writePage
  repeat' (first | (simp; done) | simp | split | intro _ | (refine (clock_foldl _ _ _ ?_).trans ?_))
@[simp] theorem clock_uncarry (q : Nat) (s : State) : (uncarry q s).clock = s.clock := by
  unfold uncarry
  repeat' (first | (simp; done) | simp | split | intro _ | (refine (clock_foldl _ _ _ ?_).trans ?_))
@[simp] theorem clock_metasGone (f : Nat) (s : State) : (metasGone f s).clock = s.clock := by
  unfold metasGone
  repeat' (first | (simp; done) | simp | split | intro _ | (refine (clock_foldl _ _ _ ?_).trans ?_))
@[simp] theorem clock_readRow (k wl : Nat) (s : State) : (readRow k wl s).clock = s.clock := by
  unfold readRow
  repeat' (first | (simp; done) | simp | split | intro _ | (refine (clock_foldl _ _ _ ?_).trans ?_))
@[simp] theorem clock_metaDone (k : Nat) (s : State) : (metaDone k s).clock = s.clock := by
  unfold metaDone
  repeat' (first | (simp; done) | simp | split | intro _ | (refine (clock_foldl _ _ _ ?_).trans ?_))
@[simp] theorem clock_rewriteFrom (k wl : Nat) (s : State) : (rewriteFrom k wl s).clock = s.clock := by
  unfold rewriteFrom
  repeat' (first | (simp; done) | simp | split | intro _ | (refine (clock_foldl _ _ _ ?_).trans ?_))
@[simp] theorem clock_rewriteTick (f : Nat) (s : State) : (rewriteTick f s).clock = s.clock := by
  unfold rewriteTick
  repeat' (first | (simp; done) | simp | split | intro _ | (refine (clock_foldl _ _ _ ?_).trans ?_))
@[simp] theorem clock_movePlaces (k wl : Nat) (die block row : Nat) (s : State) : (movePlaces k wl die block row s).clock = s.clock := by
  unfold movePlaces
  repeat' (first | (simp; done) | simp | split | intro _ | (refine (clock_foldl _ _ _ ?_).trans ?_))
@[simp] theorem clock_metaPass (q : Nat) (p : Prog) (s : State) : (metaPass q p s).clock = s.clock := by
  unfold metaPass
  repeat' (first | (simp; done) | simp | split | intro _ | (refine (clock_foldl _ _ _ ?_).trans ?_))
@[simp] theorem clock_sendAgain (n : Nat) (s : State) : (sendAgain n s).clock = s.clock := by simp [sendAgain]
@[simp] theorem clock_otherRoute (p n : Nat) (last : State → State) (s : State) (hlast : ∀ t, (last t).clock = t.clock) :
    (otherRoute p n last s).clock = s.clock := by
  unfold otherRoute
  simp only
  split
  · rename_i u hu
    split at hu
    · simp [clock_sendCopy_some hu]
    · split at hu
      · simp [clock_replaceMember_some hu]
      · split at hu <;> simp at hu
        subst hu; simp
  · exact hlast s
@[simp] theorem clock_noDie (n : Nat) (s : State) : (noDie n s).clock = s.clock := by
  unfold noDie
  split <;> simp
@[simp] theorem clock_notPlaced (n : Nat) (s : State) : (notPlaced n s).clock = s.clock := by
  unfold notPlaced
  repeat' (first | (simp; done) | simp | split | intro _ | (refine (clock_foldl _ _ _ ?_).trans ?_))
@[simp] theorem clock_insertRead (n cnt : Nat) (w : Window) (s : State) : (insertRead n cnt w s).clock = s.clock := by
  unfold insertRead
  repeat' (first | (simp; done) | simp | split | intro _ | (refine (clock_foldl _ _ _ ?_).trans ?_))
@[simp] theorem clock_issueSense (n : Nat) (s : State) : (issueSense n s).clock = s.clock := by simp [issueSense]
theorem clock_openHeadBlock_eq {die : Nat} (n : Nat) {s : State} {x : Option Nat} {t : State} (h : openHeadBlock die n s = (x, t)) :
    t.clock = s.clock := by
  induction n generalizing s with
  | zero => simp only [openHeadBlock, Prod.mk.injEq] at h; rw [h.2]
  | succ n ih =>
    rw [openHeadBlock] at h
    dsimp only at h
    repeat' (first | (have h1 := ih h; rw [h1]; simp; done) | (simp only [Prod.mk.injEq] at h; rw [← h.2]; simp; done) | (simp only [Prod.mk.injEq] at h; rw [h.2]; done) | split at h)
@[simp] theorem clock_openHeadBlock (die n : Nat) (s : State) : (openHeadBlock die n s).2.clock = s.clock := clock_openHeadBlock_eq n rfl
@[simp] theorem clock_headStart (die : Nat) (s : State) : (headStart die s).2.2.clock = s.clock := by
  unfold headStart
  repeat' (first | (simp; done) | split)
theorem clock_headStart_eq {die : Nat} {s : State} {x : _} {y : _} {t : State} (h : headStart die s = (x, y, t)) : t.clock = s.clock := by
  have := clock_headStart die s
  rw [h] at this; exact this
@[simp] theorem clock_enterProg (q : Nat) (g : Prog) (p : Plan) (s : State) : (enterProg q g p s).2.clock = s.clock := by
  unfold enterProg
  repeat' (first | (simp; done) | simp | split | intro _ | (refine (clock_foldl _ _ _ ?_).trans ?_))
theorem clock_enterProg_eq {q : Nat} {g : Prog} {p : Plan} {s : State} {s' : State} {q1 : Plan} (h : enterProg q g p s = (q1, s')) : s'.clock = s.clock := by
  have q := clock_enterProg q g p s
  rw [h] at q; exact q
@[simp] theorem clock_putProgram (f die pos wl : Nat) (items : List PackItem) (p : Plan) (s : State) :
    (putProgram f die pos wl items p s).2.clock = s.clock := by
  unfold putProgram
  repeat' (first | (simp; done) | (have hq := clock_fresh_eq (by assumption); simp [hq]; done) | simp | split | intro _ | (refine (clock_foldl _ _ _ ?_).trans ?_))
theorem clock_putProgram_eq {f : Nat} {die : Nat} {pos : Nat} {wl : Nat} {items : List PackItem} {p : Plan} {s : State} {x : _} {t : State} (h : putProgram f die pos wl items p s = (x, t)) : t.clock = s.clock := by
  have := clock_putProgram f die pos wl items p s
  rw [h] at this; exact this
@[simp] theorem clock_packOne (f : Nat) (items : List PackItem) (done : List (Nat × Window)) (p : Plan) (s : State) :
    (packOne f items done p s).2.clock = s.clock := by
  unfold packOne
  repeat' (first | (simp; done) | (have hq := clock_headStart_eq (by assumption); simp [hq]; done) | (have hq := clock_putProgram_eq (by assumption); simp [hq]; done) | simp | split | intro _ | (refine (clock_foldl _ _ _ ?_).trans ?_))
theorem clock_packOne_eq {f : Nat} {items : List PackItem} {done : List (Nat × Window)} {p : Plan} {s : State} {x : _} {t : State} (h : packOne f items done p s = (x, t)) : t.clock = s.clock := by
  have := clock_packOne f items done p s
  rw [h] at this; exact this
theorem clock_packGo_eq {f : Nat} {done : List (Nat × Window)} (n : Nat) {items : List PackItem} {p : Plan} {s : State} {x : Plan} {y : List PackItem}
    {t : State} (h : packGo f done n items p s = (x, y, t)) : t.clock = s.clock := by
  induction n generalizing items p s with
  | zero => simp only [packGo, Prod.mk.injEq] at h; rw [h.2.2]
  | succ n ih =>
    rw [packGo] at h
    split at h
    · simp only [Prod.mk.injEq] at h; rw [h.2.2]
    · split at h
      · simp only [Prod.mk.injEq] at h; rw [h.2.2]
      · split at h
        · rename_i hq
          rw [ih h, clock_packOne_eq hq]
        · rename_i hq
          simp only [Prod.mk.injEq] at h
          rw [← h.2.2, clock_packOne_eq hq]
@[simp] theorem clock_packGo (f : Nat) (done : List (Nat × Window)) (n : Nat) (items : List PackItem) (p : Plan) (s : State) :
    (packGo f done n items p s).2.2.clock = s.clock := clock_packGo_eq n rfl
@[simp] theorem clock_reclaimMeta (die : Nat) (s : State) : (reclaimMeta die s).clock = s.clock := by
  unfold reclaimMeta
  repeat' (first | (simp; done) | simp | split | intro _ | (refine (clock_foldl _ _ _ ?_).trans ?_))
@[simp] theorem clock_beginMeta (die pos : Nat) (new : Bool) (s : State) : (beginMeta die pos new s).clock = s.clock := by
  unfold beginMeta
  repeat' (first | (simp; done) | simp | split | intro _ | (refine (clock_foldl _ _ _ ?_).trans ?_))
theorem clock_metaStart_eq {die n : Nat} {s : State} {x : Option (Nat × Nat)} {t : State} (h : metaStart die n s = (x, t)) : t.clock = s.clock := by
  induction n generalizing s with
  | zero => simp only [metaStart, Prod.mk.injEq] at h; rw [h.2]
  | succ n ih =>
    rw [metaStart] at h
    split at h
    · simp only [Prod.mk.injEq] at h; rw [h.2]
    · split at h
      · simp only [Prod.mk.injEq] at h; rw [h.2]
      · split at h
        · simp only [Prod.mk.injEq] at h; rw [← h.2]; simp
        · rw [ih h]; simp
@[simp] theorem clock_metaStart (die n : Nat) (s : State) : (metaStart die n s).2.clock = s.clock := clock_metaStart_eq rfl
@[simp] theorem clock_putMeta (f die pos wl : Nat) (l : List (Nat × MetaWork)) (p : Plan) (s : State) : (putMeta f die pos wl l p s).2.clock = s.clock := by
  unfold putMeta
  repeat' (first | (simp; done) | (simp [clock_fresh_eq ‹fresh _ = _›, clock_enterProg_eq ‹enterProg _ _ _ _ = _›]; done) | (simp [clock_fresh_eq ‹fresh _ = _›]; done) | (simp [clock_enterProg_eq ‹enterProg _ _ _ _ = _›]; done) | simp | split | intro _ | (refine (clock_foldl _ _ _ ?_).trans ?_))
theorem clock_putMeta_eq {f die pos wl : Nat} {l : List (Nat × MetaWork)} {p : Plan} {s : State} {s' : State} {q1 : Plan} (h : putMeta f die pos wl l p s = (q1, s')) : s'.clock = s.clock := by
  have q := clock_putMeta f die pos wl l p s
  rw [h] at q; exact q
@[simp] theorem clock_putMetas (f : Nat) (done : List (Nat × Window)) (n : Nat) (p : Plan) (s : State) :
    (putMetas f done n p s).2.clock = s.clock := by
  induction n generalizing p s with
  | zero => simp [putMetas]
  | succ n ih =>
    rw [putMetas]
    dsimp only
    split
    · rfl
    · split
      · rfl
      · split <;> simp [ih, clock_metaStart_eq ‹metaStart _ _ _ = _›]
theorem clock_putMetas_eq {f : Nat} {done : List (Nat × Window)} {n : Nat} {p : Plan} {s t : State} {x : Plan} (h : putMetas f done n p s = (x, t)) : t.clock = s.clock := by
  have q := clock_putMetas f done n p s
  rw [h] at q; exact q
@[simp] theorem clock_placeReq (n : Nat) (last : State → State) (s : State) (hlast : ∀ t, (last t).clock = t.clock) :
    (placeReq n last s).clock = s.clock := by
  unfold placeReq
  simp only
  split
  · simp
  · split <;> simp [hlast]
@[simp] theorem clock_fixPlan (f cnt : Nat) (s : State) : (fixPlan f cnt s).clock = s.clock := by
  unfold fixPlan
  repeat' (first | (simp; done) | (simp [clock_packGo_eq ‹packGo _ _ _ _ _ _ = _›, clock_putMetas_eq ‹putMetas _ _ _ _ _ = _›]; done) | (simp [clock_packGo_eq ‹packGo _ _ _ _ _ _ = _›]; done) | (simp [clock_putMetas_eq ‹putMetas _ _ _ _ _ = _›]; done) | simp | split | intro _ | (refine (clock_foldl _ _ _ ?_).trans ?_))
@[simp] theorem clock_withdraw (n : Nat) (s : State) : (withdraw n s).clock = s.clock := by simp [withdraw]
@[simp] theorem clock_loseRead (why n : Nat) (s : State) : (loseRead why n s).clock = s.clock := by
  unfold loseRead
  repeat' (first | (simp; done) | simp | split | intro _ | (refine (clock_foldl _ _ _ ?_).trans ?_))
@[simp] theorem clock_repack (p : Nat) (q : Prog) (s : State) : (repack p q s).clock = s.clock := by
  unfold repack
  repeat' (first | (simp; done) | simp | split | intro _ | (refine (clock_foldl _ _ _ ?_).trans ?_))
@[simp] theorem clock_unpack (p : Nat) (s : State) : (unpack p s).clock = s.clock := by
  unfold unpack
  repeat' (first | (simp; done) | simp | split | intro _ | (refine (clock_foldl _ _ _ ?_).trans ?_))
@[simp] theorem clock_delayCw (ck why : Nat) (s : State) : (delayCw ck why s).clock = s.clock := by
  unfold delayCw
  repeat' (first | (simp; done) | simp | split | intro _ | (refine (clock_foldl _ _ _ ?_).trans ?_))
@[simp] theorem clock_delayProg (p why : Nat) (s : State) : (delayProg p why s).clock = s.clock := by
  unfold delayProg
  repeat' (first | (simp; done) | simp | split | intro _ | (refine (clock_foldl _ _ _ ?_).trans ?_))
@[simp] theorem clock_dropProg (f p why : Nat) (s : State) : (dropProg f p why s).clock = s.clock := by
  unfold dropProg
  repeat' (first | (simp; done) | simp | split | intro _ | (refine (clock_foldl _ _ _ ?_).trans ?_))
@[simp] theorem clock_sortQueue (s : State) : (sortQueue s).clock = s.clock := by
  unfold sortQueue
  repeat' (first | (simp; done) | simp | split | intro _ | (refine (clock_foldl _ _ _ ?_).trans ?_))
@[simp] theorem clock_startRebuild (kind ob : Nat) (ms : List Nat) (s : State) : (startRebuild kind ob ms s).clock = s.clock := by simp [startRebuild]
@[simp] theorem clock_memberGone (m : Nat) (s : State) : (memberGone m s).clock = s.clock := by simp [memberGone]
@[simp] theorem clock_backingDeficit (f : Nat) (s : State) : (backingDeficit f s).clock = s.clock := by
  unfold backingDeficit
  repeat' (first | (simp; done) | simp | split | intro _ | (refine (clock_foldl _ _ _ ?_).trans ?_))
@[simp] theorem clock_placeAgain (ck : Nat) (l : CopyLoc) (s : State) : (placeAgain ck l s).clock = s.clock := by
  unfold placeAgain
  repeat' (first | (simp; done) | simp | split | intro _ | (refine (clock_foldl _ _ _ ?_).trans ?_))
@[simp] theorem clock_loseCopies (sel : CopyLoc → Bool) (s : State) : (loseCopies sel s).clock = s.clock := by simp [loseCopies]
@[simp] theorem clock_drawSpares (f st n got : Nat) (s : State) : (drawSpares f st n got s).2.clock = s.clock := by
  induction n generalizing got s with
  | zero => simp [drawSpares]
  | succ n ih =>
    rw [drawSpares]
    split <;> simp [ih, clock_rawSpare_eq ‹rawSpare _ _ = _›]
theorem clock_drawSpares_eq {f st n got : Nat} {s : State} {x : Nat} {t : State} (h : drawSpares f st n got s = (x, t)) : t.clock = s.clock := by
  have q := clock_drawSpares f st n got s
  rw [h] at q; exact q
@[simp] theorem clock_spareMember (m : Nat) (s : State) : (spareMember m s).clock = s.clock := by
  unfold spareMember
  repeat' (first | (simp; done) | (simp [clock_takeSpare_eq ‹takeSpare _ _ _ = _›]; done) | simp | split | intro _ | (refine (clock_foldl _ _ _ ?_).trans ?_))
@[simp] theorem clock_dropRead (n : Nat) (s : State) : (dropRead n s).clock = s.clock := by
  unfold dropRead
  repeat' (first | (simp; done) | simp | split | intro _ | (refine (clock_foldl _ _ _ ?_).trans ?_))
@[simp] theorem clock_loseReads (sel : Req → Bool) (s : State) : (loseReads sel s).clock = s.clock := by
  unfold loseReads
  repeat' (first | (simp; done) | simp | split | intro _ | (refine (clock_foldl _ _ _ ?_).trans ?_))
@[simp] theorem clock_stopDie (die row : Nat) (s : State) : (stopDie die row s).clock = s.clock := by
  unfold stopDie
  repeat' (first | (simp; done) | simp | split | intro _ | (refine (clock_foldl _ _ _ ?_).trans ?_))
@[simp] theorem clock_dieStock (f idle seeds wait : Nat) (s : State) : (dieStock f idle seeds wait s).clock = s.clock := by
  unfold dieStock
  repeat' (first | (simp; done) | (simp [clock_drawSpares_eq ‹drawSpares _ _ _ _ _ = _›]; done) | simp | split | intro _ | (refine (clock_foldl _ _ _ ?_).trans ?_))
@[simp] theorem clock_unverify (f : Nat) (sel : Nat → Bool) (s : State) : (unverify f sel s).clock = s.clock := by
  unfold unverify
  repeat' (first | (simp; done) | simp | split | intro _ | (refine (clock_foldl _ _ _ ?_).trans ?_))
@[simp] theorem clock_restorePages (gone : Nat → Bool) (s : State) : (restorePages gone s).clock = s.clock := by
  unfold restorePages
  repeat' (first | (simp; done) | simp | split | intro _ | (refine (clock_foldl _ _ _ ?_).trans ?_))
@[simp] theorem clock_dropMetas (die : Nat) (s : State) : (dropMetas die s).clock = s.clock := by
  unfold dropMetas
  repeat' (first | (simp; done) | simp | split | intro _ | (refine (clock_foldl _ _ _ ?_).trans ?_))
@[simp] theorem clock_dropDie (die : Nat) (s : State) : (dropDie die s).clock = s.clock := by
  unfold dropDie
  repeat' (first | (simp; done) | simp | split | intro _ | (refine (clock_foldl _ _ _ ?_).trans ?_))
@[simp] theorem clock_dieFailed (die row : Nat) (s : State) : (dieFailed die row s).clock = s.clock := by
  unfold dieFailed
  repeat' (first | (simp; done) | (simp [clock_drawSpares_eq ‹drawSpares _ _ _ _ _ = _›]; done) | simp | split | intro _ | (refine (clock_foldl _ _ _ ?_).trans ?_))
@[simp] theorem clock_dieOverrun (die : Nat) (s : State) : (dieOverrun die s).clock = s.clock := by
  unfold dieOverrun
  repeat' (first | (simp; done) | simp | split | intro _ | (refine (clock_foldl _ _ _ ?_).trans ?_))
@[simp] theorem clock_badCheck (die : Nat) (s : State) : (badCheck die s).clock = s.clock := by
  unfold badCheck
  repeat' (first | (simp; done) | simp | split | intro _ | (refine (clock_foldl _ _ _ ?_).trans ?_))
@[simp] theorem clock_moveMember (m new : Nat) (s : State) : (moveMember m new s).clock = s.clock := by simp [moveMember]
@[simp] theorem clock_frondGone (f st : Nat) (s : State) : (frondGone f st s).clock = s.clock := by
  unfold frondGone
  repeat' (first | (simp; done) | simp | split | intro _ | (refine (clock_foldl _ _ _ ?_).trans ?_))
@[simp] theorem clock_absentRelease (s : State) : (absentRelease s).clock = s.clock := by
  unfold absentRelease
  repeat' (first | (simp; done) | simp | split | intro _ | (refine (clock_foldl _ _ _ ?_).trans ?_))
@[simp] theorem clock_dropRow (h : Nat) (s : State) : (dropRow h s).clock = s.clock := by
  unfold dropRow
  repeat' (first | (simp; done) | simp | split | intro _ | (refine (clock_foldl _ _ _ ?_).trans ?_))
@[simp] theorem clock_freeStage (h : Nat) (s : State) : (freeStage h s).clock = s.clock := by
  unfold freeStage
  repeat' (first | (simp; done) | simp | split | intro _ | (refine (clock_foldl _ _ _ ?_).trans ?_))
@[simp] theorem clock_recalDue (die group : Nat) (s : State) : (recalDue die group s).clock = s.clock := by
  unfold recalDue
  repeat' (first | (simp; done) | simp | split | intro _ | (refine (clock_foldl _ _ _ ?_).trans ?_))
@[simp] theorem clock_recalAgain (f : Nat) (s : State) : (recalAgain f s).clock = s.clock := by
  unfold recalAgain
  repeat' (first | (simp; done) | simp | split | intro _ | (refine (clock_foldl _ _ _ ?_).trans ?_))
@[simp] theorem clock_recalReadDone (die group : Nat) (s : State) : (recalReadDone die group s).clock = s.clock := by
  unfold recalReadDone
  repeat' (first | (simp; done) | simp | split | intro _ | (refine (clock_foldl _ _ _ ?_).trans ?_))
@[simp] theorem clock_recalTemp (pkg : Nat) (temp : Nat) (s : State) : (recalTemp pkg temp s).clock = s.clock := by
  unfold recalTemp
  repeat' (first | (simp; done) | simp | split | intro _ | (refine (clock_foldl _ _ _ ?_).trans ?_))
@[simp] theorem clock_scheduleRefresh (k : Nat) (s : State) : (scheduleRefresh k s).clock = s.clock := by simp [scheduleRefresh]
@[simp] theorem clock_scrubReadDone (k : Nat) (s : State) : (scrubReadDone k s).clock = s.clock := by
  unfold scrubReadDone
  repeat' (first | (simp; done) | simp | split | intro _ | (refine (clock_foldl _ _ _ ?_).trans ?_))
@[simp] theorem clock_addFoldRead (h die block wl plane mask : Nat) (s : State) : (addFoldRead h die block wl plane mask s).clock = s.clock := by
  unfold addFoldRead
  repeat' (first | (simp; done) | simp | split | intro _ | (refine (clock_foldl _ _ _ ?_).trans ?_))
@[simp] theorem clock_uncorrEvent (k wl : Nat) (s : State) : (uncorrEvent k wl s).clock = s.clock := by
  unfold uncorrEvent
  repeat' (first | (simp; done) | simp | split | intro _ | (refine (clock_foldl _ _ _ ?_).trans ?_))
@[simp] theorem clock_rowLost (h : Nat) (s : State) : (rowLost h s).clock = s.clock := by
  unfold rowLost
  repeat' (first | (simp; done) | simp | split | intro _ | (refine (clock_foldl _ _ _ ?_).trans ?_))
@[simp] theorem clock_foldLost (h ck : Nat) (s : State) : (foldLost h ck s).clock = s.clock := by
  unfold foldLost
  repeat' (first | (simp; done) | simp | split | intro _ | (refine (clock_foldl _ _ _ ?_).trans ?_))
@[simp] theorem clock_foldRequest (h : Nat) (s : State) : (foldRequest h s).clock = s.clock := by
  unfold foldRequest
  repeat' (first | (simp; done) | simp | split | intro _ | (refine (clock_foldl _ _ _ ?_).trans ?_))
@[simp] theorem clock_foldReadDone (n h : Nat) (s : State) : (foldReadDone n h s).clock = s.clock := by
  unfold foldReadDone
  repeat' (first | (simp; done) | simp | split | intro _ | (refine (clock_foldl _ _ _ ?_).trans ?_))
@[simp] theorem clock_badCopies (r : Req) (s : State) : (badCopies r s).clock = s.clock := by
  unfold badCopies
  repeat' (first | (simp; done) | simp | split | intro _ | (refine (clock_foldl _ _ _ ?_).trans ?_))
@[simp] theorem clock_foldReroute (n h : Nat) (s : State) : (foldReroute n h s).clock = s.clock := by
  unfold foldReroute
  repeat' (first | (simp; done) | simp | split | intro _ | (refine (clock_foldl _ _ _ ?_).trans ?_))
@[simp] theorem clock_askRow (h : Nat) (ms : List Nat) (pages : List (Nat × Nat)) (s : State) : (askRow h ms pages s).clock = s.clock := by
  unfold askRow
  repeat' (first | (simp; done) | simp | split | intro _ | (refine (clock_foldl _ _ _ ?_).trans ?_))
theorem clock_startRow_some {h : Nat} {s t : State} (e : startRow h s = some t) : t.clock = s.clock := by
  unfold startRow at e
  repeat' (first | (simp at e; done) | (simp at e; subst e; simp [clock_takeBufs_eq ‹takeBufs _ _ _ _ = _›]; done) | (simp at e; subst e; simp; done) | split at e)
@[simp] theorem clock_passRow (h : Nat) (s : State) : (passRow h s).clock = s.clock := by
  unfold passRow
  repeat' (first | (simp; done) | simp | split | intro _ | (refine (clock_foldl _ _ _ ?_).trans ?_))
@[simp] theorem clock_refreshProgram (h dst : Nat) (s : State) : (refreshProgram h dst s).clock = s.clock := by
  unfold refreshProgram
  repeat' (first | (simp; done) | simp | split | intro _ | (refine (clock_foldl _ _ _ ?_).trans ?_))
@[simp] theorem clock_rowBack (h : Nat) (s : State) : (rowBack h s).clock = s.clock := by
  unfold rowBack
  repeat' (first | (simp; done) | simp | split | intro _ | (refine (clock_foldl _ _ _ ?_).trans ?_))
@[simp] theorem clock_rowReady (h : Nat) (s : State) : (rowReady h s).clock = s.clock := by
  unfold rowReady
  repeat' (first | (simp; done) | simp | split | intro _ | (refine (clock_foldl _ _ _ ?_).trans ?_))
@[simp] theorem clock_rowReadDone (n h : Nat) (s : State) : (rowReadDone n h s).clock = s.clock := by
  unfold rowReadDone
  repeat' (first | (simp; done) | simp | split | intro _ | (refine (clock_foldl _ _ _ ?_).trans ?_))
@[simp] theorem clock_rowReroute (n h : Nat) (s : State) : (rowReroute n h s).clock = s.clock := by
  unfold rowReroute
  repeat' (first | (simp; done) | simp | split | intro _ | (refine (clock_foldl _ _ _ ?_).trans ?_))
@[simp] theorem clock_rowCombined (h : Nat) (s : State) : (rowCombined h s).clock = s.clock := by
  unfold rowCombined
  repeat' (first | (simp; done) | simp | split | intro _ | (refine (clock_foldl _ _ _ ?_).trans ?_))
@[simp] theorem clock_restartFill (m new : Nat) (s : State) : (restartFill m new s).clock = s.clock := by
  unfold restartFill
  repeat' (first | (simp; done) | simp | split | intro _ | (refine (clock_foldl _ _ _ ?_).trans ?_))
@[simp] theorem clock_fillRow (m : Nat) (s : State) : (fillRow m s).clock = s.clock := by
  unfold fillRow
  repeat' (first | (simp; done) | (simp [clock_startRow_some ‹startRow _ _ = some _›]; done) | simp | split | intro _ | (refine (clock_foldl _ _ _ ?_).trans ?_))
@[simp] theorem clock_unstick (s : State) : (unstick s).clock = s.clock := by
  unfold unstick
  repeat' (first | (simp; done) | simp | split | intro _ | (refine (clock_foldl _ _ _ ?_).trans ?_))
@[simp] theorem clock_foldAhead (f : Nat) (s : State) : (foldAhead f s).clock = s.clock := by
  unfold foldAhead
  repeat' (first | (simp; done) | simp | split | intro _ | (refine (clock_foldl _ _ _ ?_).trans ?_))
@[simp] theorem clock_leaveFor (k m : Nat) (s : State) : (leaveFor k m s).2.clock = s.clock := by
  unfold leaveFor
  repeat' (first | (simp; done) | (simp [clock_drawMember_eq ‹drawMember _ _ _ = _›, clock_takeReplacement_eq ‹takeReplacement _ _ _ = _›]; done) | (simp [clock_drawMember_eq ‹drawMember _ _ _ = _›]; done) | (simp [clock_takeReplacement_eq ‹takeReplacement _ _ _ = _›]; done) | simp | split | intro _ | (refine (clock_foldl _ _ _ ?_).trans ?_))
theorem clock_leaveFor_eq {k m : Nat} {s : State} {s' : State} {q1 : Option Nat} (h : leaveFor k m s = (q1, s')) : s'.clock = s.clock := by
  have q := clock_leaveFor k m s
  rw [h] at q; exact q
@[simp] theorem clock_startRefresh (f : Nat) (s : State) : (startRefresh f s).clock = s.clock := by
  unfold startRefresh
  repeat' (first | (simp; done) | (simp [clock_leaveFor_eq ‹leaveFor _ _ _ = _›, clock_drawBlock_eq ‹drawBlock _ _ _ _ = _›]; done) | (simp [clock_leaveFor_eq ‹leaveFor _ _ _ = _›]; done) | (simp [clock_drawBlock_eq ‹drawBlock _ _ _ _ = _›]; done) | simp | split | intro _ | (refine (clock_foldl _ _ _ ?_).trans ?_))
@[simp] theorem clock_padAgain (m : Nat) (s : State) : (padAgain m s).clock = s.clock := by
  unfold padAgain
  repeat' (first | (simp; done) | simp | split | intro _ | (refine (clock_foldl _ _ _ ?_).trans ?_))
@[simp] theorem clock_refreshTick (f : Nat) (s : State) : (refreshTick f s).clock = s.clock := by
  unfold refreshTick
  repeat' (first | (simp; done) | exact (clock_getD (fun _ h => clock_startRow_some h) rfl).trans (by simp) | split | (dsimp only; split) | simp | intro _)
@[simp] theorem clock_refreshReadDone (h : Nat) (s : State) : (refreshReadDone h s).clock = s.clock := by
  unfold refreshReadDone
  repeat' (first | (simp; done) | simp | split | intro _ | (refine (clock_foldl _ _ _ ?_).trans ?_))
@[simp] theorem clock_refreshReroute (h : Nat) (s : State) : (refreshReroute h s).clock = s.clock := by
  unfold refreshReroute
  repeat' (first | (simp; done) | (simp [clock_startRow_some ‹startRow _ _ = some _›]; done) | simp | split | intro _ | (refine (clock_foldl _ _ _ ?_).trans ?_))
@[simp] theorem clock_refreshRowDone (h : Nat) (s : State) : (refreshRowDone h s).clock = s.clock := by
  unfold refreshRowDone
  repeat' (first | (simp; done) | simp | split | intro _ | (refine (clock_foldl _ _ _ ?_).trans ?_))
@[simp] theorem clock_replaceRead (ck : Nat) (s : State) : (replaceRead ck s).clock = s.clock := by
  unfold replaceRead
  repeat' (first | (simp; done) | simp | split | intro _ | (refine (clock_foldl _ _ _ ?_).trans ?_))
@[simp] theorem clock_replaceTick (s : State) : (replaceTick s).clock = s.clock := by
  unfold replaceTick
  repeat' (first | (simp; done) | simp | split | intro _ | (refine (clock_foldl _ _ _ ?_).trans ?_))
@[simp] theorem clock_placeDone (n ck : Nat) (s : State) : (placeDone n ck s).clock = s.clock := by
  unfold placeDone
  repeat' (first | (simp; done) | simp | split | intro _ | (refine (clock_foldl _ _ _ ?_).trans ?_))
@[simp] theorem clock_placeFailed (n ck : Nat) (s : State) : (placeFailed n ck s).clock = s.clock := by
  unfold placeFailed
  repeat' (first | (simp; done) | simp | split | intro _ | (refine (clock_foldl _ _ _ ?_).trans ?_))
@[simp] theorem clock_askAccum (slot : Nat) (s : State) : (askAccum slot s).clock = s.clock := by
  unfold askAccum
  repeat' (first | (simp; done) | simp | split | intro _ | (refine (clock_foldl _ _ _ ?_).trans ?_))
@[simp] theorem clock_accumTick (s : State) : (accumTick s).clock = s.clock := by
  unfold accumTick
  repeat' (first | (simp; done) | simp | split | intro _ | (refine (clock_foldl _ _ _ ?_).trans ?_))
@[simp] theorem clock_workReadDone (n w : Nat) (s : State) : (workReadDone n w s).clock = s.clock := by
  unfold workReadDone
  repeat' (first | (simp; done) | simp | split | intro _ | (refine (clock_foldl _ _ _ ?_).trans ?_))
@[simp] theorem clock_workReadFailed (n w : Nat) (s : State) : (workReadFailed n w s).clock = s.clock := by
  unfold workReadFailed
  repeat' (first | (simp; done) | simp | split | intro _ | (refine (clock_foldl _ _ _ ?_).trans ?_))
@[simp] theorem clock_accumReadFailed (n slot : Nat) (s : State) : (accumReadFailed n slot s).clock = s.clock := by
  unfold accumReadFailed
  repeat' (first | (simp; done) | simp | split | intro _ | (refine (clock_foldl _ _ _ ?_).trans ?_))
@[simp] theorem clock_readDone (n : Nat) (s : State) : (readDone n s).clock = s.clock := by
  unfold readDone
  repeat' (first | (simp; done) | simp | split | intro _ | (refine (clock_foldl _ _ _ ?_).trans ?_))
@[simp] theorem clock_scrubFailed (r : Req) (s : State) : (scrubFailed r s).clock = s.clock := by
  unfold scrubFailed
  repeat' (first | (simp; done) | simp | split | intro _ | (refine (clock_foldl _ _ _ ?_).trans ?_))
@[simp] theorem clock_pageLost (r : Req) (pk : Nat) (s : State) : (pageLost r pk s).clock = s.clock := by
  unfold pageLost
  repeat' (first | (simp; done) | simp | split | intro _ | (refine (clock_foldl _ _ _ ?_).trans ?_))
@[simp] theorem clock_pageFailed (r : Req) (pk : Nat) (s : State) : (pageFailed r pk s).clock = s.clock := by
  unfold pageFailed
  repeat' (first | (simp; done) | simp | split | intro _ | (refine (clock_foldl _ _ _ ?_).trans ?_))
@[simp] theorem clock_pagesTick (s : State) : (pagesTick s).clock = s.clock := by
  unfold pagesTick
  repeat' (first | (simp; done) | simp | split | intro _ | (refine (clock_foldl _ _ _ ?_).trans ?_))
@[simp] theorem clock_readFailed (n : Nat) (s : State) : (readFailed n s).clock = s.clock := by
  unfold readFailed
  repeat' (first | (simp; done) | simp | split | intro _ | (refine (clock_foldl _ _ _ ?_).trans ?_))
@[simp] theorem clock_turnedAway (n : Nat) (s : State) : (turnedAway n s).clock = s.clock := by
  unfold turnedAway
  repeat' (first | (simp; done) | simp | split | intro _ | (refine (clock_foldl _ _ _ ?_).trans ?_))
@[simp] theorem clock_mediaRequest (n cnt : Nat) (s : State) : (mediaRequest n cnt s).clock = s.clock := by
  unfold mediaRequest
  repeat' (first | (simp; done) | simp | split | intro _ | (refine (clock_foldl _ _ _ ?_).trans ?_))
@[simp] theorem clock_planLost (card : CardId) (f : Nat) (s : State) : (planLost card f s).clock = s.clock := by
  unfold planLost
  repeat' (first | (simp; done) | simp | split | intro _ | (refine (clock_foldl _ _ _ ?_).trans ?_))
@[simp] theorem clock_issueWindow (die : Nat) (s : State) : (issueWindow die s).clock = s.clock := by simp [issueWindow]
@[simp] theorem clock_beginAgain (m new : Nat) (s : State) : (beginAgain m new s).clock = s.clock := by
  unfold beginAgain
  repeat' (first | (simp; done) | simp | split | intro _ | (refine (clock_foldl _ _ _ ?_).trans ?_))
@[simp] theorem clock_newTarget (k m why : Nat) (s : State) : (newTarget k m why s).2.clock = s.clock := by
  unfold newTarget
  repeat' (first
    | (simp; done)
    | (simp [clock_drawMember_eq ‹drawMember _ _ _ = _›, clock_takeSpare_eq ‹takeSpare _ _ _ = _›, clock_takeReplacement_eq ‹takeReplacement _ _ _ = _›]; done)
    | (simp [clock_drawMember_eq ‹drawMember _ _ _ = _›, clock_takeSpare_eq ‹takeSpare _ _ _ = _›]; done)
    | (simp [clock_drawMember_eq ‹drawMember _ _ _ = _›, clock_takeReplacement_eq ‹takeReplacement _ _ _ = _›]; done)
    | (simp [clock_takeSpare_eq ‹takeSpare _ _ _ = _›, clock_takeReplacement_eq ‹takeReplacement _ _ _ = _›]; done)
    | (simp [clock_drawMember_eq ‹drawMember _ _ _ = _›]; done)
    | (simp [clock_takeSpare_eq ‹takeSpare _ _ _ = _›]; done)
    | (simp [clock_takeReplacement_eq ‹takeReplacement _ _ _ = _›]; done)
    | simp | split | intro _ | (refine (clock_foldl _ _ _ ?_).trans ?_))
theorem clock_newTarget_eq {k m why : Nat} {s : State} {s' : State} {q1 : Option Nat} (h : newTarget k m why s = (q1, s')) : s'.clock = s.clock := by
  have q := clock_newTarget k m why s
  rw [h] at q; exact q
@[simp] theorem clock_leaveTarget (k : Nat) (o : LongOp) (bad : Bool) (s : State) : (leaveTarget k o bad s).clock = s.clock := by
  unfold leaveTarget
  repeat' (first | (simp; done) | (simp [clock_newTarget_eq ‹newTarget _ _ _ _ = _›, clock_takeReplacement_eq ‹takeReplacement _ _ _ = _›]; done) | (simp [clock_newTarget_eq ‹newTarget _ _ _ _ = _›]; done) | (simp [clock_takeReplacement_eq ‹takeReplacement _ _ _ = _›]; done) | simp | split | intro _ | (refine (clock_foldl _ _ _ ?_).trans ?_))
@[simp] theorem clock_interruptOp (die : Nat) (s : State) : (interruptOp die s).clock = s.clock := by
  unfold interruptOp
  repeat' (first | (simp; done) | (have hq := clock_replacement_eq (by assumption); simp [hq]; done) | simp | split | intro _ | (refine (clock_foldl _ _ _ ?_).trans ?_))
@[simp] theorem clock_resetDie (die : Nat) (s : State) : (resetDie die s).clock = s.clock := by
  unfold resetDie
  repeat' (first | (simp; done) | simp | split | intro _ | (refine (clock_foldl _ _ _ ?_).trans ?_))
@[simp] theorem clock_segmentCheck (die : Nat) (ready : Bool) (s : State) : (segmentCheck die ready s).clock = s.clock := by simp [segmentCheck]
@[simp] theorem clock_startRetry (n cnt : Nat) (t : Tier) (s : State) : (startRetry n cnt t s).clock = s.clock := by
  unfold startRetry
  repeat' (first | (simp; done) | simp | split | intro _ | (refine (clock_foldl _ _ _ ?_).trans ?_))
@[simp] theorem clock_uncorrectable (p n : Nat) (s : State) : (uncorrectable p n s).clock = s.clock := by
  unfold uncorrectable
  repeat' (first | (simp; done) | simp | split | intro _ | (refine (clock_foldl _ _ _ ?_).trans ?_))
@[simp] theorem clock_lastRoute (p n : Nat) (s : State) : (lastRoute p n s).clock = s.clock := by
  unfold lastRoute
  dsimp only
  split
  · exact clock_getD (fun _ h => by simpa using clock_sendCopy_some h) (by simp)
  · split <;> simp
  · refine clock_getD (fun _ h => ?_) (by simp)
    simp only [Option.map_eq_some_iff] at h
    obtain ⟨u, hu, rfl⟩ := h
    simpa using clock_replaceMember_some hu
theorem clock_swapMember_some {p n : Nat} {s t : State} (h : swapMember p n s = some t) : t.clock = s.clock := by
  unfold swapMember at h
  extract_lets r pc m new fit at h
  split at h
  · simp at h
  · split at h
    · simp only [Option.map_eq_some_iff] at h
      obtain ⟨u, hu, rfl⟩ := h
      simpa using clock_replaceMember_some hu
    · simp at h
@[simp] theorem clock_countBits (n cbc : Nat) (t : Tier) (s : State) : (countBits n cbc t s).clock = s.clock := by
  unfold countBits
  repeat' (first | (simp; done) | simp | split | intro _ | (refine (clock_foldl _ _ _ ?_).trans ?_))
@[simp] theorem clock_pieceDecoded (p n : Nat) (s : State) : (pieceDecoded p n s).clock = s.clock := by
  unfold pieceDecoded
  repeat' (first | (simp; done) | simp | split | intro _ | (refine (clock_foldl _ _ _ ?_).trans ?_))
@[simp] theorem clock_decodeFailed (n cnt : Nat) (t : Tier) (s : State) : (decodeFailed n cnt t s).clock = s.clock := by
  unfold decodeFailed
  extract_lets r next
  split
  · split
    · rename_i hq
      split at hq
      · exact clock_swapMember_some hq
      · simp at hq
    · repeat' (first | (simp; done) | split)
  · simp
  · repeat' (first | (simp; done) | (simp +zetaDelta; done) | simp | split)
@[simp] theorem clock_decodeResult (n : Nat) (t : Tier) (bad cbc cnt : Nat) (s : State) : (decodeResult n t bad cbc cnt s).clock = s.clock := by
  unfold decodeResult
  repeat' (first | (simp; done) | simp | split | intro _ | (refine (clock_foldl _ _ _ ?_).trans ?_))
@[simp] theorem clock_eraseDone (die : Nat) (pass : Bool) (s : State) : (eraseDone die pass s).clock = s.clock := by
  unfold eraseDone
  repeat' (first | (simp; done) | (simp [clock_takeReplacement_eq ‹takeReplacement _ _ _ = _›]; done) | simp | split | intro _ | (refine (clock_foldl _ _ _ ?_).trans ?_))
@[simp] theorem clock_eraseRecord (f : Nat) (ended : List (Nat × Bool)) (recovered : List (Nat × Nat)) (named : List Nat) (s : State) : (eraseRecord f ended recovered named s).clock = s.clock := by
  unfold eraseRecord
  repeat' (first | (simp; done) | simp | split | intro _ | (refine (clock_foldl _ _ _ ?_).trans ?_))
@[simp] theorem clock_markIncomplete (k row : Nat) (s : State) : (markIncomplete k row s).clock = s.clock := by
  unfold markIncomplete
  repeat' (first | (simp; done) | simp | split | intro _ | (refine (clock_foldl _ _ _ ?_).trans ?_))
@[simp] theorem clock_cutErases (f : Nat) (s : State) : (cutErases f s).clock = s.clock := by
  unfold cutErases
  repeat' (first | (simp; done) | simp | split | intro _ | (refine (clock_foldl _ _ _ ?_).trans ?_))
@[simp] theorem clock_nameTraining (chan : Nat) (s : State) : (nameTraining chan s).clock = s.clock := by
  unfold nameTraining
  repeat' (first | (simp; done) | simp | split | intro _ | (refine (clock_foldl _ _ _ ?_).trans ?_))
@[simp] theorem clock_trainTick (f : Nat) (s : State) : (trainTick f s).clock = s.clock := by
  unfold trainTick
  repeat' (first | (simp; done) | simp | split | intro _ | (refine (clock_foldl _ _ _ ?_).trans ?_))
@[simp] theorem clock_channelFailed (chan : Nat) (s : State) : (channelFailed chan s).clock = s.clock := by
  unfold channelFailed
  repeat' (first | (simp; done) | simp | split | intro _ | (refine (clock_foldl _ _ _ ?_).trans ?_))
@[simp] theorem clock_countHit (rule : Nat) (s : State) : (countHit rule s).clock = s.clock := by simp [countHit]
theorem clock_chargeBound_some {c : CardId} {sl : Nat} {n : Nat} {read : Bool} {s t : State} (h : chargeBound c sl n read s = some t) : t.clock = s.clock := by
  unfold chargeBound at h
  repeat' (first
    | (simp at h; done)
    | (simp at h; subst h; simp; done)
    | (simp at h; simp [← h.2]; done)
    | (simp at h; simp [← h]; done)
    | split at h)
theorem clock_claimIn_some {c : CardId} {k last dp : Nat} {s t : State} (h : claimIn c k last dp s = some t) : t.clock = s.clock := by
  simp only [claimIn, Option.map_eq_some_iff] at h
  obtain ⟨u, _, rfl⟩ := h
  simp
theorem clock_claimList_some {c : CardId} {a b : Nat} (l : List Nat) {s t : State} (h : claimList c a b l s = some t) : t.clock = s.clock := by
  induction l generalizing s with
  | nil => simp only [claimList, Option.some.injEq] at h; rw [h]
  | cons d l ih =>
    unfold claimList at h
    split at h
    · rename_i u hu
      rw [ih h, clock_claimIn_some hu]
    · simp at h
theorem clock_claimPiece_some {c : CardId} {a b ck : Nat} {s t : State} (h : claimPiece c a b ck s = some t) : t.clock = s.clock := by
  unfold claimPiece at h
  split at h
  · obtain ⟨l, _, hl⟩ := List.exists_of_findSome?_eq_some h
    exact clock_claimIn_some hl
  · simp only at h
    split at h
    · rename_i u hu
      simp only [Option.bind_eq_some_iff] at hu
      obtain ⟨d, _, hd⟩ := hu
      simp only [Option.some.injEq] at h
      rw [← h, clock_claimIn_some hd]
    · split at h
      · exact clock_claimList_some _ h
      · simp at h
theorem clock_claimPieces_some {c : CardId} {a b : Nat} (l : List (List (Nat × Nat))) {s t : State} (h : claimPieces c a b l s = some t) :
    t.clock = s.clock := by
  induction l generalizing s with
  | nil => simp only [claimPieces, Option.some.injEq] at h; rw [h]
  | cons d l ih =>
    cases d with
    | nil => rw [claimPieces] at h; exact ih h
    | cons x y =>
      unfold claimPieces at h
      split at h
      · rename_i u hu
        rw [ih h, clock_claimPiece_some hu]
      · simp at h
theorem clock_claimRead_some {c : CardId} {nsid lba n d : Nat} {s t : State} (h : claimRead c nsid lba n d s = some t) : t.clock = s.clock := by
  unfold claimRead at h
  simp only [Option.bind_eq_some_iff] at h
  obtain ⟨u, hu, h⟩ := h
  rw [clock_claimPieces_some _ h, clock_claimList_some _ hu]
@[simp] theorem clock_admission (card : CardId) (sl : Nat) (e : Sqe) (bell : Nat) (s : State) :
    (admission card sl e bell s).2.clock = s.clock := by
  unfold admission
  simp only
  split
  · simp
  · split
    · simp
    · rename_i u hu
      have h1 := clock_chargeBound_some hu
      split
      · simp
      · rename_i v hv
        split at hv
        · simp [clock_claimRead_some hv, h1]
        · simp only [Option.some.injEq] at hv
          simp [← hv, h1]
theorem clock_admission_eq {card : CardId} {sl : Nat} {e : Sqe} {bell : Nat} {s : State} {x : _} {t : State} (h : admission card sl e bell s = (x, t)) :
    t.clock = s.clock := by
  have := clock_admission card sl e bell s
  rw [h] at this; exact this
@[simp] theorem clock_unlock (k : Nat) (s : State) : (unlock k s).clock = s.clock := by
  unfold unlock
  repeat' (first | (simp; done) | simp | split | intro _ | (refine (clock_foldl _ _ _ ?_).trans ?_))
@[simp] theorem clock_requestLocks (k : Nat) (s : State) : (requestLocks k s).clock = s.clock := by
  unfold requestLocks
  repeat' (first | (simp; done) | simp | split | intro _ | (refine (clock_foldl _ _ _ ?_).trans ?_))
@[simp] theorem clock_afterLocks (go : Nat → State → State) (k : Nat) (s : State) (hgo : ∀ y0 y1, (go y0 y1).clock = y1.clock) :
    (afterLocks go k s).clock = s.clock := by simp [afterLocks, hgo]
@[simp] theorem clock_lockStage (go : Nat → State → State) (k : Nat) (s : State) (hgo : ∀ y0 y1, (go y0 y1).clock = y1.clock) :
    (lockStage go k s).clock = s.clock := by
  unfold lockStage
  repeat' (first | (simp [hgo]; done) | simp [hgo] | split | intro _ | (refine (clock_foldl _ _ _ ?_).trans ?_))
theorem clock_tryFetch_some {e : Sqe} {s : State} {x : Nat} {t : State} (h : tryFetch e s = some (x, t)) : t.clock = s.clock := by
  unfold tryFetch at h
  simp only at h
  split at h
  · simp at h
  · simp only [Option.some.injEq, Prod.mk.injEq] at h
    rw [← h.2]
    split <;> simp
theorem clock_fetched_some {e : Sqe} {s : State} {x : Nat} {t : State} (h : fetched e s = some (x, t)) : t.clock = s.clock := by
  unfold fetched at h
  simp only at h
  split at h
  · simp only [Option.some.injEq, Prod.mk.injEq] at h
    rw [← h.2]; simp
  · have hq := clock_tryFetch_some h
    simpa using hq
@[simp] theorem clock_atOwner (run : Nat → State → State) (k : Nat) (s : State) (hrun : ∀ y0 y1, (run y0 y1).clock = y1.clock) :
    (atOwner run k s).clock = s.clock := by simp [atOwner, hrun]
@[simp] theorem clock_ioRun (e : Sqe) (run : Nat → State → State) (s : State) (hrun : ∀ y0 y1, (run y0 y1).clock = y1.clock) :
    (ioRun e run s).clock = s.clock := by
  unfold ioRun
  repeat' (first | (simp [hrun]; done) | (have hq := clock_fetched_some (by assumption); simp [hq, hrun]; done) | simp [hrun] | split | intro _ | (refine (clock_foldl _ _ _ ?_).trans ?_))
@[simp] theorem clock_failNow (k : Nat) (st : Nat × Nat) (dw0 dw1 : Nat) (s : State) : (failNow k st dw0 dw1 s).clock = s.clock := by simp [failNow]
@[simp] theorem clock_bufStage (go : Nat → State → State) (bytes k : Nat) (s : State) (hgo : ∀ y0 y1, (go y0 y1).clock = y1.clock) :
    (bufStage go bytes k s).clock = s.clock := by
  unfold bufStage
  repeat' (first | (simp [hgo]; done) | (have hq := clock_takeBufs_eq (by assumption); simp [hq, hgo]; done) | simp [hgo] | split | intro _ | (refine (clock_foldl _ _ _ ?_).trans ?_))
@[simp] theorem clock_enterWrite (k : Nat) (s : State) : (enterWrite k s).clock = s.clock := by simp [enterWrite]
@[simp] theorem clock_waitRoom (k f : Nat) (s : State) : (waitRoom k f s).clock = s.clock := by simp [waitRoom]
@[simp] theorem clock_writeAdmit (k : Nat) (s : State) : (writeAdmit k s).clock = s.clock := by
  unfold writeAdmit
  repeat' (first | (simp; done) | simp | split | intro _ | (refine (clock_foldl _ _ _ ?_).trans ?_))
@[simp] theorem clock_issueWrites (qk n : Nat) (s : State) : (issueWrites qk n s).clock = s.clock := by
  induction n generalizing s with
  | zero => rfl
  | succ n ih =>
    unfold issueWrites
    split
    · rfl
    · split
      · simp [ih]
      · split
        · rfl
        · simp [ih]
@[simp] theorem clock_issueReads (k : Nat) (s : State) : (issueReads k s).clock = s.clock := by simp [issueReads]
@[simp] theorem clock_issueAppends (qp : Nat) (s : State) : (issueAppends qp s).clock = s.clock := by
  unfold issueAppends
  repeat' (first | (simp; done) | simp | split | intro _ | (refine (clock_foldl _ _ _ ?_).trans ?_))
@[simp] theorem clock_bulkArrived (k reason : Nat) (s : State) : (bulkArrived k reason s).clock = s.clock := by simp [bulkArrived]
@[simp] theorem clock_bulkStart (k : Nat) (s : State) : (bulkStart k s).clock = s.clock := by simp [bulkStart]
@[simp] theorem clock_afterAssign (k : Nat) (s : State) : (afterAssign k s).clock = s.clock := by
  unfold afterAssign
  split <;> simp
@[simp] theorem clock_assign (k : Nat) (s : State) : (assign k s).clock = s.clock := by simp [assign]
@[simp] theorem clock_zoneStageWith (granted : Bool) (k : Nat) (s : State) : (zoneStageWith granted k s).clock = s.clock := by
  unfold zoneStageWith
  repeat' (first
    | (simp; done)
    | (have hq := clock_openZone_done (by assumption); simp [hq]; done)
    | (have hq := clock_openZone_wait (by assumption); simp [hq]; done) | simp | split | intro _)
@[simp] theorem clock_zoneStage (k : Nat) (s : State) : (zoneStage k s).clock = s.clock := by simp [zoneStage]
@[simp] theorem clock_convStageWith (granted : Bool) (k : Nat) (s : State) : (convStageWith granted k s).clock = s.clock := by
  unfold convStageWith
  repeat' (first | (simp; done) | (have hq := clock_takeOffsets_eq _ (by assumption); simp [hq]; done) | split | (dsimp only; split))
@[simp] theorem clock_convStage (k : Nat) (s : State) : (convStage k s).clock = s.clock := by
  unfold convStage
  repeat' (first | (simp; done) | (have hq := clock_takeOffsets_eq _ (by assumption); simp [hq]; done) | simp | split | intro _ | (refine (clock_foldl _ _ _ ?_).trans ?_))
@[simp] theorem clock_clearRecs (k : Nat) (ranges : List (Nat × Nat)) (s : State) : (clearRecs k ranges s).clock = s.clock := by simp [clearRecs]
@[simp] theorem clock_writeGo (k : Nat) (s : State) : (writeGo k s).clock = s.clock := by
  unfold writeGo
  repeat' (first | (simp; done) | simp | split | intro _ | (refine (clock_foldl _ _ _ ?_).trans ?_))
@[simp] theorem clock_writeChecked (k lim : Nat) (moves : Bool) (s : State) : (writeChecked k lim moves s).clock = s.clock := by
  unfold writeChecked
  repeat' (first | (simp; done) | simp | split | intro _ | (refine (clock_foldl _ _ _ ?_).trans ?_))
@[simp] theorem clock_runWrite (k : Nat) (s : State) : (runWrite k s).clock = s.clock := by simp [runWrite]
@[simp] theorem clock_runAppend (k : Nat) (s : State) : (runAppend k s).clock = s.clock := by simp [runAppend]
@[simp] theorem clock_runWriteZeroes (k : Nat) (s : State) : (runWriteZeroes k s).clock = s.clock := by simp [runWriteZeroes]
@[simp] theorem clock_readGo (k : Nat) (s : State) : (readGo k s).clock = s.clock := by simp [readGo]
@[simp] theorem clock_readChecked (k lim : Nat) (moves : Bool) (s : State) : (readChecked k lim moves s).clock = s.clock := by
  unfold readChecked
  repeat' (first | (simp; done) | simp | split | intro _ | (refine (clock_foldl _ _ _ ?_).trans ?_))
@[simp] theorem clock_runRead (k : Nat) (s : State) : (runRead k s).clock = s.clock := by simp [runRead]
@[simp] theorem clock_runVerify (k : Nat) (s : State) : (runVerify k s).clock = s.clock := by simp [runVerify]
@[simp] theorem clock_runCopy (k : Nat) (s : State) : (runCopy k s).clock = s.clock := by
  unfold runCopy
  repeat' (first | (simp; done) | simp | split | intro _ | (refine (clock_foldl _ _ _ ?_).trans ?_))
@[simp] theorem clock_runFlush (k : Nat) (s : State) : (runFlush k s).clock = s.clock := by simp [runFlush]
@[simp] theorem clock_runDsm (k : Nat) (s : State) : (runDsm k s).clock = s.clock := by
  unfold runDsm
  repeat' (first | (simp; done) | simp | split | intro _ | (refine (clock_foldl _ _ _ ?_).trans ?_))
@[simp] theorem clock_stateErr (k : Nat) (s : State) : (stateErr k s).clock = s.clock := by simp [stateErr]
@[simp] theorem clock_zoneSend (k : Nat) (go : Cmd → State → State) (s : State) (hgo : ∀ y0 y1, (go y0 y1).clock = y1.clock) :
    (zoneSend k go s).clock = s.clock := by
  unfold zoneSend
  split <;> simp [hgo]
@[simp] theorem clock_setOpen (nsid z cls : Nat) (cmd : Option Nat) (s : State) : (setOpen nsid z cls cmd s).clock = s.clock := by simp [setOpen]
@[simp] theorem clock_zoneOpenWith (g : Bool) (k : Nat) (s : State) : (zoneOpenWith g k s).clock = s.clock := by
  unfold zoneOpenWith
  refine clock_zoneSend _ _ _ ?_
  intro c t
  split
  · simp
  · split
    · simp
    · simp
    · split
      · simp
      · split
        · rename_i hz
          simp [clock_openZone_done hz]
        · rename_i hz
          simp [clock_openZone_wait hz]
        all_goals simp
    · simp
@[simp] theorem clock_zoneOpenCmd (k : Nat) (s : State) : (zoneOpenCmd k s).clock = s.clock := by simp [zoneOpenCmd]
@[simp] theorem clock_zoneCloseCmd (k : Nat) (s : State) : (zoneCloseCmd k s).clock = s.clock := by simp [zoneCloseCmd]
@[simp] theorem clock_afterEarlier (l : List Nat) (k : Nat) (go : Nat → State → State) (s : State) (hgo : ∀ y0 y1, (go y0 y1).clock = y1.clock) :
    (afterEarlier l k go s).clock = s.clock := by
  unfold afterEarlier
  split <;> simp [hgo]
@[simp] theorem clock_zoneFinishRun (k : Nat) (s : State) : (zoneFinishRun k s).clock = s.clock := by
  unfold zoneFinishRun
  refine clock_zoneSend _ _ _ ?_
  intro c t
  split
  · simp
  · split <;> simp
@[simp] theorem clock_zoneResetRun (k : Nat) (s : State) : (zoneResetRun k s).clock = s.clock := by simp [zoneResetRun]
@[simp] theorem clock_zoneOfflineCmd (k : Nat) (s : State) : (zoneOfflineCmd k s).clock = s.clock := by simp [zoneOfflineCmd]
@[simp] theorem clock_runZoneSend (k : Nat) (s : State) : (runZoneSend k s).clock = s.clock := by
  unfold runZoneSend
  split <;> simp
@[simp] theorem clock_runZoneRecv (k : Nat) (s : State) : (runZoneRecv k s).clock = s.clock := by
  unfold runZoneRecv
  repeat' (first | (simp; done) | simp | split | intro _ | (refine (clock_foldl _ _ _ ?_).trans ?_))
@[simp] theorem clock_runDigest (k : Nat) (s : State) : (runDigest k s).clock = s.clock := by
  unfold runDigest
  repeat' (first | (simp; done) | simp | split | intro _ | (refine (clock_foldl _ _ _ ?_).trans ?_))
@[simp] theorem clock_runBulkRead (k : Nat) (s : State) : (runBulkRead k s).clock = s.clock := by
  unfold runBulkRead
  repeat' (first | (simp; done) | simp | split | intro _ | (refine (clock_foldl _ _ _ ?_).trans ?_))
@[simp] theorem clock_runBulkAppend (k : Nat) (s : State) : (runBulkAppend k s).clock = s.clock := by
  unfold runBulkAppend
  repeat' (first | (simp; done) | simp | split | intro _ | (refine (clock_foldl _ _ _ ?_).trans ?_))
@[simp] theorem clock_runWinnow (k : Nat) (s : State) : (runWinnow k s).clock = s.clock := by
  unfold runWinnow
  repeat' (first | (simp; done) | simp | split | intro _ | (refine (clock_foldl _ _ _ ?_).trans ?_))
@[simp] theorem clock_runKind (k : Nat) (s : State) : (runKind k s).clock = s.clock := by
  unfold runKind
  split <;> simp
@[simp] theorem clock_resume (k : Nat) (s : State) : (resume k s).clock = s.clock := by
  unfold resume
  repeat' (first | (simp; done) | simp | split | intro _ | (refine (clock_foldl _ _ _ ?_).trans ?_))
@[simp] theorem clock_lockGranted (k : Nat) (s : State) : (lockGranted k s).clock = s.clock := by simp [lockGranted]
@[simp] theorem clock_scanStarts (card : CardId) (k : Nat) (s : State) : (scanStarts card k s).clock = s.clock := by
  unfold scanStarts
  repeat' (first | (simp; done) | simp | split | intro _ | (refine (clock_foldl _ _ _ ?_).trans ?_))
@[simp] theorem clock_rowStep (slot : Nat) (s : State) : (rowStep slot s).clock = s.clock := by
  unfold rowStep
  repeat' (first | (simp; done) | simp | split | intro _ | (refine (clock_foldl _ _ _ ?_).trans ?_))
@[simp] theorem clock_rxDrain (k : Option Nat) (s : State) : (rxDrain k s).clock = s.clock := by
  unfold rxDrain
  split <;> simp
@[simp] theorem clock_encryptUnit (card : CardId) (ck : Nat) (s : State) : (encryptUnit card ck s).clock = s.clock := by
  unfold encryptUnit
  repeat' (first | (simp; done) | simp | split | intro _ | (refine (clock_foldl _ _ _ ?_).trans ?_))
@[simp] theorem clock_bulkSend (p : Nat) (s : State) : (bulkSend p s).clock = s.clock := by simp [bulkSend]
@[simp] theorem clock_bulkReadEnd (k : Nat) (s : State) : (bulkReadEnd k s).clock = s.clock := by
  unfold bulkReadEnd
  repeat' (first | (simp; done) | simp | split | intro _ | (refine (clock_foldl _ _ _ ?_).trans ?_))
@[simp] theorem clock_readEnd (k : Nat) (s : State) : (readEnd k s).clock = s.clock := by
  unfold readEnd
  repeat' (first | (simp; done) | simp | split | intro _ | (refine (clock_foldl _ _ _ ?_).trans ?_))
@[simp] theorem clock_deliver (p : Nat) (s : State) : (deliver p s).clock = s.clock := by
  unfold deliver
  repeat' (first | (simp; done) | simp | split | intro _ | (refine (clock_foldl _ _ _ ?_).trans ?_))
@[simp] theorem clock_scanEnd (k : Nat) (s : State) : (scanEnd k s).clock = s.clock := by
  unfold scanEnd
  repeat' (first | (simp; done) | simp | split | intro _ | (refine (clock_foldl _ _ _ ?_).trans ?_))
@[simp] theorem clock_longUnit (card : CardId) (n k blocks : Nat) (w : SeWork) (done : State → State) (s : State) (hdone : ∀ y0, (done y0).clock = y0.clock) :
    (longUnit card n k blocks w done s).clock = s.clock := by simp [longUnit, hdone]
@[simp] theorem clock_copyOn (k : Nat) (s : State) : (copyOn k s).clock = s.clock := by
  unfold copyOn
  repeat' (first | (simp; done) | simp | split | intro _ | (refine (clock_foldl _ _ _ ?_).trans ?_))
@[simp] theorem clock_rowUnit (card : CardId) (h : Nat) (s : State) : (rowUnit card h s).clock = s.clock := by
  unfold rowUnit
  repeat' (first | (simp; done) | simp | split | intro _ | (refine (clock_foldl _ _ _ ?_).trans ?_))
@[simp] theorem clock_streamUnit (card : CardId) (n : Nat) (s : State) : (streamUnit card n s).clock = s.clock := by
  unfold streamUnit
  repeat' (first | (simp; done) | simp | split | intro _ | (refine (clock_foldl _ _ _ ?_).trans ?_))
@[simp] theorem clock_commandDeadline (k : Nat) (s : State) : (commandDeadline k s).clock = s.clock := by
  unfold commandDeadline
  repeat' (first | (simp; done) | simp | split | intro _ | (refine (clock_foldl _ _ _ ?_).trans ?_))
@[simp] theorem clock_settleCw (ck : Nat) (s : State) : (settleCw ck s).clock = s.clock := by
  unfold settleCw
  repeat' (first | (simp; done) | simp | split | intro _ | (refine (clock_foldl _ _ _ ?_).trans ?_))
@[simp] theorem clock_progPass (n : Nat) (q : Prog) (s : State) : (progPass n q s).clock = s.clock := by simp [progPass]
@[simp] theorem clock_progFail (n : Nat) (q : Prog) (s : State) : (progFail n q s).clock = s.clock := by
  unfold progFail
  repeat' (first | (simp; done) | (simp [clock_takeReplacement_eq ‹takeReplacement _ _ _ = _›]; done) | simp | split | intro _ | (refine (clock_foldl _ _ _ ?_).trans ?_))
@[simp] theorem clock_metaFail (n : Nat) (q : Prog) (s : State) : (metaFail n q s).clock = s.clock := by
  unfold metaFail
  repeat' (first | (simp; done) | (simp [clock_takeReplacement_eq ‹takeReplacement _ _ _ = _›]; done) | simp | split | intro _ | (refine (clock_foldl _ _ _ ?_).trans ?_))
@[simp] theorem clock_programReport (n : Nat) (pass : Bool) (s : State) : (programReport n pass s).clock = s.clock := by
  unfold programReport
  split <;> simp
@[simp] theorem clock_foldHoldExpiry (slot pos row : Nat) (s : State) : (foldHoldExpiry slot pos row s).clock = s.clock := by
  unfold foldHoldExpiry
  repeat' (first | (simp; done) | simp | split | intro _ | (refine (clock_foldl _ _ _ ?_).trans ?_))
@[simp] theorem clock_qlcDone (die : Nat) (pass : Bool) (s : State) : (qlcDone die pass s).clock = s.clock := by
  unfold qlcDone
  repeat' (first | (simp; done) | simp | split | intro _ | (refine (clock_foldl _ _ _ ?_).trans ?_))
@[simp] theorem clock_foldVerify (die : Nat) (within : Bool) (s : State) : (foldVerify die within s).clock = s.clock := by
  unfold foldVerify
  repeat' (first | (simp; done) | simp | split | intro _ | (refine (clock_foldl _ _ _ ?_).trans ?_))
@[simp] theorem clock_tellRelease (h : Nat) (s : State) : (tellRelease h s).clock = s.clock := by
  unfold tellRelease
  repeat' (first | (simp; done) | simp | split | intro _ | (refine (clock_foldl _ _ _ ?_).trans ?_))
@[simp] theorem clock_tellTick (s : State) : (tellTick s).clock = s.clock := by
  unfold tellTick
  repeat' (first | (simp; done) | simp | split | intro _ | (refine (clock_foldl _ _ _ ?_).trans ?_))
@[simp] theorem clock_releaseFold (h : Nat) (s : State) : (releaseFold h s).clock = s.clock := by simp [releaseFold]
@[simp] theorem clock_recordRow (f h : Nat) (s : State) : (recordRow f h s).clock = s.clock := by
  unfold recordRow
  repeat' (first | (simp; done) | simp | split | intro _ | (refine (clock_foldl _ _ _ ?_).trans ?_))
@[simp] theorem clock_memberTable (f : Nat) (rows : List Nat) (s : State) : (memberTable f rows s).clock = s.clock := by
  unfold memberTable
  repeat' (first | (simp; done) | simp | split | intro _ | (refine (clock_foldl _ _ _ ?_).trans ?_))
@[simp] theorem clock_recompute (slot : Nat) (s : State) : (recompute slot s).clock = s.clock := by
  unfold recompute
  repeat' (first | (simp; done) | simp | split | intro _ | (refine (clock_foldl _ _ _ ?_).trans ?_))
@[simp] theorem clock_stripeWhole (slot pos : Nat) (s : State) : (stripeWhole slot pos s).clock = s.clock := by
  unfold stripeWhole
  repeat' (first | (simp; done) | simp | split | intro _ | (refine (clock_foldl _ _ _ ?_).trans ?_))
@[simp] theorem clock_rebuildDone (slot pos : Nat) (s : State) : (rebuildDone slot pos s).clock = s.clock := by
  unfold rebuildDone
  repeat' (first | (simp; done) | simp | split | intro _ | (refine (clock_foldl _ _ _ ?_).trans ?_))
@[simp] theorem clock_mapSet (nsid lba : Nat) (v : Option (Nat × Nat)) (s : State) : (mapSet nsid lba v s).clock = s.clock := by
  unfold mapSet
  repeat' (first | (simp; done) | simp | split | intro _ | (refine (clock_foldl _ _ _ ?_).trans ?_))
@[simp] theorem clock_coverCws (r : JRec) (s : State) : (coverCws r s).clock = s.clock := by
  unfold coverCws
  repeat' (first | (simp; done) | simp | split | intro _ | (refine (clock_foldl _ _ _ ?_).trans ?_))
@[simp] theorem clock_applyUpdate (r : JRec) (s : State) : (applyUpdate r s).clock = s.clock := by simp [applyUpdate]
@[simp] theorem clock_slotGone (r : JRec) (s : State) : (slotGone r s).clock = s.clock := by
  unfold slotGone
  repeat' (first | (simp; done) | simp | split | intro _ | (refine (clock_foldl _ _ _ ?_).trans ?_))
@[simp] theorem clock_recEffect (r : JRec) (s : State) : (recEffect r s).clock = s.clock := by
  unfold recEffect
  repeat' (first | (simp; done) | simp | split | intro _ | (refine (clock_foldl _ _ _ ?_).trans ?_))
@[simp] theorem clock_applyRec (r : JRec) (s : State) : (applyRec r s).clock = s.clock := by
  unfold applyRec
  repeat' (first | (simp; done) | split)
@[simp] theorem clock_recsWritten (c : CardId) (l : List JRec) (s : State) : (recsWritten c l s).clock = s.clock := by
  unfold recsWritten
  repeat' (first | (simp; done) | simp | split | intro _ | (refine (clock_foldl _ _ _ ?_).trans ?_))
@[simp] theorem clock_journalProgrammed (c : CardId) (s : State) : (journalProgrammed c s).clock = s.clock := by
  unfold journalProgrammed
  repeat' (first | (simp; done) | simp | split | intro _ | (refine (clock_foldl _ _ _ ?_).trans ?_))
@[simp] theorem clock_evict (c : CardId) (s : State) : (evict c s).2.clock = s.clock := by
  unfold evict
  repeat' (first | (simp; done) | simp | split | intro _ | (refine (clock_foldl _ _ _ ?_).trans ?_))
theorem clock_evict_eq {c : CardId} {s : State} {s' : State} {q1 : Bool} (h : evict c s = (q1, s')) : s'.clock = s.clock := by
  have q := clock_evict c s
  rw [h] at q; exact q
@[simp] theorem clock_placePage (pk : Nat) (s : State) : (placePage pk s).clock = s.clock := by
  unfold placePage
  repeat' (first | (simp; done) | (simp [clock_evict_eq ‹evict _ _ = _›]; done) | simp | split | intro _ | (refine (clock_foldl _ _ _ ?_).trans ?_))
@[simp] theorem clock_mapPageRead (nsid page : Nat) (s : State) : (mapPageRead nsid page s).clock = s.clock := by simp [mapPageRead]
@[simp] theorem clock_arrivedTick (s : State) : (arrivedTick s).clock = s.clock := by
  unfold arrivedTick
  repeat' (first | (simp; done) | simp | split | intro _ | (refine (clock_foldl _ _ _ ?_).trans ?_))
@[simp] theorem clock_startCheckpoint (card : CardId) (s : State) : (startCheckpoint card s).clock = s.clock := by simp [startCheckpoint]
@[simp] theorem clock_checkpointTick (card : CardId) (s : State) : (checkpointTick card s).clock = s.clock := by
  unfold checkpointTick
  repeat' (first | (simp; done) | simp | split | intro _ | (refine (clock_foldl _ _ _ ?_).trans ?_))
@[simp] theorem clock_allocatorRequest (nsid zone cls : Nat) (s : State) : (allocatorRequest nsid zone cls s).clock = s.clock := by
  unfold allocatorRequest
  repeat' (first | (simp; done) | simp | split | intro _ | (refine (clock_foldl _ _ _ ?_).trans ?_))
@[simp] theorem clock_gcCopy (nsid : Nat) (urgent : Bool) (r : Nat × Nat) (s : State) : (gcCopy nsid urgent r s).clock = s.clock := by simp [gcCopy]
@[simp] theorem clock_gcStart (nsid : Nat) (s : State) : (gcStart nsid s).clock = s.clock := by
  unfold gcStart
  dsimp only
  repeat' (first | (simp; done) | split | (refine (clock_foldl _ _ _ ?_).trans ?_) | intro _)
@[simp] theorem clock_gcRelease (slot : Nat) (s : State) : (gcRelease slot s).clock = s.clock := by simp [gcRelease]
@[simp] theorem clock_ackList (qp : Nat) (l : List (Nat × Nat × Nat × Nat × Bool)) (s : State) : (ackList qp l s).clock = s.clock := by
  unfold ackList
  repeat' (first | (simp; done) | simp | split | intro _ | (refine (clock_foldl _ _ _ ?_).trans ?_))
@[simp] theorem clock_resend (qp psn : Nat) (s : State) : (resend qp psn s).clock = s.clock := by
  unfold resend
  repeat' (first | (simp; done) | simp | split | intro _ | (refine (clock_foldl _ _ _ ?_).trans ?_))
@[simp] theorem clock_qpGoes (qp : Nat) (s : State) : (qpGoes qp s).clock = s.clock := by
  unfold qpGoes
  repeat' (first | (simp; done) | simp | split | intro _ | (refine (clock_foldl _ _ _ ?_).trans ?_))
@[simp] theorem clock_portGoes (c : CardId) (s : State) : (portGoes c s).clock = s.clock := by
  unfold portGoes
  repeat' (first | (simp; done) | simp | split | intro _ | (refine (clock_foldl _ _ _ ?_).trans ?_))
@[simp] theorem clock_answerRoce (c : CardId) (m : Nat × Option (Nat × Nat)) (s : State) : (answerRoce c m s).clock = s.clock := by
  unfold answerRoce
  repeat' (first | (simp; done) | simp | split | intro _ | (refine (clock_foldl _ _ _ ?_).trans ?_))
@[simp] theorem clock_pauseEnds (c : CardId) (s : State) : (pauseEnds c s).clock = s.clock := by
  unfold pauseEnds
  repeat' (first | (simp; done) | simp | split | intro _ | (refine (clock_foldl _ _ _ ?_).trans ?_))
@[simp] theorem clock_bulkTick (s : State) : (bulkTick s).clock = s.clock := by
  unfold bulkTick
  repeat' (first | (simp; done) | simp | split | intro _ | (refine (clock_foldl _ _ _ ?_).trans ?_))
@[simp] theorem clock_bulkEnd (reason k : Nat) (s : State) : (bulkEnd reason k s).clock = s.clock := by simp [bulkEnd]
@[simp] theorem clock_qpError (qp reason : Nat) (s : State) : (qpError qp reason s).clock = s.clock := by simp [qpError]
@[simp] theorem clock_retry (qp psn : Nat) (s : State) : (retry qp psn s).clock = s.clock := by simp [retry]
@[simp] theorem clock_countNak (qp : Nat) (s : State) : (countNak qp s).clock = s.clock := by simp [countNak]
@[simp] theorem clock_cnpAnswer (qp : Nat) (ce : Bool) (s : State) : (cnpAnswer qp ce s).clock = s.clock := by simp [cnpAnswer]
@[simp] theorem clock_readResponse (qp psn : Nat) (ce : Bool) (bytes : List Byte) (s : State) : (readResponse qp psn ce bytes s).clock = s.clock := by
  unfold readResponse
  repeat' (first | (simp; done) | simp | split | intro _ | (refine (clock_foldl _ _ _ ?_).trans ?_))
@[simp] theorem clock_sealTable (f : Nat) (s : State) : (sealTable f s).clock = s.clock := by simp [sealTable]
@[simp] theorem clock_holdChunks (f : Nat) (s : State) : (holdChunks f s).clock = s.clock := by simp [holdChunks]
@[simp] theorem clock_frondDepart (f st : Nat) (s : State) : (frondDepart f st s).clock = s.clock := by simp [frondDepart]
@[simp] theorem clock_untrain (f : Nat) (s : State) : (untrain f s).clock = s.clock := by
  unfold untrain
  repeat' (first | (simp; done) | simp | split | intro _ | (refine (clock_foldl _ _ _ ?_).trans ?_))
@[simp] theorem clock_linkCheck (s : State) : (linkCheck s).clock = s.clock := by simp [linkCheck]
@[simp] theorem clock_coreFailed (f : Nat) (s : State) : (coreFailed f s).clock = s.clock := by simp [coreFailed]
@[simp] theorem clock_requestRegs (l : List RegId) (s : State) : (requestRegs l s).clock = s.clock := by simp [requestRegs]
@[simp] theorem clock_followFreq (old s : State) : (followFreq old s).clock = s.clock := by
  unfold followFreq
  refine clock_foldl _ _ _ ?_
  intro t c
  split <;> simp
@[simp] theorem clock_startExit (x : ExitSt) (s : State) : (startExit x s).clock = s.clock := by simp [startExit]
@[simp] theorem clock_wakeEvent (target : Option Nat) (s : State) : (wakeEvent target s).clock = s.clock := by
  unfold wakeEvent
  split <;> simp
@[simp] theorem clock_portLost (p : Port) (s : State) : (portLost p s).clock = s.clock := by simp [portLost]
@[simp] theorem clock_dropAdmin (p : Port) (s : State) : (dropAdmin p s).clock = s.clock := by simp [dropAdmin]
@[simp] theorem clock_undoResets (sel : JRec → Bool) (s : State) : (undoResets sel s).clock = s.clock := by
  unfold undoResets
  extract_lets cut back one packed s1
  have hb : ∀ (t : State) (r : JRec), (back t r).clock = t.clock := by
    intro t r
    simp only [back]
    split <;> simp
  have ho : ∀ (c : CardId) (t : State), (one c t).clock = t.clock := by
    intro c t
    exact (clock_foldl _ _ _ hb).trans (by simp)
  refine (clock_foldl _ _ _ fun t w => ?_).trans (by simp only [s1]; rw [ho, ho])
  simp only [packed]
  split
  · exact (clock_foldl _ _ _ hb).trans (by simp)
  · rfl
@[simp] theorem clock_dropPort (p : Port) (s : State) : (dropPort p s).clock = s.clock := by simp [dropPort]
@[simp] theorem clock_ctrlReset (p : Port) (cc : BitVec 32) (s : State) : (ctrlReset p cc s).clock = s.clock := by
  unfold ctrlReset
  repeat' (first | (simp; done) | simp | split | intro _ | (refine (clock_foldl _ _ _ ?_).trans ?_))
@[simp] theorem clock_anaPort (p : Port) (s : State) : (anaPort p s).clock = s.clock := by simp [anaPort]
@[simp] theorem clock_anaUpdate (s : State) : (anaUpdate s).clock = s.clock := by simp [anaUpdate]
@[simp] theorem clock_raiseEpoch (s : State) : (raiseEpoch s).clock = s.clock := by simp [raiseEpoch]
@[simp] theorem clock_ackRecord (c : CardId) (msn : Nat) (s : State) : (ackRecord c msn s).clock = s.clock := by
  unfold ackRecord
  split <;> simp
@[simp] theorem clock_ackUpTo (c : CardId) (msn : Nat) (s : State) : (ackUpTo c msn s).clock = s.clock := by simp [ackUpTo]
@[simp] theorem clock_ackAll (c : CardId) (s : State) : (ackAll c s).clock = s.clock := by simp [ackAll]
@[simp] theorem clock_passJournal (c : CardId) (s : State) : (passJournal c s).clock = s.clock := by simp [passJournal]
@[simp] theorem clock_replaceMissing (o : CardId) (mine : List Nat) (s : State) : (replaceMissing o mine s).clock = s.clock := by simp [replaceMissing]
@[simp] theorem clock_settleLost (k : Nat) (s : State) : (settleLost k s).clock = s.clock := by simp [settleLost]
@[simp] theorem clock_cmdsMeet (c : CardId) (s : State) : (cmdsMeet c s).clock = s.clock := by simp [cmdsMeet]
@[simp] theorem clock_restartMember (m : Nat) (s : State) : (restartMember m s).clock = s.clock := by
  unfold restartMember
  repeat' (first | (simp; done) | (simp [clock_drawMember_eq ‹drawMember _ _ _ = _›]; done) | simp | split | intro _ | (refine (clock_foldl _ _ _ ?_).trans ?_))
@[simp] theorem clock_restartRebuild (ms : List Nat) (s : State) : (restartRebuild ms s).clock = s.clock := by
  unfold restartRebuild
  repeat' (first | (simp; done) | simp | split | intro _ | (refine (clock_foldl _ _ _ ?_).trans ?_))
@[simp] theorem clock_portsDown (c : CardId) (s : State) : (portsDown c s).clock = s.clock := by simp [portsDown]
@[simp] theorem clock_takeoverWakes (s : State) : (takeoverWakes s).clock = s.clock := by
  unfold takeoverWakes
  repeat' (first | (simp; done) | simp | split | intro _ | (refine (clock_foldl _ _ _ ?_).trans ?_))
@[simp] theorem clock_takeover (c : CardId) (s : State) : (takeover c s).clock = s.clock := by
  unfold takeover
  repeat' (first | (simp; done) | simp | split | intro _ | (refine (clock_foldl _ _ _ ?_).trans ?_))
@[simp] theorem clock_cardOut (c : CardId) (row : Nat) (why : HeldWhy) (s : State) : (cardOut c row why s).clock = s.clock := by simp [cardOut]
@[simp] theorem clock_startTransfer (g : Group) (dest : CardId) (s : State) : (startTransfer g dest s).clock = s.clock := by simp [startTransfer]
@[simp] theorem clock_releaseHeld (s : State) : (releaseHeld s).clock = s.clock := by simp [releaseHeld]
@[simp] theorem clock_switchGroup (t : Transfer) (s : State) : (switchGroup t s).clock = s.clock := by simp [switchGroup]
@[simp] theorem clock_culmBack (card : CardId) (s : State) : (culmBack card s).clock = s.clock := by simp [culmBack]
@[simp] theorem clock_answer (cmd : Option (Port × Nat × Nat)) (st : Nat × Nat) (dw0 dw1 : Nat) (s : State) :
    (answer cmd st dw0 dw1 s).clock = s.clock := by
  unfold answer
  split <;> simp
@[simp] theorem clock_entryEnds (result block point target : Nat) (s : State) : (entryEnds result block point target s).clock = s.clock := by simp [entryEnds]
@[simp] theorem clock_unwind (block : Nat) (s : State) : (unwind block s).clock = s.clock := by
  unfold unwind
  repeat' (first | (simp; done) | split)
@[simp] theorem clock_parkFrond (target f : Nat) (s : State) : (parkFrond target f s).clock = s.clock := by simp [parkFrond]
@[simp] theorem clock_entryWait (en : EntrySt) (l : List Nat) (s : State) : (entryWait en l s).clock = s.clock := by simp [entryWait]
@[simp] theorem clock_entryPass (go : State → State) (s : State) (hgo : ∀ y0, (go y0).clock = y0.clock) : (entryPass go s).clock = s.clock := by
  unfold entryPass
  split <;> simp [hgo]
@[simp] theorem clock_entryHosts (en : EntrySt) (go : State → State) (s : State) (hgo : ∀ y0, (go y0).clock = y0.clock) :
    (entryHosts en go s).clock = s.clock := by simp [entryHosts, hgo]
@[simp] theorem clock_entryPair (en : EntrySt) (go : State → State) (s : State) (hgo : ∀ y0, (go y0).clock = y0.clock) :
    (entryPair en go s).clock = s.clock := by
  unfold entryPair
  split <;> simp [hgo]
@[simp] theorem clock_entryDone (en : EntrySt) (s : State) : (entryDone en s).clock = s.clock := by
  unfold entryDone
  repeat' (first | (simp; done) | split)
@[simp] theorem clock_entryGo (n : Nat) (s : State) : (entryGo n s).clock = s.clock := by
  induction n generalizing s with
  | zero => rfl
  | succ n ih =>
    rw [entryGo]
    repeat' (first | (simp [ih]; done) | split)
@[simp] theorem clock_entryAdvance (s : State) : (entryAdvance s).clock = s.clock := by simp [entryAdvance]
@[simp] theorem clock_startEntry (target : Nat) (cmd : Option (Port × Nat × Nat)) (s : State) : (startEntry target cmd s).clock = s.clock := by simp [startEntry]
@[simp] theorem clock_regFailed (reg : RegId) (s : State) : (regFailed reg s).clock = s.clock := by
  unfold regFailed
  split <;> simp
@[simp] theorem clock_placeWaiting (s : State) : (placeWaiting s).clock = s.clock := by simp [placeWaiting]
@[simp] theorem clock_memberBlock (f m v : Nat) (s : State) : (memberBlock f m v s).clock = s.clock := by
  unfold memberBlock
  repeat' (first | (simp; done) | (simp [clock_drawMember_eq ‹drawMember _ _ _ = _›]; done) | simp | split | intro _ | (refine (clock_foldl _ _ _ ?_).trans ?_))
@[simp] theorem clock_raiseGen (m : Nat) (s : State) : (raiseGen m s).clock = s.clock := by
  unfold raiseGen
  repeat' (first | (simp; done) | simp | split | intro _ | (refine (clock_foldl _ _ _ ?_).trans ?_))
@[simp] theorem clock_memberReturn (f m : Nat) (s : State) : (memberReturn f m s).clock = s.clock := by
  unfold memberReturn
  repeat' (first | (simp; done) | simp | split | intro _ | (refine (clock_foldl _ _ _ ?_).trans ?_))
@[simp] theorem clock_uncut (f : Nat) (s : State) : (uncut f s).clock = s.clock := by simp [uncut]
@[simp] theorem clock_acceptMark (f : Nat) (s : State) : (acceptMark f s).clock = s.clock := by simp [acceptMark]
@[simp] theorem clock_queueFills (kind f : Nat) (s : State) : (queueFills kind f s).clock = s.clock := by simp [queueFills]
@[simp] theorem clock_staleSeed (f : Nat) (s : State) : (staleSeed f s).clock = s.clock := by
  unfold staleSeed
  repeat' (first | (simp; done) | simp | split | intro _ | (refine (clock_foldl _ _ _ ?_).trans ?_))
@[simp] theorem clock_frondKnown (f : Nat) (s : State) : (frondKnown f s).clock = s.clock := by simp [frondKnown]
@[simp] theorem clock_trainedIn (f : Nat) (s : State) : (trainedIn f s).clock = s.clock := by
  unfold trainedIn
  repeat' (first | (simp; done) | simp | split | intro _ | (refine (clock_foldl _ _ _ ?_).trans ?_))
@[simp] theorem clock_markFactory (f : Nat) (bad : List Nat) (s : State) : (markFactory f bad s).clock = s.clock := by
  unfold markFactory
  repeat' (first | (simp; done) | simp | split | intro _ | (refine (clock_foldl _ _ _ ?_).trans ?_))
@[simp] theorem clock_frondNew (f : Nat) (id : FrondIdent) (s : State) : (frondNew f id s).clock = s.clock := by
  unfold frondNew
  repeat' (first | (simp; done) | simp | split | intro _ | (refine (clock_foldl _ _ _ ?_).trans ?_))
@[simp] theorem clock_frondLost (f : Nat) (s : State) : (frondLost f s).clock = s.clock := by simp [frondLost]
@[simp] theorem clock_zoneBack (r : JRec) (s : State) : (zoneBack r s).clock = s.clock := by
  unfold zoneBack
  repeat' (first | (simp; done) | simp | split | intro _ | (refine (clock_foldl _ _ _ ?_).trans ?_))
@[simp] theorem clock_memberAgain (m : Nat) (s : State) : (memberAgain m s).clock = s.clock := by
  unfold memberAgain
  repeat' (first | (simp; done) | simp | split | intro _ | (refine (clock_foldl _ _ _ ?_).trans ?_))
@[simp] theorem clock_undoRec (s : State) (r : JRec) : (undoRec s r).clock = s.clock := by
  unfold undoRec
  repeat' (first | (simp; done) | split)
@[simp] theorem clock_dropJournal (c : CardId) (s : State) : (dropJournal c s).clock = s.clock := by
  unfold dropJournal
  repeat' (first | (simp; done) | simp | split | intro _ | (refine (clock_foldl _ _ _ ?_).trans ?_))
@[simp] theorem clock_cutJournal (c : CardId) (s : State) : (cutJournal c s).clock = s.clock := by simp [cutJournal]
@[simp] theorem clock_saveJournal (c : CardId) (s : State) : (saveJournal c s).clock = s.clock := by simp [saveJournal]
@[simp] theorem clock_stopFilnas (f : Nat) (s : State) : (stopFilnas f s).clock = s.clock := by simp [stopFilnas]
@[simp] theorem clock_cutRecorder (s : State) : (cutRecorder s).clock = s.clock := by simp [cutRecorder]
@[simp] theorem clock_stopAll (powerOff : Bool) (s : State) : (stopAll powerOff s).clock = s.clock := by simp [stopAll]
@[simp] theorem clock_powerLoss (s : State) : (powerLoss s).clock = s.clock := by simp [powerLoss]
@[simp] theorem clock_busCheck (s : State) : (busCheck s).clock = s.clock := by simp [busCheck]
@[simp] theorem clock_replayZone (zk : Nat) (s : State) : (replayZone zk s).clock = s.clock := by
  unfold replayZone
  repeat' (first | (simp; done) | simp | split | intro _ | (refine (clock_foldl _ _ _ ?_).trans ?_))
@[simp] theorem clock_replayConv (slot : Nat) (s : State) : (replayConv slot s).clock = s.clock := by
  unfold replayConv
  repeat' (first | (simp; done) | simp | split | intro _ | (refine (clock_foldl _ _ _ ?_).trans ?_))
@[simp] theorem clock_replayCopies (s : State) : (replayCopies s).clock = s.clock := by simp [replayCopies]
@[simp] theorem clock_replayMembers (s : State) : (replayMembers s).clock = s.clock := by
  unfold replayMembers
  repeat' (first | (simp; done) | simp | split | intro _ | (refine (clock_foldl _ _ _ ?_).trans ?_))
@[simp] theorem clock_replay (s : State) : (replay s).clock = s.clock := by simp [replay]
@[simp] theorem clock_nextSeq (found : Nat) (s : State) : (nextSeq found s).clock = s.clock := by simp [nextSeq]
@[simp] theorem clock_returnFronds (back : Nat → Bool) (s : State) : (returnFronds back s).clock = s.clock := by simp [returnFronds]
@[simp] theorem clock_alarm (p : PeuId) (s : State) : (alarm p s).clock = s.clock := by simp [alarm]
@[simp] theorem clock_peuFault (p : PeuId) (bitNo st : Nat) (hold : Bool) (s : State) : (peuFault p bitNo st hold s).clock = s.clock := by simp [peuFault]
@[simp] theorem clock_peuRestart (p : PeuId) (s : State) : (peuRestart p s).clock = s.clock := by simp [peuRestart]
@[simp] theorem clock_feedBack (s : State) : (feedBack s).clock = s.clock := by simp [feedBack]
@[simp] theorem clock_sendPeu (p : PeuId) (c : CardId) (type : Nat) (payload : List Nat) (s : State) :
    (sendPeu p c type payload s).2.clock = s.clock := by simp [sendPeu]
theorem clock_sendPeu_eq {p : PeuId} {c : CardId} {type : Nat} {payload : List Nat} {s : State} {x : _} {t : State} (h : sendPeu p c type payload s = (x, t)) : t.clock = s.clock := by
  have := clock_sendPeu p c type payload s
  rw [h] at this; exact this
@[simp] theorem clock_command (p : PeuId) (type : Nat) (payload : List Nat) (cmd : Option (Port × Nat × Nat)) (s : State) :
    (command p type payload cmd s).clock = s.clock := by simp [command]
@[simp] theorem clock_greetPeu (p : PeuId) (s : State) : (greetPeu p s).clock = s.clock := by simp [greetPeu]
@[simp] theorem clock_sendBlocks (n : Nat) (p : PeuId) (s : State) : (sendBlocks n p s).clock = s.clock := by
  induction n generalizing s with
  | zero => rfl
  | succ n ih =>
    rw [sendBlocks]
    repeat' (first | (simp [ih]; done) | split)
@[simp] theorem clock_peuUpdate (p : PeuId) (s : State) : (peuUpdate p s).clock = s.clock := by simp [peuUpdate]
@[simp] theorem clock_peuCheck (s : State) : (peuCheck s).clock = s.clock := by simp [peuCheck]
@[simp] theorem clock_capacityStep (c0 : Nat) (s : State) : (capacityStep c0 s).clock = s.clock := by simp [capacityStep]
@[simp] theorem clock_hear (c : CardId) (p : PeuId) (a : BitVec 8) (crcOk : Bool) (s : State) : (hear c p a crcOk s).2.clock = s.clock := by simp [hear, alive]
theorem clock_hear_eq {c : CardId} {p : PeuId} {a : BitVec 8} {b : Bool} {s : State} {x : Bool} {t : State} (h : hear c p a b s = (x, t)) : t.clock = s.clock := by
  have := clock_hear c p a b s
  rw [h] at this; exact this
@[simp] theorem clock_left2 (old new : Nat) (s : State) : (left2 old new s).clock = s.clock := by simp [left2]
@[simp] theorem clock_peuHears (p : PeuId) (m : BarrierCmd) (s : State) : (peuHears p m s).2.clock = s.clock := by simp [peuHears]
theorem clock_peuHears_eq {p : PeuId} {m : BarrierCmd} {s : State} {x : _} {t : State} (h : peuHears p m s = (x, t)) : t.clock = s.clock := by
  have := clock_peuHears p m s
  rw [h] at this; exact this
@[simp] theorem clock_peuAck (p : PeuId) (m : BarrierCmd) (type result data : Nat) (s : State) : (peuAck p m type result data s).clock = s.clock := by simp [peuAck]
@[simp] theorem clock_atPeu (p : PeuId) (m : BarrierCmd) (type : Nat) (run : State → Nat × Nat × State) (s : State)
    (hrun : ∀ t, (run t).2.2.clock = t.clock) : (atPeu p m type run s).clock = s.clock := by
  unfold atPeu
  split
  rename_i hq
  have h1 := clock_peuHears_eq hq
  split
  · exact h1
  · split <;> simp [hrun, h1]
@[simp] theorem clock_peuCtlEnd (cmd : Option (Port × Nat × Nat)) (action : Nat) (st : Nat × Nat) (s : State) :
    (peuCtlEnd cmd action st s).clock = s.clock := by
  unfold peuCtlEnd
  split <;> simp
@[simp] theorem clock_slotOff (slot : FuseSlot) (s : State) : (slotOff slot s).clock = s.clock := by
  unfold slotOff
  split <;> simp
@[simp] theorem clock_frondOn (f : Nat) (s : State) : (frondOn f s).clock = s.clock := by
  unfold frondOn
  repeat' (first | (simp; done) | simp | split | intro _ | (refine (clock_foldl _ _ _ ?_).trans ?_))
@[simp] theorem clock_slotOn (slot : FuseSlot) (s : State) : (slotOn slot s).clock = s.clock := by
  unfold slotOn
  split <;> simp
@[simp] theorem clock_fuseRetryNow (slot : FuseSlot) (s : State) : (fuseRetryNow slot s).clock = s.clock := by simp [fuseRetryNow]
@[simp] theorem clock_setFactor (d v : Nat) (s : State) : (setFactor d v s).clock = s.clock := by
  unfold setFactor
  repeat' (first | (simp; done) | split)
@[simp] theorem clock_domainStep (d : Nat) (s : State) : (domainStep d s).clock = s.clock := by simp [domainStep]
@[simp] theorem clock_shutdownEnd (s : State) : (shutdownEnd s).clock = s.clock := by simp [shutdownEnd]
@[simp] theorem clock_thermalStep (s : State) : (thermalStep s).clock = s.clock := by simp [thermalStep]
@[simp] theorem clock_enterReading (r : SensorReading) (s : State) : (enterReading r s).clock = s.clock := by
  unfold enterReading
  split
  · dsimp only
    split <;> simp
  · rfl
@[simp] theorem clock_dropReadings (s : State) : (dropReadings s).clock = s.clock := by simp [dropReadings]
@[simp] theorem clock_engineOut (c : CardId) (i how : Nat) (s : State) : (engineOut c i how s).clock = s.clock := by simp [engineOut]
@[simp] theorem clock_updRank (card : CardId) (n : Nat) (g : Rank → Rank) (s : State) : (updRank card n g s).clock = s.clock := by simp [updRank]
@[simp] theorem clock_noSpare (card : CardId) (s : State) : (noSpare card s).clock = s.clock := by simp [noSpare]
@[simp] theorem clock_retire (card : CardId) (n why : Nat) (s : State) : (retire card n why s).clock = s.clock := by simp [retire]
@[simp] theorem clock_rankFails (card : CardId) (s : State) (r : Nat) : (rankFails card s r).clock = s.clock := by
  unfold rankFails
  repeat' (first | (simp; done) | simp | split | intro _ | (refine (clock_foldl _ _ _ ?_).trans ?_))
@[simp] theorem clock_ranksTrained (card : CardId) (s : State) : (ranksTrained card s).clock = s.clock := by
  unfold ranksTrained
  repeat' (first | (simp; done) | simp | split | intro _ | (refine (clock_foldl _ _ _ ?_).trans ?_))
@[simp] theorem clock_selfTest (card : CardId) (bad : List Nat) (s : State) : (selfTest card bad s).clock = s.clock := by
  unfold selfTest
  repeat' (first | (simp; done) | simp | split | intro _ | (refine (clock_foldl _ _ _ ?_).trans ?_))
@[simp] theorem clock_fwEvent (ob what sec : Nat) (s : State) : (fwEvent ob what sec s).clock = s.clock := by simp [fwEvent]
@[simp] theorem clock_fellBack (card : CardId) (s : State) : (fellBack card s).clock = s.clock := by simp [fellBack]
@[simp] theorem clock_runSlot (card : CardId) (n : Nat) (new back : Bool) (s : State) : (runSlot card n new back s).clock = s.clock := by simp [runSlot]
@[simp] theorem clock_loadUnits (s : State) : (loadUnits s).clock = s.clock := by simp [loadUnits]
@[simp] theorem clock_returnWaiting (s : State) : (returnWaiting s).clock = s.clock := by simp [returnWaiting]
@[simp] theorem clock_serve (card : CardId) (s : State) : (serve card s).clock = s.clock := by simp [serve]
@[simp] theorem clock_copyImage (card : CardId) (s : State) : (copyImage card s).clock = s.clock := by simp [copyImage]
@[simp] theorem clock_besidePartner (card : CardId) (s : State) : (besidePartner card s).clock = s.clock := by simp [besidePartner]
@[simp] theorem clock_holdCard (card : CardId) (why : HeldWhy) (s : State) : (holdCard card why s).clock = s.clock := by simp [holdCard]
@[simp] theorem clock_frondEvent (code cls f a1 a2 : Nat) (s : State) : (frondEvent code cls f a1 a2 s).clock = s.clock := by simp [frondEvent]
@[simp] theorem clock_notTaken (f : Nat) (s : State) : (notTaken f s).clock = s.clock := by simp [notTaken]
@[simp] theorem clock_prepEnds (f : Nat) (s : State) : (prepEnds f s).clock = s.clock := by
  unfold prepEnds
  split <;> simp
@[simp] theorem clock_cardLeaves (card : CardId) (s : State) : (cardLeaves card s).clock = s.clock := by simp [cardLeaves]
@[simp] theorem clock_parityFault (card : CardId) (bank p : Nat) (s : State) : (parityFault card bank p s).clock = s.clock := by simp [parityFault]
@[simp] theorem clock_repair (card : CardId) (l : List Nat) (s : State) : (repair card l s).clock = s.clock := by
  unfold repair
  repeat' (first | (simp; done) | simp | split | intro _ | (refine (clock_foldl _ _ _ ?_).trans ?_))
@[simp] theorem clock_decTimes (c : CardId) (p i e n : Nat) (s : State) : (decTimes c p i e n s).clock = s.clock := by
  induction n generalizing s with
  | zero => rfl
  | succ n ih => rw [decTimes, ih]; simp
@[simp] theorem clock_poisonLine (card : CardId) (n line : Nat) (s : State) : (poisonLine card n line s).clock = s.clock := by simp [poisonLine]
@[simp] theorem clock_migrateTo (card : CardId) (n y : Nat) (s : State) : (migrateTo card n y s).clock = s.clock := by simp [migrateTo]
@[simp] theorem clock_dramBad (card : CardId) (n line : Nat) (s : State) : (dramBad card n line s).clock = s.clock := by
  unfold dramBad
  repeat' (first | (simp; done) | simp | split | intro _ | (refine (clock_foldl _ _ _ ?_).trans ?_))
@[simp] theorem clock_rankBoundary (card : CardId) (s : State) : (rankBoundary card s).clock = s.clock := by simp [rankBoundary]
@[simp] theorem clock_poisonRead (card : CardId) (line : Nat) (use : PoisonUse) (s : State) : (poisonRead card line use s).clock = s.clock := by
  unfold poisonRead
  repeat' (first | (simp; done) | simp | split | intro _ | (refine (clock_foldl _ _ _ ?_).trans ?_))
@[simp] theorem clock_updMember (p : Nat) (g : SheafMember → SheafMember) (s : State) : (updMember p g s).clock = s.clock := by simp [updMember]
@[simp] theorem clock_culmSend (p : CulmPort) (type dst : Nat) (bcast : Bool) (hops src : Nat) (payload : List Nat) (s : State) :
    (culmSend p type dst bcast hops src payload s).clock = s.clock := by simp [culmSend]
@[simp] theorem clock_ownMsg (p : CulmPort) (type dst : Nat) (payload : List Nat) (s : State) : (ownMsg p type dst payload s).clock = s.clock := by simp [ownMsg]
@[simp] theorem clock_broadcast (type : Nat) (payload : List Nat) (s : State) : (broadcast type payload s).clock = s.clock := by simp [broadcast]
@[simp] theorem clock_toMember (dst type : Nat) (payload : List Nat) (s : State) : (toMember dst type payload s).clock = s.clock := by simp [toMember]
@[simp] theorem clock_receive (p : CulmPort) (type : Nat) (hdr : CulmHdr) (fwd : Bool) (payload : List Nat) (s : State) :
    (receive p type hdr fwd payload s).1.clock = s.clock := by
  unfold receive
  split
  · rfl
  · simp only [alive]
    repeat' (first | (simp; done) | simp | split)
theorem clock_receive_eq {p : CulmPort} {type : Nat} {hdr : CulmHdr} {fwd : Bool} {payload : List Nat} {s t : State} {y : Bool}
    (h : receive p type hdr fwd payload s = (t, y)) : t.clock = s.clock := by
  have := clock_receive p type hdr fwd payload s
  rw [h] at this; exact this
@[simp] theorem clock_sheafEvent (code cls ob a0 a1 a2 : Nat) (s : State) : (sheafEvent code cls ob a0 a1 a2 s).clock = s.clock := by simp [sheafEvent]
@[simp] theorem clock_holdPort (p : CulmPort) (s : State) : (holdPort p s).clock = s.clock := by simp [holdPort]
@[simp] theorem clock_wireCheck (p : CulmPort) (s : State) : (wireCheck p s).clock = s.clock := by
  unfold wireCheck
  split <;> simp
@[simp] theorem clock_joinSheaf (s : State) : (joinSheaf s).clock = s.clock := by simp [joinSheaf]
@[simp] theorem clock_sendPlan (s : State) : (sendPlan s).clock = s.clock := by simp [sendPlan]
@[simp] theorem clock_joins (p : Nat) (s : State) : (joins p s).clock = s.clock := by simp [joins]
@[simp] theorem clock_leaves (p : Nat) (s : State) : (leaves p s).clock = s.clock := by
  unfold leaves
  repeat' (first | (simp; done) | simp | split | intro _ | (refine (clock_foldl _ _ _ ?_).trans ?_))
@[simp] theorem clock_heard (p : Nat) (port : CulmPort) (hops : Nat) (serial : List Byte) (code : Nat) (el ovr : Bool) (s : State) :
    (heard p port hops serial code el ovr s).clock = s.clock := by simp [heard]
@[simp] theorem clock_conflict (serial : List Byte) (s : State) : (conflict serial s).clock = s.clock := by simp [conflict]
@[simp] theorem clock_startHand (cmd : Option (Port × Nat × Nat × Nat)) (x : Nat) (s : State) : (startHand cmd x s).clock = s.clock := by simp [startHand]
@[simp] theorem clock_yieldLead (p : Nat) (s : State) : (yieldLead p s).clock = s.clock := by simp [yieldLead]
@[simp] theorem clock_planDone (s : State) : (planDone s).clock = s.clock := by
  unfold planDone
  split <;> simp
@[simp] theorem clock_rachisStep (off : ℤ) (s : State) : (rachisStep off s).clock = s.clock := by simp [rachisStep]
@[simp] theorem clock_leadChange (p ep : Nat) (s : State) : (leadChange p ep s).clock = s.clock := by simp [leadChange]
@[simp] theorem clock_emitRachis (s : State) : (emitRachis s).clock = s.clock := by simp [emitRachis]
@[simp] theorem clock_leaveSheaf (s : State) : (leaveSheaf s).clock = s.clock := by simp [leaveSheaf]
@[simp] theorem clock_handEnds (s : State) : (handEnds s).clock = s.clock := by
  unfold handEnds
  split <;> simp
@[simp] theorem clock_follow (port : CulmPort) (hops sfc ep p : Nat) (correction arrival : ℤ) (s : State) :
    (follow port hops sfc ep p correction arrival s).clock = s.clock := by
  unfold follow
  dsimp only
  split <;> simp
@[simp] theorem clock_rachis (port : CulmPort) (hdr : CulmHdr) (sfc ep p : Nat) (correction arrival : ℤ) (s : State) :
    (rachis port hdr sfc ep p correction arrival s).clock = s.clock := by simp [rachis]
@[simp] theorem clock_sendEvents (s : State) : (sendEvents s).clock = s.clock := by simp [sendEvents]
@[simp] theorem clock_ringAdd (p : Nat) (r : EventRec) (s : State) : (ringAdd p r s).clock = s.clock := by simp [ringAdd]
@[simp] theorem clock_startProgram (s : State) : (startProgram s).clock = s.clock := by simp [startProgram]
@[simp] theorem clock_dropFull (s : State) : (dropFull s).clock = s.clock := by simp [dropFull]
@[simp] theorem clock_fullCheck (s : State) : (fullCheck s).clock = s.clock := by simp [fullCheck]
@[simp] theorem clock_storePut (f : Nat) (r : EventRec) (s : State) : (storePut f r s).clock = s.clock := by simp [storePut]
@[simp] theorem clock_copyTo (f : Nat) (r : EventRec) (s : State) : (copyTo f r s).clock = s.clock := by simp [copyTo]
@[simp] theorem clock_flushStore (f : Nat) (s : State) : (flushStore f s).clock = s.clock := by simp [flushStore]
@[simp] theorem clock_recorded (r : EventRec) (s : State) : (recorded r s).clock = s.clock := by simp [recorded]
@[simp] theorem clock_programEnd (s : State) : (programEnd s).clock = s.clock := by
  unfold programEnd
  repeat' (first | (simp; done) | simp | split | intro _ | (refine (clock_foldl _ _ _ ?_).trans ?_))
@[simp] theorem clock_ends (e : Sqe) (st : Nat × Nat) (dw0 dw1 : Nat) (data : List Byte) (s : State) :
    (ends e st dw0 dw1 data s).clock = s.clock := by simp [ends]
@[simp] theorem clock_done (e : Sqe) (s : State) : (done e s).clock = s.clock := by simp [done]
@[simp] theorem clock_bad (e : Sqe) (st : Nat × Nat) (s : State) : (bad e st s).clock = s.clock := by simp [bad]
@[simp] theorem clock_refused (e : Sqe) (reason : Nat) (s : State) : (refused e reason s).clock = s.clock := by simp [refused]
theorem clock_consume_some {e : Sqe} {s t : State} (h : consume e s = some t) : t.clock = s.clock := by
  unfold consume at h
  repeat' (first
    | (simp at h; done)
    | (simp at h; subst h; simp; done)
    | (simp at h; simp [← h.2]; done)
    | (simp at h; simp [← h]; done)
    | split at h)
@[simp] theorem clock_admin (e : Sqe) (run : State → State) (s : State) (hrun : ∀ y0, (run y0).clock = y0.clock) :
    (admin e run s).clock = s.clock := by
  unfold admin
  repeat' (first | (simp [hrun]; done) | (have hq := clock_consume_some (by assumption); simp [hq, hrun]; done) | simp [hrun] | split | intro _ | (refine (clock_foldl _ _ _ ?_).trans ?_))
@[simp] theorem clock_createCq (e : Sqe) (s : State) : (createCq e s).clock = s.clock := by simp [createCq]
@[simp] theorem clock_createSq (e : Sqe) (s : State) : (createSq e s).clock = s.clock := by simp [createSq]
@[simp] theorem clock_abortCmd (st : Nat × Nat) (k : Nat) (s : State) : (abortCmd st k s).clock = s.clock := by simp [abortCmd]
@[simp] theorem clock_deleteSq (e : Sqe) (s : State) : (deleteSq e s).clock = s.clock := by simp [deleteSq]
@[simp] theorem clock_deleteCq (e : Sqe) (s : State) : (deleteCq e s).clock = s.clock := by simp [deleteCq]
@[simp] theorem clock_abort (e : Sqe) (s : State) : (abort e s).clock = s.clock := by
  unfold abort
  repeat' (first | (simp; done) | simp | split | intro _ | (refine (clock_foldl _ _ _ ?_).trans ?_))
@[simp] theorem clock_asyncRequest (e : Sqe) (s : State) : (asyncRequest e s).clock = s.clock := by simp [asyncRequest]
@[simp] theorem clock_identify (e : Sqe) (s : State) : (identify e s).clock = s.clock := by
  unfold identify
  split <;> simp
@[simp] theorem clock_logRead (e : Sqe) (s : State) : (logRead e s).clock = s.clock := by simp [logRead]
@[simp] theorem clock_getLog (e : Sqe) (s : State) : (getLog e s).clock = s.clock := by
  unfold getLog
  split <;> simp
@[simp] theorem clock_setFeat (g : Features → Features) (s : State) : (setFeat g s).clock = s.clock := by simp [setFeat]
@[simp] theorem clock_setFeature (e : Sqe) (run : State → State) (s : State) (hrun : ∀ y0, (run y0).clock = y0.clock) :
    (setFeature e run s).clock = s.clock := by simp [setFeature, hrun]
@[simp] theorem clock_withData (n : Nat) (e : Sqe) (run : List Byte → State → State) (s : State) (hrun : ∀ y0 y1, (run y0 y1).clock = y1.clock) :
    (withData n e run s).clock = s.clock := by simp [withData, hrun]
@[simp] theorem clock_setArbitration (e : Sqe) (s : State) : (setArbitration e s).clock = s.clock := by simp [setArbitration]
@[simp] theorem clock_setPowerState (e : Sqe) (s : State) : (setPowerState e s).clock = s.clock := by simp [setPowerState]
@[simp] theorem clock_setThreshold (e : Sqe) (s : State) : (setThreshold e s).clock = s.clock := by simp [setThreshold]
@[simp] theorem clock_setQueues (e : Sqe) (s : State) : (setQueues e s).clock = s.clock := by simp [setQueues]
@[simp] theorem clock_setCoalescing (e : Sqe) (s : State) : (setCoalescing e s).clock = s.clock := by simp [setCoalescing]
@[simp] theorem clock_setVector (e : Sqe) (s : State) : (setVector e s).clock = s.clock := by simp [setVector]
@[simp] theorem clock_setAsync (e : Sqe) (s : State) : (setAsync e s).clock = s.clock := by simp [setAsync]
@[simp] theorem clock_setTimestamp (e : Sqe) (d : List Byte) (s : State) : (setTimestamp e d s).clock = s.clock := by simp [setTimestamp]
@[simp] theorem clock_noCache (e : Sqe) (s : State) : (noCache e s).clock = s.clock := by simp [noCache]
@[simp] theorem clock_unknownFeature (e : Sqe) (s : State) : (unknownFeature e s).clock = s.clock := by simp [unknownFeature]
@[simp] theorem clock_settingIf (okay : Bool) (e : Sqe) (g : State → State) (s : State) (hg : ∀ y0, (g y0).clock = y0.clock) :
    (settingIf okay e g s).clock = s.clock := by simp [settingIf, hg]
@[simp] theorem clock_setFrames (e : Sqe) (d : List Byte) (s : State) : (setFrames e d s).clock = s.clock := by simp [setFrames]
@[simp] theorem clock_setThrottle (e : Sqe) (d : List Byte) (s : State) : (setThrottle e d s).clock = s.clock := by simp [setThrottle]
@[simp] theorem clock_setBudget (e : Sqe) (d : List Byte) (s : State) : (setBudget e d s).clock = s.clock := by simp [setBudget]
@[simp] theorem clock_setRates (e : Sqe) (d : List Byte) (s : State) : (setRates e d s).clock = s.clock := by simp [setRates]
@[simp] theorem clock_setScrub (e : Sqe) (d : List Byte) (s : State) : (setScrub e d s).clock = s.clock := by simp [setScrub]
@[simp] theorem clock_setGrain (e : Sqe) (d : List Byte) (s : State) : (setGrain e d s).clock = s.clock := by simp [setGrain]
@[simp] theorem clock_setBulk (e : Sqe) (d : List Byte) (s : State) : (setBulk e d s).clock = s.clock := by simp [setBulk]
@[simp] theorem clock_setMissPolicy (e : Sqe) (s : State) : (setMissPolicy e s).clock = s.clock := by simp [setMissPolicy]
@[simp] theorem clock_setSeedbed (e : Sqe) (d : List Byte) (s : State) : (setSeedbed e d s).clock = s.clock := by simp [setSeedbed]
@[simp] theorem clock_getFeatures (e : Sqe) (s : State) : (getFeatures e s).clock = s.clock := by
  unfold getFeatures
  repeat' (first | (simp; done) | simp | split | intro _ | (refine (clock_foldl _ _ _ ?_).trans ?_))
@[simp] theorem clock_addJob (e : Sqe) (begun : Bool) (dw0 : Nat) (s : State) : (addJob e begun dw0 s).2.clock = s.clock := by simp [addJob]
theorem clock_addJob_eq {e : Sqe} {begun : Bool} {dw0 : Nat} {s : State} {x : _} {t : State} (h : addJob e begun dw0 s = (x, t)) : t.clock = s.clock := by
  have := clock_addJob e begun dw0 s
  rw [h] at this; exact this
@[simp] theorem clock_dropJob (k : Nat) (s : State) : (dropJob k s).clock = s.clock := by simp [dropJob]
@[simp] theorem clock_nsCreate (e : Sqe) (d : List Byte) (s : State) : (nsCreate e d s).clock = s.clock := by
  unfold nsCreate
  repeat' (first | (simp; done) | split)
@[simp] theorem clock_nsDelete (e : Sqe) (s : State) : (nsDelete e s).clock = s.clock := by
  unfold nsDelete
  repeat' (first | (simp; done) | split)
@[simp] theorem clock_nsAttach (e : Sqe) (d : List Byte) (s : State) : (nsAttach e d s).clock = s.clock := by
  unfold nsAttach
  repeat' (first | (simp; done) | split)
@[simp] theorem clock_nsDetach (e : Sqe) (d : List Byte) (s : State) : (nsDetach e d s).clock = s.clock := by
  unfold nsDetach
  repeat' (first | (simp; done) | split)
@[simp] theorem clock_formatNow (k : Nat) (e : Sqe) (s : State) : (formatNow k e s).clock = s.clock := by simp [formatNow]
@[simp] theorem clock_formatNvm (e : Sqe) (s : State) : (formatNvm e s).clock = s.clock := by simp [formatNvm]
@[simp] theorem clock_formatBegin (j : Job) (s : State) : (formatBegin j s).clock = s.clock := by simp [formatBegin]
@[simp] theorem clock_download (e : Sqe) (s : State) : (download e s).clock = s.clock := by simp [download]
@[simp] theorem clock_beginWrite (card : CardId) (w : SlotWrite) (s : State) : (beginWrite card w s).clock = s.clock := by simp [beginWrite]
@[simp] theorem clock_relayEvent (w : FwSlot) (s : State) : (relayEvent w s).clock = s.clock := by simp [relayEvent]
@[simp] theorem clock_offer (s : State) : (offer s).clock = s.clock := by simp [offer]
@[simp] theorem clock_startRelay (w : FwSlot) (action : Nat) (s : State) : (startRelay w action s).clock = s.clock := by simp [startRelay]
@[simp] theorem clock_commitStaged (e : Sqe) (s : State) : (commitStaged e s).clock = s.clock := by
  unfold commitStaged
  repeat' (first | (simp; done) | simp | split | intro _ | (refine (clock_foldl _ _ _ ?_).trans ?_))
@[simp] theorem clock_commitSlot (e : Sqe) (s : State) : (commitSlot e s).clock = s.clock := by
  unfold commitSlot
  repeat' (first | (simp; done) | simp | split | intro _ | (refine (clock_foldl _ _ _ ?_).trans ?_))
@[simp] theorem clock_beginActivation (card : CardId) (s : State) : (beginActivation card s).clock = s.clock := by simp [beginActivation]
@[simp] theorem clock_activateBoth (s : State) : (activateBoth s).clock = s.clock := by simp [activateBoth]
@[simp] theorem clock_commitEnds (cmd : Option (Port × Nat × Nat)) (action : Nat) (st : Nat × Nat) (s : State) :
    (commitEnds cmd action st s).clock = s.clock := by
  unfold commitEnds
  split <;> simp
@[simp] theorem clock_confirmSpores (s : State) : (confirmSpores s).clock = s.clock := by simp [confirmSpores]
@[simp] theorem clock_relayStored (s : State) : (relayStored s).clock = s.clock := by simp [relayStored]
@[simp] theorem clock_slotsWritten (card : CardId) (w : SlotWrite) (s : State) : (slotsWritten card w s).clock = s.clock := by
  unfold slotsWritten
  repeat' (first | (simp; done) | simp | split | intro _ | (refine (clock_foldl _ _ _ ?_).trans ?_))
@[simp] theorem clock_commitStep (card : CardId) (s : State) : (commitStep card s).clock = s.clock := by
  unfold commitStep
  repeat' (first | (simp; done) | split)
@[simp] theorem clock_activationEnds (st : Nat × Nat) (s : State) : (activationEnds st s).clock = s.clock := by simp [activationEnds]
@[simp] theorem clock_waitForCb (s : State) : (waitForCb s).clock = s.clock := by simp [waitForCb]
@[simp] theorem clock_activationStep (card : CardId) (s : State) : (activationStep card s).clock = s.clock := by
  unfold activationStep
  repeat' (first | (simp; done) | simp | split | intro _ | (refine (clock_foldl _ _ _ ?_).trans ?_))
@[simp] theorem clock_filnasRuns (f : Nat) (s : State) : (filnasRuns f s).clock = s.clock := by
  unfold filnasRuns
  split <;> simp
@[simp] theorem clock_soak (card : CardId) (s : State) : (soak card s).clock = s.clock := by simp [soak]
@[simp] theorem clock_updRelay (g : Relay → Relay) (s : State) : (updRelay g s).clock = s.clock := by simp [updRelay]
@[simp] theorem clock_relayStepEvent (s : State) : (relayStepEvent s).clock = s.clock := by simp [relayStepEvent]
@[simp] theorem clock_endRelay (result : Nat) (s : State) : (endRelay result s).clock = s.clock := by simp [endRelay]
@[simp] theorem clock_imageWhole (s : State) : (imageWhole s).clock = s.clock := by
  unfold imageWhole
  repeat' (first | (simp; done) | simp | split | intro _ | (refine (clock_foldl _ _ _ ?_).trans ?_))
@[simp] theorem clock_checkSpores (port : CulmPort) (n : Nat) (s : State) : (checkSpores port n s).clock = s.clock := by
  induction n generalizing s with
  | zero => rfl
  | succ n ih =>
    rw [checkSpores]
    simp only
    repeat' (first | (simp [ih]; done) | split)
@[simp] theorem clock_sendSpore (p : CulmPort) (i : Nat) (s : State) : (sendSpore p i s).clock = s.clock := by
  unfold sendSpore
  split <;> simp
@[simp] theorem clock_activateNext (s : State) : (activateNext s).clock = s.clock := by
  unfold activateNext
  split <;> simp
@[simp] theorem clock_collect (s : State) : (collect s).clock = s.clock := by simp [collect]
@[simp] theorem clock_answerActivate (result : Nat) (s : State) : (answerActivate result s).clock = s.clock := by simp [answerActivate]
@[simp] theorem clock_activated (p result : Nat) (s : State) : (activated p result s).clock = s.clock := by simp [activated]
@[simp] theorem clock_sendSome (ports : List CulmPort) (s : State) : (sendSome ports s).clock = s.clock := by simp [sendSome]
@[simp] theorem clock_relayLead (s : State) : (relayLead s).clock = s.clock := by simp [relayLead]
@[simp] theorem clock_relayOrigin (s : State) : (relayOrigin s).clock = s.clock := by
  unfold relayOrigin
  split <;> simp
@[simp] theorem clock_relayStep (s : State) : (relayStep s).clock = s.clock := by
  unfold relayStep
  repeat' (first | (simp; done) | simp | split | intro _ | (refine (clock_foldl _ _ _ ?_).trans ?_))
@[simp] theorem clock_drainSlice (sl : Nat) (s : State) : (drainSlice sl s).clock = s.clock := by simp [drainSlice]
@[simp] theorem clock_dropQueues (sl : Nat) (s : State) : (dropQueues sl s).clock = s.clock := by simp [dropQueues]
@[simp] theorem clock_resetSlice (sl job : Nat) (s : State) : (resetSlice sl job s).clock = s.clock := by
  unfold resetSlice
  repeat' (first | (simp; done) | simp | split | intro _ | (refine (clock_foldl _ _ _ ?_).trans ?_))
@[simp] theorem clock_sliceCmd (m10 m11 m12 : Nat) (e : Sqe) (run : State → State) (s : State) (hrun : ∀ y0, (run y0).clock = y0.clock) :
    (sliceCmd m10 m11 m12 e run s).clock = s.clock := by simp [sliceCmd, hrun]
@[simp] theorem clock_sliceLive (m10 m11 m12 : Nat) (e : Sqe) (run : State → State) (s : State) (hrun : ∀ y0, (run y0).clock = y0.clock) :
    (sliceLive m10 m11 m12 e run s).clock = s.clock := by simp [sliceLive, hrun]
@[simp] theorem clock_bindEnds (e : Sqe) (sl pasid dw0 : Nat) (s : State) : (bindEnds e sl pasid dw0 s).clock = s.clock := by simp [bindEnds]
@[simp] theorem clock_sliceCreate (e : Sqe) (s : State) : (sliceCreate e s).clock = s.clock := by
  unfold sliceCreate
  repeat' (first | (simp; done) | (have hq := clock_drawKey_eq (by assumption); simp [hq]; done) | simp | split | intro _ | (refine (clock_foldl _ _ _ ?_).trans ?_))
@[simp] theorem clock_setSliceSt (sl st : Nat) (s : State) : (setSliceSt sl st s).clock = s.clock := by simp [setSliceSt]
@[simp] theorem clock_sliceReset (e : Sqe) (s : State) : (sliceReset e s).clock = s.clock := by
  unfold sliceReset
  repeat' (first | (simp; done) | (simp [clock_addJob_eq ‹addJob _ _ _ _ = _›]; done) | simp | split | intro _ | (refine (clock_foldl _ _ _ ?_).trans ?_))
@[simp] theorem clock_resetEnds (j : Job) (s : State) : (resetEnds j s).clock = s.clock := by simp [resetEnds]
@[simp] theorem clock_sliceDelete (e : Sqe) (s : State) : (sliceDelete e s).clock = s.clock := by
  unfold sliceDelete
  repeat' (first | (simp; done) | (simp [clock_addJob_eq ‹addJob _ _ _ _ = _›]; done) | simp | split | intro _ | (refine (clock_foldl _ _ _ ?_).trans ?_))
@[simp] theorem clock_dropRules (gone : Nat → Bool) (s : State) : (dropRules gone s).clock = s.clock := by simp [dropRules]
@[simp] theorem clock_closeQps (s : State) : (closeQps s).clock = s.clock := by simp [closeQps]
@[simp] theorem clock_deleteSlice (sl : Nat) (cmd : Option Nat) (s : State) : (deleteSlice sl cmd s).clock = s.clock := by simp [deleteSlice]
@[simp] theorem clock_deleteGoes (j : Job) (s : State) : (deleteGoes j s).clock = s.clock := by simp [deleteGoes]
@[simp] theorem clock_freezeEnds (sl : Nat) (s : State) : (freezeEnds sl s).clock = s.clock := by
  unfold freezeEnds
  split <;> simp
@[simp] theorem clock_sliceFreeze (e : Sqe) (s : State) : (sliceFreeze e s).clock = s.clock := by simp [sliceFreeze]
@[simp] theorem clock_sliceThaw (e : Sqe) (s : State) : (sliceThaw e s).clock = s.clock := by simp [sliceThaw]
@[simp] theorem clock_sliceSave (e : Sqe) (s : State) : (sliceSave e s).clock = s.clock := by simp [sliceSave]
@[simp] theorem clock_putQueue (p : Port) (sl : Nat) (lost : Bool) (q : QImage) (s : State) : (putQueue p sl lost q s).clock = s.clock := by simp [putQueue]
@[simp] theorem clock_sliceRestore (e : Sqe) (s : State) : (sliceRestore e s).clock = s.clock := by simp [sliceRestore]
@[simp] theorem clock_queueResume (e : Sqe) (s : State) : (queueResume e s).clock = s.clock := by simp [queueResume]
@[simp] theorem clock_shareSet (e : Sqe) (s : State) : (shareSet e s).clock = s.clock := by
  unfold shareSet
  repeat' (first | (simp; done) | split)
@[simp] theorem clock_formatGoes (j : Job) (s : State) : (formatGoes j s).clock = s.clock := by simp [formatGoes]
@[simp] theorem clock_badAt (e : Sqe) (loc : Nat) (s : State) : (badAt e loc s).clock = s.clock := by simp [badAt]
@[simp] theorem clock_ruleWrite (e : Sqe) (s : State) : (ruleWrite e s).clock = s.clock := by
  unfold ruleWrite
  repeat' (first | (simp; done) | simp | split | intro _ | (refine (clock_foldl _ _ _ ?_).trans ?_))
@[simp] theorem clock_ruleRead (e : Sqe) (s : State) : (ruleRead e s).clock = s.clock := by simp [ruleRead]
@[simp] theorem clock_programGoes (j : Job) (s : State) : (programGoes j s).clock = s.clock := by
  unfold programGoes
  repeat' (first | (simp; done) | simp | split | intro _ | (refine (clock_foldl _ _ _ ?_).trans ?_))
@[simp] theorem clock_programLoad (e : Sqe) (s : State) : (programLoad e s).clock = s.clock := by
  unfold programLoad
  repeat' (first | (simp; done) | simp | split | intro _ | (refine (clock_foldl _ _ _ ?_).trans ?_))
@[simp] theorem clock_endpointSet (e : Sqe) (s : State) : (endpointSet e s).clock = s.clock := by simp [endpointSet]
@[simp] theorem clock_acceptToken (e : Sqe) (t : List Byte) (s : State) : (acceptToken e t s).clock = s.clock := by simp [acceptToken]
@[simp] theorem clock_submitToken (e : Sqe) (s : State) : (submitToken e s).clock = s.clock := by
  unfold submitToken
  repeat' (first | (simp; done) | simp | split | intro _ | (refine (clock_foldl _ _ _ ?_).trans ?_))
@[simp] theorem clock_issueNonce (e : Sqe) (s : State) : (issueNonce e s).clock = s.clock := by simp [issueNonce]
@[simp] theorem clock_dropHandle (h : Nat) (s : State) : (dropHandle h s).clock = s.clock := by simp [dropHandle]
@[simp] theorem clock_useToken (e : Sqe) (t : Token) (s : State) : (useToken e t s).clock = s.clock := by simp [useToken]
@[simp] theorem clock_refusedChange (e : Sqe) (reason : Nat) (s : State) : (refusedChange e reason s).clock = s.clock := by simp [refusedChange]
@[simp] theorem clock_setLevel (lv : Nat) (s : State) : (setLevel lv s).clock = s.clock := by simp [setLevel]
@[simp] theorem clock_beginErase (e : Sqe) (dw0 : Nat) (s : State) : (beginErase e dw0 s).clock = s.clock := by simp [beginErase]
@[simp] theorem clock_guardChange (e : Sqe) (s : State) : (guardChange e s).clock = s.clock := by
  unfold guardChange
  repeat' (first | (simp; done) | simp | split | intro _ | (refine (clock_foldl _ _ _ ?_).trans ?_))
@[simp] theorem clock_beginJob (j : Job) (s : State) : (beginJob j s).clock = s.clock := by simp [beginJob]
@[simp] theorem clock_newRoot (s : State) : (newRoot s).clock = s.clock := by simp [newRoot]
@[simp] theorem clock_newSliceKey (sl : Nat) (s : State) : (newSliceKey sl s).clock = s.clock := by simp [newSliceKey]
@[simp] theorem clock_lowerNow (j : Job) (s : State) : (lowerNow j s).clock = s.clock := by simp [lowerNow]
@[simp] theorem clock_guardGoes (j : Job) (s : State) : (guardGoes j s).clock = s.clock := by simp [guardGoes]
@[simp] theorem clock_sanitizeBegin (e : Sqe) (s : State) : (sanitizeBegin e s).clock = s.clock := by simp [sanitizeBegin]
@[simp] theorem clock_cryptoErase (j : Job) (s : State) : (cryptoErase j s).clock = s.clock := by simp [cryptoErase]
@[simp] theorem clock_sanitizeGoes (j : Job) (s : State) : (sanitizeGoes j s).clock = s.clock := by simp [sanitizeGoes]
@[simp] theorem clock_jobStep (j : Job) (s : State) : (jobStep j s).clock = s.clock := by
  unfold jobStep
  split <;> simp
@[simp] theorem clock_clearChecked (e : Sqe) (scope : Nat) (run : Token → State → State) (s : State) (hrun : ∀ y0 y1, (run y0 y1).clock = y1.clock) :
    (clearChecked e scope run s).clock = s.clock := by
  unfold clearChecked
  repeat' (first | (simp [hrun]; done) | split)
@[simp] theorem clock_clearFrond (e : Sqe) (t : Token) (s : State) : (clearFrond e t s).clock = s.clock := by simp [clearFrond]
@[simp] theorem clock_clearModule (e : Sqe) (t : Token) (s : State) : (clearModule e t s).clock = s.clock := by simp [clearModule]
@[simp] theorem clock_frondCmd (e : Sqe) (run : Nat → State → State) (s : State) (hrun : ∀ y0 y1, (run y0 y1).clock = y1.clock) :
    (frondCmd e run s).clock = s.clock := by simp [frondCmd, hrun]
@[simp] theorem clock_prepareFrond (e : Sqe) (f : Nat) (s : State) : (prepareFrond e f s).clock = s.clock := by simp [prepareFrond]
@[simp] theorem clock_stayFrond (f : Nat) (s : State) : (stayFrond f s).clock = s.clock := by
  unfold stayFrond
  repeat' (first | (simp; done) | split)
@[simp] theorem clock_cancelPrepare (e : Sqe) (f : Nat) (s : State) : (cancelPrepare e f s).clock = s.clock := by simp [cancelPrepare]
@[simp] theorem clock_declareLost (e : Sqe) (f : Nat) (s : State) : (declareLost e f s).clock = s.clock := by
  unfold declareLost
  repeat' (first | (simp; done) | simp | split | intro _ | (refine (clock_foldl _ _ _ ?_).trans ?_))
@[simp] theorem clock_setRate (e : Sqe) (f : Nat) (s : State) : (setRate e f s).clock = s.clock := by simp [setRate]
@[simp] theorem clock_setLocate (e : Sqe) (v : Bool) (f : Nat) (s : State) : (setLocate e v f s).clock = s.clock := by simp [setLocate]
@[simp] theorem clock_sheafCmd (e : Sqe) (run : State → State) (s : State) (hrun : ∀ y0, (run y0).clock = y0.clock) :
    (sheafCmd e run s).clock = s.clock := by simp [sheafCmd, hrun]
@[simp] theorem clock_leadOnly (e : Sqe) (run : State → State) (s : State) (hrun : ∀ y0, (run y0).clock = y0.clock) :
    (leadOnly e run s).clock = s.clock := by simp [leadOnly, hrun]
@[simp] theorem clock_enablePorts (e : Sqe) (s : State) : (enablePorts e s).clock = s.clock := by simp [enablePorts]
@[simp] theorem clock_awaitHand (e : Sqe) (action x : Nat) (s : State) : (awaitHand e action x s).clock = s.clock := by simp [awaitHand]
@[simp] theorem clock_disablePorts (e : Sqe) (s : State) : (disablePorts e s).clock = s.clock := by
  unfold disablePorts
  split <;> simp
@[simp] theorem clock_handOver (e : Sqe) (s : State) : (handOver e s).clock = s.clock := by
  unfold handOver
  split <;> simp
@[simp] theorem clock_shelfBudget (e : Sqe) (s : State) : (shelfBudget e s).clock = s.clock := by simp [shelfBudget]
@[simp] theorem clock_planYields (s : State) : (planYields s).clock = s.clock := by
  unfold planYields
  split <;> simp
@[simp] theorem clock_setPlan (e : Sqe) (s : State) : (setPlan e s).clock = s.clock := by simp [setPlan]
@[simp] theorem clock_peuCmd (e : Sqe) (run : PeuId → State → State) (s : State) (hrun : ∀ y0 y1, (run y0 y1).clock = y1.clock) :
    (peuCmd e run s).clock = s.clock := by simp [peuCmd, hrun]
@[simp] theorem clock_enableOutput (e : Sqe) (p : PeuId) (s : State) : (enableOutput e p s).clock = s.clock := by simp [enableOutput]
@[simp] theorem clock_disableOutput (e : Sqe) (p : PeuId) (s : State) : (disableOutput e p s).clock = s.clock := by simp [disableOutput]
@[simp] theorem clock_limitCurrent (e : Sqe) (p : PeuId) (s : State) : (limitCurrent e p s).clock = s.clock := by simp [limitCurrent]
@[simp] theorem clock_marginCurrent (e : Sqe) (p : PeuId) (s : State) : (marginCurrent e p s).clock = s.clock := by simp [marginCurrent]
@[simp] theorem clock_respond (status : Nat) (body : List Byte) (s : State) : (respond status body s).clock = s.clock := by simp [respond]
@[simp] theorem clock_miTick (s : State) : (miTick s).clock = s.clock := by simp [miTick]
@[simp] theorem clock_configured (ident : Nat) (g : Mi → Mi) (s : State) : (configured ident g s).clock = s.clock := by simp [configured]
@[simp] theorem clock_miAnswer (s : State) : (miAnswer s).clock = s.clock := by
  unfold miAnswer
  split <;> simp
@[simp] theorem clock_miAdmin (st : Nat × Nat) (dw0 : Nat) (data : List Byte) (s : State) : (miAdmin st dw0 data s).clock = s.clock := by simp [miAdmin]
theorem clock_setFeatureAgain (e : Sqe) (s : State) : (stateOf s (setFeatureAgain e s)).clock = s.clock := by
  unfold setFeatureAgain
  split <;> simp only [stateOf, runFeature, runCommit, execSetFeaturesArbitration, execSetFeaturesAsyncEventConfig, execSetFeaturesBulkPort, execSetFeaturesDeadlineMissPolicy, execSetFeaturesDramInterleaveGrain, execSetFeaturesEventRateLimit, execSetFeaturesFrameParameters, execSetFeaturesInterruptCoalescing, execSetFeaturesInterruptVector, execSetFeaturesMediaPowerBudget, execSetFeaturesNumberOfQueues, execSetFeaturesPowerManagement, execSetFeaturesScrubPolicy, execSetFeaturesSeedbedPolicy, execSetFeaturesTemperatureThreshold, execSetFeaturesThermalThrottlePoints, execSetFeaturesTimestamp, execSetFeaturesUnsupported, execSetFeaturesVolatileWriteCache] <;> first
    | (simp; done)
    | exact clock_admin _ _ _ fun _ => clock_setFeature _ _ _ fun _ => by simp
    | exact clock_admin _ _ _ fun _ => clock_sheafCmd _ _ _ fun _ => by simp
theorem clock_frondAgain (e : Sqe) (s : State) : (stateOf s (frondAgain e s)).clock = s.clock := by
  unfold frondAgain
  split <;> simp only [stateOf, runFeature, runCommit, execCancelPrepare, execDeclareLost, execLocateLedOff, execLocateLedOn, execPrepareRemoval, execSetRebuildRate, execUnsupportedOpcode] <;> first
    | (simp; done)
    | exact clock_admin _ _ _ fun _ => clock_setFeature _ _ _ fun _ => by simp
    | exact clock_admin _ _ _ fun _ => clock_sheafCmd _ _ _ fun _ => by simp
theorem clock_sheafAgain (e : Sqe) (s : State) : (stateOf s (sheafAgain e s)).clock = s.clock := by
  unfold sheafAgain
  split <;> simp only [stateOf, runFeature, runCommit, execDisableCulmPorts, execEnableCulmPorts, execHandOverLead, execSetShelfPowerBudget, execUnsupportedOpcode] <;> first
    | (simp; done)
    | exact clock_admin _ _ _ fun _ => clock_setFeature _ _ _ fun _ => by simp
    | exact clock_admin _ _ _ fun _ => clock_sheafCmd _ _ _ fun _ => by simp
theorem clock_peuAgain (e : Sqe) (s : State) : (stateOf s (peuAgain e s)).clock = s.clock := by
  unfold peuAgain
  split <;> simp only [stateOf, runFeature, runCommit, execPeuDisableOutput, execPeuEnableOutput, execPeuSetCurrentLimit, execPeuSetMargin, execUnsupportedOpcode] <;> first
    | (simp; done)
    | exact clock_admin _ _ _ fun _ => clock_setFeature _ _ _ fun _ => by simp
    | exact clock_admin _ _ _ fun _ => clock_sheafCmd _ _ _ fun _ => by simp
theorem clock_commitAgain (e : Sqe) (s : State) : (stateOf s (commitAgain e s)).clock = s.clock := by
  unfold commitAgain
  split <;> simp only [stateOf, runFeature, runCommit, execFirmwareCommitActivateSlot, execFirmwareCommitImmediate, execFirmwareCommitNextStart, execFirmwareCommitReplace, execUnsupportedOpcode] <;> first
    | (simp; done)
    | exact clock_admin _ _ _ fun _ => clock_setFeature _ _ _ fun _ => by simp
    | exact clock_admin _ _ _ fun _ => clock_sheafCmd _ _ _ fun _ => by simp
theorem clock_commandAgain (e : Sqe) (s : State) : (stateOf s (commandAgain e s)).clock = s.clock := by
  unfold commandAgain
  repeat' (first
    | exact clock_setFeatureAgain e s
    | exact clock_commitAgain e s
    | exact clock_frondAgain e s
    | exact clock_sheafAgain e s
    | exact clock_peuAgain e s
    | (simp [stateOf, execAbort, execAsynchronousEventRequest, execAuthorizationSubmitToken, execBulkEndpointSet, execCreateIoCompletionQueue, execCreateIoSubmissionQueue, execDeleteIoCompletionQueue, execDeleteIoSubmissionQueue, execEventClearFrond, execEventClearModule, execFirmwareImageDownload, execFormatNvm, execGetFeatures, execGuardLevelChange, execIdentify, execIssueNonce, execNamespaceAttach, execNamespaceCreate, execNamespaceDelete, execNamespaceDetach, execQueueResume, execSanitize, execShareSet, execSheafPhasePlanSet, execSliceCreate, execSliceDelete, execSliceFreeze, execSliceReset, execSliceStateRestore, execSliceStateSave, execSliceThaw, execSpikeletRuleRead, execSpikeletRuleWrite, execUnsupportedOpcode, execWinnowProgramLoad]; done)
    | split)
@[simp] theorem clock_runAgain (l : List Sqe) (s : State) : (runAgain l s).clock = s.clock := by
  unfold runAgain
  refine clock_foldl _ _ _ fun t e => ?_
  have h := clock_commandAgain { e with cnt := 0 }
  extract_lets shn s'
  have hs : s'.clock = t.clock := by simp only [s']; split <;> simp
  split
  · split
    · rw [clock_updCtrl, h, hs]
    · rw [h, hs]
  · simp
@[simp] theorem clock_runWoken (s : State) : (runWoken s).clock = s.clock := by simp [runWoken]
@[simp] theorem clock_runHeld (s : State) : (runHeld s).clock = s.clock := by simp [runHeld]
@[simp] theorem clock_rachisTick (s : State) : (rachisTick s).clock = s.clock := by
  unfold rachisTick
  repeat' (first | (simp; done) | simp | split | intro _ | (refine (clock_foldl _ _ _ ?_).trans ?_))
@[simp] theorem clock_countStopped (s : State) : (countStopped s).clock = s.clock := by simp [countStopped]
@[simp] theorem clock_powerMove (s : State) : (powerMove s).clock = s.clock := by
  unfold powerMove
  split <;> simp
@[simp] theorem clock_factorTick (s : State) : (factorTick s).clock = s.clock := by
  unfold factorTick
  repeat' (first | (simp; done) | simp | split | intro _ | (refine (clock_foldl _ _ _ ?_).trans ?_))
@[simp] theorem clock_masterMove (s : State) : (masterMove s).clock = s.clock := by
  unfold masterMove
  split <;> simp
@[simp] theorem clock_leavingStep (card : CardId) (s : State) : (leavingStep card s).clock = s.clock := by
  unfold leavingStep
  repeat' (first | (simp; done) | simp | split | intro _ | (refine (clock_foldl _ _ _ ?_).trans ?_))
@[simp] theorem clock_enteredStep (card : CardId) (s : State) : (enteredStep card s).clock = s.clock := by simp [enteredStep]
@[simp] theorem clock_pairBoundary (s : State) : (pairBoundary s).clock = s.clock := by simp [pairBoundary]
@[simp] theorem clock_freePools (s : State) : (freePools s).clock = s.clock := by simp [freePools]
@[simp] theorem clock_leftover (f : Nat) (s : State) : (leftover f s).clock = s.clock := by simp [leftover]
@[simp] theorem clock_landData (f : Nat) (s : State) : (landData f s).clock = s.clock := by
  unfold landData
  repeat' (first | (simp; done) | simp | split | intro _ | (refine (clock_foldl _ _ _ ?_).trans ?_))
@[simp] theorem clock_unheard (f : Nat) (s : State) : (unheard f s).clock = s.clock := by
  unfold unheard
  repeat' (first | (simp; done) | simp | split | intro _ | (refine (clock_foldl _ _ _ ?_).trans ?_))
@[simp] theorem clock_shiftPlan (f : Nat) (s : State) : (shiftPlan f s).clock = s.clock := by simp [shiftPlan]
@[simp] theorem clock_startSegment (f die : Nat) (s : State) : (startSegment f die s).clock = s.clock := by
  unfold startSegment
  split <;> simp
@[simp] theorem clock_startPlan (f : Nat) (s : State) : (startPlan f s).clock = s.clock := by
  unfold startPlan
  repeat' (first | (simp; done) | simp | split | intro _ | (refine (clock_foldl _ _ _ ?_).trans ?_))
@[simp] theorem clock_frondMarker (f : Nat) (s : State) : (frondMarker f s).clock = s.clock := by simp [frondMarker]
@[simp] theorem clock_coreBack (f : Nat) (s : State) : (coreBack f s).clock = s.clock := by simp [coreBack]
@[simp] theorem clock_frondTick (f : Nat) (s : State) : (frondTick f s).clock = s.clock := by simp [frondTick]
@[simp] theorem clock_countCharge (s : State) : (countCharge s).clock = s.clock := by simp [countCharge]
@[simp] theorem clock_epochTick (s : State) : (epochTick s).clock = s.clock := by simp [epochTick]
@[simp] theorem clock_sendAllowances (s : State) : (sendAllowances s).clock = s.clock := by simp [sendAllowances]
@[simp] theorem clock_heartbeatTick (c : CardId) (s : State) : (heartbeatTick c s).clock = s.clock := by simp [heartbeatTick]
@[simp] theorem clock_queueTick (c : CardId) (s : State) : (queueTick c s).clock = s.clock := by
  unfold queueTick
  repeat' (first | (simp; done) | simp | split | intro _ | (refine (clock_foldl _ _ _ ?_).trans ?_))
@[simp] theorem clock_cardStatus (s : State) : (cardStatus s).clock = s.clock := by simp [cardStatus]
@[simp] theorem clock_helloOn (p : CulmPort) (s : State) : (helloOn p s).clock = s.clock := by simp [helloOn]
@[simp] theorem clock_censusMsg (s : State) : (censusMsg s).clock = s.clock := by simp [censusMsg]
@[simp] theorem clock_sheafTick (s : State) : (sheafTick s).clock = s.clock := by simp [sheafTick]
@[simp] theorem clock_retryWaiting (s : State) : (retryWaiting s).clock = s.clock := by simp [retryWaiting]
@[simp] theorem clock_rebuildCredit (s : State) : (rebuildCredit s).clock = s.clock := by
  unfold rebuildCredit
  repeat' (first | (simp; done) | simp | split | intro _ | (refine (clock_foldl _ _ _ ?_).trans ?_))
@[simp] theorem clock_memberTarget (m : Nat) (s : State) : (memberTarget m s).clock = s.clock := by
  unfold memberTarget
  repeat' (first | (simp; done) | (simp [clock_drawMember_eq ‹drawMember _ _ _ = _›]; done) | simp | split | intro _ | (refine (clock_foldl _ _ _ ?_).trans ?_))
@[simp] theorem clock_rebuildTick (s : State) : (rebuildTick s).clock = s.clock := by simp [rebuildTick]
@[simp] theorem clock_checkTick (s : State) : (checkTick s).clock = s.clock := by
  unfold checkTick
  repeat' (first | (simp; done) | simp | split | intro _ | (refine (clock_foldl _ _ _ ?_).trans ?_))
@[simp] theorem clock_backgroundTick (s : State) : (backgroundTick s).clock = s.clock := by
  unfold backgroundTick
  repeat' (first | (simp; done) | simp | split | intro _ | (refine (clock_foldl _ _ _ ?_).trans ?_))
@[simp] theorem clock_seedbedTick (s : State) : (seedbedTick s).clock = s.clock := by
  unfold seedbedTick
  repeat' (first | (simp; done) | simp | split | intro _ | (refine (clock_foldl _ _ _ ?_).trans ?_))
@[simp] theorem clock_gcTick (s : State) : (gcTick s).clock = s.clock := by simp [gcTick]
@[simp] theorem clock_memTick (card : CardId) (s : State) : (memTick card s).clock = s.clock := by simp [memTick]
@[simp] theorem clock_servingTick (s : State) : (servingTick s).clock = s.clock := by simp [servingTick]
@[simp] theorem clock_frondsBack (from4 : Bool) (s : State) : (frondsBack from4 s).clock = s.clock := by simp [frondsBack]
@[simp] theorem clock_dueRetries (s : State) : (dueRetries s).clock = s.clock := by simp [dueRetries]
@[simp] theorem clock_retestEngines (failed : List (CardId × Nat)) (s : State) : (retestEngines failed s).clock = s.clock := by
  unfold retestEngines
  repeat' (first | (simp; done) | simp | split | intro _ | (refine (clock_foldl _ _ _ ?_).trans ?_))
end Sys2Proof.Laws
end

