-- ==== Sys2Proof/Laws/State.lean ====
section
/-! SUPPORT. What each update of State leaves: for every update, every other field of State is as before (true by rfl; simp reads
the parts of each conjunction as rules), what its accessor then reads, and that the tables stay canonical. -/
namespace Sys2Proof.Laws
open Sys2Proof Sys2Proof.Machine

variable {α : Type}

/-! ### Tables whose keys rise. -/
theorem rising_iff (t : Tbl α) : rising t = true ↔ (t.map Prod.fst).Pairwise (· < ·) := by simp only [rising, decide_eq_true_eq]
theorem rising_tput [DecidableEq α] (d : α) (t : Tbl α) (k : Nat) (v : α) (h : rising t = true) : rising (tput d t k v) = true := by
  rw [rising_iff] at h ⊢
  unfold tput
  split
  · exact keys_tdel t k h
  · exact keys_tins t k v h
theorem rising_tupd [DecidableEq α] (d : α) (t : Tbl α) (k : Nat) (f : α → α) (h : rising t = true) : rising (tupd d t k f) = true :=
  rising_tput d t k _ h
theorem rising_tins (t : Tbl α) (k : Nat) (v : α) (h : rising t = true) : rising (tins t k v) = true := by
  rw [rising_iff] at h ⊢
  exact keys_tins t k v h
theorem rising_tdel (t : Tbl α) (k : Nat) (h : rising t = true) : rising (tdel t k) = true := by
  rw [rising_iff] at h ⊢
  exact keys_tdel t k h
@[simp] theorem tmod_keys (t : Tbl α) (k : Nat) (f : α → α) : (tmod t k f).map Prod.fst = t.map Prod.fst := by
  induction t with
  | nil => rfl
  | cons p r ih => simp only [tmod, List.map_cons] at ih ⊢; rw [ih]; split <;> rfl
@[simp] theorem rising_tmod (t : Tbl α) (k : Nat) (f : α → α) : rising (tmod t k f) = rising t := by simp only [rising, tmod_keys]
theorem rising_filter (t : Tbl α) (p : Nat × α → Bool) (h : rising t = true) : rising (t.filter p) = true := by
  rw [rising_iff] at h ⊢
  exact List.Pairwise.sublist (List.Sublist.map _ List.filter_sublist) h
theorem tget_tput_rising [DecidableEq α] (d : α) (t : Tbl α) (k j : Nat) (v : α) (h : rising t = true) :
    tget d (tput d t k v) j = if j = k then v else tget d t j := by
  by_cases hj : j = k
  · subst hj
    rw [if_pos rfl]
    unfold tput
    split
    · rename_i hv
      rw [hv]
      exact tget_tdel_same d t j ((rising_iff t).1 h)
    · exact tget_tins_same d t j v
  · rw [if_neg hj]
    exact tget_tput_ne d t k j v hj
theorem tget_tupd_rising [DecidableEq α] (d : α) (t : Tbl α) (k j : Nat) (f : α → α) (h : rising t = true) :
    tget d (tupd d t k f) j = if j = k then f (tget d t k) else tget d t j := tget_tput_rising d t k j _ h

/-! ### Updates. -/
@[simp] theorem updFrond_others (f : Nat) (g : FrondSt → FrondSt) (s : State) :
    (updFrond f g s).pending = s.pending ∧ (updFrond f g s).time = s.time ∧ (updFrond f g s).stats = s.stats ∧ (updFrond f g s).misses = s.misses ∧
    (updFrond f g s).chans = s.chans ∧ (updFrond f g s).dies = s.dies ∧ (updFrond f g s).blks = s.blks ∧ (updFrond f g s).reqs = s.reqs ∧
    (updFrond f g s).progs = s.progs ∧ (updFrond f g s).cws = s.cws ∧ (updFrond f g s).chunks = s.chunks ∧ (updFrond f g s).stripes = s.stripes ∧
    (updFrond f g s).accums = s.accums ∧ (updFrond f g s).rebuild = s.rebuild ∧ (updFrond f g s).seedbed = s.seedbed ∧ (updFrond f g s).nss = s.nss ∧
    (updFrond f g s).zones = s.zones ∧ (updFrond f g s).map = s.map ∧ (updFrond f g s).pages = s.pages ∧ (updFrond f g s).jA = s.jA ∧
    (updFrond f g s).jB = s.jB ∧ (updFrond f g s).metas = s.metas ∧ (updFrond f g s).c0 = s.c0 ∧ (updFrond f g s).c1 = s.c1 ∧ (updFrond f g s).sqs = s.sqs ∧
    (updFrond f g s).cqs = s.cqs ∧ (updFrond f g s).cmds = s.cmds ∧ (updFrond f g s).pieces = s.pieces ∧ (updFrond f g s).cqes = s.cqes ∧
    (updFrond f g s).slices = s.slices ∧ (updFrond f g s).spA = s.spA ∧ (updFrond f g s).spB = s.spB ∧ (updFrond f g s).rules = s.rules ∧
    (updFrond f g s).b0 = s.b0 ∧ (updFrond f g s).b1 = s.b1 ∧ (updFrond f g s).bulkNext = s.bulkNext ∧ (updFrond f g s).qps = s.qps ∧
    (updFrond f g s).memA = s.memA ∧ (updFrond f g s).memB = s.memB ∧ (updFrond f g s).engines = s.engines ∧ (updFrond f g s).seA = s.seA ∧
    (updFrond f g s).seB = s.seB ∧ (updFrond f g s).pair = s.pair ∧ (updFrond f g s).sheaf = s.sheaf ∧ (updFrond f g s).sec = s.sec ∧
    (updFrond f g s).events = s.events ∧ (updFrond f g s).power = s.power ∧ (updFrond f g s).feat = s.feat ∧ (updFrond f g s).featNext = s.featNext ∧
    (updFrond f g s).mi = s.mi ∧ (updFrond f g s).tx = s.tx ∧ (updFrond f g s).next = s.next ∧ (updFrond f g s).drawn = s.drawn ∧
    (updFrond f g s).heldAdmin = s.heldAdmin ∧ (updFrond f g s).jobs = s.jobs := by and_intros <;> rfl
@[simp] theorem updFrond_fronds (f : Nat) (g : FrondSt → FrondSt) (s : State) : (updFrond f g s).fronds = tupd {} s.fronds f g := rfl
theorem frondAt_updFrond (f : Nat) (g : FrondSt → FrondSt) (s : State) (x : Nat) (h : rising s.fronds = true) : frondAt (updFrond f g s) x = if x = f then g (frondAt s f) else frondAt s x :=
  tget_tupd_rising _ s.fronds f x g h
theorem canonical_updFrond (f : Nat) (g : FrondSt → FrondSt) (s : State) (h : s.canonical = true) : (updFrond f g s).canonical = true := by
  simp only [State.canonical, Bool.and_eq_true] at h ⊢
  simp only [updFrond, rising_tupd, h, and_self]
@[simp] theorem updDie_others (d : Nat) (g : Die → Die) (s : State) :
    (updDie d g s).pending = s.pending ∧ (updDie d g s).time = s.time ∧ (updDie d g s).stats = s.stats ∧ (updDie d g s).misses = s.misses ∧
    (updDie d g s).fronds = s.fronds ∧ (updDie d g s).chans = s.chans ∧ (updDie d g s).blks = s.blks ∧ (updDie d g s).reqs = s.reqs ∧
    (updDie d g s).progs = s.progs ∧ (updDie d g s).cws = s.cws ∧ (updDie d g s).chunks = s.chunks ∧ (updDie d g s).stripes = s.stripes ∧
    (updDie d g s).accums = s.accums ∧ (updDie d g s).rebuild = s.rebuild ∧ (updDie d g s).seedbed = s.seedbed ∧ (updDie d g s).nss = s.nss ∧
    (updDie d g s).zones = s.zones ∧ (updDie d g s).map = s.map ∧ (updDie d g s).pages = s.pages ∧ (updDie d g s).jA = s.jA ∧
    (updDie d g s).jB = s.jB ∧ (updDie d g s).metas = s.metas ∧ (updDie d g s).c0 = s.c0 ∧ (updDie d g s).c1 = s.c1 ∧ (updDie d g s).sqs = s.sqs ∧ (updDie d g s).cqs = s.cqs ∧
    (updDie d g s).cmds = s.cmds ∧ (updDie d g s).pieces = s.pieces ∧ (updDie d g s).cqes = s.cqes ∧ (updDie d g s).slices = s.slices ∧
    (updDie d g s).spA = s.spA ∧ (updDie d g s).spB = s.spB ∧ (updDie d g s).rules = s.rules ∧ (updDie d g s).b0 = s.b0 ∧ (updDie d g s).b1 = s.b1 ∧
    (updDie d g s).bulkNext = s.bulkNext ∧ (updDie d g s).qps = s.qps ∧ (updDie d g s).memA = s.memA ∧ (updDie d g s).memB = s.memB ∧
    (updDie d g s).engines = s.engines ∧ (updDie d g s).seA = s.seA ∧ (updDie d g s).seB = s.seB ∧ (updDie d g s).pair = s.pair ∧
    (updDie d g s).sheaf = s.sheaf ∧ (updDie d g s).sec = s.sec ∧ (updDie d g s).events = s.events ∧ (updDie d g s).power = s.power ∧
    (updDie d g s).feat = s.feat ∧ (updDie d g s).featNext = s.featNext ∧ (updDie d g s).mi = s.mi ∧ (updDie d g s).tx = s.tx ∧
    (updDie d g s).next = s.next ∧ (updDie d g s).drawn = s.drawn ∧ (updDie d g s).heldAdmin = s.heldAdmin ∧ (updDie d g s).jobs = s.jobs := by and_intros <;> rfl
@[simp] theorem updDie_dies (d : Nat) (g : Die → Die) (s : State) : (updDie d g s).dies = tupd {} s.dies d g := rfl
theorem dieAt_updDie (d : Nat) (g : Die → Die) (s : State) (x : Nat) (h : rising s.dies = true) : dieAt (updDie d g s) x = if x = d then g (dieAt s d) else dieAt s x :=
  tget_tupd_rising _ s.dies d x g h
theorem canonical_updDie (d : Nat) (g : Die → Die) (s : State) (h : s.canonical = true) : (updDie d g s).canonical = true := by
  simp only [State.canonical, Bool.and_eq_true] at h ⊢
  simp only [updDie, rising_tupd, h, and_self]
@[simp] theorem updChan_others (c : Nat) (g : Chan → Chan) (s : State) :
    (updChan c g s).pending = s.pending ∧ (updChan c g s).time = s.time ∧ (updChan c g s).stats = s.stats ∧ (updChan c g s).misses = s.misses ∧
    (updChan c g s).fronds = s.fronds ∧ (updChan c g s).dies = s.dies ∧ (updChan c g s).blks = s.blks ∧ (updChan c g s).reqs = s.reqs ∧
    (updChan c g s).progs = s.progs ∧ (updChan c g s).cws = s.cws ∧ (updChan c g s).chunks = s.chunks ∧ (updChan c g s).stripes = s.stripes ∧
    (updChan c g s).accums = s.accums ∧ (updChan c g s).rebuild = s.rebuild ∧ (updChan c g s).seedbed = s.seedbed ∧ (updChan c g s).nss = s.nss ∧
    (updChan c g s).zones = s.zones ∧ (updChan c g s).map = s.map ∧ (updChan c g s).pages = s.pages ∧ (updChan c g s).jA = s.jA ∧
    (updChan c g s).jB = s.jB ∧ (updChan c g s).metas = s.metas ∧ (updChan c g s).c0 = s.c0 ∧ (updChan c g s).c1 = s.c1 ∧ (updChan c g s).sqs = s.sqs ∧ (updChan c g s).cqs = s.cqs ∧
    (updChan c g s).cmds = s.cmds ∧ (updChan c g s).pieces = s.pieces ∧ (updChan c g s).cqes = s.cqes ∧ (updChan c g s).slices = s.slices ∧
    (updChan c g s).spA = s.spA ∧ (updChan c g s).spB = s.spB ∧ (updChan c g s).rules = s.rules ∧ (updChan c g s).b0 = s.b0 ∧
    (updChan c g s).b1 = s.b1 ∧ (updChan c g s).bulkNext = s.bulkNext ∧ (updChan c g s).qps = s.qps ∧ (updChan c g s).memA = s.memA ∧
    (updChan c g s).memB = s.memB ∧ (updChan c g s).engines = s.engines ∧ (updChan c g s).seA = s.seA ∧ (updChan c g s).seB = s.seB ∧
    (updChan c g s).pair = s.pair ∧ (updChan c g s).sheaf = s.sheaf ∧ (updChan c g s).sec = s.sec ∧ (updChan c g s).events = s.events ∧
    (updChan c g s).power = s.power ∧ (updChan c g s).feat = s.feat ∧ (updChan c g s).featNext = s.featNext ∧ (updChan c g s).mi = s.mi ∧
    (updChan c g s).tx = s.tx ∧ (updChan c g s).next = s.next ∧ (updChan c g s).drawn = s.drawn ∧ (updChan c g s).heldAdmin = s.heldAdmin ∧
    (updChan c g s).jobs = s.jobs := by and_intros <;> rfl
@[simp] theorem updChan_chans (c : Nat) (g : Chan → Chan) (s : State) : (updChan c g s).chans = tupd {} s.chans c g := rfl
theorem chanAt_updChan (c : Nat) (g : Chan → Chan) (s : State) (x : Nat) (h : rising s.chans = true) : chanAt (updChan c g s) x = if x = c then g (chanAt s c) else chanAt s x :=
  tget_tupd_rising _ s.chans c x g h
theorem canonical_updChan (c : Nat) (g : Chan → Chan) (s : State) (h : s.canonical = true) : (updChan c g s).canonical = true := by
  simp only [State.canonical, Bool.and_eq_true] at h ⊢
  simp only [updChan, rising_tupd, h, and_self]
@[simp] theorem updBlk_others (k : Nat) (g : Blk → Blk) (s : State) :
    (updBlk k g s).pending = s.pending ∧ (updBlk k g s).time = s.time ∧ (updBlk k g s).stats = s.stats ∧ (updBlk k g s).misses = s.misses ∧
    (updBlk k g s).fronds = s.fronds ∧ (updBlk k g s).chans = s.chans ∧ (updBlk k g s).dies = s.dies ∧ (updBlk k g s).reqs = s.reqs ∧
    (updBlk k g s).progs = s.progs ∧ (updBlk k g s).cws = s.cws ∧ (updBlk k g s).chunks = s.chunks ∧ (updBlk k g s).stripes = s.stripes ∧
    (updBlk k g s).accums = s.accums ∧ (updBlk k g s).rebuild = s.rebuild ∧ (updBlk k g s).seedbed = s.seedbed ∧ (updBlk k g s).nss = s.nss ∧
    (updBlk k g s).zones = s.zones ∧ (updBlk k g s).map = s.map ∧ (updBlk k g s).pages = s.pages ∧ (updBlk k g s).jA = s.jA ∧
    (updBlk k g s).jB = s.jB ∧ (updBlk k g s).metas = s.metas ∧ (updBlk k g s).c0 = s.c0 ∧ (updBlk k g s).c1 = s.c1 ∧ (updBlk k g s).sqs = s.sqs ∧ (updBlk k g s).cqs = s.cqs ∧
    (updBlk k g s).cmds = s.cmds ∧ (updBlk k g s).pieces = s.pieces ∧ (updBlk k g s).cqes = s.cqes ∧ (updBlk k g s).slices = s.slices ∧
    (updBlk k g s).spA = s.spA ∧ (updBlk k g s).spB = s.spB ∧ (updBlk k g s).rules = s.rules ∧ (updBlk k g s).b0 = s.b0 ∧ (updBlk k g s).b1 = s.b1 ∧
    (updBlk k g s).bulkNext = s.bulkNext ∧ (updBlk k g s).qps = s.qps ∧ (updBlk k g s).memA = s.memA ∧ (updBlk k g s).memB = s.memB ∧
    (updBlk k g s).engines = s.engines ∧ (updBlk k g s).seA = s.seA ∧ (updBlk k g s).seB = s.seB ∧ (updBlk k g s).pair = s.pair ∧
    (updBlk k g s).sheaf = s.sheaf ∧ (updBlk k g s).sec = s.sec ∧ (updBlk k g s).events = s.events ∧ (updBlk k g s).power = s.power ∧
    (updBlk k g s).feat = s.feat ∧ (updBlk k g s).featNext = s.featNext ∧ (updBlk k g s).mi = s.mi ∧ (updBlk k g s).tx = s.tx ∧
    (updBlk k g s).next = s.next ∧ (updBlk k g s).drawn = s.drawn ∧ (updBlk k g s).heldAdmin = s.heldAdmin ∧ (updBlk k g s).jobs = s.jobs := by and_intros <;> rfl
@[simp] theorem updBlk_blks (k : Nat) (g : Blk → Blk) (s : State) : (updBlk k g s).blks = tupd (blkDefault k) s.blks k g := rfl
theorem blkAt_updBlk (k : Nat) (g : Blk → Blk) (s : State) (x : Nat) (h : rising s.blks = true) : blkAt (updBlk k g s) x = if x = k then g (blkAt s k) else blkAt s x := by
  by_cases hx : x = k
  · subst hx; simpa [blkAt, updBlk] using tget_tupd_rising (blkDefault x) s.blks x x g h
  · simp only [blkAt, updBlk, tupd, if_neg hx]; unfold tput; split
    · exact tget_tdel_ne _ _ _ _ hx
    · exact tget_tins_ne _ _ _ _ _ hx
theorem canonical_updBlk (k : Nat) (g : Blk → Blk) (s : State) (h : s.canonical = true) : (updBlk k g s).canonical = true := by
  simp only [State.canonical, Bool.and_eq_true] at h ⊢
  simp only [updBlk, rising_tupd, h, and_self]
@[simp] theorem updReq_others (n : Nat) (g : Req → Req) (s : State) :
    (updReq n g s).pending = s.pending ∧ (updReq n g s).time = s.time ∧ (updReq n g s).stats = s.stats ∧ (updReq n g s).misses = s.misses ∧
    (updReq n g s).fronds = s.fronds ∧ (updReq n g s).chans = s.chans ∧ (updReq n g s).dies = s.dies ∧ (updReq n g s).blks = s.blks ∧
    (updReq n g s).progs = s.progs ∧ (updReq n g s).cws = s.cws ∧ (updReq n g s).chunks = s.chunks ∧ (updReq n g s).stripes = s.stripes ∧
    (updReq n g s).accums = s.accums ∧ (updReq n g s).rebuild = s.rebuild ∧ (updReq n g s).seedbed = s.seedbed ∧ (updReq n g s).nss = s.nss ∧
    (updReq n g s).zones = s.zones ∧ (updReq n g s).map = s.map ∧ (updReq n g s).pages = s.pages ∧ (updReq n g s).jA = s.jA ∧
    (updReq n g s).jB = s.jB ∧ (updReq n g s).metas = s.metas ∧ (updReq n g s).c0 = s.c0 ∧ (updReq n g s).c1 = s.c1 ∧ (updReq n g s).sqs = s.sqs ∧ (updReq n g s).cqs = s.cqs ∧
    (updReq n g s).cmds = s.cmds ∧ (updReq n g s).pieces = s.pieces ∧ (updReq n g s).cqes = s.cqes ∧ (updReq n g s).slices = s.slices ∧
    (updReq n g s).spA = s.spA ∧ (updReq n g s).spB = s.spB ∧ (updReq n g s).rules = s.rules ∧ (updReq n g s).b0 = s.b0 ∧ (updReq n g s).b1 = s.b1 ∧
    (updReq n g s).bulkNext = s.bulkNext ∧ (updReq n g s).qps = s.qps ∧ (updReq n g s).memA = s.memA ∧ (updReq n g s).memB = s.memB ∧
    (updReq n g s).engines = s.engines ∧ (updReq n g s).seA = s.seA ∧ (updReq n g s).seB = s.seB ∧ (updReq n g s).pair = s.pair ∧
    (updReq n g s).sheaf = s.sheaf ∧ (updReq n g s).sec = s.sec ∧ (updReq n g s).events = s.events ∧ (updReq n g s).power = s.power ∧
    (updReq n g s).feat = s.feat ∧ (updReq n g s).featNext = s.featNext ∧ (updReq n g s).mi = s.mi ∧ (updReq n g s).tx = s.tx ∧
    (updReq n g s).next = s.next ∧ (updReq n g s).drawn = s.drawn ∧ (updReq n g s).heldAdmin = s.heldAdmin ∧ (updReq n g s).jobs = s.jobs := by and_intros <;> rfl
@[simp] theorem updReq_reqs (n : Nat) (g : Req → Req) (s : State) : (updReq n g s).reqs = tmod s.reqs n g := rfl
@[simp] theorem canonical_updReq (n : Nat) (g : Req → Req) (s : State) : (updReq n g s).canonical = s.canonical := by
  simp only [State.canonical, updReq, rising_tmod]
@[simp] theorem updCw_others (k : Nat) (g : Cw → Cw) (s : State) :
    (updCw k g s).pending = s.pending ∧ (updCw k g s).time = s.time ∧ (updCw k g s).stats = s.stats ∧ (updCw k g s).misses = s.misses ∧
    (updCw k g s).fronds = s.fronds ∧ (updCw k g s).chans = s.chans ∧ (updCw k g s).dies = s.dies ∧ (updCw k g s).blks = s.blks ∧
    (updCw k g s).reqs = s.reqs ∧ (updCw k g s).progs = s.progs ∧ (updCw k g s).chunks = s.chunks ∧ (updCw k g s).stripes = s.stripes ∧
    (updCw k g s).accums = s.accums ∧ (updCw k g s).rebuild = s.rebuild ∧ (updCw k g s).seedbed = s.seedbed ∧ (updCw k g s).nss = s.nss ∧
    (updCw k g s).zones = s.zones ∧ (updCw k g s).map = s.map ∧ (updCw k g s).pages = s.pages ∧ (updCw k g s).jA = s.jA ∧ (updCw k g s).jB = s.jB ∧ (updCw k g s).metas = s.metas ∧
    (updCw k g s).c0 = s.c0 ∧ (updCw k g s).c1 = s.c1 ∧ (updCw k g s).sqs = s.sqs ∧ (updCw k g s).cqs = s.cqs ∧ (updCw k g s).cmds = s.cmds ∧
    (updCw k g s).pieces = s.pieces ∧ (updCw k g s).cqes = s.cqes ∧ (updCw k g s).slices = s.slices ∧ (updCw k g s).spA = s.spA ∧
    (updCw k g s).spB = s.spB ∧ (updCw k g s).rules = s.rules ∧ (updCw k g s).b0 = s.b0 ∧ (updCw k g s).b1 = s.b1 ∧
    (updCw k g s).bulkNext = s.bulkNext ∧ (updCw k g s).qps = s.qps ∧ (updCw k g s).memA = s.memA ∧ (updCw k g s).memB = s.memB ∧
    (updCw k g s).engines = s.engines ∧ (updCw k g s).seA = s.seA ∧ (updCw k g s).seB = s.seB ∧ (updCw k g s).pair = s.pair ∧
    (updCw k g s).sheaf = s.sheaf ∧ (updCw k g s).sec = s.sec ∧ (updCw k g s).events = s.events ∧ (updCw k g s).power = s.power ∧
    (updCw k g s).feat = s.feat ∧ (updCw k g s).featNext = s.featNext ∧ (updCw k g s).mi = s.mi ∧ (updCw k g s).tx = s.tx ∧
    (updCw k g s).next = s.next ∧ (updCw k g s).drawn = s.drawn ∧ (updCw k g s).heldAdmin = s.heldAdmin ∧ (updCw k g s).jobs = s.jobs := by and_intros <;> rfl
@[simp] theorem updCw_cws (k : Nat) (g : Cw → Cw) (s : State) : (updCw k g s).cws = tmod s.cws k g := rfl
@[simp] theorem canonical_updCw (k : Nat) (g : Cw → Cw) (s : State) : (updCw k g s).canonical = s.canonical := by
  simp only [State.canonical, updCw, rising_tmod]
@[simp] theorem updChunk_others (k : Nat) (g : Chunk → Chunk) (s : State) :
    (updChunk k g s).pending = s.pending ∧ (updChunk k g s).time = s.time ∧ (updChunk k g s).stats = s.stats ∧ (updChunk k g s).misses = s.misses ∧
    (updChunk k g s).fronds = s.fronds ∧ (updChunk k g s).chans = s.chans ∧ (updChunk k g s).dies = s.dies ∧ (updChunk k g s).blks = s.blks ∧
    (updChunk k g s).reqs = s.reqs ∧ (updChunk k g s).progs = s.progs ∧ (updChunk k g s).cws = s.cws ∧ (updChunk k g s).stripes = s.stripes ∧
    (updChunk k g s).accums = s.accums ∧ (updChunk k g s).rebuild = s.rebuild ∧ (updChunk k g s).seedbed = s.seedbed ∧ (updChunk k g s).nss = s.nss ∧
    (updChunk k g s).zones = s.zones ∧ (updChunk k g s).map = s.map ∧ (updChunk k g s).pages = s.pages ∧ (updChunk k g s).jA = s.jA ∧
    (updChunk k g s).jB = s.jB ∧ (updChunk k g s).metas = s.metas ∧ (updChunk k g s).c0 = s.c0 ∧ (updChunk k g s).c1 = s.c1 ∧ (updChunk k g s).sqs = s.sqs ∧
    (updChunk k g s).cqs = s.cqs ∧ (updChunk k g s).cmds = s.cmds ∧ (updChunk k g s).pieces = s.pieces ∧ (updChunk k g s).cqes = s.cqes ∧
    (updChunk k g s).slices = s.slices ∧ (updChunk k g s).spA = s.spA ∧ (updChunk k g s).spB = s.spB ∧ (updChunk k g s).rules = s.rules ∧
    (updChunk k g s).b0 = s.b0 ∧ (updChunk k g s).b1 = s.b1 ∧ (updChunk k g s).bulkNext = s.bulkNext ∧ (updChunk k g s).qps = s.qps ∧
    (updChunk k g s).memA = s.memA ∧ (updChunk k g s).memB = s.memB ∧ (updChunk k g s).engines = s.engines ∧ (updChunk k g s).seA = s.seA ∧
    (updChunk k g s).seB = s.seB ∧ (updChunk k g s).pair = s.pair ∧ (updChunk k g s).sheaf = s.sheaf ∧ (updChunk k g s).sec = s.sec ∧
    (updChunk k g s).events = s.events ∧ (updChunk k g s).power = s.power ∧ (updChunk k g s).feat = s.feat ∧ (updChunk k g s).featNext = s.featNext ∧
    (updChunk k g s).mi = s.mi ∧ (updChunk k g s).tx = s.tx ∧ (updChunk k g s).next = s.next ∧ (updChunk k g s).drawn = s.drawn ∧
    (updChunk k g s).heldAdmin = s.heldAdmin ∧ (updChunk k g s).jobs = s.jobs := by and_intros <;> rfl
@[simp] theorem updChunk_chunks (k : Nat) (g : Chunk → Chunk) (s : State) : (updChunk k g s).chunks = tupd {} s.chunks k g := rfl
theorem chunkAt_updChunk (k : Nat) (g : Chunk → Chunk) (s : State) (x : Nat) (h : rising s.chunks = true) : chunkAt (updChunk k g s) x = if x = k then g (chunkAt s k) else chunkAt s x :=
  tget_tupd_rising _ s.chunks k x g h
theorem canonical_updChunk (k : Nat) (g : Chunk → Chunk) (s : State) (h : s.canonical = true) : (updChunk k g s).canonical = true := by
  simp only [State.canonical, Bool.and_eq_true] at h ⊢
  simp only [updChunk, rising_tupd, h, and_self]
@[simp] theorem updStripe_others (k : Nat) (g : Stripe → Stripe) (s : State) :
    (updStripe k g s).pending = s.pending ∧ (updStripe k g s).time = s.time ∧ (updStripe k g s).stats = s.stats ∧
    (updStripe k g s).misses = s.misses ∧ (updStripe k g s).fronds = s.fronds ∧ (updStripe k g s).chans = s.chans ∧ (updStripe k g s).dies = s.dies ∧
    (updStripe k g s).blks = s.blks ∧ (updStripe k g s).reqs = s.reqs ∧ (updStripe k g s).progs = s.progs ∧ (updStripe k g s).cws = s.cws ∧
    (updStripe k g s).chunks = s.chunks ∧ (updStripe k g s).accums = s.accums ∧ (updStripe k g s).rebuild = s.rebuild ∧
    (updStripe k g s).seedbed = s.seedbed ∧ (updStripe k g s).nss = s.nss ∧ (updStripe k g s).zones = s.zones ∧ (updStripe k g s).map = s.map ∧
    (updStripe k g s).pages = s.pages ∧ (updStripe k g s).jA = s.jA ∧ (updStripe k g s).jB = s.jB ∧ (updStripe k g s).metas = s.metas ∧ (updStripe k g s).c0 = s.c0 ∧
    (updStripe k g s).c1 = s.c1 ∧ (updStripe k g s).sqs = s.sqs ∧ (updStripe k g s).cqs = s.cqs ∧ (updStripe k g s).cmds = s.cmds ∧
    (updStripe k g s).pieces = s.pieces ∧ (updStripe k g s).cqes = s.cqes ∧ (updStripe k g s).slices = s.slices ∧ (updStripe k g s).spA = s.spA ∧
    (updStripe k g s).spB = s.spB ∧ (updStripe k g s).rules = s.rules ∧ (updStripe k g s).b0 = s.b0 ∧ (updStripe k g s).b1 = s.b1 ∧
    (updStripe k g s).bulkNext = s.bulkNext ∧ (updStripe k g s).qps = s.qps ∧ (updStripe k g s).memA = s.memA ∧ (updStripe k g s).memB = s.memB ∧
    (updStripe k g s).engines = s.engines ∧ (updStripe k g s).seA = s.seA ∧ (updStripe k g s).seB = s.seB ∧ (updStripe k g s).pair = s.pair ∧
    (updStripe k g s).sheaf = s.sheaf ∧ (updStripe k g s).sec = s.sec ∧ (updStripe k g s).events = s.events ∧ (updStripe k g s).power = s.power ∧
    (updStripe k g s).feat = s.feat ∧ (updStripe k g s).featNext = s.featNext ∧ (updStripe k g s).mi = s.mi ∧ (updStripe k g s).tx = s.tx ∧
    (updStripe k g s).next = s.next ∧ (updStripe k g s).drawn = s.drawn ∧ (updStripe k g s).heldAdmin = s.heldAdmin ∧ (updStripe k g s).jobs = s.jobs := by and_intros <;> rfl
@[simp] theorem updStripe_stripes (k : Nat) (g : Stripe → Stripe) (s : State) : (updStripe k g s).stripes = tupd {} s.stripes k g := rfl
theorem stripeAt_updStripe (k : Nat) (g : Stripe → Stripe) (s : State) (x : Nat) (h : rising s.stripes = true) : stripeAt (updStripe k g s) x = if x = k then g (stripeAt s k) else stripeAt s x :=
  tget_tupd_rising _ s.stripes k x g h
theorem canonical_updStripe (k : Nat) (g : Stripe → Stripe) (s : State) (h : s.canonical = true) : (updStripe k g s).canonical = true := by
  simp only [State.canonical, Bool.and_eq_true] at h ⊢
  simp only [updStripe, rising_tupd, h, and_self]
@[simp] theorem updAccum_others (k : Nat) (g : Accum → Accum) (s : State) :
    (updAccum k g s).pending = s.pending ∧ (updAccum k g s).time = s.time ∧ (updAccum k g s).stats = s.stats ∧ (updAccum k g s).misses = s.misses ∧
    (updAccum k g s).fronds = s.fronds ∧ (updAccum k g s).chans = s.chans ∧ (updAccum k g s).dies = s.dies ∧ (updAccum k g s).blks = s.blks ∧
    (updAccum k g s).reqs = s.reqs ∧ (updAccum k g s).progs = s.progs ∧ (updAccum k g s).cws = s.cws ∧ (updAccum k g s).chunks = s.chunks ∧
    (updAccum k g s).stripes = s.stripes ∧ (updAccum k g s).rebuild = s.rebuild ∧ (updAccum k g s).seedbed = s.seedbed ∧
    (updAccum k g s).nss = s.nss ∧ (updAccum k g s).zones = s.zones ∧ (updAccum k g s).map = s.map ∧ (updAccum k g s).pages = s.pages ∧
    (updAccum k g s).jA = s.jA ∧ (updAccum k g s).jB = s.jB ∧ (updAccum k g s).metas = s.metas ∧ (updAccum k g s).c0 = s.c0 ∧ (updAccum k g s).c1 = s.c1 ∧
    (updAccum k g s).sqs = s.sqs ∧ (updAccum k g s).cqs = s.cqs ∧ (updAccum k g s).cmds = s.cmds ∧ (updAccum k g s).pieces = s.pieces ∧
    (updAccum k g s).cqes = s.cqes ∧ (updAccum k g s).slices = s.slices ∧ (updAccum k g s).spA = s.spA ∧ (updAccum k g s).spB = s.spB ∧
    (updAccum k g s).rules = s.rules ∧ (updAccum k g s).b0 = s.b0 ∧ (updAccum k g s).b1 = s.b1 ∧ (updAccum k g s).bulkNext = s.bulkNext ∧
    (updAccum k g s).qps = s.qps ∧ (updAccum k g s).memA = s.memA ∧ (updAccum k g s).memB = s.memB ∧ (updAccum k g s).engines = s.engines ∧
    (updAccum k g s).seA = s.seA ∧ (updAccum k g s).seB = s.seB ∧ (updAccum k g s).pair = s.pair ∧ (updAccum k g s).sheaf = s.sheaf ∧
    (updAccum k g s).sec = s.sec ∧ (updAccum k g s).events = s.events ∧ (updAccum k g s).power = s.power ∧ (updAccum k g s).feat = s.feat ∧
    (updAccum k g s).featNext = s.featNext ∧ (updAccum k g s).mi = s.mi ∧ (updAccum k g s).tx = s.tx ∧ (updAccum k g s).next = s.next ∧
    (updAccum k g s).drawn = s.drawn ∧ (updAccum k g s).heldAdmin = s.heldAdmin ∧ (updAccum k g s).jobs = s.jobs := by and_intros <;> rfl
@[simp] theorem updAccum_accums (k : Nat) (g : Accum → Accum) (s : State) : (updAccum k g s).accums = tupd {} s.accums k g := rfl
theorem accumAt_updAccum (k : Nat) (g : Accum → Accum) (s : State) (x : Nat) (h : rising s.accums = true) : accumAt (updAccum k g s) x = if x = k then g (accumAt s k) else accumAt s x :=
  tget_tupd_rising _ s.accums k x g h
theorem canonical_updAccum (k : Nat) (g : Accum → Accum) (s : State) (h : s.canonical = true) : (updAccum k g s).canonical = true := by
  simp only [State.canonical, Bool.and_eq_true] at h ⊢
  simp only [updAccum, rising_tupd, h, and_self]
@[simp] theorem updNs_others (k : Nat) (g : Ns → Ns) (s : State) :
    (updNs k g s).pending = s.pending ∧ (updNs k g s).time = s.time ∧ (updNs k g s).stats = s.stats ∧ (updNs k g s).misses = s.misses ∧
    (updNs k g s).fronds = s.fronds ∧ (updNs k g s).chans = s.chans ∧ (updNs k g s).dies = s.dies ∧ (updNs k g s).blks = s.blks ∧
    (updNs k g s).reqs = s.reqs ∧ (updNs k g s).progs = s.progs ∧ (updNs k g s).cws = s.cws ∧ (updNs k g s).chunks = s.chunks ∧
    (updNs k g s).stripes = s.stripes ∧ (updNs k g s).accums = s.accums ∧ (updNs k g s).rebuild = s.rebuild ∧ (updNs k g s).seedbed = s.seedbed ∧
    (updNs k g s).zones = s.zones ∧ (updNs k g s).map = s.map ∧ (updNs k g s).pages = s.pages ∧ (updNs k g s).jA = s.jA ∧ (updNs k g s).jB = s.jB ∧ (updNs k g s).metas = s.metas ∧
    (updNs k g s).c0 = s.c0 ∧ (updNs k g s).c1 = s.c1 ∧ (updNs k g s).sqs = s.sqs ∧ (updNs k g s).cqs = s.cqs ∧ (updNs k g s).cmds = s.cmds ∧
    (updNs k g s).pieces = s.pieces ∧ (updNs k g s).cqes = s.cqes ∧ (updNs k g s).slices = s.slices ∧ (updNs k g s).spA = s.spA ∧
    (updNs k g s).spB = s.spB ∧ (updNs k g s).rules = s.rules ∧ (updNs k g s).b0 = s.b0 ∧ (updNs k g s).b1 = s.b1 ∧
    (updNs k g s).bulkNext = s.bulkNext ∧ (updNs k g s).qps = s.qps ∧ (updNs k g s).memA = s.memA ∧ (updNs k g s).memB = s.memB ∧
    (updNs k g s).engines = s.engines ∧ (updNs k g s).seA = s.seA ∧ (updNs k g s).seB = s.seB ∧ (updNs k g s).pair = s.pair ∧
    (updNs k g s).sheaf = s.sheaf ∧ (updNs k g s).sec = s.sec ∧ (updNs k g s).events = s.events ∧ (updNs k g s).power = s.power ∧
    (updNs k g s).feat = s.feat ∧ (updNs k g s).featNext = s.featNext ∧ (updNs k g s).mi = s.mi ∧ (updNs k g s).tx = s.tx ∧
    (updNs k g s).next = s.next ∧ (updNs k g s).drawn = s.drawn ∧ (updNs k g s).heldAdmin = s.heldAdmin ∧ (updNs k g s).jobs = s.jobs := by and_intros <;> rfl
@[simp] theorem updNs_nss (k : Nat) (g : Ns → Ns) (s : State) : (updNs k g s).nss = tupd {} s.nss k g := rfl
theorem nsAt_updNs (k : Nat) (g : Ns → Ns) (s : State) (x : Nat) (h : rising s.nss = true) : nsAt (updNs k g s) x = if x = k then g (nsAt s k) else nsAt s x :=
  tget_tupd_rising _ s.nss k x g h
theorem canonical_updNs (k : Nat) (g : Ns → Ns) (s : State) (h : s.canonical = true) : (updNs k g s).canonical = true := by
  simp only [State.canonical, Bool.and_eq_true] at h ⊢
  simp only [updNs, rising_tupd, h, and_self]
@[simp] theorem updZone_others (k : Nat) (g : Zone → Zone) (s : State) :
    (updZone k g s).pending = s.pending ∧ (updZone k g s).time = s.time ∧ (updZone k g s).stats = s.stats ∧ (updZone k g s).misses = s.misses ∧
    (updZone k g s).fronds = s.fronds ∧ (updZone k g s).chans = s.chans ∧ (updZone k g s).dies = s.dies ∧ (updZone k g s).blks = s.blks ∧
    (updZone k g s).reqs = s.reqs ∧ (updZone k g s).progs = s.progs ∧ (updZone k g s).cws = s.cws ∧ (updZone k g s).chunks = s.chunks ∧
    (updZone k g s).stripes = s.stripes ∧ (updZone k g s).accums = s.accums ∧ (updZone k g s).rebuild = s.rebuild ∧
    (updZone k g s).seedbed = s.seedbed ∧ (updZone k g s).nss = s.nss ∧ (updZone k g s).map = s.map ∧ (updZone k g s).pages = s.pages ∧
    (updZone k g s).jA = s.jA ∧ (updZone k g s).jB = s.jB ∧ (updZone k g s).metas = s.metas ∧ (updZone k g s).c0 = s.c0 ∧ (updZone k g s).c1 = s.c1 ∧ (updZone k g s).sqs = s.sqs ∧
    (updZone k g s).cqs = s.cqs ∧ (updZone k g s).cmds = s.cmds ∧ (updZone k g s).pieces = s.pieces ∧ (updZone k g s).cqes = s.cqes ∧
    (updZone k g s).slices = s.slices ∧ (updZone k g s).spA = s.spA ∧ (updZone k g s).spB = s.spB ∧ (updZone k g s).rules = s.rules ∧
    (updZone k g s).b0 = s.b0 ∧ (updZone k g s).b1 = s.b1 ∧ (updZone k g s).bulkNext = s.bulkNext ∧ (updZone k g s).qps = s.qps ∧
    (updZone k g s).memA = s.memA ∧ (updZone k g s).memB = s.memB ∧ (updZone k g s).engines = s.engines ∧ (updZone k g s).seA = s.seA ∧
    (updZone k g s).seB = s.seB ∧ (updZone k g s).pair = s.pair ∧ (updZone k g s).sheaf = s.sheaf ∧ (updZone k g s).sec = s.sec ∧
    (updZone k g s).events = s.events ∧ (updZone k g s).power = s.power ∧ (updZone k g s).feat = s.feat ∧ (updZone k g s).featNext = s.featNext ∧
    (updZone k g s).mi = s.mi ∧ (updZone k g s).tx = s.tx ∧ (updZone k g s).next = s.next ∧ (updZone k g s).drawn = s.drawn ∧
    (updZone k g s).heldAdmin = s.heldAdmin ∧ (updZone k g s).jobs = s.jobs := by and_intros <;> rfl
@[simp] theorem updZone_zones (k : Nat) (g : Zone → Zone) (s : State) : (updZone k g s).zones = tupd {} s.zones k g := rfl
theorem zoneAt_updZone (k : Nat) (g : Zone → Zone) (s : State) (x : Nat) (h : rising s.zones = true) : zoneAt (updZone k g s) x = if x = k then g (zoneAt s k) else zoneAt s x :=
  tget_tupd_rising _ s.zones k x g h
theorem canonical_updZone (k : Nat) (g : Zone → Zone) (s : State) (h : s.canonical = true) : (updZone k g s).canonical = true := by
  simp only [State.canonical, Bool.and_eq_true] at h ⊢
  simp only [updZone, rising_tupd, h, and_self]
@[simp] theorem updCmd_others (k : Nat) (g : Cmd → Cmd) (s : State) :
    (updCmd k g s).pending = s.pending ∧ (updCmd k g s).time = s.time ∧ (updCmd k g s).stats = s.stats ∧ (updCmd k g s).misses = s.misses ∧
    (updCmd k g s).fronds = s.fronds ∧ (updCmd k g s).chans = s.chans ∧ (updCmd k g s).dies = s.dies ∧ (updCmd k g s).blks = s.blks ∧
    (updCmd k g s).reqs = s.reqs ∧ (updCmd k g s).progs = s.progs ∧ (updCmd k g s).cws = s.cws ∧ (updCmd k g s).chunks = s.chunks ∧
    (updCmd k g s).stripes = s.stripes ∧ (updCmd k g s).accums = s.accums ∧ (updCmd k g s).rebuild = s.rebuild ∧ (updCmd k g s).seedbed = s.seedbed ∧
    (updCmd k g s).nss = s.nss ∧ (updCmd k g s).zones = s.zones ∧ (updCmd k g s).map = s.map ∧ (updCmd k g s).pages = s.pages ∧
    (updCmd k g s).jA = s.jA ∧ (updCmd k g s).jB = s.jB ∧ (updCmd k g s).metas = s.metas ∧ (updCmd k g s).c0 = s.c0 ∧ (updCmd k g s).c1 = s.c1 ∧ (updCmd k g s).sqs = s.sqs ∧
    (updCmd k g s).cqs = s.cqs ∧ (updCmd k g s).pieces = s.pieces ∧ (updCmd k g s).cqes = s.cqes ∧ (updCmd k g s).slices = s.slices ∧
    (updCmd k g s).spA = s.spA ∧ (updCmd k g s).spB = s.spB ∧ (updCmd k g s).rules = s.rules ∧ (updCmd k g s).b0 = s.b0 ∧ (updCmd k g s).b1 = s.b1 ∧
    (updCmd k g s).bulkNext = s.bulkNext ∧ (updCmd k g s).qps = s.qps ∧ (updCmd k g s).memA = s.memA ∧ (updCmd k g s).memB = s.memB ∧
    (updCmd k g s).engines = s.engines ∧ (updCmd k g s).seA = s.seA ∧ (updCmd k g s).seB = s.seB ∧ (updCmd k g s).pair = s.pair ∧
    (updCmd k g s).sheaf = s.sheaf ∧ (updCmd k g s).sec = s.sec ∧ (updCmd k g s).events = s.events ∧ (updCmd k g s).power = s.power ∧
    (updCmd k g s).feat = s.feat ∧ (updCmd k g s).featNext = s.featNext ∧ (updCmd k g s).mi = s.mi ∧ (updCmd k g s).tx = s.tx ∧
    (updCmd k g s).next = s.next ∧ (updCmd k g s).drawn = s.drawn ∧ (updCmd k g s).heldAdmin = s.heldAdmin ∧ (updCmd k g s).jobs = s.jobs := by and_intros <;> rfl
@[simp] theorem updCmd_cmds (k : Nat) (g : Cmd → Cmd) (s : State) : (updCmd k g s).cmds = tmod s.cmds k g := rfl
@[simp] theorem canonical_updCmd (k : Nat) (g : Cmd → Cmd) (s : State) : (updCmd k g s).canonical = s.canonical := by
  simp only [State.canonical, updCmd, rising_tmod]
@[simp] theorem updPiece_others (k : Nat) (g : Piece → Piece) (s : State) :
    (updPiece k g s).pending = s.pending ∧ (updPiece k g s).time = s.time ∧ (updPiece k g s).stats = s.stats ∧ (updPiece k g s).misses = s.misses ∧
    (updPiece k g s).fronds = s.fronds ∧ (updPiece k g s).chans = s.chans ∧ (updPiece k g s).dies = s.dies ∧ (updPiece k g s).blks = s.blks ∧
    (updPiece k g s).reqs = s.reqs ∧ (updPiece k g s).progs = s.progs ∧ (updPiece k g s).cws = s.cws ∧ (updPiece k g s).chunks = s.chunks ∧
    (updPiece k g s).stripes = s.stripes ∧ (updPiece k g s).accums = s.accums ∧ (updPiece k g s).rebuild = s.rebuild ∧
    (updPiece k g s).seedbed = s.seedbed ∧ (updPiece k g s).nss = s.nss ∧ (updPiece k g s).zones = s.zones ∧ (updPiece k g s).map = s.map ∧
    (updPiece k g s).pages = s.pages ∧ (updPiece k g s).jA = s.jA ∧ (updPiece k g s).jB = s.jB ∧ (updPiece k g s).metas = s.metas ∧ (updPiece k g s).c0 = s.c0 ∧
    (updPiece k g s).c1 = s.c1 ∧ (updPiece k g s).sqs = s.sqs ∧ (updPiece k g s).cqs = s.cqs ∧ (updPiece k g s).cmds = s.cmds ∧
    (updPiece k g s).cqes = s.cqes ∧ (updPiece k g s).slices = s.slices ∧ (updPiece k g s).spA = s.spA ∧ (updPiece k g s).spB = s.spB ∧
    (updPiece k g s).rules = s.rules ∧ (updPiece k g s).b0 = s.b0 ∧ (updPiece k g s).b1 = s.b1 ∧ (updPiece k g s).bulkNext = s.bulkNext ∧
    (updPiece k g s).qps = s.qps ∧ (updPiece k g s).memA = s.memA ∧ (updPiece k g s).memB = s.memB ∧ (updPiece k g s).engines = s.engines ∧
    (updPiece k g s).seA = s.seA ∧ (updPiece k g s).seB = s.seB ∧ (updPiece k g s).pair = s.pair ∧ (updPiece k g s).sheaf = s.sheaf ∧
    (updPiece k g s).sec = s.sec ∧ (updPiece k g s).events = s.events ∧ (updPiece k g s).power = s.power ∧ (updPiece k g s).feat = s.feat ∧
    (updPiece k g s).featNext = s.featNext ∧ (updPiece k g s).mi = s.mi ∧ (updPiece k g s).tx = s.tx ∧ (updPiece k g s).next = s.next ∧
    (updPiece k g s).drawn = s.drawn ∧ (updPiece k g s).heldAdmin = s.heldAdmin ∧ (updPiece k g s).jobs = s.jobs := by and_intros <;> rfl
@[simp] theorem updPiece_pieces (k : Nat) (g : Piece → Piece) (s : State) : (updPiece k g s).pieces = tmod s.pieces k g := rfl
@[simp] theorem canonical_updPiece (k : Nat) (g : Piece → Piece) (s : State) : (updPiece k g s).canonical = s.canonical := by
  simp only [State.canonical, updPiece, rising_tmod]
@[simp] theorem updSlice_others (k : Nat) (g : Slice → Slice) (s : State) :
    (updSlice k g s).pending = s.pending ∧ (updSlice k g s).time = s.time ∧ (updSlice k g s).stats = s.stats ∧ (updSlice k g s).misses = s.misses ∧
    (updSlice k g s).fronds = s.fronds ∧ (updSlice k g s).chans = s.chans ∧ (updSlice k g s).dies = s.dies ∧ (updSlice k g s).blks = s.blks ∧
    (updSlice k g s).reqs = s.reqs ∧ (updSlice k g s).progs = s.progs ∧ (updSlice k g s).cws = s.cws ∧ (updSlice k g s).chunks = s.chunks ∧
    (updSlice k g s).stripes = s.stripes ∧ (updSlice k g s).accums = s.accums ∧ (updSlice k g s).rebuild = s.rebuild ∧
    (updSlice k g s).seedbed = s.seedbed ∧ (updSlice k g s).nss = s.nss ∧ (updSlice k g s).zones = s.zones ∧ (updSlice k g s).map = s.map ∧
    (updSlice k g s).pages = s.pages ∧ (updSlice k g s).jA = s.jA ∧ (updSlice k g s).jB = s.jB ∧ (updSlice k g s).metas = s.metas ∧ (updSlice k g s).c0 = s.c0 ∧
    (updSlice k g s).c1 = s.c1 ∧ (updSlice k g s).sqs = s.sqs ∧ (updSlice k g s).cqs = s.cqs ∧ (updSlice k g s).cmds = s.cmds ∧
    (updSlice k g s).pieces = s.pieces ∧ (updSlice k g s).cqes = s.cqes ∧ (updSlice k g s).spA = s.spA ∧ (updSlice k g s).spB = s.spB ∧
    (updSlice k g s).rules = s.rules ∧ (updSlice k g s).b0 = s.b0 ∧ (updSlice k g s).b1 = s.b1 ∧ (updSlice k g s).bulkNext = s.bulkNext ∧
    (updSlice k g s).qps = s.qps ∧ (updSlice k g s).memA = s.memA ∧ (updSlice k g s).memB = s.memB ∧ (updSlice k g s).engines = s.engines ∧
    (updSlice k g s).seA = s.seA ∧ (updSlice k g s).seB = s.seB ∧ (updSlice k g s).pair = s.pair ∧ (updSlice k g s).sheaf = s.sheaf ∧
    (updSlice k g s).sec = s.sec ∧ (updSlice k g s).events = s.events ∧ (updSlice k g s).power = s.power ∧ (updSlice k g s).feat = s.feat ∧
    (updSlice k g s).featNext = s.featNext ∧ (updSlice k g s).mi = s.mi ∧ (updSlice k g s).tx = s.tx ∧ (updSlice k g s).next = s.next ∧
    (updSlice k g s).drawn = s.drawn ∧ (updSlice k g s).heldAdmin = s.heldAdmin ∧ (updSlice k g s).jobs = s.jobs := by and_intros <;> rfl
@[simp] theorem updSlice_slices (k : Nat) (g : Slice → Slice) (s : State) : (updSlice k g s).slices = tupd {} s.slices k g := rfl
theorem sliceAt_updSlice (k : Nat) (g : Slice → Slice) (s : State) (x : Nat) (h : rising s.slices = true) : sliceAt (updSlice k g s) x = if x = k then g (sliceAt s k) else sliceAt s x :=
  tget_tupd_rising _ s.slices k x g h
theorem canonical_updSlice (k : Nat) (g : Slice → Slice) (s : State) (h : s.canonical = true) : (updSlice k g s).canonical = true := by
  simp only [State.canonical, Bool.and_eq_true] at h ⊢
  simp only [updSlice, rising_tupd, h, and_self]
@[simp] theorem updSq_others (k : Nat) (g : SubQ → SubQ) (s : State) :
    (updSq k g s).pending = s.pending ∧ (updSq k g s).time = s.time ∧ (updSq k g s).stats = s.stats ∧ (updSq k g s).misses = s.misses ∧
    (updSq k g s).fronds = s.fronds ∧ (updSq k g s).chans = s.chans ∧ (updSq k g s).dies = s.dies ∧ (updSq k g s).blks = s.blks ∧
    (updSq k g s).reqs = s.reqs ∧ (updSq k g s).progs = s.progs ∧ (updSq k g s).cws = s.cws ∧ (updSq k g s).chunks = s.chunks ∧
    (updSq k g s).stripes = s.stripes ∧ (updSq k g s).accums = s.accums ∧ (updSq k g s).rebuild = s.rebuild ∧ (updSq k g s).seedbed = s.seedbed ∧
    (updSq k g s).nss = s.nss ∧ (updSq k g s).zones = s.zones ∧ (updSq k g s).map = s.map ∧ (updSq k g s).pages = s.pages ∧ (updSq k g s).jA = s.jA ∧
    (updSq k g s).jB = s.jB ∧ (updSq k g s).metas = s.metas ∧ (updSq k g s).c0 = s.c0 ∧ (updSq k g s).c1 = s.c1 ∧ (updSq k g s).cqs = s.cqs ∧ (updSq k g s).cmds = s.cmds ∧
    (updSq k g s).pieces = s.pieces ∧ (updSq k g s).cqes = s.cqes ∧ (updSq k g s).slices = s.slices ∧ (updSq k g s).spA = s.spA ∧
    (updSq k g s).spB = s.spB ∧ (updSq k g s).rules = s.rules ∧ (updSq k g s).b0 = s.b0 ∧ (updSq k g s).b1 = s.b1 ∧
    (updSq k g s).bulkNext = s.bulkNext ∧ (updSq k g s).qps = s.qps ∧ (updSq k g s).memA = s.memA ∧ (updSq k g s).memB = s.memB ∧
    (updSq k g s).engines = s.engines ∧ (updSq k g s).seA = s.seA ∧ (updSq k g s).seB = s.seB ∧ (updSq k g s).pair = s.pair ∧
    (updSq k g s).sheaf = s.sheaf ∧ (updSq k g s).sec = s.sec ∧ (updSq k g s).events = s.events ∧ (updSq k g s).power = s.power ∧
    (updSq k g s).feat = s.feat ∧ (updSq k g s).featNext = s.featNext ∧ (updSq k g s).mi = s.mi ∧ (updSq k g s).tx = s.tx ∧
    (updSq k g s).next = s.next ∧ (updSq k g s).drawn = s.drawn ∧ (updSq k g s).heldAdmin = s.heldAdmin ∧ (updSq k g s).jobs = s.jobs := by and_intros <;> rfl
@[simp] theorem updSq_sqs (k : Nat) (g : SubQ → SubQ) (s : State) : (updSq k g s).sqs = tupd {} s.sqs k g := rfl
theorem sqAt_updSq (k : Nat) (g : SubQ → SubQ) (s : State) (x : Nat) (h : rising s.sqs = true) : sqAt (updSq k g s) x = if x = k then g (sqAt s k) else sqAt s x :=
  tget_tupd_rising _ s.sqs k x g h
theorem canonical_updSq (k : Nat) (g : SubQ → SubQ) (s : State) (h : s.canonical = true) : (updSq k g s).canonical = true := by
  simp only [State.canonical, Bool.and_eq_true] at h ⊢
  simp only [updSq, rising_tupd, h, and_self]
@[simp] theorem updCq_others (k : Nat) (g : ComQ → ComQ) (s : State) :
    (updCq k g s).pending = s.pending ∧ (updCq k g s).time = s.time ∧ (updCq k g s).stats = s.stats ∧ (updCq k g s).misses = s.misses ∧
    (updCq k g s).fronds = s.fronds ∧ (updCq k g s).chans = s.chans ∧ (updCq k g s).dies = s.dies ∧ (updCq k g s).blks = s.blks ∧
    (updCq k g s).reqs = s.reqs ∧ (updCq k g s).progs = s.progs ∧ (updCq k g s).cws = s.cws ∧ (updCq k g s).chunks = s.chunks ∧
    (updCq k g s).stripes = s.stripes ∧ (updCq k g s).accums = s.accums ∧ (updCq k g s).rebuild = s.rebuild ∧ (updCq k g s).seedbed = s.seedbed ∧
    (updCq k g s).nss = s.nss ∧ (updCq k g s).zones = s.zones ∧ (updCq k g s).map = s.map ∧ (updCq k g s).pages = s.pages ∧ (updCq k g s).jA = s.jA ∧
    (updCq k g s).jB = s.jB ∧ (updCq k g s).metas = s.metas ∧ (updCq k g s).c0 = s.c0 ∧ (updCq k g s).c1 = s.c1 ∧ (updCq k g s).sqs = s.sqs ∧ (updCq k g s).cmds = s.cmds ∧
    (updCq k g s).pieces = s.pieces ∧ (updCq k g s).cqes = s.cqes ∧ (updCq k g s).slices = s.slices ∧ (updCq k g s).spA = s.spA ∧
    (updCq k g s).spB = s.spB ∧ (updCq k g s).rules = s.rules ∧ (updCq k g s).b0 = s.b0 ∧ (updCq k g s).b1 = s.b1 ∧
    (updCq k g s).bulkNext = s.bulkNext ∧ (updCq k g s).qps = s.qps ∧ (updCq k g s).memA = s.memA ∧ (updCq k g s).memB = s.memB ∧
    (updCq k g s).engines = s.engines ∧ (updCq k g s).seA = s.seA ∧ (updCq k g s).seB = s.seB ∧ (updCq k g s).pair = s.pair ∧
    (updCq k g s).sheaf = s.sheaf ∧ (updCq k g s).sec = s.sec ∧ (updCq k g s).events = s.events ∧ (updCq k g s).power = s.power ∧
    (updCq k g s).feat = s.feat ∧ (updCq k g s).featNext = s.featNext ∧ (updCq k g s).mi = s.mi ∧ (updCq k g s).tx = s.tx ∧
    (updCq k g s).next = s.next ∧ (updCq k g s).drawn = s.drawn ∧ (updCq k g s).heldAdmin = s.heldAdmin ∧ (updCq k g s).jobs = s.jobs := by and_intros <;> rfl
@[simp] theorem updCq_cqs (k : Nat) (g : ComQ → ComQ) (s : State) : (updCq k g s).cqs = tupd {} s.cqs k g := rfl
theorem cqAt_updCq (k : Nat) (g : ComQ → ComQ) (s : State) (x : Nat) (h : rising s.cqs = true) : cqAt (updCq k g s) x = if x = k then g (cqAt s k) else cqAt s x :=
  tget_tupd_rising _ s.cqs k x g h
theorem canonical_updCq (k : Nat) (g : ComQ → ComQ) (s : State) (h : s.canonical = true) : (updCq k g s).canonical = true := by
  simp only [State.canonical, Bool.and_eq_true] at h ⊢
  simp only [updCq, rising_tupd, h, and_self]
@[simp] theorem updQp_others (k : Nat) (g : Qp → Qp) (s : State) :
    (updQp k g s).pending = s.pending ∧ (updQp k g s).time = s.time ∧ (updQp k g s).stats = s.stats ∧ (updQp k g s).misses = s.misses ∧
    (updQp k g s).fronds = s.fronds ∧ (updQp k g s).chans = s.chans ∧ (updQp k g s).dies = s.dies ∧ (updQp k g s).blks = s.blks ∧
    (updQp k g s).reqs = s.reqs ∧ (updQp k g s).progs = s.progs ∧ (updQp k g s).cws = s.cws ∧ (updQp k g s).chunks = s.chunks ∧
    (updQp k g s).stripes = s.stripes ∧ (updQp k g s).accums = s.accums ∧ (updQp k g s).rebuild = s.rebuild ∧ (updQp k g s).seedbed = s.seedbed ∧
    (updQp k g s).nss = s.nss ∧ (updQp k g s).zones = s.zones ∧ (updQp k g s).map = s.map ∧ (updQp k g s).pages = s.pages ∧ (updQp k g s).jA = s.jA ∧
    (updQp k g s).jB = s.jB ∧ (updQp k g s).metas = s.metas ∧ (updQp k g s).c0 = s.c0 ∧ (updQp k g s).c1 = s.c1 ∧ (updQp k g s).sqs = s.sqs ∧ (updQp k g s).cqs = s.cqs ∧
    (updQp k g s).cmds = s.cmds ∧ (updQp k g s).pieces = s.pieces ∧ (updQp k g s).cqes = s.cqes ∧ (updQp k g s).slices = s.slices ∧
    (updQp k g s).spA = s.spA ∧ (updQp k g s).spB = s.spB ∧ (updQp k g s).rules = s.rules ∧ (updQp k g s).b0 = s.b0 ∧ (updQp k g s).b1 = s.b1 ∧
    (updQp k g s).bulkNext = s.bulkNext ∧ (updQp k g s).memA = s.memA ∧ (updQp k g s).memB = s.memB ∧ (updQp k g s).engines = s.engines ∧
    (updQp k g s).seA = s.seA ∧ (updQp k g s).seB = s.seB ∧ (updQp k g s).pair = s.pair ∧ (updQp k g s).sheaf = s.sheaf ∧ (updQp k g s).sec = s.sec ∧
    (updQp k g s).events = s.events ∧ (updQp k g s).power = s.power ∧ (updQp k g s).feat = s.feat ∧ (updQp k g s).featNext = s.featNext ∧
    (updQp k g s).mi = s.mi ∧ (updQp k g s).tx = s.tx ∧ (updQp k g s).next = s.next ∧ (updQp k g s).drawn = s.drawn ∧
    (updQp k g s).heldAdmin = s.heldAdmin ∧ (updQp k g s).jobs = s.jobs := by and_intros <;> rfl
@[simp] theorem updQp_qps (k : Nat) (g : Qp → Qp) (s : State) : (updQp k g s).qps = tupd {} s.qps k g := rfl
theorem qpAt_updQp (k : Nat) (g : Qp → Qp) (s : State) (x : Nat) (h : rising s.qps = true) : qpAt (updQp k g s) x = if x = k then g (qpAt s k) else qpAt s x :=
  tget_tupd_rising _ s.qps k x g h
theorem canonical_updQp (k : Nat) (g : Qp → Qp) (s : State) (h : s.canonical = true) : (updQp k g s).canonical = true := by
  simp only [State.canonical, Bool.and_eq_true] at h ⊢
  simp only [updQp, rising_tupd, h, and_self]
@[simp] theorem updEng_others (k : Nat) (g : Engine → Engine) (s : State) :
    (updEng k g s).pending = s.pending ∧ (updEng k g s).time = s.time ∧ (updEng k g s).stats = s.stats ∧ (updEng k g s).misses = s.misses ∧
    (updEng k g s).fronds = s.fronds ∧ (updEng k g s).chans = s.chans ∧ (updEng k g s).dies = s.dies ∧ (updEng k g s).blks = s.blks ∧
    (updEng k g s).reqs = s.reqs ∧ (updEng k g s).progs = s.progs ∧ (updEng k g s).cws = s.cws ∧ (updEng k g s).chunks = s.chunks ∧
    (updEng k g s).stripes = s.stripes ∧ (updEng k g s).accums = s.accums ∧ (updEng k g s).rebuild = s.rebuild ∧ (updEng k g s).seedbed = s.seedbed ∧
    (updEng k g s).nss = s.nss ∧ (updEng k g s).zones = s.zones ∧ (updEng k g s).map = s.map ∧ (updEng k g s).pages = s.pages ∧
    (updEng k g s).jA = s.jA ∧ (updEng k g s).jB = s.jB ∧ (updEng k g s).metas = s.metas ∧ (updEng k g s).c0 = s.c0 ∧ (updEng k g s).c1 = s.c1 ∧ (updEng k g s).sqs = s.sqs ∧
    (updEng k g s).cqs = s.cqs ∧ (updEng k g s).cmds = s.cmds ∧ (updEng k g s).pieces = s.pieces ∧ (updEng k g s).cqes = s.cqes ∧
    (updEng k g s).slices = s.slices ∧ (updEng k g s).spA = s.spA ∧ (updEng k g s).spB = s.spB ∧ (updEng k g s).rules = s.rules ∧
    (updEng k g s).b0 = s.b0 ∧ (updEng k g s).b1 = s.b1 ∧ (updEng k g s).bulkNext = s.bulkNext ∧ (updEng k g s).qps = s.qps ∧
    (updEng k g s).memA = s.memA ∧ (updEng k g s).memB = s.memB ∧ (updEng k g s).seA = s.seA ∧ (updEng k g s).seB = s.seB ∧
    (updEng k g s).pair = s.pair ∧ (updEng k g s).sheaf = s.sheaf ∧ (updEng k g s).sec = s.sec ∧ (updEng k g s).events = s.events ∧
    (updEng k g s).power = s.power ∧ (updEng k g s).feat = s.feat ∧ (updEng k g s).featNext = s.featNext ∧ (updEng k g s).mi = s.mi ∧
    (updEng k g s).tx = s.tx ∧ (updEng k g s).next = s.next ∧ (updEng k g s).drawn = s.drawn ∧ (updEng k g s).heldAdmin = s.heldAdmin ∧
    (updEng k g s).jobs = s.jobs := by and_intros <;> rfl
@[simp] theorem updEng_engines (k : Nat) (g : Engine → Engine) (s : State) : (updEng k g s).engines = tupd {} s.engines k g := rfl
theorem engAt_updEng (k : Nat) (g : Engine → Engine) (s : State) (x : Nat) (h : rising s.engines = true) : engAt (updEng k g s) x = if x = k then g (engAt s k) else engAt s x :=
  tget_tupd_rising _ s.engines k x g h
theorem canonical_updEng (k : Nat) (g : Engine → Engine) (s : State) (h : s.canonical = true) : (updEng k g s).canonical = true := by
  simp only [State.canonical, Bool.and_eq_true] at h ⊢
  simp only [updEng, rising_tupd, h, and_self]
@[simp] theorem updCtrl_others (p : Port) (g : Ctrl → Ctrl) (s : State) :
    (updCtrl p g s).pending = s.pending ∧ (updCtrl p g s).time = s.time ∧ (updCtrl p g s).stats = s.stats ∧ (updCtrl p g s).misses = s.misses ∧
    (updCtrl p g s).fronds = s.fronds ∧ (updCtrl p g s).chans = s.chans ∧ (updCtrl p g s).dies = s.dies ∧ (updCtrl p g s).blks = s.blks ∧
    (updCtrl p g s).reqs = s.reqs ∧ (updCtrl p g s).progs = s.progs ∧ (updCtrl p g s).cws = s.cws ∧ (updCtrl p g s).chunks = s.chunks ∧
    (updCtrl p g s).stripes = s.stripes ∧ (updCtrl p g s).accums = s.accums ∧ (updCtrl p g s).rebuild = s.rebuild ∧
    (updCtrl p g s).seedbed = s.seedbed ∧ (updCtrl p g s).nss = s.nss ∧ (updCtrl p g s).zones = s.zones ∧ (updCtrl p g s).map = s.map ∧
    (updCtrl p g s).pages = s.pages ∧ (updCtrl p g s).jA = s.jA ∧ (updCtrl p g s).jB = s.jB ∧ (updCtrl p g s).metas = s.metas ∧ (updCtrl p g s).sqs = s.sqs ∧
    (updCtrl p g s).cqs = s.cqs ∧ (updCtrl p g s).cmds = s.cmds ∧ (updCtrl p g s).pieces = s.pieces ∧ (updCtrl p g s).cqes = s.cqes ∧
    (updCtrl p g s).slices = s.slices ∧ (updCtrl p g s).spA = s.spA ∧ (updCtrl p g s).spB = s.spB ∧ (updCtrl p g s).rules = s.rules ∧
    (updCtrl p g s).b0 = s.b0 ∧ (updCtrl p g s).b1 = s.b1 ∧ (updCtrl p g s).bulkNext = s.bulkNext ∧ (updCtrl p g s).qps = s.qps ∧
    (updCtrl p g s).memA = s.memA ∧ (updCtrl p g s).memB = s.memB ∧ (updCtrl p g s).engines = s.engines ∧ (updCtrl p g s).seA = s.seA ∧
    (updCtrl p g s).seB = s.seB ∧ (updCtrl p g s).pair = s.pair ∧ (updCtrl p g s).sheaf = s.sheaf ∧ (updCtrl p g s).sec = s.sec ∧
    (updCtrl p g s).events = s.events ∧ (updCtrl p g s).power = s.power ∧ (updCtrl p g s).feat = s.feat ∧ (updCtrl p g s).featNext = s.featNext ∧
    (updCtrl p g s).mi = s.mi ∧ (updCtrl p g s).tx = s.tx ∧ (updCtrl p g s).next = s.next ∧ (updCtrl p g s).drawn = s.drawn ∧
    (updCtrl p g s).heldAdmin = s.heldAdmin ∧ (updCtrl p g s).jobs = s.jobs := by cases p <;> and_intros <;> rfl
@[simp] theorem ctrlAt_updCtrl (p : Port) (g : Ctrl → Ctrl) (s : State) (x : Port) : ctrlAt (updCtrl p g s) x = if x = p then g (ctrlAt s x) else ctrlAt s x := by
  cases x <;> cases p <;> rfl
@[simp] theorem canonical_updCtrl (p : Port) (g : Ctrl → Ctrl) (s : State) : (updCtrl p g s).canonical = s.canonical := by
  cases p <;> rfl
@[simp] theorem updCard_others (c : CardId) (g : Card → Card) (s : State) :
    (updCard c g s).pending = s.pending ∧ (updCard c g s).time = s.time ∧ (updCard c g s).stats = s.stats ∧ (updCard c g s).misses = s.misses ∧
    (updCard c g s).fronds = s.fronds ∧ (updCard c g s).chans = s.chans ∧ (updCard c g s).dies = s.dies ∧ (updCard c g s).blks = s.blks ∧
    (updCard c g s).reqs = s.reqs ∧ (updCard c g s).progs = s.progs ∧ (updCard c g s).cws = s.cws ∧ (updCard c g s).chunks = s.chunks ∧
    (updCard c g s).stripes = s.stripes ∧ (updCard c g s).accums = s.accums ∧ (updCard c g s).rebuild = s.rebuild ∧
    (updCard c g s).seedbed = s.seedbed ∧ (updCard c g s).nss = s.nss ∧ (updCard c g s).zones = s.zones ∧ (updCard c g s).map = s.map ∧
    (updCard c g s).pages = s.pages ∧ (updCard c g s).jA = s.jA ∧ (updCard c g s).jB = s.jB ∧ (updCard c g s).metas = s.metas ∧ (updCard c g s).c0 = s.c0 ∧ (updCard c g s).c1 = s.c1 ∧
    (updCard c g s).sqs = s.sqs ∧ (updCard c g s).cqs = s.cqs ∧ (updCard c g s).cmds = s.cmds ∧ (updCard c g s).pieces = s.pieces ∧
    (updCard c g s).cqes = s.cqes ∧ (updCard c g s).slices = s.slices ∧ (updCard c g s).spA = s.spA ∧ (updCard c g s).spB = s.spB ∧
    (updCard c g s).rules = s.rules ∧ (updCard c g s).b0 = s.b0 ∧ (updCard c g s).b1 = s.b1 ∧ (updCard c g s).bulkNext = s.bulkNext ∧
    (updCard c g s).qps = s.qps ∧ (updCard c g s).memA = s.memA ∧ (updCard c g s).memB = s.memB ∧ (updCard c g s).engines = s.engines ∧
    (updCard c g s).seA = s.seA ∧ (updCard c g s).seB = s.seB ∧ (updCard c g s).sheaf = s.sheaf ∧ (updCard c g s).sec = s.sec ∧
    (updCard c g s).events = s.events ∧ (updCard c g s).power = s.power ∧ (updCard c g s).feat = s.feat ∧ (updCard c g s).featNext = s.featNext ∧
    (updCard c g s).mi = s.mi ∧ (updCard c g s).tx = s.tx ∧ (updCard c g s).next = s.next ∧ (updCard c g s).drawn = s.drawn ∧
    (updCard c g s).heldAdmin = s.heldAdmin ∧ (updCard c g s).jobs = s.jobs := by cases c <;> and_intros <;> rfl
@[simp] theorem cardAt_updCard (c : CardId) (g : Card → Card) (s : State) (x : CardId) : cardAt (updCard c g s) x = if x = c then g (cardAt s x) else cardAt s x := by
  cases x <;> cases c <;> rfl
@[simp] theorem canonical_updCard (c : CardId) (g : Card → Card) (s : State) : (updCard c g s).canonical = s.canonical := by
  cases c <;> rfl
@[simp] theorem updMem_others (c : CardId) (g : CardMem → CardMem) (s : State) :
    (updMem c g s).pending = s.pending ∧ (updMem c g s).time = s.time ∧ (updMem c g s).stats = s.stats ∧ (updMem c g s).misses = s.misses ∧
    (updMem c g s).fronds = s.fronds ∧ (updMem c g s).chans = s.chans ∧ (updMem c g s).dies = s.dies ∧ (updMem c g s).blks = s.blks ∧
    (updMem c g s).reqs = s.reqs ∧ (updMem c g s).progs = s.progs ∧ (updMem c g s).cws = s.cws ∧ (updMem c g s).chunks = s.chunks ∧
    (updMem c g s).stripes = s.stripes ∧ (updMem c g s).accums = s.accums ∧ (updMem c g s).rebuild = s.rebuild ∧ (updMem c g s).seedbed = s.seedbed ∧
    (updMem c g s).nss = s.nss ∧ (updMem c g s).zones = s.zones ∧ (updMem c g s).map = s.map ∧ (updMem c g s).pages = s.pages ∧
    (updMem c g s).jA = s.jA ∧ (updMem c g s).jB = s.jB ∧ (updMem c g s).metas = s.metas ∧ (updMem c g s).c0 = s.c0 ∧ (updMem c g s).c1 = s.c1 ∧ (updMem c g s).sqs = s.sqs ∧
    (updMem c g s).cqs = s.cqs ∧ (updMem c g s).cmds = s.cmds ∧ (updMem c g s).pieces = s.pieces ∧ (updMem c g s).cqes = s.cqes ∧
    (updMem c g s).slices = s.slices ∧ (updMem c g s).spA = s.spA ∧ (updMem c g s).spB = s.spB ∧ (updMem c g s).rules = s.rules ∧
    (updMem c g s).b0 = s.b0 ∧ (updMem c g s).b1 = s.b1 ∧ (updMem c g s).bulkNext = s.bulkNext ∧ (updMem c g s).qps = s.qps ∧
    (updMem c g s).engines = s.engines ∧ (updMem c g s).seA = s.seA ∧ (updMem c g s).seB = s.seB ∧ (updMem c g s).pair = s.pair ∧
    (updMem c g s).sheaf = s.sheaf ∧ (updMem c g s).sec = s.sec ∧ (updMem c g s).events = s.events ∧ (updMem c g s).power = s.power ∧
    (updMem c g s).feat = s.feat ∧ (updMem c g s).featNext = s.featNext ∧ (updMem c g s).mi = s.mi ∧ (updMem c g s).tx = s.tx ∧
    (updMem c g s).next = s.next ∧ (updMem c g s).drawn = s.drawn ∧ (updMem c g s).heldAdmin = s.heldAdmin ∧ (updMem c g s).jobs = s.jobs := by cases c <;> and_intros <;> rfl
@[simp] theorem memAt_updMem (c : CardId) (g : CardMem → CardMem) (s : State) (x : CardId) : memAt (updMem c g s) x = if x = c then g (memAt s x) else memAt s x := by
  cases x <;> cases c <;> rfl
@[simp] theorem canonical_updMem (c : CardId) (g : CardMem → CardMem) (s : State) : (updMem c g s).canonical = s.canonical := by
  cases c <;> rfl
@[simp] theorem updJ_others (c : CardId) (g : Journal → Journal) (s : State) :
    (updJ c g s).pending = s.pending ∧ (updJ c g s).time = s.time ∧ (updJ c g s).stats = s.stats ∧ (updJ c g s).misses = s.misses ∧
    (updJ c g s).fronds = s.fronds ∧ (updJ c g s).chans = s.chans ∧ (updJ c g s).dies = s.dies ∧ (updJ c g s).blks = s.blks ∧
    (updJ c g s).reqs = s.reqs ∧ (updJ c g s).progs = s.progs ∧ (updJ c g s).cws = s.cws ∧ (updJ c g s).chunks = s.chunks ∧
    (updJ c g s).stripes = s.stripes ∧ (updJ c g s).accums = s.accums ∧ (updJ c g s).rebuild = s.rebuild ∧ (updJ c g s).seedbed = s.seedbed ∧
    (updJ c g s).nss = s.nss ∧ (updJ c g s).zones = s.zones ∧ (updJ c g s).map = s.map ∧ (updJ c g s).pages = s.pages ∧ (updJ c g s).metas = s.metas ∧ (updJ c g s).c0 = s.c0 ∧
    (updJ c g s).c1 = s.c1 ∧ (updJ c g s).sqs = s.sqs ∧ (updJ c g s).cqs = s.cqs ∧ (updJ c g s).cmds = s.cmds ∧ (updJ c g s).pieces = s.pieces ∧
    (updJ c g s).cqes = s.cqes ∧ (updJ c g s).slices = s.slices ∧ (updJ c g s).spA = s.spA ∧ (updJ c g s).spB = s.spB ∧
    (updJ c g s).rules = s.rules ∧ (updJ c g s).b0 = s.b0 ∧ (updJ c g s).b1 = s.b1 ∧ (updJ c g s).bulkNext = s.bulkNext ∧ (updJ c g s).qps = s.qps ∧
    (updJ c g s).memA = s.memA ∧ (updJ c g s).memB = s.memB ∧ (updJ c g s).engines = s.engines ∧ (updJ c g s).seA = s.seA ∧
    (updJ c g s).seB = s.seB ∧ (updJ c g s).pair = s.pair ∧ (updJ c g s).sheaf = s.sheaf ∧ (updJ c g s).sec = s.sec ∧
    (updJ c g s).events = s.events ∧ (updJ c g s).power = s.power ∧ (updJ c g s).feat = s.feat ∧ (updJ c g s).featNext = s.featNext ∧
    (updJ c g s).mi = s.mi ∧ (updJ c g s).tx = s.tx ∧ (updJ c g s).next = s.next ∧ (updJ c g s).drawn = s.drawn ∧
    (updJ c g s).heldAdmin = s.heldAdmin ∧ (updJ c g s).jobs = s.jobs := by cases c <;> and_intros <;> rfl
@[simp] theorem jAt_updJ (c : CardId) (g : Journal → Journal) (s : State) (x : CardId) : jAt (updJ c g s) x = if x = c then g (jAt s x) else jAt s x := by
  cases x <;> cases c <;> rfl
@[simp] theorem canonical_updJ (c : CardId) (g : Journal → Journal) (s : State) : (updJ c g s).canonical = s.canonical := by
  cases c <;> rfl
@[simp] theorem updSp_others (c : CardId) (g : Spikelet → Spikelet) (s : State) :
    (updSp c g s).pending = s.pending ∧ (updSp c g s).time = s.time ∧ (updSp c g s).stats = s.stats ∧ (updSp c g s).misses = s.misses ∧
    (updSp c g s).fronds = s.fronds ∧ (updSp c g s).chans = s.chans ∧ (updSp c g s).dies = s.dies ∧ (updSp c g s).blks = s.blks ∧
    (updSp c g s).reqs = s.reqs ∧ (updSp c g s).progs = s.progs ∧ (updSp c g s).cws = s.cws ∧ (updSp c g s).chunks = s.chunks ∧
    (updSp c g s).stripes = s.stripes ∧ (updSp c g s).accums = s.accums ∧ (updSp c g s).rebuild = s.rebuild ∧ (updSp c g s).seedbed = s.seedbed ∧
    (updSp c g s).nss = s.nss ∧ (updSp c g s).zones = s.zones ∧ (updSp c g s).map = s.map ∧ (updSp c g s).pages = s.pages ∧ (updSp c g s).jA = s.jA ∧
    (updSp c g s).jB = s.jB ∧ (updSp c g s).metas = s.metas ∧ (updSp c g s).c0 = s.c0 ∧ (updSp c g s).c1 = s.c1 ∧ (updSp c g s).sqs = s.sqs ∧ (updSp c g s).cqs = s.cqs ∧
    (updSp c g s).cmds = s.cmds ∧ (updSp c g s).pieces = s.pieces ∧ (updSp c g s).cqes = s.cqes ∧ (updSp c g s).slices = s.slices ∧
    (updSp c g s).rules = s.rules ∧ (updSp c g s).b0 = s.b0 ∧ (updSp c g s).b1 = s.b1 ∧ (updSp c g s).bulkNext = s.bulkNext ∧
    (updSp c g s).qps = s.qps ∧ (updSp c g s).memA = s.memA ∧ (updSp c g s).memB = s.memB ∧ (updSp c g s).engines = s.engines ∧
    (updSp c g s).seA = s.seA ∧ (updSp c g s).seB = s.seB ∧ (updSp c g s).pair = s.pair ∧ (updSp c g s).sheaf = s.sheaf ∧ (updSp c g s).sec = s.sec ∧
    (updSp c g s).events = s.events ∧ (updSp c g s).power = s.power ∧ (updSp c g s).feat = s.feat ∧ (updSp c g s).featNext = s.featNext ∧
    (updSp c g s).mi = s.mi ∧ (updSp c g s).tx = s.tx ∧ (updSp c g s).next = s.next ∧ (updSp c g s).drawn = s.drawn ∧
    (updSp c g s).heldAdmin = s.heldAdmin ∧ (updSp c g s).jobs = s.jobs := by cases c <;> and_intros <;> rfl
@[simp] theorem spAt_updSp (c : CardId) (g : Spikelet → Spikelet) (s : State) (x : CardId) : spAt (updSp c g s) x = if x = c then g (spAt s x) else spAt s x := by
  cases x <;> cases c <;> rfl
@[simp] theorem canonical_updSp (c : CardId) (g : Spikelet → Spikelet) (s : State) : (updSp c g s).canonical = s.canonical := by
  cases c <;> rfl
@[simp] theorem updBulk_others (c : CardId) (g : BulkPort → BulkPort) (s : State) :
    (updBulk c g s).pending = s.pending ∧ (updBulk c g s).time = s.time ∧ (updBulk c g s).stats = s.stats ∧ (updBulk c g s).misses = s.misses ∧
    (updBulk c g s).fronds = s.fronds ∧ (updBulk c g s).chans = s.chans ∧ (updBulk c g s).dies = s.dies ∧ (updBulk c g s).blks = s.blks ∧
    (updBulk c g s).reqs = s.reqs ∧ (updBulk c g s).progs = s.progs ∧ (updBulk c g s).cws = s.cws ∧ (updBulk c g s).chunks = s.chunks ∧
    (updBulk c g s).stripes = s.stripes ∧ (updBulk c g s).accums = s.accums ∧ (updBulk c g s).rebuild = s.rebuild ∧
    (updBulk c g s).seedbed = s.seedbed ∧ (updBulk c g s).nss = s.nss ∧ (updBulk c g s).zones = s.zones ∧ (updBulk c g s).map = s.map ∧
    (updBulk c g s).pages = s.pages ∧ (updBulk c g s).jA = s.jA ∧ (updBulk c g s).jB = s.jB ∧ (updBulk c g s).metas = s.metas ∧ (updBulk c g s).c0 = s.c0 ∧ (updBulk c g s).c1 = s.c1 ∧
    (updBulk c g s).sqs = s.sqs ∧ (updBulk c g s).cqs = s.cqs ∧ (updBulk c g s).cmds = s.cmds ∧ (updBulk c g s).pieces = s.pieces ∧
    (updBulk c g s).cqes = s.cqes ∧ (updBulk c g s).slices = s.slices ∧ (updBulk c g s).spA = s.spA ∧ (updBulk c g s).spB = s.spB ∧
    (updBulk c g s).rules = s.rules ∧ (updBulk c g s).bulkNext = s.bulkNext ∧ (updBulk c g s).qps = s.qps ∧ (updBulk c g s).memA = s.memA ∧
    (updBulk c g s).memB = s.memB ∧ (updBulk c g s).engines = s.engines ∧ (updBulk c g s).seA = s.seA ∧ (updBulk c g s).seB = s.seB ∧
    (updBulk c g s).pair = s.pair ∧ (updBulk c g s).sheaf = s.sheaf ∧ (updBulk c g s).sec = s.sec ∧ (updBulk c g s).events = s.events ∧
    (updBulk c g s).power = s.power ∧ (updBulk c g s).feat = s.feat ∧ (updBulk c g s).featNext = s.featNext ∧ (updBulk c g s).mi = s.mi ∧
    (updBulk c g s).tx = s.tx ∧ (updBulk c g s).next = s.next ∧ (updBulk c g s).drawn = s.drawn ∧ (updBulk c g s).heldAdmin = s.heldAdmin ∧
    (updBulk c g s).jobs = s.jobs := by cases c <;> and_intros <;> rfl
@[simp] theorem bulkAt_updBulk (c : CardId) (g : BulkPort → BulkPort) (s : State) (x : CardId) : bulkAt (updBulk c g s) x = if x = c then g (bulkAt s x) else bulkAt s x := by
  cases x <;> cases c <;> rfl
@[simp] theorem canonical_updBulk (c : CardId) (g : BulkPort → BulkPort) (s : State) : (updBulk c g s).canonical = s.canonical := by
  cases c <;> rfl
@[simp] theorem updSe_others (c : CardId) (g : List SeWork → List SeWork) (s : State) :
    (updSe c g s).pending = s.pending ∧ (updSe c g s).time = s.time ∧ (updSe c g s).stats = s.stats ∧ (updSe c g s).misses = s.misses ∧
    (updSe c g s).fronds = s.fronds ∧ (updSe c g s).chans = s.chans ∧ (updSe c g s).dies = s.dies ∧ (updSe c g s).blks = s.blks ∧
    (updSe c g s).reqs = s.reqs ∧ (updSe c g s).progs = s.progs ∧ (updSe c g s).cws = s.cws ∧ (updSe c g s).chunks = s.chunks ∧
    (updSe c g s).stripes = s.stripes ∧ (updSe c g s).accums = s.accums ∧ (updSe c g s).rebuild = s.rebuild ∧ (updSe c g s).seedbed = s.seedbed ∧
    (updSe c g s).nss = s.nss ∧ (updSe c g s).zones = s.zones ∧ (updSe c g s).map = s.map ∧ (updSe c g s).pages = s.pages ∧ (updSe c g s).jA = s.jA ∧
    (updSe c g s).jB = s.jB ∧ (updSe c g s).metas = s.metas ∧ (updSe c g s).c0 = s.c0 ∧ (updSe c g s).c1 = s.c1 ∧ (updSe c g s).sqs = s.sqs ∧ (updSe c g s).cqs = s.cqs ∧
    (updSe c g s).cmds = s.cmds ∧ (updSe c g s).pieces = s.pieces ∧ (updSe c g s).cqes = s.cqes ∧ (updSe c g s).slices = s.slices ∧
    (updSe c g s).spA = s.spA ∧ (updSe c g s).spB = s.spB ∧ (updSe c g s).rules = s.rules ∧ (updSe c g s).b0 = s.b0 ∧ (updSe c g s).b1 = s.b1 ∧
    (updSe c g s).bulkNext = s.bulkNext ∧ (updSe c g s).qps = s.qps ∧ (updSe c g s).memA = s.memA ∧ (updSe c g s).memB = s.memB ∧
    (updSe c g s).engines = s.engines ∧ (updSe c g s).pair = s.pair ∧ (updSe c g s).sheaf = s.sheaf ∧ (updSe c g s).sec = s.sec ∧
    (updSe c g s).events = s.events ∧ (updSe c g s).power = s.power ∧ (updSe c g s).feat = s.feat ∧ (updSe c g s).featNext = s.featNext ∧
    (updSe c g s).mi = s.mi ∧ (updSe c g s).tx = s.tx ∧ (updSe c g s).next = s.next ∧ (updSe c g s).drawn = s.drawn ∧
    (updSe c g s).heldAdmin = s.heldAdmin ∧ (updSe c g s).jobs = s.jobs := by cases c <;> and_intros <;> rfl
@[simp] theorem seAt_updSe (c : CardId) (g : List SeWork → List SeWork) (s : State) (x : CardId) : seAt (updSe c g s) x = if x = c then g (seAt s x) else seAt s x := by
  cases x <;> cases c <;> rfl
@[simp] theorem canonical_updSe (c : CardId) (g : List SeWork → List SeWork) (s : State) : (updSe c g s).canonical = s.canonical := by
  cases c <;> rfl
@[simp] theorem updPeu_others (p : PeuId) (g : Peu → Peu) (s : State) :
    (updPeu p g s).pending = s.pending ∧ (updPeu p g s).time = s.time ∧ (updPeu p g s).stats = s.stats ∧ (updPeu p g s).misses = s.misses ∧
    (updPeu p g s).fronds = s.fronds ∧ (updPeu p g s).chans = s.chans ∧ (updPeu p g s).dies = s.dies ∧ (updPeu p g s).blks = s.blks ∧
    (updPeu p g s).reqs = s.reqs ∧ (updPeu p g s).progs = s.progs ∧ (updPeu p g s).cws = s.cws ∧ (updPeu p g s).chunks = s.chunks ∧
    (updPeu p g s).stripes = s.stripes ∧ (updPeu p g s).accums = s.accums ∧ (updPeu p g s).rebuild = s.rebuild ∧ (updPeu p g s).seedbed = s.seedbed ∧
    (updPeu p g s).nss = s.nss ∧ (updPeu p g s).zones = s.zones ∧ (updPeu p g s).map = s.map ∧ (updPeu p g s).pages = s.pages ∧
    (updPeu p g s).jA = s.jA ∧ (updPeu p g s).jB = s.jB ∧ (updPeu p g s).metas = s.metas ∧ (updPeu p g s).c0 = s.c0 ∧ (updPeu p g s).c1 = s.c1 ∧ (updPeu p g s).sqs = s.sqs ∧
    (updPeu p g s).cqs = s.cqs ∧ (updPeu p g s).cmds = s.cmds ∧ (updPeu p g s).pieces = s.pieces ∧ (updPeu p g s).cqes = s.cqes ∧
    (updPeu p g s).slices = s.slices ∧ (updPeu p g s).spA = s.spA ∧ (updPeu p g s).spB = s.spB ∧ (updPeu p g s).rules = s.rules ∧
    (updPeu p g s).b0 = s.b0 ∧ (updPeu p g s).b1 = s.b1 ∧ (updPeu p g s).bulkNext = s.bulkNext ∧ (updPeu p g s).qps = s.qps ∧
    (updPeu p g s).memA = s.memA ∧ (updPeu p g s).memB = s.memB ∧ (updPeu p g s).engines = s.engines ∧ (updPeu p g s).seA = s.seA ∧
    (updPeu p g s).seB = s.seB ∧ (updPeu p g s).pair = s.pair ∧ (updPeu p g s).sheaf = s.sheaf ∧ (updPeu p g s).sec = s.sec ∧
    (updPeu p g s).events = s.events ∧ (updPeu p g s).feat = s.feat ∧ (updPeu p g s).featNext = s.featNext ∧ (updPeu p g s).mi = s.mi ∧
    (updPeu p g s).tx = s.tx ∧ (updPeu p g s).next = s.next ∧ (updPeu p g s).drawn = s.drawn ∧ (updPeu p g s).heldAdmin = s.heldAdmin ∧
    (updPeu p g s).jobs = s.jobs := by cases p <;> and_intros <;> rfl
@[simp] theorem peuAt_updPeu (p : PeuId) (g : Peu → Peu) (s : State) (x : PeuId) : peuAt (updPeu p g s) x = if x = p then g (peuAt s x) else peuAt s x := by
  cases x <;> cases p <;> rfl
@[simp] theorem canonical_updPeu (p : PeuId) (g : Peu → Peu) (s : State) : (updPeu p g s).canonical = s.canonical := by
  cases p <;> rfl
@[simp] theorem updRec_others (c : CardId) (g : Recorder → Recorder) (s : State) :
    (updRec c g s).pending = s.pending ∧ (updRec c g s).time = s.time ∧ (updRec c g s).stats = s.stats ∧ (updRec c g s).misses = s.misses ∧
    (updRec c g s).fronds = s.fronds ∧ (updRec c g s).chans = s.chans ∧ (updRec c g s).dies = s.dies ∧ (updRec c g s).blks = s.blks ∧
    (updRec c g s).reqs = s.reqs ∧ (updRec c g s).progs = s.progs ∧ (updRec c g s).cws = s.cws ∧ (updRec c g s).chunks = s.chunks ∧
    (updRec c g s).stripes = s.stripes ∧ (updRec c g s).accums = s.accums ∧ (updRec c g s).rebuild = s.rebuild ∧ (updRec c g s).seedbed = s.seedbed ∧
    (updRec c g s).nss = s.nss ∧ (updRec c g s).zones = s.zones ∧ (updRec c g s).map = s.map ∧ (updRec c g s).pages = s.pages ∧
    (updRec c g s).jA = s.jA ∧ (updRec c g s).jB = s.jB ∧ (updRec c g s).metas = s.metas ∧ (updRec c g s).c0 = s.c0 ∧ (updRec c g s).c1 = s.c1 ∧ (updRec c g s).sqs = s.sqs ∧
    (updRec c g s).cqs = s.cqs ∧ (updRec c g s).cmds = s.cmds ∧ (updRec c g s).pieces = s.pieces ∧ (updRec c g s).cqes = s.cqes ∧
    (updRec c g s).slices = s.slices ∧ (updRec c g s).spA = s.spA ∧ (updRec c g s).spB = s.spB ∧ (updRec c g s).rules = s.rules ∧
    (updRec c g s).b0 = s.b0 ∧ (updRec c g s).b1 = s.b1 ∧ (updRec c g s).bulkNext = s.bulkNext ∧ (updRec c g s).qps = s.qps ∧
    (updRec c g s).memA = s.memA ∧ (updRec c g s).memB = s.memB ∧ (updRec c g s).engines = s.engines ∧ (updRec c g s).seA = s.seA ∧
    (updRec c g s).seB = s.seB ∧ (updRec c g s).pair = s.pair ∧ (updRec c g s).sheaf = s.sheaf ∧ (updRec c g s).sec = s.sec ∧
    (updRec c g s).power = s.power ∧ (updRec c g s).feat = s.feat ∧ (updRec c g s).featNext = s.featNext ∧ (updRec c g s).mi = s.mi ∧
    (updRec c g s).tx = s.tx ∧ (updRec c g s).next = s.next ∧ (updRec c g s).drawn = s.drawn ∧ (updRec c g s).heldAdmin = s.heldAdmin ∧
    (updRec c g s).jobs = s.jobs := by cases c <;> and_intros <;> rfl
@[simp] theorem recAt_updRec (c : CardId) (g : Recorder → Recorder) (s : State) (x : CardId) : recAt (updRec c g s) x = if x = c then g (recAt s x) else recAt s x := by
  cases x <;> cases c <;> rfl
@[simp] theorem canonical_updRec (c : CardId) (g : Recorder → Recorder) (s : State) : (updRec c g s).canonical = s.canonical := by
  cases c <;> rfl
@[simp] theorem updCulm_others (p : CulmPort) (g : Culm → Culm) (s : State) :
    (updCulm p g s).pending = s.pending ∧ (updCulm p g s).time = s.time ∧ (updCulm p g s).stats = s.stats ∧ (updCulm p g s).misses = s.misses ∧
    (updCulm p g s).fronds = s.fronds ∧ (updCulm p g s).chans = s.chans ∧ (updCulm p g s).dies = s.dies ∧ (updCulm p g s).blks = s.blks ∧
    (updCulm p g s).reqs = s.reqs ∧ (updCulm p g s).progs = s.progs ∧ (updCulm p g s).cws = s.cws ∧ (updCulm p g s).chunks = s.chunks ∧
    (updCulm p g s).stripes = s.stripes ∧ (updCulm p g s).accums = s.accums ∧ (updCulm p g s).rebuild = s.rebuild ∧
    (updCulm p g s).seedbed = s.seedbed ∧ (updCulm p g s).nss = s.nss ∧ (updCulm p g s).zones = s.zones ∧ (updCulm p g s).map = s.map ∧
    (updCulm p g s).pages = s.pages ∧ (updCulm p g s).jA = s.jA ∧ (updCulm p g s).jB = s.jB ∧ (updCulm p g s).metas = s.metas ∧ (updCulm p g s).c0 = s.c0 ∧ (updCulm p g s).c1 = s.c1 ∧
    (updCulm p g s).sqs = s.sqs ∧ (updCulm p g s).cqs = s.cqs ∧ (updCulm p g s).cmds = s.cmds ∧ (updCulm p g s).pieces = s.pieces ∧
    (updCulm p g s).cqes = s.cqes ∧ (updCulm p g s).slices = s.slices ∧ (updCulm p g s).spA = s.spA ∧ (updCulm p g s).spB = s.spB ∧
    (updCulm p g s).rules = s.rules ∧ (updCulm p g s).b0 = s.b0 ∧ (updCulm p g s).b1 = s.b1 ∧ (updCulm p g s).bulkNext = s.bulkNext ∧
    (updCulm p g s).qps = s.qps ∧ (updCulm p g s).memA = s.memA ∧ (updCulm p g s).memB = s.memB ∧ (updCulm p g s).engines = s.engines ∧
    (updCulm p g s).seA = s.seA ∧ (updCulm p g s).seB = s.seB ∧ (updCulm p g s).pair = s.pair ∧ (updCulm p g s).sec = s.sec ∧
    (updCulm p g s).events = s.events ∧ (updCulm p g s).power = s.power ∧ (updCulm p g s).feat = s.feat ∧ (updCulm p g s).featNext = s.featNext ∧
    (updCulm p g s).mi = s.mi ∧ (updCulm p g s).tx = s.tx ∧ (updCulm p g s).next = s.next ∧ (updCulm p g s).drawn = s.drawn ∧
    (updCulm p g s).heldAdmin = s.heldAdmin ∧ (updCulm p g s).jobs = s.jobs := by cases p <;> and_intros <;> rfl
@[simp] theorem culmAt_updCulm (p : CulmPort) (g : Culm → Culm) (s : State) (x : CulmPort) : culmAt (updCulm p g s) x = if x = p then g (culmAt s x) else culmAt s x := by
  cases x <;> cases p <;> rfl
@[simp] theorem canonical_updCulm (p : CulmPort) (g : Culm → Culm) (s : State) : (updCulm p g s).canonical = s.canonical := by
  cases p <;> rfl
@[simp] theorem updFuse_others (k : Nat) (g : Fuse → Fuse) (s : State) :
    (updFuse k g s).pending = s.pending ∧ (updFuse k g s).time = s.time ∧ (updFuse k g s).stats = s.stats ∧ (updFuse k g s).misses = s.misses ∧
    (updFuse k g s).fronds = s.fronds ∧ (updFuse k g s).chans = s.chans ∧ (updFuse k g s).dies = s.dies ∧ (updFuse k g s).blks = s.blks ∧
    (updFuse k g s).reqs = s.reqs ∧ (updFuse k g s).progs = s.progs ∧ (updFuse k g s).cws = s.cws ∧ (updFuse k g s).chunks = s.chunks ∧
    (updFuse k g s).stripes = s.stripes ∧ (updFuse k g s).accums = s.accums ∧ (updFuse k g s).rebuild = s.rebuild ∧
    (updFuse k g s).seedbed = s.seedbed ∧ (updFuse k g s).nss = s.nss ∧ (updFuse k g s).zones = s.zones ∧ (updFuse k g s).map = s.map ∧
    (updFuse k g s).pages = s.pages ∧ (updFuse k g s).jA = s.jA ∧ (updFuse k g s).jB = s.jB ∧ (updFuse k g s).metas = s.metas ∧ (updFuse k g s).c0 = s.c0 ∧ (updFuse k g s).c1 = s.c1 ∧
    (updFuse k g s).sqs = s.sqs ∧ (updFuse k g s).cqs = s.cqs ∧ (updFuse k g s).cmds = s.cmds ∧ (updFuse k g s).pieces = s.pieces ∧
    (updFuse k g s).cqes = s.cqes ∧ (updFuse k g s).slices = s.slices ∧ (updFuse k g s).spA = s.spA ∧ (updFuse k g s).spB = s.spB ∧
    (updFuse k g s).rules = s.rules ∧ (updFuse k g s).b0 = s.b0 ∧ (updFuse k g s).b1 = s.b1 ∧ (updFuse k g s).bulkNext = s.bulkNext ∧
    (updFuse k g s).qps = s.qps ∧ (updFuse k g s).memA = s.memA ∧ (updFuse k g s).memB = s.memB ∧ (updFuse k g s).engines = s.engines ∧
    (updFuse k g s).seA = s.seA ∧ (updFuse k g s).seB = s.seB ∧ (updFuse k g s).pair = s.pair ∧ (updFuse k g s).sheaf = s.sheaf ∧
    (updFuse k g s).sec = s.sec ∧ (updFuse k g s).events = s.events ∧ (updFuse k g s).feat = s.feat ∧ (updFuse k g s).featNext = s.featNext ∧
    (updFuse k g s).mi = s.mi ∧ (updFuse k g s).tx = s.tx ∧ (updFuse k g s).next = s.next ∧ (updFuse k g s).drawn = s.drawn ∧
    (updFuse k g s).heldAdmin = s.heldAdmin ∧ (updFuse k g s).jobs = s.jobs := by and_intros <;> rfl
@[simp] theorem canonical_updFuse (k : Nat) (g : Fuse → Fuse) (s : State) : (updFuse k g s).canonical = s.canonical := by
  rfl
@[simp] theorem updTime_others (g : TimeSt → TimeSt) (s : State) :
    (updTime g s).pending = s.pending ∧ (updTime g s).stats = s.stats ∧ (updTime g s).misses = s.misses ∧ (updTime g s).fronds = s.fronds ∧
    (updTime g s).chans = s.chans ∧ (updTime g s).dies = s.dies ∧ (updTime g s).blks = s.blks ∧ (updTime g s).reqs = s.reqs ∧
    (updTime g s).progs = s.progs ∧ (updTime g s).cws = s.cws ∧ (updTime g s).chunks = s.chunks ∧ (updTime g s).stripes = s.stripes ∧
    (updTime g s).accums = s.accums ∧ (updTime g s).rebuild = s.rebuild ∧ (updTime g s).seedbed = s.seedbed ∧ (updTime g s).nss = s.nss ∧
    (updTime g s).zones = s.zones ∧ (updTime g s).map = s.map ∧ (updTime g s).pages = s.pages ∧ (updTime g s).jA = s.jA ∧ (updTime g s).jB = s.jB ∧ (updTime g s).metas = s.metas ∧
    (updTime g s).c0 = s.c0 ∧ (updTime g s).c1 = s.c1 ∧ (updTime g s).sqs = s.sqs ∧ (updTime g s).cqs = s.cqs ∧ (updTime g s).cmds = s.cmds ∧
    (updTime g s).pieces = s.pieces ∧ (updTime g s).cqes = s.cqes ∧ (updTime g s).slices = s.slices ∧ (updTime g s).spA = s.spA ∧
    (updTime g s).spB = s.spB ∧ (updTime g s).rules = s.rules ∧ (updTime g s).b0 = s.b0 ∧ (updTime g s).b1 = s.b1 ∧
    (updTime g s).bulkNext = s.bulkNext ∧ (updTime g s).qps = s.qps ∧ (updTime g s).memA = s.memA ∧ (updTime g s).memB = s.memB ∧
    (updTime g s).engines = s.engines ∧ (updTime g s).seA = s.seA ∧ (updTime g s).seB = s.seB ∧ (updTime g s).pair = s.pair ∧
    (updTime g s).sheaf = s.sheaf ∧ (updTime g s).sec = s.sec ∧ (updTime g s).events = s.events ∧ (updTime g s).power = s.power ∧
    (updTime g s).feat = s.feat ∧ (updTime g s).featNext = s.featNext ∧ (updTime g s).mi = s.mi ∧ (updTime g s).tx = s.tx ∧
    (updTime g s).next = s.next ∧ (updTime g s).drawn = s.drawn ∧ (updTime g s).heldAdmin = s.heldAdmin ∧ (updTime g s).jobs = s.jobs := by and_intros <;> rfl
@[simp] theorem updTime_time (g : TimeSt → TimeSt) (s : State) : (updTime g s).time = g s.time := rfl
@[simp] theorem canonical_updTime (g : TimeSt → TimeSt) (s : State) : (updTime g s).canonical = s.canonical := by
  rfl
@[simp] theorem updStats_others (g : Stats → Stats) (s : State) :
    (updStats g s).pending = s.pending ∧ (updStats g s).time = s.time ∧ (updStats g s).misses = s.misses ∧ (updStats g s).fronds = s.fronds ∧
    (updStats g s).chans = s.chans ∧ (updStats g s).dies = s.dies ∧ (updStats g s).blks = s.blks ∧ (updStats g s).reqs = s.reqs ∧
    (updStats g s).progs = s.progs ∧ (updStats g s).cws = s.cws ∧ (updStats g s).chunks = s.chunks ∧ (updStats g s).stripes = s.stripes ∧
    (updStats g s).accums = s.accums ∧ (updStats g s).rebuild = s.rebuild ∧ (updStats g s).seedbed = s.seedbed ∧ (updStats g s).nss = s.nss ∧
    (updStats g s).zones = s.zones ∧ (updStats g s).map = s.map ∧ (updStats g s).pages = s.pages ∧ (updStats g s).jA = s.jA ∧
    (updStats g s).jB = s.jB ∧ (updStats g s).metas = s.metas ∧ (updStats g s).c0 = s.c0 ∧ (updStats g s).c1 = s.c1 ∧ (updStats g s).sqs = s.sqs ∧ (updStats g s).cqs = s.cqs ∧
    (updStats g s).cmds = s.cmds ∧ (updStats g s).pieces = s.pieces ∧ (updStats g s).cqes = s.cqes ∧ (updStats g s).slices = s.slices ∧
    (updStats g s).spA = s.spA ∧ (updStats g s).spB = s.spB ∧ (updStats g s).rules = s.rules ∧ (updStats g s).b0 = s.b0 ∧ (updStats g s).b1 = s.b1 ∧
    (updStats g s).bulkNext = s.bulkNext ∧ (updStats g s).qps = s.qps ∧ (updStats g s).memA = s.memA ∧ (updStats g s).memB = s.memB ∧
    (updStats g s).engines = s.engines ∧ (updStats g s).seA = s.seA ∧ (updStats g s).seB = s.seB ∧ (updStats g s).pair = s.pair ∧
    (updStats g s).sheaf = s.sheaf ∧ (updStats g s).sec = s.sec ∧ (updStats g s).events = s.events ∧ (updStats g s).power = s.power ∧
    (updStats g s).feat = s.feat ∧ (updStats g s).featNext = s.featNext ∧ (updStats g s).mi = s.mi ∧ (updStats g s).tx = s.tx ∧
    (updStats g s).next = s.next ∧ (updStats g s).drawn = s.drawn ∧ (updStats g s).heldAdmin = s.heldAdmin ∧ (updStats g s).jobs = s.jobs := by and_intros <;> rfl
@[simp] theorem updStats_stats (g : Stats → Stats) (s : State) : (updStats g s).stats = g s.stats := rfl
@[simp] theorem canonical_updStats (g : Stats → Stats) (s : State) : (updStats g s).canonical = s.canonical := by
  rfl
@[simp] theorem updPower_others (g : Power → Power) (s : State) :
    (updPower g s).pending = s.pending ∧ (updPower g s).time = s.time ∧ (updPower g s).stats = s.stats ∧ (updPower g s).misses = s.misses ∧
    (updPower g s).fronds = s.fronds ∧ (updPower g s).chans = s.chans ∧ (updPower g s).dies = s.dies ∧ (updPower g s).blks = s.blks ∧
    (updPower g s).reqs = s.reqs ∧ (updPower g s).progs = s.progs ∧ (updPower g s).cws = s.cws ∧ (updPower g s).chunks = s.chunks ∧
    (updPower g s).stripes = s.stripes ∧ (updPower g s).accums = s.accums ∧ (updPower g s).rebuild = s.rebuild ∧ (updPower g s).seedbed = s.seedbed ∧
    (updPower g s).nss = s.nss ∧ (updPower g s).zones = s.zones ∧ (updPower g s).map = s.map ∧ (updPower g s).pages = s.pages ∧
    (updPower g s).jA = s.jA ∧ (updPower g s).jB = s.jB ∧ (updPower g s).metas = s.metas ∧ (updPower g s).c0 = s.c0 ∧ (updPower g s).c1 = s.c1 ∧ (updPower g s).sqs = s.sqs ∧
    (updPower g s).cqs = s.cqs ∧ (updPower g s).cmds = s.cmds ∧ (updPower g s).pieces = s.pieces ∧ (updPower g s).cqes = s.cqes ∧
    (updPower g s).slices = s.slices ∧ (updPower g s).spA = s.spA ∧ (updPower g s).spB = s.spB ∧ (updPower g s).rules = s.rules ∧
    (updPower g s).b0 = s.b0 ∧ (updPower g s).b1 = s.b1 ∧ (updPower g s).bulkNext = s.bulkNext ∧ (updPower g s).qps = s.qps ∧
    (updPower g s).memA = s.memA ∧ (updPower g s).memB = s.memB ∧ (updPower g s).engines = s.engines ∧ (updPower g s).seA = s.seA ∧
    (updPower g s).seB = s.seB ∧ (updPower g s).pair = s.pair ∧ (updPower g s).sheaf = s.sheaf ∧ (updPower g s).sec = s.sec ∧
    (updPower g s).events = s.events ∧ (updPower g s).feat = s.feat ∧ (updPower g s).featNext = s.featNext ∧ (updPower g s).mi = s.mi ∧
    (updPower g s).tx = s.tx ∧ (updPower g s).next = s.next ∧ (updPower g s).drawn = s.drawn ∧ (updPower g s).heldAdmin = s.heldAdmin ∧
    (updPower g s).jobs = s.jobs := by and_intros <;> rfl
@[simp] theorem updPower_power (g : Power → Power) (s : State) : (updPower g s).power = g s.power := rfl
@[simp] theorem canonical_updPower (g : Power → Power) (s : State) : (updPower g s).canonical = s.canonical := by
  rfl
@[simp] theorem updSheaf_others (g : Sheaf → Sheaf) (s : State) :
    (updSheaf g s).pending = s.pending ∧ (updSheaf g s).time = s.time ∧ (updSheaf g s).stats = s.stats ∧ (updSheaf g s).misses = s.misses ∧
    (updSheaf g s).fronds = s.fronds ∧ (updSheaf g s).chans = s.chans ∧ (updSheaf g s).dies = s.dies ∧ (updSheaf g s).blks = s.blks ∧
    (updSheaf g s).reqs = s.reqs ∧ (updSheaf g s).progs = s.progs ∧ (updSheaf g s).cws = s.cws ∧ (updSheaf g s).chunks = s.chunks ∧
    (updSheaf g s).stripes = s.stripes ∧ (updSheaf g s).accums = s.accums ∧ (updSheaf g s).rebuild = s.rebuild ∧ (updSheaf g s).seedbed = s.seedbed ∧
    (updSheaf g s).nss = s.nss ∧ (updSheaf g s).zones = s.zones ∧ (updSheaf g s).map = s.map ∧ (updSheaf g s).pages = s.pages ∧
    (updSheaf g s).jA = s.jA ∧ (updSheaf g s).jB = s.jB ∧ (updSheaf g s).metas = s.metas ∧ (updSheaf g s).c0 = s.c0 ∧ (updSheaf g s).c1 = s.c1 ∧ (updSheaf g s).sqs = s.sqs ∧
    (updSheaf g s).cqs = s.cqs ∧ (updSheaf g s).cmds = s.cmds ∧ (updSheaf g s).pieces = s.pieces ∧ (updSheaf g s).cqes = s.cqes ∧
    (updSheaf g s).slices = s.slices ∧ (updSheaf g s).spA = s.spA ∧ (updSheaf g s).spB = s.spB ∧ (updSheaf g s).rules = s.rules ∧
    (updSheaf g s).b0 = s.b0 ∧ (updSheaf g s).b1 = s.b1 ∧ (updSheaf g s).bulkNext = s.bulkNext ∧ (updSheaf g s).qps = s.qps ∧
    (updSheaf g s).memA = s.memA ∧ (updSheaf g s).memB = s.memB ∧ (updSheaf g s).engines = s.engines ∧ (updSheaf g s).seA = s.seA ∧
    (updSheaf g s).seB = s.seB ∧ (updSheaf g s).pair = s.pair ∧ (updSheaf g s).sec = s.sec ∧ (updSheaf g s).events = s.events ∧
    (updSheaf g s).power = s.power ∧ (updSheaf g s).feat = s.feat ∧ (updSheaf g s).featNext = s.featNext ∧ (updSheaf g s).mi = s.mi ∧
    (updSheaf g s).tx = s.tx ∧ (updSheaf g s).next = s.next ∧ (updSheaf g s).drawn = s.drawn ∧ (updSheaf g s).heldAdmin = s.heldAdmin ∧
    (updSheaf g s).jobs = s.jobs := by and_intros <;> rfl
@[simp] theorem updSheaf_sheaf (g : Sheaf → Sheaf) (s : State) : (updSheaf g s).sheaf = g s.sheaf := rfl
@[simp] theorem canonical_updSheaf (g : Sheaf → Sheaf) (s : State) : (updSheaf g s).canonical = s.canonical := by
  rfl
@[simp] theorem updSec_others (g : Security → Security) (s : State) :
    (updSec g s).pending = s.pending ∧ (updSec g s).time = s.time ∧ (updSec g s).stats = s.stats ∧ (updSec g s).misses = s.misses ∧
    (updSec g s).fronds = s.fronds ∧ (updSec g s).chans = s.chans ∧ (updSec g s).dies = s.dies ∧ (updSec g s).blks = s.blks ∧
    (updSec g s).reqs = s.reqs ∧ (updSec g s).progs = s.progs ∧ (updSec g s).cws = s.cws ∧ (updSec g s).chunks = s.chunks ∧
    (updSec g s).stripes = s.stripes ∧ (updSec g s).accums = s.accums ∧ (updSec g s).rebuild = s.rebuild ∧ (updSec g s).seedbed = s.seedbed ∧
    (updSec g s).nss = s.nss ∧ (updSec g s).zones = s.zones ∧ (updSec g s).map = s.map ∧ (updSec g s).pages = s.pages ∧ (updSec g s).jA = s.jA ∧
    (updSec g s).jB = s.jB ∧ (updSec g s).metas = s.metas ∧ (updSec g s).c0 = s.c0 ∧ (updSec g s).c1 = s.c1 ∧ (updSec g s).sqs = s.sqs ∧ (updSec g s).cqs = s.cqs ∧
    (updSec g s).cmds = s.cmds ∧ (updSec g s).pieces = s.pieces ∧ (updSec g s).cqes = s.cqes ∧ (updSec g s).slices = s.slices ∧
    (updSec g s).spA = s.spA ∧ (updSec g s).spB = s.spB ∧ (updSec g s).rules = s.rules ∧ (updSec g s).b0 = s.b0 ∧ (updSec g s).b1 = s.b1 ∧
    (updSec g s).bulkNext = s.bulkNext ∧ (updSec g s).qps = s.qps ∧ (updSec g s).memA = s.memA ∧ (updSec g s).memB = s.memB ∧
    (updSec g s).engines = s.engines ∧ (updSec g s).seA = s.seA ∧ (updSec g s).seB = s.seB ∧ (updSec g s).pair = s.pair ∧
    (updSec g s).sheaf = s.sheaf ∧ (updSec g s).events = s.events ∧ (updSec g s).power = s.power ∧ (updSec g s).feat = s.feat ∧
    (updSec g s).featNext = s.featNext ∧ (updSec g s).mi = s.mi ∧ (updSec g s).tx = s.tx ∧ (updSec g s).next = s.next ∧
    (updSec g s).drawn = s.drawn ∧ (updSec g s).heldAdmin = s.heldAdmin ∧ (updSec g s).jobs = s.jobs := by and_intros <;> rfl
@[simp] theorem updSec_sec (g : Security → Security) (s : State) : (updSec g s).sec = g s.sec := rfl
@[simp] theorem canonical_updSec (g : Security → Security) (s : State) : (updSec g s).canonical = s.canonical := by
  rfl
@[simp] theorem updEvents_others (g : Events → Events) (s : State) :
    (updEvents g s).pending = s.pending ∧ (updEvents g s).time = s.time ∧ (updEvents g s).stats = s.stats ∧ (updEvents g s).misses = s.misses ∧
    (updEvents g s).fronds = s.fronds ∧ (updEvents g s).chans = s.chans ∧ (updEvents g s).dies = s.dies ∧ (updEvents g s).blks = s.blks ∧
    (updEvents g s).reqs = s.reqs ∧ (updEvents g s).progs = s.progs ∧ (updEvents g s).cws = s.cws ∧ (updEvents g s).chunks = s.chunks ∧
    (updEvents g s).stripes = s.stripes ∧ (updEvents g s).accums = s.accums ∧ (updEvents g s).rebuild = s.rebuild ∧
    (updEvents g s).seedbed = s.seedbed ∧ (updEvents g s).nss = s.nss ∧ (updEvents g s).zones = s.zones ∧ (updEvents g s).map = s.map ∧
    (updEvents g s).pages = s.pages ∧ (updEvents g s).jA = s.jA ∧ (updEvents g s).jB = s.jB ∧ (updEvents g s).metas = s.metas ∧ (updEvents g s).c0 = s.c0 ∧ (updEvents g s).c1 = s.c1 ∧
    (updEvents g s).sqs = s.sqs ∧ (updEvents g s).cqs = s.cqs ∧ (updEvents g s).cmds = s.cmds ∧ (updEvents g s).pieces = s.pieces ∧
    (updEvents g s).cqes = s.cqes ∧ (updEvents g s).slices = s.slices ∧ (updEvents g s).spA = s.spA ∧ (updEvents g s).spB = s.spB ∧
    (updEvents g s).rules = s.rules ∧ (updEvents g s).b0 = s.b0 ∧ (updEvents g s).b1 = s.b1 ∧ (updEvents g s).bulkNext = s.bulkNext ∧
    (updEvents g s).qps = s.qps ∧ (updEvents g s).memA = s.memA ∧ (updEvents g s).memB = s.memB ∧ (updEvents g s).engines = s.engines ∧
    (updEvents g s).seA = s.seA ∧ (updEvents g s).seB = s.seB ∧ (updEvents g s).pair = s.pair ∧ (updEvents g s).sheaf = s.sheaf ∧
    (updEvents g s).sec = s.sec ∧ (updEvents g s).power = s.power ∧ (updEvents g s).feat = s.feat ∧ (updEvents g s).featNext = s.featNext ∧
    (updEvents g s).mi = s.mi ∧ (updEvents g s).tx = s.tx ∧ (updEvents g s).next = s.next ∧ (updEvents g s).drawn = s.drawn ∧
    (updEvents g s).heldAdmin = s.heldAdmin ∧ (updEvents g s).jobs = s.jobs := by and_intros <;> rfl
@[simp] theorem updEvents_events (g : Events → Events) (s : State) : (updEvents g s).events = g s.events := rfl
@[simp] theorem canonical_updEvents (g : Events → Events) (s : State) : (updEvents g s).canonical = s.canonical := by
  rfl
@[simp] theorem updRebuild_others (g : Rebuild → Rebuild) (s : State) :
    (updRebuild g s).pending = s.pending ∧ (updRebuild g s).time = s.time ∧ (updRebuild g s).stats = s.stats ∧ (updRebuild g s).misses = s.misses ∧
    (updRebuild g s).fronds = s.fronds ∧ (updRebuild g s).chans = s.chans ∧ (updRebuild g s).dies = s.dies ∧ (updRebuild g s).blks = s.blks ∧
    (updRebuild g s).reqs = s.reqs ∧ (updRebuild g s).progs = s.progs ∧ (updRebuild g s).cws = s.cws ∧ (updRebuild g s).chunks = s.chunks ∧
    (updRebuild g s).stripes = s.stripes ∧ (updRebuild g s).accums = s.accums ∧ (updRebuild g s).seedbed = s.seedbed ∧ (updRebuild g s).nss = s.nss ∧
    (updRebuild g s).zones = s.zones ∧ (updRebuild g s).map = s.map ∧ (updRebuild g s).pages = s.pages ∧ (updRebuild g s).jA = s.jA ∧
    (updRebuild g s).jB = s.jB ∧ (updRebuild g s).metas = s.metas ∧ (updRebuild g s).c0 = s.c0 ∧ (updRebuild g s).c1 = s.c1 ∧ (updRebuild g s).sqs = s.sqs ∧
    (updRebuild g s).cqs = s.cqs ∧ (updRebuild g s).cmds = s.cmds ∧ (updRebuild g s).pieces = s.pieces ∧ (updRebuild g s).cqes = s.cqes ∧
    (updRebuild g s).slices = s.slices ∧ (updRebuild g s).spA = s.spA ∧ (updRebuild g s).spB = s.spB ∧ (updRebuild g s).rules = s.rules ∧
    (updRebuild g s).b0 = s.b0 ∧ (updRebuild g s).b1 = s.b1 ∧ (updRebuild g s).bulkNext = s.bulkNext ∧ (updRebuild g s).qps = s.qps ∧
    (updRebuild g s).memA = s.memA ∧ (updRebuild g s).memB = s.memB ∧ (updRebuild g s).engines = s.engines ∧ (updRebuild g s).seA = s.seA ∧
    (updRebuild g s).seB = s.seB ∧ (updRebuild g s).pair = s.pair ∧ (updRebuild g s).sheaf = s.sheaf ∧ (updRebuild g s).sec = s.sec ∧
    (updRebuild g s).events = s.events ∧ (updRebuild g s).power = s.power ∧ (updRebuild g s).feat = s.feat ∧ (updRebuild g s).featNext = s.featNext ∧
    (updRebuild g s).mi = s.mi ∧ (updRebuild g s).tx = s.tx ∧ (updRebuild g s).next = s.next ∧ (updRebuild g s).drawn = s.drawn ∧
    (updRebuild g s).heldAdmin = s.heldAdmin ∧ (updRebuild g s).jobs = s.jobs := by and_intros <;> rfl
@[simp] theorem updRebuild_rebuild (g : Rebuild → Rebuild) (s : State) : (updRebuild g s).rebuild = g s.rebuild := rfl
@[simp] theorem canonical_updRebuild (g : Rebuild → Rebuild) (s : State) : (updRebuild g s).canonical = s.canonical := by
  rfl
@[simp] theorem updSeedbed_others (g : Seedbed → Seedbed) (s : State) :
    (updSeedbed g s).pending = s.pending ∧ (updSeedbed g s).time = s.time ∧ (updSeedbed g s).stats = s.stats ∧ (updSeedbed g s).misses = s.misses ∧
    (updSeedbed g s).fronds = s.fronds ∧ (updSeedbed g s).chans = s.chans ∧ (updSeedbed g s).dies = s.dies ∧ (updSeedbed g s).blks = s.blks ∧
    (updSeedbed g s).reqs = s.reqs ∧ (updSeedbed g s).progs = s.progs ∧ (updSeedbed g s).cws = s.cws ∧ (updSeedbed g s).chunks = s.chunks ∧
    (updSeedbed g s).stripes = s.stripes ∧ (updSeedbed g s).accums = s.accums ∧ (updSeedbed g s).rebuild = s.rebuild ∧ (updSeedbed g s).nss = s.nss ∧
    (updSeedbed g s).zones = s.zones ∧ (updSeedbed g s).map = s.map ∧ (updSeedbed g s).pages = s.pages ∧ (updSeedbed g s).jA = s.jA ∧
    (updSeedbed g s).jB = s.jB ∧ (updSeedbed g s).metas = s.metas ∧ (updSeedbed g s).c0 = s.c0 ∧ (updSeedbed g s).c1 = s.c1 ∧ (updSeedbed g s).sqs = s.sqs ∧
    (updSeedbed g s).cqs = s.cqs ∧ (updSeedbed g s).cmds = s.cmds ∧ (updSeedbed g s).pieces = s.pieces ∧ (updSeedbed g s).cqes = s.cqes ∧
    (updSeedbed g s).slices = s.slices ∧ (updSeedbed g s).spA = s.spA ∧ (updSeedbed g s).spB = s.spB ∧ (updSeedbed g s).rules = s.rules ∧
    (updSeedbed g s).b0 = s.b0 ∧ (updSeedbed g s).b1 = s.b1 ∧ (updSeedbed g s).bulkNext = s.bulkNext ∧ (updSeedbed g s).qps = s.qps ∧
    (updSeedbed g s).memA = s.memA ∧ (updSeedbed g s).memB = s.memB ∧ (updSeedbed g s).engines = s.engines ∧ (updSeedbed g s).seA = s.seA ∧
    (updSeedbed g s).seB = s.seB ∧ (updSeedbed g s).pair = s.pair ∧ (updSeedbed g s).sheaf = s.sheaf ∧ (updSeedbed g s).sec = s.sec ∧
    (updSeedbed g s).events = s.events ∧ (updSeedbed g s).power = s.power ∧ (updSeedbed g s).feat = s.feat ∧ (updSeedbed g s).featNext = s.featNext ∧
    (updSeedbed g s).mi = s.mi ∧ (updSeedbed g s).tx = s.tx ∧ (updSeedbed g s).next = s.next ∧ (updSeedbed g s).drawn = s.drawn ∧
    (updSeedbed g s).heldAdmin = s.heldAdmin ∧ (updSeedbed g s).jobs = s.jobs := by and_intros <;> rfl
@[simp] theorem updSeedbed_seedbed (g : Seedbed → Seedbed) (s : State) : (updSeedbed g s).seedbed = g s.seedbed := rfl
@[simp] theorem canonical_updSeedbed (g : Seedbed → Seedbed) (s : State) : (updSeedbed g s).canonical = s.canonical := by
  rfl
@[simp] theorem updMetas_others (g : Metas → Metas) (s : State) :
    (updMetas g s).pending = s.pending ∧ (updMetas g s).time = s.time ∧ (updMetas g s).stats = s.stats ∧ (updMetas g s).misses = s.misses ∧
    (updMetas g s).fronds = s.fronds ∧ (updMetas g s).chans = s.chans ∧ (updMetas g s).dies = s.dies ∧ (updMetas g s).blks = s.blks ∧
    (updMetas g s).reqs = s.reqs ∧ (updMetas g s).progs = s.progs ∧ (updMetas g s).cws = s.cws ∧ (updMetas g s).chunks = s.chunks ∧
    (updMetas g s).stripes = s.stripes ∧ (updMetas g s).accums = s.accums ∧ (updMetas g s).rebuild = s.rebuild ∧ (updMetas g s).nss = s.nss ∧
    (updMetas g s).zones = s.zones ∧ (updMetas g s).map = s.map ∧ (updMetas g s).pages = s.pages ∧ (updMetas g s).jA = s.jA ∧
    (updMetas g s).jB = s.jB ∧ (updMetas g s).seedbed = s.seedbed ∧ (updMetas g s).c0 = s.c0 ∧ (updMetas g s).c1 = s.c1 ∧ (updMetas g s).sqs = s.sqs ∧
    (updMetas g s).cqs = s.cqs ∧ (updMetas g s).cmds = s.cmds ∧ (updMetas g s).pieces = s.pieces ∧ (updMetas g s).cqes = s.cqes ∧
    (updMetas g s).slices = s.slices ∧ (updMetas g s).spA = s.spA ∧ (updMetas g s).spB = s.spB ∧ (updMetas g s).rules = s.rules ∧
    (updMetas g s).b0 = s.b0 ∧ (updMetas g s).b1 = s.b1 ∧ (updMetas g s).bulkNext = s.bulkNext ∧ (updMetas g s).qps = s.qps ∧
    (updMetas g s).memA = s.memA ∧ (updMetas g s).memB = s.memB ∧ (updMetas g s).engines = s.engines ∧ (updMetas g s).seA = s.seA ∧
    (updMetas g s).seB = s.seB ∧ (updMetas g s).pair = s.pair ∧ (updMetas g s).sheaf = s.sheaf ∧ (updMetas g s).sec = s.sec ∧
    (updMetas g s).events = s.events ∧ (updMetas g s).power = s.power ∧ (updMetas g s).feat = s.feat ∧ (updMetas g s).featNext = s.featNext ∧
    (updMetas g s).mi = s.mi ∧ (updMetas g s).tx = s.tx ∧ (updMetas g s).next = s.next ∧ (updMetas g s).drawn = s.drawn ∧
    (updMetas g s).heldAdmin = s.heldAdmin ∧ (updMetas g s).jobs = s.jobs := by and_intros <;> rfl
@[simp] theorem updMetas_metas (g : Metas → Metas) (s : State) : (updMetas g s).metas = g s.metas := rfl
@[simp] theorem updWork_others (n : Nat) (g : MetaWork → MetaWork) (s : State) :
    (updWork n g s).pending = s.pending ∧ (updWork n g s).time = s.time ∧ (updWork n g s).stats = s.stats ∧ (updWork n g s).misses = s.misses ∧
    (updWork n g s).fronds = s.fronds ∧ (updWork n g s).chans = s.chans ∧ (updWork n g s).dies = s.dies ∧ (updWork n g s).blks = s.blks ∧
    (updWork n g s).reqs = s.reqs ∧ (updWork n g s).progs = s.progs ∧ (updWork n g s).cws = s.cws ∧ (updWork n g s).chunks = s.chunks ∧
    (updWork n g s).stripes = s.stripes ∧ (updWork n g s).accums = s.accums ∧ (updWork n g s).rebuild = s.rebuild ∧ (updWork n g s).nss = s.nss ∧
    (updWork n g s).zones = s.zones ∧ (updWork n g s).map = s.map ∧ (updWork n g s).pages = s.pages ∧ (updWork n g s).jA = s.jA ∧
    (updWork n g s).jB = s.jB ∧ (updWork n g s).seedbed = s.seedbed ∧ (updWork n g s).c0 = s.c0 ∧ (updWork n g s).c1 = s.c1 ∧ (updWork n g s).sqs = s.sqs ∧
    (updWork n g s).cqs = s.cqs ∧ (updWork n g s).cmds = s.cmds ∧ (updWork n g s).pieces = s.pieces ∧ (updWork n g s).cqes = s.cqes ∧
    (updWork n g s).slices = s.slices ∧ (updWork n g s).spA = s.spA ∧ (updWork n g s).spB = s.spB ∧ (updWork n g s).rules = s.rules ∧
    (updWork n g s).b0 = s.b0 ∧ (updWork n g s).b1 = s.b1 ∧ (updWork n g s).bulkNext = s.bulkNext ∧ (updWork n g s).qps = s.qps ∧
    (updWork n g s).memA = s.memA ∧ (updWork n g s).memB = s.memB ∧ (updWork n g s).engines = s.engines ∧ (updWork n g s).seA = s.seA ∧
    (updWork n g s).seB = s.seB ∧ (updWork n g s).pair = s.pair ∧ (updWork n g s).sheaf = s.sheaf ∧ (updWork n g s).sec = s.sec ∧
    (updWork n g s).events = s.events ∧ (updWork n g s).power = s.power ∧ (updWork n g s).feat = s.feat ∧ (updWork n g s).featNext = s.featNext ∧
    (updWork n g s).mi = s.mi ∧ (updWork n g s).tx = s.tx ∧ (updWork n g s).next = s.next ∧ (updWork n g s).drawn = s.drawn ∧
    (updWork n g s).heldAdmin = s.heldAdmin ∧ (updWork n g s).jobs = s.jobs := by and_intros <;> rfl
@[simp] theorem updWork_metas (n : Nat) (g : MetaWork → MetaWork) (s : State) : (updWork n g s).metas = { s.metas with work := tmod s.metas.work n g } := rfl
@[simp] theorem canonical_updWork (n : Nat) (g : MetaWork → MetaWork) (s : State) : (updWork n g s).canonical = s.canonical := by
  simp [State.canonical]
@[simp] theorem updPair_others (g : PairSt → PairSt) (s : State) :
    (updPair g s).pending = s.pending ∧ (updPair g s).time = s.time ∧ (updPair g s).stats = s.stats ∧ (updPair g s).misses = s.misses ∧
    (updPair g s).fronds = s.fronds ∧ (updPair g s).chans = s.chans ∧ (updPair g s).dies = s.dies ∧ (updPair g s).blks = s.blks ∧
    (updPair g s).reqs = s.reqs ∧ (updPair g s).progs = s.progs ∧ (updPair g s).cws = s.cws ∧ (updPair g s).chunks = s.chunks ∧
    (updPair g s).stripes = s.stripes ∧ (updPair g s).accums = s.accums ∧ (updPair g s).rebuild = s.rebuild ∧ (updPair g s).seedbed = s.seedbed ∧
    (updPair g s).nss = s.nss ∧ (updPair g s).zones = s.zones ∧ (updPair g s).map = s.map ∧ (updPair g s).pages = s.pages ∧ (updPair g s).jA = s.jA ∧
    (updPair g s).jB = s.jB ∧ (updPair g s).metas = s.metas ∧ (updPair g s).c0 = s.c0 ∧ (updPair g s).c1 = s.c1 ∧ (updPair g s).sqs = s.sqs ∧ (updPair g s).cqs = s.cqs ∧
    (updPair g s).cmds = s.cmds ∧ (updPair g s).pieces = s.pieces ∧ (updPair g s).cqes = s.cqes ∧ (updPair g s).slices = s.slices ∧
    (updPair g s).spA = s.spA ∧ (updPair g s).spB = s.spB ∧ (updPair g s).rules = s.rules ∧ (updPair g s).b0 = s.b0 ∧ (updPair g s).b1 = s.b1 ∧
    (updPair g s).bulkNext = s.bulkNext ∧ (updPair g s).qps = s.qps ∧ (updPair g s).memA = s.memA ∧ (updPair g s).memB = s.memB ∧
    (updPair g s).engines = s.engines ∧ (updPair g s).seA = s.seA ∧ (updPair g s).seB = s.seB ∧ (updPair g s).sheaf = s.sheaf ∧
    (updPair g s).sec = s.sec ∧ (updPair g s).events = s.events ∧ (updPair g s).power = s.power ∧ (updPair g s).feat = s.feat ∧
    (updPair g s).featNext = s.featNext ∧ (updPair g s).mi = s.mi ∧ (updPair g s).tx = s.tx ∧ (updPair g s).next = s.next ∧
    (updPair g s).drawn = s.drawn ∧ (updPair g s).heldAdmin = s.heldAdmin ∧ (updPair g s).jobs = s.jobs := by and_intros <;> rfl
@[simp] theorem updPair_pair (g : PairSt → PairSt) (s : State) : (updPair g s).pair = g s.pair := rfl
@[simp] theorem canonical_updPair (g : PairSt → PairSt) (s : State) : (updPair g s).canonical = s.canonical := by
  rfl
@[simp] theorem updFeat_others (g : Features → Features) (s : State) :
    (updFeat g s).pending = s.pending ∧ (updFeat g s).time = s.time ∧ (updFeat g s).stats = s.stats ∧ (updFeat g s).misses = s.misses ∧
    (updFeat g s).fronds = s.fronds ∧ (updFeat g s).chans = s.chans ∧ (updFeat g s).dies = s.dies ∧ (updFeat g s).blks = s.blks ∧
    (updFeat g s).reqs = s.reqs ∧ (updFeat g s).progs = s.progs ∧ (updFeat g s).cws = s.cws ∧ (updFeat g s).chunks = s.chunks ∧
    (updFeat g s).stripes = s.stripes ∧ (updFeat g s).accums = s.accums ∧ (updFeat g s).rebuild = s.rebuild ∧ (updFeat g s).seedbed = s.seedbed ∧
    (updFeat g s).nss = s.nss ∧ (updFeat g s).zones = s.zones ∧ (updFeat g s).map = s.map ∧ (updFeat g s).pages = s.pages ∧ (updFeat g s).jA = s.jA ∧
    (updFeat g s).jB = s.jB ∧ (updFeat g s).metas = s.metas ∧ (updFeat g s).c0 = s.c0 ∧ (updFeat g s).c1 = s.c1 ∧ (updFeat g s).sqs = s.sqs ∧ (updFeat g s).cqs = s.cqs ∧
    (updFeat g s).cmds = s.cmds ∧ (updFeat g s).pieces = s.pieces ∧ (updFeat g s).cqes = s.cqes ∧ (updFeat g s).slices = s.slices ∧
    (updFeat g s).spA = s.spA ∧ (updFeat g s).spB = s.spB ∧ (updFeat g s).rules = s.rules ∧ (updFeat g s).b0 = s.b0 ∧ (updFeat g s).b1 = s.b1 ∧
    (updFeat g s).bulkNext = s.bulkNext ∧ (updFeat g s).qps = s.qps ∧ (updFeat g s).memA = s.memA ∧ (updFeat g s).memB = s.memB ∧
    (updFeat g s).engines = s.engines ∧ (updFeat g s).seA = s.seA ∧ (updFeat g s).seB = s.seB ∧ (updFeat g s).pair = s.pair ∧
    (updFeat g s).sheaf = s.sheaf ∧ (updFeat g s).sec = s.sec ∧ (updFeat g s).events = s.events ∧ (updFeat g s).power = s.power ∧
    (updFeat g s).featNext = s.featNext ∧ (updFeat g s).mi = s.mi ∧ (updFeat g s).tx = s.tx ∧ (updFeat g s).next = s.next ∧
    (updFeat g s).drawn = s.drawn ∧ (updFeat g s).heldAdmin = s.heldAdmin ∧ (updFeat g s).jobs = s.jobs := by and_intros <;> rfl
@[simp] theorem updFeat_feat (g : Features → Features) (s : State) : (updFeat g s).feat = g s.feat := rfl
@[simp] theorem canonical_updFeat (g : Features → Features) (s : State) : (updFeat g s).canonical = s.canonical := by
  rfl
@[simp] theorem send_others (t : Tx) (s : State) :
    (send t s).pending = s.pending ∧ (send t s).time = s.time ∧ (send t s).stats = s.stats ∧ (send t s).misses = s.misses ∧
    (send t s).fronds = s.fronds ∧ (send t s).chans = s.chans ∧ (send t s).dies = s.dies ∧ (send t s).blks = s.blks ∧ (send t s).reqs = s.reqs ∧
    (send t s).progs = s.progs ∧ (send t s).cws = s.cws ∧ (send t s).chunks = s.chunks ∧ (send t s).stripes = s.stripes ∧
    (send t s).accums = s.accums ∧ (send t s).rebuild = s.rebuild ∧ (send t s).seedbed = s.seedbed ∧ (send t s).nss = s.nss ∧
    (send t s).zones = s.zones ∧ (send t s).map = s.map ∧ (send t s).pages = s.pages ∧ (send t s).jA = s.jA ∧ (send t s).jB = s.jB ∧ (send t s).metas = s.metas ∧
    (send t s).c0 = s.c0 ∧ (send t s).c1 = s.c1 ∧ (send t s).sqs = s.sqs ∧ (send t s).cqs = s.cqs ∧ (send t s).cmds = s.cmds ∧
    (send t s).pieces = s.pieces ∧ (send t s).cqes = s.cqes ∧ (send t s).slices = s.slices ∧ (send t s).spA = s.spA ∧ (send t s).spB = s.spB ∧
    (send t s).rules = s.rules ∧ (send t s).b0 = s.b0 ∧ (send t s).b1 = s.b1 ∧ (send t s).bulkNext = s.bulkNext ∧ (send t s).qps = s.qps ∧
    (send t s).memA = s.memA ∧ (send t s).memB = s.memB ∧ (send t s).engines = s.engines ∧ (send t s).seA = s.seA ∧ (send t s).seB = s.seB ∧
    (send t s).pair = s.pair ∧ (send t s).sheaf = s.sheaf ∧ (send t s).sec = s.sec ∧ (send t s).events = s.events ∧ (send t s).power = s.power ∧
    (send t s).feat = s.feat ∧ (send t s).featNext = s.featNext ∧ (send t s).mi = s.mi ∧ (send t s).next = s.next ∧ (send t s).drawn = s.drawn ∧
    (send t s).heldAdmin = s.heldAdmin ∧ (send t s).jobs = s.jobs := by and_intros <;> rfl
@[simp] theorem send_tx (t : Tx) (s : State) : (send t s).tx = s.tx ++ [t] := rfl
@[simp] theorem canonical_send (t : Tx) (s : State) : (send t s).canonical = s.canonical := by
  rfl
@[simp] theorem atCount_others (n : Nat) (s : State) :
    (atCount n s).pending = s.pending ∧ (atCount n s).stats = s.stats ∧ (atCount n s).misses = s.misses ∧ (atCount n s).fronds = s.fronds ∧
    (atCount n s).chans = s.chans ∧ (atCount n s).dies = s.dies ∧ (atCount n s).blks = s.blks ∧ (atCount n s).reqs = s.reqs ∧
    (atCount n s).progs = s.progs ∧ (atCount n s).cws = s.cws ∧ (atCount n s).chunks = s.chunks ∧ (atCount n s).stripes = s.stripes ∧
    (atCount n s).accums = s.accums ∧ (atCount n s).rebuild = s.rebuild ∧ (atCount n s).seedbed = s.seedbed ∧ (atCount n s).nss = s.nss ∧
    (atCount n s).zones = s.zones ∧ (atCount n s).map = s.map ∧ (atCount n s).pages = s.pages ∧ (atCount n s).jA = s.jA ∧ (atCount n s).jB = s.jB ∧ (atCount n s).metas = s.metas ∧
    (atCount n s).c0 = s.c0 ∧ (atCount n s).c1 = s.c1 ∧ (atCount n s).sqs = s.sqs ∧ (atCount n s).cqs = s.cqs ∧ (atCount n s).cmds = s.cmds ∧
    (atCount n s).pieces = s.pieces ∧ (atCount n s).cqes = s.cqes ∧ (atCount n s).slices = s.slices ∧ (atCount n s).spA = s.spA ∧
    (atCount n s).spB = s.spB ∧ (atCount n s).rules = s.rules ∧ (atCount n s).b0 = s.b0 ∧ (atCount n s).b1 = s.b1 ∧
    (atCount n s).bulkNext = s.bulkNext ∧ (atCount n s).qps = s.qps ∧ (atCount n s).memA = s.memA ∧ (atCount n s).memB = s.memB ∧
    (atCount n s).engines = s.engines ∧ (atCount n s).seA = s.seA ∧ (atCount n s).seB = s.seB ∧ (atCount n s).pair = s.pair ∧
    (atCount n s).sheaf = s.sheaf ∧ (atCount n s).sec = s.sec ∧ (atCount n s).events = s.events ∧ (atCount n s).power = s.power ∧
    (atCount n s).feat = s.feat ∧ (atCount n s).featNext = s.featNext ∧ (atCount n s).mi = s.mi ∧ (atCount n s).tx = s.tx ∧
    (atCount n s).next = s.next ∧ (atCount n s).drawn = s.drawn ∧ (atCount n s).heldAdmin = s.heldAdmin ∧ (atCount n s).jobs = s.jobs := by and_intros <;> rfl
@[simp] theorem canonical_atCount (n : Nat) (s : State) : (atCount n s).canonical = s.canonical := by
  rfl

end Sys2Proof.Laws
end

