-- ==== Sys2Proof/Laws/Ops.lean ====
section
/-! SUPPORT. The shared operations that most meanings are written over, each with all it does in one equation: events, markers,
change records, completions and the gate's refusal. -/
namespace Sys2Proof.Laws
open Sys2Proof Sys2Proof.Machine

/-- An event touches the event intake alone (R377, R379, R381). -/
theorem intake_spec (r : EventRec) (s : State) : intake r s = { s with events := (intake r s).events } := rfl
theorem event_spec (code cls src ob a0 a1 a2 : Nat) (s : State) :
    event code cls src ob a0 a1 a2 s = { s with events := (intake (mkRec s code cls src (evData ob a0 a1 a2)) s).events } := rfl
/-- A full recorder counts the event and keeps nothing (R381). -/
theorem intake_full (r : EventRec) (s : State) (h : recFull s = true) :
    intake r s = { s with events := { s.events with dropped := s.events.dropped + 1 } } := by
  unfold recFull at h
  cases hm : s.time.master <;> simp_all [intake, updEvents, recAt]
/-- A marker waits with the summaries (R375, R379). -/
theorem marker_spec (code data : Nat) (s : State) :
    marker code data s = { s with events := { s.events with sumQ := s.events.sumQ ++ [mkRec s code 5 (cardNo s.time.master) data] } } := rfl
/-- A change record waits with the completion it stands for (R348). -/
theorem change_spec (opc what origin port slice pasid outcome : Nat) (keyId : List Byte) (d : Option Cqe) (s : State) :
    change opc what origin port slice pasid outcome keyId d s = { s with events := { s.events with
      changeQ := s.events.changeQ ++ [(mkRec s 0x10 3 (cardNo s.time.master) (changeData opc what origin port slice pasid outcome keyId), d)] } } := rfl
/-- Success of an admin command is posted and touches nothing else. -/
theorem post_admin_ok (q : Cqe) (lba nsid : Nat) (s : State) (h1 : q.cid < 65536) (h2 : (ctrlAt s q.port).link = true)
    (h3 : (ctrlAt s q.port).rdy = true) (h4 : q.sct = 0) (h5 : q.sc = 0) (h6 : q.sqid = 0) :
    post q lba nsid s = { s with cqes := s.cqes ++ [q] } := by
  have h : ¬ 65536 ≤ q.cid := by omega
  simp [post, cqAdvance, h, h2, h3, h4, h5, h6]
/-- A completion for a controller that takes none is dropped (R174). -/
theorem post_closed (q : Cqe) (lba nsid : Nat) (s : State) (h : (ctrlAt s q.port).rdy = false) : post q lba nsid s = s := by
  simp [post, h]
/-- The gate's refusal (R342, R350). -/
theorem refused_spec (e : Sqe) (reason : Nat) (s : State) (h0 : e.sqid = 0) (h1 : e.cid < 65536) (h2 : (ctrlAt s e.port).link = true)
    (h3 : (ctrlAt s e.port).rdy = true) : s.turnsAway (refused e reason s) e reason := by
  have hc : (65536 ≤ e.cid) = False := by simp only [eq_iff_iff, iff_false]; omega
  cases hp : e.port <;> simp only [hp, ctrlAt] at h2 h3 <;>
    simp [refused, finish, post, cqAdvance, updSec, updCtrl, ctrlAt, State.turnsAway, h0, h2, h3, hp, hc] <;>
    (intro p hq; cases p <;> simp_all)

end Sys2Proof.Laws
end

