-- ==== Sys2Proof/Machine/Indicators.lean ====
section
/-! DEFINITION. What the base shows and drives, as functions of State: indicators (R431, R432), ATTN_N (R430), SMB_ALERT_N (R191).
Where several patterns of R431 hold, the order is the model's (assumption 128). -/
namespace Sys2Proof.Machine
open Sys2Proof

/-- A pattern of an indicator; blinking is at 1 Hz. -/
inductive Led where | off | green | greenBlink | amber | amberBlink | blue
  deriving DecidableEq, Repr, Inhabited

/-- The indicator of a frond slot (R432). -/
def frondLed (s : State) (f : Nat) : Led :=
  let g := frondAt s f
  if (fuseAt s f).off then .amber
  else if !g.present then .off
  else if g.prepared = 2 then .blue
  else if g.state = 7 ∨ g.insert = 3 then .amberBlink
  else if g.insert ≠ 0 then (if s.power.ps = 4 then .off else .greenBlink)
  else if g.state = 3 ∨ g.state = 9 ∨ g.service then .amber
  else if s.power.ps = 4 then .off
  else if g.state = 0 then .green
  else if g.state = 5 ∨ g.state = 6 then .greenBlink
  else .amberBlink
/-- The indicator of a controller slot (R432). -/
def cardLed (s : State) (c : CardId) : Led :=
  let x := cardAt s c
  if (fuseAt s (16 + cardNo c)).off then .amber
  else if !x.present then .off
  else if x.serving then .green
  else if x.why = .foreign then .amberBlink
  else if x.why = .request then .blue
  else if x.entering ≠ 0 then .greenBlink
  else .amber
/-- The indicator of a PEU slot (R432). -/
def peuLed (s : State) (p : PeuId) : Led :=
  let x := peuAt s p
  if !x.present then .off
  else if !x.keltan then .amberBlink
  else if x.st = 7 ∨ x.faults.getLsbD 7 then .amber
  else if x.st = 6 then .blue
  else if 3 ≤ x.st ∧ x.st ≤ 5 then .amberBlink
  else if x.st = 1 ∨ x.upd ≠ 0 ∨ x.updating then .greenBlink
  else if x.st = 2 then .green
  else .off
/-- A frond slot's locate blinks blue, in turn with the slot's own pattern unless that is blue (R432). -/
def locateLed (s : State) (f : Nat) : Bool := (frondAt s f).locate && frondLed s f != .blue
/-- POWER (R431): only one PEU in STATE 2 comes first. -/
def powerLed (s : State) : Led :=
  let a := (peuAt s .a).present && (peuAt s .a).st == 2
  let b := (peuAt s .b).present && (peuAt s .b).st == 2
  if a && b then (if s.power.ps ≤ 2 then .green else .greenBlink) else if a || b then .amber else .off
/-- LOCATE (R431): the locate of some slot is on. -/
def locateOn (s : State) : Bool := (List.range 16).any fun f => (frondAt s f).locate
/-- Patterns of all 20 slots. -/
def slotLeds (s : State) : List Led := (List.range 16).map (frondLed s) ++ [cardLed s .ca, cardLed s .cb, peuLed s .a, peuLed s .b]
/-- STATUS (R431). -/
def statusLed (s : State) : Led :=
  if noTolerance s ≠ 0 ∨ beyond s ≠ 0 ∨ s.rebuild.lostCount ≠ 0 ∨ .amber ∈ slotLeds s then .amber
  else if !(s.pair.ca.serving || s.pair.cb.serving) ∨ s.nss.any (fun n => n.2.used && !n.2.ready) then .greenBlink
  else if !(s.pair.ca.serving && s.pair.cb.serving) ∨ s.memA.spare.isNone ∨ s.memB.spare.isNone ∨ s.rebuild.kinds ≠ []
      ∨ (inUse s).any (fun x => !(missingOf x.2).isEmpty) ∨ .amberBlink ∈ slotLeds s then .amberBlink
  else .green
/-- ATTN_N is asserted while STATUS shows amber (R430). -/
def attention (s : State) : Bool := statusLed s == .amber || statusLed s == .amberBlink
/-- SMB_ALERT_N is asserted while a Critical Warning bit is set (R191). -/
def smbAlert (s : State) : Bool := criticalWarning s != 0

end Sys2Proof.Machine
end

