-- ==== Sys2Proof/WellFormed.lean ====
section
/-! DEFINITION. Well-formed commands: every operand lies in the range the spec gives it. -/
namespace Sys2Proof

/-- A count of a frame (R15). -/
def cntOk (n : Nat) : Bool := decide (n < 16128)
/-- A global die index (R5). -/
def dieOk (d : Nat) : Bool := decide (d < 4096)
/-- A global channel index (R5). -/
def chanOk (c : Nat) : Bool := decide (c < 128)
/-- An NSID of this module (R165). -/
def nsOk (n : Nat) : Bool := decide (1 ≤ n ∧ n ≤ 4096)
/-- A zone index of a namespace (R133). -/
def zoneOk (z : Nat) : Bool := decide (z < 475136)
/-- A queue pair, port × 4,096 + index (R243). -/
def qpOk (q : Nat) : Bool := decide (q < 8192)
/-- A packet sequence number (R241). -/
def psnOk (p : Nat) : Bool := decide (p < 2 ^ 24)
/-- A culm header (R306). -/
def hdrOk (h : CulmHdr) : Bool := decide (h.src < 16 ∧ h.dst < 16 ∧ h.hops < 256 ∧ h.seq < 65536)
/-- A sensor of R419: its number within its kind. -/
def sensorOk : SensorId → Bool
  | .junction _ n => decide (n < 12)
  | .dram _ n => decide (n < 4)
  | .filnas _ n => decide (n < 2)
  | .package _ n => decide (n < 32)
  | .peu _ n => decide (n < 4)
/-- An engine reference: 64 in a Quihar, 9 in a Filnas (R23). -/
def engineOk : EngineRef → Bool
  | .quihar _ n => decide (n < 64)
  | .filnas _ n => decide (n < 9)
/-- A submission-queue entry (R178): identifiers of 16 bits, an NSID of 32, a count of the frame, no more data than its
data pointer covers. -/
def sqeOk (e : Sqe) : Bool :=
  decide (e.sqid < 65536 ∧ e.cid < 65536 ∧ e.nsid < 2 ^ 32 ∧ e.cnt < 16128 ∧ e.data.length ≤ e.dlen)

/-- The operands of a command lie in their ranges. -/
def Instr.wf : Instr → Bool
  | .modulePowerOn _ _ => true
  | .namespacesReady _ => true
  | .nvmSubsystemReset _ => true
  | .resetNAssert _ => true
  | .resetNRelease => true
  | .ccEnClear _ => true
  | .functionLevelReset _ => true
  | .controllerLevelReset _ => true
  | .pcieLinkLoss _ => true
  | .shutdownNotification _ => true
  | .shutdownComplete _ => true
  | .sqTailDoorbell _ sqid tail cnt => decide (sqid < 65536 ∧ tail < 65536 ∧ cnt < 16128)
  | .cqHeadDoorbell _ cqid head => decide (cqid < 65536 ∧ head < 65536)
  | .registerWrite _ _ _ _ => true
  | .commandFetch e => sqeOk e
  | .frameTick => true
  | .frameStartMarker _ _ _ _ => true
  | .markerMissing _ => true
  | .markerLost _ => true
  | .mediaRequest _ cnt => cntOk cnt
  | .planClose _ => true
  | .framePlanFix _ cnt => cntOk cnt
  | .framePlanMessage _ _ _ _ => true
  | .planLate _ cnt => cntOk cnt
  | .suspendPoint die => dieOk die
  | .segmentCheck die _ => dieOk die
  | .readCheck die plane cnt _ => dieOk die && decide (plane < 4) && cntOk cnt
  | .channelPlanOverrun chan _ => chanOk chan
  | .channelCapRestore chan => chanOk chan
  | .quarantineLift die => dieOk die
  | .senseEnd die plane => dieOk die && decide (plane < 4)
  | .dataOutEnd _ => true
  | .decodeResult _ _ bad cbc cnt => decide (bad < 16) && decide (cbc < 65536) && cntOk cnt
  | .streamEngineUnit _ engine => decide (engine < 24)
  | .reconstructionDone _ => true
  | .readPieceDelivery _ => true
  | .commandDeadline _ => true
  | .engineWatchdog engine => engineOk engine
  | .programStatusReport _ _ => true
  | .packWaitExpiry _ => true
  | .foldHoldExpiry slot pos row => decide (slot < 475136 ∧ pos < 16 ∧ row < 1024)
  | .qlcProgramDone report => dieOk report.die
  | .foldVerifyDone die _ => dieOk die
  | .memberTableProgram _ => true
  | .accumulatorRecomputeDone nsid zone => nsOk nsid && zoneOk zone
  | .fullWaitExpiry _ => true
  | .eraseDone die _ => dieOk die
  | .eraseJournalRecord _ => true
  | .dieResetTimeout die => dieOk die
  | .channelRetrainDue chan => chanOk chan
  | .channelTrainingEnd chan failed eye temp => chanOk chan && failed.all dieOk && decide (eye < 256 ∧ temp < 256)
  | .refreshDone die block => dieOk die && decide (block < 2112)
  | .scrubDue die block => dieOk die && decide (block < 2112)
  | .readOffsetRecalibration die group offsets => dieOk die && decide (group < 66 ∧ offsets.length = 16) && offsets.all (fun x => decide (-64 ≤ x ∧ x ≤ 63))
  | .rebuildStripeDone slot pos => decide (slot < 475136 ∧ pos < 16)
  | .zoneOpenWaitExpiry _ => true
  | .allocatorRequest nsid zone cls => nsOk nsid && zoneOk zone && decide (cls < 16)
  | .gcVictimRelease slot => decide (slot < 475136)
  | .gcWriteWaitExpiry _ => true
  | .mapJournalProgrammed _ => true
  | .mapPageRead nsid page => nsOk nsid && decide (page < 2 ^ 29)
  | .checkpointStart _ => true
  | .checkpointComplete _ => true
  | .rangeLockGrant _ => true
  | .rangeLockTimeout _ => true
  | .spikeletSearch _ profile _ mask => decide (profile < 16) && mask.faulty.all fun p => decide (p < 131072)
  | .spikeletUpdate _ pos _ => decide (pos < 131072)
  | .spikeletShadowCompare _ bank faulty => decide (bank < 32) && faulty.all (fun p => decide (p / 4096 = bank))
  | .bufferRequest _ _ count engine => decide (1 ≤ count ∧ count ≤ 16 ∧ engine < 64)
  | .bufferDeferralExpiry _ => true
  | .referenceDecrement _ _ consumers engine => decide (1 ≤ consumers ∧ consumers ≤ 255 ∧ engine < 64)
  | .fence _ source => decide (source < 256)
  | .dramCorrectedError _ rank => decide (rank < 8)
  | .dramUncorrectableError _ rank line => decide (rank < 8 ∧ line < 2 ^ 28)
  | .poisonRead _ line _ => decide (line < 2 ^ 31)
  | .rankRetrainDue _ rank => decide (rank < 8)
  | .rankCopyDone _ => true
  | .rankTrainingEnd _ _ eye temp => decide (eye < 256 ∧ temp < 256)
  | .rankMigrationDone _ => true
  | .checkUnitCombine _ unit _ _ => decide (unit < 32)
  | .checkContextLoad _ unit _ => decide (unit < 32)
  | .heartbeat _ _ => true
  | .heartbeatMissed _ => true
  | .takeoverComplete _ => true
  | .fenceReceived _ _ => true
  | .cardPresentOpen _ => true
  | .rhizomeLaneLoss _ => true
  | .mirrorRecord _ _ => true
  | .mirrorAck _ _ => true
  | .mirrorAckTimeout _ _ => true
  | .forwardedCommand _ _ => true
  | .pieceList _ => true
  | .ownershipTransfer _ _ => true
  | .ownershipCopyDone _ => true
  | .cardEnterService _ => true
  | .tickMasterHandover => true
  | .cardStartAlone _ _ => true
  | .cardStart _ failedUnits _ _ => failedUnits.all (fun i => decide (i < 72))
  | .culmLinkUp _ nbrPos _ lanes => decide (nbrPos < 16 ∧ (lanes = 1 ∨ lanes = 2))
  | .culmPortDown _ => true
  | .culmRetrain _ _ => true
  | .rachis _ hdr _ _ leadPos _ _ => hdrOk hdr && decide (leadPos < 16)
  | .tickIoPulse _ => true
  | .tickIoFallback _ => true
  | .tickIoDriveResume => true
  | .delayReq _ hdr _ _ => hdrOk hdr
  | .delayRsp _ hdr _ _ _ _ => hdrOk hdr
  | .delayMeasure _ => true
  | .hello _ hdr _ => hdrOk hdr
  | .census _ hdr heard => hdrOk hdr && heard.all (fun x => decide (x.pos < 16 ∧ x.hops < 16))
  | .censusExpiry pos => decide (pos < 16)
  | .leadLost => true
  | .handover hdr successor _ => hdrOk hdr && decide (successor < 16)
  | .handoverSwitch => true
  | .demandSend => true
  | .demand hdr _ _ _ => hdrOk hdr
  | .grantCompute => true
  | .grant hdr _ _ _ shares => hdrOk hdr && shares.all (fun x => decide (x.pos < 16))
  | .grantStale => true
  | .plan hdr _ _ body => hdrOk hdr && decide (body.length ≤ 4096)
  | .planAck hdr _ => hdrOk hdr
  | .planResend => true
  | .sheafEvent hdr _ => hdrOk hdr
  | .eventAck hdr _ => hdrOk hdr
  | .sporeOffer hdr _ _ _ _ originator chain => hdrOk hdr && decide (originator < 16 ∧ chain.length = 32)
  | .sporeData _ hdr _ _ _ _ _ => hdrOk hdr
  | .sporeConfirm hdr _ _ _ _ => hdrOk hdr
  | .sporeMissing _ => true
  | .sporeResend _ hdr _ _ => hdrOk hdr
  | .relayActivate hdr _ => hdrOk hdr
  | .activateDone hdr _ _ => hdrOk hdr
  | .activationTimeout => true
  | .relayEnd hdr _ _ => hdrOk hdr
  | .nonceExpiry _ => true
  | .handleExpiry _ => true
  | .attestationSignature => true
  | .slotWriteDone _ => true
  | .filnasUpdate _ => true
  | .filnasUpdateTimeout _ => true
  | .healthConfirm _ => true
  | .healthWindowExpiry _ => true
  | .eventIntake code cls source _ _ _ _ cnt => decide (code < 65536 ∧ cls < 8 ∧ source < 256) && cntOk cnt
  | .recorderProgramEnd => true
  | .eventRefill => true
  | .recorderCopyDone _ => true
  | .feedStart _ => true
  | .feedUnderVoltage _ => true
  | .holdUpExpiry _ => true
  | .feedOverVoltage _ => true
  | .overVoltageRecovery _ => true
  | .reversePolarity _ => true
  | .openReturn _ => true
  | .inputShort _ => true
  | .outputOverCurrent _ => true
  | .hiccupRestart _ => true
  | .peuOverTemperature _ => true
  | .peuTemperatureRecovery _ => true
  | .peuStatusSend _ _ => true
  | .peuStatus _ _ _ _ _ => true
  | .alarm _ _ _ _ _ _ => true
  | .statusSilence _ _ => true
  | .capacityFallback => true
  | .cardStatus _ _ _ _ => true
  | .outputEnable _ _ => true
  | .outputDisable _ _ => true
  | .currentLimitSet _ _ _ => true
  | .marginSet _ _ _ => true
  | .imageBlock _ _ _ bytes => decide (bytes.length = 256)
  | .imageEnd _ _ _ sha => decide (sha.length = 32)
  | .imageActivate _ _ => true
  | .peuActivateRetry _ => true
  | .peuUpdatingTimeout _ => true
  | .calRead _ _ _ => true
  | .calWrite _ _ _ _ => true
  | .barrierUnknownType _ _ _ _ => true
  | .ackNak _ _ _ _ _ _ => true
  | .barrierCommandTimeout _ => true
  | .fuseTrip _ => true
  | .fuseRetry _ => true
  | .fuseHoldReset _ => true
  | .sensorSlowRound readings => readings.all (fun r => sensorOk r.id)
  | .thermalShutdown sensor => sensorOk sensor
  | .sensorBroken sensor => sensorOk sensor
  | .sensorValidAgain sensor => sensorOk sensor
  | .entryDelayExpiry block => decide (block = 1 ∨ block = 2 ∨ 16 ≤ block ∧ block < 32)
  | .powerStateExitDone => true
  | .regulatorAck _ => true
  | .regulatorTimeout _ => true
  | .oscillatorTimeout _ => true
  | .frondPresentClose _ => true
  | .frondSettled _ _ => true
  | .frondAcceptance _ => true
  | .frondPresentOpen _ => true
  | .prepareProgramCut _ => true
  | .prepareComplete _ => true
  | .cardPresentClose _ _ => true
  | .svcButtonHold _ => true
  | .peuPresentOpen _ => true
  | .peuPresentClose _ ident code => decide (ident.rev < 32 ∧ code.length = 32)
  | .rdmaAck qp psn cnt => qpOk qp && psnOk psn && cntOk cnt
  | .nakSequenceError qp psn => qpOk qp && psnOk psn
  | .nakRemoteAccessError qp => qpOk qp
  | .nakRemoteOperationalError qp => qpOk qp
  | .rdmaReadResponse qp psn _ cnt _ => qpOk qp && psnOk psn && cntOk cnt
  | .cnpReceived qp => qpOk qp
  | .rateRecover qp => qpOk qp
  | .ackTimeout qp => qpOk qp
  | .invalidRequestPacket _ qp psn _ => decide (qp < 4096) && psnOk psn
  | .arpRequest _ _ _ _ => true
  | .neighborSolicitation _ _ _ => true
  | .pfcFrame _ prio quanta => decide (prio < 8 ∧ quanta < 65536)
  | .pfcPauseEnd _ => true
  | .otherFrame _ => true
  | .bulkLinkDownExpiry _ => true
  | .smbusBlockRead offset => decide (offset < 256)
  | .setEndpointId _ => true
  | .getEndpointId => true
  | .getEndpointUuid => true
  | .getMctpVersionSupport _ => true
  | .getMessageTypeSupport => true
  | .mctpUnsupportedControl _ => true
  | .readNvmeMiDataStructure _ _ => true
  | .nvmSubsystemHealthStatusPoll _ => true
  | .controllerHealthStatusPoll => true
  | .configurationGet _ => true
  | .configurationSet _ _ => true
  | .vpdRead offset length => decide (offset < 65536 ∧ length < 65536)
  | .miAdminIdentify e => sqeOk e
  | .miAdminGetLogPage e => sqeOk e
  | .miAdminGetFeatures e => sqeOk e
  | .miUnsupportedCommand _ _ => true
  | .createIoSubmissionQueue e => sqeOk e
  | .createIoCompletionQueue e => sqeOk e
  | .deleteIoSubmissionQueue e => sqeOk e
  | .deleteIoCompletionQueue e => sqeOk e
  | .identify e => sqeOk e
  | .abort e => sqeOk e
  | .asynchronousEventRequest e => sqeOk e
  | .getFeatures e => sqeOk e
  | .getLogErrorInformation e => sqeOk e
  | .getLogSmartHealth e => sqeOk e
  | .getLogFirmwareSlot e => sqeOk e
  | .getLogStandard e => sqeOk e
  | .getLogModuleRecorder e => sqeOk e
  | .getLogFrondEvents e => sqeOk e
  | .getLogFrameStatistics e => sqeOk e
  | .getLogStripeHealth e => sqeOk e
  | .getLogBlockWear e => sqeOk e
  | .getLogMediaReadHealth e => sqeOk e
  | .getLogSeedbedStatus e => sqeOk e
  | .getLogSliceTable e => sqeOk e
  | .getLogPowerThermal e => sqeOk e
  | .getLogSheafStatus e => sqeOk e
  | .getLogBufferDramHealth e => sqeOk e
  | .getLogSecurityState e => sqeOk e
  | .getLogAttestation e => sqeOk e
  | .invalidLogPage e => sqeOk e
  | .setFeaturesArbitration e => sqeOk e
  | .setFeaturesPowerManagement e => sqeOk e
  | .setFeaturesTemperatureThreshold e => sqeOk e
  | .setFeaturesNumberOfQueues e => sqeOk e
  | .setFeaturesInterruptCoalescing e => sqeOk e
  | .setFeaturesInterruptVector e => sqeOk e
  | .setFeaturesAsyncEventConfig e => sqeOk e
  | .setFeaturesTimestamp e => sqeOk e
  | .setFeaturesVolatileWriteCache e => sqeOk e
  | .setFeaturesUnsupported e => sqeOk e
  | .setFeaturesFrameParameters e => sqeOk e
  | .setFeaturesThermalThrottlePoints e => sqeOk e
  | .setFeaturesMediaPowerBudget e => sqeOk e
  | .setFeaturesEventRateLimit e => sqeOk e
  | .setFeaturesScrubPolicy e => sqeOk e
  | .setFeaturesDramInterleaveGrain e => sqeOk e
  | .setFeaturesBulkPort e => sqeOk e
  | .setFeaturesDeadlineMissPolicy e => sqeOk e
  | .setFeaturesSeedbedPolicy e => sqeOk e
  | .namespaceCreate e => sqeOk e
  | .namespaceDelete e => sqeOk e
  | .namespaceAttach e => sqeOk e
  | .namespaceDetach e => sqeOk e
  | .firmwareImageDownload e => sqeOk e
  | .firmwareCommitReplace e => sqeOk e
  | .firmwareCommitNextStart e => sqeOk e
  | .firmwareCommitActivateSlot e => sqeOk e
  | .firmwareCommitImmediate e => sqeOk e
  | .formatNvm e => sqeOk e
  | .sanitize e => sqeOk e
  | .flush e => sqeOk e
  | .write e => sqeOk e
  | .read e => sqeOk e
  | .writeZeroes e => sqeOk e
  | .datasetManagement e => sqeOk e
  | .verify e => sqeOk e
  | .copy e => sqeOk e
  | .zoneOpen e => sqeOk e
  | .zoneClose e => sqeOk e
  | .zoneFinish e => sqeOk e
  | .zoneReset e => sqeOk e
  | .zoneOffline e => sqeOk e
  | .setZoneDescriptorExtension e => sqeOk e
  | .reportZones e => sqeOk e
  | .zoneAppend e => sqeOk e
  | .unsupportedOpcode e => sqeOk e
  | .sliceCreate e => sqeOk e
  | .sliceDelete e => sqeOk e
  | .sliceReset e => sqeOk e
  | .sliceFreeze e => sqeOk e
  | .sliceThaw e => sqeOk e
  | .sliceStateSave e => sqeOk e
  | .sliceStateRestore e => sqeOk e
  | .queueResume e => sqeOk e
  | .shareSet e => sqeOk e
  | .spikeletRuleWrite e => sqeOk e
  | .spikeletRuleRead e => sqeOk e
  | .winnowProgramLoad e => sqeOk e
  | .winnowRead e => sqeOk e
  | .zoneDigest e => sqeOk e
  | .bulkRead e => sqeOk e
  | .bulkAppend e => sqeOk e
  | .bulkEndpointSet e => sqeOk e
  | .authorizationSubmitToken e => sqeOk e
  | .issueNonce e => sqeOk e
  | .guardLevelChange e => sqeOk e
  | .eventClearFrond e => sqeOk e
  | .eventClearModule e => sqeOk e
  | .prepareRemoval e => sqeOk e
  | .cancelPrepare e => sqeOk e
  | .declareLost e => sqeOk e
  | .setRebuildRate e => sqeOk e
  | .locateLedOn e => sqeOk e
  | .locateLedOff e => sqeOk e
  | .enableCulmPorts e => sqeOk e
  | .disableCulmPorts e => sqeOk e
  | .handOverLead e => sqeOk e
  | .setShelfPowerBudget e => sqeOk e
  | .sheafPhasePlanSet e => sqeOk e
  | .peuEnableOutput e => sqeOk e
  | .peuDisableOutput e => sqeOk e
  | .peuSetCurrentLimit e => sqeOk e
  | .peuSetMargin e => sqeOk e
  | .culmLaneLoss _ => true
  | .bulkLinkDown _ => true
  | .bulkLinkUp _ => true
  | .pcieLinkUp _ => true
  | .feedReturnWithinHoldUp _ => true
  | .recorderSectorEraseDone => true

end Sys2Proof
end

