-- ==== Sys2Proof/Tests/Slice0.lean ====
section
/-! SUPPORT. Tests: a term that each check of WellFormed refuses; single steps; and for every statement that has hypotheses
one theorem witness_<statement> that shows, for each of its clauses, a state and operands at a boundary of their ranges that
meet them together. A hypothesis that rests on an opaque constant of Config alone is left out, and its docstring says so. -/
namespace Sys2Proof.Tests
open Sys2Proof Sys2Proof.Machine
set_option Elab.async false

/-- Both ports with their link, enabled and ready. -/
def up : State := { State.reset with
  c0 := { State.reset.c0 with link := true, rdy := true }, c1 := { State.reset.c1 with link := true, rdy := true } }
/-! ### Well-formedness: a term that each check refuses, at the first value beyond its range, and the last value within it. -/
/-- A header with a source beyond the sixteen positions (R306). -/
def farHdr : CulmHdr := { src := 16 }
theorem test_wf_refuses_media :
    ([.mediaRequest 0 16128, .framePlanFix 0 16128, .planLate 0 16128, .suspendPoint 4096, .segmentCheck 4096 true, .readCheck 0 4 0 true, .readCheck 4096 0 0 true,
      .readCheck 0 0 16128 true, .channelPlanOverrun 128 [], .channelCapRestore 128, .quarantineLift 4096, .senseEnd 0 4, .decodeResult 0 .hard 0 65536 0, .decodeResult 0 .hard 16 0 0,
      .streamEngineUnit .ca 24, .engineWatchdog (.quihar .ca 64), .engineWatchdog (.filnas 0 9), .foldHoldExpiry 475136 0 0, .foldHoldExpiry 0 16 0, .foldHoldExpiry 0 0 1024,
      .qlcProgramDone { die := 4096 }, .foldVerifyDone 4096 true, .accumulatorRecomputeDone 0 0, .accumulatorRecomputeDone 1 475136, .eraseDone 4096 true, .dieResetTimeout 4096,
      .channelRetrainDue 128, .channelTrainingEnd 0 [4096] 0 0, .channelTrainingEnd 0 [] 256 0, .channelTrainingEnd 0 [] 0 256, .refreshDone 0 2112, .scrubDue 0 2112,
      .readOffsetRecalibration 0 66 (List.replicate 16 0), .readOffsetRecalibration 0 0 [], .readOffsetRecalibration 0 0 (List.replicate 16 64),
      .rebuildStripeDone 0 16, .allocatorRequest 4097 0 0, .allocatorRequest 1 0 16, .gcVictimRelease 475136, .mapPageRead 1 (2 ^ 29)] : List Instr).all (fun i => !i.wf) = true := by decide +kernel
theorem test_wf_refuses_quihar :
    ([.spikeletSearch .ca 16 0 {}, .spikeletSearch .ca 0 0 { faulty := [131072] }, .spikeletUpdate .ca 131072 {}, .spikeletShadowCompare .ca 32 [], .spikeletShadowCompare .ca 0 [4096], .bufferRequest .ca .p4k 0 0,
      .bufferRequest .ca .p4k 17 0, .bufferRequest .ca .p4k 1 64, .referenceDecrement .ca 0 0 0, .referenceDecrement .ca 0 256 0, .fence .ca 256, .dramCorrectedError .ca 8,
      .dramUncorrectableError .ca 0 (2 ^ 28), .poisonRead .ca (2 ^ 31) .ownTable, .rankRetrainDue .ca 8, .rankTrainingEnd .ca true 256 0, .checkUnitCombine .ca 32 0 0,
      .checkContextLoad .ca 32 none, .cardStart .ca [72] true true, .entryDelayExpiry 0, .entryDelayExpiry 3, .entryDelayExpiry 32, .eventIntake 65536 0 0 0 0 0 0 0,
      .eventIntake 0 8 0 0 0 0 0 0, .eventIntake 0 0 256 0 0 0 0 0, .eventIntake 0 0 0 0 0 0 0 16128] : List Instr).all (fun i => !i.wf) = true := by decide +kernel
theorem test_wf_refuses_links :
    ([.culmLinkUp .u0 16 .u1 1, .culmLinkUp .u0 0 .u1 3, .rachis .u0 farHdr 0 0 0 0 0, .rachis .u0 {} 0 0 16 0 0, .delayReq .u0 farHdr 0 0, .delayRsp .u0 farHdr 0 0 0 0,
      .hello .u0 farHdr default, .census .u0 farHdr [], .census .u0 {} [{ (default : CensusEntry) with pos := 16 }], .censusExpiry 16, .handover {} 16 0, .demand farHdr 0 0 0,
      .grant {} 0 0 false [{ (default : GrantShare) with pos := 16 }], .plan {} 0 0 (List.replicate 4097 0), .planAck farHdr 0, .sheafEvent farHdr [], .eventAck farHdr {},
      .sporeOffer {} 0 0 0 0 16 (List.replicate 32 0), .sporeOffer {} 0 0 0 0 0 [], .sporeData .u0 farHdr 0 0 0 [] [], .sporeConfirm farHdr 0 0 0 0,
      .sporeResend .u0 farHdr 0 0, .relayActivate farHdr 0, .activateDone farHdr 0 0, .relayEnd farHdr 0 0, .imageBlock .a default 0 [], .imageEnd .a default 0 [],
      .sensorSlowRound [{ (default : SensorReading) with id := .peu .a 4 }], .thermalShutdown (.junction .ca 12), .sensorBroken (.dram .ca 4), .sensorValidAgain (.filnas 0 2),
      .thermalShutdown (.package 0 32), .peuPresentClose .a {} [], .peuPresentClose .a { rev := 32 } (List.replicate 32 0), .rdmaAck 8192 0 0, .rdmaAck 0 (2 ^ 24) 0, .rdmaAck 0 0 16128, .nakSequenceError 8192 0,
      .nakRemoteAccessError 8192, .nakRemoteOperationalError 8192, .rdmaReadResponse 0 (2 ^ 24) true 0 [], .cnpReceived 8192, .rateRecover 8192, .ackTimeout 8192,
      .invalidRequestPacket .ca 4096 0 0, .pfcFrame .ca 8 0, .pfcFrame .ca 0 65536, .smbusBlockRead 256, .vpdRead 65536 0] : List Instr).all (fun i => !i.wf) = true := by
  decide +kernel
theorem test_wf_refuses_entries :
    (([{ sqid := 65536 }, { cid := 65536 }, { nsid := 2 ^ 32 }, { cnt := 16128 }, { data := [0], dlen := 0 }] : List Sqe).all fun e =>
      !(Instr.commandFetch e).wf && !(Instr.read e).wf && !(Instr.identify e).wf && !(Instr.miAdminIdentify e).wf) = true ∧
    ([.sqTailDoorbell .h0 65536 0 0, .sqTailDoorbell .h0 0 65536 0, .sqTailDoorbell .h0 0 0 16128, .cqHeadDoorbell .h0 65536 0] : List Instr).all (fun i => !i.wf) = true := by
  decide +kernel
theorem test_wf_accepts :
    ([.mediaRequest 0 16127, .readCheck 4095 3 16127 true, .foldHoldExpiry 475135 15 1023, .readOffsetRecalibration 4095 65 (List.replicate 16 (-64)), .mapPageRead 4096 (2 ^ 29 - 1),
      .bufferRequest .ca .p4k 16 63, .referenceDecrement .ca 0 255 63, .entryDelayExpiry 1, .entryDelayExpiry 31, .culmLinkUp .u0 15 .u1 2, .rdmaAck 8191 (2 ^ 24 - 1) 0,
      .read { sqid := 65535, cid := 65535, nsid := 2 ^ 32 - 1, cnt := 16127, data := [0], dlen := 1 }, .frameTick] : List Instr).all (fun i => i.wf) = true := by decide +kernel
/-- The table gives no row any bits. -/
theorem test_no_word_spells_a_command : decodeTableWord 32 0xFFFFFFFF = none ∧ State.reset.withFetchWord 32 0 = State.reset := ⟨rfl, rfl⟩
/-! ### One step. -/
theorem test_first_command_runs_first : (match step { State.reset with pending := [.regulatorAck default, .frameTick] } with | .next t => t.pending == [.frameTick] | _ => false) = true := by
  decide +kernel
/-- CSTS.NSSRO (R14): a host write of 1 in the module's cycle leaves it set. -/
theorem test_set_bit_outlives_clear : (match exec (.registerWrite .h0 .csts 16 16) up with | .next t => t.c0.nssro | _ => false) = true := by decide +kernel
/-! ### Time, the queue, admin commands. -/
theorem witness_StepRunsFrontCommand : ∃ s : State, s.pending = .frameTick :: [.frameTick] := ⟨{ State.reset with pending := [.frameTick, .frameTick] }, rfl⟩
theorem witness_StepIdlesOnEmptyQueue : State.reset.pending = [] := rfl
theorem witness_QueueIsFirstInFirstOut : ∃ s : State, s.pending = .frameTick :: [] := ⟨{ State.reset with pending := [.frameTick] }, rfl⟩
theorem witness_TimeNeverGoesBack : heldEp State.reset < 2 ^ 32 - 1 := by decide
theorem witness_admits : up.admits {} = true ∧ up.admits { port := .h1, cid := 65535 } = true := by decide
theorem witness_GetLogAnswersRequestedWindow :
    ([0x01, 0x02, 0x03].all fun n =>
      let e := asLog n { dlen := 4096, cdw10 := 31 <<< 16 }
      match logPage (atCount 0 up) e (logBytes e) with | .ok d => decide (n = 0xC0 ∨ logOffset e < d.length) && decide (logBytes e ≤ 4096) | _ => false) = true := by
  decide +kernel
theorem witness_StandardLogPagesAnswer :
    ([0x04, 0x05, 0x0C, 0x81, 0xBF].all fun n =>
      let e : Sqe := { dlen := 4, cdw10 := BitVec.ofNat 32 n }
      match logPage (atCount 0 up) (asAdmin 0x02 e) (logBytes e) with | .ok d => decide (d10 e 7 0 = n ∧ logOffset e < d.length ∧ logBytes e ≤ 4) | _ => false) = true := by
  decide +kernel
theorem witness_IdentifyAndGetFeaturesAnswer :
    (match identifyData (atCount 0 up) (asAdmin 0x06 { dlen := 4096, cdw10 := 1 }) with | .ok _ => true | _ => false) = true ∧
    (∀ fid ∈ featureIds, ∀ current ∈ [true, false], (featureValue (atCount 0 up) { cdw10 := BitVec.ofNat 32 fid, dlen := 4096 } current).isSome = true) ∧
    (∃ fid ∈ featureIds, saveable fid = false) := by decide +kernel
theorem witness_UnsupportedRowsFailWithTheirStatus :
    d10 { cdw10 := 0x7F } 7 0 ∉ logPages ∧ (0xFF : Byte).toNat ∉ adminOpcodes ∧ bit (asFeature 0x06 {}).cdw10.toNat 31 = false ∧
    fidOf { cdw10 := 0x55 } ∉ featureIds ∧ fidOf { cdw10 := 0x55 } ≠ 6 := by decide +kernel
theorem witness_StandardFeaturesTakeEffect :
    (∀ f ∈ [0x01, 0x02, 0x04, 0x07, 0x08, 0x09, 0x0B, 0x0E], bit (asFeature f {}).cdw10.toNat 31 = false) ∧ d11 { cdw11 := 2047 } 15 0 < 2048 ∧
    up.sqs = [] ∧ up.cqs = [] ∧ d11 { cdw11 := 65534 } 15 0 < 65535 ∧ d11 { cdw11 := 15 <<< 16 } 19 16 = 15 ∧ d11 { cdw11 := 1 <<< 20 } 21 20 ≤ 1 ∧
    d11 {} 7 5 = 0 ∧ up.power.psNext = none ∧ d11 {} 4 0 = up.power.ps ∧ d11 { cdw11 := 2 } 4 0 ≠ up.power.ps ∧ d11 { cdw11 := 2 } 4 0 ≤ 2 ∧
    d11 {} 15 10 = 0 ∧ d11 {} 31 17 = 0 ∧ (sliceAt up (d11 {} 9 0)).st ≠ 0 := by decide +kernel
/-- The least values of the ranges of R56, R82, R278, R130, R423, R418, R386 and R242. -/
theorem witness_VendorFeaturesApplyNextFrame :
    (let d := fitTo 32 (zeros 12 ++ [2, 0] ++ le 2 1000 ++ le 4 4000)
     inRange 2 8 (fld d 12 1) && inRange 1000 16000 (fld d 14 2) && inRange 4000 400000 (fld d 16 4) && allZero (d.drop 20)) = true ∧
    (let d := fitTo 64 ([30, 1, 1, 0, 5, 5] ++ le 2 1 ++ (List.range 16).flatMap fun _ => le 2 24)
     inRange 30 90 (fld d 0 1) && inRange 1 7 (fld d 1 1) && inRange 1 256 (fld d 2 2) && inRange 5 40 (fld d 4 1) && inRange 5 40 (fld d 5 1)
       && inRange 1 168 (fld d 6 2) && (((List.range 16).map fun i => fld d (8 + 2 * i) 2).all (inRange 24 2160)) && allZero (d.drop 40)) = true ∧
    (let d := fitTo 32 [8, 0, 2, 0, 6, 5, 1, 0]
     inRange 8 16 (fld d 0 1) && inRange 2 16 (fld d 2 1) && inRange 6 12 (fld d 4 1) && inRange 5 20 (fld d 5 1) && inRange 1 168 (fld d 6 2)
       && allZero (d.drop 8)) = true ∧
    (let d := fitTo 32 ([50, 51] ++ le 2 400 ++ [0, 5])
     inRange 50 97 (fld d 0 1) && inRange (fld d 0 1 + 1) 99 (fld d 1 1) && inRange 400 40000 (fld d 2 2) && decide (fld d 4 1 ≤ 4)
       && inRange 5 50 (fld d 5 1) && fld d 6 2 == 0 && allZero (d.drop 24)) = true ∧
    (let d := fitTo 32 [55, 0, 85, 0, 85, 0, 70, 0, 0, 0, 1]
     inRange 55 70 (fld d 0 1) && inRange 85 100 (fld d 2 1) && inRange 85 100 (fld d 4 1) && inRange 70 85 (fld d 6 1) && inRange 1 10 (fld d 10 1)
       && allZero (d.drop 11)) = true ∧
    (let d := fitTo 32 [20]; inRange 20 100 (fld d 0 1) && allZero (d.drop 5)) = true ∧
    (let d := fitTo 64 ([1, 1] ++ le 2 400); inRange 1 255 (fld d 0 1) && inRange 1 (fld d 0 1) (fld d 1 1) && inRange 400 40000 (fld d 2 2) && allZero (d.drop 4)) = true ∧
    (let d := fitTo 64 (zeros 35 ++ [1, 1, 1, 1])
     !bit (fld d 6 2) 15 && inRange 1 128 (fld d 35 1) && inRange 1 255 (fld d 36 1) && inRange 1 200 (fld d 37 1) && inRange 1 64 (fld d 38 1)
       && fld d 30 2 == 0 && decide (fld d 32 1 < 16 ∧ fld d 33 1 < 64 ∧ fld d 34 1 < 64 ∧ fld d 39 1 < 8 ∧ fld d 40 1 < 2) && allZero (slice' d 41 7)) = true ∧
    d11 { cdw11 := 1 } 31 1 = 0 := by decide +kernel
/-! ### Queues, namespaces, slices, host tables, security. -/
/-- A module with one namespace of number 1. -/
def withNs (n : Ns) : State := { up with nss := [(1, n)] }
/-- A module with a slice 5 beside slice 0. -/
def withSlice (x : Slice) : State := { up with slices := up.slices ++ [(5, x)] }
theorem witness_QueueCommandsCreateAndDelete :
    sliceOn up .h0 0 = true ∧ d10 { cdw10 := 0x00010001 } 15 0 ≤ (ctrlAt up .h0).ncq ∧ d10 { cdw10 := 0x00010001 } 15 0 ≤ (ctrlAt up .h0).nsq ∧
    (cqAt up (qKey .h0 1)).used = false ∧ (sqAt up (qKey .h0 1)).used = false ∧ 0 < (sliceAt up 0).qpairs ∧ 1 ≤ d10 { cdw10 := 0x00010001 } 31 16 ∧
    d10 { cdw10 := 0x0FFF0001 } 31 16 = 4095 ∧ d11 { cdw11 := 0x07FF0000 } 31 16 < 2048 ∧
    (let s := { up with cqs := [(qKey .h0 1, { used := true })], sqs := [(qKey .h0 1, { used := true, cqid := 2 })] }
     (cqAt s (qKey .h0 1)).used = true ∧ (cqAt s (qKey .h0 1)).slice = 0 ∧ (sqAt s (qKey .h0 1)).used = true ∧ s.cmds = [] ∧
       (s.sqs.any fun q => q.2.used && q.1 / 65536 == portNo .h0 && q.2.cqid == 1) = false) ∧
    (ctrlAt (updCtrl .h0 (fun c => { c with aers := [7] }) up) .h0).aers.contains (d10 { cdw10 := 0x00070000 } 31 16) = true ∧
    (ctrlAt up .h0).aers.length < 8 ∧ pget up.events.aenQ (cardOf .h0) = [] := by decide +kernel
theorem witness_NamespaceCommandsTakeEffect :
    (let d := fitTo 4096 (le 8 1048576 ++ le 8 1048576)
     fld d 3072 1 = 0 ∧ fld d 8 8 = fld d 0 8 ∧ 1 ≤ fld d 0 8 ∧ formatOk (bits (fld d 26 1) 3 0) (bits (fld d 26 1) 4 4) (bits (fld d 29 1) 2 0) = true ∧
       fld d 92 4 ≤ 2 ∧ d11 { cdw11 := 0x02000000 } 31 24 = 2 ∧ fld d 0 8 % 1048576 = 0 ∧ fld d 0 8 ≤ 2 ^ 33 ∧
       reservation .s14 (fld d 0 8) ≤ freeSlots up ∧ activeCount up + 2 ≤ 16384) ∧ (freeNsid up).isSome = true ∧
    liveNs (withNs { used := true }) 1 = true ∧ ctrlsOf (fitTo 4096 [2, 0, 1, 0, 2, 0]) = some [.h0, .h1] ∧ (sliceAt up 0).st = 1 ∧
    (∀ f < 16, stockDemand { up with nss := [(1, { used := true, zoned := true, profile := .s14, nsze := 1048576 })] } ≤ memberStock up f) ∧
    (sliceAt (withSlice { st := 3 }) 5).st = 3 ∧ (nsAt (withNs { used := true }) 1).slice = none ∧ (withNs { used := true }).admits { nsid := 1 } = true ∧
    (∀ p ∈ [Port.h0, .h1], pget (nsAt (withNs { used := true }) 1).att (cardOf p) = false ∧
      pget (nsAt (withNs { used := true, att := ⟨true, true⟩ }) 1).att (cardOf p) = true) ∧ (withNs {}).cmds = [] := by decide +kernel
theorem witness_SliceBindingCommandsTakeEffect :
    rsvdOk 0x7FF 0xFFFF 0xFFFFF 0 0 0 { cdw10 := 5, cdw11 := 256, cdw12 := 0xFFFFF } = true ∧ d11 { cdw11 := 256 } 15 0 = 256 ∧ (sliceAt up 5).st = 0 ∧
    pasidTaken up .h0 5 0xFFFFF = false ∧
    (let d := fitTo 256 ([0, 0, 0, 0, 1, 1, 1, 0] ++ zeros 56 ++ [64])
     1 ≤ fld d 64 1 ∧ fld d 64 1 ≤ 64 ∧ fld d 65 1 ≤ 1 ∧ allZero (d.drop 66) = true ∧
       (match shareFrom d with | some x => sumsNow up .h0 5 x x && decide (rulesHeld up 0 ≤ x.quota) && sumsHold up .h0 0 x && sumsHold up .h1 0 x | none => false) = true) := by
  decide +kernel
theorem witness_SliceStateCommandsTakeEffect :
    (let s := withSlice { st := 1 }
     s.admits { cdw10 := 5 } = true ∧ rsvdOk 0x3FF 0 0 0 0 0 { cdw10 := 5 } = true ∧ (sliceAt s (d10 { cdw10 := 5 } 9 0)).st = 1 ∧ s.cmds = [] ∧ quiet s 5 = true ∧
       (∀ n ∈ s.nss, n.2.deleting = none) ∧ (∀ x ∈ s.slices, x.2.waiter = none) ∧ rsvdOk 0x103FF 0 0 0 0 0 (with10 16 16 0 { cdw10 := 5 }) = true) ∧
    (let s := withSlice { st := 2 }
     (sliceAt s 5).st = 2 ∧ (sliceAt s 5).waiter = none ∧ rsvdOk 0x103FF 0 0 0 0 0 (with10 16 16 1 { cdw10 := 5 }) = true ∧ quiet s 5 = true ∧
       rsvdOk 0x3FF 0xFFFF 0 0 0 0 { cdw10 := 5, cdw11 := 1 } = true) ∧
    (let s := { up with sqs := [(qKey .h0 1, { used := true, frozen := true })] }
     s.admits { cdw10 := 1 } = true ∧ rsvdOk 0xFFFF 0 0 0 0 0 { cdw10 := 1 } = true ∧ (sqAt s (qKey .h0 1)).used = true ∧
       (sliceAt s (sqAt s (qKey .h0 1)).slice).st = 1 ∧ (sqAt s (qKey .h0 1)).frozen = true) := by decide +kernel
/-- A winnow program of one state and one class, with its SHA-256 (R233): 64 bytes of header, then zeros. -/
def progHead : List Byte := le 2 1 ++ le 2 1 ++ le 4 1 ++ [1, 0, 0, 0] ++ le 2 1 ++ le 2 0 ++ le 4 354 ++ zeros 12
def progFront : List Byte := progHead ++ Config.sha256 (zeros 290)
def prog : List Byte := progFront ++ zeros 4032
theorem sha_length (l : List Byte) : (Config.sha256 l).length = 32 := by simp [Config.sha256, Config.octets]
theorem prog_front : progFront.length = 64 := by rw [progFront, List.length_append, sha_length]; rfl
theorem ofLe_zero (l : List Byte) (h : ∀ b ∈ l, b = 0) : ofLe l = 0 := by
  induction l with
  | nil => rfl
  | cons b l ih => simp [ofLe, h b (by simp), ih fun c hc => h c (by simp [hc])]
theorem prog_drop (off : Nat) (h : 64 ≤ off) : prog.drop off = List.replicate (4032 - (off - 64)) 0 := by
  rw [prog, List.drop_append, List.drop_eq_nil_of_le (prog_front.trans_le h), List.nil_append, prog_front, zeros, List.drop_replicate]
theorem prog_tail (off n : Nat) (h : 64 ≤ off) : fld prog off n = 0 := by
  refine ofLe_zero _ fun b hb => ?_
  rw [slice', prog_drop off h, List.take_replicate, List.mem_append, List.mem_replicate, List.mem_replicate] at hb
  exact hb.elim And.right And.right
theorem prog_sha : slice' prog 32 32 = Config.sha256 (slice' prog 64 290) := by
  have h : slice' prog 64 290 = zeros 290 := by
    rw [slice', prog_drop 64 (le_refl _), List.take_replicate, List.length_replicate, Nat.min_eq_left (by decide), Nat.sub_self, List.replicate_zero,
      List.append_nil, zeros]
  have hl : progHead.length = 32 := rfl
  have hd : (prog.drop 32).take 32 = Config.sha256 (zeros 290) := by
    rw [prog, List.drop_append_of_le_length (by rw [prog_front]; decide), List.take_append_of_le_length, progFront, List.drop_append, List.drop_eq_nil_of_le hl.le,
      List.nil_append, hl, Nat.sub_self, List.drop_zero, List.take_of_length_le (sha_length _).le]
    rw [List.length_drop, prog_front]
  rw [h, slice', hd, sha_length]
  exact List.append_nil _
theorem firstIdx_none (f : Nat → Bool) (n : Nat) (h : ∀ i, f i = false) : firstIdx f n = none := by
  simp [firstIdx, List.find?_eq_none, h]
theorem prog_ok : wpDefect prog 1 = none := by
  have h : fld prog 0 2 = 1 ∧ wpPatterns prog = 1 ∧ wpStates prog = 1 ∧ fld prog 8 1 = 1 ∧ fld prog 10 2 = 0 ∧ wpClasses prog = 1 ∧ fld prog 14 2 = 0 ∧
      fld prog 16 4 = 354 ∧ fld prog 20 4 = 0 ∧ fld prog 24 8 = 0 ∧ wpBytes prog = 354 := by decide +kernel
  obtain ⟨h0, h1, h2, h3, h4, h5, h6, h7, h8, h9, h10⟩ := h
  have t1 : ∀ i, fld prog (320 + i * 2) 2 = 0 := fun i => prog_tail _ _ (by omega)
  have t2 : ∀ i, fld prog (322 + i * 32) 32 = 0 := fun i => prog_tail _ _ (by omega)
  have t3 : ∀ i, fld prog (354 + i) 1 = 0 := fun i => prog_tail _ _ (by omega)
  have t4 : firstIdx (fun i => decide (2 ^ (1 - 8 * (i % 32)) ≤ fld prog (322 + i) 1)) 32 = none :=
    firstIdx_none _ _ fun i => by rw [prog_tail _ _ (by omega)]; simp
  simp [wpDefect, t1, t2, t3, t4, h0, h1, h2, h3, h4, h5, h6, h7, h8, h9, h10, prog_sha, cdiv, firstIdx_none, prog_tail]
theorem witness_HostTablesAreLoaded :
    rsvdOk 0xFFFF 0xFFFF 0 0 0 0 { cdw10 := 1 } = true ∧
    (let x : List Byte := fitTo 64 [0, 0, 1, 0, 1]
     (sliceAt up (bits (fld x 0 2) 9 0)).st ≠ 0 ∧ ruleRange x = true ∧ ruleRsvd x = true ∧ (∀ r, tfind up.rules 0 = some r → r.slice = 0) ∧
       entriesHeld ((writeRules 0 [x] up.rules).filter fun r => r.2.slice == 0) ≤ (sliceAt up 0).share.quota ∧
       entriesHeld (writeRules 0 [x] up.rules) ≤ ruleCapacity up up.feat.holeLog) ∧
    rsvdOk 0xFF 0xFFFF 0x3FF 0 0 0 { cdw10 := 15, cdw11 := 1 } = true ∧ wpRsvd prog = true ∧ programStore up 0 15 + 4096 ≤ 2147483648 ∧
    (let j : Job := { key := 3, e := { opc := 0xF1, cdw11 := 1, data := [] } }
     let s : State := { up with jobs := [j], metas := { work := [(9, { of := .program 3 0 })] } }
     j.begun = true ∧ (sliceAt s (d12 j.e 9 0)).st ≠ 0 ∧ (∀ w ∈ s.metas.work, isProgram j.key w.2.of = true → w.2.copies = [] ∧ w.2.reads = 0)) ∧
    descRsvd (zeros 64) = true ∧ descsOk 0 [descFrom (zeros 64)] up.qps = true := by
  refine ⟨by decide +kernel, ⟨by decide +kernel, by decide +kernel, by decide +kernel, ?_, by decide +kernel, by decide +kernel⟩, ?_⟩
  · intro r h; cases h
  · decide +kernel
/-- A state image of slice 5 of 64 bytes whose tag is right (R212). -/
def imageHead : List Byte := le 2 1 ++ le 2 5 ++ le 4 16 ++ zeros 24
def sliceTag : List Byte := imageTag up imageHead
def imageData : List Byte := imageHead ++ sliceTag
theorem sliceTag_length : sliceTag.length = 32 := by
  simp [sliceTag, imageTag, fitTo, slice', Config.hmac, Config.octets]
theorem imageData_tag : slice' (fitTo 64 imageData) 32 32 = imageTag up (fitTo 64 imageData) := by
  have hl : imageHead.length = 32 := rfl
  have hf : fitTo 64 imageData = imageData := by
    have h : imageData.length = 64 := by rw [imageData, List.length_append, sliceTag_length, hl]
    rw [fitTo, slice', List.drop_zero, List.take_of_length_le h.le, h, Nat.sub_self, List.replicate_zero, List.append_nil]
  have ht : imageTag up imageData = sliceTag := by
    have h0 : imageData.take 32 ++ imageData.drop 64 = imageHead.take 32 ++ imageHead.drop 64 := by
      rw [imageData, List.take_append_of_le_length hl.ge, List.drop_append, List.drop_eq_nil_of_le (by rw [hl]; decide), List.nil_append,
        List.drop_eq_nil_of_le (by rw [sliceTag_length, hl])]
    rw [sliceTag, imageTag, imageTag, h0]
  rw [hf, ht, slice', imageData, List.drop_append, List.drop_eq_nil_of_le hl.le, List.nil_append, hl, Nat.sub_self, List.drop_zero,
    List.take_of_length_le sliceTag_length.le, sliceTag_length]
  exact List.append_nil _
/-- The remaining conditions of State Restore, with that image. -/
theorem witness_SliceStateRestore :
    (let s := withSlice { st := 2, saveFresh := true }
     let e : Sqe := { cdw10 := 5, cdw11 := 16, dlen := 64, data := imageData }
     s.admits e = true ∧ rsvdOk 0x3FF 0xFFFF 0xFFFFF 0 0 0 e = true ∧ quiet s 5 = true ∧ fld (fitTo 64 e.data) 4 4 * 4 = 64 ∧ fld (fitTo 64 e.data) 2 2 = 5 ∧
       fld (fitTo 64 e.data) 8 4 = (sliceAt s 5).saveSeq ∧ (sliceAt s 5).saveFresh = true ∧ pasidTaken s .h0 5 (d12 e 19 0) = false ∧
       sumsNow s .h0 5 (sliceAt s 5).share (shareOf (sliceAt s 5)) = true ∧ fld (fitTo 64 e.data) 14 1 = 0 ∧ s.sec.mrkGen = up.sec.mrkGen) := by decide +kernel
/-- What Authorization Submit Token asks of its signature rests on HSS (assumption 6) and has no witness. -/
theorem witness_SecurityCommandsTakeEffect :
    rsvdOk 3 0xFFFF 0 0 0 0 (with10 1 0 1 {}) = true ∧ calm up = true ∧ d10 { cdw10 := 4 } 2 0 = 4 ∧ up.admits { cdw10 := 4 } = true ∧
    (let k : Token := { handle := 9, type := 1, body := [1, 2] }
     let s := updSec (fun x => { x with tokens := [k], keys := [(0, {})] }) up
     let e : Sqe := { cdw10 := 2, cdw11 := 9 }
     s.admits e = true ∧ rsvdOk 3 0xFFFF 0 0 0 0 e = true ∧ calm s = true ∧ heldToken s (d11 e 15 0) 1 = some k ∧ fld k.body 1 1 = 2 ∧ fld k.body 0 1 = 1 ∧
       s.sec.level = 1 ∧ s.sec.keys ≠ []) ∧
    (let s := withNs { used := true }
     s.admits { nsid := 1 } = true ∧ liveNs s 1 = true ∧ d10 {} 11 9 ≤ 2 ∧ formatOk (d10 {} 3 0) (d10 {} 4 4) (d10 {} 7 5) = true) ∧
    (∀ scope ∈ [0, 1],
      let k : Token := { handle := 9, type := 3, body := [BitVec.ofNat 8 scope, if scope = 0 then 15 else 0] }
      let s := updSec (fun x => { x with tokens := [k] }) up
      let e : Sqe := { cdw10 := if scope = 0 then 15 else 0, cdw11 := 9 }
      s.canonical = true ∧ s.admits e = true ∧ rsvdOk 0x10F 0xFFFF 0 0 0 0 (with10 8 8 scope e) = true ∧ s.pair.ca.copying = false ∧ s.pair.cb.copying = false ∧
        frondAbsent s 15 = false ∧ heldToken s (d11 e 15 0) 3 = some k ∧ fld k.body 0 1 = scope ∧ fld k.body 1 1 = d10 (with10 8 8 scope e) 3 0) := by decide +kernel
/-- The state n frames on. -/
def later (n : Nat) (s : State) : State := { s with time := { s.time with start := n * 16000 } }
/-! ### Control commands, cards, controllers, registers and the fetch. -/
/-- Frond Service, Sheaf, phase plan and PEU commands: the conditions of each row of ControlCommandsTakeEffect. -/
theorem witness_ControlCommandsTakeEffect :
    rsvdOk 0x10F0F 0xF 0 0 0 0 (withAction 0xE0 0 {}) = true ∧ frondNamed (withAction 0xE0 0 {}) = 0 ∧ (frondAt up 0).prepared = 0 ∧ (frondAt up 0).present = true ∧
    frondServes (frondAt up 0) = true ∧ (absenceCost up 0).1 = 0 ∧
    (let s := updFrond 0 (fun g => { g with prepared := 1, serial := [1] }) up
     s.canonical = true ∧ s.admits {} = true ∧ rsvdOk 0x10F0F 0xF 0 0 0 0 (withAction 0xE0 1 {}) = true ∧ (frondAt s 0).prepared = 1 ∧ (frondAt s 0).present = true ∧
       (frondAt s 0).serial ≠ [] ∧ s.cws = []) ∧
    (let s := updFrond 0 (fun g => { g with state := 3, hasRecord := true }) up
     s.canonical = true ∧ s.admits {} = true ∧ rsvdOk 0x10F0F 0xF 0 0 0 0 (withAction 0xE0 2 {}) = true ∧ frondServes (frondAt s 0) = false ∧ (frondAt s 0).state ≠ 7 ∧
       (frondAt s 0).hasRecord = true ∧ (frondAt s 0).ident = none ∧ s.stripes = [] ∧ s.pieces = [] ∧ s.cmds = []) ∧
    (∀ r ∈ [1, 10], let e : Sqe := { cdw11 := BitVec.ofNat 32 r }; rsvdOk 0x10F0F 0xF 0 0 0 0 (withAction 0xE0 3 e) = true ∧ d11 e 3 0 = r) ∧
    (∀ a ∈ [4, 5], rsvdOk 0x10F0F 0xF 0 0 0 0 (withAction 0xE0 a { cdw10 := 15 }) = true) ∧
    (∀ a ∈ [0, 1, 2], rsvdOk 0xF 0xFFFF 0 0 0 0 (withSheaf a {}) = true) ∧ up.sheaf.st ≠ 3 ∧ up.sheaf.st ≠ 4 ∧ up.sheaf.st ≠ 2 ∧
    (let s : State := { up with sheaf := { up.sheaf with st := 2, members := [(up.sheaf.pos, {}), (9, { st := 1, eligible := true })] } }
     s.admits {} = true ∧ (successor s).isSome = true ∧ s.sheaf.hand = none ∧ s.sheaf.st = 2 ∧ s.sheaf.planCmd = none) ∧
    (∀ b ∈ [320, 5120], let e : Sqe := { cdw11 := BitVec.ofNat 32 b }; rsvdOk 0xF 0xFFFF 0 0 0 0 (withSheaf 3 e) = true ∧ d11 e 15 0 = b) ∧
    (∀ n ∈ [128, 4096], let e : Sqe := { cdw10 := BitVec.ofNat 32 n, dlen := n }; rsvdOk 0xFFFF 0 0 0 0 0 e = true ∧ d10 e 15 0 = n ∧ n % 64 = 0) ∧
    planOk (fitTo 128 [1, 0, 0, 1]) 128 = true ∧
    (∀ a ∈ [0, 1, 2, 3], rsvdOk 0xF01 0xFFFF 0 0 0 0 (withAction 0xEC a { cdw11 := 40 }) = true) ∧
    (let s := updPeu .b (fun x => { x with status := { x.status with state := 2 }, atA := some (now up) })
        (updPeu .a (fun x => { x with status := { x.status with state := 2 }, atA := some (now up) }) up)
     s.admits {} = true ∧ (peuAt s .a).present = true ∧ (peuAt s .a).keltan = true ∧ s.power.peuA.upd < 2 ∧ s.power.peuB.upd < 2 ∧ (peuAt s .a).status.state ≠ 7 ∧
       statusCurrent s (peuAt s .b) = true ∧ (peuAt s .b).status.state = 2) ∧
    (∀ v ∈ [0xFFCE, 0x32], -50 ≤ marginOf { cdw11 := BitVec.ofNat 32 v } ∧ marginOf { cdw11 := BitVec.ofNat 32 v } ≤ 50) := by decide +kernel
theorem witness_RestartsOpenANewEpoch :
    ({ up with time := { up.time with bus := false } } : State).time.bus = false ∧ up.time.bus = true ∧ up.time.resetHeld = false ∧ (ctrlAt up .h0).link = true ∧
    ({ up with time := { up.time with resetHeld := true } } : State).time.resetHeld = true ∧
    (let s : State := { up with pair := { up.pair with
        ca := { up.pair.ca with serving := false, entering := 2, present := true, mrk := some up.sec.mrkGen }, cb := { up.pair.cb with serving := false } } }
     anyServe s = false ∧ (cardAt s .ca).present = true ∧ (cardAt s .ca).entering = 2 ∧ (cardAt s .ca).mrk = some s.sec.mrkGen ∧
       max 0 (max s.jA.rootOwn s.jB.rootOwn) ≤ (cardAt s .ca).ownEpoch) := by decide +kernel
theorem witness_CardsStartAndNamespacesBecomeReady :
    (let cut : State := { up with pair := { up.pair with ca := { up.pair.ca with serving := false, entering := 1 } } }
     let s : State := { cut with pair := { cut.pair with cb := { cut.pair.cb with serving := false } } }
     (startSlot (cardAt s .ca) true true).isSome = true ∧ unfit (selfTest .ca [3, 66] s) .ca = false ∧
       (cardAt s .cb).serving = false ∧ (cardAt s .ca).serving = false ∧ (cardAt s .ca).entering = 1 ∧ (cardAt cut .cb).serving = true ∧
       (slotOf (cardAt cut .ca) ((startSlot (cardAt cut .ca) true true).getD (0, false, false)).1).sha = (activeSlot (cardAt cut .cb)).sha ∧
       unfit (selfTest .ca [3, 71] cut) .ca = false) ∧
    (let s : State := { up with pair := { up.pair with ca := { up.pair.ca with activating := 3 } } }
     (cardAt s .ca).serving = true ∧ unfit (selfTest .ca [3, 66] s) .ca = false) ∧
    (let s := withNs { used := true, ready := false }
     s.canonical = true ∧ ownerOf s .g1 = .ca ∧ (cardAt s .ca).serving = true ∧ accumsBack s 1 = true ∧ (s.nss.any fun n => n.2.used && !n.2.ready && n.2.group == .g1) = true) := by
  decide +kernel
theorem witness_ControllerResetsClearTheController :
    (ctrlAt up .h0).rdy = true ∧ (ctrlAt up .h0).link = true ∧ up.cmds = [] ∧ (∀ n ∈ up.nss, n.2.deleting = none) ∧ ∀ x ∈ up.slices, x.2.waiter = none := by decide +kernel
theorem witness_SetBitOutlivesAWriteOfOne :
    (ctrlAt up .h0).link = true ∧ (16 : BitVec 64).getLsbD 4 = true := by decide
theorem witness_PortRegistersAndDoorbells :
    (∀ p ∈ [Port.h0, .h1], (ctrlAt up p).link = true ∧ (ctrlAt up p).rdy = true ∧ (ctrlAt up p).shst = 0 ∧ (cardAt up (cardOf p)).serving = true) ∧
    (1 : BitVec 64).getLsbD 0 = true ∧ up.power.entry = none ∧ up.power.ps < 3 ∧
    (let s : State := { up with sqs := [(qKey .h1 1, { used := true, size := 4095 })], cqs := [(qKey .h1 1, { used := true, size := 4095 })] }
     (sqAt s (qKey .h1 1)).used = true ∧ 4095 ≤ (sqAt s (qKey .h1 1)).size ∧ (cqAt s (qKey .h1 1)).used = true ∧ 4095 ≤ (cqAt s (qKey .h1 1)).size) ∧
    adminOwed up .h1 = false ∧ adminOwed { up with heldAdmin := [{ port := .h1 }] } .h1 = true ∧
    (let s := updCtrl .h1 (fun c => { c with shst := 1 }) { up with cmds := [(9, { e := { port := .h1, sqid := 1 } })] }
     (ctrlAt s .h1).shst = 1 ∧ (∃ c ∈ s.cmds, c.2.e.port = .h1 ∧ c.2.e.sqid ≠ 0) ∧ ∀ c ∈ ({ s with cmds := [] } : State).cmds, c.2.e.port = .h1 → c.2.e.sqid = 0) := by decide +kernel
theorem witness_FetchTakesTheHeadEntry :
    (let s : State := { up with sqs := [(qKey .h1 1, { used := true, size := 1, head := 1, tail := 0 })] }
     s.canonical = true ∧ ioFetch s .h1 = true ∧ (sqAt s (qKey .h1 1)).used = true ∧ (sqAt s (qKey .h1 1)).frozen = false ∧
       (sqAt s (qKey .h1 1)).head ≠ (sqAt s (qKey .h1 1)).tail ∧ (sqAt s (qKey .h1 1)).slice = 0 ∧ draining s .cb 1 = false) := by decide +kernel
/-! ### PEUs, fuses, sensors and power states. -/
/-- Two PEUs that deliver. -/
def fed : State := updPeu .a (fun x => { x with present := true, keltan := true, st := 2, feed := true, inSwitch := true, outOn := true })
  (updPeu .b (fun x => { x with present := true, keltan := true, st := 2, feed := true, inSwitch := true, outOn := true }) up)
theorem witness_PeuFaultsTakeTheOutputOrHoldUp : (peuAt fed .a).present = true ∧ delivers (peuAt fed .b) = true := by decide +kernel
theorem witness_PeuRestartsAndHoldUp :
    (∀ st ∈ [0, 1, 3, 5], (let s := updPeu .a (fun x => { x with st := st, holdUp := false }) fed
       (peuAt s .a).st = st ∧ (peuAt s .a).present = true ∧ (peuAt s .a).keltan = true ∧ (peuAt s .a).faults.getLsbD 2 = false ∧ (peuAt s .a).feed = true)) ∧
    (let s := updPeu .a (fun x => { x with st := 5, feed := false, faults := 64 }) fed
     (peuAt s .a).st = 5 ∧ (peuAt s .a).present = true ∧ (peuAt s .a).feed = false) ∧
    (peuAt (updPeu .a (fun x => { x with st := 3, faults := 4 }) fed) .a).faults.getLsbD 2 = true ∧
    (let s := updPeu .a (fun x => { x with st := 4, offAt := 0 }) (later 400 fed)
     elapsed s (peuAt s .a).offAt 400 = true) ∧
    (let s := updPeu .a (fun x => { x with st := 3, holdUp := true }) fed
     (peuAt s .a).holdUp = true ∧ s.power.feedLost = false ∧ delivers (peuAt s .b) = true ∧
       delivers (peuAt (updPeu .b (fun x => { x with st := 6, outOn := false, holdUp := false }) s) .b) = false ∧ s.time.bus = true ∧ (peuAt s .a).st ≠ 2) := by decide +kernel
theorem witness_CardsFollowPeuStatus :
    (cardAt fed .ca).serving = true ∧ cardRx (peuAt fed .a) .ca ≠ some 1 ∧ (peuAt fed .a).upd ≠ 3 ∧ (2 : BitVec 16).getLsbD 1 = true ∧
    (peuAt fed .a).status.faults.getLsbD 1 = false ∧ (let s := updPeu .b (fun x => { x with status := { x.status with state := 3 } }) fed
     ((peuAt s .b).present && (peuAt s .b).status.state == 2) = false) ∧
    (let s := updPeu .a (fun x => { x with atA := some 0, atB := some 0 }) (later 16 fed)
     (peuAt s .a).downA = false ∧ (peuAt s .a).downB = false ∧ (cardAt s .cb).serving = true ∧ elapsed s 0 16 = true) ∧
    (let s : State := { (later 400 up) with power := { up.power with staleSince := some 0 } }
     someCurrent s = false ∧ elapsed s 0 400 = true) := by decide +kernel
theorem witness_PeuCommandsRunAtThePeu :
    fed.peuTakes .a { card := .cb, alive := 1, crcOk := true } = true ∧ fed.peuTakes .a { card := fed.time.master, alive := 1, crcOk := true } = true ∧
    CardId.cb ≠ fed.time.master ∧ delivers (peuAt fed .a) = true ∧ delivers (peuAt fed .b) = true ∧
    (let s := updPeu .a (fun x => { x with st := 6, checked := true }) fed
     (peuAt s .a).st = 6 ∧ (peuAt s .a).feed = true ∧ (peuAt s .a).checked = true ∧ otherOn s .a = true ∧
       otherOn (updPeu .b (fun x => { x with st := 6, outOn := false }) s) .a = false) ∧
    (updSec (fun x => { x with level := 0 }) fed).sec.level = 0 ∧ (updSec (fun x => { x with level := 1 }) fed).sec.level ≠ 0 := by decide +kernel
theorem witness_CommanderFollowsAcknowledgements :
    (let x : BarrierTx := { type := 0x12, alive := 7, sent := 0, payload := [60], cmd := some (.h0, 3, 0xEC) }
     let s := updPeu .a (fun y => { y with out := [x] }) (later 8 fed)
     (cardAt s .ca).serving = true ∧ (peuAt s .a).out.find? (fun t => t.type == (0x12 : BitVec 8).toNat && t.alive == (7 : BitVec 8).toNat) = some x ∧
       x.retries < 3 ∧ x.viaPartner = false ∧ elapsed s x.sent 8 = true) ∧
    (let s := updPeu .a (fun y => { y with upd := 3, actFc := 0, out := [] }) (later 400 fed)
     (peuAt s .a).present = true ∧ (peuAt s .a).checked = false ∧ elapsed s (peuAt s .a).actFc 400 = true ∧ (∀ x ∈ (peuAt s .a).out, x.type ≠ 0x22)) := by decide +kernel
theorem witness_SlotFusesTripAndRetry :
    (let s := updFrond 15 (fun g => { g with state := 3, present := false }) up
     (fuseAt s 15).off = false ∧ (fuseAt s 15).latched = false ∧ (frondAt s 15).state = 3 ∧
       (let o : State := later 12000 { s with power := { s.power with fuses := [(15, { off := true, trip := some 0, retries := 2 })] } }
        (fuseAt o 15).trip = some 0 ∧ (fuseAt o 15).off = true ∧ (fuseAt o 15).latched = false ∧ (fuseAt o 15).retries < 3 ∧
          elapsed o 0 (4000 * ((fuseAt o 15).retries + 1)) = true ∧ (frondAt o 15).present = false)) ∧
    (let s : State := { up with pair := { up.pair with cb := { up.pair.cb with serving := false } } }
     (fuseAt s 17).off = false ∧ (fuseAt s 17).latched = false ∧ (cardAt s .cb).serving = false ∧ (cardAt s .cb).why ≠ .foreign ∧
       (let o : State := later 4000 { s with power := { s.power with fuses := [(17, { off := true, trip := some 0 })] } }
        (fuseAt o 17).trip = some 0 ∧ (fuseAt o 17).off = true ∧ (fuseAt o 17).latched = false ∧ (fuseAt o 17).retries < 3 ∧
          elapsed o 0 4000 = true ∧ (cardAt o .cb).present = true ∧ (cardAt o .cb).why ≠ .foreign)) ∧
    (let s : State := later 40000 { up with power := { up.power with fuses := [(17, { onSince := some 0 })] } }
     (fuseAt s (fuseNo (.card .cb))).onSince = some 0 ∧ elapsed s 0 40000 = true) := by decide +kernel
theorem witness_SensorsThrottleAndShutDown :
    (∀ x ∈ [SensorId.package 15 31, .filnas 0 1, .dram .cb 3, .peu .b 3], Machine.sensorOk x = true ∧ sensorOn up x = true ∧ sensorNo x ∉ up.power.broken) ∧
    up.power.entry = none ∧ up.power.ps < 3 ∧ sensorNo (.junction .cb 11) ∈ ({ up with power := { up.power with broken := [23] } } : State).power.broken := by decide +kernel
/-- Which engines fail the self-test of an exit is the opaque Config.selfTestFails: it is shown of a module without a serving card. -/
theorem witness_PowerStateMovesEndAsTheySay :
    (let en : EntrySt := { target := 3, step := 2, since := 0, delaying := [0x13], cmd := some (.h0, 9, 0x09) }
     let s : State := later 64 { up with power := { up.power with entry := some en } }
     en.step ≤ 2 ∧ en.wake = none ∧ en.delaying.contains 0x13 = true ∧ elapsed s en.since 64 = true ∧ (ctrlAt s .h0).link = true ∧ (ctrlAt s .h0).rdy = true) ∧
    (let q : RegReq := { id := (default : RegId), sent := 0 }
     let s : State := later 8 { up with power := { up.power with regReqs := [q] } }
     s.power.regReqs.find? (fun q => q.id == (default : RegId)) = some q ∧ q.retries < 3 ∧ elapsed s q.sent 8 = true) ∧
    (let s : State := { up with power := { up.power with ps := 4, exit := some { target := 0 } } }
     s.power.exit ≠ none ∧ (cardAt s .ca).serving = true ∧ (cardAt s .ca).osc2 = false) ∧
    (let s : State := { up with power := { up.power with ps := 3, exit := some { target := 0, cmd := some (.h0, 9, 9) } } }
     let dark : State := { s with pair := { s.pair with ca := { s.pair.ca with serving := false }, cb := { s.pair.cb with serving := false } } }
     s.power.regReqs = [] ∧ s.power.fuses = [] ∧ s.power.woken = [] ∧ s.power.ps ≠ 4 ∧ rising s.engines = true ∧ exitFailures dark = [] ∧
       dark.power.exit = s.power.exit ∧ (ctrlAt dark .h0).link = true ∧ (ctrlAt dark .h0).rdy = true ∧ tooFew dark .ca = false ∧ tooFew dark .cb = false ∧
       ∀ i ∈ [16, 39], tooFew (engineOut .cb i 0 s) .ca = false ∧ tooFew (engineOut .cb i 0 s) .cb = false) := by decide +kernel
theorem noFails_of_nil {s : State} (h : s.pieces = []) : s.noFails := fun p hp => by rw [h] at hp; cases hp
theorem noTurns_of_nil {s : State} (h : s.pieces = []) (hc : s.cws = []) : s.noTurns :=
  ⟨fun p hp => (by rw [h] at hp; cases hp), fun p hp => (by rw [hc] at hp; cases hp)⟩
theorem witness_FilnasFollowsMarkersAndPlans :
    pget (frondAt up 0).marked up.time.master = false ∧ up.canonical = true ∧ frondAbsent up 0 = false ∧ (frondAt up 0).nxt.frame ≠ up.time.fc + 1 ∧
    (frondAt up 0).waiting = [] ∧ up.metas.work = [] ∧ packMetas 0 (atCount 16127 up) = atCount 16127 up ∧ (frondAt up 0).pack = [] ∧ (frondAt up 0).cur.reads = [] ∧ up.noFails ∧ pget (frondAt up 0).planRx .ca = none ∧
    pget (frondAt (updFrond 0 (fun g => { g with planRx := ⟨some 255, none⟩ }) up) 0).planRx .ca = some ((0 : BitVec 8) - 1) ∧
    pget (frondAt up 0).placed .ca = [] ∧ 3 < (memAt up .ca).alive.length ∧ (frondAt up 0).lateFcs.length < 7 ∧
    16 ≤ (frondAt (updFrond 0 (fun g => { g with unmarked := 16 }) up) 0).unmarked ∧ up.reqs = [] ∧ up.cws = [] := by
  have h : up.noFails := noFails_of_nil rfl
  refine ⟨?_, ?_, ?_, ?_, ?_, ?_, ?_, ?_, ?_, h, ?_⟩ <;> decide +kernel
/-- A sent request 7 of die 4095, one piece of which is number 3. -/
def aRead : Req := { kind := .weightedRead, die := 4095, plane := 3, mask := 1, target := 1 }
theorem witness_MediaReadsAdvance :
    (let s := updFrond 15 (fun g => { g with allowance := 10000 }) { up with reqs := [(7, aRead)] }
     tfind s.reqs 7 = some aRead ∧ aRead.st = .sent ∧ (frondAt s (frondOfDie aRead.die)).fenced.contains aRead.owner = false ∧
       superseded s aRead.slice aRead.gen = false ∧ superseded s 5 1 = true ∧ dieTakes s aRead = true ∧ aRead.target ≤ s.time.fc + 64 ∧ s.time.fc < aRead.target ∧
       (let u := updReq 7 (fun x => { x with arrival := s.time.start }) (atCount 0 s)
        (findFrame u 15 (reqAt u 7) 64 (max (openFrame s 15) 1)).isSome = true ∧ (insertWin u { aRead with target := 0 } 7 0).isSome = true) ∧
       (frondAt (updFrond 15 (fun g => { g with fenced := [.ca] }) s) 15).fenced.contains aRead.owner = true) ∧
    (let s := updDie 9 (fun d => { d with seg := true, op := some default }) up
     (dieAt s 9).seg = true ∧ (dieAt s 9).op.isSome = true ∧ (frondAt s (frondOfDie 9)).cur.reads = [] ∧ (dieAt s 9).overdue = false ∧
       (dieAt s 9).overruns.length + 1 < s.feat.quarThr) ∧
    (let s := updDie 4095 (fun d => { d with sensing := d.sensing.set 3 (some 7) }) { up with reqs := [(7, { aRead with st := .issued })] }
     (dieAt s 4095).sensing.getD 3 none = some 7 ∧ tfind s.reqs 7 = some { aRead with st := .issued } ∧ aRead.piece = none ∧ s.canonical = true ∧
       (dieAt s 4095).overdue = false ∧ (dieAt s 4095).overruns.length + 1 < s.feat.quarThr ∧ (dieAt s 4095).cache[3]? = some none) ∧
    (let s := updDie 9 (fun d => { d with overdue := true }) up
     (dieAt s 9).sensing.getD 0 none = none ∧ (dieAt s 9).overdue = true ∧ (dieAt s 9).op = none ∧ (dieAt s 9).prog = none) ∧
    unwanted { aRead with st := .sensed, piece := some 3 } = false ∧ unwanted { aRead with st := .sensed } = true ∧
    (let r : Req := { aRead with st := .moved, piece := some 3 }
     let s : State := { up with reqs := [(7, r)], next := 8 }
     tfind s.reqs 7 = some r ∧ 7 < s.next ∧ superseded s r.slice r.gen = false ∧ (pieceAt s 3).route ≠ 3 ∧ 0 ≤ warnOf s r.die ∧ hostKind r.kind = true) := by
  decide +kernel
theorem witness_ErasesChannelsAndUpkeep :
    (let s := updDie 9 (fun d => { d with op := some { kind := .erase, block := 100 } }) up
     (dieAt s 9).op = some { kind := .erase, block := 100 } ∧ s.canonical = true) ∧
    (let w : MetaWork := { of := .erases 15 [] [] [blkKey 4095 2111] }
     let s := updFrond 15 (fun g => { g with dirty := [blkKey 4095 2111] }) { up with metas := { work := [(7, w)] } }
     findWork s (isErases 15) = some (7, w) ∧ w.copies = [] ∧ w.reads = 0 ∧ (∀ k ∈ [blkKey 4095 2111], frondOfDie (k / 4096) = 15 ∧ k ∈ (frondAt s 15).dirty)) ∧
    (let s : State := { up with chans := [(127, { due := true })] }
     frondAbsent s (127 / 8) = false ∧ (chanAt s 127).failed = false ∧ (chanAt s 127).trained = true ∧ chanDue s 127 = true ∧ s.power.ps ≤ 2 ∧
       (frondAt s (127 / 8)).prepared = 0 ∧ (frondAt s (127 / 8)).training = none ∧ (frondAt s (127 / 8)).trainStart = 0) ∧
    (let s : State := { up with chans := [(127, { reduced := true, reducedAt := 0, overruns := [3999, 4000] })], time := { up.time with fc := 4000, start := 64000000 } }
     2 ≤ ((chanAt s 127).overruns.filter fun x => s.time.fc < x + 4000).length ∧ ((chanAt s 1).overruns.filter fun x => s.time.fc < x + 4000).length < 2 ∧
       (chanAt s 127).reduced = true ∧ elapsed s (chanAt s 127).reducedAt 4000 = true) ∧
    (let s := updDie 9 (fun d => { d with state := 1, lastOverrun := 0 }) { up with time := { up.time with fc := up.feat.quarHold, start := 16000 * up.feat.quarHold } }
     (dieAt s 9).state = 1 ∧ elapsed s (dieAt s 9).lastOverrun s.feat.quarHold = true) ∧
    (let s : State := updFrond 0 (fun g => { g with refresh := some (blkKey 9 100, blkKey 9 200, 1024, 0) })
        { up with stripes := [(5, { members := List.replicate 16 { verified := 1024 } })], blks := [(blkKey 9 100, { state := 1, member := some 95 })] }
     s.canonical = true ∧ (frondAt s (frondOfDie 9)).refresh = some (blkKey 9 100, blkKey 9 200, 1024, 0) ∧ (blkAt s (blkKey 9 100)).member = some 95 ∧
       programmedRows (memberAt s 95) ≤ 1024 ∧ (stripeAt s (95 / 16)).members.any (·.filling) = false ∧ opOn s (blkKey 9 200) = false ∧
       95 % 16 < (stripeAt s (95 / 16)).members.length) ∧
    (let s : State := { up with time := { up.time with past := 168 * 14400000 } }
     (scrubInterval s (blkKey 9 0)).isSome = true ∧ (blkAt s (blkKey 9 0)).scrubbed + (scrubInterval s (blkKey 9 0)).getD 0 ≤ s.time.past + s.time.fc ∧
       (blkAt s (blkKey 9 0)).scrubLeft = 0 ∧ (dieAt s 9).state < 2 ∧ (blkAt s (blkKey 9 0)).state = 5) ∧
    (let s := updDie 9 (fun d => { d with recalQ := [(65, 0)], resetting := true }) up
     (dieAt s 9).state < 2 ∧ (dieAt s 9).recalQ.contains (65, 0) = true ∧ (dieAt s 9).resetting = true ∧ (dieAt s 9).resets = 0) ∧
    (let s := updDie 9 (fun d => { d with resetting := true, resets := 1 }) up
     (dieAt s 9).resets ≠ 0 ∧ (frondAt s (frondOfDie 9)).refresh = none ∧ s.reqs = [] ∧ s.blks = [] ∧ s.cws = [] ∧ s.nss = [] ∧ s.zones = [] ∧ s.pieces = []) := by decide +kernel
/-! ### Stream engines, the seedbed and the I/O commands. -/
theorem witness_StreamEnginesDeliverAndMiss :
    (∀ w ∈ [SeWork.decrypt 3, .reconstruct 3],
      let s : State := { up with pieces := [(3, { cmd := 9, route := 3 })], seA := [w] }
      engineWorks s .ca (16 + 23) = true ∧ seTake s .ca 23 = some w ∧ tfind s.pieces 3 = some { cmd := 9, route := 3 }) ∧
    (let cw : Cw := { nsid := 1, kind := .data, lba := 0, cmd := none }
     let s : State := { withNs { used := true } with cws := [(1048576, cw)], seA := [.encrypt 1048576], stripes := [(1, { used := true, nsid := 1 })] }
     seTake s .ca 0 = some (.encrypt 1048576) ∧ tfind s.cws 1048576 = some cw ∧ cw.encrypted = false ∧ (stripeAt s 1).profile ≠ .l12 ∧
       (accumAt s (slotOfCk 1048576)).count + 1 < 64 * dataOf (stripeAt s 1).profile ∧ (stripeAt s 1).finishRow = none ∧
       mayGo s (ownerOfNs s 1) ((cwSvc s cw).getD .bound) 1 = true ∧ cw.kind ≠ .padding) ∧
    (let c : Cmd := { kind := .read, st := .reading, pieces := [3], e := { sqid := 1, cid := 65535 } }
     let pc : Piece := { cmd := 9, ready := true }
     let s : State := { up with pieces := [(3, pc)], cmds := [(9, c)] }
     tfind s.pieces 3 = some pc ∧ pc.delivered = false ∧ pc.fail = 0 ∧ pc.buf = none ∧ c.status = none ∧ c.missed = none ∧ c.bufs = [] ∧ c.svc ≠ .bound ∧
       c.silent = false ∧ superseded s c.slice c.gen = false ∧ (ctrlAt s c.e.port).link = true ∧ pieceData s 3 = [] ∧ s.misses = [] ∧ s.reqs = []) ∧
    (let c : Cmd := { kind := .read, st := .reading, svc := .bound, deadline := some 15999, e := { sqid := 1 } }
     let s : State := { up with cmds := [(9, c)] }
     tfind s.cmds 9 = some c ∧ c.missed = none ∧ s.time.start ≤ 15999 ∧ 15999 < s.time.start + 16000 ∧ superseded s c.slice c.gen = false ∧ c.policy = false ∧
       boundRead c.kind = true) := by decide +kernel
/-- A chunk of stripe slot 1 of which one codeword has its three copies, on fronds 1 to 3. -/
def heldChunk : Tbl Cw := [(1048576, { nsid := 1, kind := .data, encrypted := true, copies := [{ idx := 0, frond := 1, die := 256, done := true }, { idx := 1, frond := 2, die := 512, done := true }, { idx := 2, frond := 3, die := 768, done := true }] })]
/-- The parity of its row 0. -/
def heldParity : Tbl Cw := [14, 15].flatMap fun p => (List.range 64).map fun o => (cKey 1 p 0 o, { (heldChunk.head!).2 with kind := .parity })
/-- Stripe slot 1 with its sixteen members on die-blocks. -/
def filled : State := { withNs { used := true, zoned := true } with
  cws := heldChunk, chunks := [(hKey 1 0 0, { st := .held })],
  stripes := [(1, { used := true, nsid := 1, members := (List.range 16).map fun i => { blk := some (memberFrond 1 i * 1048576 + 100) } })] }
theorem witness_SeedbedFoldsIntoStripes :
    (let q : Prog := { die := 9, block := 100, cws := [(1048576, 0)] }
     let s : State := { up with progs := [(4, q)] }
     tfind s.progs 4 = some q ∧ q.frond = frondOfDie q.die ∧ q.die = blkKey q.die q.block / 4096 ∧ (dieAt s q.die).grownBad < 256 ∧ 0 < reserveLeft s q.die ∧
       (blkAt s (blkKey q.die q.block)).state ≠ 7 ∧ s.canonical = true ∧ s.blks = [] ∧ s.cmds = []) ∧
    (∀ f, frondAbsent up f = false) ∧ up.noTurns ∧
    (filled.canonical = true ∧ (stripeAt filled 1).members[0]? = some { blk := some (memberFrond 1 0 * 1048576 + 100) } ∧ (chunkAt filled (hKey 1 0 0)).st = .held ∧
      foldOrder filled (hKey 1 0 0) (memberAt filled 16) = true ∧ frondAbsent filled (memberFrond 1 0) = false ∧ (dieAt filled ((memberFrond 1 0 * 1048576 + 100) / 4096)).state = 0 ∧
      (∀ k < 64, ∀ w ∈ (tfind filled.cws (hKey 1 0 0 * 64 + k)).toList, w.folded = false ∧ w.kind ≠ .padding ∧ (foldCopy filled w).isSome = true) ∧
      (∃ k < 64, (tfind filled.cws (hKey 1 0 0 * 64 + k)).isSome = true)) ∧
    (let s : State := later 0 { filled with time := { filled.time with fc := 1000000 } }
     (chunkAt s (hKey 1 0 0)).readyFc + tget 0 s.feat.foldHold (stripeAt s 1).cls * 4000 ≤ s.time.fc) ∧
    (∀ k ∈ [OpKind.qlc, .rebuild, .refresh, .pad],
      let o : LongOp := { kind := k, segs := 20, block := 100, chunk := hKey 1 0 0 }
      let s := updDie 9 (fun d => { d with op := some o }) filled
      (dieAt s 9).op = some o ∧ 20 ≤ o.segs ∧ o.block < 4096 ∧ (tfind s.cws (o.chunk * 64)).isSome = true) ∧
    (let o : LongOp := { kind := .verify, segs := 4, prog := .qlc, chunk := hKey 1 0 0 }
     (dieAt (updDie 9 (fun d => { d with op := some o }) filled) 9).op = some o) ∧
    (let f := memberFrond 1 0
     let w : MetaWork := { of := .members f [hKey 1 0 0] }
     let s := updFrond f (fun g => { g with batch := [hKey 1 0 0] }) { filled with cws := heldChunk ++ heldParity, metas := { work := [(7, w)] } }
     findWork s (isMembers f) = some (7, w) ∧ w.copies = [] ∧ w.reads = 0 ∧ (frondAt s f).batch = [hKey 1 0 0] ∧ f = memberFrond (slotOfH (hKey 1 0 0)) (posOfH (hKey 1 0 0)) ∧ frondAbsent s f = false ∧
       (tfind s.chunks (hKey 1 0 0)).isSome = true ∧ (memberAt s 16).verified = hKey 1 0 0 % 1024 ∧ (memberAt s 16).filling = false ∧
       rowParityHeld s 1 0 = true) ∧
    (let s : State := { filled with zones := [(zoneKey 1 0, { st := .explOpen, slot := some 1, wp := 1000 })], accums := [(1, { lost := true, row := 1, asked := true })] }
     (nsAt s 1).zoned = true ∧ (zoneAt s (zoneKey 1 0)).slot = some 1 ∧ (accumAt s 1).lost = true ∧ accumRead s 1 = true ∧ (accumAt s 1).ext = none ∧ 0 < (accumAt s 1).row ∧ (stripeAt s 1).profile ≠ .l12 ∧
       (stripeAt s 1).finishRow = none ∧ s.cmds = [] ∧ (openRow s 1).length < 64 * dataOf (stripeAt s 1).profile) ∧
    (let m : Member := { blk := some 100, filling := true }
     let s : State := { filled with stripes := [(1, { used := true, nsid := 1, members := List.replicate 16 m })], rebuild := { filled.rebuild with queue := [mKey 1 15] } }
     mKey 1 15 ∈ s.rebuild.queue ∧ (stripeAt s 1).used = true ∧ frondAbsent s (memberFrond 1 15) = false ∧ (stripeAt s 1).members[15]? = some m ∧
       (stripeAt s 1).folded ≤ m.verified) := by
  refine ⟨by decide +kernel, fun f => rfl, noTurns_of_nil rfl rfl, by decide +kernel, by decide +kernel, by decide +kernel, by decide +kernel, by decide +kernel,
    by decide +kernel, by decide +kernel⟩
theorem witness_RowsFetchTheirEntryOrTakeItFetched :
    (let s : State := { up with sqs := [(qKey .h1 1, { used := true, size := 1, head := 1, tail := 0 })] }
     let e : Sqe := asOp 0x00 { port := .h1, sqid := 1, cid := 9 }
     s.canonical = true ∧ asOp 0x00 e = e ∧ e.sqid ≠ 0 ∧ s.cmds = [] ∧ (tryFetch e (atCount e.cnt s)).isSome = true) := by decide +kernel
/-! ### I/O commands. -/
/-- A zoned namespace of two zones, and a conventional one, both attached and bound to slice 0. -/
def zns : Ns := { used := true, zoned := true, nsze := 2097152, slice := some 0, att := ⟨true, true⟩ }
def cns : Ns := { zns with zoned := false }
/-- An entry of queue 1, and a module with namespace n and command 9 fetched from it. -/
def anIo : Sqe := { sqid := 1, cid := 65535, nsid := 1, dlen := 4112 }
def alone (n : Ns) (e : Sqe) : State := { withNs n with cmds := [(9, { e := e, st := .fetched })], pages := [(2 ^ 29, { cached := true })] }
/-- Zone 0 open on stripe slot 1. -/
def openZone (s : State) : State := { s with zones := [(zoneKey 1 0, { st := .closed, slot := some 1, wp := 917503 })], stripes := [(1, { used := true, nsid := 1, zone := some 0 })] }
theorem alone_runs_zns : (alone zns anIo).runsAlone 9 { e := anIo, st := .fetched } anIo := by constructor <;> decide +kernel
theorem alone_runs_cns : (alone cns anIo).runsAlone 9 { e := anIo, st := .fetched } anIo := by constructor <;> decide +kernel
theorem open_runs : (openZone (alone zns anIo)).runsAlone 9 { e := anIo, st := .fetched } anIo := by constructor <;> decide +kernel
/-- Command 9 as the row of its entry runs it. -/
def asRow (r : Sqe → Sqe) (e : Sqe) : Cmd := Cmd.runAs { e := e, st := .fetched } (r e)
theorem witness_ReadsGatherTheirBlocks :
    (alone zns anIo).runsAlone 9 { e := anIo, st := .fetched } anIo ∧ (alone cns anIo).runsAlone 9 { e := anIo, st := .fetched } anIo ∧
    (∀ n ∈ [zns, cns], lenErr (alone n anIo) (asRow (asOp 0x02) anIo) 1024 true = none ∧ lenErr (alone n anIo) (asRow (asOp 0x0C) anIo) 65536 false = none ∧
      zoneReadErr (alone n anIo) (asRow (asOp 0x02) anIo) 0 1 = none ∧ unsettledBut (alone n anIo) 9 1 0 1 = false ∧ missingPages (alone n anIo) 1 0 1 = [] ∧
      (writeLocks 1 9 (lockCover (lockRanges (asOp 0x02 anIo)).1 (lockRanges (asOp 0x02 anIo)).2) (spAt (alone n anIo) .ca)).isSome = true) ∧
    (let e : Sqe := { anIo with cdw12 := 1, cdw14 := 1 }
     let x : Cmd := { asRow (asOp 0x82) e with prog := [1] }
     1 ≤ x.nlb ∧ d13 x.e 7 0 ≤ 15 ∧ d13 x.e 31 9 = 0 ∧ d14 x.e 31 16 = 0 ∧ d14 x.e 15 0 = 1 ∧ x.e.cdw15 = 0 ∧ x.lba + x.nlb ≤ zns.nsze ∧ 4096 ≤ x.e.dlen ∧ x.prog ≠ []) ∧
    (let d : Desc := { enable := true, len := 4096 }
     let x : Cmd := { asRow (asOp 0x88) anIo with desc := d }
     let s := { alone zns anIo with b0 := { up.b0 with gid := 1 } }
     x.e.dptr = 0 ∧ d12 x.e 31 16 = 0 ∧ d13 x.e 31 8 = 0 ∧ x.nlb = 1 ∧ bulkErr s x = none ∧ x.nlb * 4096 ≤ regionRoom x ∧ 0 < regionRoom x) ∧
    (let e : Sqe := { anIo with cdw10 := 1048576, data := zeros 8 ++ le 8 1 }
     let s := { openZone (alone zns e) with zones := [(zoneKey 1 1, { st := .explOpen, slot := some 1 })] }
     let x := asRow (asOp 0x19) e
     d12 x.e 11 8 = 0 ∧ (copyRanges x.e).length = 1 ∧ (∀ r ∈ copyRanges x.e, r.2 ≤ 1024 ∧ r.1 + r.2 ≤ zns.nsze ∧ zoneReadErr s x r.1 r.2 = none ∧
       unsettledBut s 9 1 r.1 r.2 = false ∧ r.1 / 1048576 ≠ x.lba / 1048576) ∧ 32 * (copyRanges x.e).length ≤ e.dlen ∧ lenErr s x 1024 false = none ∧
       zoneWriteErr s x = none ∧ placeErr { s with cmds := [(9, x)] } 9 = false ∧ (poolFor 65537).2 ≤ (poolAt s .ca (poolFor 65537).1).free ∧
       (poolFor 65537).2 ≤ (sliceAt s 0).share.bufPct * poolSize (poolFor 65537).1 / 100) :=
  ⟨alone_runs_zns, alone_runs_cns, by decide +kernel, by decide +kernel, by decide +kernel, by decide +kernel⟩
theorem up_seedbedFree : (openZone (alone zns anIo)).seedbedFree .ca ∧ (alone cns anIo).seedbedFree .ca :=
  ⟨⟨by decide +kernel, by decide +kernel, fun _ => by show fillPct {} < _; decide +kernel, fun _ => rfl⟩,
    ⟨by decide +kernel, by decide +kernel, fun _ => by show fillPct {} < _; decide +kernel, fun _ => rfl⟩⟩
/-- The write pointer of the zone is at its last block. -/
theorem witness_WritesAreAssignedAndEnter :
    (openZone (alone zns anIo)).runsAlone 9 { e := anIo, st := .fetched } anIo ∧ (openZone (alone zns anIo)).seedbedFree .ca ∧ (alone cns anIo).seedbedFree .ca ∧
    (∀ r ∈ [(asOp 0x01, 1024, true), (asOp 0x7D, 512, true), (asOp 0x08, 65536, false)],
      let e : Sqe := if r.2.1 = 512 then anIo else { anIo with cdw10 := 917503 }
      let s := openZone (alone zns e)
      let x := asRow r.1 e
      lenErr s x r.2.1 r.2.2 = none ∧ zoneWriteErr s x = none ∧ placeErr { s with cmds := [(9, x)] } 9 = false ∧
        piWrite zns x.e (if x.kind = .append then x.lba + 917503 else x.lba) x.nlb 0 = none ∧ fillsWait s x = false ∧ dramRoom s .ca x.nlb = true ∧ x.nlb = 1 ∧
        (poolFor 4096).2 ≤ (poolAt s .ca (poolFor 4096).1).free ∧ (poolFor 4096).2 ≤ (sliceAt s 0).share.bufPct * poolSize (poolFor 4096).1 / 100) ∧
    (let d : Desc := { enable := true, len := 4096 }
     let x : Cmd := { asRow (asOp 0x8C) anIo with desc := d }
     let s := { openZone (alone zns anIo) with b0 := { up.b0 with gid := 1, linkUp := true } }
     x.e.dptr = 0 ∧ d12 x.e 31 16 = 0 ∧ d13 x.e 31 8 = 0 ∧ x.nlb = 1 ∧ bulkErr s x = none ∧ 0 < regionRoom x ∧ lenErr s x 512 false = none ∧ zoneWriteErr s x = none ∧
       placeErr { s with cmds := [(9, x)] } 9 = false ∧ readsOut (qpAt s (qpKeyOf x.desc)) < 256 ∧ (reqsOut (qpAt s (qpKeyOf x.desc))).length < 16 ∧
       (qpAt s (qpKeyOf x.desc)).out = []) ∧
    (let s := { alone { cns with head := some 1 } anIo with stripes := [(1, { used := true, nsid := 1 })] }
     let x := asRow (asOp 0x01) anIo
     lenErr s x 1024 true = none ∧ placeErr { s with cmds := [(9, x)] } 9 = false ∧ (stripeAt s 1).next + x.nlb < capOf (stripeAt s 1).profile ∧
       (stripeAt s 1).profile = cns.profile ∧ (stripeAt s 1).closed = false ∧ dramRoom s .ca x.nlb = true) ∧
    4 < freeStripes { alone { cns with head := some 1, resv := 9 } anIo with stripes := [(1, { used := true, nsid := 1 })] } 1 :=
  ⟨open_runs, up_seedbedFree.1, up_seedbedFree.2, by decide +kernel, by decide +kernel, by decide +kernel, by decide +kernel⟩
theorem witness_ZoneAndFlushCommandsAct :
    (openZone (alone zns anIo)).runsAlone 9 { e := anIo, st := .fetched } anIo ∧ (alone cns anIo).runsAlone 9 { e := anIo, st := .fetched } anIo ∧
    (∀ a ∈ [1, 2, 3, 4, 5, 16], let x := asRow (asZsa a) anIo
      zoneCmdErr (openZone (alone zns anIo)) x invalidOpcode = none ∧ selAll x = false ∧ namedState (openZone (alone zns anIo)) x = .closed ∧
      namedState (alone zns anIo) x = .empty ∧ zoneCmdErr (alone zns anIo) x invalidOpcode = none) ∧
    (let x := asRow (asOp 0x7A) { anIo with cdw12 := 15 }
     d13 x.e 7 0 = 0 ∧ d13 x.e 15 8 ≤ 7 ∧ x.lba < zns.nsze ∧ (x.e.cdw12.toNat + 1) * 4 = 64 ∧ 64 ≤ x.e.dlen ∧ bit x.e.cdw13.toNat 16 = false) ∧
    zoneCmdErr (alone zns anIo) (asRow (asOp 0x86) anIo) invalidField = none ∧ namedState (alone zns anIo) (asRow (asOp 0x86) anIo) ≠ .offline ∧
    (let e : Sqe := { anIo with cdw11 := 4, data := zeros 4 ++ le 4 1 }
     let x := asRow (asOp 0x09) e
     bit x.e.cdw11.toNat 2 = true ∧ 16 * (dsmRanges x.e).length ≤ x.e.dlen ∧ (∀ r ∈ dsmRanges x.e, r.1 + r.2 ≤ cns.nsze) ∧ (∃ q ∈ dsmRanges x.e, 0 < q.2) ∧
       (writeLocks 1 9 (lockCover (lockRanges (asOp 0x09 e)).1 (lockRanges (asOp 0x09 e)).2) (spAt (alone cns e) .ca)).isSome = true) ∧
    lenErr (alone cns anIo) (asRow (asOp 0x08) anIo) 65536 false = none ∧ 0 < blocksOf (asOp 0x08 anIo) ∧
    (writeLocks 1 9 (lockCover (lockRanges (asOp 0x08 anIo)).1 (lockRanges (asOp 0x08 anIo)).2) (spAt (alone cns anIo) .ca)).isSome = true :=
  ⟨open_runs, alone_runs_cns, by decide +kernel, by decide +kernel, by decide +kernel, by decide +kernel, by decide +kernel, by decide +kernel, by decide +kernel, by decide +kernel⟩
theorem witness_WaitingCommandsGoOnOrExpire :
    (let c : Cmd := { e := anIo, st := .fetched, fwd := some 0 }
     let s : State := { withNs zns with cmds := [(9, c)] }
     c.fwd.isSome = true ∧ mustHold s c.card c.e.nsid = false ∧ mustHold { s with pair := { s.pair with transfers := [{ group := .g1, dst := .ca }] } } c.card c.e.nsid = true) ∧
    (let c : Cmd := { e := anIo, st := .listWait, kind := .read, nlb := 1 }
     let s : State := { withNs zns with cmds := [(9, c)] }
     (nsAt s 1).zoned = true ∧ c.pieces = [] ∧ c.data = [] ∧ unsettledBut s 9 1 0 1 = false ∧ resolve s 1 0 = none ∧ s.pieces = []) ∧
    (let e : Sqe := { anIo with cdw11 := 4, data := zeros 4 ++ le 4 1 }
     let c : Cmd := { e := e, st := .lockWait, kind := .dsm, locks := [(0, 0, true)] }
     c.locks ≠ [] ∧ c.status = none ∧ (∃ r ∈ dsmRanges c.e, 0 < r.2)) ∧
    (∀ r ∈ [(CmdSt.lockEntries, 64), (.openWait, 400), (.gcWait, 4000), (.deferred, 400), (.fullWait, 1)],
      let c : Cmd := { e := anIo, st := r.1, stoppedFrames := 400000 }
      let s : State := later r.2 { withNs cns with cmds := [(9, c)], events := { up.events with posted := [0xC6] } }
      c.silent = false ∧ c.svc ≠ .bound ∧ superseded s c.slice c.gen = false ∧ s.canonical = true ∧ (nsAt s 1).zoned = false ∧ freeStripes s 1 ≤ 2 ∧
        (r.1 ≠ .fullWait → elapsed s c.since r.2 = true) ∧ s.feat.fullWait ≤ c.stoppedFrames ∧ 0xC6 ∈ s.events.posted) := by decide +kernel
/-! ### Maps, service, pair and memory. -/
theorem witness_MapsJournalsAndAllocator :
    (let e : Sqe := asZsa 3 { anIo with opc := 0x79 }
     let c : Cmd := { asRow (asZsa 3) e with st := .allocWait }
     let s : State := { withNs zns with cmds := [(9, c)], fronds := (List.range 16).map fun f => (f, { state := 2 }) }
     s.canonical = true ∧ c.kind = .zoneSend ∧ zoneCmdErr s c invalidOpcode = none ∧ selAll c = false ∧ namedState s c = .empty ∧ activeCount s < 16384 ∧ 0 < freeSlots s ∧
       lacking s 0 = [] ∧ (nextSlotFree s).isSome = true ∧ s.stripes = []) ∧
    (let r : JRec := { kind := 3, undo := some (zoneKey 1 0, { st := .explOpen, slot := some 1 }) }
     let w : MetaWork := { of := .journal .ca [r] 0 }
     let s : State := { openZone (withNs zns) with metas := { work := [(7, w)] } }
     s.canonical = true ∧ s.cmds = [] ∧ findWork s (isJournal .ca) = some (7, w) ∧ w.copies = [] ∧ w.reads = 0 ∧ zActive (zoneAt s (zoneKey 1 0)).st = true ∧ (zoneAt s (zoneKey 1 0)).slot = some 1) ∧
    (let s := withNs cns
     (nsAt s 1).used = true ∧ (nsAt s 1).zoned = false ∧ tfind s.pages (1 * 2 ^ 29 + 0) = none ∧ (cachedOf s .ca).length < cachePages s .ca ∧ s.reqs = [] ∧ s.pieces = []) ∧
    (let s : State := { up with time := { up.time with fc := 16384 }, jB := { up.jB with lastFc := 0 } }
     (cardAt s .cb).serving = true ∧ (jAt s .cb).running = none ∧ (jAt s .cb).lastFc + 16384 ≤ s.time.fc) ∧
    (let s : State := { withNs { cns with victim := some 7 } with stripes := [(7, { used := true, nsid := 1 })] }
     let w : MetaWork := { of := .journal .ca [{ kind := 7, nsid := 1, slot := 7 }] 0 }
     let t : State := { s with metas := { work := [(9, w)] } }
     s.canonical = true ∧ (stripeAt s 7).used = true ∧ (stripeAt s 7).zone = none ∧ (nsAt s 1).victim = some 7 ∧ s.cmds = [] ∧ s.pieces = [] ∧ validOf s 1 7 = [] ∧
       workRecs s .ca ++ workRecs s .cb ++ s.jA.queue ++ s.jB.queue = [] ∧ t.canonical = true ∧ findWork t (isJournal .ca) = some (9, w)) ∧
    (let w : MetaWork := { of := .journal .cb [{ kind := 1, slot := 524287, count := 1024 }] 0 }
     let s : State := { up with metas := { work := [(9, w)] } }
     s.canonical = true ∧ findWork s (isJournal .cb) = some (9, w) ∧ w.copies = [] ∧ findWork up (isJournal .cb) = none) ∧
    (let w : MetaWork := { of := .root .cb }
     let s : State := { up with metas := { work := [(9, w)] }, jB := { up.jB with running := some 5 } }
     (jAt s .cb).running = some 5 ∧ findWork s (isRoot .cb) = some (9, w) ∧ w.copies = [] ∧ findWork up (isRoot .cb) = none) := by decide +kernel
theorem quiet_up : up.quiet := ⟨rfl, rfl, rfl, rfl, rfl, rfl, rfl, rfl, rfl, rfl, rfl⟩
theorem keepsHome_up (f : Frond) : up.keepsHome f := ⟨fun _ h => (by cases h), fun _ h => (by cases h)⟩
theorem witness_FrondsAreServiced :
    (let s := updFrond 3 (fun g => { g with present := false }) up
     (frondAt s 3).present = false ∧ rising s.power.fuses = true) ∧
    (let s := updFrond 3 (fun g => { g with insert := 1 }) up
     (frondAt s 3).present = true ∧ (frondAt s 3).insert = 1 ∧ s.power.ps ≠ 4 ∧ s.time.bus = true ∧ (fuseAt s 3).off = false ∧ s.power.ps < 3) ∧
    (let id : FrondIdent := { serial := [1], tableValid := true, tableSlot := some 3 }
     let s := updFrond 3 (fun g => { g with insert := 2, ident := some id, record := [1] }) up
     s.canonical = true ∧ (frondAt s 3).insert = 2 ∧ (frondAt s 3).ident = some id ∧ bit (runningImage s).hwFrond id.rev = true ∧ isKnown (frondAt s 3) 3 id = true ∧
       s.stripes = [] ∧ s.cws = []) ∧
    (let id : FrondIdent := { serial := [1] }
     let s := updFrond 3 (fun g => { g with insert := 2, ident := some id, state := 4 }) up
     isKnown (frondAt s 3) 3 id = false ∧ otherSlot s 3 id = false ∧ (frondAt s 3).state = 4 ∧ s.canonical = true) ∧
    (let s := updTime (fun t => { t with fc := 63 }) (updFrond 3 (fun g => { g with prepared := 1, prepCmd := some (0, 7) }) up)
     s.canonical = true ∧ (frondAt s 3).prepared = 1 ∧ (frondAt s 3).prepFc + 64 ≤ s.time.fc + 1 ∧ (frondAt s 3).prepFc ≤ (frondAt s 3).journalFc ∧ (frondAt s 3).prepCmd = some (0, 7) ∧ (frondAt s 3).dirty = [] ∧ (frondAt s 3).batch = [] ∧ (frondAt s 3).state ≠ 1) ∧
    up.quiet ∧ up.keepsHome 3 ∧ (frondAt up 3).prepCmd = none ∧
    (let s := updFrond 3 (fun g => { g with prepFc := 1 }) up
     (frondAt s 3).journalFc < (frondAt s 3).prepFc) ∧ up.metas.places = [] :=
  ⟨by decide +kernel, by decide +kernel, by decide +kernel, by decide +kernel, by decide +kernel, quiet_up, keepsHome_up 3, rfl, by decide +kernel, rfl⟩
/-- CA with four failed control cores. -/
def worn : State := { up with engines := (List.range 4).map fun i => (i, { failed := true }) }
theorem witness_CardsPeusAndEnginesAreServiced :
    (let s : State := { up with pair := { up.pair with cb := { up.pair.cb with present := false } } }
     (cardAt s .cb).present = false ∧ rising s.engines = true ∧ rising s.power.fuses = true) ∧
    mayLeave up .ca = true ∧
    (let s : State := { up with pair := { up.pair with ca := { up.pair.ca with serving := false, why := .partnerHold, held := true } } }
     mayLeave s .cb = false ∧ (cardAt s .ca).held = true ∧ (cardAt s .ca).heldAgain = false ∧ (cardAt s .ca).present = true) ∧
    (peuAt up .a).present = true ∧ (peuAt up .a).out = [] ∧ delivers (peuAt up .b) = true ∧ (peuAt (updPeu .a (fun x => { x with present := false }) up) .a).present = false ∧
    engineWorks up .ca 63 = true ∧ tooFew (engineOut .ca 63 1 up) .ca = false ∧ leReaches (engineOut .ca 63 1 up) 15 = true ∧ frondAbsent up 15 = false ∧
    (chanAt up 127).failed = false := by decide +kernel
theorem witness_CardsLeaveServiceAndPartnerTakesOver :
    (worn.metas.work = [] ∧ worn.metas.places = [] ∧ worn.reqs = [] ∧ worn.progs = [] ∧ worn.cws = [] ∧ worn.chunks = [] ∧ worn.cmds = [] ∧ worn.pieces = [] ∧ worn.dies = [] ∧ worn.blks = [] ∧ worn.stripes = []) ∧
    (cardAt worn .ca).serving = true ∧ carries (cardAt worn .cb) = true ∧ (cardAt worn .cb).unacked = [] ∧ worn.nss = [] ∧ (∀ x ∈ worn.slices, x.2.waiter = none) ∧
    ((memAt up .cb).alive.getD 2 {}).last ≠ some 1 ∧
    (let s := updPeu .a (fun p => { p with atA := some 0, atB := some 0, status := { p.status with caSilent := 8 } })
        (updPeu .b (fun p => { p with atA := some 0, atB := some 0, status := { p.status with caSilent := 8 } })
          { up with pair := { up.pair with cb := { up.pair.cb with beat := false, missed := 3 } } })
     (cardAt s .cb).beat = false ∧ 3 ≤ (cardAt s .cb).missed ∧ ((fedPeus s).all fun p => statusCurrent s p && decide (8 ≤ silentOf p .ca)) = true) ∧
    bothServe up = true ∧ other up.time.master = .cb ∧ engineWorks worn .ca 5 = true ∧ tooFew (engineOut .ca 5 1 worn) .ca = true ∧ (memAt up .ca).rop = .idle ∧
    (rankAt up .ca 0).role ≠ 9 ∧ ({ up with memA := { up.memA with spare := none } } : State).memA.spare = none ∧ sensorNo (.junction .ca 11) ∉ up.power.broken := by decide +kernel
theorem witness_PairMirrorsTransfersAndReturns :
    2 < (memAt up .cb).alive.length ∧ (cardAt up .cb).beat = false ∧ (cardAt up .cb).missed < 3 ∧
    (let s : State := { up with pair := { up.pair with takeover := some (.cb, 0) } }
     s.pair.takeover = some (.cb, 0) ∧ s.cmds = []) ∧
    (let s : State := { up with pair := { up.pair with ca := { up.pair.ca with serving := false, entering := 4, unacked := [{ msn := 5 }] } } }
     ¬ ((cardAt s .ca).serving = true ∧ (cardAt s .cb).serving = true) ∧ (cardAt s .cb).serving = true ∧ (cardAt s .ca).present = true ∧ (cardAt s .ca).entering = 4 ∧
       s.pair.takeover = none ∧ s.pair.transfers = [] ∧ ((cardAt s .ca).unacked.map (·.msn)).Nodup ∧ (∃ r ∈ (cardAt s .ca).unacked, r.msn = 5 ∧ r.cmds = [])) ∧
    1 ≤ (cardAt up .cb).msnRx + 1 ∧ ownerOf up .g2 = other .ca ∧ up.pair.takeover = none ∧ up.pair.transfers = [] ∧ bothServe up = true ∧ up.pair.handTo = none ∧
    (let s : State := { up with pair := { up.pair with ca := { up.pair.ca with activating := 4 } } }
     (cardAt s .ca).serving = true ∧ (cardAt s .ca).activating = 4) ∧ up.noReturns ∧
    (let s : State := { up with pair := { up.pair with ca := { up.pair.ca with serving := false, entering := 4 } } }
     (cardAt s .ca).serving = false ∧ (cardAt s .ca).entering = 4 ∧ (spAt s .ca).retired = []) := by
  have h : up.noReturns := fun f _ => ⟨fun e => (by cases e), fun e => (by cases e)⟩
  refine ⟨?_, ?_, ?_, ?_, ?_, ?_, ?_, ?_, ?_, ?_, ?_, ?_, h, ?_⟩ <;> decide +kernel
theorem witness_CombineGivesTheCrcOfBothParts :
    rising (memAt up .ca).units = true ∧
    (let s : State := { up with memA := { up.memA with units := [(3, { alg := false, reg := BitVec.allOnes 64 }), (4, { alg := true, reg := (BitVec.allOnes 32).setWidth 64 })] } }
     (unitAt s .ca 3).alg = false ∧ (unitAt s .ca 3).reg = ([] : List Byte).foldl (crcByte poly64) (BitVec.allOnes 64) ∧ (unitAt s .ca 4).alg = true ∧
       (unitAt s .ca 4).reg = (([] : List Byte).foldl (crcByte poly32) (BitVec.allOnes 32)).setWidth 64) := by decide +kernel
theorem witness_SpikeletAndBufferManagerAct :
    rising (spAt up .ca).ents = true ∧ rising (spAt up .ca).shadow = true ∧ 5 ∉ (spAt up .ca).retired ∧ 5 ∉ (spAt up .ca).rewritten ∧
    (memAt up .ca).pools.length = 4 ∧ (∀ p < 4, rising (poolAt up .ca p).refs = true ∧
      (poolAt up .ca p).free + (poolAt up .ca p).refs.length + (poolAt up .ca p).out.length ≤ poolSize p ∧ 16 ≤ (poolAt up .ca p).free) ∧
    (let s := updPool .ca 3 (fun q => { q with refs := [(4095, 2)], free := 0 }) up
     tfind (poolAt s .ca (bits 0xC0000FFF 31 30)).refs (bits 0xC0000FFF 19 0) = some 2 ∧ (poolAt s .ca 3).free < 1) := by decide +kernel
theorem witness_RanksAndPoisonAct :
    (cardAt up .ca).serving = true ∧ rising (memAt up .ca).ranks = true ∧ (memAt up .ca).rop = .idle ∧
    (∃ y, (memAt up .ca).spare = some y ∧ (∃ n ∈ (memAt up .ca).table, y ≠ n ∧ (rankAt up .ca n).role ≠ 9)) ∧
    (let s : State := { up with time := { up.time with fc := up.feat.rankHours * 14400000 } }
     (∃ n ∈ (memAt s .ca).table, retrainDue s .ca n = true) ∧ parked s = false ∧ copies (memAt s .cb) = false) ∧
    (∀ r ∈ [RankOp.train 3, .migrate 2 3, .copy 2 3], ({ up with memA := { up.memA with rop := r } } : State).memA.rop = r) ∧
    (let s : State := { openZone (withNs zns) with memA := { up.memA with poison := [7] }, accums := [(1, {})], pages := [(2 ^ 29, { cached := true })] }
     7 ∈ (memAt s .ca).poison ∧ s.canonical = true ∧ (zoneAt s (zoneKey 1 0)).slot = some 1 ∧ (tfind s.accums 1).isSome = true ∧ (tfind s.pages (1 * 2 ^ 29 + 0)).isSome = true) ∧
    (let s : State := { alone cns anIo with memA := { up.memA with poison := [7] }, cws := [(5, { nsid := 1, cmd := some 9, lba := 3 })] }
     7 ∈ (memAt s .ca).poison ∧ s.canonical = true ∧ notSent s 9 3 = true ∧ (nsAt s 1).zoned = false ∧ (tfind s.cmds 9).isSome = true) := by decide +kernel
/-! ### The sheaf, firmware, bulk ports, events and the SMBus. -/
/-- A member of a sheaf of lead 3 with both ports up, and the lead itself. -/
def member : State := { up with sheaf := { up.sheaf with
  st := 1, pos := 5, lead := 3, u0 := { link := 2, nbr := some (3, .u1) }, u1 := { link := 2, nbr := some (6, .u0) },
  members := [(3, { st := 2, via := .u0, eligible := true }), (6, { st := 1, via := .u1 })] } }
def lead : State := { member with sheaf := { member.sheaf with st := 2, lead := 5, members := [(3, { st := 1 }), (6, { st := 1, via := .u1 })], membersMax := 3 } }
/-- A message to them, to one module or to all. -/
def aHdr (src : Nat) (bcast : Bool) : CulmHdr := { alive := 9, src := src, dst := 5, bcast := bcast }
theorem hears_all : member.hears .u0 (aHdr 3 false) ∧ member.hears .u0 (aHdr 3 true) ∧ lead.hears .u0 (aHdr 6 false) ∧ lead.hears .u0 (aHdr 6 true) := by
  refine ⟨⟨?_, ?_, ?_, ?_, ?_⟩, ⟨?_, ?_, ?_, ?_, ?_⟩, ⟨?_, ?_, ?_, ?_, ?_⟩, ⟨?_, ?_, ?_, ?_, ?_⟩⟩ <;> decide +kernel
theorem witness_SheafPortsAndRachisAct :
    member.hears .u0 (aHdr 3 false) ∧ member.hears .u0 (aHdr 3 true) ∧ (cardAt up (cardOfCulm .u0)).serving = true ∧ (culmAt up .u0).link < 2 ∧
    portUp member .u0 = true ∧ (culmAt member .u0).nbr = some (3, .u1) ∧ elapsed (later 8 member) (culmAt member .u0).downAt 8 = true ∧
    elapsed (later 400 up) (culmAt up .u0).downAt 400 = true ∧ some (aHdr 3 false).alive ≠ (culmAt member .u0).aliveRx ∧ 3 ≤ member.sheaf.pos ∧
    (rising member.sheaf.members = true ∧ (memberAt' member 6).st ≠ 0 ∧ elapsed (later 64 member) (memberAt' member 6).seenAt 64 = true ∧ member.sheaf.planCmd = none) ∧
    leadKnown member = true ∧ member.sheaf.handCmd = none ∧ leadKnown { member with sheaf := { member.sheaf with members := [] } } = false ∧
    elapsed (later 16 member) member.sheaf.rachisAt 16 = true ∧
    (let s := later 64 { member with sheaf := { member.sheaf with backoff := some (64 * 16000), foreignAt := some 0 } }
     s.sheaf.backoff = some (64 * 16000) ∧ elapsed s (64 * 16000) 0 = true ∧ elapsed s 0 64 = true) :=
  ⟨hears_all.1, hears_all.2.1, by decide +kernel⟩
theorem witness_SheafLeadSharesBudgetPlansAndEvents :
    member.hears .u0 (aHdr 3 false) ∧ lead.hears .u0 (aHdr 6 false) ∧
    (elapsed (later 16 member) member.sheaf.rachisAt 16 = true ∧ member.sheaf.enabled = true ∧ member.sheaf.handed = false ∧ carries member.pair.ca = true ∧
      (∀ m ∈ census member, m.2.st ≠ 2 → m.2.eligible = true → member.sheaf.pos ≤ m.1)) ∧ (aHdr 3 false).src = member.sheaf.lead ∧
    (let s : State := { member with sheaf := { member.sheaf with hand := some (5, 0) } }
     s.sheaf.hand = some (5, 0) ∧ 0 ≤ sfcNow s ∧ s.sheaf.handCmd = none) ∧
    (let s : State := { lead with sheaf := { lead.sheaf with hand := some (6, 0), handCmd := some (.h0, 3, 0xE4, 2) } }
     s.sheaf.st = 2 ∧ 6 ≠ s.sheaf.pos ∧ 0 ≤ sfcNow s) ∧
    (let l : List GrantShare := [{ pos := 5, base := 1, want := 2, grant := 2 }, { pos := 3, base := 1, want := 1, grant := 1 }]
     (l.map (·.pos)).Nodup ∧ member.sheaf.pos = 5) ∧
    (let s : State := { lead with sheaf := { lead.sheaf with planCmd := some (.h0, 3, 0xE5), members := [(6, { st := 1, via := .u1 })] } }
     rising s.sheaf.members = true ∧ ∀ m ∈ census s, m.1 ≠ 6 → m.2.acked = true) ∧
    (let s : State := { member with events := { member.events with recA := { member.events.recA with main := [{ code := 1 }] } } }
     s.time.master = .ca ∧ (ownRecords s)[s.sheaf.eventAcked + 0]? = some { code := 1 }) ∧
    (∀ s ∈ [member, lead], let u : State := { s with sheaf := { s.sheaf with sfc := 40, fcAt := s.time.fc } }
      sfcNow u % 64 = 40 ∧ rising u.sheaf.members = true) ∧ portUp member (memberAt' member member.sheaf.lead).via = true ∧
    (let s : State := { member with sheaf := { member.sheaf with grantless := 4 } }
     isMember s = true ∧ s.sheaf.stale = false) ∧ (memberAt' lead 6).st ≠ 0 ∧ lead.sheaf.planCmd = none ∧
    (∃ m ∈ lead.sheaf.members, m.2.st ≠ 0 ∧ m.1 ≠ lead.sheaf.pos ∧ m.2.acked = false) ∧ elapsed (later 16 lead) lead.sheaf.planAt 16 = true ∧
    elapsed (later 16 member) member.sheaf.eventAt 16 = true ∧ lead.sheaf.ring = [] :=
  ⟨hears_all.1, hears_all.2.2.1, by decide +kernel⟩
/-- That an image passes R359 rests on board revisions, the hash and the signature, which are opaque, and has no witness. -/
theorem witness_FirmwareIsStagedCommittedAndConfirmed :
    (let e : Sqe := { cdw10 := 1023, dlen := 4096 }
     (e.cdw10.toNat + 1) * 4 ≤ 4194304 ∧ (e.cdw10.toNat + 1) * 4 ≤ imageMax + cosignMax ∧ (e.cdw10.toNat + 1) * 4 ≤ e.dlen ∧ up.admits e = true) ∧
    (∀ a ∈ [0, 1, 3], let f := asCommit a { cdw10 := 2 }
      commitOk f = true ∧ fsSlot (cardAt up .ca) (d10 f 2 0) = 2 ∧ (cardAt up .ca).active = 1 ∧ (activeSlot (cardAt up .ca)).confirmed = true ∧
        (cardAt up .ca).activating = 0 ∧ (cardAt up .ca).writing = none ∧ mayActivate up .ca = true ∧ (isSheaf (fwOf []).image && up.sheaf.st == 2) = false ∧
        checkNew up .ca (fwOf []) (a == 3) = some 10) ∧
    (let f := asCommit 2 { cdw10 := 2 }
     commitOk f = true ∧ fsSlot (cardAt up .ca) (d10 f 2 0) = 2 ∧ (slotOf (cardAt up .ca) 2).valid = true) ∧
    (let w : SlotWrite := { slot := 2, action := 3, cmd := some (.h0, 9, 0x10) }
     let s := updCard .ca (fun c => { c with writing := some w }) up
     (cardAt s .ca).serving = true ∧ (cardAt s .ca).writing = some w ∧ w.written = false ∧ w.both = false ∧ w.relay = false ∧ (cardAt s .cb).writing = none) ∧
    (let s := updFrond 0 (fun g => { g with code := [1] }) up
     filnasDue s 0 = true ∧ (∀ n, n < 16 → (frondAt s n).switched = none) ∧ s.pair.filSwitch = 0) ∧
    (let s := later 64 (updFrond 0 (fun g => { g with switched := some 0 }) up)
     s.canonical = true ∧ (frondAt s 0).switched = some 0 ∧ elapsed s 0 64 = true) ∧
    (let s := updCard .ca (fun c => { c with window := some 0 }) (later 3600000 up)
     (cardAt s .ca).window = some 0 ∧ (cardAt s .ca).hb = 1 ∧ ownerOf s (homeGroup .ca) = .ca ∧ elapsed s (cardAt s .ca).soakAt 240000 = true ∧ filnasEnded s = true ∧
       (cardAt s .cb).entering ≠ 3 ∧ elapsed s 0 3600000 = true ∧ (cardAt s .cb).serving = true ∧
       (cardAt (updCard .cb (fun c => { c with serving := false }) s) .cb).serving = false) ∧ up.quiet :=
  ⟨by decide +kernel, by decide +kernel, by decide +kernel, by decide +kernel, by decide +kernel, by decide +kernel, by decide +kernel, quiet_up⟩
theorem witness_SporesAreRelayedAndActivated :
    member.hears .u0 (aHdr 3 true) ∧ lead.hears .u0 (aHdr 6 false) ∧ (relayOf member).st = 0 ∧
    (let s := later 3600000 { member with sheaf := { member.sheaf with relay := { st := 3, spores := 2, verified := 0, held := [(1, [])] } } }
     (relayOf s).st = 3 ∧ (relayOf s).verified < 1 ∧ 1 ≤ (relayOf s).spores ∧ elapsed s (relayOf s).stepAt 16 = true ∧ (culmAt s (relayOf s).up).nbr = some (3, .u1) ∧
       portUp s (relayOf s).up = true ∧ (tfind (relayOf s).held 1).isSome = true ∧ (relayOf s).own = false ∧ mayActivate s .cb = true ∧ (relayOf s).state ≠ 1) ∧
    (let s : State := { lead with sheaf := { lead.sheaf with relay := { st := 2, mask := 64 } } }
     (relayOf s).st = 2 ∧ bit (relayOf s).mask 6 = true ∧ (memberAt' s 6).st ≠ 0 ∧ (memberAt' s 6).st ≠ 4 ∧ rising s.sheaf.members = true) ∧
    (let s := later 3600000 { lead with sheaf := { lead.sheaf with relay := { st := 4, activating := some 6, mask := 64 } } }
     (relayOf s).st = 4 ∧ (relayOf s).activating = some 6 ∧ ownPart s = false ∧ (∀ m ∈ takingPart s, m.1 ≠ 6 → m.2.activated = true) ∧ elapsed s (relayOf s).stepAt 3600000 = true) :=
  ⟨hears_all.2.1, hears_all.2.2.1, by decide +kernel⟩
/-- A Bulk Read's command 9 with one packet out on queue pair 0 of CA. -/
def bulkCmd : Cmd := { e := { anIo with opc := 0x88 }, kind := .bulkRead, st := .reading, nlb := 3, desc := { enable := true, len := 1048576 } }
def bulkOut (out : List (Nat × Nat × Nat × Nat × Bool)) : State :=
  { up with cmds := [(9, bulkCmd)], qps := [(0, { used := true, out := out })], b0 := { up.b0 with linkUp := true, gid := 1 } }
theorem witness_BulkPortsMoveDataAndRecover :
    (let s := bulkOut [(0, 9, 0, 4096, false), (1, 9, 1, 4096, false)]
     s.canonical = true ∧ (qpAt s 0).used = true ∧ qpKeyOf bulkCmd.desc = 0 ∧ bulkCmd.st = .reading ∧ bulkCmd.pieces = [] ∧ (qpAt s 0).todo = [] ∧ bulkCmd.status = none ∧
       superseded s bulkCmd.slice bulkCmd.gen = false ∧ (ctrlAt s bulkCmd.e.port).link = true ∧ s.pieces = [] ∧
       (tfind s.cmds 9).isSome = true ∧ (qpAt s 0).retries < (bulkAt s (qpCard 0)).retryCnt ∧ portSends s (qpCard 0) = true ∧ (qpAt s 0).error = 0) ∧
    (let s := later 2 (bulkOut [(0, 9, 0, 4096, false)])
     ackOverdue s 0 = true ∧ portSends s (qpCard 0) = true ∧
       ackOverdue { s with b0 := { s.b0 with paused := true } } 0 = true ∧ portSends { s with b0 := { s.b0 with paused := true } } (qpCard 0) = false ∧
       (qpAt s 0).retries < (bulkAt s (qpCard 0)).retryCnt) ∧
    portSends { bulkOut [] with b0 := up.b0 } (qpCard 0) = false ∧ qpCmds { bulkOut [] with cmds := [] } 0 = [] ∧
    (let s : State := { bulkOut [(0, 9, 0, 4096, false)] with qps := [(0, { used := true, retries := 7, out := [(0, 9, 0, 4096, false)] })] }
     (bulkAt s (qpCard 0)).retryCnt ≤ (qpAt s 0).retries) ∧
    (let s := bulkOut [(0, 9, 0, 4096, true), (1, 9, 1, 4096, true), (2, 9, 2, 4096, true)]
     let total := cdiv (min (bulkCmd.nlb * 4096) (regionRoom bulkCmd)) 4096
     total ≤ (qpAt s 0).out.length + bulkCmd.data.length ∧ bulkCmd.data.length + 1 < total ∧ (∃ x ∈ (qpAt s 0).out.tail, x.1 = 2)) ∧
    (let s := later 255 { up with qps := [(0, { used := true, rate := 10 })] }
     (qpAt s 0).rate < 8000 ∧ elapsed s (qpAt s 0).cnpAt (bulkAt s (qpCard 0)).recover = true) ∧
    (bulkAt (bulkOut []) .ca).gid ≠ 0 ∧ (bulkAt (bulkOut []) .ca).paused = false ∧
    (let s := later 64 { up with b0 := { up.b0 with downAt := some 0 } }
     s.canonical = true ∧ (bulkAt s .ca).downAt = some 0 ∧ elapsed s 0 64 = true ∧ s.cmds = []) := by decide +kernel
theorem witness_NoncesHandlesAndRecordersAct :
    (let k : Token := { handle := 65535, born := 0 }
     let s := later 240000 (updSec (fun x => { x with tokens := [k], attestQ := [65535], signedAt := none }) up)
     k ∈ s.sec.tokens ∧ elapsed s k.born 240000 = true ∧ s.sec.attestQ = [65535] ∧ (cardAt s s.time.master).serving = true ∧ s.sec.signedAt = none ∧ s.pair.handTo = none) ∧
    elapsed (later 2400000 up) 0 2400000 = true ∧ up.time.resetHeld = false ∧ anyServe up = true ∧ recFull up = false ∧
    (tget {} up.events.buckets 256).taken < depthOf up.events 256 ∧ up.events.ring.length < 256 ∧
    (let s : State := { up with events := { up.events with buckets := [(256, { taken := 8 })] } }
     depthOf s.events 256 ≤ (tget {} s.events.buckets 256).taken ∧ s.time.fc % max 1 s.events.period = 0 ∧ s.events.refilled ≠ some s.time.fc ∧ (∀ b ∈ s.events.buckets, b.2.rate + b.2.ring = 0) ∧ rising s.events.buckets = true) ∧
    (let r : EventRec := { code := 0x10 }
     let s : State := { up with events := { up.events with writing := [(r, some { cid := 65535 })], sumQ := [] } }
     r.reserve = false ∧ s.pair.ca.copying = false ∧ s.pair.cb.copying = false ∧ s.sheaf.st ≠ 2 ∧ s.events.changeQ = [] ∧ s.events.sumQ = [] ∧ s.events.ring = [] ∧
       (recAt s s.time.master).main.length + 1 < mainSize ∧ (recAt s s.time.master).full = false) ∧
    (cardAt (updCard .cb (fun c => { c with copying := true }) up) .cb).copying = true ∧
    ({ up with events := { up.events with erasedTo := some 1023 } } : State).events.erasedTo = some 1023 := by decide +kernel
theorem witness_SmbusAndMiRequestsAreAnswered :
    miServes up = true ∧ miServes { up with time := { up.time with resetHeld := true } } = false ∧ changeRoom up = true ∧ d10 { cdw10 := 2 } 7 0 ≤ 2 ∧
    (match identifyData up { cdw10 := 2, dlen := 4096 } with | .ok _ => true | _ => false) = true ∧ logBytes { cdw10 := 0 } ≤ 4096 ∧
    4096 < logBytes { cdw10 := 0xFFFF0000 } ∧ (match logWindow up (asLog 0x03 { dlen := 4 }) 4 0 with | .ok _ => true | _ => false) = true ∧
    d10 { cdw10 := 4 } 10 8 = 0 ∧ (featureValue up { cdw10 := 4 } true).isSome = true := by decide +kernel
/-- A level 2 token for a Slice Create without a payload. -/
def aToken (e : Sqe) : Token := { handle := 9, type := 2, body := [e.opc, 2] ++ zeros 6 ++ cdwBytes e }
theorem witness_ChangesNeedRecordRoomAndToken :
    adminOpen up .h1 = true ∧ up.power.ps ≤ 2 ∧ up.power.entry = none ∧ up.power.exit = none ∧ up.sec.running = none ∧ up.nss = [] ∧ changeRoom up = true ∧
    (let e : Sqe := { opc := 0xC1 }
     let s := updSec (fun x => { x with level := 2, tokens := [aToken e] }) up
     s.sec.level = 2 ∧ tokenFits e (aToken e) = true) ∧
    (updSec (fun x => { x with level := 2, tokens := [] }) up).sec.tokens = [] := by decide +kernel
/-- A main area and a reserve with these records. -/
def withRecs (l : List EventRec) : State := { up with events := { up.events with recA := { up.events.recA with main := l, reserve := l } } }
theorem noRoom (l : List EventRec) (h : 1044480 ≤ l.length) : adminOpen (withRecs l) .h0 = true ∧ changeRoom (withRecs l) = false := by
  have e : changeRoom (withRecs l) = (decide (l.length + 0 < 1044480) || decide (l.length + 0 < 4096)) := rfl
  refine ⟨rfl, ?_⟩
  rw [e, Bool.or_eq_false_iff, decide_eq_false_iff_not, decide_eq_false_iff_not]
  omega
theorem witness_ChangesNeedRecordRoom : ∃ s : State, adminOpen s .h0 = true ∧ changeRoom s = false :=
  ⟨withRecs (List.replicate 1044480 {}), noRoom _ (List.length_replicate ..).ge⟩
theorem witness_CanonicalTablesKept : up.canonical = true ∧ ∃ t, step up = .next t := ⟨by decide +kernel, _, rfl⟩
end Sys2Proof.Tests
end

