-- ==== Sys2Proof/Proofs/RowClock.lean ====
section
/-! SUPPORT. What every row of the command table does to the queue of waiting commands and to (EP, FC): but for a tick and the
four rows that open a power epoch (R15, R16), nothing. One lemma for each row, over the lemmas of Laws/Clock about the operations
that rows are written over; `exec_clock` then goes through the rows. -/
namespace Sys2Proof.Laws
open Sys2Proof Sys2Proof.Machine

/-- The outcome is a next state, with this queue of waiting commands, EP and FC (see `State.clock`). -/
def EndsAt (k : List Instr × Nat × Nat) (o : Out) : Prop := ∃ t, o = .next t ∧ t.clock = k

@[simp] theorem endsAt_next (k : List Instr × Nat × Nat) (t : State) : EndsAt k (.next t) ↔ t.clock = k := by simp [EndsAt]
@[simp] theorem endsAt_ite (k : List Instr × Nat × Nat) (p : Prop) [Decidable p] (a b : Out) :
    EndsAt k (if p then a else b) ↔ (p → EndsAt k a) ∧ (¬p → EndsAt k b) := by split <;> simp [*]

variable {s : State}

/-! ### Rows that run one operation behind a gate. -/
/-- An I/O row keeps the clock where the run of its entry does (R159, R171). -/
theorem clock_ioRow {e : Sqe} {run : Nat → State → State} (h : ∀ k t, (run k t).clock = t.clock) :
    EndsAt s.clock (.next (ioRun e run s)) := by simp [h]
/-- An admin row keeps the clock where the operation behind the gate does (R333, R344, R428). -/
theorem clock_adminRow {e : Sqe} {run : State → State} (h : ∀ t, (run t).clock = t.clock) :
    EndsAt s.clock (.next (admin e run s)) := by simp [h]
/-- A Set Features row keeps the clock where its feature does (R163). -/
theorem clock_runFeature {fid : Nat} {e : Sqe} {f : Sqe → State → State} (h : ∀ x t, (f x t).clock = t.clock) :
    EndsAt s.clock (runFeature fid e f s) := clock_adminRow fun _ => clock_setFeature _ _ _ (h _)
/-- A Firmware Commit row keeps the clock where its action does (R357). -/
theorem clock_runCommit {f : Sqe → State → State} {e : Sqe} (h : ∀ x t, (f x t).clock = t.clock) :
    EndsAt s.clock (runCommit f e s) := clock_adminRow fun _ => by simp [h]

/-! ### Fetch (R49). -/
theorem clock_execCommandFetch (e : Sqe) : EndsAt s.clock (execCommandFetch e s) := by
  unfold execCommandFetch
  split
  · simp
  · split
    next h => simpa using clock_tryFetch_some h
    · simp

/-! ### I/O commands, and commands that wait. -/
theorem clock_execFlush (e : Sqe) : EndsAt s.clock (execFlush e s) := clock_ioRow fun _ _ => by simp
theorem clock_execWrite (e : Sqe) : EndsAt s.clock (execWrite e s) := clock_ioRow fun _ _ => by simp
theorem clock_execRead (e : Sqe) : EndsAt s.clock (execRead e s) := clock_ioRow fun _ _ => by simp
theorem clock_execWriteZeroes (e : Sqe) : EndsAt s.clock (execWriteZeroes e s) := clock_ioRow fun _ _ => by simp
theorem clock_execDatasetManagement (e : Sqe) : EndsAt s.clock (execDatasetManagement e s) := clock_ioRow fun _ _ => by simp
theorem clock_execVerify (e : Sqe) : EndsAt s.clock (execVerify e s) := clock_ioRow fun _ _ => by simp
theorem clock_execCopy (e : Sqe) : EndsAt s.clock (execCopy e s) := clock_ioRow fun _ _ => by simp
theorem clock_execZoneOpen (e : Sqe) : EndsAt s.clock (execZoneOpen e s) := clock_ioRow fun _ _ => by simp
theorem clock_execZoneClose (e : Sqe) : EndsAt s.clock (execZoneClose e s) := clock_ioRow fun _ _ => by simp
theorem clock_execZoneFinish (e : Sqe) : EndsAt s.clock (execZoneFinish e s) := clock_ioRow fun _ _ => by simp
theorem clock_execZoneReset (e : Sqe) : EndsAt s.clock (execZoneReset e s) := clock_ioRow fun _ _ => by simp
theorem clock_execZoneOffline (e : Sqe) : EndsAt s.clock (execZoneOffline e s) := clock_ioRow fun _ _ => by simp
theorem clock_execSetZoneDescriptorExtension (e : Sqe) : EndsAt s.clock (execSetZoneDescriptorExtension e s) := clock_ioRow fun _ _ => by simp
theorem clock_execReportZones (e : Sqe) : EndsAt s.clock (execReportZones e s) := clock_ioRow fun _ _ => by simp
theorem clock_execZoneAppend (e : Sqe) : EndsAt s.clock (execZoneAppend e s) := clock_ioRow fun _ _ => by simp
theorem clock_execWinnowRead (e : Sqe) : EndsAt s.clock (execWinnowRead e s) := clock_ioRow fun _ _ => by simp
theorem clock_execZoneDigest (e : Sqe) : EndsAt s.clock (execZoneDigest e s) := clock_ioRow fun _ _ => by simp
theorem clock_execBulkRead (e : Sqe) : EndsAt s.clock (execBulkRead e s) := clock_ioRow fun _ _ => by simp
theorem clock_execBulkAppend (e : Sqe) : EndsAt s.clock (execBulkAppend e s) := clock_ioRow fun _ _ => by simp
theorem clock_execForwardedCommand (cmd epoch : Nat) : EndsAt s.clock (execForwardedCommand cmd epoch s) := by simp [execForwardedCommand]
theorem clock_execPieceList (cmd : Nat) : EndsAt s.clock (execPieceList cmd s) := by simp [execPieceList]
theorem clock_execRangeLockGrant (cmd : Nat) : EndsAt s.clock (execRangeLockGrant cmd s) := by simp [execRangeLockGrant]
theorem clock_execRangeLockTimeout (cmd : Nat) : EndsAt s.clock (execRangeLockTimeout cmd s) := by simp [execRangeLockTimeout]
theorem clock_execZoneOpenWaitExpiry (cmd : Nat) : EndsAt s.clock (execZoneOpenWaitExpiry cmd s) := by simp [execZoneOpenWaitExpiry]
theorem clock_execGcWriteWaitExpiry (cmd : Nat) : EndsAt s.clock (execGcWriteWaitExpiry cmd s) := by simp [execGcWriteWaitExpiry]
theorem clock_execFullWaitExpiry (cmd : Nat) : EndsAt s.clock (execFullWaitExpiry cmd s) := by simp [execFullWaitExpiry]
theorem clock_execBufferDeferralExpiry (cmd : Nat) : EndsAt s.clock (execBufferDeferralExpiry cmd s) := by simp [execBufferDeferralExpiry]

/-! ### Media: markers, plans, checks of dies and channels. -/
theorem clock_execFrameStartMarker (frond : Frond) (card : CardId) (low : BitVec 16) (phase : Int) :
    EndsAt s.clock (execFrameStartMarker frond card low phase s) := by simp [execFrameStartMarker]
theorem clock_execMarkerMissing (frond : Frond) : EndsAt s.clock (execMarkerMissing frond s) := by simp [execMarkerMissing]
theorem clock_execMediaRequest (req cnt : Nat) : EndsAt s.clock (execMediaRequest req cnt s) := by simp [execMediaRequest]
theorem clock_execPlanClose (frond : Frond) : EndsAt s.clock (execPlanClose frond s) := by simp [execPlanClose]
theorem clock_execFramePlanFix (frond : Frond) (cnt : Nat) : EndsAt s.clock (execFramePlanFix frond cnt s) := by simp [execFramePlanFix]
theorem clock_execFramePlanMessage (card : CardId) (frond : Frond) (ctr : BitVec 8) (crcOk : Bool) :
    EndsAt s.clock (execFramePlanMessage card frond ctr crcOk s) := by simp [execFramePlanMessage]
theorem clock_execSuspendPoint (die : Nat) : EndsAt s.clock (execSuspendPoint die s) := by simp [execSuspendPoint]
theorem clock_execSegmentCheck (die : Nat) (ready : Bool) : EndsAt s.clock (execSegmentCheck die ready s) := by simp [execSegmentCheck]
theorem clock_execReadCheck (die plane cnt : Nat) (ended : Bool) : EndsAt s.clock (execReadCheck die plane cnt ended s) := by
  simp only [execReadCheck]
  repeat' split
  all_goals simp
theorem clock_execChannelPlanOverrun (chan : Nat) (dropped : List Nat) : EndsAt s.clock (execChannelPlanOverrun chan dropped s) := by
  simp [execChannelPlanOverrun]
theorem clock_execChannelCapRestore (chan : Nat) : EndsAt s.clock (execChannelCapRestore chan s) := by simp [execChannelCapRestore]
theorem clock_execQuarantineLift (die : Nat) : EndsAt s.clock (execQuarantineLift die s) := by simp [execQuarantineLift]
theorem clock_execSenseEnd (die plane : Nat) : EndsAt s.clock (execSenseEnd die plane s) := by
  simp only [execSenseEnd]
  split <;> simp
theorem clock_execDataOutEnd (req : Nat) : EndsAt s.clock (execDataOutEnd req s) := by simp [execDataOutEnd]
theorem clock_execDecodeResult (req : Nat) (tier : Tier) (bad cbc cnt : Nat) : EndsAt s.clock (execDecodeResult req tier bad cbc cnt s) := by
  simp [execDecodeResult]
theorem clock_execEraseDone (die : Nat) (pass : Bool) : EndsAt s.clock (execEraseDone die pass s) := by simp [execEraseDone]
theorem clock_execEraseJournalRecord (frond : Frond) : EndsAt s.clock (execEraseJournalRecord frond s) := by
  simp only [execEraseJournalRecord]
  repeat' split
  all_goals simp
theorem clock_execDieResetTimeout (die : Nat) : EndsAt s.clock (execDieResetTimeout die s) := by simp [execDieResetTimeout]
theorem clock_execChannelRetrainDue (chan : Nat) : EndsAt s.clock (execChannelRetrainDue chan s) := by simp [execChannelRetrainDue]
theorem clock_execChannelTrainingEnd (chan : Nat) (failed : List Nat) (eye temp : Nat) :
    EndsAt s.clock (execChannelTrainingEnd chan failed eye temp s) := by simp [execChannelTrainingEnd]
theorem clock_execRefreshDone (die block : Nat) : EndsAt s.clock (execRefreshDone die block s) := by
  simp only [execRefreshDone]
  split <;> simp
theorem clock_execScrubDue (die block : Nat) : EndsAt s.clock (execScrubDue die block s) := by
  simp only [execScrubDue]
  split <;> simp
theorem clock_execReadOffsetRecalibration (die group : Nat) (offsets : List Int) :
    EndsAt s.clock (execReadOffsetRecalibration die group offsets s) := by simp [execReadOffsetRecalibration]

/-! ### Read pieces and stream engines. -/
theorem clock_execReadPieceDelivery (piece : Nat) : EndsAt s.clock (execReadPieceDelivery piece s) := by simp [execReadPieceDelivery]
theorem clock_execReconstructionDone (piece : Nat) : EndsAt s.clock (execReconstructionDone piece s) := by simp [execReconstructionDone]
theorem clock_execStreamEngineUnit (card : CardId) (engine : Nat) : EndsAt s.clock (execStreamEngineUnit card engine s) := by
  simp [execStreamEngineUnit]
theorem clock_execCommandDeadline (cmd : Nat) : EndsAt s.clock (execCommandDeadline cmd s) := by simp [execCommandDeadline]

/-! ### Fold, programs and accumulators. -/
theorem clock_execProgramStatusReport (prog : Nat) (pass : Bool) : EndsAt s.clock (execProgramStatusReport prog pass s) := by
  simp [execProgramStatusReport]
theorem clock_execPackWaitExpiry (frond : Frond) : EndsAt s.clock (execPackWaitExpiry frond s) := by simp [execPackWaitExpiry]
theorem clock_execFoldHoldExpiry (slot pos row : Nat) : EndsAt s.clock (execFoldHoldExpiry slot pos row s) := by simp [execFoldHoldExpiry]
theorem clock_execQlcProgramDone (report : DieStatus) : EndsAt s.clock (execQlcProgramDone report s) := by simp [execQlcProgramDone]
theorem clock_execFoldVerifyDone (die : Nat) (within : Bool) : EndsAt s.clock (execFoldVerifyDone die within s) := by simp [execFoldVerifyDone]
theorem clock_execMemberTableProgram (frond : Frond) : EndsAt s.clock (execMemberTableProgram frond s) := by
  simp only [execMemberTableProgram]
  repeat' split
  all_goals simp
theorem clock_execAccumulatorRecomputeDone (nsid zone : Nat) : EndsAt s.clock (execAccumulatorRecomputeDone nsid zone s) := by
  simp [execAccumulatorRecomputeDone]
theorem clock_execRebuildStripeDone (slot pos : Nat) : EndsAt s.clock (execRebuildStripeDone slot pos s) := by simp [execRebuildStripeDone]

/-! ### Journal, map pages, checkpoints and allocation. -/
theorem clock_execMapJournalProgrammed (card : CardId) : EndsAt s.clock (execMapJournalProgrammed card s) := by simp [execMapJournalProgrammed]
theorem clock_execMapPageRead (nsid page : Nat) : EndsAt s.clock (execMapPageRead nsid page s) := by simp [execMapPageRead]
theorem clock_execCheckpointStart (card : CardId) : EndsAt s.clock (execCheckpointStart card s) := by simp [execCheckpointStart]
theorem clock_execCheckpointComplete (card : CardId) : EndsAt s.clock (execCheckpointComplete card s) := by
  unfold execCheckpointComplete
  split <;> simp
theorem clock_execAllocatorRequest (nsid zone : Nat) (cls : Nat) : EndsAt s.clock (execAllocatorRequest nsid zone cls s) := by
  simp [execAllocatorRequest]
theorem clock_execGcVictimRelease (slot : Nat) : EndsAt s.clock (execGcVictimRelease slot s) := by simp [execGcVictimRelease]

/-! ### Bulk ports. -/
theorem clock_execRdmaAck (qp psn cnt : Nat) : EndsAt s.clock (execRdmaAck qp psn cnt s) := by simp [execRdmaAck]
theorem clock_execNakSequenceError (qp psn : Nat) : EndsAt s.clock (execNakSequenceError qp psn s) := by simp [execNakSequenceError]
theorem clock_execNakRemoteAccessError (qp : Nat) : EndsAt s.clock (execNakRemoteAccessError qp s) := by simp [execNakRemoteAccessError]
theorem clock_execNakRemoteOperationalError (qp : Nat) : EndsAt s.clock (execNakRemoteOperationalError qp s) := by
  simp [execNakRemoteOperationalError]
theorem clock_execAckTimeout (qp : Nat) : EndsAt s.clock (execAckTimeout qp s) := by
  unfold execAckTimeout
  split <;> simp
theorem clock_execRdmaReadResponse (qp psn : Nat) (ce : Bool) (cnt : Nat) (bytes : List Byte) :
    EndsAt s.clock (execRdmaReadResponse qp psn ce cnt bytes s) := by simp [execRdmaReadResponse]
theorem clock_execCnpReceived (qp : Nat) : EndsAt s.clock (execCnpReceived qp s) := by simp [execCnpReceived]
theorem clock_execRateRecover (qp : Nat) : EndsAt s.clock (execRateRecover qp s) := by simp [execRateRecover]
theorem clock_execInvalidRequestPacket (bulk : CardId) (qp psn : Nat) (opcode : BitVec 8) :
    EndsAt s.clock (execInvalidRequestPacket bulk qp psn opcode s) := by simp [execInvalidRequestPacket]
theorem clock_execArpRequest (bulk : CardId) (target : BitVec 32) (senderMac : BitVec 48) (senderIp : BitVec 32) :
    EndsAt s.clock (execArpRequest bulk target senderMac senderIp s) := by simp [execArpRequest]
theorem clock_execNeighborSolicitation (bulk : CardId) (target : BitVec 128) (sender : BitVec 128) :
    EndsAt s.clock (execNeighborSolicitation bulk target sender s) := by simp [execNeighborSolicitation]
theorem clock_execPfcFrame (bulk : CardId) (prio quanta : Nat) : EndsAt s.clock (execPfcFrame bulk prio quanta s) := by simp [execPfcFrame]
theorem clock_execPfcPauseEnd (bulk : CardId) : EndsAt s.clock (execPfcPauseEnd bulk s) := by simp [execPfcPauseEnd]
theorem clock_execOtherFrame (bulk : CardId) : EndsAt s.clock (execOtherFrame bulk s) := by simp [execOtherFrame]
theorem clock_execBulkLinkDown (bulk : CardId) : EndsAt s.clock (execBulkLinkDown bulk s) := by simp [execBulkLinkDown]
theorem clock_execBulkLinkUp (bulk : CardId) : EndsAt s.clock (execBulkLinkUp bulk s) := by simp [execBulkLinkUp]
theorem clock_execBulkLinkDownExpiry (bulk : CardId) : EndsAt s.clock (execBulkLinkDownExpiry bulk s) := by
  unfold execBulkLinkDownExpiry
  split <;> simp

/-! ### Markers lost and late plans. -/
theorem clock_execMarkerLost (frond : Frond) : EndsAt s.clock (execMarkerLost frond s) := by simp [execMarkerLost]
theorem clock_execPlanLate (frond : Frond) (cnt : Nat) : EndsAt s.clock (execPlanLate frond cnt s) := by
  simp only [execPlanLate, endsAt_ite, endsAt_next, implies_true, true_and]
  refine fun _ => ⟨fun _ => ?_, fun _ => ?_⟩ <;>
    simp only [clock_coreFailed, clock_updFrond, clock_foldl, clock_delayCw, clock_settleFailed, implies_true] <;>
    exact (clock_foldl _ _ _ fun t n => by split <;> simp).trans (by simp)

/-! ### Controllers, host registers and doorbells. -/
theorem clock_execCcEnClear (port : Port) : EndsAt s.clock (execCcEnClear port s) := by simp [execCcEnClear]
theorem clock_execFunctionLevelReset (port : Port) : EndsAt s.clock (execFunctionLevelReset port s) := by simp [execFunctionLevelReset]
theorem clock_execControllerLevelReset (port : Port) : EndsAt s.clock (execControllerLevelReset port s) := by simp [execControllerLevelReset]
theorem clock_execPcieLinkLoss (port : Port) : EndsAt s.clock (execPcieLinkLoss port s) := by simp [execPcieLinkLoss]
theorem clock_execPcieLinkUp (port : Port) : EndsAt s.clock (execPcieLinkUp port s) := by simp [execPcieLinkUp]
theorem clock_execShutdownNotification (port : Port) : EndsAt s.clock (execShutdownNotification port s) := by simp [execShutdownNotification]
theorem clock_execShutdownComplete (port : Port) : EndsAt s.clock (execShutdownComplete port s) := by simp [execShutdownComplete]
theorem clock_execSqTailDoorbell (port : Port) (sqid tail cnt : Nat) : EndsAt s.clock (execSqTailDoorbell port sqid tail cnt s) := by
  simp [execSqTailDoorbell]
theorem clock_execCqHeadDoorbell (port : Port) (cqid head : Nat) : EndsAt s.clock (execCqHeadDoorbell port cqid head s) := by
  simp [execCqHeadDoorbell]
theorem clock_execRegisterWrite (port : Port) (reg : HostReg) (value hwSet : BitVec 64) :
    EndsAt s.clock (execRegisterWrite port reg value hwSet s) := by
  simp only [execRegisterWrite]
  repeat' split
  all_goals simp

/-! ### The pair. -/
theorem clock_execHeartbeat (card : CardId) (hb : HeartbeatMsg) : EndsAt s.clock (execHeartbeat card hb s) := by simp [execHeartbeat]
theorem clock_execHeartbeatMissed (card : CardId) : EndsAt s.clock (execHeartbeatMissed card s) := by simp [execHeartbeatMissed]
theorem clock_execCardPresentOpen (card : CardId) : EndsAt s.clock (execCardPresentOpen card s) := by simp [execCardPresentOpen]
theorem clock_execFenceReceived (frond : Frond) (fenced : CardId) : EndsAt s.clock (execFenceReceived frond fenced s) := by
  simp [execFenceReceived]
theorem clock_execRhizomeLaneLoss (trainsOn8 : Bool) : EndsAt s.clock (execRhizomeLaneLoss trainsOn8 s) := by simp [execRhizomeLaneLoss]
theorem clock_execMirrorRecord (card : CardId) (msn : Nat) : EndsAt s.clock (execMirrorRecord card msn s) := by simp [execMirrorRecord]
theorem clock_execMirrorAck (card : CardId) (msn : Nat) : EndsAt s.clock (execMirrorAck card msn s) := by simp [execMirrorAck]
theorem clock_execMirrorAckTimeout (card : CardId) (msn : Nat) : EndsAt s.clock (execMirrorAckTimeout card msn s) := by
  simp [execMirrorAckTimeout]
theorem clock_execOwnershipTransfer (group : Group) (dest : CardId) : EndsAt s.clock (execOwnershipTransfer group dest s) := by
  simp [execOwnershipTransfer]
theorem clock_execOwnershipCopyDone (group : Group) : EndsAt s.clock (execOwnershipCopyDone group s) := by simp [execOwnershipCopyDone]
theorem clock_execTakeoverComplete (card : CardId) : EndsAt s.clock (execTakeoverComplete card s) := by
  unfold execTakeoverComplete
  split <;> simp
theorem clock_execTickMasterHandover : EndsAt s.clock (execTickMasterHandover s) := by simp [execTickMasterHandover]

/-! ### Power states. -/
theorem clock_execEntryDelayExpiry (block : Nat) : EndsAt s.clock (execEntryDelayExpiry block s) := by
  unfold execEntryDelayExpiry
  split <;> simp
theorem clock_execRegulatorAck (reg : RegId) : EndsAt s.clock (execRegulatorAck reg s) := by simp [execRegulatorAck]
theorem clock_execRegulatorTimeout (reg : RegId) : EndsAt s.clock (execRegulatorTimeout reg s) := by
  unfold execRegulatorTimeout
  split <;> simp
theorem clock_execOscillatorTimeout (card : CardId) : EndsAt s.clock (execOscillatorTimeout card s) := by simp [execOscillatorTimeout]

/-! ### PEUs and fuses. -/
theorem clock_execFeedStart (peu : PeuId) : EndsAt s.clock (execFeedStart peu s) := by simp [execFeedStart]
theorem clock_execFeedUnderVoltage (peu : PeuId) : EndsAt s.clock (execFeedUnderVoltage peu s) := by simp [execFeedUnderVoltage]
theorem clock_execHoldUpExpiry (peu : PeuId) : EndsAt s.clock (execHoldUpExpiry peu s) := by simp [execHoldUpExpiry]
theorem clock_execFeedReturnWithinHoldUp (peu : PeuId) : EndsAt s.clock (execFeedReturnWithinHoldUp peu s) := by simp [execFeedReturnWithinHoldUp]
theorem clock_execFeedOverVoltage (peu : PeuId) : EndsAt s.clock (execFeedOverVoltage peu s) := by simp [execFeedOverVoltage]
theorem clock_execOverVoltageRecovery (peu : PeuId) : EndsAt s.clock (execOverVoltageRecovery peu s) := by simp [execOverVoltageRecovery]
theorem clock_execReversePolarity (peu : PeuId) : EndsAt s.clock (execReversePolarity peu s) := by simp [execReversePolarity]
theorem clock_execOpenReturn (peu : PeuId) : EndsAt s.clock (execOpenReturn peu s) := by simp [execOpenReturn]
theorem clock_execInputShort (peu : PeuId) : EndsAt s.clock (execInputShort peu s) := by simp [execInputShort]
theorem clock_execOutputOverCurrent (peu : PeuId) : EndsAt s.clock (execOutputOverCurrent peu s) := by simp [execOutputOverCurrent]
theorem clock_execHiccupRestart (peu : PeuId) : EndsAt s.clock (execHiccupRestart peu s) := by simp [execHiccupRestart]
theorem clock_execPeuOverTemperature (peu : PeuId) : EndsAt s.clock (execPeuOverTemperature peu s) := by simp [execPeuOverTemperature]
theorem clock_execPeuTemperatureRecovery (peu : PeuId) : EndsAt s.clock (execPeuTemperatureRecovery peu s) := by simp [execPeuTemperatureRecovery]
theorem clock_execPeuStatusSend (peu : PeuId) (meas : PeuMeasure) : EndsAt s.clock (execPeuStatusSend peu meas s) := by simp [execPeuStatusSend]
theorem clock_execPeuStatus (card : CardId) (peu : PeuId) (alive : BitVec 8) (crcOk : Bool) (st : PeuStatusMsg) :
    EndsAt s.clock (execPeuStatus card peu alive crcOk st s) := by simp [execPeuStatus]
theorem clock_execAlarm (card : CardId) (peu : PeuId) (alive : BitVec 8) (faults : BitVec 16) (vin : Int) (st : Nat) :
    EndsAt s.clock (execAlarm card peu alive faults vin st s) := by
  simp only [execAlarm, endsAt_ite, endsAt_next, clock_capacityStep, clock_ite, clock_foldl, clock_updFrond, clock_event, clock_updPower,
    clock_left2, clock_updPeu, clock_aenPage, clock_hear, implies_true, true_and, ite_self]
  intro _ _
  exact (clock_foldl _ _ _ fun t n => by split <;> simp).trans (clock_hear ..)
theorem clock_execStatusSilence (card : CardId) (peu : PeuId) : EndsAt s.clock (execStatusSilence card peu s) := by simp [execStatusSilence]
theorem clock_execCapacityFallback : EndsAt s.clock (execCapacityFallback s) := by
  unfold execCapacityFallback
  split <;> simp
theorem clock_execCardStatus (peu : PeuId) (card : CardId) (alive : BitVec 8) (crcOk : Bool) :
    EndsAt s.clock (execCardStatus peu card alive crcOk s) := by simp [execCardStatus]
theorem clock_execOutputEnable (peu : PeuId) (m : BarrierCmd) : EndsAt s.clock (execOutputEnable peu m s) := by simp [execOutputEnable]
theorem clock_execOutputDisable (peu : PeuId) (m : BarrierCmd) : EndsAt s.clock (execOutputDisable peu m s) := by simp [execOutputDisable]
theorem clock_execCurrentLimitSet (peu : PeuId) (m : BarrierCmd) (limit : Nat) : EndsAt s.clock (execCurrentLimitSet peu m limit s) := by
  unfold execCurrentLimitSet
  split <;> simp
theorem clock_execMarginSet (peu : PeuId) (m : BarrierCmd) (margin : Int) : EndsAt s.clock (execMarginSet peu m margin s) := by
  unfold execMarginSet
  split <;> simp
theorem clock_execImageBlock (peu : PeuId) (m : BarrierCmd) (offset : Nat) (bytes : List Byte) :
    EndsAt s.clock (execImageBlock peu m offset bytes s) := by
  unfold execImageBlock
  split <;> simp
theorem clock_execImageEnd (peu : PeuId) (m : BarrierCmd) (length : Nat) (sha : List Byte) : EndsAt s.clock (execImageEnd peu m length sha s) :=
   by
  simp only [execImageEnd, endsAt_next]
  exact clock_atPeu _ _ _ _ _ fun t => by
    split
    · simp
    · split <;> simp
theorem clock_execImageActivate (peu : PeuId) (m : BarrierCmd) : EndsAt s.clock (execImageActivate peu m s) := by
  simp only [execImageActivate, endsAt_next]
  exact clock_atPeu _ _ _ _ _ fun t => by split <;> simp
theorem clock_execPeuUpdatingTimeout (peu : PeuId) : EndsAt s.clock (execPeuUpdatingTimeout peu s) := by simp [execPeuUpdatingTimeout]
theorem clock_execPeuActivateRetry (peu : PeuId) : EndsAt s.clock (execPeuActivateRetry peu s) := by simp [execPeuActivateRetry]
theorem clock_execCalRead (peu : PeuId) (m : BarrierCmd) (index : Nat) : EndsAt s.clock (execCalRead peu m index s) := by
  unfold execCalRead
  split <;> simp
theorem clock_execCalWrite (peu : PeuId) (m : BarrierCmd) (index : Nat) (value : BitVec 32) : EndsAt s.clock (execCalWrite peu m index value s) :=
   by
  simp only [execCalWrite, endsAt_next]
  exact clock_atPeu _ _ _ _ _ fun t => by
    split
    · simp
    · split <;> simp
theorem clock_execBarrierUnknownType (peu : PeuId) (atPeu : Bool) (m : BarrierCmd) (type : BitVec 8) :
    EndsAt s.clock (execBarrierUnknownType peu atPeu m type s) := by simp [execBarrierUnknownType]
theorem clock_execAckNak (card : CardId) (peu : PeuId) (type alive : BitVec 8) (result : Nat) (data : BitVec 32) :
    EndsAt s.clock (execAckNak card peu type alive result data s) := by
  simp only [execAckNak]
  repeat' split
  all_goals simp
theorem clock_execBarrierCommandTimeout (peu : PeuId) : EndsAt s.clock (execBarrierCommandTimeout peu s) := by
  unfold execBarrierCommandTimeout
  split <;> simp
theorem clock_execFuseTrip (slot : FuseSlot) : EndsAt s.clock (execFuseTrip slot s) := by simp [execFuseTrip]
theorem clock_execFuseRetry (slot : FuseSlot) : EndsAt s.clock (execFuseRetry slot s) := by
  simp only [execFuseRetry]
  split <;> simp
theorem clock_execFuseHoldReset (slot : FuseSlot) : EndsAt s.clock (execFuseHoldReset slot s) := by
  simp only [execFuseHoldReset]
  split <;> simp

/-! ### Sensors. -/
theorem clock_execSensorSlowRound (readings : List SensorReading) : EndsAt s.clock (execSensorSlowRound readings s) := by
  simp only [execSensorSlowRound, endsAt_next, clock_thermalStep]
  exact (clock_foldl _ _ _ fun t f => by split <;> simp).trans (by simp)
theorem clock_execThermalShutdown (sensor : SensorId) : EndsAt s.clock (execThermalShutdown sensor s) := by
  unfold execThermalShutdown
  split <;> simp
theorem clock_execSensorBroken (sensor : SensorId) : EndsAt s.clock (execSensorBroken sensor s) := by
  unfold execSensorBroken
  split <;> simp
theorem clock_execSensorValidAgain (sensor : SensorId) : EndsAt s.clock (execSensorValidAgain sensor s) := by simp [execSensorValidAgain]

/-! ### Starts and resets that keep the epoch. -/
theorem clock_execResetNAssert (frames : Nat) : EndsAt s.clock (execResetNAssert frames s) := by simp [execResetNAssert]
theorem clock_execNamespacesReady (card : CardId) : EndsAt s.clock (execNamespacesReady card s) := by simp [execNamespacesReady]
theorem clock_execCardStart (card : CardId) (failedUnits : List Nat) (activeOk otherOk : Bool) :
    EndsAt s.clock (execCardStart card failedUnits activeOk otherOk s) := by
  simp only [execCardStart]
  repeat' split
  all_goals simp
theorem clock_execCardEnterService (card : CardId) : EndsAt s.clock (execCardEnterService card s) := by simp [execCardEnterService]

/-! ### Fronds, cards and PEUs in and out of service. -/
theorem clock_execFrondPresentClose (frond : Frond) : EndsAt s.clock (execFrondPresentClose frond s) := by simp [execFrondPresentClose]
theorem clock_execFrondSettled (frond : Frond) (ident : FrondIdent) : EndsAt s.clock (execFrondSettled frond ident s) := by
  simp [execFrondSettled]
theorem clock_execFrondAcceptance (frond : Frond) : EndsAt s.clock (execFrondAcceptance frond s) := by
  simp only [execFrondAcceptance]
  split <;> simp
theorem clock_execFrondPresentOpen (frond : Frond) : EndsAt s.clock (execFrondPresentOpen frond s) := by simp [execFrondPresentOpen]
theorem clock_execPrepareProgramCut (frond : Frond) : EndsAt s.clock (execPrepareProgramCut frond s) := by simp [execPrepareProgramCut]
theorem clock_execPrepareComplete (frond : Frond) : EndsAt s.clock (execPrepareComplete frond s) := by simp [execPrepareComplete]
theorem clock_execCardPresentClose (card : CardId) (ident : CardIdent) : EndsAt s.clock (execCardPresentClose card ident s) := by
  simp [execCardPresentClose]
theorem clock_execSvcButtonHold (card : CardId) : EndsAt s.clock (execSvcButtonHold card s) := by simp [execSvcButtonHold]
theorem clock_execPeuPresentOpen (peu : PeuId) : EndsAt s.clock (execPeuPresentOpen peu s) := by simp [execPeuPresentOpen]
theorem clock_execPeuPresentClose (peu : PeuId) (ident : PeuIdent) (code : List Byte) : EndsAt s.clock (execPeuPresentClose peu ident code s) := by
  simp [execPeuPresentClose]
theorem clock_execEngineWatchdog (engine : EngineRef) : EndsAt s.clock (execEngineWatchdog engine s) := by
  unfold execEngineWatchdog
  split <;> simp

/-! ### Spikelet, buffers and DRAM. -/
theorem clock_execSpikeletUpdate (card : CardId) (pos : Nat) (entry : SpikEntry) : EndsAt s.clock (execSpikeletUpdate card pos entry s) := by
  simp [execSpikeletUpdate]
theorem clock_execSpikeletShadowCompare (card : CardId) (bank : Nat) (faulty : List Nat) :
    EndsAt s.clock (execSpikeletShadowCompare card bank faulty s) := by simp [execSpikeletShadowCompare]
theorem clock_execSpikeletSearch (card : CardId) (profile : Nat) (key : BitVec 320) (mask : SearchMask) :
    EndsAt s.clock (execSpikeletSearch card profile key mask s) := by simp [execSpikeletSearch]
theorem clock_execBufferRequest (card : CardId) (pool : Pool) (count : Nat) (engine : Nat) :
    EndsAt s.clock (execBufferRequest card pool count engine s) := by simp [execBufferRequest]
theorem clock_execReferenceDecrement (card : CardId) (handle : BitVec 32) (consumers engine : Nat) :
    EndsAt s.clock (execReferenceDecrement card handle consumers engine s) := by simp [execReferenceDecrement]
theorem clock_execFence (card : CardId) (source : Nat) : EndsAt s.clock (execFence card source s) := by simp [execFence]
theorem clock_execDramCorrectedError (card : CardId) (rank : Nat) : EndsAt s.clock (execDramCorrectedError card rank s) := by
  simp [execDramCorrectedError]
theorem clock_execDramUncorrectableError (card : CardId) (rank line : Nat) : EndsAt s.clock (execDramUncorrectableError card rank line s) := by
  simp [execDramUncorrectableError]
theorem clock_execRankRetrainDue (card : CardId) (rank : Nat) : EndsAt s.clock (execRankRetrainDue card rank s) := by
  simp only [execRankRetrainDue]
  split <;> simp
theorem clock_execRankCopyDone (card : CardId) : EndsAt s.clock (execRankCopyDone card s) := by simp [execRankCopyDone]
theorem clock_execRankTrainingEnd (card : CardId) (pass : Bool) (eye temp : Nat) : EndsAt s.clock (execRankTrainingEnd card pass eye temp s) := by
  unfold execRankTrainingEnd
  split <;> simp
theorem clock_execRankMigrationDone (card : CardId) : EndsAt s.clock (execRankMigrationDone card s) := by
  unfold execRankMigrationDone
  split <;> simp
theorem clock_execPoisonRead (card : CardId) (line : Nat) (use : PoisonUse) : EndsAt s.clock (execPoisonRead card line use s) := by
  simp [execPoisonRead]
theorem clock_execCheckUnitCombine (card : CardId) (unit : Nat) (value : BitVec 64) (bytes : Nat) :
    EndsAt s.clock (execCheckUnitCombine card unit value bytes s) := by simp [execCheckUnitCombine]
theorem clock_execCheckContextLoad (card : CardId) (unit : Nat) (load : Option CheckCtx) :
    EndsAt s.clock (execCheckContextLoad card unit load s) := by simp [execCheckContextLoad]

/-! ### The sheaf. -/
theorem clock_execCulmLinkUp (port : CulmPort) (nbrPos : Nat) (nbrPort : CulmPort) (lanes : Nat) :
    EndsAt s.clock (execCulmLinkUp port nbrPos nbrPort lanes s) := by simp [execCulmLinkUp]
theorem clock_execCulmPortDown (port : CulmPort) : EndsAt s.clock (execCulmPortDown port s) := by simp [execCulmPortDown]
theorem clock_execCulmRetrain (port : CulmPort) (trained : Bool) : EndsAt s.clock (execCulmRetrain port trained s) := by simp [execCulmRetrain]
theorem clock_execCulmLaneLoss (port : CulmPort) : EndsAt s.clock (execCulmLaneLoss port s) := by simp [execCulmLaneLoss]
theorem clock_execDelayMeasure (port : CulmPort) : EndsAt s.clock (execDelayMeasure port s) := by
  unfold execDelayMeasure
  split <;> simp
theorem clock_execDelayReq (port : CulmPort) (hdr : CulmHdr) (sent recv : Nat) : EndsAt s.clock (execDelayReq port hdr sent recv s) := by
  simp [execDelayReq]
theorem clock_execDelayRsp (port : CulmPort) (hdr : CulmHdr) (reqSent reqRecv rspSent rspRecv : Nat) :
    EndsAt s.clock (execDelayRsp port hdr reqSent reqRecv rspSent rspRecv s) := by simp [execDelayRsp]
theorem clock_execHello (port : CulmPort) (hdr : CulmHdr) (msg : HelloMsg) : EndsAt s.clock (execHello port hdr msg s) := by simp [execHello]
theorem clock_execCensus (port : CulmPort) (hdr : CulmHdr) (list : List CensusEntry) : EndsAt s.clock (execCensus port hdr list s) := by
  simp only [execCensus]
  repeat' split
  all_goals simp
theorem clock_execCensusExpiry (pos : Nat) : EndsAt s.clock (execCensusExpiry pos s) := by simp [execCensusExpiry]
theorem clock_execRachis (port : CulmPort) (hdr : CulmHdr) (sfc leadEpoch leadPos : Nat) (correction arrival : Int) :
    EndsAt s.clock (execRachis port hdr sfc leadEpoch leadPos correction arrival s) := by simp [execRachis]
theorem clock_execTickIoPulse (own : Bool) : EndsAt s.clock (execTickIoPulse own s) := by simp [execTickIoPulse]
theorem clock_execTickIoFallback (offset : Int) : EndsAt s.clock (execTickIoFallback offset s) := by simp [execTickIoFallback]
theorem clock_execTickIoDriveResume : EndsAt s.clock (execTickIoDriveResume s) := by
  simp only [execTickIoDriveResume]
  split <;> simp
theorem clock_execLeadLost : EndsAt s.clock (execLeadLost s) := by simp [execLeadLost]
theorem clock_execHandover (hdr : CulmHdr) (successor switchSfc : Nat) : EndsAt s.clock (execHandover hdr successor switchSfc s) := by
  simp [execHandover]
theorem clock_execHandoverSwitch : EndsAt s.clock (execHandoverSwitch s) := by
  unfold execHandoverSwitch
  split <;> simp
theorem clock_execDemandSend : EndsAt s.clock (execDemandSend s) := by simp [execDemandSend]
theorem clock_execDemand (hdr : CulmHdr) (base want cap : Nat) : EndsAt s.clock (execDemand hdr base want cap s) := by simp [execDemand]
theorem clock_execGrantCompute : EndsAt s.clock (execGrantCompute s) := by simp [execGrantCompute]
theorem clock_execGrant (hdr : CulmHdr) (epoch budget : Nat) (ovr : Bool) (shares : List GrantShare) :
    EndsAt s.clock (execGrant hdr epoch budget ovr shares s) := by simp [execGrant]
theorem clock_execGrantStale : EndsAt s.clock (execGrantStale s) := by simp [execGrantStale]
theorem clock_execPlan (hdr : CulmHdr) (planGen firstEpoch : Nat) (body : List Byte) : EndsAt s.clock (execPlan hdr planGen firstEpoch body s) := by
  simp [execPlan]
theorem clock_execPlanAck (hdr : CulmHdr) (planGen : Nat) : EndsAt s.clock (execPlanAck hdr planGen s) := by simp [execPlanAck]
theorem clock_execPlanResend : EndsAt s.clock (execPlanResend s) := by simp [execPlanResend]
theorem clock_execSheafEvent (hdr : CulmHdr) (records : List EventRec) : EndsAt s.clock (execSheafEvent hdr records s) := by simp [execSheafEvent]
theorem clock_execEventAck (hdr : CulmHdr) (last : EventRec) : EndsAt s.clock (execEventAck hdr last s) := by simp [execEventAck]

/-! ### Event recording. -/
theorem clock_execEventIntake (code cls source obj arg0 arg1 arg2 cnt : Nat) :
    EndsAt s.clock (execEventIntake code cls source obj arg0 arg1 arg2 cnt s) := by simp [execEventIntake]
theorem clock_execEventRefill : EndsAt s.clock (execEventRefill s) := by simp [execEventRefill]
theorem clock_execRecorderProgramEnd : EndsAt s.clock (execRecorderProgramEnd s) := by simp [execRecorderProgramEnd]
theorem clock_execRecorderCopyDone (card : CardId) : EndsAt s.clock (execRecorderCopyDone card s) := by simp [execRecorderCopyDone]
theorem clock_execRecorderSectorEraseDone : EndsAt s.clock (execRecorderSectorEraseDone s) := by simp [execRecorderSectorEraseDone]

/-! ### Queues and Identify. -/
theorem clock_execCreateIoCompletionQueue (e : Sqe) : EndsAt s.clock (execCreateIoCompletionQueue e s) := clock_adminRow fun _ => by simp
theorem clock_execCreateIoSubmissionQueue (e : Sqe) : EndsAt s.clock (execCreateIoSubmissionQueue e s) := clock_adminRow fun _ => by simp
theorem clock_execDeleteIoSubmissionQueue (e : Sqe) : EndsAt s.clock (execDeleteIoSubmissionQueue e s) := clock_adminRow fun _ => by simp
theorem clock_execDeleteIoCompletionQueue (e : Sqe) : EndsAt s.clock (execDeleteIoCompletionQueue e s) := clock_adminRow fun _ => by simp
theorem clock_execAbort (e : Sqe) : EndsAt s.clock (execAbort e s) := clock_adminRow fun _ => by simp
theorem clock_execAsynchronousEventRequest (e : Sqe) : EndsAt s.clock (execAsynchronousEventRequest e s) := clock_adminRow fun _ => by simp
theorem clock_execUnsupportedOpcode (e : Sqe) : EndsAt s.clock (execUnsupportedOpcode e s) := by simp [execUnsupportedOpcode]

/-! ### Log pages. -/
theorem clock_execIdentify (e : Sqe) : EndsAt s.clock (execIdentify e s) := clock_adminRow fun _ => by simp
theorem clock_execGetLogErrorInformation (e : Sqe) : EndsAt s.clock (execGetLogErrorInformation e s) := clock_adminRow fun _ => by simp
theorem clock_execGetLogSmartHealth (e : Sqe) : EndsAt s.clock (execGetLogSmartHealth e s) := clock_adminRow fun _ => by simp
theorem clock_execGetLogFirmwareSlot (e : Sqe) : EndsAt s.clock (execGetLogFirmwareSlot e s) := clock_adminRow fun _ => by simp
theorem clock_execGetLogStandard (e : Sqe) : EndsAt s.clock (execGetLogStandard e s) := by simp [execGetLogStandard]
theorem clock_execGetLogModuleRecorder (e : Sqe) : EndsAt s.clock (execGetLogModuleRecorder e s) := clock_adminRow fun _ => by simp
theorem clock_execGetLogFrondEvents (e : Sqe) : EndsAt s.clock (execGetLogFrondEvents e s) := clock_adminRow fun _ => by simp
theorem clock_execGetLogFrameStatistics (e : Sqe) : EndsAt s.clock (execGetLogFrameStatistics e s) := clock_adminRow fun _ => by simp
theorem clock_execGetLogStripeHealth (e : Sqe) : EndsAt s.clock (execGetLogStripeHealth e s) := clock_adminRow fun _ => by simp
theorem clock_execGetLogBlockWear (e : Sqe) : EndsAt s.clock (execGetLogBlockWear e s) := clock_adminRow fun _ => by simp
theorem clock_execGetLogMediaReadHealth (e : Sqe) : EndsAt s.clock (execGetLogMediaReadHealth e s) := clock_adminRow fun _ => by simp
theorem clock_execGetLogSeedbedStatus (e : Sqe) : EndsAt s.clock (execGetLogSeedbedStatus e s) := clock_adminRow fun _ => by simp
theorem clock_execGetLogSliceTable (e : Sqe) : EndsAt s.clock (execGetLogSliceTable e s) := clock_adminRow fun _ => by simp
theorem clock_execGetLogPowerThermal (e : Sqe) : EndsAt s.clock (execGetLogPowerThermal e s) := clock_adminRow fun _ => by simp
theorem clock_execGetLogSheafStatus (e : Sqe) : EndsAt s.clock (execGetLogSheafStatus e s) := clock_adminRow fun _ => by simp
theorem clock_execGetLogBufferDramHealth (e : Sqe) : EndsAt s.clock (execGetLogBufferDramHealth e s) := clock_adminRow fun _ => by simp
theorem clock_execGetLogSecurityState (e : Sqe) : EndsAt s.clock (execGetLogSecurityState e s) := clock_adminRow fun _ => by simp
theorem clock_execGetLogAttestation (e : Sqe) : EndsAt s.clock (execGetLogAttestation e s) := clock_adminRow fun _ => by simp
theorem clock_execInvalidLogPage (e : Sqe) : EndsAt s.clock (execInvalidLogPage e s) := by simp [execInvalidLogPage]

/-! ### Features. -/
theorem clock_execSetFeaturesArbitration (e : Sqe) : EndsAt s.clock (execSetFeaturesArbitration e s) := clock_runFeature fun _ _ => by simp
theorem clock_execSetFeaturesPowerManagement (e : Sqe) : EndsAt s.clock (execSetFeaturesPowerManagement e s) :=
  clock_runFeature fun _ _ => by simp
theorem clock_execSetFeaturesTemperatureThreshold (e : Sqe) : EndsAt s.clock (execSetFeaturesTemperatureThreshold e s) :=
  clock_runFeature fun _ _ => by simp
theorem clock_execSetFeaturesNumberOfQueues (e : Sqe) : EndsAt s.clock (execSetFeaturesNumberOfQueues e s) := clock_runFeature fun _ _ => by simp
theorem clock_execSetFeaturesInterruptCoalescing (e : Sqe) : EndsAt s.clock (execSetFeaturesInterruptCoalescing e s) :=
  clock_runFeature fun _ _ => by simp
theorem clock_execSetFeaturesInterruptVector (e : Sqe) : EndsAt s.clock (execSetFeaturesInterruptVector e s) :=
  clock_runFeature fun _ _ => by simp
theorem clock_execSetFeaturesAsyncEventConfig (e : Sqe) : EndsAt s.clock (execSetFeaturesAsyncEventConfig e s) :=
  clock_runFeature fun _ _ => by simp
theorem clock_execSetFeaturesTimestamp (e : Sqe) : EndsAt s.clock (execSetFeaturesTimestamp e s) := clock_runFeature fun _ _ => by simp
theorem clock_execSetFeaturesVolatileWriteCache (e : Sqe) : EndsAt s.clock (execSetFeaturesVolatileWriteCache e s) :=
  clock_runFeature fun _ _ => by simp
theorem clock_execSetFeaturesUnsupported (e : Sqe) : EndsAt s.clock (execSetFeaturesUnsupported e s) := by simp [execSetFeaturesUnsupported]
theorem clock_execSetFeaturesFrameParameters (e : Sqe) : EndsAt s.clock (execSetFeaturesFrameParameters e s) :=
  clock_runFeature fun _ _ => by simp
theorem clock_execSetFeaturesThermalThrottlePoints (e : Sqe) : EndsAt s.clock (execSetFeaturesThermalThrottlePoints e s) :=
  clock_runFeature fun _ _ => by simp
theorem clock_execSetFeaturesMediaPowerBudget (e : Sqe) : EndsAt s.clock (execSetFeaturesMediaPowerBudget e s) :=
  clock_runFeature fun _ _ => by simp
theorem clock_execSetFeaturesEventRateLimit (e : Sqe) : EndsAt s.clock (execSetFeaturesEventRateLimit e s) := clock_runFeature fun _ _ => by simp
theorem clock_execSetFeaturesScrubPolicy (e : Sqe) : EndsAt s.clock (execSetFeaturesScrubPolicy e s) := clock_runFeature fun _ _ => by simp
theorem clock_execSetFeaturesDramInterleaveGrain (e : Sqe) : EndsAt s.clock (execSetFeaturesDramInterleaveGrain e s) :=
  clock_runFeature fun _ _ => by simp
theorem clock_execSetFeaturesBulkPort (e : Sqe) : EndsAt s.clock (execSetFeaturesBulkPort e s) := clock_runFeature fun _ _ => by simp
theorem clock_execSetFeaturesDeadlineMissPolicy (e : Sqe) : EndsAt s.clock (execSetFeaturesDeadlineMissPolicy e s) :=
  clock_runFeature fun _ _ => by simp
theorem clock_execSetFeaturesSeedbedPolicy (e : Sqe) : EndsAt s.clock (execSetFeaturesSeedbedPolicy e s) := clock_runFeature fun _ _ => by simp
theorem clock_execGetFeatures (e : Sqe) : EndsAt s.clock (execGetFeatures e s) := clock_adminRow fun _ => by simp

/-! ### Namespaces. -/
theorem clock_execNamespaceCreate (e : Sqe) : EndsAt s.clock (execNamespaceCreate e s) := clock_adminRow fun _ => by simp
theorem clock_execNamespaceDelete (e : Sqe) : EndsAt s.clock (execNamespaceDelete e s) := clock_adminRow fun _ => by simp
theorem clock_execNamespaceAttach (e : Sqe) : EndsAt s.clock (execNamespaceAttach e s) := clock_adminRow fun _ => by simp
theorem clock_execNamespaceDetach (e : Sqe) : EndsAt s.clock (execNamespaceDetach e s) := clock_adminRow fun _ => by simp

/-! ### Firmware. -/
theorem clock_execFirmwareImageDownload (e : Sqe) : EndsAt s.clock (execFirmwareImageDownload e s) := clock_adminRow fun _ => by simp
theorem clock_execFirmwareCommitReplace (e : Sqe) : EndsAt s.clock (execFirmwareCommitReplace e s) := clock_runCommit fun _ _ => by simp
theorem clock_execFirmwareCommitNextStart (e : Sqe) : EndsAt s.clock (execFirmwareCommitNextStart e s) := clock_runCommit fun _ _ => by simp
theorem clock_execFirmwareCommitActivateSlot (e : Sqe) : EndsAt s.clock (execFirmwareCommitActivateSlot e s) := clock_runCommit fun _ _ => by simp
theorem clock_execFirmwareCommitImmediate (e : Sqe) : EndsAt s.clock (execFirmwareCommitImmediate e s) := clock_runCommit fun _ _ => by simp
theorem clock_execSlotWriteDone (card : CardId) : EndsAt s.clock (execSlotWriteDone card s) := by
  unfold execSlotWriteDone
  split <;> simp
theorem clock_execFilnasUpdate (frond : Frond) : EndsAt s.clock (execFilnasUpdate frond s) := by simp [execFilnasUpdate]
theorem clock_execFilnasUpdateTimeout (frond : Frond) : EndsAt s.clock (execFilnasUpdateTimeout frond s) := by
  simp only [execFilnasUpdateTimeout]
  split <;> simp
theorem clock_execHealthConfirm (card : CardId) : EndsAt s.clock (execHealthConfirm card s) := by simp [execHealthConfirm]
theorem clock_execHealthWindowExpiry (card : CardId) : EndsAt s.clock (execHealthWindowExpiry card s) := by
  simp only [execHealthWindowExpiry]
  split <;> simp

/-! ### Image relay. -/
theorem clock_execSporeOffer (hdr : CulmHdr) (relayId length spores action originator : Nat) (chain : List Byte) :
    EndsAt s.clock (execSporeOffer hdr relayId length spores action originator chain s) := by simp [execSporeOffer]
theorem clock_execSporeData (port : CulmPort) (hdr : CulmHdr) (relayId index piece : Nat) (bytes chain : List Byte) :
    EndsAt s.clock (execSporeData port hdr relayId index piece bytes chain s) := by simp [execSporeData]
theorem clock_execSporeMissing (index : Nat) : EndsAt s.clock (execSporeMissing index s) := by
  simp only [execSporeMissing]
  repeat' split
  all_goals simp
theorem clock_execSporeResend (port : CulmPort) (hdr : CulmHdr) (relayId index : Nat) :
    EndsAt s.clock (execSporeResend port hdr relayId index s) := by simp [execSporeResend]
theorem clock_execSporeConfirm (hdr : CulmHdr) (relayId highest state reason : Nat) :
    EndsAt s.clock (execSporeConfirm hdr relayId highest state reason s) := by simp [execSporeConfirm]
theorem clock_execRelayActivate (hdr : CulmHdr) (relayId : Nat) : EndsAt s.clock (execRelayActivate hdr relayId s) := by simp [execRelayActivate]
theorem clock_execActivateDone (hdr : CulmHdr) (relayId result : Nat) : EndsAt s.clock (execActivateDone hdr relayId result s) := by
  simp [execActivateDone]
theorem clock_execActivationTimeout : EndsAt s.clock (execActivationTimeout s) := by simp [execActivationTimeout]
theorem clock_execRelayEnd (hdr : CulmHdr) (relayId result : Nat) : EndsAt s.clock (execRelayEnd hdr relayId result s) := by simp [execRelayEnd]

/-! ### Slices. -/
theorem clock_execSliceCreate (e : Sqe) : EndsAt s.clock (execSliceCreate e s) := clock_adminRow fun _ => by simp
theorem clock_execSliceReset (e : Sqe) : EndsAt s.clock (execSliceReset e s) := clock_adminRow fun _ => by simp
theorem clock_execSliceDelete (e : Sqe) : EndsAt s.clock (execSliceDelete e s) := clock_adminRow fun _ => by simp
theorem clock_execSliceFreeze (e : Sqe) : EndsAt s.clock (execSliceFreeze e s) := clock_adminRow fun _ => by simp
theorem clock_execSliceThaw (e : Sqe) : EndsAt s.clock (execSliceThaw e s) := clock_adminRow fun _ => by simp
theorem clock_execSliceStateSave (e : Sqe) : EndsAt s.clock (execSliceStateSave e s) := clock_adminRow fun _ => by simp
theorem clock_execSliceStateRestore (e : Sqe) : EndsAt s.clock (execSliceStateRestore e s) := clock_adminRow fun _ => by simp
theorem clock_execQueueResume (e : Sqe) : EndsAt s.clock (execQueueResume e s) := clock_adminRow fun _ => by simp
theorem clock_execShareSet (e : Sqe) : EndsAt s.clock (execShareSet e s) := clock_adminRow fun _ => by simp
theorem clock_execFormatNvm (e : Sqe) : EndsAt s.clock (execFormatNvm e s) := clock_adminRow fun _ => by simp

/-! ### Rules, programs and endpoints. -/
theorem clock_execSpikeletRuleWrite (e : Sqe) : EndsAt s.clock (execSpikeletRuleWrite e s) := clock_adminRow fun _ => by simp
theorem clock_execSpikeletRuleRead (e : Sqe) : EndsAt s.clock (execSpikeletRuleRead e s) := clock_adminRow fun _ => by simp
theorem clock_execWinnowProgramLoad (e : Sqe) : EndsAt s.clock (execWinnowProgramLoad e s) := clock_adminRow fun _ => by simp
theorem clock_execBulkEndpointSet (e : Sqe) : EndsAt s.clock (execBulkEndpointSet e s) := clock_adminRow fun _ => by simp

/-! ### Security. -/
theorem clock_execAuthorizationSubmitToken (e : Sqe) : EndsAt s.clock (execAuthorizationSubmitToken e s) := clock_adminRow fun _ => by simp
theorem clock_execIssueNonce (e : Sqe) : EndsAt s.clock (execIssueNonce e s) := clock_adminRow fun _ => by simp
theorem clock_execNonceExpiry (nonce : BitVec 64) : EndsAt s.clock (execNonceExpiry nonce s) := by simp [execNonceExpiry]
theorem clock_execHandleExpiry (handle : Nat) : EndsAt s.clock (execHandleExpiry handle s) := by simp [execHandleExpiry]
theorem clock_execAttestationSignature : EndsAt s.clock (execAttestationSignature s) := by
  simp only [execAttestationSignature]
  split <;> simp
theorem clock_execGuardLevelChange (e : Sqe) : EndsAt s.clock (execGuardLevelChange e s) := clock_adminRow fun _ => by simp
theorem clock_execSanitize (e : Sqe) : EndsAt s.clock (execSanitize e s) := clock_adminRow fun _ => by simp
theorem clock_execEventClearFrond (e : Sqe) : EndsAt s.clock (execEventClearFrond e s) := clock_adminRow fun _ => by simp
theorem clock_execEventClearModule (e : Sqe) : EndsAt s.clock (execEventClearModule e s) := clock_adminRow fun _ => by simp

/-! ### Frond, sheaf and power entry control. -/
theorem clock_execPrepareRemoval (e : Sqe) : EndsAt s.clock (execPrepareRemoval e s) := clock_adminRow fun _ => by simp
theorem clock_execCancelPrepare (e : Sqe) : EndsAt s.clock (execCancelPrepare e s) := clock_adminRow fun _ => by simp
theorem clock_execDeclareLost (e : Sqe) : EndsAt s.clock (execDeclareLost e s) := clock_adminRow fun _ => by simp
theorem clock_execSetRebuildRate (e : Sqe) : EndsAt s.clock (execSetRebuildRate e s) := clock_adminRow fun _ => by simp
theorem clock_execLocateLedOn (e : Sqe) : EndsAt s.clock (execLocateLedOn e s) := clock_adminRow fun _ => by simp
theorem clock_execLocateLedOff (e : Sqe) : EndsAt s.clock (execLocateLedOff e s) := clock_adminRow fun _ => by simp
theorem clock_execEnableCulmPorts (e : Sqe) : EndsAt s.clock (execEnableCulmPorts e s) := clock_adminRow fun _ => by simp
theorem clock_execDisableCulmPorts (e : Sqe) : EndsAt s.clock (execDisableCulmPorts e s) := clock_adminRow fun _ => by simp
theorem clock_execHandOverLead (e : Sqe) : EndsAt s.clock (execHandOverLead e s) := by
  simp only [execHandOverLead, endsAt_next]
  exact clock_admin _ _ _ fun _ => clock_sheafCmd _ _ _ fun _ => by simp
theorem clock_execSetShelfPowerBudget (e : Sqe) : EndsAt s.clock (execSetShelfPowerBudget e s) := by
  simp only [execSetShelfPowerBudget, endsAt_next]
  exact clock_admin _ _ _ fun _ => clock_sheafCmd _ _ _ fun _ => by simp
theorem clock_execSheafPhasePlanSet (e : Sqe) : EndsAt s.clock (execSheafPhasePlanSet e s) := clock_adminRow fun _ => by simp
theorem clock_execPeuEnableOutput (e : Sqe) : EndsAt s.clock (execPeuEnableOutput e s) := clock_adminRow fun _ => by simp
theorem clock_execPeuDisableOutput (e : Sqe) : EndsAt s.clock (execPeuDisableOutput e s) := clock_adminRow fun _ => by simp
theorem clock_execPeuSetCurrentLimit (e : Sqe) : EndsAt s.clock (execPeuSetCurrentLimit e s) := clock_adminRow fun _ => by simp
theorem clock_execPeuSetMargin (e : Sqe) : EndsAt s.clock (execPeuSetMargin e s) := clock_adminRow fun _ => by simp

/-! ### SMBus and NVMe-MI. -/
theorem clock_execSmbusBlockRead (offset : Nat) : EndsAt s.clock (execSmbusBlockRead offset s) := by
  unfold execSmbusBlockRead
  split <;> simp
theorem clock_execSetEndpointId (eid : BitVec 8) : EndsAt s.clock (execSetEndpointId eid s) := by simp [execSetEndpointId]
theorem clock_execGetEndpointId : EndsAt s.clock (execGetEndpointId s) := by simp [execGetEndpointId]
theorem clock_execGetEndpointUuid : EndsAt s.clock (execGetEndpointUuid s) := by simp [execGetEndpointUuid]
theorem clock_execGetMctpVersionSupport (msgType : BitVec 8) : EndsAt s.clock (execGetMctpVersionSupport msgType s) := by
  simp [execGetMctpVersionSupport]
theorem clock_execGetMessageTypeSupport : EndsAt s.clock (execGetMessageTypeSupport s) := by simp [execGetMessageTypeSupport]
theorem clock_execMctpUnsupportedControl (command : BitVec 8) : EndsAt s.clock (execMctpUnsupportedControl command s) := by
  simp [execMctpUnsupportedControl]
theorem clock_execReadNvmeMiDataStructure (dtyp : BitVec 8) (sel : Nat) : EndsAt s.clock (execReadNvmeMiDataStructure dtyp sel s) := by
  unfold execReadNvmeMiDataStructure
  split <;> simp
theorem clock_execNvmSubsystemHealthStatusPoll (clear : Bool) : EndsAt s.clock (execNvmSubsystemHealthStatusPoll clear s) := by
  simp [execNvmSubsystemHealthStatusPoll]
theorem clock_execControllerHealthStatusPoll : EndsAt s.clock (execControllerHealthStatusPoll s) := by simp [execControllerHealthStatusPoll]
theorem clock_execConfigurationGet (ident : BitVec 8) : EndsAt s.clock (execConfigurationGet ident s) := by
  unfold execConfigurationGet
  split <;> simp
theorem clock_execConfigurationSet (ident : BitVec 8) (value : Nat) : EndsAt s.clock (execConfigurationSet ident value s) := by
  simp only [execConfigurationSet]
  repeat' split
  all_goals simp
theorem clock_execVpdRead (offset length : Nat) : EndsAt s.clock (execVpdRead offset length s) := by simp [execVpdRead]
theorem clock_execMiAdminIdentify (e : Sqe) : EndsAt s.clock (execMiAdminIdentify e s) := by
  simp only [execMiAdminIdentify]
  repeat' split
  all_goals simp
theorem clock_execMiAdminGetLogPage (e : Sqe) : EndsAt s.clock (execMiAdminGetLogPage e s) := by
  simp only [execMiAdminGetLogPage]
  repeat' split
  all_goals simp
theorem clock_execMiAdminGetFeatures (e : Sqe) : EndsAt s.clock (execMiAdminGetFeatures e s) := by
  simp only [execMiAdminGetFeatures]
  repeat' split
  all_goals simp
theorem clock_execMiUnsupportedCommand (admin : Bool) (opcode : BitVec 8) : EndsAt s.clock (execMiUnsupportedCommand admin opcode s) := by
  simp [execMiUnsupportedCommand]

/-! ### The end of an exit. -/
theorem clock_execPowerStateExitDone : EndsAt s.clock (execPowerStateExitDone s) := by
  simp only [execPowerStateExitDone]
  repeat' split
  all_goals simp

/-! ### All rows. -/
/-- The rows that move FC or EP: a tick, and the rows that open a power epoch (R15, R16). -/
def movesClock : Instr → Bool
  | .frameTick | .modulePowerOn .. | .nvmSubsystemReset .. | .resetNRelease | .cardStartAlone .. => true
  | _ => false

/-- Every other row answers a next state and leaves the queue, EP and FC. -/
theorem exec_clock (c : Instr) (s : State) (h : movesClock c = false) : EndsAt s.clock (exec c s) := by
  cases c with
  | frameTick | modulePowerOn | nvmSubsystemReset | resetNRelease | cardStartAlone => simp [movesClock] at h
  | namespacesReady card => exact clock_execNamespacesReady card
  | resetNAssert frames => exact clock_execResetNAssert frames
  | ccEnClear port => exact clock_execCcEnClear port
  | functionLevelReset port => exact clock_execFunctionLevelReset port
  | controllerLevelReset port => exact clock_execControllerLevelReset port
  | pcieLinkLoss port => exact clock_execPcieLinkLoss port
  | shutdownNotification port => exact clock_execShutdownNotification port
  | shutdownComplete port => exact clock_execShutdownComplete port
  | sqTailDoorbell port sqid tail cnt => exact clock_execSqTailDoorbell port sqid tail cnt
  | cqHeadDoorbell port cqid head => exact clock_execCqHeadDoorbell port cqid head
  | registerWrite port reg value hwSet => exact clock_execRegisterWrite port reg value hwSet
  | commandFetch e => exact clock_execCommandFetch e
  | frameStartMarker frond card low phase => exact clock_execFrameStartMarker frond card low phase
  | markerMissing frond => exact clock_execMarkerMissing frond
  | markerLost frond => exact clock_execMarkerLost frond
  | mediaRequest req cnt => exact clock_execMediaRequest req cnt
  | planClose frond => exact clock_execPlanClose frond
  | framePlanFix frond cnt => exact clock_execFramePlanFix frond cnt
  | framePlanMessage card frond alive crcOk => exact clock_execFramePlanMessage card frond alive crcOk
  | planLate frond cnt => exact clock_execPlanLate frond cnt
  | suspendPoint die => exact clock_execSuspendPoint die
  | segmentCheck die ready => exact clock_execSegmentCheck die ready
  | readCheck die plane cnt ended => exact clock_execReadCheck die plane cnt ended
  | channelPlanOverrun chan dropped => exact clock_execChannelPlanOverrun chan dropped
  | channelCapRestore chan => exact clock_execChannelCapRestore chan
  | quarantineLift die => exact clock_execQuarantineLift die
  | senseEnd die plane => exact clock_execSenseEnd die plane
  | dataOutEnd req => exact clock_execDataOutEnd req
  | decodeResult req tier bad cbc cnt => exact clock_execDecodeResult req tier bad cbc cnt
  | streamEngineUnit card engine => exact clock_execStreamEngineUnit card engine
  | reconstructionDone piece => exact clock_execReconstructionDone piece
  | readPieceDelivery piece => exact clock_execReadPieceDelivery piece
  | commandDeadline cmd => exact clock_execCommandDeadline cmd
  | engineWatchdog engine => exact clock_execEngineWatchdog engine
  | programStatusReport prog pass => exact clock_execProgramStatusReport prog pass
  | packWaitExpiry frond => exact clock_execPackWaitExpiry frond
  | foldHoldExpiry slot pos row => exact clock_execFoldHoldExpiry slot pos row
  | qlcProgramDone report => exact clock_execQlcProgramDone report
  | foldVerifyDone die within => exact clock_execFoldVerifyDone die within
  | memberTableProgram frond => exact clock_execMemberTableProgram frond
  | accumulatorRecomputeDone nsid zone => exact clock_execAccumulatorRecomputeDone nsid zone
  | fullWaitExpiry cmd => exact clock_execFullWaitExpiry cmd
  | eraseDone die pass => exact clock_execEraseDone die pass
  | eraseJournalRecord frond => exact clock_execEraseJournalRecord frond
  | dieResetTimeout die => exact clock_execDieResetTimeout die
  | channelRetrainDue chan => exact clock_execChannelRetrainDue chan
  | channelTrainingEnd chan failed eye temp => exact clock_execChannelTrainingEnd chan failed eye temp
  | refreshDone die block => exact clock_execRefreshDone die block
  | scrubDue die block => exact clock_execScrubDue die block
  | readOffsetRecalibration die group offsets => exact clock_execReadOffsetRecalibration die group offsets
  | rebuildStripeDone slot pos => exact clock_execRebuildStripeDone slot pos
  | zoneOpenWaitExpiry cmd => exact clock_execZoneOpenWaitExpiry cmd
  | allocatorRequest nsid zone cls => exact clock_execAllocatorRequest nsid zone cls
  | gcVictimRelease slot => exact clock_execGcVictimRelease slot
  | gcWriteWaitExpiry cmd => exact clock_execGcWriteWaitExpiry cmd
  | mapJournalProgrammed card => exact clock_execMapJournalProgrammed card
  | mapPageRead nsid page => exact clock_execMapPageRead nsid page
  | checkpointStart card => exact clock_execCheckpointStart card
  | checkpointComplete card => exact clock_execCheckpointComplete card
  | rangeLockGrant cmd => exact clock_execRangeLockGrant cmd
  | rangeLockTimeout cmd => exact clock_execRangeLockTimeout cmd
  | spikeletSearch card profile key mask => exact clock_execSpikeletSearch card profile key mask
  | spikeletUpdate card pos entry => exact clock_execSpikeletUpdate card pos entry
  | spikeletShadowCompare card bank faulty => exact clock_execSpikeletShadowCompare card bank faulty
  | bufferRequest card pool count engine => exact clock_execBufferRequest card pool count engine
  | bufferDeferralExpiry cmd => exact clock_execBufferDeferralExpiry cmd
  | referenceDecrement card handle consumers engine => exact clock_execReferenceDecrement card handle consumers engine
  | fence card source => exact clock_execFence card source
  | dramCorrectedError card rank => exact clock_execDramCorrectedError card rank
  | dramUncorrectableError card rank line => exact clock_execDramUncorrectableError card rank line
  | poisonRead card line use => exact clock_execPoisonRead card line use
  | rankRetrainDue card rank => exact clock_execRankRetrainDue card rank
  | rankCopyDone card => exact clock_execRankCopyDone card
  | rankTrainingEnd card pass eye temp => exact clock_execRankTrainingEnd card pass eye temp
  | rankMigrationDone card => exact clock_execRankMigrationDone card
  | checkUnitCombine card unit value bytes => exact clock_execCheckUnitCombine card unit value bytes
  | checkContextLoad card unit load => exact clock_execCheckContextLoad card unit load
  | heartbeat card hb => exact clock_execHeartbeat card hb
  | heartbeatMissed card => exact clock_execHeartbeatMissed card
  | takeoverComplete card => exact clock_execTakeoverComplete card
  | fenceReceived frond fenced => exact clock_execFenceReceived frond fenced
  | cardPresentOpen card => exact clock_execCardPresentOpen card
  | rhizomeLaneLoss trainsOn8 => exact clock_execRhizomeLaneLoss trainsOn8
  | mirrorRecord card msn => exact clock_execMirrorRecord card msn
  | mirrorAck card msn => exact clock_execMirrorAck card msn
  | mirrorAckTimeout card msn => exact clock_execMirrorAckTimeout card msn
  | forwardedCommand cmd epoch => exact clock_execForwardedCommand cmd epoch
  | pieceList cmd => exact clock_execPieceList cmd
  | ownershipTransfer group dest => exact clock_execOwnershipTransfer group dest
  | ownershipCopyDone group => exact clock_execOwnershipCopyDone group
  | cardEnterService card => exact clock_execCardEnterService card
  | tickMasterHandover => exact clock_execTickMasterHandover
  | cardStart card failedUnits activeOk otherOk => exact clock_execCardStart card failedUnits activeOk otherOk
  | culmLinkUp port nbrPos nbrPort lanes => exact clock_execCulmLinkUp port nbrPos nbrPort lanes
  | culmPortDown port => exact clock_execCulmPortDown port
  | culmRetrain port trained => exact clock_execCulmRetrain port trained
  | rachis port hdr sfc leadEpoch leadPos correction arrival => exact clock_execRachis port hdr sfc leadEpoch leadPos correction arrival
  | tickIoPulse own => exact clock_execTickIoPulse own
  | tickIoFallback offset => exact clock_execTickIoFallback offset
  | tickIoDriveResume => exact clock_execTickIoDriveResume
  | delayReq port hdr sent recv => exact clock_execDelayReq port hdr sent recv
  | delayRsp port hdr reqSent reqRecv rspSent rspRecv => exact clock_execDelayRsp port hdr reqSent reqRecv rspSent rspRecv
  | delayMeasure port => exact clock_execDelayMeasure port
  | hello port hdr msg => exact clock_execHello port hdr msg
  | census port hdr heard => exact clock_execCensus port hdr heard
  | censusExpiry pos => exact clock_execCensusExpiry pos
  | leadLost => exact clock_execLeadLost
  | handover hdr successor switchSfc => exact clock_execHandover hdr successor switchSfc
  | handoverSwitch => exact clock_execHandoverSwitch
  | demandSend => exact clock_execDemandSend
  | demand hdr base want cap => exact clock_execDemand hdr base want cap
  | grantCompute => exact clock_execGrantCompute
  | grant hdr epoch budget ovr shares => exact clock_execGrant hdr epoch budget ovr shares
  | grantStale => exact clock_execGrantStale
  | plan hdr planGen firstEpoch body => exact clock_execPlan hdr planGen firstEpoch body
  | planAck hdr planGen => exact clock_execPlanAck hdr planGen
  | planResend => exact clock_execPlanResend
  | sheafEvent hdr records => exact clock_execSheafEvent hdr records
  | eventAck hdr last => exact clock_execEventAck hdr last
  | sporeOffer hdr relayId length spores action originator chain => exact clock_execSporeOffer hdr relayId length spores action originator chain
  | sporeData port hdr relayId index piece bytes chain => exact clock_execSporeData port hdr relayId index piece bytes chain
  | sporeConfirm hdr relayId highest state reason => exact clock_execSporeConfirm hdr relayId highest state reason
  | sporeMissing index => exact clock_execSporeMissing index
  | sporeResend port hdr relayId index => exact clock_execSporeResend port hdr relayId index
  | relayActivate hdr relayId => exact clock_execRelayActivate hdr relayId
  | activateDone hdr relayId result => exact clock_execActivateDone hdr relayId result
  | activationTimeout => exact clock_execActivationTimeout
  | relayEnd hdr relayId result => exact clock_execRelayEnd hdr relayId result
  | nonceExpiry nonce => exact clock_execNonceExpiry nonce
  | handleExpiry handle => exact clock_execHandleExpiry handle
  | attestationSignature => exact clock_execAttestationSignature
  | slotWriteDone card => exact clock_execSlotWriteDone card
  | filnasUpdate frond => exact clock_execFilnasUpdate frond
  | filnasUpdateTimeout frond => exact clock_execFilnasUpdateTimeout frond
  | healthConfirm card => exact clock_execHealthConfirm card
  | healthWindowExpiry card => exact clock_execHealthWindowExpiry card
  | eventIntake code cls source obj arg0 arg1 arg2 cnt => exact clock_execEventIntake code cls source obj arg0 arg1 arg2 cnt
  | recorderProgramEnd => exact clock_execRecorderProgramEnd
  | eventRefill => exact clock_execEventRefill
  | recorderCopyDone card => exact clock_execRecorderCopyDone card
  | feedStart peu => exact clock_execFeedStart peu
  | feedUnderVoltage peu => exact clock_execFeedUnderVoltage peu
  | holdUpExpiry peu => exact clock_execHoldUpExpiry peu
  | feedOverVoltage peu => exact clock_execFeedOverVoltage peu
  | overVoltageRecovery peu => exact clock_execOverVoltageRecovery peu
  | reversePolarity peu => exact clock_execReversePolarity peu
  | openReturn peu => exact clock_execOpenReturn peu
  | inputShort peu => exact clock_execInputShort peu
  | outputOverCurrent peu => exact clock_execOutputOverCurrent peu
  | hiccupRestart peu => exact clock_execHiccupRestart peu
  | peuOverTemperature peu => exact clock_execPeuOverTemperature peu
  | peuTemperatureRecovery peu => exact clock_execPeuTemperatureRecovery peu
  | peuStatusSend peu meas => exact clock_execPeuStatusSend peu meas
  | peuStatus card peu alive crcOk st => exact clock_execPeuStatus card peu alive crcOk st
  | alarm card peu alive faults vin st => exact clock_execAlarm card peu alive faults vin st
  | statusSilence card peu => exact clock_execStatusSilence card peu
  | capacityFallback => exact clock_execCapacityFallback
  | cardStatus peu card alive crcOk => exact clock_execCardStatus peu card alive crcOk
  | outputEnable peu m => exact clock_execOutputEnable peu m
  | outputDisable peu m => exact clock_execOutputDisable peu m
  | currentLimitSet peu m limit => exact clock_execCurrentLimitSet peu m limit
  | marginSet peu m margin => exact clock_execMarginSet peu m margin
  | imageBlock peu m offset bytes => exact clock_execImageBlock peu m offset bytes
  | imageEnd peu m length sha => exact clock_execImageEnd peu m length sha
  | imageActivate peu m => exact clock_execImageActivate peu m
  | peuActivateRetry peu => exact clock_execPeuActivateRetry peu
  | peuUpdatingTimeout peu => exact clock_execPeuUpdatingTimeout peu
  | calRead peu m index => exact clock_execCalRead peu m index
  | calWrite peu m index value => exact clock_execCalWrite peu m index value
  | barrierUnknownType peu atPeu m type => exact clock_execBarrierUnknownType peu atPeu m type
  | ackNak card peu type alive result data => exact clock_execAckNak card peu type alive result data
  | barrierCommandTimeout peu => exact clock_execBarrierCommandTimeout peu
  | fuseTrip slot => exact clock_execFuseTrip slot
  | fuseRetry slot => exact clock_execFuseRetry slot
  | fuseHoldReset slot => exact clock_execFuseHoldReset slot
  | sensorSlowRound readings => exact clock_execSensorSlowRound readings
  | thermalShutdown sensor => exact clock_execThermalShutdown sensor
  | sensorBroken sensor => exact clock_execSensorBroken sensor
  | sensorValidAgain sensor => exact clock_execSensorValidAgain sensor
  | entryDelayExpiry block => exact clock_execEntryDelayExpiry block
  | powerStateExitDone => exact clock_execPowerStateExitDone
  | regulatorAck reg => exact clock_execRegulatorAck reg
  | regulatorTimeout reg => exact clock_execRegulatorTimeout reg
  | oscillatorTimeout card => exact clock_execOscillatorTimeout card
  | frondPresentClose frond => exact clock_execFrondPresentClose frond
  | frondSettled frond ident => exact clock_execFrondSettled frond ident
  | frondAcceptance frond => exact clock_execFrondAcceptance frond
  | frondPresentOpen frond => exact clock_execFrondPresentOpen frond
  | prepareProgramCut frond => exact clock_execPrepareProgramCut frond
  | prepareComplete frond => exact clock_execPrepareComplete frond
  | cardPresentClose card ident => exact clock_execCardPresentClose card ident
  | svcButtonHold card => exact clock_execSvcButtonHold card
  | peuPresentOpen peu => exact clock_execPeuPresentOpen peu
  | peuPresentClose peu ident code => exact clock_execPeuPresentClose peu ident code
  | rdmaAck qp psn cnt => exact clock_execRdmaAck qp psn cnt
  | nakSequenceError qp psn => exact clock_execNakSequenceError qp psn
  | nakRemoteAccessError qp => exact clock_execNakRemoteAccessError qp
  | nakRemoteOperationalError qp => exact clock_execNakRemoteOperationalError qp
  | rdmaReadResponse qp psn ce cnt bytes => exact clock_execRdmaReadResponse qp psn ce cnt bytes
  | cnpReceived qp => exact clock_execCnpReceived qp
  | rateRecover qp => exact clock_execRateRecover qp
  | ackTimeout qp => exact clock_execAckTimeout qp
  | invalidRequestPacket bulk qp psn opcode => exact clock_execInvalidRequestPacket bulk qp psn opcode
  | arpRequest bulk target senderMac senderIp => exact clock_execArpRequest bulk target senderMac senderIp
  | neighborSolicitation bulk target sender => exact clock_execNeighborSolicitation bulk target sender
  | pfcFrame bulk prio quanta => exact clock_execPfcFrame bulk prio quanta
  | pfcPauseEnd bulk => exact clock_execPfcPauseEnd bulk
  | otherFrame bulk => exact clock_execOtherFrame bulk
  | bulkLinkDownExpiry bulk => exact clock_execBulkLinkDownExpiry bulk
  | smbusBlockRead offset => exact clock_execSmbusBlockRead offset
  | setEndpointId eid => exact clock_execSetEndpointId eid
  | getEndpointId => exact clock_execGetEndpointId
  | getEndpointUuid => exact clock_execGetEndpointUuid
  | getMctpVersionSupport msgType => exact clock_execGetMctpVersionSupport msgType
  | getMessageTypeSupport => exact clock_execGetMessageTypeSupport
  | mctpUnsupportedControl command => exact clock_execMctpUnsupportedControl command
  | readNvmeMiDataStructure dtyp sel => exact clock_execReadNvmeMiDataStructure dtyp sel
  | nvmSubsystemHealthStatusPoll clear => exact clock_execNvmSubsystemHealthStatusPoll clear
  | controllerHealthStatusPoll => exact clock_execControllerHealthStatusPoll
  | configurationGet ident => exact clock_execConfigurationGet ident
  | configurationSet ident value => exact clock_execConfigurationSet ident value
  | vpdRead offset length => exact clock_execVpdRead offset length
  | miAdminIdentify e => exact clock_execMiAdminIdentify e
  | miAdminGetLogPage e => exact clock_execMiAdminGetLogPage e
  | miAdminGetFeatures e => exact clock_execMiAdminGetFeatures e
  | miUnsupportedCommand admin opcode => exact clock_execMiUnsupportedCommand admin opcode
  | createIoSubmissionQueue e => exact clock_execCreateIoSubmissionQueue e
  | createIoCompletionQueue e => exact clock_execCreateIoCompletionQueue e
  | deleteIoSubmissionQueue e => exact clock_execDeleteIoSubmissionQueue e
  | deleteIoCompletionQueue e => exact clock_execDeleteIoCompletionQueue e
  | identify e => exact clock_execIdentify e
  | abort e => exact clock_execAbort e
  | asynchronousEventRequest e => exact clock_execAsynchronousEventRequest e
  | getFeatures e => exact clock_execGetFeatures e
  | getLogErrorInformation e => exact clock_execGetLogErrorInformation e
  | getLogSmartHealth e => exact clock_execGetLogSmartHealth e
  | getLogFirmwareSlot e => exact clock_execGetLogFirmwareSlot e
  | getLogStandard e => exact clock_execGetLogStandard e
  | getLogModuleRecorder e => exact clock_execGetLogModuleRecorder e
  | getLogFrondEvents e => exact clock_execGetLogFrondEvents e
  | getLogFrameStatistics e => exact clock_execGetLogFrameStatistics e
  | getLogStripeHealth e => exact clock_execGetLogStripeHealth e
  | getLogBlockWear e => exact clock_execGetLogBlockWear e
  | getLogMediaReadHealth e => exact clock_execGetLogMediaReadHealth e
  | getLogSeedbedStatus e => exact clock_execGetLogSeedbedStatus e
  | getLogSliceTable e => exact clock_execGetLogSliceTable e
  | getLogPowerThermal e => exact clock_execGetLogPowerThermal e
  | getLogSheafStatus e => exact clock_execGetLogSheafStatus e
  | getLogBufferDramHealth e => exact clock_execGetLogBufferDramHealth e
  | getLogSecurityState e => exact clock_execGetLogSecurityState e
  | getLogAttestation e => exact clock_execGetLogAttestation e
  | invalidLogPage e => exact clock_execInvalidLogPage e
  | setFeaturesArbitration e => exact clock_execSetFeaturesArbitration e
  | setFeaturesPowerManagement e => exact clock_execSetFeaturesPowerManagement e
  | setFeaturesTemperatureThreshold e => exact clock_execSetFeaturesTemperatureThreshold e
  | setFeaturesNumberOfQueues e => exact clock_execSetFeaturesNumberOfQueues e
  | setFeaturesInterruptCoalescing e => exact clock_execSetFeaturesInterruptCoalescing e
  | setFeaturesInterruptVector e => exact clock_execSetFeaturesInterruptVector e
  | setFeaturesAsyncEventConfig e => exact clock_execSetFeaturesAsyncEventConfig e
  | setFeaturesTimestamp e => exact clock_execSetFeaturesTimestamp e
  | setFeaturesVolatileWriteCache e => exact clock_execSetFeaturesVolatileWriteCache e
  | setFeaturesUnsupported e => exact clock_execSetFeaturesUnsupported e
  | setFeaturesFrameParameters e => exact clock_execSetFeaturesFrameParameters e
  | setFeaturesThermalThrottlePoints e => exact clock_execSetFeaturesThermalThrottlePoints e
  | setFeaturesMediaPowerBudget e => exact clock_execSetFeaturesMediaPowerBudget e
  | setFeaturesEventRateLimit e => exact clock_execSetFeaturesEventRateLimit e
  | setFeaturesScrubPolicy e => exact clock_execSetFeaturesScrubPolicy e
  | setFeaturesDramInterleaveGrain e => exact clock_execSetFeaturesDramInterleaveGrain e
  | setFeaturesBulkPort e => exact clock_execSetFeaturesBulkPort e
  | setFeaturesDeadlineMissPolicy e => exact clock_execSetFeaturesDeadlineMissPolicy e
  | setFeaturesSeedbedPolicy e => exact clock_execSetFeaturesSeedbedPolicy e
  | namespaceCreate e => exact clock_execNamespaceCreate e
  | namespaceDelete e => exact clock_execNamespaceDelete e
  | namespaceAttach e => exact clock_execNamespaceAttach e
  | namespaceDetach e => exact clock_execNamespaceDetach e
  | firmwareImageDownload e => exact clock_execFirmwareImageDownload e
  | firmwareCommitReplace e => exact clock_execFirmwareCommitReplace e
  | firmwareCommitNextStart e => exact clock_execFirmwareCommitNextStart e
  | firmwareCommitActivateSlot e => exact clock_execFirmwareCommitActivateSlot e
  | firmwareCommitImmediate e => exact clock_execFirmwareCommitImmediate e
  | formatNvm e => exact clock_execFormatNvm e
  | sanitize e => exact clock_execSanitize e
  | flush e => exact clock_execFlush e
  | write e => exact clock_execWrite e
  | read e => exact clock_execRead e
  | writeZeroes e => exact clock_execWriteZeroes e
  | datasetManagement e => exact clock_execDatasetManagement e
  | verify e => exact clock_execVerify e
  | copy e => exact clock_execCopy e
  | zoneOpen e => exact clock_execZoneOpen e
  | zoneClose e => exact clock_execZoneClose e
  | zoneFinish e => exact clock_execZoneFinish e
  | zoneReset e => exact clock_execZoneReset e
  | zoneOffline e => exact clock_execZoneOffline e
  | setZoneDescriptorExtension e => exact clock_execSetZoneDescriptorExtension e
  | reportZones e => exact clock_execReportZones e
  | zoneAppend e => exact clock_execZoneAppend e
  | unsupportedOpcode e => exact clock_execUnsupportedOpcode e
  | sliceCreate e => exact clock_execSliceCreate e
  | sliceDelete e => exact clock_execSliceDelete e
  | sliceReset e => exact clock_execSliceReset e
  | sliceFreeze e => exact clock_execSliceFreeze e
  | sliceThaw e => exact clock_execSliceThaw e
  | sliceStateSave e => exact clock_execSliceStateSave e
  | sliceStateRestore e => exact clock_execSliceStateRestore e
  | queueResume e => exact clock_execQueueResume e
  | shareSet e => exact clock_execShareSet e
  | spikeletRuleWrite e => exact clock_execSpikeletRuleWrite e
  | spikeletRuleRead e => exact clock_execSpikeletRuleRead e
  | winnowProgramLoad e => exact clock_execWinnowProgramLoad e
  | winnowRead e => exact clock_execWinnowRead e
  | zoneDigest e => exact clock_execZoneDigest e
  | bulkRead e => exact clock_execBulkRead e
  | bulkAppend e => exact clock_execBulkAppend e
  | bulkEndpointSet e => exact clock_execBulkEndpointSet e
  | authorizationSubmitToken e => exact clock_execAuthorizationSubmitToken e
  | issueNonce e => exact clock_execIssueNonce e
  | guardLevelChange e => exact clock_execGuardLevelChange e
  | eventClearFrond e => exact clock_execEventClearFrond e
  | eventClearModule e => exact clock_execEventClearModule e
  | prepareRemoval e => exact clock_execPrepareRemoval e
  | cancelPrepare e => exact clock_execCancelPrepare e
  | declareLost e => exact clock_execDeclareLost e
  | setRebuildRate e => exact clock_execSetRebuildRate e
  | locateLedOn e => exact clock_execLocateLedOn e
  | locateLedOff e => exact clock_execLocateLedOff e
  | enableCulmPorts e => exact clock_execEnableCulmPorts e
  | disableCulmPorts e => exact clock_execDisableCulmPorts e
  | handOverLead e => exact clock_execHandOverLead e
  | setShelfPowerBudget e => exact clock_execSetShelfPowerBudget e
  | sheafPhasePlanSet e => exact clock_execSheafPhasePlanSet e
  | peuEnableOutput e => exact clock_execPeuEnableOutput e
  | peuDisableOutput e => exact clock_execPeuDisableOutput e
  | peuSetCurrentLimit e => exact clock_execPeuSetCurrentLimit e
  | peuSetMargin e => exact clock_execPeuSetMargin e
  | culmLaneLoss port => exact clock_execCulmLaneLoss port
  | bulkLinkDown bulk => exact clock_execBulkLinkDown bulk
  | bulkLinkUp bulk => exact clock_execBulkLinkUp bulk
  | pcieLinkUp port => exact clock_execPcieLinkUp port
  | feedReturnWithinHoldUp peu => exact clock_execFeedReturnWithinHoldUp peu
  | recorderSectorEraseDone => exact clock_execRecorderSectorEraseDone

end Sys2Proof.Laws
end

