-- ==== Sys2Proof/Proofs/HeldEpoch.lean ====
section
/-! SUPPORT. What is cut and saved when the module stops does not touch the record of the pair, and so not the EP in the cards'
configuration stores (R16, R302, R427, R429): one lemma for each operation, then the largest EP held after a stop. -/
namespace Sys2Proof.Laws
open Sys2Proof Sys2Proof.Machine

@[simp] theorem pair_ite (p : Prop) [Decidable p] (a b : State) : (if p then a else b).pair = if p then a.pair else b.pair := by split <;> rfl
@[simp] theorem pair_foldl {α : Type} (f : State → α → State) (l : List α) (s : State) (h : ∀ t a, (f t a).pair = t.pair) :
    (l.foldl f s).pair = s.pair := by
  induction l generalizing s with
  | nil => rfl
  | cons a l ih => rw [List.foldl_cons, ih, h]

@[simp] theorem pair_setMaster (c : CardId) (s : State) : (setMaster c s).pair = s.pair := by simp [setMaster]
@[simp] theorem pair_draw (s : State) : (draw s).2.pair = s.pair := by simp [draw]
@[simp] theorem pair_intake (r : EventRec) (s : State) : (intake r s).pair = s.pair := by simp [intake]
@[simp] theorem pair_event (code cls source ob a0 a1 a2 : Nat) (s : State) : (event code cls source ob a0 a1 a2 s).pair = s.pair := by simp [event]
@[simp] theorem pair_aenDeliver (p : Port) (s : State) : (aenDeliver p s).pair = s.pair := by
  simp only [aenDeliver]
  split <;> simp
@[simp] theorem pair_aenPort (p : Port) (ty info page : Nat) (s : State) : (aenPort p ty info page s).pair = s.pair := by simp [aenPort]
@[simp] theorem pair_aenBoth (ty info page : Nat) (s : State) : (aenBoth ty info page s).pair = s.pair := by simp [aenBoth]
@[simp] theorem pair_aenPage (page : Nat) (s : State) : (aenPage page s).pair = s.pair := by simp [aenPage]
@[simp] theorem pair_countChange (r : EventRec) (s : State) : (countChange r s).pair = s.pair := by simp [countChange]
@[simp] theorem pair_updPool (c : CardId) (p : Nat) (g : PoolSt → PoolSt) (s : State) : (updPool c p g s).pair = s.pair := by simp [updPool]
@[simp] theorem pair_decBuf (c : CardId) (p i : Nat) (engine : Nat) (s : State) : (decBuf c p i engine s).pair = s.pair := by
  simp only [decBuf]
  split <;> simp
@[simp] theorem pair_applySettings (s : State) : (applySettings s).pair = s.pair := by simp [applySettings]
@[simp] theorem pair_setMember (m : Nat) (g : Member → Member) (s : State) : (setMember m g s).pair = s.pair := by simp [setMember]
@[simp] theorem pair_toDirty (k : Nat) (s : State) : (toDirty k s).pair = s.pair := by simp [toDirty]
@[simp] theorem pair_releaseCopy (l : CopyLoc) (s : State) : (releaseCopy l s).pair = s.pair := by simp [releaseCopy]
@[simp] theorem pair_releaseCopies (sel : Nat → Bool) (s : State) : (releaseCopies sel s).pair = s.pair := by simp [releaseCopies]
@[simp] theorem pair_deadBlocks (f : Nat) (s : State) : (deadBlocks f s).pair = s.pair := by simp [deadBlocks]
@[simp] theorem pair_deadBlocksAll (s : State) : (deadBlocksAll s).pair = s.pair := by simp [deadBlocksAll]
@[simp] theorem pair_queueOp (k : Nat) (o : LongOp) (s : State) : (queueOp k o s).pair = s.pair := by simp [queueOp]
@[simp] theorem pair_dropOps (k : Nat) (s : State) : (dropOps k s).pair = s.pair := by simp [dropOps]
@[simp] theorem pair_freeExt (card : CardId) (s : State) : (freeExt card s).pair = s.pair := by simp [freeExt]
@[simp] theorem pair_dropAccum (slot : Nat) (s : State) : (dropAccum slot s).pair = s.pair := by
  unfold dropAccum
  split <;> simp
@[simp] theorem pair_healthRise (s0 s : State) : (healthRise s0 s).pair = s.pair := by simp [healthRise]
@[simp] theorem pair_frondState (f st : Nat) (s : State) : (frondState f st s).pair = s.pair := by simp [frondState]
@[simp] theorem pair_unqueue (sel : Nat → Bool) (s : State) : (unqueue sel s).pair = s.pair := by simp [unqueue]
@[simp] theorem pair_rebuildIdle (s : State) : (rebuildIdle s).pair = s.pair := by simp [rebuildIdle]
@[simp] theorem pair_keepData (slot : Nat) (s : State) : (keepData slot s).pair = s.pair := by simp [keepData]
@[simp] theorem pair_endRefresh (f : Nat) (s : State) : (endRefresh f s).pair = s.pair := by
  unfold endRefresh
  split <;> simp
@[simp] theorem pair_dropRefresh (k : Nat) (s : State) : (dropRefresh k s).pair = s.pair := by
  simp only [dropRefresh]
  split <;> simp
@[simp] theorem pair_dropStaged (slot : Nat) (s : State) : (dropStaged slot s).pair = s.pair := by
  unfold dropStaged
  exact pair_foldl _ _ _ fun t c => by split <;> simp
@[simp] theorem pair_freeStripe (slot : Nat) (s : State) : (freeStripe slot s).pair = s.pair := by
  simp only [freeStripe, pair_rebuildIdle, pair_deadBlocksAll, updStripe_others, pair_foldl, updFrond_others, implies_true]
  exact (pair_foldl _ _ _ fun t m => by split <;> simp).trans (by simp)
@[simp] theorem pair_freeReqBuf (n : Nat) (s : State) : (freeReqBuf n s).pair = s.pair := by
  unfold freeReqBuf
  split <;> simp
@[simp] theorem pair_placeCw (ck : Nat) (s : State) : (placeCw ck s).pair = s.pair := by simp [placeCw]
@[simp] theorem pair_sendCw (ck : Nat) (s : State) : (sendCw ck s).pair = s.pair := by simp [sendCw]
@[simp] theorem pair_dropReqs (sel : Req → Bool) (s : State) : (dropReqs sel s).pair = s.pair := by simp [dropReqs]
@[simp] theorem pair_sendParity (slot row : Nat) (qs : List Nat) (s : State) : (sendParity slot row qs s).pair = s.pair := by simp [sendParity]
@[simp] theorem pair_chunkCheck (h : Nat) (s : State) : (chunkCheck h s).pair = s.pair := by simp [chunkCheck]
@[simp] theorem pair_rowClose (slot : Nat) (s : State) : (rowClose slot s).pair = s.pair := by simp [rowClose]
@[simp] theorem pair_endRows (slot wp : Nat) (s : State) : (endRows slot wp s).pair = s.pair := by simp [endRows]
@[simp] theorem pair_finishStripe (slot wp : Nat) (s : State) : (finishStripe slot wp s).pair = s.pair := by
  simp only [finishStripe]
  split
  · simp
  · exact (pair_foldl _ _ _ fun t m => by split <;> simp).trans (by simp)
@[simp] theorem pair_finishDone (zk : Nat) (old : Zone) (s : State) : (finishDone zk old s).pair = s.pair := by
  simp only [finishDone]
  repeat' split
  all_goals simp
@[simp] theorem pair_dropRow (h : Nat) (s : State) : (dropRow h s).pair = s.pair := by simp [dropRow]
@[simp] theorem pair_freeStage (h : Nat) (s : State) : (freeStage h s).pair = s.pair := by
  unfold freeStage
  split <;> simp
@[simp] theorem pair_markIncomplete (k row : Nat) (s : State) : (markIncomplete k row s).pair = s.pair := by simp [markIncomplete]
@[simp] theorem pair_cutErases (f : Nat) (s : State) : (cutErases f s).pair = s.pair := by
  simp only [cutErases, updFrond_others, pair_foldl, pair_markIncomplete, updBlk_others, implies_true]
  exact pair_foldl _ _ _ fun t d => by
    split
    · split <;> simp
    · simp
@[simp] theorem pair_mapSet (nsid lba : Nat) (v : Option (Nat × Nat)) (s : State) : (mapSet nsid lba v s).pair = s.pair := by
  simp only [mapSet]
  repeat' split
  all_goals simp
@[simp] theorem pair_coverCws (r : JRec) (s : State) : (coverCws r s).pair = s.pair := by simp [coverCws]
@[simp] theorem pair_applyUpdate (r : JRec) (s : State) : (applyUpdate r s).pair = s.pair := by simp [applyUpdate]
@[simp] theorem pair_slotGone (r : JRec) (s : State) : (slotGone r s).pair = s.pair := by simp [slotGone]
@[simp] theorem pair_recEffect (r : JRec) (s : State) : (recEffect r s).pair = s.pair := by
  simp only [recEffect]
  repeat' split
  all_goals simp
@[simp] theorem pair_sealTable (f : Nat) (s : State) : (sealTable f s).pair = s.pair := by simp [sealTable]
@[simp] theorem pair_holdChunks (f : Nat) (s : State) : (holdChunks f s).pair = s.pair := by simp [holdChunks]
@[simp] theorem pair_zoneBack (r : JRec) (s : State) : (zoneBack r s).pair = s.pair := by
  unfold zoneBack
  split <;> simp
@[simp] theorem pair_memberAgain (m : Nat) (s : State) : (memberAgain m s).pair = s.pair := by simp [memberAgain]
@[simp] theorem pair_undoRec (s : State) (r : JRec) : (undoRec s r).pair = s.pair := by
  simp only [undoRec]
  repeat' split
  all_goals simp
@[simp] theorem pair_dropJournal (c : CardId) (s : State) : (dropJournal c s).pair = s.pair := by simp [dropJournal]
@[simp] theorem pair_cutJournal (c : CardId) (s : State) : (cutJournal c s).pair = s.pair := by
  simp only [cutJournal, pair_dropJournal, pair_foldl, pair_undoRec, updJ_others, pair_recEffect, implies_true]
@[simp] theorem pair_saveJournal (c : CardId) (s : State) : (saveJournal c s).pair = s.pair := by simp [saveJournal]
@[simp] theorem pair_stopFilnas (f : Nat) (s : State) : (stopFilnas f s).pair = s.pair := by simp [stopFilnas]
@[simp] theorem pair_cutRecorder (s : State) : (cutRecorder s).pair = s.pair := by simp [cutRecorder]
@[simp] theorem pair_nextSeq (found : Nat) (s : State) : (nextSeq found s).pair = s.pair := by simp [nextSeq]

/-- A stop keeps the identity of both cards; only their volatile state is renewed. -/
theorem pair_stopAll (off : Bool) (s : State) : (stopAll off s).pair = { s.pair with
    ca := stopCard off s.pair.ca, cb := stopCard off s.pair.cb, lanes := 16, takeover := none, transfers := [], handTo := none } := by
  cases off <;> simp [stopAll]

/-- The largest EP held is read from EP and from the stores of the cards that are present. -/
theorem heldEp_congr {s t : State} (ht : t.time.ep = s.time.ep)
    (hc : ∀ c, (cardAt t c).present = (cardAt s c).present ∧ (cardAt t c).ep = (cardAt s c).ep) : heldEp t = heldEp s := by
  have ha : t.pair.ca.present = s.pair.ca.present ∧ t.pair.ca.ep = s.pair.ca.ep := hc .ca
  have hb : t.pair.cb.present = s.pair.cb.present ∧ t.pair.cb.ep = s.pair.cb.ep := hc .cb
  simp only [heldEp, ht, ha, hb]

theorem le_heldEp (s : State) : s.time.ep ≤ heldEp s := le_max_left ..

theorem ep_of_clock {s t : State} (h : t.clock = s.clock) : t.time.ep = s.time.ep := congrArg (·.2.1) h

@[simp] theorem heldEp_stopAll (off : Bool) (s : State) : heldEp (stopAll off s) = heldEp s :=
  heldEp_congr (ep_of_clock (clock_stopAll off s)) fun c => by cases c <;> simp [cardAt, pair_stopAll, stopCard]

@[simp] theorem heldEp_cutJournal (c : CardId) (s : State) : heldEp (cutJournal c s) = heldEp s :=
  heldEp_congr (ep_of_clock (clock_cutJournal c s)) fun d => by cases d <;> simp [cardAt]

@[simp] theorem heldEp_setMaster (c : CardId) (s : State) : heldEp (setMaster c s) = heldEp s :=
  heldEp_congr (ep_of_clock (clock_setMaster c s)) fun d => by cases d <;> simp [cardAt]

end Sys2Proof.Laws
end

