-- ==== Sys2Proof/Proofs/Epochs.lean ====
section
/-! SUPPORT. The rows that move the clock: a tick, and the four that open a power epoch (R15, R16, R302, R427, R429, R430). -/
namespace Sys2Proof.Laws
open Sys2Proof Sys2Proof.Machine

/-! ### A tick. -/
/-- A frame passes: FC increments by 1, EP stays (R15). -/
theorem clock_passFrame (s : State) : (passFrame s).clock = (s.clock.1, s.clock.2.1, s.clock.2.2 + 1) := rfl

/-- What a tick does besides leaves the clock. -/
theorem clock_frameTick (s : State) : (frameTick s).clock = (s.pending, s.time.ep, s.time.fc + 1) := by
  have passed : (passFrame (countCharge (countStopped s))).clock = (s.pending, s.time.ep, s.time.fc + 1) := by
    rw [clock_passFrame, clock_countCharge, clock_countStopped, State.clock]
  simp only [frameTick]
  split <;> simp [passed]

theorem clock_execFrameTick (s : State) :
    EndsAt (s.pending, s.time.ep, if ticks s then s.time.fc + 1 else s.time.fc) (execFrameTick s) := by
  unfold execFrameTick
  split
  · simp [clock_frameTick]
  · simp

/-! ### A new power epoch. -/
/-- The queue of s, with the EP and FC of the epoch that follows (R15, R16). -/
def epochClock (s : State) : List Instr × Nat × Nat := (s.pending, (heldEp s + 1) % 2 ^ 32, 0)

theorem epochClock_congr {s t : State} (hp : t.pending = s.pending) (he : heldEp t = heldEp s) : epochClock t = epochClock s := by
  rw [epochClock, hp, he, epochClock]

theorem pending_of_clock {s t : State} (h : t.clock = s.clock) : t.pending = s.pending := congrArg (·.1) h

/-- The first marker of an epoch comes with its EP and with FC 0 (R16, R375). -/
@[simp] theorem clock_epochMarker (how : Nat) (s : State) : (epochMarker how s).clock = epochClock s := rfl

@[simp] theorem epochClock_nextSeq (found : Nat) (s : State) : epochClock (nextSeq found s) = epochClock s := rfl
@[simp] theorem epochClock_updCtrl (p : Port) (g : Ctrl → Ctrl) (s : State) : epochClock (updCtrl p g s) = epochClock s := by cases p <;> rfl
@[simp] theorem epochClock_setMaster (c : CardId) (s : State) : epochClock (setMaster c s) = epochClock s :=
  epochClock_congr (pending_of_clock (clock_setMaster c s)) (heldEp_setMaster c s)
@[simp] theorem epochClock_stopAll (off : Bool) (s : State) : epochClock (stopAll off s) = epochClock s :=
  epochClock_congr (pending_of_clock (clock_stopAll off s)) (heldEp_stopAll off s)
@[simp] theorem epochClock_cutJournal (c : CardId) (s : State) : epochClock (cutJournal c s) = epochClock s :=
  epochClock_congr (pending_of_clock (clock_cutJournal c s)) (heldEp_cutJournal c s)
/-- An update of a card that keeps its presence and its stored EP leaves the next epoch as it is. -/
theorem epochClock_updCard (c : CardId) (g : Card → Card) (s : State) (h : ∀ x, (g x).present = x.present ∧ (g x).ep = x.ep) :
    epochClock (updCard c g s) = epochClock s :=
  epochClock_congr (by simp) (heldEp_congr (by simp) fun d => by
    rw [cardAt_updCard]
    split <;> simp [h])

/-- A restart opens an epoch (R16, R429). -/
@[simp] theorem clock_restart (s : State) : (restart s).clock = epochClock s := by simp [restart]

/-- MODULE_POWER_ON opens an epoch where the bus was down (R427). -/
theorem clock_execModulePowerOn (straps : BitVec 5) (found : Nat) (s : State) :
    EndsAt (if s.time.bus then s.clock else epochClock s) (execModulePowerOn straps found s) := by
  unfold execModulePowerOn
  split <;> simp [*]

/-- NVM_SUBSYSTEM_RESET opens an epoch of a running module, on a port that is up (R429). -/
theorem clock_execNvmSubsystemReset (p : Port) (s : State) :
    EndsAt (if !s.time.bus ∨ s.time.resetHeld ∨ !(ctrlAt s p).link then s.clock else epochClock s) (execNvmSubsystemReset p s) := by
  unfold execNvmSubsystemReset
  split <;> simp [*]

/-- RESET_N_RELEASE opens an epoch of a module held in reset (R430). -/
theorem clock_execResetNRelease (s : State) : EndsAt (if s.time.resetHeld then epochClock s else s.clock) (execResetNRelease s) := by
  unfold execResetNRelease
  split <;> simp [*]

/-- What CARD_START_ALONE runs once its guards are passed opens an epoch (R302, R438). -/
theorem clock_aloneStart (c : CardId) (keep : Card → Card) (g0 g1 : Ctrl → Ctrl) (s : State)
    (hk : ∀ x, (keep x).present = x.present ∧ (keep x).ep = x.ep) :
    (serve c (replay (epochMarker 4 (nextSeq 0 (updCtrl .h0 g0 (updCtrl .h1 g1 (setMaster c (updCard c keep
      (stopAll false (cutJournal .ca (cutJournal .cb s))))))))))).clock = epochClock s := by
  rw [clock_serve, clock_replay, clock_epochMarker, epochClock_nextSeq, epochClock_updCtrl, epochClock_updCtrl, epochClock_setMaster,
    epochClock_updCard _ _ _ hk, epochClock_stopAll, epochClock_cutJournal, epochClock_cutJournal]

/-- CARD_START_ALONE opens an epoch for a card that may start: no card serves, the module has power and is out of reset, and the
card's key and OWN_EPOCH are current (R302, R438). -/
theorem clock_execCardStartAlone_starts (c : CardId) (root : Nat) (s : State) (hbus : s.time.bus = true) (hheld : s.time.resetHeld = false)
    (hserve : anyServe s = false) (hcard : (cardAt s c).present = true) (hwaits : (cardAt s c).entering = 1 ∨ (cardAt s c).entering = 2)
    (hkey : (cardAt s c).mrk = some s.sec.mrkGen) (hown : max root (max s.jA.rootOwn s.jB.rootOwn) ≤ (cardAt s c).ownEpoch) :
    EndsAt (epochClock s) (execCardStartAlone c root s) := by
  have open' : ¬ (!s.time.bus ∨ s.time.resetHeld ∨ anyServe s ∨ !(cardAt s c).present ∨
      ((cardAt s c).entering ≠ 1 ∧ (cardAt s c).entering ≠ 2)) := by
    rcases hwaits with h | h <;> simp [hbus, hheld, hserve, hcard, h]
  unfold execCardStartAlone
  dsimp only
  rw [if_neg open', if_neg (not_not_intro hkey), if_neg (not_lt.2 hown), endsAt_next]
  exact clock_aloneStart c _ _ _ s fun _ => ⟨rfl, rfl⟩

/-- CARD_START_ALONE leaves the clock or opens an epoch (R302, R438). -/
theorem clock_execCardStartAlone (c : CardId) (root : Nat) (s : State) :
    EndsAt s.clock (execCardStartAlone c root s) ∨ EndsAt (epochClock s) (execCardStartAlone c root s) := by
  unfold execCardStartAlone
  dsimp only
  split
  · simp
  · split
    · simp
    · split
      · simp
      · exact .inr ((endsAt_next ..).2 (clock_aloneStart c _ _ _ s fun _ => ⟨rfl, rfl⟩))

end Sys2Proof.Laws
end

