-- ==== Sys2Proof/Proofs/Time.lean ====
section
/-! PROOFS. The queue of waiting commands, EP and FC over any command: O1 to O5 and O19. -/
namespace Sys2Proof.Laws
open Sys2Proof Sys2Proof.Machine

/-! ### What a command can do to time. -/
/-- What a command can do to EP and FC (R15, R16): a tick increments FC where ticks come, four rows may open a power epoch, and every
other row leaves both. -/
def TimeMoves (c : Instr) (s t : State) : Prop :=
  match c with
  | .frameTick => t.time.ep = s.time.ep ∧ t.time.fc = if ticks s then s.time.fc + 1 else s.time.fc
  | .modulePowerOn .. | .nvmSubsystemReset .. | .resetNRelease | .cardStartAlone .. =>
    (t.time.ep = s.time.ep ∧ t.time.fc = s.time.fc) ∨ (t.time.ep = (heldEp s + 1) % 2 ^ 32 ∧ t.time.fc = 0)
  | _ => t.time.ep = s.time.ep ∧ t.time.fc = s.time.fc

theorem clock_eq_iff {t : State} {q : List Instr} {ep fc : Nat} :
    t.clock = (q, ep, fc) ↔ t.pending = q ∧ t.time.ep = ep ∧ t.time.fc = fc := by
  simp only [State.clock, Prod.mk.injEq]

theorem EndsAt.exists_next {o : Out} {q : List Instr} {ep fc : Nat} (h : EndsAt (q, ep, fc) o) :
    ∃ t, o = .next t ∧ t.pending = q ∧ t.time.ep = ep ∧ t.time.fc = fc := by
  obtain ⟨t, ho, ht⟩ := h
  exact ⟨t, ho, clock_eq_iff.1 ht⟩

/-- A row that opens an epoch or leaves the clock. -/
theorem EndsAt.exists_opens {o : Out} {s : State} (h : EndsAt s.clock o ∨ EndsAt (epochClock s) o) :
    ∃ t, o = .next t ∧ t.pending = s.pending ∧
      ((t.time.ep = s.time.ep ∧ t.time.fc = s.time.fc) ∨ (t.time.ep = (heldEp s + 1) % 2 ^ 32 ∧ t.time.fc = 0)) := by
  rcases h with h | h
  · obtain ⟨t, ho, hq, hrest⟩ := h.exists_next
    exact ⟨t, ho, hq, .inl hrest⟩
  · obtain ⟨t, ho, hq, hrest⟩ := h.exists_next
    exact ⟨t, ho, hq, .inr hrest⟩

theorem EndsAt.or_of_ite {k l : List Instr × Nat × Nat} {o : Out} {p : Prop} [Decidable p] (h : EndsAt (if p then k else l) o) :
    EndsAt k o ∨ EndsAt l o := by
  split at h
  · exact .inl h
  · exact .inr h

/-- Every command answers a next state, keeps the queue, and moves time as its row may. -/
theorem exec_moves (c : Instr) (s : State) : ∃ t, exec c s = .next t ∧ t.pending = s.pending ∧ TimeMoves c s t := by
  cases hm : movesClock c with
  | false =>
    obtain ⟨t, ho, hq, ht⟩ := (exec_clock c s hm).exists_next
    refine ⟨t, ho, hq, ?_⟩
    unfold TimeMoves
    split <;> simp_all [movesClock]
  | true =>
    cases c with
    | frameTick => exact (clock_execFrameTick s).exists_next
    | modulePowerOn straps found => exact EndsAt.exists_opens (clock_execModulePowerOn straps found s).or_of_ite
    | nvmSubsystemReset p => exact EndsAt.exists_opens (clock_execNvmSubsystemReset p s).or_of_ite
    | resetNRelease => exact EndsAt.exists_opens (clock_execResetNRelease s).or_of_ite.symm
    | cardStartAlone card root => exact EndsAt.exists_opens (clock_execCardStartAlone card root s)
    | _ => simp [movesClock] at hm

/-- While the next EP does not wrap, no command goes back in time. -/
theorem TimeMoves.timeLe {c : Instr} {s t : State} (h : TimeMoves c s t) (hs : heldEp s < 2 ^ 32 - 1) : s.timeLe t := by
  have hle := le_heldEp s
  have opens : (t.time.ep = s.time.ep ∧ t.time.fc = s.time.fc) ∨ (t.time.ep = (heldEp s + 1) % 2 ^ 32 ∧ t.time.fc = 0) → s.timeLe t := by
    rintro (⟨he, hf⟩ | ⟨he, -⟩)
    · exact .inr ⟨he.symm, hf.ge⟩
    · left; omega
  unfold TimeMoves at h
  split at h
  case h_1 => exact .inr ⟨h.1.symm, by rw [h.2]; split <;> omega⟩
  case h_6 => exact opens (.inl h)
  all_goals exact opens h

/-! ### One step. -/
theorem step_nil {s : State} (h : s.pending = []) : step s = .next s := by rw [step, h]
theorem step_cons {s : State} {c : Instr} {r : List Instr} (h : s.pending = c :: r) : step s = exec c { s with pending := r } := by
  rw [step, h]

/-- Settles O1. -/
theorem stepRunsFrontCommand : Obligations.StepRunsFrontCommand := fun _ _ _ h => step_cons h

/-- Settles O2. -/
theorem stepIdlesOnEmptyQueue : Obligations.StepIdlesOnEmptyQueue := fun _ h => step_nil h

/-- Settles O3: the front is off the queue before its row runs, and no row touches the queue. -/
theorem queueIsFirstInFirstOut : Obligations.QueueIsFirstInFirstOut := by
  intro s c r h
  obtain ⟨t, ho, hq, -⟩ := exec_moves c { s with pending := r }
  exact ⟨t, (step_cons h).trans ho, hq⟩

/-- Settles O4, from what each row can do to time. -/
theorem timeNeverGoesBack : Obligations.TimeNeverGoesBack := by
  intro s hs
  cases h : s.pending with
  | nil => exact ⟨s, step_nil h, .inr ⟨rfl, le_rfl⟩⟩
  | cons c r =>
    obtain ⟨t, ho, -, ht⟩ := exec_moves c { s with pending := r }
    exact ⟨t, (step_cons h).trans ho, ht.timeLe hs⟩

/-- Settles O5. -/
theorem frameCountMovesOnlyAtTicks : Obligations.FrameCountMovesOnlyAtTicks := by
  intro c s
  obtain ⟨t, ho, -, ht⟩ := exec_moves c s
  exact ⟨t, ho, ht⟩

/-- RESET_N_ASSERT of at least 4 frames holds a running module in reset and leaves EP and FC (R430). -/
theorem execResetNAssert_holds {n : Nat} {s : State} (hn : 4 ≤ n) (hbus : s.time.bus = true) (hheld : s.time.resetHeld = false) :
    ∃ t, execResetNAssert n s = .next t ∧ t.time.ep = s.time.ep ∧ t.time.fc = s.time.fc ∧ t.time.resetHeld = true := by
  have hguard : ¬ (n < 4 ∨ !s.time.bus ∨ s.time.resetHeld) := by simp [hn, hbus, hheld]
  obtain ⟨-, hep, hfc⟩ := clock_eq_iff.1 (clock_stopAll false s)
  refine ⟨updTime (fun t => { t with resetHeld := true }) (stopAll false s), ?_, ?_⟩
  · rw [execResetNAssert, if_neg hguard]
  · simp only [updTime_time, hep, hfc, and_self]

/-- Settles O19. -/
theorem restartsOpenANewEpoch : Obligations.RestartsOpenANewEpoch := by
  have opened : ∀ {o : Out} {s : State}, EndsAt (epochClock s) o → ∃ t, o = .next t ∧ t.time.ep = (heldEp s + 1) % 2 ^ 32 ∧ t.time.fc = 0 := by
    intro o s h
    obtain ⟨t, ho, -, ht⟩ := h.exists_next
    exact ⟨t, ho, ht⟩
  refine ⟨fun straps found s hbus => ?_, fun p s hbus hheld hlink => ?_, fun s hheld => ?_, fun n s hn hbus hheld => ?_,
    fun c root s hbus hheld hserve hcard hwaits hkey hown => ?_⟩
  · have h := clock_execModulePowerOn straps found s
    rw [if_neg (by simp [hbus])] at h
    exact opened h
  · have h := clock_execNvmSubsystemReset p s
    rw [if_neg (by simp [hbus, hheld, hlink])] at h
    exact opened h
  · have h := clock_execResetNRelease s
    rw [if_pos hheld] at h
    exact opened h
  · exact execResetNAssert_holds hn hbus hheld
  · exact opened (clock_execCardStartAlone_starts c root s hbus hheld hserve hcard hwaits hkey hown)

end Sys2Proof.Laws
end

