-- ==== Sys2Proof/Proofs/Registers.lean ====
section
/-! PROOFS. Host registers and doorbells, and the state at reset: O22, O23 and O59. -/
namespace Sys2Proof.Laws
open Sys2Proof Sys2Proof.Machine

/-! ### CSTS. -/
/-- A write to CSTS touches the RW1C bit alone: it is set where the module sets it in that cycle, and else stays unless the host writes a
1 to it (R14). -/
theorem execRegisterWrite_csts {p : Port} {v hw : BitVec 64} {s : State} (hlink : (ctrlAt s p).link = true) :
    execRegisterWrite p .csts v hw s =
      .next (updCtrl p (fun c => { c with nssro := hw.getLsbD 4 || ((ctrlAt s p).nssro && !v.getLsbD 4) }) s) := by
  rw [execRegisterWrite, if_neg (by simp [hlink])]
  cases p <;> rfl

/-- Settles O22. -/
theorem setBitOutlivesAWriteOfOne : Obligations.SetBitOutlivesAWriteOfOne := by
  intro p v hw s hlink
  refine ⟨_, execRegisterWrite_csts hlink, ?_⟩
  rw [ctrlAt_updCtrl, if_pos rfl]
  refine ⟨fun _ hset => ?_, fun hone hset => ?_, fun hone hset => ?_, rfl⟩
  · rw [hset, Bool.true_or]
  · rw [hone, hset, Bool.not_true, Bool.and_false, Bool.or_false]
  · rw [hone, hset, Bool.not_false, Bool.and_true, Bool.false_or]

/-! ### A tail doorbell that repeats the tail. -/
/-- A running module with one submission queue, SQID 1 of H0, that no doorbell has been rung for. -/
def silentQueue : State := { State.reset with sqs := [(qKey .h0 1, { used := true })] }

/-- Refutes O23: the clause on tail doorbells fails where the doorbell writes the tail that the queue has, 0 on a new queue. It brings no
entry, and the model notes no instant for it, where the statement has every tail doorbell note one. -/
theorem not_portRegistersAndDoorbells : ¬ Obligations.PortRegistersAndDoorbells := by
  rintro ⟨-, hbell, -⟩
  obtain ⟨t, ht, -, ⟨i, -, hnoted⟩, -⟩ := hbell .h0 1 0 0 silentQueue one_ne_zero rfl le_rfl rfl rfl (by decide)
  have hrun : exec (.sqTailDoorbell .h0 1 0 0) silentQueue = .next silentQueue := rfl
  obtain rfl : silentQueue = t := by simpa [hrun] using ht
  exact absurd hnoted (List.not_mem_nil)

/-! ### The state at reset. -/
/-- Settles O59. -/
theorem resetStateIsAsStated : Obligations.ResetStateIsAsStated := by
  have cards : ∀ c : CardId, (recAt State.reset c).main = [] ∧ (recAt State.reset c).reserve = [] ∧
      (poolAt State.reset c 0).free = 1048576 ∧ (poolAt State.reset c 1).free = 262144 ∧
      (poolAt State.reset c 2).free = 65536 ∧ (poolAt State.reset c 3).free = 4096 := by
    intro c
    cases c <;> decide
  have peus : ∀ p : PeuId, (peuAt State.reset p).iLimit = 100 := by
    intro p
    cases p <;> rfl
  have fronds : ∀ f, (frondAt State.reset f).present = true ∧ (frondAt State.reset f).state = 0 ∧
      (frondAt State.reset f).spares = 30720 := fun _ => ⟨rfl, rfl, rfl⟩
  simp only [Obligations.ResetStateIsAsStated, cards, peus, fronds, and_self, implies_true, true_and]
  and_intros <;> rfl

end Sys2Proof.Laws
end

