-- ==== Sys2Proof/Proofs/Counterexamples.lean ====
section
/-! PROOFS. O33, O36 and O39 fail. Two clauses lack the premise that the tables are in canonical form: on a table that lists a key
twice, a write of the default entry deletes the first of the two and brings the second to light. One takes its premise on the data
pointer from the entry's opcode, not from that of the row. -/
namespace Sys2Proof.Laws
open Sys2Proof Sys2Proof.Machine

/-- What an outcome shows of its next state. -/
def shows {α : Type} (f : State → α) (o : Out) : Option α :=
  match o with
  | .next t => some (f t)
  | _ => none

theorem eq_of_shows {α : Type} {f : State → α} {o : Out} {t : State} {a : α} (ht : o = .next t) (h : shows f o = some a) : f t = a := by
  subst ht
  exact Option.some.inj h

/-! ### A damaged plan message, on a table that lists a frond twice. -/
/-- A running module whose frond table lists F0 twice: first as the default entry, then with STATE 3. -/
def frondListedTwice : State := { State.reset with fronds := [(0, {}), (0, { state := 3 })] }

/-- The message changes nothing of F0, and writing its default entry back takes the first of the two from the table. -/
theorem damagedMessage_shows_second_entry :
    shows (fun t => (frondAt t 0).state) (exec (.framePlanMessage .ca 0 0 false) frondListedTwice) = some 3 := by decide +kernel

/-- Refutes O33: the clause on a damaged plan message, which is to leave every frond as it is, has no premise that the frond table is
canonical. -/
theorem not_filnasFollowsMarkersAndPlans : ¬ Obligations.FilnasFollowsMarkersAndPlans := by
  rintro ⟨-, -, -, -, -, hdamaged, -⟩
  obtain ⟨t, ht, hfronds, -⟩ := hdamaged .ca 0 0 frondListedTwice (by decide)
  have hstate : (frondAt t 0).state = 3 := eq_of_shows ht damagedMessage_shows_second_entry
  rw [hfronds 0] at hstate
  exact absurd hstate (by decide)

/-! ### A missed deadline, on a table that lists a slice twice. -/
/-- A bound command of slice 0 that is late from the first count on. -/
def lateCmd : Cmd := { svc := .bound, deadline := some 0 }
/-- A running module with this command, whose slice table lists slice 0 twice; the first entry is one miss short of the wrap. -/
def sliceListedTwice : State :=
  { State.reset with slices := [(0, { misses := 2 ^ 32 - 1 }), (0, { misses := 5 })], cmds := [(9, lateCmd)] }

/-- The miss wraps MISSES to 0, which makes the entry the default, and the second one shows. -/
theorem missedDeadline_shows_second_entry :
    shows (fun t => (sliceAt t 0).misses) (exec (.commandDeadline 9) sliceListedTwice) = some 5 := by decide +kernel

/-- Refutes O36: the clause on a missed deadline, by which MISSES of the slice counts on modulo 2^32, has no premise that the slice
table is canonical. -/
theorem not_streamEnginesDeliverAndMiss : ¬ Obligations.StreamEnginesDeliverAndMiss := by
  rintro ⟨-, -, -, -, hlate⟩
  obtain ⟨hgoesOn, -⟩ := hlate 9 0 lateCmd sliceListedTwice rfl rfl rfl rfl (by decide) (by decide) rfl
  obtain ⟨t, m, ht, -, -, -, -, -, -, -, -, -, hmisses, -⟩ := hgoesOn rfl
  have hshown : (sliceAt t 0).misses = 5 := eq_of_shows ht missedDeadline_shows_second_entry
  rw [show lateCmd.slice = 0 from rfl, hshown] at hmisses
  exact absurd hmisses (by decide)

/-! ### A Read row, on an entry with the opcode of a Flush. -/
/-- An entry with opcode 0 whose data pointer is an SGL of a type that no command with data may bring (R159); a Flush does not look at
it. -/
def flushEntry : Sqe := { sqid := 1, cid := 7, nsid := 1, dlen := 4096, psdt := 1, dptr := 1 <<< 120 }
/-- The command that COMMAND_FETCH has made of it. -/
def flushCmd : Cmd := { e := flushEntry, st := .fetched }
/-- A running module with a zoned namespace, and this command alone. -/
def flushWaits : State :=
  { State.reset with
    c0 := { State.reset.c0 with link := true, rdy := true }
    nss := [(1, { used := true, zoned := true, nsze := 2097152, slice := some 0, att := ⟨true, true⟩ })]
    cmds := [(9, flushCmd)] }

theorem flushWaits_runsAlone : flushWaits.runsAlone 9 flushCmd flushEntry := by constructor <;> decide +kernel

/-- The row READ gives the entry its own opcode, rejects the data pointer, and the command ends. -/
theorem read_of_flushEntry_ends : shows (fun t => t.cmds.length) (exec (.read flushEntry) flushWaits) = some 0 := by decide +kernel

/-- Refutes O39: `runsAlone` asks that the data pointer is of an accepted kind for the entry's opcode, which need not be the row's. On an
entry with the opcode of a Flush a READ fails with SGL Descriptor Type Invalid and reads nothing. -/
theorem not_readsGatherTheirBlocks : ¬ Obligations.ReadsGatherTheirBlocks := by
  rintro ⟨hreads, -⟩
  obtain ⟨t, y, ht, hcmds, -⟩ := hreads _ List.mem_cons_self flushEntry 9 flushCmd (flushCmd.runAs (asOp 0x02 flushEntry)) flushWaits
    flushWaits_runsAlone rfl (by decide +kernel) (by decide +kernel) (fun _ => by decide +kernel) (fun h => absurd h (by decide +kernel))
  have hnone : t.cmds.length = 0 := eq_of_shows ht read_of_flushEntry_ends
  rw [hcmds] at hnone
  exact absurd hnone (Nat.succ_ne_zero 0)

end Sys2Proof.Laws
end

