-- ==== Sys2Proof/Proofs/MediaMoves.lean ====
section
/-! SUPPORT. What asynchronous events touch, and a relation between states for the operations by which fronds and dies go: at most fronds,
dies, die-blocks and the queue of rebuild and fill differ, beside what telling the hosts touches. -/
namespace Sys2Proof.Laws
open Sys2Proof Sys2Proof.Machine

variable {s t u : State}

/-! ### Telling the hosts. -/
theorem onlyTells_trans (h : s.onlyTells t) (k : t.onlyTells u) : s.onlyTells u :=
  Eq.trans (congrArg (fun x : State => { x with events := s.events, c0 := s.c0, c1 := s.c1, cqes := s.cqes, tx := s.tx }) k) h

/-- From s to t the module tells the hosts something: messages are added, and both ports keep their link and stay as ready as they were. -/
structure Tells (s t : State) : Prop where
  rest : s.onlyTells t
  tx : s.tx ⊆ t.tx
  ports : ∀ p, (ctrlAt t p).link = (ctrlAt s p).link ∧ (ctrlAt t p).rdy = (ctrlAt s p).rdy
  recorders : ∀ c, recAt t c = recAt s c

theorem Tells.eq (h : Tells s t) : { t with events := s.events, c0 := s.c0, c1 := s.c1, cqes := s.cqes, tx := s.tx } = s := h.rest
theorem Tells.refl (s : State) : Tells s s := ⟨rfl, fun _ h => h, fun _ => ⟨rfl, rfl⟩, fun _ => rfl⟩
theorem Tells.trans (h : Tells s t) (k : Tells t u) : Tells s u where
  rest := onlyTells_trans h.rest k.rest
  tx := fun _ hm => k.tx (h.tx hm)
  ports := fun p => ⟨(k.ports p).1.trans (h.ports p).1, (k.ports p).2.trans (h.ports p).2⟩
  recorders := fun c => (k.recorders c).trans (h.recorders c)

theorem Tells.after (k : Tells t u) (h : Tells s t) : Tells s u := h.trans k

theorem recAt_intake (r : EventRec) (s : State) (c : CardId) : recAt (intake r s) c = recAt s c := by
  cases c <;> simp only [intake, updEvents, recAt] <;> repeat' split
  all_goals rfl
theorem tells_event (code cls src ob a0 a1 a2 : Nat) (s : State) : Tells s (event code cls src ob a0 a1 a2 s) where
  rest := rfl
  tx := fun _ h => h
  ports := fun _ => ⟨rfl, rfl⟩
  recorders := recAt_intake _ s
theorem tells_send (m : Tx) (s : State) : Tells s (send m s) := ⟨rfl, fun _ h => by simp [h], fun _ => ⟨rfl, rfl⟩, fun _ => rfl⟩
theorem tells_updCtrl (g : Ctrl → Ctrl) (p : Port) (s : State)
    (h : ∀ x, (g x).link = x.link ∧ (g x).rdy = x.rdy := by exact fun _ => ⟨rfl, rfl⟩) : Tells s (updCtrl p g s) := by
  refine ⟨by cases p <;> rfl, by simp, fun q => ?_, fun c => by cases c <;> simp [recAt]⟩
  rw [ctrlAt_updCtrl]
  split <;> simp [*]
theorem tells_updEvents (g : Events → Events) (s : State)
    (h : ∀ x, (g x).recA = x.recA ∧ (g x).recB = x.recB := by exact fun _ => ⟨rfl, rfl⟩) : Tells s (updEvents g s) :=
  ⟨rfl, fun _ h => h, fun _ => ⟨rfl, rfl⟩, fun c => by cases c <;> simp [updEvents, recAt, h]⟩
theorem tells_cqes (l : List Cqe) (s : State) : Tells s { s with cqes := l } := ⟨rfl, fun _ h => h, fun _ => ⟨rfl, rfl⟩, fun _ => rfl⟩
theorem tells_aenDeliver (p : Port) (s : State) : Tells s (aenDeliver p s) := by
  unfold aenDeliver
  dsimp only
  split
  next cid r ty info page q _ _ =>
    have h : Tells s (updCtrl p (fun x => { x with aers := r }) (updEvents (fun ev => { ev with aenQ := pset ev.aenQ (cardOf p) q }) s)) :=
      (tells_updCtrl _ p _).after (tells_updEvents _ s)
    exact (tells_send _ _).after (h.trans (tells_cqes _ _))
  · exact .refl s
theorem tells_aenPort (p : Port) (ty info page : Nat) (s : State) : Tells s (aenPort p ty info page s) :=
  (tells_aenDeliver p _).after (tells_updEvents _ s)
theorem tells_aenBoth (ty info page : Nat) (s : State) : Tells s (aenBoth ty info page s) :=
  (tells_aenPort .h1 ty info page _).after (tells_aenPort .h0 ty info page s)
theorem tells_aenPage (page : Nat) (s : State) : Tells s (aenPage page s) := by
  unfold aenPage
  split
  · exact .refl s
  · exact (tells_aenBoth 7 0 page _).after (tells_updEvents _ s)
theorem tells_healthRise (s0 s : State) : Tells s (healthRise s0 s) := by
  unfold healthRise
  split
  · exact tells_aenPage 0xC3 s
  · exact .refl s

/-! ### Fronds, dies and the queue of rebuild and fill. -/
/-- From s to t at most the fronds of a set, dies, die-blocks and, where that is said, the queue of rebuild and fill differ, beside what
telling touches. -/
structure MediaMoves (home : Nat → Prop) (queue : Prop) (s t : State) : Prop where
  rest : s.onlyTells { t with fronds := s.fronds, rebuild := s.rebuild, dies := s.dies, blks := s.blks }
  tx : s.tx ⊆ t.tx
  ports : ∀ p, (ctrlAt t p).link = (ctrlAt s p).link ∧ (ctrlAt t p).rdy = (ctrlAt s p).rdy
  others : ∀ g, ¬ home g → frondAt t g = frondAt s g
  rebuild : ¬ queue → t.rebuild = s.rebuild
  rising : rising s.fronds = true → rising t.fronds = true

variable {home : Nat → Prop} {queue : Prop}

theorem MediaMoves.refl (s : State) : MediaMoves home queue s s :=
  ⟨rfl, fun _ h => h, fun _ => ⟨rfl, rfl⟩, fun _ _ => rfl, fun _ => rfl, id⟩
theorem MediaMoves.trans (h : MediaMoves home queue s t) (k : MediaMoves home queue t u) : MediaMoves home queue s u where
  rest := Eq.trans (congrArg (fun x : State => { x with
    events := s.events, c0 := s.c0, c1 := s.c1, cqes := s.cqes, tx := s.tx, fronds := s.fronds, rebuild := s.rebuild, dies := s.dies, blks := s.blks }) k.rest)
    h.rest
  tx := fun _ hm => k.tx (h.tx hm)
  ports := fun p => ⟨(k.ports p).1.trans (h.ports p).1, (k.ports p).2.trans (h.ports p).2⟩
  others := fun g hg => (k.others g hg).trans (h.others g hg)
  rebuild := fun hq => (k.rebuild hq).trans (h.rebuild hq)
  rising := fun hs => k.rising (h.rising hs)
theorem MediaMoves.after (k : MediaMoves home queue t u) (h : MediaMoves home queue s t) : MediaMoves home queue s u := h.trans k
theorem MediaMoves.of_foldl {α : Type} (f : State → α → State) (l : List α) (s : State) (h : ∀ t, ∀ a ∈ l, MediaMoves home queue t (f t a)) :
    MediaMoves home queue s (l.foldl f s) := by
  induction l generalizing s with
  | nil => exact .refl s
  | cons a l ih => exact (h s a List.mem_cons_self).trans (ih _ fun t b hb => h t b (List.mem_cons_of_mem a hb))
theorem Tells.mediaMoves (h : Tells s t) : MediaMoves home queue s t where
  rest := (congrArg (fun x : State => { x with fronds := s.fronds, rebuild := s.rebuild, dies := s.dies, blks := s.blks }) h.eq :)
  tx := h.tx
  ports := h.ports
  others := fun g _ => (congrArg (fun x => frondAt x g) h.eq :)
  rebuild := fun _ => (congrArg State.rebuild h.eq :)
  rising := fun hs => (congrArg (fun x : State => Machine.rising x.fronds) h.eq :).trans hs

theorem mediaMoves_updFrond {f : Nat} (hf : home f) (g : FrondSt → FrondSt) (s : State) : MediaMoves home queue s (updFrond f g s) :=
  ⟨rfl, fun _ h => h, fun _ => ⟨rfl, rfl⟩, fun _ hx => tget_tput_ne _ _ _ _ _ fun he => hx (he ▸ hf), fun _ => rfl, rising_tupd _ _ _ _⟩
theorem mediaMoves_updDie (d : Nat) (g : Die → Die) (s : State) : MediaMoves home queue s (updDie d g s) :=
  ⟨rfl, fun _ h => h, fun _ => ⟨rfl, rfl⟩, fun _ _ => rfl, fun _ => rfl, id⟩
theorem mediaMoves_updBlk (k : Nat) (g : Blk → Blk) (s : State) : MediaMoves home queue s (updBlk k g s) :=
  ⟨rfl, fun _ h => h, fun _ => ⟨rfl, rfl⟩, fun _ _ => rfl, fun _ => rfl, id⟩
theorem mediaMoves_dies (l : Tbl Die) (s : State) : MediaMoves home queue s { s with dies := l } :=
  ⟨rfl, fun _ h => h, fun _ => ⟨rfl, rfl⟩, fun _ _ => rfl, fun _ => rfl, id⟩
theorem mediaMoves_updRebuild (hq : queue) (g : Rebuild → Rebuild) (s : State) : MediaMoves home queue s (updRebuild g s) :=
  ⟨rfl, fun _ h => h, fun _ => ⟨rfl, rfl⟩, fun _ _ => rfl, fun hx => absurd hq hx, id⟩

theorem mediaMoves_frondState {f : Nat} (hf : home f) (st : Nat) (s : State) : MediaMoves home queue s (frondState f st s) := by
  unfold frondState
  dsimp only
  split
  · exact .refl s
  · exact (((tells_healthRise _ _).after (tells_aenPage _ _)).after (tells_event _ _ _ _ _ _ _ _)).mediaMoves.after (mediaMoves_updFrond hf _ s)
theorem mediaMoves_markIncomplete {k : Nat} (hk : home (frondOfDie (k / 4096))) (row : Nat) (s : State) :
    MediaMoves home queue s (markIncomplete k row s) :=
  (mediaMoves_updFrond hk _ _).after (mediaMoves_updBlk k _ s)
theorem mediaMoves_toDirty {k : Nat} (hk : home (frondOfDie (k / 4096))) (s : State) : MediaMoves home queue s (toDirty k s) := by
  unfold toDirty
  split
  · exact mediaMoves_updBlk k _ s
  · exact (mediaMoves_updFrond hk _ _).after (mediaMoves_updBlk k _ s)
theorem mediaMoves_endRefresh {f : Nat} (hf : home f) (s : State) (h : ∀ r, (frondAt s f).refresh = some r → home (frondOfDie (r.2.1 / 4096))) :
    MediaMoves home queue s (endRefresh f s) := by
  unfold endRefresh
  split
  next dst _ _ heq => exact ((mediaMoves_toDirty (h _ heq) _).after (mediaMoves_updDie _ _ _)).after (mediaMoves_updFrond hf _ s)
  · exact .refl s
theorem mediaMoves_sealTable {f : Nat} (hf : home f) (s : State) : MediaMoves home queue s (sealTable f s) := mediaMoves_updFrond hf _ s
theorem mediaMoves_unqueue (hq : queue) (sel : Nat → Bool) (s : State) : MediaMoves home queue s (unqueue sel s) := mediaMoves_updRebuild hq _ s
theorem mediaMoves_sortQueue (hq : queue) (s : State) : MediaMoves home queue s (sortQueue s) := mediaMoves_updRebuild hq _ s

end Sys2Proof.Laws
end

