-- ==== Sys2Proof/Proofs/Departure.lean ====
section
/-! SUPPORT. A frond leaves while nothing is on its way to or from the media (R94, R106): it moves alone, but for those in rebuild or fill
whose last member that was queued goes with it. -/
namespace Sys2Proof.Laws
open Sys2Proof Sys2Proof.Machine

variable {s t : State} {home : Nat → Prop} {queue : Prop} {f : Nat}

/-! ### Nothing on its way. -/
/-- No request, program, codeword, chunk, command or piece is under way, no stripe slot is used, and no metadata work waits. -/
structure Still (s : State) : Prop where
  reqs : s.reqs = []
  progs : s.progs = []
  cws : s.cws = []
  chunks : s.chunks = []
  cmds : s.cmds = []
  pieces : s.pieces = []
  stripes : s.stripes = []
  works : s.metas.work = []

theorem Still.of_quiet (h : s.quiet) : Still s := by
  obtain ⟨hreqs, hprogs, hcws, hchunks, hcmds, hpieces, -, -, hstripes, hworks, -⟩ := h
  exact ⟨hreqs, hprogs, hcws, hchunks, hcmds, hpieces, hstripes, hworks⟩
theorem Still.of_moves (hs : Still s) (h : MediaMoves home queue s t) : Still t := by
  have heq := h.rest
  exact ⟨(congrArg State.reqs heq :).trans hs.reqs, (congrArg State.progs heq :).trans hs.progs, (congrArg State.cws heq :).trans hs.cws,
    (congrArg State.chunks heq :).trans hs.chunks, (congrArg State.cmds heq :).trans hs.cmds, (congrArg State.pieces heq :).trans hs.pieces,
    (congrArg State.stripes heq :).trans hs.stripes, (congrArg (fun x : State => x.metas.work) heq :).trans hs.works⟩

/-- An update that maps the waiting works changes nothing where none waits. -/
theorem updMetas_of_no_work (g : Tbl MetaWork → Tbl MetaWork) (hg : g [] = []) (hs : s.metas.work = []) :
    updMetas (fun m => { m with work := g m.work }) s = s := by
  have heq : { s.metas with work := g s.metas.work } = s.metas := by rw [hs, hg, ← hs]
  rw [updMetas, heq]

theorem Still.holdChunks (hs : Still s) : holdChunks f s = s := by simp [Machine.holdChunks, hs.chunks]
theorem Still.loseReads (hs : Still s) (sel : Req → Bool) : loseReads sel s = s := by simp [Machine.loseReads, hs.reqs]
theorem Still.loseCopies (hs : Still s) (sel : CopyLoc → Bool) : loseCopies sel s = s := by simp [Machine.loseCopies, hs.cws]
theorem Still.settleFailed (hs : Still s) : settleFailed s = s := by simp [Machine.settleFailed, hs.pieces]
theorem Still.metasGone (hs : Still s) : metasGone f s = s := by
  unfold Machine.metasGone
  exact updMetas_of_no_work (fun l => (l.filter _).map _) rfl hs.works
theorem Still.unverify (hs : Still s) (sel : Nat → Bool) :
    unverify f sel s = updFrond f (fun g => { g with batch := g.batch.filter fun h => !((frondAt s f).batch.filter sel).contains h }) s := by
  have hfold : ∀ (l : List Nat) (u : State), u.chunks = [] →
      l.foldl (fun u h => if (tfind u.chunks h).isSome then updChunk h (fun c => { c with st := .held }) u else u) u = u := by
    intro l u hu
    exact List.foldl_fixed' (fun h => by simp [hu, tfind]) l
  unfold Machine.unverify
  refine (hfold _ _ ?_).trans ?_
  · exact hs.chunks
  · exact updMetas_of_no_work (fun l => l.map _) rfl hs.works

/-! ### A frond gone. -/
/-- Plans, packing queue and waiting work of a frond are gone. -/
def emptied (g : FrondSt) : FrondSt := { g with cur := {}, nxt := {}, pack := [], waiting := [], opDies := [] }
/-- The dies of a frond lose their power. -/
def darkDies (f : Nat) (s : State) : State := { s with dies := s.dies.map fun d => if frondOfDie d.1 = f then (d.1, clearDie d.2) else d }

theorem mediaMoves_darkDies (f : Nat) (s : State) : MediaMoves home queue s (darkDies f s) := mediaMoves_dies _ s

theorem frondGone_eq (hs : Still s) (hf : home f) (st : Nat)
    (h : ∀ r, (frondAt (frondState f st s) f).refresh = some r → home (frondOfDie (r.2.1 / 4096))) :
    frondGone f st s = updFrond f emptied (unverify f (fun _ => true) (darkDies f (endRefresh f (frondState f st s)))) := by
  have h1 : Still (frondState f st s) := hs.of_moves (home := home) (queue := False) (mediaMoves_frondState hf st s)
  have h2 : Still (endRefresh f (frondState f st s)) := h1.of_moves (home := home) (queue := False) (mediaMoves_endRefresh hf _ h)
  have h3 : Still (darkDies f (endRefresh f (frondState f st s))) := h2.of_moves (home := home) (queue := False) (mediaMoves_darkDies f _)
  have hdark : { endRefresh f (frondState f st s) with
      progs := (endRefresh f (frondState f st s)).progs.filter (fun p => p.2.frond != f)
      dies := (endRefresh f (frondState f st s)).dies.map fun d => if frondOfDie d.1 = f then (d.1, clearDie d.2) else d } =
      darkDies f (endRefresh f (frondState f st s)) := by
    rw [darkDies, h2.progs, List.filter_nil, ← h2.progs]
  have h4 : Still (Machine.unverify f (fun _ => true) (darkDies f (endRefresh f (frondState f st s)))) := by
    rw [h3.unverify]
    exact h3.of_moves (home := home) (queue := False) (mediaMoves_updFrond hf _ _)
  have h5 : Still (updFrond f emptied (Machine.unverify f (fun _ => true) (darkDies f (endRefresh f (frondState f st s))))) :=
    h4.of_moves (home := home) (queue := False) (mediaMoves_updFrond hf _ _)
  unfold Machine.frondGone
  dsimp only
  rw [h1.loseReads, h1.cws, List.filter_nil, List.foldl_nil, h1.loseCopies, hdark, h4.metasGone]
  exact h5.settleFailed

/-- Where frond f moves, the fronds of what it erases again and of its refresh's target move with it. -/
structure HomeFor (home : Nat → Prop) (f : Nat) (s : State) : Prop where
  self : home f
  stays : (∀ g, home g) ∨ (rising s.fronds = true ∧ s.dies = [] ∧ (∀ x ∈ (frondAt s f).erased, home (frondOfDie (x.1 / 4096))) ∧
    ∀ r, (frondAt s f).refresh = some r → home (frondOfDie (r.2.1 / 4096)))

theorem HomeFor.all (f : Nat) (s : State) : HomeFor (fun _ => True) f s := ⟨trivial, .inl fun _ => trivial⟩
theorem HomeFor.of_keepsHome {f : Frond} (hr : rising s.fronds = true) (hd : s.dies = []) (h : s.keepsHome f) : HomeFor (· = f.val) f s :=
  ⟨rfl, .inr ⟨hr, hd, h.1, h.2⟩⟩
theorem HomeFor.sealTable (h : HomeFor home f s) : HomeFor home f (sealTable f s) := by
  refine ⟨h.self, h.stays.imp_right ?_⟩
  rintro ⟨hr, hd, herased, hrefresh⟩
  have hseal : ∀ G : FrondSt → FrondSt, frondAt (updFrond f G s) f = G (frondAt s f) := fun G => by rw [frondAt_updFrond _ _ _ _ hr, if_pos rfl]
  exact ⟨(mediaMoves_sealTable (queue := False) h.self s).rising hr, hd, by rw [Machine.sealTable, hseal]; exact herased, by rw [Machine.sealTable, hseal]; exact hrefresh⟩

theorem mediaMoves_cutErases (h : HomeFor home f s) : MediaMoves home queue s (cutErases f s) := by
  have blk : ∀ (x : Nat × Bool) (g : Blk → Blk) (u : State), home (frondOfDie (x.1 / 4096)) →
      MediaMoves home queue u (markIncomplete x.1 2 (updBlk x.1 g u)) :=
    fun x g u hx => (mediaMoves_markIncomplete hx 2 _).after (mediaMoves_updBlk x.1 g u)
  obtain ⟨hf, hall | ⟨-, hd, he, -⟩⟩ := h <;> unfold cutErases <;> dsimp only
  · refine (mediaMoves_updFrond hf _ _).after ((MediaMoves.of_foldl _ _ _ ?_).after (MediaMoves.of_foldl _ _ _ ?_))
    · exact fun u x _ => blk x _ u (hall _)
    · intro u d _
      have named : ∀ (l : List LongOp) (v : State), MediaMoves home queue v (l.foldl (fun s o => updFrond f (fun g => { g with
          dirty := if g.dirty.contains (blkKey d.1 o.block) then g.dirty else g.dirty ++ [blkKey d.1 o.block] })
          (updBlk (blkKey d.1 o.block) (fun b => { b with intent := false }) s)) v) :=
        fun l v => .of_foldl _ _ _ fun w o _ => (mediaMoves_updFrond hf _ _).after (mediaMoves_updBlk _ _ w)
      have start := (named (d.2.opQ.filter fun o => o.kind == .erase) _).after (mediaMoves_updDie d.1 (fun x => { x with opQ := x.opQ.filter fun o => o.kind != .erase }) u)
      split
      · split
        · exact ((mediaMoves_markIncomplete (hall _) _ _).after (mediaMoves_updDie _ _ _)).after start
        · exact start
      · exact start
  · rw [hd, List.filter_nil, List.foldl_nil]
    refine (mediaMoves_updFrond hf _ _).after (MediaMoves.of_foldl _ _ _ ?_)
    exact fun u x hx => blk x _ u (he x (List.mem_of_mem_filter hx))

/-! ### What the fronds keep. -/
/-- Every frond keeps what π shows of it, as long as the frond table is canonical. -/
def KeepsEach {β : Type} (π : FrondSt → β) (s t : State) : Prop :=
  rising s.fronds = true → rising t.fronds = true ∧ ∀ g, π (frondAt t g) = π (frondAt s g)

section
variable {β : Type} {π : FrondSt → β} {u : State}
theorem KeepsEach.refl (s : State) : KeepsEach π s s := fun h => ⟨h, fun _ => rfl⟩
theorem KeepsEach.after (k : KeepsEach π t u) (h : KeepsEach π s t) : KeepsEach π s u := fun hs =>
  have ⟨ht, hst⟩ := h hs
  have ⟨hu, htu⟩ := k ht
  ⟨hu, fun g => (htu g).trans (hst g)⟩
theorem KeepsEach.of_fronds (h : t.fronds = s.fronds) : KeepsEach π s t := fun hs => ⟨h ▸ hs, fun g => by rw [frondAt, h, frondAt]⟩
theorem KeepsEach.of_updFrond (f : Nat) (G : FrondSt → FrondSt) (s : State) (h : ∀ x, π (G x) = π x := by exact fun _ => rfl) :
    KeepsEach π s (updFrond f G s) := fun hs => by
  refine ⟨rising_tupd _ _ _ _ hs, fun g => ?_⟩
  rw [frondAt_updFrond _ _ _ _ hs]
  split
  · rw [h, ‹g = f›]
  · rfl
theorem KeepsEach.of_foldl {α : Type} (f : State → α → State) (l : List α) (s : State) (h : ∀ t a, KeepsEach π t (f t a)) :
    KeepsEach π s (l.foldl f s) := by
  induction l generalizing s with
  | nil => exact .refl s
  | cons a l ih => exact (ih _).after (h s a)
end

/-- STATE and running refresh of a frond. -/
def standing (g : FrondSt) : Nat × Option (Nat × Nat × Nat × Nat) := (g.state, g.refresh)

theorem keeps_sealTable (f : Nat) (s : State) : KeepsEach standing s (sealTable f s) := .of_updFrond _ _ _
theorem keeps_cutErases (hd : s.dies = []) : KeepsEach standing s (cutErases f s) := by
  unfold cutErases
  dsimp only
  rw [hd, List.filter_nil, List.foldl_nil]
  refine (KeepsEach.of_updFrond _ _ _).after (KeepsEach.of_foldl _ _ _ fun u x => ?_)
  exact (KeepsEach.of_updFrond _ _ _).after (.of_fronds rfl)
theorem keeps_toDirty (k : Nat) (s : State) : KeepsEach FrondSt.state s (toDirty k s) := by
  unfold toDirty
  split
  · exact .of_fronds rfl
  · refine (KeepsEach.of_updFrond _ _ _ fun x => ?_).after (.of_fronds rfl)
    split <;> rfl
theorem keeps_endRefresh (f : Nat) (s : State) : KeepsEach FrondSt.state s (endRefresh f s) := by
  unfold endRefresh
  split
  · exact ((keeps_toDirty _ _).after (.of_fronds rfl)).after (.of_updFrond f (fun g => { g with refresh := none }) s)
  · exact .refl s

theorem keeps_darkDies (f : Nat) (s : State) : KeepsEach FrondSt.state s (darkDies f s) := .of_fronds rfl
theorem keeps_unverify (hs : Still s) (sel : Nat → Bool) : KeepsEach FrondSt.state s (Machine.unverify f sel s) := by
  rw [hs.unverify]
  exact .of_updFrond _ _ _ fun _ => rfl

theorem fronds_tells {u : State} (h : Tells s u) : u.fronds = s.fronds := (congrArg State.fronds h.eq :)

/-- The frond whose STATE changes has its new STATE; its refresh goes on. -/
theorem frondAt_frondState (st : Nat) (hs : rising s.fronds = true) :
    (frondAt (frondState f st s) f).state = st ∧ (frondAt (frondState f st s) f).refresh = (frondAt s f).refresh := by
  unfold frondState
  dsimp only
  split
  · exact ⟨‹_›, rfl⟩
  · rw [frondAt, fronds_tells (((tells_healthRise _ _).after (tells_aenPage _ _)).after (tells_event _ _ _ _ _ _ _ _)), ← frondAt,
      frondAt_updFrond _ _ _ _ hs, if_pos rfl]
    exact ⟨rfl, rfl⟩

/-! ### Rebuild and fill that have ended. -/
/-- A frond that comes back into service. -/
def revived (x : FrondSt) : FrondSt := if x.state = 0 then x else { x with state := 0, goneFc := 0, goneEp := 0 }

theorem revived_revived (x : FrondSt) : revived (revived x) = revived x := by
  unfold revived
  split <;> simp [*]

theorem frondAt_frondState_zero (hs : rising s.fronds = true) (g : Nat) :
    frondAt (frondState f 0 s) g = if g = f then revived (frondAt s f) else frondAt s g := by
  unfold frondState revived
  dsimp only
  split
  · rename_i h
    split
    · rw [‹g = f›]
    · rfl
  · rw [frondAt, fronds_tells (((tells_healthRise _ _).after (tells_aenPage _ _)).after (tells_event _ _ _ _ _ _ _ _)), ← frondAt,
      frondAt_updFrond _ _ _ _ hs]
    simp

theorem frondAt_foldl_frondState_zero (l : List Nat) (hs : rising s.fronds = true) (g : Nat) :
    frondAt (l.foldl (fun s f => frondState f 0 s) s) g = if g ∈ l then revived (frondAt s g) else frondAt s g := by
  induction l generalizing s with
  | nil => rfl
  | cons a l ih =>
    have hrise : rising (frondState a 0 s).fronds = true := (mediaMoves_frondState (home := fun _ => True) (queue := False) trivial 0 s).rising hs
    rw [List.foldl_cons, ih hrise, frondAt_frondState_zero hs]
    by_cases hga : g = a
    · subst hga
      simp [revived_revived]
    · simp [hga]

/-- Fronds that rebuild or fill brings back: STATE 5 or 6, and no member of them queued (R106, R107). -/
def returning (s : State) : List Nat :=
  (List.range 16).filter fun f => ((frondAt s f).state == 5 || (frondAt s f).state == 6) && !(s.rebuild.queue.any fun m => memberFrond (m / 16) (m % 16) == f)

theorem frondAt_returning (hs : rising s.fronds = true) (g : Nat) :
    frondAt ((returning s).foldl (fun s f => frondState f 0 s) s) g = s.afterQueue g := by
  rw [frondAt_foldl_frondState_zero _ hs]
  have hmem : g ∈ returning s ↔ g < 16 ∧ ((frondAt s g).state = 5 ∨ (frondAt s g).state = 6) ∧
      ∀ m ∈ s.rebuild.queue, memberFrond (m / 16) (m % 16) ≠ g := by simp [returning]
  unfold State.afterQueue
  simp only [hmem]
  split
  · rename_i h
    unfold revived
    rw [if_neg (by omega)]
  · rfl

theorem fronds_rebuildIdle (s : State) : (rebuildIdle s).fronds = ((returning s).foldl (fun s f => frondState f 0 s) s).fronds := by
  have events : ∀ (l : List (Nat × Nat)) (n : Nat) (u : State),
      (l.foldl (fun s k => event 0x202 0 (srcQ s.time.master) k.2 k.1 n 0 s) u).fronds = u.fronds := by
    intro l n u
    induction l generalizing u with
    | nil => rfl
    | cons a l ih => rw [List.foldl_cons, ih]; rfl
  have dies : ∀ (l : List (Nat × Die)) (u : State), (l.foldl (fun s d => updDie d.1 (fun x => { x with state := 3 }) s) u).fronds = u.fronds := by
    intro l u
    induction l generalizing u with
    | nil => rfl
    | cons a l ih => rw [List.foldl_cons, ih]; rfl
  unfold rebuildIdle
  dsimp only
  split
  · rfl
  · simp only [fronds_tells (tells_aenPage _ _), updRebuild_others, dies, events]
    rfl

/-- Each frond once rebuild and fill have been looked through. -/
theorem frondAt_rebuildIdle (hs : rising s.fronds = true) (g : Nat) : frondAt (rebuildIdle s) g = s.afterQueue g := by
  rw [frondAt, fronds_rebuildIdle, ← frondAt, frondAt_returning hs]

theorem mediaMoves_rebuildIdle (hq : queue) (hh : ∀ g, home g) (s : State) : MediaMoves home queue s (rebuildIdle s) := by
  have back : MediaMoves home queue s ((returning s).foldl (fun s f => frondState f 0 s) s) :=
    .of_foldl _ _ _ fun u f _ => mediaMoves_frondState (hh f) 0 u
  unfold rebuildIdle
  dsimp only
  split
  · exact back
  · refine MediaMoves.after ?_ back
    refine ((tells_aenPage _ _).mediaMoves.after (mediaMoves_updRebuild hq _ _)).after ?_
    exact (MediaMoves.of_foldl _ _ _ fun u d _ => mediaMoves_updDie _ _ u).after
      (MediaMoves.of_foldl _ _ _ fun u k _ => (tells_event _ _ _ _ _ _ _ u).mediaMoves)

/-! ### A frond departs. -/
theorem frondAt_sortQueue (s : State) (g : Nat) : frondAt (sortQueue s) g = frondAt s g := rfl
/-- A departing frond once it has gone, before the queue of rebuild and fill is looked through. -/
def departed (f st : Nat) (s : State) : State := frondGone f st (cutErases f (sealTable f s))
/-- Its members leave the queue, and no training of it is on its way. -/
def unqueued (f st : Nat) (s : State) : State :=
  updFrond f (fun g => { g with training := none })
    (unqueue (s.rebuild.queue.filter fun m => memberFrond (m / 16) (m % 16) == f).contains (departed f st s))

theorem keeps_unqueue (sel : Nat → Bool) (s : State) : KeepsEach FrondSt.state s (unqueue sel s) := .of_fronds rfl
theorem keeps_unqueued (f st : Nat) (s : State) : KeepsEach FrondSt.state (departed f st s) (unqueued f st s) :=
  (KeepsEach.of_updFrond f (fun g => { g with training := none }) _).after (keeps_unqueue _ _)

theorem frondDepart_eq (hs : Still s) (h : HomeFor home f s) (st : Nat) : frondDepart f st s = sortQueue (rebuildIdle (unqueued f st s)) := by
  have hcut : Still (cutErases f (sealTable f s)) :=
    (hs.of_moves (home := home) (queue := False) (mediaMoves_sealTable h.self s)).of_moves (home := home) (queue := False) (mediaMoves_cutErases h.sealTable)
  unfold frondDepart
  dsimp only
  rw [hcut.holdChunks]
  rfl

/-- A refresh that runs when the frond's STATE changes is the one that ran before. -/
theorem refresh_frondState_home (h : HomeFor home f s) (st : Nat) (r : Nat × Nat × Nat × Nat)
    (hr : (frondAt (frondState f st (cutErases f (sealTable f s))) f).refresh = some r) : home (frondOfDie (r.2.1 / 4096)) := by
  obtain ⟨-, hall | ⟨hrise, hd, -, hrefresh⟩⟩ := h
  · exact hall _
  · have ⟨hcut, hsame⟩ := (keeps_cutErases (f := f) (s := sealTable f s) hd).after (keeps_sealTable f s) hrise
    rw [(frondAt_frondState st hcut).2, (Prod.mk.inj (hsame f)).2] at hr
    exact hrefresh r hr

theorem departed_eq (hs : Still s) (h : HomeFor home f s) (st : Nat) :
    departed f st s = updFrond f emptied (unverify f (fun _ => true) (darkDies f (endRefresh f (frondState f st (cutErases f (sealTable f s)))))) := by
  have hcut : Still (cutErases f (sealTable f s)) :=
    (hs.of_moves (home := home) (queue := False) (mediaMoves_sealTable h.self s)).of_moves (home := home) (queue := False) (mediaMoves_cutErases h.sealTable)
  exact frondGone_eq hcut h.self st fun r hr => refresh_frondState_home h st r hr

theorem mediaMoves_departed (hs : Still s) (h : HomeFor home f s) (st : Nat) : MediaMoves home queue s (departed f st s) := by
  have hdark : MediaMoves home queue s (darkDies f (endRefresh f (frondState f st (cutErases f (sealTable f s))))) :=
    (mediaMoves_darkDies f _).after ((mediaMoves_endRefresh h.self _ (refresh_frondState_home h st)).after ((mediaMoves_frondState h.self st _).after
      ((mediaMoves_cutErases h.sealTable).after (mediaMoves_sealTable h.self s))))
  rw [departed_eq hs h, (hs.of_moves hdark).unverify]
  exact (mediaMoves_updFrond h.self _ _).after ((mediaMoves_updFrond h.self _ _).after hdark)

theorem mediaMoves_unqueued (hs : Still s) (h : HomeFor home f s) (st : Nat) (hq : queue) : MediaMoves home queue s (unqueued f st s) :=
  (mediaMoves_updFrond h.self _ _).after ((mediaMoves_unqueue hq _ _).after (mediaMoves_departed hs h st))

/-- Any departure touches at most what the media side and telling touch. -/
theorem mediaMoves_frondDepart (hs : Still s) (st : Nat) : MediaMoves (fun _ => True) True s (frondDepart f st s) := by
  rw [frondDepart_eq hs (.all f s)]
  exact (mediaMoves_sortQueue trivial _).after ((mediaMoves_rebuildIdle trivial (fun _ => trivial) _).after (mediaMoves_unqueued hs (.all f s) st trivial))

theorem state_departed (hs : Still s) (h : HomeFor home f s) (hr : rising s.fronds = true) (st : Nat) : (frondAt (departed f st s) f).state = st := by
  have hcut : rising (cutErases f (sealTable f s)).fronds = true :=
    ((mediaMoves_cutErases (queue := False) h.sealTable).after (mediaMoves_sealTable h.self s)).rising hr
  have hst : rising (frondState f st (cutErases f (sealTable f s))).fronds = true := (mediaMoves_frondState (queue := False) h.self st _).rising hcut
  have hdark : MediaMoves home False s (darkDies f (endRefresh f (frondState f st (cutErases f (sealTable f s))))) :=
    (mediaMoves_darkDies f _).after ((mediaMoves_endRefresh h.self _ (refresh_frondState_home h st)).after ((mediaMoves_frondState h.self st _).after
      ((mediaMoves_cutErases h.sealTable).after (mediaMoves_sealTable h.self s))))
  have hkeeps : KeepsEach FrondSt.state (frondState f st (cutErases f (sealTable f s))) (departed f st s) := by
    rw [departed_eq hs h]
    exact (KeepsEach.of_updFrond f emptied _).after ((keeps_unverify (hs.of_moves hdark) _).after ((keeps_darkDies f _).after (keeps_endRefresh f _)))
  rw [(hkeeps hst).2 f]
  exact (frondAt_frondState st hcut).1

theorem afterQueue_congr {g : Nat} (hg : frondAt t g = frondAt s g)
    (hq : ∀ m, memberFrond (m / 16) (m % 16) = g → (m ∈ t.rebuild.queue ↔ m ∈ s.rebuild.queue)) : t.afterQueue g = s.afterQueue g := by
  have hiff : (∀ m ∈ t.rebuild.queue, memberFrond (m / 16) (m % 16) ≠ g) ↔ ∀ m ∈ s.rebuild.queue, memberFrond (m / 16) (m % 16) ≠ g :=
    ⟨fun h m hm he => h m ((hq m he).2 hm) he, fun h m hm he => h m ((hq m he).1 hm) he⟩
  simp only [State.afterQueue, hg, hiff]

theorem afterQueue_of_state {g : Nat} (h5 : (frondAt s g).state ≠ 5) (h6 : (frondAt s g).state ≠ 6) : s.afterQueue g = frondAt s g :=
  if_neg fun h => h.2.1.elim h5 h6

/-- The fronds after a departure: the one that departs has its new STATE, which is none of rebuild and fill, and the others are as the queue of
rebuild and fill leaves them. -/
theorem frondAt_frondDepart {f : Frond} {st : Nat} (hs : Still s) (hr : rising s.fronds = true) (hd : s.dies = []) (hk : s.keepsHome f)
    (h5 : st ≠ 5) (h6 : st ≠ 6) :
    (frondAt (frondDepart f st s) f).state = st ∧ ∀ g, g ≠ f.val → frondAt (frondDepart f st s) g = s.afterQueue g := by
  have home := HomeFor.of_keepsHome hr hd hk
  have hrise : rising (departed f st s).fronds = true := (mediaMoves_departed (queue := False) hs home st).rising hr
  have hidle : ∀ g, frondAt (frondDepart f st s) g = (unqueued f st s).afterQueue g := fun g => by
    rw [frondDepart_eq hs home, frondAt_sortQueue, frondAt_rebuildIdle ((mediaMoves_unqueued (queue := True) hs home st trivial).rising hr)]
  refine ⟨?_, fun g hg => ?_⟩
  · have hstate : (frondAt (unqueued f st s) f).state = st := ((keeps_unqueued f st s hrise).2 f).trans (state_departed hs home hr st)
    rw [hidle, afterQueue_of_state (hstate.trans_ne h5) (hstate.trans_ne h6), hstate]
  · rw [hidle]
    refine afterQueue_congr ((mediaMoves_unqueued (queue := True) hs home st trivial).others g hg) fun m hm => ?_
    have hqueue : (departed f st s).rebuild = s.rebuild := (mediaMoves_departed hs home st).rebuild id
    have hne : memberFrond (m / 16) (m % 16) ≠ f.val := hm ▸ hg
    simp [unqueued, unqueue, updRebuild, hqueue, hne]

end Sys2Proof.Laws
end

