-- ==== Sys2Proof/Proofs/ChannelFailure.lean ====
section
/-! SUPPORT. A die fails while nothing is on its way to or from the media (R81, R95): beside the die, its own frond and spare die-blocks alone
move; and the 32 dies of a channel one after the other (R24). -/
namespace Sys2Proof.Laws
open Sys2Proof Sys2Proof.Machine

variable {s t u : State} {f : Nat}

/-- The media side of a state. -/
def mediaSide (s : State) :=
  (s.reqs, s.progs, s.cws, s.chunks, s.cmds, s.pieces, s.stripes, s.metas, s.fronds, s.dies, s.blks, s.chans)

theorem mediaSide_tells (h : Tells s t) : mediaSide t = mediaSide s := (congrArg mediaSide h.eq :)

/-- Nothing is on its way, no die has a long operation, no die-block holds a member, and frond f refreshes within itself. -/
structure Calm (f : Nat) (s : State) : Prop where
  still : Still s
  places : s.metas.places = []
  fronds : rising s.fronds = true
  dies : rising s.dies = true
  idle : ∀ k, (dieAt s k).op = none ∧ (dieAt s k).opQ = []
  free : ∀ b ∈ s.blks, b.2.member = none
  refresh : ∀ r, (frondAt s f).refresh = some r → frondOfDie (r.2.1 / 4096) = f

theorem Calm.of_mediaSide (hs : Calm f s) (h : mediaSide t = mediaSide s) : Calm f t := by
  simp only [mediaSide, Prod.mk.injEq] at h
  obtain ⟨hreqs, hprogs, hcws, hchunks, hcmds, hpieces, hstripes, hmetas, hfronds, hdies, hblks, -⟩ := h
  obtain ⟨still, places, fronds, dies, idle, free, refresh⟩ := hs
  exact ⟨⟨hreqs ▸ still.reqs, hprogs ▸ still.progs, hcws ▸ still.cws, hchunks ▸ still.chunks, hcmds ▸ still.cmds, hpieces ▸ still.pieces,
      hstripes ▸ still.stripes, hmetas ▸ still.works⟩,
    hmetas ▸ places, hfronds ▸ fronds, hdies ▸ dies, fun k => by rw [dieAt, hdies]; exact idle k, hblks ▸ free,
    by rw [frondAt, hfronds]; exact refresh⟩

theorem Calm.updChan (hs : Calm f s) (k : Nat) (G : Chan → Chan) : Calm f (updChan k G s) := by
  obtain ⟨⟨h1, h2, h3, h4, h5, h6, h7, h8⟩, places, fronds, dies, idle, free, refresh⟩ := hs
  exact ⟨⟨h1, h2, h3, h4, h5, h6, h7, h8⟩, places, fronds, dies, idle, free, refresh⟩

/-- From s to t everything stays calm, and every die, every channel and every frond but f is as before. -/
structure SparesMoved (f : Nat) (s t : State) : Prop where
  calm : Calm f t
  dies : ∀ k, dieAt t k = dieAt s k
  others : ∀ g, g ≠ f → frondAt t g = frondAt s g
  chans : t.chans = s.chans
/-- From s, where it is calm, to t nothing but spares and frond f move. -/
def SparesMove (f : Nat) (s t : State) : Prop := Calm f s → SparesMoved f s t

theorem SparesMove.refl (s : State) : SparesMove f s s := fun hs => ⟨hs, fun _ => rfl, fun _ _ => rfl, rfl⟩
theorem SparesMove.after (k : SparesMove f t u) (h : SparesMove f s t) : SparesMove f s u := fun hs =>
  have ht := h hs
  have hu := k ht.calm
  ⟨hu.calm, fun x => (hu.dies x).trans (ht.dies x), fun g hg => (hu.others g hg).trans (ht.others g hg), hu.chans.trans ht.chans⟩
theorem SparesMove.of_mediaSide (h : mediaSide t = mediaSide s) : SparesMove f s t := fun hs => by
  refine ⟨hs.of_mediaSide h, fun k => ?_, fun g _ => ?_, ?_⟩ <;>
    simp only [mediaSide, Prod.mk.injEq] at h <;> simp only [dieAt, frondAt, h]
theorem SparesMove.of_foldl {α : Type} (op : State → α → State) (l : List α) (s : State) (h : ∀ t a, SparesMove f t (op t a)) :
    SparesMove f s (l.foldl op s) := by
  induction l generalizing s with
  | nil => exact .refl s
  | cons a l ih => exact (ih _).after (h s a)

theorem sparesMove_updFrond (G : FrondSt → FrondSt) (s : State)
    (h : ∀ x, (G x).refresh = x.refresh ∨ (G x).refresh = none := by exact fun _ => .inl rfl) : SparesMove f s (updFrond f G s) := by
  rintro ⟨⟨h1, h2, h3, h4, h5, h6, h7, h8⟩, places, fronds, dies, idle, free, refresh⟩
  refine ⟨⟨⟨h1, h2, h3, h4, h5, h6, h7, h8⟩, places, rising_tupd _ _ _ _ fronds, dies, idle, free, fun r hr => ?_⟩,
    fun _ => rfl, fun g hg => tget_tput_ne _ _ _ _ _ hg, rfl⟩
  rw [frondAt_updFrond _ _ _ _ fronds, if_pos rfl] at hr
  rcases h (frondAt s f) with hG | hG
  · exact refresh r (hG ▸ hr)
  · rw [hG] at hr
    exact absurd hr (by simp)

/-- A die-block table in which no block holds a member. -/
theorem sparesMove_blks (l : Tbl Blk) (s : State) (h : (∀ b ∈ s.blks, b.2.member = none) → ∀ b ∈ l, b.2.member = none) :
    SparesMove f s { s with blks := l } := by
  rintro ⟨⟨h1, h2, h3, h4, h5, h6, h7, h8⟩, places, fronds, dies, idle, free, refresh⟩
  exact ⟨⟨⟨h1, h2, h3, h4, h5, h6, h7, h8⟩, places, fronds, dies, idle, h free, refresh⟩, fun _ => rfl, fun _ _ => rfl, rfl⟩
theorem sparesMove_updBlk (k : Nat) (G : Blk → Blk) (s : State) (h : ∀ x, x.member = none → (G x).member = none := by exact fun _ h => h) :
    SparesMove f s (updBlk k G s) := by
  refine sparesMove_blks _ s fun free b hb => ?_
  have hold : (blkAt s k).member = none := by
    rcases tget_mem (blkDefault k) s.blks k with hd | hm
    · rw [blkAt, hd, blkDefault]
      repeat' split
      all_goals rfl
    · exact free _ hm
  rw [tupd, tput] at hb
  split at hb
  · exact free _ (mem_tdel _ _ _ hb)
  · rcases mem_tins _ _ _ _ hb with rfl | hb
    · exact h _ hold
    · exact free _ hb

/-- A die without long operations stays as it is where those of a die-block end. -/
theorem sparesMove_dropOps (k : Nat) (s : State) : SparesMove f s (dropOps k s) := by
  intro hs
  have same : ∀ x, dieAt (dropOps k s) x = dieAt s x := fun x => by
    rw [dropOps, dieAt_updDie _ _ _ _ hs.dies]
    split
    · obtain ⟨hop, hq⟩ := hs.idle (k / 4096)
      simp only [‹x = k / 4096›, hop, hq, Option.filter_none, List.filter_nil]
      rw [← hop, ← hq]
    · rfl
  obtain ⟨⟨h1, h2, h3, h4, h5, h6, h7, h8⟩, places, fronds, dies, idle, free, refresh⟩ := hs
  exact ⟨⟨⟨h1, h2, h3, h4, h5, h6, h7, h8⟩, places, fronds, by rw [dropOps, updDie_dies]; exact rising_tupd _ _ _ _ dies,
    fun x => by rw [same]; exact idle x, free, refresh⟩, same, fun _ _ => rfl, rfl⟩

theorem sparesMove_toDirty {k : Nat} (hk : frondOfDie (k / 4096) = f) (s : State) : SparesMove f s (toDirty k s) := by
  subst hk
  unfold toDirty
  split
  · exact sparesMove_updBlk k _ s fun _ _ => rfl
  · refine (sparesMove_updFrond _ _ fun x => .inl ?_).after (sparesMove_updBlk k _ s fun _ _ => rfl)
    split <;> rfl
theorem sparesMove_endRefresh (s : State) : SparesMove f s (endRefresh f s) := by
  intro hs
  unfold endRefresh
  split
  next heq =>
    exact (((sparesMove_toDirty (hs.refresh _ heq) _).after (sparesMove_dropOps _ _)).after
      (sparesMove_updFrond (fun g => { g with refresh := none }) s fun _ => .inr rfl)) hs
  · exact SparesMove.refl s hs

/-! ### Spares. -/
theorem sparesMove_rawSpare (s : State) : SparesMove f s (rawSpare f s).2 := by
  unfold rawSpare
  split
  · exact (sparesMove_updFrond (fun g => { g with spares := g.spares - 1 }) _).after (sparesMove_updBlk _ (fun b => { b with state := 0 }) s)
  · exact .refl s
theorem sparesMove_drawSpares (st n got : Nat) (s : State) : SparesMove f s (drawSpares f st n got s).2 := by
  induction n generalizing got s with
  | zero => exact .refl s
  | succ n ih =>
    have hraw := sparesMove_rawSpare (f := f) s
    rw [drawSpares]
    split
    next k u hu =>
      rw [hu] at hraw
      exact ((ih _ _).after (sparesMove_updBlk k (fun b => { b with state := st }) u)).after hraw
    next u hu =>
      rw [hu] at hraw
      exact hraw
theorem sparesMove_dieStock (idle seeds wait : Nat) (s : State) : SparesMove f s (dieStock f idle seeds wait s) :=
  ((sparesMove_updFrond (fun g => { g with sbMissing := _, sbUsed := _, sbErasing := _ }) _).after (sparesMove_drawSpares 0 idle 0 _)).after
    (sparesMove_drawSpares 0 64 0 s)


/-! ### A die fails. -/
theorem Calm.dropMetas (hs : Calm f s) (die : Nat) : dropMetas die s = s := by
  have hrestore : restorePages (· == die) s = s := by
    have heq : { s.metas with places := s.metas.places.map fun p => (p.1, p.2.filter fun x => !(x.1 / 4 == die)) } = s.metas := by
      rw [hs.places, List.map_nil, ← hs.places]
    unfold restorePages
    dsimp only
    rw [hs.places, List.filter_nil, List.foldl_nil, updMetas, heq]
  unfold Machine.dropMetas
  refine (congrArg (fun u : State => restorePages (· == die) ((u.progs.filter fun p => p.2.die == die && p.2.works != []).foldl
    (fun s p => uncarry p.1 s) u)) (updMetas_of_no_work (fun l => l.filter _) rfl hs.still.works)).trans ?_
  rw [hs.still.progs, List.filter_nil, List.foldl_nil, hrestore]

theorem sparesMove_unverify (sel : Nat → Bool) (s : State) : SparesMove f s (unverify f sel s) := fun hs => by
  rw [hs.still.unverify]
  exact sparesMove_updFrond _ _ (fun _ => .inl rfl) hs

/-- Where nothing is on its way, the die-blocks alone change when metadata, programs and copies of a die go. -/
theorem sparesMove_dropped (die : Nat) (keep : Nat × Prog → Bool) (G : Nat × Blk → Nat × Blk) (sel : CopyLoc → Bool)
    (hG : ∀ b, b.2.member = none → (G b).2.member = none) (s : State) :
    SparesMove f s (loseCopies sel { dropMetas die s with
      progs := (dropMetas die s).progs.filter keep, blks := (dropMetas die s).blks.map G }) := by
  intro hs
  have hlose : ∀ u : State, u.cws = [] → loseCopies sel u = u := fun u hu => by simp [loseCopies, hu]
  rw [hs.dropMetas, hlose]
  · rw [hs.still.progs, List.filter_nil, ← hs.still.progs]
    refine sparesMove_blks (s.blks.map G) s (fun free b hb => ?_) hs
    obtain ⟨a, ha, rfl⟩ := List.mem_map.mp hb
    exact hG a (free a ha)
  · exact hs.still.cws

theorem sparesMove_dropDie (die : Nat) (hd : frondOfDie die = f) (s : State) : SparesMove f s (dropDie die s) := by
  subst hd
  refine (sparesMove_dropped die _ _ _ (fun b hb => ?_) _).after (sparesMove_unverify _ s)
  split
  · rfl
  · exact hb

theorem sparesMove_sortQueue (s : State) : SparesMove f s (sortQueue s) := .of_mediaSide rfl
theorem mediaSide_journal (c : CardId) (r : JRec) (s : State) : mediaSide (journal c r s) = mediaSide s := by
  cases c <;> rfl

theorem sparesMove_backingDeficit (s : State) : SparesMove f s (backingDeficit f s) := by
  unfold backingDeficit
  dsimp only
  split
  · exact .refl s
  · refine .of_foldl _ _ _ fun t _ => ?_
    split
    · split
      · refine .of_mediaSide ?_
        refine (mediaSide_tells ((tells_aenBoth _ _ _ _).after ((tells_updCtrl _ _ _).after ((tells_updCtrl _ _ _).after (tells_event _ _ _ _ _ _ _ _))))).trans ?_
        rw [offlineZone, mediaSide_journal]
        rfl
      · exact .refl t
    · split
      · exact .of_mediaSide rfl
      · exact .refl t

theorem rebuildOrder_nil (s : State) : rebuildOrder s [] = [] := rfl
theorem startRebuild_nil (kind ob : Nat) (s : State) : startRebuild kind ob [] s = s := rfl

/-- The die that fails: nothing runs on it any more. -/
def stoppedDie (d : Die) : Die :=
  { d with state := 2, op := none, opQ := [], seg := false, prog := none, head := none, metaHead := none, recalQ := [] }

theorem calm_stopped (die : Nat) (hs : Calm f s) : Calm f (updDie die stoppedDie s) := by
  obtain ⟨⟨h1, h2, h3, h4, h5, h6, h7, h8⟩, places, fronds, dies, idle, free, refresh⟩ := hs
  refine ⟨⟨h1, h2, h3, h4, h5, h6, h7, h8⟩, places, fronds, rising_tupd _ _ _ _ dies, fun k => ?_, free, refresh⟩
  rw [dieAt_updDie _ _ _ _ dies]
  split
  · exact ⟨rfl, rfl⟩
  · exact idle k

/-- The state as die stops, before its frond's refresh ends. -/
def stopped (die row : Nat) (s : State) : State :=
  event 0x10B 2 (srcF (frondOfDie die)) (obj 1 die) row (dieAt s die).grownBad 0 (updDie die stoppedDie s)

theorem stopDie_eq (die row : Nat) (s : State) :
    stopDie die row s = loseReads (fun r => r.die == die) (stopped die row s) ∨
    stopDie die row s = endRefresh (frondOfDie die) (loseReads (fun r => r.die == die) (stopped die row s)) := by
  unfold stopDie
  dsimp only
  split
  · split
    · exact .inr rfl
    · exact .inl rfl
  · exact .inl rfl

theorem sparesMoved_stopDie {die : Nat} (row : Nat) (hd : frondOfDie die = f) (hs : Calm f s) :
    SparesMoved f (updDie die stoppedDie s) (stopDie die row s) := by
  have hevent : SparesMove f (updDie die stoppedDie s) (stopped die row s) := .of_mediaSide (mediaSide_tells (tells_event _ _ _ _ _ _ _ _))
  have hlose := (hevent (calm_stopped die hs)).calm.still.loseReads fun r => r.die == die
  subst hd
  rcases stopDie_eq die row s with h | h <;> rw [h, hlose]
  · exact hevent (calm_stopped die hs)
  · exact ((sparesMove_endRefresh _).after hevent) (calm_stopped die hs)

/-- A die that fails takes spares of its frond; no member is there to be rebuilt. -/
theorem sparesMoved_dieFailed {die : Nat} (row : Nat) (hd : frondOfDie die = f) (hw : (dieAt s die).state < 2) (hs : Calm f s) :
    SparesMoved f (updDie die stoppedDie s) (dieFailed die row s) := by
  have hmine : (s.blks.filter fun b => b.1 / 4096 == die).filterMap (fun b => b.2.member) = [] :=
    List.filterMap_eq_nil_iff.mpr fun b hb => hs.free b (List.mem_of_mem_filter hb)
  unfold dieFailed
  rw [if_neg (by omega)]
  dsimp only
  rw [hmine, rebuildOrder_nil, List.foldl_nil, List.filter_nil, startRebuild_nil, hd]
  refine (SparesMove.after (t := stopDie die row s) ?_ fun _ => sparesMoved_stopDie row hd hs) (calm_stopped die hs)
  refine ((sparesMove_sortQueue _).after (sparesMove_backingDeficit _)).after ((SparesMove.of_mediaSide (mediaSide_tells (tells_aenPage 0xC3 _))).after ?_)
  exact (sparesMove_dieStock _ _ _ _).after ((sparesMove_drawSpares 5 8 0 _).after (sparesMove_dropDie die hd _))

/-! ### The dies of a channel. -/
/-- What the dies of a channel that have failed so far leave. -/
structure DiesFailed (f chan n : Nat) (s t : State) : Prop where
  calm : Calm f t
  failed : ∀ j < n, (dieAt t (chan * 32 + j)).state = 2
  untouched : ∀ d, (∀ j < n, d ≠ chan * 32 + j) → dieAt t d = dieAt s d
  others : ∀ g, g ≠ f → frondAt t g = frondAt s g
  chans : t.chans = s.chans

theorem DiesFailed.step {chan n : Nat} (row : Nat) (h : DiesFailed f chan n s t) (hd : frondOfDie (chan * 32 + n) = f)
    (hw : (dieAt s (chan * 32 + n)).state < 2) : DiesFailed f chan (n + 1) s (dieFailed (chan * 32 + n) row t) := by
  have hsame : dieAt t (chan * 32 + n) = dieAt s (chan * 32 + n) := h.untouched _ fun j hj => by omega
  have moved := sparesMoved_dieFailed row hd (hsame ▸ hw) h.calm
  have hdies : ∀ k, dieAt (dieFailed (chan * 32 + n) row t) k = if k = chan * 32 + n then stoppedDie (dieAt t (chan * 32 + n)) else dieAt t k :=
    fun k => by rw [moved.dies, dieAt_updDie _ _ _ _ h.calm.dies]
  refine ⟨moved.calm, fun j hj => ?_, fun d hne => ?_, fun g hg => (moved.others g hg).trans (h.others g hg), moved.chans.trans h.chans⟩
  · rw [hdies]
    split
    · rfl
    · exact h.failed j (by omega)
  · rw [hdies, if_neg (hne n (by omega))]
    exact h.untouched d fun j hj => hne j (by omega)

theorem diesFailed_foldl {chan : Nat} (row n : Nat) (hs : Calm f s) (hd : ∀ j < n, frondOfDie (chan * 32 + j) = f)
    (hw : ∀ j < n, (dieAt s (chan * 32 + j)).state < 2) :
    DiesFailed f chan n s ((List.range n).foldl (fun s i => dieFailed (chan * 32 + i) row s) s) := by
  induction n with
  | zero => exact ⟨hs, fun j hj => absurd hj (Nat.not_lt_zero j), fun _ _ => rfl, fun _ _ => rfl, rfl⟩
  | succ n ih =>
    rw [List.range_succ, List.foldl_append, List.foldl_cons, List.foldl_nil]
    exact (ih (fun j hj => hd j (by omega)) fun j hj => hw j (by omega)).step row (hd n (by omega)) (hw n (by omega))

end Sys2Proof.Laws
end

