-- ==== Sys2Proof/Proofs/Service.lean ====
section
/-! Cards and PEUs that come and go, the SVC button, and engines whose heartbeat stops (R24, R391, R401, R403, R429, R436, R437, R439, R440). -/
namespace Sys2Proof.Laws
open Sys2Proof Sys2Proof.Machine

variable {s t : State}

/-! ### Fields that telling the hosts leaves. -/
theorem power_tells (h : Tells s t) : t.power = s.power := (congrArg State.power h.eq :)
theorem cardAt_tells (h : Tells s t) (c : CardId) : cardAt t c = cardAt s c := (congrArg (fun x => cardAt x c) h.eq :)
theorem memAt_tells (h : Tells s t) (c : CardId) : memAt t c = memAt s c := (congrArg (fun x => memAt x c) h.eq :)
theorem spAt_tells (h : Tells s t) (c : CardId) : spAt t c = spAt s c := (congrArg (fun x => spAt x c) h.eq :)
theorem engines_tells (h : Tells s t) : t.engines = s.engines := (congrArg State.engines h.eq :)

theorem event_updates (code cls src ob a0 a1 a2 : Nat) (s : State) : ∃ ev, event code cls src ob a0 a1 a2 s = { s with events := ev } := ⟨_, rfl⟩
theorem event_rest (code cls src ob a0 a1 a2 : Nat) (s : State) : { event code cls src ob a0 a1 a2 s with events := s.events } = s := by
  obtain ⟨ev, hev⟩ := event_updates code cls src ob a0 a1 a2 s
  rw [hev]

/-! ### A card is inserted. -/
/-- A table without the keys that keep shuts out. -/
theorem tget_filter_key {α : Type} (d : α) (t : Tbl α) (keep : Nat → Bool) (k : Nat) :
    tget d (t.filter fun e => keep e.1) k = if keep k then tget d t k else d := by
  induction t with
  | nil => simp [tget]
  | cons e t ih =>
    by_cases hek : e.1 = k
    · subst hek
      cases hkeep : keep e.1 <;> simp_all [tget]
    · cases hkeep : keep e.1 <;> simp_all [tget]

theorem other_ne (c : CardId) : other c ≠ c := by cases c <;> decide

/-- The card's fuse is cleared, and its engines are in service. -/
def unfused (c : CardId) (s : State) : State :=
  { updFuse (16 + cardNo c) (fun _ => {}) s with engines := s.engines.filter fun e => e.1 / 64 ≠ cardNo c }
/-- The recorder that the card comes with is taken up where it is the module's. -/
def recorded (c : CardId) (same : Bool) (s : State) : State :=
  updRec c (fun r => if same then r else { clearGen := (recAt s (other c)).clearGen }) s
/-- Memory and Spikelet of the card start fresh. -/
def freshened (c : CardId) (s : State) : State :=
  updMem c (fun m => { freshMem with grainNow := m.grainNow, cacheNow := m.cacheNow }) (updSp c (fun sp => { sp with retired := [], rewritten := [] }) s)

theorem engAt_unfused (c : CardId) (s : State) (e : Nat) : engAt (unfused c s) e = if e / 64 = cardNo c then {} else engAt s e := by
  refine (tget_filter_key {} s.engines (fun k => decide (k / 64 ≠ cardNo c)) e).trans ?_
  by_cases he : e / 64 = cardNo c <;> simp [he, engAt]
theorem fuseAt_unfused (c : CardId) (hs : rising s.power.fuses = true) : fuseAt (unfused c s) (16 + cardNo c) = {} :=
  (tget_tupd_rising {} s.power.fuses (16 + cardNo c) (16 + cardNo c) (fun _ => {}) hs).trans (if_pos rfl)

/-- The inserted card starts. -/
def cardStarted (c : CardId) (id : CardIdent) (s : State) : State :=
  updCard c (fun _ => if !id.partOk || !bit (runningImage s).hwCard id.rev then { insertedCard id with entering := 0, why := .foreign, fuseOn := false }
      else { insertedCard id with entering := if s.time.bus then 1 else 0 })
    (freshened c (recorded c (decide (id.recorderSerial = Config.moduleSerial ∧ id.clearGen = (recAt s (other c)).clearGen)) (unfused c s)))

theorem cardStarted_units (c : CardId) (id : CardIdent) (s : State) :
    cardAt (cardStarted c id s) (other c) = cardAt s (other c) ∧
    memAt (cardStarted c id s) c = { freshMem with grainNow := (memAt s c).grainNow, cacheNow := (memAt s c).cacheNow } ∧
    memAt (cardStarted c id s) (other c) = memAt s (other c) ∧ spAt (cardStarted c id s) c = { spAt s c with retired := [], rewritten := [] } ∧
    spAt (cardStarted c id s) (other c) = spAt s (other c) ∧ (cardStarted c id s).engines = (unfused c s).engines ∧ (cardStarted c id s).power = (unfused c s).power ∧
    recAt (cardStarted c id s) c = (if decide (id.recorderSerial = Config.moduleSerial ∧ id.clearGen = (recAt s (other c)).clearGen) then recAt s c
      else { clearGen := (recAt s (other c)).clearGen }) := by
  cases c <;> simp only [other, cardStarted, freshened, recorded, unfused, updFuse, updRec, updSp, updMem, updCard, cardAt, memAt, spAt, recAt, and_self]

theorem execCardPresentClose_eq (c : CardId) (id : CardIdent) (habsent : (cardAt s c).present = false) :
    execCardPresentClose c id s = .next (event 0x821 0 (srcQ s.time.master) (obj 8 (cardNo c)) (cardNo c) 0 0 (cardStarted c id s)) := by
  rw [execCardPresentClose, if_neg (by simp [habsent])]
  cases c <;> rfl

theorem cardPresentClose_effect (c : CardId) (id : CardIdent) (s : State) (habsent : (cardAt s c).present = false) :
    ∃ t, exec (.cardPresentClose c id) s = .next t ∧
      cardAt t c = (if id.partOk = false ∨ bit (runningImage s).hwCard id.rev = false then { insertedCard id with entering := 0, why := .foreign, fuseOn := false }
        else { insertedCard id with entering := if s.time.bus then 1 else 0 }) ∧ cardAt t (other c) = cardAt s (other c) ∧
      memAt t c = { freshMem with grainNow := (memAt s c).grainNow, cacheNow := (memAt s c).cacheNow } ∧ memAt t (other c) = memAt s (other c) ∧
      spAt t c = { spAt s c with retired := [], rewritten := [] } ∧ spAt t (other c) = spAt s (other c) ∧
      (rising s.engines = true → ∀ e, engAt t e = if e / 64 = cardNo c then {} else engAt s e) ∧ (rising s.power.fuses = true → fuseAt t (16 + cardNo c) = {}) ∧
      recAt t c = (if id.recorderSerial = Config.moduleSerial ∧ id.clearGen = (recAt s (other c)).clearGen then recAt s c else { clearGen := (recAt s (other c)).clearGen }) := by
  have tells := tells_event 0x821 0 (srcQ s.time.master) (obj 8 (cardNo c)) (cardNo c) 0 0 (cardStarted c id s)
  refine ⟨_, execCardPresentClose_eq c id habsent, ?_⟩
  rw [cardAt_tells tells, cardAt_tells tells, memAt_tells tells, memAt_tells tells, spAt_tells tells, spAt_tells tells, tells.recorders]
  obtain ⟨hcard, hmem, hmem', hsp, hsp', hengines, hpower, hrec⟩ := cardStarted_units c id s
  refine ⟨by simp [cardStarted], hcard, hmem, hmem', hsp, hsp', fun _ e => ?_, fun hf => ?_, by simpa only [decide_eq_true_eq] using hrec⟩
  · rw [← engAt_unfused, engAt, engAt, engines_tells tells, hengines]
  · rw [← fuseAt_unfused c hf, fuseAt, fuseAt, power_tells tells, hpower]

theorem svcButtonHold_effect (c : CardId) (s : State) :
      ((cardAt s c).serving = true → mayLeave s c = true →
        ∃ t, exec (.svcButtonHold c) s = .next t ∧ cardAt t c = { cardAt s c with leaving := 1 } ∧ cardAt t (other c) = cardAt s (other c) ∧
          ctrlAt t (portOf c) = { ctrlAt s (portOf c) with stopped := true } ∧ ctrlAt t (portOf (other c)) = ctrlAt s (portOf (other c)) ∧
          { t with pair := s.pair, c0 := s.c0, c1 := s.c1 } = s ∧ { t.pair with ca := s.pair.ca, cb := s.pair.cb } = s.pair) ∧
      ((cardAt s c).serving = false → (cardAt s c).present = true → (cardAt s c).held = true → (cardAt s c).heldAgain = false →
        ∃ t, exec (.svcButtonHold c) s = .next t ∧ cardAt t c = { cardAt s c with why := .none, entering := 1, held := false } ∧ cardAt t (other c) = cardAt s (other c) ∧
          { t with pair := s.pair } = s ∧ { t.pair with ca := s.pair.ca, cb := s.pair.cb } = s.pair) ∧
      ((cardAt s c).serving = true ∧ mayLeave s c = false ∨ (cardAt s c).serving = false ∧ (cardAt s c).present = true ∧ (cardAt s c).held = true ∧ (cardAt s c).heldAgain = true →
        ∃ t, exec (.svcButtonHold c) s = .next t ∧ { t with events := s.events } = s) := by
  have hrefused := event_rest 0x823 1 (srcQ s.time.master) (obj 8 (cardNo c)) (cardNo c) 0 0 s
  rw [show exec (.svcButtonHold c) s = execSvcButtonHold c s from rfl, execSvcButtonHold]
  refine ⟨fun hserve hmay => ?_, fun hserve hpresent hheld hagain => ?_, ?_⟩
  · rw [if_pos hserve, if_pos hmay]
    refine ⟨_, rfl, ?_⟩
    cases c <;> exact ⟨rfl, rfl, rfl, rfl, rfl, rfl⟩
  · rw [if_neg (by simp [hserve]), if_pos ⟨hpresent, hheld⟩, if_neg (by simp [hagain])]
    refine ⟨_, rfl, ?_⟩
    cases c <;> exact ⟨rfl, rfl, rfl, rfl⟩
  · rintro (⟨hserve, hmay⟩ | ⟨hserve, hpresent, hheld, hagain⟩)
    · exact ⟨_, by rw [if_pos hserve, if_neg (by simp [hmay])], hrefused⟩
    · exact ⟨_, by rw [if_neg (by simp [hserve]), if_pos ⟨hpresent, hheld⟩, if_pos hagain], hrefused⟩

/-! ### Engines. -/
/-- An engine stopped for the reason how. -/
def stoppedEngine (how : Nat) (e : Engine) : Engine := { e with failed := true, forGood := e.forGood || how == 0, winnow := none }

theorem engineOut_engines (c : CardId) (i how : Nat) (s : State) :
    (engineOut c i how s).engines = tupd {} s.engines (cardNo c * 64 + i) (stoppedEngine how) := by
  simp only [engineOut, updCard_others]
  rfl
theorem cardAt_engineOut (c x : CardId) (i how : Nat) (s : State) :
    cardAt (engineOut c i how s) x = if x = c then { cardAt s x with soakAt := now s } else cardAt s x := by
  simp only [engineOut, cardAt_updCard, cardAt_tells (tells_event _ _ _ _ _ _ _ _)]
  rfl
theorem engineOut_rest (c : CardId) (i how : Nat) (s : State) :
    { engineOut c i how s with engines := s.engines, pair := s.pair, events := s.events } = s := by
  obtain ⟨ev, hev⟩ := event_updates 0x401 2 (srcQ c) (obj 11 (cardNo c * 64 + i)) how
    (enginesFailed (updEng (cardNo c * 64 + i) (stoppedEngine how) s) c (engineRange i).1 (engineRange i).2) 0 (updEng (cardNo c * 64 + i) (stoppedEngine how) s)
  have hout : engineOut c i how s = updCard c (fun x => { x with soakAt := now s }) { updEng (cardNo c * 64 + i) (stoppedEngine how) s with events := ev } :=
    congrArg (updCard c fun x => { x with soakAt := now s }) hev
  rw [hout]
  cases c <;> rfl

theorem quiharWatchdog_effect (c : CardId) (i : Nat) (s : State) (hi : i < 64) (hworks : engineWorks s c i = true)
    (hfew : tooFew (engineOut c i 1 s) c = false) (hreach : ∀ f, leReaches (engineOut c i 1 s) f = true) :
      ∃ t, exec (.engineWatchdog (.quihar c i)) s = .next t ∧ engAt t (cardNo c * 64 + i) = { engAt s (cardNo c * 64 + i) with failed := true, winnow := none } ∧
        (∀ e, e ≠ cardNo c * 64 + i → engAt t e = engAt s e) ∧ cardAt t c = { cardAt s c with soakAt := now s } ∧ cardAt t (other c) = cardAt s (other c) ∧
        { t with engines := s.engines, pair := s.pair, events := s.events } = s := by
  have hlink : linkCheck (engineOut c i 1 s) = engineOut c i 1 s := by
    have hnone : ((List.range 16).filter fun f => let g := frondAt (engineOut c i 1 s) f
        (g.state == 0 || g.state == 5 || g.state == 6) && !leReaches (engineOut c i 1 s) f) = [] := by simp [hreach]
    unfold linkCheck
    rw [hnone, List.foldl_nil, ite_self]
  refine ⟨engineOut c i 1 s, ?_, ?_⟩
  · rw [show exec (.engineWatchdog (.quihar c i)) s = execEngineWatchdog (.quihar c i) s from rfl, execEngineWatchdog, if_neg (by simp [hworks, hi])]
    simp only [hfew, Bool.false_eq_true, if_false, hlink]
  · refine ⟨?_, fun e he => ?_, ?_, ?_, ?_⟩
    · rw [engAt, engineOut_engines, tupd, tput, if_neg (fun h => Bool.noConfusion (congrArg Engine.failed h :)), tget_tins_same, ← engAt]
      simp [stoppedEngine]
    · rw [engAt, engineOut_engines, tupd, tget_tput_ne _ _ _ _ _ he, ← engAt]
    · rw [cardAt_engineOut, if_pos rfl]
    · rw [cardAt_engineOut, if_neg (other_ne c)]
    · exact engineOut_rest c i 1 s

/-- The fronds once a core has failed. -/
theorem frondAt_coreFailed {f : Nat} (hr : rising (frondDepart f 3 s).fronds = true) (g : Nat) :
    frondAt (coreFailed f s) g = if g = f then
      { frondAt (frondDepart f 3 s) f with coreFails := (frondAt s f).coreFails + 1, coreReset := (frondAt s f).coreFails == 0 }
      else frondAt (frondDepart f 3 s) g := by
  unfold coreFailed
  generalize frondDepart f 3 s = u at hr ⊢
  have hfronds := fronds_tells (tells_event 0x401 2 (srcF f) (obj 11 (128 + 9 * f + 8)) 1 ((frondAt s f).coreFails + 1) 0 u)
  have hsame : ∀ x, frondAt (event 0x401 2 (srcF f) (obj 11 (128 + 9 * f + 8)) 1 ((frondAt s f).coreFails + 1) 0 u) x = frondAt u x := fun x => by
    rw [frondAt, hfronds, frondAt]
  dsimp only
  rw [frondAt_updFrond _ _ _ _ (hfronds ▸ hr), hsame, hsame]
theorem mediaMoves_coreFailed {f : Nat} (hs : Still s) : MediaMoves (fun _ => True) True s (coreFailed f s) :=
  (mediaMoves_updFrond trivial _ _).after ((tells_event _ _ _ _ _ _ _ _).mediaMoves.after (mediaMoves_frondDepart hs 3))

theorem coreWatchdog_effect (f : Frond) (s : State) (hcan : s.canonical = true) (hq : s.quiet) (hk : s.keepsHome f) (hin : frondAbsent s f = false) :
      ∃ t, exec (.engineWatchdog (.filnas f 8)) s = .next t ∧ (frondAt t f).state = 3 ∧ (frondAt t f).coreFails = (frondAt s f).coreFails + 1 ∧
        (frondAt t f).coreReset = decide ((frondAt s f).coreFails = 0) ∧ (∀ g, g ≠ f.val → frondAt t g = s.afterQueue g) ∧
        s.onlyTells { t with fronds := s.fronds, rebuild := s.rebuild, dies := s.dies, blks := s.blks } := by
  have hfronds : rising s.fronds = true := by simp only [State.canonical, Bool.and_eq_true] at hcan; simp [hcan]
  have hs := Still.of_quiet hq
  have hcore := frondAt_coreFailed ((mediaMoves_frondDepart (f := f.val) hs 3).rising hfronds)
  obtain ⟨hstate, hothers⟩ := frondAt_frondDepart hs hfronds hq.2.2.2.2.2.2.1 hk (st := 3) (by decide) (by decide)
  refine ⟨coreFailed f.val s, ?_, ?_, ?_, ?_, fun g hg => ?_, (mediaMoves_coreFailed hs).rest⟩
  · rw [show exec (.engineWatchdog (.filnas f 8)) s = execEngineWatchdog (.filnas f 8) s from rfl, execEngineWatchdog, if_neg (by simp [hin]), if_pos rfl]
  · simp only [hcore, if_true, hstate]
  · simp only [hcore, if_true]
  · simp only [hcore, if_true, beq_eq_decide]
  · rw [hcore, if_neg hg]
    exact hothers g hg

theorem sequencerWatchdog_effect (f : Frond) (i : Nat) (s : State) (hcan : s.canonical = true) (hq : s.quiet) (hk : s.keepsHome f)
    (hin : frondAbsent s f = false) (hi : i < 8) (hnot : (chanAt s (f.val * 8 + i)).failed = false) :
      ∃ t, exec (.engineWatchdog (.filnas f i)) s = .next t ∧ (chanAt t (f.val * 8 + i)).failed = true ∧
        (∀ j, j < 32 → (dieAt t ((f.val * 8 + i) * 32 + j)).state = 2) ∧ (∀ d, d / 32 ≠ f.val * 8 + i → dieAt t d = dieAt s d) ∧
        (∀ g, g ≠ f.val → frondAt t g = frondAt s g) := by
  have hrise : rising s.fronds = true ∧ rising s.chans = true := by simp only [State.canonical, Bool.and_eq_true] at hcan; simp [hcan]
  obtain ⟨hfronds, hchans⟩ := hrise
  have hs := Still.of_quiet hq
  obtain ⟨-, -, -, -, -, -, hdies, hblks, -, -, hplaces⟩ := hq
  have hcalm : Calm f.val s := by
    refine ⟨hs, hplaces, hfronds, by rw [hdies]; rfl, fun k => by rw [dieAt, hdies]; exact ⟨rfl, rfl⟩, by simp [hblks], hk.2⟩
  have hworks : ∀ d, (dieAt s d).state < 2 := fun d => by rw [dieAt, hdies]; exact Nat.zero_lt_two
  have hstart := (hcalm.of_mediaSide (mediaSide_tells (tells_event 0x401 2 (srcF f.val) (obj 11 (128 + 9 * f.val + i)) 1 1 0 s))).updChan (f.val * 8 + i)
    fun c => { c with failed := true }
  have hfold := diesFailed_foldl (chan := f.val * 8 + i) 2 32 hstart (fun j hj => by rw [frondOfDie]; omega) fun j _ => hworks _
  refine ⟨channelFailed (f.val * 8 + i) (event 0x401 2 (srcF f.val) (obj 11 (128 + 9 * f.val + i)) 1 1 0 s), ?_, ?_, hfold.failed, fun d hd => ?_, hfold.others⟩
  · rw [show exec (.engineWatchdog (.filnas f i)) s = execEngineWatchdog (.filnas f i) s from rfl, execEngineWatchdog]
    simp [hin, hi, hnot, show i ≠ 8 by omega]
  · have hlisted : (chanAt (updChan (f.val * 8 + i) (fun c => { c with failed := true }) s) (f.val * 8 + i)).failed = true :=
      (congrArg Chan.failed ((tget_tupd_rising {} s.chans (f.val * 8 + i) (f.val * 8 + i) (fun c => { c with failed := true }) hchans).trans (if_pos rfl)))
    exact (congrArg (fun l => (tget ({} : Chan) l (f.val * 8 + i)).failed) hfold.chans :).trans hlisted
  · exact hfold.untouched d fun j hj => by omega

/-! ### PEUs. -/
/-- From s to t power alone differs, beside what telling touches. -/
def PowerMoves (s t : State) : Prop := s.onlyTells { t with power := s.power }

theorem PowerMoves.refl (s : State) : PowerMoves s s := rfl
theorem PowerMoves.after {u : State} (k : PowerMoves t u) (h : PowerMoves s t) : PowerMoves s u :=
  Eq.trans (congrArg (fun x : State => { x with events := s.events, c0 := s.c0, c1 := s.c1, cqes := s.cqes, tx := s.tx, power := s.power }) k) h
theorem Tells.powerMoves (h : Tells s t) : PowerMoves s t := (congrArg (fun x : State => { x with power := s.power }) h.eq :)
theorem powerMoves_updPeu (p : PeuId) (g : Peu → Peu) (s : State) : PowerMoves s (updPeu p g s) := by cases p <;> rfl
theorem powerMoves_updPower (g : Power → Power) (s : State) : PowerMoves s (updPower g s) := rfl

theorem otherPeu_ne (p : PeuId) : otherPeu p ≠ p := by cases p <;> decide
theorem peuAt_of_power (h : t.power = s.power) (p : PeuId) : peuAt t p = peuAt s p := by cases p <;> simp only [peuAt, h]

theorem tells_pageIf (P : Prop) [Decidable P] (page : Nat) (s : State) : Tells s (if P then aenPage page s else s) := by
  split
  · exact tells_aenPage page s
  · exact .refl s
theorem tells_left2 (old new : Nat) (s : State) : Tells s (left2 old new s) := tells_pageIf _ 0xC8 s

/-- The capacity is computed again. -/
def recomputed (s : State) : State :=
  updPower (fun p => { p with
    capacity := capacity s, staleSince := if someCurrent s then none else match p.staleSince with | some f => some f | none => some (now s) }) s
theorem tells_capacityStep (c0 : Nat) (s : State) : Tells (recomputed s) (capacityStep c0 s) := tells_pageIf _ 0xC8 (recomputed s)
theorem capacity_of_tells (h : Tells s t) : capacity t = capacity s := (congrArg capacity h.eq :)
theorem capacity_recomputed (s : State) : capacity (recomputed s) = capacity s := by
  have heq : capacity (recomputed s) =
      if statusCurrent s s.power.peuA || statusCurrent s s.power.peuB then peuTerm s s.power.peuA + peuTerm s s.power.peuB else capacity s := rfl
  rw [heq]
  split
  · rw [capacity, if_pos ‹_›]
  · rfl

theorem peuAt_recomputed (s : State) (p : PeuId) : peuAt (recomputed s) p = peuAt s p := by cases p <;> rfl
theorem foldl_ends (l : List BarrierTx) (h : ∀ x ∈ l, x.cmd = none) (s : State) :
    l.foldl (fun s t => peuCtlEnd t.cmd (actionOf t.type) internalError s) s = s := by
  induction l with
  | nil => rfl
  | cons x l ih => rw [List.foldl_cons, h x List.mem_cons_self]; exact ih fun y hy => h y (List.mem_cons_of_mem x hy)

theorem busCheck_of_delivers (p : PeuId) (h : delivers (peuAt s p) = true) : busCheck s = s := by
  unfold busCheck
  cases p <;> rw [if_pos (by simp_all [peuAt])]

/-- A PEU that is pulled. -/
def pulledPeu (x : Peu) : Peu :=
  { present := false, st := 0, outOn := false, feed := x.feed, iSaved := x.iSaved, status := {}, atA := none, atB := none, calRead := 0 }

theorem execPeuPresentOpen_eq {p : PeuId} (hpresent : (peuAt s p).present = true) (hfree : ∀ x ∈ (peuAt s p).out, x.cmd = none) :
    execPeuPresentOpen p s = .next (busCheck (capacityStep (capacity s)
      (left2 (peuAt s p).status.state 0 (event 0x830 0 (srcQ s.time.master) (obj 9 (peuNo p)) (peuNo p) 0 0 (updPeu p pulledPeu s))))) := by
  have hmaster : (updPeu p pulledPeu s).time = s.time := by simp only [updPeu_others]
  rw [execPeuPresentOpen, if_neg (by simp [hpresent])]
  dsimp only
  rw [foldl_ends _ hfree, ← hmaster]
  rfl

theorem peuPresentOpen_effect (p : PeuId) (s : State) (hpresent : (peuAt s p).present = true) (hfree : ∀ x ∈ (peuAt s p).out, x.cmd = none)
    (hother : delivers (peuAt s (otherPeu p)) = true) :
      ∃ t, exec (.peuPresentOpen p) s = .next t ∧
        peuAt t p = { present := false, st := 0, outOn := false, feed := (peuAt s p).feed, iSaved := (peuAt s p).iSaved, status := {}, atA := none, atB := none, calRead := 0 } ∧
        peuAt t (otherPeu p) = peuAt s (otherPeu p) ∧ t.power.capacity = capacity t ∧ s.onlyTells { t with power := s.power } := by
  have htells := (tells_left2 (peuAt s p).status.state 0 _).after (tells_event 0x830 0 (srcQ s.time.master) (obj 9 (peuNo p)) (peuNo p) 0 0 (updPeu p pulledPeu s))
  have hexec := execPeuPresentOpen_eq hpresent hfree
  generalize left2 (peuAt s p).status.state 0 (event 0x830 0 (srcQ s.time.master) (obj 9 (peuNo p)) (peuNo p) 0 0 (updPeu p pulledPeu s)) = u at hexec htells
  have hpower : ∀ q, peuAt (capacityStep (capacity s) u) q = peuAt (updPeu p pulledPeu s) q := fun q =>
    (peuAt_of_power (power_tells (tells_capacityStep (capacity s) u)) q).trans ((peuAt_recomputed u q).trans (peuAt_of_power (power_tells htells) q))
  have hkeep : peuAt (capacityStep (capacity s) u) (otherPeu p) = peuAt s (otherPeu p) := by
    rw [hpower, peuAt_updPeu, if_neg (otherPeu_ne p)]
  rw [busCheck_of_delivers (otherPeu p) (by rw [hkeep, hother])] at hexec
  refine ⟨_, hexec, ?_, hkeep, ?_, ?_⟩
  · rw [hpower, peuAt_updPeu, if_pos rfl]
    rfl
  · rw [capacity_of_tells (tells_capacityStep (capacity s) u), capacity_recomputed, power_tells (tells_capacityStep (capacity s) u)]
    rfl
  · exact (tells_capacityStep (capacity s) u).powerMoves.after ((powerMoves_updPower _ u).after (htells.powerMoves.after (powerMoves_updPeu p pulledPeu s)))

/-! A PEU that is inserted. -/
/-- What the commander's messages leave of a PEU. -/
def plate (x : Peu) := (x.present, x.rev, x.keltan, x.st, x.outOn, x.code, x.cal, x.iLimit, x.margin, x.feed, x.iSaved, x.calRead)

/-- From s to t power alone moves, and of both PEUs what the commander's messages leave stays. -/
structure Commands (s t : State) : Prop where
  power : PowerMoves s t
  plates : ∀ p, plate (peuAt t p) = plate (peuAt s p)

theorem Commands.refl (s : State) : Commands s s := ⟨.refl s, fun _ => rfl⟩
theorem Commands.after {u : State} (k : Commands t u) (h : Commands s t) : Commands s u :=
  ⟨k.power.after h.power, fun p => (k.plates p).trans (h.plates p)⟩
theorem Tells.commands (h : Tells s t) : Commands s t := ⟨h.powerMoves, fun p => by rw [peuAt_of_power (power_tells h)]⟩
theorem commands_updPeu (p : PeuId) (g : Peu → Peu) (s : State) (h : ∀ x, plate (g x) = plate x := by exact fun _ => rfl) : Commands s (updPeu p g s) :=
  ⟨powerMoves_updPeu p g s, fun q => by rw [peuAt_updPeu]; split <;> simp only [h]⟩
theorem commands_sendPeu (p : PeuId) (c : CardId) (type : Nat) (payload : List Nat) (s : State) : Commands s (sendPeu p c type payload s).2 :=
  (tells_send _ _).commands.after (commands_updPeu p (bumpTo c) s fun x => by cases c <;> rfl)
theorem commands_command (p : PeuId) (type : Nat) (payload : List Nat) (cmd : Option (Port × Nat × Nat)) (s : State) :
    Commands s (command p type payload cmd s) :=
  (commands_updPeu p (fun x => { x with out := x.out ++ [_] }) _).after (commands_sendPeu p s.time.master type payload s)
theorem commands_sendBlocks (n : Nat) (p : PeuId) (s : State) : Commands s (sendBlocks n p s) := by
  induction n generalizing s with
  | zero => exact .refl s
  | succ n ih =>
    rw [sendBlocks]
    split
    · exact .refl s
    · split
      · exact (ih _).after ((commands_command _ _ _ _ _).after (commands_updPeu p _ s))
      · split
        · exact commands_command _ _ _ _ s
        · exact .refl s
theorem commands_peuUpdate (p : PeuId) (s : State) : Commands s (peuUpdate p s) := by
  unfold peuUpdate
  dsimp only
  split
  · exact (commands_sendBlocks _ _ _).after (commands_updPeu p _ s)
  · exact .refl s
theorem commands_peuCheck (s : State) : Commands s (peuCheck s) := by
  have hdue : ∀ (P : Peu → Bool) (x : Peu), plate (if P x then { x with upd := 1 } else x) = plate x := fun P x => by split <;> rfl
  exact (commands_peuUpdate .b _).after ((commands_peuUpdate .a _).after ((commands_updPeu .a _ _ (hdue _)).after (commands_updPeu .b _ s (hdue _))))
theorem commands_greetPeu (p : PeuId) (s : State) (hp : (peuAt s p).present = true) (hk : (peuAt s p).keltan = true) :
    Commands (updPeu p (fun x => { x with calRead := 0 }) s) (greetPeu p s) := by
  unfold greetPeu
  rw [if_neg (by simp [hp, hk])]
  exact (commands_command _ _ _ _ _).after (commands_command _ _ _ _ _)

/-- A PEU that is inserted, before it is greeted. -/
def insertedPeu (id : PeuIdent) (keltan : Bool) (code : List Byte) (x : Peu) : Peu :=
  { x with present := true, keltan := keltan, rev := some id.rev, st := 0, outOn := keltan, code := code, idle := [], cal := [], faults := 0, iLimit := 100, margin := 0, upd := 0 }

theorem execPeuPresentClose_eq {p : PeuId} {id : PeuIdent} {keltan : Bool} {code : List Byte} (habsent : (peuAt s p).present = false)
    (hkeltan : keltan = (id.keltan && bit (runningImage s).hwPeu id.rev)) :
    execPeuPresentClose p id code s = .next (if keltan then peuCheck (greetPeu p (event 0x830 0 (srcQ s.time.master) (obj 9 (peuNo p)) (peuNo p) 1 0
      (updPeu p (insertedPeu id keltan code) s))) else event 0x830 0 (srcQ s.time.master) (obj 9 (peuNo p)) (peuNo p) 1 0 (updPeu p (insertedPeu id keltan code) s)) := by
  have hmaster : (updPeu p (insertedPeu id keltan code) s).time = s.time := by simp only [updPeu_others]
  rw [execPeuPresentClose, if_neg (by simp [habsent]), ← hkeltan, ← hmaster]
  rfl

theorem peuPresentClose_effect (p : PeuId) (id : PeuIdent) (keltan : Bool) (code : List Byte) (s : State) (habsent : (peuAt s p).present = false)
    (hkeltan : keltan = (id.keltan && bit (runningImage s).hwPeu id.rev)) :
      ∃ t, exec (.peuPresentClose p id code) s = .next t ∧ (peuAt t p).present = true ∧ (peuAt t p).rev = some id.rev ∧ (peuAt t p).keltan = keltan ∧ (peuAt t p).st = 0 ∧ (peuAt t p).outOn = keltan ∧
        (peuAt t p).code = code ∧ (peuAt t p).cal = [] ∧ (peuAt t p).iLimit = 100 ∧ (peuAt t p).margin = 0 ∧ (peuAt t p).feed = (peuAt s p).feed ∧
        (peuAt t p).iSaved = (peuAt s p).iSaved ∧ (keltan = true → (peuAt t p).calRead = 0) ∧ (keltan = false → peuAt t (otherPeu p) = peuAt s (otherPeu p)) ∧
        s.onlyTells { t with power := s.power } := by
  have htells := tells_event 0x830 0 (srcQ s.time.master) (obj 9 (peuNo p)) (peuNo p) 1 0 (updPeu p (insertedPeu id keltan code) s)
  have hexec := execPeuPresentClose_eq (code := code) habsent hkeltan
  generalize event 0x830 0 (srcQ s.time.master) (obj 9 (peuNo p)) (peuNo p) 1 0 (updPeu p (insertedPeu id keltan code) s) = u at hexec htells
  have hpeu : ∀ q, peuAt u q = if q = p then insertedPeu id keltan code (peuAt s q) else peuAt s q := fun q => by
    rw [peuAt_of_power (power_tells htells), peuAt_updPeu]
  have hpower : PowerMoves s u := htells.powerMoves.after (powerMoves_updPeu p _ s)
  have hnew : peuAt u p = insertedPeu id keltan code (peuAt s p) := (hpeu p).trans (if_pos rfl)
  cases keltan with
  | false =>
    rw [if_neg Bool.false_ne_true] at hexec
    refine ⟨u, hexec, ?_⟩
    rw [hnew, hpeu, if_neg (otherPeu_ne p)]
    exact ⟨rfl, rfl, rfl, rfl, rfl, rfl, rfl, rfl, rfl, rfl, rfl, nofun, fun _ => rfl, hpower⟩
  | true =>
    rw [if_pos rfl] at hexec
    have hgreet := commands_greetPeu p u (by rw [hnew]; rfl) (by rw [hnew]; rfl)
    have hall := (commands_peuCheck _).after hgreet
    have hplate := hall.plates p
    rw [peuAt_updPeu, if_pos rfl, hnew] at hplate
    simp only [plate, insertedPeu, Prod.mk.injEq] at hplate
    obtain ⟨h1, h2, h3, h4, h5, h6, h7, h8, h9, h10, h11, h12⟩ := hplate
    exact ⟨_, hexec, h1, h2, h3, h4, h5, h6, h7, h8, h9, h10, h11, fun _ => h12, nofun, hall.power.after ((powerMoves_updPeu p _ u).after hpower)⟩

/-- Settles O45, clause by clause: insertion of a card, the SVC button, removal and insertion of a PEU, and the three kinds of engine. -/
theorem cardsPeusAndEnginesAreServiced : Obligations.CardsPeusAndEnginesAreServiced :=
  ⟨cardPresentClose_effect, svcButtonHold_effect, peuPresentOpen_effect, peuPresentClose_effect, quiharWatchdog_effect, coreWatchdog_effect,
    sequencerWatchdog_effect⟩

end Sys2Proof.Laws
end

