-- ==== Sys2Proof/Proofs/ModuleView.lean ====
section
/-! SUPPORT. What a card that leaves and the takeover by its partner change of the module (R292, R293), as a view of the state, and the steps
that leave the view while nothing is on its way. -/
namespace Sys2Proof.Laws
open Sys2Proof Sys2Proof.Machine

variable {s t u : State}

/-! ### The view. -/
/-- A card in the pair. -/
structure CardView where
  serving : Bool
  why : HeldWhy
  held : Bool
  hb : Nat
  ownEpoch : Nat
  activating : Nat
  unacked : List MirrorRec
  present : Bool
  fuseOn : Bool
/-- Cards, ports and ownership of the module, and what no loss of a card touches. -/
structure ModuleView where
  cards : CardId → CardView
  ports : Port → Bool × Bool
  bulks : CardId → Bool
  culms : CulmPort → Nat
  own1 : CardId
  own2 : CardId
  transfers : List Transfer
  takeover : Option (CardId × Nat)
  master : CardId
  fc : Nat
  map : Tbl (Option (Nat × Nat))
  feat : Features
  rules : Tbl Rule
  misses : List Miss

def cardView (x : Card) : CardView :=
  ⟨x.serving, x.why, x.held, x.hb, x.ownEpoch, x.activating, x.unacked, x.present, x.fuseOn⟩
def moduleView (s : State) : ModuleView where
  cards := fun c => cardView (cardAt s c)
  ports := fun p => ((ctrlAt s p).link, (ctrlAt s p).rdy)
  bulks := fun c => (bulkAt s c).linkUp
  culms := fun p => (culmAt s p).link
  own1 := s.pair.own1
  own2 := s.pair.own2
  transfers := s.pair.transfers
  takeover := s.pair.takeover
  master := s.time.master
  fc := s.time.fc
  map := s.map
  feat := s.feat
  rules := s.rules
  misses := s.misses

/-- Nothing is on its way, no namespace is being deleted, and no slice is waited for. -/
structure Idle (s : State) : Prop where
  still : Still s
  nss : ∀ n ∈ s.nss, n.2.deleting = none
  slices : ∀ x ∈ s.slices, x.2.waiter = none

/-- From s, where it is idle, to t the view changes by f, and messages are added. -/
structure Stepped (f : ModuleView → ModuleView) (s t : State) : Prop where
  idle : Idle t
  view : moduleView t = f (moduleView s)
  tx : s.tx ⊆ t.tx
def Steps (f : ModuleView → ModuleView) (s t : State) : Prop := Idle s → Stepped f s t

theorem Steps.after {f g : ModuleView → ModuleView} (k : Steps g t u) (h : Steps f s t) : Steps (fun v => g (f v)) s u := fun hs =>
  have ht := h hs
  have hu := k ht.idle
  ⟨hu.idle, hu.view.trans (congrArg g ht.view), fun _ hm => hu.tx (ht.tx hm)⟩
/-- From s, where it is idle, to t the view stays. -/
def Keeps (s t : State) : Prop := Steps id s t
theorem Keeps.refl (s : State) : Keeps s s := fun hs => ⟨hs, rfl, fun _ h => h⟩
theorem Keeps.after (k : Keeps t u) (h : Keeps s t) : Keeps s u := Steps.after k h
theorem Keeps.steps {f : ModuleView → ModuleView} (k : Keeps t u) (h : Steps f s t) : Steps f s u :=
  Steps.after (f := f) (g := id) k h
theorem Steps.keeps {f : ModuleView → ModuleView} (k : Steps f t u) (h : Keeps s t) : Steps f s u := Steps.after (f := id) k h
theorem Keeps.of_foldl {α : Type} (op : State → α → State) (l : List α) (s : State) (h : ∀ t, ∀ a ∈ l, Keeps t (op t a)) : Keeps s (l.foldl op s) := by
  induction l generalizing s with
  | nil => exact .refl s
  | cons a l ih => exact (ih _ fun t b hb => h t b (List.mem_cons_of_mem a hb)).after (h s a List.mem_cons_self)
theorem Keeps.of_idle (h : Idle s → t = s) : Keeps s t := fun hs => by rw [h hs]; exact Keeps.refl s hs

/-- What decides whether a state is idle. -/
def underWay (s : State) :=
  (s.reqs, s.progs, s.cws, s.chunks, s.cmds, s.pieces, s.stripes, s.metas.work, s.nss, s.slices)
theorem Idle.of_underWay (hs : Idle s) (h : underWay t = underWay s) : Idle t := by
  simp only [underWay, Prod.mk.injEq] at h
  obtain ⟨hreqs, hprogs, hcws, hchunks, hcmds, hpieces, hstripes, hworks, hnss, hslices⟩ := h
  obtain ⟨⟨h1, h2, h3, h4, h5, h6, h7, h8⟩, nss, slices⟩ := hs
  exact ⟨⟨hreqs.trans h1, hprogs.trans h2, hcws.trans h3, hchunks.trans h4, hcmds.trans h5, hpieces.trans h6, hstripes.trans h7, hworks.trans h8⟩,
    hnss ▸ nss, hslices ▸ slices⟩
theorem Steps.of_underWay {f : ModuleView → ModuleView} (hw : underWay t = underWay s) (hv : moduleView t = f (moduleView s))
    (htx : s.tx ⊆ t.tx := by exact fun _ h => h) : Steps f s t :=
  fun hs => ⟨hs.of_underWay hw, hv, htx⟩

/-! ### Steps that keep the view. -/
theorem MediaMoves.keeps (h : Idle s → MediaMoves (fun _ => True) True s t) : Keeps s t := fun hs => by
  have hm := h hs
  have hrest := hm.rest
  refine ⟨⟨hs.still.of_moves hm, ?_, ?_⟩, ?_, hm.tx⟩
  · exact (congrArg State.nss hrest :) ▸ hs.nss
  · exact (congrArg State.slices hrest :) ▸ hs.slices
  · have hports : ∀ p, ((ctrlAt t p).link, (ctrlAt t p).rdy) = ((ctrlAt s p).link, (ctrlAt s p).rdy) := fun p => Prod.ext (hm.ports p).1 (hm.ports p).2
    have hview := congrArg (fun x => { moduleView x with ports := fun p => ((ctrlAt s p).link, (ctrlAt s p).rdy) }) hrest
    refine Eq.trans ?_ hview
    simp only [moduleView, hports]
    rfl
theorem Tells.keeps (h : Tells s t) : Keeps s t := MediaMoves.keeps fun _ => h.mediaMoves

/-- The view with one card changed; with one port changed. -/
def ModuleView.onCard (c : CardId) (g : CardView → CardView) (v : ModuleView) : ModuleView :=
  { v with cards := fun x => if x = c then g (v.cards x) else v.cards x }
def ModuleView.onPort (p : Port) (g : Bool × Bool → Bool × Bool) (v : ModuleView) : ModuleView :=
  { v with ports := fun x => if x = p then g (v.ports x) else v.ports x }

theorem steps_updCard {c : CardId} {g : Card → Card} {G : CardView → CardView} (h : ∀ x, cardView (g x) = G (cardView x)) (s : State) :
    Steps (ModuleView.onCard c G) s (updCard c g s) := by
  refine .of_underWay (by cases c <;> rfl) ?_ (by simp)
  have hcards : ∀ x, cardView (cardAt (updCard c g s) x) = if x = c then G (cardView (cardAt s x)) else cardView (cardAt s x) := fun x => by
    rw [cardAt_updCard]
    split
    · rw [h]
    · rfl
  have hrest : moduleView (updCard c g s) = { moduleView s with cards := fun x => cardView (cardAt (updCard c g s) x) } := by cases c <;> rfl
  rw [hrest]
  simp only [hcards]
  rfl
theorem keeps_updCard (c : CardId) (g : Card → Card) (s : State) (h : ∀ x, cardView (g x) = cardView x := by exact fun _ => rfl) :
    Keeps s (updCard c g s) := fun hs => by
  obtain ⟨hi, hv, ht⟩ := steps_updCard (c := c) (G := id) h s hs
  exact ⟨hi, hv.trans (by simp only [ModuleView.onCard, id, ite_self]), ht⟩
theorem steps_updCtrl {p : Port} {g : Ctrl → Ctrl} {G : Bool × Bool → Bool × Bool} (h : ∀ x, ((g x).link, (g x).rdy) = G (x.link, x.rdy)) (s : State) :
    Steps (ModuleView.onPort p G) s (updCtrl p g s) := by
  refine .of_underWay (by cases p <;> rfl) ?_ (by simp)
  have hports : ∀ x, ((ctrlAt (updCtrl p g s) x).link, (ctrlAt (updCtrl p g s) x).rdy) =
      if x = p then G ((ctrlAt s x).link, (ctrlAt s x).rdy) else ((ctrlAt s x).link, (ctrlAt s x).rdy) := fun x => by
    rw [ctrlAt_updCtrl]
    split
    · rw [h]
    · rfl
  have hrest : moduleView (updCtrl p g s) = { moduleView s with
      ports := fun x => ((ctrlAt (updCtrl p g s) x).link, (ctrlAt (updCtrl p g s) x).rdy) } := by cases p <;> rfl
  rw [hrest]
  simp only [hports]
  rfl
theorem keeps_updCtrl (p : Port) (g : Ctrl → Ctrl) (s : State)
    (h : ∀ x, ((g x).link, (g x).rdy) = (x.link, x.rdy) := by exact fun _ => rfl) : Keeps s (updCtrl p g s) := fun hs => by
  obtain ⟨hi, hv, ht⟩ := steps_updCtrl (p := p) (G := id) h s hs
  exact ⟨hi, hv.trans (by simp only [ModuleView.onPort, id, ite_self]), ht⟩
theorem keeps_updJ (c : CardId) (g : Journal → Journal) (s : State) : Keeps s (updJ c g s) := by
  cases c <;> exact .of_underWay rfl rfl
theorem keeps_updMem (c : CardId) (g : CardMem → CardMem) (s : State) : Keeps s (updMem c g s) := by
  cases c <;> exact .of_underWay rfl rfl
theorem keeps_updSe (c : CardId) (g : List SeWork → List SeWork) (s : State) : Keeps s (updSe c g s) := by
  cases c <;> exact .of_underWay rfl rfl
theorem keeps_updZone (k : Nat) (g : Zone → Zone) (s : State) : Keeps s (updZone k g s) := .of_underWay rfl rfl
theorem keeps_updPower (g : Power → Power) (s : State) : Keeps s (updPower g s) := .of_underWay rfl rfl
theorem keeps_updSec (g : Security → Security) (s : State) : Keeps s (updSec g s) := .of_underWay rfl rfl
theorem keeps_updEvents (g : Events → Events) (s : State) : Keeps s (updEvents g s) := .of_underWay rfl rfl

/-! ### Journals and zones. -/
theorem keeps_journal (c : CardId) (r : JRec) (s : State) : Keeps s (journal c r s) := keeps_updJ c _ s
theorem keeps_closeZones (sel : Nat → Bool) (cmd : Option Nat) (s : State) : Keeps s (closeZones sel cmd s) :=
  .of_foldl _ _ _ fun t _ _ => (keeps_journal _ _ _).after (keeps_updZone _ _ t)
theorem keeps_restoreZones (l : List JRec) (s : State) :
    Keeps s (l.foldl (fun s r => match r.undo with | some (zk, old) => updZone zk (fun _ => old) s | none => s) s) :=
  .of_foldl _ _ _ fun u r _ => by
    split
    · exact keeps_updZone _ _ u
    · exact .refl u
theorem foldl_works (p : Nat × MetaWork → Bool) (op : State → Nat × MetaWork → State) (h : s.metas.work = []) :
    (s.metas.work.filter p).reverse.foldl op s = s := by
  rw [h]
  rfl
theorem keeps_undoResets (sel : JRec → Bool) (s : State) : Keeps s (undoResets sel s) := fun hs => by
  unfold undoResets
  dsimp only
  rw [foldl_works]
  · exact (((keeps_restoreZones _ _).after (keeps_updJ _ _ _)).after ((keeps_restoreZones _ _).after (keeps_updJ _ _ s))) hs
  · exact ((((keeps_restoreZones _ _).after (keeps_updJ _ _ _)).after ((keeps_restoreZones _ _).after (keeps_updJ _ _ s))) hs).idle.still.works
theorem keeps_metaWork (g : Metas → Metas) (s : State) (h : s.metas.work = [] → (g s.metas).work = []) : Keeps s (updMetas g s) := by
  rintro ⟨⟨h1, h2, h3, h4, h5, h6, h7, h8⟩, nss, slices⟩
  exact ⟨⟨⟨h1, h2, h3, h4, h5, h6, h7, h h8⟩, nss, slices⟩, rfl, fun _ h => h⟩
theorem keeps_passJournal (c : CardId) (s : State) : Keeps s (passJournal c s) := by
  unfold passJournal
  dsimp only
  refine (keeps_updJ _ _ _).after ((keeps_updJ _ _ _).after (keeps_metaWork _ s fun hs => ?_))
  rw [hs]
  rfl

/-! ### Commands that wait. -/
theorem foldl_fixed_of_mem {α β : Type} {op : β → α → β} {l : List α} {b : β} (h : ∀ a ∈ l, op b a = b) : l.foldl op b = b := by
  induction l with
  | nil => rfl
  | cons a l ih => rw [List.foldl_cons, h a List.mem_cons_self]; exact ih fun x hx => h x (List.mem_cons_of_mem a hx)
theorem wake_eq (hs : Idle s) : wake s = s := by
  unfold wake
  simp only [hs.still.cmds, List.filter_nil, List.foldl_nil]
  rw [foldl_fixed_of_mem (l := s.nss), foldl_fixed_of_mem (l := s.slices)]
  · intro x hx
    simp only [hs.slices x hx]
  · intro n hn
    simp only [hs.nss n hn]
theorem keeps_wake (s : State) : Keeps s (wake s) := .of_idle wake_eq
theorem keeps_eachCmd (q : Nat × Cmd → Bool) (op : State → Nat × Cmd → State) (s : State) : Keeps s ((s.cmds.filter q).foldl op s) :=
  .of_idle fun hs => by rw [hs.still.cmds, List.filter_nil, List.foldl_nil]
theorem keeps_dropPort (p : Port) (s : State) : Keeps s (dropPort p s) :=
  (keeps_wake _).after ((keeps_eachCmd _ _ _).after (keeps_undoResets _ s))
theorem ackAll_eq {c : CardId} {s : State} (h : (cardAt s c).unacked = []) : ackAll c s = s := by
  rw [ackAll, h]
  rfl

/-! ### A port's controller. -/
theorem keeps_slices (l : Tbl Slice) (s : State) (h : (∀ x ∈ s.slices, x.2.waiter = none) → ∀ x ∈ l, x.2.waiter = none) : Keeps s { s with slices := l } := by
  rintro ⟨⟨h1, h2, h3, h4, h5, h6, h7, h8⟩, nss, slices⟩
  exact ⟨⟨⟨h1, h2, h3, h4, h5, h6, h7, h8⟩, nss, h slices⟩, rfl, fun _ h => h⟩
theorem keeps_nss (l : Tbl Ns) (s : State) (h : (∀ n ∈ s.nss, n.2.deleting = none) → ∀ n ∈ l, n.2.deleting = none) : Keeps s { s with nss := l } := by
  rintro ⟨⟨h1, h2, h3, h4, h5, h6, h7, h8⟩, nss, slices⟩
  exact ⟨⟨⟨h1, h2, h3, h4, h5, h6, h7, h8⟩, h nss, slices⟩, rfl, fun _ h => h⟩
theorem keeps_portLost (p : Port) (s : State) : Keeps s (portLost p s) := by
  refine keeps_slices _ s fun hw x hx => ?_
  obtain ⟨y, hy, rfl⟩ := List.mem_map.mp hx
  have := hw y hy
  split
  · exact this
  · split <;> exact this

theorem keeps_updSheaf (g : Sheaf → Sheaf) (s : State) (h : ∀ x, (g x).u0 = x.u0 ∧ (g x).u1 = x.u1 := by exact fun _ => ⟨rfl, rfl⟩) :
    Keeps s (updSheaf g s) := by
  have hculm : ∀ p, culmAt (updSheaf g s) p = culmAt s p := fun p => by
    cases p
    · exact (h s.sheaf).1
    · exact (h s.sheaf).2
  refine .of_underWay rfl ?_
  have hrest : moduleView (updSheaf g s) = { moduleView s with culms := fun p => (culmAt (updSheaf g s) p).link } := rfl
  rw [hrest]
  simp only [hculm]
  rfl
theorem keeps_owed (nss : Tbl Ns) (slices : Tbl Slice) (fronds : Tbl FrondSt) (held : List Sqe) (jobs : List Job) (s : State)
    (hnss : (∀ n ∈ s.nss, n.2.deleting = none) → ∀ n ∈ nss, n.2.deleting = none)
    (hslices : (∀ x ∈ s.slices, x.2.waiter = none) → ∀ x ∈ slices, x.2.waiter = none) :
    Keeps s { s with nss := nss, slices := slices, fronds := fronds, heldAdmin := held, jobs := jobs } := by
  rintro ⟨⟨h1, h2, h3, h4, h5, h6, h7, h8⟩, hn, hw⟩
  exact ⟨⟨⟨h1, h2, h3, h4, h5, h6, h7, h8⟩, hnss hn, hslices hw⟩, rfl, fun _ h => h⟩
/-- Admin commands that are no longer owed to a port leave idle what is idle. -/
theorem keeps_dropAdmin (p : Port) (s : State) : Keeps s (dropAdmin p s) := by
  have hcards : Keeps s (updCard .ca (muteCard p) (updCard .cb (muteCard p) s)) := (keeps_updCard _ _ _).after (keeps_updCard _ _ s)
  refine Keeps.after (keeps_owed _ _ _ _ _ _ (fun hn n hm => ?_) fun hw x hm => ?_)
    ((keeps_updEvents _ _).after ((keeps_updSec _ _).after ((keeps_updSheaf _ _).after ((keeps_updPower _ _).after hcards))))
  · obtain ⟨y, hy, rfl⟩ := List.mem_map.mp hm
    simp only [hn y hy, Option.map_none]
  · obtain ⟨y, hy, rfl⟩ := List.mem_map.mp hm
    simp only [hw y hy, mute3]

/-- A port whose controller is not ready. -/
def unready (x : Bool × Bool) : Bool × Bool := (x.1, false)
theorem keeps_queues (sqs : Tbl SubQ) (cqs : Tbl ComQ) (s : State) : Keeps s { s with sqs := sqs, cqs := cqs } := .of_underWay rfl rfl
theorem steps_ctrlReset (p : Port) (cc : BitVec 32) (s : State) : Steps (ModuleView.onPort p unready) s (ctrlReset p cc s) := by
  exact (keeps_queues _ _ _).steps ((steps_updCtrl (G := unready) (fun _ => rfl) _).keeps
    ((keeps_closeZones _ none _).after ((keeps_dropAdmin p _).after ((keeps_dropPort p _).after (keeps_portLost p s)))))

/-! ### A card's ports go down. -/
/-- The view with the ports of a card down. -/
def ModuleView.down (c : CardId) (v : ModuleView) : ModuleView :=
  { v with
    ports := fun x => if x = portOf c then (false, false) else v.ports x
    culms := fun x => if x = culmOf c then 6 else v.culms x
    bulks := fun x => if x = c then false else v.bulks x }
theorem Steps.congr {f g : ModuleView → ModuleView} (h : Steps f s t) (hfg : ∀ v, f v = g v) : Steps g s t := fun hs =>
  have ht := h hs
  ⟨ht.idle, ht.view.trans (hfg _), ht.tx⟩
theorem steps_updCulm {p : CulmPort} {g : Culm → Culm} {n : Nat} (h : ∀ x, (g x).link = n) (s : State) :
    Steps (fun v => { v with culms := fun x => if x = p then n else v.culms x }) s (updCulm p g s) := by
  have hculm : ∀ x, (culmAt (updCulm p g s) x).link = if x = p then n else (culmAt s x).link := fun x => by
    rw [culmAt_updCulm]
    split
    · exact h _
    · rfl
  have hrest : moduleView (updCulm p g s) = { moduleView s with culms := fun x => (culmAt (updCulm p g s) x).link } := by cases p <;> rfl
  refine .of_underWay (by cases p <;> rfl) ?_ (by simp)
  rw [hrest]
  simp only [hculm]
  rfl
theorem steps_updBulk {c : CardId} {g : BulkPort → BulkPort} {b : Bool} (h : ∀ x, (g x).linkUp = b) (s : State) :
    Steps (fun v => { v with bulks := fun x => if x = c then b else v.bulks x }) s (updBulk c g s) := by
  have hbulk : ∀ x, (bulkAt (updBulk c g s) x).linkUp = if x = c then b else (bulkAt s x).linkUp := fun x => by
    rw [bulkAt_updBulk]
    split
    · exact h _
    · rfl
  have hrest : moduleView (updBulk c g s) = { moduleView s with bulks := fun x => (bulkAt (updBulk c g s) x).linkUp } := by cases c <;> rfl
  refine .of_underWay (by cases c <;> rfl) ?_ (by simp)
  rw [hrest]
  simp only [hbulk]
  rfl
theorem keeps_qps (qps : Tbl Qp) (s : State) : Keeps s { s with qps := qps } := .of_underWay rfl rfl
theorem steps_portsDown (c : CardId) (s : State) : Steps (ModuleView.down c) s (portsDown c s) := fun hs => by
  have hlinks := (steps_updCulm (p := culmOf c) (g := fun x => { x with link := 6, nbr := none }) (fun _ => rfl) _).after
    ((steps_updCtrl (p := portOf c) (g := fun x => { x with link := false }) (G := fun x => (false, x.2)) (fun _ => rfl) _).after
      (steps_ctrlReset (portOf c) 0 s))
  have hports : ∀ (v : ModuleView) x, (if x = portOf c then (false, (if x = portOf c then unready (v.ports x) else v.ports x).2)
      else if x = portOf c then unready (v.ports x) else v.ports x) = if x = portOf c then (false, false) else v.ports x := fun v x => by
    split <;> rfl
  unfold portsDown
  dsimp only
  rw [(hlinks hs).idle.still.cmds, List.filter_nil, List.foldl_nil]
  refine Steps.congr ((steps_updBulk (c := c) (b := false) (fun _ => rfl) _).after ((keeps_qps _ _).steps hlinks)) (fun v => ?_) hs
  simp only [ModuleView.onPort, ModuleView.down, hports]

end Sys2Proof.Laws
end

