-- ==== Sys2Proof/Proofs/Takeover.lean ====
section
/-! Every way a card leaves service, and the takeover by its serving partner (R24, R269, R284, R285, R291, R292, R293, R301, R421, R439). -/
namespace Sys2Proof.Laws
open Sys2Proof Sys2Proof.Machine

variable {s t u : State}

/-! ### What the takeover sets right and the view does not show. -/
theorem keeps_updFrond (f : Nat) (g : FrondSt → FrondSt) (s : State) : Keeps s (updFrond f g s) :=
  MediaMoves.keeps fun _ => mediaMoves_updFrond trivial g s
theorem keeps_frondDepart (f st : Nat) (s : State) : Keeps s (frondDepart f st s) :=
  MediaMoves.keeps fun hs => mediaMoves_frondDepart hs.still st
theorem keeps_linkCheck (s : State) : Keeps s (linkCheck s) := by
  unfold linkCheck
  split
  · exact .refl s
  · exact .of_foldl _ _ _ fun t f _ => (keeps_updFrond f (fun g => { g with leGone := true }) _).after (keeps_frondDepart f 3 t)
theorem keeps_updChan (k : Nat) (g : Chan → Chan) (s : State) : Keeps s (updChan k g s) := .of_underWay rfl rfl
theorem keeps_requestRegs (l : List RegId) (s : State) : Keeps s (requestRegs l s) :=
  .of_foldl _ _ _ fun t _ _ => (tells_send _ _).keeps.after (keeps_updPower _ t)
theorem keeps_untrain (f : Nat) (s : State) : Keeps s (untrain f s) := .of_foldl _ _ _ fun t _ _ => keeps_updChan _ _ t
theorem keeps_startExit (x : ExitSt) (s : State) : Keeps s (startExit x s) := by
  refine (keeps_requestRegs _ _).after ((keeps_updPower _ _).after ?_)
  split
  · refine .of_foldl _ _ _ fun t f _ => ?_
    split
    · exact keeps_untrain f t
    · exact .refl t
  · exact .refl s
theorem keeps_wakeEvent (target : Option Nat) (s : State) : Keeps s (wakeEvent target s) := by
  unfold wakeEvent
  dsimp only
  split
  · split
    · exact .refl s
    · exact keeps_updPower _ s
  · split
    · exact keeps_startExit _ s
    · exact .refl s
theorem keeps_takeoverWakes (s : State) : Keeps s (takeoverWakes s) := by
  unfold takeoverWakes
  split
  · exact keeps_updPower _ s
  · exact keeps_wakeEvent none s
theorem keeps_anaPort (p : Port) (s : State) : Keeps s (anaPort p s) := by
  unfold anaPort
  dsimp only
  split
  · exact .refl s
  · exact (tells_aenPort p 2 3 0x0C _).keeps.after (keeps_updCtrl p _ s)
theorem keeps_anaUpdate (s : State) : Keeps s (anaUpdate s) := (keeps_anaPort .h1 _).after (keeps_anaPort .h0 s)
theorem keeps_cmdsMeet (c : CardId) (s : State) : Keeps s (cmdsMeet c s) := (keeps_eachCmd _ _ _).after (keeps_eachCmd _ _ s)
theorem keeps_replaceMissing (o : CardId) (s : State) : Keeps s (replaceMissing o [] s) := keeps_updSe o (· ++ []) s
theorem keeps_restartMember (m : Nat) (s : State) : Keeps s (restartMember m s) := .of_idle fun hs => by
  have hnone : memberAt s m = {} := by rw [memberAt, stripeAt, hs.still.stripes]; rfl
  unfold restartMember
  rw [hnone]
theorem keeps_updRebuild (g : Rebuild → Rebuild) (s : State) : Keeps s (updRebuild g s) :=
  MediaMoves.keeps fun _ => mediaMoves_updRebuild trivial g s
theorem keeps_restartRebuild (ms : List Nat) (s : State) : Keeps s (restartRebuild ms s) :=
  (keeps_updRebuild _ _).after (.of_foldl _ _ _ fun t m _ => keeps_restartMember m t)
theorem keeps_updPair (g : PairSt → PairSt) (s : State) (h : moduleView (updPair g s) = moduleView s := by exact rfl) : Keeps s (updPair g s) :=
  .of_underWay rfl h
theorem keeps_accums (l : Tbl Accum) (s : State) : Keeps s { s with accums := l } := .of_underWay rfl rfl

/-! ### Ownership. -/
theorem steps_setMaster (c : CardId) (s : State) : Steps (fun v => { v with master := c }) s (setMaster c s) :=
  (Keeps.of_foldl _ _ _ fun t f _ => keeps_updFrond f (fun g => { g with follows := c }) t).steps (.of_underWay rfl rfl)

/-- The view with both groups owned by one card. -/
def ModuleView.ownedBy (o : CardId) (moved : Bool) (v : ModuleView) : ModuleView :=
  { v with own1 := o, own2 := o, transfers := [], takeover := if moved then some (o, v.fc) else v.takeover }
theorem steps_ownedBy (o : CardId) (moved : Bool) (s : State) : Steps (ModuleView.ownedBy o moved) s (updPair (fun p => { p with
    own1 := o, own2 := o, transfers := [], handTo := none, takeover := if moved then some (o, s.time.fc) else p.takeover,
    lastServing := some o }) s) := .of_underWay rfl rfl

/-- The ownership epoch that a change of owner sets. -/
def nextEpoch (s : State) : Nat :=
  max (max (if s.pair.ca.serving then s.pair.ca.ownEpoch else 0) (if s.pair.cb.serving then s.pair.cb.ownEpoch else 0)) (max s.jA.rootOwn s.jB.rootOwn) + 1
theorem lt_nextEpoch {c : CardId} (h : (cardAt s c).serving = true) : (cardAt s c).ownEpoch < nextEpoch s := by
  cases c <;> simp only [cardAt] at h ⊢ <;> simp only [nextEpoch, h, if_true] <;> omega
/-- A serving card keeps the new ownership epoch. -/
def CardView.epoch (e : Nat) (x : CardView) : CardView := if x.serving then { x with ownEpoch := e } else x
/-- A serving card with the new ownership epoch. -/
def epoched (e : Nat) (x : Card) : Card := if x.serving then { x with ownEpoch := e } else x
theorem cardView_epoched (e : Nat) (x : Card) : cardView (epoched e x) = (cardView x).epoch e := by
  unfold CardView.epoch epoched
  by_cases h : x.serving = true <;> simp [h, cardView]
theorem raiseEpoch_eq (s : State) : raiseEpoch s = updCard .ca (epoched (nextEpoch s)) (updCard .cb (epoched (nextEpoch s)) s) := rfl
theorem steps_raiseEpoch (s : State) : Steps (fun v => { v with cards := fun x => (v.cards x).epoch (nextEpoch s) }) s (raiseEpoch s) := by
  rw [raiseEpoch_eq]
  refine Steps.congr ((steps_updCard (cardView_epoched (nextEpoch s)) _).after (steps_updCard (cardView_epoched (nextEpoch s)) s)) fun v => ?_
  have hcards : ∀ x : CardId, (if x = .ca then (if x = .cb then (v.cards x).epoch (nextEpoch s) else v.cards x).epoch (nextEpoch s)
      else if x = .cb then (v.cards x).epoch (nextEpoch s) else v.cards x) = (v.cards x).epoch (nextEpoch s) := fun x => by
    cases x <;> simp
  simp only [ModuleView.onCard, hcards]

/-- The view with a new ownership epoch. -/
def ModuleView.epoch (e : Nat) (v : ModuleView) : ModuleView := { v with cards := fun x => (v.cards x).epoch e }

/-! ### The takeover. -/
theorem Steps.ackAll {f : ModuleView → ModuleView} {o : CardId} (h : Steps f s t) (hf : ((f (moduleView s)).cards o).unacked = []) :
    Steps f s (ackAll o t) := fun hs => by
  have ht := h hs
  have hnone : (cardAt t o).unacked = [] := (congrArg (fun v : ModuleView => (v.cards o).unacked) ht.view).trans hf
  rw [ackAll_eq hnone]
  exact ht

/-- The survivor owns both groups; no codeword of the failed card is on its way. -/
def recovered (c : CardId) (busy mine : List Nat) (was : CardId) (s : State) : State :=
  let o := other c
  let s := restartRebuild busy (replaceMissing o mine (cmdsMeet c (raiseEpoch s)))
  let s := if was = c then
      updSec (fun x => { x with nonces := [], tokens := [], attestQ := [], reports := [], attestNext := x.reservedEnd }) s
    else s
  takeoverWakes (linkCheck (anaUpdate (wake (Machine.ackAll o s))))

theorem steps_recovered (c : CardId) (busy : List Nat) (was : CardId) (s : State) (hacked : (cardAt s (other c)).unacked = []) :
    Steps (ModuleView.epoch (nextEpoch s)) s (recovered c busy [] was s) := by
  have hepoch : Steps (ModuleView.epoch (nextEpoch s)) s (restartRebuild busy (replaceMissing (other c) [] (cmdsMeet c (raiseEpoch s)))) :=
    ((keeps_restartRebuild busy _).after ((keeps_replaceMissing (other c) _).after (keeps_cmdsMeet c _))).steps (steps_raiseEpoch s)
  have hnone : (((moduleView s).epoch (nextEpoch s)).cards (other c)).unacked = [] := by
    simp only [ModuleView.epoch, CardView.epoch]
    split <;> exact hacked
  unfold recovered
  dsimp only
  refine ((keeps_takeoverWakes _).after ((keeps_linkCheck _).after ((keeps_anaUpdate _).after (keeps_wake _)))).steps (Steps.ackAll ?_ hnone)
  split
  · exact (keeps_updSec _ _).steps hepoch
  · exact hepoch

/-- The view once the partner of card c has taken over with ownership epoch e. -/
def ModuleView.takenOver (c : CardId) (e : Nat) (v : ModuleView) : ModuleView :=
  (ModuleView.ownedBy (other c) (decide (v.own1 = c) || decide (v.own2 = c)) { v with master := other c }).epoch e

theorem takeover_eq (c : CardId) (hs : Idle s) : ∃ busy u,
    Steps (fun v => ModuleView.ownedBy (other c) (decide (s.pair.own1 = c) || decide (s.pair.own2 = c)) { v with master := other c }) (send (.fence c) s) u ∧
    takeover c s = recovered c busy [] s.time.master u := by
  have hmaster := steps_setMaster (other c) (send (.fence c) s)
  have hcws := (hmaster ((tells_send (.fence c) s).keeps hs).idle).idle.still.cws
  unfold takeover recovered
  dsimp only
  rw [hcws, List.filter_nil, List.map_nil]
  refine ⟨_, _, ?_, rfl⟩
  refine (steps_ownedBy (other c) (decide (s.pair.own1 = c) || decide (s.pair.own2 = c)) _).after (Keeps.steps (keeps_nss _ _ fun hn n hm => ?_)
    (Keeps.steps ((keeps_updSe c _ _).after ((keeps_passJournal c _).after ((keeps_accums _ _).after
      ((keeps_closeZones _ none _).after (keeps_undoResets _ _))))) hmaster))
  obtain ⟨x, hx, rfl⟩ := List.mem_map.mp hm
  split <;> exact hn x hx

theorem stepped_takeover (c : CardId) (s : State) (hs : Idle s) (hserve : (cardAt s (other c)).serving = true) (hacked : (cardAt s (other c)).unacked = []) :
    ∃ e, (cardAt s (other c)).ownEpoch < e ∧
      Stepped (ModuleView.takenOver c e) s (takeover c s) ∧ .fence c ∈ (takeover c s).tx := by
  obtain ⟨busy, u, howned, heq⟩ := takeover_eq c hs
  have hsend := (tells_send (.fence c) s).keeps hs
  have hu := howned hsend.idle
  have hcards : ∀ x, cardView (cardAt u x) = cardView (cardAt s x) := fun x => (congrArg (fun v : ModuleView => v.cards x) hu.view :)
  have hacked' : (cardAt u (other c)).unacked = [] := (congrArg CardView.unacked (hcards (other c))).trans hacked
  have hserve' : (cardAt u (other c)).serving = true := (congrArg CardView.serving (hcards (other c))).trans hserve
  have hepoch : (cardAt u (other c)).ownEpoch = (cardAt s (other c)).ownEpoch := congrArg CardView.ownEpoch (hcards (other c))
  have hlast := steps_recovered c busy s.time.master u hacked' hu.idle
  rw [heq]
  refine ⟨nextEpoch u, hepoch ▸ lt_nextEpoch hserve', ⟨hlast.idle, ?_, fun m hm => hlast.tx (hu.tx (hsend.tx hm))⟩, hlast.tx (hu.tx (by simp [send]))⟩
  rw [hlast.view, hu.view, hsend.view]
  rfl

/-! ### A card leaves service. -/
/-- A card that has left service under the partner hold. -/
def CardView.left (why : HeldWhy) (x : CardView) : CardView :=
  { x with serving := false, why := why, held := true, hb := 4, activating := 0, unacked := [] }
/-- The view once card c has left service and its partner has taken over. -/
def ModuleView.lost (c : CardId) (why : HeldWhy) (e : Nat) (v : ModuleView) : ModuleView :=
  ((v.down c).onCard c (CardView.left why)).takenOver c e

/-- From s to t card c leaves service for a reason, and its partner takes over with a higher ownership epoch and fences it. -/
structure Lost (c : CardId) (why : HeldWhy) (s t : State) : Prop where
  epoch : ∃ e, (cardAt s (other c)).ownEpoch < e ∧ Stepped (ModuleView.lost c why e) s t
  fence : .fence c ∈ t.tx

/-- A card whose partner can take over. -/
structure Covered (c : CardId) (s : State) : Prop where
  idle : Idle s
  serving : (cardAt s c).serving = true
  partner : carries (cardAt s (other c)) = true
  acked : (cardAt s (other c)).unacked = []

theorem Covered.partnerServes {c : CardId} (h : Covered c s) : (cardAt s (other c)).serving = true := by
  have hcarry := h.partner
  simp only [carries, Bool.and_eq_true] at hcarry
  exact hcarry.1.1
theorem Covered.of_keeps {c : CardId} (h : Covered c s) (k : Keeps s t) : Covered c t := by
  have ht := k h.idle
  have hcards : ∀ x, cardView (cardAt t x) = cardView (cardAt s x) := fun x => (congrArg (fun v : ModuleView => v.cards x) ht.view :)
  have hcarry : ∀ x, carries (cardAt t x) = carries (cardAt s x) := fun x =>
    congrArg (fun v : CardView => v.serving && v.activating != 3 && v.activating != 4) (hcards x)
  exact ⟨ht.idle, (congrArg CardView.serving (hcards c)).trans h.serving, (hcarry _).trans h.partner, (congrArg CardView.unacked (hcards _)).trans h.acked⟩

/-- The card that leaves, in the state. -/
def leftCard (row : Nat) (why : HeldWhy) (x : Card) : Card :=
  { x with
    serving := false, hb := 4, why := why, beat := false, missed := 0, unacked := [], holding := false, entering := 0, writing := none,
    activating := 0, leaving := 0, held := true, heldBefore := x.heldBefore || true, heldAgain := x.heldBefore && true, aliveTx := if row = 1 then x.aliveTx + 1 else x.aliveTx }

theorem keeps_sendIf (P : Prop) [Decidable P] (m : Tx) (s : State) : Keeps s (if P then send m s else s) := by
  split
  · exact (tells_send m s).keeps
  · exact .refl s

theorem cardOut_eq {c : CardId} (row : Nat) (why : HeldWhy) (h : Covered c s) :
    ∃ t, Steps (fun v => (v.down c).onCard c (CardView.left why)) s t ∧ cardOut c row why s = takeover c t := by
  have hdown : Steps (ModuleView.down c) s (portsDown c (event 0x402 2 (srcQ (other c)) (obj 8 (cardNo c)) row 0 0 s)) :=
    (steps_portsDown c _).keeps (tells_event _ _ _ _ _ _ _ s).keeps
  have hcarry : carries (cardAt (portsDown c (event 0x402 2 (srcQ (other c)) (obj 8 (cardNo c)) row 0 0 s)) (other c)) = true :=
    (congrArg (fun v : ModuleView => (v.cards (other c)).serving && (v.cards (other c)).activating != 3 && (v.cards (other c)).activating != 4)
      (hdown h.idle).view :).trans h.partner
  unfold cardOut
  rw [if_neg (by simp [h.serving])]
  dsimp only
  rw [hcarry, if_pos rfl]
  refine ⟨_, ?_, rfl⟩
  have hleft := (steps_updCard (c := c) (g := leftCard row why) (G := CardView.left why) (fun _ => rfl) _).after hdown
  refine Keeps.steps ((keeps_updCard _ _ _).after ((keeps_updPair _ _).after ((keeps_updMem c rankDrop _).after (keeps_sendIf _ _ _)))) hleft

theorem lost_cardOut {c : CardId} (row : Nat) (why : HeldWhy) (h : Covered c s) : Lost c why s (cardOut c row why s) := by
  obtain ⟨t, hstep, heq⟩ := cardOut_eq row why h
  have ht := hstep h.idle
  have hcard : cardView (cardAt t (other c)) = cardView (cardAt s (other c)) :=
    (congrArg (fun v : ModuleView => v.cards (other c)) ht.view :).trans (if_neg (other_ne c))
  have hepoch : (cardAt t (other c)).ownEpoch = (cardAt s (other c)).ownEpoch := congrArg CardView.ownEpoch hcard
  have hserve := h.partnerServes
  obtain ⟨e, he, hlast, hfence⟩ := stepped_takeover c t ht.idle ((congrArg CardView.serving hcard).trans hserve) ((congrArg CardView.unacked hcard).trans h.acked)
  rw [heq]
  refine ⟨⟨e, hepoch ▸ he, hlast.idle, ?_, fun m hm => hlast.tx (ht.tx hm)⟩, hfence⟩
  rw [hlast.view, ht.view]
  rfl

theorem Lost.before {c : CardId} {why : HeldWhy} (h : Lost c why s t) (k : Keeps t u) : Lost c why s u := by
  obtain ⟨⟨e, he, ht⟩, hfence⟩ := h
  have hu := k ht.idle
  exact ⟨⟨e, he, hu.idle, hu.view.trans ht.view, fun m hm => hu.tx (ht.tx hm)⟩, hu.tx hfence⟩
theorem Lost.following {c : CardId} {why : HeldWhy} (h : Lost c why t u) (k : Stepped id s t) : Lost c why s u := by
  obtain ⟨⟨e, he, ht⟩, hfence⟩ := h
  have hepoch : (cardAt t (other c)).ownEpoch = (cardAt s (other c)).ownEpoch := (congrArg (fun v : ModuleView => (v.cards (other c)).ownEpoch) k.view :)
  exact ⟨⟨e, hepoch ▸ he, ht.idle, ht.view.trans (congrArg (ModuleView.lost c why e) k.view), fun m hm => ht.tx (k.tx hm)⟩, hfence⟩
/-- A card leaves service between steps that keep the view. -/
theorem lost_between {c : CardId} {row : Nat} {why : HeldWhy} (h : Covered c s) (before : Keeps s t) (after : Keeps (cardOut c row why t) u) :
    Lost c why s u :=
  ((lost_cardOut row why (h.of_keeps before)).before after).following (before h.idle)

/-! ### The ways out of service. -/
theorem keeps_updEng (k : Nat) (g : Engine → Engine) (s : State) : Keeps s (updEng k g s) := .of_underWay rfl rfl
theorem keeps_engineOut (c : CardId) (i how : Nat) (s : State) : Keeps s (engineOut c i how s) :=
  (keeps_updCard c (fun x => { x with soakAt := now (updEng (cardNo c * 64 + i) (stoppedEngine how) s) }) _).after
    ((tells_event _ _ _ _ _ _ _ _).keeps.after (keeps_updEng (cardNo c * 64 + i) (stoppedEngine how) s))
theorem keeps_alive (c : CardId) (n : Nat) (last : Option (BitVec 8)) (ctr : BitVec 8) (crcOk : Bool) (s : State) :
    Keeps s (alive c n last ctr crcOk s).1 := keeps_updMem c (fun m => { m with alive := m.alive.set n _ }) s
theorem other_other (c : CardId) : other (other c) = c := by cases c <;> rfl
theorem Keeps.ackUpTo {o : CardId} (k : Keeps s t) (msn : Nat) (h : (cardAt s o).unacked = []) : Keeps s (ackUpTo o msn t) := fun hs => by
  have ht := k hs
  have hnone : (cardAt t o).unacked = [] := (congrArg (fun v : ModuleView => (v.cards o).unacked) ht.view).trans h
  rw [Machine.ackUpTo, hnone]
  exact ht
/-- A message with a valid CRC and an ALIVE that is not the last one is accepted. -/
theorem alive_accepts (c : CardId) (n : Nat) {last : Option (BitVec 8)} {ctr : BitVec 8} (s : State) (h : some ctr ≠ last) :
    (alive c n last ctr true s).2.2 = true := by
  cases last with
  | none => rfl
  | some l =>
    have hne : ctr ≠ l := fun he => h (congrArg some he)
    simp only [alive, aliveCheck, Bool.not_true, Bool.false_eq_true, if_false, hne]
theorem heartbeat_loses {c : CardId} {hb : HeartbeatMsg} (h : Covered c s) (hstate : hb.state = 4) (hcrc : hb.crcOk = true)
    (hfresh : some hb.alive ≠ ((memAt s (other c)).alive.getD 2 {}).last) : ∃ t, exec (.heartbeat (other c) hb) s = .next t ∧ Lost c .partnerHold s t := by
  have hserve := h.partnerServes
  rw [show exec (.heartbeat (other c) hb) s = execHeartbeat (other c) hb s from rfl, execHeartbeat, if_neg (by simp [hserve]), hcrc]
  dsimp only
  rw [alive_accepts _ _ _ hfresh, if_neg (by simp), if_pos hstate, other_other]
  refine ⟨_, rfl, lost_between (row := 1) h ?_ (.refl _)⟩
  exact Keeps.ackUpTo ((keeps_updCard (other c) (fun x => { x with beat := true, missed := 0, partnerHb := hb.state }) _).after
    ((keeps_updMem _ _ _).after (keeps_alive _ _ _ _ _ s))) _ h.acked
theorem heartbeatMissed_loses {c : CardId} (h : Covered c s) (hbeat : (cardAt s (other c)).beat = false) (hmissed : 3 ≤ (cardAt s (other c)).missed)
    (hsilent : ((fedPeus s).all fun p => statusCurrent s p && decide (8 ≤ silentOf p c)) = true) :
    ∃ t, exec (.heartbeatMissed (other c)) s = .next t ∧ Lost c .partnerHold s t := by
  have hsilent' : ((fedPeus (updCard (other c) (fun x => { x with missed := x.missed + 1 }) s)).all fun p =>
      statusCurrent (updCard (other c) (fun x => { x with missed := x.missed + 1 }) s) p && decide (8 ≤ silentOf p c)) = true := by
    cases c <;> exact hsilent
  rw [show exec (.heartbeatMissed (other c)) s = execHeartbeatMissed (other c) s from rfl, execHeartbeatMissed]
  dsimp only
  rw [other_other, if_neg (by simp [h.serving, h.partnerServes, hbeat]), if_neg (by omega), if_pos hsilent']
  exact ⟨_, rfl, lost_between (row := 2) h (keeps_updCard _ _ s) (.refl _)⟩
theorem rhizomeLaneLoss_loses {c : CardId} (h : Covered c s) (hboth : bothServe s = true) (hc : c = other s.time.master) :
    ∃ t, exec (.rhizomeLaneLoss false) s = .next t ∧ Lost c .partnerHold s t := by
  subst hc
  refine ⟨_, ?_, lost_between (row := 4) h (keeps_updPair (fun p => { p with lanes := 0 }) s) (.refl _)⟩
  have hboth' : bothServe (updPair (fun p => { p with lanes := 0 }) s) = true := hboth
  rw [show exec (.rhizomeLaneLoss false) s = execRhizomeLaneLoss false s from rfl, execRhizomeLaneLoss, if_neg Bool.false_ne_true]
  dsimp only
  rw [if_pos hboth']
  rfl
theorem quiharWatchdog_loses {c : CardId} {n : Nat} (h : Covered c s) (hn : n < 64) (hworks : engineWorks s c n = true)
    (hfew : tooFew (engineOut c n 1 s) c = true) : ∃ t, exec (.engineWatchdog (.quihar c n)) s = .next t ∧ Lost c .outOfService s t := by
  rw [show exec (.engineWatchdog (.quihar c n)) s = execEngineWatchdog (.quihar c n) s from rfl, execEngineWatchdog, if_neg (by simp [hn, hworks])]
  dsimp only
  rw [if_pos hfew]
  exact ⟨_, rfl, lost_between (row := 1) h (keeps_engineOut c n 1 s) (keeps_linkCheck _)⟩
theorem dramUncorrectableError_loses {c : CardId} {n line : Nat} (h : Covered c s) (hrop : (memAt s c).rop = .idle) (hrole : (rankAt s c n).role ≠ 9)
    (hspare : (memAt s c).spare = none) : ∃ t, exec (.dramUncorrectableError c n line) s = .next t ∧ Lost c .outOfService s t := by
  have hspare' : ∀ g, (memAt (poisonLine c n line (updRank c n g s)) c).spare = none := fun g => by
    simp only [poisonLine, updRank, memAt_updMem, if_true, hspare]
  rw [show exec (.dramUncorrectableError c n line) s = execDramUncorrectableError c n line s from rfl, execDramUncorrectableError, if_pos h.serving, dramBad]
  dsimp only
  rw [hrop]
  dsimp only
  rw [if_neg hrole, hspare']
  exact ⟨_, rfl, lost_between (row := 1) h ((keeps_updMem _ _ _).after (keeps_updMem _ _ s)) (tells_aenPage _ _).keeps⟩
theorem thermalShutdown_loses {c : CardId} {n : Nat} (h : Covered c s) (hn : n < 12) (hsensor : sensorNo (.junction c n) ∉ s.power.broken) :
    ∃ t, exec (.thermalShutdown (.junction c n)) s = .next t ∧ Lost c .outOfService s t := by
  rw [show exec (.thermalShutdown (.junction c n)) s = execThermalShutdown (.junction c n) s from rfl, execThermalShutdown]
  dsimp only
  rw [if_neg (by simp [Machine.sensorOk, sensorOn, hn, h.serving, hsensor])]
  exact ⟨_, rfl, lost_between (row := 1) h ((keeps_updPower _ _).after ((tells_aenPage _ _).after (tells_event _ _ _ _ _ _ _ s)).keeps) (keeps_wakeEvent none _)⟩
/-- A card that is pulled. -/
def pulledCard (x : Card) : Card :=
  { x with present := false, serving := false, why := .removed, entering := 0, fuseOn := false, held := false }
theorem cardPresentOpen_loses {c : CardId} (h : Covered c s) :
    ∃ t, exec (.cardPresentOpen c) s = .next (updCard c pulledCard t) ∧ Lost c .removed s t :=
  ⟨_, rfl, lost_between (row := 3) h (.refl s) (keeps_updPower (fun p => { p with fuses := tupd {} p.fuses (16 + cardNo c) fun _ => {} }) _)⟩

/-! ### What the loss of a card leaves. -/
/-- The part of the statement that every way out of service shares. -/
structure Succeeded (c : CardId) (w : HeldWhy) (s t : State) : Prop where
  gone : (cardAt t c).serving = false ∧ (cardAt t c).why = w ∧ (cardAt t c).hb = 4
  links : (ctrlAt t (portOf c)).link = false ∧ (ctrlAt t (portOf c)).rdy = false ∧ (bulkAt t c).linkUp = false ∧ (culmAt t (culmOf c)).link = 6
  partner : (cardAt t (other c)).serving = true ∧ t.pair.own1 = other c ∧ t.pair.own2 = other c ∧ t.time.master = other c ∧ .fence c ∈ t.tx
  epochs : (cardAt s (other c)).ownEpoch < (cardAt t (other c)).ownEpoch ∧ (cardAt t c).ownEpoch = (cardAt s c).ownEpoch
  transfers : t.pair.transfers = [] ∧ (s.pair.own1 = c ∨ s.pair.own2 = c → t.pair.takeover = some (other c, s.time.fc))
  kept : (ctrlAt t (portOf (other c))).link = (ctrlAt s (portOf (other c))).link ∧ t.map = s.map ∧ t.feat = s.feat ∧ t.rules = s.rules ∧ t.misses = s.misses

theorem Lost.succeeded {c : CardId} {w : HeldWhy} (h : Covered c s) (hl : Lost c w s t) : Succeeded c w s t ∧ (cardAt t c).held = true := by
  obtain ⟨⟨e, he, hstep⟩, hfence⟩ := hl
  have hview := hstep.view
  have hcard : cardView (cardAt t c) = (cardView (cardAt s c)).left w :=
    (congrArg (fun v : ModuleView => v.cards c) hview :).trans (by simp [ModuleView.lost, ModuleView.takenOver, ModuleView.epoch, ModuleView.ownedBy,
      ModuleView.onCard, CardView.epoch, CardView.left, ModuleView.down, moduleView])
  have hother : cardView (cardAt t (other c)) = { cardView (cardAt s (other c)) with ownEpoch := e } :=
    (congrArg (fun v : ModuleView => v.cards (other c)) hview :).trans (by simp [ModuleView.lost, ModuleView.takenOver, ModuleView.epoch, ModuleView.ownedBy,
      ModuleView.onCard, CardView.epoch, ModuleView.down, moduleView, other_ne, cardView, h.partnerServes])
  have hports : ∀ p, ((ctrlAt t p).link, (ctrlAt t p).rdy) = if p = portOf c then (false, false) else ((ctrlAt s p).link, (ctrlAt s p).rdy) := fun p =>
    (congrArg (fun v : ModuleView => v.ports p) hview :)
  have hbulk : (bulkAt t c).linkUp = if c = c then false else (bulkAt s c).linkUp := (congrArg (fun v : ModuleView => v.bulks c) hview :)
  have hculm : (culmAt t (culmOf c)).link = if culmOf c = culmOf c then 6 else (culmAt s (culmOf c)).link :=
    (congrArg (fun v : ModuleView => v.culms (culmOf c)) hview :)
  have hdown := hports (portOf c)
  have hup := hports (portOf (other c))
  rw [if_pos rfl] at hdown hbulk hculm
  rw [if_neg (by cases c <;> decide)] at hup
  have htake : t.pair.takeover = if decide (s.pair.own1 = c) || decide (s.pair.own2 = c) then some (other c, s.time.fc) else s.pair.takeover :=
    (congrArg ModuleView.takeover hview :)
  refine ⟨⟨?_, ?_, ?_, ?_, ?_, ?_⟩, congrArg CardView.held hcard⟩
  · exact ⟨congrArg CardView.serving hcard, congrArg CardView.why hcard, congrArg CardView.hb hcard⟩
  · exact ⟨congrArg Prod.fst hdown, congrArg Prod.snd hdown, hbulk, hculm⟩
  · exact ⟨(congrArg CardView.serving hother).trans h.partnerServes, (congrArg ModuleView.own1 hview :), (congrArg ModuleView.own2 hview :),
      (congrArg ModuleView.master hview :), hfence⟩
  · exact ⟨he.trans_eq (congrArg CardView.ownEpoch hother).symm, congrArg CardView.ownEpoch hcard⟩
  · exact ⟨(congrArg ModuleView.transfers hview :), fun hown => htake.trans (if_pos (by simpa using hown))⟩
  · exact ⟨congrArg Prod.fst hup, (congrArg ModuleView.map hview :), (congrArg ModuleView.feat hview :), (congrArg ModuleView.rules hview :),
      (congrArg ModuleView.misses hview :)⟩
theorem Succeeded.pulled {c : CardId} {w : HeldWhy} (h : Succeeded c w s t) : Succeeded c .removed s (updCard c pulledCard t) := by
  obtain ⟨⟨-, -, hhb⟩, links, partner, epochs, transfers, kept⟩ := h
  cases c <;> exact ⟨⟨rfl, rfl, hhb⟩, links, partner, epochs, transfers, kept⟩

/-- What the card itself is left with. -/
def heldOrPulled (i : Instr) (c : CardId) (t : State) : Prop :=
  (cardAt t c).held = (i != .cardPresentOpen c) ∧ (i = .cardPresentOpen c → (cardAt t c).present = false ∧ (cardAt t c).fuseOn = false)
theorem Covered.succeeds {i : Instr} {c : CardId} {w : HeldWhy} (h : Covered c s) (hne : i ≠ .cardPresentOpen c)
    (hl : ∃ t, exec i s = .next t ∧ Lost c w s t) : ∃ t, exec i s = .next t ∧ Succeeded c w s t ∧ heldOrPulled i c t := by
  obtain ⟨t, hexec, hlost⟩ := hl
  obtain ⟨hsucc, hheld⟩ := hlost.succeeded h
  exact ⟨t, hexec, hsucc, hheld.trans (bne_iff_ne.mpr hne).symm, fun he => absurd he hne⟩
theorem Covered.pulled {c : CardId} (h : Covered c s) :
    ∃ t, exec (.cardPresentOpen c) s = .next t ∧ Succeeded c .removed s t ∧ heldOrPulled (.cardPresentOpen c) c t := by
  obtain ⟨t, hexec, hlost⟩ := cardPresentOpen_loses h
  refine ⟨_, hexec, (hlost.succeeded h).1.pulled, ?_⟩
  simp [heldOrPulled, pulledCard]

/-- Settles O46: each way out of service loses the card while its partner takes over, and the view says what that leaves. -/
theorem cardsLeaveServiceAndPartnerTakesOver : Obligations.CardsLeaveServiceAndPartnerTakesOver := by
  intro i c w s hq hserve hcarry hnss hslices hacked hi
  have h : Covered c s := ⟨⟨.of_quiet hq, hnss, hslices⟩, hserve, hcarry, hacked⟩
  have hway : ∃ t, exec i s = .next t ∧ Succeeded c w s t ∧ heldOrPulled i c t := by
    rcases hi with ⟨rfl, rfl⟩ | ⟨hb, rfl, hstate, hcrc, hfresh, rfl⟩ | ⟨rfl, hbeat, hmissed, hsilent, rfl⟩ | ⟨rfl, hboth, hmaster, rfl⟩ |
      ⟨n, rfl, hn, hworks, hfew, rfl⟩ | ⟨n, line, rfl, hrop, hrole, hspare, rfl⟩ | ⟨n, rfl, hn, hsensor, rfl⟩
    · exact h.pulled
    · exact h.succeeds nofun (heartbeat_loses h hstate hcrc hfresh)
    · exact h.succeeds nofun (heartbeatMissed_loses h hbeat hmissed hsilent)
    · exact h.succeeds nofun (rhizomeLaneLoss_loses h hboth hmaster)
    · exact h.succeeds nofun (quiharWatchdog_loses h hn hworks hfew)
    · exact h.succeeds nofun (dramUncorrectableError_loses h hrop hrole hspare)
    · exact h.succeeds nofun (thermalShutdown_loses h hn hsensor)
  obtain ⟨t, hexec, ⟨⟨hgone, hwhy, hhb⟩, ⟨hlink, hrdy, hbulk, hculm⟩, ⟨hpartner, hown1, hown2, hmaster, hfence⟩, ⟨hepoch, hkept⟩, ⟨htransfers, htakeover⟩, hrest⟩,
    hheld, hpulled⟩ := hway
  exact ⟨t, hexec, hgone, hwhy, hheld, hhb, hlink, hrdy, hbulk, hculm, hpartner, hown1, hown2, hmaster, hfence, hepoch, hkept, htransfers, htakeover, hpulled, hrest⟩

end Sys2Proof.Laws
end

