-- ==== Sys2Proof/Proofs/Admission.lean ====
section
/-! SUPPORT. What the admission of a fetched command and its request for locks touch (R47, R170, R172, R205): the slice that is charged and the
admission statistics; the command's own entry and the Spikelets. -/
namespace Sys2Proof.Laws
open Sys2Proof Sys2Proof.Machine

variable {s t u : State}

/-! ### Claims. -/
/-- From s to t the admission statistics alone differ. -/
def StatsOnly (s t : State) : Prop := ∃ x, t = { s with stats := x }

theorem StatsOnly.refl (s : State) : StatsOnly s s := ⟨s.stats, rfl⟩
theorem StatsOnly.trans (h : StatsOnly s t) (k : StatsOnly t u) : StatsOnly s u := by
  obtain ⟨x, rfl⟩ := h
  obtain ⟨y, rfl⟩ := k
  exact ⟨y, rfl⟩

theorem statsOnly_claimIn {c : CardId} {k last dp : Nat} (h : claimIn c k last dp s = some t) : StatsOnly s t := by
  obtain ⟨n, -, rfl⟩ := Option.map_eq_some_iff.mp h
  exact ⟨_, rfl⟩
theorem statsOnly_claimList {c : CardId} {k last : Nat} {l : List Nat} (h : claimList c k last l s = some t) : StatsOnly s t := by
  induction l generalizing s with
  | nil => exact Option.some.inj h ▸ .refl s
  | cons d r ih =>
    rw [claimList] at h
    split at h
    next u hu => exact (statsOnly_claimIn hu).trans (ih h)
    next => cases h
theorem statsOnly_claimPiece {c : CardId} {k last ck : Nat} (h : claimPiece c k last ck s = some t) : StatsOnly s t := by
  unfold claimPiece at h
  dsimp only at h
  split at h
  · obtain ⟨l, -, hl⟩ := List.exists_of_findSome?_eq_some h
    exact statsOnly_claimIn hl
  · split at h
    next u hu =>
      obtain ⟨d, -, hd⟩ := Option.bind_eq_some_iff.mp hu
      exact Option.some.inj h ▸ statsOnly_claimIn hd
    next =>
      split at h
      · exact statsOnly_claimList h
      · cases h
theorem statsOnly_claimPieces {c : CardId} {k last : Nat} {l : List (List (Nat × Nat))} (h : claimPieces c k last l s = some t) : StatsOnly s t := by
  induction l generalizing s with
  | nil => exact Option.some.inj h ▸ .refl s
  | cons p r ih =>
    cases p with
    | nil => exact ih h
    | cons b q =>
      rw [claimPieces] at h
      split at h
      next u hu => exact (statsOnly_claimPiece hu).trans (ih h)
      next => cases h
theorem statsOnly_claimRead {c : CardId} {nsid lba n deadline : Nat} (h : claimRead c nsid lba n deadline s = some t) : StatsOnly s t := by
  obtain ⟨u, hpages, hpieces⟩ := Option.bind_eq_some_iff.mp h
  exact (statsOnly_claimList hpages).trans (statsOnly_claimPieces hpieces)

/-! ### Bound admission. -/
/-- From s to t slice sl is charged: beside it and the admission statistics nothing differs, and what it has fetched stays. -/
structure Charged (sl : Nat) (s t : State) : Prop where
  rest : { t with slices := s.slices, stats := s.stats } = s
  keys : rising s.slices = true → rising t.slices = true
  fetched : rising s.slices = true → (sliceAt t sl).fetched = (sliceAt s sl).fetched
  others : ∀ k, k ≠ sl → sliceAt t k = sliceAt s k

variable {sl : Nat}

theorem Charged.refl (s : State) : Charged sl s s := ⟨rfl, id, fun _ => rfl, fun _ _ => rfl⟩
theorem Charged.trans (h : Charged sl s t) (k : Charged sl t u) : Charged sl s u where
  rest := Eq.trans (congrArg (fun x : State => { x with slices := s.slices, stats := s.stats }) k.rest) h.rest
  keys := fun hs => k.keys (h.keys hs)
  fetched := fun hs => (k.fetched (h.keys hs)).trans (h.fetched hs)
  others := fun i hi => (k.others i hi).trans (h.others i hi)
theorem StatsOnly.charged (h : StatsOnly s t) : Charged sl s t := by
  obtain ⟨x, rfl⟩ := h
  exact ⟨rfl, id, fun _ => rfl, fun _ _ => rfl⟩
theorem charged_updSlice (g : Slice → Slice) (s : State) (h : ∀ x, (g x).fetched = x.fetched := by exact fun _ => rfl) :
    Charged sl s (updSlice sl g s) where
  rest := rfl
  keys := rising_tupd _ _ _ _
  fetched := fun hs => by rw [sliceAt_updSlice _ _ _ _ hs, if_pos rfl, h]
  others := fun _ hi => tget_tput_ne _ _ _ _ _ hi
theorem charged_updStats (g : Stats → Stats) (s : State) : Charged sl s (updStats g s) := StatsOnly.charged ⟨_, rfl⟩

theorem charged_chargeBound {c : CardId} {n : Nat} {read : Bool} (h : chargeBound c sl n read s = some t) : Charged sl s t := by
  unfold chargeBound at h
  dsimp only at h
  obtain ⟨-, h⟩ := Option.ite_none_left_eq_some.mp h
  rw [← Option.some.inj h]
  refine (charged_updSlice _ s fun x => ?_).trans (charged_updStats _ _)
  split <;> rfl

/-- A command classified bound is admitted, or runs as weighted: either way its slice is charged at most. -/
theorem charged_admission (card : CardId) (e : Sqe) (bell : Nat) (s : State) : Charged sl s (admission card sl e bell s).2 := by
  have counts : ∀ (g : Slice → Slice) (f : Stats → Stats) (v : State), (∀ x, (g x).fetched = x.fetched) → Charged sl v (updSlice sl g (updStats f v)) :=
    fun g f v hg => (charged_updStats f v).trans (charged_updSlice g _ hg)
  unfold admission
  dsimp only
  split
  · exact counts _ _ s fun _ => rfl
  · split
    · exact counts _ _ s fun _ => rfl
    next s1 hcharge =>
      split
      · exact counts _ _ s fun _ => rfl
      next s2 hclaim =>
        refine (charged_chargeBound hcharge).trans (Charged.trans (t := s2) ?_ (counts _ _ s2 fun _ => rfl))
        split at hclaim
        · exact (statsOnly_claimRead hclaim).charged
        · exact Option.some.inj hclaim ▸ .refl s1

/-! ### Locks at the fetch. -/
/-- From s to t command k asks for its locks: its entry changes by g, which touches locks and the instant of the wait alone, and both
Spikelets may take entries. -/
def AsksLocks (k : Nat) (s t : State) : Prop :=
  ∃ (g : Cmd → Cmd) (a b : Spikelet), t = { s with cmds := tmod s.cmds k g, spA := a, spB := b } ∧
    ∀ x, { g x with locks := x.locks, since := x.since } = x

/-- An entry that asks for locks from an instant on. -/
def asking (ps : List (Nat × Nat × Bool)) (since : Nat) (x : Cmd) : Cmd := { x with locks := ps, since := since }

theorem tmod_id {α : Type} (l : Tbl α) (k : Nat) : tmod l k id = l := by
  simp [tmod]
theorem AsksLocks.refl (k : Nat) (s : State) : AsksLocks k s s := ⟨id, s.spA, s.spB, by rw [tmod_id], fun _ => rfl⟩
theorem asksLocks_requestLocks (k : Nat) (s : State) : AsksLocks k s (requestLocks k s) := by
  unfold requestLocks
  dsimp only
  split
  · exact .refl k s
  · split
    · generalize (cmdAt s k).owner = c
      cases c <;> exact ⟨asking _ (now s), _, _, rfl, fun _ => rfl⟩
    · exact ⟨asking _ (now s), s.spA, s.spB, rfl, fun _ => rfl⟩

theorem tmod_of_not_key {α : Type} (f : α → α) {l : Tbl α} {k : Nat} (h : ∀ p ∈ l, p.1 ≠ k) : tmod l k f = l := by
  refine (List.map_congr_left fun p hp => if_neg (h p hp)).trans (List.map_id l)
/-- A change of the entry just inserted is an insertion of the changed entry. -/
theorem tmod_tins {α : Type} (f : α → α) (l : Tbl α) (k : Nat) (v : α) (h : rising l = true) : tmod (tins l k v) k f = tins l k (f v) := by
  induction l with
  | nil => simp [tins, tmod]
  | cons p r ih =>
    obtain ⟨j, a⟩ := p
    rw [rising_iff, List.map_cons, List.pairwise_cons] at h
    obtain ⟨hj, hr⟩ := h
    have above : ∀ q ∈ r, j < q.1 := fun q hq => hj q.1 (List.mem_map_of_mem hq)
    have cons : ∀ (b : Nat × α) (m : Tbl α), tmod (b :: m) k f = (if b.1 = k then (b.1, f b.2) else b) :: tmod m k f := fun _ _ => rfl
    unfold tins
    split
    · rw [cons, cons, tmod_of_not_key f fun q hq => by have := above q hq; omega, if_pos rfl, if_neg (by simp only; omega)]
    · split
      next _ hk =>
        subst hk
        rw [cons, tmod_of_not_key f fun q hq => (above q hq).ne', if_pos rfl]
      next _ hk =>
        rw [cons, if_neg (Ne.symm hk), ih ((rising_iff r).mpr hr)]

end Sys2Proof.Laws
end

