-- ==== Sys2Proof/Proofs/Fetch.lean ====
section
/-! The fetch of the head entry of a queue (R49, R159, R196, R205, R227, R231): its stages, and what they leave together. -/
namespace Sys2Proof.Laws
open Sys2Proof Sys2Proof.Machine

variable {s : State} {e : Sqe}

/-! ### The fetch of a head entry. -/
/-- The queue of an entry. -/
def queueOf (e : Sqe) (s : State) : SubQ := sqAt s (qKey e.port e.sqid)
/-- The entry at the head of its I/O queue may be fetched (R159, R196, R296). -/
structure Fetchable (e : Sqe) (s : State) : Prop where
  io : e.sqid ≠ 0
  port : ioFetch s e.port = true
  used : (queueOf e s).used = true
  thawed : (queueOf e s).frozen = false
  waits : (queueOf e s).head ≠ (queueOf e s).tail
  slice : (queueOf e s).slice = 0 ∨ (sliceAt s (queueOf e s).slice).st = 1
  stays : draining s (cardOf e.port) e.nsid = false

/-- The place after the head of a queue, 0 after the last. -/
def nextHead (q : SubQ) : Nat := if q.head + 1 > q.size then 0 else q.head + 1
/-- A queue whose head has moved; the doorbells that reached no further are done with. -/
def movedTo (head : Nat) (q : SubQ) : SubQ := { q with head := head, bells := q.bells.filter (fun b => b.1 != head) }
/-- The queue of the entry has moved on by one place. -/
def headTaken (e : Sqe) (s : State) : State := updSq (qKey e.port e.sqid) (movedTo (nextHead (queueOf e s))) s
/-- Classes of the entry: placement, service, and the rule that won. -/
def classesOf (e : Sqe) (s : State) : Nat × Svc × Nat := classify (headTaken e s) (cardOf e.port) e (queueOf e s).slice
/-- A slice with one more fetched. -/
def oneMore (x : Slice) : Slice := { x with fetched := x.fetched + 1 }
/-- The fetch is counted for the slice of the queue and for the rule. -/
def counted (e : Sqe) (s : State) : State :=
  updSlice (queueOf e s).slice oneMore (countHit (classesOf e s).2.2 (headTaken e s))
/-- Deadline of the command, where its service is bound and it is admitted, and the state that has charged it. -/
def admitted (e : Sqe) (s : State) : Option Nat × State :=
  if (classesOf e s).2.1 = .bound then admission (cardOf e.port) (queueOf e s).slice e (bellOf (queueOf e s) (now s)) (counted e s) else (none, counted e s)
/-- Service of the command: a bound one without a deadline runs as weighted, and so does a Verify. -/
def serviceOf (e : Sqe) (s : State) : Svc :=
  if kindOf e.opc = .verify then .weighted
  else if (classesOf e s).2.1 = .bound ∧ (admitted e s).1.isNone then .weighted else (classesOf e s).2.1
/-- The command that the fetch makes of the entry. -/
def commandOf (e : Sqe) (s : State) : Cmd :=
  let q := queueOf e s
  let sl := sliceAt s q.slice
  let u := (admitted e s).2
  { e := e, kind := kindOf e.opc, st := .fetched, slice := q.slice, gen := sl.gen.toNat, card := cardOf e.port,
    owner := if (nsAt u e.nsid).used then ownerOfNs u e.nsid else cardOf e.port, cls := (classesOf e s).1,
    svc := serviceOf e s, lba := firstLba e, nlb := blocksOf e, deadline := (admitted e s).1, bell := bellOf q (now s), rang := rangOf q (bellOf q (now s)),
    fetched := u.time.fc, order := u.next, since := now u, prog := (tfind sl.progs (d13 e 7 0)).getD [], desc := tget {} sl.descs (d13 e 7 0),
    policy := sl.policy, cause := if bellOf q (now s) < u.power.awake then 5 else 6,
    status := if (nsAt u e.nsid).deleting.isSome then some invalidNs else none }
/-- The command stands in the table under the next number. -/
def numbered (c : Cmd) (s : State) : State := { s with next := s.next + 1, cmds := tins s.cmds s.next c }

/-- The state in which the command has its number. -/
def entered (e : Sqe) (s : State) : State := numbered (commandOf e s) (admitted e s).2
/-- The command asks for its locks where it is at the card that runs it and nothing holds it there. -/
def locksAsked (e : Sqe) (s : State) : State :=
  if ((commandOf e s).owner = cardOf e.port ∨ !bothServe (entered e s)) ∧ !mustHold (entered e s) (cardOf e.port) e.nsid then
    requestLocks (admitted e s).2.next (entered e s)
  else entered e s

theorem tryFetch_eq (h : Fetchable e s) : tryFetch e s = some ((admitted e s).2.next, locksAsked e s) := by
  obtain ⟨io, port, used, thawed, waits, slice, stays⟩ := h
  have hopen : ¬ (e.sqid = 0 ∨ (!ioFetch s e.port) = true ∨ (!(queueOf e s).used) = true ∨ (queueOf e s).frozen = true ∨
      (queueOf e s).head = (queueOf e s).tail ∨ ((queueOf e s).slice ≠ 0 ∧ (sliceAt s (queueOf e s).slice).st ≠ 1) ∨
      draining s (cardOf e.port) e.nsid = true) := by
    simp only [io, port, used, thawed, waits, stays, Bool.not_true, Bool.false_eq_true, false_or, or_false]
    exact fun ⟨h0, h1⟩ => slice.elim h0 h1
  exact if_neg hopen

theorem asksLocks_locksAsked (e : Sqe) (s : State) : AsksLocks (admitted e s).2.next (entered e s) (locksAsked e s) := by
  unfold locksAsked
  split
  · exact asksLocks_requestLocks _ _
  · exact .refl _ _

/-- Admission charges the slice of the queue alone. -/
theorem charged_admitted (e : Sqe) (s : State) : Charged (queueOf e s).slice (counted e s) (admitted e s).2 := by
  unfold admitted
  split
  · exact charged_admission _ _ _ _
  · exact .refl _

/-- A command runs bound only with a deadline (R205). -/
theorem deadline_of_bound (h : serviceOf e s = .bound) : (admitted e s).1.isSome = true := by
  unfold serviceOf at h
  split at h
  · cases h
  · split at h
    · cases h
    next hnone => exact Option.isSome_iff_ne_none.mpr fun hn => hnone ⟨h, by rw [hn]; rfl⟩

theorem countHit_updates (rule : Nat) (s : State) : ∃ r f, countHit rule s = { s with rules := r, feat := f } := by
  unfold countHit
  split
  · exact ⟨s.rules, _, rfl⟩
  · exact ⟨_, s.feat, rfl⟩
/-- Before its admission a fetch touches its queue, its slice and the hit counters. -/
theorem counted_updates (e : Sqe) (s : State) : ∃ r f, counted e s = { s with
    sqs := tupd {} s.sqs (qKey e.port e.sqid) (movedTo (nextHead (queueOf e s)))
    slices := tupd {} s.slices (queueOf e s).slice oneMore
    rules := r, feat := f } := by
  obtain ⟨r, f, h⟩ := countHit_updates (classesOf e s).2.2 (headTaken e s)
  exact ⟨r, f, by rw [counted, h]; rfl⟩

theorem slices_counted (e : Sqe) (s : State) : (counted e s).slices = tupd {} s.slices (queueOf e s).slice oneMore := by
  obtain ⟨r, f, hcounted⟩ := counted_updates e s
  rw [hcounted]
theorem rising_counted (hs : rising s.slices = true) (e : Sqe) : rising (counted e s).slices = true := by
  rw [slices_counted]
  exact rising_tupd _ _ _ _ hs
theorem sliceAt_counted (hs : rising s.slices = true) (k : Nat) :
    sliceAt (counted e s) k = if k = (queueOf e s).slice then oneMore (sliceAt s (queueOf e s).slice) else sliceAt s k := by
  rw [sliceAt, slices_counted, tget_tupd_rising _ _ _ _ _ hs, sliceAt, sliceAt]
/-- Asking for locks leaves the slices as the admission left them. -/
theorem sliceAt_locksAsked (e : Sqe) (s : State) (k : Nat) : sliceAt (locksAsked e s) k = sliceAt (admitted e s).2 k := by
  obtain ⟨g, a, b, hasks, -⟩ := asksLocks_locksAsked e s
  simp only [sliceAt, hasks, entered, numbered]
theorem time_admitted (e : Sqe) (s : State) : (admitted e s).2.time = s.time := by
  obtain ⟨r, f, hcounted⟩ := counted_updates e s
  exact (congrArg State.time (charged_admitted e s).rest :).trans (by rw [hcounted])

/-! ### What it leaves. -/
/-- What a fetch of entry e leaves: its queue has moved on, its slice has one more fetched, and command c is entered. -/
structure Fetched (e : Sqe) (c : Cmd) (s t : State) : Prop where
  rest : { t with sqs := s.sqs, slices := s.slices, rules := s.rules, feat := s.feat, stats := s.stats, cmds := s.cmds, next := s.next, spA := s.spA, spB := s.spB } = s
  queue : sqAt t (qKey e.port e.sqid) = movedTo (nextHead (queueOf e s)) (queueOf e s)
  queues : ∀ k, k ≠ qKey e.port e.sqid → sqAt t k = sqAt s k
  cmds : t.cmds = tins s.cmds s.next c
  command : { c with locks := (commandOf e s).locks, since := (commandOf e s).since } = commandOf e s
  fetched : (sliceAt t (queueOf e s).slice).fetched = (sliceAt s (queueOf e s).slice).fetched + 1
  slices : ∀ k, k ≠ (queueOf e s).slice → sliceAt t k = sliceAt s k

theorem fetched_locksAsked (hc : rising s.cmds = true) (hs : rising s.slices = true) (hq : rising s.sqs = true) (e : Sqe) : ∃ c, Fetched e c s (locksAsked e s) := by
  obtain ⟨r, f, hcounted⟩ := counted_updates e s
  obtain ⟨hrest, -, hfetched, hothers⟩ := charged_admitted e s
  obtain ⟨g, a, b, hasks, hg⟩ := asksLocks_locksAsked e s
  have hu : (admitted e s).2 = { counted e s with slices := (admitted e s).2.slices, stats := (admitted e s).2.stats } :=
    congrArg (fun x : State => { x with slices := (admitted e s).2.slices, stats := (admitted e s).2.stats }) hrest
  have hnext : (admitted e s).2.next = s.next := by rw [hu, hcounted]
  have hcmds : (admitted e s).2.cmds = s.cmds := by rw [hu, hcounted]
  have hqueue : ∀ k, sqAt (locksAsked e s) k = if k = qKey e.port e.sqid then movedTo (nextHead (queueOf e s)) (queueOf e s) else sqAt s k := fun k => by
    rw [sqAt, hasks, entered, numbered, hu, hcounted]
    exact tget_tupd_rising _ _ _ _ _ hq
  refine ⟨g (commandOf e s), ?_, (hqueue _).trans (if_pos rfl), fun k hk => (hqueue k).trans (if_neg hk), ?_, hg _, ?_, fun k hk => ?_⟩
  · rw [hasks, entered, numbered, hu, hcounted]
  · rw [hasks, entered, numbered, hnext, hcmds]
    exact tmod_tins g s.cmds s.next _ hc
  · rw [sliceAt_locksAsked, hfetched (rising_counted hs e), sliceAt_counted hs, if_pos rfl, oneMore]
  · rw [sliceAt_locksAsked, hothers k hk, sliceAt_counted hs, if_neg hk]

theorem rising_of_canonical (h : s.canonical = true) : rising s.cmds = true ∧ rising s.slices = true ∧ rising s.sqs = true := by
  simp only [State.canonical, Bool.and_eq_true] at h
  simp only [h, and_self]

/-! ### COMMAND_FETCH. -/
/-- An entry that does not become the default reads back, in a table of any form. -/
theorem tget_tupd_of_ne {α : Type} [DecidableEq α] (d : α) (l : Tbl α) (k : Nat) (g : α → α) (h : g (tget d l k) ≠ d) :
    tget d (tupd d l k g) k = g (tget d l k) := by
  rw [tupd, tput, if_neg h, tget_tins_same]

theorem commandFetch_io (h : Fetchable e s) : exec (.commandFetch e) s = .next (locksAsked e (atCount e.cnt s)) := by
  have hcount : Fetchable e (atCount e.cnt s) := by
    obtain ⟨io, port, used, thawed, waits, slice, stays⟩ := h
    exact ⟨io, port, used, thawed, waits, slice, stays⟩
  show execCommandFetch e s = _
  rw [execCommandFetch, if_neg h.io, tryFetch_eq hcount]
theorem commandFetch_admin (h : e.sqid = 0) :
    exec (.commandFetch e) s = .next (updSlice 0 oneMore (atCount e.cnt s)) := if_pos h

/-- Settles O24: the fetch is cut into the move of the queue, the count for the slice, the admission and the request for locks, and each says
what it touches. -/
theorem fetchTakesTheHeadEntry : Obligations.FetchTakesTheHeadEntry := by
  refine ⟨fun e s hio hc hport hused hthawed hwaits hslice hstays => ?_, fun e s h0 => ?_⟩
  · obtain ⟨hcmds, hslices, hsqs⟩ := rising_of_canonical hc
    obtain ⟨c, hrest, hqueue, hqueues, htable, hcommand, hfetched, hothers⟩ := fetched_locksAsked (s := atCount e.cnt s) hcmds hslices hsqs e
    have hof : c.slice = (sqAt s (qKey e.port e.sqid)).slice := (congrArg Cmd.slice hcommand :)
    refine ⟨_, c, commandFetch_io ⟨hio, hport, hused, hthawed, hwaits, hslice, hstays⟩, htable, (congrArg Cmd.e hcommand :), (congrArg Cmd.st hcommand :), hof,
      ?gen, (congrArg Cmd.card hcommand :), ?fetched, ?bound, (congrArg SubQ.head hqueue :), (congrArg SubQ.tail hqueue :),
      hof ▸ hfetched, hof ▸ hothers, hqueues, congrArg (fun x : State => { x with time := s.time }) hrest⟩
    case gen => exact hof ▸ (congrArg Cmd.gen hcommand :)
    case fetched => exact (congrArg Cmd.fetched hcommand :).trans (congrArg TimeSt.fc (time_admitted e (atCount e.cnt s)) :)
    case bound =>
      intro hbound
      exact (congrArg (fun x : Cmd => x.deadline.isSome) hcommand :).trans (deadline_of_bound ((congrArg Cmd.svc hcommand :).symm.trans hbound))
  · refine ⟨_, commandFetch_admin h0, ?_, fun k hk => tget_tput_ne _ _ _ _ _ hk, rfl⟩
    have hne : oneMore (sliceAt s 0) ≠ {} := fun h => Nat.succ_ne_zero _ (congrArg Slice.fetched h)
    exact congrArg Slice.fetched (tget_tupd_of_ne ({} : Slice) s.slices 0 oneMore hne)

end Sys2Proof.Laws
end

