-- ==== Sys2Proof/Proofs/FrameCounterexamples.lean ====
section
/-! PROOFS. O11, O34, O35 and O37 fail. The first lacks the premise that the command does not ask for its value to be saved, which R466 refuses.
The others lack the premise that the tables are in canonical form: on a table that lists a key twice, a write of the default entry deletes the
first of the two and brings the second to light. -/
namespace Sys2Proof.Laws
open Sys2Proof Sys2Proof.Machine

/-! ### Frame Parameters with the Save bit. -/
/-- A running module whose port H0 is linked and enabled. -/
def portEnabled : State := { State.reset with c0 := { State.reset.c0 with link := true, rdy := true } }
/-- Frame Parameters with the least values of R56, and the Save bit of CDW10 set. -/
def savedFrameParams : Sqe := { opc := 0x09, cid := 7, dlen := 32, cdw10 := 0x800000C0, data := zeros 12 ++ [2, 0] ++ le 2 1000 ++ le 4 4000 }

/-- Frame Parameters is not saveable: no value waits for the next frame boundary, and the command ends with Feature Identifier Not Saveable
(R466). -/
theorem savedFrameParams_refused :
    shows (fun t => (t.featNext.isSome, t.events.changeQ.map fun x => x.2.map fun q => (q.sct, q.sc)))
      (exec (.setFeaturesFrameParameters savedFrameParams) portEnabled) = some (false, [some notSaveable]) := by decide +kernel

/-- Refutes O11: its clause on Frame Parameters, which is to leave the new values waiting and to complete with success, has no premise on the
Save bit, with which the command is refused by R466. -/
theorem not_vendorFeaturesApplyNextFrame : ¬ Obligations.VendorFeaturesApplyNextFrame := by
  rintro ⟨⟨hsettings, -⟩, -⟩
  obtain ⟨t, ht, -, hnext, -⟩ := hsettings _ List.mem_cons_self portEnabled savedFrameParams (by decide +kernel) (by decide) (by decide +kernel)
  have hnone : t.featNext.isSome = false := congrArg Prod.fst (eq_of_shows ht savedFrameParams_refused)
  rw [hnext] at hnone
  exact absurd hnone (by simp)

/-! ### Commands on a die that its table lists twice. -/
/-- A running module that lists die 0 twice. -/
def dieListedTwice (x y : Die) : State := { State.reset with dies := [(0, x), (0, y)] }

/-- A plane read of a piece, on its way to the decoder, with one codeword. -/
def movedRead : Req := { st := .moved, mask := 1, piece := some 0 }
/-- Die 0 is one codeword short of the wrap of its count, in its first entry. -/
def decodeWraps : State := { dieListedTwice { codewords := 2 ^ 32 - 1 } { codewords := 5 } with reqs := [(3, movedRead)], next := 4 }

/-- The decode wraps the count to 0, which makes the entry the default, and the second one shows. -/
theorem decode_shows_second_entry :
    shows (fun t => (dieAt t 0).codewords) (exec (.decodeResult 3 .hard 0 0 0) decodeWraps) = some 5 := by decide +kernel

/-- Refutes O34: the clause on a decoded page, by which the codewords of its die count on modulo 2^32, has no premise that the die table is
canonical. -/
theorem not_mediaReadsAdvance : ¬ Obligations.MediaReadsAdvance := by
  rintro ⟨-, -, -, -, -, -, -, hdecoded⟩
  obtain ⟨hwithin, -⟩ := hdecoded 3 0 0 0 movedRead decodeWraps rfl (by decide) rfl (by decide) rfl (by decide) ⟨nofun, nofun⟩
  obtain ⟨t, ht, -, -, -, hdie, -⟩ := hwithin (Nat.zero_le _)
  have hshown : (dieAt t 0).codewords = 5 := eq_of_shows ht decode_shows_second_entry
  rw [show dieAt t 0 = _ from hdie] at hshown
  exact absurd hshown (by decide)

/-- Die 0 has failed one attempt at a training, in its first entry. -/
def trainingFailed : State := dieListedTwice { trainFails := 1 } { trainFails := 2 }

/-- The training clears the count, which makes the entry the default, and the second one shows. -/
theorem trainingEnd_shows_second_entry :
    shows (fun t => (dieAt t 0).trainFails) (exec (.channelTrainingEnd 0 [] 0 0) trainingFailed) = some 2 := by decide +kernel

/-- Refutes O35: the clause on the end of a training, which is to clear the counts of the channel's dies, has no premise that the die table is
canonical. -/
theorem not_erasesChannelsAndUpkeep : ¬ Obligations.ErasesChannelsAndUpkeep := by
  rintro ⟨-, -, -, htraining, -⟩
  obtain ⟨t, ht, -, -, hcleared, -⟩ := htraining 0 0 0 trainingFailed nofun
  have hshown : (dieAt t 0).trainFails = 2 := eq_of_shows ht trainingEnd_shows_second_entry
  exact absurd (hshown.symm.trans (hcleared 0 (by decide))) (by decide)

/-- Padding of the last row of a member, all its segments run. -/
def lastPadding : LongOp := { kind := .pad, segs := 20, chunk := 1023 }
/-- Both entries of die 0 hold this operation. -/
def paddingRuns : State := dieListedTwice { op := some lastPadding } { op := some lastPadding }

/-- The end of the operation makes the first entry the default, and the second one shows. -/
theorem paddingDone_shows_second_entry :
    shows (fun t => (dieAt t 0).op) (exec (.qlcProgramDone { die := 0, pass := true }) paddingRuns) = some (some lastPadding) := by decide +kernel

/-- Refutes O37: the clause on a finished program of padding, which is to leave its die without an operation, has no premise that the die table is
canonical. -/
theorem not_seedbedFoldsIntoStripes : ¬ Obligations.SeedbedFoldsIntoStripes := by
  rintro ⟨-, -, -, -, hprogrammed, -⟩
  obtain ⟨-, -, hpadding⟩ := hprogrammed 0 lastPadding paddingRuns rfl (by decide) (by decide)
  obtain ⟨t, ht, hended, -⟩ := hpadding rfl
  have hshown : (dieAt t 0).op = some lastPadding := eq_of_shows ht paddingDone_shows_second_entry
  exact absurd (hshown.symm.trans hended) (by decide)

end Sys2Proof.Laws
end

