-- ==== Sys2Proof/Proofs/Canon.lean ====
section
/-! PROOFS. O60, its vocabulary: what a canonical state is, table by table, and how choices, runs over a list and single writes keep it. In the
files that follow a proof `h.f.g` reads as the definition does: its state comes from the one of `h` by f and then by g, each with its lemma. -/
namespace Sys2Proof.Laws
open Sys2Proof Sys2Proof.Machine

variable {s t : State} {α β : Type}

/-! ### Tables whose keys rise. -/
/-- A part of a table whose entries may change, but not their keys. -/
theorem rising_filterMap {f : Nat × α → Option (Nat × β)} (l : Tbl α) (hf : ∀ p q, f p = some q → q.1 = p.1) (h : rising l = true) :
    rising (l.filterMap f) = true := by
  rw [rising_iff, List.pairwise_map] at h ⊢
  refine List.pairwise_filterMap.2 (h.imp fun {p r} hpr q hq v hv => ?_)
  rw [hf p q hq, hf r v hv]
  exact hpr
/-- A table whose entries may change, but not their keys. -/
theorem rising_entries {f : Nat × α → Nat × β} (l : Tbl α) (hf : ∀ p, (f p).1 = p.1) (h : rising l = true) : rising (l.map f) = true := by
  rw [rising_iff] at h ⊢
  rwa [List.map_map, show Prod.fst ∘ f = Prod.fst from funext hf]
/-- A table with new values under its keys. -/
theorem rising_values {g : Nat × α → β} (l : Tbl α) (h : rising l = true) : rising (l.map fun p => (p.1, g p)) = true :=
  rising_entries l (fun _ => rfl) h
theorem rising_range (n : Nat) (f : Nat → α) : rising ((List.range n).map fun c => (c, f c)) = true := by
  rw [rising_iff, List.map_map]
  simpa [Function.comp_def] using List.pairwise_lt_range

theorem rising_ite {p : Prop} {_ : Decidable p} {t u : Tbl α} (ht : rising t = true) (hu : rising u = true) : rising (if p then t else u) = true := by
  split
  · exact ht
  · exact hu
theorem rising_writeRules {first : Nat} {l : List (List Byte)} {q : Tbl Rule} (h : rising q = true) : rising (writeRules first l q) = true :=
  List.foldlRecOn (motive := fun q => rising q = true) l.zipIdx _ h fun _ hq _ _ => by
    dsimp only
    split
    · exact rising_tins _ _ _ hq
    · exact rising_tdel _ _ hq
/-- Every table of the state is in its canonical form: `State.canonical`, table by table. -/
structure Canon (s : State) : Prop where
  fronds : rising s.fronds = true
  chans : rising s.chans = true
  dies : rising s.dies = true
  blks : rising s.blks = true
  reqs : rising s.reqs = true
  progs : rising s.progs = true
  cws : rising s.cws = true
  chunks : rising s.chunks = true
  stripes : rising s.stripes = true
  accums : rising s.accums = true
  nss : rising s.nss = true
  zones : rising s.zones = true
  map : rising s.map = true
  pages : rising s.pages = true
  sqs : rising s.sqs = true
  cqs : rising s.cqs = true
  cmds : rising s.cmds = true
  pieces : rising s.pieces = true
  slices : rising s.slices = true
  rules : rising s.rules = true
  qps : rising s.qps = true
  engines : rising s.engines = true
  work : rising s.metas.work = true
  places : rising s.metas.places = true

theorem canon_iff : Canon s ↔ s.canonical = true := by
  simp only [State.canonical, Bool.and_eq_true]
  exact ⟨fun ⟨a, b, c, d, e, f, g, h, i, j, k, l, m, n, o, p, q, r, t, u, v, w, x, y⟩ => by
    exact ⟨⟨⟨⟨⟨⟨⟨⟨⟨⟨⟨⟨⟨⟨⟨⟨⟨⟨⟨⟨⟨⟨⟨a, b⟩, c⟩, d⟩, e⟩, f⟩, g⟩, h⟩, i⟩, j⟩, k⟩, l⟩, m⟩, n⟩, o⟩, p⟩, q⟩, r⟩, t⟩, u⟩, v⟩, w⟩, x⟩, y⟩,
    fun h => by constructor <;> simp only [h]⟩

/-! ### Choices, runs over a list, and parts of an outcome. -/
theorem Canon.ite {p : Prop} {_ : Decidable p} (hs : Canon s) (ht : Canon t) : Canon (if p then s else t) := by
  split
  · exact hs
  · exact ht
theorem Canon.foldl {f : State → α → State} {l : List α} (h : Canon s) (hf : ∀ {t a}, Canon t → Canon (f t a)) : Canon (l.foldl f s) :=
  List.foldlRecOn l f h fun _ ht _ _ => hf ht
theorem Canon.foldr {f : α → State → State} {l : List α} (h : Canon s) (hf : ∀ {t a}, Canon t → Canon (f a t)) : Canon (l.foldr f s) :=
  List.foldrRecOn l f h fun _ ht _ _ => hf ht
theorem Canon.inSnd {a : α} (h : Canon s) : Canon (a, s).2 := h
theorem Canon.inSndSnd {a : α} {b : β} (h : Canon s) : Canon (a, b, s).2.2 := h
theorem Canon.inFst {a : α} (h : Canon s) : Canon (s, a).1 := h
theorem Canon.foldl_snd {f : α × State → β → α × State} {l : List β} {a : α} (h : Canon s) (hf : ∀ {p b}, Canon p.2 → Canon (f p b).2) :
    Canon (l.foldl f (a, s)).2 := List.foldlRecOn (motive := fun p => Canon p.2) l f h fun _ ht _ _ => hf ht
theorem Canon.of_snd {p : α × State} {a : α} (hp : Canon p.2) (e : p = (a, t)) : Canon t := by rwa [e] at hp
theorem Canon.of_snd_snd {p : α × β × State} {a : α} {b : β} (hp : Canon p.2.2) (e : p = (a, b, t)) : Canon t := by rwa [e] at hp
theorem Canon.of_fst {p : State × α} {a : α} (hp : Canon p.1) (e : p = (t, a)) : Canon t := by rwa [e] at hp

theorem Canon.ite_snd {p : Prop} {_ : Decidable p} {a b : α} (hs : Canon s) (ht : Canon t) : Canon (if p then (a, s) else (b, t)).2 := by
  split
  · exact hs
  · exact ht
theorem Canon.ite_snd_snd {p : Prop} {_ : Decidable p} {a c : α} {b d : β} (hs : Canon s) (ht : Canon t) :
    Canon (if p then (a, b, s) else (c, d, t)).2.2 := by
  split
  · exact hs
  · exact ht
theorem Canon.ite_fst {p : Prop} {_ : Decidable p} {a b : α} (hs : Canon s) (ht : Canon t) : Canon (if p then (s, a) else (t, b)).1 := by
  split
  · exact hs
  · exact ht
/-- One operation after another: what the first leaves is named once. -/
theorem Canon.via (h : Canon s) (ht : Canon s → Canon t) : Canon t := ht h
/-- Both branches go on from one state. -/
theorem Canon.branch {p : Prop} {_ : Decidable p} {u : State} (h : Canon u) (hs : Canon u → Canon s) (ht : Canon u → Canon t) : Canon
    (if p then s else t) :=
  .ite (hs h) (ht h)
/-- One branch goes on from the state that the other one leaves as it is. -/
theorem Canon.when {p : Prop} {_ : Decidable p} (h : Canon s) (ht : Canon s → Canon t) : Canon (if p then t else s) := .ite (ht h) h
theorem Canon.whenNot {p : Prop} {_ : Decidable p} (h : Canon s) (ht : Canon s → Canon t) : Canon (if p then s else t) := .ite h (ht h)

/-- The state, where there is one, is canonical. -/
def CanonOpt (o : Option State) : Prop := ∀ t, o = some t → Canon t
theorem CanonOpt.of_some {o : Option State} (h : CanonOpt o) (e : o = some t) : Canon t := h t e
theorem CanonOpt.none : CanonOpt none := fun _ e => absurd e.symm (Option.some_ne_none _)
theorem Canon.opt (h : Canon s) : CanonOpt (Option.some s) := fun _ e => by cases e; exact h
theorem CanonOpt.ite {p : Prop} {_ : Decidable p} {a b : Option State} (ha : CanonOpt a) (hb : CanonOpt b) : CanonOpt (if p then a else b) := by
  split
  · exact ha
  · exact hb
theorem CanonOpt.getD {o : Option State} (ho : CanonOpt o) (h : Canon s) : Canon (o.getD s) := by
  cases o with
  | none => exact h
  | some t => exact ho t rfl
theorem CanonOpt.map {f : α → State} {o : Option α} (hf : ∀ {a}, Canon (f a)) : CanonOpt (o.map f) := fun _ e => by
  obtain ⟨_, -, rfl⟩ := Option.map_eq_some_iff.1 e
  exact hf
theorem CanonOpt.opt_map {f : State → State} {o : Option State} (ho : CanonOpt o) (hf : ∀ {t}, Canon t → Canon (f t)) : CanonOpt (o.map f) :=
    fun _ e => by
  obtain ⟨t, ht, rfl⟩ := Option.map_eq_some_iff.1 e
  exact hf (ho t ht)
theorem CanonOpt.bind {f : State → Option State} {o : Option State} (ho : CanonOpt o) (hf : ∀ {t}, Canon t → CanonOpt (f t)) : CanonOpt (o.bind f) :=
  fun u e => by
    obtain ⟨t, ht, hu⟩ := Option.bind_eq_some_iff.1 e
    exact hf (ho t ht) u hu

/-- The outcome is no next state, or a canonical one. -/
def CanonOut (o : Out) : Prop := ∀ t, o = .next t → Canon t
theorem Canon.next (h : Canon s) : CanonOut (.next s) := fun _ e => by cases e; exact h
theorem CanonOut.ite {p : Prop} {_ : Decidable p} {a b : Out} (ha : CanonOut a) (hb : CanonOut b) : CanonOut (if p then a else b) := by
  split
  · exact ha
  · exact hb
theorem CanonOut.of_next {o : Out} (h : CanonOut o) (e : o = .next t) : Canon t := h t e
theorem Canon.branch_out {p : Prop} {_ : Decidable p} {a b : Out} (h : Canon s) (ha : Canon s → CanonOut a) (hb : Canon s → CanonOut b) :
    CanonOut (if p then a else b) := .ite (ha h) (hb h)

/-! ### One table replaced. -/
theorem Canon.setFronds {v : Tbl FrondSt} (h : Canon s) (hv : rising s.fronds = true → rising v = true) : Canon { s with fronds := v } :=
  { h with fronds := hv h.fronds }
theorem Canon.setChans {v : Tbl Chan} (h : Canon s) (hv : rising s.chans = true → rising v = true) : Canon { s with chans := v } :=
  { h with chans := hv h.chans }
theorem Canon.setDies {v : Tbl Die} (h : Canon s) (hv : rising s.dies = true → rising v = true) : Canon { s with dies := v } :=
  { h with dies := hv h.dies }
theorem Canon.setBlks {v : Tbl Blk} (h : Canon s) (hv : rising s.blks = true → rising v = true) : Canon { s with blks := v } :=
  { h with blks := hv h.blks }
theorem Canon.setReqs {v : Tbl Req} (h : Canon s) (hv : rising s.reqs = true → rising v = true) : Canon { s with reqs := v } :=
  { h with reqs := hv h.reqs }
theorem Canon.setProgs {v : Tbl Prog} (h : Canon s) (hv : rising s.progs = true → rising v = true) : Canon { s with progs := v } :=
  { h with progs := hv h.progs }
theorem Canon.setCws {v : Tbl Cw} (h : Canon s) (hv : rising s.cws = true → rising v = true) : Canon { s with cws := v } :=
  { h with cws := hv h.cws }
theorem Canon.setChunks {v : Tbl Chunk} (h : Canon s) (hv : rising s.chunks = true → rising v = true) : Canon { s with chunks := v } :=
  { h with chunks := hv h.chunks }
theorem Canon.setStripes {v : Tbl Stripe} (h : Canon s) (hv : rising s.stripes = true → rising v = true) : Canon { s with stripes := v } :=
  { h with stripes := hv h.stripes }
theorem Canon.setAccums {v : Tbl Accum} (h : Canon s) (hv : rising s.accums = true → rising v = true) : Canon { s with accums := v } :=
  { h with accums := hv h.accums }
theorem Canon.setNss {v : Tbl Ns} (h : Canon s) (hv : rising s.nss = true → rising v = true) : Canon { s with nss := v } :=
  { h with nss := hv h.nss }
theorem Canon.setZones {v : Tbl Zone} (h : Canon s) (hv : rising s.zones = true → rising v = true) : Canon { s with zones := v } :=
  { h with zones := hv h.zones }
theorem Canon.setMap {v : Tbl (Option (Nat × Nat))} (h : Canon s) (hv : rising s.map = true → rising v = true) : Canon { s with map := v } :=
  { h with map := hv h.map }
theorem Canon.setPages {v : Tbl MapPage} (h : Canon s) (hv : rising s.pages = true → rising v = true) : Canon { s with pages := v } :=
  { h with pages := hv h.pages }
theorem Canon.setSqs {v : Tbl SubQ} (h : Canon s) (hv : rising s.sqs = true → rising v = true) : Canon { s with sqs := v } :=
  { h with sqs := hv h.sqs }
theorem Canon.setCqs {v : Tbl ComQ} (h : Canon s) (hv : rising s.cqs = true → rising v = true) : Canon { s with cqs := v } :=
  { h with cqs := hv h.cqs }
theorem Canon.setCmds {v : Tbl Cmd} (h : Canon s) (hv : rising s.cmds = true → rising v = true) : Canon { s with cmds := v } :=
  { h with cmds := hv h.cmds }
theorem Canon.setPieces {v : Tbl Piece} (h : Canon s) (hv : rising s.pieces = true → rising v = true) : Canon { s with pieces := v } :=
  { h with pieces := hv h.pieces }
theorem Canon.setSlices {v : Tbl Slice} (h : Canon s) (hv : rising s.slices = true → rising v = true) : Canon { s with slices := v } :=
  { h with slices := hv h.slices }
theorem Canon.setRules {v : Tbl Rule} (h : Canon s) (hv : rising s.rules = true → rising v = true) : Canon { s with rules := v } :=
  { h with rules := hv h.rules }
theorem Canon.setQps {v : Tbl Qp} (h : Canon s) (hv : rising s.qps = true → rising v = true) : Canon { s with qps := v } :=
  { h with qps := hv h.qps }
theorem Canon.setEngines {v : Tbl Engine} (h : Canon s) (hv : rising s.engines = true → rising v = true) : Canon { s with engines := v } :=
  { h with engines := hv h.engines }

end Sys2Proof.Laws
end

