-- ==== Sys2Proof/Proofs/CanonState.lean ====
section
/-! PROOFS. O60: the operations on registers, tables, commands and stripes keep the tables canonical. One lemma for each
operation of the model, in the order of the model. -/
namespace Sys2Proof.Laws
open Sys2Proof Sys2Proof.Machine

variable {s t : State}

/-! ### Ops -/
theorem Canon.updFrond {f : Nat} {g : FrondSt → FrondSt} (h : Canon s) : Canon (updFrond f g s) :=
  h.setFronds (rising_tupd _ _ _ _)
theorem Canon.updDie {d : Nat} {g : Die → Die} (h : Canon s) : Canon (updDie d g s) :=
  h.setDies (rising_tupd _ _ _ _)
theorem Canon.updChan {c : Nat} {g : Chan → Chan} (h : Canon s) : Canon (updChan c g s) :=
  h.setChans (rising_tupd _ _ _ _)
theorem Canon.updBlk {k : Nat} {g : Blk → Blk} (h : Canon s) : Canon (updBlk k g s) :=
  h.setBlks (rising_tupd _ _ _ _)
theorem Canon.updReq {n : Nat} {g : Req → Req} (h : Canon s) : Canon (updReq n g s) :=
  h.setReqs (rising_tmod _ _ _).trans
theorem Canon.updCw {k : Nat} {g : Cw → Cw} (h : Canon s) : Canon (updCw k g s) :=
  h.setCws (rising_tmod _ _ _).trans
theorem Canon.updChunk {k : Nat} {g : Chunk → Chunk} (h : Canon s) : Canon (updChunk k g s) :=
  h.setChunks (rising_tupd _ _ _ _)
theorem Canon.updStripe {k : Nat} {g : Stripe → Stripe} (h : Canon s) : Canon (updStripe k g s) :=
  h.setStripes (rising_tupd _ _ _ _)
theorem Canon.updAccum {k : Nat} {g : Accum → Accum} (h : Canon s) : Canon (updAccum k g s) :=
  h.setAccums (rising_tupd _ _ _ _)
theorem Canon.updNs {k : Nat} {g : Ns → Ns} (h : Canon s) : Canon (updNs k g s) :=
  h.setNss (rising_tupd _ _ _ _)
theorem Canon.updZone {k : Nat} {g : Zone → Zone} (h : Canon s) : Canon (updZone k g s) :=
  h.setZones (rising_tupd _ _ _ _)
theorem Canon.updCmd {k : Nat} {g : Cmd → Cmd} (h : Canon s) : Canon (updCmd k g s) :=
  h.setCmds (rising_tmod _ _ _).trans
theorem Canon.updPiece {k : Nat} {g : Piece → Piece} (h : Canon s) : Canon (updPiece k g s) :=
  h.setPieces (rising_tmod _ _ _).trans
theorem Canon.updSlice {k : Nat} {g : Slice → Slice} (h : Canon s) : Canon (updSlice k g s) :=
  h.setSlices (rising_tupd _ _ _ _)
theorem Canon.updSq {k : Nat} {g : SubQ → SubQ} (h : Canon s) : Canon (updSq k g s) :=
  h.setSqs (rising_tupd _ _ _ _)
theorem Canon.updCq {k : Nat} {g : ComQ → ComQ} (h : Canon s) : Canon (updCq k g s) :=
  h.setCqs (rising_tupd _ _ _ _)
theorem Canon.updQp {k : Nat} {g : Qp → Qp} (h : Canon s) : Canon (updQp k g s) :=
  h.setQps (rising_tupd _ _ _ _)
theorem Canon.updEng {k : Nat} {g : Engine → Engine} (h : Canon s) : Canon (updEng k g s) :=
  h.setEngines (rising_tupd _ _ _ _)
theorem Canon.updCtrl {p : Port} {g : Ctrl → Ctrl} (h : Canon s) : Canon (updCtrl p g s) := by
  dsimp only [Machine.updCtrl]
  split <;> exact { h with }
theorem Canon.updCard {c : CardId} {g : Card → Card} (h : Canon s) : Canon (updCard c g s) := by
  dsimp only [Machine.updCard]
  split <;> exact { h with }
theorem Canon.updMem {c : CardId} {g : CardMem → CardMem} (h : Canon s) : Canon (updMem c g s) := by
  dsimp only [Machine.updMem]
  split <;> exact { h with }
theorem Canon.updJ {c : CardId} {g : Journal → Journal} (h : Canon s) : Canon (updJ c g s) := by
  dsimp only [Machine.updJ]
  split <;> exact { h with }
theorem Canon.updSp {c : CardId} {g : Spikelet → Spikelet} (h : Canon s) : Canon (updSp c g s) := by
  dsimp only [Machine.updSp]
  split <;> exact { h with }
theorem Canon.updBulk {c : CardId} {g : BulkPort → BulkPort} (h : Canon s) : Canon (updBulk c g s) := by
  dsimp only [Machine.updBulk]
  split <;> exact { h with }
theorem Canon.updSe {c : CardId} {g : List SeWork → List SeWork} (h : Canon s) : Canon (updSe c g s) := by
  dsimp only [Machine.updSe]
  split <;> exact { h with }
theorem Canon.updPeu {p : PeuId} {g : Peu → Peu} (h : Canon s) : Canon (updPeu p g s) := by
  dsimp only [Machine.updPeu]
  split <;> exact { h with }
theorem Canon.updRec {c : CardId} {g : Recorder → Recorder} (h : Canon s) : Canon (updRec c g s) := by
  dsimp only [Machine.updRec]
  split <;> exact { h with }
theorem Canon.updCulm {p : CulmPort} {g : Culm → Culm} (h : Canon s) : Canon (updCulm p g s) := by
  dsimp only [Machine.updCulm]
  split <;> exact { h with }
theorem Canon.updFuse {k : Nat} {g : Fuse → Fuse} (h : Canon s) : Canon (updFuse k g s) :=
  { h with }
theorem Canon.updTime {g : TimeSt → TimeSt} (h : Canon s) : Canon (updTime g s) :=
  { h with }
theorem Canon.setMaster {c : CardId} (h : Canon s) : Canon (setMaster c s) :=
  h.updTime.foldl fun h => h.updFrond
theorem Canon.updStats {g : Stats → Stats} (h : Canon s) : Canon (updStats g s) :=
  { h with }
theorem Canon.updPower {g : Power → Power} (h : Canon s) : Canon (updPower g s) :=
  { h with }
theorem Canon.updSheaf {g : Sheaf → Sheaf} (h : Canon s) : Canon (updSheaf g s) :=
  { h with }
theorem Canon.updSec {g : Security → Security} (h : Canon s) : Canon (updSec g s) :=
  { h with }
theorem Canon.updEvents {g : Events → Events} (h : Canon s) : Canon (updEvents g s) :=
  { h with }
theorem Canon.updRebuild {g : Rebuild → Rebuild} (h : Canon s) : Canon (updRebuild g s) :=
  { h with }
theorem Canon.updSeedbed {g : Seedbed → Seedbed} (h : Canon s) : Canon (updSeedbed g s) :=
  { h with }
theorem Canon.updMetas {g : Metas → Metas} (h : Canon s) (hw : rising s.metas.work = true → rising (g s.metas).work = true)
    (hp : rising s.metas.places = true → rising (g s.metas).places = true) : Canon (updMetas g s) :=
  { h with work := hw h.work, places := hp h.places }
theorem Canon.updWork {n : Nat} {g : MetaWork → MetaWork} (h : Canon s) : Canon (updWork n g s) := by
  dsimp only [Machine.updWork]
  refine h.updMetas ?_ id
  dsimp only
  exact (rising_tmod _ _ _).trans
theorem Canon.updPair {g : PairSt → PairSt} (h : Canon s) : Canon (updPair g s) :=
  { h with }
theorem Canon.updFeat {g : Features → Features} (h : Canon s) : Canon (updFeat g s) :=
  { h with }
theorem Canon.send {t : Tx} (h : Canon s) : Canon (send t s) :=
  { h with }
theorem Canon.atCount {n : Nat} (h : Canon s) : Canon (atCount n s) :=
  h.updTime
theorem Canon.fresh (h : Canon s) : Canon (fresh s).2 :=
  Canon.inSnd { h with }
theorem Canon.draw (h : Canon s) : Canon (draw s).2 :=
  Canon.inSnd { h with }
theorem Canon.drawKey (h : Canon s) : Canon (drawKey s).2 :=
  Canon.inSnd { h with }
theorem Canon.intake {r : EventRec} (h : Canon s) : Canon (intake r s) :=
  h.updEvents
theorem Canon.event {code cls source ob a0 a1 a2 : Nat} (h : Canon s) : Canon (event code cls source ob a0 a1 a2 s) :=
  h.intake
theorem Canon.marker {code data : Nat} (h : Canon s) : Canon (marker code data s) :=
  h.updEvents
theorem Canon.aenDeliver {p : Port} (h : Canon s) : Canon (aenDeliver p s) := by
  dsimp only [Machine.aenDeliver]
  split
  · exact Canon.send { h.updEvents.updCtrl with }
  · exact h
theorem Canon.aenPort {p : Port} {ty info page : Nat} (h : Canon s) : Canon (aenPort p ty info page s) :=
  h.updEvents.aenDeliver
theorem Canon.aenBoth {ty info page : Nat} (h : Canon s) : Canon (aenBoth ty info page s) :=
  h.aenPort.aenPort
theorem Canon.aenPage {page : Nat} (h : Canon s) : Canon (aenPage page s) :=
  Canon.ite h h.updEvents.aenBoth
theorem Canon.aenArm {page : Nat} (h : Canon s) : Canon (aenArm page s) :=
  h.updEvents
theorem Canon.cqAdvance {q : Cqe} (h : Canon s) : Canon (cqAdvance q s) :=
  Canon.ite h (Canon.ite (h.updCq.when fun h => h.send) h)
theorem Canon.post {q : Cqe} {lba nsid : Nat} (h : Canon s) : Canon (post q lba nsid s) :=
  Canon.ite h (Canon.ite (Canon.cqAdvance { h with }) (Canon.cqAdvance { h.updCtrl.whenNot fun h => h.updSq with }))
theorem Canon.finish {e : Sqe} {sct sc dw0 dw1 : Nat} {data : List Byte} (h : Canon s) : Canon (finish e sct sc dw0 dw1 data s) :=
  h.post
theorem Canon.ok {e : Sqe} (h : Canon s) : Canon (ok e s) :=
  h.finish
theorem Canon.okDw {e : Sqe} {dw0 : Nat} (h : Canon s) : Canon (okDw e dw0 s) :=
  h.finish
theorem Canon.okData {e : Sqe} {d : List Byte} (h : Canon s) : Canon (okData e d s) :=
  h.finish
theorem Canon.fail {e : Sqe} {sct sc : Nat} (h : Canon s) : Canon (fail e sct sc s) :=
  h.finish
theorem Canon.failDw {e : Sqe} {sct sc dw0 dw1 : Nat} (h : Canon s) : Canon (failDw e sct sc dw0 dw1 s) :=
  h.finish
theorem Canon.failWith {e : Sqe} {st : Nat × Nat} (h : Canon s) : Canon (failWith e st s) :=
  h.fail
theorem Canon.change {opc what origin port slice pasid outcome : Nat} {keyId : List Byte} {done : Option Cqe} (h : Canon s) : Canon
    (change opc what origin port slice pasid outcome keyId done s) :=
  h.updEvents
theorem Canon.countChange {r : EventRec} (h : Canon s) : Canon (countChange r s) :=
  Canon.ite h.updSec h
theorem Canon.finishChange {e : Sqe} {what : Nat} {st : Nat × Nat} {dw0 dw1 : Nat} {data : List Byte} (h : Canon s) : Canon
    (finishChange e what st dw0 dw1 data s) :=
  h.updSec.change
theorem Canon.updPool {c : CardId} {p : Nat} {g : PoolSt → PoolSt} (h : Canon s) : Canon (updPool c p g s) :=
  h.updMem
theorem Canon.takeBufs {c : CardId} {p n : Nat} (h : Canon s) : Canon (takeBufs c p n s).2 :=
  Canon.ite_snd h.updPool h.updPool
theorem Canon.decBuf {c : CardId} {p i engine : Nat} (h : Canon s) : Canon (decBuf c p i engine s) := by
  dsimp only [Machine.decBuf]
  split
  · exact h.updPool
  · exact h.updPool
  · exact Canon.ite h h.updPool.updMem.event
theorem Canon.freeBufs {c : CardId} {l : List (Nat × Nat)} (h : Canon s) : Canon (freeBufs c l s) :=
  h.foldl fun h => h.decBuf
theorem Canon.applySettings (h : Canon s) : Canon (applySettings s) := by
  dsimp only [Machine.applySettings]
  refine { h with slices := ?_ }
  dsimp only
  exact rising_values _ h.slices
theorem Canon.alive {c : CardId} {n : Nat} {last : Option (BitVec 8)} {ctr : BitVec 8} {crcOk : Bool} (h : Canon s) : Canon
    (alive c n last ctr crcOk s).1 :=
  h.updMem.inFst
theorem Canon.journal {c : CardId} {r : JRec} (h : Canon s) : Canon (journal c r s) :=
  h.updJ
theorem Canon.mirror {c : CardId} {cmds : List Nat} (h : Canon s) : Canon (mirror c cmds s) :=
  Canon.ite (h.updCard.foldl fun h => h.updCmd).send h

/-! ### Stripes -/
theorem Canon.setMember {m : Nat} {g : Member → Member} (h : Canon s) : Canon (setMember m g s) :=
  h.updStripe
theorem Canon.toDirty {k : Nat} (h : Canon s) : Canon (toDirty k s) :=
  Canon.ite h.updBlk h.updBlk.updFrond
theorem Canon.rawSpare {f : Nat} (h : Canon s) : Canon (rawSpare f s).2 := by
  dsimp only [Machine.rawSpare]
  split
  · exact h.updBlk.updFrond.inSnd
  · exact h.inSnd
theorem Canon.rawReplacement {die : Nat} (h : Canon s) : Canon (rawReplacement die s).2 := by
  dsimp only [Machine.rawReplacement]
  split
  · exact h.updBlk.updDie.inSnd
  · exact h.rawSpare
theorem Canon.grownBad {k why : Nat} (h : Canon s) : Canon (grownBad k why s) :=
  (h.updBlk.when fun h => h.updFrond).updDie.event
theorem Canon.notBlank {k : Nat} (h : Canon s) : Canon (notBlank k s) :=
  Canon.ite h.grownBad.rawReplacement.updFrond h.updBlk.updFrond
theorem Canon.drawBlock {f cls n : Nat} (h : Canon s) : Canon (drawBlock f cls n s).2 := by
  induction n generalizing s with
  | zero => exact h
  | succ n ih =>
    unfold Machine.drawBlock
    split
    · exact h
    · exact .ite_snd h.updBlk (ih h.notBlank)
theorem Canon.takeSpare {f n : Nat} (h : Canon s) : Canon (takeSpare f n s).2 := by
  induction n generalizing s with
  | zero => exact h
  | succ n ih =>
    unfold Machine.takeSpare
    split
    next e => exact .ite_snd (h.rawSpare.of_snd e) (ih (h.rawSpare.of_snd e).notBlank)
    next e => exact h.rawSpare.of_snd e
theorem Canon.takeReplacement {die n : Nat} (h : Canon s) : Canon (takeReplacement die n s).2 := by
  induction n generalizing s with
  | zero => exact h
  | succ n ih =>
    unfold Machine.takeReplacement
    split
    next e => exact .ite_snd (h.rawReplacement.of_snd e) (ih (h.rawReplacement.of_snd e).notBlank)
    next e => exact h.rawReplacement.of_snd e
theorem Canon.drawMember {f cls : Nat} (h : Canon s) : Canon (drawMember f cls s).2 := by
  dsimp only [Machine.drawMember]
  split
  next hq => exact (h.drawBlock.of_snd hq).inSnd
  next hq =>
    split
    next hq1 => exact ((h.drawBlock.of_snd hq).takeSpare.of_snd hq1).inSnd
    next hq1 =>
      split
      · exact ((h.drawBlock.of_snd hq).takeSpare.of_snd hq1).takeReplacement
      · exact ((h.drawBlock.of_snd hq).takeSpare.of_snd hq1).inSnd
theorem Canon.zoneNotice {nsid z : Nat} (h : Canon s) : Canon (zoneNotice nsid z s) :=
  h.updCtrl.updCtrl.aenBoth
theorem Canon.releaseCopy {l : CopyLoc} (h : Canon s) : Canon (releaseCopy l s) :=
  Canon.ite h (h.updBlk.when fun h => h.updSeedbed)
theorem Canon.releaseCopies {sel : Nat → Bool} (h : Canon s) : Canon (releaseCopies sel s) :=
  (h.foldl fun h => h.foldl fun h => h.releaseCopy).foldl fun h => h.updCw
theorem Canon.deadBlocks {f : Nat} (h : Canon s) : Canon (deadBlocks f s) :=
  h.foldl fun h => Canon.ite h.updBlk.updFrond h.toDirty.updFrond
theorem Canon.deadBlocksAll (h : Canon s) : Canon (deadBlocksAll s) :=
  h.foldl fun h => h.deadBlocks
theorem Canon.queueOp {k : Nat} {o : LongOp} (h : Canon s) : Canon (queueOp k o s) :=
  h.updDie.updFrond
theorem Canon.dropOps {k : Nat} (h : Canon s) : Canon (dropOps k s) :=
  h.updDie
theorem Canon.freeExt {card : CardId} (h : Canon s) : Canon (freeExt card s) :=
  h.updSeedbed
theorem Canon.takeExt {card : CardId} (h : Canon s) : Canon (takeExt card s) :=
  h.updSeedbed
theorem Canon.dropAccum {slot : Nat} (h : Canon s) : Canon (dropAccum slot s) := by
  dsimp only [Machine.dropAccum]
  refine Canon.setAccums ?_ (rising_tdel _ _)
  split
  · exact h.freeExt
  · exact h
theorem Canon.healthRise {s0 : State} (h : Canon s) : Canon (healthRise s0 s) :=
  Canon.ite h.aenPage h
theorem Canon.frondState {f st : Nat} (h : Canon s) : Canon (frondState f st s) :=
  Canon.ite h h.updFrond.event.aenPage.healthRise
theorem Canon.unqueue {sel : Nat → Bool} (h : Canon s) : Canon (unqueue sel s) :=
  h.updRebuild
theorem Canon.rebuildIdle (h : Canon s) : Canon (rebuildIdle s) :=
  (h.foldl fun h => h.frondState).whenNot fun h => ((h.foldl fun h => h.event).foldl fun h => h.updDie).updRebuild.aenPage
theorem Canon.keepData {slot : Nat} (h : Canon s) : Canon (keepData slot s) :=
  h.setPieces (rising_entries _ (by grind))
theorem Canon.endRefresh {f : Nat} (h : Canon s) : Canon (endRefresh f s) := by
  dsimp only [Machine.endRefresh]
  split
  · exact h.updFrond.dropOps.toDirty
  · exact h
theorem Canon.dropRefresh {k : Nat} (h : Canon s) : Canon (dropRefresh k s) := by
  dsimp only [Machine.dropRefresh]
  split
  · exact Canon.ite h.endRefresh h
  · exact h
theorem Canon.dropStaged {slot : Nat} (h : Canon s) : Canon (dropStaged slot s) := by
  dsimp only [Machine.dropStaged]
  refine h.foldl fun h => ?_
  split
  · exact h.decBuf
  · exact h
theorem Canon.freeStripe {slot : Nat} (h : Canon s) : Canon (freeStripe slot s) := by
  dsimp only [Machine.freeStripe]
  refine Canon.rebuildIdle (Canon.deadBlocksAll (Canon.updStripe (Canon.setDies (Canon.foldl (Canon.foldl (Canon.unqueue (Canon.updRebuild
      (Canon.via h.keepData.releaseCopies.dropAccum.dropStaged fun h => { h with reqs := ?_, cws := ?_, chunks := ?_ }))) fun h => ?_)
      fun h => h.updFrond) (rising_values _))))
  · dsimp only
    exact rising_entries _ (by grind) h.reqs
  · dsimp only
    exact rising_filter _ _ h.cws
  · dsimp only
    exact rising_filter _ _ h.chunks
  · split
    · exact h.dropRefresh.dropOps.toDirty
    · exact h

/-! ### Cmds -/
theorem Canon.addReq {r : Req} (h : Canon s) : Canon (addReq r s) :=
  h.fresh.setReqs (rising_tins _ _ _)
theorem Canon.addReqBuf {r : Req} (h : Canon s) : Canon (addReqBuf r s) := by
  dsimp only [Machine.addReqBuf]
  split
  next hq => exact (h.takeBufs.of_snd hq).addReq
  next hq =>
    split
    · exact ((h.takeBufs.of_snd hq).fresh.setReqs (rising_tins _ _ _)).updPiece
    · exact (h.takeBufs.of_snd hq).fresh.setReqs (rising_tins _ _ _)
theorem Canon.freeReqBuf {n : Nat} (h : Canon s) : Canon (freeReqBuf n s) := by
  dsimp only [Machine.freeReqBuf]
  split
  · exact h.updReq.decBuf
  · exact h
theorem Canon.retryHeld (h : Canon s) : Canon (retryHeld s) := by
  dsimp only [Machine.retryHeld]
  refine h.foldl fun h => ?_
  split
  next hq =>
    split
    · exact (h.takeBufs.of_snd hq).updReq.whenNot fun h => h.updPiece
    · exact (h.takeBufs.of_snd hq).updReq
  next hq => exact h.takeBufs.of_snd hq
theorem Canon.placeCw {ck : Nat} (h : Canon s) : Canon (placeCw ck s) :=
  h.updCw.foldl fun h => h.updFrond
theorem Canon.sendCw {ck : Nat} (h : Canon s) : Canon (sendCw ck s) :=
  Canon.ite h.placeCw h.updCw
theorem Canon.recopy {ck idx : Nat} (h : Canon s) : Canon (recopy ck idx s) := by
  dsimp only [Machine.recopy]
  split
  · exact h.updCw.updFrond
  · exact h.updCw
theorem Canon.fillBlocks {nsid z : Nat} {blocks : List Nat} (h : Canon s) : Canon (fillBlocks nsid z blocks s) := by
  dsimp only [Machine.fillBlocks]
  split
  · exact h
  · exact h.updZone.foldl fun h => (h.setCws (rising_tins _ _ _)).updSe
theorem Canon.addClaim {k dp t : Nat} (h : Canon s) : Canon (addClaim k dp t s) :=
  h.updStats
theorem Canon.useClaim {k dp t : Nat} (h : Canon s) : Canon (useClaim k dp t s) :=
  h.updStats
theorem Canon.claimedFrame {k dp : Nat} (h : Canon s) : Canon (claimedFrame k dp s).2 := by
  dsimp only [Machine.claimedFrame]
  split
  · exact h.useClaim.inSnd
  · split
    · exact h.addClaim.useClaim.inSnd
    · exact h.inSnd
theorem Canon.pieceReq {p die block wl plane page mask : Nat} {slc : Bool} (h : Canon s) : Canon (pieceReq p die block wl plane page mask slc s).2 :=
  (Canon.ite_snd h.claimedFrame h).inSnd
theorem Canon.sendPiece {p die block wl plane page mask : Nat} {slc : Bool} (h : Canon s) : Canon (sendPiece p die block wl plane page mask slc s) :=
  h.pieceReq.addReq
theorem Canon.sendCopy {p : Nat} (h : Canon s) : CanonOpt (sendCopy p s) :=
  CanonOpt.map h.updPiece.sendPiece
theorem Canon.failPiece {p why : Nat} (h : Canon s) : Canon (failPiece p why s) :=
  h.updPiece
theorem Canon.askMembers {p : Nat} {ms : List Nat} (h : Canon s) : Canon (askMembers p ms s) := by
  dsimp only [Machine.askMembers]
  split
  · refine h.foldl fun h => ?_
    split
    · exact h.pieceReq.addReqBuf
    · exact h
  · exact h
theorem Canon.failRow {p : Nat} (h : Canon s) : Canon (failRow p s) :=
  Canon.ite h.failPiece h.failPiece
theorem Canon.readAround {p : Nat} (h : Canon s) : Canon (readAround p s) := by
  dsimp only [Machine.readAround]
  split
  · exact (h.updPiece.when fun h => h.updStats).askMembers
  · exact h.failRow
theorem Canon.replaceMember {p m : Nat} (h : Canon s) : CanonOpt (replaceMember p m s) :=
  CanonOpt.map (h.updPiece.updPiece.askMembers.when fun h => h.updSe)
theorem Canon.freeMembers {p : Nat} (h : Canon s) : Canon (freeMembers p s) :=
  h.foldl fun h => h.freeReqBuf
theorem Canon.placePiece {p : Nat} (h : Canon s) : Canon (placePiece p s) := by
  dsimp only [Machine.placePiece]
  split
  next hq =>
    split
    · refine Canon.ite ?_ ((h.takeBufs.of_snd hq).updPiece.readAround.whenNot fun hs => ?_)
      · split
        next hq1 => exact (h.takeBufs.of_snd hq).updPiece.sendCopy.of_some hq1
        · exact (h.takeBufs.of_snd hq).updPiece.failPiece
      · split
        · exact Canon.ite hs (h.takeBufs.of_snd hq).updPiece.updPiece.sendPiece
        · exact hs
    · exact (h.takeBufs.of_snd hq).updPiece.updPiece
  next hq => exact (h.takeBufs.of_snd hq).updPiece
theorem Canon.issuePiece {p : Nat} (h : Canon s) : Canon (issuePiece p s) :=
  Canon.ite h.placePiece h.updPiece
theorem Canon.setDeficit {sl : Nat} {c : CardId} {n : Nat} (h : Canon s) : Canon (setDeficit sl c n s) :=
  h.updSlice
theorem Canon.goTurn {c : CardId} {t : Turn} (h : Canon s) : Canon (goTurn c t s) :=
  h.setDeficit.branch (fun h => h.updPiece.placePiece) fun h => h.placeCw
theorem Canon.drrGo {c : CardId} {v : Svc} {n : Nat} (h : Canon s) : Canon (drrGo c v n s) := by
  induction n generalizing s with
  | zero => exact h
  | succ n ih =>
    have pass {l : List Turn} {cur : Nat} {u : State} (hu : Canon u) :
        Canon (match minBy (fun x => if cur < x then x else x + 65536) (l.map (·.slice)) with
          | some x => Machine.drrGo c v n (Machine.setDeficit x c (pget (sliceAt u x).deficit c + 4 * (sliceAt u x).share.weight)
              (Machine.updCard c (fun y => { y with turnSlice := x }) u))
          | none => u) := by
      split
      · exact ih hu.updCard.setDeficit
      · exact hu
    dsimp only [Machine.drrGo]
    split
    · exact .ite (pass h) (.ite (ih h.goTurn) h)
    · exact pass h.setDeficit
theorem Canon.drrCard {c : CardId} (h : Canon s) : Canon (drrCard c s) :=
  (Canon.ite h.drrGo h).whenNot fun h => Canon.ite h.drrGo h
theorem Canon.drr (h : Canon s) : Canon (drr s) :=
  h.drrCard.drrCard
theorem Canon.startRead {k : Nat} {lbas : List Nat} (h : Canon s) : Canon (startRead k lbas s) :=
  (h.updCmd.whenNot fun h => (h.fresh.setPieces (rising_tins _ _ _)).updCmd).foldl fun h => (h.fresh.setPieces (rising_tins _ _ _)).updCmd.issuePiece
theorem Canon.sendPageRead {k pk : Nat} {x : Nat × Nat × Nat} (h : Canon s) : Canon (sendPageRead k pk x s) :=
  (Canon.ite_snd h.claimedFrame h).addReq
theorem Canon.askPage {k pk : Nat} (h : Canon s) : Canon (askPage k pk s) := by
  dsimp only [Machine.askPage]
  refine (h.setPages (rising_tupd _ _ _ _)).whenNot fun h => ?_
  split
  · exact h.sendPageRead
  · exact h
theorem Canon.touchPages {nsid lba nlb : Nat} (h : Canon s) : Canon (touchPages nsid lba nlb s) :=
  h.setPages (rising_entries _ (by grind))
theorem Canon.proceedRead {k : Nat} (h : Canon s) : Canon (proceedRead k s) := by
  dsimp only [Machine.proceedRead]
  refine Canon.ite (Canon.ite h.updCmd h.startRead) ?_
  split
  · exact (h.foldl fun h => h.touchPages).startRead
  · exact h.updCmd.foldl fun h => h.askPage
theorem Canon.dropReqs {sel : Req → Bool} (h : Canon s) : Canon (dropReqs sel s) := by
  dsimp only [Machine.dropReqs]
  exact ((h.foldl fun h => h.updFrond).whenNot fun h => h.setFronds (rising_values _)).setReqs fun h => rising_entries _ (by grind)
      (rising_filter _ _ h)
theorem Canon.stopUnits {k : Nat} {pieces : List Nat} (h : Canon s) : Canon (stopUnits k pieces s) :=
  h.updSe.updSe.when fun h => h.setEngines (rising_values _)
theorem Canon.setCmdsPieces {a : Tbl Cmd} {b : Tbl Piece} (h : Canon s) (ha : rising s.cmds = true → rising a = true)
    (hb : rising s.pieces = true → rising b = true) : Canon { s with cmds := a, pieces := b } := { h with cmds := ha h.cmds, pieces := hb h.pieces }
theorem Canon.dropCmd {k : Nat} (h : Canon s) : Canon (dropCmd k s) := by
  have freed {t : State} {p b} (ht : Canon t) :
      Canon (Machine.freeMembers p (match (pieceAt t p).buf with | some i => Machine.decBuf b 3 i 0 t | none => t)) := by
    split
    · exact ht.decBuf.freeMembers
    · exact ht.freeMembers
  dsimp only [Machine.dropCmd]
  exact Canon.setCmds (Canon.whenNot ((h.freeBufs.foldl fun h => freed h).updSp.stopUnits.dropReqs.setCmdsPieces (rising_tdel _ _)
      (rising_filter _ _))
    fun h => h.updZone) (rising_values _)
theorem Canon.lateMiss {k late : Nat} (h : Canon s) : Canon (lateMiss k late s) :=
  { h with }
theorem Canon.complete {k : Nat} {st : Nat × Nat} {dw0 dw1 : Nat} {data : List Byte} (h : Canon s) : Canon (complete k st dw0 dw1 data s) := by
  dsimp only [Machine.complete]
  refine Canon.ite (Canon.dropCmd (Canon.ite (Canon.updStats ?_) ?_)) (Canon.post (Canon.dropCmd (Canon.ite (Canon.updStats ?_) ?_)))
  · split
    · exact h.lateMiss
    · exact h
  · split
    · exact h.lateMiss
    · exact h
  · split
    · exact h.lateMiss
    · exact h
  · split
    · exact h.lateMiss
    · exact h
theorem Canon.checkPicks {cls : Nat} (h : Canon s) : Canon (checkPicks cls s) :=
  h.foldl fun h => h.drawBlock
theorem Canon.raiseErase {f : Nat} (h : Canon s) : Canon (raiseErase f s) := by
  dsimp only [Machine.raiseErase]
  refine Canon.ite h ?_
  split
  · exact h.updDie
  · exact h
theorem Canon.allocStripe {slot nsid : Nat} {zone : Option Nat} {cls : Nat} (h : Canon s) : Canon (allocStripe slot nsid zone cls s) := by
  dsimp only [Machine.allocStripe]
  refine Canon.healthRise (Canon.updPair (h.updStripe.foldl fun h => ?_))
  split
  · exact h.updBlk.updStripe
  · exact h.updStripe
theorem Canon.zoneResetNow {nsid z : Nat} {cmd : Option Nat} (h : Canon s) : Canon (zoneResetNow nsid z cmd s) :=
  (h.setZones (rising_tdel _ _)).journal
theorem Canon.sendParity {slot row : Nat} {qs : List Nat} (h : Canon s) : Canon (sendParity slot row qs s) :=
  h.foldl fun h => h.foldl fun h => Canon.ite h (h.setCws (rising_tins _ _ _)).sendCw
theorem Canon.chunkCheck {x : Nat} (h : Canon s) : Canon (chunkCheck x s) :=
  Canon.ite h.updChunk h
theorem Canon.rowClose {slot : Nat} (h : Canon s) : Canon (rowClose slot s) :=
  Canon.ite h (Canon.ite h.sendParity h).dropAccum
theorem Canon.endRows {slot wp : Nat} (h : Canon s) : Canon (endRows slot wp s) :=
  (h.setChunks (rising_entries _ (by grind))).updStripe.rowClose.whenNot fun h => h.foldl fun h => h.chunkCheck
theorem Canon.finishStripe {slot wp : Nat} (h : Canon s) : Canon (finishStripe slot wp s) := by
  dsimp only [Machine.finishStripe]
  refine h.endRows.whenNot fun h => h.foldl fun h => ?_
  split
  · exact h.queueOp
  · exact h
theorem Canon.finishZone {nsid z : Nat} {cmd : Option Nat} (h : Canon s) : Canon (finishZone nsid z cmd s) :=
  h.journal
theorem Canon.finishDone {zk : Nat} {old : Zone} (h : Canon s) : Canon (finishDone zk old s) := by
  dsimp only [Machine.finishDone]
  refine Canon.ite (Canon.updZone ?_) h
  split
  · exact h.finishStripe
  · exact h
theorem Canon.zoneReadOnly {nsid z : Nat} (h : Canon s) : Canon (zoneReadOnly nsid z s) := by
  dsimp only [Machine.zoneReadOnly]
  refine Canon.ite (Canon.zoneNotice (Canon.event (Canon.journal ?_))) h
  split
  · exact h.updZone.when fun h => h.endRows
  · exact h.updZone
theorem Canon.stripeReadOnly {slot : Nat} (h : Canon s) : Canon (stripeReadOnly slot s) := by
  dsimp only [Machine.stripeReadOnly]
  split
  · exact h.zoneReadOnly
  · exact h
theorem Canon.rowsLost {slot : Nat} {rows : List Nat} (h : Canon s) : Canon (rowsLost slot rows s) :=
  Canon.ite h (h.updStripe.when fun h => h.updRebuild).event.aenPage.stripeReadOnly
theorem Canon.closeZone {nsid z : Nat} {cmd : Option Nat} (h : Canon s) : Canon (closeZone nsid z cmd s) :=
  h.updZone.journal
theorem Canon.closeZones {sel : Nat → Bool} {cmd : Option Nat} (h : Canon s) : Canon (closeZones sel cmd s) :=
  h.foldl fun h => h.closeZone
theorem Canon.offlineZone {nsid z : Nat} {cmd : Option Nat} (h : Canon s) : Canon (offlineZone nsid z cmd s) :=
  h.updZone.journal
theorem Canon.eraseNs {nsid : Nat} {cmd : Option Nat} (h : Canon s) : Canon (eraseNs nsid cmd s) :=
  Canon.ite (h.foldl fun h => h.zoneResetNow) (h.foldl fun h => h.journal).updNs
theorem Canon.nsChanged {p : Port} {nsid : Nat} (h : Canon s) : Canon (nsChanged p nsid s) :=
  Canon.ite h (h.updCtrl.when fun h => h.aenPort)
theorem Canon.nsNotice {nsid : Nat} (h : Canon s) : Canon (nsNotice nsid s) :=
  (Canon.ite h.nsChanged h).when fun h => h.nsChanged
theorem Canon.setNsTables {a : Tbl Ns} {b : Tbl Zone} {c : Tbl (Option (Nat × Nat))} {d : Tbl MapPage} (h : Canon s)
    (ha : rising s.nss = true → rising a = true)
    (hb : rising s.zones = true → rising b = true) (hc : rising s.map = true → rising c = true) (hd : rising s.pages = true → rising d = true) :
    Canon { s with nss := a, zones := b, map := c, pages := d } :=
  { h with nss := ha h.nss, zones := hb h.zones, map := hc h.map, pages := hd h.pages }
theorem Canon.removeNs {nsid : Nat} (h : Canon s) : Canon (removeNs nsid s) := by
  have gone {t : State} (ht : Canon t) : Canon { t with
      nss := tdel t.nss nsid, map := t.map.filter (fun m => m.1 / 2 ^ 41 != nsid), zones := t.zones.filter (fun z => z.1 / 2 ^ 21 != nsid),
      pages := t.pages.filter (fun p => p.1 / 2 ^ 29 != nsid) } :=
    ht.setNsTables (rising_tdel _ _) (rising_filter _ _) (rising_filter _ _) (rising_filter _ _)
  dsimp only [Machine.removeNs]
  split
  · exact gone (h.foldl fun h => h.freeStripe).nsNotice.updSlice
  · exact gone (h.foldl fun h => h.freeStripe).nsNotice
theorem Canon.zoneAct {k : Nat} {zs : List Nat} {f : Nat → State → State} (h : Canon s) (hf : ∀ {x1 t}, Canon t → Canon (f x1 t)) : Canon
    (zoneAct k zs f s) :=
  Canon.ite h.complete (h.updCmd.foldl fun h => hf h)
theorem Canon.zoneResetCmd {k : Nat} (h : Canon s) : Canon (zoneResetCmd k s) :=
  h.zoneAct fun h => h.zoneResetNow
theorem Canon.zoneFinishCmd {k : Nat} (h : Canon s) : Canon (zoneFinishCmd k s) :=
  h.zoneAct fun h => h.finishZone
theorem Canon.wake (h : Canon s) : Canon (wake s) := by
  dsimp only [Machine.wake]
  refine Canon.foldl (Canon.foldl (Canon.foldl (h.foldl fun h => ?_) fun h => h.proceedRead) fun h => ?_) fun h => ?_
  · split
    · exact h.complete
    · exact h.complete
    · exact Canon.ite h.zoneFinishCmd h.zoneResetCmd
    · exact h
  · split
    · exact Canon.ite h (h.removeNs.whenNot fun h => h.finishChange)
    · exact h
  · split
    · exact Canon.ite h.updSlice.ok h
    · exact h
theorem Canon.finishCmd {k : Nat} {st : Nat × Nat} {dw0 dw1 : Nat} {data : List Byte} (h : Canon s) : Canon (finishCmd k st dw0 dw1 data s) :=
  h.complete.wake
theorem Canon.discard {k : Nat} (h : Canon s) : Canon (discard k s) :=
  h.dropCmd.wake
theorem Canon.endWrite {k : Nat} (h : Canon s) : Canon (endWrite k s) := by
  dsimp only [Machine.endWrite]
  split <;> exact h.finishCmd
theorem Canon.writeDurable {k : Nat} (h : Canon s) : Canon (writeDurable k s) := by
  dsimp only [Machine.writeDurable]
  refine Canon.ite (Canon.ite (Canon.updCmd (Canon.mirror ?_)) (Canon.ite (Canon.updCmd (Canon.mirror ?_)) (Canon.endWrite (Canon.mirror ?_))))
      (h.updCmd.foldl_snd fun h => h.journal.inSnd)
  · split
    · exact h.updZone
    · exact h
  · split
    · exact h.updZone
    · exact h
  · split
    · exact h.updZone
    · exact h
theorem Canon.dropPack {cks : List Nat} (h : Canon s) : Canon (dropPack cks s) :=
  Canon.ite h (h.foldl fun h => h.updFrond)
theorem Canon.writeAnew {ck : Nat} {w : Cw} (h : Canon s) : Canon (writeAnew ck w s) := by
  dsimp only [Machine.writeAnew]
  exact (((h.dropPack.foldl fun h => h.releaseCopy).setProgs (rising_values _)).setCws (rising_tins _ _ _)).updChunk.sendCw
theorem Canon.reparity {ck : Nat} {old new : Cw} (h : Canon s) : Canon (reparity ck old new s) :=
  h.foldl fun h => h.writeAnew
theorem Canon.putPadding {ck : Nat} (h : Canon s) : Canon (putPadding ck s) :=
  (Canon.ite h.updAccum h).dropPack.reparity.branch (fun h => h.updZone.writeAnew) fun h => (h.setCws (rising_tins _ _ _)).chunkCheck
theorem Canon.takeBack {ck : Nat} (h : Canon s) : Canon (takeBack ck s) :=
  Canon.ite h (Canon.ite (Canon.ite h.putPadding h) h.updAccum.dropPack.updCw)
theorem Canon.settleBy {stays : Cw → Bool} {k : Nat} (h : Canon s) : Canon (settleBy stays k s) := by
  dsimp only [Machine.settleBy]
  refine Canon.ite ?_ ((h.dropPack.setCws (rising_entries _ (by grind))).foldl fun h => (h.setCws (rising_tins _ _ _)).whenNot fun h => h.updSe)
  split
  · exact Canon.ite ((h.dropPack.setCws (rising_filter _ _)).setCws (rising_entries _ (by grind))).updSe.updSe.updZone.fillBlocks h
  · exact h
theorem Canon.settleWrite {k : Nat} (h : Canon s) : Canon (settleWrite k s) :=
  (h.foldl fun h => Canon.ite h.takeBack h).settleBy
theorem Canon.failCmd {k : Nat} {st : Nat × Nat} {dw0 dw1 : Nat} (h : Canon s) : Canon (failCmd k st dw0 dw1 s) :=
  h.updCmd.settleWrite.finishCmd
/-- What an attempt to open a stripe leaves, done or waiting, is canonical. -/
def CanonRes (r : OpenRes) : Prop := ∀ t, (r = .done t ∨ ∃ f, r = .wait f t) → Canon t
theorem CanonRes.of_done {r : OpenRes} (h : CanonRes r) (e : r = .done t) : Canon t := h t (.inl e)
theorem CanonRes.of_wait {r : OpenRes} {f : Nat} (h : CanonRes r) (e : r = .wait f t) : Canon t := h t (.inr ⟨f, e⟩)
theorem Canon.opened (h : Canon s) : CanonRes (.done s) := by
  rintro t (e | ⟨f, e⟩)
  · cases e; exact h
  · cases e
theorem Canon.waits {f : Nat} (h : Canon s) : CanonRes (.wait f s) := by
  rintro t (e | ⟨f, e⟩)
  · cases e
  · cases e; exact h
theorem CanonRes.exhausted {d : Nat} : CanonRes (.exhausted d) := by rintro t (e | ⟨f, e⟩) <;> cases e
theorem CanonRes.tooMany : CanonRes .tooMany := by rintro t (e | ⟨f, e⟩) <;> cases e
theorem CanonRes.ite {p : Prop} [Decidable p] {a b : OpenRes} (ha : CanonRes a) (hb : CanonRes b) : CanonRes (if p then a else b) := by
  split
  · exact ha
  · exact hb
theorem Canon.tryAlloc {nsid : Nat} {zone : Option Nat} {cls : Nat} {reserved : Bool} (h : Canon s) : CanonRes (tryAlloc nsid zone cls reserved s)
    := by
  dsimp only [Machine.tryAlloc]
  split
  · split
    · exact .exhausted
    · exact (h.checkPicks.foldl fun h => h.raiseErase).waits
  · refine .ite .exhausted ?_
    split
    · exact .exhausted
    · exact h.checkPicks.allocStripe.opened
theorem Canon.openZone {nsid z cls : Nat} {expl : Bool} {cmd : Option Nat} (h : Canon s) : CanonRes (openZone nsid z cls expl cmd s) := by
  dsimp only [Machine.openZone]
  refine .ite .tooMany ?_
  split
  next e => exact (h.tryAlloc.of_done e).updZone.journal.mirror.opened
  · exact h.tryAlloc
theorem Canon.openHead {nsid cls : Nat} {gc : Bool} (h : Canon s) : CanonRes (openHead nsid cls gc s) := by
  dsimp only [Machine.openHead]
  refine .ite .exhausted ?_
  split
  next e =>
    split
    · exact (h.tryAlloc.of_done e).updNs.opened
    · exact .exhausted
  · exact h.tryAlloc
theorem Canon.takeOffsets {nsid cls : Nat} {gc : Bool} {n : Nat} {l : List Nat} (h : Canon s) : Canon (takeOffsets nsid cls gc n l s).2.2 := by
  induction n generalizing l s with
  | zero => exact h
  | succ n ih =>
    dsimp only [Machine.takeOffsets]
    split
    · exact ih (h.updStripe.when fun h => h.updNs)
    · split
      next e =>
        split
        · exact ih ((h.openHead.of_done e).updStripe.when fun h => h.updNs)
        · exact h.openHead.of_done e
      · exact h
      · exact h
      · exact h
theorem Canon.startScan {k : Nat} (h : Canon s) : Canon (startScan k s) :=
  Canon.ite h.updCmd.updSe h
theorem Canon.settleFailed (h : Canon s) : Canon (settleFailed s) :=
  h.foldl fun h => Canon.ite (h.updCmd.branch (fun h => h.updNs.discard) fun h => Canon.ite (Canon.ite h.updCmd.startScan h)
      (Canon.ite h.settleWrite.finishCmd h.finishCmd)) h

end Sys2Proof.Laws
end

