-- ==== Sys2Proof/Proofs/CanonFetch.lean ====
section
/-! PROOFS. O60: the rows of the host's I/O commands keep the tables canonical. One lemma for each
operation of the model, in the order of the model. -/
namespace Sys2Proof.Laws
open Sys2Proof Sys2Proof.Machine

variable {s t : State}

/-! ### Fetch -/
theorem Canon.countHit {rule : Nat} (h : Canon s) : Canon (countHit rule s) :=
  Canon.ite h.updFeat (h.setRules (rising_tupd _ _ _ _))
theorem Canon.chargeBound {c : CardId} {sl n : Nat} {read : Bool} (h : Canon s) : CanonOpt (chargeBound c sl n read s) :=
  CanonOpt.ite CanonOpt.none h.updSlice.updStats.opt
theorem Canon.claimIn {c : CardId} {k last dp : Nat} (h : Canon s) : CanonOpt (claimIn c k last dp s) :=
  CanonOpt.map h.addClaim
theorem Canon.claimList {c : CardId} {k last : Nat} {l : List Nat} (h : Canon s) : CanonOpt (claimList c k last l s) := by
  induction l generalizing s with
  | nil => exact h.opt
  | cons d r ih =>
    unfold Machine.claimList
    split
    next e => exact ih (h.claimIn.of_some e)
    · exact .none
theorem Canon.claimPiece {c : CardId} {k last ck : Nat} (h : Canon s) : CanonOpt (claimPiece c k last ck s) := by
  dsimp only [Machine.claimPiece]
  refine .ite (fun t e => ?_) ?_
  · obtain ⟨l, -, hl⟩ := List.exists_of_findSome?_eq_some e
    exact h.claimIn.of_some hl
  · split
    next e =>
      obtain ⟨d, -, hd⟩ := Option.bind_eq_some_iff.1 e
      exact (h.claimIn.of_some hd).opt
    · split
      · exact h.claimList
      · exact .none
theorem Canon.claimPieces {c : CardId} {k last : Nat} {l : List (List (Nat × Nat))} (h : Canon s) : CanonOpt (claimPieces c k last l s) := by
  induction l generalizing s with
  | nil => exact h.opt
  | cons g r ih =>
    cases g with
    | nil => exact ih h
    | cons p q =>
      unfold Machine.claimPieces
      split
      next e => exact ih (h.claimPiece.of_some e)
      · exact .none
theorem Canon.claimRead {c : CardId} {nsid lba n deadline : Nat} (h : Canon s) : CanonOpt (claimRead c nsid lba n deadline s) :=
  h.claimList.bind fun h => h.claimPieces
theorem Canon.admission {card : CardId} {sl : Nat} {e : Sqe} {bell : Nat} (h : Canon s) : Canon (admission card sl e bell s).2 := by
  dsimp only [Machine.admission]
  refine Canon.ite_snd h.updStats.updSlice ?_
  split
  · exact h.updStats.updSlice.inSnd
  next hq =>
    split
    · exact h.updStats.updSlice.inSnd
    next hq1 => exact ((CanonOpt.ite (h.chargeBound.of_some hq).claimRead (h.chargeBound.of_some hq).opt).of_some hq1).updStats.updSlice.inSnd
theorem Canon.unlock {k : Nat} (h : Canon s) : Canon (unlock k s) :=
  h.updSp.updCmd
theorem Canon.requestLocks {k : Nat} (h : Canon s) : Canon (requestLocks k s) := by
  dsimp only [Machine.requestLocks]
  refine Canon.ite h ?_
  split
  · exact h.updCmd.updSp
  · exact h.updCmd
theorem Canon.afterLocks {go : Nat → State → State} {k : Nat} (h : Canon s) (hgo : ∀ {x1 t}, Canon t → Canon (go x1 t)) : Canon (afterLocks go k s) :=
  Canon.ite (hgo h) h.updCmd
theorem Canon.lockStage {go : Nat → State → State} {k : Nat} (h : Canon s) (hgo : ∀ {x1 t}, Canon t → Canon (go x1 t)) : Canon (lockStage go k s)
    := by
  dsimp only [Machine.lockStage]
  refine Canon.ite (hgo h.requestLocks) (h.requestLocks.branch (fun h => h.afterLocks hgo) fun h => ?_)
  split
  · exact h.updSp.afterLocks hgo
  · exact h.updCmd
theorem Canon.tryFetch {e : Sqe} {k : Nat} (h : Canon s) (hf : tryFetch e s = Option.some (k, t)) : Canon t := by
  dsimp only [Machine.tryFetch] at hf
  split at hf
  · exact absurd hf.symm (Option.some_ne_none _)
  · cases hf
    refine Canon.when (Canon.setCmds (Canon.fresh (Canon.ite_snd ?_ ?_)) (rising_tins _ _ _)) fun h => h.requestLocks
    · exact h.updSq.countHit.updSlice.admission
    · exact h.updSq.countHit.updSlice
theorem Canon.fetched {e : Sqe} {k : Nat} (h : Canon s) (hf : fetched e s = Option.some (k, t)) : Canon t := by
  dsimp only [Machine.fetched] at hf
  split at hf
  · cases hf
    exact (h.atCount.when fun h => h.unlock).updCmd
  · exact h.atCount.tryFetch hf
theorem Canon.atOwner {run : Nat → State → State} {k : Nat} (h : Canon s) (hrun : ∀ {x1 t}, Canon t → Canon (run x1 t)) : Canon (atOwner run k s) :=
  Canon.ite h.updCmd (Canon.ite h.updCmd.send (hrun h))
theorem Canon.ioRun {e : Sqe} {run : Nat → State → State} (h : Canon s) (hrun : ∀ {k t}, Canon t → Canon (run k t)) : Canon (ioRun e run s) := by
  unfold Machine.ioRun
  split
  next hf => exact (h.fetched hf).atOwner hrun
  · exact h
theorem Canon.execCommandFetch {e : Sqe} (h : Canon s) : CanonOut (execCommandFetch e s) := by
  unfold Machine.execCommandFetch
  refine .ite h.atCount.updSlice.next ?_
  split
  next hf => exact (h.atCount.tryFetch hf).next
  · exact h.next
theorem Canon.failNow {k : Nat} {st : Nat × Nat} {dw0 dw1 : Nat} (h : Canon s) : Canon (failNow k st dw0 dw1 s) :=
  h.updCmd.finishCmd
theorem Canon.bufStage {go : Nat → State → State} {bytes k : Nat} (h : Canon s) (hgo : ∀ {x1 t}, Canon t → Canon (go x1 t)) : Canon
    (bufStage go bytes k s) := by
  dsimp only [Machine.bufStage]
  refine Canon.ite (hgo h) (Canon.ite h.updPool.updCmd ?_)
  split
  next hq => exact hgo (h.takeBufs.of_snd hq).updCmd
  next hq => exact (h.takeBufs.of_snd hq).updCmd

/-! ### Io -/
theorem Canon.enterWrite {k : Nat} (h : Canon s) : Canon (enterWrite k s) :=
  h.updCmd.foldl fun h => (h.setCws (rising_tins _ _ _)).updSe
theorem Canon.waitRoom {k f : Nat} (h : Canon s) : Canon (waitRoom k f s) :=
  (Canon.ite h h.updSeedbed).updCmd
theorem Canon.writeAdmit {k : Nat} (h : Canon s) : Canon (writeAdmit k s) := by
  dsimp only [Machine.writeAdmit]
  refine h.updCmd.whenNot fun hs => Canon.ite hs ?_
  split
  · exact h.waitRoom
  · split
    · exact h.waitRoom
    · split
      · exact h.waitRoom
      · exact h.updSeedbed.updStats.enterWrite
theorem Canon.issueWrites {qk n : Nat} (h : Canon s) : Canon (issueWrites qk n s) := by
  induction n generalizing s with
  | zero => exact h
  | succ n ih =>
    dsimp only [Machine.issueWrites]
    split
    · exact h
    · exact .ite (ih h.updQp) (.ite h (ih h.updQp.send))
theorem Canon.issueReads {k : Nat} (h : Canon s) : Canon (issueReads k s) :=
  Canon.ite h h.updQp.send
theorem Canon.issueAppends {qp : Nat} (h : Canon s) : Canon (issueAppends qp s) :=
  h.foldl fun h => h.issueReads
theorem Canon.bulkArrived {k reason : Nat} (h : Canon s) : Canon (bulkArrived k reason s) :=
  (Canon.ite h.updCmd h).writeAdmit
theorem Canon.bulkStart {k : Nat} (h : Canon s) : Canon (bulkStart k s) :=
  Canon.ite h.bulkArrived h.updCmd.issueReads
theorem Canon.afterAssign {k : Nat} (h : Canon s) : Canon (afterAssign k s) := by
  dsimp only [Machine.afterAssign]
  split
  · exact h.proceedRead
  · exact h.bulkStart
  · exact h.writeAdmit
theorem Canon.assign {k : Nat} (h : Canon s) : Canon (assign k s) :=
  ((h.mirror.updZone.when fun h => h.updCmd.journal).when fun h => h.updCmd.journal).updCmd.afterAssign
theorem Canon.zoneStageWith {granted : Bool} {k : Nat} (h : Canon s) : Canon (zoneStageWith granted k s) := by
  dsimp only [Machine.zoneStageWith]
  refine .ite h.updCmd ?_
  split
  · exact h.updCmd.failNow
  · refine .ite (.ite h.updCmd ?_) h.assign
    split
    next e => exact (h.openZone.of_done e).updCmd.assign
    next e => exact (h.openZone.of_wait e).updCmd
    · exact h.failNow
    · exact h.failNow
theorem Canon.zoneStage {k : Nat} (h : Canon s) : Canon (zoneStage k s) :=
  h.zoneStageWith
theorem Canon.convStageWith {granted : Bool} {k : Nat} (h : Canon s) : Canon (convStageWith granted k s) := by
  have goes {t : State} {p : Prop} {_ : Decidable p} {g} (ht : Canon t) : Canon ((if p then Machine.bulkStart k else Machine.writeAdmit k)
      (Machine.updCmd k g t)) := by
    split
    · exact ht.updCmd.bulkStart
    · exact ht.updCmd.writeAdmit
  dsimp only [Machine.convStageWith]
  refine .ite h.failNow (.ite h.updCmd (.ite h.updCmd ?_))
  split
  next e => exact goes ((h.takeOffsets.of_snd_snd e).when fun h => h.updNs)
  · exact .ite h.raiseErase.updCmd h.failNow
theorem Canon.convStage {k : Nat} (h : Canon s) : Canon (convStage k s) :=
  h.convStageWith
theorem Canon.clearRecs {k : Nat} {ranges : List (Nat × Nat)} (h : Canon s) : Canon (clearRecs k ranges s) :=
  Canon.ite h.finishCmd (h.updCmd.foldl fun h => h.journal)
theorem Canon.writeGo {k : Nat} (h : Canon s) : Canon (writeGo k s) := by
  dsimp only [Machine.writeGo]
  refine Canon.ite (h.bufStage fun h => h.proceedRead) (Canon.ite (h.bufStage fun h => h.zoneStage) (h.lockStage fun h => ?_))
  split
  · exact h.clearRecs
  · exact h.bufStage fun h => h.proceedRead
  · exact h.bufStage fun h => h.convStage
theorem Canon.writeChecked {k lim : Nat} {moves : Bool} (h : Canon s) : Canon (writeChecked k lim moves s) := by
  dsimp only [Machine.writeChecked]
  split
  · exact h.failNow
  · split
    · exact h.failNow
    · refine Canon.ite ?_ (Canon.ite h.failNow ?_)
      · split
        · exact Canon.ite h.failNow (Canon.ite h.failNow h.writeGo)
        · refine Canon.ite h.failNow ?_
          split
          · exact h.updCmd.failNow
          · exact h.writeGo
      · split
        · exact h.updCmd.failNow
        · exact h.writeGo
theorem Canon.runWrite {k : Nat} (h : Canon s) : Canon (runWrite k s) :=
  h.writeChecked
theorem Canon.runAppend {k : Nat} (h : Canon s) : Canon (runAppend k s) :=
  Canon.ite h.failNow h.writeChecked
theorem Canon.runWriteZeroes {k : Nat} (h : Canon s) : Canon (runWriteZeroes k s) :=
  h.writeChecked
theorem Canon.readGo {k : Nat} (h : Canon s) : Canon (readGo k s) :=
  Canon.ite (Canon.ite h.updCmd.send h.proceedRead) (h.lockStage fun h => Canon.ite h.updCmd.send h.proceedRead)
theorem Canon.readChecked {k lim : Nat} {moves : Bool} (h : Canon s) : Canon (readChecked k lim moves s) := by
  dsimp only [Machine.readChecked]
  split
  · exact h.failNow
  · split
    · exact h.failNow
    · split
      · exact h.failNow
      · exact h.readGo
theorem Canon.runRead {k : Nat} (h : Canon s) : Canon (runRead k s) :=
  h.readChecked
theorem Canon.runVerify {k : Nat} (h : Canon s) : Canon (runVerify k s) :=
  h.readChecked
theorem Canon.runCopy {k : Nat} (h : Canon s) : Canon (runCopy k s) := by
  dsimp only [Machine.runCopy]
  split
  · exact h.failNow
  · refine Canon.ite h.failNow (Canon.ite h.failNow (Canon.ite h.failNow ?_))
    split
    · exact h.failNow
    · exact h.writeChecked
theorem Canon.runFlush {k : Nat} (h : Canon s) : Canon (runFlush k s) :=
  Canon.ite h.finishCmd h.updCmd
theorem Canon.runDsm {k : Nat} (h : Canon s) : Canon (runDsm k s) := by
  dsimp only [Machine.runDsm]
  split
  · exact h.failNow
  · exact Canon.ite h.finishCmd (Canon.ite h.failNow (Canon.ite h.failNow (h.lockStage fun h => h.clearRecs)))
theorem Canon.stateErr {k : Nat} (h : Canon s) : Canon (stateErr k s) :=
  h.failNow
theorem Canon.zoneSend {k : Nat} {go : Cmd → State → State} (h : Canon s) (hgo : ∀ {x1 t}, Canon t → Canon (go x1 t)) : Canon (zoneSend k go s) := by
  dsimp only [Machine.zoneSend]
  split
  · exact h.failNow
  · exact hgo h
theorem Canon.setOpen {nsid z cls : Nat} {cmd : Option Nat} (h : Canon s) : Canon (setOpen nsid z cls cmd s) :=
  h.updZone.journal
theorem Canon.zoneOpenWith {granted : Bool} {k : Nat} (h : Canon s) : Canon (zoneOpenWith granted k s) :=
  h.zoneSend fun h => .ite (h.zoneAct fun h => h.setOpen) (by
    split
    · exact h.zoneAct fun h => h.setOpen
    · exact h.zoneAct fun h => h.setOpen
    · refine .ite h.updCmd ?_
      split
      next e => exact (h.openZone.of_done e).updCmd
      next e => exact (h.openZone.of_wait e).updCmd
      · exact h.failNow
      · exact h.failNow
    · exact h.stateErr)
theorem Canon.zoneOpenCmd {k : Nat} (h : Canon s) : Canon (zoneOpenCmd k s) :=
  h.zoneOpenWith
theorem Canon.zoneCloseCmd {k : Nat} (h : Canon s) : Canon (zoneCloseCmd k s) :=
  h.zoneSend fun h => Canon.ite (h.zoneAct fun h => h.closeZone).wake (Canon.ite h.finishCmd h.stateErr)
theorem Canon.afterEarlier {before : List Nat} {k : Nat} {go : Nat → State → State} (h : Canon s) (hgo : ∀ {x1 t}, Canon t → Canon (go x1 t))
    : Canon (afterEarlier before k go s) := by
  dsimp only [Machine.afterEarlier]
  split
  · exact (hgo h).wake
  · exact h.updCmd
theorem Canon.zoneFinishRun {k : Nat} (h : Canon s) : Canon (zoneFinishRun k s) := by
  dsimp only [Machine.zoneFinishRun]
  refine h.zoneSend fun h1 => (h1.afterEarlier fun h => h.zoneFinishCmd).whenNot fun h => ?_
  split
  · exact h1.finishCmd
  · exact h
  · exact h1.stateErr
theorem Canon.zoneResetRun {k : Nat} (h : Canon s) : Canon (zoneResetRun k s) :=
  h.zoneSend fun h => Canon.ite (h.afterEarlier fun h => h.zoneResetCmd) (Canon.ite h.finishCmd h.stateErr)
theorem Canon.zoneOfflineCmd {k : Nat} (h : Canon s) : Canon (zoneOfflineCmd k s) :=
  h.zoneSend fun h => Canon.ite (h.zoneAct fun h => h.offlineZone).wake h.stateErr
theorem Canon.runZoneSend {k : Nat} (h : Canon s) : Canon (runZoneSend k s) := by
  dsimp only [Machine.runZoneSend]
  split
  · exact h.zoneCloseCmd
  · exact h.zoneFinishRun
  · exact h.zoneOpenCmd
  · exact h.zoneResetRun
  · exact h.zoneOfflineCmd
  · exact h.zoneSend fun h => h.failNow
theorem Canon.runZoneRecv {k : Nat} (h : Canon s) : Canon (runZoneRecv k s) := by
  dsimp only [Machine.runZoneRecv]
  split
  · exact h.failNow
  · exact Canon.ite h.failNow (Canon.ite h.failNow (Canon.ite h.failNow (Canon.ite h.failNow h.finishCmd)))
theorem Canon.runDigest {k : Nat} (h : Canon s) : Canon (runDigest k s) := by
  dsimp only [Machine.runDigest]
  split
  · exact h.failNow
  · refine Canon.ite h.failNow (Canon.ite h.failNow (Canon.ite h.failNow ?_))
    split
    · exact h.finishCmd
    · exact h.updCmd
theorem Canon.runBulkRead {k : Nat} (h : Canon s) : Canon (runBulkRead k s) := by
  dsimp only [Machine.runBulkRead]
  split
  · exact h.failNow
  · refine Canon.ite h.failNow (Canon.ite h.failNow ?_)
    split
    · exact h.failNow
    · split
      · exact h.failNow
      · exact Canon.ite h.failNow (Canon.ite h.updCmd.readGo h.readGo)
theorem Canon.runBulkAppend {k : Nat} (h : Canon s) : Canon (runBulkAppend k s) := by
  dsimp only [Machine.runBulkAppend]
  split
  · exact h.failNow
  · refine Canon.ite h.failNow ?_
    split
    · exact h.failNow
    · exact h.writeChecked
theorem Canon.runWinnow {k : Nat} (h : Canon s) : Canon (runWinnow k s) := by
  dsimp only [Machine.runWinnow]
  split
  · exact h.failNow
  · refine h.failNow.whenNot fun hs => Canon.ite h.failNow (Canon.ite hs (Canon.ite h.failNow (Canon.ite h.failNow ?_)))
    split
    · exact h.failNow
    · exact h.readGo
theorem Canon.runKind {k : Nat} (h : Canon s) : Canon (runKind k s) := by
  dsimp only [Machine.runKind]
  split
  · exact h.runRead
  · exact h.runWrite
  · exact h.runAppend
  · exact h.runWriteZeroes
  · exact h.runDsm
  · exact h.runVerify
  · exact h.runCopy
  · exact h.runFlush
  · exact h.runZoneSend
  · exact h.runZoneRecv
  · exact h.runWinnow
  · exact h.runDigest
  · exact h.runBulkRead
  · exact h.runBulkAppend
  · exact h.failNow
theorem Canon.resume {k : Nat} (h : Canon s) : Canon (resume k s) := by
  dsimp only [Machine.resume]
  split
  · exact Canon.ite h.writeGo (Canon.ite h.runDsm h.readGo)
  · exact Canon.ite h.writeGo (Canon.ite h.runDsm h.readGo)
  · exact h.writeAdmit
  · exact h.writeAdmit
  · exact h.convStage
  · exact h.zoneStage
  · exact Canon.ite h.zoneOpenCmd (Canon.ite (Canon.ite h.writeAdmit h.zoneStage) (Canon.ite h.convStage h.writeAdmit))
  · exact h
theorem Canon.lockGranted {k : Nat} (h : Canon s) : Canon (lockGranted k s) :=
  Canon.ite h.writeGo (Canon.ite h.runDsm h.readGo)
theorem Canon.execFlush {e : Sqe} (h : Canon s) : CanonOut (execFlush e s) :=
  (h.ioRun fun h => h.runFlush).next
theorem Canon.execWrite {e : Sqe} (h : Canon s) : CanonOut (execWrite e s) :=
  (h.ioRun fun h => h.runWrite).next
theorem Canon.execRead {e : Sqe} (h : Canon s) : CanonOut (execRead e s) :=
  (h.ioRun fun h => h.runRead).next
theorem Canon.execWriteZeroes {e : Sqe} (h : Canon s) : CanonOut (execWriteZeroes e s) :=
  (h.ioRun fun h => h.runWriteZeroes).next
theorem Canon.execDatasetManagement {e : Sqe} (h : Canon s) : CanonOut (execDatasetManagement e s) :=
  (h.ioRun fun h => h.runDsm).next
theorem Canon.execVerify {e : Sqe} (h : Canon s) : CanonOut (execVerify e s) :=
  (h.ioRun fun h => h.runVerify).next
theorem Canon.execCopy {e : Sqe} (h : Canon s) : CanonOut (execCopy e s) :=
  (h.ioRun fun h => h.runCopy).next
theorem Canon.execZoneOpen {e : Sqe} (h : Canon s) : CanonOut (execZoneOpen e s) :=
  (h.ioRun fun h => h.zoneOpenCmd).next
theorem Canon.execZoneClose {e : Sqe} (h : Canon s) : CanonOut (execZoneClose e s) :=
  (h.ioRun fun h => h.zoneCloseCmd).next
theorem Canon.execZoneFinish {e : Sqe} (h : Canon s) : CanonOut (execZoneFinish e s) :=
  (h.ioRun fun h => h.zoneFinishRun).next
theorem Canon.execZoneReset {e : Sqe} (h : Canon s) : CanonOut (execZoneReset e s) :=
  (h.ioRun fun h => h.zoneResetRun).next
theorem Canon.execZoneOffline {e : Sqe} (h : Canon s) : CanonOut (execZoneOffline e s) :=
  (h.ioRun fun h => h.zoneOfflineCmd).next
theorem Canon.execSetZoneDescriptorExtension {e : Sqe} (h : Canon s) : CanonOut (execSetZoneDescriptorExtension e s) :=
  (h.ioRun fun h => h.zoneSend fun h => h.failNow).next
theorem Canon.execReportZones {e : Sqe} (h : Canon s) : CanonOut (execReportZones e s) :=
  (h.ioRun fun h => h.runZoneRecv).next
theorem Canon.execZoneAppend {e : Sqe} (h : Canon s) : CanonOut (execZoneAppend e s) :=
  (h.ioRun fun h => h.runAppend).next
theorem Canon.execWinnowRead {e : Sqe} (h : Canon s) : CanonOut (execWinnowRead e s) :=
  (h.ioRun fun h => h.runWinnow).next
theorem Canon.execZoneDigest {e : Sqe} (h : Canon s) : CanonOut (execZoneDigest e s) :=
  (h.ioRun fun h => h.runDigest).next
theorem Canon.execBulkRead {e : Sqe} (h : Canon s) : CanonOut (execBulkRead e s) :=
  (h.ioRun fun h => h.runBulkRead).next
theorem Canon.execBulkAppend {e : Sqe} (h : Canon s) : CanonOut (execBulkAppend e s) :=
  (h.ioRun fun h => h.runBulkAppend).next
theorem Canon.execForwardedCommand {cmd epoch : Nat} (h : Canon s) : CanonOut (execForwardedCommand cmd epoch s) :=
  CanonOut.ite h.next (CanonOut.ite h.updCmd.next (CanonOut.ite h.fresh.updCmd.runKind.next (h.updCmd.atOwner fun h => h.runKind).next))
theorem Canon.execPieceList {cmd : Nat} (h : Canon s) : CanonOut (execPieceList cmd s) :=
  CanonOut.ite h.proceedRead.settleFailed.next h.next
theorem Canon.execRangeLockGrant {cmd : Nat} (h : Canon s) : CanonOut (execRangeLockGrant cmd s) :=
  CanonOut.ite h.updCmd.lockGranted.next (CanonOut.ite h.resume.next h.next)
theorem Canon.execRangeLockTimeout {cmd : Nat} (h : Canon s) : CanonOut (execRangeLockTimeout cmd s) :=
  CanonOut.ite h.failNow.next h.next
theorem Canon.execZoneOpenWaitExpiry {cmd : Nat} (h : Canon s) : CanonOut (execZoneOpenWaitExpiry cmd s) :=
  CanonOut.ite h.failNow.next h.next
theorem Canon.execGcWriteWaitExpiry {cmd : Nat} (h : Canon s) : CanonOut (execGcWriteWaitExpiry cmd s) :=
  CanonOut.ite h.failNow.next h.next
theorem Canon.execFullWaitExpiry {cmd : Nat} (h : Canon s) : CanonOut (execFullWaitExpiry cmd s) :=
  CanonOut.ite h.updSeedbed.failCmd.aenPage.next h.next
theorem Canon.execBufferDeferralExpiry {cmd : Nat} (h : Canon s) : CanonOut (execBufferDeferralExpiry cmd s) :=
  CanonOut.ite h.updPool.failCmd.next (CanonOut.ite h.updPool.failCmd.next h.next)

end Sys2Proof.Laws
end

