-- ==== Sys2Proof/Proofs/CanonPlans.lean ====
section
/-! PROOFS. O60: metadata programs, plans and the rows of a frame keep the tables canonical. One lemma for each
operation of the model, in the order of the model. -/
namespace Sys2Proof.Laws
open Sys2Proof Sys2Proof.Machine

variable {s t : State}

/-! ### Metas -/
theorem Canon.addWork {of : MetaOf} {size : Nat} {fronds : List Nat} (h : Canon s) : Canon (addWork of size fronds s) := by
  dsimp only [Machine.addWork]
  refine h.fresh.updMetas ?_ id
  dsimp only
  exact (rising_tins _ _ _)
theorem Canon.dropWork {n : Nat} (h : Canon s) : Canon (dropWork n s) := by
  dsimp only [Machine.dropWork]
  refine h.updMetas ?_ id
  dsimp only
  exact (rising_tdel _ _)
theorem Canon.packRecs {c : CardId} {n : Nat} (h : Canon s) : Canon (packRecs c n s) := by
  induction n generalizing s with
  | zero => exact h
  | succ n ih =>
    unfold Machine.packRecs
    split
    · exact h
    · exact ih h.addWork.updJ
theorem Canon.packJournal {c : CardId} (h : Canon s) : Canon (packJournal c s) :=
  Canon.ite h h.packRecs
theorem Canon.packMembers {f : Nat} (h : Canon s) : Canon (packMembers f s) :=
  Canon.ite h h.addWork
theorem Canon.takeUnwiped {f : Nat} (h : Canon s) : Canon (takeUnwiped f s) :=
  h.foldl fun h => h.updDie.whenNot fun h => h.updBlk.updFrond
theorem Canon.packErases {f : Nat} (h : Canon s) : Canon (packErases f s) :=
  Canon.ite h h.takeUnwiped.updFrond.addWork
theorem Canon.packMetas {f : Nat} (h : Canon s) : Canon (packMetas f s) :=
  h.packJournal.packJournal.packMembers.packErases
theorem Canon.writePage {k : Nat} (h : Canon s) : Canon (writePage k s) :=
  Canon.ite h (h.addWork.setPages fun _ => rising_tupd _ _ _ _ h.pages)
theorem Canon.uncarry {q : Nat} (h : Canon s) : Canon (uncarry q s) := by
  dsimp only [Machine.uncarry]
  refine h.updMetas ?_ id
  dsimp only
  exact (rising_values _)
theorem Canon.metasGone {f : Nat} (h : Canon s) : Canon (metasGone f s) := by
  dsimp only [Machine.metasGone]
  refine h.updMetas ?_ id
  dsimp only
  exact fun h => rising_values _ (rising_filter _ _ h)
theorem Canon.readRow {k wl : Nat} (h : Canon s) : Canon (readRow k wl s) :=
  h.addWork.updWork.foldl fun h => h.addReq
theorem Canon.metaDone {k : Nat} (h : Canon s) : Canon (metaDone k s) :=
  h.toDirty.updBlk.updFrond
theorem Canon.rewriteFrom {k wl : Nat} (h : Canon s) : Canon (rewriteFrom k wl s) :=
  Canon.ite h.readRow h.metaDone
theorem Canon.rewriteTick {f : Nat} (h : Canon s) : Canon (rewriteTick f s) :=
  h.foldl fun h => h.updDie.rewriteFrom
theorem Canon.movePlaces {k wl die block row : Nat} (h : Canon s) : Canon (movePlaces k wl die block row s) := by
  dsimp only [Machine.movePlaces]
  refine h.updMetas id ?_
  dsimp only
  exact (rising_values _)
theorem Canon.metaPass {q : Nat} {p : Prog} (h : Canon s) : Canon (metaPass q p s) := by
  dsimp only [Machine.metaPass]
  refine h.updBlk.foldl fun h => ?_
  split
  · exact h
  · refine Canon.ite ?_ ?_
    · split
      · refine h.updWork.updMetas id ?_
        dsimp only
        exact (rising_tupd _ _ _ _)
      · exact h.updWork.movePlaces
      · exact h.updWork
    · split
      · refine Canon.dropWork (Canon.setPages ?_ (rising_entries _ (by grind)))
        split
        · refine h.updWork.updMetas id ?_
          dsimp only
          exact (rising_tupd _ _ _ _)
        · exact h.updWork.movePlaces
        · exact h.updWork
      · refine Canon.dropWork ?_
        split
        · refine h.updWork.updMetas id ?_
          dsimp only
          exact (rising_tupd _ _ _ _)
        · exact h.updWork.movePlaces
        · exact h.updWork
      · refine Canon.rewriteFrom (Canon.dropWork ?_)
        split
        · refine h.updWork.updMetas id ?_
          dsimp only
          exact (rising_tupd _ _ _ _)
        · exact h.updWork.movePlaces
        · exact h.updWork
      · split
        · refine h.updWork.updMetas id ?_
          dsimp only
          exact (rising_tupd _ _ _ _)
        · exact h.updWork.movePlaces
        · exact h.updWork

/-! ### Plans -/
theorem Canon.sendAgain {n : Nat} (h : Canon s) : Canon (sendAgain n s) :=
  h.updReq
theorem Canon.otherRoute {p n : Nat} {last : State → State} (h : Canon s) (hlast : ∀ {t}, Canon t → Canon (last t)) : Canon (otherRoute p n last s)
    := by
  dsimp only [Machine.otherRoute]
  split
  next hq => exact ((CanonOpt.ite h.sendCopy (CanonOpt.ite h.replaceMember (CanonOpt.ite h.readAround.opt CanonOpt.none))).of_some hq).freeReqBuf
  · exact hlast h
theorem Canon.noDie {n : Nat} (h : Canon s) : Canon (noDie n s) := by
  dsimp only [Machine.noDie]
  split
  · exact h.updReq.otherRoute fun h => h.failRow
  · exact Canon.ite h.updReq h.sendAgain
theorem Canon.notPlaced {n : Nat} (h : Canon s) : Canon (notPlaced n s) := by
  dsimp only [Machine.notPlaced]
  split
  · exact Canon.ite (h.updReq.otherRoute fun h => h.sendAgain) h.sendAgain
  · exact h.sendAgain
theorem Canon.insertRead {n cnt : Nat} {w : Window} (h : Canon s) : Canon (insertRead n cnt w s) :=
  h.updFrond
theorem Canon.issueSense {n : Nat} (h : Canon s) : Canon (issueSense n s) :=
  h.updDie.updReq
theorem Canon.openHeadBlock {die n : Nat} (h : Canon s) : Canon (openHeadBlock die n s).2 := by
  induction n generalizing s with
  | zero => exact h
  | succ n ih =>
    dsimp only [Machine.openHeadBlock]
    split
    · exact h
    · exact .ite_snd h.updBlk.updFrond (ih h.notBlank)
theorem Canon.headStart {die : Nat} (h : Canon s) : Canon (headStart die s).2.2 := by
  dsimp only [Machine.headStart]
  split
  · exact Canon.ite_snd_snd h h.openHeadBlock
  · exact h.openHeadBlock.inSndSnd
theorem Canon.enterProg {q : Nat} {g : Prog} {p : Plan} (h : Canon s) : Canon (enterProg q g p s).2 :=
  (h.setProgs (rising_tins _ _ _)).updFrond.inSnd
theorem Canon.putProgram {f die pos wl : Nat} {items : List PackItem} {p : Plan} (h : Canon s) : Canon (putProgram f die pos wl items p s).2 := by
  dsimp only [Machine.putProgram]
  refine Canon.foldl (h.fresh.updDie.enterProg.foldl fun h => h.updCw) fun h => ?_
  split
  · exact h.updCmd
  · exact h
theorem Canon.packOne {f : Nat} {items : List PackItem} {done : List (Nat × Window)} {p : Plan} (h : Canon s) : Canon (packOne f items done p s).2
    := by
  dsimp only [Machine.packOne]
  refine Canon.ite_snd h ?_
  split
  · exact h.inSnd
  · split
    next hq => exact (h.headStart.of_snd_snd hq).putProgram.inSnd
    next hq => exact (h.headStart.of_snd_snd hq).inSnd
theorem Canon.packGo {f : Nat} {done : List (Nat × Window)} {n : Nat} {items : List PackItem} {p : Plan} (h : Canon s) :
    Canon (packGo f done n items p s).2.2 := by
  induction n generalizing items p s with
  | zero => exact h
  | succ n ih =>
    dsimp only [Machine.packGo]
    refine .ite_snd_snd h (.ite_snd_snd h ?_)
    split
    next e => exact ih (h.packOne.of_snd e)
    next e => exact h.packOne.of_snd e
theorem Canon.reclaimMeta {die : Nat} (h : Canon s) : Canon (reclaimMeta die s) := by
  dsimp only [Machine.reclaimMeta]
  split
  · exact h.toDirty.updBlk
  · exact h
theorem Canon.beginMeta {die pos : Nat} {new : Bool} (h : Canon s) : Canon (beginMeta die pos new s) :=
  (Canon.ite h.reclaimMeta h).updBlk
theorem Canon.metaStart {die n : Nat} (h : Canon s) : Canon (metaStart die n s).2 := by
  induction n generalizing s with
  | zero => exact h
  | succ n ih =>
    unfold Machine.metaStart
    refine .ite_snd h ?_
    split
    · exact h
    · exact .ite_snd h.beginMeta (ih h.notBlank)
theorem Canon.putMeta {f die pos wl : Nat} {l : List (Nat × MetaWork)} {p : Plan} (h : Canon s) : Canon (putMeta f die pos wl l p s).2 :=
  (h.fresh.updBlk.updDie.foldl fun h => h.updWork).enterProg
theorem Canon.putMetas {f : Nat} {done : List (Nat × Window)} {n : Nat} {p : Plan} (h : Canon s) : Canon (putMetas f done n p s).2 := by
  induction n generalizing p s with
  | zero => exact h
  | succ n ih =>
    dsimp only [Machine.putMetas]
    refine .ite_snd h ?_
    split
    · exact h
    · split
      next e => exact ih (h.metaStart.of_snd e).putMeta
      next e => exact h.metaStart.of_snd e
theorem Canon.placeReq {n : Nat} {last : State → State} (h : Canon s) (hlast : ∀ {t}, Canon t → Canon (last t)) : Canon (placeReq n last s) := by
  dsimp only [Machine.placeReq]
  refine Canon.ite h.noDie ?_
  split
  · exact h.updReq.updFrond
  · exact hlast h
/-- The programs of a plan that is to hold no more of them stay as they are (R95). -/
theorem Canon.packUnless {still : Bool} {f n : Nat} {done : List (Nat × Window)} {items : List PackItem} {p : Plan} (h : Canon s) :
    Canon (if still then (p, items, s) else Machine.packGo f done n items p s).2.2 := by
  split
  · exact h
  · exact h.packGo
theorem Canon.fixPlan {f cnt : Nat} (h : Canon s) : Canon (fixPlan f cnt s) := by
  unfold Machine.fixPlan
  extract_lets s1 g t cand reads segs ins items upTo p0 p1 a1 pack here soon soon' again still due want
  have h1 : Canon s1 := h.packMetas
  generalize hp : (if g.shutdown || s1.power.feedLost || (g.noSegs && g.prepared ≠ 1) then (a1.1, s1) else Machine.putMetas f a1.2 due a1.1 s1) = p
  have h2 : Canon p.2 := by
    rw [← hp]
    split
    · exact h1
    · exact h1.putMetas
  obtain ⟨p, s2⟩ := p
  dsimp only
  generalize hq : (if still then (p, soon', s2) else Machine.packGo f a1.2 (soon'.length + 1) soon' p s2) = q
  have h3 : Canon q.2.2 := hq ▸ h2.packUnless
  obtain ⟨q, left1, s3⟩ := q
  dsimp only
  refine Canon.send (Canon.send (Canon.foldl (Canon.updFrond (Canon.foldl ?_ fun h => h.updReq)) fun h => h.placeReq fun h => h.notPlaced))
  exact h3.packUnless
theorem Canon.withdraw {n : Nat} (h : Canon s) : Canon (withdraw n s) :=
  h.updReq.updFrond
theorem Canon.loseRead {why n : Nat} (h : Canon s) : Canon (loseRead why n s) := by
  dsimp only [Machine.loseRead]
  split
  · exact h.withdraw.updPiece.otherRoute fun h => h.sendAgain
  · exact h.withdraw.sendAgain
theorem Canon.repack {p : Nat} {q : Prog} (h : Canon s) : Canon (repack p q s) :=
  h.updFrond.foldl fun h => h.updCw
theorem Canon.unpack {p : Nat} (h : Canon s) : Canon (unpack p s) :=
  h.repack.uncarry.setProgs (rising_tdel _ _)
theorem Canon.delayCw {ck why : Nat} (h : Canon s) : Canon (delayCw ck why s) := by
  dsimp only [Machine.delayCw]
  split
  · exact Canon.ite h.updCmd h
  · exact h
theorem Canon.delayProg {p why : Nat} (h : Canon s) : Canon (delayProg p why s) :=
  h.foldl fun h => h.delayCw
theorem Canon.dropProg {f p why : Nat} (h : Canon s) : Canon (dropProg f p why s) :=
  h.delayProg.updFrond.unpack
theorem Canon.sortQueue (h : Canon s) : Canon (sortQueue s) :=
  h.updRebuild
theorem Canon.startRebuild {kind ob : Nat} {ms : List Nat} (h : Canon s) : Canon (startRebuild kind ob ms s) :=
  Canon.ite h h.updRebuild.event.aenPage
theorem Canon.memberGone {m : Nat} (h : Canon s) : Canon (memberGone m s) :=
  ((h.setMember.when fun h => h.updRebuild).unqueue.event.aenPage.stripeReadOnly.when fun h => h.rebuildIdle).healthRise
theorem Canon.backingDeficit {f : Nat} (h : Canon s) : Canon (backingDeficit f s) := by
  dsimp only [Machine.backingDeficit]
  refine Canon.ite h (h.foldl fun h => ?_)
  split
  · split
    · exact h.offlineZone.event.zoneNotice
    · exact h
  · split
    · exact h.updNs
    · exact h
theorem Canon.placeAgain {ck : Nat} {l : CopyLoc} (h : Canon s) : Canon (placeAgain ck l s) :=
  h.updCw.updFrond.branch (fun h => h.updSeedbed) fun h => h.recopy
theorem Canon.loseCopies {sel : CopyLoc → Bool} (h : Canon s) : Canon (loseCopies sel s) :=
  h.foldl fun h => h.foldl fun h => h.placeAgain
theorem Canon.drawSpares {f st n got : Nat} (h : Canon s) : Canon (drawSpares f st n got s).2 := by
  induction n generalizing got s with
  | zero => exact h
  | succ n ih =>
    unfold Machine.drawSpares
    split
    next e => exact ih (h.rawSpare.of_snd e).updBlk
    next e => exact h.rawSpare.of_snd e
theorem Canon.spareMember {m : Nat} (h : Canon s) : Canon (spareMember m s) := by
  dsimp only [Machine.spareMember]
  split
  next hq => exact (h.takeSpare.of_snd hq).updBlk.updStripe
  next hq => exact (h.takeSpare.of_snd hq).memberGone
theorem Canon.dropRead {n : Nat} (h : Canon s) : Canon (dropRead n s) := by
  dsimp only [Machine.dropRead]
  refine Canon.freeReqBuf (Canon.withdraw ?_)
  split
  · refine Canon.dropWork ?_
    split
    · refine Canon.updAccum ?_
      split
      · exact (Canon.ite h.updBlk h).updSeedbed
      · exact Canon.ite h.updBlk h
    · split
      · exact (Canon.ite h.updBlk h).updSeedbed
      · exact Canon.ite h.updBlk h
  · split
    · refine Canon.updAccum ?_
      split
      · exact (Canon.ite h.updBlk h).updSeedbed
      · exact Canon.ite h.updBlk h
    · split
      · exact (Canon.ite h.updBlk h).updSeedbed
      · exact Canon.ite h.updBlk h
theorem Canon.loseReads {sel : Req → Bool} (h : Canon s) : Canon (loseReads sel s) := by
  dsimp only [Machine.loseReads]
  refine h.foldl fun h => ?_
  split
  · exact h.loseRead
  · exact h.dropRead
theorem Canon.stopDie {die row : Nat} (h : Canon s) : Canon (stopDie die row s) := by
  dsimp only [Machine.stopDie]
  split
  · exact h.updDie.event.loseReads.when fun h => h.endRefresh
  · exact h.updDie.event.loseReads
theorem Canon.dieStock {f idle seeds wait : Nat} (h : Canon s) : Canon (dieStock f idle seeds wait s) := by
  dsimp only [Machine.dieStock]
  exact h.drawSpares.drawSpares.updFrond
theorem Canon.unverify {f : Nat} {sel : Nat → Bool} (h : Canon s) : Canon (unverify f sel s) := by
  dsimp only [Machine.unverify]
  refine Canon.foldl (h.updFrond.updMetas ?_ id) fun h => Canon.ite h.updChunk h
  dsimp only
  exact (rising_entries _ (by grind))
theorem Canon.restorePages {gone : Nat → Bool} (h : Canon s) : Canon (restorePages gone s) := by
  dsimp only [Machine.restorePages]
  refine Canon.foldl (h.updMetas id ?_) fun h => ?_
  · dsimp only
    exact (rising_values _)
  · split
    · exact h
    · exact h.addWork.updWork.addReq
theorem Canon.dropMetas {die : Nat} (h : Canon s) : Canon (dropMetas die s) := by
  dsimp only [Machine.dropMetas]
  refine Canon.restorePages (Canon.foldl (h.updMetas ?_ id) fun h => h.uncarry)
  dsimp only
  exact (rising_filter _ _)
theorem Canon.dropDie {die : Nat} (h : Canon s) : Canon (dropDie die s) := by
  dsimp only [Machine.dropDie]
  refine Canon.loseCopies (Canon.via h.unverify.dropMetas fun h => { h with blks := ?_, progs := ?_ })
  · dsimp only
    exact rising_entries _ (by grind) h.blks
  · dsimp only
    exact rising_filter _ _ h.progs
theorem Canon.dieFailed {die row : Nat} (h : Canon s) : Canon (dieFailed die row s) :=
  Canon.ite h (h.stopDie.dropDie.drawSpares.foldl fun h => h.spareMember).dieStock.aenPage.backingDeficit.startRebuild.sortQueue
theorem Canon.dieOverrun {die : Nat} (h : Canon s) : Canon (dieOverrun die s) :=
  h.updDie.when fun h => ((h.updDie.updStats.event.foldl fun h => h.loseRead).foldl fun h => h.dropProg).when fun h => h.dieFailed
theorem Canon.badCheck {die : Nat} (h : Canon s) : Canon (badCheck die s) :=
  Canon.ite h.dieFailed h
theorem Canon.moveMember {m new : Nat} (h : Canon s) : Canon (moveMember m new s) :=
  h.updBlk.updStripe
theorem Canon.frondGone {f st : Nat} (h : Canon s) : Canon (frondGone f st s) := by
  dsimp only [Machine.frondGone]
  refine Canon.settleFailed (Canon.updFrond (Canon.metasGone (Canon.unverify (Canon.via (h.frondState.loseReads.foldl
      fun h => h.updCw).loseCopies.endRefresh fun h => { h with dies := ?_, progs := ?_ }))))
  · dsimp only
    exact rising_entries _ (by grind) h.dies
  · dsimp only
    exact rising_filter _ _ h.progs
theorem Canon.absentRelease (h : Canon s) : Canon (absentRelease s) := by
  dsimp only [Machine.absentRelease]
  refine Canon.ite h ?_
  split
  · exact h.releaseCopies.updSeedbed.aenPage
  · exact h

/-! ### Rows -/
theorem Canon.dropRow {x : Nat} (h : Canon s) : Canon (dropRow x s) :=
  (h.foldl fun h => h.freeReqBuf).dropReqs
theorem Canon.freeStage {x : Nat} (h : Canon s) : Canon (freeStage x s) := by
  dsimp only [Machine.freeStage]
  split
  · exact h.updChunk.decBuf
  · exact h
theorem Canon.recalDue {die group : Nat} (h : Canon s) : Canon (recalDue die group s) := by
  dsimp only [Machine.recalDue]
  refine Canon.ite h (Canon.ite h.updDie ?_)
  split
  · exact h.updDie.foldl fun h => h.addReq
  · exact h.updDie
theorem Canon.recalAgain {f : Nat} (h : Canon s) : Canon (recalAgain f s) :=
  Canon.ite h (h.foldl fun h => h.updDie.foldl fun h => h.recalDue)
theorem Canon.recalReadDone {die group : Nat} (h : Canon s) : Canon (recalReadDone die group s) :=
  h.updDie
theorem Canon.recalTemp {pkg temp : Nat} (h : Canon s) : Canon (recalTemp pkg temp s) :=
  h.foldl fun h => h.foldl fun h => h.recalDue
theorem Canon.scheduleRefresh {k : Nat} (h : Canon s) : Canon (scheduleRefresh k s) :=
  h.updBlk
theorem Canon.scrubReadDone {k : Nat} (h : Canon s) : Canon (scrubReadDone k s) :=
  h.updBlk
theorem Canon.addFoldRead {x die block wl plane mask : Nat} (h : Canon s) : Canon (addFoldRead x die block wl plane mask s) :=
  Canon.ite h.addReq h.addReqBuf
theorem Canon.uncorrEvent {k wl : Nat} (h : Canon s) : Canon (uncorrEvent k wl s) :=
  h.event
theorem Canon.rowLost {x : Nat} (h : Canon s) : Canon (rowLost x s) := by
  dsimp only [Machine.rowLost]
  refine Canon.rowsLost ?_
  split
  · exact h.uncorrEvent
  · exact h
theorem Canon.foldLost {x ck : Nat} (h : Canon s) : Canon (foldLost x ck s) := by
  dsimp only [Machine.foldLost]
  refine Canon.rowsLost (Canon.updCw ?_)
  split
  · exact h.uncorrEvent
  · exact h
theorem Canon.foldRequest {x : Nat} (h : Canon s) : Canon (foldRequest x s) := by
  dsimp only [Machine.foldRequest]
  split
  · exact h
  · exact (h.updChunk.foldl fun h => h.addFoldRead).queueOp.foldl fun h => h.foldLost
theorem Canon.foldReadDone {n x : Nat} (h : Canon s) : Canon (foldReadDone n x s) :=
  h.freeReqBuf.whenNot fun h => h.updChunk
theorem Canon.badCopies {r : Req} (h : Canon s) : Canon (badCopies r s) :=
  h.setCws (rising_entries _ (by grind))
theorem Canon.foldReroute {n x : Nat} (h : Canon s) : Canon (foldReroute n x s) := by
  dsimp only [Machine.foldReroute]
  refine h.badCopies.branch (fun h => h.freeReqBuf) fun h => Canon.foldReadDone (h.foldl fun h => ?_)
  split
  · exact h.updChunk.addFoldRead
  · exact h.foldLost
theorem Canon.askRow {x : Nat} {ms : List Nat} {pages : List (Nat × Nat)} (h : Canon s) : Canon (askRow x ms pages s) := by
  dsimp only [Machine.askRow]
  refine h.foldl fun h => ?_
  split
  · exact h.foldl fun h => h.addReqBuf
  · exact h
theorem Canon.startRow {x : Nat} (h : Canon s) : CanonOpt (startRow x s) := by
  dsimp only [Machine.startRow]
  split
  · exact CanonOpt.none
  · split
    next hq => exact (h.takeBufs.of_snd hq).updChunk.askRow.opt
    · exact CanonOpt.none
theorem Canon.passRow {x : Nat} (h : Canon s) : Canon (passRow x s) :=
  (h.setChunks (rising_tdel _ _)).setMember
theorem Canon.refreshProgram {x dst : Nat} (h : Canon s) : Canon (refreshProgram x dst s) :=
  h.queueOp
theorem Canon.rowBack {x : Nat} (h : Canon s) : Canon (rowBack x s) := by
  dsimp only [Machine.rowBack]
  refine h.dropRow.freeStage.branch (fun h => ?_) fun h => h.updChunk
  split
  · exact (h.setChunks (rising_tdel _ _)).refreshProgram
  · exact h.rowLost.passRow
theorem Canon.rowReady {x : Nat} (h : Canon s) : Canon (rowReady x s) :=
  Canon.ite h.updChunk.updSe h
theorem Canon.rowReadDone {n x : Nat} (h : Canon s) : Canon (rowReadDone n x s) :=
  Canon.ite h.updChunk.rowReady h.freeReqBuf
theorem Canon.rowReroute {n x : Nat} (h : Canon s) : Canon (rowReroute n x s) := by
  dsimp only [Machine.rowReroute]
  refine h.updReq.freeReqBuf.whenNot fun h => ?_
  split
  · exact h.updChunk.rowBack
  · exact h.updChunk.updChunk.askRow.rowReady
theorem Canon.rowCombined {x : Nat} (h : Canon s) : Canon (rowCombined x s) := by
  dsimp only [Machine.rowCombined]
  refine Canon.ite h ?_
  split
  · exact h.dropRow.updChunk.refreshProgram
  · exact h.dropRow.updChunk.queueOp
  · exact h.dropRow.updChunk.freeStage.setChunks fun _ => rising_tdel _ _ h.dropRow.updChunk.chunks
theorem Canon.restartFill {m new : Nat} (h : Canon s) : Canon (restartFill m new s) :=
  (h.foldl fun h => h.dropRow.freeStage.setChunks fun _ => rising_tdel _ _ h.chunks).updBlk.updStripe
theorem Canon.fillRow {m : Nat} (h : Canon s) : Canon (fillRow m s) := by
  dsimp only [Machine.fillRow]
  refine Canon.ite h (Canon.ite h.passRow ?_)
  split
  · refine Canon.ite h.foldRequest (Canon.ite ?_ h)
    split
    next hq => exact (h.startRow.of_some hq).updRebuild.updStats
    · exact Canon.ite h.rowLost.passRow h
  · refine Canon.ite ?_ h
    split
    next hq => exact (h.startRow.of_some hq).updRebuild.updStats
    · exact Canon.ite h.rowLost.passRow h
theorem Canon.unstick (h : Canon s) : Canon (unstick s) := by
  dsimp only [Machine.unstick]
  refine h.foldl fun h => Canon.ite h.dropRow.freeStage.updChunk (Canon.updChunk ?_)
  split
  · exact h.updDie
  · exact h
theorem Canon.foldAhead {f : Nat} (h : Canon s) : Canon (foldAhead f s) :=
  Canon.ite h (h.setChunks (rising_entries _ (by grind)))
theorem Canon.leaveFor {k m : Nat} (h : Canon s) : Canon (leaveFor k m s).2 := by
  unfold Machine.leaveFor
  split
  · exact h.takeReplacement
  · exact h.drawMember
theorem Canon.startRefresh {f : Nat} (h : Canon s) : Canon (startRefresh f s) := by
  dsimp only [Machine.startRefresh]
  split
  · exact h
  · refine Canon.ite ?_ ?_
    · split
      next hq => exact (h.leaveFor.of_snd hq).updBlk.updFrond
      next hq => exact (h.leaveFor.of_snd hq).toDirty.updFrond.memberGone
    · split
      next hq => exact (h.drawBlock.of_snd hq).updBlk.updFrond
      next hq => exact h.drawBlock.of_snd hq
theorem Canon.padAgain {m : Nat} (h : Canon s) : Canon (padAgain m s) := by
  dsimp only [Machine.padAgain]
  split
  · exact Canon.ite h.queueOp h
  · exact h
theorem Canon.refreshTick {f : Nat} (h : Canon s) : Canon (refreshTick f s) := by
  dsimp only [Machine.refreshTick]
  refine Canon.ite h ?_
  split
  · exact h.foldAhead.rewriteTick.startRefresh
  · split
    · exact h.foldAhead.rewriteTick.endRefresh
    · refine h.foldAhead.rewriteTick.whenNot fun h => ?_
      split
      · exact Canon.ite (h.startRow.getD h) h
      · exact Canon.ite h (h.updFrond.foldl fun h => h.addReq)
theorem Canon.refreshReadDone {x : Nat} (h : Canon s) : Canon (refreshReadDone x s) := by
  dsimp only [Machine.refreshReadDone]
  split
  · exact Canon.ite h (h.updFrond.when fun h => h.refreshProgram)
  · exact h
theorem Canon.refreshReroute {x : Nat} (h : Canon s) : Canon (refreshReroute x s) := by
  dsimp only [Machine.refreshReroute]
  split
  · exact h
  · split
    next hq => exact h.updFrond.dropRow.startRow.of_some hq
    · refine h.updFrond.dropRow.branch (fun h => Canon.refreshProgram ?_) fun h => h.updChunk
      split
      · exact h.uncorrEvent
      · exact h
theorem Canon.refreshRowDone {x : Nat} (h : Canon s) : Canon (refreshRowDone x s) :=
  (h.setChunks (rising_tdel _ _)).updFrond
theorem Canon.replaceRead {ck : Nat} (h : Canon s) : Canon (replaceRead ck s) := by
  dsimp only [Machine.replaceRead]
  split
  · exact h.addReqBuf
  · exact h
theorem Canon.replaceTick (h : Canon s) : Canon (replaceTick s) :=
  h.updSeedbed.foldl fun h => Canon.ite h h.updSeedbed.updRebuild.replaceRead
theorem Canon.placeDone {n ck : Nat} (h : Canon s) : Canon (placeDone n ck s) :=
  h.freeReqBuf.whenNot fun h => h.updCw.recopy.when fun h => h.updSeedbed
theorem Canon.placeFailed {n ck : Nat} (h : Canon s) : Canon (placeFailed n ck s) :=
  h.badCopies.freeReqBuf.branch (fun h => h.updSeedbed) fun h => h.foldLost
theorem Canon.askAccum {slot : Nat} (h : Canon s) : Canon (askAccum slot s) :=
  (h.updAccum.foldl fun h => h.foldLost).foldl fun h => h.addReqBuf
theorem Canon.accumTick (h : Canon s) : Canon (accumTick s) :=
  h.foldl fun h => h.askAccum
theorem Canon.workReadDone {n w : Nat} (h : Canon s) : Canon (workReadDone n w s) :=
  h.updWork.freeReqBuf
theorem Canon.workReadFailed {n w : Nat} (h : Canon s) : Canon (workReadFailed n w s) := by
  dsimp only [Machine.workReadFailed]
  split
  · exact h.uncorrEvent.dropWork.freeReqBuf
  · exact h.uncorrEvent.workReadDone
theorem Canon.accumReadFailed {n slot : Nat} (h : Canon s) : Canon (accumReadFailed n slot s) :=
  h.badCopies.updAccum.freeReqBuf
theorem Canon.readDone {n : Nat} (h : Canon s) : Canon (readDone n s) := by
  dsimp only [Machine.readDone]
  split
  · exact h.workReadDone
  · split
    · exact h.foldReadDone
    · exact h.rowReadDone
    · exact h.placeDone
    · exact h.refreshReadDone
    · exact h.scrubReadDone
    · exact h.recalReadDone
    · exact h.freeReqBuf
theorem Canon.scrubFailed {r : Req} (h : Canon s) : Canon (scrubFailed r s) := by
  dsimp only [Machine.scrubFailed]
  refine Canon.scrubReadDone ?_
  split
  · exact Canon.ite h h.uncorrEvent
  · exact h.uncorrEvent
theorem Canon.pageLost {r : Req} {pk : Nat} (h : Canon s) : Canon (pageLost r pk s) :=
  (h.uncorrEvent.setPages fun _ => rising_tupd _ _ _ _ h.pages).foldl fun h => Canon.ite h (Canon.ite h.updNs.discard h.updCmd.finishCmd)
theorem Canon.pageFailed {r : Req} {pk : Nat} (h : Canon s) : Canon (pageFailed r pk s) := by
  dsimp only [Machine.pageFailed]
  split
  · exact h.sendPageRead
  · exact h.pageLost
  · exact h
theorem Canon.pagesTick (h : Canon s) : Canon (pagesTick s) := by
  dsimp only [Machine.pagesTick]
  refine h.foldl fun h => ?_
  split
  · refine Canon.ite h ?_
    split
    · exact h.sendPageRead
    · exact h
  · exact h
theorem Canon.readFailed {n : Nat} (h : Canon s) : Canon (readFailed n s) := by
  dsimp only [Machine.readFailed]
  split
  · exact h.pageFailed
  · exact h.workReadFailed
  · exact h.accumReadFailed
  · split
    · exact h.foldReroute
    · exact h.rowReroute
    · exact h.placeFailed
    · exact h.refreshReroute
    · exact h.scrubFailed
    · exact h.recalReadDone
    · exact h.freeReqBuf

end Sys2Proof.Laws
end

