-- ==== Sys2Proof/Proofs/CanonMedia.lean ====
section
/-! PROOFS. O60: the media, the stream engines, the folds, the maps and the bulk ports keep the tables canonical. One lemma for each
operation of the model, in the order of the model. -/
namespace Sys2Proof.Laws
open Sys2Proof Sys2Proof.Machine

variable {s t : State}

/-! ### Media -/
theorem Canon.execFrameStartMarker {frond : Frond} {card : CardId} {low : BitVec 16} {phase : Int} (h : Canon s) : CanonOut
    (execFrameStartMarker frond card low phase s) :=
  CanonOut.ite h.updFrond.next h.updFrond.next
theorem Canon.execMarkerMissing {frond : Frond} (h : Canon s) : CanonOut (execMarkerMissing frond s) :=
  CanonOut.ite h.next h.updFrond.next
theorem Canon.turnedAway {n : Nat} (h : Canon s) : Canon (turnedAway n s) := by
  dsimp only [Machine.turnedAway]
  split
  · exact h.rowReroute
  · exact h.noDie
theorem Canon.mediaRequest {n cnt : Nat} (h : Canon s) : Canon (mediaRequest n cnt s) := by
  dsimp only [Machine.mediaRequest]
  refine h.atCount.whenNot fun hs => hs.updReq.branch (fun h => h.send) fun h => Canon.ite h.freeReqBuf (Canon.ite hs.turnedAway.settleFailed
      (Canon.ite hs.notPlaced.settleFailed ?_))
  split
  · exact hs.updReq.updReq.insertRead.when fun h => h.issueSense
  · exact (hs.updReq.placeReq fun h => h.notPlaced).settleFailed
theorem Canon.execMediaRequest {req cnt : Nat} (h : Canon s) : CanonOut (execMediaRequest req cnt s) :=
  h.mediaRequest.next
theorem Canon.execPlanClose {frond : Frond} (h : Canon s) : CanonOut (execPlanClose frond s) :=
  h.updFrond.atCount.next
theorem Canon.execFramePlanFix {frond : Frond} {cnt : Nat} (h : Canon s) : CanonOut (execFramePlanFix frond cnt s) :=
  CanonOut.ite h.next h.atCount.fixPlan.settleFailed.next
theorem Canon.planLost {card : CardId} {f : Nat} (h : Canon s) : Canon (planLost card f s) :=
  (h.updFrond.foldl fun h => h.withdraw.notPlaced).settleFailed
theorem Canon.execFramePlanMessage {card : CardId} {frond : Frond} {ctr : BitVec 8} {crcOk : Bool} (h : Canon s) : CanonOut
    (execFramePlanMessage card frond ctr crcOk s) :=
  h.alive.updFrond.branch_out (fun h => h.planLost.next) fun h => h.next
theorem Canon.execSuspendPoint {die : Nat} (h : Canon s) : CanonOut (execSuspendPoint die s) :=
  (Canon.ite h.updDie h).next
theorem Canon.issueWindow {die : Nat} (h : Canon s) : Canon (issueWindow die s) :=
  h.foldl fun h => h.issueSense
theorem Canon.beginAgain {m new : Nat} (h : Canon s) : Canon (beginAgain m new s) :=
  Canon.ite h.restartFill h.moveMember.padAgain
theorem Canon.newTarget {k m why : Nat} (h : Canon s) : Canon (newTarget k m why s).2 := by
  unfold Machine.newTarget
  extract_lets f
  split
  · exact h.toDirty.drawMember
  generalize hp : (if (memberAt s m).filling then Machine.takeSpare f 64 (Machine.grownBad k why s) else (none, Machine.grownBad k why s)) = p
  have hs : Canon p.2 := by
    rw [← hp]
    split
    · exact h.grownBad.takeSpare
    · exact h.grownBad
  obtain ⟨_ | b, u⟩ := p
  · exact hs.takeReplacement
  · exact hs
theorem Canon.leaveTarget {k : Nat} {o : LongOp} {bad : Bool} (h : Canon s) : Canon (leaveTarget k o bad s) := by
  dsimp only [Machine.leaveTarget]
  split
  · refine ((Canon.ite h.updFrond h).dropOps.when fun h => h.updChunk).branch (fun h => h.toDirty) fun h => ?_
    split
    next hq => exact (h.grownBad.takeReplacement.of_snd hq).badCheck
    next hq => exact ((h.grownBad.takeReplacement.of_snd hq).when fun h => h.backingDeficit).badCheck
  · refine Canon.ite (((Canon.ite h.updFrond h).dropOps.when fun h => h.updChunk).when fun h => h.grownBad).updBlk.badCheck ?_
    split
    next hq => exact (((Canon.ite h.updFrond h).dropOps.when fun h => h.updChunk).newTarget.of_snd hq).beginAgain.badCheck
    next hq => exact ((((Canon.ite h.updFrond h).dropOps.when fun h => h.updChunk).newTarget.of_snd hq).memberGone.when
        fun h => h.backingDeficit).badCheck
theorem Canon.interruptOp {die : Nat} (h : Canon s) : Canon (interruptOp die s) := by
  dsimp only [Machine.interruptOp]
  split
  · split
    · exact h.delayProg.updDie.unpack
    · exact h
  · refine Canon.ite (Canon.updFrond (Canon.updBlk (Canon.updDie ?_))) (Canon.leaveTarget (Canon.updDie ?_))
    · split
      · exact h.delayProg.updDie.unpack
      · exact h
    · split
      · exact h.delayProg.updDie.unpack
      · exact h
theorem Canon.resetDie {die : Nat} (h : Canon s) : Canon (resetDie die s) :=
  h.interruptOp.updDie
theorem Canon.segmentCheck {die : Nat} {ready : Bool} (h : Canon s) : Canon (segmentCheck die ready s) :=
  h.atCount.branch (fun h => h.updDie.issueWindow) fun h => ((h.updFrond.updStats.event.foldl fun h => h.loseRead).branch (fun h => h.resetDie)
      fun h => h.updDie).dieOverrun.settleFailed
theorem Canon.execSegmentCheck {die : Nat} {ready : Bool} (h : Canon s) : CanonOut (execSegmentCheck die ready s) :=
  h.segmentCheck.next
theorem Canon.execReadCheck {die plane cnt : Nat} {ended : Bool} (h : Canon s) : CanonOut (execReadCheck die plane cnt ended s) := by
  dsimp only [Machine.execReadCheck]
  refine CanonOut.ite h.next ?_
  split
  · exact (h.atCount.updDie.updFrond.updStats.event.loseRead.dieOverrun.when fun h => h.resetDie).settleFailed.next
  · exact (Canon.ite h.atCount.resetDie.settleFailed h).next
theorem Canon.execChannelPlanOverrun {chan : Nat} {dropped : List Nat} (h : Canon s) : CanonOut (execChannelPlanOverrun chan dropped s) :=
  (((h.updFrond.updStats.event.foldl fun h => Canon.ite h.updDie.loseRead h).foldl fun h => h.dropProg).updFrond.updChan.when
      fun h => h.updChan).settleFailed.next
theorem Canon.execChannelCapRestore {chan : Nat} (h : Canon s) : CanonOut (execChannelCapRestore chan s) :=
  (Canon.ite h.updChan h).next
theorem Canon.execQuarantineLift {die : Nat} (h : Canon s) : CanonOut (execQuarantineLift die s) :=
  CanonOut.ite h.updDie.event.next h.next
theorem Canon.execSenseEnd {die plane : Nat} (h : Canon s) : CanonOut (execSenseEnd die plane s) := by
  dsimp only [Machine.execSenseEnd]
  split
  · exact h.updDie.updReq.next
  · exact h.next
theorem Canon.execDataOutEnd {req : Nat} (h : Canon s) : CanonOut (execDataOutEnd req s) :=
  CanonOut.ite h.next (h.updDie.branch_out (fun h => h.updReq.freeReqBuf.next) fun h => CanonOut.ite h.updReq.next h.updReq.next)
theorem Canon.startRetry {n cnt : Nat} {t : Tier} (h : Canon s) : Canon (startRetry n cnt t s) := by
  dsimp only [Machine.startRetry]
  refine Canon.updReq ?_
  split
  · exact (h.updDie.when fun h => h.recalDue).updPiece.foldl fun h => h.addClaim.useClaim
  · exact h.updDie.when fun h => h.recalDue
theorem Canon.uncorrectable {p n : Nat} (h : Canon s) : Canon (uncorrectable p n s) :=
  h.event.failPiece
theorem Canon.lastRoute {p n : Nat} (h : Canon s) : Canon (lastRoute p n s) := by
  dsimp only [Machine.lastRoute]
  split
  · exact h.updReq.updPiece.sendCopy.getD h.updReq.updPiece.uncorrectable
  · exact h.updReq.updPiece.branch (fun h => h.readAround) fun h => h.uncorrectable
  · exact (h.updReq.updPiece.replaceMember.opt_map fun h => h.freeReqBuf).getD h.updReq.updPiece.uncorrectable
theorem Canon.swapMember {p n : Nat} (h : Canon s) : CanonOpt (swapMember p n s) :=
  CanonOpt.ite CanonOpt.none (CanonOpt.ite (h.updReq.updPiece.replaceMember.opt_map fun h => h.freeReqBuf) CanonOpt.none)
theorem Canon.countBits {n cbc : Nat} {t : Tier} (h : Canon s) : Canon (countBits n cbc t s) :=
  h.updDie.whenNot fun h => (Canon.ite h.scheduleRefresh h).when fun h => h.recalDue
theorem Canon.pieceDecoded {p n : Nat} (h : Canon s) : Canon (pieceDecoded p n s) :=
  Canon.ite (h.updPiece.when fun h => h.updSe) h.updSe
theorem Canon.decodeFailed {n cnt : Nat} {t : Tier} (h : Canon s) : Canon (decodeFailed n cnt t s) := by
  dsimp only [Machine.decodeFailed]
  split
  · split
    next hq => exact (CanonOpt.ite h.swapMember CanonOpt.none).of_some hq
    · exact Canon.ite h.startRetry (Canon.ite h.updDie h).lastRoute
  · exact h.startRetry
  · split
    · exact (h.updDie.scheduleRefresh.when fun h => h.badCopies).lastRoute
    · exact h.updDie.scheduleRefresh.updReq.readFailed
theorem Canon.decodeResult {n : Nat} {t : Tier} {bad cbc cnt : Nat} (h : Canon s) : Canon (decodeResult n t bad cbc cnt s) := by
  dsimp only [Machine.decodeResult]
  refine h.atCount.whenNot fun h => Canon.ite h.updReq.freeReqBuf (Canon.ite h.updReq.freeReqBuf (h.countBits.branch (fun h => ?_)
      fun h => h.updReq.decodeFailed.settleFailed))
  split
  · exact h.updReq.pieceDecoded
  · exact h.updReq.readDone.settleFailed
theorem Canon.execDecodeResult {req : Nat} {tier : Tier} {bad cbc cnt : Nat} (h : Canon s) : CanonOut (execDecodeResult req tier bad cbc cnt s) :=
  h.decodeResult.drr.next
theorem Canon.eraseDone {die : Nat} {pass : Bool} (h : Canon s) : Canon (eraseDone die pass s) := by
  dsimp only [Machine.eraseDone]
  split
  · exact h
  · exact Canon.ite h (h.updDie.branch (fun h => h.updBlk.updFrond) fun hs => Canon.ite h ((Canon.ite hs.updFrond
      hs).grownBad.takeReplacement.whenNot fun h => h.backingDeficit).badCheck)
theorem Canon.execEraseDone {die : Nat} {pass : Bool} (h : Canon s) : CanonOut (execEraseDone die pass s) :=
  h.eraseDone.next
theorem Canon.eraseRecord {f : Nat} {ended : List (Nat × Bool)} {recovered : List (Nat × Nat)} {named : List Nat} (h : Canon s) : Canon
    (eraseRecord f ended recovered named s) :=
  ((h.foldl fun h => h.event).foldl fun h => h.updBlk.updDie.updFrond).updFrond
theorem Canon.execEraseJournalRecord {frond : Frond} (h : Canon s) : CanonOut (execEraseJournalRecord frond s) := by
  dsimp only [Machine.execEraseJournalRecord]
  split
  · refine Canon.next (Canon.ite ?_ h)
    split
    · exact h.dropWork.eraseRecord
    · exact h
  · exact h.next
theorem Canon.markIncomplete {k row : Nat} (h : Canon s) : Canon (markIncomplete k row s) :=
  h.updBlk.updFrond
theorem Canon.cutErases {f : Nat} (h : Canon s) : Canon (cutErases f s) := by
  dsimp only [Machine.cutErases]
  refine Canon.updFrond (Canon.foldl (h.foldl fun h => ?_) fun h => h.updBlk.markIncomplete)
  split
  · exact (h.updDie.foldl fun h => h.updBlk.updFrond).when fun h => h.updDie.markIncomplete
  · exact h.updDie.foldl fun h => h.updBlk.updFrond
theorem Canon.execDieResetTimeout {die : Nat} (h : Canon s) : CanonOut (execDieResetTimeout die s) :=
  CanonOut.ite h.next (CanonOut.ite h.updDie.next h.updDie.dieFailed.settleFailed.next)
theorem Canon.nameTraining {chan : Nat} (h : Canon s) : Canon (nameTraining chan s) :=
  Canon.ite h.updChan h.updFrond.updChan
theorem Canon.execChannelRetrainDue {chan : Nat} (h : Canon s) : CanonOut (execChannelRetrainDue chan s) :=
  (Canon.ite h h.nameTraining).next
theorem Canon.trainTick {f : Nat} (h : Canon s) : Canon (trainTick f s) := by
  dsimp only [Machine.trainTick]
  split
  · exact Canon.ite h h.nameTraining
  · exact h
theorem Canon.channelFailed {chan : Nat} (h : Canon s) : Canon (channelFailed chan s) :=
  h.updChan.foldl fun h => h.dieFailed
theorem Canon.execChannelTrainingEnd {chan : Nat} {failed : List Nat} {eye temp : Nat} (h : Canon s) : CanonOut
    (execChannelTrainingEnd chan failed eye temp s) :=
  ((h.event.foldl fun h => h.updDie).foldl fun h => h.updDie).branch_out (fun h => h.next) fun h => (h.updChan.updFrond.foldl
      fun h => h.updDie).branch_out (fun h => h.channelFailed.settleFailed.next) fun h => (h.foldl fun h => h.dieFailed).settleFailed.next
theorem Canon.execRefreshDone {die block : Nat} (h : Canon s) : CanonOut (execRefreshDone die block s) := by
  dsimp only [Machine.execRefreshDone]
  split
  · exact CanonOut.ite h.next h.moveMember.toDirty.updFrond.padAgain.next
  · exact h.next
theorem Canon.execScrubDue {die block : Nat} (h : Canon s) : CanonOut (execScrubDue die block s) := by
  dsimp only [Machine.execScrubDue]
  split
  · exact h.next
  · exact CanonOut.ite h.next (h.updBlk.foldl fun h => h.addReq).next
theorem Canon.execReadOffsetRecalibration {die group : Nat} {offsets : List Int} (h : Canon s) : CanonOut
    (execReadOffsetRecalibration die group offsets s) :=
  CanonOut.ite h.next h.updDie.next

/-! ### Stream -/
theorem Canon.scanStarts {card : CardId} {k : Nat} (h : Canon s) : Canon (scanStarts card k s) := by
  dsimp only [Machine.scanStarts]
  exact (h.setSlices (rising_entries _ (by grind))).updCard
theorem Canon.rowStep {slot : Nat} (h : Canon s) : Canon (rowStep slot s) := by
  dsimp only [Machine.rowStep]
  refine Canon.ite (Canon.ite (Canon.setAccums ?_ (rising_tdel _ _)) (Canon.updAccum ?_)) (Canon.ite h.sendParity h).rowClose
  · split
    · exact h.sendParity.freeExt
    · exact h.sendParity
  · split
    · exact h.sendParity.freeExt
    · exact h.sendParity
theorem Canon.rxDrain {k : Option Nat} (h : Canon s) : Canon (rxDrain k s) := by
  dsimp only [Machine.rxDrain]
  split
  · exact Canon.ite (h.updBulk.when fun h => h.send) h
  · exact h
theorem Canon.encryptUnit {card : CardId} {ck : Nat} (h : Canon s) : Canon (encryptUnit card ck s) :=
  Canon.ite h ((Canon.ite h.takeExt h).updAccum.branch (fun h => h.updCw.chunkCheck) fun h => h.sendCw).rxDrain.rowStep
theorem Canon.bulkSend {p : Nat} (h : Canon s) : Canon (bulkSend p s) :=
  h.updQp.issueWrites
theorem Canon.bulkReadEnd {k : Nat} (h : Canon s) : Canon (bulkReadEnd k s) := by
  dsimp only [Machine.bulkReadEnd]
  refine Canon.ite ?_ h
  split <;> exact h.finishCmd
theorem Canon.readEnd {k : Nat} (h : Canon s) : Canon (readEnd k s) := by
  dsimp only [Machine.readEnd]
  refine Canon.ite h (Canon.ite h.startScan (Canon.ite h ?_))
  split
  · exact h.bulkReadEnd
  · split
    · exact h.settleWrite.finishCmd
    · exact h.updCmd.updSe
  · exact h.finishCmd
  · exact h.finishCmd
theorem Canon.deliver {p : Nat} (h : Canon s) : Canon (deliver p s) := by
  unfold Machine.deliver
  extract_lets pc k c n ds bad s1 s2 s3 s4 s5
  have h3 : Canon s3 := by
    unfold s3
    split
    · exact h.updPiece.updCmd.updCmd
    · exact h.updPiece.updCmd
  have h4 : Canon s4 := { h3 with }
  have h5 : Canon s5 := by
    unfold s5
    split
    · exact h4.decBuf.updPiece
    · exact h4
  exact .ite h (.ite h.discard (.ite h4.bulkSend.readEnd h5.readEnd))
theorem Canon.execReadPieceDelivery {piece : Nat} (h : Canon s) : CanonOut (execReadPieceDelivery piece s) :=
  h.deliver.next
theorem Canon.execReconstructionDone {piece : Nat} (h : Canon s) : CanonOut (execReconstructionDone piece s) :=
  CanonOut.ite h.next h.updPiece.updSe.updSe.freeMembers.next
theorem Canon.scanEnd {k : Nat} (h : Canon s) : Canon (scanEnd k s) := by
  dsimp only [Machine.scanEnd]
  split <;> exact h.finishCmd
theorem Canon.longUnit {card : CardId} {n k blocks : Nat} {w : SeWork} {done : State → State} (h : Canon s) (hdone : ∀ {t}, Canon t → Canon
    (done t)) : Canon (longUnit card n k blocks w done s) :=
  Canon.ite h.updCmd.updEng.updSe (hdone h.updCmd.updEng)
theorem Canon.copyOn {k : Nat} (h : Canon s) : Canon (copyOn k s) := by
  dsimp only [Machine.copyOn]
  split
  · exact h.updCmd.settleWrite.finishCmd
  · exact Canon.ite h.writeAdmit h.convStage
theorem Canon.rowUnit {card : CardId} {x : Nat} (h : Canon s) : Canon (rowUnit card x s) :=
  Canon.ite h (Canon.ite h.updChunk.rowCombined h.updChunk.updSe)
theorem Canon.streamUnit {card : CardId} {n : Nat} (h : Canon s) : Canon (streamUnit card n s) := by
  unfold Machine.streamUnit
  refine Canon.ite h ?_
  split
  · exact h
  next w _ =>
  extract_lets s1 s2
  have h1 : Canon s1 := by
    unfold s1
    split
    · exact h.when fun h => h.scanStarts
    · exact h
  have h2 : Canon s2 := h1.updSe
  split
  · exact h2.rowStep
  · exact h2.encryptUnit
  · exact .ite h2.updPiece.freeMembers h2
  · exact .ite h2.updPiece h2
  · exact h2.rowUnit
  · exact .ite (h2.longUnit fun h => h.scanEnd) h2.updEng
  · exact .ite (h2.longUnit fun h => h.copyOn) h2.updEng
theorem Canon.execStreamEngineUnit {card : CardId} {engine : Nat} (h : Canon s) : CanonOut (execStreamEngineUnit card engine s) :=
  CanonOut.ite h.next h.streamUnit.next
theorem Canon.setMisses {l : List Miss} (h : Canon s) : Canon { s with misses := l } := { h with }
theorem Canon.commandDeadline {k : Nat} (h : Canon s) : Canon (commandDeadline k s) := by
  unfold Machine.commandDeadline
  extract_lets c pol app
  split
  · extract_lets s1 cause back m s2 s3 s4 s5
    have h5 : Canon s5 := (h.when fun h => h.atCount).setMisses.updStats.updSlice.event
    exact .ite h (.ite h5.updCmd (.ite h5.finishCmd (.ite h5.failCmd h5.updCmd)))
  · exact h
theorem Canon.execCommandDeadline {cmd : Nat} (h : Canon s) : CanonOut (execCommandDeadline cmd s) :=
  h.commandDeadline.next

/-! ### Fold -/
theorem Canon.settleCw {ck : Nat} (h : Canon s) : Canon (settleCw ck s) := by
  dsimp only [Machine.settleCw]
  refine Canon.ite h (Canon.chunkCheck ?_)
  split
  · exact Canon.ite h.writeDurable h
  · exact Canon.ite h.updZone h
theorem Canon.progPass {n : Nat} {q : Prog} (h : Canon s) : Canon (progPass n q s) :=
  (h.updBlk.foldl fun h => Canon.ite h.updCw h).foldl fun h => h.settleCw
theorem Canon.progFail {n : Nat} {q : Prog} (h : Canon s) : Canon (progFail n q s) := by
  dsimp only [Machine.progFail]
  exact (h.updFrond.repack.updDie.grownBad.event.takeReplacement.whenNot fun h => h.backingDeficit).badCheck
theorem Canon.metaFail {n : Nat} {q : Prog} (h : Canon s) : Canon (metaFail n q s) := by
  dsimp only [Machine.metaFail]
  split
  next hq => exact (h.uncarry.updDie.grownBad.takeReplacement.of_snd hq).updBlk.badCheck
  next hq => exact (h.uncarry.updDie.grownBad.takeReplacement.of_snd hq).backingDeficit.badCheck
theorem Canon.programReport {n : Nat} {pass : Bool} (h : Canon s) : Canon (programReport n pass s) := by
  dsimp only [Machine.programReport]
  split
  · exact h
  · exact Canon.ite ((h.setProgs (rising_tdel _ _)).updDie.branch (fun h => h.metaPass) fun h => h.metaFail).settleFailed ((h.setProgs
      (rising_tdel _ _)).updDie.branch (fun h => h.progPass.deadBlocks.wake.absentRelease) fun h => h.progFail.settleFailed)
theorem Canon.execProgramStatusReport {prog : Nat} {pass : Bool} (h : Canon s) : CanonOut (execProgramStatusReport prog pass s) :=
  h.programReport.drr.next
theorem Canon.execPackWaitExpiry {frond : Frond} (h : Canon s) : CanonOut (execPackWaitExpiry frond s) :=
  h.updFrond.next
theorem Canon.foldHoldExpiry {slot pos row : Nat} (h : Canon s) : Canon (foldHoldExpiry slot pos row s) := by
  dsimp only [Machine.foldHoldExpiry]
  split
  · exact h
  · exact Canon.ite h.foldRequest h
theorem Canon.execFoldHoldExpiry {slot pos row : Nat} (h : Canon s) : CanonOut (execFoldHoldExpiry slot pos row s) :=
  h.foldHoldExpiry.next
theorem Canon.qlcDone {die : Nat} {pass : Bool} (h : Canon s) : Canon (qlcDone die pass s) := by
  dsimp only [Machine.qlcDone]
  split
  · exact h
  · refine Canon.ite h (h.updDie.branch (fun h => h.leaveTarget.settleFailed) fun hs => ?_)
    split
    · exact hs.setMember.when fun h => h.queueOp
    · exact Canon.ite hs.updChunk.updFrond h.updDie.updChunk
    · exact (Canon.ite h.updChunk h).updDie
    · exact (Canon.ite h.updChunk h).updDie
    · exact h
theorem Canon.execQlcProgramDone {report : DieStatus} (h : Canon s) : CanonOut (execQlcProgramDone report s) :=
  h.qlcDone.next
theorem Canon.foldVerify {die : Nat} {within : Bool} (h : Canon s) : Canon (foldVerify die within s) := by
  dsimp only [Machine.foldVerify]
  split
  · exact h
  · refine Canon.ite h (h.updDie.branch (fun h => h.leaveTarget.settleFailed) fun h => ?_)
    split
    · exact h.refreshRowDone
    · exact h.updRebuild.passRow.updFrond
    · exact h.updChunk.updFrond
theorem Canon.execFoldVerifyDone {die : Nat} {within : Bool} (h : Canon s) : CanonOut (execFoldVerifyDone die within s) :=
  h.foldVerify.next
theorem Canon.tellRelease {x : Nat} (h : Canon s) : Canon (tellRelease x s) :=
  (h.releaseCopies.setChunks fun _ => rising_tdel _ _ h.chunks).foldl fun h => h.deadBlocks
theorem Canon.tellTick (h : Canon s) : Canon (tellTick s) :=
  h.foldl fun h => h.tellRelease
theorem Canon.releaseFold {x : Nat} (h : Canon s) : Canon (releaseFold x s) :=
  ((h.setMember.updStripe.updFrond.foldl fun h => h.updCw.foldl fun h => h.releaseCopy).deadBlocks.when fun h => h.updRebuild).updSeedbed.branch
      (fun h => h.mirror.updChunk) fun h => h.tellRelease
theorem Canon.recordRow {f x : Nat} (h : Canon s) : Canon (recordRow f x s) :=
  h.updFrond
theorem Canon.memberTable {f : Nat} {rows : List Nat} (h : Canon s) : Canon (memberTable f rows s) :=
  (h.foldl fun h => Canon.ite h.recordRow (Canon.ite h.updFrond.releaseFold h)).updFrond
theorem Canon.execMemberTableProgram {frond : Frond} (h : Canon s) : CanonOut (execMemberTableProgram frond s) := by
  dsimp only [Machine.execMemberTableProgram]
  split
  · refine Canon.next (Canon.ite ?_ h)
    split
    · exact h.dropWork.memberTable
    · exact h
  · exact h.next
theorem Canon.recompute {slot : Nat} (h : Canon s) : Canon (recompute slot s) := by
  dsimp only [Machine.recompute]
  refine Canon.ite h (Canon.rowStep (Canon.updAccum (Canon.ite (Canon.takeExt ?_) ?_)))
  · split
    · exact h.freeExt
    · exact h
  · split
    · exact h.freeExt
    · exact h
theorem Canon.execAccumulatorRecomputeDone {nsid zone : Nat} (h : Canon s) : CanonOut (execAccumulatorRecomputeDone nsid zone s) :=
  ((h.foldl fun h => h.recompute).whenNot fun h => h.foldl fun h => h.resume).next
theorem Canon.stripeWhole {slot pos : Nat} (h : Canon s) : Canon (stripeWhole slot pos s) :=
  (h.updRebuild.when fun h => h.mirror).journal.mirror
theorem Canon.rebuildDone {slot pos : Nat} (h : Canon s) : Canon (rebuildDone slot pos s) :=
  Canon.ite h h.setMember.stripeWhole.unqueue.padAgain.rebuildIdle
theorem Canon.execRebuildStripeDone {slot pos : Nat} (h : Canon s) : CanonOut (execRebuildStripeDone slot pos s) :=
  h.rebuildDone.next

/-! ### Maps -/
theorem Canon.setMapPages {a : Tbl (Option (Nat × Nat))} {b : Tbl MapPage} (h : Canon s) (ha : rising s.map = true → rising a = true)
    (hb : rising s.pages = true → rising b = true) : Canon { s with map := a, pages := b } := { h with map := ha h.map, pages := hb h.pages }
theorem Canon.mapSet {nsid lba : Nat} {v : Option (Nat × Nat)} (h : Canon s) : Canon (mapSet nsid lba v s) := by
  unfold Machine.mapSet
  extract_lets k s1 s2
  have h1 : Canon s1 := by
    unfold s1
    split
    · exact h.updStripe
    · exact h
  have h2 : Canon s2 := by
    unfold s2
    split
    · exact h1.updStripe
    · exact h1
  exact h2.setMapPages (rising_tput _ _ _ _) (rising_tupd _ _ _ _)
theorem Canon.coverCws {r : JRec} (h : Canon s) : Canon (coverCws r s) :=
  Canon.ite h (h.foldl fun h => Canon.ite h.updCw h)
theorem Canon.applyUpdate {r : JRec} (h : Canon s) : Canon (applyUpdate r s) :=
  h.coverCws.foldl fun h => Canon.ite h h.mapSet
theorem Canon.slotGone {r : JRec} (h : Canon s) : Canon (slotGone r s) :=
  (h.foldl fun h => h.mapSet).updNs
theorem Canon.recEffect {r : JRec} (h : Canon s) : Canon (recEffect r s) := by
  dsimp only [Machine.recEffect]
  split
  · exact h.applyUpdate
  · split
    · exact h.finishDone
    · exact h
  · split
    · exact Canon.ite h.freeStripe h
    · exact h
  · split
    · exact Canon.ite h.freeStripe h
    · exact h
  · exact Canon.ite h.slotGone.freeStripe h
  · exact h
theorem Canon.applyRec {r : JRec} (h : Canon s) : Canon (applyRec r s) := by
  dsimp only [Machine.applyRec]
  split
  · exact h.recEffect
  · exact h.recEffect.whenNot fun h => h.updCmd.when fun h => Canon.ite h.updCmd h.endWrite
theorem Canon.recsWritten {c : CardId} {l : List JRec} (h : Canon s) : Canon (recsWritten c l s) :=
  h.updJ.mirror.foldl fun h => h.applyRec
theorem Canon.journalProgrammed {c : CardId} (h : Canon s) : Canon (journalProgrammed c s) := by
  dsimp only [Machine.journalProgrammed]
  split
  · refine Canon.ite ?_ h
    split
    · exact h.dropWork.recsWritten
    · exact h
  · exact h
theorem Canon.execMapJournalProgrammed {card : CardId} (h : Canon s) : CanonOut (execMapJournalProgrammed card s) :=
  h.journalProgrammed.next
theorem Canon.evict {c : CardId} (h : Canon s) : Canon (evict c s).2 := by
  dsimp only [Machine.evict]
  split
  · exact (h.setPages fun h => rising_tdel _ _ (rising_entries _ (by grind) h)).updJ.inSnd
  · exact (h.setPages fun h => rising_tdel _ _ (rising_entries _ (by grind) h)).updJ.inSnd
  · refine Canon.inSnd ?_
    split
    · exact h.writePage
    · exact h
theorem Canon.placePage {pk : Nat} (h : Canon s) : Canon (placePage pk s) :=
  (Canon.ite_snd h.evict h).branch (fun h => h.setPages (rising_tupd _ _ _ _)) fun h => ((h.setPages (rising_tins _ _ _)).foldl
      fun h => Canon.ite h.proceedRead h).settleFailed
theorem Canon.mapPageRead {nsid page : Nat} (h : Canon s) : Canon (mapPageRead nsid page s) :=
  Canon.ite h h.placePage
theorem Canon.execMapPageRead {nsid page : Nat} (h : Canon s) : CanonOut (execMapPageRead nsid page s) :=
  h.mapPageRead.next
theorem Canon.arrivedTick (h : Canon s) : Canon (arrivedTick s) :=
  h.foldl fun h => h.placePage
theorem Canon.startCheckpoint {card : CardId} (h : Canon s) : Canon (startCheckpoint card s) :=
  Canon.ite h (h.updJ.foldl fun h => h.writePage)
theorem Canon.checkpointTick {card : CardId} (h : Canon s) : Canon (checkpointTick card s) :=
  Canon.ite h (Canon.ite (h.updJ.foldl fun h => h.addWork) (Canon.ite h.updJ.addWork h))
theorem Canon.execCheckpointStart {card : CardId} (h : Canon s) : CanonOut (execCheckpointStart card s) :=
  (Canon.ite h h.startCheckpoint).next
theorem Canon.execCheckpointComplete {card : CardId} (h : Canon s) : CanonOut (execCheckpointComplete card s) := by
  dsimp only [Machine.execCheckpointComplete]
  split
  · exact (Canon.ite h.dropWork.updJ h).next
  · exact h.next
theorem Canon.allocatorRequest {nsid zone cls : Nat} (h : Canon s) : Canon (allocatorRequest nsid zone cls s) := by
  dsimp only [Machine.allocatorRequest]
  refine Canon.foldl ?_ fun h => Canon.ite h.zoneOpenWith (Canon.ite h.zoneStageWith h.convStageWith)
  split
  · exact h.updCmd
  · exact h
theorem Canon.execAllocatorRequest {nsid zone cls : Nat} (h : Canon s) : CanonOut (execAllocatorRequest nsid zone cls s) :=
  h.allocatorRequest.next
theorem Canon.gcCopy {nsid : Nat} {urgent : Bool} {r : Nat × Nat} (h : Canon s) : Canon (gcCopy nsid urgent r s) :=
  (h.fresh.setCmds (rising_tins _ _ _)).writeGo
theorem Canon.gcStart {nsid : Nat} (h : Canon s) : Canon (gcStart nsid s) := by
  dsimp only [Machine.gcStart]
  refine (Canon.ite h.updNs h).whenNot fun h => ?_
  split
  · exact h
  · exact h.updNs.foldl fun h => h.gcCopy
theorem Canon.gcRelease {slot : Nat} (h : Canon s) : Canon (gcRelease slot s) :=
  Canon.ite h h.journal
theorem Canon.execGcVictimRelease {slot : Nat} (h : Canon s) : CanonOut (execGcVictimRelease slot s) :=
  h.gcRelease.next

/-! ### Bulk -/
theorem Canon.ackList {qp : Nat} {l : List (Nat × Nat × Nat × Nat × Bool)} (h : Canon s) : Canon (ackList qp l s) := by
  dsimp only [Machine.ackList]
  refine Canon.ite h (Canon.foldl ((h.updQp.foldl fun h => Canon.ite h.updCmd h).foldl fun h => Canon.ite h ?_) fun h => Canon.ite h.bulkReadEnd h)
  split
  · split
    · exact h.decBuf.updPiece
    · exact h
  · exact h
theorem Canon.resend {qp psn : Nat} (h : Canon s) : Canon (resend qp psn s) := by
  dsimp only [Machine.resend]
  refine Canon.ite h.updQp (Canon.ite h.updQp ?_)
  split
  · exact (h.foldl fun h => h.send).updQp
  · exact (h.foldl fun h => h.send).updQp.send.updQp
theorem Canon.qpGoes {qp : Nat} (h : Canon s) : Canon (qpGoes qp s) := by
  dsimp only [Machine.qpGoes]
  refine Canon.issueAppends (Canon.issueWrites ?_)
  split
  · exact h.resend
  · exact h
theorem Canon.portGoes {c : CardId} (h : Canon s) : Canon (portGoes c s) :=
  h.foldl fun h => h.qpGoes
theorem Canon.answerRoce {c : CardId} {m : Nat × Option (Nat × Nat)} (h : Canon s) : Canon (answerRoce c m s) :=
  Canon.ite h.updBulk h.send
theorem Canon.pauseEnds {c : CardId} (h : Canon s) : Canon (pauseEnds c s) :=
  (h.updBulk.foldl fun h => h.answerRoce).portGoes
theorem Canon.bulkTick (h : Canon s) : Canon (bulkTick s) := by
  dsimp only [Machine.bulkTick]
  exact (h.setQps (rising_values _)).portGoes.portGoes
theorem Canon.bulkEnd {reason k : Nat} (h : Canon s) : Canon (bulkEnd reason k s) :=
  Canon.ite h.bulkArrived h.finishCmd
theorem Canon.qpError {qp reason : Nat} (h : Canon s) : Canon (qpError qp reason s) :=
  Canon.ite h (h.updQp.event.foldl fun h => h.bulkEnd)
theorem Canon.retry {qp psn : Nat} (h : Canon s) : Canon (retry qp psn s) :=
  Canon.ite h.qpError h.updQp.resend
theorem Canon.countNak {qp : Nat} (h : Canon s) : Canon (countNak qp s) :=
  h.updBulk
theorem Canon.execRdmaAck {qp psn cnt : Nat} (h : Canon s) : CanonOut (execRdmaAck qp psn cnt s) :=
  h.atCount.ackList.next
theorem Canon.execNakSequenceError {qp psn : Nat} (h : Canon s) : CanonOut (execNakSequenceError qp psn s) :=
  h.countNak.branch_out (fun h => h.next) fun h => h.ackList.retry.next
theorem Canon.execNakRemoteAccessError {qp : Nat} (h : Canon s) : CanonOut (execNakRemoteAccessError qp s) :=
  h.countNak.qpError.next
theorem Canon.execNakRemoteOperationalError {qp : Nat} (h : Canon s) : CanonOut (execNakRemoteOperationalError qp s) :=
  h.countNak.qpError.next
theorem Canon.execAckTimeout {qp : Nat} (h : Canon s) : CanonOut (execAckTimeout qp s) := by
  dsimp only [Machine.execAckTimeout]
  refine Canon.next ?_
  split
  · exact h
  · exact Canon.ite h.retry h
theorem Canon.cnpAnswer {qp : Nat} {ce : Bool} (h : Canon s) : Canon (cnpAnswer qp ce s) :=
  Canon.ite h.updQp.answerRoce h
theorem Canon.readResponse {qp psn : Nat} {ce : Bool} {bytes : List Byte} (h : Canon s) : Canon (readResponse qp psn ce bytes s) := by
  dsimp only [Machine.readResponse]
  split
  · exact h.cnpAnswer
  · exact h.cnpAnswer.branch (fun h => h.resend) fun h => h.updQp.whenNot fun h => (h.updCmd.updBulk.when fun h => h.send).issueAppends.when
      fun h => h.bulkArrived
theorem Canon.execRdmaReadResponse {qp psn : Nat} {ce : Bool} {cnt : Nat} {bytes : List Byte} (h : Canon s) : CanonOut
    (execRdmaReadResponse qp psn ce cnt bytes s) :=
  h.atCount.readResponse.next
theorem Canon.execCnpReceived {qp : Nat} (h : Canon s) : CanonOut (execCnpReceived qp s) :=
  h.updQp.next
theorem Canon.execRateRecover {qp : Nat} (h : Canon s) : CanonOut (execRateRecover qp s) :=
  CanonOut.ite h.updQp.next h.next
theorem Canon.execInvalidRequestPacket {bulk : CardId} {qp psn : Nat} {opcode : BitVec 8} (h : Canon s) : CanonOut
    (execInvalidRequestPacket bulk qp psn opcode s) :=
  CanonOut.ite h.next h.updBulk.answerRoce.next
theorem Canon.execArpRequest {bulk : CardId} {target : BitVec 32} {senderMac : BitVec 48} {senderIp : BitVec 32} (h : Canon s) : CanonOut
    (execArpRequest bulk target senderMac senderIp s) :=
  CanonOut.ite h.send.next h.next
theorem Canon.execNeighborSolicitation {bulk : CardId} {target sender : BitVec 128} (h : Canon s) : CanonOut
    (execNeighborSolicitation bulk target sender s) :=
  CanonOut.ite h.send.next h.next
theorem Canon.execPfcFrame {bulk : CardId} {prio quanta : Nat} (h : Canon s) : CanonOut (execPfcFrame bulk prio quanta s) :=
  (Canon.ite h (Canon.ite h.pauseEnds h.updBulk)).next
theorem Canon.execPfcPauseEnd {bulk : CardId} (h : Canon s) : CanonOut (execPfcPauseEnd bulk s) :=
  h.pauseEnds.next
theorem Canon.execOtherFrame {_bulk : CardId} (h : Canon s) : CanonOut (execOtherFrame _bulk s) :=
  h.next
theorem Canon.execBulkLinkDown {bulk : CardId} (h : Canon s) : CanonOut (execBulkLinkDown bulk s) :=
  h.updBulk.next
theorem Canon.execBulkLinkUp {bulk : CardId} (h : Canon s) : CanonOut (execBulkLinkUp bulk s) :=
  (h.updBulk.setQps (rising_entries _ (by grind))).pauseEnds.next
theorem Canon.execBulkLinkDownExpiry {bulk : CardId} (h : Canon s) : CanonOut (execBulkLinkDownExpiry bulk s) := by
  dsimp only [Machine.execBulkLinkDownExpiry]
  split
  · exact h.next
  · exact CanonOut.ite h.next (h.foldl fun h => h.updQp.foldl fun h => Canon.ite h.bulkEnd h).next

end Sys2Proof.Laws
end

