-- ==== Sys2Proof/Proofs/CanonReset.lean ====
section
/-! PROOFS. O60: departures, resets, the pair and power states keep the tables canonical. One lemma for each
operation of the model, in the order of the model. -/
namespace Sys2Proof.Laws
open Sys2Proof Sys2Proof.Machine

variable {s t : State}

/-! ### Depart -/
theorem Canon.sealTable {f : Nat} (h : Canon s) : Canon (sealTable f s) :=
  h.updFrond
theorem Canon.holdChunks {f : Nat} (h : Canon s) : Canon (holdChunks f s) :=
  h.foldl fun h => h.dropRow.freeStage.branch (fun h => h.setChunks (rising_tdel _ _)) fun h => h.updChunk
theorem Canon.frondDepart {f st : Nat} (h : Canon s) : Canon (frondDepart f st s) :=
  h.sealTable.cutErases.holdChunks.frondGone.unqueue.updFrond.rebuildIdle.sortQueue
theorem Canon.untrain {f : Nat} (h : Canon s) : Canon (untrain f s) :=
  h.foldl fun h => h.updChan
theorem Canon.linkCheck (h : Canon s) : Canon (linkCheck s) :=
  Canon.ite h (h.foldl fun h => h.frondDepart.updFrond)
theorem Canon.coreFailed {f : Nat} (h : Canon s) : Canon (coreFailed f s) :=
  h.frondDepart.event.updFrond
theorem Canon.execMarkerLost {frond : Frond} (h : Canon s) : CanonOut (execMarkerLost frond s) :=
  CanonOut.ite h.next h.coreFailed.next
theorem Canon.execPlanLate {frond : Frond} {cnt : Nat} (h : Canon s) : CanonOut (execPlanLate frond cnt s) := by
  dsimp only [Machine.execPlanLate]
  refine CanonOut.ite h.next (h.atCount.updStats.updFrond.event.branch_out (fun h => Canon.next (Canon.coreFailed (Canon.updFrond (Canon.foldl
      (Canon.settleFailed (h.foldl fun h => ?_)) fun h => h.delayCw)))) fun h => Canon.next (Canon.foldl (Canon.settleFailed (h.foldl
      fun h => ?_)) fun h => h.delayCw))
  · split
    · exact h.notPlaced.updPiece
    · exact h.notPlaced
  · split
    · exact h.notPlaced.updPiece
    · exact h.notPlaced

/-! ### Reset -/
theorem Canon.requestRegs {l : List RegId} (h : Canon s) : Canon (requestRegs l s) :=
  h.foldl fun h => h.updPower.send
theorem Canon.followFreq {old : State} (h : Canon s) : Canon (followFreq old s) :=
  h.foldl fun h => Canon.ite h h.updPower.send
theorem Canon.startExit {x : ExitSt} (h : Canon s) : Canon (startExit x s) :=
  (Canon.ite (h.foldl fun h => Canon.ite h.untrain h) h).updPower.requestRegs
theorem Canon.wakeEvent {target : Option Nat} (h : Canon s) : Canon (wakeEvent target s) := by
  dsimp only [Machine.wakeEvent]
  split
  · exact Canon.ite h h.updPower
  · exact Canon.ite h.startExit h
theorem Canon.portLost {p : Port} (h : Canon s) : Canon (portLost p s) :=
  h.setSlices (rising_entries _ (by grind))
theorem Canon.setAdmin {a : Tbl FrondSt} {b : Tbl Ns} {c : Tbl Slice} {l : List Sqe} {j : List Job} (h : Canon s)
    (ha : rising s.fronds = true → rising a = true)
    (hb : rising s.nss = true → rising b = true) (hc : rising s.slices = true → rising c = true) :
    Canon { s with fronds := a, nss := b, slices := c, heldAdmin := l, jobs := j } :=
  { h with fronds := ha h.fronds, nss := hb h.nss, slices := hc h.slices }
theorem Canon.dropAdmin {p : Port} (h : Canon s) : Canon (dropAdmin p s) :=
  h.updCard.updCard.updPower.updSheaf.updSec.updEvents.setAdmin (rising_values _) (rising_values _) (rising_values _)
theorem Canon.undoResets {sel : JRec → Bool} (h : Canon s) : Canon (undoResets sel s) := by
  dsimp only [Machine.undoResets]
  refine Canon.foldl (Canon.foldl (Canon.updJ (h.updJ.foldl fun h => ?_)) fun h => ?_) fun h => ?_
  · split
    · exact h.updZone
    · exact h
  · split
    · exact h.updZone
    · exact h
  · split
    · refine h.updWork.foldl fun h => ?_
      split
      · exact h.updZone
      · exact h
    · exact h
theorem Canon.dropPort {p : Port} (h : Canon s) : Canon (dropPort p s) :=
  (h.undoResets.foldl fun h => Canon.ite h.updCmd (Canon.ite h.settleWrite h).dropCmd).wake
theorem Canon.setQueueTables {a : Tbl SubQ} {b : Tbl ComQ} (h : Canon s) (ha : rising s.sqs = true → rising a = true)
    (hb : rising s.cqs = true → rising b = true) : Canon { s with sqs := a, cqs := b } := { h with sqs := ha h.sqs, cqs := hb h.cqs }
theorem Canon.ctrlReset {p : Port} {cc : BitVec 32} (h : Canon s) : Canon (ctrlReset p cc s) :=
  h.portLost.dropPort.dropAdmin.closeZones.updCtrl.setQueueTables (rising_filter _ _) (rising_filter _ _)
theorem Canon.execCcEnClear {port : Port} (h : Canon s) : CanonOut (execCcEnClear port s) :=
  (Canon.ite h.ctrlReset h).next
theorem Canon.execFunctionLevelReset {port : Port} (h : Canon s) : CanonOut (execFunctionLevelReset port s) :=
  (Canon.ite h.ctrlReset h).next
theorem Canon.execControllerLevelReset {port : Port} (h : Canon s) : CanonOut (execControllerLevelReset port s) :=
  (Canon.ite h.ctrlReset h).next
theorem Canon.execPcieLinkLoss {port : Port} (h : Canon s) : CanonOut (execPcieLinkLoss port s) :=
  (Canon.ite h.ctrlReset.updCtrl h).next
theorem Canon.execPcieLinkUp {port : Port} (h : Canon s) : CanonOut (execPcieLinkUp port s) :=
  (Canon.ite h.updCtrl h).next
theorem Canon.execShutdownNotification {port : Port} (h : Canon s) : CanonOut (execShutdownNotification port s) :=
  (Canon.ite h.updCtrl h).next
theorem Canon.execShutdownComplete {port : Port} (h : Canon s) : CanonOut (execShutdownComplete port s) :=
  CanonOut.ite (h.updCtrl.when fun h => h.updTime).next h.next
theorem Canon.execSqTailDoorbell {port : Port} {sqid tail cnt : Nat} (h : Canon s) : CanonOut (execSqTailDoorbell port sqid tail cnt s) :=
  h.atCount.branch_out (fun h => h.next) fun h => h.updSq.wakeEvent.next
theorem Canon.execCqHeadDoorbell {port : Port} {cqid head : Nat} (h : Canon s) : CanonOut (execCqHeadDoorbell port cqid head s) :=
  (Canon.ite h.updCq h).next
theorem Canon.execRegisterWrite {port : Port} {reg : HostReg} {value hwSet : BitVec 64} (h : Canon s) : CanonOut
    (execRegisterWrite port reg value hwSet s) := by
  dsimp only [Machine.execRegisterWrite]
  refine CanonOut.ite h.next ?_
  split
  · exact h.next
  · exact h.next
  · exact h.next
  · exact h.updCtrl.next
  · exact h.updCtrl.next
  · exact h.updCtrl.next
  · exact h.updCtrl.next
  · exact h.updCtrl.next
  · exact h.updCtrl.next
  · exact h.updCtrl.next

/-! ### Pair -/
theorem Canon.anaPort {p : Port} (h : Canon s) : Canon (anaPort p s) :=
  Canon.ite h h.updCtrl.aenPort
theorem Canon.anaUpdate (h : Canon s) : Canon (anaUpdate s) :=
  h.anaPort.anaPort
theorem Canon.raiseEpoch (h : Canon s) : Canon (raiseEpoch s) := by
  dsimp only [Machine.raiseEpoch]
  exact h.updCard.updCard
theorem Canon.ackRecord {c : CardId} {msn : Nat} (h : Canon s) : Canon (ackRecord c msn s) := by
  dsimp only [Machine.ackRecord]
  split
  · exact h
  · exact (h.updCard.foldl fun h => Canon.ite (h.updCmd.when fun h => Canon.ite h.updCmd h.endWrite) h).when fun h => h.updCard
theorem Canon.ackUpTo {c : CardId} {msn : Nat} (h : Canon s) : Canon (ackUpTo c msn s) :=
  h.foldl fun h => h.ackRecord
theorem Canon.ackAll {c : CardId} (h : Canon s) : Canon (ackAll c s) :=
  h.foldl fun h => h.ackRecord
theorem Canon.passJournal {c : CardId} (h : Canon s) : Canon (passJournal c s) := by
  dsimp only [Machine.passJournal]
  refine Canon.updJ (Canon.updJ (h.updMetas ?_ id))
  dsimp only
  exact fun h => rising_entries _ (by grind) (rising_filter _ _ h)
theorem Canon.replaceMissing {o : CardId} {mine : List Nat} (h : Canon s) : Canon (replaceMissing o mine s) := by
  dsimp only [Machine.replaceMissing]
  exact (h.dropPack.foldl fun h => Canon.ite (h.updCw.foldl fun h => h.recopy) (Canon.ite (h.setCws
      (rising_tdel _ _)).fillBlocks h.updCw.sendCw)).updSe
theorem Canon.settleLost {k : Nat} (h : Canon s) : Canon (settleLost k s) :=
  Canon.ite h.settleBy h
theorem Canon.cmdsMeet {c : CardId} (h : Canon s) : Canon (cmdsMeet c s) :=
  (h.foldl fun h => h.settleLost.dropCmd).foldl fun h => Canon.ite h.updCmd (Canon.ite h.updCmd h.settleLost.finishCmd)
theorem Canon.restartMember {m : Nat} (h : Canon s) : Canon (restartMember m s) := by
  dsimp only [Machine.restartMember]
  split
  · exact h
  · refine Canon.ite h ?_
    split
    next hq => exact (h.dropOps.toDirty.drawMember.of_snd hq).restartFill
    next hq => exact (h.dropOps.toDirty.drawMember.of_snd hq).memberGone
theorem Canon.restartRebuild {ms : List Nat} (h : Canon s) : Canon (restartRebuild ms s) :=
  (h.foldl fun h => h.restartMember).updRebuild
theorem Canon.portsDown {c : CardId} (h : Canon s) : Canon (portsDown c s) := by
  dsimp only [Machine.portsDown]
  exact ((h.ctrlReset.updCtrl.updCulm.foldl fun h => h.bulkEnd).setQps (rising_entries _ (by grind))).updBulk
theorem Canon.takeoverWakes (h : Canon s) : Canon (takeoverWakes s) := by
  dsimp only [Machine.takeoverWakes]
  split
  · exact h.updPower
  · exact h.wakeEvent
theorem Canon.takeover {c : CardId} (h : Canon s) : Canon (takeover c s) :=
  (((h.send.setMaster.undoResets.closeZones.setAccums fun _ => rising_entries _ (by grind)
      h.send.setMaster.undoResets.accums).passJournal.updSe.setNss (rising_entries _ (by
      grind))).updPair.raiseEpoch.cmdsMeet.replaceMissing.restartRebuild.when fun h => h.updSec).ackAll.wake.anaUpdate.linkCheck.takeoverWakes
theorem Canon.cardOut {c : CardId} {row : Nat} {why : HeldWhy} (h : Canon s) : Canon (cardOut c row why s) := by
  dsimp only [Machine.cardOut]
  refine Canon.ite h ((h.event.portsDown.updCard.when fun h => h.send).updMem.updPair.branch (fun h => h.updCard.takeover) fun h => Canon.updSe
      (Canon.updSe (Canon.via (Canon.ite h.portsDown.updCard h) fun h => { h with cmds := ?_, pieces := ?_ })))
  · dsimp only
    exact rfl
  · dsimp only
    exact rfl
theorem Canon.execHeartbeat {card : CardId} {hb : HeartbeatMsg} (h : Canon s) : CanonOut (execHeartbeat card hb s) :=
  CanonOut.ite h.next (h.alive.updMem.branch_out (fun h => h.next) fun h => (h.updCard.ackUpTo.when fun h => h.cardOut).next)
theorem Canon.execHeartbeatMissed {card : CardId} (h : Canon s) : CanonOut (execHeartbeatMissed card s) :=
  CanonOut.ite h.next (h.updCard.branch_out (fun h => h.next) fun h => CanonOut.ite h.cardOut.next (CanonOut.ite h.updPair.cardOut.next h.next))
theorem Canon.execCardPresentOpen {card : CardId} (h : Canon s) : CanonOut (execCardPresentOpen card s) :=
  h.cardOut.updFuse.updCard.next
theorem Canon.execFenceReceived {frond : Frond} {fenced : CardId} (h : Canon s) : CanonOut (execFenceReceived frond fenced s) :=
  CanonOut.ite h.next (h.updFrond.foldl fun h => h.withdraw.whenNot fun h => h.updReq).next
theorem Canon.execRhizomeLaneLoss {trainsOn8 : Bool} (h : Canon s) : CanonOut (execRhizomeLaneLoss trainsOn8 s) :=
  CanonOut.ite h.updPair.next (h.updPair.when fun h => h.cardOut).next
theorem Canon.execMirrorRecord {card : CardId} {msn : Nat} (h : Canon s) : CanonOut (execMirrorRecord card msn s) :=
  CanonOut.ite h.next h.updCard.send.next
theorem Canon.execMirrorAck {card : CardId} {msn : Nat} (h : Canon s) : CanonOut (execMirrorAck card msn s) :=
  h.ackRecord.next
theorem Canon.execMirrorAckTimeout {card : CardId} {msn : Nat} (h : Canon s) : CanonOut (execMirrorAckTimeout card msn s) :=
  (Canon.ite h.updCard h).next
theorem Canon.startTransfer {g : Sys2Proof.Group} {dest : CardId} (h : Canon s) : Canon (startTransfer g dest s) :=
  Canon.ite h h.updPair.updCard
theorem Canon.execOwnershipTransfer {group : Sys2Proof.Group} {dest : CardId} (h : Canon s) : CanonOut (execOwnershipTransfer group dest s) :=
  h.startTransfer.next
theorem Canon.execOwnershipCopyDone {group : Sys2Proof.Group} (h : Canon s) : CanonOut (execOwnershipCopyDone group s) :=
  h.updPair.next
theorem Canon.releaseHeld (h : Canon s) : Canon (releaseHeld s) :=
  h.foldl fun h => h.updCmd.atOwner fun h => h.runKind
theorem Canon.switchGroup {t : Transfer} (h : Canon s) : Canon (switchGroup t s) :=
  h.updPair.updCard.updCard.raiseEpoch.anaUpdate.releaseHeld
theorem Canon.execTakeoverComplete {card : CardId} (h : Canon s) : CanonOut (execTakeoverComplete card s) := by
  dsimp only [Machine.execTakeoverComplete]
  split
  · exact CanonOut.ite h.updPair.event.releaseHeld.next h.next
  · exact h.next
theorem Canon.execTickMasterHandover (h : Canon s) : CanonOut (execTickMasterHandover s) :=
  (Canon.ite h.updPair h).next
theorem Canon.culmBack {card : CardId} (h : Canon s) : Canon (culmBack card s) :=
  h.updCulm

/-! ### PowerState -/
theorem Canon.answer {cmd : Option (Port × Nat × Nat)} {st : Nat × Nat} {dw0 dw1 : Nat} (h : Canon s) : Canon (answer cmd st dw0 dw1 s) := by
  dsimp only [Machine.answer]
  split
  · exact h.post
  · exact h
theorem Canon.entryEnds {result block point target : Nat} (h : Canon s) : Canon (entryEnds result block point target s) :=
  h.updPower.event
theorem Canon.unwind {block : Nat} (h : Canon s) : Canon (unwind block s) := by
  dsimp only [Machine.unwind]
  split
  · exact h
  · refine Canon.aenPage (Canon.answer ?_)
    split
    · exact (((Canon.ite (h.foldl fun h => Canon.ite h.untrain h) h).setFronds (rising_values _)).when
        fun h => h.updPower.requestRegs).updPower.entryEnds.when fun h => h.updPower
    · exact (((Canon.ite (h.foldl fun h => Canon.ite h.untrain h) h).setFronds (rising_values _)).when
        fun h => h.updPower.requestRegs).updPower.entryEnds
theorem Canon.parkFrond {target f : Nat} (h : Canon s) : Canon (parkFrond target f s) :=
  Canon.ite h (Canon.ite h.cutErases h).updFrond
theorem Canon.entryWait {en : EntrySt} {l : List Nat} (h : Canon s) : Canon (entryWait en l s) :=
  h.updPower
theorem Canon.entryPass {go : State → State} (h : Canon s) (hgo : ∀ {t}, Canon t → Canon (go t)) : Canon (entryPass go s) := by
  dsimp only [Machine.entryPass]
  split
  · exact Canon.ite h.updPower.unwind (h.updPower.branch (fun h => h.requestRegs) fun h => hgo h)
  · exact h
theorem Canon.entryHosts {en : EntrySt} {go : State → State} (h : Canon s) (hgo : ∀ {t}, Canon t → Canon (go t)) : Canon (entryHosts en go s) :=
  Canon.ite h.entryWait (Canon.ite h.entryWait (h.entryPass hgo))
theorem Canon.entryPair {en : EntrySt} {go : State → State} (h : Canon s) (hgo : ∀ {t}, Canon t → Canon (go t)) : Canon (entryPair en go s) := by
  dsimp only [Machine.entryPair]
  split
  · exact h.unwind
  · exact Canon.ite (hgo ((h.updMem.updMem.when fun h => h.startCheckpoint).when fun h => h.startCheckpoint).updPower) (h.updMem.updMem.whenNot
      fun h => h.entryPass hgo)
theorem Canon.entryDone {en : EntrySt} (h : Canon s) : Canon (entryDone en s) := by
  dsimp only [Machine.entryDone]
  refine Canon.ite ?_ h
  split
  · exact h.updPower.entryEnds.answer.startExit
  · exact h.updPower.entryEnds.answer
theorem Canon.entryGo {n : Nat} (h : Canon s) : Canon (entryGo n s) := by
  induction n generalizing s with
  | zero => exact h
  | succ n ih =>
    unfold Machine.entryGo
    split
    · exact h
    · refine .ite (h.entryHosts ih) (.ite (h.entryPair ih) (.ite ?_ (.ite (h.entryPass ih) h.entryDone)))
      split
      · exact (h.foldl fun h => h.parkFrond).entryPass ih
      · exact h.entryWait
theorem Canon.entryAdvance (h : Canon s) : Canon (entryAdvance s) :=
  h.entryGo
theorem Canon.startEntry {target : Nat} {cmd : Option (Port × Nat × Nat)} (h : Canon s) : Canon (startEntry target cmd s) :=
  h.updPower.entryAdvance
theorem Canon.execEntryDelayExpiry {block : Nat} (h : Canon s) : CanonOut (execEntryDelayExpiry block s) := by
  dsimp only [Machine.execEntryDelayExpiry]
  split
  · exact (Canon.ite h.unwind h).next
  · exact h.next
theorem Canon.execRegulatorAck {reg : RegId} (h : Canon s) : CanonOut (execRegulatorAck reg s) :=
  h.updPower.entryAdvance.next
theorem Canon.regFailed {reg : RegId} (h : Canon s) : Canon (regFailed reg s) := by
  dsimp only [Machine.regFailed]
  refine h.updPower.event.aenPage.branch (fun h => h.unwind) fun h => ?_
  split
  · exact h.updFuse.whenNot fun h => h.frondDepart
  · exact Canon.ite h.cardOut h.updCard
  · exact Canon.ite h.cardOut h.updCard
theorem Canon.execRegulatorTimeout {reg : RegId} (h : Canon s) : CanonOut (execRegulatorTimeout reg s) := by
  dsimp only [Machine.execRegulatorTimeout]
  split
  · exact h.next
  · exact CanonOut.ite h.next (CanonOut.ite h.updPower.send.next h.regFailed.next)
theorem Canon.execOscillatorTimeout {card : CardId} (h : Canon s) : CanonOut (execOscillatorTimeout card s) :=
  CanonOut.ite h.next (CanonOut.ite (Canon.ite h.updCard h.cardOut).next h.updCard.event.aenPage.next)

/-! ### Return -/
theorem Canon.placeWaiting (h : Canon s) : Canon (placeWaiting s) :=
  h.foldl fun h => Canon.ite h (Canon.ite h.updSeedbed (h.foldl fun h => Canon.ite h.updCw.recopy h))
theorem Canon.memberBlock {f m v : Nat} (h : Canon s) : Canon (memberBlock f m v s) := by
  dsimp only [Machine.memberBlock]
  split
  next hq => exact (h.drawMember.of_snd hq).updBlk.setMember
  next hq => exact (h.drawMember.of_snd hq).memberGone
theorem Canon.raiseGen {m : Nat} (h : Canon s) : Canon (raiseGen m s) :=
  h.updStripe
theorem Canon.memberReturn {f m : Nat} (h : Canon s) : Canon (memberReturn f m s) := by
  dsimp only [Machine.memberReturn]
  split
  · exact h.toDirty.raiseGen.memberBlock.whenNot fun hs => Canon.ite hs (Canon.ite h.updBlk h).setMember.padAgain
  · exact h.toDirty.raiseGen.memberBlock
  · exact Canon.ite h h.memberBlock
theorem Canon.uncut {f : Nat} (h : Canon s) : Canon (uncut f s) :=
  h.updFrond
theorem Canon.acceptMark {f : Nat} (h : Canon s) : Canon (acceptMark f s) :=
  h.updFrond
theorem Canon.queueFills {kind f : Nat} (h : Canon s) : Canon (queueFills kind f s) :=
  h.frondState.startRebuild
theorem Canon.staleSeed {f : Nat} (h : Canon s) : Canon (staleSeed f s) :=
  (h.setBlks (rising_entries _ (by grind))).deadBlocks
theorem Canon.frondKnown {f : Nat} (h : Canon s) : Canon (frondKnown f s) :=
  (h.updFrond.frondState.foldl fun h => h.memberReturn).staleSeed.uncut.acceptMark.queueFills.sortQueue.placeWaiting
theorem Canon.trainedIn {f : Nat} (h : Canon s) : Canon (trainedIn f s) :=
  h.foldl fun h => h.updChan
theorem Canon.markFactory {f : Nat} {bad : List Nat} (h : Canon s) : Canon (markFactory f bad s) := by
  dsimp only [Machine.markFactory]
  refine h.foldl fun h => h.updBlk.whenNot fun h => ?_
  split
  · exact h.updBlk.updFrond
  · exact h
theorem Canon.setFlash {a : Tbl Chan} {b : Tbl Die} {c : Tbl Blk} (h : Canon s) (ha : rising s.chans = true → rising a = true)
    (hb : rising s.dies = true → rising b = true) (hc : rising s.blks = true → rising c = true) :
    Canon { s with chans := a, dies := b, blks := c } := { h with chans := ha h.chans, dies := hb h.dies, blks := hc h.blks }
theorem Canon.frondNew {f : Nat} {id : FrondIdent} (h : Canon s) : Canon (frondNew f id s) := by
  have hf {v g} := (h.updEvents (g := v)).updFrond (f := f) (g := g)
  have hd {v g} := (hf (v := v) (g := g)).setFlash (rising_filter _ (fun c => c.1 / 8 != f)) (rising_filter _ (fun d => frondOfDie d.1 != f))
    (rising_filter _ (fun b => frondOfDie (b.1 / 4096) != f))
  exact ((hd.foldl fun h => h.updDie).markFactory.frondState.restorePages.foldl fun h =>
      h.setMember.raiseGen).trainedIn.acceptMark.queueFills.sortQueue.placeWaiting
theorem Canon.frondLost {f : Nat} (h : Canon s) : Canon (frondLost f s) :=
  ((Canon.ite h.updFrond h.frondState).foldl fun h => h.setMember).updFrond.settleFailed

/-! ### Epoch -/
theorem Canon.zoneBack {r : JRec} (h : Canon s) : Canon (zoneBack r s) := by
  dsimp only [Machine.zoneBack]
  split
  · exact h.updZone
  · exact h
theorem Canon.memberAgain {m : Nat} (h : Canon s) : Canon (memberAgain m s) :=
  Canon.ite h h.setMember.updRebuild
theorem Canon.undoRec {r : JRec} (h : Canon s) : Canon (undoRec s r) := by
  dsimp only [Machine.undoRec]
  split
  · refine Canon.zoneBack ?_
    split
    · exact h.freeStripe
    · exact h
  · exact h.zoneBack
  · exact h.zoneBack
  · exact h.zoneBack
  · refine Canon.zoneBack ?_
    split
    · exact h.updStripe
    · exact h
  · exact h.updNs
  · exact h.memberAgain
  · exact h
theorem Canon.dropJournal {c : CardId} (h : Canon s) : Canon (dropJournal c s) := by
  dsimp only [Machine.dropJournal]
  refine h.updJ.updMetas ?_ id
  dsimp only
  exact (rising_filter _ _)
theorem Canon.cutJournal {c : CardId} (h : Canon s) : Canon (cutJournal c s) :=
  ((h.foldl fun h => h.recEffect).updJ.foldl fun h => h.undoRec).dropJournal
theorem Canon.saveJournal {c : CardId} (h : Canon s) : Canon (saveJournal c s) := by
  dsimp only [Machine.saveJournal]
  exact (h.foldl fun h => h.recEffect).dropJournal.updJ
theorem Canon.stopFilnas {f : Nat} (h : Canon s) : Canon (stopFilnas f s) :=
  Canon.ite h.sealTable.cutErases.holdChunks h
theorem Canon.cutRecorder (h : Canon s) : Canon (cutRecorder s) :=
  Canon.ite h (((h.draw.foldl fun h => h.countChange).when fun h => h.updRec).when fun h => h.updRec)
theorem Canon.stopAll {powerOff : Bool} (h : Canon s) : Canon (stopAll powerOff s) := by
  have hq {l : Tbl Qp} (hl : rising l = true) : rising (l.filterMap fun q => if q.2.used && !q.2.closing then some
      (q.1, qpFresh q.2) else none) = true :=
    rising_filterMap l (fun p q e => by
      split at e
      · cases e; rfl
      · cases e) hl
  exact Canon.via ((h.applySettings.foldl fun h => h.stopFilnas).branch (fun h => h.cutJournal.cutJournal)
      fun h => h.saveJournal.saveJournal).cutRecorder
    fun h =>
    { fronds := rising_values _ h.fronds, dies := rising_values _ h.dies, blks := rising_values _ h.blks
      chans := rising_range _ _, reqs := rfl, progs := rfl, cws := h.cws, chunks := h.chunks, stripes := h.stripes, accums := h.accums
      nss := rising_values _ h.nss, zones := h.zones, map := h.map, pages := rfl, sqs := rfl, cqs := rfl, cmds := rfl, pieces := rfl
      slices := rising_values _ h.slices, rules := rising_values _ h.rules, qps := hq h.qps
      engines := rising_values _ (rising_filter _ _ h.engines), work := rfl, places := h.places }
theorem Canon.powerLoss (h : Canon s) : Canon (powerLoss s) :=
  Canon.ite h h.stopAll.updPeu.updPeu.updTime
theorem Canon.busCheck (h : Canon s) : Canon (busCheck s) :=
  Canon.ite h h.powerLoss
theorem Canon.replayZone {zk : Nat} (h : Canon s) : Canon (replayZone zk s) := by
  dsimp only [Machine.replayZone]
  split
  · exact h.updZone
  · refine Canon.ite h.updZone (Canon.updZone (h.releaseCopies.branch (fun h => Canon.updAccum { h with cws := ?_, chunks := ?_, accums := ?_ })
      fun h => { h with cws := ?_, chunks := ?_, accums := ?_ }))
    · dsimp only
      exact rising_filter _ _ h.cws
    · dsimp only
      exact rising_filter _ _ h.chunks
    · dsimp only
      exact rising_ite h.accums (rising_tdel _ _ h.accums)
    · dsimp only
      exact rising_filter _ _ h.cws
    · dsimp only
      exact rising_filter _ _ h.chunks
    · dsimp only
      exact rising_ite h.accums (rising_tdel _ _ h.accums)
theorem Canon.replayConv {slot : Nat} (h : Canon s) : Canon (replayConv slot s) := by
  dsimp only [Machine.replayConv]
  split
  · exact (h.foldl fun h => h.updCw.foldl fun h => Canon.ite h.updBlk h).updSe.when fun h => h.updAccum
  · exact (h.foldl fun h => h.updCw.foldl fun h => Canon.ite h.updBlk h).updSe
theorem Canon.replayCopies (h : Canon s) : Canon (replayCopies s) := by
  dsimp only [Machine.replayCopies]
  exact ((h.foldl fun h => h.updCw).setCws (rising_values _)).placeWaiting
theorem Canon.replayMembers (h : Canon s) : Canon (replayMembers s) := by
  dsimp only [Machine.replayMembers]
  refine h.foldl fun h => Canon.ite (Canon.uncut (h.foldl fun h => ?_)) h
  split
  · exact Canon.ite h.memberReturn h.padAgain
  · exact h
theorem Canon.replay (h : Canon s) : Canon (replay s) :=
  (((h.replayMembers.restartRebuild.foldl fun h => h.replayZone).foldl fun h => h.stripeReadOnly).foldl
      fun h => h.replayConv).replayCopies.deadBlocksAll
theorem Canon.raiseEp (h : Canon s) : Canon (raiseEp s) := by
  dsimp only [Machine.raiseEp]
  exact h.updTime.updPair
theorem Canon.epochMarker {how : Nat} (h : Canon s) : Canon (epochMarker how s) :=
  h.raiseEp.updTime.marker
theorem Canon.nextSeq {found : Nat} (h : Canon s) : Canon (nextSeq found s) := by
  dsimp only [Machine.nextSeq]
  exact h.updSeedbed
theorem Canon.returnFronds {back : Nat → Bool} (h : Canon s) : Canon (returnFronds back s) :=
  h.foldl fun h => h.frondKnown

end Sys2Proof.Laws
end

