-- ==== Sys2Proof/Proofs/CanonPower.lean ====
section
/-! PROOFS. O60: the power entry units, the temperatures, the start and the service of cards and memory keep the tables canonical. One lemma for each
operation of the model, in the order of the model. -/
namespace Sys2Proof.Laws
open Sys2Proof Sys2Proof.Machine

variable {s t : State}

/-! ### Barrier -/
theorem Canon.alarm {p : PeuId} (h : Canon s) : Canon (alarm p s) :=
  h.send
theorem Canon.peuFault {p : PeuId} {bitNo st : Nat} {hold : Bool} (h : Canon s) : Canon (peuFault p bitNo st hold s) :=
  Canon.ite h h.updPeu.alarm.busCheck
theorem Canon.peuRestart {p : PeuId} (h : Canon s) : Canon (peuRestart p s) :=
  h.updPeu
theorem Canon.execFeedStart {peu : PeuId} (h : Canon s) : CanonOut (execFeedStart peu s) :=
  (Canon.ite h (Canon.ite h.peuRestart h.updPeu)).next
theorem Canon.execFeedUnderVoltage {peu : PeuId} (h : Canon s) : CanonOut (execFeedUnderVoltage peu s) :=
  h.peuFault.next
theorem Canon.execHoldUpExpiry {peu : PeuId} (h : Canon s) : CanonOut (execHoldUpExpiry peu s) :=
  (Canon.ite h.updPeu.busCheck h).next
theorem Canon.feedBack (h : Canon s) : Canon (feedBack s) :=
  Canon.ite h (h.updPower.setFronds (rising_values _))
theorem Canon.execFeedReturnWithinHoldUp {peu : PeuId} (h : Canon s) : CanonOut (execFeedReturnWithinHoldUp peu s) :=
  (Canon.ite h.updPeu.feedBack h).next
theorem Canon.execFeedOverVoltage {peu : PeuId} (h : Canon s) : CanonOut (execFeedOverVoltage peu s) :=
  h.peuFault.next
theorem Canon.execOverVoltageRecovery {peu : PeuId} (h : Canon s) : CanonOut (execOverVoltageRecovery peu s) :=
  (Canon.ite h.peuRestart h).next
theorem Canon.execReversePolarity {peu : PeuId} (h : Canon s) : CanonOut (execReversePolarity peu s) :=
  h.peuFault.next
theorem Canon.execOpenReturn {peu : PeuId} (h : Canon s) : CanonOut (execOpenReturn peu s) :=
  h.peuFault.next
theorem Canon.execInputShort {peu : PeuId} (h : Canon s) : CanonOut (execInputShort peu s) :=
  h.peuFault.next
theorem Canon.execOutputOverCurrent {peu : PeuId} (h : Canon s) : CanonOut (execOutputOverCurrent peu s) :=
  h.peuFault.next
theorem Canon.execHiccupRestart {peu : PeuId} (h : Canon s) : CanonOut (execHiccupRestart peu s) :=
  (Canon.ite h.peuRestart h).next
theorem Canon.execPeuOverTemperature {peu : PeuId} (h : Canon s) : CanonOut (execPeuOverTemperature peu s) :=
  h.peuFault.next
theorem Canon.execPeuTemperatureRecovery {peu : PeuId} (h : Canon s) : CanonOut (execPeuTemperatureRecovery peu s) :=
  (h.updPeu.when fun h => Canon.ite h.peuRestart h.updPeu).next
theorem Canon.sendPeu {p : PeuId} {c : CardId} {type : Nat} {payload : List Nat} (h : Canon s) : Canon (sendPeu p c type payload s).2 :=
  h.updPeu.send.inSnd
theorem Canon.command {p : PeuId} {type : Nat} {payload : List Nat} {cmd : Option (Port × Nat × Nat)} (h : Canon s) : Canon
    (command p type payload cmd s) := by
  dsimp only [Machine.command]
  exact h.sendPeu.updPeu
theorem Canon.greetPeu {p : PeuId} (h : Canon s) : Canon (greetPeu p s) :=
  Canon.ite h h.updPeu.command.command
theorem Canon.sendBlocks {n : Nat} {p : PeuId} (h : Canon s) : Canon (sendBlocks n p s) := by
  induction n generalizing s with
  | zero => exact h
  | succ n ih => exact .ite h (.ite (ih h.updPeu.command) (.ite h.command h))
theorem Canon.peuUpdate {p : PeuId} (h : Canon s) : Canon (peuUpdate p s) :=
  Canon.ite h.updPeu.sendBlocks h
theorem Canon.peuCheck (h : Canon s) : Canon (peuCheck s) :=
  h.updPeu.updPeu.peuUpdate.peuUpdate
theorem Canon.execPeuStatusSend {peu : PeuId} {meas : PeuMeasure} (h : Canon s) : CanonOut (execPeuStatusSend peu meas s) :=
  CanonOut.ite h.next h.updPeu.send.next
theorem Canon.capacityStep {c0 : Nat} (h : Canon s) : Canon (capacityStep c0 s) :=
  h.updPower.when fun h => h.aenPage
theorem Canon.hear {c : CardId} {p : PeuId} {a : BitVec 8} {crcOk : Bool} (h : Canon s) : Canon (hear c p a crcOk s).2 :=
  h.alive.updPeu.inSnd
theorem Canon.left2 {old new : Nat} (h : Canon s) : Canon (left2 old new s) :=
  Canon.ite h.aenPage h
theorem Canon.execPeuStatus {card : CardId} {peu : PeuId} {alive : BitVec 8} {crcOk : Bool} {st : PeuStatusMsg} (h : Canon s) : CanonOut
    (execPeuStatus card peu alive crcOk st s) :=
  CanonOut.ite h.next (h.hear.branch_out (fun h => h.next) fun h => (((h.updPeu.when fun h => h.updPower).left2.when
      fun h => h.feedBack.event).when fun h => h.updPeu.event.peuCheck).capacityStep.next)
theorem Canon.execAlarm {card : CardId} {peu : PeuId} {alive : BitVec 8} {faults : BitVec 16} {vin : Int} {st : Nat} (h : Canon s) : CanonOut
    (execAlarm card peu alive faults vin st s) := by
  dsimp only [Machine.execAlarm]
  refine CanonOut.ite h.next (h.hear.branch_out (fun h => h.next) fun h => Canon.next (Canon.capacityStep (Canon.ite (Canon.foldl (Canon.event
      (Canon.updPower (Canon.left2 (Canon.updPeu (Canon.ite (Canon.aenPage (h.foldl fun h => ?_)) (h.foldl fun h => ?_)))))) fun h => h.updFrond)
      (Canon.left2 (Canon.updPeu (Canon.ite (Canon.aenPage (h.foldl fun h => ?_)) (h.foldl fun h => ?_)))))))
  · split
    · exact h.event
    · exact h
  · split
    · exact h.event
    · exact h
  · split
    · exact h.event
    · exact h
  · split
    · exact h.event
    · exact h
theorem Canon.execStatusSilence {card : CardId} {peu : PeuId} (h : Canon s) : CanonOut (execStatusSilence card peu s) :=
  CanonOut.ite h.next h.updPeu.event.capacityStep.next
theorem Canon.execCapacityFallback (h : Canon s) : CanonOut (execCapacityFallback s) := by
  dsimp only [Machine.execCapacityFallback]
  split
  · exact CanonOut.ite h.next (h.updPower.when fun h => h.aenPage).next
  · exact h.next
theorem Canon.peuHears {p : PeuId} {m : BarrierCmd} (h : Canon s) : Canon (peuHears p m s).2 :=
  Canon.ite_snd h h.updPeu
theorem Canon.peuAck {p : PeuId} {m : BarrierCmd} {type result data : Nat} (h : Canon s) : Canon (peuAck p m type result data s) :=
  h.updPeu.send
theorem Canon.atPeu {p : PeuId} {m : BarrierCmd} {type : Nat} {run : State → Nat × Nat × State} (h : Canon s)
    (hrun : ∀ {t}, Canon t → Canon (run t).2.2) : Canon (atPeu p m type run s) := by
  dsimp only [Machine.atPeu]
  exact h.peuHears.whenNot fun h => Canon.ite h.peuAck (hrun h).peuAck
theorem Canon.execCardStatus {peu : PeuId} {card : CardId} {alive : BitVec 8} {crcOk : Bool} (h : Canon s) : CanonOut
    (execCardStatus peu card alive crcOk s) :=
  h.peuHears.next
theorem Canon.execOutputEnable {peu : PeuId} {m : BarrierCmd} (h : Canon s) : CanonOut (execOutputEnable peu m s) :=
  (h.atPeu fun h => (h.updPeu.branch (fun h => h.peuRestart) fun h => Canon.ite h.updPeu h).inSndSnd).next
theorem Canon.execOutputDisable {peu : PeuId} {m : BarrierCmd} (h : Canon s) : CanonOut (execOutputDisable peu m s) :=
  (h.atPeu fun h => h.updPeu.inSndSnd).busCheck.next
theorem Canon.execCurrentLimitSet {peu : PeuId} {m : BarrierCmd} {limit : Nat} (h : Canon s) : CanonOut (execCurrentLimitSet peu m limit s) :=
  (h.atPeu fun h => Canon.ite_snd_snd h.updPeu h).next
theorem Canon.execMarginSet {peu : PeuId} {m : BarrierCmd} {margin : Int} (h : Canon s) : CanonOut (execMarginSet peu m margin s) :=
  (h.atPeu fun h => Canon.ite_snd_snd h.updPeu h).next
theorem Canon.execImageBlock {peu : PeuId} {m : BarrierCmd} {offset : Nat} {bytes : List Byte} (h : Canon s) : CanonOut
    (execImageBlock peu m offset bytes s) :=
  (h.atPeu fun h => Canon.ite_snd_snd h.updPeu h).next
theorem Canon.execImageEnd {peu : PeuId} {m : BarrierCmd} {length : Nat} {sha : List Byte} (h : Canon s) : CanonOut
    (execImageEnd peu m length sha s) :=
  (h.atPeu fun h => Canon.ite_snd_snd h (Canon.ite_snd_snd h.updPeu h.updPeu)).next
theorem Canon.execImageActivate {peu : PeuId} {m : BarrierCmd} (h : Canon s) : CanonOut (execImageActivate peu m s) :=
  (h.atPeu fun h => Canon.ite_snd_snd h.updPeu h).next
theorem Canon.execPeuUpdatingTimeout {peu : PeuId} (h : Canon s) : CanonOut (execPeuUpdatingTimeout peu s) :=
  (Canon.ite h.updPeu.alarm h).next
theorem Canon.execPeuActivateRetry {peu : PeuId} (h : Canon s) : CanonOut (execPeuActivateRetry peu s) :=
  (Canon.ite h.updPeu.command h).next
theorem Canon.execCalRead {peu : PeuId} {m : BarrierCmd} {index : Nat} (h : Canon s) : CanonOut (execCalRead peu m index s) :=
  (h.atPeu fun h => Canon.ite_snd_snd h h).next
theorem Canon.execCalWrite {peu : PeuId} {m : BarrierCmd} {index : Nat} {value : BitVec 32} (h : Canon s) : CanonOut
    (execCalWrite peu m index value s) :=
  (h.atPeu fun h => Canon.ite_snd_snd h (Canon.ite_snd_snd h h.updPeu.change)).next
theorem Canon.execBarrierUnknownType {peu : PeuId} {atPeu : Bool} {m : BarrierCmd} {type : BitVec 8} (h : Canon s) : CanonOut
    (execBarrierUnknownType peu atPeu m type s) :=
  CanonOut.ite (h.peuHears.when fun h => h.peuAck).next h.updMem.next
theorem Canon.peuCtlEnd {cmd : Option (Port × Nat × Nat)} {action : Nat} {st : Nat × Nat} (h : Canon s) : Canon (peuCtlEnd cmd action st s) := by
  dsimp only [Machine.peuCtlEnd]
  split
  · exact h.finishChange
  · exact h
theorem Canon.execAckNak {card : CardId} {peu : PeuId} {type alive : BitVec 8} {result : Nat} {_data : BitVec 32} (h : Canon s) : CanonOut
    (execAckNak card peu type alive result _data s) := by
  dsimp only [Machine.execAckNak]
  split
  · exact h.next
  · refine CanonOut.ite (h.updPeu.peuCtlEnd.when fun h => h.updPeu.event).next (Canon.next ?_)
    split
    · exact (h.updPeu.when fun h => h.updPeu).peuCtlEnd.sendBlocks
    · exact (h.updPeu.when fun h => h.updPeu).peuCtlEnd.branch (fun h => h.updPeu.peuCheck) fun h => h.updPeu.command
    · exact (h.updPeu.when fun h => h.updPeu).peuCtlEnd.updPeu.when fun h => h.command
    · exact (h.updPeu.when fun h => h.updPeu).peuCtlEnd
theorem Canon.execBarrierCommandTimeout {peu : PeuId} (h : Canon s) : CanonOut (execBarrierCommandTimeout peu s) := by
  dsimp only [Machine.execBarrierCommandTimeout]
  split
  · exact h.next
  · exact CanonOut.ite h.sendPeu.updPeu.next (CanonOut.ite h.sendPeu.updPeu.next h.updPeu.event.peuCtlEnd.next)
theorem Canon.slotOff {slot : FuseSlot} (h : Canon s) : Canon (slotOff slot s) := by
  dsimp only [Machine.slotOff]
  split
  · exact Canon.ite h.frondDepart.updFrond (Canon.ite h.frondState.updFrond h)
  · exact Canon.ite h h.cardOut.updCard
theorem Canon.execFuseTrip {slot : FuseSlot} (h : Canon s) : CanonOut (execFuseTrip slot s) :=
  CanonOut.ite h.next (h.updFuse.event.when fun h => h.event.aenPage).slotOff.next
theorem Canon.frondOn {f : Nat} (h : Canon s) : Canon (frondOn f s) :=
  Canon.ite h (h.frondState.whenNot fun hs => Canon.ite h.frondNew.untrain (Canon.ite h.untrain.frondKnown hs))
theorem Canon.slotOn {slot : FuseSlot} (h : Canon s) : Canon (slotOn slot s) := by
  dsimp only [Machine.slotOn]
  split
  · exact h.frondOn
  · exact Canon.ite h.updCard h
theorem Canon.fuseRetryNow {slot : FuseSlot} (h : Canon s) : Canon (fuseRetryNow slot s) :=
  h.updFuse.slotOn
theorem Canon.execFuseRetry {slot : FuseSlot} (h : Canon s) : CanonOut (execFuseRetry slot s) := by
  dsimp only [Machine.execFuseRetry]
  split
  · exact CanonOut.ite h.next (CanonOut.ite h.updFuse.next h.fuseRetryNow.next)
  · exact h.next
theorem Canon.execFuseHoldReset {slot : FuseSlot} (h : Canon s) : CanonOut (execFuseHoldReset slot s) := by
  dsimp only [Machine.execFuseHoldReset]
  split
  · exact (Canon.ite h.updFuse h).next
  · exact h.next

/-! ### Thermal -/
theorem Canon.setFactor {d v : Nat} (h : Canon s) : Canon (setFactor d v s) := by
  dsimp only [Machine.setFactor]
  refine Canon.ite h.updPower ?_
  split
  · exact h.updCard
  · exact h.updCard
  · exact h.updCard
  · exact h.updCard
  · exact h.updPeu
  · exact h.updPeu
theorem Canon.domainStep {d : Nat} (h : Canon s) : Canon (domainStep d s) :=
  h.setFactor.branch (fun h => h.updPower.event.aenPage) fun h => Canon.ite h.updPower.event h
theorem Canon.shutdownEnd (h : Canon s) : Canon (shutdownEnd s) := by
  dsimp only [Machine.shutdownEnd]
  exact ((h.foldl fun h => Canon.ite h.updFrond.updFrond h).when fun h => h.updCard).when fun h => h.updCard
theorem Canon.thermalStep (h : Canon s) : Canon (thermalStep s) := by
  dsimp only [Machine.thermalStep]
  exact Canon.capacityStep (Canon.shutdownEnd (h.foldl fun h => h.domainStep))
theorem Canon.enterReading {r : SensorReading} (h : Canon s) : Canon (enterReading r s) := by
  dsimp only [Machine.enterReading]
  refine Canon.ite ?_ h
  split
  · exact h.updPower.recalTemp
  · exact h.updPower
theorem Canon.dropReadings (h : Canon s) : Canon (dropReadings s) :=
  h.updPower
theorem Canon.execSensorSlowRound {readings : List SensorReading} (h : Canon s) : CanonOut (execSensorSlowRound readings s) := by
  dsimp only [Machine.execSensorSlowRound]
  refine Canon.next (Canon.thermalStep ((h.foldl fun h => h.enterReading).dropReadings.foldl fun h => ?_))
  split
  · exact h.updPower
  · exact h
theorem Canon.execThermalShutdown {sensor : SensorId} (h : Canon s) : CanonOut (execThermalShutdown sensor s) := by
  dsimp only [Machine.execThermalShutdown]
  refine CanonOut.ite h.next (Canon.next (Canon.wakeEvent ?_))
  split
  · exact h.event.aenPage.updPower.updFrond
  · exact h.event.aenPage.updPower.updFrond
  · exact h.event.aenPage.updPower.cardOut
  · exact h.event.aenPage.updPower.updCard
  · exact h.event.aenPage.updPower
theorem Canon.execSensorBroken {sensor : SensorId} (h : Canon s) : CanonOut (execSensorBroken sensor s) := by
  dsimp only [Machine.execSensorBroken]
  refine CanonOut.ite h.next (Canon.next (Canon.thermalStep ?_))
  split
  · exact h.updPower.event.aenPage.when fun h => h.updFrond.event.aenPage
  · exact h.updPower.event.aenPage.when fun h => h.updFrond.event.aenPage
  · exact h.updPower.event.aenPage
theorem Canon.execSensorValidAgain {sensor : SensorId} (h : Canon s) : CanonOut (execSensorValidAgain sensor s) :=
  CanonOut.ite h.updPower.event.thermalStep.next h.next

/-! ### Start -/
theorem Canon.engineOut {c : CardId} {i how : Nat} (h : Canon s) : Canon (engineOut c i how s) := by
  dsimp only [Machine.engineOut]
  exact h.updEng.event.updCard
theorem Canon.updRank {card : CardId} {n : Nat} {g : Rank → Rank} (h : Canon s) : Canon (updRank card n g s) :=
  h.updMem
theorem Canon.noSpare {card : CardId} (h : Canon s) : Canon (noSpare card s) :=
  h.updMem.event.aenPage
theorem Canon.retire {card : CardId} {n why : Nat} (h : Canon s) : Canon (retire card n why s) :=
  h.updMem.event.aenPage
theorem Canon.rankFails {card : CardId} {r : Nat} (h : Canon s) : Canon (rankFails card s r) := by
  dsimp only [Machine.rankFails]
  split
  · exact h.retire
  · exact (h.retire.whenNot fun h => h.updMem).noSpare
theorem Canon.ranksTrained {card : CardId} (h : Canon s) : Canon (ranksTrained card s) := by
  dsimp only [Machine.ranksTrained]
  exact h.updMem
theorem Canon.selfTest {card : CardId} {bad : List Nat} (h : Canon s) : Canon (selfTest card bad s) :=
  (h.foldl fun h => h.engineOut).foldl fun h => h.rankFails
theorem Canon.fwEvent {ob what sec : Nat} (h : Canon s) : Canon (fwEvent ob what sec s) :=
  h.event
theorem Canon.fellBack {card : CardId} (h : Canon s) : Canon (fellBack card s) :=
  h.fwEvent.aenPort
theorem Canon.runSlot {card : CardId} {n : Nat} {new back : Bool} (h : Canon s) : Canon (runSlot card n new back s) :=
  (h.updCard.when fun h => h.fwEvent).when fun h => h.fellBack
theorem Canon.loadUnits (h : Canon s) : Canon (loadUnits s) := by
  dsimp only [Machine.loadUnits]
  exact ((h.foldl fun h => Canon.ite (Canon.ite h.updFrond h.frondDepart.updFrond) h).foldl fun h => Canon.ite h.updPeu h).greetPeu.greetPeu.peuCheck
theorem Canon.returnWaiting (h : Canon s) : Canon (returnWaiting s) :=
  (h.foldl fun h => Canon.ite h h.frondOn).returnFronds
theorem Canon.serve {card : CardId} (h : Canon s) : Canon (serve card s) :=
  ((h.updCard.updCtrl.ranksTrained.updPair.when fun h => h.setMaster).raiseEpoch.culmBack.requestRegs.when
      fun h => h.loadUnits).anaUpdate.returnWaiting.linkCheck
theorem Canon.execModulePowerOn {straps : BitVec 5} {foundSeq : Nat} (h : Canon s) : CanonOut (execModulePowerOn straps foundSeq s) :=
  CanonOut.ite h.next (h.nextSeq.epochMarker.updSheaf.whenNot fun h => h.updCulm.event.updCulm.event).updPeu.updPeu.replay.next
theorem Canon.restart (h : Canon s) : Canon (restart s) :=
  h.nextSeq.epochMarker.replay
theorem Canon.execNvmSubsystemReset {port : Port} (h : Canon s) : CanonOut (execNvmSubsystemReset port s) :=
  CanonOut.ite h.next h.stopAll.restart.next
theorem Canon.execResetNAssert {frames : Nat} (h : Canon s) : CanonOut (execResetNAssert frames s) :=
  CanonOut.ite h.next h.stopAll.updTime.next
theorem Canon.execResetNRelease (h : Canon s) : CanonOut (execResetNRelease s) :=
  CanonOut.ite h.restart.event.next h.next
theorem Canon.execNamespacesReady {card : CardId} (h : Canon s) : CanonOut (execNamespacesReady card s) :=
  CanonOut.ite h.next (h.setNss (rising_entries _ (by grind))).updCtrl.updCtrl.event.aenBoth.next
theorem Canon.copyImage {card : CardId} (h : Canon s) : Canon (copyImage card s) :=
  h.updCard.event
theorem Canon.besidePartner {card : CardId} (h : Canon s) : Canon (besidePartner card s) :=
  Canon.ite (Canon.ite h.copyImage h.updCard) h.updCard
theorem Canon.holdCard {card : CardId} {why : HeldWhy} (h : Canon s) : Canon (holdCard card why s) :=
  h.updCard
theorem Canon.execCardStart {card : CardId} {failedUnits : List Nat} {activeOk otherOk : Bool} (h : Canon s) : CanonOut
    (execCardStart card failedUnits activeOk otherOk s) := by
  dsimp only [Machine.execCardStart]
  refine CanonOut.ite h.next (CanonOut.ite (h.selfTest.branch (fun h => h.ranksTrained.updCard) fun h => h.cardOut).next ?_)
  split
  · exact h.holdCard.next
  · exact h.runSlot.selfTest.branch_out (fun h => h.holdCard.next) fun h => CanonOut.ite h.serve.next
      (CanonOut.ite h.ranksTrained.besidePartner.next (CanonOut.ite h.holdCard.event.next h.updCard.next))
theorem Canon.execCardStartAlone {card : CardId} {rootEpoch : Nat} (h : Canon s) : CanonOut (execCardStartAlone card rootEpoch s) :=
  CanonOut.ite h.next (CanonOut.ite h.holdCard.event.next (CanonOut.ite h.holdCard.next
      h.cutJournal.cutJournal.stopAll.updCard.setMaster.updCtrl.updCtrl.nextSeq.epochMarker.replay.serve.next))
theorem Canon.execCardEnterService {card : CardId} (h : Canon s) : CanonOut (execCardEnterService card s) := by
  dsimp only [Machine.execCardEnterService]
  exact CanonOut.ite h.next (CanonOut.ite (h.updSp.updCard.when fun h => h.updPair).startTransfer.next (CanonOut.ite
      ((h.updCard.updMem.updSp.culmBack.requestRegs.setFronds (rising_values _)).when fun h => h.updPair).startTransfer.returnWaiting.next h.next))

/-! ### Service -/
theorem Canon.frondEvent {code cls f a1 a2 : Nat} (h : Canon s) : Canon (frondEvent code cls f a1 a2 s) :=
  h.event
theorem Canon.execFrondPresentClose {frond : Frond} (h : Canon s) : CanonOut (execFrondPresentClose frond s) :=
  (Canon.ite h h.updFrond.updFuse).next
theorem Canon.execFrondSettled {frond : Frond} {ident : FrondIdent} (h : Canon s) : CanonOut (execFrondSettled frond ident s) :=
  (Canon.ite h h.updFrond.requestRegs).next
theorem Canon.notTaken {f : Nat} (h : Canon s) : Canon (notTaken f s) :=
  h.updFrond
theorem Canon.execFrondAcceptance {frond : Frond} (h : Canon s) : CanonOut (execFrondAcceptance frond s) := by
  dsimp only [Machine.execFrondAcceptance]
  split
  · exact h.next
  · exact CanonOut.ite h.updFrond.frondState.notTaken.frondEvent.next (CanonOut.ite h.frondState.notTaken.frondEvent.next
      (CanonOut.ite h.frondEvent.trainedIn.frondKnown.next (CanonOut.ite h.notTaken.frondEvent.frondEvent.next
      (CanonOut.ite h.frondEvent.frondNew.next h.updFrond.frondEvent.next))))
theorem Canon.prepEnds {f : Nat} (h : Canon s) : Canon (prepEnds f s) := by
  dsimp only [Machine.prepEnds]
  split
  · exact h.updFrond.finishChange
  · exact h
theorem Canon.execFrondPresentOpen {frond : Frond} (h : Canon s) : CanonOut (execFrondPresentOpen frond s) :=
  CanonOut.ite h.next (h.frondEvent.branch (fun h => h.frondDepart) fun h => Canon.ite h.frondState (Canon.ite h.frondState
      (Canon.ite h h.frondState))).updFrond.prepEnds.absentRelease.placeWaiting.next
theorem Canon.execPrepareProgramCut {frond : Frond} (h : Canon s) : CanonOut (execPrepareProgramCut frond s) :=
  CanonOut.ite h.next (h.sealTable.holdChunks.setDies (rising_entries _ (by grind))).next
theorem Canon.execPrepareComplete {frond : Frond} (h : Canon s) : CanonOut (execPrepareComplete frond s) :=
  CanonOut.ite h.next h.frondDepart.updFrond.frondEvent.prepEnds.placeWaiting.next
theorem Canon.execCardPresentClose {card : CardId} {ident : CardIdent} (h : Canon s) : CanonOut (execCardPresentClose card ident s) :=
  CanonOut.ite h.next (h.updFuse.setEngines (rising_filter _ _)).updRec.updSp.updMem.updCard.event.next
theorem Canon.execSvcButtonHold {card : CardId} (h : Canon s) : CanonOut (execSvcButtonHold card s) :=
  CanonOut.ite (Canon.ite h.updCard.updCtrl h.event).next (CanonOut.ite (Canon.ite h.event h.updCard).next h.next)
theorem Canon.cardLeaves {card : CardId} (h : Canon s) : Canon (cardLeaves card s) :=
  h.event.event.portsDown.updCard.send.updMem.updCard.updPair.ackAll.linkCheck
theorem Canon.execPeuPresentOpen {peu : PeuId} (h : Canon s) : CanonOut (execPeuPresentOpen peu s) :=
  CanonOut.ite h.next (h.foldl fun h => h.peuCtlEnd).updPeu.event.left2.capacityStep.busCheck.next
theorem Canon.execPeuPresentClose {peu : PeuId} {ident : PeuIdent} {code : List Byte} (h : Canon s) : CanonOut
    (execPeuPresentClose peu ident code s) :=
  CanonOut.ite h.next (h.updPeu.event.when fun h => h.greetPeu.peuCheck).next
theorem Canon.execEngineWatchdog {engine : EngineRef} (h : Canon s) : CanonOut (execEngineWatchdog engine s) := by
  dsimp only [Machine.execEngineWatchdog]
  split
  · exact CanonOut.ite h.next (h.engineOut.when fun h => h.cardOut).linkCheck.next
  · exact CanonOut.ite h.next (CanonOut.ite h.coreFailed.next (CanonOut.ite h.event.channelFailed.next h.next))

/-! ### Mem -/
theorem Canon.execSpikeletUpdate {card : CardId} {pos : Nat} {entry : SpikEntry} (h : Canon s) : CanonOut (execSpikeletUpdate card pos entry s) :=
  h.updSp.next
theorem Canon.parityFault {card : CardId} {bank p : Nat} (h : Canon s) : Canon (parityFault card bank p s) :=
  h.event.branch (fun h => h.updSp) fun h => h.updSp
theorem Canon.repair {card : CardId} {l : List Nat} (h : Canon s) : Canon (repair card l s) :=
  h.foldl fun h => Canon.ite h h.parityFault
theorem Canon.execSpikeletShadowCompare {card : CardId} {bank : Nat} {faulty : List Nat} (h : Canon s) : CanonOut
    (execSpikeletShadowCompare card bank faulty s) :=
  h.repair.next
theorem Canon.execSpikeletSearch {card : CardId} {profile : Nat} {key : BitVec 320} {mask : SearchMask} (h : Canon s) : CanonOut
    (execSpikeletSearch card profile key mask s) :=
  h.updSp.repair.next
theorem Canon.execBufferRequest {card : CardId} {pool : Pool} {count _engine : Nat} (h : Canon s) : CanonOut
    (execBufferRequest card pool count _engine s) :=
  CanonOut.ite h.next h.takeBufs.updMem.next
theorem Canon.decTimes {card : CardId} {p i engine n : Nat} (h : Canon s) : Canon (decTimes card p i engine n s) := by
  induction n generalizing s with
  | zero => exact h
  | succ n ih => exact ih h.decBuf
theorem Canon.execReferenceDecrement {card : CardId} {handle : BitVec 32} {consumers engine : Nat} (h : Canon s) : CanonOut
    (execReferenceDecrement card handle consumers engine s) :=
  h.decTimes.next
theorem Canon.execFence {card : CardId} {source : Nat} (h : Canon s) : CanonOut (execFence card source s) :=
  h.updMem.next
theorem Canon.poisonLine {card : CardId} {n line : Nat} (h : Canon s) : Canon (poisonLine card n line s) := by
  dsimp only [Machine.poisonLine]
  exact h.updMem
theorem Canon.migrateTo {card : CardId} {n y : Nat} (h : Canon s) : Canon (migrateTo card n y s) :=
  h.retire.updMem
theorem Canon.execDramCorrectedError {card : CardId} {rank : Nat} (h : Canon s) : CanonOut (execDramCorrectedError card rank s) :=
  h.updRank.next
theorem Canon.dramBad {card : CardId} {n line : Nat} (h : Canon s) : Canon (dramBad card n line s) := by
  dsimp only [Machine.dramBad]
  split
  · exact h.updRank.branch (fun h => h.poisonLine) fun h => h.poisonLine.cardOut.aenPage
  · split
    · exact h.updRank.poisonLine.updMem.branch (fun h => h.retire.noSpare) fun h => h.migrateTo
    · exact h.updRank.poisonLine.updMem.cardOut.aenPage
  · split
    · exact h.updRank.poisonLine.updMem.branch (fun h => h.retire.noSpare) fun h => h.migrateTo
    · exact h.updRank.poisonLine.updMem.cardOut.aenPage
  · exact h.updRank.whenNot fun h => h.poisonLine.updMem.migrateTo
  · refine h.updRank.whenNot fun h => ?_
    split
    · exact h.poisonLine.branch (fun h => h.retire.noSpare) fun h => h.migrateTo
    · exact h.poisonLine.cardOut.aenPage
theorem Canon.execDramUncorrectableError {card : CardId} {rank line : Nat} (h : Canon s) : CanonOut (execDramUncorrectableError card rank line s) :=
  (Canon.ite h.dramBad h).next
theorem Canon.execRankRetrainDue {card : CardId} {rank : Nat} (h : Canon s) : CanonOut (execRankRetrainDue card rank s) := by
  dsimp only [Machine.execRankRetrainDue]
  split
  · exact (Canon.ite h.updMem h).next
  · exact h.next
theorem Canon.execRankCopyDone {card : CardId} (h : Canon s) : CanonOut (execRankCopyDone card s) :=
  h.updMem.next
theorem Canon.rankBoundary {card : CardId} (h : Canon s) : Canon (rankBoundary card s) :=
  h.updMem
theorem Canon.execRankTrainingEnd {card : CardId} {pass : Bool} {eye temp : Nat} (h : Canon s) : CanonOut
    (execRankTrainingEnd card pass eye temp s) := by
  dsimp only [Machine.execRankTrainingEnd]
  split
  · exact (h.updRank.event.branch (fun h => h.updMem) fun h => h.updMem.retire.noSpare).next
  · exact h.next
theorem Canon.execRankMigrationDone {card : CardId} (h : Canon s) : CanonOut (execRankMigrationDone card s) := by
  dsimp only [Machine.execRankMigrationDone]
  split
  · exact h.updMem.noSpare.next
  · exact h.next
theorem Canon.poisonRead {card : CardId} {line : Nat} {use : PoisonUse} (h : Canon s) : Canon (poisonRead card line use s) := by
  dsimp only [Machine.poisonRead]
  split
  · exact Canon.ite h.updMem.updCmd.settleWrite.finishCmd h
  · exact Canon.ite h.updMem.updMem h
  · exact h
  · split
    · exact h.updMem.when fun h => h.updAccum
    · exact h.updMem
  · exact (h.setPages (rising_tupd _ _ _ _)).updMem
  · exact (h.setPages (rising_tupd _ _ _ _)).updMem
  · exact h.updMem
  · exact h.updMem
  · exact h.updMem
  · exact h.updMem
  · exact h.updEng.updMem
theorem Canon.execPoisonRead {card : CardId} {line : Nat} {use : PoisonUse} (h : Canon s) : CanonOut (execPoisonRead card line use s) :=
  (Canon.ite h.poisonRead h).next
theorem Canon.execCheckUnitCombine {card : CardId} {unit : Nat} {value : BitVec 64} {bytes : Nat} (h : Canon s) : CanonOut
    (execCheckUnitCombine card unit value bytes s) :=
  h.updMem.next
theorem Canon.execCheckContextLoad {card : CardId} {unit : Nat} {load : Option CheckCtx} (h : Canon s) : CanonOut
    (execCheckContextLoad card unit load s) :=
  h.updMem.next

end Sys2Proof.Laws
end

