-- ==== Sys2Proof/Proofs/CanonSheaf.lean ====
section
/-! PROOFS. O60: the sheaf and the recorder keep the tables canonical. One lemma for each
operation of the model, in the order of the model. -/
namespace Sys2Proof.Laws
open Sys2Proof Sys2Proof.Machine

variable {s t : State}

/-! ### Sheaf -/
theorem Canon.updMember {p : Nat} {g : SheafMember → SheafMember} (h : Canon s) : Canon (updMember p g s) :=
  h.updSheaf
theorem Canon.culmSend {p : CulmPort} {type dst : Nat} {bcast : Bool} {hops src : Nat} {payload : List Nat} (h : Canon s) : Canon
    (culmSend p type dst bcast hops src payload s) :=
  Canon.ite h.updCulm.send h
theorem Canon.ownMsg {p : CulmPort} {type dst : Nat} {payload : List Nat} (h : Canon s) : Canon (ownMsg p type dst payload s) :=
  h.updSheaf.culmSend
theorem Canon.broadcast {type : Nat} {payload : List Nat} (h : Canon s) : Canon (broadcast type payload s) :=
  h.updSheaf.culmSend.culmSend
theorem Canon.toMember {dst type : Nat} {payload : List Nat} (h : Canon s) : Canon (toMember dst type payload s) :=
  h.ownMsg
theorem Canon.receive {p : CulmPort} {type : Nat} {hdr : CulmHdr} {fwd : Bool} {payload : List Nat} (h : Canon s) : Canon
    (receive p type hdr fwd payload s).1 :=
  Canon.ite_fst h (Canon.ite_fst h.alive.updCulm (((h.alive.updCulm.updCulm.when fun h => h.updSheaf).when fun h => h.culmSend.updCulm).when
      fun h => h.updSheaf))
theorem Canon.sheafEvent {code cls ob a0 a1 a2 : Nat} (h : Canon s) : Canon (sheafEvent code cls ob a0 a1 a2 s) :=
  h.event
theorem Canon.holdPort {p : CulmPort} (h : Canon s) : Canon (holdPort p s) :=
  h.updCulm.sheafEvent.aenPage
theorem Canon.wireCheck {p : CulmPort} (h : Canon s) : Canon (wireCheck p s) := by
  dsimp only [Machine.wireCheck]
  split
  · exact h.holdPort.whenNot fun hs => Canon.ite hs h.updSheaf
  · exact h
theorem Canon.joinSheaf (h : Canon s) : Canon (joinSheaf s) :=
  Canon.ite h.updSheaf h
theorem Canon.execCulmLinkUp {port : CulmPort} {nbrPos : Nat} {nbrPort : CulmPort} {lanes : Nat} (h : Canon s) : CanonOut
    (execCulmLinkUp port nbrPos nbrPort lanes s) :=
  (Canon.ite h h.updCulm.joinSheaf.wireCheck).next
theorem Canon.execCulmPortDown {port : CulmPort} (h : Canon s) : CanonOut (execCulmPortDown port s) :=
  (Canon.ite h.updCulm.updSheaf h).next
theorem Canon.execCulmRetrain {port : CulmPort} {trained : Bool} (h : Canon s) : CanonOut (execCulmRetrain port trained s) :=
  (Canon.ite (Canon.ite h.updCulm.joinSheaf h.updCulm) h).next
theorem Canon.execCulmLaneLoss {port : CulmPort} (h : Canon s) : CanonOut (execCulmLaneLoss port s) :=
  h.updCulm.next
theorem Canon.execDelayMeasure {port : CulmPort} (h : Canon s) : CanonOut (execDelayMeasure port s) := by
  dsimp only [Machine.execDelayMeasure]
  refine Canon.next ?_
  split
  · exact h.ownMsg
  · exact h
theorem Canon.execDelayReq {port : CulmPort} {hdr : CulmHdr} {sent recv : Nat} (h : Canon s) : CanonOut (execDelayReq port hdr sent recv s) :=
  (h.receive.when fun h => h.ownMsg).next
theorem Canon.execDelayRsp {port : CulmPort} {hdr : CulmHdr} {reqSent reqRecv rspSent rspRecv : Nat} (h : Canon s) : CanonOut
    (execDelayRsp port hdr reqSent reqRecv rspSent rspRecv s) :=
  (h.receive.when fun h => h.updCulm).next
theorem Canon.sendPlan (h : Canon s) : Canon (sendPlan s) :=
  h.updSheaf.broadcast
theorem Canon.joins {p : Nat} (h : Canon s) : Canon (joins p s) :=
  h.updSheaf.sheafEvent.aenPage
theorem Canon.leaves {p : Nat} (h : Canon s) : Canon (leaves p s) :=
  h.sheafEvent.aenPage
theorem Canon.heard {p : Nat} {port : CulmPort} {hops : Nat} {serial : List Byte} {code : Nat} {el ovr : Bool} (h : Canon s) : Canon
    (heard p port hops serial code el ovr s) :=
  h.updMember.when fun h => Canon.ite h.sendPlan h.joins
theorem Canon.conflict {serial : List Byte} (h : Canon s) : Canon (conflict serial s) :=
  Canon.ite h.updSheaf.holdPort.holdPort.aenPage h
theorem Canon.startHand {cmd : Option (Port × Nat × Nat × Nat)} {x : Nat} (h : Canon s) : Canon (startHand cmd x s) :=
  h.updSheaf.broadcast
theorem Canon.yieldLead {p : Nat} (h : Canon s) : Canon (yieldLead p s) :=
  Canon.ite h.startHand h
theorem Canon.execHello {port : CulmPort} {hdr : CulmHdr} {msg : HelloMsg} (h : Canon s) : CanonOut (execHello port hdr msg s) :=
  h.receive.branch_out (fun h => h.next) fun h => (h.updCulm.wireCheck.whenNot fun h => Canon.ite (Canon.ite h h.conflict) h.heard.yieldLead).next
theorem Canon.execCensus {port : CulmPort} {hdr : CulmHdr} {list : List CensusEntry} (h : Canon s) : CanonOut (execCensus port hdr list s) := by
  dsimp only [Machine.execCensus]
  refine h.receive.branch_out (fun h => h.next) fun h => ?_
  split
  · exact h.conflict.next
  · exact h.heard.yieldLead.next
theorem Canon.planDone (h : Canon s) : Canon (planDone s) := by
  dsimp only [Machine.planDone]
  split
  · exact Canon.ite h.updSheaf.finishChange h
  · exact h
theorem Canon.execCensusExpiry {pos : Nat} (h : Canon s) : CanonOut (execCensusExpiry pos s) :=
  (Canon.ite (h.updSheaf.whenNot fun h => h.leaves).planDone h).next
theorem Canon.rachisStep {off : Int} (h : Canon s) : Canon (rachisStep off s) :=
  h.updSheaf
theorem Canon.leadChange {p ep : Nat} (h : Canon s) : Canon (leadChange p ep s) :=
  h.updSheaf.sheafEvent.aenPage
theorem Canon.emitRachis (h : Canon s) : Canon (emitRachis s) :=
  Canon.broadcast { h with }
theorem Canon.leaveSheaf (h : Canon s) : Canon (leaveSheaf s) :=
  h.updSheaf.updCulm.updCulm
theorem Canon.handEnds (h : Canon s) : Canon (handEnds s) := by
  dsimp only [Machine.handEnds]
  split
  · exact (h.updSheaf.branch (fun h => h.leaveSheaf) fun h => h.updSheaf).finishChange
  · exact h
theorem Canon.follow {port : CulmPort} {hops sfc ep p : Nat} {correction arrival : Int} (h : Canon s) : Canon
    (follow port hops sfc ep p correction arrival s) :=
  h.updSheaf.updMember.when fun h => h.rachisStep
theorem Canon.rachis {port : CulmPort} {hdr : CulmHdr} {sfc ep p : Nat} {correction arrival : Int} (h : Canon s) : Canon
    (rachis port hdr sfc ep p correction arrival s) :=
  Canon.whenNot (Canon.receive { h with }) fun h => Canon.ite (Canon.ite h h.follow) (Canon.ite h.leadChange.follow.handEnds
      (Canon.ite h.updSheaf.sheafEvent.aenPage.follow h))
theorem Canon.execRachis {port : CulmPort} {hdr : CulmHdr} {sfc leadEpoch leadPos : Nat} {correction arrival : Int} (h : Canon s) : CanonOut
    (execRachis port hdr sfc leadEpoch leadPos correction arrival s) :=
  h.rachis.next
theorem Canon.execTickIoPulse {own : Bool} (h : Canon s) : CanonOut (execTickIoPulse own s) :=
  (Canon.ite h h.updSheaf).next
theorem Canon.execTickIoFallback {offset : Int} (h : Canon s) : CanonOut (execTickIoFallback offset s) :=
  (Canon.ite h.updSheaf h).next
theorem Canon.execTickIoDriveResume (h : Canon s) : CanonOut (execTickIoDriveResume s) := by
  dsimp only [Machine.execTickIoDriveResume]
  refine Canon.next ?_
  split
  · exact Canon.ite h.updSheaf h
  · exact h
theorem Canon.execLeadLost (h : Canon s) : CanonOut (execLeadLost s) :=
  CanonOut.ite h.next ((h.updSheaf.foldl fun h => h.leaves).when fun h => h.leadChange.updSheaf.emitRachis).next
theorem Canon.execHandover {hdr : CulmHdr} {successor switchSfc : Nat} (h : Canon s) : CanonOut (execHandover hdr successor switchSfc s) :=
  (h.receive.when fun h => h.updSheaf).next
theorem Canon.execHandoverSwitch (h : Canon s) : CanonOut (execHandoverSwitch s) := by
  dsimp only [Machine.execHandoverSwitch]
  split
  · exact (Canon.ite h (h.leadChange.branch (fun h => h.updSheaf.emitRachis) fun hs => Canon.ite hs.updSheaf.handEnds h)).next
  · exact h.next
theorem Canon.execDemandSend (h : Canon s) : CanonOut (execDemandSend s) :=
  (Canon.ite h (Canon.ite h.updMember h.toMember)).next
theorem Canon.execDemand {hdr : CulmHdr} {base want cap : Nat} (h : Canon s) : CanonOut (execDemand hdr base want cap s) :=
  (h.receive.when fun h => h.updMember).next
theorem Canon.execGrantCompute (h : Canon s) : CanonOut (execGrantCompute s) :=
  CanonOut.ite h.next ((h.foldl fun h => h.updMember).when fun h => h.sheafEvent.aenPage).updSheaf.broadcast.next
theorem Canon.execGrant {hdr : CulmHdr} {epoch budget : Nat} {ovr : Bool} {shares : List GrantShare} (h : Canon s) : CanonOut
    (execGrant hdr epoch budget ovr shares s) :=
  h.receive.branch_out (fun h => h.next) fun h => (((h.foldl fun h => h.updMember).when fun h => h.updSheaf.change).when
      fun h => h.aenPage).updSheaf.next
theorem Canon.execGrantStale (h : Canon s) : CanonOut (execGrantStale s) :=
  (Canon.ite h.updSheaf h).next
theorem Canon.execPlan {hdr : CulmHdr} {planGen firstEpoch : Nat} {body : List Byte} (h : Canon s) : CanonOut
    (execPlan hdr planGen firstEpoch body s) :=
  h.receive.branch_out (fun h => h.next) fun h => (Canon.ite h.updSheaf.change.sheafEvent h).toMember.next
theorem Canon.execPlanAck {hdr : CulmHdr} {planGen : Nat} (h : Canon s) : CanonOut (execPlanAck hdr planGen s) :=
  h.receive.branch_out (fun h => h.next) fun h => (h.updMember.when fun h => h.joins).planDone.next
theorem Canon.sendEvents (h : Canon s) : Canon (sendEvents s) :=
  Canon.ite h (h.foldl fun h => h.toMember).updSheaf
theorem Canon.execPlanResend (h : Canon s) : CanonOut (execPlanResend s) :=
  (Canon.ite (Canon.ite h.sendPlan h) (Canon.ite h.updSheaf.sendEvents h)).next
theorem Canon.ringAdd {p : Nat} {r : EventRec} (h : Canon s) : Canon (ringAdd p r s) :=
  h.updSheaf
theorem Canon.execSheafEvent {hdr : CulmHdr} {records : List EventRec} (h : Canon s) : CanonOut (execSheafEvent hdr records s) :=
  (h.receive.when fun h => (h.foldl fun h => h.ringAdd).toMember).next
theorem Canon.execEventAck {hdr : CulmHdr} {last : EventRec} (h : Canon s) : CanonOut (execEventAck hdr last s) :=
  (h.receive.when fun h => h.updSheaf).next

/-! ### Recorder -/
theorem Canon.execEventIntake {code cls source obj arg0 arg1 arg2 cnt : Nat} (h : Canon s) : CanonOut
    (execEventIntake code cls source obj arg0 arg1 arg2 cnt s) :=
  (h.atCount.whenNot fun h => Canon.ite h.updEvents h.intake).next
theorem Canon.execEventRefill (h : Canon s) : CanonOut (execEventRefill s) :=
  CanonOut.ite h.next (Canon.next { h with })
theorem Canon.startProgram (h : Canon s) : Canon (startProgram s) :=
  Canon.ite h { h with }
theorem Canon.dropFull (h : Canon s) : Canon (dropFull s) :=
  Canon.ite h.updEvents h
theorem Canon.fullCheck (h : Canon s) : Canon (fullCheck s) :=
  Canon.ite h.updRec.updRec.dropFull.aenPage h.dropFull
theorem Canon.storePut {f : Nat} {r : EventRec} (h : Canon s) : Canon (storePut f r s) :=
  Canon.ite h.updFrond (h.updFrond.whenNot fun h => h.aenPage)
theorem Canon.copyTo {f : Nat} {r : EventRec} (h : Canon s) : Canon (copyTo f r s) :=
  Canon.ite h (Canon.ite h.storePut h.updFrond)
theorem Canon.flushStore {f : Nat} (h : Canon s) : Canon (flushStore f s) :=
  Canon.ite (h.updFrond.foldl fun h => h.storePut) h
theorem Canon.recorded {r : EventRec} (h : Canon s) : Canon (Machine.recorded r s) := by
  dsimp only [Machine.recorded]
  exact (Canon.ite h.ringAdd h).whenNot fun h => h.foldl fun h => h.copyTo
theorem Canon.programEnd (h : Canon s) : Canon (programEnd s) := by
  dsimp only [Machine.programEnd]
  refine Canon.startProgram (Canon.fullCheck ((((h.updEvents.when fun h => h.updRec).when fun h => h.updRec).foldl
      fun h => h.countChange.recorded).branch (fun h => Canon.aenPage (h.foldl fun h => ?_)) fun h => h.foldl fun h => ?_))
  · split
    · exact h.post
    · exact h
  · split
    · exact h.post
    · exact h
theorem Canon.execRecorderProgramEnd (h : Canon s) : CanonOut (execRecorderProgramEnd s) :=
  h.programEnd.next
theorem Canon.execRecorderCopyDone {card : CardId} (h : Canon s) : CanonOut (execRecorderCopyDone card s) :=
  (Canon.ite h.updRec.updCard h).next
theorem Canon.execRecorderSectorEraseDone (h : Canon s) : CanonOut (execRecorderSectorEraseDone s) :=
  h.updEvents.next

end Sys2Proof.Laws
end

