-- ==== Sys2Proof/Proofs/CanonAdmin.lean ====
section
/-! PROOFS. O60: the admin commands keep the tables canonical. One lemma for each
operation of the model, in the order of the model. -/
namespace Sys2Proof.Laws
open Sys2Proof Sys2Proof.Machine

variable {s t : State}

/-! ### Admin -/
theorem Canon.ends {e : Sqe} {st : Nat × Nat} {dw0 dw1 : Nat} {data : List Byte} (h : Canon s) : Canon (ends e st dw0 dw1 data s) :=
  Canon.ite h.finishChange h.finish
theorem Canon.done {e : Sqe} (h : Canon s) : Canon (done e s) :=
  h.ends
theorem Canon.bad {e : Sqe} {st : Nat × Nat} (h : Canon s) : Canon (bad e st s) :=
  h.ends
theorem Canon.refused {e : Sqe} {reason : Nat} (h : Canon s) : Canon (refused e reason s) :=
  h.updSec.finish
theorem Canon.consume {e : Sqe} (h : Canon s) : CanonOpt (consume e s) := by
  dsimp only [Machine.consume]
  split
  · exact h.updSec.opt
  · exact CanonOpt.none
theorem Canon.admin {e : Sqe} {run : State → State} (h : Canon s) (hrun : ∀ {t}, Canon t → Canon (run t)) : Canon (admin e run s) := by
  dsimp only [Machine.admin]
  refine h.atCount.whenNot fun h => Canon.ite h.updPower.wakeEvent (Canon.ite { h with } (Canon.ite h.refused (Canon.ite ?_ (Canon.ite h.bad
      (hrun h)))))
  split
  next hq => exact (h.consume.of_some hq).branch (fun h => h.bad) fun h => hrun h
  · exact h.refused
theorem Canon.createCq {e : Sqe} (h : Canon s) : Canon (createCq e s) :=
  Canon.ite h.bad (Canon.ite h.bad (Canon.ite h.bad (Canon.ite h.bad h.updCq.done)))
theorem Canon.execCreateIoCompletionQueue {e : Sqe} (h : Canon s) : CanonOut (execCreateIoCompletionQueue e s) :=
  (h.admin fun h => h.createCq).next
theorem Canon.createSq {e : Sqe} (h : Canon s) : Canon (createSq e s) :=
  Canon.ite h.bad (Canon.ite h.bad (Canon.ite h.bad (Canon.ite h.bad h.updSq.done)))
theorem Canon.execCreateIoSubmissionQueue {e : Sqe} (h : Canon s) : CanonOut (execCreateIoSubmissionQueue e s) :=
  (h.admin fun h => h.createSq).next
theorem Canon.abortCmd {st : Nat × Nat} {k : Nat} (h : Canon s) : Canon (abortCmd st k s) :=
  h.failCmd
theorem Canon.deleteSq {e : Sqe} (h : Canon s) : Canon (deleteSq e s) :=
  Canon.ite h.bad ((h.foldl fun h => Canon.ite h.abortCmd h.updCmd).setSqs (rising_tdel _ _)).done
theorem Canon.execDeleteIoSubmissionQueue {e : Sqe} (h : Canon s) : CanonOut (execDeleteIoSubmissionQueue e s) :=
  (h.admin fun h => h.deleteSq).next
theorem Canon.deleteCq {e : Sqe} (h : Canon s) : Canon (deleteCq e s) :=
  Canon.ite h.bad (Canon.ite h.bad (h.setCqs (rising_tdel _ _)).done)
theorem Canon.execDeleteIoCompletionQueue {e : Sqe} (h : Canon s) : CanonOut (execDeleteIoCompletionQueue e s) :=
  (h.admin fun h => h.deleteCq).next
theorem Canon.abort {e : Sqe} (h : Canon s) : Canon (abort e s) := by
  dsimp only [Machine.abort]
  refine Canon.ite ?_ (Canon.ite h.updCtrl.post.okDw (Canon.ite (Canon.okDw (Canon.post { h with })) (Canon.ite h.updPower.post.okDw h.okDw)))
  split
  · exact Canon.ite h.abortCmd.okDw h.okDw
  · exact h.okDw
theorem Canon.execAbort {e : Sqe} (h : Canon s) : CanonOut (execAbort e s) :=
  (h.admin fun h => h.abort).next
theorem Canon.asyncRequest {e : Sqe} (h : Canon s) : Canon (asyncRequest e s) :=
  Canon.ite h.fail h.updCtrl.aenDeliver
theorem Canon.execAsynchronousEventRequest {e : Sqe} (h : Canon s) : CanonOut (execAsynchronousEventRequest e s) :=
  (h.admin fun h => h.asyncRequest).next
theorem Canon.execUnsupportedOpcode {e : Sqe} (h : Canon s) : CanonOut (execUnsupportedOpcode e s) :=
  (Canon.ite (Canon.ite (h.admin fun h => h.bad) (Canon.ite h (h.admin fun h => h.failWith))) (Canon.ite (h.ioRun fun h => h.failNow) h)).next

/-! ### Logs -/
theorem Canon.identify {e : Sqe} (h : Canon s) : Canon (identify e s) := by
  dsimp only [Machine.identify]
  split
  · exact Canon.ite h.failWith h.okData
  · exact h.failWith
theorem Canon.execIdentify {e : Sqe} (h : Canon s) : CanonOut (execIdentify e s) :=
  (h.admin fun h => h.identify).next
theorem Canon.logRead {e : Sqe} (h : Canon s) : Canon (logRead e s) :=
  Canon.ite h (h.aenArm.branch (fun h => h.updCtrl) fun h => Canon.ite h.updCtrl h)
theorem Canon.getLog {e : Sqe} (h : Canon s) : Canon (getLog e s) := by
  dsimp only [Machine.getLog]
  split
  · exact h.failDw
  · exact Canon.ite h.failWith h.okData.logRead
theorem Canon.execGetLogErrorInformation {e : Sqe} (h : Canon s) : CanonOut (execGetLogErrorInformation e s) :=
  (h.admin fun h => h.getLog).next
theorem Canon.execGetLogSmartHealth {e : Sqe} (h : Canon s) : CanonOut (execGetLogSmartHealth e s) :=
  (h.admin fun h => h.getLog).next
theorem Canon.execGetLogFirmwareSlot {e : Sqe} (h : Canon s) : CanonOut (execGetLogFirmwareSlot e s) :=
  (h.admin fun h => h.getLog).next
theorem Canon.execGetLogStandard {e : Sqe} (h : Canon s) : CanonOut (execGetLogStandard e s) :=
  (Canon.ite (h.admin fun h => h.getLog) h).next
theorem Canon.execGetLogModuleRecorder {e : Sqe} (h : Canon s) : CanonOut (execGetLogModuleRecorder e s) :=
  (h.admin fun h => h.getLog).next
theorem Canon.execGetLogFrondEvents {e : Sqe} (h : Canon s) : CanonOut (execGetLogFrondEvents e s) :=
  (h.admin fun h => h.getLog).next
theorem Canon.execGetLogFrameStatistics {e : Sqe} (h : Canon s) : CanonOut (execGetLogFrameStatistics e s) :=
  (h.admin fun h => h.getLog).next
theorem Canon.execGetLogStripeHealth {e : Sqe} (h : Canon s) : CanonOut (execGetLogStripeHealth e s) :=
  (h.admin fun h => h.getLog).next
theorem Canon.execGetLogBlockWear {e : Sqe} (h : Canon s) : CanonOut (execGetLogBlockWear e s) :=
  (h.admin fun h => h.getLog).next
theorem Canon.execGetLogMediaReadHealth {e : Sqe} (h : Canon s) : CanonOut (execGetLogMediaReadHealth e s) :=
  (h.admin fun h => h.getLog).next
theorem Canon.execGetLogSeedbedStatus {e : Sqe} (h : Canon s) : CanonOut (execGetLogSeedbedStatus e s) :=
  (h.admin fun h => h.getLog).next
theorem Canon.execGetLogSliceTable {e : Sqe} (h : Canon s) : CanonOut (execGetLogSliceTable e s) :=
  (h.admin fun h => h.getLog).next
theorem Canon.execGetLogPowerThermal {e : Sqe} (h : Canon s) : CanonOut (execGetLogPowerThermal e s) :=
  (h.admin fun h => h.getLog).next
theorem Canon.execGetLogSheafStatus {e : Sqe} (h : Canon s) : CanonOut (execGetLogSheafStatus e s) :=
  (h.admin fun h => h.getLog).next
theorem Canon.execGetLogBufferDramHealth {e : Sqe} (h : Canon s) : CanonOut (execGetLogBufferDramHealth e s) :=
  (h.admin fun h => h.getLog).next
theorem Canon.execGetLogSecurityState {e : Sqe} (h : Canon s) : CanonOut (execGetLogSecurityState e s) :=
  (h.admin fun h => h.getLog).next
theorem Canon.execGetLogAttestation {e : Sqe} (h : Canon s) : CanonOut (execGetLogAttestation e s) :=
  (h.admin fun h => h.getLog).next
theorem Canon.execInvalidLogPage {e : Sqe} (h : Canon s) : CanonOut (execInvalidLogPage e s) :=
  (Canon.ite h (h.admin fun h => h.getLog)).next

/-! ### Features -/
theorem Canon.setFeat {g : Features → Features} (h : Canon s) : Canon (setFeat g s) :=
  { h with }
theorem Canon.setFeature {e : Sqe} {run : State → State} (h : Canon s) (hrun : ∀ {t}, Canon t → Canon (run t)) : Canon (setFeature e run s) :=
  Canon.ite h.bad (hrun h)
theorem Canon.withData {n : Nat} {e : Sqe} {run : List Byte → State → State} (h : Canon s) (hrun : ∀ {x1 t}, Canon t → Canon (run x1 t)) : Canon
    (withData n e run s) :=
  Canon.ite h.bad (hrun h)
theorem Canon.runFeature {fid : Nat} {e : Sqe} {f : Sqe → State → State} (h : Canon s) (hf : ∀ {x1 t}, Canon t → Canon (f x1 t)) : CanonOut
    (runFeature fid e f s) :=
  (h.admin fun h => h.setFeature fun h => hf h).next
theorem Canon.setArbitration {e : Sqe} (h : Canon s) : Canon (setArbitration e s) :=
  h.updCtrl.done
theorem Canon.execSetFeaturesArbitration {e : Sqe} (h : Canon s) : CanonOut (execSetFeaturesArbitration e s) :=
  h.runFeature fun h => h.setArbitration
theorem Canon.setPowerState {e : Sqe} (h : Canon s) : Canon (setPowerState e s) :=
  Canon.ite h.bad (Canon.ite (Canon.ite h.wakeEvent.updPower h.bad) (Canon.ite h.updPower (Canon.ite h.done (Canon.ite h.startExit
      (Canon.ite h.updPower h.startEntry)))))
theorem Canon.execSetFeaturesPowerManagement {e : Sqe} (h : Canon s) : CanonOut (execSetFeaturesPowerManagement e s) :=
  h.runFeature fun h => h.setPowerState
theorem Canon.setThreshold {e : Sqe} (h : Canon s) : Canon (setThreshold e s) :=
  Canon.ite h.bad (Canon.done { h with })
theorem Canon.execSetFeaturesTemperatureThreshold {e : Sqe} (h : Canon s) : CanonOut (execSetFeaturesTemperatureThreshold e s) :=
  h.runFeature fun h => h.setThreshold
theorem Canon.setQueues {e : Sqe} (h : Canon s) : Canon (setQueues e s) :=
  Canon.ite h.bad h.updCtrl.ends
theorem Canon.execSetFeaturesNumberOfQueues {e : Sqe} (h : Canon s) : CanonOut (execSetFeaturesNumberOfQueues e s) :=
  h.runFeature fun h => h.setQueues
theorem Canon.setCoalescing {e : Sqe} (h : Canon s) : Canon (setCoalescing e s) :=
  h.updCtrl.done
theorem Canon.execSetFeaturesInterruptCoalescing {e : Sqe} (h : Canon s) : CanonOut (execSetFeaturesInterruptCoalescing e s) :=
  h.runFeature fun h => h.setCoalescing
theorem Canon.setVector {e : Sqe} (h : Canon s) : Canon (setVector e s) :=
  Canon.ite h.bad h.updCtrl.done
theorem Canon.execSetFeaturesInterruptVector {e : Sqe} (h : Canon s) : CanonOut (execSetFeaturesInterruptVector e s) :=
  h.runFeature fun h => h.setVector
theorem Canon.setAsync {e : Sqe} (h : Canon s) : Canon (setAsync e s) :=
  h.updCtrl.done
theorem Canon.execSetFeaturesAsyncEventConfig {e : Sqe} (h : Canon s) : CanonOut (execSetFeaturesAsyncEventConfig e s) :=
  h.runFeature fun h => h.setAsync
theorem Canon.setTimestamp {e : Sqe} {d : List Byte} (h : Canon s) : Canon (setTimestamp e d s) :=
  h.updTime.marker.done
theorem Canon.execSetFeaturesTimestamp {e : Sqe} (h : Canon s) : CanonOut (execSetFeaturesTimestamp e s) :=
  h.runFeature fun h => h.withData fun h => h.setTimestamp
theorem Canon.noCache {e : Sqe} (h : Canon s) : Canon (noCache e s) :=
  h.bad
theorem Canon.execSetFeaturesVolatileWriteCache {e : Sqe} (h : Canon s) : CanonOut (execSetFeaturesVolatileWriteCache e s) :=
  h.runFeature fun h => h.noCache
theorem Canon.unknownFeature {e : Sqe} (h : Canon s) : Canon (unknownFeature e s) :=
  h.bad
theorem Canon.execSetFeaturesUnsupported {e : Sqe} (h : Canon s) : CanonOut (execSetFeaturesUnsupported e s) :=
  (Canon.ite h (h.admin fun h => h.unknownFeature)).next
theorem Canon.settingIf {okay : Bool} {e : Sqe} {g : State → State} (h : Canon s) (hg : ∀ {t}, Canon t → Canon (g t)) : Canon
    (settingIf okay e g s) :=
  Canon.ite (hg h).done h.bad
theorem Canon.setFrames {e : Sqe} {d : List Byte} (h : Canon s) : Canon (setFrames e d s) :=
  h.settingIf fun h => h.setFeat
theorem Canon.execSetFeaturesFrameParameters {e : Sqe} (h : Canon s) : CanonOut (execSetFeaturesFrameParameters e s) :=
  h.runFeature fun h => h.withData fun h => h.setFrames
theorem Canon.setThrottle {e : Sqe} {d : List Byte} (h : Canon s) : Canon (setThrottle e d s) :=
  h.settingIf fun h => h.updPower
theorem Canon.execSetFeaturesThermalThrottlePoints {e : Sqe} (h : Canon s) : CanonOut (execSetFeaturesThermalThrottlePoints e s) :=
  h.runFeature fun h => h.withData fun h => h.setThrottle
theorem Canon.setBudget {e : Sqe} {d : List Byte} (h : Canon s) : Canon (setBudget e d s) :=
  h.settingIf fun h => h.updPower
theorem Canon.execSetFeaturesMediaPowerBudget {e : Sqe} (h : Canon s) : CanonOut (execSetFeaturesMediaPowerBudget e s) :=
  h.runFeature fun h => h.withData fun h => h.setBudget
theorem Canon.setRates {e : Sqe} {d : List Byte} (h : Canon s) : Canon (setRates e d s) :=
  h.settingIf fun h => h.updEvents
theorem Canon.execSetFeaturesEventRateLimit {e : Sqe} (h : Canon s) : CanonOut (execSetFeaturesEventRateLimit e s) :=
  h.runFeature fun h => h.withData fun h => h.setRates
theorem Canon.setScrub {e : Sqe} {d : List Byte} (h : Canon s) : Canon (setScrub e d s) :=
  h.settingIf fun h => h.setFeat
theorem Canon.execSetFeaturesScrubPolicy {e : Sqe} (h : Canon s) : CanonOut (execSetFeaturesScrubPolicy e s) :=
  h.runFeature fun h => h.withData fun h => h.setScrub
theorem Canon.setGrain {e : Sqe} {d : List Byte} (h : Canon s) : Canon (setGrain e d s) :=
  h.settingIf fun h => h.setFeat
theorem Canon.execSetFeaturesDramInterleaveGrain {e : Sqe} (h : Canon s) : CanonOut (execSetFeaturesDramInterleaveGrain e s) :=
  h.runFeature fun h => h.withData fun h => h.setGrain
theorem Canon.setBulk {e : Sqe} {d : List Byte} (h : Canon s) : Canon (setBulk e d s) := by
  dsimp only [Machine.setBulk]
  exact h.settingIf fun h => Canon.when { h with } fun h => h.updBulk
theorem Canon.execSetFeaturesBulkPort {e : Sqe} (h : Canon s) : CanonOut (execSetFeaturesBulkPort e s) :=
  h.runFeature fun h => h.withData fun h => h.setBulk
theorem Canon.setMissPolicy {e : Sqe} (h : Canon s) : Canon (setMissPolicy e s) :=
  h.settingIf fun h => h.updSlice
theorem Canon.execSetFeaturesDeadlineMissPolicy {e : Sqe} (h : Canon s) : CanonOut (execSetFeaturesDeadlineMissPolicy e s) :=
  h.runFeature fun h => h.setMissPolicy
theorem Canon.setSeedbed {e : Sqe} {d : List Byte} (h : Canon s) : Canon (setSeedbed e d s) :=
  h.settingIf fun h => h.setFeat
theorem Canon.execSetFeaturesSeedbedPolicy {e : Sqe} (h : Canon s) : CanonOut (execSetFeaturesSeedbedPolicy e s) :=
  h.runFeature fun h => h.withData fun h => h.setSeedbed
theorem Canon.getFeatures {e : Sqe} (h : Canon s) : Canon (getFeatures e s) := by
  dsimp only [Machine.getFeatures]
  split
  · split
    · exact Canon.ite h.failWith h.finish
    · exact h.failWith
  · split
    · exact Canon.ite h.failWith h.finish
    · exact h.failWith
  · split
    · exact Canon.ite h.failWith h.finish
    · exact h.failWith
  · exact Canon.ite h.okDw h.failWith
  · exact h.failWith
theorem Canon.execGetFeatures {e : Sqe} (h : Canon s) : CanonOut (execGetFeatures e s) :=
  (h.admin fun h => h.getFeatures).next

/-! ### NsAdmin -/
theorem Canon.addJob {e : Sqe} {begun : Bool} {dw0 : Nat} (h : Canon s) : Canon (addJob e begun dw0 s).2 :=
  Canon.inSnd { h.fresh with }
theorem Canon.dropJob {k : Nat} (h : Canon s) : Canon (dropJob k s) :=
  { h with }
theorem Canon.nsCreate {e : Sqe} {d : List Byte} (h : Canon s) : Canon (nsCreate e d s) := by
  dsimp only [Machine.nsCreate]
  refine Canon.ite h.bad (Canon.ite h.bad (Canon.ite h.bad (Canon.ite h.bad (Canon.ite h.bad (Canon.ite h.bad (Canon.ite h.ends
      (Canon.ite h.ends ?_)))))))
  split
  · exact h.bad
  · exact h.drawKey.updNs.ends.foldl fun h => h.backingDeficit
theorem Canon.execNamespaceCreate {e : Sqe} (h : Canon s) : CanonOut (execNamespaceCreate e s) :=
  (h.admin fun h => h.withData fun h => h.nsCreate).next
theorem Canon.nsDelete {e : Sqe} (h : Canon s) : Canon (nsDelete e s) := by
  dsimp only [Machine.nsDelete]
  refine Canon.ite ?_ (Canon.ite h.bad h.updNs.wake)
  split
  · exact h.done
  · exact (h.foldl fun h => h.updNs).updNs.wake
theorem Canon.execNamespaceDelete {e : Sqe} (h : Canon s) : CanonOut (execNamespaceDelete e s) :=
  (h.admin fun h => h.nsDelete).next
theorem Canon.nsAttach {e : Sqe} {d : List Byte} (h : Canon s) : Canon (nsAttach e d s) := by
  dsimp only [Machine.nsAttach]
  refine Canon.ite h.bad ?_
  split
  · exact h.bad
  · exact Canon.ite h.bad (Canon.ite h.bad ((h.updNs.when fun h => h.updSlice).foldl fun h => h.nsChanged).done)
theorem Canon.execNamespaceAttach {e : Sqe} (h : Canon s) : CanonOut (execNamespaceAttach e s) :=
  (h.admin fun h => h.withData fun h => h.nsAttach).next
theorem Canon.nsDetach {e : Sqe} {d : List Byte} (h : Canon s) : Canon (nsDetach e d s) := by
  dsimp only [Machine.nsDetach]
  refine Canon.ite h.bad ?_
  split
  · exact h.bad
  · exact Canon.ite h.bad (h.foldl fun h => h.nsChanged).updNs.done
theorem Canon.execNamespaceDetach {e : Sqe} (h : Canon s) : CanonOut (execNamespaceDetach e s) :=
  (h.admin fun h => h.withData fun h => h.nsDetach).next
theorem Canon.formatNow {k : Nat} {e : Sqe} (h : Canon s) : Canon (formatNow k e s) :=
  h.foldl fun h => (Canon.ite_snd h.eraseNs h.eraseNs.drawKey).updNs
theorem Canon.formatNvm {e : Sqe} (h : Canon s) : Canon (formatNvm e s) :=
  Canon.ite h.bad (Canon.ite h.bad (Canon.ite h.bad h.addJob))
theorem Canon.formatBegin {j : Job} (h : Canon s) : Canon (formatBegin j s) :=
  Canon.ite h (Canon.formatNow { h with })

/-! ### Firmware -/
theorem Canon.download {e : Sqe} (h : Canon s) : Canon (download e s) :=
  Canon.ite h.bad (Canon.ite h.bad h.updCard.done)
theorem Canon.execFirmwareImageDownload {e : Sqe} (h : Canon s) : CanonOut (execFirmwareImageDownload e s) :=
  (h.admin fun h => h.download).next
theorem Canon.beginWrite {card : CardId} {w : SlotWrite} (h : Canon s) : Canon (beginWrite card w s) :=
  h.updCard
theorem Canon.relayEvent {w : FwSlot} (h : Canon s) : Canon (relayEvent w s) :=
  h.fwEvent
theorem Canon.offer (h : Canon s) : Canon (offer s) :=
  h.broadcast
theorem Canon.startRelay {w : FwSlot} {action : Nat} (h : Canon s) : Canon (startRelay w action s) :=
  h.updSheaf.relayEvent.offer
theorem Canon.commitStaged {e : Sqe} (h : Canon s) : Canon (commitStaged e s) := by
  dsimp only [Machine.commitStaged]
  refine Canon.ite h.bad (h.bad.whenNot fun hs => Canon.ite hs ?_)
  split
  · exact h.ends
  · refine Canon.ite hs (Canon.ite hs (Canon.ite h.startRelay.done (h.beginWrite.when fun ht => ?_)))
    split
    · exact h.ends
    · exact ht.beginWrite
theorem Canon.commitSlot {e : Sqe} (h : Canon s) : Canon (commitSlot e s) := by
  dsimp only [Machine.commitSlot]
  refine Canon.ite h.bad (Canon.ite h.bad ?_)
  split
  · exact h.ends
  · exact h.updCard.done
theorem Canon.runCommit {f : Sqe → State → State} {e : Sqe} (h : Canon s) (hf : ∀ {x1 t}, Canon t → Canon (f x1 t)) : CanonOut (runCommit f e s) :=
  (h.admin fun h => Canon.ite (hf h) h.bad).next
theorem Canon.execFirmwareCommitReplace {e : Sqe} (h : Canon s) : CanonOut (execFirmwareCommitReplace e s) :=
  h.runCommit fun h => h.commitStaged
theorem Canon.execFirmwareCommitNextStart {e : Sqe} (h : Canon s) : CanonOut (execFirmwareCommitNextStart e s) :=
  h.runCommit fun h => h.commitStaged
theorem Canon.execFirmwareCommitActivateSlot {e : Sqe} (h : Canon s) : CanonOut (execFirmwareCommitActivateSlot e s) :=
  h.runCommit fun h => h.commitSlot
theorem Canon.execFirmwareCommitImmediate {e : Sqe} (h : Canon s) : CanonOut (execFirmwareCommitImmediate e s) :=
  h.runCommit fun h => h.commitStaged
theorem Canon.beginActivation {card : CardId} (h : Canon s) : Canon (beginActivation card s) :=
  h.updCard.updCtrl
theorem Canon.activateBoth (h : Canon s) : Canon (activateBoth s) :=
  h.updCard.beginActivation
theorem Canon.commitEnds {cmd : Option (Port × Nat × Nat)} {action : Nat} {st : Nat × Nat} (h : Canon s) : Canon (commitEnds cmd action st s) := by
  dsimp only [Machine.commitEnds]
  split
  · exact h.finishChange
  · exact h
theorem Canon.confirmSpores (h : Canon s) : Canon (confirmSpores s) :=
  Canon.ite h.toMember h
theorem Canon.relayStored (h : Canon s) : Canon (relayStored s) :=
  h.updSheaf.confirmSpores
theorem Canon.slotsWritten {card : CardId} {w : SlotWrite} (h : Canon s) : Canon (slotsWritten card w s) := by
  dsimp only [Machine.slotsWritten]
  refine Canon.ite (Canon.relayStored (h.foldl fun h => ?_)) (Canon.ite (Canon.commitEnds (Canon.startRelay (Canon.foldl (h.foldl fun h => ?_)
      fun h => Canon.ite h.updCard h))) (Canon.ite (Canon.ite (Canon.activateBoth (Canon.updCard (h.foldl fun h => ?_))) (Canon.beginActivation
      (Canon.updCard (h.foldl fun h => ?_)))) (Canon.commitEnds (h.foldl fun h => ?_))))
  · split
    · exact h.updCard
    · exact h
  · split
    · exact h.updCard
    · exact h
  · split
    · exact h.updCard
    · exact h
  · split
    · exact h.updCard
    · exact h
  · split
    · exact h.updCard
    · exact h
theorem Canon.commitStep {card : CardId} (h : Canon s) : Canon (commitStep card s) := by
  dsimp only [Machine.commitStep]
  split
  · refine Canon.ite h (h.slotsWritten.whenNot fun hs => Canon.ite (Canon.ite h h.updCard) ?_)
    split
    · exact Canon.ite hs h
    · exact h.updCard.commitEnds
  · exact h
theorem Canon.execSlotWriteDone {card : CardId} (h : Canon s) : CanonOut (execSlotWriteDone card s) := by
  dsimp only [Machine.execSlotWriteDone]
  split
  · exact CanonOut.ite h.next h.updCard.commitStep.commitStep.next
  · exact h.next
theorem Canon.activationEnds {st : Nat × Nat} (h : Canon s) : Canon (activationEnds st s) :=
  h.foldl fun h => Canon.ite h.updCard.commitEnds h
theorem Canon.waitForCb (h : Canon s) : Canon (waitForCb s) :=
  Canon.ite h (Canon.ite h.beginActivation (Canon.ite h h.updCard.activationEnds))
theorem Canon.activationStep {card : CardId} (h : Canon s) : Canon (activationStep card s) := by
  dsimp only [Machine.activationStep]
  refine Canon.ite h.updCard.updCtrl.activationEnds ?_
  split
  · exact Canon.ite h (h.updCard.foldl fun h => h.startTransfer).anaUpdate
  · exact Canon.ite (Canon.ite h.updPair h) h.updCard.runSlot.updCard
  · exact Canon.ite (h.updCard.updCtrl.anaUpdate.whenNot fun h => h.activationEnds) h
  · exact h
theorem Canon.execFilnasUpdate {frond : Frond} (h : Canon s) : CanonOut (execFilnasUpdate frond s) :=
  (Canon.ite h.updFrond.updPair h).next
theorem Canon.execFilnasUpdateTimeout {frond : Frond} (h : Canon s) : CanonOut (execFilnasUpdateTimeout frond s) := by
  dsimp only [Machine.execFilnasUpdateTimeout]
  split
  · exact (Canon.ite h.updFrond.updPair.fwEvent h).next
  · exact h.next
theorem Canon.filnasRuns {f : Nat} (h : Canon s) : Canon (filnasRuns f s) := by
  dsimp only [Machine.filnasRuns]
  split
  · exact Canon.ite h.updFrond.fwEvent h
  · exact h
theorem Canon.soak {card : CardId} (h : Canon s) : Canon (soak card s) :=
  Canon.ite h.updCard h
theorem Canon.execHealthConfirm {card : CardId} (h : Canon s) : CanonOut (execHealthConfirm card s) :=
  CanonOut.ite h.next (h.updCard.fwEvent.when fun h => h.besidePartner).next
theorem Canon.execHealthWindowExpiry {card : CardId} (h : Canon s) : CanonOut (execHealthWindowExpiry card s) := by
  dsimp only [Machine.execHealthWindowExpiry]
  split
  · exact CanonOut.ite h.next (h.updCard.branch (fun h => h.cardOut.updCard) fun h => h.event).next
  · exact h.next

/-! ### Relay -/
theorem Canon.updRelay {g : Relay → Relay} (h : Canon s) : Canon (updRelay g s) :=
  h.updSheaf
theorem Canon.relayStepEvent (h : Canon s) : Canon (relayStepEvent s) :=
  h.fwEvent
theorem Canon.endRelay {result : Nat} (h : Canon s) : Canon (endRelay result s) := by
  dsimp only [Machine.endRelay]
  exact (h.broadcast.relayStepEvent.when fun h => h.event).updRelay
theorem Canon.execSporeOffer {hdr : CulmHdr} {relayId length spores action originator : Nat} {chain : List Byte} (h : Canon s) : CanonOut
    (execSporeOffer hdr relayId length spores action originator chain s) :=
  (h.receive.whenNot fun h => Canon.ite h.updRelay h.updSheaf).next
theorem Canon.imageWhole (h : Canon s) : Canon (imageWhole s) := by
  dsimp only [Machine.imageWhole]
  split
  · exact h.updRelay.updRelay.confirmSpores
  · exact h.updRelay.branch (fun h => h.relayStored) fun h => Canon.ite h.updRelay.confirmSpores h.beginWrite.beginWrite
theorem Canon.checkSpores {port : CulmPort} {n : Nat} (h : Canon s) : Canon (checkSpores port n s) := by
  induction n generalizing s with
  | zero => exact h
  | succ n ih => exact .ite h (.ite h.updRelay (.branch h.updRelay.confirmSpores (fun h => h.imageWhole) ih))
theorem Canon.execSporeData {port : CulmPort} {hdr : CulmHdr} {relayId index piece : Nat} {bytes chain : List Byte} (h : Canon s) : CanonOut
    (execSporeData port hdr relayId index piece bytes chain s) :=
  (h.receive.whenNot fun h => h.updRelay.checkSpores).next
theorem Canon.execSporeMissing {index : Nat} (h : Canon s) : CanonOut (execSporeMissing index s) := by
  dsimp only [Machine.execSporeMissing]
  refine Canon.next (Canon.ite ?_ h)
  split
  · exact h.updRelay.ownMsg
  · exact h
theorem Canon.sendSpore {p : CulmPort} {i : Nat} (h : Canon s) : Canon (sendSpore p i s) := by
  dsimp only [Machine.sendSpore]
  split
  · exact Canon.ite h.updSheaf.updCulm.send h
  · exact h
theorem Canon.execSporeResend {port : CulmPort} {hdr : CulmHdr} {relayId index : Nat} (h : Canon s) : CanonOut
    (execSporeResend port hdr relayId index s) :=
  (h.receive.when fun h => h.sendSpore).next
theorem Canon.activateNext (h : Canon s) : Canon (activateNext s) := by
  dsimp only [Machine.activateNext]
  split
  · exact h.updRelay.relayStepEvent.toMember
  · exact Canon.ite h.endRelay (h.updRelay.relayStepEvent.branch (fun h => h.updCard.updCard.activateBoth) fun h => h.endRelay)
theorem Canon.collect (h : Canon s) : Canon (collect s) :=
  Canon.ite h (Canon.ite h.endRelay (Canon.ite h.activateNext h.endRelay))
theorem Canon.execSporeConfirm {hdr : CulmHdr} {relayId highest state reason : Nat} (h : Canon s) : CanonOut
    (execSporeConfirm hdr relayId highest state reason s) :=
  (h.receive.whenNot fun h => h.updMember.branch (fun h => Canon.ite h.updRelay.relayStepEvent.collect (Canon.ite h.endRelay h))
      fun h => h.collect).next
theorem Canon.answerActivate {result : Nat} (h : Canon s) : Canon (answerActivate result s) :=
  h.updRelay.toMember
theorem Canon.execRelayActivate {hdr : CulmHdr} {relayId : Nat} (h : Canon s) : CanonOut (execRelayActivate hdr relayId s) :=
  (h.receive.whenNot fun h => Canon.ite h.updRelay.updCard.updCard.activateBoth h.answerActivate).next
theorem Canon.activated {p result : Nat} (h : Canon s) : Canon (activated p result s) :=
  Canon.ite h.endRelay (Canon.ite h.endRelay h.updMember.activateNext)
theorem Canon.execActivateDone {hdr : CulmHdr} {relayId result : Nat} (h : Canon s) : CanonOut (execActivateDone hdr relayId result s) :=
  (h.receive.when fun h => h.activated).next
theorem Canon.execActivationTimeout (h : Canon s) : CanonOut (execActivationTimeout s) :=
  (Canon.ite h.endRelay h).next
theorem Canon.execRelayEnd {hdr : CulmHdr} {relayId result : Nat} (h : Canon s) : CanonOut (execRelayEnd hdr relayId result s) :=
  (h.receive.when fun h => h.relayStepEvent.updRelay).next
theorem Canon.sendSome {ports : List CulmPort} (h : Canon s) : Canon (sendSome ports s) := by
  dsimp only [Machine.sendSome]
  exact (h.foldl fun h => h.foldl fun h => h.sendSpore).updRelay
theorem Canon.relayLead (h : Canon s) : Canon (relayLead s) :=
  Canon.ite h (h.updRelay.branch (fun h => h.updRelay.confirmSpores) fun h => h.updSheaf.branch (fun h => h.updRelay)
      fun h => Canon.ite h.updRelay h.endRelay)
theorem Canon.relayOrigin (h : Canon s) : Canon (relayOrigin s) := by
  dsimp only [Machine.relayOrigin]
  refine Canon.ite h (Canon.ite h.endRelay ?_)
  split
  · exact h.updRelay.relayStepEvent.offer
  · exact h.updRelay
theorem Canon.relayStep (h : Canon s) : Canon (relayStep s) := by
  dsimp only [Machine.relayStep]
  refine h.relayLead.relayOrigin.whenNot fun h => Canon.ite ?_ ((((Canon.ite h.updRelay h).foldl fun h => h.sendSpore).updRelay.branch
      (fun h => h.sendSome) fun h => Canon.ite h.sendSome h).collect.when fun h => h.endRelay)
  split
  · exact (((Canon.ite h.updRelay h).foldl fun h => h.sendSpore).updRelay.branch (fun h => h.sendSome)
      fun h => Canon.ite h.sendSome h).collect.branch (fun h => h.updRelay.activated) fun h => h.answerActivate
  · exact (((Canon.ite h.updRelay h).foldl fun h => h.sendSpore).updRelay.branch (fun h => h.sendSome) fun h => Canon.ite h.sendSome h).collect

/-! ### SliceAdmin -/
theorem Canon.drainSlice {sl : Nat} (h : Canon s) : Canon (drainSlice sl s) :=
  (h.foldl fun h => Canon.ite h.updCmd (Canon.ite h.settleWrite h).dropCmd).wake
theorem Canon.dropQueues {sl : Nat} (h : Canon s) : Canon (dropQueues sl s) := by
  dsimp only [Machine.dropQueues]
  refine { h with sqs := ?_, cqs := ?_ }
  · dsimp only
    exact rising_filter _ _ h.sqs
  · dsimp only
    exact rising_filter _ _ h.cqs
theorem Canon.resetSlice {sl job : Nat} (h : Canon s) : Canon (resetSlice sl job s) := by
  dsimp only [Machine.resetSlice]
  exact h.updSlice.drainSlice.closeZones
theorem Canon.sliceCmd {m10 m11 m12 : Nat} {e : Sqe} {run : State → State} (h : Canon s) (hrun : ∀ {t}, Canon t → Canon (run t)) : Canon
    (sliceCmd m10 m11 m12 e run s) :=
  Canon.ite h.bad (Canon.ite h.bad (hrun h))
theorem Canon.sliceLive {m10 m11 m12 : Nat} {e : Sqe} {run : State → State} (h : Canon s) (hrun : ∀ {t}, Canon t → Canon (run t)) : Canon
    (sliceLive m10 m11 m12 e run s) :=
  h.sliceCmd fun h => Canon.ite h.bad (hrun h)
theorem Canon.bindEnds {e : Sqe} {sl pasid dw0 : Nat} (h : Canon s) : Canon (bindEnds e sl pasid dw0 s) :=
  h.updSec.change
theorem Canon.sliceCreate {e : Sqe} (h : Canon s) : Canon (sliceCreate e s) := by
  dsimp only [Machine.sliceCreate]
  refine h.bad.whenNot fun hs => Canon.ite h.bad ?_
  split
  · exact h.bad
  · refine Canon.ite h.bad (Canon.ite hs ?_)
    split
    · exact hs
    · exact Canon.ite hs h.drawKey.updSlice.bindEnds
theorem Canon.execSliceCreate {e : Sqe} (h : Canon s) : CanonOut (execSliceCreate e s) :=
  (h.admin fun h => h.sliceCreate).next
theorem Canon.setSliceSt {sl st : Nat} (h : Canon s) : Canon (setSliceSt sl st s) :=
  h.updSlice
theorem Canon.sliceReset {e : Sqe} (h : Canon s) : Canon (sliceReset e s) :=
  h.sliceLive fun h => h.addJob.resetSlice.setSliceSt.updSlice.event
theorem Canon.execSliceReset {e : Sqe} (h : Canon s) : CanonOut (execSliceReset e s) :=
  (h.admin fun h => h.sliceReset).next
theorem Canon.resetEnds {j : Job} (h : Canon s) : Canon (resetEnds j s) :=
  Canon.ite h h.dropQueues.updSlice.dropJob.okDw
theorem Canon.sliceDelete {e : Sqe} (h : Canon s) : Canon (sliceDelete e s) :=
  h.sliceLive fun h => h.addJob.resetSlice.setSliceSt
theorem Canon.execSliceDelete {e : Sqe} (h : Canon s) : CanonOut (execSliceDelete e s) :=
  (h.admin fun h => h.sliceDelete).next
theorem Canon.dropRules {gone : Nat → Bool} (h : Canon s) : Canon (dropRules gone s) := by
  dsimp only [Machine.dropRules]
  exact (h.setRules (rising_filter _ _)).updSp.updSp
theorem Canon.closeQps (h : Canon s) : Canon (closeQps s) :=
  { h with
    qps := rising_filterMap _ (fun p q e => by
      split at e
      · cases e; rfl
      · split at e
        · cases e; rfl
        · cases e) h.qps }
theorem Canon.deleteSlice {sl : Nat} {cmd : Option Nat} (h : Canon s) : Canon (deleteSlice sl cmd s) :=
  (h.foldl fun h => h.eraseNs.nsNotice.updNs).dropQueues.dropRules.updSlice.closeQps
theorem Canon.deleteGoes {j : Job} (h : Canon s) : Canon (deleteGoes j s) :=
  Canon.ite (Canon.ite h (Canon.deleteSlice { h with })) (Canon.ite h h.dropQueues.dropRules.updSlice.closeQps.dropJob.done)
theorem Canon.freezeEnds {sl : Nat} (h : Canon s) : Canon (freezeEnds sl s) := by
  dsimp only [Machine.freezeEnds]
  split
  · exact h.updSlice.ok
  · exact h
theorem Canon.sliceFreeze {e : Sqe} (h : Canon s) : Canon (sliceFreeze e s) :=
  h.sliceLive fun h => Canon.ite h.done h.setSliceSt.updSlice.wake
theorem Canon.execSliceFreeze {e : Sqe} (h : Canon s) : CanonOut (execSliceFreeze e s) :=
  (h.admin fun h => h.sliceFreeze).next
theorem Canon.sliceThaw {e : Sqe} (h : Canon s) : Canon (sliceThaw e s) :=
  h.sliceLive fun h => Canon.ite h.done h.freezeEnds.setSliceSt.updSlice.done
theorem Canon.execSliceThaw {e : Sqe} (h : Canon s) : CanonOut (execSliceThaw e s) :=
  (h.admin fun h => h.sliceThaw).next
theorem Canon.sliceSave {e : Sqe} (h : Canon s) : Canon (sliceSave e s) :=
  h.sliceLive fun h => Canon.ite h.bad (Canon.ite h.bad (Canon.ite h.ends (Canon.ite h.bad h.updSlice.ends)))
theorem Canon.execSliceStateSave {e : Sqe} (h : Canon s) : CanonOut (execSliceStateSave e s) :=
  (h.admin fun h => h.sliceSave).next
theorem Canon.putQueue {p : Port} {sl : Nat} {lost : Bool} {q : QImage} (h : Canon s) : Canon (putQueue p sl lost q s) :=
  h.updSq.updCq
theorem Canon.sliceRestore {e : Sqe} (h : Canon s) : Canon (sliceRestore e s) :=
  h.sliceLive fun h1 => h1.bad.whenNot fun hs => Canon.ite h1.bad (h1.bad.whenNot fun h => Canon.ite hs (Canon.ite h (Canon.ite h1.bad
      (h1.dropQueues.foldl fun h => h.putQueue).updSlice.bindEnds)))
theorem Canon.execSliceStateRestore {e : Sqe} (h : Canon s) : CanonOut (execSliceStateRestore e s) :=
  (h.admin fun h => h.sliceRestore).next
theorem Canon.queueResume {e : Sqe} (h : Canon s) : Canon (queueResume e s) :=
  Canon.ite h.bad (Canon.ite h.bad (Canon.ite h.bad (Canon.ite h.updSq.ends h.done)))
theorem Canon.execQueueResume {e : Sqe} (h : Canon s) : CanonOut (execQueueResume e s) :=
  (h.admin fun h => h.queueResume).next
theorem Canon.shareSet {e : Sqe} (h : Canon s) : Canon (shareSet e s) := by
  dsimp only [Machine.shareSet]
  refine h.bad.whenNot fun hs => Canon.ite h.bad (Canon.ite h.bad ?_)
  split
  · exact hs
  · exact Canon.ite hs h.updSlice.done
theorem Canon.execShareSet {e : Sqe} (h : Canon s) : CanonOut (execShareSet e s) :=
  (h.admin fun h => h.shareSet).next
theorem Canon.execFormatNvm {e : Sqe} (h : Canon s) : CanonOut (execFormatNvm e s) :=
  (h.admin fun h => h.formatNvm).next
theorem Canon.formatGoes {j : Job} (h : Canon s) : Canon (formatGoes j s) :=
  Canon.ite h.formatBegin (Canon.ite h.dropJob.done h)

/-! ### HostTables -/
theorem Canon.badAt {e : Sqe} {loc : Nat} (h : Canon s) : Canon (badAt e loc s) :=
  h.updSec.change
theorem Canon.ruleWrite {e : Sqe} (h : Canon s) : Canon (ruleWrite e s) := by
  unfold Machine.ruleWrite
  extract_lets n first l fails b b' re feat t own many go s1
  clear_value many
  have hs : Canon s1 := Canon.foldl (h.setRules rising_writeRules) fun h => h.updSlice
  have holes {c} {u : State} (hu : Canon u) : Canon (re c u) := hu.when fun h => h.updSp
  have goes {c} {u : State} (hu : Canon u) : Canon (go c u) := hu.when fun h => h.updSp
  refine .ite h.bad (.ite h.bad (.ite h.badAt (.ite (.ite h.badAt (Canon.done (holes (holes { h with })))) ?_)))
  split
  · exact h.badAt
  · split
    · exact h.badAt
    · split
      · exact h.badAt
      · split
        · exact h.badAt
        · exact .ite h.badAt (goes (goes hs)).done
theorem Canon.execSpikeletRuleWrite {e : Sqe} (h : Canon s) : CanonOut (execSpikeletRuleWrite e s) :=
  (h.admin fun h => h.ruleWrite).next
theorem Canon.ruleRead {e : Sqe} (h : Canon s) : Canon (ruleRead e s) :=
  Canon.ite h.bad (Canon.ite h.bad h.okData)
theorem Canon.execSpikeletRuleRead {e : Sqe} (h : Canon s) : CanonOut (execSpikeletRuleRead e s) :=
  (h.admin fun h => h.ruleRead).next
theorem Canon.programGoes {j : Job} (h : Canon s) : Canon (programGoes j s) :=
  Canon.ite (Canon.ite h (Canon.foldl { h with } fun h => h.addWork)) (Canon.ite h ((h.foldl fun h => h.dropWork).dropJob.branch (fun h => h.bad)
      fun h => h.updSlice.done))
theorem Canon.programLoad {e : Sqe} (h : Canon s) : Canon (programLoad e s) := by
  dsimp only [Machine.programLoad]
  refine h.bad.whenNot fun hs => Canon.ite h.bad (Canon.ite hs ?_)
  split
  · exact h.ends
  · exact Canon.ite h.ends h.addJob
theorem Canon.execWinnowProgramLoad {e : Sqe} (h : Canon s) : CanonOut (execWinnowProgramLoad e s) :=
  (h.admin fun h => h.programLoad).next
theorem rising_serveQp {sl : Nat} {d : Desc} {q : Tbl Qp} (h : rising q = true) : rising (serveQp sl d q) = true := by
  dsimp only [serveQp]
  split
  · exact rising_tins _ _ _ h
  · exact rising_tins _ _ _ h
theorem Canon.endpointSet {e : Sqe} (h : Canon s) : Canon (endpointSet e s) := by
  refine .ite h.bad (.ite h.bad (.ite h.bad (Canon.done (Canon.closeQps (Canon.via h.updSlice fun h => { h with
    qps := List.foldlRecOn (motive := fun q => rising q = true) _ _ h.qps fun q hq d _ => ?_ })))))
  split
  · exact rising_serveQp hq
  · exact hq
theorem Canon.execBulkEndpointSet {e : Sqe} (h : Canon s) : CanonOut (execBulkEndpointSet e s) :=
  (h.admin fun h => h.endpointSet).next

/-! ### Security -/
theorem Canon.acceptToken {e : Sqe} {t : List Byte} (h : Canon s) : Canon (acceptToken e t s) :=
  h.updSec.branch (fun h => h.updSec.finishChange.aenPage) fun h => h.updSec.okDw
theorem Canon.submitToken {e : Sqe} (h : Canon s) : Canon (submitToken e s) := by
  dsimp only [Machine.submitToken]
  refine Canon.ite h.bad (Canon.ite h.bad (Canon.ite h.refused (Canon.ite h.refused (Canon.ite h.refused ?_))))
  split
  · exact (Canon.ite h h.updSec).event.aenPage.refused
  · exact (Canon.ite h h.updSec).refused
  · exact (Canon.ite h h.updSec).acceptToken
theorem Canon.execAuthorizationSubmitToken {e : Sqe} (h : Canon s) : CanonOut (execAuthorizationSubmitToken e s) :=
  (h.admin fun h => h.submitToken).next
theorem Canon.issueNonce {e : Sqe} (h : Canon s) : Canon (issueNonce e s) :=
  Canon.ite h.bad h.draw.updSec.finish
theorem Canon.execIssueNonce {e : Sqe} (h : Canon s) : CanonOut (execIssueNonce e s) :=
  (h.admin fun h => h.issueNonce).next
theorem Canon.execNonceExpiry {nonce : BitVec 64} (h : Canon s) : CanonOut (execNonceExpiry nonce s) :=
  h.updSec.next
theorem Canon.dropHandle {x : Nat} (h : Canon s) : Canon (dropHandle x s) :=
  h.updSec
theorem Canon.execHandleExpiry {handle : Nat} (h : Canon s) : CanonOut (execHandleExpiry handle s) :=
  (Canon.ite h.dropHandle h).next
theorem Canon.execAttestationSignature (h : Canon s) : CanonOut (execAttestationSignature s) := by
  dsimp only [Machine.execAttestationSignature]
  split
  · exact h.next
  · exact CanonOut.ite h.next h.updSec.next
theorem Canon.useToken {e : Sqe} {t : Token} (h : Canon s) : Canon (useToken e t s) :=
  h.dropHandle.updSec
theorem Canon.refusedChange {e : Sqe} {reason : Nat} (h : Canon s) : Canon (refusedChange e reason s) :=
  h.updSec.finishChange
theorem Canon.setLevel {lv : Nat} (h : Canon s) : Canon (setLevel lv s) :=
  h.updCard.updCard.updSec.aenPage
theorem Canon.beginErase {e : Sqe} {dw0 : Nat} (h : Canon s) : Canon (beginErase e dw0 s) :=
  h.updSec.addJob
theorem Canon.guardChange {e : Sqe} (h : Canon s) : Canon (guardChange e s) := by
  dsimp only [Machine.guardChange]
  refine Canon.ite h.bad (Canon.ite h.bad ?_)
  split
  · exact h.refusedChange
  · exact Canon.ite h.refusedChange (h.useToken.branch (fun h => h.refusedChange) fun h => Canon.ite h.refusedChange (Canon.ite h.refusedChange
      (Canon.ite h.setLevel.ends (h.beginErase.foldl fun h => Canon.ite h h.updSlice.drainSlice.closeZones))))
theorem Canon.execGuardLevelChange {e : Sqe} (h : Canon s) : CanonOut (execGuardLevelChange e s) :=
  (h.admin fun h => h.guardChange).next
theorem Canon.beginJob {j : Job} (h : Canon s) : Canon (beginJob j s) :=
  { h with }
theorem Canon.newRoot (h : Canon s) : Canon (newRoot s) := by
  dsimp only [Machine.newRoot]
  exact h.updSec.updCard.updCard
theorem Canon.newSliceKey {sl : Nat} (h : Canon s) : Canon (newSliceKey sl s) :=
  h.drawKey.updSlice
theorem Canon.lowerNow {j : Job} (h : Canon s) : Canon (lowerNow j s) :=
  ((h.beginJob.newRoot.newSliceKey.foldl fun h => h.deleteSlice.dropQueues.updSlice).foldl fun h => h.eraseNs.nsNotice.updNs).when fun h => h.updSec
theorem Canon.guardGoes {j : Job} (h : Canon s) : Canon (guardGoes j s) :=
  Canon.ite (Canon.ite h.lowerNow h) (Canon.ite h h.dropJob.setLevel.ends)
theorem Canon.sanitizeBegin {e : Sqe} (h : Canon s) : Canon (sanitizeBegin e s) :=
  Canon.ite h.bad (Canon.ite h.bad h.updSec.beginErase)
theorem Canon.execSanitize {e : Sqe} (h : Canon s) : CanonOut (execSanitize e s) :=
  (h.admin fun h => h.sanitizeBegin).next
theorem Canon.cryptoErase {j : Job} (h : Canon s) : Canon (cryptoErase j s) :=
  (h.beginJob.newRoot.foldl fun h => h.newSliceKey).foldl fun h => h.drawKey.eraseNs.updNs
theorem Canon.sanitizeGoes {j : Job} (h : Canon s) : Canon (sanitizeGoes j s) :=
  Canon.ite (Canon.ite h.cryptoErase h) (Canon.ite h h.dropJob.updSec.done)
theorem Canon.jobStep {j : Job} (h : Canon s) : Canon (jobStep j s) := by
  dsimp only [Machine.jobStep]
  split
  · exact h.resetEnds
  · exact h.deleteGoes
  · exact h.formatGoes
  · exact h.sanitizeGoes
  · exact h.programGoes
  · exact h.guardGoes
theorem Canon.clearChecked {e : Sqe} {scope : Nat} {run : Token → State → State} (h : Canon s) (hrun : ∀ {x1 t}, Canon t → Canon (run x1 t)) : Canon
    (clearChecked e scope run s) := by
  dsimp only [Machine.clearChecked]
  refine Canon.ite h.bad (Canon.ite h.bad ?_)
  split
  · exact h.refusedChange
  · exact Canon.ite h.refusedChange (hrun h.useToken)
theorem Canon.clearFrond {e : Sqe} {t : Token} (h : Canon s) : Canon (clearFrond e t s) :=
  h.updFrond.done
theorem Canon.execEventClearFrond {e : Sqe} (h : Canon s) : CanonOut (execEventClearFrond e s) :=
  (h.admin fun h => h.clearChecked fun h => h.clearFrond).next
theorem Canon.clearModule {e : Sqe} {t : Token} (h : Canon s) : Canon (clearModule e t s) := by
  dsimp only [Machine.clearModule]
  exact h.updEvents.updRec.updRec.updSheaf.done.updEvents
theorem Canon.execEventClearModule {e : Sqe} (h : Canon s) : CanonOut (execEventClearModule e s) :=
  (h.admin fun h => h.clearChecked fun h => h.clearModule).next

/-! ### Control -/
theorem Canon.frondCmd {e : Sqe} {run : Nat → State → State} (h : Canon s) (hrun : ∀ {x1 t}, Canon t → Canon (run x1 t)) : Canon (frondCmd e run s) :=
  Canon.ite h.bad (hrun h)
theorem Canon.prepareFrond {e : Sqe} {f : Nat} (h : Canon s) : Canon (prepareFrond e f s) :=
  Canon.ite h.done (Canon.ite h.bad (Canon.ite h.ends h.updFrond))
theorem Canon.execPrepareRemoval {e : Sqe} (h : Canon s) : CanonOut (execPrepareRemoval e s) :=
  (h.admin fun h => h.frondCmd fun h => h.prepareFrond).next
theorem Canon.stayFrond {f : Nat} (h : Canon s) : Canon (stayFrond f s) := by
  dsimp only [Machine.stayFrond]
  refine Canon.ite h.untrain.frondKnown (Canon.placeWaiting (Canon.updFrond (Canon.updFrond ?_)))
  split
  · exact h.finishChange
  · exact h
theorem Canon.cancelPrepare {e : Sqe} {f : Nat} (h : Canon s) : Canon (cancelPrepare e f s) :=
  Canon.ite h.stayFrond.done (Canon.ite h.done h.bad)
theorem Canon.execCancelPrepare {e : Sqe} (h : Canon s) : CanonOut (execCancelPrepare e s) :=
  (h.admin fun h => h.frondCmd fun h => h.cancelPrepare).next
theorem Canon.declareLost {e : Sqe} {f : Nat} (h : Canon s) : Canon (declareLost e f s) := by
  dsimp only [Machine.declareLost]
  refine Canon.ite h.bad (Canon.done ?_)
  split
  · exact h.frondLost.when fun h => h.frondNew
  · exact h.frondLost
theorem Canon.execDeclareLost {e : Sqe} (h : Canon s) : CanonOut (execDeclareLost e s) :=
  (h.admin fun h => h.frondCmd fun h => h.declareLost).next
theorem Canon.setRate {e : Sqe} {f : Nat} (h : Canon s) : Canon (setRate e f s) :=
  Canon.ite h.bad h.updRebuild.done
theorem Canon.execSetRebuildRate {e : Sqe} (h : Canon s) : CanonOut (execSetRebuildRate e s) :=
  (h.admin fun h => h.frondCmd fun h => h.setRate).next
theorem Canon.setLocate {e : Sqe} {v : Bool} {f : Nat} (h : Canon s) : Canon (setLocate e v f s) :=
  h.updFrond.done
theorem Canon.execLocateLedOn {e : Sqe} (h : Canon s) : CanonOut (execLocateLedOn e s) :=
  (h.admin fun h => h.frondCmd fun h => h.setLocate).next
theorem Canon.execLocateLedOff {e : Sqe} (h : Canon s) : CanonOut (execLocateLedOff e s) :=
  (h.admin fun h => h.frondCmd fun h => h.setLocate).next
theorem Canon.sheafCmd {e : Sqe} {run : State → State} (h : Canon s) (hrun : ∀ {t}, Canon t → Canon (run t)) : Canon (sheafCmd e run s) :=
  Canon.ite h.bad (hrun h)
theorem Canon.leadOnly {e : Sqe} {run : State → State} (h : Canon s) (hrun : ∀ {t}, Canon t → Canon (run t)) : Canon (leadOnly e run s) :=
  Canon.ite (hrun h) h.ends
theorem Canon.enablePorts {e : Sqe} (h : Canon s) : Canon (enablePorts e s) :=
  h.updSheaf.updCulm.updCulm.done
theorem Canon.execEnableCulmPorts {e : Sqe} (h : Canon s) : CanonOut (execEnableCulmPorts e s) :=
  (h.admin fun h => h.sheafCmd fun h => h.enablePorts).next
theorem Canon.awaitHand {e : Sqe} {action x : Nat} (h : Canon s) : Canon (awaitHand e action x s) :=
  Canon.ite h.startHand (Canon.ite h.updSheaf h.bad)
theorem Canon.disablePorts {e : Sqe} (h : Canon s) : Canon (disablePorts e s) := by
  dsimp only [Machine.disablePorts]
  split
  · exact h.awaitHand
  · exact h.leaveSheaf.done
theorem Canon.execDisableCulmPorts {e : Sqe} (h : Canon s) : CanonOut (execDisableCulmPorts e s) :=
  (h.admin fun h => h.sheafCmd fun h => h.disablePorts).next
theorem Canon.handOver {e : Sqe} (h : Canon s) : Canon (handOver e s) := by
  dsimp only [Machine.handOver]
  split
  · exact h.awaitHand
  · exact h.bad
theorem Canon.execHandOverLead {e : Sqe} (h : Canon s) : CanonOut (execHandOverLead e s) :=
  (h.admin fun h => h.sheafCmd fun h => h.leadOnly fun h => h.handOver).next
theorem Canon.shelfBudget {e : Sqe} (h : Canon s) : Canon (shelfBudget e s) :=
  Canon.ite h.bad h.updSheaf.done
theorem Canon.execSetShelfPowerBudget {e : Sqe} (h : Canon s) : CanonOut (execSetShelfPowerBudget e s) :=
  (h.admin fun h => h.sheafCmd fun h => h.leadOnly fun h => h.shelfBudget).next
theorem Canon.planYields (h : Canon s) : Canon (planYields s) := by
  dsimp only [Machine.planYields]
  split
  · exact h.updSheaf.finishChange
  · exact h
theorem Canon.setPlan {e : Sqe} (h : Canon s) : Canon (setPlan e s) :=
  h.bad.whenNot fun hs => Canon.ite h.bad (Canon.ite hs h.planYields.updSheaf.sheafEvent.sendPlan.planDone)
theorem Canon.execSheafPhasePlanSet {e : Sqe} (h : Canon s) : CanonOut (execSheafPhasePlanSet e s) :=
  (h.admin fun h => h.leadOnly fun h => h.setPlan).next
theorem Canon.peuCmd {e : Sqe} {run : PeuId → State → State} (h : Canon s) (hrun : ∀ {x1 t}, Canon t → Canon (run x1 t)) : Canon (peuCmd e run s) :=
  Canon.ite h.bad (Canon.ite h.bad (hrun h))
theorem Canon.enableOutput {e : Sqe} {p : PeuId} (h : Canon s) : Canon (enableOutput e p s) :=
  Canon.ite h.bad h.command
theorem Canon.execPeuEnableOutput {e : Sqe} (h : Canon s) : CanonOut (execPeuEnableOutput e s) :=
  (h.admin fun h => h.peuCmd fun h => h.enableOutput).next
theorem Canon.disableOutput {e : Sqe} {p : PeuId} (h : Canon s) : Canon (disableOutput e p s) :=
  Canon.ite h.ends h.command
theorem Canon.execPeuDisableOutput {e : Sqe} (h : Canon s) : CanonOut (execPeuDisableOutput e s) :=
  (h.admin fun h => h.peuCmd fun h => h.disableOutput).next
theorem Canon.limitCurrent {e : Sqe} {p : PeuId} (h : Canon s) : Canon (limitCurrent e p s) :=
  Canon.ite h.bad h.command
theorem Canon.execPeuSetCurrentLimit {e : Sqe} (h : Canon s) : CanonOut (execPeuSetCurrentLimit e s) :=
  (h.admin fun h => h.peuCmd fun h => h.limitCurrent).next
theorem Canon.marginCurrent {e : Sqe} {p : PeuId} (h : Canon s) : Canon (marginCurrent e p s) :=
  Canon.ite h.bad h.command
theorem Canon.execPeuSetMargin {e : Sqe} (h : Canon s) : CanonOut (execPeuSetMargin e s) :=
  (h.admin fun h => h.peuCmd fun h => h.marginCurrent).next

/-! ### Mi -/
theorem Canon.respond {status : Nat} {body : List Byte} (h : Canon s) : Canon (respond status body s) :=
  Canon.ite (Canon.send { h with }) h
theorem Canon.miTick (h : Canon s) : Canon (miTick s) :=
  { h with }
theorem Canon.execSmbusBlockRead {offset : Nat} (h : Canon s) : CanonOut (execSmbusBlockRead offset s) := by
  dsimp only [Machine.execSmbusBlockRead]
  refine Canon.next ?_
  split <;> exact h.respond
theorem Canon.execSetEndpointId {eid : BitVec 8} (h : Canon s) : CanonOut (execSetEndpointId eid s) :=
  Canon.next (Canon.ite h.respond (Canon.ite (Canon.respond { h with }) h))
theorem Canon.execGetEndpointId (h : Canon s) : CanonOut (execGetEndpointId s) :=
  h.respond.next
theorem Canon.execGetEndpointUuid (h : Canon s) : CanonOut (execGetEndpointUuid s) :=
  h.respond.next
theorem Canon.execGetMctpVersionSupport {msgType : BitVec 8} (h : Canon s) : CanonOut (execGetMctpVersionSupport msgType s) :=
  (Canon.ite h.respond (Canon.ite h.respond h.respond)).next
theorem Canon.execGetMessageTypeSupport (h : Canon s) : CanonOut (execGetMessageTypeSupport s) :=
  h.respond.next
theorem Canon.execMctpUnsupportedControl {command : BitVec 8} (h : Canon s) : CanonOut (execMctpUnsupportedControl command s) :=
  (Canon.ite h h.respond).next
theorem Canon.execReadNvmeMiDataStructure {dtyp : BitVec 8} {sel : Nat} (h : Canon s) : CanonOut (execReadNvmeMiDataStructure dtyp sel s) := by
  dsimp only [Machine.execReadNvmeMiDataStructure]
  refine Canon.next ?_
  split
  · exact h.respond
  · exact Canon.ite h.respond (Canon.ite h.respond h.respond)
  · exact h.respond
  · exact Canon.ite h.respond h.respond
  · exact h.respond
theorem Canon.execNvmSubsystemHealthStatusPoll {clear : Bool} (h : Canon s) : CanonOut (execNvmSubsystemHealthStatusPoll clear s) :=
  Canon.next (Canon.ite (Canon.respond { h with }) h.respond)
theorem Canon.execControllerHealthStatusPoll (h : Canon s) : CanonOut (execControllerHealthStatusPoll s) :=
  h.respond.next
theorem Canon.execConfigurationGet {ident : BitVec 8} (h : Canon s) : CanonOut (execConfigurationGet ident s) := by
  dsimp only [Machine.execConfigurationGet]
  refine Canon.next ?_
  split <;> exact h.respond
theorem Canon.configured {ident : Nat} {g : Mi → Mi} (h : Canon s) : Canon (configured ident g s) :=
  Canon.ite h.respond (Canon.change { h with })
theorem Canon.execConfigurationSet {ident : BitVec 8} {value : Nat} (h : Canon s) : CanonOut (execConfigurationSet ident value s) := by
  dsimp only [Machine.execConfigurationSet]
  refine Canon.next (Canon.ite h ?_)
  split
  · exact Canon.ite h.configured h.respond
  · exact Canon.ite h.configured h.respond
  · exact h.respond
theorem Canon.miAnswer (h : Canon s) : Canon (miAnswer s) := by
  dsimp only [Machine.miAnswer]
  split
  · exact h
  · exact Canon.whenNot { h with } fun hs => Canon.ite h hs.respond
theorem Canon.execVpdRead {offset length : Nat} (h : Canon s) : CanonOut (execVpdRead offset length s) :=
  (Canon.ite h.respond h.respond).next
theorem Canon.miAdmin {st : Nat × Nat} {dw0 : Nat} {data : List Byte} (h : Canon s) : Canon (miAdmin st dw0 data s) :=
  h.respond
theorem Canon.execMiAdminIdentify {e : Sqe} (h : Canon s) : CanonOut (execMiAdminIdentify e s) := by
  dsimp only [Machine.execMiAdminIdentify]
  refine Canon.next (Canon.ite h.miAdmin ?_)
  split <;> exact h.miAdmin
theorem Canon.execMiAdminGetLogPage {e : Sqe} (h : Canon s) : CanonOut (execMiAdminGetLogPage e s) := by
  dsimp only [Machine.execMiAdminGetLogPage]
  refine Canon.next (Canon.ite h.miAdmin ?_)
  split <;> exact h.miAdmin
theorem Canon.execMiAdminGetFeatures {e : Sqe} (h : Canon s) : CanonOut (execMiAdminGetFeatures e s) := by
  dsimp only [Machine.execMiAdminGetFeatures]
  refine Canon.next ?_
  split
  · split <;> exact h.miAdmin
  · split <;> exact h.miAdmin
  · split <;> exact h.miAdmin
  · exact Canon.ite h.miAdmin h.miAdmin
  · exact h.miAdmin
theorem Canon.execMiUnsupportedCommand {admin : Bool} {opcode : BitVec 8} (h : Canon s) : CanonOut (execMiUnsupportedCommand admin opcode s) :=
  (Canon.ite (Canon.ite h h.miAdmin) (Canon.ite h h.respond)).next

end Sys2Proof.Laws
end

