-- ==== Sys2Proof/Proofs/CanonTick.lean ====
section
/-! PROOFS. O60: the frame tick and the dispatch of admin commands keep the tables canonical. One lemma for each
operation of the model, in the order of the model. -/
namespace Sys2Proof.Laws
open Sys2Proof Sys2Proof.Machine

variable {s t : State}

/-! ### Tick -/
theorem Canon.stateOf {o : Out} (h : Canon s) (ho : CanonOut o) : Canon (stateOf s o) := by
  unfold Machine.stateOf
  split
  · exact ho _ rfl
  · exact h
theorem Canon.setFeatureAgain {e : Sqe} (h : Canon s) : CanonOut (setFeatureAgain e s) := by
  dsimp only [Machine.setFeatureAgain]
  split
  · exact h.execSetFeaturesArbitration
  · exact h.execSetFeaturesPowerManagement
  · exact h.execSetFeaturesTemperatureThreshold
  · exact h.execSetFeaturesVolatileWriteCache
  · exact h.execSetFeaturesNumberOfQueues
  · exact h.execSetFeaturesInterruptCoalescing
  · exact h.execSetFeaturesInterruptVector
  · exact h.execSetFeaturesAsyncEventConfig
  · exact h.execSetFeaturesTimestamp
  · exact h.execSetFeaturesFrameParameters
  · exact h.execSetFeaturesThermalThrottlePoints
  · exact h.execSetFeaturesMediaPowerBudget
  · exact h.execSetFeaturesEventRateLimit
  · exact h.execSetFeaturesScrubPolicy
  · exact h.execSetFeaturesDramInterleaveGrain
  · exact h.execSetFeaturesBulkPort
  · exact h.execSetFeaturesDeadlineMissPolicy
  · exact h.execSetFeaturesSeedbedPolicy
  · exact h.execSetFeaturesUnsupported
theorem Canon.frondAgain {e : Sqe} (h : Canon s) : CanonOut (frondAgain e s) := by
  dsimp only [Machine.frondAgain]
  split
  · exact h.execPrepareRemoval
  · exact h.execCancelPrepare
  · exact h.execDeclareLost
  · exact h.execSetRebuildRate
  · exact h.execLocateLedOn
  · exact h.execLocateLedOff
  · exact h.execUnsupportedOpcode
theorem Canon.sheafAgain {e : Sqe} (h : Canon s) : CanonOut (sheafAgain e s) := by
  dsimp only [Machine.sheafAgain]
  split
  · exact h.execEnableCulmPorts
  · exact h.execDisableCulmPorts
  · exact h.execHandOverLead
  · exact h.execSetShelfPowerBudget
  · exact h.execUnsupportedOpcode
theorem Canon.peuAgain {e : Sqe} (h : Canon s) : CanonOut (peuAgain e s) := by
  dsimp only [Machine.peuAgain]
  split
  · exact h.execPeuEnableOutput
  · exact h.execPeuDisableOutput
  · exact h.execPeuSetCurrentLimit
  · exact h.execPeuSetMargin
  · exact h.execUnsupportedOpcode
theorem Canon.commitAgain {e : Sqe} (h : Canon s) : CanonOut (commitAgain e s) := by
  dsimp only [Machine.commitAgain]
  split
  · exact h.execFirmwareCommitReplace
  · exact h.execFirmwareCommitNextStart
  · exact h.execFirmwareCommitActivateSlot
  · exact h.execFirmwareCommitImmediate
  · exact h.execUnsupportedOpcode
theorem Canon.commandAgain {e : Sqe} (h : Canon s) : CanonOut (commandAgain e s) := by
  dsimp only [Machine.commandAgain]
  split
  · exact h.execDeleteIoSubmissionQueue
  · exact h.execCreateIoSubmissionQueue
  · exact h.execDeleteIoCompletionQueue
  · exact h.execCreateIoCompletionQueue
  · exact h.execIdentify
  · exact h.execAbort
  · exact h.setFeatureAgain
  · exact h.execGetFeatures
  · exact h.execAsynchronousEventRequest
  · exact CanonOut.ite h.execUnsupportedOpcode (CanonOut.ite h.execNamespaceDelete h.execNamespaceCreate)
  · exact h.commitAgain
  · exact h.execFirmwareImageDownload
  · exact CanonOut.ite h.execUnsupportedOpcode (CanonOut.ite h.execNamespaceDetach h.execNamespaceAttach)
  · exact h.execFormatNvm
  · exact h.execSanitize
  · exact h.execSliceCreate
  · exact h.execSliceDelete
  · exact h.execSliceStateRestore
  · exact h.execSliceStateSave
  · exact h.execSliceReset
  · exact CanonOut.ite h.execSliceThaw h.execSliceFreeze
  · exact h.execQueueResume
  · exact h.execShareSet
  · exact h.execSpikeletRuleWrite
  · exact h.execSpikeletRuleRead
  · exact CanonOut.ite h.execIssueNonce h.execAuthorizationSubmitToken
  · exact h.execGuardLevelChange
  · exact h.frondAgain
  · exact h.sheafAgain
  · exact h.execSheafPhasePlanSet
  · exact CanonOut.ite h.execEventClearModule h.execEventClearFrond
  · exact h.execBulkEndpointSet
  · exact h.peuAgain
  · exact h.execWinnowProgramLoad
  · exact h.execUnsupportedOpcode
theorem Canon.runAgain {l : List Sqe} (h : Canon s) : Canon (runAgain l s) :=
  h.foldl fun h => Canon.ite ((h.when fun h => h.updCtrl).via fun h => (h.stateOf h.commandAgain).when fun h => h.updCtrl) { h with }
theorem Canon.runWoken (h : Canon s) : Canon (runWoken s) :=
  Canon.ite h h.updPower.runAgain
theorem Canon.runHeld (h : Canon s) : Canon (runHeld s) :=
  Canon.runAgain { h with }
theorem Canon.passFrame (h : Canon s) : Canon (passFrame s) := by
  unfold Machine.passFrame
  extract_lets c fc s1 s2 s3 refill ended
  have h3 : Canon s3 := h.updTime.updSheaf.updStats
  exact Canon.setSlices (h3.setReqs (rising_filter _ _)) (rising_values _)
theorem Canon.rachisTick (h : Canon s) : Canon (rachisTick s) :=
  Canon.ite h.updSheaf (Canon.ite h.updSheaf h)
theorem Canon.countStopped (h : Canon s) : Canon (countStopped s) :=
  h.setCmds (rising_entries _ (by grind))
theorem Canon.powerMove (h : Canon s) : Canon (powerMove s) := by
  dsimp only [Machine.powerMove]
  split
  · exact (Canon.ite (h.setCmds (rising_entries _ (by grind))) h).updPower.followFreq.answer
  · exact h
theorem Canon.factorTick (h : Canon s) : Canon (factorTick s) :=
  h.updCard.updCard.followFreq
theorem Canon.masterMove (h : Canon s) : Canon (masterMove s) := by
  dsimp only [Machine.masterMove]
  split
  · exact h.updPair.when fun h => h.setMaster.event
  · exact h
theorem Canon.leavingStep {card : CardId} (h : Canon s) : Canon (leavingStep card s) := by
  dsimp only [Machine.leavingStep]
  refine Canon.ite h.updCard.updCtrl ?_
  split
  · exact Canon.ite h (h.updCard.foldl fun h => h.startTransfer).anaUpdate
  · exact Canon.ite (Canon.ite h.updPair h) (Canon.ite h.cardLeaves h)
  · exact h
theorem Canon.enteredStep {card : CardId} (h : Canon s) : Canon (enteredStep card s) :=
  Canon.ite h.updCard h
theorem Canon.pairBoundary (h : Canon s) : Canon (pairBoundary s) :=
  (h.foldl fun h =>
      h.switchGroup).masterMove.leavingStep.leavingStep.enteredStep.enteredStep.commitStep.commitStep.activationStep.activationStep.waitForCb.soak.soak
theorem Canon.freePools (h : Canon s) : Canon (freePools s) := by
  dsimp only [Machine.freePools]
  exact (h.setFronds (rising_values _)).updSheaf
theorem Canon.leftover {f : Nat} (h : Canon s) : Canon (leftover f s) :=
  (h.updFrond.foldl fun h => h.notPlaced).settleFailed
theorem Canon.landData {f : Nat} (h : Canon s) : Canon (landData f s) := by
  dsimp only [Machine.landData]
  refine h.foldl fun h => ?_
  split
  · exact Canon.ite h (h.updDie.whenNot fun h => h.freeStage.updChunk)
  · exact h
theorem Canon.unheard {f : Nat} (h : Canon s) : Canon (unheard f s) :=
  (Canon.ite h.planLost h).when fun h => h.planLost
theorem Canon.shiftPlan {f : Nat} (h : Canon s) : Canon (shiftPlan f s) :=
  h.updFrond
theorem Canon.startSegment {f die : Nat} (h : Canon s) : Canon (startSegment f die s) := by
  dsimp only [Machine.startSegment]
  split
  · exact (Canon.ite h.updBlk h).updDie
  · exact h
theorem Canon.startPlan {f : Nat} (h : Canon s) : Canon (startPlan f s) :=
  ((((h.setDies (rising_entries _ (by grind))).foldl fun h => h.unpack).whenNot fun h => h.foldl fun h => h.startSegment).foldl
      fun h => h.updDie).foldl fun h => h.issueSense
theorem Canon.frondMarker {f : Nat} (h : Canon s) : Canon (frondMarker f s) :=
  Canon.ite h ((h.updFrond.when fun h => h.send).when fun h => h.send)
theorem Canon.coreBack {f : Nat} (h : Canon s) : Canon (coreBack f s) :=
  Canon.ite h.untrain.frondKnown h
theorem Canon.frondTick {f : Nat} (h : Canon s) : Canon (frondTick f s) :=
  h.coreBack.frondMarker.filnasRuns.flushStore.when fun h => h.leftover.landData.unheard.shiftPlan.startPlan
theorem Canon.countCharge (h : Canon s) : Canon (countCharge s) := by
  dsimp only [Machine.countCharge]
  exact h.updPower
theorem Canon.epochTick (h : Canon s) : Canon (epochTick s) :=
  Canon.ite h (h.updPower.whenNot fun h => h.updSheaf.updSheaf)
theorem Canon.sendAllowances (h : Canon s) : Canon (sendAllowances s) :=
  h.foldl fun h => h.updFrond
theorem Canon.heartbeatTick {c : CardId} (h : Canon s) : Canon (heartbeatTick c s) :=
  Canon.ite h h.updCard.send
theorem Canon.queueTick {c : CardId} (h : Canon s) : Canon (queueTick c s) :=
  Canon.ite h.mirror h
theorem Canon.cardStatus (h : Canon s) : Canon (cardStatus s) :=
  Canon.ite h ((((Canon.ite h.sendPeu h).when fun h => h.sendPeu).when fun h => h.sendPeu).when fun h => h.sendPeu)
theorem Canon.helloOn {p : CulmPort} (h : Canon s) : Canon (helloOn p s) :=
  h.ownMsg
theorem Canon.censusMsg (h : Canon s) : Canon (censusMsg s) :=
  h.broadcast
theorem Canon.sheafTick (h : Canon s) : Canon (sheafTick s) :=
  Canon.ite h (((((Canon.ite h.emitRachis h).when fun h => h.send).when fun h => h.helloOn.helloOn).when fun h => h.censusMsg).when
      fun h => h.sendPlan).sendEvents.relayStep
theorem Canon.retryWaiting (h : Canon s) : Canon (retryWaiting s) :=
  ((h.foldl fun h => Canon.ite h.resume h).retryHeld.foldl fun h => Canon.ite h.placePiece h).settleFailed.drr
theorem Canon.rebuildCredit (h : Canon s) : Canon (rebuildCredit s) := by
  dsimp only [Machine.rebuildCredit]
  exact h.updRebuild
theorem Canon.memberTarget {m : Nat} (h : Canon s) : Canon (memberTarget m s) := by
  dsimp only [Machine.memberTarget]
  refine Canon.ite h ?_
  split
  next hq => exact (h.drawMember.of_snd hq).updBlk.setMember
  next hq => exact h.drawMember.of_snd hq
theorem Canon.rebuildTick (h : Canon s) : Canon (rebuildTick s) :=
  Canon.ite h (h.rebuildCredit.replaceTick.updRebuild.foldl fun h => h.memberTarget.fillRow)
theorem Canon.checkTick (h : Canon s) : Canon (checkTick s) :=
  h.foldl fun h => (h.updFrond.foldl fun h => h.badCheck).backingDeficit
theorem Canon.backgroundTick (h : Canon s) : Canon (backgroundTick s) :=
  (h.unstick.foldl fun h =>
      h.trainTick.recalAgain.refreshTick).pagesTick.tellTick.settleFailed.checkTick.arrivedTick.checkpointTick.checkpointTick.accumTick
theorem Canon.seedbedTick (h : Canon s) : Canon (seedbedTick s) := by
  dsimp only [Machine.seedbedTick]
  exact (Canon.ite h.aenPage h).updSeedbed
theorem Canon.gcTick (h : Canon s) : Canon (gcTick s) :=
  Canon.ite h (h.foldl fun h => h.gcStart)
theorem Canon.memTick {card : CardId} (h : Canon s) : Canon (memTick card s) :=
  h.rankBoundary.when fun h => h.noSpare
theorem Canon.servingTick (h : Canon s) : Canon (servingTick s) :=
  (h.memTick.memTick.peuUpdate.peuUpdate.retryWaiting.placeWaiting.absentRelease.backgroundTick.rebuildTick.gcTick.bulkTick.closeQps.seedbedTick.wake.foldl fun h => h.jobStep).entryAdvance.runWoken.runHeld.linkCheck.startProgram.miAnswer.miTick
theorem Canon.frameTick (h : Canon s) : Canon (frameTick s) := by
  dsimp only [Machine.frameTick]
  exact h.countStopped.countCharge.passFrame.rachisTick.applySettings.powerMove.factorTick.pairBoundary.whenNot fun h => (h.freePools.foldl
      fun h => h.frondTick).epochTick.sendAllowances.cardStatus.heartbeatTick.heartbeatTick.queueTick.queueTick.sheafTick.servingTick
theorem Canon.execFrameTick (h : Canon s) : CanonOut (execFrameTick s) :=
  (Canon.ite h.frameTick h).next
theorem Canon.frondsBack {from4 : Bool} (h : Canon s) : Canon (frondsBack from4 s) := by
  dsimp only [Machine.frondsBack]
  exact (h.setFronds (rising_values _)).whenNot fun h => h.foldl fun h => Canon.ite h.updFrond h
theorem Canon.dueRetries (h : Canon s) : Canon (dueRetries s) :=
  h.foldl fun h => Canon.ite h.fuseRetryNow h
theorem Canon.retestEngines {failed : List (CardId × Nat)} (h : Canon s) : Canon (retestEngines failed s) :=
  (h.foldl fun h => h.engineOut).whenNot fun h => (h.foldl fun h => Canon.ite h.cardOut h).linkCheck
theorem Canon.execPowerStateExitDone (h : Canon s) : CanonOut (execPowerStateExitDone s) := by
  dsimp only [Machine.execPowerStateExitDone]
  split
  · exact h.next
  · refine CanonOut.ite h.next (Canon.next ?_)
    split
    · exact h.updPower.frondsBack.dueRetries.retestEngines.event.startEntry
    · exact h.updPower.frondsBack.dueRetries.retestEngines.event.answer.runWoken

end Sys2Proof.Laws
end

