-- ==== Sys2Proof/Proofs/CanonicalTables.lean ====
section
/-! PROOFS. O60: every command keeps the tables canonical, so every step does. -/
namespace Sys2Proof.Laws
open Sys2Proof Sys2Proof.Machine

theorem Canon.exec {s : State} (i : Instr) (h : Canon s) : CanonOut (exec i s) := by
  cases i with
  | modulePowerOn => exact h.execModulePowerOn
  | namespacesReady => exact h.execNamespacesReady
  | nvmSubsystemReset => exact h.execNvmSubsystemReset
  | resetNAssert => exact h.execResetNAssert
  | resetNRelease => exact h.execResetNRelease
  | ccEnClear => exact h.execCcEnClear
  | functionLevelReset => exact h.execFunctionLevelReset
  | controllerLevelReset => exact h.execControllerLevelReset
  | pcieLinkLoss => exact h.execPcieLinkLoss
  | shutdownNotification => exact h.execShutdownNotification
  | shutdownComplete => exact h.execShutdownComplete
  | sqTailDoorbell => exact h.execSqTailDoorbell
  | cqHeadDoorbell => exact h.execCqHeadDoorbell
  | registerWrite => exact h.execRegisterWrite
  | commandFetch => exact h.execCommandFetch
  | frameTick => exact h.execFrameTick
  | frameStartMarker => exact h.execFrameStartMarker
  | markerMissing => exact h.execMarkerMissing
  | markerLost => exact h.execMarkerLost
  | mediaRequest => exact h.execMediaRequest
  | planClose => exact h.execPlanClose
  | framePlanFix => exact h.execFramePlanFix
  | framePlanMessage => exact h.execFramePlanMessage
  | planLate => exact h.execPlanLate
  | suspendPoint => exact h.execSuspendPoint
  | segmentCheck => exact h.execSegmentCheck
  | readCheck => exact h.execReadCheck
  | channelPlanOverrun => exact h.execChannelPlanOverrun
  | channelCapRestore => exact h.execChannelCapRestore
  | quarantineLift => exact h.execQuarantineLift
  | senseEnd => exact h.execSenseEnd
  | dataOutEnd => exact h.execDataOutEnd
  | decodeResult => exact h.execDecodeResult
  | streamEngineUnit => exact h.execStreamEngineUnit
  | reconstructionDone => exact h.execReconstructionDone
  | readPieceDelivery => exact h.execReadPieceDelivery
  | commandDeadline => exact h.execCommandDeadline
  | engineWatchdog => exact h.execEngineWatchdog
  | programStatusReport => exact h.execProgramStatusReport
  | packWaitExpiry => exact h.execPackWaitExpiry
  | foldHoldExpiry => exact h.execFoldHoldExpiry
  | qlcProgramDone => exact h.execQlcProgramDone
  | foldVerifyDone => exact h.execFoldVerifyDone
  | memberTableProgram => exact h.execMemberTableProgram
  | accumulatorRecomputeDone => exact h.execAccumulatorRecomputeDone
  | fullWaitExpiry => exact h.execFullWaitExpiry
  | eraseDone => exact h.execEraseDone
  | eraseJournalRecord => exact h.execEraseJournalRecord
  | dieResetTimeout => exact h.execDieResetTimeout
  | channelRetrainDue => exact h.execChannelRetrainDue
  | channelTrainingEnd => exact h.execChannelTrainingEnd
  | refreshDone => exact h.execRefreshDone
  | scrubDue => exact h.execScrubDue
  | readOffsetRecalibration => exact h.execReadOffsetRecalibration
  | rebuildStripeDone => exact h.execRebuildStripeDone
  | zoneOpenWaitExpiry => exact h.execZoneOpenWaitExpiry
  | allocatorRequest => exact h.execAllocatorRequest
  | gcVictimRelease => exact h.execGcVictimRelease
  | gcWriteWaitExpiry => exact h.execGcWriteWaitExpiry
  | mapJournalProgrammed => exact h.execMapJournalProgrammed
  | mapPageRead => exact h.execMapPageRead
  | checkpointStart => exact h.execCheckpointStart
  | checkpointComplete => exact h.execCheckpointComplete
  | rangeLockGrant => exact h.execRangeLockGrant
  | rangeLockTimeout => exact h.execRangeLockTimeout
  | spikeletSearch => exact h.execSpikeletSearch
  | spikeletUpdate => exact h.execSpikeletUpdate
  | spikeletShadowCompare => exact h.execSpikeletShadowCompare
  | bufferRequest _ _ _ engine => exact h.execBufferRequest (_engine := engine)
  | bufferDeferralExpiry => exact h.execBufferDeferralExpiry
  | referenceDecrement => exact h.execReferenceDecrement
  | fence => exact h.execFence
  | dramCorrectedError => exact h.execDramCorrectedError
  | dramUncorrectableError => exact h.execDramUncorrectableError
  | poisonRead => exact h.execPoisonRead
  | rankRetrainDue => exact h.execRankRetrainDue
  | rankCopyDone => exact h.execRankCopyDone
  | rankTrainingEnd => exact h.execRankTrainingEnd
  | rankMigrationDone => exact h.execRankMigrationDone
  | checkUnitCombine => exact h.execCheckUnitCombine
  | checkContextLoad => exact h.execCheckContextLoad
  | heartbeat => exact h.execHeartbeat
  | heartbeatMissed => exact h.execHeartbeatMissed
  | takeoverComplete => exact h.execTakeoverComplete
  | fenceReceived => exact h.execFenceReceived
  | cardPresentOpen => exact h.execCardPresentOpen
  | rhizomeLaneLoss => exact h.execRhizomeLaneLoss
  | mirrorRecord => exact h.execMirrorRecord
  | mirrorAck => exact h.execMirrorAck
  | mirrorAckTimeout => exact h.execMirrorAckTimeout
  | forwardedCommand => exact h.execForwardedCommand
  | pieceList => exact h.execPieceList
  | ownershipTransfer => exact h.execOwnershipTransfer
  | ownershipCopyDone => exact h.execOwnershipCopyDone
  | cardEnterService => exact h.execCardEnterService
  | tickMasterHandover => exact h.execTickMasterHandover
  | cardStartAlone => exact h.execCardStartAlone
  | cardStart => exact h.execCardStart
  | culmLinkUp => exact h.execCulmLinkUp
  | culmPortDown => exact h.execCulmPortDown
  | culmRetrain => exact h.execCulmRetrain
  | rachis => exact h.execRachis
  | tickIoPulse => exact h.execTickIoPulse
  | tickIoFallback => exact h.execTickIoFallback
  | tickIoDriveResume => exact h.execTickIoDriveResume
  | delayReq => exact h.execDelayReq
  | delayRsp => exact h.execDelayRsp
  | delayMeasure => exact h.execDelayMeasure
  | hello => exact h.execHello
  | census => exact h.execCensus
  | censusExpiry => exact h.execCensusExpiry
  | leadLost => exact h.execLeadLost
  | handover => exact h.execHandover
  | handoverSwitch => exact h.execHandoverSwitch
  | demandSend => exact h.execDemandSend
  | demand => exact h.execDemand
  | grantCompute => exact h.execGrantCompute
  | grant => exact h.execGrant
  | grantStale => exact h.execGrantStale
  | plan => exact h.execPlan
  | planAck => exact h.execPlanAck
  | planResend => exact h.execPlanResend
  | sheafEvent => exact h.execSheafEvent
  | eventAck => exact h.execEventAck
  | sporeOffer => exact h.execSporeOffer
  | sporeData => exact h.execSporeData
  | sporeConfirm => exact h.execSporeConfirm
  | sporeMissing => exact h.execSporeMissing
  | sporeResend => exact h.execSporeResend
  | relayActivate => exact h.execRelayActivate
  | activateDone => exact h.execActivateDone
  | activationTimeout => exact h.execActivationTimeout
  | relayEnd => exact h.execRelayEnd
  | nonceExpiry => exact h.execNonceExpiry
  | handleExpiry => exact h.execHandleExpiry
  | attestationSignature => exact h.execAttestationSignature
  | slotWriteDone => exact h.execSlotWriteDone
  | filnasUpdate => exact h.execFilnasUpdate
  | filnasUpdateTimeout => exact h.execFilnasUpdateTimeout
  | healthConfirm => exact h.execHealthConfirm
  | healthWindowExpiry => exact h.execHealthWindowExpiry
  | eventIntake => exact h.execEventIntake
  | recorderProgramEnd => exact h.execRecorderProgramEnd
  | eventRefill => exact h.execEventRefill
  | recorderCopyDone => exact h.execRecorderCopyDone
  | feedStart => exact h.execFeedStart
  | feedUnderVoltage => exact h.execFeedUnderVoltage
  | holdUpExpiry => exact h.execHoldUpExpiry
  | feedOverVoltage => exact h.execFeedOverVoltage
  | overVoltageRecovery => exact h.execOverVoltageRecovery
  | reversePolarity => exact h.execReversePolarity
  | openReturn => exact h.execOpenReturn
  | inputShort => exact h.execInputShort
  | outputOverCurrent => exact h.execOutputOverCurrent
  | hiccupRestart => exact h.execHiccupRestart
  | peuOverTemperature => exact h.execPeuOverTemperature
  | peuTemperatureRecovery => exact h.execPeuTemperatureRecovery
  | peuStatusSend => exact h.execPeuStatusSend
  | peuStatus => exact h.execPeuStatus
  | alarm => exact h.execAlarm
  | statusSilence => exact h.execStatusSilence
  | capacityFallback => exact h.execCapacityFallback
  | cardStatus => exact h.execCardStatus
  | outputEnable => exact h.execOutputEnable
  | outputDisable => exact h.execOutputDisable
  | currentLimitSet => exact h.execCurrentLimitSet
  | marginSet => exact h.execMarginSet
  | imageBlock => exact h.execImageBlock
  | imageEnd => exact h.execImageEnd
  | imageActivate => exact h.execImageActivate
  | peuActivateRetry => exact h.execPeuActivateRetry
  | peuUpdatingTimeout => exact h.execPeuUpdatingTimeout
  | calRead => exact h.execCalRead
  | calWrite => exact h.execCalWrite
  | barrierUnknownType => exact h.execBarrierUnknownType
  | ackNak _ _ _ _ _ data => exact h.execAckNak (_data := data)
  | barrierCommandTimeout => exact h.execBarrierCommandTimeout
  | fuseTrip => exact h.execFuseTrip
  | fuseRetry => exact h.execFuseRetry
  | fuseHoldReset => exact h.execFuseHoldReset
  | sensorSlowRound => exact h.execSensorSlowRound
  | thermalShutdown => exact h.execThermalShutdown
  | sensorBroken => exact h.execSensorBroken
  | sensorValidAgain => exact h.execSensorValidAgain
  | entryDelayExpiry => exact h.execEntryDelayExpiry
  | powerStateExitDone => exact h.execPowerStateExitDone
  | regulatorAck => exact h.execRegulatorAck
  | regulatorTimeout => exact h.execRegulatorTimeout
  | oscillatorTimeout => exact h.execOscillatorTimeout
  | frondPresentClose => exact h.execFrondPresentClose
  | frondSettled => exact h.execFrondSettled
  | frondAcceptance => exact h.execFrondAcceptance
  | frondPresentOpen => exact h.execFrondPresentOpen
  | prepareProgramCut => exact h.execPrepareProgramCut
  | prepareComplete => exact h.execPrepareComplete
  | cardPresentClose => exact h.execCardPresentClose
  | svcButtonHold => exact h.execSvcButtonHold
  | peuPresentOpen => exact h.execPeuPresentOpen
  | peuPresentClose => exact h.execPeuPresentClose
  | rdmaAck => exact h.execRdmaAck
  | nakSequenceError => exact h.execNakSequenceError
  | nakRemoteAccessError => exact h.execNakRemoteAccessError
  | nakRemoteOperationalError => exact h.execNakRemoteOperationalError
  | rdmaReadResponse => exact h.execRdmaReadResponse
  | cnpReceived => exact h.execCnpReceived
  | rateRecover => exact h.execRateRecover
  | ackTimeout => exact h.execAckTimeout
  | invalidRequestPacket => exact h.execInvalidRequestPacket
  | arpRequest => exact h.execArpRequest
  | neighborSolicitation => exact h.execNeighborSolicitation
  | pfcFrame => exact h.execPfcFrame
  | pfcPauseEnd => exact h.execPfcPauseEnd
  | otherFrame bulk => exact h.execOtherFrame (_bulk := bulk)
  | bulkLinkDownExpiry => exact h.execBulkLinkDownExpiry
  | smbusBlockRead => exact h.execSmbusBlockRead
  | setEndpointId => exact h.execSetEndpointId
  | getEndpointId => exact h.execGetEndpointId
  | getEndpointUuid => exact h.execGetEndpointUuid
  | getMctpVersionSupport => exact h.execGetMctpVersionSupport
  | getMessageTypeSupport => exact h.execGetMessageTypeSupport
  | mctpUnsupportedControl => exact h.execMctpUnsupportedControl
  | readNvmeMiDataStructure => exact h.execReadNvmeMiDataStructure
  | nvmSubsystemHealthStatusPoll => exact h.execNvmSubsystemHealthStatusPoll
  | controllerHealthStatusPoll => exact h.execControllerHealthStatusPoll
  | configurationGet => exact h.execConfigurationGet
  | configurationSet => exact h.execConfigurationSet
  | vpdRead => exact h.execVpdRead
  | miAdminIdentify => exact h.execMiAdminIdentify
  | miAdminGetLogPage => exact h.execMiAdminGetLogPage
  | miAdminGetFeatures => exact h.execMiAdminGetFeatures
  | miUnsupportedCommand => exact h.execMiUnsupportedCommand
  | createIoSubmissionQueue => exact h.execCreateIoSubmissionQueue
  | createIoCompletionQueue => exact h.execCreateIoCompletionQueue
  | deleteIoSubmissionQueue => exact h.execDeleteIoSubmissionQueue
  | deleteIoCompletionQueue => exact h.execDeleteIoCompletionQueue
  | identify => exact h.execIdentify
  | abort => exact h.execAbort
  | asynchronousEventRequest => exact h.execAsynchronousEventRequest
  | getFeatures => exact h.execGetFeatures
  | getLogErrorInformation => exact h.execGetLogErrorInformation
  | getLogSmartHealth => exact h.execGetLogSmartHealth
  | getLogFirmwareSlot => exact h.execGetLogFirmwareSlot
  | getLogStandard => exact h.execGetLogStandard
  | getLogModuleRecorder => exact h.execGetLogModuleRecorder
  | getLogFrondEvents => exact h.execGetLogFrondEvents
  | getLogFrameStatistics => exact h.execGetLogFrameStatistics
  | getLogStripeHealth => exact h.execGetLogStripeHealth
  | getLogBlockWear => exact h.execGetLogBlockWear
  | getLogMediaReadHealth => exact h.execGetLogMediaReadHealth
  | getLogSeedbedStatus => exact h.execGetLogSeedbedStatus
  | getLogSliceTable => exact h.execGetLogSliceTable
  | getLogPowerThermal => exact h.execGetLogPowerThermal
  | getLogSheafStatus => exact h.execGetLogSheafStatus
  | getLogBufferDramHealth => exact h.execGetLogBufferDramHealth
  | getLogSecurityState => exact h.execGetLogSecurityState
  | getLogAttestation => exact h.execGetLogAttestation
  | invalidLogPage => exact h.execInvalidLogPage
  | setFeaturesArbitration => exact h.execSetFeaturesArbitration
  | setFeaturesPowerManagement => exact h.execSetFeaturesPowerManagement
  | setFeaturesTemperatureThreshold => exact h.execSetFeaturesTemperatureThreshold
  | setFeaturesNumberOfQueues => exact h.execSetFeaturesNumberOfQueues
  | setFeaturesInterruptCoalescing => exact h.execSetFeaturesInterruptCoalescing
  | setFeaturesInterruptVector => exact h.execSetFeaturesInterruptVector
  | setFeaturesAsyncEventConfig => exact h.execSetFeaturesAsyncEventConfig
  | setFeaturesTimestamp => exact h.execSetFeaturesTimestamp
  | setFeaturesVolatileWriteCache => exact h.execSetFeaturesVolatileWriteCache
  | setFeaturesUnsupported => exact h.execSetFeaturesUnsupported
  | setFeaturesFrameParameters => exact h.execSetFeaturesFrameParameters
  | setFeaturesThermalThrottlePoints => exact h.execSetFeaturesThermalThrottlePoints
  | setFeaturesMediaPowerBudget => exact h.execSetFeaturesMediaPowerBudget
  | setFeaturesEventRateLimit => exact h.execSetFeaturesEventRateLimit
  | setFeaturesScrubPolicy => exact h.execSetFeaturesScrubPolicy
  | setFeaturesDramInterleaveGrain => exact h.execSetFeaturesDramInterleaveGrain
  | setFeaturesBulkPort => exact h.execSetFeaturesBulkPort
  | setFeaturesDeadlineMissPolicy => exact h.execSetFeaturesDeadlineMissPolicy
  | setFeaturesSeedbedPolicy => exact h.execSetFeaturesSeedbedPolicy
  | namespaceCreate => exact h.execNamespaceCreate
  | namespaceDelete => exact h.execNamespaceDelete
  | namespaceAttach => exact h.execNamespaceAttach
  | namespaceDetach => exact h.execNamespaceDetach
  | firmwareImageDownload => exact h.execFirmwareImageDownload
  | firmwareCommitReplace => exact h.execFirmwareCommitReplace
  | firmwareCommitNextStart => exact h.execFirmwareCommitNextStart
  | firmwareCommitActivateSlot => exact h.execFirmwareCommitActivateSlot
  | firmwareCommitImmediate => exact h.execFirmwareCommitImmediate
  | formatNvm => exact h.execFormatNvm
  | sanitize => exact h.execSanitize
  | flush => exact h.execFlush
  | write => exact h.execWrite
  | read => exact h.execRead
  | writeZeroes => exact h.execWriteZeroes
  | datasetManagement => exact h.execDatasetManagement
  | verify => exact h.execVerify
  | copy => exact h.execCopy
  | zoneOpen => exact h.execZoneOpen
  | zoneClose => exact h.execZoneClose
  | zoneFinish => exact h.execZoneFinish
  | zoneReset => exact h.execZoneReset
  | zoneOffline => exact h.execZoneOffline
  | setZoneDescriptorExtension => exact h.execSetZoneDescriptorExtension
  | reportZones => exact h.execReportZones
  | zoneAppend => exact h.execZoneAppend
  | unsupportedOpcode => exact h.execUnsupportedOpcode
  | sliceCreate => exact h.execSliceCreate
  | sliceDelete => exact h.execSliceDelete
  | sliceReset => exact h.execSliceReset
  | sliceFreeze => exact h.execSliceFreeze
  | sliceThaw => exact h.execSliceThaw
  | sliceStateSave => exact h.execSliceStateSave
  | sliceStateRestore => exact h.execSliceStateRestore
  | queueResume => exact h.execQueueResume
  | shareSet => exact h.execShareSet
  | spikeletRuleWrite => exact h.execSpikeletRuleWrite
  | spikeletRuleRead => exact h.execSpikeletRuleRead
  | winnowProgramLoad => exact h.execWinnowProgramLoad
  | winnowRead => exact h.execWinnowRead
  | zoneDigest => exact h.execZoneDigest
  | bulkRead => exact h.execBulkRead
  | bulkAppend => exact h.execBulkAppend
  | bulkEndpointSet => exact h.execBulkEndpointSet
  | authorizationSubmitToken => exact h.execAuthorizationSubmitToken
  | issueNonce => exact h.execIssueNonce
  | guardLevelChange => exact h.execGuardLevelChange
  | eventClearFrond => exact h.execEventClearFrond
  | eventClearModule => exact h.execEventClearModule
  | prepareRemoval => exact h.execPrepareRemoval
  | cancelPrepare => exact h.execCancelPrepare
  | declareLost => exact h.execDeclareLost
  | setRebuildRate => exact h.execSetRebuildRate
  | locateLedOn => exact h.execLocateLedOn
  | locateLedOff => exact h.execLocateLedOff
  | enableCulmPorts => exact h.execEnableCulmPorts
  | disableCulmPorts => exact h.execDisableCulmPorts
  | handOverLead => exact h.execHandOverLead
  | setShelfPowerBudget => exact h.execSetShelfPowerBudget
  | sheafPhasePlanSet => exact h.execSheafPhasePlanSet
  | peuEnableOutput => exact h.execPeuEnableOutput
  | peuDisableOutput => exact h.execPeuDisableOutput
  | peuSetCurrentLimit => exact h.execPeuSetCurrentLimit
  | peuSetMargin => exact h.execPeuSetMargin
  | culmLaneLoss => exact h.execCulmLaneLoss
  | bulkLinkDown => exact h.execBulkLinkDown
  | bulkLinkUp => exact h.execBulkLinkUp
  | pcieLinkUp => exact h.execPcieLinkUp
  | feedReturnWithinHoldUp => exact h.execFeedReturnWithinHoldUp
  | recorderSectorEraseDone => exact h.execRecorderSectorEraseDone

/-- Settles O60: a step is the row of the first command, and each row keeps every table canonical. -/
theorem canonicalTablesKept : Obligations.CanonicalTablesKept := by
  intro s t hs hstep
  have h : Canon s := canon_iff.2 hs
  refine canon_iff.1 ?_
  unfold step at hstep
  split at hstep
  · exact h.next t hstep
  next i r _ =>
    have hr : Canon { s with pending := r } := { h with }
    exact hr.exec i t hstep

end Sys2Proof.Laws
end

