-- ==== Sys2Proof/Proofs/DeclareLostCounterexample.lean ====
section
/-! PROOFS. O18 fails: the frond of a slot with an open fuse is STATE 9 (R401), and Declare Lost then marks the state that STATE 9 hides.
The clause shuts out STATE 7, which hides a state likewise, but not STATE 9. -/
namespace Sys2Proof.Laws
open Sys2Proof Sys2Proof.Machine

/-- A running module whose frond F0 is STATE 9 (R401). -/
def fuseOpenFrond : State := { portEnabled with fronds := [(0, { state := 9 })] }
/-- Frond Service for F0. -/
def frondServiceEntry : Sqe := { opc := 0xE0, cid := 7 }

/-- Declare Lost leaves STATE 9 and makes the hidden state 4. -/
theorem declareLost_of_fuseOpenFrond :
    shows (fun t => ((frondAt t 0).state, (frondAt t 0).hidden)) (exec (.declareLost frondServiceEntry) fuseOpenFrond) = some (9, 4) := by decide +kernel

/-- Refutes O18: the clause on Declare Lost, by which the slot's frond is STATE 4 afterwards, has no premise that it is not STATE 9. -/
theorem not_controlCommandsTakeEffect : ¬ Obligations.ControlCommandsTakeEffect := by
  rintro ⟨-, -, hlost, -⟩
  obtain ⟨t, ht, hstate, -⟩ := hlost fuseOpenFrond frondServiceEntry _ _ (by decide +kernel) (by decide +kernel) rfl rfl (by decide +kernel)
    (by decide +kernel) (by decide +kernel) (by decide +kernel) (by decide +kernel) rfl rfl rfl
  have hshown : (frondAt t 0).state = 9 := congrArg Prod.fst (eq_of_shows ht declareLost_of_fuseOpenFrond)
  exact absurd (hshown.symm.trans hstate) (by decide)

end Sys2Proof.Laws
end

