-- ==== Sys2Proof/Proofs/WriteCounterexample.lean ====
section
/-! PROOFS. O40 fails as O39 does: `runsAlone` takes its premise on the data pointer from the entry's opcode, not from that of the row. -/
namespace Sys2Proof.Laws
open Sys2Proof Sys2Proof.Machine

/-- Zone 0 of the namespace, open with its stripe and still without a block. -/
def openedZone : Zone := { st := .implOpen, slot := some 0 }
/-- A running module with the Flush entry's command, and the zone that this entry names as a WRITE. -/
def writeWaits : State := { flushWaits with zones := [(zoneKey 1 0, openedZone)] }

theorem writeWaits_runsAlone : writeWaits.runsAlone 9 flushCmd flushEntry := by constructor <;> decide +kernel

/-- One buffer of the small pool is free, and a tenth of that pool is the slice's. -/
theorem writeWaits_buffersFor : writeWaits.buffersFor flushCmd (bytesOf writeWaits (flushCmd.runAs (asOp 0x01 flushEntry))) :=
  .inr (by decide +kernel)

theorem writeWaits_seedbedFree : writeWaits.seedbedFree flushCmd.owner :=
  ⟨by decide +kernel, by decide +kernel, fun _ => show fillPct {} < writeWaits.feat.thrPct by decide +kernel, fun _ => rfl⟩

/-- The row WRITE gives the entry its own opcode, rejects the data pointer, and the command ends. -/
theorem write_of_flushEntry_ends : shows (fun t => t.cmds.length) (exec (.write flushEntry) writeWaits) = some 0 := by decide +kernel

/-- Refutes O40: on an entry with the opcode of a Flush, whose data pointer `runsAlone` does not judge, a WRITE fails with SGL Descriptor Type
Invalid and takes no block. -/
theorem not_writesAreAssignedAndEnter : ¬ Obligations.WritesAreAssignedAndEnter := by
  rintro ⟨hzoned, -⟩
  obtain ⟨t, y, ht, hcmds, -⟩ := hzoned _ List.mem_cons_self flushEntry 9 0 _ flushCmd _ _ _ writeWaits writeWaits_runsAlone rfl rfl
    (by decide +kernel) (by decide +kernel) rfl rfl (by decide +kernel) (by decide +kernel) (by decide +kernel) (by decide +kernel)
    (fun _ => by decide +kernel) writeWaits_buffersFor writeWaits_seedbedFree (by decide +kernel) (by decide +kernel)
  have hnone : t.cmds.length = 0 := eq_of_shows ht write_of_flushEntry_ends
  rw [hcmds] at hnone
  exact absurd hnone (Nat.succ_ne_zero 0)

end Sys2Proof.Laws
end

