-- ==== Sys2Proof/Proofs/FactoryBadCounterexample.lean ====
section
/-! PROOFS. O44 fails: the clause on a new frond keeps the blocks of every other frond, but does not bound the factory-bad positions that the
frond brings. A position beyond its 1,048,576 blocks is the key of a block of the next frond. -/
namespace Sys2Proof.Laws
open Sys2Proof Sys2Proof.Machine

/-- A new frond whose list of factory-bad positions names one beyond its 1,048,576 blocks. -/
def strayBadIdent : FrondIdent := { serial := [1], factoryBad := [1048576] }
/-- A running module that has read this identity in slot F0, whose frond of record is in STATE 3. -/
def strayBadHeld : State := { State.reset with fronds := [(0, { state := 3, insert := 2, ident := some strayBadIdent })] }

/-- The acceptance marks block 0 of die 0 of F1. -/
theorem acceptance_marks_next_frond : shows (fun t => (blkAt t 1048576).state) (exec (.frondAcceptance 0) strayBadHeld) = some 9 := by decide +kernel

/-- Refutes O44: a new frond's acceptance leaves the blocks of another frond as they are only if its factory-bad positions are its own. -/
theorem not_frondsAreServiced : ¬ Obligations.FrondsAreServiced := by
  rintro ⟨-, -, -, -, hnew, -⟩
  obtain ⟨t, r, ht, -, -, -, -, -, -, -, -, -, -, -, -, hblks, -⟩ := hnew 0 strayBadIdent strayBadHeld (by decide +kernel) rfl rfl rfl
    (by decide +kernel) (by decide +kernel) rfl (by decide +kernel) rfl rfl (by decide +kernel) (by decide +kernel) (.inl rfl) nofun nofun nofun
  have hmarked : (blkAt t 1048576).state = 9 := eq_of_shows ht acceptance_marks_next_frond
  rw [hblks 1048576 (by decide)] at hmarked
  exact absurd hmarked (by decide +kernel)

end Sys2Proof.Laws
end

