-- ==== Sys2Proof/Proofs/MapPageCounterexample.lean ====
section
/-! PROOFS. O43 fails: the clause on a map page that has been read bounds no page number. The key of a page beyond the 2^29 of a namespace is one of
the next namespace, and the room that counts is that of this one's card. -/
namespace Sys2Proof.Laws
open Sys2Proof Sys2Proof.Machine

/-- A running module with two conventional namespaces, one of each group; CB has no memory for map pages. -/
def noCacheOnB : State :=
  { State.reset with nss := [(1, { used := true, group := .g1 }), (2, { used := true, group := .g2 })], memB := { State.reset.memB with cacheNow := 0 } }

/-- Page 2^29 of namespace 1 is page 0 of namespace 2: CB has no frame for it, and it only waits. -/
theorem mapPageRead_beyond_namespace :
    shows (fun t => t.pages.map fun p => p.2.cached) (exec (.mapPageRead 1 536870912) noCacheOnB) = some [false] := by decide +kernel

/-- Refutes O43: a page number of 2^29 meets the premises on the cache of the card of namespace 1, but the page is not cached. -/
theorem not_mapsJournalsAndAllocator : ¬ Obligations.MapsJournalsAndAllocator := by
  rintro ⟨-, -, -, -, hpage, -⟩
  have hcached := hpage 1 536870912 noCacheOnB (by decide +kernel) (by decide +kernel) rfl (by decide +kernel)
    (fun _ hp => absurd hp List.not_mem_nil) (fun _ hr => absurd hr List.not_mem_nil)
  exact absurd (eq_of_shows hcached mapPageRead_beyond_namespace) (by decide +kernel)

end Sys2Proof.Laws
end

