-- ==== Sys2Proof/Proofs/LockGrantCounterexample.lean ====
section
/-! PROOFS. O42 fails: the clause on a granted range lock states what the namespace and the ranges must meet for the Dataset Management to go on,
but not that its data pointer is of a kind the module accepts (R159), which is judged again with them. -/
namespace Sys2Proof.Laws
open Sys2Proof Sys2Proof.Machine

/-- A Dataset Management entry that deallocates block 0 and whose data pointer is of the kind that is reserved (PSDT 3). -/
def reservedPsdtEntry : Sqe := { opc := 0x09, sqid := 1, cid := 7, nsid := 1, psdt := 3, cdw11 := 4, dlen := 16, data := zeros 4 ++ le 4 1 }
/-- Its command waits for the lock of block 0. -/
def reservedPsdtCmd : Cmd := { e := reservedPsdtEntry, st := .lockWait, kind := .dsm, locks := [(0, 0, true)] }
/-- A running module with a conventional namespace, in which this command alone is fetched. -/
def reservedPsdtWaits : State :=
  { State.reset with
    nss := [(1, { used := true, ready := true, slice := some 0, att := ⟨true, true⟩, nsze := 1048576 })], cmds := [(9, reservedPsdtCmd)] }

/-- The lock is granted, the data pointer is judged and rejected, and the command ends. -/
theorem lockGrant_of_reservedPsdt_ends : shows (fun t => t.cmds.length) (exec (.rangeLockGrant 9) reservedPsdtWaits) = some 0 := by decide +kernel

/-- Refutes O42: a granted lock lets a Dataset Management go on only if its data pointer is of a kind that the module accepts. -/
theorem not_waitingCommandsGoOnOrExpire : ¬ Obligations.WaitingCommandsGoOnOrExpire := by
  rintro ⟨-, -, -, hgrant, -⟩
  obtain ⟨t, y, -, ht, hcmds, -⟩ := hgrant 9 reservedPsdtCmd reservedPsdtWaits rfl rfl nofun rfl rfl (by decide +kernel) (by decide +kernel)
    (by decide +kernel) (by decide +kernel) (by decide +kernel) (by decide +kernel) (by decide +kernel) (by decide +kernel) (by decide +kernel)
  have hnone : t.cmds.length = 0 := eq_of_shows ht lockGrant_of_reservedPsdt_ends
  rw [hcmds] at hnone
  exact absurd hnone (Nat.succ_ne_zero 0)

end Sys2Proof.Laws
end

