-- ==== Sys2Proof/Proofs/RankMemory.lean ====
section
/-! SUPPORT. What DRAM errors, retraining and migration of ranks do to the memory record of a card (R264, R265, R268, R269): each operation as a
function of that record, and the steps that beside it only tell the hosts. -/
namespace Sys2Proof.Laws
open Sys2Proof Sys2Proof.Machine

variable {s t u : State} {c : CardId} {m : CardMem}

/-! ### A card's memory record. -/
/-- Rank n of a memory record; a record with rank n changed. -/
def rankOf (m : CardMem) (n : Nat) : Rank := tget {} m.ranks n
def onRank (n : Nat) (g : Rank → Rank) (m : CardMem) : CardMem := { m with ranks := tupd {} m.ranks n g }

theorem rankAt_eq (s : State) (c : CardId) (n : Nat) : rankAt s c n = rankOf (memAt s c) n := rfl
theorem rising_onRank (n : Nat) (g : Rank → Rank) (h : rising m.ranks = true) : rising (onRank n g m).ranks = true := rising_tupd _ _ _ _ h
theorem rankOf_onRank (n : Nat) (g : Rank → Rank) (k : Nat) (h : rising m.ranks = true) :
    rankOf (onRank n g m) k = if k = n then g (rankOf m n) else rankOf m k := tget_tupd_rising _ _ _ _ _ h
theorem rankOf_onRank_self (n : Nat) (g : Rank → Rank) (h : rising m.ranks = true) : rankOf (onRank n g m) n = g (rankOf m n) := by
  rw [rankOf_onRank n g n h, if_pos rfl]
theorem rankOf_onRank_ne {n k : Nat} (g : Rank → Rank) (m : CardMem) (h : k ≠ n) : rankOf (onRank n g m) k = rankOf m k := tget_tput_ne _ _ _ _ _ h

/-- One more uncorrectable error of a rank. -/
def oneUncorr (r : Rank) : Rank := { r with uncorr := (r.uncorr + 1) % 2 ^ 32 }
/-- A line becomes poisoned (R268). -/
def withPoison (n line : Nat) (m : CardMem) : CardMem :=
  { m with
    poison := if m.poison.contains (n * 2 ^ 28 + line) then m.poison else m.poison ++ [n * 2 ^ 28 + line]
    poisonLines := m.poisonLines + 1 }
/-- A spare that takes over from a failing rank; the failing rank with it (R269). -/
def takesOver (n y : Nat) (m : CardMem) : CardMem := onRank y (fun r => { r with role := 7 }) { m with rop := .migrate n y, spare := some y }
def migrating (n y : Nat) (m : CardMem) : CardMem := takesOver n y (rankRole n 9 m)
/-- A rank that becomes the spare. -/
def becomesSpare (x : Nat) (m : CardMem) : CardMem := onRank x (fun r => { r with role := 7 }) { m with spare := some x }
/-- A record whose rank operation is given up, and one whose spare is lost. -/
def halted (m : CardMem) : CardMem := { m with rop := .idle }
def spareless (fc : Nat) (m : CardMem) : CardMem := { m with spare := none, noSpareFc := fc }

theorem mem_withPoison (n line : Nat) (m : CardMem) : n * 2 ^ 28 + line ∈ (withPoison n line m).poison := by
  unfold withPoison
  dsimp only
  split
  next h => exact List.contains_iff_mem.1 h
  · simp
theorem rankOf_migrating_failing {n y : Nat} (hy : y ≠ n) (h : rising m.ranks = true) :
    rankOf (migrating n y m) n = { rankOf m n with role := 9 } :=
  (rankOf_onRank_ne _ _ hy.symm).trans (rankOf_onRank_self n (fun r => { r with role := 9 }) h)
theorem rankOf_migrating_spare (n y : Nat) (h : rising m.ranks = true) : (rankOf (migrating n y m) y).role = 7 :=
  congrArg Rank.role (rankOf_onRank_self (m := { rankRole n 9 m with rop := .migrate n y, spare := some y }) y _
    (rising_onRank n (fun r => { r with role := 9 }) h))

/-! ### Steps that beside the memory record only tell the hosts. -/
/-- From s to t the memory record of card c becomes m; beside it, the hosts are told. -/
structure MemBecomes (c : CardId) (m : CardMem) (s t : State) : Prop where
  mem : memAt t c = m
  partner : memAt t (other c) = memAt s (other c)
  rest : s.onlyTells { t with memA := s.memA, memB := s.memB }

theorem updMem_rest (c : CardId) (g : CardMem → CardMem) (s : State) : { updMem c g s with memA := s.memA, memB := s.memB } = s := by cases c <;> rfl
theorem memAt_updMem_self (c : CardId) (g : CardMem → CardMem) (s : State) : memAt (updMem c g s) c = g (memAt s c) := by cases c <;> rfl
theorem memAt_updMem_other (c : CardId) (g : CardMem → CardMem) (s : State) : memAt (updMem c g s) (other c) = memAt s (other c) := by cases c <;> rfl

theorem MemBecomes.refl (c : CardId) (s : State) : MemBecomes c (memAt s c) s s := ⟨rfl, rfl, rfl⟩
theorem MemBecomes.updMem (h : MemBecomes c m s t) (g : CardMem → CardMem) : MemBecomes c (g m) s (updMem c g t) where
  mem := (memAt_updMem_self c g t).trans (congrArg g h.mem)
  partner := (memAt_updMem_other c g t).trans h.partner
  rest := by cases c <;> exact h.rest
theorem MemBecomes.tells (h : MemBecomes c m s t) (k : Tells t u) : MemBecomes c m s u where
  mem := (memAt_tells k c).trans h.mem
  partner := (memAt_tells k _).trans h.partner
  rest := onlyTells_trans h.rest (congrArg (fun x : State => { x with memA := s.memA, memB := s.memB }) k.eq :)
theorem MemBecomes.updRank (h : MemBecomes c m s t) (n : Nat) (g : Rank → Rank) : MemBecomes c (onRank n g m) s (updRank c n g t) := h.updMem (onRank n g)
theorem MemBecomes.poisonLine (h : MemBecomes c m s t) (n line : Nat) : MemBecomes c (withPoison n line m) s (poisonLine c n line t) :=
  h.updMem (withPoison n line)
theorem MemBecomes.retire (h : MemBecomes c m s t) (n why : Nat) : MemBecomes c (rankRole n 9 m) s (retire c n why t) :=
  (h.updMem (rankRole n 9)).tells ((tells_aenPage _ _).after (tells_event _ _ _ _ _ _ _ _))
theorem MemBecomes.noSpare (h : MemBecomes c m s t) : MemBecomes c (spareless t.time.fc m) s (noSpare c t) :=
  (h.updMem (spareless t.time.fc)).tells ((tells_aenPage _ _).after (tells_event _ _ _ _ _ _ _ _))
theorem MemBecomes.migrateTo (h : MemBecomes c m s t) (n y : Nat) : MemBecomes c (migrating n y m) s (migrateTo c n y t) :=
  (h.retire n 1).updMem (takesOver n y)

/-! ### DRAM errors. -/
/-- The memory record of a card after an uncorrectable error whose line is poisoned. -/
def struck (c : CardId) (n line : Nat) (s : State) : CardMem := withPoison n line (onRank n oneUncorr (memAt s c))

theorem rising_struck {n line : Nat} (h : rising (memAt s c).ranks = true) : rising (struck c n line s).ranks = true := rising_onRank n _ h
theorem uncorr_struck {n line : Nat} (h : rising (memAt s c).ranks = true) :
    (rankOf (struck c n line s) n).uncorr = ((rankAt s c n).uncorr + 1) % 2 ^ 32 := congrArg Rank.uncorr (rankOf_onRank_self n _ h)

/-- One more corrected error of a rank, at frame fc, which stays among the recent ones (R264). -/
def oneCorrected (fc : Nat) (r : Rank) : Rank :=
  { r with corrected := (r.corrected + 1) % 2 ^ 32, recent := (r.recent.filter fun f => fc < f + 4000) ++ [fc] }

theorem rankOf_oneCorrected (fc n : Nat) (m : CardMem) : rankOf (onRank n (oneCorrected fc) m) n = oneCorrected fc (rankOf m n) := by
  refine tget_tupd_of_ne {} m.ranks n (oneCorrected fc) fun h => ?_
  have hrecent : (oneCorrected fc (tget {} m.ranks n)).recent = [] := congrArg Rank.recent h
  exact List.concat_ne_nil _ _ hrecent
theorem dramCorrectedError_eq (c : CardId) (n : Nat) (s : State) :
    exec (.dramCorrectedError c n) s = .next (updMem c (onRank n (oneCorrected s.time.fc)) s) := rfl
theorem dramUncorrectableError_eq {n line : Nat} (h : (cardAt s c).serving = true) :
    exec (.dramUncorrectableError c n line) s = .next (dramBad c n line s) := by
  show execDramUncorrectableError c n line s = _
  rw [execDramUncorrectableError, if_pos h]

/-- An error costs a rank that is not migrating yet: the spare takes over, or the card leaves service (R269). -/
def rankLost (c : CardId) (n : Nat) (s : State) : State :=
  match (memAt s c).spare with
  | some y => if y = n then noSpare c (retire c n 1 s) else migrateTo c n y s
  | none => aenPage 0xCB (cardOut c 1 .outOfService s)
theorem MemBecomes.rankLost {n y : Nat} (h : MemBecomes c m s t) (hspare : m.spare = some y) (hy : y ≠ n) :
    MemBecomes c (migrating n y m) s (rankLost c n t) := by
  rw [Laws.rankLost, show (memAt t c).spare = some y from (congrArg CardMem.spare h.mem).trans hspare]
  dsimp only
  rw [if_neg hy]
  exact h.migrateTo n y

/-- The table of R269, by what the card is doing. -/
theorem dramBad_eq (c : CardId) (n line : Nat) (s : State) : dramBad c n line s = match (memAt s c).rop with
    | .migrate x y =>
      if n = x then poisonLine c y line (updRank c n oneUncorr s) else aenPage 0xCB (cardOut c 1 .outOfService (poisonLine c n line (updRank c n oneUncorr s)))
    | .copy _ _ | .switching _ _ => rankLost c n (updMem c halted (poisonLine c n line (updRank c n oneUncorr s)))
    | .train x =>
      if n = x then updRank c n oneUncorr s
      else migrateTo c n x (updMem c (becomesSpare x) (poisonLine c n line (updRank c n oneUncorr s)))
    | .idle => if (rankAt s c n).role = 9 then updRank c n oneUncorr s else rankLost c n (poisonLine c n line (updRank c n oneUncorr s)) := rfl

/-- An error with a spare at hand: the failing rank migrates to it, and a running copy is given up. -/
theorem dramBad_migrates {n line y : Nat} (hspare : (memAt s c).spare = some y) (hy : y ≠ n)
    (hrop : (memAt s c).rop = .idle ∧ (rankAt s c n).role ≠ 9 ∨ (∃ a b, (memAt s c).rop = .copy a b) ∨ ∃ a b, (memAt s c).rop = .switching a b) :
    MemBecomes c (migrating n y (struck c n line s)) s (dramBad c n line s) := by
  have hstruck : MemBecomes c (struck c n line s) s (poisonLine c n line (updRank c n oneUncorr s)) :=
    ((MemBecomes.refl c s).updRank n oneUncorr).poisonLine n line
  rw [dramBad_eq]
  obtain ⟨hidle, hrole⟩ | ⟨a, b, hcopy⟩ | ⟨a, b, hswitch⟩ := hrop
  · rw [hidle]
    dsimp only
    rw [if_neg hrole]
    exact hstruck.rankLost hspare hy
  · rw [hcopy]
    exact (hstruck.updMem halted).rankLost hspare hy
  · rw [hswitch]
    exact (hstruck.updMem halted).rankLost hspare hy

/-- An error while rank x trains counts on x itself; another rank migrates to x, whose training ends. -/
theorem dramBad_training_self {n line : Nat} (hrop : (memAt s c).rop = .train n) : dramBad c n line s = updRank c n oneUncorr s := by
  rw [dramBad_eq, hrop]
  exact if_pos rfl
theorem dramBad_training_other {n line x : Nat} (hrop : (memAt s c).rop = .train x) (hx : n ≠ x) :
    MemBecomes c (migrating n x (becomesSpare x (struck c n line s))) s (dramBad c n line s) := by
  rw [dramBad_eq, hrop]
  dsimp only
  rw [if_neg hx]
  exact ((((MemBecomes.refl c s).updRank n oneUncorr).poisonLine n line).updMem (becomesSpare x)).migrateTo n x

/-- An error of a migrating rank poisons the line on its successor. -/
theorem dramBad_migrating {n line y : Nat} (hrop : (memAt s c).rop = .migrate n y) :
    dramBad c n line s = updMem c (withPoison y line) (updMem c (onRank n oneUncorr) s) := by
  rw [dramBad_eq, hrop]
  exact if_pos rfl

/-! ### Retraining and migration. -/
theorem rankRetrainDue_eq {n y : Nat} (hrop : (memAt s c).rop = .idle) (hspare : (memAt s c).spare = some y) (hserving : (cardAt s c).serving = true)
    (hn : n ∈ (memAt s c).table) (hdue : retrainDue s c n = true) (hparked : parked s = false) (hcopies : copies (memAt s (other c)) = false) :
    exec (.rankRetrainDue c n) s = .next (updMem c (fun m => { m with rop := .copy n y }) s) := by
  show execRankRetrainDue c n s = _
  rw [execRankRetrainDue, hrop, hspare]
  dsimp only
  rw [if_pos (by simp [hserving, hn, hdue, hparked, hcopies])]
/-- The end of a training as it stands in the rank's record (R264, R265). -/
def trained (temp eye fc ep : Nat) (r : Rank) : Rank :=
  { r with temp := temp, eye := eye, trainings := (r.trainings + 1) % 2 ^ 32, trainFc := fc, trainEp := ep, recent := [] }
/-- The training of rank x is over: passed, x is the spare; failed, it is retired, and there is none. -/
def trainingOver (pass : Bool) (fc x : Nat) (m : CardMem) : CardMem :=
  if pass then becomesSpare x (halted m) else spareless fc (rankRole x 9 (halted m))

theorem rankOf_trainingOver_self (pass : Bool) (fc x : Nat) (h : rising m.ranks = true) :
    rankOf (trainingOver pass fc x m) x = { rankOf m x with role := if pass then 7 else 9 } := by
  cases pass with
  | true => exact rankOf_onRank_self x (fun r => { r with role := 7 }) h
  | false => exact rankOf_onRank_self x (fun r => { r with role := 9 }) h
theorem rankOf_trainingOver_ne {x k : Nat} (pass : Bool) (fc : Nat) (m : CardMem) (h : k ≠ x) : rankOf (trainingOver pass fc x m) k = rankOf m k := by
  cases pass with
  | true => exact rankOf_onRank_ne (fun r => { r with role := 7 }) m h
  | false => exact rankOf_onRank_ne (fun r => { r with role := 9 }) m h
theorem rankTrainingEnd_becomes {pass : Bool} {eye temp x : Nat} (hrop : (memAt s c).rop = .train x) :
    ∃ t fc, exec (.rankTrainingEnd c pass eye temp) s = .next t ∧
      MemBecomes c (trainingOver pass fc x (onRank x (trained temp eye s.time.fc s.time.ep) (memAt s c))) s t := by
  have htrained := ((MemBecomes.refl c s).updRank x (trained temp eye s.time.fc s.time.ep)).tells
    (tells_event 0x408 0 (srcQ c) (rankObj c x) (if pass then 0 else 1) eye 0 _)
  rw [show exec (.rankTrainingEnd c pass eye temp) s = execRankTrainingEnd c pass eye temp s from rfl, execRankTrainingEnd, hrop]
  cases pass with
  | true => exact ⟨_, 0, rfl, htrained.updMem fun m => becomesSpare x (halted m)⟩
  | false => exact ⟨_, _, rfl, ((htrained.updMem halted).retire x 0).noSpare⟩
theorem rankMigrationDone_becomes {x y : Nat} (hrop : (memAt s c).rop = .migrate x y) :
    ∃ t fc, exec (.rankMigrationDone c) s = .next t ∧ MemBecomes c (spareless fc (halted (rankSwitch x y (memAt s c)))) s t := by
  rw [show exec (.rankMigrationDone c) s = execRankMigrationDone c s from rfl, execRankMigrationDone, hrop]
  exact ⟨_, _, rfl, ((MemBecomes.refl c s).updMem fun m => halted (rankSwitch x y m)).noSpare⟩

end Sys2Proof.Laws
end

