-- ==== Sys2Proof/Proofs/PoisonedWrite.lean ====
section
/-! SUPPORT. A write of which a line is poisoned before its data has left DRAM (R270): its codewords are settled, and it leaves the module's
tables, without a change on the host's side of the state but its own completion. -/
namespace Sys2Proof.Laws
open Sys2Proof Sys2Proof.Machine

variable {s t u : State}

/-! ### The host's side of a state. -/
/-- Commands, namespaces, slices, the conventional map and its journals, controllers, completions and the count of failed writes. -/
structure HostSide where
  cmds : Tbl Cmd
  nss : Tbl Ns
  slices : Tbl Slice
  map : Tbl (Option (Nat × Nat))
  jA : Journal
  jB : Journal
  c0 : Ctrl
  c1 : Ctrl
  cqes : List Cqe
  failsA : Nat
  failsB : Nat

/-- Without its commands; with a completion posted and the controllers as that leaves them. -/
def HostSide.vacated (v : HostSide) : HostSide := { v with cmds := [] }
def HostSide.posted (q : Cqe) (c0 c1 : Ctrl) (v : HostSide) : HostSide := { v with c0 := c0, c1 := c1, cqes := v.cqes ++ [q] }
/-- The count of writes failed at a card. -/
def HostSide.fails (v : HostSide) : CardId → Nat
  | .ca => v.failsA
  | .cb => v.failsB

def hostSide (s : State) : HostSide :=
  ⟨s.cmds, s.nss, s.slices, s.map, s.jA, s.jB, s.c0, s.c1, s.cqes, s.memA.poisonFails, s.memB.poisonFails⟩
theorem poisonFails_eq (s : State) (c : CardId) : (memAt s c).poisonFails = (hostSide s).fails c := by cases c <;> rfl
/-- From s to t the host's side stays. -/
def KeepsHost (s t : State) : Prop := hostSide t = hostSide s

theorem KeepsHost.refl (s : State) : KeepsHost s s := rfl
theorem KeepsHost.after (k : KeepsHost t u) (h : KeepsHost s t) : KeepsHost s u := Eq.trans k h
theorem KeepsHost.foldl {α : Type} {f : State → α → State} {l : List α} (h : KeepsHost s t) (hf : ∀ u a, KeepsHost u (f u a)) :
    KeepsHost s (l.foldl f t) := List.foldlRecOn (motive := KeepsHost s) l f h fun u hu a _ => (hf u a).after hu
theorem KeepsHost.nsAt (h : KeepsHost s t) (n : Nat) : nsAt t n = nsAt s n := congrArg (fun v : HostSide => tget ({} : Ns) v.nss n) h
theorem KeepsHost.cmdAt (h : KeepsHost s t) (k : Nat) : cmdAt t k = cmdAt s k := congrArg (fun v : HostSide => tget ({} : Cmd) v.cmds k) h

/-! ### Single writes. -/
theorem keepsHost_updSe (c : CardId) (g : List SeWork → List SeWork) (s : State) : KeepsHost s (updSe c g s) := by cases c <;> rfl
theorem keepsHost_updSp (c : CardId) (g : Spikelet → Spikelet) (s : State) : KeepsHost s (updSp c g s) := by cases c <;> rfl
theorem keepsHost_updMem (c : CardId) (g : CardMem → CardMem) (s : State) (h : ∀ m, (g m).poisonFails = m.poisonFails := by exact fun _ => rfl) :
    KeepsHost s (updMem c g s) := by
  cases c <;> simp [KeepsHost, hostSide, updMem, h]

theorem keepsHost_updCw (ck : Nat) (g : Cw → Cw) (s : State) : KeepsHost s (updCw ck g s) := rfl
theorem keepsHost_updAccum (slot : Nat) (g : Accum → Accum) (s : State) : KeepsHost s (updAccum slot g s) := rfl
theorem keepsHost_updZone (zk : Nat) (g : Zone → Zone) (s : State) : KeepsHost s (updZone zk g s) := rfl
theorem keepsHost_updFrond (f : Nat) (g : FrondSt → FrondSt) (s : State) : KeepsHost s (updFrond f g s) := rfl

/-! ### Codewords taken back, padded or written again. -/
theorem keepsHost_releaseCopy (l : CopyLoc) (s : State) : KeepsHost s (releaseCopy l s) := by
  unfold releaseCopy
  dsimp only
  split
  · rfl
  · split <;> rfl
theorem keepsHost_dropPack (cks : List Nat) (s : State) : KeepsHost s (dropPack cks s) := by
  unfold dropPack
  split
  · rfl
  · exact KeepsHost.foldl rfl fun _ _ => rfl
theorem keepsHost_placeCw (ck : Nat) (s : State) : KeepsHost s (placeCw ck s) :=
  (keepsHost_updCw ck _ s).foldl fun _ _ => keepsHost_updFrond _ _ _
theorem keepsHost_sendCw (ck : Nat) (s : State) : KeepsHost s (sendCw ck s) := by
  unfold sendCw
  dsimp only
  split
  · exact keepsHost_placeCw ck s
  · rfl
theorem keepsHost_writeAnew (ck : Nat) (w : Cw) (s : State) : KeepsHost s (writeAnew ck w s) :=
  have released := (keepsHost_dropPack [ck] s).foldl (l := (cwAt s ck).copies) fun t l => keepsHost_releaseCopy l t
  (keepsHost_sendCw ck _).after released
theorem keepsHost_reparity (ck : Nat) (old new : Cw) (s : State) : KeepsHost s (reparity ck old new s) :=
  (KeepsHost.refl s).foldl fun _ _ => keepsHost_writeAnew _ _ _
theorem keepsHost_chunkCheck (h : Nat) (s : State) : KeepsHost s (chunkCheck h s) := by
  unfold chunkCheck
  dsimp only
  split <;> rfl
theorem keepsHost_putPadding (ck : Nat) (s : State) : KeepsHost s (putPadding ck s) := by
  unfold putPadding
  extract_lets w n slot p a new recounted rewritten
  have hrecounted : KeepsHost s recounted := by
    dsimp only [recounted]
    split <;> rfl
  have hrewritten : KeepsHost s rewritten := (keepsHost_reparity _ _ _ _).after ((keepsHost_dropPack _ _).after hrecounted)
  split
  · exact (keepsHost_writeAnew _ _ _).after ((keepsHost_updZone _ _ _).after hrewritten)
  · exact (keepsHost_chunkCheck _ _).after hrewritten
theorem keepsHost_takeBack (ck : Nat) (s : State) : KeepsHost s (takeBack ck s) := by
  unfold takeBack
  dsimp only
  split
  · rfl
  split
  · split
    · exact keepsHost_putPadding ck s
    · rfl
  · exact (keepsHost_updCw _ _ _).after ((keepsHost_dropPack _ _).after (keepsHost_updAccum _ _ _))
/-- The blocks of a conventional command that do not stay become padding. -/
theorem keepsHost_settleBy {stays : Cw → Bool} {k : Nat} (h : (nsAt s (cmdAt s k).e.nsid).zoned = false) : KeepsHost s (settleBy stays k s) := by
  unfold settleBy
  dsimp only
  rw [if_neg (by simp [h])]
  refine KeepsHost.foldl (keepsHost_dropPack _ s) fun t ck => ?_
  split
  · rfl
  · exact keepsHost_updSe _ _ _
theorem keepsHost_settleWrite {k : Nat} (h : (nsAt s (cmdAt s k).e.nsid).zoned = false) : KeepsHost s (settleWrite k s) := by
  have taken : KeepsHost s ((cmdAt s k).cws.foldl (fun s ck => if (cwAt s ck).cmd = some k then takeBack ck s else s) s) :=
    (KeepsHost.refl s).foldl fun t ck => by
      split
      · exact keepsHost_takeBack ck t
      · rfl
  exact (keepsHost_settleBy (by rw [taken.cmdAt, taken.nsAt, h])).after taken

/-! ### A command leaves. -/
theorem keepsHost_decBuf (c : CardId) (p i eng : Nat) (s : State) : KeepsHost s (decBuf c p i eng s) := by
  unfold decBuf
  dsimp only
  split
  · exact keepsHost_updMem _ _ _
  · exact keepsHost_updMem _ _ _
  · split
    · rfl
    · exact (keepsHost_updMem _ _ _).after (keepsHost_updMem _ _ _)
theorem keepsHost_freeMembers (p : Nat) (s : State) : KeepsHost s (freeMembers p s) :=
  (KeepsHost.refl s).foldl fun t r => by
    unfold freeReqBuf
    split
    · exact keepsHost_decBuf _ _ _ _ _
    · rfl
theorem keepsHost_stopUnits (k : Nat) (pieces : List Nat) (s : State) : KeepsHost s (stopUnits k pieces s) := by
  unfold stopUnits
  dsimp only
  split <;> rfl
theorem keepsHost_dropReqs (sel : Req → Bool) (s : State) : KeepsHost s (dropReqs sel s) := by
  unfold dropReqs
  dsimp only
  split
  · exact KeepsHost.foldl rfl fun _ _ => rfl
  · exact KeepsHost.foldl rfl fun _ _ => rfl
theorem hostSide_dropCmd {k : Nat} {x : Cmd} (h : s.cmds = [(k, x)]) : hostSide (dropCmd k s) = (hostSide s).vacated := by
  unfold dropCmd
  extract_lets c freed read unlocked stopped dropped gone closed
  have hfreed : KeepsHost s freed := (KeepsHost.refl s).foldl fun t b => keepsHost_decBuf _ _ _ _ t
  have hread : KeepsHost s read := hfreed.foldl fun t p => by
    refine (keepsHost_freeMembers p _).after ?_
    split
    · exact keepsHost_decBuf _ _ _ _ t
    · rfl
  have hdropped : KeepsHost s dropped :=
    (keepsHost_dropReqs _ _).after ((keepsHost_stopUnits _ _ _).after ((keepsHost_updSp _ _ _).after hread))
  have hcmds : dropped.cmds = [(k, x)] := (congrArg HostSide.cmds hdropped).trans h
  have hempty : gone.cmds = [] := by simp [gone, hcmds, tdel]
  have hclosed : KeepsHost gone closed := by
    dsimp only [closed]
    split
    · rfl
    · exact keepsHost_updZone _ _ _
  have hnone : closed.cmds = [] := (congrArg HostSide.cmds hclosed).trans hempty
  rw [hnone, List.map_nil]
  have hgone : (hostSide dropped).vacated = (hostSide s).vacated := congrArg HostSide.vacated hdropped
  exact (congrArg HostSide.vacated hclosed).trans hgone

/-- A completion advances its queue and raises an interrupt (R211). -/
theorem keepsHost_cqAdvance (q : Cqe) (s : State) : KeepsHost s (cqAdvance q s) := by
  unfold cqAdvance
  dsimp only
  split
  · rfl
  split
  · split <;> rfl
  · rfl
/-- A failure is posted with More set (R168). -/
theorem hostSide_post_failure {q : Cqe} (lba nsid : Nat) (hcid : q.cid < 65536) (hlink : (ctrlAt s q.port).link = true)
    (hrdy : (ctrlAt s q.port).rdy = true) (hst : ¬ (q.sct = 0 ∧ q.sc = 0)) :
    ∃ c0 c1, hostSide (post q lba nsid s) = (hostSide s).posted { q with more := true } c0 c1 := by
  unfold post
  rw [if_neg (by simp [hlink, hrdy, hcid]), if_neg hst]
  extract_lets c en counted frozen
  have hcounted : hostSide counted = { hostSide s with c0 := counted.c0, c1 := counted.c1 } := by
    dsimp only [counted, updCtrl]
    split <;> rfl
  have hfrozen : KeepsHost counted frozen := by
    dsimp only [frozen]
    split <;> rfl
  exact ⟨counted.c0, counted.c1, (keepsHost_cqAdvance q _).trans
    (congrArg (fun v : HostSide => { v with cqes := v.cqes ++ [{ q with more := true }] }) (hfrozen.trans hcounted))⟩
/-- Where no command, no namespace and no slice waits, nothing is woken. -/
theorem wake_eq_of_no_waiters (hcmds : s.cmds = []) (hnss : ∀ n ∈ s.nss, n.2.deleting = none) (hslices : ∀ x ∈ s.slices, x.2.waiter = none) :
    wake s = s := by
  unfold wake
  simp only [hcmds, List.filter_nil, List.foldl_nil]
  rw [foldl_fixed_of_mem (l := s.nss) fun n hn => by simp only [hnss n hn], foldl_fixed_of_mem (l := s.slices) fun x hx => by simp only [hslices x hx]]

/-! ### The only command fails. -/
/-- Command k is the only one, and its host takes completions: it is of an I/O queue, its slice generation is current, and its controller is ready. -/
structure Answered (s : State) (k : Nat) (x : Cmd) : Prop where
  cmds : s.cmds = [(k, x)]
  missed : x.missed = none
  unbound : x.svc ≠ .bound
  queue : x.e.sqid ≠ 0
  cid : x.e.cid < 65536
  heard : x.silent = false
  current : superseded s x.slice x.gen = false
  link : (ctrlAt s x.e.port).link = true
  rdy : (ctrlAt s x.e.port).rdy = true
  nss : ∀ n ∈ s.nss, n.2.deleting = none
  slices : ∀ y ∈ s.slices, y.2.waiter = none

theorem superseded_congr (h : t.slices = s.slices) (sl gen : Nat) : superseded t sl gen = superseded s sl gen := by
  rw [superseded, superseded, sliceAt, sliceAt, h]
theorem ctrlAt_congr (h0 : t.c0 = s.c0) (h1 : t.c1 = s.c1) (p : Port) : ctrlAt t p = ctrlAt s p := by
  cases p
  · exact h0
  · exact h1
/-- The completion of a failed command. -/
def failureOf (x : Cmd) (st : Nat × Nat) : Cqe := { port := x.e.port, sqid := x.e.sqid, cid := x.e.cid, sct := st.1, sc := st.2 }

theorem Answered.of_keepsHost {k : Nat} {x : Cmd} (hs : Answered s k x) (h : KeepsHost s t) : Answered t k x where
  cmds := (congrArg HostSide.cmds h).trans hs.cmds
  missed := hs.missed
  unbound := hs.unbound
  queue := hs.queue
  cid := hs.cid
  heard := hs.heard
  current := (superseded_congr (congrArg HostSide.slices h) _ _).trans hs.current
  link := (congrArg Ctrl.link (ctrlAt_congr (congrArg HostSide.c0 h) (congrArg HostSide.c1 h) _)).trans hs.link
  rdy := (congrArg Ctrl.rdy (ctrlAt_congr (congrArg HostSide.c0 h) (congrArg HostSide.c1 h) _)).trans hs.rdy
  nss := show ∀ n ∈ (hostSide t).nss, _ from h ▸ hs.nss
  slices := show ∀ y ∈ (hostSide t).slices, _ from h ▸ hs.slices
theorem Answered.cmdAt {k : Nat} {x : Cmd} (hs : Answered s k x) : cmdAt s k = x := by simp [Machine.cmdAt, hs.cmds, tget]

theorem complete_eq {k : Nat} {x : Cmd} (hs : Answered s k x) (st : Nat × Nat) :
    complete k st 0 0 [] s = post (failureOf x st) x.errLba x.e.nsid (dropCmd k s) := by
  have hcurrent : superseded (dropCmd k s) x.slice x.gen = false :=
    (superseded_congr (congrArg HostSide.slices (hostSide_dropCmd hs.cmds)) _ _).trans hs.current
  simp only [complete, hs.cmdAt, hs.missed, hs.unbound, hs.queue, hs.heard, hcurrent, false_and, if_false, Bool.false_eq_true, or_self]
  rfl
theorem hostSide_finishCmd_failure {k : Nat} {x : Cmd} {st : Nat × Nat} (hs : Answered s k x) (hst : ¬ (st.1 = 0 ∧ st.2 = 0)) :
    ∃ c0 c1, hostSide (finishCmd k st 0 0 [] s) = (hostSide s).vacated.posted { failureOf x st with more := true } c0 c1 := by
  have hdrop := hostSide_dropCmd hs.cmds
  have hctrl := ctrlAt_congr (congrArg HostSide.c0 hdrop) (congrArg HostSide.c1 hdrop) x.e.port
  obtain ⟨c0, c1, hpost⟩ := hostSide_post_failure (q := failureOf x st) x.errLba x.e.nsid hs.cid
    ((congrArg Ctrl.link hctrl).trans hs.link) ((congrArg Ctrl.rdy hctrl).trans hs.rdy) hst
  rw [hdrop] at hpost
  have hcmds : (post (failureOf x st) x.errLba x.e.nsid (dropCmd k s)).cmds = [] := congrArg HostSide.cmds hpost
  have hnss : (post (failureOf x st) x.errLba x.e.nsid (dropCmd k s)).nss = s.nss := congrArg HostSide.nss hpost
  have hslices : (post (failureOf x st) x.errLba x.e.nsid (dropCmd k s)).slices = s.slices := congrArg HostSide.slices hpost
  refine ⟨c0, c1, ?_⟩
  rw [finishCmd, complete_eq hs, wake_eq_of_no_waiters hcmds (hnss ▸ hs.nss) (hslices ▸ hs.slices)]
  exact hpost

/-! ### The poisoned write. -/
/-- The failed write is counted at card c; it names block b and is late no more. -/
def namingBlock (b : Nat) (x : Cmd) : Cmd := { x with missed := none, errLba := b }
def failedWrite (c : CardId) (k b : Nat) (s : State) : State :=
  updCmd k (namingBlock b) (updMem c (fun m => { m with poisonFails := m.poisonFails + 1 }) s)

theorem poisonRead_writeData {c : CardId} {line k b : Nat} (hk : (tfind s.cmds k).isSome = true) (hsent : notSent s k b = true) :
    poisonRead c line (.writeData k b) s = finishCmd k dataTransferError 0 0 [] (settleWrite k (failedWrite c k b s)) := by
  unfold poisonRead
  exact if_pos ⟨hk, hsent⟩
theorem failedWrite_fails (c : CardId) (k b : Nat) (s : State) : (hostSide (failedWrite c k b s)).fails c = (memAt s c).poisonFails + 1 := by
  cases c <;> rfl

/-- A conventional write with a block that has not left DRAM fails with Data Transfer Error (R270). -/
theorem hostSide_poisonRead_writeData {c : CardId} {line k b : Nat} {x : Cmd} (hs : Answered (failedWrite c k b s) k (namingBlock b x))
    (hk : (tfind s.cmds k).isSome = true) (hsent : notSent s k b = true) (hconv : (nsAt (failedWrite c k b s) x.e.nsid).zoned = false) :
    ∃ c0 c1, hostSide (poisonRead c line (.writeData k b) s) =
      (hostSide (failedWrite c k b s)).vacated.posted { failureOf x dataTransferError with more := true } c0 c1 := by
  have hsettled : KeepsHost (failedWrite c k b s) (settleWrite k (failedWrite c k b s)) := keepsHost_settleWrite (by rw [hs.cmdAt]; exact hconv)
  obtain ⟨c0, c1, h⟩ := hostSide_finishCmd_failure (st := dataTransferError) (hs.of_keepsHost hsettled) (by decide)
  rw [hsettled] at h
  exact ⟨c0, c1, (congrArg hostSide (poisonRead_writeData hk hsent)).trans h⟩

end Sys2Proof.Laws
end

