-- ==== Sys2Proof/Proofs/RanksAndPoison.lean ====
section
/-! OBLIGATION. O50: DRAM errors, retraining and migration of ranks (R264, R265, R268, R269), and what each consumer does with a poisoned line
(R270). The operations on ranks are `MemBecomes` and the record it names; a consumer's action clears the line and changes one table beside it;
a failed write is `hostSide_poisonRead_writeData`. -/
namespace Sys2Proof.Laws
open Sys2Proof Sys2Proof.Machine

variable {s : State} {c : CardId} {line : Nat}

/-! ### Ranks. -/
theorem corrected_error_is_counted (c : CardId) (n : Nat) (s : State) :
    ∃ t, exec (.dramCorrectedError c n) s = .next t ∧ (rankAt t c n).corrected = ((rankAt s c n).corrected + 1) % 2 ^ 32 ∧
      (rankAt t c n).role = (rankAt s c n).role ∧ (rankAt t c n).recent.getLast? = some s.time.fc ∧ (∀ m, m ≠ n → rankAt t c m = rankAt s c m) ∧
      { memAt t c with ranks := (memAt s c).ranks } = memAt s c ∧ memAt t (other c) = memAt s (other c) ∧
      { t with memA := s.memA, memB := s.memB } = s := by
  have hself := rankOf_oneCorrected s.time.fc n (memAt s c)
  refine ⟨_, dramCorrectedError_eq c n s, ?_⟩
  simp only [rankAt_eq, memAt_updMem_self]
  exact ⟨congrArg Rank.corrected hself, (congrArg Rank.role hself :),
    (congrArg (fun r : Rank => r.recent.getLast?) hself).trans List.getLast?_concat,
    fun m hm => rankOf_onRank_ne _ _ hm, rfl, memAt_updMem_other _ _ _, updMem_rest _ _ _⟩

theorem uncorrectable_error_migrates {n y : Nat} (hserving : (cardAt s c).serving = true) (hranks : rising (memAt s c).ranks = true)
    (hspare : (memAt s c).spare = some y) (hy : y ≠ n)
    (hrop : (memAt s c).rop = .idle ∧ (rankAt s c n).role ≠ 9 ∨ (∃ a b, (memAt s c).rop = .copy a b) ∨ ∃ a b, (memAt s c).rop = .switching a b) :
    ∃ t, exec (.dramUncorrectableError c n line) s = .next t ∧ (memAt t c).rop = .migrate n y ∧ (memAt t c).spare = some y ∧
      n * 2 ^ 28 + line ∈ (memAt t c).poison ∧ (memAt t c).poisonLines = (memAt s c).poisonLines + 1 ∧ (rankAt t c n).role = 9 ∧
      (rankAt t c y).role = 7 ∧ (rankAt t c n).uncorr = ((rankAt s c n).uncorr + 1) % 2 ^ 32 ∧ (memAt t c).table = (memAt s c).table ∧
      memAt t (other c) = memAt s (other c) ∧ s.onlyTells { t with memA := s.memA, memB := s.memB } := by
  have hmigrates := dramBad_migrates (line := line) hspare hy hrop
  have hfailing := rankOf_migrating_failing hy (rising_struck (n := n) (line := line) hranks)
  refine ⟨_, dramUncorrectableError_eq hserving, ?_⟩
  simp only [rankAt_eq, hmigrates.mem]
  exact ⟨rfl, rfl, mem_withPoison n line _, rfl, congrArg Rank.role hfailing, rankOf_migrating_spare n y (rising_struck hranks),
    (congrArg Rank.uncorr hfailing).trans (uncorr_struck hranks), rfl, hmigrates.partner, hmigrates.rest⟩

theorem uncorrectable_error_during_training {n x : Nat} (hserving : (cardAt s c).serving = true) (hranks : rising (memAt s c).ranks = true)
    (hrop : (memAt s c).rop = .train x) :
    ∃ t, exec (.dramUncorrectableError c n line) s = .next t ∧ (rankAt t c n).uncorr = ((rankAt s c n).uncorr + 1) % 2 ^ 32 ∧
      (if n = x then (memAt t c).rop = .train x ∧ (memAt t c).poison = (memAt s c).poison
       else (memAt t c).rop = .migrate n x ∧ (memAt t c).spare = some x ∧ n * 2 ^ 28 + line ∈ (memAt t c).poison ∧ (rankAt t c n).role = 9 ∧
        (rankAt t c x).role = 7) ∧
      s.onlyTells { t with memA := s.memA, memB := s.memB } := by
  refine ⟨_, dramUncorrectableError_eq hserving, ?_⟩
  by_cases hx : n = x
  · subst hx
    have hcounted := (MemBecomes.refl c s).updRank n oneUncorr
    rw [dramBad_training_self hrop, if_pos rfl]
    simp only [rankAt_eq, hcounted.mem]
    exact ⟨congrArg Rank.uncorr (rankOf_onRank_self n oneUncorr hranks), ⟨hrop, rfl⟩, hcounted.rest⟩
  · have hmigrates := dramBad_training_other (line := line) hrop hx
    have hspare : rising (becomesSpare x (struck c n line s)).ranks = true := rising_onRank x _ (rising_struck (n := n) (line := line) hranks)
    have hfailing := rankOf_migrating_failing (Ne.symm hx) hspare
    have huncorr : (rankOf (becomesSpare x (struck c n line s)) n).uncorr = ((rankAt s c n).uncorr + 1) % 2 ^ 32 :=
      (congrArg Rank.uncorr (rankOf_onRank_ne _ _ hx)).trans (uncorr_struck (line := line) hranks)
    rw [if_neg hx]
    simp only [rankAt_eq, hmigrates.mem]
    exact ⟨(congrArg Rank.uncorr hfailing).trans huncorr,
      ⟨rfl, rfl, mem_withPoison n line _, congrArg Rank.role hfailing, rankOf_migrating_spare n x hspare⟩, hmigrates.rest⟩

theorem uncorrectable_error_while_migrating {n y : Nat} (hserving : (cardAt s c).serving = true) (hrop : (memAt s c).rop = .migrate n y) :
    ∃ t, exec (.dramUncorrectableError c n line) s = .next t ∧ (memAt t c).rop = .migrate n y ∧ y * 2 ^ 28 + line ∈ (memAt t c).poison ∧
      (memAt t c).poisonLines = (memAt s c).poisonLines + 1 ∧ { t with memA := s.memA, memB := s.memB } = s := by
  refine ⟨_, dramUncorrectableError_eq hserving, ?_⟩
  rw [dramBad_migrating hrop, memAt_updMem_self, memAt_updMem_self]
  refine ⟨hrop, mem_withPoison y line _, rfl, ?_⟩
  cases c <;> rfl

theorem copy_ends {x y : Nat} (hrop : (memAt s c).rop = .copy x y) :
    ∃ t, exec (.rankCopyDone c) s = .next t ∧ memAt t c = { memAt s c with rop := .switching x y } ∧ memAt t (other c) = memAt s (other c) ∧
      { t with memA := s.memA, memB := s.memB } = s :=
  ⟨_, rfl, (memAt_updMem_self _ _ _).trans (by rw [hrop]), memAt_updMem_other _ _ _, updMem_rest _ _ _⟩

theorem training_ends {pass : Bool} {eye temp x : Nat} (hrop : (memAt s c).rop = .train x) (hranks : rising (memAt s c).ranks = true) :
    ∃ t, exec (.rankTrainingEnd c pass eye temp) s = .next t ∧ (memAt t c).rop = .idle ∧ (memAt t c).spare = (if pass then some x else none) ∧
      (rankAt t c x).role = (if pass then 7 else 9) ∧ (rankAt t c x).trainings = ((rankAt s c x).trainings + 1) % 2 ^ 32 ∧
      (rankAt t c x).temp = temp ∧ (rankAt t c x).eye = eye ∧ (rankAt t c x).trainFc = s.time.fc ∧ (rankAt t c x).trainEp = s.time.ep ∧
      (∀ m, m ≠ x → rankAt t c m = rankAt s c m) ∧ (memAt t c).table = (memAt s c).table ∧ memAt t (other c) = memAt s (other c) ∧
      s.onlyTells { t with memA := s.memA, memB := s.memB } := by
  obtain ⟨t, fc, hexec, hends⟩ := rankTrainingEnd_becomes (pass := pass) (eye := eye) (temp := temp) hrop
  have hself := (rankOf_trainingOver_self pass fc x (rising_onRank x _ hranks)).trans
    (congrArg (fun r : Rank => { r with role := if pass then 7 else 9 }) (rankOf_onRank_self x (trained temp eye s.time.fc s.time.ep) hranks))
  refine ⟨t, hexec, ?_⟩
  simp only [rankAt_eq, hends.mem]
  exact ⟨by cases pass <;> rfl, by cases pass <;> rfl, congrArg Rank.role hself, congrArg Rank.trainings hself, congrArg Rank.temp hself,
    congrArg Rank.eye hself, congrArg Rank.trainFc hself, congrArg Rank.trainEp hself,
    fun m hm => (rankOf_trainingOver_ne pass fc _ hm).trans (rankOf_onRank_ne _ _ hm), by cases pass <;> rfl, hends.partner, hends.rest⟩

theorem migration_ends {x y : Nat} (hrop : (memAt s c).rop = .migrate x y) :
    ∃ t, exec (.rankMigrationDone c) s = .next t ∧ (memAt t c).rop = .idle ∧ (memAt t c).spare = none ∧
      (memAt t c).table = (memAt s c).table.map (fun r => if r = x then y else r) ∧ memAt t (other c) = memAt s (other c) ∧
      s.onlyTells { t with memA := s.memA, memB := s.memB } := by
  obtain ⟨t, fc, hexec, hends⟩ := rankMigrationDone_becomes hrop
  refine ⟨t, hexec, ?_⟩
  rw [hends.mem]
  exact ⟨rfl, rfl, rfl, hends.partner, hends.rest⟩

/-! ### Consumers of a poisoned line. -/
theorem exec_poisonRead (h : line ∈ (memAt s c).poison) (u : PoisonUse) : exec (.poisonRead c line u) s = .next (poisonRead c line u s) := by
  rw [show exec (.poisonRead c line u) s = execPoisonRead c line u s from rfl, execPoisonRead, if_pos (List.contains_iff_mem.2 h)]

/-- The recovered line is written again (R268). -/
def cured (c : CardId) (line : Nat) (s : State) : State := updMem c (fun m => { m with poison := m.poison.erase line }) s

theorem memAt_cured (c : CardId) (line : Nat) (s : State) : memAt (cured c line s) c = { memAt s c with poison := (memAt s c).poison.erase line } :=
  memAt_updMem_self _ _ _

theorem poisonRead_restores {u : PoisonUse} (hu : u = .ownTable ∨ u = .mirrorTable ∨ (∃ a b, u = .program a b) ∨ ∃ p, u = .freeRing p) :
    poisonRead c line u s = cured c line s := by
  obtain rfl | rfl | ⟨a, b, rfl⟩ | ⟨p, rfl⟩ := hu <;> rfl

/-- The tail that an accumulator of a namespace or zone fills. -/
def fillingSlot (s : State) (nsid z : Nat) : Option Nat :=
  if (nsAt s nsid).zoned then (zoneAt s (zoneKey nsid z)).slot else if z = 0 then (nsAt s nsid).head else (nsAt s nsid).gcHead
theorem poisonRead_accumulator {nsid z slot : Nat} (hslot : fillingSlot s nsid z = some slot) (hopen : (tfind s.accums slot).isSome = true) :
    poisonRead c line (.accumulator nsid z) s = updAccum slot (fun a => { a with lost := true }) (cured c line s) := by
  rw [fillingSlot] at hslot
  rw [poisonRead]
  simp only [hslot, hopen, if_true]
  rfl
theorem accumulator_is_lost {nsid z slot : Nat} (haccums : rising s.accums = true) (hslot : fillingSlot s nsid z = some slot)
    (hopen : (tfind s.accums slot).isSome = true) {t : State} (ht : poisonRead c line (.accumulator nsid z) s = t) :
    accumAt t slot = { accumAt s slot with lost := true } ∧ (∀ k, k ≠ slot → accumAt t k = accumAt s k) ∧
      (memAt t c).poison = (memAt s c).poison.erase line ∧ { t with accums := s.accums, memA := s.memA, memB := s.memB } = s := by
  rw [poisonRead_accumulator hslot hopen] at ht
  subst ht
  have haccum : ∀ k, accumAt (updAccum slot (fun a => { a with lost := true }) (cured c line s)) k =
      if k = slot then { accumAt s slot with lost := true } else accumAt s k := by
    cases c <;> exact fun k => accumAt_updAccum slot _ _ k haccums
  refine ⟨(haccum slot).trans (if_pos rfl), fun k hk => (haccum k).trans (if_neg hk), ?_, ?_⟩
  all_goals cases c <;> rfl

/-- A map page after its poisoned line: a clean one is dropped, a dirty one is referenced. -/
def droppedIfClean (p : MapPage) : MapPage := if p.dirty then p else { p with cached := false, ref := false }
def referencedIfDirty (p : MapPage) : MapPage := if p.dirty then { p with ref := true } else p

theorem tget_of_tfind {α : Type} {d : α} {k : Nat} {x : α} {l : Tbl α} (h : tfind l k = some x) : tget d l k = x := by
  induction l with
  | nil => cases h
  | cons p l ih =>
    obtain ⟨j, a⟩ := p
    rw [tfind] at h
    rw [tget]
    split at h
    next hj => rw [if_pos hj]; exact Option.some.inj h
    next hj => rw [if_neg hj]; exact ih h
theorem page_after_poison {pk : Nat} {x : MapPage} (g : MapPage → MapPage) (hpages : rising s.pages = true) (hx : tfind s.pages pk = some x)
    {t : State} (ht : t = cured c line { s with pages := tupd {} s.pages pk g }) :
    tget {} t.pages pk = g x ∧ (∀ k, k ≠ pk → tget {} t.pages k = tget {} s.pages k) ∧ (memAt t c).poison = (memAt s c).poison.erase line ∧
      { t with pages := s.pages, memA := s.memA, memB := s.memB } = s := by
  subst ht
  have hpage : ∀ k, tget {} (cured c line { s with pages := tupd {} s.pages pk g }).pages k = if k = pk then g x else tget {} s.pages k := by
    rw [← tget_of_tfind (d := {}) hx]
    cases c <;> exact fun k => tget_tupd_rising {} s.pages pk k g hpages
  refine ⟨(hpage pk).trans (if_pos rfl), fun k hk => (hpage k).trans (if_neg hk), ?_, ?_⟩
  all_goals cases c <;> rfl

theorem search_is_unbound {i : Nat} (hengines : rising s.engines = true) :
    engAt (poisonRead c line (.working i) s) (cardNo c * 64 + i) = { engAt s (cardNo c * 64 + i) with winnow := none } ∧
      (memAt (poisonRead c line (.working i) s) c).poison = (memAt s c).poison.erase line ∧
      { poisonRead c line (.working i) s with engines := s.engines, memA := s.memA, memB := s.memB } = s := by
  have hengine := (engAt_updEng (cardNo c * 64 + i) (fun e => { e with winnow := none }) s _ hengines).trans (if_pos rfl)
  refine ⟨?_, ?_, ?_⟩
  · cases c <;> exact hengine
  all_goals cases c <;> rfl

theorem answered_of_only_command {k b : Nat} {x : Cmd} (hcmds : s.cmds = [(k, x)]) (hsq : x.e.sqid ≠ 0) (hcid : x.e.cid < 65536)
    (hheard : x.silent = false) (hcurrent : superseded s x.slice x.gen = false) (hsvc : x.svc ≠ .bound) (hlink : (ctrlAt s x.e.port).link = true)
    (hrdy : (ctrlAt s x.e.port).rdy = true) (hnss : ∀ n ∈ s.nss, n.2.deleting = none) (hslices : ∀ y ∈ s.slices, y.2.waiter = none) :
    Answered (failedWrite c k b s) k (namingBlock b x) where
  cmds := by cases c <;> simp [failedWrite, hcmds, tmod]
  missed := rfl
  unbound := hsvc
  queue := hsq
  cid := hcid
  heard := hheard
  current := by cases c <;> exact hcurrent
  link := by cases c <;> exact hlink
  rdy := by cases c <;> exact hrdy
  nss := by cases c <;> exact hnss
  slices := by cases c <;> exact hslices

theorem poisoned_write_fails {k b : Nat} {x : Cmd} (hs : Answered (failedWrite c k b s) k (namingBlock b x)) (hcmds : s.cmds = [(k, x)])
    (hsent : notSent s k b = true) (hconv : (nsAt s x.e.nsid).zoned = false) {t : State} (ht : poisonRead c line (.writeData k b) s = t) :
    t.cmds = [] ∧ (memAt t c).poisonFails = (memAt s c).poisonFails + 1 ∧
      t.cqes = s.cqes ++ [{ port := x.e.port, sqid := x.e.sqid, cid := x.e.cid, sct := 0, sc := 0x04, more := true }] ∧
      t.map = s.map ∧ t.jA = s.jA ∧ t.jB = s.jB := by
  obtain ⟨c0, c1, h⟩ := hostSide_poisonRead_writeData (c := c) (line := line) hs (by rw [hcmds, tfind, if_pos rfl]; rfl) hsent
    (by cases c <;> exact hconv)
  subst ht
  have hfails := (poisonFails_eq (poisonRead c line (.writeData k b) s) c).trans (congrArg (fun v : HostSide => v.fails c) h)
  refine ⟨congrArg HostSide.cmds h, ?fails, ?cqes, ?map, ?jA, ?jB⟩
  case fails => exact hfails.trans (failedWrite_fails c k b s)
  case cqes => exact (congrArg HostSide.cqes h).trans (by cases c <;> rfl)
  case map => exact (congrArg HostSide.map h).trans (by cases c <;> rfl)
  case jA => exact (congrArg HostSide.jA h).trans (by cases c <;> rfl)
  case jB => exact (congrArg HostSide.jB h).trans (by cases c <;> rfl)

/-- Settles O50: an operation on ranks leaves the memory record that `MemBecomes` names and tells the hosts; a consumer of a poisoned line
clears it and changes one table; a poisoned write fails as a command that is alone and has nobody waiting. -/
theorem ranksAndPoisonAct : Obligations.RanksAndPoisonAct := by
  refine ⟨corrected_error_is_counted, fun c n line s hserving hranks => ⟨?spare, ?training, ?migrating⟩, ?retrain, ?copied, ?trained, ?migrated,
    fun c line s hline hcanon => ?consumers, ?write⟩
  case spare => exact fun y hspare hy hrop => uncorrectable_error_migrates hserving hranks hspare hy hrop
  case training => exact fun x hrop => uncorrectable_error_during_training hserving hranks hrop
  case migrating => exact fun y hrop => uncorrectable_error_while_migrating hserving hrop
  case retrain =>
    intro c n y s hrop hspare hserving hn hdue hparked hcopies
    exact ⟨_, rankRetrainDue_eq hrop hspare hserving hn hdue hparked hcopies, memAt_updMem_self _ _ _, memAt_updMem_other _ _ _, updMem_rest _ _ _⟩
  case copied => exact fun c x y s hrop => copy_ends hrop
  case trained => exact fun c pass eye temp x s hrop hranks => training_ends hrop hranks
  case migrated => exact fun c x y s hrop => migration_ends hrop
  case consumers =>
    have hcanon : Canon s := canon_iff.2 hcanon
    have hexec := exec_poisonRead hline
    refine ⟨⟨_, hexec .durable, rfl⟩, ?restored, ?accumulator, ?page, ?working, ?staged⟩
    case restored =>
      exact fun u hu => ⟨_, (hexec u).trans (congrArg Host.Outcome.next (poisonRead_restores hu)), memAt_cured c line s, memAt_updMem_other _ _ _,
        updMem_rest _ _ _⟩
    case accumulator =>
      exact fun nsid z slot hslot hopen => ⟨_, hexec _, accumulator_is_lost hcanon.accums hslot hopen rfl⟩
    case page =>
      intro nsid p x hx
      refine ⟨fun hclean => ?_, fun hdirty => ?_⟩
      · have hpage : droppedIfClean x = { x with cached := false, ref := false } := if_neg (by simp [hclean])
        exact ⟨_, hexec _, hpage ▸ page_after_poison droppedIfClean hcanon.pages hx rfl⟩
      · have hpage : referencedIfDirty x = { x with ref := true } := if_pos hdirty
        exact ⟨_, hexec _, hpage ▸ page_after_poison referencedIfDirty hcanon.pages hx rfl⟩
    case working => exact fun i => ⟨_, hexec _, search_is_unbound hcanon.engines⟩
    case staged =>
      intro k hk
      have hstaged : poisonRead c line (.staged k) s = updMem c (fun m => { m with resourced := m.resourced + 1 }) (cured c line s) := if_pos hk
      refine ⟨_, (hexec _).trans (congrArg Host.Outcome.next hstaged), ?_, ?_, ?_⟩
      all_goals cases c <;> rfl
  case write =>
    intro c line k b x s hline hcanon hcmds hsent hconv hsq hcid hheard hcurrent hsvc hlink hrdy hnss hslices
    exact ⟨_, exec_poisonRead hline _, poisoned_write_fails
      (answered_of_only_command hcmds hsq hcid hheard hcurrent hsvc hlink hrdy hnss hslices) hcmds hsent hconv rfl⟩

end Sys2Proof.Laws
end

