-- ==== Sys2Proof/Proofs/DatasetManagementCounterexample.lean ====
section
/-! PROOFS. O41 fails as O39 and O40 do: `runsAlone` takes its premise on the data pointer from the entry's opcode, not from that of the row. -/
namespace Sys2Proof.Laws
open Sys2Proof Sys2Proof.Machine

/-- The row DATASET MANAGEMENT gives the entry its own opcode, rejects the data pointer, and the command fails. -/
theorem datasetManagement_of_flushEntry_fails :
    shows (fun t => t.cqes.map fun q => (q.sct, q.sc)) (exec (.datasetManagement flushEntry) flushWaits) = some [sglType] := by decide +kernel

/-- Refutes O41: on an entry with the opcode of a Flush, whose data pointer `runsAlone` does not judge, a DATASET MANAGEMENT of a zoned namespace
fails with SGL Descriptor Type Invalid, where the statement has it complete with success. -/
theorem not_zoneAndFlushCommandsAct : ¬ Obligations.ZoneAndFlushCommandsAct := by
  rintro ⟨hnothing, -⟩
  obtain ⟨t, ht, hreply, -⟩ := hnothing _ (List.mem_cons_of_mem _ List.mem_cons_self) flushEntry 9 flushCmd flushWaits
    flushWaits_runsAlone (by decide +kernel)
  have hfails : t.cqes.map (fun q => (q.sct, q.sc)) = [sglType] := eq_of_shows ht datasetManagement_of_flushEntry_fails
  rw [show t.cqes = [cqeOf flushEntry 0 []] from hreply] at hfails
  exact absurd hfails (by decide)

end Sys2Proof.Laws
end

