-- ==== Sys2Proof/Proofs/NamespaceRemoval.lean ====
section
/-! SUPPORT. A namespace goes (R141, R165): its stripes are freed and the hosts are told, while every command and every other namespace stays. -/
namespace Sys2Proof.Laws
open Sys2Proof Sys2Proof.Machine

variable {s t u : State}

/-! ### Hosts are told of a namespace (R164). -/
theorem tells_nsChanged (p : Port) (nsid : Nat) (s : State) : Tells s (nsChanged p nsid s) := by
  unfold nsChanged
  extract_lets l noted
  split
  · exact .refl s
  · have hnoted : Tells s noted := tells_updCtrl _ p s
    split
    · exact (tells_aenPort _ _ _ _ _).after hnoted
    · exact hnoted
theorem tells_nsNotice (nsid : Nat) (s : State) : Tells s (nsNotice nsid s) := by
  unfold nsNotice
  extract_lets n told
  have htold : Tells s told := by
    dsimp only [told]
    split
    · exact tells_nsChanged _ _ s
    · exact .refl s
  split
  · exact (tells_nsChanged _ _ _).after htold
  · exact htold

/-! ### The stripes of a namespace are freed (R101, R121, R141). -/
theorem keepsHost_keepData (slot : Nat) (s : State) : KeepsHost s (keepData slot s) := rfl
theorem keepsHost_releaseCopies (sel : Nat → Bool) (s : State) : KeepsHost s (releaseCopies sel s) :=
  have released := (KeepsHost.refl s).foldl (l := s.cws.filter fun c => sel c.1) fun t c =>
    (KeepsHost.refl t).foldl (l := c.2.copies) fun u l => keepsHost_releaseCopy l u
  KeepsHost.foldl released fun t c => keepsHost_updCw c.1 (fun x => { x with copies := [], folded := true }) t
theorem keepsHost_dropAccum (slot : Nat) (s : State) : KeepsHost s (dropAccum slot s) := by
  unfold dropAccum
  dsimp only
  split <;> rfl
theorem keepsHost_dropStaged (slot : Nat) (s : State) : KeepsHost s (dropStaged slot s) :=
  (KeepsHost.refl s).foldl fun t c => by
    split
    · exact keepsHost_decBuf _ _ _ _ t
    · exact .refl t
theorem keepsHost_toDirty (k : Nat) (s : State) : KeepsHost s (toDirty k s) := by
  unfold toDirty
  split <;> rfl
theorem keepsHost_dropRefresh (k : Nat) (s : State) : KeepsHost s (dropRefresh k s) := by
  unfold dropRefresh endRefresh
  dsimp only
  split
  · split
    · split
      · exact keepsHost_toDirty _ _
      · rfl
    · rfl
  · rfl
theorem keepsHost_deadBlocks (f : Nat) (s : State) : KeepsHost s (deadBlocks f s) :=
  (KeepsHost.refl s).foldl fun t b => by
    split
    · rfl
    · exact (keepsHost_updFrond _ _ _).after (keepsHost_toDirty _ t)
theorem keepsHost_deadBlocksAll (s : State) : KeepsHost s (deadBlocksAll s) := (KeepsHost.refl s).foldl fun t f => keepsHost_deadBlocks f t
theorem keepsHost_updStripe (slot : Nat) (g : Stripe → Stripe) (s : State) : KeepsHost s (updStripe slot g s) := rfl
theorem keepsHost_dies (l : Tbl Die) (s : State) : KeepsHost s { s with dies := l } := rfl

/-- The two tables of the host's side that a rebuild's end leaves too. -/
def cmdsAndNss (s : State) : Tbl Cmd × Tbl Ns := (s.cmds, s.nss)
theorem cmdsAndNss_of_keepsHost (h : KeepsHost s t) : cmdsAndNss t = cmdsAndNss s := congrArg (fun v : HostSide => (v.cmds, v.nss)) h
theorem cmdsAndNss_rebuildIdle (s : State) : cmdsAndNss (rebuildIdle s) = cmdsAndNss s :=
  (congrArg cmdsAndNss (mediaMoves_rebuildIdle (home := fun _ => True) (queue := True) trivial (fun _ => trivial) s).rest :)
theorem cmdsAndNss_freeStripe (slot : Nat) (s : State) : cmdsAndNss (freeStripe slot s) = cmdsAndNss s := by
  unfold freeStripe
  extract_lets st released unstaged seed cleared left unqueued dirtied tabled undone
  have hreleased : KeepsHost s released := (keepsHost_releaseCopies _ _).after (keepsHost_keepData slot s)
  have hunstaged : KeepsHost s unstaged := (keepsHost_dropStaged _ _).after ((keepsHost_dropAccum _ _).after hreleased)
  have hunqueued : KeepsHost s unqueued := hunstaged
  have hdirtied : KeepsHost s dirtied := hunqueued.foldl fun t m => by
    split
    · exact KeepsHost.after (t := dropOps _ (dropRefresh _ t)) (keepsHost_toDirty _ _) (keepsHost_dropRefresh _ t)
    · exact .refl t
  have htabled : KeepsHost s tabled := hdirtied.foldl fun _ _ => keepsHost_updFrond _ _ _
  have hundone : KeepsHost s undone := (keepsHost_dies _ tabled).after htabled
  have hdead : KeepsHost s (deadBlocksAll (updStripe slot (fun x => { gen := x.gen }) undone)) :=
    (keepsHost_deadBlocksAll _).after ((keepsHost_updStripe _ _ _).after hundone)
  exact (cmdsAndNss_rebuildIdle _).trans (cmdsAndNss_of_keepsHost hdead)
/-- A removed namespace leaves the table, and every command stays. -/
theorem cmdsAndNss_removeNs (nsid : Nat) (s : State) : cmdsAndNss (removeNs nsid s) = (s.cmds, tdel s.nss nsid) := by
  unfold removeNs
  extract_lets freed told touched
  have hfreed : cmdsAndNss freed = cmdsAndNss s :=
    List.foldlRecOn (motive := fun u => cmdsAndNss u = cmdsAndNss s) _ _ rfl fun u hu x _ => (cmdsAndNss_freeStripe x.1 u).trans hu
  have htold : cmdsAndNss told = cmdsAndNss freed := (congrArg cmdsAndNss (tells_nsNotice nsid freed).eq :)
  have htouched : cmdsAndNss touched = cmdsAndNss told := by
    dsimp only [touched]
    split <;> rfl
  exact congrArg (fun x : Tbl Cmd × Tbl Ns => (x.1, tdel x.2 nsid)) (htouched.trans (htold.trans hfreed))

end Sys2Proof.Laws
end

