-- ==== Sys2Proof/Proofs/NamespaceCommands.lean ====
section
/-! OBLIGATION. O13: create, attach, detach and delete of a namespace (R146, R160, R165, R196, R197). -/
namespace Sys2Proof.Laws
open Sys2Proof Sys2Proof.Machine

variable {s t u : State}

/-! ### The gate of namespace commands. -/
theorem admits_asSel (opc : Byte) (sel : Nat) (s : State) (e : Sqe) : s.admits (asSel opc sel e) = s.admits e :=
  admits_congr s e (asSel opc sel e) rfl rfl rfl rfl
/-- The entry of a row has the row's selection. -/
theorem d10_asSel (opc : Byte) {sel : Nat} (e : Sqe) (h : sel < 16) : d10 (asSel opc sel e) 3 0 = sel := by
  unfold d10 asSel with10
  rw [bits_setBits _ _ _ _ (by omega) (by omega)]
  exact Nat.mod_eq_of_lt h
/-- An admitted entry of a row runs at once, at its count within the frame. -/
theorem admin_asSel {opc : Byte} {sel : Nat} {e : Sqe} (h : s.admits e = true) (run : State → State) :
    admin (asSel opc sel e) run s = run (atCount e.cnt s) :=
  admin_admits (asSel opc sel e) run s ((admits_asSel opc sel s e).trans h)
/-- The same for a row that takes a structure of the host. -/
theorem admin_asSel_withData {opc : Byte} {sel n : Nat} {e : Sqe} (h : s.admits e = true) (hlen : n ≤ e.dlen) (run : List Byte → State → State) :
    admin (asSel opc sel e) (withData n (asSel opc sel e) run) s = run (fitTo n e.data) (atCount e.cnt s) :=
  (admin_asSel h _).trans (if_neg (not_lt.2 hlen))

/-- Namespace Management and Namespace Attachment end with a change record of their selection (R348). -/
theorem ends_asSel {opc : Byte} {sel : Nat} (e : Sqe) (st : Nat × Nat) (dw0 : Nat) (s : State) (hopc : opc = 0x0D ∨ opc = 0x15) (hsel : sel < 16) :
    ends (asSel opc sel e) st dw0 0 [] s = finishChange (asSel opc sel e) sel st dw0 0 [] s := by
  have hchange : isChange (asSel opc sel e) = true := by
    rcases hopc with rfl | rfl <;> rfl
  have hwhat : whatOf (asSel opc sel e) = sel := by
    rcases hopc with rfl | rfl <;> exact d10_asSel _ e hsel
  rw [ends, if_pos hchange, hwhat]

/-- A command that ends with success from a state whose intake, security state and instant are those at its count leaves its change record and
its completion there. -/
theorem finishChange_recordsOnly {opc : Byte} {sel : Nat} (e : Sqe) (what dw0 : Nat) (hevents : u.events = s.events) (hsec : u.sec = s.sec)
    (htime : u.time = { s.time with count := e.cnt }) :
    s.recordsOnly (finishChange (asSel opc sel e) what (0, 0) dw0 0 [] u) e opc.toNat what dw0 := by
  refine ⟨⟨_, by simp only [finishChange, change, updEvents, updSec, hevents]; rfl, rfl, rfl, ?_, ?_, ?_, ?_⟩, ?_, ?_, htime⟩
  · exact (congrArg TimeSt.fc htime :)
  · exact (congrArg TimeSt.ep htime :)
  · exact (congrArg TimeSt.count htime :)
  · simp only [mkRec, hsec]; rfl
  · simp only [finishChange, change, updEvents, updSec, hevents]
  · simp only [finishChange, change, updEvents, updSec, hsec]; rfl

/-! ### A namespace is created (R146, R165). -/
/-- The namespace that a create with an identify structure d and a profile makes. -/
def madeNs (s : State) (e : Sqe) (d : List Byte) (prof : Profile) : Ns :=
  { used := true, zoned := d11 e 31 24 == 2, profile := prof, group := pickGroup s (fld d 92 4), nsze := fld d 0 8, fmt1 := bits (fld d 26 1) 3 0 == 1,
    pit := bits (fld d 29 1) 2 0, salt := s.drawn, resv := if d11 e 31 24 = 2 then 0 else reservation prof (fld d 0 8) }
/-- The state with the namespace in the table, its salt drawn. -/
def withMadeNs (id : Nat) (n : Ns) (s : State) : State := updNs id (fun _ => n) { s with drawn := s.drawn + 1 }

/-- A frond that holds enough die-blocks has no deficit (R145). -/
theorem backingDeficit_of_stock {f : Nat} (h : stockDemand s ≤ memberStock s f) : backingDeficit f s = s := by
  unfold backingDeficit
  exact if_pos h

/-- What a create must meet (R146, R160, R165). -/
structure Creatable (s : State) (e : Sqe) (d : List Byte) (prof : Profile) : Prop where
  profile : fld d 3072 1 = 0 ∧ prof = .s14 ∨ fld d 3072 1 = 1 ∧ prof = .l12 ∨ fld d 3072 1 = 2 ∧ prof = .s15
  size : 1 ≤ fld d 0 8 ∧ fld d 0 8 ≤ 2 ^ 40
  capacity : fld d 8 8 = fld d 0 8
  format : formatOk (bits (fld d 26 1) 3 0) (bits (fld d 26 1) 4 4) (bits (fld d 29 1) 2 0) = true
  group : fld d 92 4 ≤ 2
  room : d11 e 31 24 = 2 ∧ fld d 0 8 % 1048576 = 0 ∨
    d11 e 31 24 = 0 ∧ (s.nss.foldl (fun a n => if n.2.used && !n.2.zoned then a + n.2.nsze else a) 0) + fld d 0 8 ≤ 2 ^ 33 ∧
      reservation prof (fld d 0 8) ≤ freeSlots s ∧ activeCount s + 2 ≤ 16384

theorem nsCreate_eq {e : Sqe} {d : List Byte} {id : Nat} {prof : Profile} (h : Creatable s e d prof) (hid : freeNsid s = some id) :
    nsCreate e d s = (List.range 16).foldl (fun s f => backingDeficit f s) (ends e (0, 0) id 0 [] (withMadeNs id (madeNs s e d prof) s)) := by
  obtain ⟨hprof, ⟨hpos, hmax⟩, hcap, hfmt, hgroup, hroom⟩ := h
  have hknown : fld d 3072 1 ≤ 2 := by omega
  unfold nsCreate
  extract_lets nsze csi fmt pit ana zoned profile r conv
  have hprofile : profile = prof := by
    rcases hprof with ⟨h, rfl⟩ | ⟨h, rfl⟩ | ⟨h, rfl⟩ <;> simp only [profile, h]
  have hresv : r = if csi = 2 then 0 else reservation prof nsze := by
    simp only [r, zoned, hprofile, beq_iff_eq]
  have hroom : ¬ (csi ≠ 0 ∧ csi ≠ 2) ∧ ¬ (zoned = true ∧ nsze % 1048576 ≠ 0) ∧ ¬ ((!zoned) = true ∧ 2 ^ 33 < conv + nsze) ∧
      ¬ freeSlots s < r ∧ ¬ ((!zoned) = true ∧ 16384 < activeCount s + 2) := by
    have hcsi : zoned = (csi == 2) := rfl
    rcases hroom with ⟨(hzns : csi = 2), hzones⟩ | ⟨(hconv : csi = 0), htotal, hslots, hactive⟩
    · simpa [hresv, hcsi, hzns] using hzones
    · have htotal : conv + nsze ≤ 2 ^ 33 := htotal
      simp only [hresv, hcsi, hconv]
      exact ⟨by decide, by simp, fun h => by omega, by simpa using hslots, fun h => by omega⟩
  obtain ⟨hcsi, hzones, htotal, hslots, hactive⟩ := hroom
  have hfields : ¬ (2 < fld d 3072 1 ∨ nsze = 0 ∨ 2 ^ 40 < nsze ∨ zoned = true ∧ nsze % 1048576 ≠ 0) := by
    simp only [not_or]
    exact ⟨by omega, by omega, by omega, hzones⟩
  have hformat : ¬ (!formatOk fmt (bits (fld d 26 1) 4 4) pit) = true := by simp [fmt, pit, hfmt]
  rw [if_neg hcsi, if_neg hfields, if_neg (not_not.2 hcap), if_neg hformat, if_neg (by omega), if_neg htotal, if_neg hslots, if_neg hactive, hid]
  dsimp only [drawKey]
  rw [hresv, hprofile]
  rfl

/-- A create that leaves every frond the die-blocks it needs puts its namespace into the table, and ends. -/
theorem nsCreate_of_stock {e : Sqe} {d : List Byte} {id : Nat} {prof : Profile} (h : Creatable s e d prof) (hid : freeNsid s = some id)
    (hstock : ∀ f < 16, stockDemand (withMadeNs id (madeNs s e d prof) s) ≤ memberStock (withMadeNs id (madeNs s e d prof) s) f) :
    nsCreate (asSel 0x0D 0 e) d s = finishChange (asSel 0x0D 0 e) 0 (0, 0) id 0 [] (withMadeNs id (madeNs s e d prof) s) := by
  have hx : Creatable s (asSel 0x0D 0 e) d prof := ⟨h.profile, h.size, h.capacity, h.format, h.group, h.room⟩
  rw [nsCreate_eq hx hid, ends_asSel e _ _ _ (.inl rfl) (by decide)]
  exact foldl_fixed_of_mem fun f hf => backingDeficit_of_stock (hstock f (List.mem_range.1 hf))

theorem namespaceCreate_takes_effect {e : Sqe} {id : Nat} {prof : Profile} (hs : s.admits e = true) (hlen : 4096 ≤ e.dlen)
    (h : Creatable s e (fitTo 4096 e.data) prof) (hid : freeNsid s = some id)
    (hstock : ∀ f < 16, stockDemand { s with nss := tupd {} s.nss id fun _ => madeNs s e (fitTo 4096 e.data) prof } ≤ memberStock s f) :
    ∃ t, exec (.namespaceCreate e) s = .next t ∧ s.recordsOnly t e 0x0D 0 id ∧ t.nss = tupd {} s.nss id (fun _ => madeNs s e (fitTo 4096 e.data) prof) ∧
      { t with events := s.events, sec := s.sec, time := s.time, nss := s.nss, drawn := s.drawn } = s := by
  have hcounted : Creatable (atCount e.cnt s) e (fitTo 4096 e.data) prof := ⟨h.profile, h.size, h.capacity, h.format, h.group, h.room⟩
  refine ⟨_, congrArg Host.Outcome.next ((admin_asSel_withData hs hlen _).trans (nsCreate_of_stock hcounted hid hstock)), ?_, rfl, rfl⟩
  exact finishChange_recordsOnly e _ _ rfl rfl rfl

/-! ### Namespaces are attached and detached (R165, R196). -/
/-- The controllers of a list are told that a namespace has changed. -/
def listChanged (nsid : Nat) (ps : List Port) (s : State) : State := ps.foldl (fun s p => nsChanged p nsid s) s
theorem tells_listChanged (nsid : Nat) (ps : List Port) (s : State) : Tells s (listChanged nsid ps s) :=
  List.foldlRecOn (motive := Tells s) ps _ (.refl s) fun u hu p _ => (tells_nsChanged p nsid u).after hu

/-- The namespace bound to a slice and attached to more controllers, or no longer attached to some. -/
def boundTo (sl : Nat) (ps : List Port) (x : Ns) : Ns := { x with slice := some sl, att := ps.foldl (fun a p => pset a (cardOf p) true) x.att }
def freedFrom (ps : List Port) (x : Ns) : Ns := { x with att := ps.foldl (fun a p => pset a (cardOf p) false) x.att }
/-- The first binding to a slice changes what a saved image of it holds (R212). -/
def sliceTouched (first : Bool) (sl : Nat) (s : State) : State := if first then updSlice sl (fun x => { x with saveFresh := false }) s else s

theorem sliceAt_sliceTouched_ne {first : Bool} {sl k : Nat} (s : State) (h : k ≠ sl) : sliceAt (sliceTouched first sl s) k = sliceAt s k := by
  cases first
  · rfl
  · exact tget_tput_ne _ _ _ _ _ h

/-- What an attach must meet (R165, R196). -/
structure Attachable (s : State) (nsid sl : Nat) (ps : List Port) : Prop where
  live : liveNs s nsid = true
  state : (sliceAt s sl).st = 1 ∨ (sliceAt s sl).st = 2 ∨ (sliceAt s sl).st = 3
  binding : (nsAt s nsid).slice = none ∨ (nsAt s nsid).slice = some sl
  free : ∀ p ∈ ps, pget (nsAt s nsid).att (cardOf p) = false

theorem nsAttach_eq {e : Sqe} {d : List Byte} {ps : List Port} (h : Attachable s e.nsid (d12 e 9 0) ps) (hlist : ctrlsOf d = some ps) :
    nsAttach e d s = done e (listChanged e.nsid ps
      (sliceTouched (nsAt s e.nsid).slice.isNone (d12 e 9 0) (updNs e.nsid (boundTo (d12 e 9 0) ps) s))) := by
  obtain ⟨hlive, hstate, hslice, hfree⟩ := h
  have hbound : ¬ (((nsAt s e.nsid).slice.isSome = true ∧ (nsAt s e.nsid).slice ≠ some (d12 e 9 0)) ∨ ps.any (attachedTo (nsAt s e.nsid)) = true) := by
    rintro (⟨hsome, hother⟩ | hany)
    · rcases hslice with h | h
      · simp [h] at hsome
      · exact hother h
    · obtain ⟨p, hp, hatt⟩ := List.any_eq_true.1 hany
      simp [attachedTo, hfree p hp] at hatt
  unfold nsAttach
  dsimp only
  rw [if_neg (by simp [hlive]), hlist]
  dsimp only
  rw [if_neg hbound, if_neg (by omega)]
  rfl
theorem nsDetach_eq {e : Sqe} {d : List Byte} {ps : List Port} (hlive : liveNs s e.nsid = true) (hlist : ctrlsOf d = some ps)
    (hatt : ∀ p ∈ ps, pget (nsAt s e.nsid).att (cardOf p) = true) :
    nsDetach e d s = done e (updNs e.nsid (freedFrom ps) (listChanged e.nsid ps s)) := by
  have hused : (nsAt s e.nsid).used = true := (Bool.and_eq_true_iff.1 hlive).1
  have hall : ¬ (ps.any fun p => !attachedTo (nsAt s e.nsid) p) = true := by
    simp only [List.any_eq_true, not_exists, not_and]
    exact fun p hp => by simp [attachedTo, hused, hatt p hp]
  unfold nsDetach
  dsimp only
  rw [if_neg (by simp [hlive]), hlist]
  dsimp only
  rw [if_neg hall]
  rfl

/-- What the binding and the attachment of a namespace leave of the module. -/
def besideBinding (s : State) := (s.zones, s.map, s.cmds, s.sqs, s.cqs, s.dies)

theorem finishChange_binding (e : Sqe) (what : Nat) (st : Nat × Nat) (dw0 dw1 : Nat) (data : List Byte) (s : State) :
    (finishChange e what st dw0 dw1 data s).nss = s.nss ∧ (finishChange e what st dw0 dw1 data s).slices = s.slices ∧
      besideBinding (finishChange e what st dw0 dw1 data s) = besideBinding s := ⟨rfl, rfl, rfl⟩
theorem binding_of_tells (h : Tells s t) : t.nss = s.nss ∧ t.slices = s.slices ∧ besideBinding t = besideBinding s :=
  ⟨(congrArg State.nss h.eq :), (congrArg State.slices h.eq :), (congrArg besideBinding h.eq :)⟩

theorem sliceTouched_binding (first : Bool) (sl : Nat) (s : State) :
    (sliceTouched first sl s).nss = s.nss ∧ besideBinding (sliceTouched first sl s) = besideBinding s := by
  cases first <;> exact ⟨rfl, rfl⟩

theorem namespaceAttach_takes_effect {e : Sqe} {ps : List Port} (hs : s.admits e = true) (hlen : 4096 ≤ e.dlen)
    (h : Attachable s e.nsid (d12 e 9 0) ps) (hlist : ctrlsOf (fitTo 4096 e.data) = some ps) :
    ∃ t, exec (.namespaceAttach e) s = .next t ∧ t.nss = tupd {} s.nss e.nsid (boundTo (d12 e 9 0) ps) ∧
      (∀ k, k ≠ d12 e 9 0 → sliceAt t k = sliceAt s k) ∧ besideBinding t = besideBinding s := by
  have hcounted : Attachable (atCount e.cnt s) e.nsid (d12 e 9 0) ps := ⟨h.live, h.state, h.binding, h.free⟩
  have hattach := nsAttach_eq (e := asSel 0x15 0 e) hcounted hlist
  rw [done, ends_asSel e _ _ _ (.inr rfl) (by decide)] at hattach
  have hexec : exec (.namespaceAttach e) s = .next _ := congrArg Host.Outcome.next ((admin_asSel_withData hs hlen _).trans hattach)
  obtain ⟨hnss, hslices, hbeside⟩ := finishChange_binding (asSel 0x15 0 e) 0 (0, 0) 0 0 [] _
  obtain ⟨hnss', hslices', hbeside'⟩ := binding_of_tells (tells_listChanged (asSel 0x15 0 e).nsid ps _)
  refine ⟨_, hexec, hnss.trans (hnss'.trans ?_), fun k hk => (congrArg (fun l => tget ({} : Slice) l k) (hslices.trans hslices')).trans ?_,
    hbeside.trans (hbeside'.trans ?_)⟩
  · exact (sliceTouched_binding _ _ _).1
  · exact sliceAt_sliceTouched_ne _ hk
  · exact (sliceTouched_binding _ _ _).2
theorem namespaceDetach_takes_effect {e : Sqe} {ps : List Port} (hs : s.admits e = true) (hlen : 4096 ≤ e.dlen) (hlive : liveNs s e.nsid = true)
    (hlist : ctrlsOf (fitTo 4096 e.data) = some ps) (hatt : ∀ p ∈ ps, pget (nsAt s e.nsid).att (cardOf p) = true) :
    ∃ t, exec (.namespaceDetach e) s = .next t ∧ t.nss = tupd {} s.nss e.nsid (freedFrom ps) ∧ t.slices = s.slices ∧
      besideBinding t = besideBinding s := by
  have hdetach := nsDetach_eq (s := atCount e.cnt s) (e := asSel 0x15 1 e) hlive hlist hatt
  rw [done, ends_asSel e _ _ _ (.inr rfl) (by decide)] at hdetach
  have hexec : exec (.namespaceDetach e) s = .next _ := congrArg Host.Outcome.next ((admin_asSel_withData hs hlen _).trans hdetach)
  obtain ⟨hnss, hslices, hbeside⟩ := finishChange_binding (asSel 0x15 1 e) 1 (0, 0) 0 0 [] _
  obtain ⟨hnss', hslices', hbeside'⟩ := binding_of_tells (tells_listChanged e.nsid ps (atCount e.cnt s))
  exact ⟨_, hexec, hnss.trans (congrArg (fun l => tupd ({} : Ns) l e.nsid (freedFrom ps)) hnss'), hslices.trans hslices', hbeside.trans hbeside'⟩

/-! ### A namespace is deleted (R165). -/
/-- A namespace has gone and its delete waits for its change record to be written: no command and no namespace is left. -/
structure Deleted (p : Port) (cid : Nat) (s : State) : Prop where
  nss : s.nss = []
  cmds : s.cmds = []
  record : ∃ r q, (r, some q) ∈ s.events.changeQ ∧ q.port = p ∧ q.cid = cid ∧ q.sc = 0

theorem Deleted.updSlice {p : Port} {cid : Nat} (h : Deleted p cid s) (k : Nat) (g : Slice → Slice) : Deleted p cid (updSlice k g s) :=
  ⟨h.nss, h.cmds, h.record⟩
theorem Deleted.of_answer {p : Port} {cid : Nat} (h : Deleted p cid s) (q : Port) (n opc : Nat) :
    Deleted p cid (ok { port := q, cid := n, opc := BitVec.ofNat 8 opc } s) := by
  unfold ok finish post
  split
  · exact h
  · exact ⟨h.nss, h.cmds, h.record⟩
theorem deleted_finishChange {p : Port} {cid nsid : Nat} (hcmds : s.cmds = []) (hnss : tdel s.nss nsid = []) :
    Deleted p cid (finishChange { port := p, cid := cid, opc := 0x0D, nsid := nsid } 1 (0, 0) 0 0 [] (removeNs nsid s)) where
  nss := (congrArg Prod.snd (cmdsAndNss_removeNs nsid s)).trans hnss
  cmds := (congrArg Prod.fst (cmdsAndNss_removeNs nsid s)).trans hcmds
  record := ⟨_, _, List.mem_append_right _ (List.mem_singleton.2 rfl), rfl, rfl, rfl⟩

/-- A namespace marked with the command that deletes it. -/
def markedFor (p : Port) (cid : Nat) (x : Ns) : Ns := { x with deleting := some (p, cid) }
/-- With no command fetched, the only namespace goes as soon as it is marked. -/
theorem deleted_wake {p : Port} {cid nsid : Nat} {n : Ns} (hcmds : s.cmds = []) (hnss : s.nss = [(nsid, n)]) (hmark : n.deleting = some (p, cid))
    (hcid : cid ≠ 65537) : Deleted p cid (wake s) := by
  unfold wake
  simp only [hcmds, List.filter_nil, List.foldl_nil, hnss, List.foldl_cons, hmark, List.any_nil, Bool.false_eq_true, if_false, if_neg hcid]
  have hgone : Deleted p cid (finishChange { port := p, cid := cid, opc := 0x0D, nsid := nsid } 1 (0, 0) 0 0 [] (removeNs nsid s)) :=
    deleted_finishChange hcmds (by simp [hnss, tdel])
  refine List.foldlRecOn (motive := Deleted p cid) _ _ hgone fun u hu x _ => ?_
  split
  · split
    · exact (hu.updSlice x.1 _).of_answer _ _ _
    · exact hu
  · exact hu

theorem namespaceDelete_takes_effect {e : Sqe} {n : Ns} (hs : s.admits e = true) (hone : e.nsid ≠ 0xFFFFFFFF) (hcmds : s.cmds = [])
    (hnss : s.nss = [(e.nsid, n)]) (hused : n.used = true) (hfree : n.deleting = none) :
    ∃ t, exec (.namespaceDelete e) s = .next t ∧ Deleted e.port e.cid t := by
  obtain ⟨-, hbound, -⟩ := admits_facts s e hs
  have hat : nsAt (atCount e.cnt s) e.nsid = n := by simp [nsAt, hnss, tget]
  have hlive : liveNs (atCount e.cnt s) e.nsid = true := by simp [liveNs, hat, hused, hfree]
  have hdelete : nsDelete (asSel 0x0D 1 e) (atCount e.cnt s) =
      wake (updNs e.nsid (markedFor e.port e.cid) (atCount e.cnt s)) :=
    (if_neg hone).trans (if_neg (by rw [show liveNs (atCount e.cnt s) (asSel 0x0D 1 e).nsid = true from hlive]; decide))
  have hmarked : (updNs e.nsid (markedFor e.port e.cid) (atCount e.cnt s)).nss = [(e.nsid, markedFor e.port e.cid n)] := by
    simp [updNs, markedFor, hnss, tupd, tput, tget, tins]
  exact ⟨_, congrArg Host.Outcome.next ((admin_asSel hs _).trans hdelete), deleted_wake hcmds hmarked rfl (by omega)⟩

/-! ### The statement. -/
/-- Settles O13: each command runs at once and comes down to one equation. No frond then lacks die-blocks for a create, attach and detach beside the
table of namespaces only tell the hosts, and a delete finds nothing to wait for. -/
theorem namespaceCommandsTakeEffect : Obligations.NamespaceCommandsTakeEffect := by
  refine ⟨?create, ?attach, ?detach, ?delete⟩
  case create =>
    rintro s e d id prof hs hlen rfl hprof hpos hmax hcap hfmt hgroup hroom hid nss hstock
    exact namespaceCreate_takes_effect hs hlen ⟨hprof, ⟨hpos, hmax⟩, hcap, hfmt, hgroup, hroom⟩ hid hstock
  case attach =>
    intro s e ps hs hlen hlive hlist hstate hslice hfree
    obtain ⟨t, ht, hnss, hslices, hbeside⟩ := namespaceAttach_takes_effect hs hlen ⟨hlive, hstate, hslice, hfree⟩ hlist
    exact ⟨t, ht, hnss, hslices, by simpa only [besideBinding, Prod.mk.injEq] using hbeside⟩
  case detach =>
    intro s e ps hs hlen hlive hlist hatt
    obtain ⟨t, ht, hnss, hslices, hbeside⟩ := namespaceDetach_takes_effect hs hlen hlive hlist hatt
    exact ⟨t, ht, hnss, hslices, by simpa only [besideBinding, Prod.mk.injEq] using hbeside⟩
  case delete =>
    intro s e n hs hone hcmds hnss hused hfree
    obtain ⟨t, ht, hgone⟩ := namespaceDelete_takes_effect hs hone hcmds hnss hused hfree
    exact ⟨t, ht, hgone.nss, hgone.cmds, hgone.record⟩

end Sys2Proof.Laws
end

