-- ==== Sys2Proof/Proofs/AdminRows.lean ====
section
/-! SUPPORT. The rows of the admin queues: the gate runs an admitted entry at once, and a command ends with a completion at once or with its change
record (R159, R167, R178, R344, R348). -/
namespace Sys2Proof.Laws
open Sys2Proof Sys2Proof.Machine

variable {s u : State} {e x : Sqe}

/-! ### The gate. -/
/-- Where an entry stands and when it comes: its queue, its identifier, its controller, the kind of its data pointer and its count. -/
def placeOf (e : Sqe) : Nat × Nat × Port × BitVec 2 × Nat := (e.sqid, e.cid, e.port, e.psdt, e.cnt)

/-- An admitted entry runs at once as the row that its entry stands for, at its count within the frame. -/
theorem admin_row (h : s.admits e = true) (run : State → State) (hx : placeOf x = placeOf e := by rfl) : admin x run s = run (atCount e.cnt s) := by
  simp only [placeOf, Prod.mk.injEq] at hx
  obtain ⟨hsqid, hcid, hport, hpsdt, hcnt⟩ := hx
  rw [admin_admits x run s ((admits_congr s e x hsqid hcid hport hpsdt).trans h), hcnt]
/-- A feature that is saveable, or is not to be saved, takes its value (R466). -/
theorem runFeature_row {fid : Nat} {f : Sqe → State → State} (h : s.admits e = true)
    (hsave : (bit (asFeature fid e).cdw10.toNat 31 && !saveable (fidOf (asFeature fid e))) = false) :
    runFeature fid e f s = .next (f (asFeature fid e) (atCount e.cnt s)) :=
  congrArg Host.Outcome.next ((admin_row h _).trans (if_neg (by rw [hsave]; decide)))

/-- The controller of a port takes completions (R174). -/
def takesCqes (s : State) (p : Port) : Prop := (ctrlAt s p).link = true ∧ (ctrlAt s p).rdy = true
theorem takesCqes_of_admits (h : s.admits e = true) : takesCqes s e.port := by
  obtain ⟨-, -, hopen, -⟩ := admits_facts s e h
  simp only [adminOpen, Bool.and_eq_true] at hopen
  exact ⟨hopen.1.1.1.1, hopen.1.1.1.2⟩
@[simp] theorem ctrlAt_atCount (n : Nat) (s : State) (p : Port) : ctrlAt (atCount n s) p = ctrlAt s p := by cases p <;> rfl
theorem takesCqes_counted (h : s.admits e = true) : takesCqes (atCount e.cnt s) e.port := by
  simpa only [takesCqes, ctrlAt_atCount] using takesCqes_of_admits h
theorem takesCqes_of_ctrls {p : Port} (h : takesCqes s p) (hc0 : u.c0 = s.c0 := by rfl) (hc1 : u.c1 = s.c1 := by rfl) : takesCqes u p := by
  cases p
  · exact ⟨(congrArg Ctrl.link hc0).trans h.1, (congrArg Ctrl.rdy hc0).trans h.2⟩
  · exact ⟨(congrArg Ctrl.link hc1).trans h.1, (congrArg Ctrl.rdy hc1).trans h.2⟩
theorem takesCqes_updCtrl (p q : Port) (g : Ctrl → Ctrl) (hlink : ∀ c, (g c).link = c.link := by exact fun _ => rfl)
    (hrdy : ∀ c, (g c).rdy = c.rdy := by exact fun _ => rfl) : takesCqes (updCtrl p g u) q ↔ takesCqes u q := by
  simp only [takesCqes, ctrlAt_updCtrl]
  split
  · rw [hlink, hrdy]
  · rfl

/-! ### The ends of a command. -/
/-- A command that is no configuration change ends with success: its completion is posted (R167). -/
theorem finish_success {dw0 dw1 : Nat} {data : List Byte} (h : s.admits e = true) (hu : takesCqes u e.port)
    (hx : placeOf x = placeOf e := by rfl) :
    finish x 0 0 dw0 dw1 data u = { u with cqes := u.cqes ++ [{ cqeOf e dw0 data with dw1 := dw1 }] } := by
  obtain ⟨hsqid, hcid, -⟩ := admits_facts s e h
  simp only [placeOf, Prod.mk.injEq] at hx
  obtain ⟨hxsqid, hxcid, hxport, -⟩ := hx
  rw [finish, hxsqid, hxcid, hxport, post_admin_ok _ _ _ _ hcid hu.1 hu.2 rfl rfl hsqid]
  rfl
theorem ends_success {dw0 : Nat} {data : List Byte} (h : s.admits e = true) (hkind : isChange x = false) (hu : takesCqes u e.port)
    (hx : placeOf x = placeOf e := by rfl) : ends x (0, 0) dw0 0 data u = { u with cqes := u.cqes ++ [cqeOf e dw0 data] } := by
  rw [ends, hkind]
  exact finish_success h hu hx

/-- A configuration change that ends with success from a state whose intake, security state and instant are those at its count leaves its change
record and its completion there (R348). -/
theorem ends_recordsOnly {dw0 : Nat} (hkind : isChange x = true) (hevents : u.events = s.events) (hsec : u.sec = s.sec)
    (htime : u.time = { s.time with count := e.cnt }) (hx : placeOf x = placeOf e := by rfl) (hnsid : x.nsid = e.nsid := by rfl) :
    s.recordsOnly (ends x (0, 0) dw0 0 [] u) e x.opc.toNat (whatOf x) dw0 := by
  simp only [placeOf, Prod.mk.injEq] at hx
  obtain ⟨hsqid, hcid, hport, -⟩ := hx
  rw [ends, if_pos hkind]
  refine ⟨⟨_, by simp only [finishChange, change, updEvents, updSec, hevents, hsqid, hcid, hport, hnsid]; rfl, rfl, rfl, ?_, ?_, ?_, ?_⟩, ?_, ?_, htime⟩
  · exact (congrArg TimeSt.fc htime :)
  · exact (congrArg TimeSt.ep htime :)
  · exact (congrArg TimeSt.count htime :)
  · simp only [mkRec, hsec]
  · simp only [finishChange, change, updEvents, updSec, hevents]
  · simp only [finishChange, change, updEvents, updSec, hsec, hport, hcid]

/-- What a failed admin completion leaves (R167, R168): the completion with More set, and an Error Information entry of its controller. -/
structure Failed (e : Sqe) (sct sc : Nat) (s t : State) : Prop where
  cqes : t.cqes = s.cqes ++ [{ cqeOf e 0 [] with sct := sct, sc := sc, more := true }]
  entry : ∃ en : ErrEntry, (ctrlAt t e.port).errors = (en :: (ctrlAt s e.port).errors).take 256 ∧ en.cid = e.cid ∧ en.sct = sct ∧ en.sc = sc ∧
    en.count = (ctrlAt s e.port).errCount + 1
  aers : (ctrlAt t e.port).aers = (ctrlAt s e.port).aers
  others : ∀ p, p ≠ e.port → ctrlAt t p = ctrlAt s p
  rest : { t with cqes := s.cqes, c0 := s.c0, c1 := s.c1 } = s

/-- The Error Information entry of a completion that fails (R168). -/
def entryOf (q : Cqe) (lba nsid : Nat) (c : Ctrl) : ErrEntry :=
  { count := c.errCount + 1, sqid := q.sqid, cid := q.cid, sct := q.sct, sc := q.sc,
    loc := q.loc.getD (Config.errorLoc (2 * (c.errCount + 1) + portNo q.port)).toNat, lba := lba, nsid := nsid,
    csi := if q.sct = 7 then q.dw0 + q.dw1 * 2 ^ 32 else 0 }
def logError (en : ErrEntry) (c : Ctrl) : Ctrl := { c with errCount := c.errCount + 1, errors := (en :: c.errors).take 256 }

theorem post_failed {q : Cqe} (lba nsid : Nat) (hcid : q.cid < 65536) (hu : takesCqes u q.port) (hstatus : q.sct ≠ 0 ∨ q.sc ≠ 0) (hsqid : q.sqid = 0) :
    post q lba nsid u =
      { updCtrl q.port (logError (entryOf q lba nsid (ctrlAt u q.port))) u with cqes := u.cqes ++ [{ q with more := true }] } := by
  have htakes : ¬ (65536 ≤ q.cid ∨ (!(ctrlAt u q.port).link) = true ∨ (!(ctrlAt u q.port).rdy) = true) := by
    rw [hu.1, hu.2]
    simp only [Bool.not_true, Bool.false_eq_true, or_false]
    omega
  have hfails : ¬ (q.sct = 0 ∧ q.sc = 0) := by omega
  unfold post
  rw [if_neg htakes, if_neg hfails]
  rcases q with ⟨_ | _, sqid⟩ <;> (change sqid = 0 at hsqid; subst hsqid; rfl)

theorem failed_post {q : Cqe} (lba nsid : Nat) (hcid : e.cid < 65536) (hu : takesCqes u e.port) (hstatus : q.sct ≠ 0 ∨ q.sc ≠ 0) (hsqid : e.sqid = 0)
    (hq : q = { cqeOf e 0 [] with sct := q.sct, sc := q.sc }) : Failed e q.sct q.sc u (post q lba nsid u) := by
  have hport : q.port = e.port := congrArg Cqe.port hq
  have hqcid : q.cid = e.cid := congrArg Cqe.cid hq
  have hpost := post_failed (q := q) lba nsid (by omega) (hport ▸ hu) hstatus ((congrArg Cqe.sqid hq).trans hsqid)
  rw [hport] at hpost
  have hctrl : ∀ p, ctrlAt (post q lba nsid u) p = if p = e.port then logError (entryOf q lba nsid (ctrlAt u e.port)) (ctrlAt u p) else ctrlAt u p := by
    intro p
    rw [hpost]
    exact (by cases p <;> rfl : _ = ctrlAt (updCtrl e.port (logError (entryOf q lba nsid (ctrlAt u e.port))) u) p).trans (ctrlAt_updCtrl _ _ _ _)
  have hown := (hctrl e.port).trans (if_pos rfl)
  refine ⟨?_, ⟨entryOf q lba nsid (ctrlAt u e.port), ?_, hqcid, rfl, rfl, rfl⟩, ?_, fun p hp => (hctrl p).trans (if_neg hp), ?_⟩
  · rw [hpost]
    exact congrArg (fun r : Cqe => u.cqes ++ [{ r with port := e.port, more := true }]) hq
  · rw [hown]
    rfl
  · rw [hown]
    rfl
  · rw [hpost]
    cases e.port <;> rfl

/-- A command that is no configuration change fails. -/
theorem failed_finish {sct sc : Nat} (h : s.admits e = true) (hu : takesCqes u e.port) (hstatus : sct ≠ 0 ∨ sc ≠ 0) (hx : placeOf x = placeOf e := by rfl) :
    Failed e sct sc u (finish x sct sc 0 0 [] u) := by
  obtain ⟨hsqid, hcid, -⟩ := admits_facts s e h
  simp only [placeOf, Prod.mk.injEq] at hx
  obtain ⟨hxsqid, hxcid, hxport, -⟩ := hx
  rw [finish, hxsqid, hxcid, hxport]
  exact failed_post (q := { port := e.port, sqid := e.sqid, cid := e.cid, sct := sct, sc := sc }) 0 x.nsid hcid hu hstatus hsqid rfl
theorem failed_bad {st : Nat × Nat} (h : s.admits e = true) (hkind : isChange x = false) (hu : takesCqes u e.port) (hstatus : st.1 ≠ 0 ∨ st.2 ≠ 0)
    (hx : placeOf x = placeOf e := by rfl) : Failed e st.1 st.2 u (bad x st u) := by
  rw [bad, ends, hkind]
  exact failed_finish h hu hstatus hx

/-! ### Features. -/
/-- A feature is a configuration change if it is one of the vendor's (R344, R348). -/
theorem isChange_asFeature {fid : Nat} (e : Sqe) (h : fid < 256) : isChange (asFeature fid e) = decide (0xC0 ≤ fid ∧ fid ≤ 0xC8) := by
  have hneeds : needsToken (asFeature fid e) = decide (0xC0 ≤ fidOf (asFeature fid e) ∧ fidOf (asFeature fid e) ≤ 0xC8) := rfl
  rw [isChange, hneeds, fidOf_asFeature fid e h]
  exact (Bool.or_false _).trans (Bool.or_false _)
theorem isChange_standard {fid : Nat} (e : Sqe) (h : fid < 0xC0) : isChange (asFeature fid e) = false := by
  rw [isChange_asFeature e (by omega)]
  exact decide_eq_false (by omega)
/-- A structure of the host that lies within the data pointer (R166). -/
theorem withData_of_len {n : Nat} {run : List Byte → State → State} (h : n ≤ x.dlen) : withData n x run u = run (fitTo n x.data) u := if_neg (not_lt.2 h)

end Sys2Proof.Laws
end

