-- ==== Sys2Proof/Proofs/LogPages.lean ====
section
/-! OBLIGATIONS. O6, O7, O8 and O9: the log pages, Identify and Get Features, and the rows of what the module does not support (R158, R162, R163,
R164, R168, R178, R466). -/
namespace Sys2Proof.Laws
open Sys2Proof Sys2Proof.Machine

variable {s u : State} {e x : Sqe}

/-! ### Byte strings of a length. -/
@[simp] theorem length_slice' (l : List Byte) (off n : Nat) : (slice' l off n).length = n := by
  simp only [slice', List.length_append, List.length_replicate, List.length_take, List.length_drop]
  omega
@[simp] theorem length_fitTo (l : List Byte) (n : Nat) : (fitTo n l).length = n := length_slice' l 0 n
@[simp] theorem length_zeros (n : Nat) : (zeros n).length = n := List.length_replicate
/-- A window of a string, zeros past its end. -/
theorem getElem?_slice' (l : List Byte) (off : Nat) {n i : Nat} (h : i < n) : (slice' l off n)[i]? = some (l.getD (off + i) 0) := by
  have hlength : ((l.drop off).take n).length = min n (l.length - off) := by simp
  simp only [slice', List.getD_eq_getElem?_getD]
  by_cases hin : off + i < l.length
  · rw [List.getElem?_append_left (by omega), List.getElem?_take_of_lt h, List.getElem?_drop, List.getElem?_eq_getElem hin]
    rfl
  · rw [List.getElem?_append_right (by omega), List.getElem?_replicate_of_lt (by omega), List.getElem?_eq_none (by omega)]
    rfl

/-! ### Get Log Page (R164, R382). -/
/-- Where the window of a request begins: the module recorder's handle is no offset. -/
def windowStart (page off : Nat) : Nat := if page = 0xC0 then 0 else off

theorem logWindow_of_page {n off : Nat} {d : List Byte} (hpage : logPage u x n = .ok d) (hin : d10 x 7 0 = 0xC0 ∨ off < d.length) :
    logWindow u x n off = .ok (slice' d (windowStart (d10 x 7 0) off) n) := by
  unfold logWindow windowStart
  rw [hpage]
  by_cases hrec : d10 x 7 0 = 0xC0
  · simp only [if_pos hrec]
    rfl
  · simp only [if_neg hrec, if_neg (not_le.2 (hin.resolve_left hrec))]

/-- An admitted Get Log Page answers its window, and what it has read is armed again. -/
theorem getLog_of_page {d : List Byte} (h : s.admits e = true) (hu : takesCqes u e.port) (hlen : logBytes x ≤ e.dlen)
    (hpage : logPage u x (logBytes x) = .ok d) (hin : d10 x 7 0 = 0xC0 ∨ logOffset x < d.length) (hdlen : x.dlen = e.dlen := by rfl)
    (hx : placeOf x = placeOf e := by rfl) :
    getLog x u = logRead x { u with cqes := u.cqes ++ [cqeOf e 0 (slice' d (windowStart (d10 x 7 0) (logOffset x)) (logBytes x))] } := by
  unfold getLog
  rw [logWindow_of_page hpage hin]
  exact (if_neg (by omega)).trans (congrArg (logRead x) (finish_success h hu hx))

/-- A page without a list of changes is armed again by a read with RAE clear (R107). -/
theorem logRead_eq {page : Nat} (hpage : d10 x 7 0 = page) (hns : page ≠ 0x04) (hzones : page ≠ 0xBF) :
    logRead x u = { u with events := if d10 x 15 15 = 1 then u.events else { u.events with posted := u.events.posted.filter (· ≠ page) } } := by
  unfold logRead
  dsimp only
  rw [hpage, if_neg hns, if_neg hzones]
  split <;> rfl

/-- The row of one page. -/
theorem logRow {page : Nat} {d : List Byte} (hpage : page < 256) (hns : page ≠ 0x04) (hzones : page ≠ 0xBF) (h : s.admits e = true)
    (hlen : logBytes (asLog page e) ≤ e.dlen) (hd : logPage (atCount e.cnt s) (asLog page e) (logBytes (asLog page e)) = .ok d)
    (hin : page = 0xC0 ∨ logOffset e < d.length) :
    admin (asLog page e) (getLog (asLog page e)) s = { atCount e.cnt s with
      cqes := s.cqes ++ [cqeOf e 0 (slice' d (windowStart page (logOffset e)) (logBytes (asLog page e)))]
      events := if d10 (asLog page e) 15 15 = 1 then s.events else { s.events with posted := s.events.posted.filter (· ≠ page) } } := by
  have hnamed := page_asLog page e hpage
  rw [admin_row h, getLog_of_page h (takesCqes_counted h) hlen hd (by rwa [hnamed]), logRead_eq hnamed hns hzones, hnamed]
  rfl

/-- Settles O6: the rows differ in their page alone, and each leaves what `logRow` says. -/
theorem getLogAnswersRequestedWindow : Obligations.GetLogAnswersRequestedWindow := by
  intro r hr s e d h hlen hd hin
  have hrow : r.2 < 256 ∧ r.2 ≠ 0x04 ∧ r.2 ≠ 0xBF ∧ exec (r.1 e) s = .next (admin (asLog r.2 e) (getLog (asLog r.2 e)) s) := by
    simp only [List.mem_cons, List.not_mem_nil, or_false] at hr
    rcases hr with rfl | rfl | rfl | rfl | rfl | rfl | rfl | rfl | rfl | rfl | rfl | rfl | rfl | rfl | rfl | rfl <;>
      exact ⟨by decide, by decide, by decide, rfl⟩
  obtain ⟨hpage, hns, hzones, hexec⟩ := hrow
  refine ⟨_, length_slice' _ _ _, fun i hi => ?_, hexec.trans (congrArg Host.Outcome.next (logRow hpage hns hzones h hlen hd hin))⟩
  rw [getElem?_slice' _ _ hi, windowStart]
  split
  · rw [Nat.zero_add]
  · rfl

/-- What a read of a page leaves beside the page's event: the lists of what has changed of namespaces and zones (R164). -/
theorem logRead_lists (u : State) (x : Sqe) :
    (d10 x 7 0 = 0x04 → d10 x 15 15 = 0 → (ctrlAt (logRead x u) x.port).changedNs = []) ∧
      (d10 x 7 0 = 0xBF → d10 x 15 15 = 0 → ∀ z ∈ (ctrlAt (logRead x u) x.port).changedZones, z.1 ≠ x.nsid) ∧
      { logRead x u with c0 := u.c0, c1 := u.c1, events := u.events } = u := by
  refine ⟨fun hpage hrae => ?_, fun hpage hrae z hz => ?_, ?_⟩
  · unfold logRead
    dsimp only
    rw [hrae, hpage, if_neg (by decide), if_pos rfl, ctrlAt_updCtrl, if_pos rfl]
  · unfold logRead at hz
    dsimp only at hz
    rw [hrae, hpage, if_neg (by decide), if_neg (by decide), if_pos rfl, ctrlAt_updCtrl, if_pos rfl] at hz
    simpa using (List.mem_filter.1 hz).2
  · unfold logRead
    dsimp only
    split
    · rfl
    · split
      · cases x.port <;> rfl
      · split
        · cases x.port <;> rfl
        · rfl

/-- Settles O7: the row's pages answer as every page does, and the read clears the list that it names. -/
theorem standardLogPagesAnswer : Obligations.StandardLogPagesAnswer := by
  intro s e d h hpage hlen hd hin
  have hexec : exec (.getLogStandard e) s = .next (getLog (asAdmin 0x02 e) (atCount e.cnt s)) :=
    congrArg Host.Outcome.next ((if_pos (List.contains_iff_mem.2 hpage)).trans (admin_row h _))
  have hstart : windowStart (d10 (asAdmin 0x02 e) 7 0) (logOffset e) = logOffset e :=
    if_neg fun hrec => by simp [show d10 e 7 0 = 0xC0 from hrec] at hpage
  have hanswer := getLog_of_page (x := asAdmin 0x02 e) (u := atCount e.cnt s) h (takesCqes_counted h) hlen hd (.inr hin)
  rw [show logOffset (asAdmin 0x02 e) = logOffset e from rfl, hstart] at hanswer
  obtain ⟨hns, hzones, hrest⟩ := logRead_lists { atCount e.cnt s with
    cqes := s.cqes ++ [cqeOf e 0 (slice' d (logOffset e) (logBytes e))] } (asAdmin 0x02 e)
  exact ⟨_, hexec.trans (congrArg Host.Outcome.next hanswer), (congrArg State.cqes hrest :), hns, hzones,
    congrArg (fun v : State => { v with cqes := s.cqes, time := s.time }) hrest⟩

/-! ### Identify (R158, R162). -/
/-- An answer is a status, or data of n bytes. -/
def Yields (n : Nat) (r : Except (Nat × Nat) (List Byte)) : Prop := ∀ d, r = .ok d → d.length = n
@[simp] theorem yields_ok (n : Nat) (d : List Byte) : Yields n (.ok d) ↔ d.length = n := by simp [Yields]
@[simp] theorem yields_error (n : Nat) (st : Nat × Nat) : Yields n (.error st) := by simp [Yields]
@[simp] theorem yields_ite (n : Nat) (p : Prop) [Decidable p] (a b : Except (Nat × Nat) (List Byte)) :
    Yields n (if p then a else b) ↔ (p → Yields n a) ∧ (¬ p → Yields n b) := by split <;> simp [*]
@[simp] theorem length_layout (n : Nat) (l : List (Nat × List Byte)) : (layout n l).length = n := length_fitTo _ _

theorem yields_identifyData (u : State) (x : Sqe) : Yields 4096 (identifyData u x) := by
  have hcommon : idCommon.length = 4096 := length_layout _ _
  have hzoned : idZoned.length = 4096 := length_layout _ _
  have hnvm : idNvmNs.length = 4096 := length_layout _ _
  unfold identifyData
  dsimp only
  split <;> simp only [yields_ok, yields_error, yields_ite, apply_ite List.length, idNamespace, idController, idDescriptors, nsidList, ctrlList, length_layout,
    length_fitTo, length_zeros, hcommon, hzoned, hnvm, ite_self, implies_true, and_self]

/-- An admitted Identify answers its structure (R158, R162). -/
theorem identify_row {d : List Byte} (h : s.admits e = true) (hd : identifyData (atCount e.cnt s) (asAdmin 0x06 e) = .ok d) (hlen : 4096 ≤ e.dlen) :
    exec (.identify e) s = .next { atCount e.cnt s with cqes := s.cqes ++ [cqeOf e 0 d] } := by
  have hanswer : identify (asAdmin 0x06 e) (atCount e.cnt s) = okData (asAdmin 0x06 e) d (atCount e.cnt s) := by
    unfold identify
    rw [hd]
    exact if_neg (not_lt.2 hlen)
  exact congrArg Host.Outcome.next ((admin_row h _).trans (hanswer.trans (finish_success h (takesCqes_counted h))))

/-! ### Get Features (R163, R466). -/
/-- What an admitted Get Features answers, by its selection: the value of the feature, its default, or what can be done with it. -/
theorem getFeatures_row {dw0 : Nat} {d : List Byte} (h : s.admits e = true)
    (hanswer : getFeatures (asAdmin 0x0A e) (atCount e.cnt s) = finish (asAdmin 0x0A e) 0 0 dw0 0 d (atCount e.cnt s)) :
    exec (.getFeatures e) s = .next { atCount e.cnt s with cqes := s.cqes ++ [cqeOf e dw0 d] } :=
  congrArg Host.Outcome.next ((admin_row h _).trans (hanswer.trans (finish_success h (takesCqes_counted h))))

/-- A selection that asks for a value answers it, where the data pointer is long enough. -/
theorem getFeatures_value {v : Nat} {own : Bool} {dw0 : Nat} {d : List Byte} (hsel : d10 x 10 8 = v)
    (hv : v = 0 ∧ own = true ∨ v = 1 ∧ own = false ∨ v = 2 ∧ own = saveable (fidOf x)) (hlen : d.length ≤ x.dlen)
    (hvalue : featureValue u x own = some (dw0, d)) : getFeatures x u = finish x 0 0 dw0 0 d u := by
  unfold getFeatures
  rw [hsel]
  rcases hv with ⟨rfl, rfl⟩ | ⟨rfl, rfl⟩ | ⟨rfl, rfl⟩ <;> simp only [hvalue, if_neg (not_lt.2 hlen)]

/-- Settles O8: both commands answer from the state as it stands, and post their completion alone. -/
theorem identifyAndGetFeaturesAnswer : Obligations.IdentifyAndGetFeaturesAnswer := by
  refine ⟨fun s e d h hd hlen => ⟨yields_identifyData _ _ d hd, identify_row h hd hlen⟩, fun s e dw0 d h hlen hvalue => getFeatures_row h ?_⟩
  rcases hvalue with ⟨hsel, hvalue⟩ | ⟨hsel, hvalue⟩ | ⟨hsel, hsave, hvalue⟩ | ⟨hsel, hfid, rfl, rfl⟩
  · exact getFeatures_value hsel (.inl ⟨rfl, rfl⟩) hlen hvalue
  · exact getFeatures_value hsel (.inr (.inl ⟨rfl, rfl⟩)) hlen hvalue
  · exact getFeatures_value hsel (.inr (.inr ⟨rfl, hsave.symm⟩)) hlen hvalue
  · unfold getFeatures
    rw [show d10 (asAdmin 0x0A e) 10 8 = 3 from hsel]
    refine (if_pos (List.contains_iff_mem.2 hfid)).trans ?_
    rw [show saveable (fidOf (asAdmin 0x0A e)) = saveable (fidOf e) from rfl]
    cases saveable (fidOf e) <;> rfl

/-! ### What the module does not support (R162, R163, R164). -/
theorem invalidLogPage_row (h : s.admits e = true) (hpage : d10 e 7 0 ∉ logPages) :
    exec (.invalidLogPage e) s = .next (finish (asAdmin 0x02 e) 1 0x09 0 0 [] (atCount e.cnt s)) := by
  have hnone : logPage (atCount e.cnt s) (asAdmin 0x02 e) (logBytes e) = .error (1, 0x09, 0) := by
    unfold logPage
    rw [show d10 (asAdmin 0x02 e) 7 0 = d10 e 7 0 from rfl]
    split
    pick_goal -1
    · rfl
    all_goals exact absurd (by simp only [*]; decide) hpage
  have hrow : exec (.invalidLogPage e) s = .next (getLog (asAdmin 0x02 e) (atCount e.cnt s)) :=
    congrArg Host.Outcome.next ((if_neg (by simpa using hpage)).trans (admin_row h _))
  rw [hrow]
  unfold getLog logWindow
  rw [show logBytes (asAdmin 0x02 e) = logBytes e from rfl, hnone]
  rfl
/-- An opcode outside those of the module is no configuration change, and reserves no action. -/
theorem unsupported_opcode (h : e.opc.toNat ∉ adminOpcodes) : isChange e = false ∧ reservedAction e = false := by
  have hother : ∀ n ∈ adminOpcodes, e.opc.toNat ≠ n := fun n hn heq => h (heq ▸ hn)
  have hneeds : needsToken e = false := by
    unfold needsToken
    split
    pick_goal -1
    · rfl
    all_goals exact absurd ‹_› (hother _ (by decide))
  have hopc : ∀ b : Byte, b.toNat ∈ adminOpcodes → (e.opc == b) = false := fun b hb =>
    beq_eq_false_iff_ne.2 fun heq => h (heq ▸ hb)
  constructor
  · rw [isChange, hneeds, hopc 0xDC (by decide), hopc 0xE8 (by decide)]
    rfl
  · unfold reservedAction
    split
    pick_goal -1
    · rfl
    all_goals exact absurd ‹_› (hother _ (by decide))

theorem unsupportedOpcode_row (h : s.admits e = true) (hopc : e.opc.toNat ∉ adminOpcodes) :
    exec (.unsupportedOpcode e) s = .next (finish e 0 0x01 0 0 [] (atCount e.cnt s)) := by
  obtain ⟨hsqid, -⟩ := admits_facts s e h
  obtain ⟨-, hreserved⟩ := unsupported_opcode hopc
  refine congrArg Host.Outcome.next ((if_pos hsqid).trans ((if_neg ?_).trans ((if_neg ?_).trans (admin_row h _))))
  · rw [hreserved]
    decide
  · simpa using hopc

/-- A Set Features that names no vendor feature is no configuration change. -/
theorem isChange_setFeatures (hfid : ¬ (0xC0 ≤ fidOf e ∧ fidOf e ≤ 0xC8)) : isChange (asAdmin 0x09 e) = false := by
  have hneeds : needsToken (asAdmin 0x09 e) = decide (0xC0 ≤ fidOf e ∧ fidOf e ≤ 0xC8) := rfl
  rw [isChange, hneeds, decide_eq_false hfid]
  rfl
theorem setFeaturesUnsupported_row (h : s.admits e = true) (hfid : fidOf e ∉ featureIds) (hcache : fidOf e ≠ 6) :
    exec (.setFeaturesUnsupported e) s = .next (bad (asAdmin 0x09 e) invalidField (atCount e.cnt s)) :=
  congrArg Host.Outcome.next ((if_neg (by simpa using ⟨hfid, hcache⟩)).trans (admin_row h _))

/-- The failure of an admitted command at its count, told of the state before it. -/
theorem Failed.counted {sct sc : Nat} {t : State} (h : Failed e sct sc (atCount e.cnt s) t) :
    t.cqes = s.cqes ++ [{ cqeOf e 0 [] with sct := sct, sc := sc, more := true }] ∧
      (∃ en, (ctrlAt t e.port).errors = (en :: (ctrlAt s e.port).errors).take 256 ∧ en.cid = e.cid ∧ en.sct = sct ∧ en.sc = sc ∧
        en.count = (ctrlAt s e.port).errCount + 1) ∧
      (∀ p, p ≠ e.port → ctrlAt t p = ctrlAt s p) ∧ { t with cqes := s.cqes, c0 := s.c0, c1 := s.c1, time := s.time } = s := by
  obtain ⟨hcqes, hentry, -, hothers, hrest⟩ := h
  simp only [ctrlAt_atCount] at hentry hothers
  exact ⟨hcqes, hentry, hothers, congrArg (fun v : State => { v with time := s.time }) hrest⟩

/-- Settles O9: each row fails as an admitted command that is no configuration change. -/
theorem unsupportedRowsFailWithTheirStatus : Obligations.UnsupportedRowsFailWithTheirStatus := by
  intro s e sct sc c h hc
  have hu := takesCqes_counted h
  rcases hc with ⟨rfl, hpage, rfl, rfl⟩ | ⟨rfl, hopc, rfl, rfl⟩ | ⟨rfl, hsave, rfl, rfl⟩ | ⟨rfl, hfid, hcache, rfl, rfl⟩
  · exact ⟨_, invalidLogPage_row h hpage, (failed_finish h hu (by decide)).counted⟩
  · exact ⟨_, unsupportedOpcode_row h hopc, (failed_finish h hu (by decide)).counted⟩
  · exact ⟨_, runFeature_row h (by rw [hsave]; rfl), (failed_bad h (isChange_asFeature e (by decide)) hu (by decide)).counted⟩
  · have hvendor : ¬ (0xC0 ≤ fidOf e ∧ fidOf e ≤ 0xC8) := fun hin => hfid (by
      have : ∀ n, 0xC0 ≤ n → n ≤ 0xC8 → n ∈ featureIds := by decide
      exact this _ hin.1 hin.2)
    exact ⟨_, setFeaturesUnsupported_row h hfid hcache, (failed_bad h (isChange_setFeatures hvendor) hu (by decide)).counted⟩

end Sys2Proof.Laws
end

