-- ==== Sys2Proof/Proofs/StandardFeatures.lean ====
section
/-! OBLIGATION. O10: the standard features, the power state feature and the deadline miss policy (R57, R159, R163, R376, R408, R412, R466). -/
namespace Sys2Proof.Laws
open Sys2Proof Sys2Proof.Machine

variable {s u : State} {e x : Sqe}

/-! ### Features that are no configuration change. -/
/-- A command that leaves the link and the readiness of its controller ends with success. -/
theorem ends_updCtrl {g : Ctrl → Ctrl} {dw0 : Nat} (h : s.admits e = true) (hkind : isChange x = false)
    (hlink : ∀ c, (g c).link = c.link := by exact fun _ => rfl) (hrdy : ∀ c, (g c).rdy = c.rdy := by exact fun _ => rfl)
    (hx : placeOf x = placeOf e := by rfl) :
    ends x (0, 0) dw0 0 [] (updCtrl e.port g (atCount e.cnt s)) = { updCtrl e.port g (atCount e.cnt s) with cqes := s.cqes ++ [cqeOf e dw0 []] } := by
  rw [ends_success h hkind ((takesCqes_updCtrl _ _ _ hlink hrdy).2 (takesCqes_counted h)) hx,
    show (updCtrl e.port g (atCount e.cnt s)).cqes = s.cqes by simp]

/-- The row of a standard feature whose value is not to be saved. -/
theorem standardFeature_row {fid : Nat} {f : Sqe → State → State} (h : s.admits e = true) (hsave : bit (asFeature fid e).cdw10.toNat 31 = false) :
    runFeature fid e f s = .next (f (asFeature fid e) (atCount e.cnt s)) := runFeature_row h (by rw [hsave]; rfl)

/-- A feature kept by the controller of the port (R163). -/
theorem ctrlFeature_row {fid dw0 : Nat} {f : Sqe → State → State} {g : Ctrl → Ctrl} (h : s.admits e = true)
    (hsave : bit (asFeature fid e).cdw10.toNat 31 = false) (hfid : fid < 0xC0)
    (hf : f (asFeature fid e) (atCount e.cnt s) = ends (asFeature fid e) (0, 0) dw0 0 [] (updCtrl e.port g (atCount e.cnt s)))
    (hlink : ∀ c, (g c).link = c.link := by exact fun _ => rfl) (hrdy : ∀ c, (g c).rdy = c.rdy := by exact fun _ => rfl) :
    runFeature fid e f s = .next { updCtrl e.port g (atCount e.cnt s) with cqes := s.cqes ++ [cqeOf e dw0 []] } := by
  rw [standardFeature_row h hsave, hf, ends_updCtrl h (isChange_standard e hfid) hlink hrdy]

theorem setQueues_eq (hsqs : (u.sqs.any fun q => q.2.used && q.1 / 65536 == portNo x.port) = false)
    (hcqs : (u.cqs.any fun q => q.2.used && q.1 / 65536 == portNo x.port) = false) :
    setQueues x u = ends x (0, 0) (min 8192 (d11 x 15 0 + 1) - 1 + (min 8192 (d11 x 31 16 + 1) - 1) * 65536) 0 []
      (updCtrl x.port (fun c => { c with nsq := min 8192 (d11 x 15 0 + 1), ncq := min 8192 (d11 x 31 16 + 1) }) u) := by
  unfold setQueues
  exact if_neg (by rw [hsqs, hcqs]; decide)

/-- Features with one threshold of the composite temperature set. -/
def withThreshold (under v : Nat) (f : Features) : Features := if under = 0 then { f with tempOver := v } else { f with tempUnder := v }
/-- The threshold is in force at once, and stands in the values that wait for the next frame. -/
def thresholdSet (under v : Nat) (s : State) : State :=
  { s with feat := withThreshold under v s.feat, featNext := s.featNext.map (withThreshold under v) }

theorem setThreshold_row (h : s.admits e = true) (hkind : isChange x = false) (hsensor : d11 x 19 16 = 0 ∨ d11 x 19 16 = 15) (hunder : d11 x 21 20 ≤ 1)
    (hx : placeOf x = placeOf e := by rfl) :
    setThreshold x (atCount e.cnt s) = { thresholdSet (d11 x 21 20) (d11 x 15 0) (atCount e.cnt s) with cqes := s.cqes ++ [cqeOf e 0 []] } := by
  have hset : setThreshold x (atCount e.cnt s) = done x (thresholdSet (d11 x 21 20) (d11 x 15 0) (atCount e.cnt s)) := if_neg (by omega)
  rw [hset, done, ends_success h hkind (takesCqes_of_ctrls (takesCqes_of_admits h)) hx]
  rfl

/-- The wall time is set; a value below the floor opens a new time epoch (R376). -/
def wallSet (ms timeEpoch : Nat) (t : TimeSt) : TimeSt := { t with wall := some (ms, t.fc), timeEpoch := timeEpoch }
/-- Timestamp leaves the wall time and a marker of the recorder, beside its completion (R375, R376). -/
theorem setTimestamp_row (d : List Byte) (h : s.admits e = true) (hkind : isChange x = false) (hx : placeOf x = placeOf e := by rfl) :
    ∃ timeEpoch data, setTimestamp x d (atCount e.cnt s) =
      { marker 3 data (updTime (wallSet (fld d 0 6) timeEpoch) (atCount e.cnt s)) with cqes := s.cqes ++ [cqeOf e 0 []] } :=
  ⟨_, _, ends_success h hkind (takesCqes_of_ctrls (takesCqes_of_admits h)) hx⟩

/-! ### Power Management (R406, R408, R412). -/
theorem setPowerState_same (hrsvd : d11 x 7 5 = 0) (hentry : u.power.entry = none) (hexit : u.power.exit = none) (hnext : u.power.psNext = none)
    (hps : u.power.ps ≤ 2) (hsame : d11 x 4 0 = u.power.ps) : setPowerState x u = done x u := by
  unfold setPowerState
  dsimp only
  rw [if_neg (by omega), hentry, hexit, hnext]
  exact if_pos hsame
theorem setPowerState_move (hrsvd : d11 x 7 5 = 0) (hentry : u.power.entry = none) (hexit : u.power.exit = none) (hnext : u.power.psNext = none)
    (hps : u.power.ps ≤ 2) (hother : d11 x 4 0 ≠ u.power.ps) (htarget : d11 x 4 0 ≤ 2) :
    setPowerState x u = updPower (fun p => { p with psNext := some { target := d11 x 4 0, cmd := keepCmd x } }) u := by
  unfold setPowerState
  dsimp only
  rw [if_neg (by omega), hentry, hexit, hnext]
  exact (if_neg hother).trans ((if_neg (by omega)).trans (if_pos htarget))

/-! ### The deadline miss policy (R57). -/
/-- A slice under a policy; its saved state is stale (R212). -/
def underPolicy (v : Bool) (x : Slice) : Slice := { x with policy := v, saveFresh := false }

theorem missPolicy_row (h : s.admits e = true) (hlow : d11 e 15 10 = 0) (hhigh : d11 e 31 17 = 0) (hslice : (sliceAt s (d11 e 9 0)).st ≠ 0) :
    ∃ t, exec (.setFeaturesDeadlineMissPolicy e) s = .next t ∧ s.recordsOnly t e 0x09 0xC7 0 ∧
      t.slices = tupd {} s.slices (d11 e 9 0) (underPolicy (d11 e 16 16 == 1)) ∧
      { t with events := s.events, sec := s.sec, time := s.time, slices := s.slices } = s := by
  have hfid : fidOf (asFeature 0xC7 e) = 0xC7 := fidOf_asFeature 0xC7 e (by decide)
  have hsave : (bit (asFeature 0xC7 e).cdw10.toNat 31 && !saveable (fidOf (asFeature 0xC7 e))) = false := by
    rw [hfid, show saveable 0xC7 = true by decide, Bool.not_true, Bool.and_false]
  have hchecks : (d11 e 15 10 == 0 && d11 e 31 17 == 0 && (sliceAt (atCount e.cnt s) (d11 e 9 0)).st != 0) = true := by
    rw [hlow, hhigh]
    simpa [sliceAt] using hslice
  have hset : setMissPolicy (asFeature 0xC7 e) (atCount e.cnt s) =
      done (asFeature 0xC7 e) (updSlice (d11 e 9 0) (underPolicy (d11 e 16 16 == 1)) (atCount e.cnt s)) := if_pos hchecks
  have hrecords := ends_recordsOnly (s := s) (e := e) (dw0 := 0) (isChange_asFeature e (show 0xC7 < 256 by decide))
    (u := updSlice (d11 e 9 0) (underPolicy (d11 e 16 16 == 1)) (atCount e.cnt s)) rfl rfl rfl
  rw [show whatOf (asFeature 0xC7 e) = 0xC7 from hfid] at hrecords
  refine ⟨_, (runFeature_row h hsave).trans (congrArg Host.Outcome.next hset), hrecords, ?_⟩
  rw [done, ends, isChange_asFeature e (by decide)]
  exact ⟨rfl, rfl⟩

/-! ### The rows. -/
theorem interruptVector_row (h : s.admits e = true) (hsave : bit (asFeature 0x09 e).cdw10.toNat 31 = false) (hvector : d11 e 15 0 < 2048) :
    exec (.setFeaturesInterruptVector e) s = .next { updCtrl e.port (fun c => { c with
      vectors := tput 0 c.vectors (d11 e 15 0) (d11 e 16 16) }) (atCount e.cnt s) with cqes := s.cqes ++ [cqeOf e 0 []] } :=
  ctrlFeature_row h hsave (by decide) (if_neg (not_le.2 hvector))

theorem temperatureThreshold_row (h : s.admits e = true) (hsave : bit (asFeature 0x04 e).cdw10.toNat 31 = false)
    (hsensor : d11 e 19 16 = 0 ∨ d11 e 19 16 = 15) (hunder : d11 e 21 20 ≤ 1) :
    exec (.setFeaturesTemperatureThreshold e) s =
      .next { thresholdSet (d11 e 21 20) (d11 e 15 0) (atCount e.cnt s) with cqes := s.cqes ++ [cqeOf e 0 []] } :=
  (standardFeature_row h hsave).trans (congrArg Host.Outcome.next (setThreshold_row h (isChange_standard e (by decide)) hsensor hunder))

theorem timestamp_row (h : s.admits e = true) (hsave : bit (asFeature 0x0E e).cdw10.toNat 31 = false) (hlen : 8 ≤ e.dlen) :
    ∃ timeEpoch data, exec (.setFeaturesTimestamp e) s =
      .next { marker 3 data (updTime (wallSet (fld (fitTo 8 e.data) 0 6) timeEpoch) (atCount e.cnt s)) with cqes := s.cqes ++ [cqeOf e 0 []] } := by
  obtain ⟨timeEpoch, data, hset⟩ := setTimestamp_row (s := s) (x := asFeature 0x0E e) (fitTo 8 e.data) h (isChange_standard e (by decide))
  have hrow : exec (.setFeaturesTimestamp e) s = .next (withData 8 (asFeature 0x0E e) (setTimestamp (asFeature 0x0E e)) (atCount e.cnt s)) :=
    standardFeature_row (f := fun x => withData 8 x (setTimestamp x)) h hsave
  exact ⟨timeEpoch, data, hrow.trans (congrArg Host.Outcome.next ((withData_of_len (x := asFeature 0x0E e) hlen).trans hset))⟩

theorem powerSame_row (h : s.admits e = true) (hsave : bit (asFeature 0x02 e).cdw10.toNat 31 = false) (hrsvd : d11 e 7 5 = 0)
    (hnext : s.power.psNext = none) (hsame : d11 e 4 0 = s.power.ps) :
    exec (.setFeaturesPowerManagement e) s = .next { atCount e.cnt s with cqes := s.cqes ++ [cqeOf e 0 []] } := by
  obtain ⟨-, -, -, hps, hentry, hexit, -⟩ := admits_facts s e h
  have hset : setPowerState (asFeature 0x02 e) (atCount e.cnt s) = done (asFeature 0x02 e) (atCount e.cnt s) :=
    setPowerState_same hrsvd hentry hexit hnext hps hsame
  have hends := ends_success (x := asFeature 0x02 e) (dw0 := 0) (data := []) h (isChange_standard e (by decide)) (takesCqes_counted h)
  exact (standardFeature_row h hsave).trans (congrArg Host.Outcome.next (hset.trans hends))
theorem powerMove_row (h : s.admits e = true) (hsave : bit (asFeature 0x02 e).cdw10.toNat 31 = false) (hrsvd : d11 e 7 5 = 0)
    (hnext : s.power.psNext = none) (hother : d11 e 4 0 ≠ s.power.ps) (htarget : d11 e 4 0 ≤ 2) :
    exec (.setFeaturesPowerManagement e) s =
      .next (updPower (fun p => { p with psNext := some { target := d11 e 4 0, cmd := some (e.port, e.cid, 0x09) } }) (atCount e.cnt s)) := by
  obtain ⟨-, -, -, hps, hentry, hexit, -⟩ := admits_facts s e h
  exact (standardFeature_row h hsave).trans (congrArg Host.Outcome.next
    (setPowerState_move (x := asFeature 0x02 e) (u := atCount e.cnt s) hrsvd hentry hexit hnext hps hother htarget))

/-! ### The statement. -/
/-- Settles O10: each value is stored by one update, and only the deadline miss policy leaves a change record. -/
theorem standardFeaturesTakeEffect : Obligations.StandardFeaturesTakeEffect := by
  refine ⟨⟨?ctrl, fun s e h hsave hvector => interruptVector_row h hsave hvector, ?queues, ?threshold, ?timestamp⟩,
    fun s e h hsave hrsvd hnext hsame => powerSame_row h hsave hrsvd hnext hsame,
    fun s e h hsave hrsvd hnext hother htarget => powerMove_row h hsave hrsvd hnext hother htarget, fun s e h hlow hhigh hslice => missPolicy_row h hlow hhigh hslice⟩
  case ctrl =>
    intro r hr s e h hsave
    simp only [List.mem_cons, List.not_mem_nil, or_false] at hr
    rcases hr with rfl | rfl | rfl <;> exact ctrlFeature_row h hsave (by decide) rfl
  case queues =>
    intro s e h hsave hsqs hcqs
    exact ⟨_, _, rfl, rfl, ctrlFeature_row h hsave (by decide) (setQueues_eq hsqs hcqs)⟩
  case threshold =>
    intro s e h hsave hsensor hunder
    exact ⟨_, temperatureThreshold_row h hsave hsensor hunder, rfl, rfl, rfl⟩
  case timestamp =>
    intro s e h hsave hlen
    obtain ⟨timeEpoch, data, hrow⟩ := timestamp_row h hsave hlen
    exact ⟨_, hrow, rfl, rfl, rfl⟩

end Sys2Proof.Laws
end

