-- ==== Sys2Proof/Proofs/QueueCommands.lean ====
section
/-! OBLIGATION. O12: Create and Delete of I/O queues, Abort and Asynchronous Event Request (R159, R162, R195, R211). -/
namespace Sys2Proof.Laws
open Sys2Proof Sys2Proof.Machine

variable {s u : State} {e x : Sqe}

/-! ### Commands that are no configuration change. -/
/-- A command that leaves the controllers ends with success. -/
theorem done_success (h : s.admits e = true) (hkind : isChange x = false) (hc0 : u.c0 = s.c0 := by rfl) (hc1 : u.c1 = s.c1 := by rfl)
    (hx : placeOf x = placeOf e := by rfl) : done x u = { u with cqes := u.cqes ++ [cqeOf e 0 []] } :=
  ends_success h hkind (takesCqes_of_ctrls (takesCqes_of_admits h) hc0 hc1) hx

/-! ### Creation (R159, R195). -/
theorem createCq_eq (hslice : sliceOn u x.port (d13 x 9 0) = true) (hid : 1 ≤ d10 x 15 0) (hids : d10 x 15 0 ≤ (ctrlAt u x.port).ncq)
    (hfree : (cqAt u (qKey x.port (d10 x 15 0))).used = false)
    (hpairs : (u.cqs.filter fun q => q.2.used && q.2.slice == d13 x 9 0).length < (sliceAt u (d13 x 9 0)).qpairs)
    (hsize : 1 ≤ d10 x 31 16) (hmax : d10 x 31 16 ≤ 4095) (hvector : d11 x 31 16 < 2048) :
    createCq x u = done x (updCq (qKey x.port (d10 x 15 0)) (fun _ => {
      used := true, slice := d13 x 9 0, size := d10 x 31 16, base := x.dptr.toNat % 2 ^ 64, vector := d11 x 31 16, ien := bit x.cdw11.toNat 1 }) u) := by
  unfold createCq
  dsimp only
  rw [hslice, hfree, if_neg (by decide), if_neg ?ids, if_neg (by omega), if_neg (by omega)]
  simp only [Bool.false_eq_true, false_or]
  omega
theorem createSq_eq (hslice : sliceOn u x.port (d13 x 9 0) = true) (hid : 1 ≤ d10 x 15 0) (hids : d10 x 15 0 ≤ (ctrlAt u x.port).nsq)
    (hfree : (sqAt u (qKey x.port (d10 x 15 0))).used = false)
    (hpairs : (u.sqs.filter fun q => q.2.used && q.2.slice == d13 x 9 0).length < (sliceAt u (d13 x 9 0)).qpairs)
    (hsize : 1 ≤ d10 x 31 16) (hmax : d10 x 31 16 ≤ 4095) (hcq : (cqAt u (qKey x.port (d11 x 31 16))).used = true)
    (hsame : (cqAt u (qKey x.port (d11 x 31 16))).slice = d13 x 9 0) :
    createSq x u = done x (updSq (qKey x.port (d10 x 15 0)) (fun _ => {
      used := true, slice := d13 x 9 0, cqid := d11 x 31 16, size := d10 x 31 16, base := x.dptr.toNat % 2 ^ 64, contig := bit x.cdw11.toNat 0 }) u) := by
  unfold createSq
  dsimp only
  rw [hslice, hfree, hcq, hsame, if_neg (by decide), if_neg ?ids, if_neg (by omega), if_neg (by simp)]
  simp only [Bool.false_eq_true, false_or]
  omega

/-! ### Deletion (R162). -/
theorem deleteSq_eq (hid : 1 ≤ d10 x 15 0) (hused : (sqAt u (qKey x.port (d10 x 15 0))).used = true)
    (hnone : (u.cmds.filter fun c => decide (c.2.e.port = x.port) && c.2.e.sqid == d10 x 15 0) = []) :
    deleteSq x u = done x { u with sqs := tdel u.sqs (qKey x.port (d10 x 15 0)) } := by
  have hnamed : ¬ (d10 x 15 0 = 0 ∨ (!(sqAt u (qKey x.port (d10 x 15 0))).used) = true) := by
    rw [hused]
    simp only [Bool.not_true, Bool.false_eq_true, or_false]
    omega
  unfold deleteSq
  dsimp only
  rw [if_neg hnamed, hnone]
  rfl
theorem deleteCq_eq (hid : 1 ≤ d10 x 15 0) (hused : (cqAt u (qKey x.port (d10 x 15 0))).used = true)
    (hnone : (u.sqs.any fun q => q.2.used && q.1 / 65536 == portNo x.port && q.2.cqid == d10 x 15 0) = false) :
    deleteCq x u = done x { u with cqs := tdel u.cqs (qKey x.port (d10 x 15 0)) } := by
  have hnamed : ¬ (d10 x 15 0 = 0 ∨ (!(cqAt u (qKey x.port (d10 x 15 0))).used) = true) := by
    rw [hused]
    simp only [Bool.not_true, Bool.false_eq_true, or_false]
    omega
  unfold deleteCq
  dsimp only
  rw [if_neg hnamed, hnone]
  rfl

/-! ### Abort and Asynchronous Event Request (R162). -/
/-- A controller whose event request cid is taken back. -/
def withoutAer (cid : Nat) (c : Ctrl) : Ctrl := { c with aers := lrem c.aers cid }
/-- The completion of a command that is aborted (R162). -/
def abortedCqe (p : Port) (cid : Nat) : Cqe := { port := p, cid := cid, sct := 0, sc := 7 }

theorem abort_aer (hadmin : d10 x 15 0 = 0) (haer : (ctrlAt u x.port).aers.contains (d10 x 31 16) = true) :
    abort x u = okDw x 0 (post (abortedCqe x.port (d10 x 31 16)) 0 0 (updCtrl x.port (withoutAer (d10 x 31 16)) u)) := by
  unfold abort
  dsimp only
  rw [if_neg (by omega), if_pos haer]
  rfl

/-- Abort of a waiting event request posts its completion and then its own. -/
theorem abort_row (h : s.admits e = true) (hadmin : d10 e 15 0 = 0) (hcid : d10 e 31 16 < 65536)
    (haer : (ctrlAt s e.port).aers.contains (d10 e 31 16) = true) :
    ∃ t, exec (.abort e) s = .next t ∧ t.cqes = s.cqes ++ [{ abortedCqe e.port (d10 e 31 16) with more := true }, cqeOf e 0 []] ∧
      (ctrlAt t e.port).aers = lrem (ctrlAt s e.port).aers (d10 e 31 16) ∧ { t with cqes := s.cqes, c0 := s.c0, c1 := s.c1, time := s.time } = s := by
  have htakes : takesCqes (updCtrl e.port (withoutAer (d10 e 31 16)) (atCount e.cnt s)) e.port :=
    (takesCqes_updCtrl _ _ _).2 (takesCqes_counted h)
  have hpost := post_failed (q := abortedCqe e.port (d10 e 31 16)) 0 0 hcid htakes (.inr (by exact (by decide : (7 : Nat) ≠ 0))) rfl
  have haborts : exec (.abort e) s = .next (okDw (asAdmin 0x08 e) 0
      (post (abortedCqe e.port (d10 e 31 16)) 0 0 (updCtrl e.port (withoutAer (d10 e 31 16)) (atCount e.cnt s)))) :=
    congrArg Host.Outcome.next ((admin_row h _).trans (abort_aer (x := asAdmin 0x08 e) hadmin
      ((congrArg (fun c : Ctrl => c.aers.contains _) (ctrlAt_atCount _ _ _)).trans haer)))
  rw [hpost] at haborts
  refine ⟨_, haborts.trans (congrArg Host.Outcome.next (finish_success h ?_)), ?_, ?_, ?_⟩
  · exact takesCqes_of_ctrls ((takesCqes_updCtrl e.port e.port (logError _)).2 htakes)
  · simp only [updCtrl_others, List.append_assoc]
    rfl
  · cases e.port <;> rfl
  · cases e.port <;> rfl

/-- With no event waiting no request is answered (R107). -/
theorem aenDeliver_none (p : Port) (hnone : pget u.events.aenQ (cardOf p) = []) : aenDeliver p u = u := by
  unfold aenDeliver
  dsimp only
  rw [hnone]
  cases (ctrlAt u p).aers <;> rfl
/-- No event waits for the request that joins those outstanding. -/
theorem asyncRequest_row (h : s.admits e = true) (hroom : (ctrlAt s e.port).aers.length < 8) (hnone : pget s.events.aenQ (cardOf e.port) = []) :
    exec (.asynchronousEventRequest e) s = .next (updCtrl e.port (fun c => { c with aers := c.aers ++ [e.cid] }) (atCount e.cnt s)) := by
  refine congrArg Host.Outcome.next ((admin_row h _).trans ((if_neg ?_).trans ?_))
  · rw [ctrlAt_atCount]
    exact not_le.2 hroom
  · exact aenDeliver_none e.port (by simpa using hnone)

/-! ### The statement. -/
/-- Settles O12: each command's checks are met, its one update is left, and its completion is posted. -/
theorem queueCommandsCreateAndDelete : Obligations.QueueCommandsCreateAndDelete := by
  refine ⟨fun s e h hslice hid hids hfree hpairs hsize hmax hvector => ?cq, fun s e h hslice hid hids hfree hpairs hsize hmax hcq hsame => ?sq,
    fun s e h hid hused hnone => ?dsq, fun s e h hid hused hnone => ?dcq, fun s e h hadmin hcid haer => abort_row h hadmin hcid haer,
    fun s e h hroom hnone => asyncRequest_row h hroom hnone⟩
  case cq =>
    have hids' : d10 e 15 0 ≤ (ctrlAt (atCount e.cnt s) e.port).ncq := (ctrlAt_atCount e.cnt s e.port).symm ▸ hids
    have hcreate := createCq_eq (x := asAdmin 0x05 e) (u := atCount e.cnt s) hslice hid hids' hfree hpairs hsize hmax hvector
    exact congrArg Host.Outcome.next ((admin_row h _).trans (hcreate.trans (done_success h rfl)))
  case sq =>
    have hids' : d10 e 15 0 ≤ (ctrlAt (atCount e.cnt s) e.port).nsq := (ctrlAt_atCount e.cnt s e.port).symm ▸ hids
    have hcreate := createSq_eq (x := asAdmin 0x01 e) (u := atCount e.cnt s) hslice hid hids' hfree hpairs hsize hmax hcq hsame
    exact congrArg Host.Outcome.next ((admin_row h _).trans (hcreate.trans (done_success h rfl)))
  case dsq =>
    have hdelete := deleteSq_eq (x := asAdmin 0x00 e) (u := atCount e.cnt s) hid hused hnone
    exact congrArg Host.Outcome.next ((admin_row h _).trans (hdelete.trans (done_success h rfl)))
  case dcq =>
    have hdelete := deleteCq_eq (x := asAdmin 0x04 e) (u := atCount e.cnt s) hid hused hnone
    exact congrArg Host.Outcome.next ((admin_row h _).trans (hdelete.trans (done_success h rfl)))

end Sys2Proof.Laws
end

