-- ==== Sys2Proof/Proofs/SliceBinding.lean ====
section
/-! OBLIGATION. O14: Slice Create and Share Set (R179, R193, R194, R197, R203, R208, R348). -/
namespace Sys2Proof.Laws
open Sys2Proof Sys2Proof.Machine

variable {s u : State} {e x : Sqe} {sl : Nat} {n : Share}

/-! ### Slice Create (R193, R194, R197). -/
/-- The slice that Slice Create makes: its share, queue pairs and policy are those of the host, its key is fresh, its generation one higher. -/
def sliceMade (p : Port) (pasid key fc : Nat) (n : Share) (d : List Byte) (y : Slice) : Slice :=
  { st := 1, port := p, pasid := pasid, gen := y.gen + 1, share := n, qpairs := fld d 64 1, policy := fld d 65 1 == 1, key := key, changeFc := fc }
/-- A free slice has been made, and its key drawn. -/
def sliceAdded (x : Sqe) (sl : Nat) (n : Share) (u : State) : State :=
  updSlice sl (sliceMade x.port (d12 x 19 0) u.drawn u.time.fc n (fitTo 256 x.data)) { u with drawn := u.drawn + 1 }

theorem sliceCreate_eq (hrsvd : rsvdOk 0x7FF 0xFFFF 0xFFFFF 0 0 0 x = true) (hlen : d11 x 15 0 = 256) (hnamed : d10 x 10 10 = 0) (hsl : d10 x 9 0 = sl)
    (hsl0 : sl ≠ 0) (hdlen : 256 ≤ x.dlen) (hfree : (sliceAt u sl).st = 0) (hpasid : pasidTaken u x.port sl (d12 x 19 0) = false)
    (hpairs : 1 ≤ fld (fitTo 256 x.data) 64 1) (hmax : fld (fitTo 256 x.data) 64 1 ≤ 64) (hpolicy : fld (fitTo 256 x.data) 65 1 ≤ 1)
    (hzero : allZero ((fitTo 256 x.data).drop 66) = true) (hshare : shareFrom (fitTo 256 x.data) = some n) (hsums : sumsNow u x.port sl n n = true) :
    sliceCreate x u = bindEnds x sl (d12 x 19 0) (sl + ((sliceAt u sl).gen + 1).toNat * 65536) (sliceAdded x sl n u) := by
  have hfields : ¬ ((!rsvdOk 0x7FF 0xFFFF 0xFFFFF 0 0 0 x) = true ∨ d11 x 15 0 ≠ 256 ∨ ((!decide (d10 x 10 10 = 1)) = true ∧ sliceOf x = 0)) := by
    rw [hrsvd, hlen, sliceOf, hsl]
    simp [hsl0]
  have hbody : ¬ (pasidTaken u x.port sl (d12 x 19 0) = true ∨ fld (fitTo 256 x.data) 64 1 = 0 ∨ 64 < fld (fitTo 256 x.data) 64 1 ∨
      1 < fld (fitTo 256 x.data) 65 1 ∨ (!allZero ((fitTo 256 x.data).drop 66)) = true) := by
    rw [hpasid, hzero]
    simp only [Bool.false_eq_true, Bool.not_true, false_or, or_false]
    omega
  unfold sliceCreate
  dsimp only
  rw [if_neg hfields, if_neg (by omega), if_neg (by omega)]
  dsimp only
  rw [show sliceOf x = sl from hsl, if_neg (by omega), if_neg hbody, hshare]
  dsimp only
  rw [hsums]
  rfl

/-- A command that binds a slice leaves the slice's change record with its completion (R348). -/
theorem bindEnds_records {pasid dw0 : Nat} :
    ∃ r : EventRec, bindEnds x sl pasid dw0 u =
        { u with
          events := { u.events with changeQ := u.events.changeQ ++ [(r, some (cqeOf x dw0 []))] }
          sec := { u.sec with keyIds := tdel u.sec.keyIds (portNo x.port * 65536 + x.cid) } } ∧
      r.data = changeData x.opc.toNat (d10 x 9 0) 2 (portNo x.port) sl pasid 0 (tget [] u.sec.keyIds (portNo x.port * 65536 + x.cid)) :=
  ⟨_, rfl, rfl⟩

/-! ### Share Set (R203, R204, R208). -/
/-- A slice that waits for a share; its saved state is stale (R212). -/
def shareWaits (n : Share) (y : Slice) : Slice := { y with shareNext := some n, saveFresh := false }

theorem shareSet_eq (hrsvd : rsvdOk 0x3FF 0 0 0 0 0 x = true) (hsl : d10 x 9 0 = sl) (hlive : (sliceAt u sl).st = 1 ∨ (sliceAt u sl).st = 2)
    (hdlen : 64 ≤ x.dlen) (hshare : shareFrom (fitTo 64 x.data) = some n)
    (hsums : ∀ p ∈ (if sl = 0 then [Port.h0, .h1] else [(sliceAt u sl).port]), sumsHold u p sl n = true) (hquota : rulesHeld u sl ≤ n.quota) :
    shareSet x u = done x (updSlice sl (shareWaits n) u) := by
  have hlimits : ¬ ((!((if sl = 0 then [Port.h0, .h1] else [(sliceAt u sl).port]).all fun p => sumsHold u p sl n)) = true ∨ n.quota < rulesHeld u sl) := by
    rw [List.all_eq_true.2 hsums]
    simp only [Bool.not_true, Bool.false_eq_true, false_or]
    omega
  unfold shareSet
  dsimp only
  rw [show sliceOf x = sl from hsl, hrsvd, if_neg (by simp only [Bool.not_true, Bool.false_eq_true, false_or]; omega), if_neg (by omega), if_neg (by omega),
    hshare]
  exact if_neg hlimits

/-! ### The statement. -/
/-- Settles O14: both commands pass their checks and write one slice; Slice Create's record names the slice and its PASID. -/
theorem sliceBindingCommandsTakeEffect : Obligations.SliceBindingCommandsTakeEffect := by
  refine ⟨fun s e d n sl h hrsvd hlen hnamed hsl hsl0 hdlen hfree hd hpasid hpairs hmax hpolicy hzero hshare hsums => ?create,
    fun s e n sl h hrsvd hsl hlive hdlen hshare hsums hquota => ?share⟩
  case create =>
    subst hd hsl
    have hmade := sliceCreate_eq (x := asAdmin 0xC1 e) (u := atCount e.cnt s) hrsvd hlen hnamed rfl hsl0 hdlen hfree hpasid hpairs hmax hpolicy hzero hshare hsums
    obtain ⟨r, hends, hdata⟩ := bindEnds_records (x := asAdmin 0xC1 e) (sl := d10 e 9 0) (pasid := d12 e 19 0)
      (dw0 := d10 e 9 0 + ((sliceAt s (d10 e 9 0)).gen + 1).toNat * 65536) (u := sliceAdded (asAdmin 0xC1 e) (d10 e 9 0) n (atCount e.cnt s))
    refine ⟨_, r, congrArg Host.Outcome.next ((admin_row h _).trans (hmade.trans hends)), rfl, rfl, hdata, rfl⟩
  case share =>
    have hset := shareSet_eq (x := asAdmin 0xD1 e) (u := atCount e.cnt s) hrsvd hsl.symm hlive hdlen hshare hsums hquota
    have hrecords := ends_recordsOnly (s := s) (e := e) (x := asAdmin 0xD1 e) (dw0 := 0) (u := updSlice sl (shareWaits n) (atCount e.cnt s)) rfl rfl rfl rfl
    rw [show whatOf (asAdmin 0xD1 e) = sl from hsl.symm] at hrecords
    exact ⟨_, congrArg Host.Outcome.next ((admin_row h _).trans hset), hrecords, rfl, rfl⟩

end Sys2Proof.Laws
end

