-- ==== Sys2Proof/Proofs/HostTables.lean ====
section
/-! OBLIGATION. O16: Spikelet Rule Write and Read, Winnow Program Load and Bulk Endpoint Set (R183, R231, R232, R233, R235, R243, R244). -/
namespace Sys2Proof.Laws
open Sys2Proof Sys2Proof.Machine

variable {s u : State} {e x : Sqe} {sl n first : Nat}

/-! ### Structures in the data of the host. -/
/-- The structures of 64 bytes that a command transfers. -/
def structures (x : Sqe) (n : Nat) : List (List Byte) := (List.range n).map fun i => slice' x.data (64 * i) 64

/-- A window onto pieces of one length side by side is its piece. -/
theorem slice'_flatMap {f : Nat → List Byte} (hlen : ∀ i, (f i).length = 64) {i : Nat} (hi : i < n) :
    slice' ((List.range n).flatMap f) (64 * i) 64 = f i := by
  obtain ⟨m, rfl⟩ := Nat.exists_eq_add_of_lt hi
  have hbefore : ((List.range i).flatMap f).length = 64 * i := by simp [List.length_flatMap, hlen, Nat.mul_comm]
  have hpieces : (List.range (i + m + 1)).flatMap f = (List.range i).flatMap f ++ (f i ++ ((List.range m).map fun k => i + (k + 1)).flatMap f) := by
    rw [Nat.add_assoc, List.range_add, List.range_succ_eq_map, List.flatMap_append, List.map_cons, List.map_map, List.flatMap_cons]
    rfl
  rw [slice', hpieces, List.drop_left' hbefore, List.take_left' (hlen i), hlen]
  exact List.append_nil _

/-! ### Spikelet Rule Write (R231, R232). -/
/-- A structure passes every check of Rule Write: its slice exists, its fields are in range, the number is its slice's, and the slice's quota holds. -/
structure RuleFits (u : State) (first : Nat) (rules : Tbl Rule) (y : List Byte × Nat) : Prop where
  slice : (sliceAt u (bits (fld y.1 0 2) 9 0)).st ≠ 0
  range : ruleRange y.1 = true
  rsvd : ruleRsvd y.1 = true
  own : ∀ r, tfind u.rules (first + y.2) = some r → r.slice = (ruleFrom y.1).slice
  quota : entriesHeld (rules.filter fun r => r.2.slice == (ruleFrom y.1).slice) ≤ (sliceAt u (ruleFrom y.1).slice).share.quota

/-- The saved state of every slice of a rule is stale (R212). -/
def rulesStale (l : List (List Byte)) (u : State) : State := l.foldl (fun s b => updSlice (ruleFrom b).slice (fun y => { y with saveFresh := false }) s) u
/-- A spikelet takes the rules. -/
def rulesApplied (first : Nat) (l : List (List Byte)) (holes : Nat) (sp : Spikelet) : Spikelet :=
  l.zipIdx.foldl (fun sp y => let r := ruleFrom y.1; applyRule (first + y.2) (if r.valid then some r else none) holes sp) sp
/-- The spikelet of a card that serves takes the rules. -/
def rulesAt (c : CardId) (first : Nat) (l : List (List Byte)) (u : State) : State :=
  if (cardAt u c).serving then updSp c (rulesApplied first l (2 ^ u.feat.holeLog)) u else u

theorem rulesStale_updates (l : List (List Byte)) (u : State) : ∃ t, rulesStale l u = { u with slices := t } := by
  induction l generalizing u with
  | nil => exact ⟨u.slices, rfl⟩
  | cons b r ih =>
    obtain ⟨t, ht⟩ := ih (updSlice (ruleFrom b).slice (fun y => { y with saveFresh := false }) u)
    exact ⟨t, ht⟩
theorem rulesAt_updates (c : CardId) (first : Nat) (l : List (List Byte)) (u : State) : ∃ a b, rulesAt c first l u = { u with spA := a, spB := b } := by
  unfold rulesAt
  split
  · cases c
    · exact ⟨_, u.spB, rfl⟩
    · exact ⟨u.spA, _, rfl⟩
  · exact ⟨u.spA, u.spB, rfl⟩

theorem ruleWrite_eq (hn : d10 x 15 0 = n) (hfirst : d11 x 15 0 = first) (hrsvd : rsvdOk 0xFFFF 0xFFFF 0 0 0 0 x = true) (hn1 : 1 ≤ n) (hmax : n ≤ 256)
    (hdlen : 64 * n ≤ x.dlen) (hend : first + n ≤ 65535)
    (hfits : ∀ y ∈ (structures x n).zipIdx, RuleFits u first (writeRules first (structures x n) u.rules) y)
    (hcapacity : entriesHeld (writeRules first (structures x n) u.rules) ≤ ruleCapacity u u.feat.holeLog) :
    ruleWrite x u = done x (rulesAt .cb first (structures x n) (rulesAt .ca first (structures x n)
      (rulesStale (structures x n) { u with rules := writeRules first (structures x n) u.rules }))) := by
  have hslice : ((structures x n).zipIdx.find? fun y => !((sliceAt u (bits (fld y.1 0 2) 9 0)).st != 0)) = none :=
    List.find?_eq_none.2 fun y hy => by simpa using (hfits y hy).slice
  have hrange : ((structures x n).zipIdx.find? fun y => !(ruleRange y.1 && ruleRsvd y.1)) = none :=
    List.find?_eq_none.2 fun y hy => by simp [(hfits y hy).range, (hfits y hy).rsvd]
  have hquota : ((structures x n).zipIdx.find? fun y => decide ((sliceAt u (ruleFrom y.1).slice).share.quota <
      entriesHeld ((writeRules first (structures x n) u.rules).filter fun r => r.2.slice == (ruleFrom y.1).slice))) = none :=
    List.find?_eq_none.2 fun y hy => by simpa using (hfits y hy).quota
  unfold ruleWrite
  dsimp only
  rw [hn, hfirst, hrsvd, if_neg (by simp only [Bool.not_true, Bool.false_eq_true, false_or]; omega), if_neg (by omega), if_neg (by omega), if_neg (by omega)]
  rw [show ((List.range n).map fun i => slice' x.data (64 * i) 64) = structures x n from rfl, hslice]
  dsimp only
  rw [hrange]
  dsimp only
  split
  next y hy =>
    refine absurd (List.find?_some hy) ?_
    have hown := (hfits y (List.mem_of_find?_eq_some hy)).own
    cases htable : tfind u.rules (first + y.2) with
    | none => simp
    | some r => simp [hown r htable]
  next =>
    rw [hquota]
    exact if_neg (not_lt.2 hcapacity)

/-! ### Spikelet Rule Read (R231). -/
/-- What Rule Read answers for a number: the default rule's structure, the rule's, or zeros. -/
def ruleImage (u : State) (i : Nat) : List Byte :=
  if i = 65535 then fitTo 64 (zeros 19 ++ [BitVec.ofNat 8 u.feat.holeLog] ++ zeros 4 ++ le 8 u.feat.defaultHits)
  else match tfind u.rules i with | some r => ruleBytes r | none => zeros 64

@[simp] theorem length_ruleImage (u : State) (i : Nat) : (ruleImage u i).length = 64 := by
  unfold ruleImage
  split
  · exact length_fitTo _ _
  · split
    · exact length_fitTo _ _
    · exact length_zeros _
theorem ruleImage_of_rule {i : Nat} {r : Rule} (hi : i < 65535) (h : tfind u.rules i = some r) : ruleImage u i = ruleBytes r := by
  rw [ruleImage, if_neg (by omega), h]

theorem ruleRead_eq (hrsvd : rsvdOk 0xFFFF 0xFFFF 0 0 0 0 x = true) (hn1 : 1 ≤ d10 x 15 0) (hmax : d10 x 15 0 ≤ 256)
    (hend : d11 x 15 0 + d10 x 15 0 ≤ 65536) (hdlen : 64 * d10 x 15 0 ≤ x.dlen) :
    ruleRead x u = okData x ((List.range (d10 x 15 0)).flatMap fun i => ruleImage u (d11 x 15 0 + i)) u := by
  unfold ruleRead
  dsimp only
  rw [hrsvd, if_neg (by simp only [Bool.not_true, Bool.false_eq_true, false_or]; omega), if_neg (by omega)]
  rfl

/-! ### Winnow Program Load (R233, R235). -/
theorem programLoad_eq (hrsvd : rsvdOk 0xFF 0xFFFF 0x3FF 0 0 0 x = true) (hslot : d10 x 7 0 ≤ 15) (hpages : 1 ≤ d11 x 15 0) (hmax : d11 x 15 0 ≤ 1024)
    (hslice : (sliceAt u (d12 x 9 0)).st ≠ 0) (hdlen : 4096 * d11 x 15 0 ≤ x.dlen) (hwp : wpRsvd (fitTo (4096 * d11 x 15 0) x.data) = true)
    (hdefect : wpDefect (fitTo (4096 * d11 x 15 0) x.data) (d11 x 15 0) = none)
    (hstore : programStore u (d12 x 9 0) (d10 x 7 0) + (fitTo (4096 * d11 x 15 0) x.data).length ≤ 2147483648) :
    programLoad x u = (addJob x false 0 u).2 := by
  unfold programLoad
  dsimp only
  rw [hrsvd, if_neg (by simp only [Bool.not_true, Bool.false_eq_true, false_or]; omega), if_neg (by omega), hwp, if_neg (by decide), hdefect]
  exact if_neg (not_lt.2 hstore)

theorem dropWorks_updates (l : List (Nat × MetaWork)) (u : State) : ∃ m, l.foldl (fun s w => dropWork w.1 s) u = { u with metas := m } := by
  induction l generalizing u with
  | nil => exact ⟨u.metas, rfl⟩
  | cons w r ih =>
    obtain ⟨m, hm⟩ := ih (dropWork w.1 u)
    exact ⟨m, hm⟩

/-- A slice with a program loaded; its saved state is stale (R212). -/
def programmed (slot : Nat) (p : List Byte) (y : Slice) : Slice := { y with progs := tins y.progs slot p, saveFresh := false }
/-- Once its parts are written a program stands in its slot, and its command ends (R235). -/
theorem programGoes_eq {j : Job} (hbegun : j.begun = true) (hslice : (sliceAt u (d12 j.e 9 0)).st ≠ 0)
    (hwritten : ∀ w ∈ u.metas.work, isProgram j.key w.2.of = true → w.2.copies = [] ∧ w.2.reads = 0) :
    ∃ m, programGoes j u = done j.e (updSlice (d12 j.e 9 0) (programmed (d10 j.e 7 0) (fitTo (4096 * d11 j.e 15 0) j.e.data))
      (dropJob j.key { u with metas := m })) := by
  have hall : ((u.metas.work.filter fun w => isProgram j.key w.2.of).all fun w => written (some w)) = true := by
    refine List.all_eq_true.2 fun w hw => ?_
    obtain ⟨hmem, hof⟩ := List.mem_filter.1 hw
    obtain ⟨hcopies, hreads⟩ := hwritten w hmem hof
    simp [written, hcopies, hreads]
  obtain ⟨m, hm⟩ := dropWorks_updates (u.metas.work.filter fun w => isProgram j.key w.2.of) u
  refine ⟨m, ?_⟩
  unfold programGoes
  dsimp only
  rw [hbegun, if_neg (by decide), hall, if_neg (by decide), hm]
  exact if_neg hslice

/-- A configuration change that succeeds leaves its change record with its completion (R348). -/
theorem ends_change {dw0 : Nat} (hkind : isChange x = true) :
    ∃ r : EventRec, ends x (0, 0) dw0 0 [] u = { u with
      events := { u.events with changeQ := u.events.changeQ ++ [(r, some { cqeOf x dw0 [] with nsid := x.nsid })] }
      sec := { u.sec with keyIds := tdel u.sec.keyIds (portNo x.port * 65536 + x.cid) } } := by
  rw [ends, hkind]
  exact ⟨_, rfl⟩
theorem isChange_programLoad (h : x.opc = 0xF1) : isChange x = true := by
  unfold isChange needsToken
  rw [h]
  rfl

/-! ### Bulk Endpoint Set (R243, R244, R245). -/
/-- A slice with descriptors set from a number on; its saved state is stale (R212). -/
def endpointsSet (first : Nat) (ds : List Desc) (y : Slice) : Slice :=
  { y with descs := ds.zipIdx.foldl (fun t d => tput {} t (first + d.2) d.1) y.descs, saveFresh := false }
/-- The queue pairs once the descriptors name theirs. -/
def pairsServed (sl : Nat) (ds : List Desc) (q : Tbl Qp) : Tbl Qp := ds.foldl (fun q d => if d.enable then serveQp sl d q else q) q

theorem endpointSet_eq (hrsvd : rsvdOk 0xFFFF 0xFFFF 0x3FF 0 0 0 x = true) (hn : d11 x 15 0 = n) (hn1 : 1 ≤ n) (hend : d10 x 15 0 + n ≤ 256)
    (hsl : d12 x 9 0 = sl) (hslice : (sliceAt u sl).st ≠ 0) (hdlen : 64 * n ≤ x.dlen) (hdescs : (structures x n).all descRsvd = true)
    (hpairs : descsOk sl ((structures x n).map descFrom) u.qps = true) :
    endpointSet x u = done x (closeQps { updSlice sl (endpointsSet (d10 x 15 0) ((structures x n).map descFrom)) u with
      qps := pairsServed sl ((structures x n).map descFrom) u.qps }) := by
  unfold endpointSet
  dsimp only
  rw [hrsvd, hn, hsl, if_neg (by simp only [Bool.not_true, Bool.false_eq_true, false_or]; omega), if_neg (by omega)]
  rw [show ((List.range n).map fun i => slice' x.data (64 * i) 64) = structures x n from rfl, hdescs, hpairs]
  rfl

/-! ### The statement. -/
theorem spikeletRuleWrite_row {l : List (List Byte)} (h : s.admits e = true) (hn : n = d10 e 15 0) (hfirst : first = d11 e 15 0)
    (hrsvd : rsvdOk 0xFFFF 0xFFFF 0 0 0 0 e = true) (hn1 : 1 ≤ n) (hmax : n ≤ 256) (hdlen : 64 * n ≤ e.dlen) (hend : first + n ≤ 65535)
    (hl : l = structures e n) (hfits : ∀ y ∈ l.zipIdx, RuleFits (atCount e.cnt s) first (writeRules first l s.rules) y)
    (hcapacity : entriesHeld (writeRules first l s.rules) ≤ ruleCapacity s s.feat.holeLog) :
    ∃ t, exec (.spikeletRuleWrite e) s = .next t ∧ s.recordsOnly t e 0xD5 0 0 ∧ t.rules = writeRules first l s.rules ∧
      { t with events := s.events, sec := s.sec, time := s.time, rules := s.rules, spA := s.spA, spB := s.spB, slices := s.slices } = s := by
  subst hl
  have hwrite := ruleWrite_eq (x := asAdmin 0xD5 e) (u := atCount e.cnt s) hn.symm hfirst.symm hrsvd hn1 hmax hdlen hend hfits hcapacity
  obtain ⟨slices, hstale⟩ := rulesStale_updates (structures e n) { atCount e.cnt s with rules := writeRules first (structures e n) s.rules }
  obtain ⟨a, b, hca⟩ := rulesAt_updates .ca first (structures e n)
    { atCount e.cnt s with rules := writeRules first (structures e n) s.rules, slices := slices }
  obtain ⟨a', b', hcb⟩ := rulesAt_updates .cb first (structures e n)
    { atCount e.cnt s with rules := writeRules first (structures e n) s.rules, slices := slices, spA := a, spB := b }
  rw [show structures (asAdmin 0xD5 e) n = structures e n from rfl, show (atCount e.cnt s).rules = s.rules from rfl, hstale, hca, hcb] at hwrite
  exact ⟨_, congrArg Host.Outcome.next ((admin_row h _).trans hwrite), ends_recordsOnly (x := asAdmin 0xD5 e) rfl rfl rfl rfl, rfl, rfl⟩

theorem spikeletRuleRead_row (h : s.admits e = true) (hrsvd : rsvdOk 0xFFFF 0xFFFF 0 0 0 0 e = true) (hn1 : 1 ≤ d10 e 15 0) (hmax : d10 e 15 0 ≤ 256)
    (hend : d11 e 15 0 + d10 e 15 0 ≤ 65536) (hdlen : 64 * d10 e 15 0 ≤ e.dlen) :
    exec (.spikeletRuleRead e) s = .next { atCount e.cnt s with
      cqes := s.cqes ++ [cqeOf e 0 ((List.range (d10 e 15 0)).flatMap fun i => ruleImage s (d11 e 15 0 + i))] } := by
  have hread := ruleRead_eq (x := asAdmin 0xD6 e) (u := atCount e.cnt s) hrsvd hn1 hmax hend hdlen
  exact congrArg Host.Outcome.next ((admin_row h _).trans (hread.trans (finish_success h (takesCqes_counted h))))

/-- Settles O16: each command passes its checks and writes its own table. -/
theorem hostTablesAreLoaded : Obligations.HostTablesAreLoaded := by
  refine ⟨fun s e n first l h hn hfirst hrsvd hn1 hmax hdlen hend hl hall hcapacity => ?write,
    fun s e h hrsvd hn1 hmax hend hdlen => ⟨_, ?length, spikeletRuleRead_row h hrsvd hn1 hmax hend hdlen, fun i hi r hin hrule => ?image⟩,
    fun s e p sl h hrsvd hslot hpages hmax hsl hslice hdlen hp hwp hdefect hstore => ?load,
    fun s t j sl p hopc hbegun hsl hslice hp hwritten ht => ?goes,
    fun s e n l sl h hrsvd hn hn1 hend hsl hslice hdlen hl hdescs hpairs => ?endpoints⟩
  case write =>
    refine spikeletRuleWrite_row h hn hfirst hrsvd hn1 hmax hdlen hend hl (fun y hy => ?_) hcapacity
    obtain ⟨hslice, hrange, hbits, hown, hquota⟩ := hall y hy
    exact ⟨hslice, hrange, hbits, hown, hquota⟩
  case length => simp [List.length_flatMap, Nat.mul_comm]
  case image => exact (slice'_flatMap (fun i => length_ruleImage s _) hi).trans (ruleImage_of_rule hin hrule)
  case load =>
    subst hsl hp
    have hload := programLoad_eq (x := asAdmin 0xF1 e) (u := atCount e.cnt s) hrsvd hslot hpages hmax hslice hdlen hwp hdefect hstore
    exact ⟨_, _, congrArg Host.Outcome.next ((admin_row h _).trans hload), rfl, rfl, rfl, rfl, rfl, rfl, rfl, rfl, rfl, rfl⟩
  case goes =>
    subst hsl hp
    obtain ⟨m, hgoes⟩ := programGoes_eq hbegun hslice hwritten
    obtain ⟨r, hdone⟩ := ends_change (dw0 := 0) (u := updSlice (d12 j.e 9 0) (programmed (d10 j.e 7 0) (fitTo (4096 * d11 j.e 15 0) j.e.data))
      (dropJob j.key { s with metas := m })) (isChange_programLoad hopc)
    rw [ht, hgoes, done, hdone]
    exact ⟨rfl, ⟨r, rfl⟩, rfl, rfl⟩
  case endpoints =>
    subst hl
    have hset := endpointSet_eq (x := asAdmin 0xE9 e) (u := atCount e.cnt s) hrsvd hn.symm hn1 hend hsl.symm hslice hdlen hdescs hpairs
    exact ⟨_, congrArg Host.Outcome.next ((admin_row h _).trans hset), ends_recordsOnly (x := asAdmin 0xE9 e) rfl rfl rfl rfl, rfl, rfl⟩

end Sys2Proof.Laws
end

