-- ==== Sys2Proof/Proofs/SecurityCommands.lean ====
section
/-! OBLIGATION. O17: nonces and tokens, the raise of the guard level, Sanitize, Format and Event Clear (R181, R184, R330, R331, R338, R339, R342,
R343, R385). -/
namespace Sys2Proof.Laws
open Sys2Proof Sys2Proof.Machine

variable {s u : State} {e x : Sqe}

/-! ### Nonces (R339). -/
/-- The nonces with one more: the newest 16 are kept. -/
def nonceKept (v : Nonce) (l : List Nonce) : List Nonce := (l ++ [v]).drop (l.length - 15)

theorem length_nonceKept (v : Nonce) (l : List Nonce) : (nonceKept v l).length ≤ 16 := by
  simp only [nonceKept, List.length_drop, List.length_append, List.length_singleton]
  omega
theorem getLast?_nonceKept (v : Nonce) (l : List Nonce) : (nonceKept v l).getLast? = some v := by
  rw [nonceKept, List.drop_append_of_le_length (by omega)]
  exact List.getLast?_concat

/-- A nonce has been drawn at the present instant. -/
def nonceIssued (u : State) : State :=
  { u with drawn := u.drawn + 1, sec := { u.sec with nonces := nonceKept { value := Config.random u.drawn, born := now u } u.sec.nonces } }

theorem issueNonce_eq (hrsvd : rsvdOk 3 0xFFFF 0 0 0 0 x = true) :
    issueNonce x u = finish x 0 0 ((Config.random u.drawn).toNat % 2 ^ 32) ((Config.random u.drawn).toNat / 2 ^ 32) [] (nonceIssued u) := by
  unfold issueNonce
  rw [hrsvd]
  rfl

theorem issueNonce_row (h : s.admits e = true) (hrsvd : rsvdOk 3 0xFFFF 0 0 0 0 (with10 1 0 1 e) = true) :
    exec (.issueNonce e) s = .next { nonceIssued (atCount e.cnt s) with
      cqes := s.cqes ++ [{ cqeOf e ((Config.random s.drawn).toNat % 2 ^ 32) [] with dw1 := (Config.random s.drawn).toNat / 2 ^ 32 }] } := by
  have hissue := issueNonce_eq (x := with10 1 0 1 (asAdmin 0xD9 e)) (u := atCount e.cnt s) hrsvd
  exact congrArg Host.Outcome.next ((admin_row h _).trans (hissue.trans (finish_success h (takesCqes_of_ctrls (takesCqes_of_admits h)))))

/-! ### Tokens (R342, R343). -/
/-- The handle that the next accepted token gets. -/
def nextFreeHandle (u : State) : Nat := freeHandle (u.sec.tokens.map (·.handle)) 64 u.sec.nextHandle
/-- A token as it is held. -/
def tokenHeld (u : State) (b : List Byte) : Token :=
  { handle := nextFreeHandle u, type := tokType b, body := tokBody b, keyId := keyIdOf (tokSigner b), born := now u }
/-- The security state once a token is held: its nonce is used up. -/
def secHolding (u : State) (b : List Byte) : Security :=
  { u.sec with
    nonces := u.sec.nonces.filter fun y => y.value != BitVec.ofNat 64 (fld b 32 8)
    accepted := u.sec.accepted + 1
    nextHandle := if nextFreeHandle u = 65535 then 1 else nextFreeHandle u + 1
    tokens := u.sec.tokens ++ [tokenHeld u b] }

theorem acceptToken_held {b : List Byte} (h4 : tokType b ≠ 4) (h5 : tokType b ≠ 5) (h6 : tokType b ≠ 6) :
    acceptToken x b (updSec (fun y => { y with nonces := y.nonces.filter fun z => z.value != BitVec.ofNat 64 (fld b 32 8) }) u) =
      okDw x (nextFreeHandle u) { u with sec := secHolding u b } := by
  unfold acceptToken
  dsimp only
  rw [if_neg (by omega)]
  simp only [if_neg h6]
  rfl

theorem submitToken_eq {b : List Byte} (hop : d10 x 1 0 = 0) (hrsvd : rsvdOk 3 0xFFFF 0 0 0 0 x = true) (hn : 1 ≤ d11 x 15 0) (hmax : d11 x 15 0 ≤ 8192)
    (hdlen : d11 x 15 0 ≤ x.dlen) (hb : b = fitTo (d11 x 15 0) x.data) (hform : tokenFormOk b = true) (hserial : slice' b 8 20 = fitTo 20 Config.moduleSerial)
    (htype : tokType b = 1 ∨ tokType b = 2 ∨ tokType b = 3) (hnonce : (u.sec.nonces.any fun y => y.value == BitVec.ofNat 64 (fld b 32 8)) = true)
    (hreason : tokenReason u b = none) : submitToken x u = okDw x (nextFreeHandle u) { u with sec := secHolding u b } := by
  have hfields : ¬ (2 ≤ d10 x 1 0 ∨ (!rsvdOk 3 0xFFFF 0 0 0 0 x) = true ∨ d11 x 15 0 = 0 ∨ 8192 < d11 x 15 0) := by
    rw [hrsvd]
    simp only [Bool.not_true, Bool.false_eq_true, false_or]
    omega
  have hchecked : tokenReason (updSec (fun y => { y with nonces := y.nonces.filter fun z => z.value != BitVec.ofNat 64 (fld b 32 8) }) u) b = none := hreason
  unfold submitToken
  dsimp only
  rw [if_neg hfields, if_neg (not_lt.2 hdlen), ← hb, hform, if_neg (by decide), hserial, if_neg (not_not.2 rfl), hnonce,
    if_neg (by simp), if_neg (by omega), hchecked]
  exact acceptToken_held (by omega) (by omega) (by omega)

theorem submitToken_row {b : List Byte} (h : s.admits e = true) (hop : d10 e 1 0 = 0) (hrsvd : rsvdOk 3 0xFFFF 0 0 0 0 e = true) (hn : 1 ≤ d11 e 15 0)
    (hmax : d11 e 15 0 ≤ 8192) (hdlen : d11 e 15 0 ≤ e.dlen) (hb : b = fitTo (d11 e 15 0) e.data) (hform : tokenFormOk b = true)
    (hserial : slice' b 8 20 = fitTo 20 Config.moduleSerial) (htype : tokType b = 1 ∨ tokType b = 2 ∨ tokType b = 3)
    (hnonce : (s.sec.nonces.any fun y => y.value == BitVec.ofNat 64 (fld b 32 8)) = true) (hreason : tokenReason s b = none) :
    exec (.authorizationSubmitToken e) s = .next { atCount e.cnt s with
      sec := secHolding (atCount e.cnt s) b, cqes := s.cqes ++ [cqeOf e (nextFreeHandle s) []] } := by
  have hrow : exec (.authorizationSubmitToken e) s = .next (admin (asAdmin 0xD9 e) (submitToken (asAdmin 0xD9 e)) s) := by
    have hsel : (if d10 e 1 0 = 1 then with10 1 0 0 (asAdmin 0xD9 e) else asAdmin 0xD9 e) = asAdmin 0xD9 e := if_neg (by omega)
    exact congrArg (fun y => Host.Outcome.next (admin y (submitToken y) s)) hsel
  have hsubmit := submitToken_eq (x := asAdmin 0xD9 e) (u := atCount e.cnt s) hop hrsvd hn hmax hdlen hb hform hserial htype hnonce hreason
  exact hrow.trans (congrArg Host.Outcome.next ((admin_row h _).trans (hsubmit.trans (finish_success h (takesCqes_of_ctrls (takesCqes_of_admits h))))))

/-! ### Guard levels (R330, R333). -/
/-- Telling the hosts of an event queues no change record. -/
@[simp] theorem changeQ_aenDeliver (p : Port) (u : State) : (aenDeliver p u).events.changeQ = u.events.changeQ := by
  unfold aenDeliver
  dsimp only
  split
  · simp [send, updEvents]
  · rfl
@[simp] theorem changeQ_aenPage (page : Nat) (u : State) : (aenPage page u).events.changeQ = u.events.changeQ := by
  unfold aenPage
  split
  · rfl
  · simp [aenBoth, aenPort, updEvents]

/-- Telling the hosts of an event leaves the security state, the cards, the slices and the namespaces. -/
theorem aenPage_keeps (page : Nat) (u : State) :
    (aenPage page u).sec = u.sec ∧ (aenPage page u).pair = u.pair ∧ (aenPage page u).slices = u.slices ∧ (aenPage page u).nss = u.nss := by
  have htold := (tells_aenPage page u).eq
  exact ⟨(congrArg State.sec htold :), (congrArg State.pair htold :), (congrArg State.slices htold :), (congrArg State.nss htold :)⟩

/-- A controller card whose level-2 fuse is blown (R330). -/
def fused (c : Card) : Card := { c with sealed := true }
/-- Level 2 in force, before the hosts are told. -/
def levelTwo (u : State) : State :=
  updSec (fun y => { y with level := 2, nonces := [], tokens := [], attestQ := [], reports := [], running := none }) (updCard .cb fused (updCard .ca fused u))

theorem setLevel_two (u : State) : setLevel 2 u = aenPage 0xCC (levelTwo u) := by
  unfold setLevel
  simp only [if_true]
  rfl

theorem guardRaise_eq {k : Token} (hrsvd : rsvdOk 3 0xFFFF 0 0 0 0 x = true) (hlevel : d10 x 1 0 = 2) (hcalm : calm u = true)
    (htoken : heldToken u (d11 x 15 0) 1 = some k) (hto : fld k.body 1 1 = 2) (hfrom : fld k.body 0 1 = 1) (hone : u.sec.level = 1) (hkeys : u.sec.keys ≠ []) :
    guardChange x u = ends x (0, 0) 2 0 [] (aenPage 0xCC (levelTwo (useToken x k u))) := by
  have hin : (useToken x k u).sec.level = 1 := hone
  have hsome : (useToken x k u).sec.keys ≠ [] := hkeys
  unfold guardChange
  dsimp only
  rw [hrsvd, hlevel, if_neg (by decide), hcalm, if_neg (by decide), htoken]
  dsimp only
  rw [hto, hfrom, hin, if_neg (by decide), if_neg (by decide), if_neg (by omega), if_neg (fun hno => hsome hno.2), if_pos ⟨rfl, rfl⟩, setLevel_two]

theorem guardRaise_row {k : Token} (h : s.admits e = true) (hrsvd : rsvdOk 3 0xFFFF 0 0 0 0 e = true) (hlevel : d10 e 1 0 = 2) (hcalm : calm s = true)
    (htoken : heldToken s (d11 e 15 0) 1 = some k) (hto : fld k.body 1 1 = 2) (hfrom : fld k.body 0 1 = 1) (hone : s.sec.level = 1) (hkeys : s.sec.keys ≠ []) :
    ∃ t, exec (.guardLevelChange e) s = .next t ∧ t.sec.level = 2 ∧ t.pair.ca.sealed = true ∧ t.pair.cb.sealed = true ∧ t.sec.nonces = [] ∧
      t.sec.tokens = [] ∧ t.sec.mrkGen = s.sec.mrkGen ∧ t.slices = s.slices ∧ t.nss = s.nss ∧
      ∃ r, t.events.changeQ = s.events.changeQ ++ [(r, some { cqeOf e 2 [] with nsid := e.nsid })] := by
  have hraise := guardRaise_eq (x := asAdmin 0xDC e) (u := atCount e.cnt s) hrsvd hlevel hcalm htoken hto hfrom hone hkeys
  obtain ⟨r, hends⟩ := ends_change (x := asAdmin 0xDC e) (dw0 := 2) (u := aenPage 0xCC (levelTwo (useToken (asAdmin 0xDC e) k (atCount e.cnt s)))) rfl
  obtain ⟨hsec, hpair, hslices, hnss⟩ := aenPage_keeps 0xCC (levelTwo (useToken (asAdmin 0xDC e) k (atCount e.cnt s)))
  refine ⟨_, congrArg Host.Outcome.next ((admin_row h _).trans (hraise.trans hends)), (congrArg Security.level hsec :),
    (congrArg (fun p : PairSt => p.ca.sealed) hpair :), (congrArg (fun p : PairSt => p.cb.sealed) hpair :), (congrArg Security.nonces hsec :),
    (congrArg Security.tokens hsec :), (congrArg Security.mrkGen hsec :),
    hslices, hnss, r, ?_⟩
  exact congrArg (· ++ [_]) (changeQ_aenPage _ _)

/-! ### Sanitize and Format (R338). -/
theorem sanitizeBegin_eq (haction : d10 x 2 0 = 4) (hcalm : calm u = true) :
    sanitizeBegin x u = beginErase x 0 (updSec (fun y => { y with sprog := 0, sstat := 2, sanCdw10 := x.cdw10.toNat }) u) := by
  unfold sanitizeBegin
  rw [if_neg (not_not.2 haction), hcalm]
  rfl
theorem formatNvm_eq (hlive : liveNs u x.nsid = true) (hses : d10 x 11 9 ≤ 2) (hformat : formatOk (d10 x 3 0) (d10 x 4 4) (d10 x 7 5) = true) :
    formatNvm x u = (addJob x false 0 u).2 := by
  unfold formatNvm
  rw [hlive, hformat, if_neg (by simp), if_neg (not_lt.2 hses)]
  rfl

/-! ### Event Clear (R385). -/
theorem clearChecked_eq {scope : Nat} {k : Token} {run : Token → State → State} (hrsvd : rsvdOk 0x10F 0xFFFF 0 0 0 0 x = true)
    (hca : u.pair.ca.copying = false) (hcb : u.pair.cb.copying = false) (hfrond : scope = 0 → frondAbsent u (d10 x 3 0) = false)
    (htoken : heldToken u (d11 x 15 0) 3 = some k) (hscope : fld k.body 0 1 = scope) (hunit : fld k.body 1 1 = d10 x 3 0) :
    clearChecked x scope run u = run k (useToken x k u) := by
  have hfree : ¬ (u.pair.ca.copying = true ∨ u.pair.cb.copying = true ∨ (scope = 0 ∧ frondAbsent u (d10 x 3 0) = true)) := by
    rw [hca, hcb]
    rintro (hcopies | hcopies | ⟨h0, habsent⟩)
    · cases hcopies
    · cases hcopies
    · exact Bool.false_ne_true ((hfrond h0).symm.trans habsent)
  unfold clearChecked
  dsimp only
  rw [hrsvd, if_neg (by decide), if_neg hfree, htoken]
  exact if_neg (by simp [hscope, hunit])

/-- A frond whose store holds the marker alone. -/
def storeCleared (m : EventRec) (g : FrondSt) : FrondSt :=
  { g with store := [m], storeQ := [], storeFull := false, storeDrop := 0, clears := (g.clears + 1) % 2 ^ 32 }
/-- The marker of an Event Clear. -/
def clearMarker (u : State) (gen scope f : Nat) (k : Token) : EventRec := mkRec u 4 5 (cardNo u.time.master) (clearData gen scope f k.keyId)

theorem frondAt_cleared (m : EventRec) (f : Nat) : frondAt (updFrond f (storeCleared m) u) f = storeCleared m (frondAt u f) := by
  have hne : storeCleared m (frondAt u f) ≠ {} := fun heq => List.cons_ne_nil _ _ (congrArg FrondSt.store heq)
  exact tget_tupd_of_ne ({} : FrondSt) u.fronds f (storeCleared m) hne

/-- Event Clear of a frond leaves its marker alone in the store, and the change record. -/
theorem clearFrond_done {k : Token} (hkind : isChange x = true) :
    ∃ t m, clearFrond x k u = t ∧ (frondAt t (d10 x 3 0)).store = [m] ∧ m.code = 4 ∧ (frondAt t (d10 x 3 0)).storeFull = false ∧
      (frondAt t (d10 x 3 0)).storeQ = [] ∧ t.events.recA = u.events.recA ∧ t.events.recB = u.events.recB ∧
      { t with events := u.events, sec := u.sec, fronds := u.fronds } = u := by
  obtain ⟨r, hends⟩ := ends_change (dw0 := 0)
    (u := updFrond (d10 x 3 0) (storeCleared (clearMarker u (recAt u u.time.master).clearGen 0 (d10 x 3 0) k)) u) hkind
  have hfrond := frondAt_cleared (u := u) (clearMarker u (recAt u u.time.master).clearGen 0 (d10 x 3 0) k) (d10 x 3 0)
  exact ⟨_, clearMarker u (recAt u u.time.master).clearGen 0 (d10 x 3 0) k, hends, congrArg FrondSt.store hfrond, rfl, congrArg FrondSt.storeFull hfrond,
    congrArg FrondSt.storeQ hfrond, rfl, rfl, rfl⟩

/-- A recorder that has been cleared. -/
def recorderCleared (gen : Nat) : Recorder := { clearGen := gen }
/-- The generation of the next Event Clear of the module. -/
def nextClearGen (u : State) : Nat := ((recAt u u.time.master).clearGen + 1) % 2 ^ 32
/-- The event state of a module that has been cleared: the marker comes first. -/
def eventsCleared (m : EventRec) (gen : Nat) (ev : Events) : Events :=
  { ev with sumQ := m :: ev.sumQ, changeQ := [], writing := [], dropped := 0, suppressed := 0, erasedTo := some 0,
            recA := recorderCleared gen, recB := recorderCleared gen }
/-- Both recorders are empty. -/
def moduleCleared (m : EventRec) (u : State) : State :=
  updSheaf (fun y => { y with eventAcked := 0, eventSent := 0 }) (updEvents (eventsCleared m (nextClearGen u)) u)
/-- The change records that were not yet written: they follow that of the Event Clear. -/
def changesWaiting (u : State) : List (EventRec × Option Cqe) :=
  (u.events.writing.filter fun y => y.1.cls == 3 || y.2.isSome).map (fun (y : EventRec × Option Cqe) => ({ y.1 with reserve := false }, y.2)) ++ u.events.changeQ

theorem clearModule_eq (x : Sqe) (k : Token) (u : State) :
    clearModule x k u = updEvents (fun ev => { ev with changeQ := ev.changeQ ++ changesWaiting u })
      (done x (moduleCleared (clearMarker u (nextClearGen u) 1 (d10 x 3 0) k) u)) := rfl

/-- Event Clear of the module empties both recorders under a new generation; the command's change record comes before those that wait. -/
theorem clearModule_done {k : Token} (hkind : isChange x = true) :
    ∃ t m r, clearModule x k u = t ∧ t.events.recA = recorderCleared (nextClearGen u) ∧ t.events.recB = recorderCleared (nextClearGen u) ∧
      t.events.sumQ = m :: u.events.sumQ ∧ m.code = 4 ∧ t.events.changeQ.head? = some (r, some { cqeOf x 0 [] with nsid := x.nsid }) ∧
      { t with events := u.events, sec := u.sec, sheaf := u.sheaf } = u := by
  obtain ⟨r, hends⟩ := ends_change (dw0 := 0) (u := moduleCleared (clearMarker u (nextClearGen u) 1 (d10 x 3 0) k) u) hkind
  rw [clearModule_eq, done, hends]
  refine ⟨_, clearMarker u (nextClearGen u) 1 (d10 x 3 0) k, r, rfl, rfl, rfl, rfl, rfl, rfl, ?_⟩
  simp only [updEvents, moduleCleared, updSheaf]

/-! ### The statement. -/
theorem eventClearFrond_row {y : Sqe} {f : Nat} {k : Token} (h : s.admits e = true) (hy : y = with10 8 8 0 e) (hf : f = d10 y 3 0)
    (hrsvd : rsvdOk 0x10F 0xFFFF 0 0 0 0 y = true) (hca : s.pair.ca.copying = false) (hcb : s.pair.cb.copying = false) (hfrond : frondAbsent s f = false)
    (htoken : heldToken s (d11 e 15 0) 3 = some k) (hscope : fld k.body 0 1 = 0) (hunit : fld k.body 1 1 = f) :
    ∃ t m, exec (.eventClearFrond e) s = .next t ∧ (frondAt t f).store = [m] ∧ m.code = 4 ∧ (frondAt t f).storeFull = false ∧ (frondAt t f).storeQ = [] ∧
      t.events.recA = s.events.recA ∧ t.events.recB = s.events.recB ∧ { t with events := s.events, sec := s.sec, time := s.time, fronds := s.fronds } = s := by
  subst hy hf
  have hchecked := clearChecked_eq (x := with10 8 8 0 (asAdmin 0xE8 e)) (u := atCount e.cnt s) (run := clearFrond (with10 8 8 0 (asAdmin 0xE8 e))) hrsvd hca hcb
    (fun _ => hfrond) htoken hscope hunit
  obtain ⟨t, m, hclear, hstore, hcode, hfull, hqueue, hrecA, hrecB, hrest⟩ := clearFrond_done (x := with10 8 8 0 (asAdmin 0xE8 e)) (k := k)
    (u := useToken (with10 8 8 0 (asAdmin 0xE8 e)) k (atCount e.cnt s)) rfl
  exact ⟨t, m, congrArg Host.Outcome.next ((admin_row h _).trans (hchecked.trans hclear)), hstore, hcode, hfull, hqueue, hrecA, hrecB,
    congrArg (fun v : State => { v with events := s.events, sec := s.sec, time := s.time }) hrest⟩

theorem eventClearModule_row {y : Sqe} {k : Token} (h : s.admits e = true) (hy : y = with10 8 8 1 e) (hrsvd : rsvdOk 0x10F 0xFFFF 0 0 0 0 y = true)
    (hca : s.pair.ca.copying = false) (hcb : s.pair.cb.copying = false) (htoken : heldToken s (d11 e 15 0) 3 = some k) (hscope : fld k.body 0 1 = 1)
    (hunit : fld k.body 1 1 = d10 y 3 0) :
    ∃ t m r, exec (.eventClearModule e) s = .next t ∧ t.events.recA = recorderCleared (nextClearGen s) ∧ t.events.recB = recorderCleared (nextClearGen s) ∧
      t.events.sumQ = m :: s.events.sumQ ∧ m.code = 4 ∧ t.events.changeQ.head? = some (r, some { cqeOf e 0 [] with nsid := e.nsid }) ∧
      { t with events := s.events, sec := s.sec, time := s.time, sheaf := s.sheaf } = s := by
  subst hy
  have hchecked := clearChecked_eq (x := with10 8 8 1 (asAdmin 0xE8 e)) (u := atCount e.cnt s) (run := clearModule (with10 8 8 1 (asAdmin 0xE8 e))) hrsvd hca hcb
    (fun h0 => absurd h0 (by decide)) htoken hscope hunit
  obtain ⟨t, m, r, hclear, hrecA, hrecB, hsum, hcode, hchange, hrest⟩ := clearModule_done (x := with10 8 8 1 (asAdmin 0xE8 e)) (k := k)
    (u := useToken (with10 8 8 1 (asAdmin 0xE8 e)) k (atCount e.cnt s)) rfl
  exact ⟨t, m, r, congrArg Host.Outcome.next ((admin_row h _).trans (hchecked.trans hclear)), hrecA, hrecB, hsum, hcode, hchange,
    congrArg (fun v : State => { v with events := s.events, sec := s.sec, time := s.time }) hrest⟩

theorem sanitize_row (h : s.admits e = true) (haction : d10 e 2 0 = 4) (hcalm : calm s = true) :
    exec (.sanitize e) s = .next (beginErase (asAdmin 0x84 e) 0
      (updSec (fun y => { y with sprog := 0, sstat := 2, sanCdw10 := e.cdw10.toNat }) (atCount e.cnt s))) :=
  congrArg Host.Outcome.next ((admin_row h _).trans (sanitizeBegin_eq (x := asAdmin 0x84 e) (u := atCount e.cnt s) haction hcalm))
theorem formatNvm_row (h : s.admits e = true) (hlive : liveNs s e.nsid = true) (hses : d10 e 11 9 ≤ 2)
    (hformat : formatOk (d10 e 3 0) (d10 e 4 4) (d10 e 7 5) = true) : exec (.formatNvm e) s = .next (addJob (asAdmin 0x80 e) false 0 (atCount e.cnt s)).2 :=
  congrArg Host.Outcome.next ((admin_row h _).trans (formatNvm_eq (x := asAdmin 0x80 e) (u := atCount e.cnt s) hlive hses hformat))

/-- Settles O17: each command passes its checks, and what it writes is read off the state it leaves. -/
theorem securityCommandsTakeEffect : Obligations.SecurityCommandsTakeEffect := by
  refine ⟨fun s e h hrsvd => ?nonce, fun s e b h hop hrsvd hn hmax hdlen hb hform hserial htype hnonce hreason => ?token,
    fun s e k h hrsvd hlevel hcalm htoken hto hfrom hone hkeys => guardRaise_row h hrsvd hlevel hcalm htoken hto hfrom hone hkeys,
    fun s e h haction hcalm => ?sanitize, fun s e h hlive hses hformat => ?format,
    fun s e y f k _ h hy hf hrsvd hca hcb hfrond htoken hscope hunit => eventClearFrond_row h hy hf hrsvd hca hcb hfrond htoken hscope hunit,
    fun s e y k h hy hrsvd hca hcb htoken hscope hunit => ?module⟩
  case nonce => exact ⟨_, issueNonce_row h hrsvd, rfl, rfl, length_nonceKept _ _, getLast?_nonceKept _ _, rfl⟩
  case token =>
    refine ⟨_, tokenHeld (atCount e.cnt s) b, nextFreeHandle s, submitToken_row h hop hrsvd hn hmax hdlen hb hform hserial htype hnonce hreason,
      rfl, rfl, rfl, rfl, rfl, rfl, fun y hy => ?_, rfl, rfl, rfl, rfl⟩
    exact bne_iff_ne.1 (List.mem_filter.1 hy).2
  case sanitize => exact ⟨_, _, sanitize_row h haction hcalm, rfl, rfl, rfl, rfl, rfl, rfl⟩
  case format => exact ⟨_, _, formatNvm_row h hlive hses hformat, rfl, rfl, rfl, rfl⟩
  case module =>
    obtain ⟨t, m, r, hexec, hrecA, hrecB, hsum, hcode, hchange, hrest⟩ := eventClearModule_row h hy hrsvd hca hcb htoken hscope hunit
    exact ⟨t, m, r, hexec, congrArg Recorder.main hrecA, congrArg Recorder.main hrecB, congrArg Recorder.reserve hrecA, congrArg Recorder.clearGen hrecA,
      congrArg Recorder.clearGen (hrecB.trans hrecA.symm), hsum, hcode, hchange, hrest⟩

end Sys2Proof.Laws
end

