-- ==== Sys2Proof/Proofs/ControllerResetCounterexample.lean ====
section
/-! PROOFS. O21 fails: a reset closes the opened zones of the port's namespaces one by one, and its clause that the zone table lists the same
keys in the same order has no premise that the tables are canonical. -/
namespace Sys2Proof.Laws
open Sys2Proof Sys2Proof.Machine

/-- An opened zone. -/
def zoneLeftOpen : Zone := { st := .implOpen }
/-- A running module with a zoned namespace attached to both ports, whose zone table lists zone 5 before zone 3, both opened. -/
def zonesOutOfOrder : State :=
  { State.reset with
    c0 := { State.reset.c0 with link := true, rdy := true }
    nss := [(1, { used := true, zoned := true, nsze := 8388608, slice := some 0, att := ⟨true, true⟩ })]
    zones := [(zoneKey 1 5, zoneLeftOpen), (zoneKey 1 3, zoneLeftOpen)] }

/-- The write of zone 3 finds no place past zone 5, and the table lists it twice. -/
theorem functionLevelReset_lists_zone_twice :
    shows (fun t => t.zones.map Prod.fst) (exec (.functionLevelReset .h0) zonesOutOfOrder) = some [zoneKey 1 3, zoneKey 1 5, zoneKey 1 3] := by
  decide +kernel

/-- Refutes O21: with zones listed out of order a Function Level Reset adds an entry to the zone table. -/
theorem not_controllerResetsClearTheController : ¬ Obligations.ControllerResetsClearTheController := by
  intro hresets
  obtain ⟨t, ht, -, -, -, -, -, -, -, hzones, -⟩ := hresets .h0 zonesOutOfOrder (.functionLevelReset .h0) (.inr (.inl rfl)) rfl rfl
    (by decide +kernel) (by decide +kernel)
  have hshown := eq_of_shows ht functionLevelReset_lists_zone_twice
  exact absurd (hshown.symm.trans hzones) (by decide)

end Sys2Proof.Laws
end

