-- ==== Sys2Proof/Proofs/FetchThenRow.lean ====
section
/-! OBLIGATION. O38: an I/O row that fetches its own entry is COMMAND_FETCH followed by the row (R159, R171, R288). -/
namespace Sys2Proof.Laws
open Sys2Proof Sys2Proof.Machine

variable {s : State} {e : Sqe}

/-! ### The command that the fetch makes is found again. -/
theorem fetchable_of_tryFetch (h : (tryFetch e s).isSome = true) : Fetchable e s := by
  unfold tryFetch at h
  dsimp only at h
  split at h
  next => cases h
  next hopen =>
    simp only [not_or, Bool.not_eq_true', Bool.not_eq_false, Bool.not_eq_true, not_and_or, not_not] at hopen
    obtain ⟨io, port, used, thawed, waits, slice, stays⟩ := hopen
    exact ⟨io, port, used, thawed, waits, slice, stays⟩

theorem Fetchable.of_atCount {n : Nat} (h : Fetchable e (atCount n s)) : Fetchable e s :=
  ⟨h.io, h.port, h.used, h.thawed, h.waits, h.slice, h.stays⟩

/-- The entry is that of a fetched command which is at its card. -/
def isOf (e : Sqe) (c : Nat × Cmd) : Bool := c.2.st == .fetched && c.2.fwd.isNone && c.2.e.port == e.port && c.2.e.sqid == e.sqid && c.2.e.cid == e.cid

theorem mem_tins_self {α : Type} (l : Tbl α) (k : Nat) (v : α) : (k, v) ∈ tins l k v := by
  induction l with
  | nil => exact List.mem_cons_self
  | cons q r ih =>
    rw [tins]
    split
    · exact List.mem_cons_self
    · split
      · exact List.mem_cons_self
      · exact List.mem_cons_of_mem _ ih
/-- What alone meets a condition is found in the table. -/
theorem find?_tins {α : Type} {l : Tbl α} {k : Nat} {v : α} {P : Nat × α → Bool} (hnone : l.any P = false) (hv : P (k, v) = true) :
    (tins l k v).find? P = some (k, v) := by
  cases hfind : (tins l k v).find? P with
  | none => exact absurd hv (List.find?_eq_none.1 hfind _ (mem_tins_self l k v))
  | some p =>
    rcases mem_tins l k v p (List.mem_of_find?_eq_some hfind) with rfl | hmem
    · rfl
    · exact absurd (List.find?_some hfind) (by simpa using List.any_eq_false.1 hnone p hmem)

/-- Without a command of the entry a row fetches it. -/
theorem fetched_of_none (hnone : s.cmds.any (isOf e) = false) : fetched e s = tryFetch e (atCount e.cnt s) := by
  unfold fetched
  dsimp only
  have hfind : (atCount e.cnt s).cmds.find? (isOf e) = none := List.find?_eq_none.2 fun c hc => by simpa using List.any_eq_false.1 hnone c hc
  unfold isOf at hfind
  rw [hfind]

/-- A command takes over the entry of its row. -/
def takesEntry (e : Sqe) (c : Cmd) : Cmd := { c with e := e, kind := kindOf e.opc, lba := firstLba e, nlb := blocksOf e }
theorem takesEntry_commandOf {c : Cmd} (h : { c with locks := (commandOf e s).locks, since := (commandOf e s).since } = commandOf e s) : takesEntry e c = c := by
  have he : c.e = e := (congrArg Cmd.e h :)
  have hkind : c.kind = kindOf e.opc := (congrArg Cmd.kind h :)
  have hlba : c.lba = firstLba e := (congrArg Cmd.lba h :)
  have hnlb : c.nlb = blocksOf e := (congrArg Cmd.nlb h :)
  cases c
  simp only at he hkind hlba hnlb
  subst he hkind hlba hnlb
  rfl

/-- The row finds the command that the fetch has made, and leaves it as it is. -/
theorem fetched_of_fetched {t : State} {c : Cmd} (hrising : rising s.cmds = true) (hnone : s.cmds.any (isOf e) = false)
    (hfetched : Fetched e c s t) (hcount : atCount e.cnt t = t) : fetched e t = some (s.next, t) := by
  obtain ⟨-, -, -, hcmds, hcommand, -, -⟩ := hfetched
  have he : c.e = e := (congrArg Cmd.e hcommand :)
  have hst : c.st = .fetched := (congrArg Cmd.st hcommand :)
  have hfwd : c.fwd = none := (congrArg Cmd.fwd hcommand :)
  have hfind : t.cmds.find? (isOf e) = some (s.next, c) := by
    rw [hcmds]
    exact find?_tins hnone (by simp [isOf, he, hst, hfwd])
  have hsame : updCmd s.next (takesEntry e) t = t := by
    rw [updCmd, hcmds, tmod_tins _ _ _ _ hrising, takesEntry_commandOf hcommand, ← hcmds]
  unfold fetched
  dsimp only
  rw [hcount]
  unfold isOf at hfind
  rw [hfind]
  dsimp only
  rw [he, if_neg (fun hlocks => hlocks.2 rfl)]
  exact congrArg (fun v => some (s.next, v)) hsame

/-! ### The fetch leaves the instant. -/
theorem time_locksAsked (e : Sqe) (s : State) : (locksAsked e s).time = s.time := by
  obtain ⟨g, a, b, hasks, -⟩ := asksLocks_locksAsked e s
  rw [hasks]
  exact time_admitted e s
theorem next_admitted (e : Sqe) (s : State) : (admitted e s).2.next = s.next := by
  obtain ⟨r, f, hcounted⟩ := counted_updates e s
  exact (congrArg State.next (charged_admitted e s).rest :).trans (by rw [hcounted])
theorem atCount_of_time {n : Nat} {t : State} (h : t.time = (atCount n s).time) : atCount n t = t := by
  have htime : { t.time with count := n } = t.time := by rw [h]; rfl
  exact congrArg (fun x => ({ t with time := x } : State)) htime

/-- An entry that can be fetched now is fetched by the row as COMMAND_FETCH fetches it, and then taken as it was fetched. -/
theorem fetched_commandFetch (hc : s.canonical = true) (hnone : s.cmds.any (isOf e) = false) (h : Fetchable e (atCount e.cnt s)) :
    fetched e s = some (s.next, locksAsked e (atCount e.cnt s)) ∧
      fetched e (locksAsked e (atCount e.cnt s)) = some (s.next, locksAsked e (atCount e.cnt s)) := by
  obtain ⟨hcmds, hslices, hsqs⟩ := rising_of_canonical hc
  obtain ⟨c, hfetched⟩ := fetched_locksAsked (s := atCount e.cnt s) hcmds hslices hsqs e
  refine ⟨?_, fetched_of_fetched (s := atCount e.cnt s) hcmds hnone hfetched (atCount_of_time (time_locksAsked e _))⟩
  rw [fetched_of_none hnone, tryFetch_eq h, next_admitted]
  rfl
/-- A row whose command is there runs it at its owner (R288). -/
theorem ioRun_of_fetched {run : Nat → State → State} {k : Nat} {t : State} (h : fetched e s = some (k, t)) : ioRun e run s = atOwner run k t := by
  unfold ioRun
  rw [h]

/-! ### The statement. -/
/-- Settles O38: the rows differ in the entry and in what they run, and each asks `fetched` for its command. -/
theorem rowsFetchTheirEntryOrTakeItFetched : Obligations.RowsFetchTheirEntryOrTakeItFetched := by
  intro r hr e s hc hown hio hnone hsome
  have hopen := fetchable_of_tryFetch hsome
  have hrow : ∃ run, ∀ v, exec (r.1 e) v = .next (ioRun (r.2 e) run v) := by
    simp only [List.mem_cons, List.not_mem_nil, or_false] at hr
    rcases hr with rfl | rfl | rfl | rfl | rfl | rfl | rfl | rfl | rfl | rfl | rfl | rfl | rfl | rfl | rfl | rfl | rfl | rfl | rfl <;>
      exact ⟨_, fun _ => rfl⟩
  obtain ⟨run, hrun⟩ := hrow
  refine ⟨_, commandFetch_io hopen.of_atCount, ?_⟩
  obtain ⟨hnow, hafter⟩ := fetched_commandFetch hc hnone hopen
  rw [hrun, hrun, hown, ioRun_of_fetched hnow, ioRun_of_fetched hafter]

end Sys2Proof.Laws
end

