-- ==== Sys2Proof/Proofs/ManagementInterface.lean ====
section
/-! OBLIGATION. O57: the SMBus endpoint answers block reads, MCTP control, Management Interface commands and tunnelled admin commands (R188, R189,
R190, R191). -/
namespace Sys2Proof.Laws
open Sys2Proof Sys2Proof.Machine

variable {s : State}

/-! ### The response. -/
/-- The state in which the endpoint has answered. -/
def answered (status : Nat) (body : List Byte) (s : State) : State :=
  { s with tx := s.tx ++ [.mi (byte status :: body)], mi := { s.mi with status := status, resp := body } }

theorem respond_serving (h : miServes s = true) (status : Nat) (body : List Byte) : respond status body s = answered status body s := if_pos h
theorem respond_silent (h : miServes s = false) (status : Nat) (body : List Byte) : respond status body s = s := if_neg (by rw [h]; decide)

/-- A request that is answered is answered by the module that serves. -/
theorem answers {i : Instr} {status : Nat} {body : List Byte} (h : miServes s = true) (hexec : exec i s = .next (respond status body s)) :
    ∃ t, exec i s = .next t ∧ s.answersMi t status body :=
  ⟨_, hexec, respond_serving h status body⟩
theorem answersWithLength {i : Instr} {status n : Nat} {body : List Byte} (h : miServes s = true) (hexec : exec i s = .next (respond status body s))
    (hlen : body.length = n) : ∃ t b, exec i s = .next t ∧ s.answersMi t status b ∧ b.length = n :=
  ⟨_, body, hexec, respond_serving h status body, hlen⟩

/-! ### Block reads and MCTP control (R188, R190). -/
theorem smbusBlockRead_reserved {o : Nat} (h0 : o ≠ 0) (h8 : o ≠ 8) : exec (.smbusBlockRead o) s = .next (respond 32 (zeros 32) s) := by
  show execSmbusBlockRead o s = _
  unfold execSmbusBlockRead
  split
  · exact absurd rfl h0
  · exact absurd rfl h8
  · rfl
theorem setEndpointId_valid {v : BitVec 8} (h : miServes s = true) (h0 : v ≠ 0) (hff : v ≠ 0xFF) :
    exec (.setEndpointId v) s = .next (answered 0 [0, v, 0] { s with mi := { s.mi with eid := v } }) := by
  have hvalid : ¬ (v = 0 ∨ v = 0xFF) := not_or.2 ⟨h0, hff⟩
  exact congrArg Host.Outcome.next ((if_neg hvalid).trans ((if_pos h).trans (respond_serving (s := { s with mi := { s.mi with eid := v } }) h _ _)))
theorem getMctpVersionSupport_base {v : BitVec 8} (h : v = 0 ∨ v = 0xFF) : exec (.getMctpVersionSupport v) s = .next (respond 0 [1, 0xF1, 0xF3, 0xFF, 0] s) :=
  congrArg Host.Outcome.next (if_pos h.symm)
theorem mctpUnsupportedControl_other {v : BitVec 8} (h : v = 0 ∨ 5 < v.toNat) : exec (.mctpUnsupportedControl v) s = .next (respond 5 [] s) := by
  refine congrArg Host.Outcome.next (if_neg ?_)
  rcases h with rfl | h
  · decide
  · omega

/-! ### Data structures and health (R189). -/
theorem length_miStruct (name : String) (n : Nat) (l : List (Nat × Byte)) : (miStruct name n l).length = n := by simp [miStruct]

/-- A structure of 32 bytes answers the types 0, 1 and 3 for what exists. -/
theorem readDataStructure_known {d : BitVec 8} {n : Nat} (h : d = 0 ∨ d = 1 ∧ n ≤ 2 ∨ d = 3 ∧ 1 ≤ n ∧ n ≤ 2) :
    ∃ b, exec (.readNvmeMiDataStructure d n) s = .next (respond 0 b s) ∧ b.length = 32 := by
  rcases h with rfl | ⟨rfl, hn⟩ | ⟨rfl, hn, hmax⟩
  · exact ⟨_, rfl, length_miStruct _ _ _⟩
  · by_cases hpcie : n ≤ 1
    · exact ⟨_, congrArg Host.Outcome.next (if_pos hpcie), length_miStruct _ _ _⟩
    · exact ⟨_, congrArg Host.Outcome.next ((if_neg hpcie).trans (if_pos (by omega))), length_miStruct _ _ _⟩
  · exact ⟨_, congrArg Host.Outcome.next (if_pos (by omega)), length_miStruct _ _ _⟩
theorem readDataStructure_unknown {d : BitVec 8} {n : Nat} (h : 3 < d.toNat ∨ d = 1 ∧ 2 < n ∨ d = 3 ∧ (n = 0 ∨ 2 < n)) :
    exec (.readNvmeMiDataStructure d n) s = .next (respond miBadParameter [] s) := by
  rcases h with h | ⟨rfl, hn⟩ | ⟨rfl, hn⟩
  · show execReadNvmeMiDataStructure d n s = _
    unfold execReadNvmeMiDataStructure
    split
    pick_goal -1
    · rfl
    all_goals omega
  · exact congrArg Host.Outcome.next ((if_neg (by omega)).trans (if_neg (by omega)))
  · exact congrArg Host.Outcome.next (if_neg (by omega))

/-- The body of a health poll of the subsystem: its health, and then the changed-status bits. -/
def healthBody (s : State) : List Byte :=
  [byte (0x20 * b2n (s.c0.rdy || s.c1.rdy) + 8 * b2n s.c0.link + 4 * b2n s.c1.link), byte (smartWarnings s), byte (tempByte (composite s)),
    byte (min 255 (percentUsed s))] ++ le 2 (s.mi.changed.a ||| s.mi.changed.b) ++ [0, 0]
/-- The changed-status bits as a poll leaves them. -/
def polled (clear : Bool) (m : Mi) : Mi := { m with changed := if clear then ⟨0, 0⟩ else m.changed }

theorem healthPoll_serving (h : miServes s = true) (clear : Bool) :
    exec (.nvmSubsystemHealthStatusPoll clear) s = .next (answered 0 (healthBody s) { s with mi := polled clear s.mi }) := by
  have hserves : miServes { s with mi := polled clear s.mi } = true := h
  show execNvmSubsystemHealthStatusPoll clear s = _
  rw [← respond_serving hserves]
  cases clear with
  | true => exact congrArg Host.Outcome.next (if_pos ⟨rfl, h⟩)
  | false => exact congrArg Host.Outcome.next (if_neg fun hclear => Bool.false_ne_true hclear.1)

/-! ### Configuration (R189, R348). -/
theorem configurationGet_other {v : BitVec 8} (h1 : v ≠ 1) (h3 : v ≠ 3) : exec (.configurationGet v) s = .next (respond miBadParameter [] s) := by
  show execConfigurationGet v s = _
  unfold execConfigurationGet
  split
  next hv => exact absurd (BitVec.eq_of_toNat_eq (y := 1) hv) h1
  next hv => exact absurd (BitVec.eq_of_toNat_eq (y := 3) hv) h3
  next => rfl
theorem configurationSet_other {v : BitVec 8} (h : miServes s = true) (h1 : v ≠ 1) (h3 : v ≠ 3) (n : Nat) :
    exec (.configurationSet v n) s = .next (respond miBadParameter [] s) := by
  show execConfigurationSet v n s = _
  unfold execConfigurationSet
  rw [h, if_neg (by decide)]
  split
  next hv => exact absurd (BitVec.eq_of_toNat_eq (y := 1) hv) h1
  next hv => exact absurd (BitVec.eq_of_toNat_eq (y := 3) hv) h3
  next => rfl

/-- A configuration that is set awaits its change record. -/
theorem configured_room (hroom : changeRoom s = true) (ident : Nat) (g : Mi → Mi) :
    configured ident g s = change 0x03 ident 3 0 0 0 0 [] none { s with mi := { g s.mi with awaiting := some s.time.master } } :=
  if_neg (by rw [hroom]; decide)
theorem setFrequency (h : miServes s = true) {n : Nat} (hn : n = 1 ∨ n = 2) :
    exec (.configurationSet 1 n) s = .next (configured 1 (fun m => { m with freq := n }) s) :=
  congrArg Host.Outcome.next ((if_neg (by rw [h]; decide)).trans (if_pos hn))
theorem setTransmissionUnit (h : miServes s = true) {n : Nat} (hn : 64 ≤ n ∧ n ≤ 250) :
    exec (.configurationSet 3 n) s = .next (configured 3 (fun m => { m with mtu := n }) s) :=
  congrArg Host.Outcome.next ((if_neg (by rw [h]; decide)).trans (if_pos hn))
theorem setFrequency_bad (h : miServes s = true) {n : Nat} (hn : n = 0 ∨ 2 < n) :
    exec (.configurationSet 1 n) s = .next (respond miBadParameter [] s) :=
  congrArg Host.Outcome.next ((if_neg (by rw [h]; decide)).trans (if_neg (by omega)))
theorem setTransmissionUnit_bad (h : miServes s = true) {n : Nat} (hn : n < 64 ∨ 250 < n) :
    exec (.configurationSet 3 n) s = .next (respond miBadParameter [] s) :=
  congrArg Host.Outcome.next ((if_neg (by rw [h]; decide)).trans (if_neg (by omega)))

/-- A Configuration Set in range is in force and queues its change record of origin 3. -/
theorem configurationSet_inRange (h : miServes s = true) (hroom : changeRoom s = true) {v : BitVec 8} {n : Nat}
    (hn : v = 1 ∧ (n = 1 ∨ n = 2) ∨ v = 3 ∧ 64 ≤ n ∧ n ≤ 250) :
    ∃ (t : State) (r : EventRec), exec (.configurationSet v n) s = .next t ∧
      t.mi = { s.mi with freq := if v = 1 then n else s.mi.freq, mtu := if v = 3 then n else s.mi.mtu, awaiting := some s.time.master } ∧
      t.events = { s.events with changeQ := s.events.changeQ ++ [(r, none)] } ∧ r.code = 0x10 ∧ r.data = changeData 0x03 v.toNat 3 0 0 0 0 [] ∧
      { t with mi := s.mi, events := s.events } = s := by
  rcases hn with ⟨rfl, hn⟩ | ⟨rfl, hn⟩
  · exact ⟨_, _, (setFrequency h hn).trans (congrArg Host.Outcome.next (configured_room hroom _ _)), rfl, rfl, rfl, rfl, rfl⟩
  · exact ⟨_, _, (setTransmissionUnit h hn).trans (congrArg Host.Outcome.next (configured_room hroom _ _)), rfl, rfl, rfl, rfl, rfl⟩

/-! ### Vital product data (R188). -/
theorem vpdRead_in {o n : Nat} (h : o + n ≤ 256) : exec (.vpdRead o n) s =
    .next (respond 0 ([0, 0, 0] ++ (List.range n).map fun i => Config.vpdByte (vpdContent s) (o + i)) s) :=
  congrArg Host.Outcome.next (if_neg (not_lt.2 h))
theorem vpdRead_out {o n : Nat} (h : 256 < o + n) : exec (.vpdRead o n) s = .next (respond miBadParameter [] s) :=
  congrArg Host.Outcome.next (if_pos h)

/-! ### Tunnelled admin commands (R189). -/
theorem miAdminIdentify_data {e : Sqe} {d : List Byte} (hcns : d10 e 7 0 ≤ 2) (hd : identifyData s e = .ok d) :
    exec (.miAdminIdentify e) s = .next (respond 0 (zeros 15 ++ d) s) := by
  show execMiAdminIdentify e s = _
  unfold execMiAdminIdentify
  rw [if_neg (not_lt.2 hcns), hd]
  rfl
theorem identifyData_controller {e : Sqe} (hcns : d10 e 7 0 = 1) : ∃ d, identifyData s e = .ok d := by
  unfold identifyData
  rw [hcns]
  exact ⟨_, rfl⟩
theorem miAdminGetLogPage_data {e : Sqe} {d : List Byte} (hlen : logBytes e ≤ 4096) (hd : logWindow s e (logBytes e) (logOffset e) = .ok d) :
    exec (.miAdminGetLogPage e) s = .next (respond 0 (zeros 15 ++ d) s) := by
  show execMiAdminGetLogPage e s = _
  unfold execMiAdminGetLogPage
  rw [if_neg (not_lt.2 hlen), hd]
  rfl
theorem miAdminGetLogPage_long {e : Sqe} (hlen : 4096 < logBytes e) : exec (.miAdminGetLogPage e) s = .next (respond 0 (zeros 11 ++ le 4 (2 * 2 ^ 17)) s) :=
  congrArg Host.Outcome.next (if_pos hlen)
theorem miAdminGetFeatures_current {e : Sqe} {n : Nat} {d : List Byte} (hsel : d10 e 10 8 = 0) (hvalue : featureValue s e true = some (n, d)) :
    exec (.miAdminGetFeatures e) s = .next (respond 0 (zeros 3 ++ le 4 n ++ zeros 8 ++ d) s) := by
  show execMiAdminGetFeatures e s = _
  unfold execMiAdminGetFeatures
  rw [hsel]
  dsimp only
  rw [hvalue]
  refine congrArg (fun b => Host.Outcome.next (respond 0 b s)) ?_
  simp only [List.append_assoc]
  rfl
theorem miUnsupportedCommand_admin {o : BitVec 8} (h2 : o ≠ 0x02) (h6 : o ≠ 0x06) (hA : o ≠ 0x0A) :
    exec (.miUnsupportedCommand true o) s = .next (respond 0 (zeros 11 ++ le 4 (1 * 2 ^ 17)) s) := by
  have hother : ¬ ([0x02, 0x06, 0x0A].contains o.toNat) = true := by
    simp only [List.contains_cons, List.contains_nil, Bool.or_false, Bool.or_eq_true, beq_iff_eq]
    rintro (h | h | h)
    · exact h2 (BitVec.eq_of_toNat_eq h)
    · exact h6 (BitVec.eq_of_toNat_eq h)
    · exact hA (BitVec.eq_of_toNat_eq h)
  exact congrArg Host.Outcome.next (if_neg hother)
theorem miUnsupportedCommand_mi {o : BitVec 8} (h : 5 < o.toNat) : exec (.miUnsupportedCommand false o) s = .next (respond miBadOpcode [] s) :=
  congrArg Host.Outcome.next (if_neg (not_le.2 h))

/-! ### A module that does not serve (R191). -/
theorem silent_requests (h : miServes s = false) : ∀ i ∈ [Instr.smbusBlockRead 0, .smbusBlockRead 8, .setEndpointId 1, .getEndpointId, .getEndpointUuid,
    .getMessageTypeSupport, .controllerHealthStatusPoll, .nvmSubsystemHealthStatusPoll true, .configurationSet 1 2, .vpdRead 0 256], exec i s = .next s := by
  have hsilent : ∀ (status : Nat) (body : List Byte), Host.Outcome.next (respond status body s) = (.next s : Out) := fun status body =>
    congrArg Host.Outcome.next (respond_silent h status body)
  have heid : exec (.setEndpointId 1) s = .next s := congrArg Host.Outcome.next ((if_neg (by decide)).trans (if_neg (by rw [h]; decide)))
  have hpoll : exec (.nvmSubsystemHealthStatusPoll true) s = .next (respond 0 (healthBody s) s) :=
    congrArg Host.Outcome.next (if_neg fun hclear => Bool.false_ne_true (h.symm.trans hclear.2))
  have hset : exec (.configurationSet 1 2) s = .next s := congrArg Host.Outcome.next (if_pos (by rw [h]; rfl))
  have hvpd := vpdRead_in (s := s) (show 0 + 256 ≤ 256 by decide)
  simp only [List.forall_mem_cons, List.not_mem_nil, false_implies, implies_true, and_true]
  exact ⟨hsilent _ _, hsilent _ _, heid, hsilent _ _, hsilent _ _, hsilent _ _, hsilent _ _, hpoll.trans (hsilent _ _), hset, hvpd.trans (hsilent _ _)⟩

/-! ### The statement. -/
/-- Settles O57: each request is one response, of the state as it stands or with the one value that the request sets. -/
theorem smbusAndMiRequestsAreAnswered : Obligations.SmbusAndMiRequestsAreAnswered := by
  refine ⟨fun s h => ⟨answers h rfl, answers h rfl, fun o h0 h8 => answers h (smbusBlockRead_reserved h0 h8), fun v h0 hff => ?eid, answers h rfl,
    answersWithLength h rfl (length_fitTo _ _), fun v hv => answers h (getMctpVersionSupport_base hv), answers h rfl,
    fun v hv => answers h (mctpUnsupportedControl_other hv), fun d n hd => ?known, answers h rfl, fun d n hd => answers h (readDataStructure_unknown hd),
    fun clear => ?poll, ?controllers, answers h rfl, answers h rfl,
    fun v h1 h3 => ⟨answers h (configurationGet_other h1 h3), fun n => answers h (configurationSet_other h h1 h3 n)⟩,
    fun hroom v n hn => configurationSet_inRange h hroom hn, fun n hn => answers h (setFrequency_bad h hn), fun n hn => answers h (setTransmissionUnit_bad h hn),
    fun o n => ⟨fun hin => ?vpd, fun hout => answers h (vpdRead_out hout)⟩, fun e d hcns hd => answers h (miAdminIdentify_data hcns hd),
    fun e hcns => identifyData_controller hcns, fun e d hlen hd => answers h (miAdminGetLogPage_data hlen hd), fun e hlen => answers h (miAdminGetLogPage_long hlen),
    fun e n d hsel hvalue => answers h (miAdminGetFeatures_current hsel hvalue),
    fun o h2 h6 hA => answers h (miUnsupportedCommand_admin h2 h6 hA), fun o ho => answers h (miUnsupportedCommand_mi ho)⟩,
    fun s h => silent_requests h⟩
  case eid => exact ⟨_, setEndpointId_valid h h0 hff, rfl, rfl, rfl⟩
  case known =>
    obtain ⟨b, hexec, hlen⟩ := readDataStructure_known hd
    exact answersWithLength h hexec hlen
  case poll => exact ⟨_, healthBody s, healthPoll_serving h clear, rfl, rfl, rfl, rfl, rfl⟩
  case controllers => exact ⟨_, _, rfl, respond_serving h _ _, by simp, rfl⟩
  case vpd => exact ⟨_, _, vpdRead_in hin, respond_serving h _ _, by simp⟩

end Sys2Proof.Laws
end

