-- ==== Sys2Proof/Proofs/ChangeGate.lean ====
section
/-! OBLIGATION. O58: a change without room for its record, and one without its token at guard level 2, are refused; a token that fits is consumed
(R168, R342, R343, R344, R349, R350). -/
namespace Sys2Proof.Laws
open Sys2Proof Sys2Proof.Machine

variable {s t u v : State} {e x : Sqe}

/-! ### The gate. -/
/-- An entry has come to the part of the gate that asks for record room and a token: nothing keeps it waiting. -/
structure AtGate (x : Sqe) (s : State) : Prop where
  sqid : x.sqid = 0
  opened : adminOpen s x.port = true
  state : s.power.ps ≤ 2
  entry : s.power.entry = none
  exit : s.power.exit = none
  running : s.sec.running = none
  ready : nsWaits s x = false
  stays : handing s x = false

/-- Nothing turns such an entry away, or keeps it waiting, before its record and its token are looked at. -/
theorem AtGate.passes (h : AtGate x s) (hu : u = atCount x.cnt s) : ¬ (x.sqid ≠ 0 ∨ (!adminOpen u x.port) = true) ∧
    ¬ ((3 ≤ u.power.ps ∨ u.power.entry.isSome = true ∨ u.power.exit.isSome = true) ∧ (!nonWaking x) = true) ∧
    ¬ ((u.sec.running.isSome = true ∧ (!readsAdmin x) = true) ∨ nsWaits u x = true ∨ handing u x = true) := by
  obtain ⟨hsqid, hopen, hps, hentry, hexit, hrunning, hready, hstays⟩ := h
  have hopen' : adminOpen u x.port = true := hu ▸ hopen
  have hps' : u.power.ps ≤ 2 := hu ▸ hps
  have hentry' : u.power.entry = none := hu ▸ hentry
  have hexit' : u.power.exit = none := hu ▸ hexit
  have hrunning' : u.sec.running = none := hu ▸ hrunning
  have hready' : nsWaits u x = false := hu ▸ hready
  have hstays' : handing u x = false := hu ▸ hstays
  refine ⟨by simp [hsqid, hopen'], ?_, by simp [hrunning', hready', hstays']⟩
  rw [hentry', hexit']
  rintro ⟨hlow | hmoves | hmoves, -⟩
  · omega
  · cases hmoves
  · cases hmoves

theorem isChange_of_needsToken (h : needsToken x = true) : isChange x = true := by
  rw [isChange, h]
  rfl

/-- A change without room for its record is refused with reason 11 (R349). -/
theorem admin_noRoom {run : State → State} (h : AtGate x s) (hneeds : needsToken x = true) (hroom : changeRoom s = false) :
    admin x run s = refused x 11 (atCount x.cnt s) := by
  obtain ⟨hopen, hawake, hgoes⟩ := h.passes rfl
  have hrefused : isChange x = true ∧ (!changeRoom (atCount x.cnt s)) = true := ⟨isChange_of_needsToken hneeds, congrArg Bool.not hroom⟩
  unfold admin
  dsimp only
  rw [if_neg hopen, if_neg hawake, if_neg hgoes, if_pos hrefused]

/-- There is room for the record. -/
theorem hasRoom (hroom : changeRoom s = true) (n : Nat) : ¬ (isChange x = true ∧ (!changeRoom (atCount n s)) = true) := fun hno =>
  Bool.false_ne_true ((congrArg Bool.not hroom).symm.trans hno.2)

/-- A change that needs a token and finds none that fits is refused with reason 10 (R344). -/
theorem admin_noToken {run : State → State} (h : AtGate x s) (hneeds : needsToken x = true) (hroom : changeRoom s = true) (hlevel : s.sec.level = 2)
    (hnone : consume x (atCount x.cnt s) = none) : admin x run s = refused x 10 (atCount x.cnt s) := by
  obtain ⟨hopen, hawake, hgoes⟩ := h.passes rfl
  unfold admin
  dsimp only
  rw [if_neg hopen, if_neg hawake, if_neg hgoes, if_neg (hasRoom hroom _), if_pos ⟨hlevel, hneeds⟩, hnone]

/-- What an admitted command runs: an admin command accepts a PRP data pointer only (R159). -/
def runPrp (x : Sqe) (run : State → State) (u : State) : State :=
  if x.psdt ≠ 0 ∧ adminOpcodes.contains x.opc.toNat then bad x invalidField u else run u
/-- A change with a token that fits runs once the token is consumed (R343). -/
theorem admin_token {run : State → State} (h : AtGate x s) (hneeds : needsToken x = true) (hroom : changeRoom s = true) (hlevel : s.sec.level = 2)
    (hsome : consume x (atCount x.cnt s) = some v) : admin x run s = runPrp x run v := by
  obtain ⟨hopen, hawake, hgoes⟩ := h.passes rfl
  unfold admin
  dsimp only
  rw [if_neg hopen, if_neg hawake, if_neg hgoes, if_neg (hasRoom hroom _), if_pos ⟨hlevel, hneeds⟩, hsome]
  rfl

/-! ### Tokens (R343). -/
/-- Consuming finds a token exactly where one that is held fits. -/
theorem consume_none (h : ∀ k ∈ u.sec.tokens, tokenFits x k = false) : consume x u = none := by
  have hfind : u.sec.tokens.find? (tokenFits x) = none := List.find?_eq_none.2 fun k hk => by simp [h k hk]
  unfold consume
  rw [hfind]
/-- The state once token k has been consumed by a command. -/
def consumed (x : Sqe) (k : Token) (u : State) : State :=
  updSec (fun y => { y with tokens := y.tokens.filter fun z => z.handle ≠ k.handle, keyIds := tput [] y.keyIds (portNo x.port * 65536 + x.cid) k.keyId }) u
theorem consume_first {k : Token} {a b : List Token} (htokens : u.sec.tokens = a ++ k :: b) (hbefore : ∀ z ∈ a, tokenFits x z = false)
    (hfits : tokenFits x k = true) : consume x u = some (consumed x k u) := by
  have hfind : u.sec.tokens.find? (tokenFits x) = some k := by
    rw [htokens, List.find?_append, List.find?_eq_none.2 fun z hz => by simp [hbefore z hz]]
    exact List.find?_cons_of_pos hfits
  unfold consume
  rw [hfind]
  rfl

/-! ### What runs keeps the tokens. -/
/-- From u to t the held tokens and the count of refusals are as they were. -/
structure KeepsTokens (u t : State) : Prop where
  tokens : t.sec.tokens = u.sec.tokens
  refused : t.sec.refused = u.sec.refused

theorem KeepsTokens.of_sec (h : t.sec = u.sec) : KeepsTokens u t := ⟨(congrArg Security.tokens h :), (congrArg Security.refused h :)⟩
theorem KeepsTokens.ite {p : Prop} [Decidable p] {a b : State} (ha : KeepsTokens u a) (hb : KeepsTokens u b) : KeepsTokens u (if p then a else b) := by
  split
  · exact ha
  · exact hb
/-- A change ends with its record: of the security state the key of the record alone is used up (R348). -/
theorem KeepsTokens.ends {st : Nat × Nat} {dw0 dw1 : Nat} {data : List Byte} (hkind : isChange x = true) (h : t.sec = u.sec := by rfl) :
    KeepsTokens u (ends x st dw0 dw1 data t) := by
  rw [Machine.ends, hkind, if_pos rfl]
  exact ⟨(congrArg Security.tokens h :), (congrArg Security.refused h :)⟩
theorem KeepsTokens.bad {st : Nat × Nat} (hkind : isChange x = true) : KeepsTokens u (bad x st u) := .ends hkind
theorem KeepsTokens.badAt {loc : Nat} : KeepsTokens u (badAt x loc u) := ⟨rfl, rfl⟩
theorem KeepsTokens.bindEnds {sl pasid dw0 : Nat} (h : t.sec = u.sec := by rfl) : KeepsTokens u (bindEnds x sl pasid dw0 t) :=
  ⟨(congrArg Security.tokens h :), (congrArg Security.refused h :)⟩

theorem keepsTokens_sliceCreate (hkind : isChange x = true) (u : State) : KeepsTokens u (sliceCreate x u) := by
  unfold sliceCreate
  dsimp only
  refine .ite (.bad hkind) (.ite (.bad hkind) ?_)
  split
  next => exact .bad hkind
  next =>
    refine .ite (.bad hkind) (.ite (.bad hkind) ?_)
    split
    next => exact .bad hkind
    next => exact .ite (.bad hkind) .bindEnds

theorem keepsTokens_shareSet (hkind : isChange x = true) (u : State) : KeepsTokens u (shareSet x u) := by
  unfold shareSet
  dsimp only
  refine .ite (.bad hkind) (.ite (.bad hkind) (.ite (.bad hkind) ?_))
  split
  next => exact .bad hkind
  next => exact .ite (.bad hkind) (.ends hkind)

theorem keepsTokens_programLoad (hkind : isChange x = true) (u : State) : KeepsTokens u (programLoad x u) := by
  unfold programLoad
  dsimp only
  refine .ite (.bad hkind) (.ite (.bad hkind) (.ite (.bad hkind) ?_))
  split
  next => exact .ends hkind
  next => exact .ite (.ends hkind) (.of_sec rfl)

theorem keepsTokens_endpointSet (hkind : isChange x = true) (u : State) : KeepsTokens u (endpointSet x u) := by
  unfold endpointSet
  dsimp only
  exact .ite (.bad hkind) (.ite (.bad hkind) (.ite (.bad hkind) (.ends hkind)))

/-- A spikelet that is rewritten leaves the security state. -/
theorem sec_spikeletIf (c : CardId) (g : Spikelet → Spikelet) (p : Prop) [Decidable p] (u : State) : (if p then updSp c g u else u).sec = u.sec := by
  split
  · cases c <;> rfl
  · rfl
theorem sec_rulesStale (l : List (List Byte)) (u : State) : (rulesStale l u).sec = u.sec := by
  obtain ⟨slices, hstale⟩ := rulesStale_updates l u
  rw [hstale]

theorem keepsTokens_ruleWrite (hkind : isChange x = true) (u : State) : KeepsTokens u (ruleWrite x u) := by
  unfold ruleWrite
  dsimp only
  refine .ite (.bad hkind) (.ite (.bad hkind) (.ite .badAt (.ite (.ite .badAt (.ends hkind ?_)) ?_)))
  · rw [sec_spikeletIf, sec_spikeletIf]
  · split
    next => exact .badAt
    next =>
      split
      next => exact .badAt
      next =>
        split
        next => exact .badAt
        next =>
          split
          next => exact .badAt
          next =>
            refine .ite .badAt (.ends hkind ?_)
            rw [sec_spikeletIf, sec_spikeletIf]
            exact sec_rulesStale _ _

theorem keepsTokens_runPrp {run : State → State} (hkind : isChange x = true) (hrun : KeepsTokens u (run u)) : KeepsTokens u (runPrp x run u) :=
  .ite (.bad hkind) hrun

/-! ### The statement. -/
/-- A refusal at the gate, told of the state before it. -/
theorem turnsAway_row {reason : Nat} (hsqid : e.sqid = 0) (hcid : e.cid < 65536) (hopen : adminOpen s e.port = true) {opc : Byte} :
    s.turnsAway (refused (asAdmin opc e) reason (atCount e.cnt s)) e reason := by
  have htakes : takesCqes (atCount e.cnt s) e.port := by
    simp only [adminOpen, Bool.and_eq_true] at hopen
    simpa only [takesCqes, ctrlAt_atCount] using And.intro hopen.1.1.1.1 hopen.1.1.1.2
  obtain ⟨hcqes, hctrl, hsec, hothers, hrest⟩ := refused_spec (asAdmin opc e) reason (atCount e.cnt s) hsqid hcid htakes.1 htakes.2
  simp only [ctrlAt_atCount] at hctrl hothers
  exact ⟨hcqes, hctrl, hsec, hothers, congrArg (fun w : State => { w with time := s.time }) hrest⟩

/-- The row of an opcode that needs a token runs at the gate. -/
def RowOf (r : (Sqe → Instr) × BitVec 8) (run : Sqe → State → State) : Prop :=
  ∀ e s, exec (r.1 e) s = .next (admin (asAdmin r.2 e) (run (asAdmin r.2 e)) s)

/-- Settles O58: what the gate does with a change is told by the room for its record and by the first token that fits. -/
theorem changesNeedRecordRoomAndToken : Obligations.ChangesNeedRecordRoomAndToken := by
  refine ⟨fun r hr e s hsqid hcid hopen hps hentry hexit hrunning hready => ?_,
    fun r hr e s k a b hsqid hopen hps hentry hexit hrunning hroom hlevel htokens hbefore hfits => ?_⟩
  · have hrow : (∃ run, RowOf r run) ∧ needsToken (asAdmin r.2 e) = true ∧ handing s (asAdmin r.2 e) = false := by
      simp only [List.mem_cons, List.not_mem_nil, or_false] at hr
      rcases hr with rfl | rfl | rfl | rfl | rfl | rfl | rfl | rfl | rfl <;> exact ⟨⟨_, fun _ _ => rfl⟩, rfl, Bool.and_false _⟩
    obtain ⟨⟨run, hrun⟩, hneeds, hstays⟩ := hrow
    have hgate : AtGate (asAdmin r.2 e) s := ⟨hsqid, hopen, hps, hentry, hexit, hrunning, nsWaits_ready s _ hready, hstays⟩
    refine ⟨fun hroom => ⟨_, hrun e s, ?_⟩, fun hroom hlevel hnone => ⟨_, hrun e s, ?_⟩⟩
    · rw [admin_noRoom hgate hneeds hroom]
      exact turnsAway_row hsqid hcid hopen
    · rw [admin_noToken hgate hneeds hroom hlevel (consume_none hnone)]
      exact turnsAway_row hsqid hcid hopen
  · have hrow : (∃ run, RowOf r run ∧ ∀ u, KeepsTokens u (run (asAdmin r.2 e) u)) ∧ needsToken (asAdmin r.2 e) = true ∧
        handing s (asAdmin r.2 e) = false ∧ nsWaits s (asAdmin r.2 e) = false := by
      simp only [List.mem_cons, List.not_mem_nil, or_false] at hr
      rcases hr with rfl | rfl | rfl | rfl | rfl
      · exact ⟨⟨sliceCreate, fun _ _ => rfl, keepsTokens_sliceCreate rfl⟩, rfl, Bool.and_false _, rfl⟩
      · exact ⟨⟨shareSet, fun _ _ => rfl, keepsTokens_shareSet rfl⟩, rfl, Bool.and_false _, rfl⟩
      · exact ⟨⟨ruleWrite, fun _ _ => rfl, keepsTokens_ruleWrite rfl⟩, rfl, Bool.and_false _, rfl⟩
      · exact ⟨⟨programLoad, fun _ _ => rfl, keepsTokens_programLoad rfl⟩, rfl, Bool.and_false _, rfl⟩
      · exact ⟨⟨endpointSet, fun _ _ => rfl, keepsTokens_endpointSet rfl⟩, rfl, Bool.and_false _, rfl⟩
    obtain ⟨⟨run, hrun, hkeeps⟩, hneeds, hstays, hready⟩ := hrow
    have hgate : AtGate (asAdmin r.2 e) s := ⟨hsqid, hopen, hps, hentry, hexit, hrunning, hready, hstays⟩
    have hconsume : consume (asAdmin r.2 e) (atCount e.cnt s) = some (consumed (asAdmin r.2 e) k (atCount e.cnt s)) := consume_first htokens hbefore hfits
    obtain ⟨htokens', hrefused⟩ := keepsTokens_runPrp (isChange_of_needsToken hneeds) (hkeeps (consumed (asAdmin r.2 e) k (atCount e.cnt s)))
    refine ⟨_, (hrun e s).trans (congrArg Host.Outcome.next (admin_token hgate hneeds hroom hlevel hconsume)), fun z => ?_, hrefused⟩
    rw [htokens']
    exact List.mem_filter.trans (and_congr_right fun _ => decide_eq_true_iff)

end Sys2Proof.Laws
end

