-- ==== Sys2Proof/Proofs/SliceStates.lean ====
section
/-! OBLIGATION. O15: Slice Reset, Delete, Freeze, Thaw, State Save, State Restore and Queue Resume (R198, R201, R209, R211, R212, R214). -/
namespace Sys2Proof.Laws
open Sys2Proof Sys2Proof.Machine

variable {s t u : State} {e x : Sqe} {sl : Nat}

/-! ### Writes of one slice. -/
/-- A written slice that is not free reads back, in a table of any form. -/
theorem sliceAt_updSlice_of_live {g : Slice → Slice} (h : (g (sliceAt s sl)).st ≠ 0) : sliceAt (updSlice sl g s) sl = g (sliceAt s sl) :=
  tget_tupd_of_ne _ _ _ _ fun hfree => h (congrArg Slice.st hfree)
theorem sliceAt_updSlice_of_ne {g : Slice → Slice} {k : Nat} (h : k ≠ sl) : sliceAt (updSlice sl g s) k = sliceAt s k := tget_tput_ne _ _ _ _ _ h

/-- From s to t a slice has entered a state; every other slice is as it was. -/
structure Enters (sl st : Nat) (s t : State) : Prop where
  state : (sliceAt t sl).st = st
  others : ∀ k, k ≠ sl → sliceAt t k = sliceAt s k

theorem sliceAt_setSliceSt {st : Nat} (hst : st ≠ 0) (s : State) :
    sliceAt (setSliceSt sl st s) sl = { sliceAt s sl with st := st, changeFc := s.time.fc } := sliceAt_updSlice_of_live hst
theorem enters_setSliceSt {st : Nat} (hst : st ≠ 0) (s : State) : Enters sl st s (setSliceSt sl st s) :=
  ⟨congrArg Slice.st (sliceAt_setSliceSt hst s), fun _ hk => sliceAt_updSlice_of_ne hk⟩
theorem Enters.updSlice {st : Nat} {g : Slice → Slice} (h : Enters sl st s t) (hst : st ≠ 0) (hstate : ∀ y, (g y).st = y.st := by exact fun _ => rfl) :
    Enters sl st s (updSlice sl g t) :=
  ⟨(congrArg Slice.st (sliceAt_updSlice_of_live (by rwa [hstate, h.state]))).trans ((hstate _).trans h.state),
    fun k hk => (sliceAt_updSlice_of_ne hk).trans (h.others k hk)⟩

/-- An insertion puts its one entry between entries of the table. -/
theorem tins_split {α : Type} (l : Tbl α) (k : Nat) (v : α) : ∃ a b, tins l k v = a ++ (k, v) :: b ∧ a ⊆ l ∧ b ⊆ l := by
  induction l with
  | nil => exact ⟨[], [], rfl, List.Subset.refl _, List.Subset.refl _⟩
  | cons q r ih =>
    rw [tins]
    split
    · exact ⟨[], q :: r, rfl, List.nil_subset _, List.Subset.refl _⟩
    · split
      · exact ⟨[], r, rfl, List.nil_subset _, List.subset_cons_self _ _⟩
      · obtain ⟨a, b, heq, ha, hb⟩ := ih
        exact ⟨q :: a, b, by rw [heq]; rfl, List.cons_subset_cons q ha, List.subset_cons_of_subset q hb⟩

/-! ### Nothing waits for the slice's commands. -/
/-- No command is fetched, no namespace is being deleted, and no slice keeps a Freeze that waits. -/
structure NoneWaits (s : State) : Prop where
  cmds : s.cmds = []
  nss : ∀ n ∈ s.nss, n.2.deleting = none
  slices : ∀ y ∈ s.slices, y.2.waiter = none

theorem NoneWaits.wake (h : NoneWaits s) : wake s = s := wake_eq_of_no_waiters h.cmds h.nss h.slices
theorem NoneWaits.sliceAt (h : NoneWaits s) (k : Nat) : (sliceAt s k).waiter = none := by
  rcases tget_mem {} s.slices k with hfree | hmem
  · exact congrArg Slice.waiter hfree
  · exact h.slices _ hmem
theorem NoneWaits.updSlice (h : NoneWaits s) {g : Slice → Slice} (hwaiter : ∀ y, (g y).waiter = y.waiter := by exact fun _ => rfl) :
    NoneWaits (updSlice sl g s) := by
  refine ⟨h.cmds, h.nss, fun y hy => ?_⟩
  simp only [Machine.updSlice, tupd, tput] at hy
  split at hy
  · exact h.slices y (mem_tdel _ _ _ hy)
  · rcases mem_tins _ _ _ _ hy with rfl | hmem
    · exact (hwaiter _).trans (h.sliceAt sl)
    · exact h.slices y hmem

/-! ### The checks of a slice command (R178, R179, R214). -/
theorem sliceLive_eq {m10 m11 m12 : Nat} {run : State → State} (hrsvd : rsvdOk m10 m11 m12 0 0 0 x = true) (hsl : sl = d10 x 9 0) (hsl0 : sl ≠ 0)
    (hlive : (sliceAt u sl).st = 1 ∨ (sliceAt u sl).st = 2) : sliceLive m10 m11 m12 x run u = run u := by
  subst hsl
  have hfields : ¬ ((!rsvdOk m10 m11 m12 0 0 0 x) = true ∨ sliceOf x = 0) := by
    rw [hrsvd, sliceOf]
    simpa using hsl0
  have hstate : ¬ 3 ≤ (sliceAt u (sliceOf x)).st := by rw [sliceOf]; omega
  have hfree : ¬ (sliceAt u (sliceOf x)).st = 0 := by rw [sliceOf]; omega
  rw [sliceLive, sliceCmd, if_neg hfields, if_neg hstate, if_neg hfree]

/-! ### Reset and Delete (R198, R201). -/
/-- Closing zones writes zones and journals only. -/
theorem closeZones_rest (sel : Nat → Bool) (cmd : Option Nat) (s : State) :
    { closeZones sel cmd s with zones := s.zones, jA := s.jA, jB := s.jB } = s :=
  List.foldlRecOn (motive := fun u : State => { u with zones := s.zones, jA := s.jA, jB := s.jB } = s) _ _ rfl fun u hu z _ => by
    rw [closeZone, journal]
    cases ownerOfNs u (z.1 / 2 ^ 21) <;> exact hu
/-- With nothing that waits, a slice that drains gets its new generation, and only its zones are closed. -/
theorem resetSlice_rest (h : NoneWaits u) (sl job : Nat) :
    { resetSlice sl job u with zones := u.zones, jA := u.jA, jB := u.jB } = updSlice sl bumpGen u := by
  have hbumped : NoneWaits (updSlice sl bumpGen u) := h.updSlice
  have hdrained : drainSlice sl (updSlice sl bumpGen u) = updSlice sl bumpGen u := by
    rw [drainSlice, hbumped.cmds]
    exact hbumped.wake
  rw [resetSlice, hdrained]
  exact closeZones_rest _ _ _

/-- From s to t a slice has left its generation for a state, and beside that zones, journals and the event intake alone have moved. -/
structure Leaves (sl st : Nat) (s t : State) : Prop where
  enters : Enters sl st s t
  gen : (sliceAt t sl).gen = (sliceAt s sl).gen + 1
  rest : { t with slices := s.slices, zones := s.zones, jA := s.jA, jB := s.jB, events := s.events } = s

theorem leaves_setSliceSt {st : Nat} (h : NoneWaits u) (hlive : (sliceAt u sl).st ≠ 0) (hst : st ≠ 0) (job : Nat) :
    Leaves sl st u (setSliceSt sl st (resetSlice sl job u)) := by
  have hrest := resetSlice_rest h sl job
  have hslices : ∀ k, sliceAt (resetSlice sl job u) k = sliceAt (updSlice sl bumpGen u) k := fun k => (congrArg (fun v : State => sliceAt v k) hrest :)
  have hbumped : sliceAt (updSlice sl bumpGen u) sl = bumpGen (sliceAt u sl) := sliceAt_updSlice_of_live hlive
  have hset := enters_setSliceSt (sl := sl) hst (resetSlice sl job u)
  refine ⟨⟨hset.state, fun k hk => ?_⟩, ?_, ?_⟩
  · rw [hset.others k hk, hslices, sliceAt_updSlice_of_ne hk]
  · rw [sliceAt_setSliceSt hst, hslices, hbumped, bumpGen]
  · exact (congrArg (fun v : State => { v with slices := u.slices, zones := u.zones, jA := u.jA, jB := u.jB, events := u.events }) hrest :)
theorem Leaves.updSlice {st : Nat} {g : Slice → Slice} (h : Leaves sl st s t) (hst : st ≠ 0) (hstate : ∀ y, (g y).st = y.st := by exact fun _ => rfl)
    (hgen : ∀ y, (g y).gen = y.gen := by exact fun _ => rfl) : Leaves sl st s (updSlice sl g t) := by
  have hset : sliceAt (Machine.updSlice sl g t) sl = g (sliceAt t sl) := sliceAt_updSlice_of_live (by rwa [hstate, h.enters.state])
  exact ⟨h.enters.updSlice hst hstate, (congrArg Slice.gen hset).trans ((hgen _).trans h.gen), h.rest⟩
theorem Leaves.event {st : Nat} (h : Leaves sl st s t) (code cls src ob a0 a1 a2 : Nat) : Leaves sl st s (event code cls src ob a0 a1 a2 t) :=
  ⟨⟨h.enters.state, h.enters.others⟩, h.gen, h.rest⟩

/-- The job of a command is kept. -/
def withJob (x : Sqe) (begun : Bool) (dw0 : Nat) (u : State) : State := (addJob x begun dw0 u).2

theorem leaves_sliceReset (h : NoneWaits u) (hrsvd : rsvdOk 0x3FF 0 0 0 0 0 x = true) (hsl : sl = d10 x 9 0) (hsl0 : sl ≠ 0)
    (hlive : (sliceAt u sl).st = 1 ∨ (sliceAt u sl).st = 2) : ∃ dw0, Leaves sl 3 (withJob x true dw0 u) (sliceReset x u) := by
  have hjob (dw0 : Nat) : NoneWaits (withJob x true dw0 u) := ⟨h.cmds, h.nss, h.slices⟩
  rw [sliceReset, sliceLive_eq hrsvd hsl hsl0 hlive, sliceOf, ← hsl]
  exact ⟨_, ((leaves_setSliceSt (hjob _) (by change (sliceAt u sl).st ≠ 0; omega) (by decide) _).updSlice (by decide)).event _ _ _ _ _ _ _⟩
theorem leaves_sliceDelete (h : NoneWaits u) (hrsvd : rsvdOk 0x3FF 0 0 0 0 0 x = true) (hsl : sl = d10 x 9 0) (hsl0 : sl ≠ 0)
    (hlive : (sliceAt u sl).st = 1 ∨ (sliceAt u sl).st = 2) : Leaves sl 4 (withJob x false 0 u) (sliceDelete x u) := by
  have hjob : NoneWaits (withJob x false 0 u) := ⟨h.cmds, h.nss, h.slices⟩
  rw [sliceDelete, sliceLive_eq hrsvd hsl hsl0 hlive, sliceOf, ← hsl]
  exact leaves_setSliceSt hjob (by change (sliceAt u sl).st ≠ 0; omega) (by decide) _

/-- What a slice that leaves its generation for its job leaves of the rest. -/
theorem Leaves.kept {st dw0 : Nat} {begun : Bool} (h : Leaves sl st (withJob x begun dw0 u) t) :
    (sliceAt t sl).st = st ∧ (sliceAt t sl).gen = (sliceAt u sl).gen + 1 ∧ (∀ k, k ≠ sl → sliceAt t k = sliceAt u k) ∧ t.sqs = u.sqs ∧ t.cqs = u.cqs ∧
      (∃ j, t.jobs = u.jobs ++ [j] ∧ j.begun = begun ∧ j.e.cid = x.cid ∧ j.e.port = x.port) ∧ t.cqes = u.cqes ∧ t.nss = u.nss ∧ t.map = u.map :=
  ⟨h.enters.state, h.gen, h.enters.others, (congrArg State.sqs h.rest :), (congrArg State.cqs h.rest :), ⟨_, (congrArg State.jobs h.rest :), rfl, rfl, rfl⟩,
    (congrArg State.cqes h.rest :), (congrArg State.nss h.rest :), (congrArg State.map h.rest :)⟩

/-! ### Freeze and Thaw (R209). -/
/-- A slice keeps the Freeze that is to be answered, and has answered it. -/
def keepsFreeze (x : Sqe) (y : Slice) : Slice := { y with waiter := keepCmd x }
def answersFreeze (y : Slice) : Slice := { y with waiter := none }
/-- A slice has no port loss to report. -/
def portFound (y : Slice) : Slice := { y with portLost := false, lostQs := [] }

/-- A Freeze of a quiet slice, the only command that waits, is answered. -/
theorem wake_keepsFreeze (h : NoneWaits u) (hlive : (sliceAt u sl).st ≠ 0) (hquiet : quiet u sl = true) :
    wake (updSlice sl (keepsFreeze x) u) =
      ok { port := x.port, cid := x.cid, opc := x.opc } (updSlice sl answersFreeze (updSlice sl (keepsFreeze x) u)) := by
  have hwrite : (updSlice sl (keepsFreeze x) u).slices = tins u.slices sl (keepsFreeze x (sliceAt u sl)) :=
    if_neg fun hfree => hlive (congrArg Slice.st hfree)
  obtain ⟨a, b, hsplit, ha, hb⟩ := tins_split u.slices sl (keepsFreeze x (sliceAt u sl))
  have hquiet' : quiet (updSlice sl (keepsFreeze x) u) sl = true := hquiet
  unfold wake
  simp only [show (updSlice sl (keepsFreeze x) u).cmds = [] from h.cmds, List.filter_nil, List.foldl_nil]
  rw [foldl_fixed_of_mem (l := (updSlice sl (keepsFreeze x) u).nss) fun n hn => by simp only [h.nss n hn], hwrite, hsplit, List.foldl_append,
    foldl_fixed_of_mem (l := a) fun y hy => by simp only [h.slices y (ha hy)], List.foldl_cons,
    foldl_fixed_of_mem (l := b) fun y hy => by simp only [h.slices y (hb hy)]]
  simp only [keepsFreeze, keepCmd] at hquiet' ⊢
  rw [if_pos hquiet', BitVec.ofNat_toNat, BitVec.setWidth_eq]
  rfl

/-- The answer to a Freeze is its success. -/
theorem ok_success {opc : Byte} (h : s.admits e = true) (hu : takesCqes u e.port) :
    ok { port := e.port, cid := e.cid, opc := opc } u = { u with cqes := u.cqes ++ [cqeOf e 0 []] } := by
  obtain ⟨hsqid, hcid, -⟩ := admits_facts s e h
  rw [ok, finish, post_admin_ok _ _ _ _ hcid hu.1 hu.2 rfl rfl rfl, cqeOf, hsqid]

theorem sliceFreeze_eq (h : NoneWaits u) (hrsvd : rsvdOk 0x103FF 0 0 0 0 0 x = true) (hsl : sl = d10 x 9 0) (hsl0 : sl ≠ 0) (hactive : (sliceAt u sl).st = 1)
    (hquiet : quiet u sl = true) :
    sliceFreeze x u =
      ok { port := x.port, cid := x.cid, opc := x.opc } (updSlice sl answersFreeze (updSlice sl (keepsFreeze x) (setSliceSt sl 2 u))) := by
  have hset : NoneWaits (setSliceSt sl 2 u) := h.updSlice
  have hfrozen : (sliceAt (setSliceSt sl 2 u) sl).st = 2 := (enters_setSliceSt (by decide) u).state
  rw [sliceFreeze, sliceLive_eq hrsvd hsl hsl0 (.inl hactive), sliceOf, ← hsl, if_neg (by omega)]
  exact wake_keepsFreeze hset (by omega) hquiet
theorem sliceThaw_eq (hrsvd : rsvdOk 0x103FF 0 0 0 0 0 x = true) (hsl : sl = d10 x 9 0) (hsl0 : sl ≠ 0) (hfrozen : (sliceAt u sl).st = 2)
    (hwaiter : (sliceAt u sl).waiter = none) : sliceThaw x u = done x (updSlice sl portFound (setSliceSt sl 1 u)) := by
  have hanswered : freezeEnds sl u = u := by rw [freezeEnds, hwaiter]
  rw [sliceThaw, sliceLive_eq hrsvd hsl hsl0 (.inr hfrozen), sliceOf, ← hsl, if_neg (by omega), hanswered]
  rfl

/-! ### State Save and State Restore (R211, R212). -/
/-- A slice whose image is the latest saved. -/
def savedOnce (y : Slice) : Slice := { y with saveSeq := (y.saveSeq + 1) % 2 ^ 32, saveFresh := true }
/-- A slice moved to a port and PASID by a restore. -/
def restoredTo (p : Port) (pasid fc : Nat) (y : Slice) : Slice :=
  { y with port := p, pasid := pasid, portLost := false, lostQs := [], saveFresh := false, changeFc := fc }

theorem sliceSave_eq (hrsvd : rsvdOk 0x3FF 0xFFFF 0 0 0 0 x = true) (hsl : sl = d10 x 9 0) (hsl0 : sl ≠ 0) (hfrozen : (sliceAt u sl).st = 2)
    (hquiet : quiet u sl = true) (hroom : 1 ≤ d11 x 15 0) (hmax : d11 x 15 0 ≤ 16384)
    (hfits : (sliceImage (updSlice sl savedOnce u) sl).length ≤ d11 x 15 0 * 4) (hdlen : (sliceImage (updSlice sl savedOnce u) sl).length ≤ x.dlen) :
    sliceSave x u = ends x (0, 0) ((sliceImage (updSlice sl savedOnce u) sl).length / 4) 0 (sliceImage (updSlice sl savedOnce u) sl)
      (updSlice sl savedOnce u) := by
  have hstate : ¬ ((sliceAt u sl).st ≠ 2 ∨ (!quiet u sl) = true) := by simp [hfrozen, hquiet]
  rw [sliceSave, sliceLive_eq hrsvd hsl hsl0 (.inr hfrozen), sliceOf, ← hsl, if_neg hstate, if_neg (by omega)]
  exact (if_neg (not_lt.2 hfits)).trans (if_neg (not_lt.2 hdlen))

/-- A saved image of a slice, of n bytes, that names no queue: its checks hold and it is the latest (R212). -/
structure Image (u : State) (sl n : Nat) (b : List Byte) : Prop where
  nonEmpty : 1 ≤ n
  max : n ≤ 65536
  length : fld b 4 4 * 4 = n
  tag : slice' b 32 32 = imageTag u b
  slice : fld b 2 2 = sl
  seq : fld b 8 4 = (sliceAt u sl).saveSeq
  latest : (sliceAt u sl).saveFresh = true
  queues : fld b 14 1 = 0

theorem sliceRestore_eq (hrsvd : rsvdOk 0x3FF 0xFFFF 0xFFFFF 0 0 0 x = true) (hsl : sl = d10 x 9 0) (hsl0 : sl ≠ 0) (hfrozen : (sliceAt u sl).st = 2)
    (hquiet : quiet u sl = true) (hdlen : d11 x 15 0 * 4 ≤ x.dlen) (himage : Image u sl (d11 x 15 0 * 4) (fitTo (d11 x 15 0 * 4) x.data))
    (hpasid : pasidTaken u x.port sl (d12 x 19 0) = false) (hsums : sumsNow u x.port sl (sliceAt u sl).share (shareOf (sliceAt u sl)) = true) :
    sliceRestore x u = bindEnds x sl (d12 x 19 0) 0 (updSlice sl (restoredTo x.port (d12 x 19 0) u.time.fc) (dropQueues sl u)) := by
  obtain ⟨hnonEmpty, hmax, hlength, htag, hslice, hseq, hlatest, hqueues⟩ := himage
  have hstate : ¬ ((sliceAt u sl).st ≠ 2 ∨ (!quiet u sl) = true) := by simp [hfrozen, hquiet]
  have hbody : ¬ (d11 x 15 0 * 4 = 0 ∨ 65536 < d11 x 15 0 * 4 ∨ fld (fitTo (d11 x 15 0 * 4) x.data) 4 4 * 4 ≠ d11 x 15 0 * 4 ∨
      slice' (fitTo (d11 x 15 0 * 4) x.data) 32 32 ≠ imageTag u (fitTo (d11 x 15 0 * 4) x.data) ∨ fld (fitTo (d11 x 15 0 * 4) x.data) 2 2 ≠ sl) := by
    rintro (h | h | h | h | h)
    · omega
    · omega
    · exact h hlength
    · exact h htag
    · exact h hslice
  have hsaved : ¬ (fld (fitTo (d11 x 15 0 * 4) x.data) 8 4 ≠ (sliceAt u sl).saveSeq ∨ (!(sliceAt u sl).saveFresh) = true) := by simp [hseq, hlatest]
  have hbinding : ¬ (pasidTaken u x.port sl (d12 x 19 0) = true ∨ (!sumsNow u x.port sl (sliceAt u sl).share (shareOf (sliceAt u sl))) = true) := by
    simp [hpasid, hsums]
  unfold sliceRestore
  dsimp only
  rw [sliceLive_eq hrsvd hsl hsl0 (.inr hfrozen), sliceOf, ← hsl, if_neg hstate, if_neg (not_lt.2 hdlen), if_neg hbody, if_neg hsaved, if_neg hbinding,
    hqueues]
  rfl

/-! ### Queue Resume (R169). -/
/-- A queue that is fetched from again. -/
def resumedAt (n : Nat) (q : SubQ) : SubQ := { q with frozen := false, resumed := n }

theorem queueResume_eq {k : Nat} (hrsvd : rsvdOk 0xFFFF 0 0 0 0 0 x = true) (hid : d10 x 15 0 ≠ 0) (hk : k = qKey x.port (d10 x 15 0))
    (hused : (sqAt u k).used = true) (hlive : (sliceAt u (sqAt u k).slice).st = 1 ∨ (sliceAt u (sqAt u k).slice).st = 2) (hfrozen : (sqAt u k).frozen = true) :
    queueResume x u = ends x (0, 0) 1 0 [] (updSq k (resumedAt (now u)) u) := by
  have hfields : ¬ ((!rsvdOk 0xFFFF 0 0 0 0 0 x) = true ∨ d10 x 15 0 = 0) := by simp [hrsvd, hid]
  unfold queueResume
  dsimp only
  rw [← hk, if_neg hfields, if_neg (by simp [hused]), if_neg (by omega), if_pos hfrozen]
  rfl

/-! ### The statement. -/
/-- Settles O15: each command passes the checks of R178, R179 and R214 and writes one slice, or one queue of it. -/
theorem sliceStateCommandsTakeEffect : Obligations.SliceStateCommandsTakeEffect := by
  refine ⟨fun s e sl h hrsvd hsl hsl0 hlive hcmds hnss hslices r hr => ?leave,
    fun s e sl h hrsvd hsl hsl0 hactive hcmds hquiet hnss hslices => ?freeze,
    fun s e sl h hrsvd hsl hsl0 hfrozen hwaiter => ?thaw,
    fun s s1 e sl h hrsvd hsl hsl0 hfrozen hquiet hs1 hroom hmax hfits hdlen => ?save,
    fun s e sl n b h hrsvd hsl hsl0 hfrozen hquiet hn hdlen hnonEmpty hmax hb hlength htag hslice hseq hlatest hpasid hsums hqueues => ?restore,
    fun s e k h hrsvd hid hk hused hlive hfrozen => ?resume⟩
  case leave =>
    have hwaits : NoneWaits (atCount e.cnt s) := ⟨hcmds, hnss, hslices⟩
    simp only [List.mem_cons, List.not_mem_nil, or_false] at hr
    rcases hr with rfl | rfl
    · obtain ⟨dw0, hleaves⟩ := leaves_sliceReset (x := asAdmin 0xC8 e) hwaits hrsvd hsl hsl0 hlive
      exact ⟨_, congrArg Host.Outcome.next (admin_row h _), hleaves.kept⟩
    · have hleaves := leaves_sliceDelete (x := asAdmin 0xC4 e) hwaits hrsvd hsl hsl0 hlive
      exact ⟨_, congrArg Host.Outcome.next (admin_row h _), hleaves.kept⟩
  case freeze =>
    have hwaits : NoneWaits (atCount e.cnt s) := ⟨hcmds, hnss, hslices⟩
    have hfreeze := sliceFreeze_eq (x := with10 16 16 0 (asAdmin 0xCC e)) hwaits hrsvd hsl hsl0 hactive hquiet
    have hanswer := hfreeze.trans (ok_success h (takesCqes_of_ctrls (takesCqes_of_admits h)))
    obtain ⟨hstate, hothers⟩ := ((enters_setSliceSt (sl := sl) (by decide : 2 ≠ 0) (atCount e.cnt s)).updSlice
      (g := keepsFreeze (with10 16 16 0 (asAdmin 0xCC e))) (by decide)).updSlice (g := answersFreeze) (by decide)
    exact ⟨_, congrArg Host.Outcome.next ((admin_row h _).trans hanswer), hstate, hothers, rfl⟩
  case thaw =>
    have hthaw := sliceThaw_eq (x := with10 16 16 1 (asAdmin 0xCC e)) (u := atCount e.cnt s) hrsvd hsl hsl0 hfrozen hwaiter
    have hanswer := hthaw.trans (done_success h rfl)
    have hactive := enters_setSliceSt (sl := sl) (by decide : 1 ≠ 0) (atCount e.cnt s)
    obtain ⟨hstate, hothers⟩ := hactive.updSlice (g := portFound) (by decide)
    have hfound : sliceAt (updSlice sl portFound (setSliceSt sl 1 (atCount e.cnt s))) sl = portFound _ :=
      sliceAt_updSlice_of_live (by exact hactive.state.trans_ne (by decide))
    exact ⟨_, congrArg Host.Outcome.next ((admin_row h _).trans hanswer), hstate, congrArg Slice.portLost hfound, hothers, rfl, rfl⟩
  case save =>
    subst hs1
    have hsave := sliceSave_eq (x := asAdmin 0xC6 e) (u := atCount e.cnt s) hrsvd hsl hsl0 hfrozen hquiet hroom hmax hfits hdlen
    exact congrArg Host.Outcome.next ((admin_row h _).trans (hsave.trans (ends_success h rfl (takesCqes_of_ctrls (takesCqes_of_admits h)))))
  case restore =>
    subst hn hb
    have himage : Image (atCount e.cnt s) sl _ _ := ⟨hnonEmpty, hmax, hlength, htag, hslice, hseq, hlatest, hqueues⟩
    have hrestore := sliceRestore_eq (x := asAdmin 0xC5 e) (u := atCount e.cnt s) hrsvd hsl hsl0 hfrozen hquiet hdlen himage hpasid hsums
    obtain ⟨r, hends, -⟩ := bindEnds_records (x := asAdmin 0xC5 e) (sl := sl) (pasid := d12 e 19 0) (dw0 := 0)
      (u := updSlice sl (restoredTo e.port (d12 e 19 0) s.time.fc) (dropQueues sl (atCount e.cnt s)))
    have hmoved : sliceAt (updSlice sl (restoredTo e.port (d12 e 19 0) s.time.fc) (dropQueues sl (atCount e.cnt s))) sl = restoredTo _ _ _ (sliceAt s sl) :=
      sliceAt_updSlice_of_live (by exact hfrozen.trans_ne (by decide))
    exact ⟨_, congrArg Host.Outcome.next ((admin_row h _).trans (hrestore.trans hends)), congrArg Slice.port hmoved, congrArg Slice.pasid hmoved,
      congrArg Slice.saveFresh hmoved, fun k hk => sliceAt_updSlice_of_ne hk, rfl, rfl⟩
  case resume =>
    have hresume := queueResume_eq (x := asAdmin 0xD0 e) (u := atCount e.cnt s) hrsvd hid hk hused hlive hfrozen
    exact congrArg Host.Outcome.next ((admin_row h _).trans (hresume.trans (ends_success h rfl (takesCqes_of_ctrls (takesCqes_of_admits h)))))

end Sys2Proof.Laws
end

