-- ==== Sys2Proof/Proofs/Lookups.lean ====
section
/-! SUPPORT. What a lookup in a sparse table answers after an insertion or a deletion. -/
namespace Sys2Proof.Laws
open Sys2Proof Sys2Proof.Machine

variable {α : Type} {t : Tbl α} {j k : Nat} {v : α}

theorem tfind_tins (t : Tbl α) (j k : Nat) (v : α) : tfind (tins t k v) j = if j = k then some v else tfind t j := by
  induction t with
  | nil => simp [tins, tfind, eq_comm]
  | cons p r ih =>
    obtain ⟨i, a⟩ := p
    by_cases hjk : j = k
    · subst hjk
      rw [if_pos rfl] at ih ⊢
      unfold tins
      split_ifs with hbelow hhere
      · simp [tfind]
      · simp [tfind]
      · simp [tfind, ih, Ne.symm hhere]
    · rw [if_neg hjk] at ih ⊢
      unfold tins
      split_ifs with hbelow hhere
      · simp [tfind, Ne.symm hjk]
      · simp [tfind, ← hhere, Ne.symm hjk]
      · simp [tfind, ih]
theorem tfind_tins_self (t : Tbl α) (k : Nat) (v : α) : tfind (tins t k v) k = some v := (tfind_tins t k k v).trans (if_pos rfl)
theorem tfind_tins_ne (h : j ≠ k) : tfind (tins t k v) j = tfind t j := (tfind_tins t j k v).trans (if_neg h)

theorem tfind_tdel_ne (h : j ≠ k) : tfind (tdel t k) j = tfind t j := by
  induction t with
  | nil => rfl
  | cons p r ih =>
    obtain ⟨i, a⟩ := p
    unfold tdel
    split_ifs with hi
    · simp [tfind, hi, Ne.symm h]
    · simp [tfind, ih]

theorem mem_keys_of_tfind (h : tfind t k = some v) : k ∈ t.map Prod.fst := by
  induction t with
  | nil => cases h
  | cons p r ih =>
    obtain ⟨i, a⟩ := p
    unfold tfind at h
    split_ifs at h with hi
    · simp [hi]
    · exact List.mem_cons_of_mem _ (ih h)
theorem tfind_eq_none (h : k ∉ t.map Prod.fst) : tfind t k = none :=
  Option.eq_none_iff_forall_ne_some.2 fun _ hv => h (mem_keys_of_tfind hv)

theorem tfind_tdel_self (h : rising t = true) : tfind (tdel t k) k = none := by
  induction t with
  | nil => rfl
  | cons p r ih =>
    obtain ⟨i, a⟩ := p
    have hkeys := (rising_iff _).1 h
    simp only [List.map_cons, List.pairwise_cons] at hkeys
    obtain ⟨hbelow, htail⟩ := hkeys
    unfold tdel
    split_ifs with hi
    · exact tfind_eq_none fun hk => absurd (hbelow k hk) (by omega)
    · rw [tfind, if_neg hi]
      exact ih ((rising_iff _).2 htail)

/-- A key that is not listed stays so when a key is deleted. -/
theorem tfind_tdel_none (h : tfind t j = none) (k : Nat) : tfind (tdel t k) j = none := by
  induction t with
  | nil => rfl
  | cons p r ih =>
    obtain ⟨i, a⟩ := p
    unfold tfind at h
    split_ifs at h with hj
    unfold tdel
    split_ifs with hi
    · exact h
    · rw [tfind, if_neg hj]
      exact ih h

/-- A table into which one value is inserted under each key of a list. -/
theorem tfind_foldl_tins (l : List Nat) (t : Tbl α) (j : Nat) (v : α) :
    tfind (l.foldl (fun t i => tins t i v) t) j = if j ∈ l then some v else tfind t j := by
  induction l generalizing t with
  | nil => rfl
  | cons i l ih =>
    rw [List.foldl_cons, ih, tfind_tins]
    by_cases hl : j ∈ l <;> by_cases hi : j = i <;> simp [hl, hi]

end Sys2Proof.Laws
end

