-- ==== Sys2Proof/Proofs/SpikeletRecord.lean ====
section
/-! SUPPORT. A card's spikelet as a record of its own: the winner of a search (R218), the write of a position (R220), and what a parity fault
does to it (R221). -/
namespace Sys2Proof.Laws
open Sys2Proof Sys2Proof.Machine

variable {s t : State} {c : CardId} {sp sp' sp'' : Spikelet} {p q : Nat} {e : Entry}

/-! ### The winner of a search (R218). -/
/-- Entry x wins over y, or is y: its priority is higher, or it stands no later among equals. -/
def Beats (x y : Nat × Entry) : Prop := y.2.prio.toNat < x.2.prio.toNat ∨ (y.2.prio = x.2.prio ∧ x.1 ≤ y.1)
/-- The better of the best entry so far and the next one. -/
def better (b : Option (Nat × Entry)) (x : Nat × Entry) : Option (Nat × Entry) :=
  match b with
  | none => some x
  | some y => if y.2.prio.toNat < x.2.prio.toNat then some x else some y

theorem Beats.refl (x : Nat × Entry) : Beats x x := .inr ⟨rfl, le_rfl⟩
theorem Beats.trans {x y z : Nat × Entry} (h : Beats x y) (k : Beats y z) : Beats x z := by
  rcases h with hxy | ⟨hxy, hpos⟩
  · rcases k with hyz | ⟨hyz, -⟩
    · exact .inl (hyz.trans hxy)
    · exact .inl (hyz ▸ hxy)
  · rcases k with hyz | ⟨hyz, hpos'⟩
    · exact .inl (hxy ▸ hyz)
    · exact .inr ⟨hyz.trans hxy, hpos.trans hpos'⟩
theorem beats_of_earlier {x y : Nat × Entry} (hprio : ¬ x.2.prio.toNat < y.2.prio.toNat) (hpos : x.1 ≤ y.1) : Beats x y :=
  (lt_or_eq_of_le (not_lt.1 hprio)).imp_right fun h => ⟨BitVec.eq_of_toNat_eq h, hpos⟩

/-- Along rising positions the fold keeps an entry that beats all it has seen. -/
theorem foldl_better (l : List (Nat × Entry)) (y : Nat × Entry) (h : ((y :: l).map Prod.fst).Pairwise (· < ·)) :
    ∃ z ∈ y :: l, l.foldl better (some y) = some z ∧ ∀ x ∈ y :: l, Beats z x := by
  induction l generalizing y with
  | nil => exact ⟨y, List.mem_singleton_self y, rfl, fun x hx => List.mem_singleton.1 hx ▸ Beats.refl y⟩
  | cons x l ih =>
    have hpos : y.1 < x.1 := (List.pairwise_cons.1 h).1 _ List.mem_cons_self
    rw [List.foldl_cons, better]
    split_ifs with hprio
    · obtain ⟨z, hz, hfold, hbeats⟩ := ih x (List.pairwise_cons.1 h).2
      exact ⟨z, List.mem_cons_of_mem _ hz, hfold,
        List.forall_mem_cons.2 ⟨(hbeats x List.mem_cons_self).trans (.inl hprio), hbeats⟩⟩
    · obtain ⟨z, hz, hfold, hbeats⟩ := ih y (h.sublist ((List.sublist_cons_self x l).cons_cons y |>.map _))
      obtain ⟨hy, hl⟩ := List.forall_mem_cons.1 hbeats
      refine ⟨z, List.cons_subset_cons y (List.subset_cons_self x l) hz, hfold, ?_⟩
      exact List.forall_mem_cons.2 ⟨hy, List.forall_mem_cons.2 ⟨hy.trans (beats_of_earlier hprio hpos.le), hl⟩⟩

/-- A search answers the matching entry that beats every other, or nothing where none matches. -/
theorem spSearch_cases (profile : Nat) (key mask : BitVec 320) (h : rising sp.ents = true) :
    spSearch sp profile key mask = none ∧ (∀ x ∈ sp.ents, ¬ spMatch profile key mask x = true) ∨
    ∃ x ∈ sp.ents, spMatch profile key mask x = true ∧ spSearch sp profile key mask = some x ∧
      ∀ y ∈ sp.ents, spMatch profile key mask y = true → Beats x y := by
  have hkeys := (rising_iff _).1 (rising_filter sp.ents (spMatch profile key mask) h)
  have hsearch : spSearch sp profile key mask = (sp.ents.filter (spMatch profile key mask)).foldl better none := rfl
  rw [hsearch]
  cases hmatching : sp.ents.filter (spMatch profile key mask) with
  | nil => exact .inl ⟨rfl, List.filter_eq_nil_iff.1 hmatching⟩
  | cons y l =>
    obtain ⟨x, hx, hfold, hbeats⟩ := foldl_better l y (hmatching ▸ hkeys)
    simp only [← hmatching, List.mem_filter] at hx hbeats
    exact .inr ⟨x, hx.1, hx.2, hfold, fun y hy hmatch => hbeats y ⟨hy, hmatch⟩⟩

/-! ### A position is written (R217, R220). -/
theorem entryPos_of_single {n : Nat} (h : n / 4096 < 24) : entryPos n = n := by
  rw [entryPos, bankUnits, if_pos h, Nat.mod_one, Nat.sub_zero]
theorem putEntry_of_retired (h : p ∈ sp.retired) : putEntry p e sp = sp := if_pos (List.contains_iff_mem.2 h)
theorem putEntry_of_usable (h : p ∉ sp.retired) : putEntry p e sp = { sp with ents := tins sp.ents p e, shadow := tins sp.shadow p e } :=
  if_neg (mt List.contains_iff_mem.1 h)

/-! ### Entries move (R222, R223). -/
/-- From sp to sp' entries have moved: no retired position has taken one, and neither the retired positions nor the last result have changed. -/
structure EntriesMove (sp sp' : Spikelet) : Prop where
  retired : sp'.retired = sp.retired
  found : sp'.found = sp.found
  ents : ∀ p ∈ sp.retired, tfind sp.ents p = none → tfind sp'.ents p = none
  shadow : ∀ p ∈ sp.retired, tfind sp.shadow p = none → tfind sp'.shadow p = none

theorem EntriesMove.refl (sp : Spikelet) : EntriesMove sp sp := ⟨rfl, rfl, fun _ _ h => h, fun _ _ h => h⟩
theorem EntriesMove.trans (h : EntriesMove sp sp') (k : EntriesMove sp' sp'') : EntriesMove sp sp'' where
  retired := k.retired.trans h.retired
  found := k.found.trans h.found
  ents := fun p hp hnone => k.ents p (h.retired ▸ hp) (h.ents p hp hnone)
  shadow := fun p hp hnone => k.shadow p (h.retired ▸ hp) (h.shadow p hp hnone)

theorem entriesMove_putEntry (p : Nat) (e : Entry) (sp : Spikelet) : EntriesMove sp (putEntry p e sp) := by
  by_cases hp : p ∈ sp.retired
  · rw [putEntry_of_retired hp]
    exact .refl sp
  · rw [putEntry_of_usable hp]
    have hother : ∀ q ∈ sp.retired, q ≠ p := fun q hq h => hp (h ▸ hq)
    exact ⟨rfl, rfl, fun q hq hnone => (tfind_tins_ne (hother q hq)).trans hnone, fun q hq hnone => (tfind_tins_ne (hother q hq)).trans hnone⟩
theorem entriesMove_clearEntry (p : Nat) (sp : Spikelet) : EntriesMove sp (clearEntry p sp) :=
  ⟨rfl, rfl, fun _ _ hnone => tfind_tdel_none hnone p, fun _ _ hnone => tfind_tdel_none hnone p⟩
theorem entriesMove_moveEntry (src dst : Nat) (sp : Spikelet) : EntriesMove sp (moveEntry src dst sp) := by
  unfold moveEntry
  split
  next e he => exact (entriesMove_putEntry dst e sp).trans (entriesMove_clearEntry src _)
  next => exact .refl sp
theorem entriesMove_shiftChain (l : List Nat) (sp : Spikelet) : EntriesMove sp (shiftChain l sp) := by
  fun_induction shiftChain l sp with
  | case1 dst src r sp ih => exact (entriesMove_moveEntry src dst sp).trans ih
  | case2 l sp => exact .refl sp
theorem entriesMove_insertEntry (e : Entry) (sp : Spikelet) : EntriesMove sp (insertEntry e sp) := by
  unfold insertEntry
  dsimp only
  split
  next p hp => exact entriesMove_putEntry p e sp
  next =>
    split
    next => exact .refl sp
    next h hfree =>
      split_ifs
      · exact (entriesMove_shiftChain _ sp).trans (entriesMove_putEntry _ e _)
      · exact (entriesMove_shiftChain _ sp).trans (entriesMove_putEntry _ e _)
theorem entriesMove_reseat (p : Nat) (e : Entry) (sp : Spikelet) : EntriesMove sp (reseat p e sp) := by
  unfold reseat
  dsimp only
  split_ifs with hrule hdefault hlock
  · exact entriesMove_insertEntry e sp
  · split
    next q hq => exact entriesMove_putEntry q e sp
    next => exact .refl sp
  · exact .refl sp
  · split
    next q hq => exact entriesMove_putEntry q e sp
    next => exact .refl sp

/-! ### A parity fault (R221). -/
/-- The first fault: the entry is written again from the shadow. -/
def rewrittenAt (p : Nat) (sp : Spikelet) : Spikelet :=
  { sp with
    rewritten := sp.rewritten ++ [p]
    ents := match tfind sp.shadow p with | some e => tins sp.ents p e | none => tdel sp.ents p }
/-- The second fault: the unit is retired, and its entry gets another position. -/
def vacatedAt (p : Nat) (sp : Spikelet) : Spikelet := clearEntry p { sp with retired := sp.retired ++ [p], rewritten := lrem sp.rewritten p }
def retiredAt (p : Nat) (sp : Spikelet) : Spikelet :=
  match tfind sp.shadow p with | some e => reseat p e (vacatedAt p sp) | none => vacatedAt p sp
def faultedAt (p : Nat) (sp : Spikelet) : Spikelet := if sp.rewritten.contains p then retiredAt p sp else rewrittenAt p sp
/-- A faulty unit is mended unless it is retired already. -/
def mendedAt (p : Nat) (sp : Spikelet) : Spikelet := if sp.retired.contains p then sp else faultedAt p sp
def mendedAll (l : List Nat) (sp : Spikelet) : Spikelet := l.foldl (fun sp p => mendedAt p sp) sp

theorem mendedAt_first (hretired : p ∉ sp.retired) (hfirst : p ∉ sp.rewritten) : mendedAt p sp = rewrittenAt p sp := by
  rw [mendedAt, if_neg (mt List.contains_iff_mem.1 hretired), faultedAt, if_neg (mt List.contains_iff_mem.1 hfirst)]
theorem mendedAt_second (hretired : p ∉ sp.retired) (hsecond : p ∈ sp.rewritten) : mendedAt p sp = retiredAt p sp := by
  rw [mendedAt, if_neg (mt List.contains_iff_mem.1 hretired), faultedAt, if_pos (List.contains_iff_mem.2 hsecond)]

theorem tfind_rewrittenAt (h : rising sp.ents = true) (p q : Nat) :
    tfind (rewrittenAt p sp).ents q = if q = p then tfind sp.shadow p else tfind sp.ents q := by
  unfold rewrittenAt
  dsimp only
  split
  next e he => rw [tfind_tins, he]
  next hnone =>
    split_ifs with hq
    · rw [hq, hnone, tfind_tdel_self h]
    · exact tfind_tdel_ne hq
theorem rising_rewrittenAt (h : rising sp.ents = true) (p : Nat) : rising (rewrittenAt p sp).ents = true := by
  unfold rewrittenAt
  dsimp only
  split
  · exact rising_tins _ _ _ h
  · exact rising_tdel _ _ h

theorem entriesMove_retiredAt (p : Nat) (sp : Spikelet) : EntriesMove (vacatedAt p sp) (retiredAt p sp) := by
  unfold retiredAt
  split
  next e he => exact entriesMove_reseat p e _
  next => exact .refl _
/-- A retired unit holds no entry. -/
theorem tfind_retiredAt (hents : rising sp.ents = true) (hshadow : rising sp.shadow = true) (p : Nat) :
    tfind (retiredAt p sp).ents p = none ∧ tfind (retiredAt p sp).shadow p = none := by
  have hmove := entriesMove_retiredAt p sp
  have hp : p ∈ (vacatedAt p sp).retired := List.mem_append_right _ (List.mem_singleton_self p)
  exact ⟨hmove.ents p hp (tfind_tdel_self hents), hmove.shadow p hp (tfind_tdel_self hshadow)⟩

theorem found_mendedAt (p : Nat) (sp : Spikelet) : (mendedAt p sp).found = sp.found := by
  unfold mendedAt faultedAt
  split_ifs with hretired hsecond
  · rfl
  · exact (entriesMove_retiredAt p sp).found
  · rfl
theorem found_mendedAll (l : List Nat) (sp : Spikelet) : (mendedAll l sp).found = sp.found := by
  induction l generalizing sp with
  | nil => rfl
  | cons p l ih => exact (ih (mendedAt p sp)).trans (found_mendedAt p sp)

/-- Units that fail for the first time are each written again from the shadow. -/
theorem mendedAll_first (l : List Nat) (hl : l.Nodup) (hfirst : ∀ q ∈ l, q ∉ sp.retired ∧ q ∉ sp.rewritten) (hents : rising sp.ents = true) :
    (mendedAll l sp).retired = sp.retired ∧ (mendedAll l sp).rewritten = sp.rewritten ++ l ∧ (mendedAll l sp).shadow = sp.shadow ∧
      ∀ q, tfind (mendedAll l sp).ents q = if q ∈ l then tfind sp.shadow q else tfind sp.ents q := by
  induction l generalizing sp with
  | nil => exact ⟨rfl, (List.append_nil _).symm, rfl, fun q => (if_neg List.not_mem_nil).symm⟩
  | cons p l ih =>
    obtain ⟨hp, hl⟩ := List.nodup_cons.1 hl
    obtain ⟨hhead, htail⟩ := List.forall_mem_cons.1 hfirst
    have hstill : ∀ q ∈ l, q ∉ (rewrittenAt p sp).retired ∧ q ∉ (rewrittenAt p sp).rewritten := fun q hq =>
      ⟨(htail q hq).1, fun h => (List.mem_append.1 h).elim (htail q hq).2 fun h => hp (List.mem_singleton.1 h ▸ hq)⟩
    obtain ⟨hretired, hrewritten, hshadow, hfind⟩ := ih hl hstill (rising_rewrittenAt hents p)
    rw [show mendedAll (p :: l) sp = mendedAll l (rewrittenAt p sp) from congrArg (mendedAll l) (mendedAt_first hhead.1 hhead.2)]
    refine ⟨hretired, hrewritten.trans (List.append_assoc ..), hshadow, fun q => ?_⟩
    rw [hfind, tfind_rewrittenAt hents]
    by_cases hq : q ∈ l
    · rw [if_pos hq, if_pos (List.mem_cons_of_mem p hq)]
      rfl
    · by_cases hqp : q = p
      · subst hqp
        rw [if_neg hq, if_pos rfl, if_pos List.mem_cons_self]
      · rw [if_neg hq, if_neg hqp, if_neg (by simp [hq, hqp])]

/-! ### Steps that beside the spikelet record at most an event. -/
/-- From s to t the spikelet of card c becomes sp; beside it, events are recorded. -/
structure SpBecomes (c : CardId) (sp : Spikelet) (s t : State) : Prop where
  here : spAt t c = sp
  partner : spAt t (other c) = spAt s (other c)
  rest : { t with spA := s.spA, spB := s.spB, events := s.events } = s

theorem updSp_rest (c : CardId) (g : Spikelet → Spikelet) (s : State) : { updSp c g s with spA := s.spA, spB := s.spB } = s := by cases c <;> rfl
theorem spAt_updSp_self (c : CardId) (g : Spikelet → Spikelet) (s : State) : spAt (updSp c g s) c = g (spAt s c) := by cases c <;> rfl
theorem spAt_updSp_other (c : CardId) (g : Spikelet → Spikelet) (s : State) : spAt (updSp c g s) (other c) = spAt s (other c) := by cases c <;> rfl

theorem SpBecomes.refl (c : CardId) (s : State) : SpBecomes c (spAt s c) s s := ⟨rfl, rfl, rfl⟩
theorem SpBecomes.updSp (h : SpBecomes c sp s t) (g : Spikelet → Spikelet) : SpBecomes c (g sp) s (updSp c g t) where
  here := (spAt_updSp_self c g t).trans (congrArg g h.here)
  partner := (spAt_updSp_other c g t).trans h.partner
  rest := by cases c <;> exact h.rest
theorem SpBecomes.event (h : SpBecomes c sp s t) (code cls src ob a0 a1 a2 : Nat) : SpBecomes c sp s (event code cls src ob a0 a1 a2 t) where
  here := (spAt_tells (tells_event _ _ _ _ _ _ _ t) c).trans h.here
  partner := (spAt_tells (tells_event _ _ _ _ _ _ _ t) _).trans h.partner
  rest := h.rest
theorem SpBecomes.parityFault (h : SpBecomes c sp s t) (bank p : Nat) : SpBecomes c (faultedAt p sp) s (parityFault c bank p t) := by
  unfold Machine.parityFault faultedAt
  dsimp only
  rw [h.here]
  split_ifs with hsecond
  · exact (h.event ..).updSp (retiredAt p)
  · exact (h.event ..).updSp (rewrittenAt p)
theorem SpBecomes.repair (h : SpBecomes c sp s t) (l : List Nat) : SpBecomes c (mendedAll l sp) s (repair c l t) := by
  induction l generalizing sp t with
  | nil => exact h
  | cons p l ih =>
    refine ih (sp := mendedAt p sp) ?_
    unfold mendedAt
    dsimp only
    rw [h.here]
    split_ifs with hretired
    · exact h
    · exact h.parityFault _ p

end Sys2Proof.Laws
end

