-- ==== Sys2Proof/Proofs/BufferPools.lean ====
section
/-! SUPPORT. The buffer pools of a card's memory record: which buffers a grant takes (R258), and what a decrement does to a pool (R261). -/
namespace Sys2Proof.Laws
open Sys2Proof Sys2Proof.Machine

variable {s t : State} {c : CardId} {m m' : CardMem} {p i n v : Nat}

/-! ### The free buffers of a pool. -/
/-- Buffer i of a pool is neither granted nor held out. -/
def Unused (q : PoolSt) (i : Nat) : Prop := tfind q.refs i = none ∧ i ∉ q.out
/-- How many of the indices that a pool lists as granted or held out stand at i or above it. -/
def usedFrom (q : PoolSt) (i : Nat) : Nat := (q.refs.map Prod.fst ++ q.out).countP fun j => decide (i ≤ j)

theorem unused_iff (q : PoolSt) (i : Nat) : ((tfind q.refs i).isSome || q.out.contains i) = false ↔ Unused q i := by
  simp [Unused]
theorem mem_of_not_unused {q : PoolSt} (h : ¬ Unused q i) : i ∈ q.refs.map Prod.fst ++ q.out := by
  rw [Unused, not_and_or, not_not] at h
  rcases h with hrefs | hout
  · obtain ⟨v, hv⟩ := Option.ne_none_iff_exists'.1 hrefs
    exact List.mem_append_left _ (mem_keys_of_tfind hv)
  · exact List.mem_append_right _ hout
theorem usedFrom_le (q : PoolSt) (i : Nat) : usedFrom q i ≤ q.refs.length + q.out.length := by
  have h : usedFrom q i ≤ (q.refs.map Prod.fst ++ q.out).length := List.countP_le_length
  simpa using h
theorem countP_above (l : List Nat) (i : Nat) : l.countP (fun j => decide (i ≤ j)) = l.countP (fun j => decide (i + 1 ≤ j)) + l.count i := by
  induction l with
  | nil => rfl
  | cons j l ih =>
    simp only [List.countP_cons, List.count_cons, ih, decide_eq_true_eq, beq_iff_eq]
    split_ifs <;> omega
theorem usedFrom_succ_le (q : PoolSt) (i : Nat) : usedFrom q (i + 1) ≤ usedFrom q i := by
  unfold usedFrom
  rw [countP_above _ i]
  exact Nat.le_add_right _ _
theorem usedFrom_succ_lt {q : PoolSt} (h : ¬ Unused q i) : usedFrom q (i + 1) < usedFrom q i := by
  have hcount := List.count_pos_iff.2 (mem_of_not_unused h)
  unfold usedFrom
  rw [countP_above _ i]
  omega

/-- What the search for free buffers takes is unused, within the pool, and in rising order. -/
theorem freeIdx_unused (q : PoolSt) (size fuel n i : Nat) :
    (∀ j ∈ freeIdx q size fuel n i, i ≤ j ∧ j < size ∧ Unused q j) ∧ (freeIdx q size fuel n i).Pairwise (· < ·) := by
  fun_induction freeIdx q size fuel n i with
  | case1 => simp
  | case2 => simp
  | case3 => simp
  | case4 fuel n i hsize hused ih => exact ⟨fun j hj => ⟨Nat.le_of_succ_le (ih.1 j hj).1, (ih.1 j hj).2⟩, ih.2⟩
  | case5 fuel n i hsize hunused ih =>
    refine ⟨List.forall_mem_cons.2 ⟨⟨le_rfl, not_le.1 hsize, (unused_iff q i).1 (Bool.not_eq_true _ ▸ hunused)⟩, fun j hj => ?_⟩,
      List.pairwise_cons.2 ⟨fun j hj => (ih.1 j hj).1, ih.2⟩⟩
    exact ⟨Nat.le_of_succ_le (ih.1 j hj).1, (ih.1 j hj).2⟩
/-- It finds as many as it looks for where the pool has room for them beside those in use. -/
theorem length_freeIdx (q : PoolSt) (size fuel n i : Nat) (hroom : i + n + usedFrom q i ≤ size) (hfuel : n + usedFrom q i ≤ fuel) :
    (freeIdx q size fuel n i).length = n := by
  fun_induction freeIdx q size fuel n i with
  | case1 n i => rw [List.length_nil]; omega
  | case2 => rfl
  | case3 fuel n i hsize => omega
  | case4 fuel n i hsize hused ih =>
    have hlt := usedFrom_succ_lt fun h : Unused q i => Bool.eq_false_iff.1 ((unused_iff q i).2 h) hused
    exact ih (by omega) (by omega)
  | case5 fuel n i hsize hunused ih =>
    have hle := usedFrom_succ_le q i
    rw [List.length_cons, ih (by omega) (by omega)]

/-! ### The pools of a memory record. -/
/-- Pool p of a memory record; a record with pool p changed. -/
def poolOf (m : CardMem) (p : Nat) : PoolSt := m.pools.getD p {}
def onPool (p : Nat) (g : PoolSt → PoolSt) (m : CardMem) : CardMem := { m with pools := m.pools.set p (g (poolOf m p)) }

theorem poolAt_eq (s : State) (c : CardId) (p : Nat) : poolAt s c p = poolOf (memAt s c) p := rfl
theorem length_onPool (p : Nat) (g : PoolSt → PoolSt) (m : CardMem) : (onPool p g m).pools.length = m.pools.length := List.length_set
theorem poolOf_onPool_self (g : PoolSt → PoolSt) (h : p < m.pools.length) : poolOf (onPool p g m) p = g (poolOf m p) := by
  simp [poolOf, onPool, h]
theorem poolOf_onPool_ne {r : Nat} (g : PoolSt → PoolSt) (m : CardMem) (h : r ≠ p) : poolOf (onPool p g m) r = poolOf m r := by
  simp [poolOf, onPool, List.getElem?_set_ne h.symm]
theorem poolNo_lt (pool : Pool) : poolNo pool < 4 := by cases pool <;> decide

/-! ### A request for buffers (R258). -/
/-- The buffers that a grant of n takes from pool p, and a pool from which they are taken. -/
def taken (q : PoolSt) (p n : Nat) : List Nat := freeIdx q (poolSize p) (q.refs.length + q.out.length + n + 1) n 0
def grants (p n : Nat) (q : PoolSt) : PoolSt :=
  { q with free := q.free - n, freeMin := min q.freeMin (q.free - n), cache := cacheMove (q.cache - n) (q.free - n),
           refs := (taken q p n).foldl (fun t i => tins t i 1) q.refs }
/-- A pool that has too few for a request. -/
def turnsDown (q : PoolSt) : PoolSt := { q with empty := q.empty + 1 }
/-- A memory record after a request that was granted, with the handles granted, and after one that was not. -/
def granted (p n : Nat) (m : CardMem) : CardMem :=
  { onPool p (grants p n) m with granted := some ((taken (poolOf m p) p n).map fun i => BitVec.ofNat 32 (p * 2 ^ 30 + i)) }
def turnedDown (p : Nat) (m : CardMem) : CardMem := { onPool p turnsDown m with granted := none }

theorem poolOf_granted_self (n : Nat) (h : p < m.pools.length) : poolOf (granted p n m) p = grants p n (poolOf m p) := poolOf_onPool_self (grants p n) h
theorem poolOf_granted_ne {r : Nat} (n : Nat) (m : CardMem) (h : r ≠ p) : poolOf (granted p n m) r = poolOf m r := poolOf_onPool_ne (grants p n) m h
theorem poolOf_turnedDown_self (h : p < m.pools.length) : poolOf (turnedDown p m) p = turnsDown (poolOf m p) := poolOf_onPool_self turnsDown h
theorem poolOf_turnedDown_ne {r : Nat} (m : CardMem) (h : r ≠ p) : poolOf (turnedDown p m) r = poolOf m r := poolOf_onPool_ne turnsDown m h

theorem bufferRequest_short {pool : Pool} {eng : Nat} (h1 : 1 ≤ n) (h16 : n ≤ 16) (hfree : (poolAt s c (poolNo pool)).free < n) :
    exec (.bufferRequest c pool n eng) s = .next (updMem c (turnedDown (poolNo pool)) s) := by
  show execBufferRequest c pool n eng s = _
  rw [execBufferRequest, if_neg (by omega), takeBufs]
  dsimp only
  rw [if_pos (.inl hfree)]
  cases c <;> rfl
theorem bufferRequest_whole {pool : Pool} {eng : Nat} (h1 : 1 ≤ n) (h16 : n ≤ 16) (hfree : n ≤ (poolAt s c (poolNo pool)).free) :
    exec (.bufferRequest c pool n eng) s = .next (updMem c (granted (poolNo pool) n) s) := by
  show execBufferRequest c pool n eng s = _
  rw [execBufferRequest, if_neg (by omega), takeBufs]
  dsimp only
  rw [if_neg (by omega)]
  cases c <;> rfl
theorem taken_spec {q : PoolSt} (hfree : n ≤ q.free) (hfits : q.free + q.refs.length + q.out.length ≤ poolSize p) :
    (taken q p n).length = n ∧ (taken q p n).Nodup ∧ ∀ i ∈ taken q p n, i < poolSize p ∧ Unused q i := by
  have hused := usedFrom_le q 0
  obtain ⟨hunused, hrising⟩ := freeIdx_unused q (poolSize p) (q.refs.length + q.out.length + n + 1) n 0
  exact ⟨length_freeIdx q _ _ n 0 (by omega) (by omega), hrising.imp fun h => h.ne, fun i hi => (hunused i hi).2⟩

/-! ### Decrements of a buffer's count (R261). -/
/-- A pool in which buffer i keeps n references, is freed, or is held out. -/
def keeps (i n : Nat) (q : PoolSt) : PoolSt := { q with refs := tins q.refs i n }
def frees (i : Nat) (q : PoolSt) : PoolSt := { q with refs := tdel q.refs i, free := q.free + 1, cache := cacheMove (q.cache + 1) (q.free + 1) }
def holdsOut (i : Nat) (q : PoolSt) : PoolSt := { q with out := q.out ++ [i], free := q.free - 1 }
/-- A memory record after one reference fault, and after one of buffer i of pool p. -/
def oneFault (m : CardMem) : CardMem := { m with refFaults := (m.refFaults + 1) % 2 ^ 32 }
def faulted (p i : Nat) (m : CardMem) : CardMem := oneFault (onPool p (holdsOut i) m)
/-- One decrement of buffer i of pool p; n of them. -/
def decremented (p i : Nat) (m : CardMem) : CardMem :=
  match tfind (poolOf m p).refs i with
  | some (n + 2) => onPool p (keeps i (n + 1)) m
  | some _ => onPool p (frees i) m
  | none => if (poolOf m p).out.contains i then m else faulted p i m
def decrements (p i : Nat) : Nat → CardMem → CardMem
  | 0, m => m
  | n + 1, m => decrements p i n (decremented p i m)

theorem poolOf_faulted_self (i : Nat) (h : p < m.pools.length) : poolOf (faulted p i m) p = holdsOut i (poolOf m p) := poolOf_onPool_self (holdsOut i) h
theorem decremented_keeps (h : tfind (poolOf m p).refs i = some (v + 2)) : decremented p i m = onPool p (keeps i (v + 1)) m := by
  unfold decremented
  rw [h]
theorem decremented_frees (h : tfind (poolOf m p).refs i = some 1) : decremented p i m = onPool p (frees i) m := by
  unfold decremented
  rw [h]
theorem decremented_faults (h : Unused (poolOf m p) i) : decremented p i m = faulted p i m := by
  unfold decremented
  rw [h.1]
  exact if_neg (mt List.contains_iff_mem.1 h.2)
theorem decremented_of_heldOut (h : tfind (poolOf m p).refs i = none) (hout : i ∈ (poolOf m p).out) : decremented p i m = m := by
  unfold decremented
  rw [h]
  exact if_pos (List.contains_iff_mem.2 hout)

theorem poolOf_decremented_ne {r : Nat} (h : r ≠ p) (m : CardMem) : poolOf (decremented p i m) r = poolOf m r := by
  unfold decremented
  split
  · exact poolOf_onPool_ne _ m h
  · exact poolOf_onPool_ne _ m h
  · split_ifs
    · rfl
    · exact poolOf_onPool_ne (holdsOut i) m h
theorem poolOf_decrements_ne {r : Nat} (h : r ≠ p) (n : Nat) (m : CardMem) : poolOf (decrements p i n m) r = poolOf m r := by
  induction n generalizing m with
  | zero => rfl
  | succ n ih => exact (ih _).trans (poolOf_decremented_ne h m)

/-- Fewer decrements than the count: the buffer keeps the difference. -/
theorem decrements_keep (hp : p < m.pools.length) (hv : tfind (poolOf m p).refs i = some v) (hn : n < v) :
    tfind (poolOf (decrements p i n m) p).refs i = some (v - n) ∧ (poolOf (decrements p i n m) p).free = (poolOf m p).free ∧
      (decrements p i n m).refFaults = m.refFaults := by
  induction n generalizing m v with
  | zero => exact ⟨hv, rfl, rfl⟩
  | succ n ih =>
    obtain ⟨k, rfl⟩ := Nat.exists_eq_add_of_le' (show 2 ≤ v by omega)
    have hpool := poolOf_onPool_self (keeps i (k + 1)) hp
    have hfind : tfind (poolOf (onPool p (keeps i (k + 1)) m) p).refs i = some (k + 1) := by
      rw [hpool]
      exact tfind_tins_self _ _ _
    obtain ⟨hrefs, hfree, hfaults⟩ := ih ((length_onPool p _ m).symm ▸ hp) hfind (by omega)
    rw [decrements, decremented_keeps hv]
    exact ⟨hrefs.trans (congrArg some (by omega)), hfree.trans (congrArg PoolSt.free hpool :), hfaults⟩
/-- As many decrements as the count: the buffer is freed, once. -/
theorem decrements_free (hp : p < m.pools.length) (hrefs : rising (poolOf m p).refs = true) (hv : tfind (poolOf m p).refs i = some (n + 1)) :
    tfind (poolOf (decrements p i (n + 1) m) p).refs i = none ∧ (poolOf (decrements p i (n + 1) m) p).free = (poolOf m p).free + 1 ∧
      (decrements p i (n + 1) m).refFaults = m.refFaults := by
  induction n generalizing m with
  | zero =>
    rw [decrements, decremented_frees hv, decrements, poolOf_onPool_self (frees i) hp]
    exact ⟨tfind_tdel_self hrefs, rfl, rfl⟩
  | succ n ih =>
    have hpool := poolOf_onPool_self (keeps i (n + 1)) hp
    have hfind : tfind (poolOf (onPool p (keeps i (n + 1)) m) p).refs i = some (n + 1) := by
      rw [hpool]
      exact tfind_tins_self _ _ _
    obtain ⟨hnone, hfree, hfaults⟩ := ih ((length_onPool p _ m).symm ▸ hp) (by rw [hpool]; exact rising_tins _ _ _ hrefs) hfind
    rw [decrements, decremented_keeps hv]
    exact ⟨hnone, hfree.trans (congrArg (fun q : PoolSt => q.free + 1) hpool :), hfaults⟩
/-- A buffer that is held out takes no decrement. -/
theorem decrements_of_heldOut (h : tfind (poolOf m p).refs i = none) (hout : i ∈ (poolOf m p).out) (n : Nat) : decrements p i n m = m := by
  induction n with
  | zero => rfl
  | succ n ih => rw [decrements, decremented_of_heldOut h hout, ih]
/-- Decrements of a buffer whose count is zero: one reference fault, and the buffer is held out. -/
theorem decrements_fault (hp : p < m.pools.length) (h : Unused (poolOf m p) i) (n : Nat) :
    decrements p i (n + 1) m = faulted p i m := by
  have hpool := poolOf_faulted_self i hp
  rw [decrements, decremented_faults h]
  exact decrements_of_heldOut (by rw [hpool]; exact h.1) (by rw [hpool]; exact List.mem_append_right _ (List.mem_singleton_self i)) n

/-! ### Steps that beside a memory record only record events. -/
/-- From s to t the memory record of card c becomes m; beside it, events are recorded. -/
structure MemRecorded (c : CardId) (m : CardMem) (s t : State) : Prop where
  here : memAt t c = m
  partner : memAt t (other c) = memAt s (other c)
  rest : { t with memA := s.memA, memB := s.memB, events := s.events } = s

theorem MemRecorded.refl (c : CardId) (s : State) : MemRecorded c (memAt s c) s s := ⟨rfl, rfl, rfl⟩
theorem MemRecorded.updMem (h : MemRecorded c m s t) (g : CardMem → CardMem) : MemRecorded c (g m) s (updMem c g t) where
  here := (memAt_updMem_self c g t).trans (congrArg g h.here)
  partner := (memAt_updMem_other c g t).trans h.partner
  rest := by cases c <;> exact h.rest
theorem MemRecorded.event (h : MemRecorded c m s t) (code cls src ob a0 a1 a2 : Nat) : MemRecorded c m s (event code cls src ob a0 a1 a2 t) where
  here := (memAt_tells (tells_event _ _ _ _ _ _ _ t) c).trans h.here
  partner := (memAt_tells (tells_event _ _ _ _ _ _ _ t) _).trans h.partner
  rest := h.rest
theorem MemRecorded.decBuf (h : MemRecorded c m s t) (p i eng : Nat) : MemRecorded c (decremented p i m) s (decBuf c p i eng t) := by
  have hpool : poolAt t c p = poolOf m p := congrArg (fun m => poolOf m p) h.here
  unfold Machine.decBuf decremented
  dsimp only
  rw [hpool]
  rcases tfind (poolOf m p).refs i with _ | _ | _ | n
  case none =>
    dsimp only
    split_ifs with hout
    · exact h
    · exact ((h.updMem (onPool p (holdsOut i))).updMem oneFault).event ..
  case some.zero => exact h.updMem (onPool p (frees i))
  case some.succ.zero => exact h.updMem (onPool p (frees i))
  case some.succ.succ => exact h.updMem (onPool p (keeps i (n + 1)))
theorem MemRecorded.decTimes (h : MemRecorded c m s t) (p i eng n : Nat) : MemRecorded c (decrements p i n m) s (decTimes c p i eng n t) := by
  induction n generalizing m t with
  | zero => exact h
  | succ n ih => exact ih (h.decBuf p i eng)

end Sys2Proof.Laws
end

