-- ==== Sys2Proof/Proofs/SpikeletAndBuffers.lean ====
section
/-! OBLIGATION. O49: searches, writes and parity repair of a spikelet (R217, R218, R220, R221), grants and decrements of buffers (R257, R258, R261),
fences (R267) and contexts of check-value units (R272). The spikelet's rows are `SpBecomes` and the record it names; a buffer's rows change one
pool of a memory record. -/
namespace Sys2Proof.Laws
open Sys2Proof Sys2Proof.Machine

variable {s : State} {c : CardId}

/-! ### The spikelet. -/
/-- The units that a search finds faulty, by their positions. -/
def faultyPositions (profile : Nat) (faulty : List Nat) : List Nat := (faulty.filter (inProfile profile)).map entryPos
/-- The spikelet without the entries found faulty; the mask that the search compares by; the record with the result in it. -/
def without (bad : List Nat) (sp : Spikelet) : Spikelet := { sp with ents := sp.ents.filter fun x => !bad.contains x.1 }
def searchMask (profile : Nat) (mask : BitVec 320) : BitVec 320 := if profile = 0 then mask else BitVec.allOnes 320
def searched (profile : Nat) (key mask : BitVec 320) (bad : List Nat) (sp : Spikelet) : Spikelet :=
  { sp with found := (spSearch (without bad sp) profile key (searchMask profile mask)).map fun x => x.2.result }

theorem mem_faultyPositions {profile q : Nat} {faulty : List Nat} :
    q ∈ faultyPositions profile faulty ↔ ∃ u ∈ faulty, inProfile profile u = true ∧ entryPos u = q := by
  simp only [faultyPositions, List.mem_map, List.mem_filter, and_assoc]
theorem mem_without {bad : List Nat} {sp : Spikelet} {x : Nat × Entry} : x ∈ (without bad sp).ents ↔ x ∈ sp.ents ∧ x.1 ∉ bad := by
  simp [without]

/-- A search records its result and mends what it has found faulty. -/
theorem spikeletSearch_becomes (c : CardId) (profile : Nat) (key mask : BitVec 320) (faulty : List Nat) (s : State) :
    ∃ t, exec (.spikeletSearch c profile key { mask := mask, faulty := faulty }) s = .next t ∧
      SpBecomes c (mendedAll (faultyPositions profile faulty) (searched profile key mask (faultyPositions profile faulty) (spAt s c))) s t :=
  ⟨_, rfl, ((SpBecomes.refl c s).updSp (searched profile key mask (faultyPositions profile faulty))).repair _⟩
theorem found_searched {profile : Nat} {key mask : BitVec 320} {bad : List Nat} {sp : Spikelet} (h : rising sp.ents = true) :
    (searched profile key mask bad sp).found = none ∧
      (∀ x, ¬ (x ∈ sp.ents ∧ x.1 ∉ bad ∧ spMatch profile key (searchMask profile mask) x = true)) ∨
    ∃ x, (x ∈ sp.ents ∧ x.1 ∉ bad ∧ spMatch profile key (searchMask profile mask) x = true) ∧
      (searched profile key mask bad sp).found = some x.2.result ∧
      ∀ y, (y ∈ sp.ents ∧ y.1 ∉ bad ∧ spMatch profile key (searchMask profile mask) y = true) → Beats x y := by
  rcases spSearch_cases (sp := without bad sp) profile key (searchMask profile mask) (rising_filter _ _ h) with
    ⟨hnone, hall⟩ | ⟨x, hx, hmatch, hfound, hbeats⟩
  · refine .inl ⟨congrArg (Option.map _) hnone, fun x hx => ?_⟩
    exact hall x (mem_without.2 ⟨hx.1, hx.2.1⟩) hx.2.2
  · obtain ⟨hent, hgood⟩ := mem_without.1 hx
    exact .inr ⟨x, ⟨hent, hgood, hmatch⟩, congrArg (Option.map _) hfound, fun y hy => hbeats y (mem_without.2 ⟨hy.1, hy.2.1⟩) hy.2.2⟩

/-- The entry that an update writes to the position of unit u. -/
def writtenEntry (u : Nat) (e : SpikEntry) : Entry :=
  { valid := true, prio := e.prio, key := e.key &&& entryBits u, mask := e.mask &&& entryBits u, result := e.result,
    rule := if u < 32768 then e.result.toNat else bits e.result.toNat 15 0 }
theorem spikeletUpdate_eq (c : CardId) (u : Nat) (e : SpikEntry) (s : State) :
    exec (.spikeletUpdate c u e) s = .next (updSp c (putEntry (entryPos u) (writtenEntry u e)) s) := rfl

/-- A parity fault that the comparison with the shadow finds is mended. -/
theorem spikeletShadowCompare_becomes (c : CardId) (u : Nat) (s : State) :
    ∃ t, exec (.spikeletShadowCompare c (u / 4096) [u]) s = .next t ∧ SpBecomes c (mendedAt (entryPos u) (spAt s c)) s t := by
  have hbank : ([u].filter fun p => p / 4096 == u / 4096).map entryPos = [entryPos u] := by simp
  refine ⟨_, rfl, ?_⟩
  rw [hbank]
  exact (SpBecomes.refl c s).repair [entryPos u]

/-! ### The statement. -/
/-- Settles O49: every row changes one record of a card, and what it does to that record is said for the record alone. -/
theorem spikeletAndBufferManagerAct : Obligations.SpikeletAndBufferManagerAct := by
  refine ⟨fun c p key mask faulty s hents => ?search, fun c u p e s hp => ?update, fun c u p s hp hents hshadow hretired => ?compare,
    fun c pool n eng p q s hp hq hpools h1 h16 hrefs hfits => ?request, fun c h n eng p i v q s hp hi hq hpools hrefs h1 => ?decrement,
    fun c src s => ?fence, fun c n x s hunits => ?context⟩
  case search =>
    obtain ⟨t, hexec, ht⟩ := spikeletSearch_becomes c p key mask faulty s
    refine ⟨t, hexec, fun hgood => ?_, ht.partner, fun l hl hnodup hfirst => ?_, ?_, ht.rest⟩
    · have hnone : faultyPositions p faulty = [] := by
        rw [faultyPositions, List.filter_eq_nil_iff.2 fun q hq => by simp [hgood q hq], List.map_nil]
      rw [ht.here, hnone]
      rfl
    · subst hl
      rw [ht.here]
      exact mendedAll_first (sp := searched p key mask (faultyPositions p faulty) (spAt s c)) _ hnodup hfirst hents
    · have hfound := found_searched (profile := p) (key := key) (mask := mask) (bad := faultyPositions p faulty) hents
      rw [← found_mendedAll (faultyPositions p faulty), ← ht.here] at hfound
      simp only [mem_faultyPositions] at hfound
      exact hfound
  case update =>
    subst hp
    refine ⟨_, spikeletUpdate_eq c u e s, entryPos_of_single, spAt_updSp_other _ _ _, updSp_rest _ _ _, fun hretired => ?_, fun husable => ?_⟩
    · rw [spAt_updSp_self, putEntry_of_retired hretired]
    · rw [spAt_updSp_self, putEntry_of_usable husable]
      exact ⟨rfl, ⟨writtenEntry u e, tfind_tins_self _ _ _, tfind_tins_self _ _ _, rfl, rfl, rfl, rfl, rfl⟩,
        fun q hq => ⟨tfind_tins_ne hq, tfind_tins_ne hq⟩⟩
  case compare =>
    subst hp
    obtain ⟨t, hexec, ht⟩ := spikeletShadowCompare_becomes c u s
    refine ⟨t, hexec, ht.partner, ht.rest, fun hfirst => ?_, fun hsecond => ?_⟩
    · have hfind := tfind_rewrittenAt hents (entryPos u)
      rw [ht.here, mendedAt_first hretired hfirst]
      exact ⟨rfl, List.mem_append_right _ (List.mem_singleton_self _), (hfind _).trans (if_pos rfl), rfl, fun q hq => (hfind q).trans (if_neg hq)⟩
    · rw [ht.here, mendedAt_second hretired hsecond]
      exact ⟨(entriesMove_retiredAt _ _).retired, tfind_retiredAt hents hshadow _⟩
  case request =>
    subst hp hq
    have hlt : poolNo pool < (memAt s c).pools.length := hpools.symm ▸ poolNo_lt pool
    rcases lt_or_ge (poolAt s c (poolNo pool)).free n with hfree | hfree
    · refine ⟨_, bufferRequest_short h1 h16 hfree, ?_⟩
      simp only [poolAt_eq, memAt_updMem_self]
      exact ⟨fun r hr => poolOf_turnedDown_ne _ hr, memAt_updMem_other _ _ _, updMem_rest _ _ _, fun hn => absurd hfree (not_lt.2 hn),
        fun _ => ⟨rfl, poolOf_turnedDown_self hlt⟩⟩
    · obtain ⟨hlength, hnodup, hunused⟩ := taken_spec hfree hfits
      have hfind := tfind_foldl_tins (taken (poolAt s c (poolNo pool)) (poolNo pool) n) (poolAt s c (poolNo pool)).refs
      refine ⟨_, bufferRequest_whole h1 h16 hfree, ?_⟩
      simp only [poolAt_eq, memAt_updMem_self, poolOf_granted_self n hlt]
      refine ⟨fun r hr => poolOf_granted_ne n _ hr, memAt_updMem_other _ _ _, updMem_rest _ _ _, fun _ => ?_, fun hn => absurd hn (not_lt.2 hfree)⟩
      refine ⟨_, hlength, hnodup, fun i hi => ?_, fun i hi => (hfind i 1).trans (if_neg hi), rfl, rfl, rfl, rfl⟩
      obtain ⟨hsize, hnone, hout⟩ := hunused i hi
      exact ⟨hsize, hnone, hout, (hfind i 1).trans (if_pos hi)⟩
  case decrement =>
    subst hq
    have ht := (MemRecorded.refl c s).decTimes p i eng n
    have hlt : p < (memAt s c).pools.length := by
      rw [hpools, hp]
      exact Nat.mod_lt _ (by decide)
    obtain ⟨k, rfl⟩ := Nat.exists_eq_add_of_le' h1
    refine ⟨decTimes c p i eng (k + 1) s, by rw [hp, hi]; rfl, ht.partner, fun r hr => ?_, ht.rest, fun hv hn => ?_, fun hv hn => ?_, fun hv hout => ?_⟩
    all_goals simp only [poolAt_eq, ht.here]
    · exact poolOf_decrements_ne hr _ _
    · exact decrements_keep hlt hv hn
    · subst hn
      exact decrements_free hlt hrefs hv
    · rw [decrements_fault hlt ⟨hv, hout⟩, poolOf_faulted_self i hlt]
      exact ⟨hv, rfl, rfl, rfl⟩
  case fence =>
    refine ⟨_, rfl, ?_⟩
    rw [memAt_updMem_self]
    exact ⟨tget_tupd_of_ne 0 (memAt s c).fences src _ (Nat.succ_ne_zero _),
      fun x hx => tget_tput_ne 0 (memAt s c).fences src x (tget 0 (memAt s c).fences src + 1) hx, rfl, memAt_updMem_other _ _ _, updMem_rest _ _ _⟩
  case context =>
    refine ⟨_, rfl, ?_⟩
    unfold unitAt
    rw [memAt_updMem_self]
    refine ⟨rfl, ?_, fun m hm => ?_, memAt_updMem_other _ _ _, updMem_rest _ _ _⟩
    · cases x with
      | none => rfl
      | some y => exact (tget_tput_rising ({} : CheckCtx) _ n n _ hunits).trans (if_pos rfl)
    · cases x with
      | none => rfl
      | some y => exact tget_tput_ne ({} : CheckCtx) _ n m _ hm

end Sys2Proof.Laws
end

