-- ==== Sys2Proof/Proofs/QueuePairs.lean ====
section
/-! SUPPORT. One queue pair of the table of queue pairs (R243), what transmits on it (R246-R252), and what sends its outstanding packets again. -/
namespace Sys2Proof.Laws
open Sys2Proof Sys2Proof.Machine

variable {s t u : State} {qp psn : Nat} {q : Qp}

/-- An outstanding packet: PSN, command, piece or block, bytes, and whether it is an RDMA READ. -/
abbrev Packet := Nat × Nat × Nat × Nat × Bool
/-- The bytes of packets. -/
def bytesIn (l : List Packet) : Nat := (l.map fun x => x.2.2.2.1).sum

variable {o : Packet} {a b l : List Packet}

theorem foldl_bytes (l : List Packet) (n : Nat) : l.foldl (fun a x => a + x.2.2.2.1) n = n + bytesIn l := by
  induction l generalizing n with
  | nil => rfl
  | cons x l ih => rw [List.foldl_cons, ih, bytesIn, bytesIn, List.map_cons, List.sum_cons, Nat.add_assoc]

/-! ### One queue pair changes. -/
/-- From s to t queue pair qp becomes q, and every other is as it was. -/
structure QpBecomes (qp : Nat) (q : Qp) (s t : State) : Prop where
  keys : rising t.qps = true
  here : qpAt t qp = q
  others : ∀ m, m ≠ qp → qpAt t m = qpAt s m

theorem rising_qps (h : s.canonical = true) : rising s.qps = true := (canon_iff.2 h).qps
theorem QpBecomes.refl (qp : Nat) (h : s.canonical = true) : QpBecomes qp (qpAt s qp) s s := ⟨rising_qps h, rfl, fun _ _ => rfl⟩
theorem QpBecomes.updQp (h : QpBecomes qp q s t) (g : Qp → Qp) : QpBecomes qp (g q) s (updQp qp g t) where
  keys := rising_tupd _ _ _ _ h.keys
  here := (qpAt_updQp qp g t qp h.keys).trans ((if_pos rfl).trans (congrArg g h.here))
  others := fun m hm => (qpAt_updQp qp g t m h.keys).trans ((if_neg hm).trans (h.others m hm))
theorem QpBecomes.congr (h : QpBecomes qp q s t) (hqps : u.qps = t.qps) : QpBecomes qp q s u where
  keys := hqps ▸ h.keys
  here := (congrArg (fun l : Tbl Qp => tget ({} : Qp) l qp) hqps).trans h.here
  others := fun m hm => (congrArg (fun l : Tbl Qp => tget ({} : Qp) l m) hqps).trans (h.others m hm)

/-! ### One port changes. -/
theorem bulkAt_updBulk_self (p : CardId) (g : BulkPort → BulkPort) (s : State) : bulkAt (updBulk p g s) p = g (bulkAt s p) := by cases p <;> rfl
theorem bulkAt_updBulk_other (p : CardId) (g : BulkPort → BulkPort) (s : State) : bulkAt (updBulk p g s) (other p) = bulkAt s (other p) := by
  cases p <;> rfl
theorem updBulk_rest (p : CardId) (g : BulkPort → BulkPort) (s : State) : { updBulk p g s with b0 := s.b0, b1 := s.b1 } = s := by cases p <;> rfl
theorem updBulk_congr {p : CardId} {g h : BulkPort → BulkPort} (hgh : g (bulkAt s p) = h (bulkAt s p)) : updBulk p g s = updBulk p h s := by
  cases p
  · exact congrArg (fun x => { s with b0 := x }) hgh
  · exact congrArg (fun x => { s with b1 := x }) hgh

/-! ### What transmits. -/
/-- From s to t queue pairs change and messages leave, and nothing else. -/
def Transmits (s t : State) : Prop := ∃ qps l, t = { s with qps := qps, tx := s.tx ++ l }

theorem Transmits.refl (s : State) : Transmits s s := ⟨s.qps, [], by rw [List.append_nil]⟩
theorem Transmits.after (k : Transmits t u) (h : Transmits s t) : Transmits s u := by
  obtain ⟨p, l, rfl⟩ := h
  obtain ⟨q, m, rfl⟩ := k
  exact ⟨q, l ++ m, by rw [List.append_assoc]⟩
theorem Transmits.foldl {α : Type} {f : State → α → State} {l : List α} (h : Transmits s t) (hf : ∀ u a, Transmits u (f u a)) :
    Transmits s (l.foldl f t) := List.foldlRecOn (motive := Transmits s) l f h fun u hu a _ => (hf u a).after hu
theorem transmits_updQp (qp : Nat) (g : Qp → Qp) (s : State) : Transmits s (updQp qp g s) := ⟨_, [], by rw [List.append_nil]; rfl⟩
theorem transmits_send (m : Tx) (s : State) : Transmits s (send m s) := ⟨s.qps, [m], rfl⟩

theorem transmits_resend (qp psn : Nat) (s : State) : Transmits s (resend qp psn s) := by
  unfold resend
  extract_lets q l bytes sent marked
  have hmarked : Transmits s marked :=
    (transmits_updQp _ _ _).after ((Transmits.refl s).foldl fun u o => transmits_send _ u)
  split
  · exact transmits_updQp _ _ _
  split
  · exact transmits_updQp _ _ _
  split
  · exact hmarked
  · exact (transmits_updQp _ _ _).after ((transmits_send _ _).after hmarked)
theorem transmits_issueWrites (qp fuel : Nat) (s : State) : Transmits s (issueWrites qp fuel s) := by
  induction fuel generalizing s with
  | zero => exact .refl s
  | succ n ih =>
    unfold issueWrites
    split
    · exact .refl s
    split
    · exact (ih _).after (transmits_updQp _ _ _)
    split
    · exact .refl s
    · exact (ih _).after ((transmits_send _ _).after (transmits_updQp _ _ _))
theorem transmits_issueReads (k : Nat) (s : State) : Transmits s (issueReads k s) := by
  unfold issueReads
  dsimp only
  split
  · exact .refl s
  · exact (transmits_send _ _).after (transmits_updQp _ _ _)
theorem transmits_issueAppends (qp : Nat) (s : State) : Transmits s (issueAppends qp s) :=
  (Transmits.refl s).foldl fun u c => transmits_issueReads c.1 u
theorem transmits_qpGoes (qp : Nat) (s : State) : Transmits s (qpGoes qp s) := by
  unfold qpGoes
  extract_lets again
  have hagain : Transmits s again := by
    dsimp only [again]
    split
    · exact transmits_resend _ _ s
    · exact .refl s
  exact (transmits_issueAppends _ _).after ((transmits_issueWrites _ _ _).after hagain)
theorem transmits_portGoes (c : CardId) (s : State) : Transmits s (portGoes c s) :=
  (Transmits.refl s).foldl fun u q => transmits_qpGoes q.1 u

theorem foldl_send {α : Type} (f : α → Tx) (l : List α) (s : State) : l.foldl (fun s x => send (f x) s) s = { s with tx := s.tx ++ l.map f } := by
  induction l generalizing s with
  | nil => rw [List.foldl_nil, List.map_nil, List.append_nil]
  | cons x l ih =>
    rw [List.foldl_cons, ih, List.map_cons]
    simp only [send, List.append_assoc, List.singleton_append]

/-! ### Outstanding packets are sent again (R250, R252). -/
/-- The oldest outstanding packet is one of those sent again from its PSN on. -/
theorem drop_from_oldest (hpsn : o.1 = psn) : (o :: b).drop ((o :: b).findIdx fun x => x.1 == psn) = o :: b := by
  simp [List.findIdx_cons, hpsn]
/-- Each of the packets is of a command that is held. -/
def PacketsHeld (s : State) (l : List Packet) : Prop := ∀ x ∈ l, (tfind s.cmds x.2.1).isSome = true

section
variable (hout : (qpAt s qp).out = o :: b) (hpsn : o.1 = psn) (hheld : PacketsHeld s (o :: b))
include hout hpsn hheld

theorem resent_from_oldest :
    (((qpAt s qp).out.drop ((qpAt s qp).out.findIdx fun x => x.1 == psn)).filter fun x => (tfind s.cmds x.2.1).isSome) = o :: b := by
  rw [hout, drop_from_oldest hpsn]
  exact List.filter_eq_self.2 hheld
/-- Where the port does not transmit, the queue pair notes that they wait. -/
theorem resend_stalled (hport : portSends s (qpCard qp) = false) :
    resend qp psn s = updQp qp (fun q => { q with late := some psn, ackAt := now s }) s := by
  unfold resend
  dsimp only
  rw [resent_from_oldest hout hpsn hheld, if_neg (List.cons_ne_nil _ _), hport]
  rfl
/-- RDMA WRITEs leave one by one. -/
theorem resend_writes (hport : portSends s (qpCard qp) = true) (hwrites : ∀ x ∈ o :: b, x.2.2.2.2 = false) :
    resend qp psn s = updQp qp (fun q => { q with late := none, ackAt := now s, spent := q.spent + bytesIn (o :: b) })
      { s with tx := s.tx ++ (o :: b).map fun x => .rdma (qpCard qp) (qp % 4096) x.1 x.2.2.2.1 false } := by
  have hwrite : (o :: b).filter (fun x => !x.2.2.2.2) = o :: b := List.filter_eq_self.2 fun x hx => by rw [hwrites x hx]; rfl
  have hread : (o :: b).filter (fun x => x.2.2.2.2) = [] := List.filter_eq_nil_iff.2 fun x hx => by simp [hwrites x hx]
  unfold resend
  dsimp only
  rw [resent_from_oldest hout hpsn hheld, if_neg (List.cons_ne_nil _ _), hport, hwrite, hread, foldl_send, foldl_bytes, Nat.zero_add]
  rfl
/-- The RDMA READs are asked for again in one request. -/
theorem resend_reads (hport : portSends s (qpCard qp) = true) (hreads : ∀ x ∈ o :: b, x.2.2.2.2 = true) :
    resend qp psn s = updQp qp (fun q => { q with reqs := [((o :: b).getLast?.getD o).1] })
      (send (.rdma (qpCard qp) (qp % 4096) o.1 (bytesIn (o :: b)) true)
        (updQp qp (fun q => { q with late := none, ackAt := now s, spent := q.spent + bytesIn (o :: b) }) s)) := by
  have hwrite : (o :: b).filter (fun x => !x.2.2.2.2) = [] := List.filter_eq_nil_iff.2 fun x hx => by simp [hreads x hx]
  have hread : (o :: b).filter (fun x => x.2.2.2.2) = o :: b := List.filter_eq_self.2 hreads
  unfold resend
  dsimp only
  rw [resent_from_oldest hout hpsn hheld, if_neg (List.cons_ne_nil _ _), hport, hwrite, hread]
  simp only [foldl_bytes, Nat.zero_add]
  rfl
end

end Sys2Proof.Laws
end

