-- ==== Sys2Proof/Proofs/TransferEnds.lean ====
section
/-! SUPPORT. The only command of the module ends with Dword 0 and Dword 1 of its own (R246, R253): it leaves the tables, its completion is posted,
and the queue pairs stay. -/
namespace Sys2Proof.Laws
open Sys2Proof Sys2Proof.Machine

variable {s t u : State} {k : Nat} {x : Cmd}

/-! ### The queue pairs stay. -/
theorem qps_foldl {α : Type} {f : State → α → State} (l : List α) (s : State) (h : ∀ u a, (f u a).qps = u.qps) : (l.foldl f s).qps = s.qps :=
  List.foldlRecOn (motive := fun u => u.qps = s.qps) l f rfl fun u hu a _ => (h u a).trans hu
theorem qps_decBuf (c : CardId) (p i eng : Nat) (s : State) : (decBuf c p i eng s).qps = s.qps := by
  unfold decBuf
  dsimp only
  split
  · simp [updPool]
  · simp [updPool]
  · split
    · rfl
    · simp [updPool, event_spec]
theorem qps_freeMembers (p : Nat) (s : State) : (freeMembers p s).qps = s.qps := qps_foldl _ s fun u r => by
  unfold freeReqBuf
  split
  · exact qps_decBuf _ _ _ _ _
  · rfl
theorem qps_stopUnits (k : Nat) (pieces : List Nat) (s : State) : (stopUnits k pieces s).qps = s.qps := by
  unfold stopUnits
  dsimp only
  split <;> simp
theorem qps_dropReqs (sel : Req → Bool) (s : State) : (dropReqs sel s).qps = s.qps := by
  unfold dropReqs
  dsimp only
  split
  · exact qps_foldl _ s fun u r => by simp
  · exact qps_foldl _ s fun u r => by simp
theorem qps_dropCmd (k : Nat) (s : State) : (dropCmd k s).qps = s.qps := by
  unfold dropCmd
  extract_lets c freed read unlocked stopped dropped gone closed
  have hfreed : freed.qps = s.qps := qps_foldl _ s fun u b => qps_decBuf _ _ _ _ u
  have hread : read.qps = freed.qps := qps_foldl _ freed fun u p => by
    refine (qps_freeMembers p _).trans ?_
    split
    · exact qps_decBuf _ _ _ _ u
    · rfl
  have hdropped : dropped.qps = unlocked.qps := (qps_dropReqs _ _).trans (qps_stopUnits _ _ _)
  have hclosed : closed.qps = gone.qps := by
    dsimp only [closed]
    split <;> simp
  exact hclosed.trans (hdropped.trans ((by simp [unlocked] : unlocked.qps = read.qps).trans (hread.trans hfreed)))
theorem qps_cqAdvance (q : Cqe) (s : State) : (cqAdvance q s).qps = s.qps := by
  unfold cqAdvance
  dsimp only
  split
  · rfl
  split
  · split <;> rfl
  · rfl
theorem qps_post (q : Cqe) (lba nsid : Nat) (s : State) : (post q lba nsid s).qps = s.qps := by
  unfold post
  extract_lets c en counted frozen
  split
  · rfl
  split
  · exact qps_cqAdvance _ _
  · refine (qps_cqAdvance _ _).trans ?_
    dsimp only [frozen]
    split <;> simp [counted]

/-! ### The completion. -/
/-- The completion of a command with a status and its two dwords. -/
def completionOf (x : Cmd) (st : Nat × Nat) (dw0 dw1 : Nat) : Cqe :=
  { port := x.e.port, sqid := x.e.sqid, cid := x.e.cid, sct := st.1, sc := st.2, dw0 := dw0, dw1 := dw1 }
/-- As it is posted: with More set where it is a failure (R168). -/
def asPosted (q : Cqe) : Cqe := if q.sct = 0 ∧ q.sc = 0 then q else { q with more := true }

theorem complete_with_dwords (hs : Answered s k x) (st : Nat × Nat) (dw0 dw1 : Nat) :
    complete k st dw0 dw1 [] s = post (completionOf x st dw0 dw1) x.errLba x.e.nsid (dropCmd k s) := by
  have hcurrent : superseded (dropCmd k s) x.slice x.gen = false :=
    (superseded_congr (congrArg HostSide.slices (hostSide_dropCmd hs.cmds)) _ _).trans hs.current
  simp only [complete, hs.cmdAt, hs.missed, hs.unbound, hs.queue, hs.heard, hcurrent, false_and, if_false, Bool.false_eq_true, or_self]
  rfl
theorem hostSide_post {q : Cqe} (lba nsid : Nat) (hcid : q.cid < 65536) (hlink : (ctrlAt s q.port).link = true) (hrdy : (ctrlAt s q.port).rdy = true) :
    ∃ c0 c1, hostSide (post q lba nsid s) = (hostSide s).posted (asPosted q) c0 c1 := by
  by_cases hst : q.sct = 0 ∧ q.sc = 0
  · refine ⟨s.c0, s.c1, ?_⟩
    unfold post asPosted
    rw [if_neg (by simp [hlink, hrdy, hcid]), if_pos hst, if_pos hst]
    exact keepsHost_cqAdvance q _
  · rw [asPosted, if_neg hst]
    exact hostSide_post_failure lba nsid hcid hlink hrdy hst

/-- What is left when the only command has ended: no command, the queue pairs, and its completion behind the others. -/
structure Ended (q : Cqe) (s t : State) : Prop where
  cmds : t.cmds = []
  cqes : t.cqes = s.cqes ++ [asPosted q]
  qps : t.qps = s.qps

theorem Answered.finishCmd_ends (hs : Answered s k x) (st : Nat × Nat) (dw0 dw1 : Nat) :
    Ended (completionOf x st dw0 dw1) s (finishCmd k st dw0 dw1 [] s) := by
  have hdrop := hostSide_dropCmd hs.cmds
  have hctrl := ctrlAt_congr (congrArg HostSide.c0 hdrop) (congrArg HostSide.c1 hdrop) x.e.port
  obtain ⟨c0, c1, hpost⟩ := hostSide_post (q := completionOf x st dw0 dw1) x.errLba x.e.nsid hs.cid
    ((congrArg Ctrl.link hctrl).trans hs.link) ((congrArg Ctrl.rdy hctrl).trans hs.rdy)
  rw [hdrop] at hpost
  have hcmds := congrArg HostSide.cmds hpost
  have hnss : (post (completionOf x st dw0 dw1) x.errLba x.e.nsid (dropCmd k s)).nss = s.nss := congrArg HostSide.nss hpost
  have hslices : (post (completionOf x st dw0 dw1) x.errLba x.e.nsid (dropCmd k s)).slices = s.slices := congrArg HostSide.slices hpost
  rw [finishCmd, complete_with_dwords hs, wake_eq_of_no_waiters hcmds (hnss ▸ hs.nss) (hslices ▸ hs.slices)]
  exact ⟨hcmds, congrArg HostSide.cqes hpost, (qps_post _ _ _ _).trans (qps_dropCmd k s)⟩

end Sys2Proof.Laws
end

