-- ==== Sys2Proof/Proofs/Acknowledgements.lean ====
section
/-! SUPPORT. Acknowledged packets of the only command (R246): its bytes are counted, and its last packet ends a Bulk Read. -/
namespace Sys2Proof.Laws
open Sys2Proof Sys2Proof.Machine

variable {s : State} {qp psn k : Nat} {q : Qp} {c : Cmd} {o : Packet} {a b l : List Packet}

/-! ### Packets taken off a queue pair. -/
/-- A queue pair without the packets of a list, acknowledged at an instant. -/
def ackedQp (l : List Packet) (instant : Nat) (q : Qp) : Qp :=
  let p := { q with out := q.out.filter fun o => !l.contains o, retries := 0, ackAt := instant }
  { p with una := unaOf p }
/-- A command that has moved so many bytes more. -/
def withMoved (n : Nat) (c : Cmd) : Cmd := { c with moved := c.moved + n }
/-- Packets of the only command, c, acknowledged on its queue pair. -/
def acknowledged (qp k : Nat) (c : Cmd) (l : List Packet) (s : State) : State :=
  { updQp qp (ackedQp l (now s)) s with cmds := [(k, withMoved (bytesIn l) c)] }

/-- The front of the list up to a PSN is acknowledged. -/
theorem ackedBy_front (hout : q.out = a ++ o :: b) (hpsn : o.1 = psn) (hfirst : ∀ x ∈ a, x.1 ≠ psn)
    (hwrites : ∀ x ∈ a ++ [o], x.2.2.2.2 = false) : ackedBy q psn = a ++ [o] := by
  have hindex : (a ++ o :: b).findIdx (fun x => x.1 == psn) = a.length := by
    rw [List.findIdx_append, if_neg fun hlt => by
      obtain ⟨x, hx, hxp⟩ := List.findIdx_lt_length.1 hlt
      exact hfirst x hx (beq_iff_eq.1 hxp)]
    simp [List.findIdx_cons, hpsn]
  have htake : (a ++ o :: b).take (a.length + 1) = a ++ [o] := by simp [List.take_append]
  unfold ackedBy
  rw [hout, if_pos (by simp [hpsn]), hindex, htake]
  exact List.filter_eq_self.2 fun x hx => by rw [hwrites x hx]; rfl
theorem out_ackedQp (hout : q.out = a ++ o :: b) (hgone : ∀ x ∈ a ++ [o], x ∉ b) (instant : Nat) : (ackedQp (a ++ [o]) instant q).out = b := by
  have hall : (a ++ [o]).filter (fun x => !(a ++ [o]).contains x) = [] := List.filter_eq_nil_iff.2 fun x hx => by
    rw [List.contains_iff_mem.2 hx]
    decide
  have hrest : b.filter (fun x => !(a ++ [o]).contains x) = b := List.filter_eq_self.2 fun x hx => by
    rw [Bool.eq_false_iff.2 fun hmem => hgone x (List.contains_iff_mem.1 hmem) hx]
    rfl
  have hsplit : a ++ o :: b = (a ++ [o]) ++ b := by simp
  exact (congrArg (List.filter _) (hout.trans hsplit)).trans (by rw [List.filter_append, hall, hrest, List.nil_append])

theorem tfind_only (k : Nat) (c : Cmd) : tfind [(k, c)] k = some c := if_pos rfl
theorem updCmd_only (hcmds : s.cmds = [(k, c)]) (g : Cmd → Cmd) : updCmd k g s = { s with cmds := [(k, g c)] } := by
  simp [updCmd, hcmds, tmod]
/-- The command of a packet, where it is held, has moved the packet's bytes. -/
def countMoved (s : State) (o : Packet) : State := if (tfind s.cmds o.2.1).isSome then updCmd o.2.1 (withMoved o.2.2.2.1) s else s
theorem foldl_countMoved (hcmds : s.cmds = [(k, c)]) (hk : ∀ x ∈ l, x.2.1 = k) : l.foldl countMoved s = { s with cmds := [(k, withMoved (bytesIn l) c)] } := by
  induction l generalizing s c with
  | nil => rw [List.foldl_nil, show withMoved (bytesIn []) c = c from rfl, ← hcmds]
  | cons x l ih =>
    have hx : x.2.1 = k := hk x List.mem_cons_self
    have hmoved : withMoved (bytesIn l) (withMoved x.2.2.2.1 c) = withMoved (bytesIn (x :: l)) c := by
      simp [withMoved, bytesIn, Nat.add_assoc]
    have hone : countMoved s x = { s with cmds := [(k, withMoved x.2.2.2.1 c)] } := by
      rw [countMoved, hx, hcmds, tfind_only, Option.isSome_some, if_pos rfl, updCmd_only hcmds]
    rw [List.foldl_cons, hone, ih rfl fun y hy => hk y (List.mem_cons_of_mem x hy)]
    exact congrArg (fun y => { s with cmds := [(k, y)] }) hmoved

theorem mem_of_tfind {α : Type} {m : Tbl α} {n : Nat} {v : α} (h : tfind m n = some v) : (n, v) ∈ m := by
  induction m with
  | nil => cases h
  | cons p m ih =>
    obtain ⟨i, x⟩ := p
    unfold tfind at h
    split at h
    next hi => rw [hi, Option.some.inj h]; exact List.mem_cons_self
    next => exact List.mem_cons_of_mem _ (ih h)
theorem eraseDups_eq_singleton {l : List Nat} (hne : l ≠ []) (hk : ∀ x ∈ l, x = k) : l.eraseDups = [k] := by
  obtain ⟨y, m, rfl⟩ := List.exists_cons_of_ne_nil hne
  have hy : y = k := hk y List.mem_cons_self
  have hrest : m.filter (fun x => !x == y) = [] := List.filter_eq_nil_iff.2 fun x hx => by simp [hy, hk x (List.mem_cons_of_mem y hx)]
  rw [List.eraseDups_cons, hrest, hy]
  rfl

/-- Acknowledgements of packets of the only command leave it to end, where no read piece holds a buffer. -/
theorem ackList_only (hcmds : s.cmds = [(k, c)]) (hbufs : ∀ p ∈ s.pieces, p.2.buf = none) (hne : l ≠ []) (hk : ∀ x ∈ l, x.2.1 = k) :
    ackList qp l s = bulkReadEnd k (acknowledged qp k c l s) := by
  unfold ackList
  rw [if_neg hne]
  extract_lets acked moved pcs freed
  have hmoved : moved = acknowledged qp k c l s := foldl_countMoved (s := acked) hcmds hk
  have hfreed : freed = moved := foldl_fixed_of_mem fun p _ => by
    split
    · rfl
    · cases hp : tfind moved.pieces p with
      | none => rfl
      | some pc =>
        have hbuf : pc.buf = none := hbufs (p, pc) (by rw [hmoved] at hp; exact mem_of_tfind hp)
        simp only [hbuf]
  rw [eraseDups_eq_singleton (k := k) (by simpa using hne) (List.forall_mem_map.2 hk), hfreed, hmoved, List.foldl_cons, List.foldl_nil]
  exact if_pos (by simp [acknowledged, tfind])

theorem qpBecomes_acknowledged (h : s.canonical = true) (k : Nat) (c : Cmd) (l : List Packet) :
    QpBecomes qp (ackedQp l (now s) (qpAt s qp)) s (acknowledged qp k c l s) := ((QpBecomes.refl qp h).updQp _).congr rfl
theorem cmdAt_acknowledged (qp k : Nat) (c : Cmd) (l : List Packet) (s : State) :
    cmdAt (acknowledged qp k c l s) k = withMoved (bytesIn l) c := if_pos rfl
theorem Answered.acknowledged (hs : Answered s k c) (qp : Nat) (l : List Packet) : Answered (acknowledged qp k c l s) k (withMoved (bytesIn l) c) :=
  ⟨rfl, hs.missed, hs.unbound, hs.queue, hs.cid, hs.heard, hs.current, hs.link, hs.rdy, hs.nss, hs.slices⟩

/-- A Bulk Read with packets to send or outstanding goes on. -/
theorem bulkReadEnd_open (hc : cmdAt s k = c) (hopen : rdmaOpen (qpAt s (qpKeyOf c.desc)) k = true) : bulkReadEnd k s = s := by
  unfold bulkReadEnd
  exact if_neg (by simp [hc, hopen])
/-- One whose pieces are delivered and whose packets are acknowledged ends with the bytes moved. -/
theorem bulkReadEnd_closed (hc : cmdAt s k = c) (hkind : c.kind = .bulkRead) (hst : c.st = .reading) (hpieces : ∀ p ∈ c.pieces, (pieceAt s p).delivered = true)
    (hclosed : rdmaOpen (qpAt s (qpKeyOf c.desc)) k = false) (hstatus : c.status = none) : bulkReadEnd k s = finishCmd k (0, 0) c.moved 0 [] s := by
  unfold bulkReadEnd
  dsimp only
  rw [hc, if_pos ⟨hkind, hst, List.all_eq_true.2 hpieces, by rw [hclosed]; rfl⟩, hstatus]

section
variable (hcanon : s.canonical = true) (hout : (qpAt s qp).out = a ++ o :: b) (hgone : ∀ x ∈ a ++ [o], x ∉ b)
include hcanon hout hgone

theorem out_acknowledged (k : Nat) (c : Cmd) : (qpAt (acknowledged qp k c (a ++ [o]) s) qp).out = b :=
  (congrArg Qp.out (qpBecomes_acknowledged hcanon k c (a ++ [o])).here).trans (out_ackedQp hout hgone _)
theorem rdmaOpen_acknowledged (k : Nat) (c : Cmd) : rdmaOpen (qpAt (acknowledged qp k c (a ++ [o]) s) qp) k =
    (b.any (fun x => x.2.1 == k) || (qpAt s qp).todo.any fun x => x.1 == k) := by
  have htodo := congrArg Qp.todo (qpBecomes_acknowledged (qp := qp) hcanon k c (a ++ [o])).here
  rw [rdmaOpen, out_acknowledged hcanon hout hgone, htodo]
  rfl
theorem bulkReadEnd_acknowledged_going (hkey : qpKeyOf c.desc = qp) (hmore : ∃ x ∈ b, x.2.1 = k) :
    bulkReadEnd k (acknowledged qp k c (a ++ [o]) s) = acknowledged qp k c (a ++ [o]) s := by
  obtain ⟨x, hx, hxk⟩ := hmore
  have hany : b.any (fun x => x.2.1 == k) = true := List.any_eq_true.2 ⟨x, hx, beq_iff_eq.2 hxk⟩
  refine bulkReadEnd_open (cmdAt_acknowledged qp k c (a ++ [o]) s) ?_
  rw [show qpKeyOf (withMoved (bytesIn (a ++ [o])) c).desc = qp from hkey, rdmaOpen_acknowledged hcanon hout hgone, hany]
  rfl
theorem bulkReadEnd_acknowledged_last (hkey : qpKeyOf c.desc = qp) (hb : b = []) (hkind : c.kind = .bulkRead) (hst : c.st = .reading)
    (hpieces : ∀ p ∈ c.pieces, (pieceAt s p).delivered = true) (htodo : ∀ x ∈ (qpAt s qp).todo, x.1 ≠ k) (hstatus : c.status = none) :
    bulkReadEnd k (acknowledged qp k c (a ++ [o]) s) = finishCmd k (0, 0) (c.moved + bytesIn (a ++ [o])) 0 [] (acknowledged qp k c (a ++ [o]) s) := by
  have hnone : (qpAt s qp).todo.any (fun x => x.1 == k) = false := List.any_eq_false.2 fun x hx => mt beq_iff_eq.1 (htodo x hx)
  refine bulkReadEnd_closed (c := withMoved (bytesIn (a ++ [o])) c) (cmdAt_acknowledged qp k c (a ++ [o]) s) hkind hst hpieces ?_ hstatus
  rw [show qpKeyOf (withMoved (bytesIn (a ++ [o])) c).desc = qp from hkey, rdmaOpen_acknowledged hcanon hout hgone, hb, hnone]
  rfl
end

/-! ### RDMA_ACK. -/
theorem rdmaAck_only {cnt : Nat} (hout : (qpAt s qp).out = a ++ o :: b) (hpsn : o.1 = psn) (hfirst : ∀ x ∈ a, x.1 ≠ psn)
    (hwrites : ∀ x ∈ a ++ [o], x.2.2.2.2 = false) (hk : ∀ x ∈ a ++ [o], x.2.1 = k) (hcmds : s.cmds = [(k, c)]) (hbufs : ∀ p ∈ s.pieces, p.2.buf = none) :
    exec (.rdmaAck qp psn cnt) s = .next (bulkReadEnd k (acknowledged qp k c (a ++ [o]) (atCount cnt s))) := by
  have hacked : ackedBy (qpAt s qp) psn = a ++ [o] := ackedBy_front hout hpsn hfirst hwrites
  have hended := ackList_only (s := atCount cnt s) (qp := qp) hcmds hbufs (List.append_ne_nil_of_right_ne_nil a (List.cons_ne_nil o [])) hk
  exact congrArg Host.Outcome.next ((congrArg (fun l => ackList qp l (atCount cnt s)) hacked).trans hended)

theorem acknowledged_transfer_goes_on {cnt : Nat} (hcanon : s.canonical = true) (hout : (qpAt s qp).out = a ++ o :: b) (hgone : ∀ x ∈ a ++ [o], x ∉ b)
    (hkey : qpKeyOf c.desc = qp) (hmore : ∃ x ∈ b, x.2.1 = k)
    (hexec : exec (.rdmaAck qp psn cnt) s = .next (bulkReadEnd k (acknowledged qp k c (a ++ [o]) (atCount cnt s)))) :
    ∃ t, exec (.rdmaAck qp psn cnt) s = .next t ∧ (qpAt t qp).out = b ∧ (qpAt t qp).retries = 0 ∧ (qpAt t qp).psn = (qpAt s qp).psn ∧
      t.cmds = [(k, { c with moved := c.moved + bytesIn (a ++ [o]) })] ∧ (∀ m, m ≠ qp → qpAt t m = qpAt s m) ∧
      { t with qps := s.qps, cmds := s.cmds, time := s.time } = s := by
  have hqp := qpBecomes_acknowledged (s := atCount cnt s) (qp := qp) hcanon k c (a ++ [o])
  rw [bulkReadEnd_acknowledged_going (s := atCount cnt s) hcanon hout hgone hkey hmore] at hexec
  exact ⟨_, hexec, out_acknowledged (s := atCount cnt s) hcanon hout hgone k c, congrArg Qp.retries hqp.here, (congrArg Qp.psn hqp.here :), rfl, hqp.others,
    by simp only [acknowledged, updQp_others, atCount_others]⟩
theorem acknowledged_transfer_ends {cnt : Nat} (hcanon : s.canonical = true) (hout : (qpAt s qp).out = a ++ [o]) (hkey : qpKeyOf c.desc = qp)
    (hs : Answered s k c) (hkind : c.kind = .bulkRead) (hst : c.st = .reading) (hpieces : ∀ p ∈ c.pieces, (pieceAt s p).delivered = true)
    (htodo : ∀ x ∈ (qpAt s qp).todo, x.1 ≠ k) (hstatus : c.status = none)
    (hexec : exec (.rdmaAck qp psn cnt) s = .next (bulkReadEnd k (acknowledged qp k c (a ++ [o]) (atCount cnt s)))) :
    ∃ t, exec (.rdmaAck qp psn cnt) s = .next t ∧ (qpAt t qp).out = [] ∧ t.cmds = [] ∧ t.cqes = s.cqes ++ [cqeOf c.e (c.moved + bytesIn (a ++ [o])) []] := by
  have hgone : ∀ x ∈ a ++ [o], x ∉ ([] : List Packet) := fun _ _ => List.not_mem_nil
  have hcounted : Answered (atCount cnt s) k c := hs.of_keepsHost rfl
  have hends := (hcounted.acknowledged qp (a ++ [o])).finishCmd_ends (0, 0) (c.moved + bytesIn (a ++ [o])) 0
  rw [bulkReadEnd_acknowledged_last (s := atCount cnt s) hcanon hout hgone hkey rfl hkind hst hpieces htodo hstatus] at hexec
  refine ⟨_, hexec, ?_, hends.cmds, hends.cqes⟩
  exact (congrArg (fun l : Tbl Qp => (tget ({} : Qp) l qp).out) hends.qps).trans (out_acknowledged (s := atCount cnt s) hcanon hout hgone k c)

end Sys2Proof.Laws
end

