-- ==== Sys2Proof/Proofs/ReadResponses.lean ====
section
/-! SUPPORT. READ responses of the only command (R248, R250): the expected one brings its data, one beyond a gap is asked for again. -/
namespace Sys2Proof.Laws
open Sys2Proof Sys2Proof.Machine

variable {s : State} {qp psn k : Nat} {q : Qp} {c : Cmd} {o : Packet} {b : List Packet}

/-! ### The response to a packet. -/
/-- A queue pair without a packet that has come as the response expected, at an instant. -/
def answeredQp (o : Packet) (instant : Nat) (q : Qp) : Qp :=
  let p := { q with out := q.out.filter (· ≠ o), retries := 0, ackAt := instant }
  { p with una := unaOf p, expect := expectOf p }
/-- A command with the data of one packet more. -/
def withData (o : Packet) (data : List Byte) (c : Cmd) : Cmd := { c with data := c.data ++ [(o.2.2.1, data, [])], moved := c.moved + data.length }
/-- The receive buffer of a port takes n bytes more, and whether XOFF is due for them (R250). -/
def xoffDue (n : Nat) (p : BulkPort) : Bool := decide (3145728 < p.rxUsed + n) && !p.xoff
def withReceived (n : Nat) (p : BulkPort) : BulkPort := { p with rxUsed := p.rxUsed + n, xoff := p.xoff || xoffDue n p }
/-- The response to a packet has come with its data. -/
def responded (qp k : Nat) (o : Packet) (data : List Byte) (s : State) : State :=
  updBulk (qpCard qp) (withReceived data.length) (updCmd k (withData o data) (updQp qp (answeredQp o (now s)) s))
def sentXoff (p : CardId) (due : Bool) (s : State) : State := if due then send (.pfc p false) s else s

theorem sentXoff_tx (p : CardId) (due : Bool) (s : State) : ∃ m, sentXoff p due s = { s with tx := m } := by
  cases due
  · exact ⟨s.tx, rfl⟩
  · exact ⟨_, rfl⟩
theorem cmds_sentXoff (p : CardId) (due : Bool) (s : State) : (sentXoff p due s).cmds = s.cmds := by
  obtain ⟨m, hm⟩ := sentXoff_tx p due s
  rw [hm]
theorem qps_sentXoff (p : CardId) (due : Bool) (s : State) : (sentXoff p due s).qps = s.qps := by
  obtain ⟨m, hm⟩ := sentXoff_tx p due s
  rw [hm]
theorem cmds_responded (hcmds : s.cmds = [(k, c)]) (data : List Byte) : (responded qp k o data s).cmds = [(k, withData o data c)] := by
  simp only [responded, updBulk_others]
  exact congrArg State.cmds (updCmd_only (s := updQp qp (answeredQp o (now s)) s) hcmds (withData o data))
theorem qpBecomes_responded (h : s.canonical = true) (k : Nat) (o : Packet) (data : List Byte) :
    QpBecomes qp (answeredQp o (now s) (qpAt s qp)) s (responded qp k o data s) := ((QpBecomes.refl qp h).updQp _).congr (by simp [responded])
theorem out_answeredQp (hout : q.out = o :: b) (ho : o ∉ b) (instant : Nat) : (answeredQp o instant q).out = b := by
  have hrest : b.filter (· ≠ o) = b := List.filter_eq_self.2 fun x hx => decide_eq_true fun h : x = o => ho (h ▸ hx)
  exact (congrArg (List.filter (· ≠ o)) hout).trans (by rw [List.filter_cons, if_neg (by simp), hrest])
theorem expectOf_oldest (hout : q.out = o :: b) (hread : o.2.2.2.2 = true) : expectOf q = o.1 := by
  simp [expectOf, hout, hread]
/-- With all blocks of the only command asked for, a queue pair asks for none. -/
theorem issueAppends_none (hcmds : s.cmds = [(k, c)]) (hkey : qpKeyOf c.desc = qp) (hk : ∀ x ∈ (qpAt s qp).out, x.2.1 = k)
    (hasked : cdiv (min (c.nlb * 4096) (regionRoom c)) 4096 ≤ (qpAt s qp).out.length + c.data.length) : issueAppends qp s = s :=
  foldl_fixed_of_mem fun p hp => by
    have hpk : p = (k, c) := List.mem_singleton.1 (hcmds ▸ List.mem_of_mem_filter hp)
    have hc : cmdAt s k = c := by simp [cmdAt, hcmds, tget]
    have hmine : (qpAt s qp).out.filter (fun o => o.2.1 == k) = (qpAt s qp).out := List.filter_eq_self.2 fun y hy => beq_iff_eq.2 (hk y hy)
    rw [hpk]
    unfold issueReads
    dsimp only
    rw [hc, hkey, hmine, Nat.sub_eq_zero_of_le hasked, Nat.min_zero, if_pos (.inl rfl)]

section
variable {bytes : List Byte} (hout : (qpAt s qp).out = o :: b) (hreads : ∀ x ∈ o :: b, x.2.2.2.2 = true)
include hout hreads

/-- The only command's queue pair has packets out for all that is still to come: the oldest one's response asks for nothing, and does not end the
transfer while more is to come. -/
theorem readResponse_expected (hcanon : s.canonical = true) (ho : o ∉ b) (hk : ∀ x ∈ o :: b, x.2.1 = k) (hcmds : s.cmds = [(k, c)]) (hkey : qpKeyOf c.desc = qp)
    (hasked : cdiv (min (c.nlb * 4096) (regionRoom c)) 4096 ≤ (o :: b).length + c.data.length)
    (hmore : c.data.length + 1 < cdiv (min (c.nlb * 4096) (regionRoom c)) 4096) :
    ∃ due, readResponse qp o.1 false bytes s = sentXoff (qpCard qp) due (responded qp k o (bytes.take o.2.2.2.1) s) := by
  have hread := hreads o List.mem_cons_self
  have hfind : (qpAt s qp).out.find? (fun x => x.2.2.2.2 && x.1 == o.1) = some o := by simp [hout, hread]
  unfold readResponse
  rw [show cnpAnswer qp false s = s from rfl]
  extract_lets v q e
  split
  next hnone => exact absurd (hnone.symm.trans hfind) (by simp)
  next x hx =>
    obtain rfl : x = o := Option.some.inj (hx.symm.trans hfind)
    obtain rfl : x.2.1 = k := hk x List.mem_cons_self
    rw [if_neg (not_not.2 (expectOf_oldest hout hread).symm)]
    extract_lets key answered data arrived used off buffered received d gone
    have hreceived : received = sentXoff (qpCard qp) off (responded qp key x data s) :=
      congrArg (sentXoff (qpCard qp) off) (updBulk_congr (s := arrived) rfl)
    have hcmds' : received.cmds = [(key, withData x data c)] := by rw [hreceived, cmds_sentXoff, cmds_responded hcmds]
    have hd : d = withData x data c := by simp [d, cmdAt, hcmds', tget]
    have hlength : (withData x data c).data.length = c.data.length + 1 := by simp [withData]
    have hleft : (qpAt received qp).out = b :=
      (congrArg Qp.out ((qpBecomes_responded hcanon key x data).congr (hreceived ▸ qps_sentXoff _ _ _)).here).trans (out_answeredQp hout ho _)
    have hgone : gone = received := issueAppends_none hcmds' hkey (by rw [hleft]; exact fun y hy => hk y (List.mem_cons_of_mem x hy)) (by
      rw [hleft, hlength]
      exact hasked.trans (by rw [List.length_cons]; omega))
    have hopen : ¬ cdiv (min (d.nlb * 4096) (regionRoom d)) 4096 ≤ d.data.length := by
      rw [hd, hlength]
      exact not_le.2 hmore
    rw [if_neg (by simp [answered, v, hcmds, key, tfind]), if_neg fun h => hopen h.2, hgone]
    exact ⟨off, hreceived⟩
/-- A response beyond a gap asks for the packets again, from the missing one on. -/
theorem readResponse_beyond (hne : psn ≠ o.1) (hlater : ∃ x ∈ b, x.1 = psn) : readResponse qp psn false bytes s = resend qp o.1 s := by
  obtain ⟨y, hy, hyp⟩ := hlater
  have hfound : ((qpAt s qp).out.find? fun x => x.2.2.2.2 && x.1 == psn) ≠ none := by
    rw [ne_eq, List.find?_eq_none, hout]
    exact fun hnone => hnone y (List.mem_cons_of_mem o hy) (by simp [hreads y (List.mem_cons_of_mem o hy), hyp])
  have hexpect : expectOf (qpAt s qp) = o.1 := expectOf_oldest hout (hreads o List.mem_cons_self)
  unfold readResponse
  rw [show cnpAnswer qp false s = s from rfl]
  extract_lets v q e
  split
  next hnone => exact absurd hnone hfound
  next => rw [if_pos (by rw [show e = o.1 from hexpect]; exact hne), show e = o.1 from hexpect]
end

/-! ### RDMA_READ_RESPONSE. -/
theorem bulkAt_responded (qp k : Nat) (o : Packet) (data : List Byte) (s : State) :
    bulkAt (responded qp k o data s) (qpCard qp) = withReceived data.length (bulkAt s (qpCard qp)) := bulkAt_updBulk_self _ _ _
theorem bulkAt_sentXoff (p : CardId) (due : Bool) (s : State) (x : CardId) : bulkAt (sentXoff p due s) x = bulkAt s x := by cases due <;> rfl
theorem responded_rest (qp k : Nat) (o : Packet) (data : List Byte) (s : State) (n : Nat) :
    { responded qp k o data (atCount n s) with qps := s.qps, cmds := s.cmds, time := s.time, tx := s.tx, b0 := s.b0, b1 := s.b1 } = s := by
  simp only [responded, updBulk_others, updCmd_others, updQp_others, atCount_others]
theorem xoff_withReceived (n : Nat) (b : BulkPort) : (withReceived n b).xoff = (b.xoff || decide (3145728 < (withReceived n b).rxUsed)) := by
  unfold withReceived xoffDue
  cases b.xoff <;> simp

section
variable {cnt : Nat} {bytes : List Byte} (hcanon : s.canonical = true) (hout : (qpAt s qp).out = o :: b) (hreads : ∀ x ∈ o :: b, x.2.2.2.2 = true)
  (hk : ∀ x ∈ o :: b, x.2.1 = k)
include hcanon hout hreads hk

theorem response_brings_data (ho : o ∉ b) (hpsn : psn = o.1) (hcmds : s.cmds = [(k, c)]) (hkey : qpKeyOf c.desc = qp)
    (hasked : cdiv (min (c.nlb * 4096) (regionRoom c)) 4096 ≤ (o :: b).length + c.data.length)
    (hmore : c.data.length + 1 < cdiv (min (c.nlb * 4096) (regionRoom c)) 4096) :
    ∃ t, exec (.rdmaReadResponse qp psn false cnt bytes) s = .next t ∧ (qpAt t qp).out = b ∧ (qpAt t qp).retries = 0 ∧
      t.cmds = [(k, withData o (bytes.take o.2.2.2.1) c)] ∧
      (bulkAt t (qpCard qp)).rxUsed = (bulkAt s (qpCard qp)).rxUsed + (bytes.take o.2.2.2.1).length ∧
      (bulkAt t (qpCard qp)).xoff = ((bulkAt s (qpCard qp)).xoff || decide (3145728 < (bulkAt t (qpCard qp)).rxUsed)) ∧
      (∀ m, m ≠ qp → qpAt t m = qpAt s m) ∧ { t with qps := s.qps, cmds := s.cmds, time := s.time, tx := s.tx, b0 := s.b0, b1 := s.b1 } = s := by
  obtain ⟨due, hresponse⟩ := readResponse_expected (s := atCount cnt s) (bytes := bytes) hout hreads hcanon ho hk hcmds hkey hasked hmore
  have hqp := (qpBecomes_responded (s := atCount cnt s) (qp := qp) hcanon k o (bytes.take o.2.2.2.1)).congr (qps_sentXoff (qpCard qp) due _)
  have hport := (bulkAt_sentXoff (qpCard qp) due _ _).trans (bulkAt_responded qp k o (bytes.take o.2.2.2.1) (atCount cnt s))
  subst hpsn
  refine ⟨_, congrArg Host.Outcome.next hresponse, (congrArg Qp.out hqp.here).trans (out_answeredQp hout ho _), (congrArg Qp.retries hqp.here :),
    (cmds_sentXoff _ _ _).trans (cmds_responded (s := atCount cnt s) hcmds _), (congrArg BulkPort.rxUsed hport :), ?_, hqp.others, ?_⟩
  · rw [hport]
    exact xoff_withReceived _ _
  · obtain ⟨m, hm⟩ := sentXoff_tx (qpCard qp) due (responded qp k o (bytes.take o.2.2.2.1) (atCount cnt s))
    rw [hm]
    exact responded_rest qp k o _ s cnt
theorem response_beyond_gap (hne : psn ≠ o.1) (hlater : ∃ x ∈ b, x.1 = psn) (hport : portSends s (qpCard qp) = true)
    (hheld : (tfind s.cmds k).isSome = true) :
    ∃ t, exec (.rdmaReadResponse qp psn false cnt bytes) s = .next t ∧ (qpAt t qp).out = (qpAt s qp).out ∧ (∀ m, m ≠ qp → qpAt t m = qpAt s m) ∧
      t.tx = s.tx ++ [.rdma (qpCard qp) (qp % 4096) o.1 (bytesIn (o :: b)) true] ∧ { t with tx := s.tx, time := s.time, qps := s.qps } = s := by
  have hall : PacketsHeld (atCount cnt s) (o :: b) := fun x hx => by rw [hk x hx]; exact hheld
  have hagain := resend_reads (s := atCount cnt s) hout rfl hall hport hreads
  have hresponse := readResponse_beyond (s := atCount cnt s) (bytes := bytes) hout hreads hne hlater
  have hqp := ((QpBecomes.refl (s := atCount cnt s) qp hcanon).updQp fun q =>
    { q with late := none, ackAt := now (atCount cnt s), spent := q.spent + bytesIn (o :: b) }).updQp fun q => { q with reqs := [((o :: b).getLast?.getD o).1] }
  exact ⟨_, congrArg Host.Outcome.next (hresponse.trans hagain), (congrArg Qp.out hqp.here :), hqp.others, rfl,
    by simp only [updQp_others, send_others, atCount_others]⟩
end

end Sys2Proof.Laws
end

