-- ==== Sys2Proof/Proofs/Retries.lean ====
section
/-! SUPPORT. Retries without progress, and queue pairs in error (R252, R253). -/
namespace Sys2Proof.Laws
open Sys2Proof Sys2Proof.Machine

variable {s u : State} {qp psn k : Nat} {c : Cmd} {o : Packet} {b : List Packet}

/-! ### NAKs, time-outs and errors. -/
/-- From s to u at most a NAK is counted. -/
structure NakCounted (s u : State) : Prop where
  ports : ∃ p0 p1, u = { s with b0 := p0, b1 := p1 }
  sends : ∀ p, portSends u p = portSends s p
  retryCnt : ∀ p, (bulkAt u p).retryCnt = (bulkAt s p).retryCnt

theorem NakCounted.refl (s : State) : NakCounted s s := ⟨⟨s.b0, s.b1, rfl⟩, fun _ => rfl, fun _ => rfl⟩
theorem nakCounted_countNak (qp : Nat) (s : State) : NakCounted s (countNak qp s) := by
  unfold countNak
  generalize qpCard qp = card
  cases card
  · exact ⟨⟨_, _, rfl⟩, fun p => by cases p <;> rfl, fun p => by cases p <;> rfl⟩
  · exact ⟨⟨_, _, rfl⟩, fun p => by cases p <;> rfl, fun p => by cases p <;> rfl⟩
theorem nakIn_countNak (qp : Nat) (s : State) : (bulkAt (countNak qp s) (qpCard qp)).nakIn = (bulkAt s (qpCard qp)).nakIn + 1 := by
  simp [countNak]

/-- A sequence NAK for the oldest packet, and its time-out, are retries from it. -/
theorem exec_retry {i : Instr} (hout : (qpAt s qp).out = o :: b) (hpsn : o.1 = psn)
    (hi : i = .nakSequenceError qp psn ∨ i = .ackTimeout qp ∧ ackOverdue s qp = true) :
    ∃ u, exec i s = .next (retry qp psn u) ∧ NakCounted s u ∧
      (i = .nakSequenceError qp psn → (bulkAt u (qpCard qp)).nakIn = (bulkAt s (qpCard qp)).nakIn + 1) := by
  obtain rfl | ⟨rfl, hdue⟩ := hi
  · have hqp : (qpAt (countNak qp s) qp).out = o :: b := by
      obtain ⟨p0, p1, hu⟩ := (nakCounted_countNak qp s).ports
      rw [hu]
      exact hout
    have hexec : execNakSequenceError qp psn s = .next (retry qp psn (countNak qp s)) := by
      unfold execNakSequenceError
      dsimp only
      rw [hqp, if_neg (by simp [hpsn])]
      simp [List.findIdx_cons, hpsn, ackList]
    exact ⟨_, hexec, nakCounted_countNak qp s, fun _ => nakIn_countNak qp s⟩
  · have hexec : execAckTimeout qp s = .next (retry qp psn s) := by
      unfold execAckTimeout
      rw [hout]
      dsimp only
      rw [if_pos hdue, hpsn]
    exact ⟨s, hexec, .refl s, nofun⟩
/-- A queue pair with one retry more. -/
def retried (q : Qp) : Qp := { q with retries := q.retries + 1 }
theorem retry_again (h : (qpAt s qp).retries < (bulkAt s (qpCard qp)).retryCnt) :
    retry qp psn s = resend qp psn (updQp qp retried s) := if_neg (not_le.2 h)
theorem retry_fails (h : (bulkAt s (qpCard qp)).retryCnt ≤ (qpAt s qp).retries) : retry qp psn s = qpError qp 5 s := if_pos h

def erredQp (reason : Nat) (q : Qp) : Qp := { qpCleared q with error := reason }
/-- A queue pair has entered error with a reason, of which an event tells; its commands have not ended yet. -/
def inError (qp reason : Nat) (s : State) : State :=
  event 0x303 1 (srcQ (qpCard qp)) 0 reason qp 0 (updQp qp (erredQp reason) s)
theorem qpBecomes_inError (h : s.canonical = true) (qp reason : Nat) :
    QpBecomes qp (erredQp reason (qpAt s qp)) s (inError qp reason s) := ((QpBecomes.refl qp h).updQp _).congr rfl
theorem qpError_in_service {reason : Nat} (hused : (qpAt s qp).used = true) (herror : (qpAt s qp).error = 0) :
    qpError qp reason s = (qpCmds s qp).foldl (fun s k => bulkEnd reason k s) (inError qp reason s) := by
  unfold qpError
  exact if_neg (by simp [hused, herror])
/-- The only command uses its queue pair as a Bulk Read. -/
theorem qpCmds_only (hcmds : s.cmds = [(k, c)]) (hkind : c.kind = .bulkRead) (hdesc : c.desc.enable = true) (hkey : qpKeyOf c.desc = qp) :
    qpCmds s qp = [k] := by
  simp [qpCmds, hcmds, hkind, hdesc, hkey]
theorem bulkEnd_read {reason : Nat} (hcmds : s.cmds = [(k, c)]) (hkind : c.kind = .bulkRead) :
    bulkEnd reason k s = finishCmd k (7, 0x86) c.moved reason [] s := by
  have hc : cmdAt s k = c := by simp [cmdAt, hcmds, tget]
  unfold bulkEnd
  dsimp only
  rw [hc, hkind]
  rfl

/-! ### What a retry leaves. -/
theorem NakCounted.qpBecomes_retried (hu : NakCounted s u) (hcanon : s.canonical = true) (qp : Nat) :
    QpBecomes qp (retried (qpAt s qp)) s (updQp qp retried u) := by
  obtain ⟨p0, p1, hports⟩ := hu.ports
  exact ((QpBecomes.refl qp hcanon).congr (congrArg State.qps hports :)).updQp retried
theorem NakCounted.portSends_retried (hu : NakCounted s u) (qp : Nat) (p : CardId) : portSends (updQp qp retried u) p = portSends s p := hu.sends p
theorem NakCounted.held_retried {l : List Packet} (hu : NakCounted s u) (hheld : PacketsHeld s l) (qp : Nat) : PacketsHeld (updQp qp retried u) l := by
  obtain ⟨p0, p1, hports⟩ := hu.ports
  rw [hports]
  exact hheld
theorem NakCounted.retry_again (hu : NakCounted s u) (hretries : (qpAt s qp).retries < (bulkAt s (qpCard qp)).retryCnt) :
    retry qp psn u = resend qp psn (updQp qp retried u) := by
  refine Laws.retry_again ?_
  rw [hu.retryCnt]
  obtain ⟨p0, p1, hports⟩ := hu.ports
  rw [hports]
  exact hretries

section
variable {i : Instr} (hcanon : s.canonical = true) (hu : NakCounted s u) (hexec : exec i s = .next (retry qp psn u)) (hout : (qpAt s qp).out = o :: b)
  (hpsn : o.1 = psn) (hretries : (qpAt s qp).retries < (bulkAt s (qpCard qp)).retryCnt)
include hcanon hu hexec hout hpsn hretries

theorem retry_waits (hport : portSends s (qpCard qp) = false) (hheld : PacketsHeld s (o :: b)) :
    ∃ t, exec i s = .next t ∧ qpAt t qp = { qpAt s qp with retries := (qpAt s qp).retries + 1, late := some psn, ackAt := now s } ∧
      (∀ m, m ≠ qp → qpAt t m = qpAt s m) ∧ { t with qps := s.qps, b0 := s.b0, b1 := s.b1 } = s := by
  have hagain := hu.qpBecomes_retried hcanon qp
  have hstall := resend_stalled ((congrArg Qp.out hagain.here).trans hout) hpsn (hu.held_retried hheld qp) ((hu.portSends_retried qp _).trans hport)
  have hqp := hagain.updQp fun q => { q with late := some psn, ackAt := now u }
  obtain ⟨p0, p1, rfl⟩ := hu.ports
  exact ⟨_, hexec.trans (congrArg Host.Outcome.next ((hu.retry_again hretries).trans hstall)), hqp.here, hqp.others, by simp only [updQp_others]⟩
theorem retry_resends (hport : portSends s (qpCard qp) = true) (hheld : PacketsHeld s (o :: b)) (hwrites : ∀ x ∈ o :: b, x.2.2.2.2 = false)
    (hnak : i = .nakSequenceError qp psn → (bulkAt u (qpCard qp)).nakIn = (bulkAt s (qpCard qp)).nakIn + 1) :
    ∃ t, exec i s = .next t ∧ qpAt t qp = { qpAt s qp with
        retries := (qpAt s qp).retries + 1, late := none, ackAt := now s, spent := (qpAt s qp).spent + bytesIn (o :: b) } ∧
      (∀ m, m ≠ qp → qpAt t m = qpAt s m) ∧
      t.tx = s.tx ++ (o :: b).map (fun x => .rdma (qpCard qp) (qp % 4096) x.1 x.2.2.2.1 false) ∧
      (i = .nakSequenceError qp psn → (bulkAt t (qpCard qp)).nakIn = (bulkAt s (qpCard qp)).nakIn + 1) ∧
      { t with qps := s.qps, tx := s.tx, b0 := s.b0, b1 := s.b1 } = s := by
  have hagain := hu.qpBecomes_retried hcanon qp
  have hresent := resend_writes ((congrArg Qp.out hagain.here).trans hout) hpsn (hu.held_retried hheld qp) ((hu.portSends_retried qp _).trans hport) hwrites
  have hqp := hagain.updQp fun q => { q with late := none, ackAt := now u, spent := q.spent + bytesIn (o :: b) }
  obtain ⟨p0, p1, rfl⟩ := hu.ports
  exact ⟨_, hexec.trans (congrArg Host.Outcome.next ((hu.retry_again hretries).trans hresent)), hqp.here, hqp.others, rfl, hnak,
    by simp only [updQp_others]⟩
end

theorem retry_ends_in_error {i : Instr} (hcanon : s.canonical = true) (hu : NakCounted s u) (hexec : exec i s = .next (retry qp psn u))
    (hused : (qpAt s qp).used = true) (hretries : (bulkAt s (qpCard qp)).retryCnt ≤ (qpAt s qp).retries) (herror : (qpAt s qp).error = 0)
    (hnone : qpCmds s qp = []) :
    ∃ t, exec i s = .next t ∧ qpAt t qp = erredQp 5 (qpAt s qp) ∧ (∀ m, m ≠ qp → qpAt t m = qpAt s m) ∧
      { t with qps := s.qps, events := s.events, b0 := s.b0, b1 := s.b1 } = s := by
  have hretryCnt := hu.retryCnt (qpCard qp)
  obtain ⟨p0, p1, rfl⟩ := hu.ports
  have hfails := (retry_fails (psn := psn) (hretryCnt.trans_le hretries)).trans (qpError_in_service hused herror)
  have hqp := qpBecomes_inError (s := { s with b0 := p0, b1 := p1 }) hcanon qp 5
  rw [show qpCmds { s with b0 := p0, b1 := p1 } qp = [] from hnone, List.foldl_nil] at hfails
  exact ⟨_, hexec.trans (congrArg Host.Outcome.next hfails), hqp.here, hqp.others, by simp only [inError, event_spec, updQp_others]⟩

/-! ### Remote errors. -/
/-- A NAK that names a remote error puts the queue pair in error with its reason (R253). -/
theorem nakRemote_in_error {i : Instr} {reason : Nat} (hcanon : s.canonical = true) (hexec : exec i s = .next (qpError qp reason (countNak qp s)))
    (hused : (qpAt s qp).used = true) (herror : (qpAt s qp).error = 0) :
    exec i s = .next ((qpCmds s qp).foldl (fun s k => bulkEnd reason k s) (inError qp reason (countNak qp s))) ∧
      QpBecomes qp (erredQp reason (qpAt s qp)) s (inError qp reason (countNak qp s)) ∧
      (bulkAt (inError qp reason (countNak qp s)) (qpCard qp)).nakIn = (bulkAt s (qpCard qp)).nakIn + 1 ∧
      { inError qp reason (countNak qp s) with qps := s.qps, events := s.events, b0 := s.b0, b1 := s.b1 } = s := by
  have hnak := nakIn_countNak qp s
  obtain ⟨p0, p1, hports⟩ := (nakCounted_countNak qp s).ports
  rw [hports] at hexec hnak ⊢
  have hqp := qpBecomes_inError (s := { s with b0 := p0, b1 := p1 }) hcanon qp reason
  exact ⟨hexec.trans (congrArg Host.Outcome.next (qpError_in_service hused herror)), ⟨hqp.keys, hqp.here, hqp.others⟩, hnak, by simp only [inError, event_spec, updQp_others]⟩
theorem nakRemote_ends_read {i : Instr} {reason : Nat} (hcanon : s.canonical = true) (hexec : exec i s = .next (qpError qp reason (countNak qp s)))
    (hused : (qpAt s qp).used = true) (herror : (qpAt s qp).error = 0) (hs : Answered s k c) (hkind : c.kind = .bulkRead) (hdesc : c.desc.enable = true)
    (hkey : qpKeyOf c.desc = qp) :
    ∃ t, exec i s = .next t ∧ (qpAt t qp).error = reason ∧ t.cmds = [] ∧ t.cqes = s.cqes ++ [asPosted (completionOf c (7, 0x86) c.moved reason)] := by
  obtain ⟨hexec, hqp, -, -⟩ := nakRemote_in_error hcanon hexec hused herror
  obtain ⟨p0, p1, hports⟩ := (nakCounted_countNak qp s).ports
  have hkeeps : KeepsHost s (inError qp reason (countNak qp s)) := by
    rw [hports]
    rfl
  have herred := hs.of_keepsHost hkeeps
  have hends := herred.finishCmd_ends (7, 0x86) c.moved reason
  rw [qpCmds_only hs.cmds hkind hdesc hkey, List.foldl_cons, List.foldl_nil, bulkEnd_read herred.cmds hkind] at hexec
  exact ⟨_, hexec, congrArg Qp.error (hqp.congr hends.qps).here, hends.cmds, hends.cqes.trans (congrArg (· ++ _) (congrArg HostSide.cqes hkeeps))⟩

end Sys2Proof.Laws
end

