-- ==== Sys2Proof/Proofs/BulkPorts.lean ====
section
/-! OBLIGATION. O55: answers to the packets of queue pairs, rates, pauses and links of bulk ports (R241, R242, R246-R248, R250-R253). -/
namespace Sys2Proof.Laws
open Sys2Proof Sys2Proof.Machine

variable {s : State} {k : Nat} {p : CardId}

/-! ### Pauses and refusals. -/
/-- A pause of a port is over, and nothing waits for that. -/
def unpaused (b : BulkPort) : BulkPort := { b with paused := false, held := [] }
/-- What waited for the end of a pause, as it leaves (R250). -/
def heldTx (p : CardId) (m : Nat × Option (Nat × Nat)) : Tx := match m.2 with | none => .cnp p m.1 | some (psn, code) => .nak p m.1 psn code

theorem answerRoce_open (h : (bulkAt s p).paused = false) (m : Nat × Option (Nat × Nat)) : answerRoce p m s = send (heldTx p m) s := if_neg (by simp [h])
theorem answerRoce_paused (h : (bulkAt s p).paused = true) (m : Nat × Option (Nat × Nat)) :
    answerRoce p m s = updBulk p (fun b => { b with held := b.held ++ [m] }) s := if_pos h
theorem foldl_answers (l : List (Nat × Option (Nat × Nat))) (h : (bulkAt s p).paused = false) :
    l.foldl (fun s m => answerRoce p m s) s = { s with tx := s.tx ++ l.map (heldTx p) } := by
  rw [← foldl_send]
  induction l generalizing s with
  | nil => rfl
  | cons m l ih =>
    rw [List.foldl_cons, List.foldl_cons, answerRoce_open h]
    exact ih (by cases p <;> exact h)
/-- At the end of a pause what waited leaves, and then what the queue pairs send. -/
theorem pauseEnds_updates (p : CardId) (s : State) :
    ∃ qps l, pauseEnds p s = { updBulk p unpaused s with qps := qps, tx := s.tx ++ (bulkAt s p).held.map (heldTx p) ++ l } := by
  have hopen : (bulkAt (updBulk p unpaused s) p).paused = false := congrArg BulkPort.paused (bulkAt_updBulk_self p unpaused s)
  obtain ⟨qps, l, hgoes⟩ := transmits_portGoes p ((bulkAt s p).held.foldl (fun s m => answerRoce p m s) (updBulk p unpaused s))
  refine ⟨qps, l, hgoes.trans ?_⟩
  rw [foldl_answers _ hopen]
  cases p <;> rfl

/-- A request that is refused is counted, and answered with a NAK (R241). -/
def refusedOne (b : BulkPort) : BulkPort := { b with refused := b.refused + 1 }
theorem invalidRequestPacket_eq {op : BitVec 8} (hgid : (bulkAt s p).gid ≠ 0) (hop : op = 0x0A#8 ∨ op = 0x0C#8 ∨ op = 0x04#8) (qp psn : Nat) :
    exec (.invalidRequestPacket p qp psn op) s = .next (answerRoce p (qp, some (psn, 0x61)) (updBulk p refusedOne s)) := by
  have hrequest : (decide (13 ≤ op.toNat % 32 ∧ op.toNat % 32 ≤ 18) || op == 0x81#8) = false := by
    obtain rfl | rfl | rfl := hop <;> decide
  exact if_neg fun h => h.elim hgid (Bool.eq_false_iff.1 hrequest)

/-- A pause of a port begins (R250). -/
def pausing (b : BulkPort) : BulkPort := { b with paused := true }
theorem pfcFrame_other {prio : Nat} (h : (bulkAt s p).pfcEn = false ∨ prio ≠ (bulkAt s p).pfcPrio) (n : Nat) : exec (.pfcFrame p prio n) s = .next s :=
  congrArg Host.Outcome.next (if_pos (h.imp_left fun hoff => by rw [hoff]; rfl))
theorem pfcFrame_own {prio : Nat} (hen : (bulkAt s p).pfcEn = true) (hprio : prio = (bulkAt s p).pfcPrio) (n : Nat) :
    exec (.pfcFrame p prio n) s = .next (if n = 0 then pauseEnds p s else updBulk p pausing s) :=
  congrArg Host.Outcome.next (if_neg (by simp [hen, hprio]))
/-- The link of a port comes up (R242). -/
def linked (b : BulkPort) : BulkPort := { b with linkUp := true, downAt := none }
theorem bulkLinkUp_eq (p : CardId) (s : State) : ∃ qps, exec (.bulkLinkUp p) s = .next (pauseEnds p { updBulk p linked s with qps := qps }) := ⟨_, rfl⟩

/-! ### A link down for 64 frames (R253). -/
/-- A queue pair drops its packets, and the transfers they are of end with reason 6. -/
def dropsTransfers (s : State) (q : Nat × Qp) : State :=
  ((q.2.out.map (·.2.1) ++ q.2.todo.map (·.1)).eraseDups).foldl (fun s k => if (tfind s.cmds k).isSome then bulkEnd 6 k s else s) (updQp q.1 qpCleared s)
/-- The queue pairs of a port with packets outstanding. -/
def busyQps (p : CardId) (s : State) : Tbl Qp := s.qps.filter fun q => decide (qpCard q.1 = p) && !q.2.out.isEmpty

theorem dropsTransfers_idle (h : s.cmds = []) (q : Nat × Qp) : dropsTransfers s q = updQp q.1 qpCleared s :=
  foldl_fixed_of_mem fun k _ => if_neg (by simp [h, tfind])
theorem foldl_dropsTransfers (l : Tbl Qp) (h : s.cmds = []) (hqps : rising s.qps = true) :
    ∃ qps, l.foldl dropsTransfers s = { s with qps := qps } ∧ ∀ k, tget {} qps k = if k ∈ l.map Prod.fst then qpCleared (qpAt s k) else qpAt s k := by
  induction l generalizing s with
  | nil => exact ⟨s.qps, rfl, fun _ => rfl⟩
  | cons q l ih =>
    obtain ⟨qps, hfold, hget⟩ := ih (s := updQp q.1 qpCleared s) h (rising_tupd _ _ _ _ hqps)
    refine ⟨qps, ?_, fun k => (hget k).trans ?_⟩
    · rw [List.foldl_cons, dropsTransfers_idle h, hfold]
      rfl
    · rw [qpAt_updQp _ _ _ _ hqps, List.map_cons]
      by_cases hk : k = q.1
      · rw [if_pos hk, if_pos (List.mem_cons.2 (.inl hk)), ← hk]
        exact ite_self (qpCleared (qpAt s k))
      · simp only [hk, if_false, List.mem_cons, false_or]
theorem tget_of_mem {α : Type} {d v : α} {m : Tbl α} (h : rising m = true) (hv : (k, v) ∈ m) : tget d m k = v := by
  induction m with
  | nil => cases hv
  | cons q m ih =>
    obtain ⟨i, x⟩ := q
    have hkeys := (rising_iff _).1 h
    simp only [List.map_cons, List.pairwise_cons] at hkeys
    obtain ⟨hbelow, htail⟩ := hkeys
    rw [tget]
    rcases List.mem_cons.1 hv with heq | hrest
    · cases heq
      exact if_pos rfl
    · rw [if_neg (hbelow k (List.mem_map_of_mem hrest)).ne]
      exact ih ((rising_iff _).2 htail) hrest
theorem bulkLinkDownExpiry_eq {f : Nat} (hdown : (bulkAt s p).downAt = some f) (hlong : elapsed s f 64 = true) :
    exec (.bulkLinkDownExpiry p) s = .next ((busyQps p s).foldl dropsTransfers s) := by
  show execBulkLinkDownExpiry p s = _
  unfold execBulkLinkDownExpiry
  rw [hdown]
  exact if_neg (by simp [hlong])
theorem mem_busyQps (hqps : rising s.qps = true) (p : CardId) (k : Nat) :
    k ∈ (busyQps p s).map Prod.fst ↔ qpCard k = p ∧ (qpAt s k).out ≠ [] := by
  simp only [List.mem_map, busyQps, List.mem_filter, Bool.and_eq_true, decide_eq_true_eq, Bool.not_eq_true', List.isEmpty_eq_false_iff]
  refine ⟨?_, fun ⟨hport, hout⟩ => ?_⟩
  · rintro ⟨⟨i, q⟩, ⟨hq, hport, hout⟩, rfl⟩
    exact ⟨hport, by rw [qpAt, tget_of_mem hqps hq]; exact hout⟩
  · have hlisted := (tget_mem ({} : Qp) s.qps k).resolve_left fun hnone => hout (congrArg Qp.out hnone)
    exact ⟨_, ⟨hlisted, hport, hout⟩, rfl⟩

/-! ### The statement. -/
/-- Settles O55: the rows of a queue pair's packets are the lemmas above on retries, acknowledgements and responses; each row of a port is one
update of it, and the end of a pause adds what its queue pairs send. -/
theorem bulkPortsMoveDataAndRecover : Obligations.BulkPortsMoveDataAndRecover := by
  refine ⟨fun qp psn cnt k c a b o s hcanon hused hout hpsn hfirst hpackets hcmds hkey hbufs => ?acknowledged, ?retries, ?errors, ?responses, ?cnp, ?recover,
    ?refused, ?arp, ?neighbor, ?pfc, fun p s => ⟨?pause, ⟨s, rfl, rfl⟩, ?down, ?up⟩, ?expiry⟩
  case acknowledged =>
    have hexec := rdmaAck_only (cnt := cnt) hout hpsn hfirst (fun x hx => (hpackets x hx).1) (fun x hx => (hpackets x hx).2.1) hcmds hbufs
    refine ⟨fun hmore => acknowledged_transfer_goes_on hcanon hout (fun x hx => (hpackets x hx).2.2) hkey hmore hexec, ?_⟩
    intro hb hkind hst hpieces htodo hstatus hmissed hheard hsvc hsq hcid hcurrent hlink hrdy _ hnss hslices
    exact acknowledged_transfer_ends hcanon (hb ▸ hout) hkey ⟨hcmds, hmissed, hsvc, hsq, hcid, hheard, hcurrent, hlink, hrdy, hnss, hslices⟩ hkind hst hpieces
      htodo hstatus hexec
  case retries =>
    intro i qp psn o b s hcanon hused hout hpsn hi
    obtain ⟨u, hexec, hu, hnak⟩ := exec_retry hout hpsn hi
    refine ⟨fun hretries hport hheld => ?_, fun hretries hport hpackets => ?_, fun hretries herror hnone => ?_⟩
    · exact retry_waits hcanon hu hexec hout hpsn hretries hport hheld
    · exact retry_resends hcanon hu hexec hout hpsn hretries hport (fun x hx => (hpackets x hx).2) (fun x hx => (hpackets x hx).1) hnak
    · exact retry_ends_in_error hcanon hu hexec hused hretries herror hnone
  case errors =>
    intro r hr qp s hcanon hused herror
    have hexec : exec (r.1 qp) s = .next (qpError qp r.2 (countNak qp s)) := by
      simp only [List.mem_cons, List.not_mem_nil, or_false] at hr
      obtain rfl | rfl := hr <;> rfl
    refine ⟨fun hnone => ?_, fun k c hcmds hkind hdesc hkey _ _ hmissed hheard hsvc hsq hcid hcurrent hlink hrdy hnss hslices => ?_⟩
    · obtain ⟨hexec, hqp, hnak, hrest⟩ := nakRemote_in_error hcanon hexec hused herror
      rw [hnone] at hexec
      exact ⟨_, hexec, hqp.here, hqp.others, hnak, hrest⟩
    · exact nakRemote_ends_read hcanon hexec hused herror ⟨hcmds, hmissed, hsvc, hsq, hcid, hheard, hcurrent, hlink, hrdy, hnss, hslices⟩ hkind hdesc hkey
  case responses =>
    intro qp psn cnt k total bytes c o b s hcanon hused hout ho hpackets
    have hreads : ∀ x ∈ o :: b, x.2.2.2.2 = true := fun x hx => (hpackets x hx).1
    have hk : ∀ x ∈ o :: b, x.2.1 = k := fun x hx => (hpackets x hx).2
    refine ⟨fun hpsn hcmds hkey htotal hasked hmore => ?_, fun hne hlater hport hheld => ?_⟩
    · subst htotal
      exact response_brings_data hcanon hout hreads hk ho hpsn hcmds hkey hasked hmore
    · exact response_beyond_gap hcanon hout hreads hk hne hlater hport hheld
  case cnp =>
    intro qp s hcanon
    have hqp := (QpBecomes.refl qp hcanon).updQp fun q => { q with rate := max 10 (q.rate * (256 - (bulkAt s (qpCard qp)).cut) / 256), cnpAt := now s }
    exact ⟨_, rfl, hqp.here, hqp.others, rfl⟩
  case recover =>
    intro qp s hcanon hrate hdue
    have hqp := (QpBecomes.refl qp hcanon).updQp fun q => { q with rate := min 8000 (q.rate + (bulkAt s (qpCard qp)).step), cnpAt := now s }
    exact ⟨_, if_pos ⟨hrate, hdue⟩, hqp.here, hqp.others, rfl⟩
  case refused =>
    intro p qp psn op s hgid hop
    have hport := bulkAt_updBulk_self p refusedOne s
    refine ⟨_, invalidRequestPacket_eq hgid hop qp psn, ?_⟩
    cases hpaused : (bulkAt s p).paused with
    | false =>
      rw [answerRoce_open ((congrArg BulkPort.paused hport).trans hpaused)]
      exact ⟨fun _ => ⟨by simp only [send_tx, updBulk_others]; rfl, hport⟩, nofun, bulkAt_updBulk_other p refusedOne s, by simp only [send_others, updBulk_others]⟩
    | true =>
      rw [answerRoce_paused ((congrArg BulkPort.paused hport).trans hpaused)]
      exact ⟨nofun, fun _ => ⟨by simp only [updBulk_others], (bulkAt_updBulk_self p _ _).trans (by rw [hport]; rfl)⟩,
        (bulkAt_updBulk_other p _ _).trans (bulkAt_updBulk_other p refusedOne s), by simp only [updBulk_others]⟩
  case arp =>
    intro p ip sip mac s
    by_cases hown : ipv4Of (bulkAt s p).gid = some ip
    · exact ⟨_, if_pos hown, fun _ => rfl, fun hne => absurd hown hne, rfl⟩
    · exact ⟨s, if_neg hown, fun heq => absurd heq hown, fun _ => rfl, rfl⟩
  case neighbor =>
    intro p g sender s
    by_cases hown : (bulkAt s p).gid ≠ 0 ∧ (bulkAt s p).gid = g
    · exact ⟨_, if_pos hown, fun _ _ => rfl, fun hne => absurd hown.2 hne, rfl⟩
    · exact ⟨s, if_neg hown, fun hg heq => absurd ⟨heq ▸ hg, heq⟩ hown, fun _ => rfl, rfl⟩
  case pfc =>
    intro p prio n s
    by_cases hother : (bulkAt s p).pfcEn = false ∨ prio ≠ (bulkAt s p).pfcPrio
    · refine ⟨s, pfcFrame_other hother n, fun _ => rfl, fun hen hprio => ?_, fun hen hprio => ?_, rfl⟩
      all_goals exact absurd hother (by simp [hen, hprio])
    have hown : (bulkAt s p).pfcEn = true ∧ prio = (bulkAt s p).pfcPrio := by simpa using hother
    refine ⟨_, pfcFrame_own hown.1 hown.2 n, fun h => absurd h hother, fun _ _ hn => ?_, fun _ _ hn => ?_, ?_⟩
    · rw [if_neg hn]
      exact ⟨bulkAt_updBulk_self p pausing s, updBulk_rest p pausing s⟩
    · rw [if_pos hn]
      rfl
    · split
      · obtain ⟨qps, l, hends⟩ := pauseEnds_updates p s
        rw [hends]
        exact bulkAt_updBulk_other p unpaused s
      · exact bulkAt_updBulk_other p pausing s
  case pause =>
    obtain ⟨qps, l, hends⟩ := pauseEnds_updates p s
    refine ⟨pauseEnds p s, rfl, ?_⟩
    rw [hends]
    exact ⟨bulkAt_updBulk_self p unpaused s, bulkAt_updBulk_other p unpaused s, ⟨l, rfl⟩, by simp only [updBulk_others]⟩
  case down =>
    refine ⟨_, rfl, congrArg BulkPort.linkUp (bulkAt_updBulk_self p _ s), ?_, bulkAt_updBulk_other p _ s, updBulk_rest p _ s⟩
    refine (congrArg BulkPort.downAt (bulkAt_updBulk_self p _ s)).trans ?_
    cases (bulkAt s p).downAt <;> rfl
  case up =>
    obtain ⟨qps, hexec⟩ := bulkLinkUp_eq p s
    obtain ⟨qps', l, hends⟩ := pauseEnds_updates p { updBulk p linked s with qps := qps }
    refine ⟨_, hexec, ?_⟩
    rw [hends]
    refine ⟨(bulkAt_updBulk_self p unpaused _).trans (congrArg unpaused (bulkAt_updBulk_self p linked s)),
      (bulkAt_updBulk_other p unpaused _).trans (bulkAt_updBulk_other p linked s), by simp only [updBulk_others]⟩
  case expiry =>
    intro p f s hcanon hdown hlong hcmds
    have hqps := rising_qps hcanon
    obtain ⟨qps, hfold, hget⟩ := foldl_dropsTransfers (busyQps p s) hcmds hqps
    refine ⟨_, bulkLinkDownExpiry_eq hdown hlong, ?_⟩
    rw [hfold]
    exact ⟨fun k => (hget k).trans (by simp only [mem_busyQps hqps]), rfl⟩

end Sys2Proof.Laws
end
